-- ==== Sys2Proof/Word.lean ====
section
/-!
DEFINITION. The machine's words: the abbreviations for the widths the spec gives (R7, R137), and the value a scalar
register holds, 128 bits and a tag (R137).
-/
namespace Sys2Proof

/-- A byte of memory. -/
abbrev Byte := BitVec 8
/-- A 32-bit instruction word (R272). -/
abbrev W32 := BitVec 32
/-- The integer part of a scalar register, a mask register, a special register (R137). -/
abbrev W64 := BitVec 64
/-- All bits of a scalar register (R137). -/
abbrev W128 := BitVec 128
/-- A vector register, and a 64-byte line (R137, R166). -/
abbrev V512 := BitVec 512
/-- A 6-bit register or number field of an instruction, as the spec numbers it (R273, R275). -/
abbrev F6 := BitVec 6

/-- What a `c` or `w` register, or a 16-byte granule, holds: 128 bits and a tag (R137). -/
structure Cap where
  bits : W128
  tag  : Bool
deriving DecidableEq, Repr

/-- The untagged zero that `c0` reads as (R13). -/
def Cap.zero : Cap := ⟨0, false⟩

/-- An untagged integer: bits [63:0] hold it, bits [127:64] are zero (R13, `Wr`). -/
def Cap.ofInt (v : W64) : Cap := ⟨v.setWidth 128, false⟩

/-- Bits [63:0] of a scalar value, whatever its tag (R296). -/
def Cap.int (c : Cap) : W64 := c.bits.setWidth 64

end Sys2Proof
end

