-- ==== Sys2Proof/Types.lean ====
section
/-!
DEFINITION. The data that instructions and messages carry: the fields of an extended word (R280), the scalar slot of a pair
word (R278), packets (R81), accesses at a memory port (R39), and the arguments of the module's own steps.
-/
namespace Sys2Proof

/-- The fields of words 0 to 2 of an extended instruction that its operation does not already hold (R280, R282). -/
structure Ext where
  /-- B of word 0, where the base format has no B. -/
  b     : F6 := 0
  /-- C of word 0, the third source. -/
  c     : F6 := 0
  /-- E, the second destination. -/
  e     : F6 := 0
  /-- K, the mask register; 0 means no mask. -/
  k     : BitVec 3 := 0
  /-- Z: zeroing. -/
  z     : Bool := false
  /-- SC, scope code. -/
  sc    : BitVec 3 := 0
  /-- ORD: bit 0 acquire, bit 1 release. -/
  ord   : BitVec 2 := 0
  /-- RM, rounding mode code. -/
  rm    : BitVec 2 := 0
  /-- FF, first-fault or non-blocking. -/
  ff    : Bool := false
  /-- T2, type or size. -/
  t2    : BitVec 4 := 0
  /-- X, operation flags. -/
  x     : BitVec 4 := 0
  /-- IMM32. -/
  imm   : W32 := 0
  /-- SUB[5] of a widened M or VM word: the index scale (R282). -/
  scale : Bool := false
deriving DecidableEq, Repr

/-- The operands of an extended-only operation (R280): word 0's D and A, the other fields, and LIT64 when L = 11. -/
structure XOp where
  d   : F6
  a   : F6
  x   : Ext
  lit : Option W64
deriving DecidableEq, Repr

/-- The scalar slot and the guard of a pair word (R278). -/
structure PairSlot where
  /-- GP, guard polarity. -/
  gp  : Bool
  /-- GK, guard mask register. -/
  gk  : BitVec 3
  sop : F6
  d   : F6
  a   : F6
  /-- Scalar B or the 8-bit immediate. -/
  b   : BitVec 8
deriving DecidableEq, Repr

/-- Why a fetched instruction does not decode: `ILLEGAL`, or `RESERVED_FIELD` with 32 × word + bit of the lowest
nonzero reserved bit (R235, R283). -/
inductive EncFault where
  | illegal
  | reserved (pos : Nat)
deriving DecidableEq, Repr

/-- A packet (R81): the header's fields and the payload as 8-byte words. -/
structure Packet where
  rkey    : BitVec 32 := 0
  mode    : BitVec 8 := 0
  scope   : BitVec 3 := 0
  size    : BitVec 3 := 0
  aux     : BitVec 16 := 0
  addr    : W64 := 0
  seq     : BitVec 16 := 0
  gen     : BitVec 4 := 0
  tag     : BitVec 10 := 0
  retx    : Bool := false
  thr     : BitVec 3 := 0
  ctx     : BitVec 6 := 0
  priv    : Bool := false
  cls     : BitVec 3 := 0
  len     : BitVec 8 := 0
  status  : BitVec 4 := 0
  kind    : BitVec 6 := 0
  vn      : BitVec 2 := 0
  dst     : BitVec 32 := 0
  src     : BitVec 32 := 0
  /-- Bits [209:208], reserved. -/
  resv    : BitVec 2 := 0
  payload : List W64 := []
deriving DecidableEq, Repr

/-- The identity of a master (R104): context, privilege and class. -/
structure Master where
  ctx  : BitVec 6
  priv : Bool
  cls  : BitVec 3
deriving DecidableEq, Repr

/-- What an access at a point of coherence does (R39, R324, R327, R329). -/
inductive AccKind where
  | read
  | write
  | amo (op : BitVec 3)
  | cas
  /-- A full/empty load, by its code of R324. -/
  | ldfe (mode : BitVec 2)
  /-- A full/empty store, by its code of R324. -/
  | stfe (mode : BitVec 2)
deriving DecidableEq, Repr

/-- A thread, by its team: a team keeps its number when it is saved and bound to another core (R125, R126). -/
structure ThrId where
  launch : BitVec 16
  team   : Nat
  thr    : Nat
deriving DecidableEq, Repr

/-- Who waits at a retry list or a wait list: a thread of this module, the sender of a packet, a launch (R85, R163, R193). -/
inductive Waiter where
  | thread (t : ThrId)
  | remote (p : Packet)
  /-- A gate of a launch (R118), and a completion version that a launch publishes (R410). -/
  | gate (launch : BitVec 16)
  | finish (launch : BitVec 16)
deriving DecidableEq, Repr

/-- Who waits for a page-fault service (R177, R232, R410): a thread, a gateway's ticket, an engine, a launch's completion action. -/
inductive SvcWaiter where
  | thread (t : ThrId)
  | ticket (gw num : Nat)
  | engine (core : Nat) (copy : Bool)
  | finish (rejected : Bool) (launch : BitVec 16)
deriving DecidableEq, Repr

/-- An access at a memory port or cache port (R39, R49): `size` bytes at physical address `pa`. -/
structure PortAccess where
  pa     : Nat
  size   : Nat
  kind   : AccKind
  /-- The stored value, or the operand of an atomic. -/
  data   : W128 := 0
  /-- The expected value of a compare-and-swap. -/
  cmp    : W128 := 0
  /-- Key index of the access (R105). -/
  key    : BitVec 10 := 0
  master : Master
  waiter : Option Waiter := none
  /-- Times it was refused a place in a retry list (R59). -/
  tries  : Nat := 0
deriving DecidableEq, Repr

/-- What a scrub visit finds in a block (R45). -/
inductive ScrubResult where
  | clean
  | corrected
  | uncorrectable
deriving DecidableEq, Repr

/-- The kinds of link (R93, LTYPE) with the number of the link's sender within its die. -/
inductive LinkId where
  /-- Mesh: 4 × site + direction. -/
  | mesh (die n : Nat)
  /-- Die link: gateway 0–2. -/
  | dieLink (die gw : Nat)
  /-- Cirrus: gateway 0–5. -/
  | cirrus (die gw : Nat)
deriving DecidableEq, Repr

/-- A packet on a link: on its second die-link hop (R67), a request of class B (R65), and the packet. -/
structure Carried where
  hop2 : Bool := false
  clsB : Bool := false
  p    : Packet
deriving DecidableEq, Repr

/-- A Lull marker (R92): the network and class it is for, the permits held, the FSEQ of the last PRET received. -/
structure Mark where
  net  : Nat
  cls  : Nat
  held : Nat
  pret : BitVec 16
deriving DecidableEq, Repr

/-- A flit (R71), with the outcome of its CRC check at the receiver. -/
structure Flit where
  crcOk   : Bool
  fseq    : BitVec 16
  ack     : BitVec 16
  nak     : Bool
  /-- Hop class whose permits PRET returns. -/
  hop2    : Bool
  /-- Permits returned for request A, request B, reply, notice. -/
  pret    : Vector (BitVec 3) 4
  /-- The offset of the first header that begins in the payload, 0xFF for none. -/
  start   : BitVec 8 := 0xFF
  /-- EMPTY: no packet data; MARKER: the payload is a marker. -/
  empty   : Bool := false
  marker  : Option Mark := none
  /-- The packets whose last byte lies in the payload. -/
  packets : List Carried
deriving DecidableEq, Repr

/-- A region-table entry (R76). -/
structure Region where
  vbase  : BitVec 56 := 0
  length : W64 := 0
  ctx    : BitVec 6 := 0
  /-- LD, ST, ATOM, FE, CALL from bit 0 upward. -/
  perm   : BitVec 5 := 0
  gen    : BitVec 20 := 0
  v      : Bool := false
deriving DecidableEq, Repr

/-- An access-table entry (R104). -/
structure AccessEntry where
  limit : BitVec 40 := 0
  base  : BitVec 40 := 0
  cls   : BitVec 8 := 0
  ctxv  : BitVec 6 := 0
  ctxm  : BitVec 6 := 0
  prv   : BitVec 2 := 0
  a     : Bool := false
  w     : Bool := false
  r     : Bool := false
  v     : Bool := false
deriving DecidableEq, Repr

/-- What an access asks of an L2 slice (R169, R175). -/
inductive L2Kind where
  | read
  | write
  /-- A region- or die-scope atomic, which recalls L1 ownership. -/
  | atomic
  /-- A request of exclusive ownership by a quad, for a core- or quad-scope atomic. -/
  | own (quad : Nat)
deriving DecidableEq, Repr

/-- A rectangle of a tensor region (R199). -/
structure Rect where
  row  : Nat
  col  : Nat
  rows : Nat
  cols : Nat
deriving DecidableEq, Repr

/-- The two engines of a core (R177). -/
inductive Engine where
  | copy
  | gather
deriving DecidableEq, Repr

/-- The level at which state is lost (R252, kind 0x70). -/
inductive LossLevel where
  | l2
  | l1
  /-- A memory-side slice. -/
  | slice
  /-- A sector of the capacity cache. -/
  | capCache
deriving DecidableEq, Repr

/-- A change of a range of CXL memory (R94): `base` is bound to this module, or taken back. -/
structure CxlChange where
  bound : Bool
  base  : Nat
deriving DecidableEq, Repr

/-- Where a fetch failed (R235): the cause code and the value its trap sets. -/
structure FetchFault where
  cause : BitVec 8
  value : W64
deriving DecidableEq, Repr

/-- A remote matrix command (R378): the target accumulator and the operands. -/
structure MatrixCmd where
  /-- 0 `mmul`, 1 `mq4`, 2 `mzero`. -/
  op     : BitVec 2
  fmt    : BitVec 4
  acc    : BitVec 2
  a      : Cap
  b      : Cap
  desc   : W64
  rm     : BitVec 2
  launch : BitVec 16
  team   : Nat
  /-- The sender. -/
  ctx    : BitVec 6
  core   : Nat
  thr    : Nat
deriving DecidableEq, Repr

end Sys2Proof
end

