-- ==== Sys2Proof/Machine/Flags.lean ====
section
/-!
DEFINITION. The floating-point formats, rounding modes and flags (R254–R259): what a bit pattern of a format is worth, and
`Round` with the flags it sets. Every result of the floating-point operations is made here.
-/
namespace Sys2Proof.Machine

/-- A floating-point format: exponent and fraction widths and bias (R254). -/
structure FFmt where
  ew   : Nat
  fw   : Nat
  bias : Nat
deriving DecidableEq, Repr

def fp32 : FFmt := ⟨8, 23, 127⟩
def fp16 : FFmt := ⟨5, 10, 15⟩
def bf16 : FFmt := ⟨8, 7, 127⟩
def f8e4 : FFmt := ⟨4, 3, 7⟩
def f8e5 : FFmt := ⟨5, 2, 15⟩

/-- The width of a format in bits. -/
def FFmt.width (f : FFmt) : Nat := 1 + f.ew + f.fw

/-- The bits of +infinity: exponent all ones, fraction zero (R255). -/
def FFmt.infBits (f : FFmt) : Nat := (2 ^ f.ew - 1) * 2 ^ f.fw

/-- The sign bit's weight. -/
def FFmt.signBit (f : FFmt) : Nat := 2 ^ (f.ew + f.fw)

/-- The default NaN: positive, only the quiet bit set (R255). -/
def FFmt.nanBits (f : FFmt) : Nat := f.infBits + 2 ^ (f.fw - 1)

/-- What an encoded element is: a NaN, an infinity, or (−1)^neg × m × 2^e (R254, R255). -/
inductive Num where
  | nan (signalling : Bool)
  | inf (neg : Bool)
  | fin (neg : Bool) (m : Nat) (e : Int)
deriving DecidableEq, Repr

/-- The value of the bits of a format (R254, R255). -/
def FFmt.decode (f : FFmt) (w : Nat) : Num :=
  let neg := w / f.signBit % 2 = 1
  let ex := w / 2 ^ f.fw % 2 ^ f.ew
  let fr := w % 2 ^ f.fw
  if ex = 2 ^ f.ew - 1 then
    if fr = 0 then .inf neg else .nan (fr / 2 ^ (f.fw - 1) % 2 = 0)
  else if ex = 0 then .fin neg fr (1 - (f.bias : Int) - f.fw)
  else .fin neg (2 ^ f.fw + fr) ((ex : Int) - f.bias - f.fw)

/-- Rounding modes by their codes (R256). -/
inductive RMode where
  | rne
  | rz
  | ru
  | rd
deriving DecidableEq, Repr

/-- The mode of a code (R256). -/
def RMode.ofCode (c : BitVec 2) : RMode :=
  match c.toNat with
  | 0 => .rne
  | 1 => .rz
  | 2 => .ru
  | _ => .rd

/-- The bits of FPFLAGS (R258). -/
abbrev FFlags := BitVec 5
def flagNV : FFlags := 1
def flagDZ : FFlags := 2
def flagOF : FFlags := 4
def flagUF : FFlags := 8
def flagNX : FFlags := 16

/-- A result and the flags it sets. -/
structure FRes where
  bits  : Nat
  flags : FFlags
deriving DecidableEq, Repr

/-- NV when the condition holds. -/
def nvIf (c : Bool) : FFlags := if c then flagNV else 0

/-- The default NaN of a format (R255), with NV when the cause is invalid. -/
def FFmt.nan (f : FFmt) (invalid : Bool) : FRes := ⟨f.nanBits, nvIf invalid⟩

/-- An infinity of the given sign. -/
def FFmt.inf (f : FFmt) (neg : Bool) : Nat := f.infBits + (if neg then f.signBit else 0)

/-- A zero of the given sign. -/
def FFmt.zero (f : FFmt) (neg : Bool) : Nat := if neg then f.signBit else 0

/-- Whether the magnitude q + r/2^s, r < 2^s, is rounded up (R256). `sticky` says that the exact value lies above it by
less than one unit of r. -/
def roundUp (rm : RMode) (neg : Bool) (q r s : Nat) (sticky : Bool) : Bool :=
  let inexact := r != 0 || sticky
  match rm with
  | .rne => s != 0 && (decide (2 * r > 2 ^ s) || (decide (2 * r = 2 ^ s) && (sticky || q % 2 = 1)))
  | .rz  => false
  | .ru  => inexact && !neg
  | .rd  => inexact && neg

/-- Rounds m × 2^e at unit 2^u: the rounded count of units, and whether it is inexact (R256). -/
def roundAt (rm : RMode) (neg : Bool) (m : Nat) (e u : Int) (sticky : Bool) : Nat × Bool :=
  let s := (u - e).toNat
  let x := m * 2 ^ (e - u).toNat
  let q := x / 2 ^ s
  let r := x % 2 ^ s
  (q + (if roundUp rm neg q r s sticky then 1 else 0), r != 0 || sticky)

/-- What overflow delivers: infinity when the mode rounds away from zero in that direction, otherwise the largest
finite value (R257); with `sat` always the largest finite value (R260). -/
def FFmt.overflow (f : FFmt) (rm : RMode) (neg sat : Bool) : Nat :=
  let away := match rm with
    | .rne => true
    | .rz => false
    | .ru => !neg
    | .rd => neg
  (if away && !sat then f.infBits else f.infBits - 1) + (if neg then f.signBit else 0)

/-- `Round` of a nonzero finite value (−1)^neg × m × 2^e, m > 0, with the flags of R257. With `sticky` the exact
magnitude lies strictly between m × 2^e and (m + 1) × 2^e. -/
def FFmt.round (f : FFmt) (rm : RMode) (neg : Bool) (m : Nat) (e : Int) (sticky : Bool := false) (sat : Bool := false) : FRes :=
  let ex : Int := e + (Nat.log2 m : Int)
  let emin : Int := 1 - (f.bias : Int)
  let u := max ex emin - (f.fw : Int)
  let (q, inexact) := roundAt rm neg m e u sticky
  let mag := ((u + f.fw + f.bias).toNat - 1) * 2 ^ f.fw + q
  if mag ≥ f.infBits then ⟨f.overflow rm neg sat, flagOF ||| flagNX⟩
  else
    let (q2, _) := roundAt rm neg m e (ex - f.fw) sticky
    let tiny := decide (ex < emin) && !(decide (ex + 1 = emin) && decide (q2 = 2 ^ (f.fw + 1)))
    let fl : FFlags := if inexact then (if tiny then flagUF ||| flagNX else flagNX) else 0
    ⟨mag + (if neg then f.signBit else 0), fl⟩

/-- An exact dyadic value n × 2^e. -/
structure Dy where
  n : Int
  e : Int
deriving DecidableEq, Repr

def Dy.zero : Dy := ⟨0, 0⟩
def Dy.add (a b : Dy) : Dy :=
  if a.n = 0 then b else if b.n = 0 then a else
  let e := min a.e b.e
  ⟨a.n * 2 ^ (a.e - e).toNat + b.n * 2 ^ (b.e - e).toNat, e⟩
def Dy.mul (a b : Dy) : Dy := ⟨a.n * b.n, a.e + b.e⟩
def Dy.neg (a : Dy) : Dy := ⟨-a.n, a.e⟩

/-- The exact value of a finite number. -/
def dyOf (neg : Bool) (m : Nat) (e : Int) : Dy := ⟨if neg then -(m : Int) else m, e⟩

/-- `Round` of an exact value; a zero takes the given sign. -/
def FFmt.roundDy (f : FFmt) (rm : RMode) (x : Dy) (zeroNeg : Bool) (sat : Bool := false) : FRes :=
  if x.n = 0 then ⟨f.zero zeroNeg, 0⟩
  else f.round rm (decide (x.n < 0)) x.n.natAbs x.e false sat

end Sys2Proof.Machine
end

