-- ==== Sys2Proof/Machine/Fp.lean ====
section
/-!
DEFINITION. The floating-point operations on elements: sums, products, fused multiply-add, minimum and maximum, compares,
conversions, dot products and reductions, the mathematical functions, QN4 and the exact accumulators (R254–R270, R347–R360).
-/
namespace Sys2Proof.Machine

def Num.isSig : Num → Bool
  | .nan s => s
  | _ => false
def Num.isNan : Num → Bool
  | .nan _ => true
  | _ => false
def Num.neg : Num → Num
  | .nan s => .nan s
  | .inf n => .inf (!n)
  | .fin n m e => .fin (!n) m e
def Num.isZero : Num → Bool
  | .fin _ 0 _ => true
  | _ => false
def Num.isNeg : Num → Bool
  | .nan _ => false
  | .inf n => n
  | .fin n _ _ => n

/-- The sign of the zero sum of two exact values with the given signs, when both are zero or they cancel (R257). -/
def zeroSign (rm : RMode) (na nb : Bool) : Bool := if na = nb then na else rm = .rd

/-- Sum of two numbers, rounded once (R257, R259). -/
def fAdd (f : FFmt) (rm : RMode) (a b : Num) : FRes :=
  match a, b with
  | .nan s, y => f.nan (s || y.isSig)
  | _, .nan s => f.nan s
  | .inf x, .inf y => if x = y then ⟨f.inf x, 0⟩ else f.nan true
  | .inf x, _ => ⟨f.inf x, 0⟩
  | _, .inf y => ⟨f.inf y, 0⟩
  | .fin na ma ea, .fin nb mb eb =>
    f.roundDy rm ((dyOf na ma ea).add (dyOf nb mb eb)) (zeroSign rm na nb)

/-- Product of two numbers before rounding: a number, exact (R257). `nan true` when it is invalid. -/
def nMul (a b : Num) : Num :=
  match a, b with
  | .nan s, y => .nan (s || y.isSig || false)
  | x, .nan s => .nan (s || x.isSig)
  | .inf x, .inf y => .inf (x != y)
  | .inf x, .fin n m _ => if m = 0 then .nan true else .inf (x != n)
  | .fin n m _, .inf y => if m = 0 then .nan true else .inf (n != y)
  | .fin na ma ea, .fin nb mb eb => .fin (na != nb) (ma * mb) (ea + eb)

/-- `Round` of a number of any kind to a format; an exact zero keeps its sign. -/
def FFmt.ofNum (f : FFmt) (rm : RMode) (x : Num) (sat : Bool := false) : FRes :=
  match x with
  | .nan s => f.nan s
  | .inf n => if sat then ⟨f.overflow .rz n true, 0⟩ else ⟨f.inf n, 0⟩
  | .fin n m e => if m = 0 then ⟨f.zero n, 0⟩ else f.round rm n m e false sat

def fMul (f : FFmt) (rm : RMode) (a b : Num) : FRes := f.ofNum rm (nMul a b)

/-- c + a × b with one rounding (R348). An invalid product gives NV even when c is a quiet NaN. -/
def fFma (f : FFmt) (rm : RMode) (c a b : Num) : FRes :=
  match nMul a b with
  | .nan s => f.nan (s || c.isSig)
  | p => fAdd f rm c p

/-- −(c + a × b): the exact value negated and rounded once; a zero is the negated zero of the sum (R348). -/
def fNfma (f : FFmt) (rm : RMode) (c a b : Num) : FRes :=
  match nMul a b, c with
  | .nan s, c => f.nan (s || c.isSig)
  | .fin np mp ep, .fin nc mc ec =>
    f.roundDy rm ((dyOf np mp ep).add (dyOf nc mc ec)).neg (!zeroSign rm nc np)
  | p, c => fAdd f rm c.neg p.neg

/-- |a − b| with one rounding (R347); an exact zero is +0. -/
def fAbd (f : FFmt) (rm : RMode) (a b : Num) : FRes :=
  match a, b with
  | .fin na ma ea, .fin nb mb eb =>
    let d := (dyOf na ma ea).add (dyOf (!nb) mb eb)
    f.roundDy rm ⟨d.n.natAbs, d.e⟩ false
  | _, _ => let r := fAdd f rm a b.neg; ⟨r.bits % f.signBit, r.flags⟩

/-- Compares finite or infinite numbers; −0 = +0. -/
def numCmp (a b : Num) : Ordering :=
  match a, b with
  | .inf x, .inf y => if x = y then .eq else if x then .lt else .gt
  | .inf x, _ => if x then .lt else .gt
  | _, .inf y => if y then .gt else .lt
  | .fin na ma ea, .fin nb mb eb => compare ((dyOf na ma ea).add (dyOf (!nb) mb eb)).n 0
  | _, _ => .eq

/-- The order in which −0 < +0 (R347, R356). -/
def numLt (a b : Num) : Bool :=
  match numCmp a b with
  | .lt => true
  | .gt => false
  | .eq => a.isNeg && !b.isNeg

/-- Minimum and maximum (R347): a NaN operand gives the default NaN, NV when signalling. -/
def fMin (f : FFmt) (wa wb : Nat) : FRes :=
  let a := f.decode wa; let b := f.decode wb
  if a.isNan || b.isNan then f.nan (a.isSig || b.isSig) else ⟨if numLt b a then wb else wa, 0⟩
def fMax (f : FFmt) (wa wb : Nat) : FRes :=
  let a := f.decode wa; let b := f.decode wb
  if a.isNan || b.isNan then f.nan (a.isSig || b.isSig) else ⟨if numLt a b then wb else wa, 0⟩
def fAbs (f : FFmt) (w : Nat) : FRes :=
  let a := f.decode w
  if a.isNan then f.nan a.isSig else ⟨w % f.signBit, 0⟩
def fNeg (f : FFmt) (w : Nat) : FRes :=
  let a := f.decode w
  if a.isNan then f.nan a.isSig else ⟨if a.isNeg then w % f.signBit else w % f.signBit + f.signBit, 0⟩

/-- The compares of VCMP on floats (R351): 0 eq, 1 ne, 2 lt, 3 le, 4 gt, 5 ge, 7 unordered. -/
def fCmp (fn : Nat) (a b : Num) : Bool × FFlags :=
  let un := a.isNan || b.isNan
  let sig := a.isSig || b.isSig
  let c := numCmp a b
  match fn with
  | 0 => (!un && c == .eq, nvIf sig)
  | 1 => (un || c != .eq, nvIf sig)
  | 2 => (!un && c == .lt, nvIf un)
  | 3 => (!un && c != .gt, nvIf un)
  | 4 => (!un && c == .gt, nvIf un)
  | 5 => (!un && c != .lt, nvIf un)
  | _ => (un, nvIf sig)

/-- An infinity of either sign among the numbers, and whether a NaN, an invalid one, or opposite infinities are there. -/
structure SumCls where
  nan    : Bool := false
  bad    : Bool := false
  pinf   : Bool := false
  ninf   : Bool := false
  /-- Every summand is −0. -/
  allNZ  : Bool := true
  /-- Every summand is a zero. -/
  allZ   : Bool := true
  /-- Some summand is −0. -/
  someNZ : Bool := false
  sum    : Dy := Dy.zero
deriving DecidableEq, Repr

/-- Adds one summand to an exact sum (R264). -/
def SumCls.step (s : SumCls) (x : Num) : SumCls :=
  match x with
  | .nan sg => { s with nan := true, bad := s.bad || sg, allNZ := false, allZ := false }
  | .inf n => { s with pinf := s.pinf || !n, ninf := s.ninf || n, allNZ := false, allZ := false }
  | .fin n m e =>
    { s with allNZ := s.allNZ && (n && m == 0), allZ := s.allZ && m == 0, someNZ := s.someNZ || (n && m == 0),
             sum := s.sum.add (dyOf n m e) }

def sumOf (xs : List Num) : SumCls := xs.foldl SumCls.step {}

/-- The sign of an exactly zero sum (R264). -/
def SumCls.zeroNeg (s : SumCls) (rm : RMode) (empty : Bool) : Bool :=
  !empty && (s.allNZ || (rm = .rd && s.allZ && s.someNZ))

/-- The exact sum as one number; invalid when infinities of both signs meet (R264). -/
def SumCls.num (s : SumCls) (rm : RMode) (empty : Bool) : Num :=
  if s.nan then .nan (s.bad || (s.pinf && s.ninf))
  else if s.pinf && s.ninf then .nan true
  else if s.pinf then .inf false
  else if s.ninf then .inf true
  else .fin (if s.sum.n = 0 then s.zeroNeg rm empty else decide (s.sum.n < 0)) s.sum.n.natAbs s.sum.e

/-- C + Σ products with one rounding (R264). -/
def fDot (f : FFmt) (rm : RMode) (c : Num) (ps : List Num) : FRes :=
  match (sumOf ps).num rm ps.isEmpty with
  | .nan s => f.nan (s || c.isSig)
  | p => fAdd f rm c p

/-- The exact sum of elements, rounded once (R356). -/
def fSum (f : FFmt) (rm : RMode) (xs : List Num) : FRes := f.ofNum rm ((sumOf xs).num rm xs.isEmpty)

/-! ## Conversions (R260) -/

/-- Rounds a finite value to an integer: the integer, and whether the value changed (R256). -/
def roundInt (rm : RMode) (neg : Bool) (m : Nat) (e : Int) : Int × Bool :=
  let (q, inexact) := roundAt rm neg m e 0 false
  (if neg then -(q : Int) else q, inexact)

/-- The range of an integer type: signed of w bits, or unsigned. -/
def intMin (signed : Bool) (w : Nat) : Int := if signed then -(2 ^ (w - 1) : Int) else 0
def intMax (signed : Bool) (w : Nat) : Int := if signed then 2 ^ (w - 1) - 1 else 2 ^ w - 1

/-- The bits of an integer in w bits. -/
def intBits (w : Nat) (x : Int) : Nat := (x % ((2 ^ w : Nat) : Int)).toNat

/-- The value of w bits as an integer of the type. -/
def intVal (signed : Bool) (w : Nat) (x : Nat) : Int :=
  if signed && decide (x ≥ 2 ^ (w - 1)) then (x : Int) - 2 ^ w else x

def clampInt (lo hi x : Int) : Int := if x < lo then lo else if x > hi then hi else x

/-- Float to integer (R260). -/
def cvtFI (rm : RMode) (x : Num) (signed : Bool) (w : Nat) (sat : Bool) : FRes :=
  let lo := intMin signed w; let hi := intMax signed w
  match x with
  | .nan _ => ⟨0, nvIf (!sat)⟩
  | .inf n => ⟨intBits w (if n then lo else hi), if sat then flagNX else flagNV⟩
  | .fin n m e =>
    let (v, inexact) := roundInt rm n m e
    let c := clampInt lo hi v
    if c ≠ v then ⟨intBits w c, if sat then flagNX else flagNV⟩
    else ⟨intBits w v, if inexact then flagNX else 0⟩

/-- Integer to float (R260). -/
def cvtIF (f : FFmt) (rm : RMode) (v : Int) (sat : Bool) : FRes := f.roundDy rm ⟨v, 0⟩ false sat

/-- The integral value in the same format (R353). -/
def fRint (f : FFmt) (rm : RMode) (w : Nat) : FRes :=
  match f.decode w with
  | .nan s => f.nan s
  | .inf n => ⟨f.inf n, 0⟩
  | .fin n m e =>
    let (q, inexact) := roundAt rm n m e 0 false
    if !inexact then ⟨w, 0⟩
    else ⟨(if q = 0 then f.zero n else (f.round .rne n q 0).bits), flagNX⟩

/-! ## Mathematical functions (R267) -/

/-- Integer square root, rounded down. -/
def isqrtStep (n : Nat) : Nat → Nat → Nat
  | 0, r => r
  | k + 1, r => let r' := r + 2 ^ k; isqrtStep n k (if r' * r' ≤ n then r' else r)
def isqrt (n : Nat) : Nat := isqrtStep n (Nat.log2 n / 2 + 1) 0

/-- Quotient of two positive dyadic values, rounded once: enough quotient bits, and sticky when a remainder is left. -/
def fQuot (f : FFmt) (rm : RMode) (neg : Bool) (ma : Nat) (ea : Int) (mb : Nat) (eb : Int) : FRes :=
  let k := 64 + Nat.log2 mb
  let n := ma * 2 ^ k
  f.round rm neg (n / mb) (ea - eb - k) (n % mb != 0)

def fDiv (f : FFmt) (rm : RMode) (a b : Num) : FRes :=
  match a, b with
  | .nan s, y => f.nan (s || y.isSig)
  | _, .nan s => f.nan s
  | .inf _, .inf _ => f.nan true
  | .inf x, .fin n _ _ => ⟨f.inf (x != n), 0⟩
  | .fin n _ _, .inf y => ⟨f.zero (n != y), 0⟩
  | .fin na ma ea, .fin nb mb eb =>
    if mb = 0 then (if ma = 0 then f.nan true else ⟨f.inf (na != nb), flagDZ⟩)
    else if ma = 0 then ⟨f.zero (na != nb), 0⟩
    else fQuot f rm (na != nb) ma ea mb eb

def fRcp (f : FFmt) (rm : RMode) (a : Num) : FRes := fDiv f rm (.fin false 1 0) a

/-- Makes the exponent even, with at least 140 bits of value. -/
def evenScale (m : Nat) (e : Int) : Nat × Int :=
  let k : Nat := 140 + (if (e - 140) % 2 = 0 then 0 else 1)
  (m * 2 ^ k, e - k)

def fSqrt (f : FFmt) (rm : RMode) (a : Num) : FRes :=
  match a with
  | .nan s => f.nan s
  | .inf n => if n then f.nan true else ⟨f.inf false, 0⟩
  | .fin n m e =>
    if m = 0 then ⟨f.zero n, 0⟩ else if n then f.nan true
    else
      let (m', e') := evenScale m e
      let q := isqrt m'
      f.round rm false q (e' / 2) (q * q != m')

def fRsqrt (f : FFmt) (rm : RMode) (a : Num) : FRes :=
  match a with
  | .nan s => f.nan s
  | .inf n => if n then f.nan true else ⟨f.zero false, 0⟩
  | .fin n m e =>
    if m = 0 then ⟨f.inf n, flagDZ⟩ else if n then f.nan true
    else
      let (m', e') := if e % 2 = 0 then (m, e) else (2 * m, e - 1)
      let k := 100 + Nat.log2 m'
      let t := 2 ^ (2 * k)
      let q := isqrt (t / m')
      f.round rm false q (-(e' / 2) - k) (q * q * m' != t)

/-- Fraction bits of the fixed-point numbers below. DEDUCED, log 17. -/
def fxBits : Nat := 640
def fxOne : Nat := 2 ^ fxBits

/-- Σ z^(2i+1) ÷ (2i+1), the series of atanh, in fixed point. -/
def atanhSeries (z2 : Nat) : Nat → Nat → Nat → Nat → Nat
  | 0, _, _, acc => acc
  | k + 1, i, p, acc => atanhSeries z2 k (i + 1) (p * z2 / fxOne) (acc + p / (2 * i + 1))
/-- ln((1+z)/(1−z)) for z = n/d. -/
def lnRatio (n d : Nat) : Nat :=
  let z := n * fxOne / d
  2 * atanhSeries (z * z / fxOne) 420 0 z 0
def ln2 : Nat := lnRatio 1 3

/-- e^y for 0 ≤ y < 1 in fixed point. -/
def expSeries (y : Nat) : Nat → Nat → Nat → Nat → Nat
  | 0, _, _, acc => acc
  | k + 1, i, t, acc => expSeries y k (i + 1) (t * y / fxOne / i) (acc + t)
/-- 2^x for 0 ≤ x < 1 in fixed point; the result is in [1, 2). -/
def exp2Frac (x : Nat) : Nat := expSeries (x * ln2 / fxOne) 140 1 fxOne 0

/-- e^(−y) for y ≥ 0 in fixed point (y in fixed point). -/
def expNeg (y : Nat) : Nat :=
  let t := y * fxOne / ln2
  let n := t / fxOne
  let fr := t % fxOne
  if fr = 0 then fxOne / 2 ^ n else exp2Frac (fxOne - fr) / 2 ^ (n + 1)

/-- An inexact fixed-point value, low by a small margin, so that the exact value lies just above it. -/
def fxLow (x : Nat) : Nat := x - 2 ^ 24

/-- A finite magnitude as a fixed-point number, capped at 2^12. -/
def fxOf (m : Nat) (e : Int) : Nat :=
  if e + (Nat.log2 m : Int) ≥ 12 then 2 ^ 12 * fxOne
  else if e ≥ 0 then m * 2 ^ e.toNat * fxOne else m * fxOne / 2 ^ (-e).toNat

def fExp2 (f : FFmt) (rm : RMode) (a : Num) : FRes :=
  match a with
  | .nan s => f.nan s
  | .inf n => ⟨if n then f.zero false else f.inf false, 0⟩
  | .fin n m e =>
    if m = 0 then f.round rm false 1 0 else
    let x := fxOf m e
    let k := x / fxOne
    let fr := x % fxOne
    if fr = 0 then f.round rm false 1 (if n then -(k : Int) else k)
    else
      let (k', fr') : Int × Nat := if n then (-(k : Int) - 1, fxOne - fr) else (k, fr)
      f.round rm false (fxLow (exp2Frac fr')) (k' - fxBits) true

def fLog2 (f : FFmt) (rm : RMode) (a : Num) : FRes :=
  match a with
  | .nan s => f.nan s
  | .inf n => if n then f.nan true else ⟨f.inf false, 0⟩
  | .fin n m e =>
    if m = 0 then ⟨f.inf true, flagDZ⟩ else if n then f.nan true
    else
      let b := Nat.log2 m
      let p := 2 ^ b
      let ex : Int := e + b
      if m = p then f.roundDy rm ⟨ex, 0⟩ false
      else
        let l := lnRatio (m - p) (m + p) * fxOne / ln2
        let v : Int := ex * fxOne + l
        let mag := v.natAbs
        f.round rm (decide (v < 0)) (fxLow mag) (-(fxBits : Int)) true

def fTanh (f : FFmt) (rm : RMode) (a : Num) : FRes :=
  match a with
  | .nan s => f.nan s
  | .inf n => f.round rm n 1 0
  | .fin n m e =>
    if m = 0 then ⟨f.zero n, 0⟩ else
    let x := fxOf m e
    let t := if x ≥ 300 * fxOne then 0 else expNeg (2 * x)
    f.round rm n (fxLow ((fxOne - t) * fxOne / (fxOne + t))) (-(fxBits : Int)) true

def fSigm (f : FFmt) (rm : RMode) (a : Num) : FRes :=
  match a with
  | .nan s => f.nan s
  | .inf n => if n then ⟨f.zero false, 0⟩ else f.round rm false 1 0
  | .fin n m e =>
    if m = 0 then f.round rm false 1 (-1) else
    let x := fxOf m e
    if x ≥ 300 * fxOne then
      (if n then f.round rm false 1 (-430) true else f.round rm false (fxLow fxOne) (-(fxBits : Int)) true)
    else
      let t := expNeg x
      let v := if n then t * fxOne / (fxOne + t) else fxOne * fxOne / (fxOne + t)
      f.round rm false (fxLow v) (-(fxBits : Int)) true

/-! ## QN4 (R261–R263) -/

/-- Magnitudes of the codebook, in units of 1/256 (R261). -/
def qn4Mag (j : Nat) : Nat :=
  match j with
  | 0 => 11
  | 1 => 33
  | 2 => 55
  | 3 => 80
  | 4 => 107
  | 5 => 139
  | 6 => 181
  | _ => 256

/-- The signed magnitude of a code (R261). -/
def qn4Val (c : Nat) : Int := if c / 8 % 2 = 1 then -(qn4Mag (c % 8) : Int) else qn4Mag (c % 8)

/-- Twice the upper boundary of each index, in units of 1/256 (R263). -/
def qn4Bound2 (j : Nat) : Nat :=
  match j with
  | 0 => 44
  | 1 => 88
  | 2 => 135
  | 3 => 187
  | 4 => 246
  | 5 => 320
  | _ => 437

/-- The index of the magnitude (n ÷ d): the lowest whose upper boundary is not below it (R263). -/
def qn4Index (n d : Nat) : Nat :=
  (List.range 7).foldr (fun j r => if 512 * n ≤ qn4Bound2 j * d then j else r) 7

/-- The QN4 code of a ÷ b, with the flags of R263 and R354. -/
def qn4Pack (a b : Num) : Nat × FFlags :=
  match a, b with
  | .nan _, _ => (0, flagNV)
  | _, .nan _ => (0, flagNV)
  | .inf _, .inf _ => (0, flagNV)
  | .inf x, .fin n m _ => if m = 0 then (0, flagNX) else ((if x != n then 15 else 7), flagNX)
  | .fin n _ _, .inf y => ((if n != y then 8 else 0), flagNX)
  | .fin na ma ea, .fin nb mb eb =>
    if mb = 0 then (if ma = 0 then (0, flagNV) else (0, flagNX))
    else
      let d := ea - eb
      let n := ma * 2 ^ d.toNat
      let dd := mb * 2 ^ (-d).toNat
      let j := qn4Index n dd
      ((if na != nb then 8 else 0) + j, if 256 * n = qn4Mag j * dd then 0 else flagNX)

/-- Scaled unpacking: Round(±M/256 × b) (R354). -/
def qn4Unpack (f : FFmt) (rm : RMode) (c : Nat) (b : Option Num) : FRes :=
  let q : Num := .fin (c / 8 % 2 = 1) (qn4Mag (c % 8)) (-8)
  match b with
  | none => f.ofNum rm q
  | some b => f.ofNum rm (nMul q b)

/-- The scale byte of x under super-scale S (R360). -/
def bsc (x s : Num) : Nat × FFlags :=
  match x, s with
  | .nan _, _ => (255, flagNV)
  | _, .nan _ => (0, flagNV)
  | _, .inf _ => (0, flagNV)
  | x, .fin ns ms es =>
    if ns || ms = 0 then (0, flagNV)
    else match x with
      | .fin _ m e =>
        -- least b with b × ms × 2^(es−8) ≥ m × 2^e
        let d := e - (es - 8)
        let n := m * 2 ^ d.toNat
        let dd := ms * 2 ^ (-d).toNat
        let b := (n + dd - 1) / dd
        if b ≤ 255 then (b, 0) else (255, flagOF)
      | _ => (255, flagOF)

/-- `msacc` and `vsacc`: C + n × 2^(−16·q) × ρ × κ (R266); `c`, `ρ`, `κ` are FP32. -/
def fSacc (rm : RMode) (c : Num) (n : Int) (rho kappa : Num) : FRes :=
  if c.isNan || rho.isNan || kappa.isNan then fp32.nan (c.isSig || rho.isSig || kappa.isSig)
  else
    let inf (x : Num) : Bool := match x with
      | .inf _ => true
      | _ => false
    if (inf rho && (n = 0 || kappa.isZero)) || (inf kappa && (n = 0 || rho.isZero)) then fp32.nan true
    else
      let t := nMul (nMul (.fin (decide (n < 0)) n.natAbs (-16)) rho) kappa
      fAdd fp32 rm c t

/-! ## Exact accumulation (R268–R270) -/

/-- The pair of an FP32 lane: m and e as 32-bit words (R268). -/
def xpk (w : Nat) : BitVec 32 × BitVec 32 :=
  let ex : Nat := w / 2 ^ 23 % 256
  let fr : Nat := w % 2 ^ 23
  let sg (m : Nat) : BitVec 32 := if w / 2 ^ 31 % 2 = 1 then -(BitVec.ofNat 32 m) else BitVec.ofNat 32 m
  if ex = 255 then (if fr = 0 then (sg 1, 0x7FFFFFFF) else (0, 0x7FFFFFFF))
  else if ex = 0 then (sg fr, BitVec.ofInt 32 (-149))
  else (sg (2 ^ 23 + fr), BitVec.ofInt 32 ((ex : Int) - 150))

/-- FLOOR of XFLOOR (R270). -/
def xfloorF (x : W64) : Int := (x.extractLsb' 0 16).toInt

/-- Sets a state bit of XFLOOR. -/
def xfSet (x : W64) (bit : Nat) : W64 := x ||| BitVec.ofNat 64 (2 ^ bit)

/-- Adds a pair to an exact accumulator (R269). Below the 2^-200 of any accumulator's unit an addend is its floor, 0 or −1. -/
def xaccAdd (xf : W64) (acc : W128) (m e : BitVec 32) : W64 × W128 :=
  if e = 0x7FFFFFFF then
    (if m = 0 then xfSet xf 19 else if m.toInt > 0 then xfSet xf 17 else xfSet xf 18, acc)
  else
    let d := e.toInt - xfloorF xf
    let t : Int := if d > 200 then (if m = 0 then 0 else m.toInt * 2 ^ 200)
      else if d ≥ 0 then m.toInt * 2 ^ d.toNat
      else if d < -40 then (if m.toInt < 0 then -1 else 0) else m.toInt / ((2 ^ (-d).toNat : Nat) : Int)
    let s := acc.toInt + t
    if s > 2 ^ 127 - 1 then (xfSet xf 16, BitVec.ofInt 128 (2 ^ 127 - 1))
    else if s < -(2 ^ 127) then (xfSet xf 16, BitVec.ofInt 128 (-(2 ^ 127)))
    else (xf, BitVec.ofInt 128 s)

/-- The FP32 of an exact accumulator's value under the state bits (R270). -/
def xfin (xf : W64) (a : Int) : FRes :=
  if xf.getLsbD 19 || (xf.getLsbD 17 && xf.getLsbD 18) then fp32.nan true
  else if xf.getLsbD 17 then ⟨fp32.inf false, 0⟩
  else if xf.getLsbD 18 then ⟨fp32.inf true, 0⟩
  else if xf.getLsbD 16 then ⟨fp32.inf (decide (a < 0)), flagOF ||| flagNX⟩
  else
    -- an exponent outside ±400 already over- or underflows for every 130-bit value
    fp32.roundDy .rne ⟨a, if xfloorF xf > 400 then 400 else if xfloorF xf < -400 then -400 else xfloorF xf⟩ false

end Sys2Proof.Machine
end

