-- ==== Sys2Proof/Machine/Lanes.lean ====
section
/-!
DEFINITION. The lanes of a vector register and the element results of every VR instruction (R343–R361): pure functions from
the operand registers, the type, the mask and the mode to the destination and its flags.
-/
namespace Sys2Proof.Machine

/-- The element types by their codes (R281, R343). -/
inductive VTy where
  | f32
  | f16
  | bf16
  | i32
  | i16
  | i8
  | n32
  | f8e4
  | f8e5
  | qn4
deriving DecidableEq, Repr

def VTy.ofCode (c : Nat) : Option VTy :=
  match c with
  | 0 => some .f32
  | 1 => some .f16
  | 2 => some .bf16
  | 3 => some .i32
  | 4 => some .i16
  | 5 => some .i8
  | 6 => some .n32
  | 7 => some .f8e4
  | 8 => some .f8e5
  | 9 => some .qn4
  | _ => none

/-- Element size in bytes (R343); a QN4 code counts as a byte here and is never used as an element. -/
def VTy.size : VTy → Nat
  | .f32 | .i32 | .n32 => 4
  | .f16 | .bf16 | .i16 => 2
  | _ => 1

def VTy.fmt : VTy → Option FFmt
  | .f32 => some fp32
  | .f16 => some fp16
  | .bf16 => some Machine.bf16
  | .f8e4 => some Machine.f8e4
  | .f8e5 => some Machine.f8e5
  | _ => none

def VTy.isFloat (t : VTy) : Bool := t.fmt.isSome
def VTy.isInt : VTy → Bool
  | .i32 | .i16 | .i8 | .n32 => true
  | _ => false
def VTy.signed (t : VTy) : Bool := t != .n32
def VTy.bits (t : VTy) : Nat := 8 * t.size
def VTy.count (t : VTy) : Nat := 64 / t.size

/-- Element j of size s bytes (R343). -/
def elem (v : V512) (s j : Nat) : Nat := v.toNat / 2 ^ (8 * s * j) % 2 ^ (8 * s)

/-- The register whose n elements of s bytes are given by `f`; the rest is zero. -/
def ofElems (s n : Nat) (f : Nat → Nat) : V512 :=
  BitVec.ofNat 512 ((List.range n).foldl (fun acc j => acc + f j % 2 ^ (8 * s) * 2 ^ (8 * s * j)) 0)

/-- What a VR instruction's lanes work on. -/
structure VIn where
  ty   : VTy
  /-- Source type of a conversion. -/
  src  : VTy := .f32
  a    : V512 := 0
  b    : V512 := 0
  /-- The third source: C when widened, the old D otherwise. -/
  c    : V512 := 0
  /-- The old destination. -/
  d    : V512 := 0
  /-- A number field. -/
  num  : Nat := 0
  /-- A mask source. -/
  kb   : W64 := 0
  /-- The scalar source of `vfill`. -/
  sc   : W64 := 0
  /-- Which elements are active: bit s × j (R344). -/
  mask : W64 := BitVec.allOnes 64
  z    : Bool := false
  x    : BitVec 4 := 0
  rm   : RMode := .rne
  xf   : W64 := 0
deriving DecidableEq, Repr

/-- A vector result, its flags and XFLOOR. -/
structure VOut where
  v  : V512
  fl : FFlags := 0
  xf : W64 := 0
deriving DecidableEq, Repr

/-- Whether element j of size s is active (R344). -/
def VIn.act (i : VIn) (s j : Nat) : Bool := i.mask.getLsbD (s * j)

/-- The general effect of R346 over n elements of s bytes: active elements are computed, the others merge or are zeroed,
and only active elements set flags. -/
def VIn.lanes (i : VIn) (s : Nat) (f : Nat → FRes) : VOut :=
  let n := 64 / s
  ⟨ofElems s n fun j => if i.act s j then (f j).bits else if i.z then 0 else elem i.d s j,
   (List.range n).foldl (fun fl j => if i.act s j then fl ||| (f j).flags else fl) 0, i.xf⟩

/-- A result without flags. -/
def pureRes (n : Nat) : FRes := ⟨n, 0⟩

/-- Integer element results: wrapped, or clamped to the type's range under `.sat` (R347). -/
def intRes (t : VTy) (sat : Bool) (x : Int) : FRes :=
  pureRes (intBits t.bits (if sat then clampInt (intMin t.signed t.bits) (intMax t.signed t.bits) x else x))

/-- VARITH (R347). -/
def varithEl (fn : Nat) (t : VTy) (rm : RMode) (sat : Bool) (wa wb : Nat) : FRes :=
  match t.fmt with
  | some f =>
    let a := f.decode wa; let b := f.decode wb
    match fn with
    | 0 => fAdd f rm a b
    | 1 => fAdd f rm a b.neg
    | 2 => fMul f rm a b
    | 3 => fMin f wa wb
    | 4 => fMax f wa wb
    | 5 => fAbs f wa
    | 6 => fNeg f wa
    | _ => fAbd f rm a b
  | none =>
    let a := intVal t.signed t.bits wa; let b := intVal t.signed t.bits wb
    match fn with
    | 0 => intRes t sat (a + b)
    | 1 => intRes t sat (a - b)
    | 2 => intRes t sat (a * b)
    | 3 => intRes t false (if a ≤ b then a else b)
    | 4 => intRes t false (if a ≤ b then b else a)
    | 5 => intRes t sat a.natAbs
    | 6 => intRes t sat (-a)
    | _ => intRes t false (a - b).natAbs

def laneArith (fn : Nat) (i : VIn) : VOut :=
  i.lanes i.ty.size fun j => varithEl fn i.ty i.rm (i.x.getLsbD 1) (elem i.a i.ty.size j) (elem i.b i.ty.size j)

/-- VFMA functions 0–3 (R348). -/
def vfmaEl (fn : Nat) (t : VTy) (rm : RMode) (wc wa wb : Nat) : FRes :=
  match t.fmt with
  | some f =>
    let a := f.decode wa; let b := f.decode wb; let c := f.decode wc
    match fn with
    | 0 => fFma f rm c a b
    | 1 => fFma f rm c a.neg b
    | 2 => fNfma f rm c a b
    | _ => fFma f rm c.neg a b
  | none =>
    let a := intVal t.signed t.bits wa; let b := intVal t.signed t.bits wb; let c := intVal t.signed t.bits wc
    match fn with
    | 0 => intRes t false (c + a * b)
    | 1 => intRes t false (c - a * b)
    | 2 => intRes t false (-(c + a * b))
    | _ => intRes t false (a * b - c)

def laneFma (fn : Nat) (i : VIn) : VOut :=
  let s := i.ty.size
  i.lanes s fun j => vfmaEl fn i.ty i.rm (elem i.c s j) (elem i.a s j) (elem i.b s j)

/-- `vdot4` and `vdot2` (R349): k sub-elements in each 32-bit lane. -/
def laneDot (i : VIn) : VOut :=
  let s := i.ty.size
  let k := 4 / s
  i.lanes 4 fun j =>
    match i.ty.fmt with
    | some f => fDot fp32 i.rm (fp32.decode (elem i.c 4 j))
        ((List.range k).map fun q => nMul (f.decode (elem i.a s (k * j + q))) (f.decode (elem i.b s (k * j + q))))
    | none => pureRes (intBits 32 ((elem i.c 4 j : Int) + ((List.range k).map fun q =>
        intVal true i.ty.bits (elem i.a s (k * j + q)) * intVal true i.ty.bits (elem i.b s (k * j + q))).sum))

/-- `vmulh` (R349). -/
def laneMulh (i : VIn) : VOut :=
  let s := i.ty.size; let w := i.ty.bits
  i.lanes s fun j => pureRes (intBits w
    ((intVal i.ty.signed w (elem i.a s j) * intVal i.ty.signed w (elem i.b s j)) / ((2 ^ w : Nat) : Int)))

/-- `vsad` (R349). -/
def laneSad (i : VIn) : VOut :=
  let s := i.ty.size; let k := 4 / s
  i.lanes 4 fun j => pureRes (elem i.c 4 j + ((List.range k).map fun q =>
    (intVal true i.ty.bits (elem i.a s (k * j + q)) - intVal true i.ty.bits (elem i.b s (k * j + q))).natAbs).sum)

/-- VLOGIC (R350). -/
def vlogicEl (fn w : Nat) (a b : Nat) : Nat :=
  match fn with
  | 0 => a &&& b
  | 1 => a ||| b
  | 2 => a ^^^ b
  | 3 => a &&& (2 ^ w - 1 - b)
  | 4 => if b ≥ w then 0 else a * 2 ^ b % 2 ^ w
  | 5 => if b ≥ w then 0 else a / 2 ^ b
  | 6 => intBits w (intVal true w a / ((2 ^ (Nat.min b w) : Nat) : Int))
  | _ => 2 ^ w - 1 - a

def laneLogic (fn : Nat) (i : VIn) : VOut :=
  let s := i.ty.size
  i.lanes s fun j => pureRes (vlogicEl fn i.ty.bits (elem i.a s j) (elem i.b s j))

/-- VCMP of one element (R351). -/
def vcmpEl (fn : Nat) (t : VTy) (wa wb : Nat) : Bool × FFlags :=
  match t.fmt with
  | some f => fCmp fn (f.decode wa) (f.decode wb)
  | none =>
    let sg := t.signed && fn != 6
    let a := intVal sg t.bits wa; let b := intVal sg t.bits wb
    (match fn with
     | 0 => decide (a = b)
     | 1 => decide (a ≠ b)
     | 2 | 6 => decide (a < b)
     | 3 => decide (a ≤ b)
     | 4 => decide (a > b)
     | _ => decide (a ≥ b), 0)

/-- VCMP: the new mask register from the old one, and the flags (R351). -/
def laneCmp (fn : Nat) (i : VIn) (old : W64) : W64 × FFlags :=
  let s := i.ty.size
  (List.range i.ty.count).foldl (fun (k, fl) j =>
    let bit : W64 := BitVec.ofNat 64 (2 ^ (s * j))
    if i.act s j then
      let (c, f) := vcmpEl fn i.ty (elem i.a s j) (elem i.b s j)
      (if c then k ||| bit else k &&& ~~~bit, fl ||| f)
    else (if i.z then k &&& ~~~bit else k, fl)) (old, 0)

/-- Conversion of one element (R260): a pair whose destination holds every value of the source is exact. -/
def cvtEl (dst src : VTy) (rm : RMode) (sat : Bool) (w : Nat) : FRes :=
  match src.fmt, dst.fmt with
  | some fs, some fd => fd.ofNum rm (fs.decode w) (sat && !decide (fs.width < fd.width))
  | some fs, none => cvtFI rm (fs.decode w) dst.signed dst.bits sat
  | none, some fd => cvtIF fd rm (intVal src.signed src.bits w) sat
  | none, none =>
    let v := intVal src.signed src.bits w
    pureRes (intBits dst.bits (if sat then clampInt (intMin dst.signed dst.bits) (intMax dst.signed dst.bits) v else v))

/-- `vcvt` and `vcvt.sat` (R352). -/
def laneCvt (sat : Bool) (i : VIn) : VOut :=
  let s := i.ty.size
  i.lanes s fun j => cvtEl i.ty i.src i.rm sat (elem i.a s j)

/-- `vwid` and `vwidh`: part p of the source widened (R352). -/
def laneWid (p : Nat) (i : VIn) : VOut :=
  let n := i.ty.count
  i.lanes i.ty.size fun j => cvtEl i.ty i.src i.rm (i.x.getLsbD 3) (elem i.a i.src.size (p * n + j))

/-- `vnar`: elements p × n + j of D are written, the others kept (R352). -/
def laneNar (p : Nat) (i : VIn) : VOut :=
  let s := i.ty.size; let n := i.src.count
  let r (j : Nat) : FRes := cvtEl i.ty i.src i.rm (i.x.getLsbD 3) (elem i.a i.src.size (j - p * n))
  let inside (j : Nat) : Bool := decide (p * n ≤ j) && decide (j < p * n + n)
  ⟨ofElems s (64 / s) fun j =>
      if inside j then (if i.act s j then (r j).bits else if i.z then 0 else elem i.d s j) else elem i.d s j,
   (List.range (64 / s)).foldl (fun fl j => if inside j && i.act s j then fl ||| (r j).flags else fl) 0, i.xf⟩

/-- `vrint` (R353). -/
def laneRint (i : VIn) : VOut :=
  let s := i.ty.size
  i.lanes s fun j => match i.ty.fmt with
    | some f => fRint f i.rm (elem i.a s j)
    | none => pureRes (elem i.a s j)

/-- Code k of a register of QN4 codes (R262, R354). -/
def qcode (v : V512) (k : Nat) : Nat := v.toNat / 2 ^ (4 * k) % 16

/-- `vqn4p` (R354): codes p × n + j of D. -/
def laneQn4p (p : Nat) (i : VIn) : VOut :=
  let s := i.src.size; let n := i.src.count
  let f := i.src.fmt.getD fp32
  let r (j : Nat) : Nat × FFlags := qn4Pack (f.decode (elem i.a s j)) (f.decode (elem i.b s j))
  let code (k : Nat) : Nat :=
    if p * n ≤ k ∧ k < p * n + n then
      (if i.act s (k - p * n) then (r (k - p * n)).1 else if i.z then 0 else qcode i.d k)
    else qcode i.d k
  ⟨BitVec.ofNat 512 ((List.range 128).foldl (fun acc k => acc + code k * 2 ^ (4 * k)) 0),
   (List.range n).foldl (fun fl j => if i.act s j then fl ||| (r j).2 else fl) 0, i.xf⟩

/-- `vqn4u` (R354), scaled by B when X[3]. -/
def laneQn4u (p : Nat) (i : VIn) : VOut :=
  let s := i.ty.size; let n := i.ty.count
  i.lanes s fun j => match i.ty.fmt with
    | some f => qn4Unpack f i.rm (qcode i.a (p * n + j)) (if i.x.getLsbD 3 then some (f.decode (elem i.b s j)) else none)
    | none => pureRes 0

/-- VPERM (R355). `m` is the offset of `vext`. -/
def lanePerm (fn m : Nat) (i : VIn) : VOut :=
  let s := i.ty.size; let n := i.ty.count
  let hi := i.x.getLsbD 1
  let ab (k : Nat) : Nat := if k < n then elem i.a s k else elem i.b s (k - n)
  let picked : List Nat := (List.range n).filter fun k => i.kb.getLsbD (s * k)
  i.lanes s fun j => pureRes <|
    match fn with
    | 0 => elem i.a s i.num
    | 1 => elem i.a s (elem i.b s j % n)
    | 2 => elem i.a s ((j + n - i.num % n) % n)
    | 3 => ab (j + m)
    | 4 => if j = i.num then elem i.a s 0 else elem i.d s j
    | 5 => let k := (if hi then n / 2 else 0) + j / 2
           if j % 2 = 0 then elem i.a s k else elem i.b s k
    | 6 => ab (2 * j + if hi then 1 else 0)
    | _ => match picked[j]? with
           | some k => elem i.a s k
           | none => 0

/-- The participating elements, ascending (R356). -/
def VIn.parts (i : VIn) : List Nat := ((List.range i.ty.count).filter (i.act i.ty.size)).map (elem i.a i.ty.size)

/-- Element 0 receives the result, the others zero (R356). -/
def only0 (i : VIn) (r : FRes) : VOut := ⟨BitVec.ofNat 512 (r.bits % 2 ^ i.ty.bits), r.flags, i.xf⟩

/-- The greatest or least of float elements (R356). -/
def fExtreme (f : FFmt) (wantMax : Bool) (ws : List Nat) : FRes :=
  ws.foldl (fun r w =>
    let x := if wantMax then fMax f r.bits w else fMin f r.bits w
    ⟨x.bits, r.flags ||| x.flags⟩) ⟨f.inf wantMax, 0⟩

/-- VRED (R356). -/
def laneRed (fn : Nat) (i : VIn) : VOut :=
  let t := i.ty; let s := t.size; let w := t.bits
  let ws := i.parts
  let ints := ws.map (intVal t.signed w)
  match fn with
  | 0 => match t.fmt with
    | some f => only0 i (fSum f i.rm (ws.map f.decode))
    | none => only0 i (pureRes (intBits w ints.sum))
  | 1 => match t.fmt with
    | some f => only0 i (fExtreme f true ws)
    | none => only0 i (pureRes (intBits w (ints.foldl max (intMin t.signed w))))
  | 2 => match t.fmt with
    | some f => only0 i (fExtreme f false ws)
    | none => only0 i (pureRes (intBits w (ints.foldl min (intMax t.signed w))))
  | 3 => only0 i (pureRes (ws.foldl (· &&& ·) (2 ^ w - 1)))
  | 4 => only0 i (pureRes (ws.foldl (· ||| ·) 0))
  | 5 => only0 i (pureRes (ws.foldl (· ^^^ ·) 0))
  | 6 => i.lanes s fun j =>
      let pre := ((List.range (j + 1)).filter (i.act s)).map (elem i.a s)
      match t.fmt with
      | some f => fSum f i.rm (pre.map f.decode)
      | none => pureRes (intBits w (pre.map (intVal t.signed w)).sum)
  | _ => ⟨BitVec.ofNat 512 (intBits 64 ints.sum), 0, i.xf⟩

/-- VMATH (R357, R267). -/
def vmathEl (fn : Nat) (f : FFmt) (rm : RMode) (wa wb : Nat) : FRes :=
  let a := f.decode wa
  match fn with
  | 0 => fRcp f rm a
  | 1 => fRsqrt f rm a
  | 2 => fSqrt f rm a
  | 3 => fDiv f rm a (f.decode wb)
  | 4 => fExp2 f rm a
  | 5 => fLog2 f rm a
  | 6 => fTanh f rm a
  | _ => fSigm f rm a

def laneMath (fn : Nat) (i : VIn) : VOut :=
  let s := i.ty.size
  i.lanes s fun j => vmathEl fn (i.ty.fmt.getD fp32) i.rm (elem i.a s j) (elem i.b s j)

/-- `vsacc` (R358). -/
def laneSacc (i : VIn) : VOut :=
  i.lanes 4 fun j => fSacc i.rm (fp32.decode (elem i.c 4 j)) (intVal true 32 (elem i.a 4 j))
    (fp32.decode (elem i.b 4 j)) (fp32.decode 0x3F800000)

/-- `vxpk` (R359): masks govern pairs of words. -/
def laneXpk (i : VIn) : VOut :=
  i.lanes 8 fun j =>
    let (m, e) := xpk (elem i.a 4 (j + if i.x.getLsbD 1 then 8 else 0))
    pureRes (m.toNat + e.toNat * 2 ^ 32)

/-- The 128-bit accumulator q of a register (R359). -/
def xacc (v : V512) (q : Nat) : W128 := v.extractLsb' (128 * q) 128

/-- Replaces accumulator q. -/
def setXacc (v : V512) (q : Nat) (x : W128) : V512 :=
  BitVec.ofNat 512 (v.toNat - elem v 16 q * 2 ^ (128 * q) + x.toNat * 2 ^ (128 * q))

/-- `vxacc` (R359): active pairs in ascending order into accumulator i mod 4. -/
def laneXacc (i : VIn) : VOut :=
  (List.range 8).foldl (fun o p =>
    if i.act 8 p then
      let (xf, acc) := xaccAdd o.xf (xacc o.v (p % 4)) (BitVec.ofNat 32 (elem i.a 4 (2 * p))) (BitVec.ofNat 32 (elem i.a 4 (2 * p + 1)))
      { o with v := setXacc o.v (p % 4) acc, xf := xf }
    else o) ⟨i.d, 0, i.xf⟩

/-- `vxfin` (R359): the state bits are read once and then cleared. -/
def laneXfin (i : VIn) : VOut :=
  let accs := (List.range 4).map fun q => (xacc i.a q).toInt
  let sum := accs.sum
  let satd := decide (sum > 2 ^ 127 - 1) || decide (sum < -(2 ^ 127))
  let rs : List FRes :=
    if i.x.getLsbD 1 then
      [if satd then xfin (xfSet i.xf 16) (if sum < 0 then -(2 ^ 127) else 2 ^ 127 - 1) else xfin i.xf sum]
    else accs.map (xfin i.xf)
  let w (k : Nat) : FRes := rs.getD k ⟨0, 0⟩
  let o := i.lanes 8 fun p => ⟨(w (2 * p)).bits + (w (2 * p + 1)).bits * 2 ^ 32, (w (2 * p)).flags ||| (w (2 * p + 1)).flags⟩
  { o with xf := i.xf &&& ~~~(0xF0000 : W64) }

/-- `vbsc` (R360). -/
def laneBsc (i : VIn) : VOut :=
  i.lanes 4 fun j =>
    let (b, fl) := bsc (fp32.decode (elem i.a 4 j)) (fp32.decode (elem i.b 4 j))
    ⟨b, fl⟩

/-- VMOV (R361). -/
def laneMov (fn : Nat) (i : VIn) : VOut :=
  let s := i.ty.size
  i.lanes s fun j => pureRes <|
    match fn with
    | 0 => elem i.a s j
    | 1 => 0
    | 2 => i.sc.toNat
    | 3 => if i.kb.getLsbD (s * j) then 2 ^ (8 * s) - 1 else 0
    | _ => elem i.a s (i.num * (16 / s) + j % (16 / s))

end Sys2Proof.Machine
end

