-- ==== Sys2Proof/Syntax.lean ====
section
/-!
DEFINITION. The instructions and the module's own steps: one constructor for each row of spec/opcode_table.json.
A base instruction holds the fields of its base word (R273); an extended-only operation holds an `XOp` (R280); the three
forms of a word that hold another instruction (R278, R276, R282) are `pairWord`, `literalForm` and `widenedForm`, in which
the inner instruction is a base one whose immediate fields are zero, since the form carries them. The rows that are no
instruction carry the data of the message or input that makes the unit act.
-/

namespace Sys2Proof

/-- One constructor per row of the opcode table. -/
inductive Instr where
  /-- POWER_GOOD (R31). Power-good starts the bring-up sequence of firmware verification, calibration, discovery, numbering, memory initialisation, scope table and READY. -/
  | powerGood
  /-- BRINGUP_STEP_COMPLETE (R31). Completion of a bring-up step advances MSTAT.STEP and begins the next step, or sets READY after step 7. -/
  | bringupStepComplete (ok : Bool) (fdie : Nat)
  /-- BRINGUP_TIMEOUT (R31). If 3 s pass after power-good without READY, the module sets FAIL and records the failing die and step. -/
  | bringupTimeout (fdie : Nat)
  /-- DISCOVERY_ANSWER (R31). A site answers the Zenith core's discovery flood with its fuse state and self-test result. -/
  | discoveryAnswer (die site : Nat) (fused failed : Bool)
  /-- DISCOVERY_TIMEOUT (R31). Step 3 ends after 1 ms even if not all 1,024 sites have answered. -/
  | discoveryTimeout (die : Nat)
  /-- STANDBY_POWER_UP (R75). When standby power first comes up, MODID reads 0xFFFF and the Harvy port is powered. -/
  | standbyPowerUp
  /-- MODULE_RESET (R110). A module reset asserted through the Harvy port restarts bring-up, and takes up staged firmware and CCCFG.NEXT. -/
  | moduleReset (hold : Bool)
  /-- HARVY_SET_PLIM (R25). The rack controller sets PLIM through the Harvy port; a value outside 1,500-3,000 W in 25 W steps is refused. -/
  | harvySetPlim (w : Nat)
  /-- HARVY_SET_MODID (R75). The rack controller writes MODID in reset or before step 6; a write at step 6 or later is refused. -/
  | harvySetModid (n : BitVec 16)
  /-- HARVY_STAGE_FIRMWARE (R107). A firmware image is staged through the Harvy port and takes effect at the next reset if it verifies. -/
  | harvyStageFirmware (img : List Byte)
  /-- HARVY_ATTEST (R109). An attestation request with a nonce is queued to die 0's Zenith core, and a fifth queued request is refused. -/
  | harvyAttest (nonce : BitVec 128)
  /-- ATTESTATION_REPORT (R109). Die 0's Zenith core completes a signed report of serial, versions, digests, MODID and nonce within 50 ms. -/
  | attestationReport
  /-- POWER_SAMPLE (R26). A 20 us input-power sample is taken, and a sample above 3,300 W drives the throttle level to 8. -/
  | powerSample (w : Nat)
  /-- POWER_INTERVAL_END (R26). At the end of each 1 ms interval the throttle level rises if the average exceeds PLIM, or falls if it is below PLIM - 100 W. -/
  | powerIntervalEnd
  /-- DIE_THERMAL_REPORT (R28). A die's hottest junction reading, every 100 us, holds throttle level 8 at 100 C, releases it below 95 C, and asserts shutdown at 115 C. -/
  | dieThermalReport (die temp : Nat)
  /-- HBM_THERMAL_REPORT (R29). An HBM4 stack's hottest layer reading starts or ends doubled refresh, halved bandwidth, or catastrophic shutdown. -/
  | hbmThermalReport (stack temp : Nat)
  /-- MSTAT_THERM_CLEAR (R33). Writing 1 to MSTAT.THERM clears the record of a thermal power-down. -/
  | mstatThermClear
  /-- REGISTER_WRITE (R8). A write to a register that has no row of its own updates its RW fields and ignores refused values as the register's table states. -/
  | registerWrite (pa size : Nat) (v : W64) (m : Master)
  /-- MEMORY_PORT_ACCESS (R39). A memory port executes an access, writeback, atomic or full/empty operation at the point of coherence, in acceptance order. -/
  | memoryPortAccess (acc : PortAccess)
  /-- SCRUB_VISIT (R45). Each memory port reads every block once every 24 h, rewriting corrected errors and poisoning uncorrectable ones. -/
  | scrubVisit (blk : Nat) (found : ScrubResult)
  /-- CACHE_PORT_ACCESS (R49). A cache port serves an LPDDR or CXL access from the capacity cache, fetching, allocating or evicting sectors. -/
  | cachePortAccess (acc : PortAccess)
  /-- DRIFT_HALVING_VISIT (R52). Every 10 ms Drift visits each valid frame-table entry, selects promotion, demotion or CXL candidates, and halves the hotness. -/
  | driftHalvingVisit (die : Nat)
  /-- MOTION_START (R56). Drift starts a motion when a candidate has a free destination frame, setting the leaf to moving and opening the record. -/
  | motionStart (die leaf dst : Nat)
  /-- MOTION_FLUSH_ACK (R56). When the L2 and cache-port flushes of the page are acknowledged, the motion enters COPY with w = 0. -/
  | motionFlushAck (die src : Nat)
  /-- GRANULE_COPY_ACK (R56). Acknowledgement of granule w at the destination advances the watermark and forwards held accesses. -/
  | granuleCopyAck (die src : Nat)
  /-- GRANULE_COPY_TIMEOUT (R57). A granule copy not acknowledged within 2 us releases held accesses to the source and restarts the copy. -/
  | granuleCopyTimeout (die src : Nat)
  /-- MOTION_ACCESS (R57). The motion owner routes an access to a moving page to the source or destination by granule and watermark, or holds it. -/
  | motionAccess (die src : Nat) (acc : PortAccess)
  /-- MOTION_SHOOTDOWN_ACK (R61). After every quad acknowledges the shootdown, the owner closes the record, invalidates the source slice lines and frees the source frame. -/
  | motionShootdownAck (die src quad : Nat)
  /-- QUAD_SHOOTDOWN (R61). A quad receiving a shootdown invalidates its TLB entry, writes back its L1 lines of the page, waits for old requests, and acknowledges. -/
  | quadShootdown (quad : Nat) (ctx : BitVec 6) (va pages die src : Nat)
  /-- MOTION_TIME_LIMIT (R62). When DTHR.MTIME ms pass since the motion opened, the motion aborts with CAUSE 4. -/
  | motionTimeLimit (die src : Nat)
  /-- CXL_DYNAMIC_CAPACITY_RELEASE (R94). A CXL dynamic-capacity event is passed to the Zenith core, and a motion to released capacity aborts with CAUSE 2. -/
  | cxlDynamicCapacityRelease (base : CxlChange) (count : Nat)
  /-- FLIT_RECEIVE (R72). A link receiver checks the flit's CRC and FSEQ, takes its packets and permit returns, and processes ACK and NAK. -/
  | flitReceive (link : LinkId) (flit : Flit)
  /-- LINK_RETRAIN_TIMEOUT (R72). A link that does not retrain within 10 ms is down. -/
  | linkRetrainTimeout (link : LinkId)
  /-- DIE_LINK_MODULE_FAILURE (R70). A UCIe module failure that lane repair cannot mend degrades the die link and writes a record of kind 0x35. -/
  | dieLinkModuleFailure (die gw m : Nat)
  /-- CIRRUS_LANE_FAILURE (R73). A Cirrus lane failure is spared, runs the port on three lanes, or takes the port down, with records 0x32-0x34. -/
  | cirrusLaneFailure (die port lane : Nat)
  /-- CIRRUS_PORT_STATE_CHANGE (R91). A change of a Cirrus port's state makes the Zenith core repeat topology discovery. -/
  | cirrusPortStateChange (die port : Nat) (up : Bool)
  /-- RLD_REQUEST (R77). A gateway checks key, bounds, permission and translation of a remote load and forwards it to its owner in flow order. -/
  | rldRequest (p : Packet)
  /-- RST_REQUEST (R77). A gateway checks and forwards a remote store, which executes at its owner and is cached in the reply cache. -/
  | rstRequest (p : Packet)
  /-- RAMO_REQUEST (R77). A gateway checks and forwards a remote atomic, which executes at its owner as a module-scope atomic. -/
  | ramoRequest (p : Packet)
  /-- RCAS_REQUEST (R77). A gateway checks and forwards a remote compare-and-swap, which executes at its owner. -/
  | rcasRequest (p : Packet)
  /-- RCALL_REQUEST (R89). The target message engine queues an active-message call, or answers NOCALL, PERM, BUSY or SEALED. -/
  | rcallRequest (p : Packet)
  /-- RGET_REQUEST (R341). A gateway checks and serves a remote bulk read of up to 2,048 bytes. -/
  | rgetRequest (p : Packet)
  /-- RPUT_REQUEST (R341). A gateway checks and serves a remote bulk write, writing each 8-byte word whole. -/
  | rputRequest (p : Packet)
  /-- PROBE_REQUEST (R86). The owner answers a PROBE of a parked access with PARKED again or with the final reply. -/
  | probeRequest (p : Packet)
  /-- LAUNCH_WINDOW_REQUEST (R164). A team's message engine performs a launch-window access at its SRAM in arrival order, or refuses, tickets or errors it. -/
  | launchWindowRequest (p : Packet)
  /-- DATA_REPLY (R241). A DATA reply writes the destination register and frees the ticket-table entry. -/
  | dataReply (p : Packet)
  /-- DONE_REPLY (R241). A DONE reply completes the request, writes any destination, and frees the entry. -/
  | doneReply (p : Packet)
  /-- PARKED_REPLY (R86). A PARKED reply leaves the access parked at its owner and starts the 1 ms PROBE timer. -/
  | parkedReply (p : Packet)
  /-- TICKET_REPLY (R241). A TICKET reply records the ticket, endpoint and any shadow link and starts the TKLIM timer. -/
  | ticketReply (p : Packet)
  /-- ERROR_REPLY (R243). An ERROR reply fails the entry with the subcode that its status maps to. -/
  | errorReply (p : Packet)
  /-- BUSY_REPLY (R85). A BUSY reply makes the requester resend after a backoff of 1 us doubling to 64 us, with the thread parked. -/
  | busyReply (p : Packet)
  /-- BUSY_BACKOFF_EXPIRY (R85). When the backoff expires the requester resends with RETX 1. -/
  | busyBackoffExpiry (t : ThrId) (tag : Nat) (gen : BitVec 4)
  /-- REPLAY_NOTICE (R241). A REPLAY notice makes a ticketed entry resend its stored request, or fails it on NOTMAPPED or RETIRED. -/
  | replayNotice (p : Packet)
  /-- VARRIVE_NOTICE (R90). A version-arrival notice wakes a parked waiter, which then fetches the version or raises VERSION_RETIRED. -/
  | varriveNotice (p : Packet)
  /-- RNOTE_NOTICE (R90). A program notice sets the target thread's pending bit, which wfe consumes, coalescing repeats. -/
  | rnoteNotice (p : Packet)
  /-- FEWAKE_NOTICE (R65). A full/empty wake notice returns a waiting thread to issue on the notice network. -/
  | fewakeNotice (t : ThrId) (v : W64)
  /-- RETRANSMIT_TIMEOUT (R86). A request with no reply 20 us after its last send is resent with RETX 1, at most three times. -/
  | retransmitTimeout (t : ThrId) (tag : Nat) (gen : BitVec 4)
  /-- FINAL_TIMEOUT (R86). When RTCTL.FINAL passes without a reply, the tag generation advances and the access becomes a deferred fault with subcode timeout. -/
  | finalTimeout (t : ThrId) (tag : Nat) (gen : BitVec 4)
  /-- PROBE_TIMER (R86). 1 ms after the last PARKED, and every 1 ms after, the requester sends a PROBE. -/
  | probeTimer (t : ThrId) (tag : Nat) (gen : BitVec 4)
  /-- TICKET_LIMIT_TIMEOUT (R241). When RTCTL.TKLIM passes without REPLAY, the ticketed entry fails with subcode 2. -/
  | ticketLimitTimeout (t : ThrId) (tag : Nat) (gen : BitVec 4)
  /-- FLOW_IDLE_TIMEOUT (R79). The check gateway discards a flow's expected-SEQ entry after 1 ms idle. -/
  | flowIdleTimeout (die gw : Nat) (src : BitVec 32) (thr : BitVec 3) (key : BitVec 32)
  /-- REPLY_CACHE_EXPIRY (R87). A reply-cache entry is discarded 200 us after its last or final reply. -/
  | replyCacheExpiry (die gw : Nat) (src : BitVec 32) (tag : BitVec 10) (gen : BitVec 4)
  /-- REGION_TABLE_UPDATE (R78). A gateway installs a new region-table entry from the Zenith core and acknowledges, refusing the old generation from then on. -/
  | regionTableUpdate (die gw idx : Nat) (r : Region)
  /-- CALL_START (R89). Thread 7 starts the next queued call with the handler unsealed and the arguments in c1-c4. -/
  | callStart (core : Nat)
  /-- TOPOLOGY_PROBE (R91). A module receiving a topology probe answers with its MODID and hop count. -/
  | topologyProbe (p : Packet)
  /-- TOPOLOGY_ANSWER (R91). The Zenith core keeps the smallest hop count for each answering module in the scope table. -/
  | topologyAnswer (die : Nat) (modid : BitVec 16) (hops : Nat)
  /-- TOPOLOGY_DISCOVERY_TIMEOUT (R91). 1 ms after the probes, modules without an answer get code 0 and the scope table is written. -/
  | topologyDiscoveryTimeout (die : Nat)
  /-- LULL_START (R92). Every 10 ms request injection stops on the die and every link sender sends a marker with its held permits. -/
  | lullStart (die : Nat)
  /-- LULL_MARKER (R93). A receiver checks H + F + R against D for the marker's link, network and class. -/
  | lullMarker (link : LinkId) (net cls held : Nat) (pret : BitVec 16)
  /-- LULL_END (R92). After 2 us, injection of class-A and class-B requests resumes. -/
  | lullEnd (die : Nat)
  /-- BAR2_PLAIN_READ (R98). A view-0 read returns data ignoring full/empty state, decrypted under the context key. -/
  | bar2PlainRead (port off size : Nat)
  /-- BAR2_PLAIN_WRITE (R98). A view-0 write stores data leaving full/empty state, encrypted under the context key. -/
  | bar2PlainWrite (port off size : Nat) (v : W64)
  /-- BAR2_ARM_READ (R98). A view-1 read returns the word's full/empty bit, and a 1 acts as an acquire for later BAR2 reads. -/
  | bar2ArmRead (port off size : Nat)
  /-- BAR2_ARM_WRITE (R99). An 8-byte arm write stores and sets full as a module release after earlier BAR2 writes, or is dropped on a full slot word 0. -/
  | bar2ArmWrite (port off size : Nat) (v : W64)
  /-- BAR2_CLEAR_READ (R98). A view-2 read returns 0. -/
  | bar2ClearRead (port off size : Nat)
  /-- BAR2_CLEAR_WRITE (R98). A view-2 write sets the word empty and ignores its data. -/
  | bar2ClearWrite (port off size : Nat) (v : W64)
  /-- DIE_WINDOW_ACCESS (R97). A BAR0 die-window access reaches a die register as master CTX 0, PRIV 1, CLASS 4, under the Zenith access table. -/
  | dieWindowAccess (port off size : Nat) (v : Option W64)
  /-- BAR0_UNMAPPED_ACCESS (R96). An access to an unlisted BAR0 offset reads all ones, drops writes, and increments HERR.REFUSED. -/
  | bar0UnmappedAccess (port off size : Nat) (v : Option W64)
  /-- MSIX_UNMASK (R96). Unmasking a vector with its pending bit set sends it once. -/
  | msixUnmask (port vec : Nat)
  /-- HOST_PORT_DOWN (R94). When a host port goes down the other port serves the whole CXL tier and the failed port's contexts become unreachable. -/
  | hostPortDown (port : Nat)
  /-- HERR_READ (R103). A read of HERR returns REFUSED and ARMFULL and clears them. -/
  | herrRead (die : Nat)
  /-- MAILBOX_OPEN (R108). OPEN names the image length and clears the staging area, or fails if staging is in use or the length is invalid. -/
  | mailboxOpen (port : Nat) (cmd : W64)
  /-- MAILBOX_CHUNK (R108). CHUNK copies (LEN + 1) x 16 bytes of MBBUF into the image at the offset in ARG. -/
  | mailboxChunk (port : Nat) (cmd : W64)
  /-- MAILBOX_COMMIT (R108). COMMIT verifies the image under R107 and stages it for the next reset, or discards it. -/
  | mailboxCommit (port : Nat) (cmd : W64)
  /-- MAILBOX_ABORT (R108). ABORT discards the staging area. -/
  | mailboxAbort (port : Nat) (cmd : W64)
  /-- MAILBOX_ATTEST (R108). ATTEST takes the nonce from MBBUF and writes the signed report there with its length in RLEN. -/
  | mailboxAttest (port : Nat) (cmd : W64)
  /-- MAILBOX_INVALID_OP (R108). An MBCMD write with an unknown OP fails with error 1. -/
  | mailboxInvalidOp (port : Nat) (cmd : W64)
  /-- MAILBOX_COMMAND_COMPLETE (R108). A mailbox command completes: BUSY returns to 0, DONE reads 1 and ERR gives the outcome. -/
  | mailboxCommandComplete (err : BitVec 8)
  /-- MBSTAT_READ (R108). A read of MBSTAT returns status and clears DONE. -/
  | mbstatRead (port : Nat)
  /-- ACCESS_TABLE_WRITE (R104). A class-5 write to an access-table entry takes effect at once for later accesses. -/
  | accessTableWrite (die station idx : Nat) (e : AccessEntry) (m : Master)
  /-- LAUNCH_SLOT_TAKE (R102). The taking die's dispatcher takes a full slot once a launch-table entry is free, reading the record and setting word 0 empty. -/
  | launchSlotTake (ctx : BitVec 6) (slot : Nat)
  /-- GATE_SATISFIED (R118). When every gate's version exists or is below W, the launch moves from GATED to DISPATCHING. -/
  | gateSatisfied (launch : BitVec 16)
  /-- DISPATCH_CORE_FREE (R120). When a core becomes free or a launch enters DISPATCHING, the die dispatcher picks a launch by priority and round robin and reserves the core. -/
  | dispatchCoreFree (die core : Nat)
  /-- BIND_REQUEST (R120). The home die binds the lowest saved team, or the next team number, to the reserved core, or answers none. -/
  | bindRequest (launch : BitVec 16) (core : Nat)
  /-- PREEMPTION (R123). A launch with teams to bind and no free permitted core vacates cores of lower priority in the victim order. -/
  | preemption (launch : BitVec 16)
  /-- TEAM_SAVE (R124). A team is stopped, its registers and local memory are saved, its holders re-pointed, and SAVED is written. -/
  | teamSave (core : Nat)
  /-- TEAM_RESTORE (R126). On binding a saved team, the core restores local memory and registers, re-points entries and delivers held notices within 30 us. -/
  | teamRestore (launch : BitVec 16) (team core : Nat)
  /-- TEAM_EXIT (R119). When every ENTRY thread has halted, engines drain, L1 is written back, tenures released, and the completion release performed. -/
  | teamExit (core : Nat)
  /-- TEAM_COMPLETION_RELEASE (R119). The home dispatcher counts a team's completion release. -/
  | teamCompletionRelease (launch : BitVec 16) (team : Nat) (result : Option W64)
  /-- LAUNCH_TERMINATION (R129). A terminated launch discards its teams, frees slots, revokes tenures and key, and delivers its failure value. -/
  | launchTermination (launch : BitVec 16) (reason code : BitVec 8) (team : Option Nat)
  /-- ROW_RETENTION_ENTRY (R146). Rows of a thread parked, sleeping or halted for 4 us may enter retention. -/
  | rowRetentionEntry (t : ThrId)
  /-- SLEEP_EXPIRY (R313). After the sleep count of core cycles, the thread becomes ready again. -/
  | sleepExpiry (t : ThrId)
  /-- YIELD_EXPIRY (R313). A yielding thread becomes ready after 8 cycles if the other ready slots have not all issued. -/
  | yieldExpiry (t : ThrId)
  /-- QUEUE_ENTRY_ARRIVAL (R150). An entry on a mesh queue channel enters the receive FIFO, or is refused with BUSY when the team is saved or unbound. -/
  | queueEntryArrival (p : Packet)
  /-- MESH_BIND_REQUEST (R333). A target receives a mesh queue bind request, completes the channel, or answers KEY, BOUNDS, NOEP or SEALED. -/
  | meshBindRequest (p : Packet)
  /-- L2_ACCESS (R169). A home L2 slice serves a miss, writeback or region/die-scope atomic for an address homed on its die. -/
  | l2Access (die pa : Nat) (kind : L2Kind) (ctx : BitVec 6)
  /-- L2_POOL_WRITE (R170). A write of L2CFG.POOL raises the pool, flushing the ways it takes, or lowers it, refused with a record of kind 0x60 if a live frame remains. -/
  | l2PoolWrite (die : Nat) (v : W64)
  /-- L2_NPART_WRITE (R171). A write of L2CFG.NPART writes back and invalidates every non-pool line within 100 us with BUSY set. -/
  | l2NpartWrite (die : Nat) (v : W64)
  /-- L2_BUSY_COMPLETE (R170). A pool change or partition flush completes and L2CFG.BUSY returns to 0. -/
  | l2BusyComplete (die : Nat)
  /-- ENGINE_COMMAND_START (R177). An engine starts its next queued command after the previous command's last write has performed. -/
  | engineCommandStart (core : Nat) (e : Engine)
  /-- ENGINE_COMMAND_COMPLETE (R180). On completion, after any release, the engine writes the token with the fault bit and bytes written. -/
  | engineCommandComplete (core : Nat) (e : Engine)
  /-- LOG_RANGE_TIMEOUT (R182). An open log range is emitted 10 us after it opened. -/
  | logRangeTimeout (launch : BitVec 16) (team since : Nat)
  /-- VERSION_PUBLISH_REQUEST (R191). The home accepts a publish, raises VERSION_EXISTS or VERSION_WINDOW, or parks it beyond the window. -/
  | versionPublishRequest (name ver : Nat) (t : ThrId)
  /-- VERSION_PUBLISH_COMPLETE (R190). When the data is written and the release performed, the version becomes LIVE and its waiters are served in order. -/
  | versionPublishComplete (name ver : Nat) (t : ThrId)
  /-- VERSION_WAIT_REGISTER (R193). A load of an absent version registers a wait at the home, or is refused when the wait list is full. -/
  | versionWaitRegister (name ver : Nat) (t : ThrId)
  /-- VERSION_WAIT_BOUND_EXPIRY (R193). When IMM32 x 1,024 cycles pass, the core cancels the wait and raises WAIT_EXPIRED unless the home already served it. -/
  | versionWaitBoundExpiry (t : ThrId)
  /-- TENURE_REQUEST (R200). The directory grants a tenure request, or queues it and answers PARKED. -/
  | tenureRequest (t : ThrId) (region : Nat) (rect : Rect) (write : Bool)
  /-- TENURE_RELEASE (R200). A trel frees or decrements the record and serves the queue. -/
  | tenureRelease (t : ThrId) (region : Nat) (rect : Rect)
  /-- ONE_SHOT_ACCESS (R202). An access to tenured bytes without tenure is queued at the home and performed as a one-shot read or write. -/
  | oneShotAccess (t : ThrId) (region : Nat) (rect : Rect) (write : Bool)
  /-- SERVICE_REQUEST (R232). A station's INVALID or PENDING walk opens or joins a service at the Zenith core and writes a record of kind 0x10. -/
  | serviceRequest (die : Nat) (ctx : BitVec 6) (va : Nat) (code : BitVec 8) (write fetch : Bool) (who : SvcWaiter)
  /-- FSDONE_RESOLVE (R232). FSDONE with REFUSE 0 returns the service's parked threads to issue and sends REPLAY OK to its tickets. -/
  | fsdoneResolve (die svc : Nat)
  /-- FSDONE_REFUSE (R232). FSDONE with REFUSE 1 makes parked instructions raise NOT_MAPPED and sends REPLAY NOTMAPPED or RETIRED. -/
  | fsdoneRefuse (die svc : Nat)
  /-- FQHEAD_WRITE (R251). Advancing FQHEAD frees room, and a pending overflow record of kind 0x77 is written first. -/
  | fqheadWrite (die : Nat) (v : W64)
  /-- CORE_SEAL (R248). A core is sealed within 10 us: issue stops, requests are refused, holders cleaned, accumulators discarded and a spare assigned. -/
  | coreSeal (core code : Nat) (pc : W64)
  /-- DIRTY_LINE_LOSS (R249). A lost dirty line is poisoned, its set and way quarantined, its owner context terminated, and its page retired. -/
  | dirtyLineLoss (level : LossLevel) (quad pa : Nat)
  /-- FRAME_RETIREMENT (R250). After an uncorrectable error the Zenith core moves a movable page to a free frame and lists the old frame as retired. -/
  | frameRetirement (pa : Nat)
  /-- MATRIX_COMMAND_START (R155). The matrix unit starts the next command, choosing among its five queues round robin. -/
  | matrixCommandStart (quad : Nat)
  /-- MATRIX_KSTEP_COMPLETE (R264). A K-step completes after 16 arithmetic cycles, updating the accumulator and ROWPROG progress. -/
  | matrixKstepComplete (quad : Nat)
  /-- REMOTE_MATRIX_COMMAND (R378). A target matrix unit accepts a remote command into its fifth queue, or refuses it with BUSY, NOEP, SEALED, KEY or PERM. -/
  | remoteMatrixCommand (c : MatrixCmd)
  /-- PAIR_WORD (R278). A pair word executes a guarded scalar slot and a vector slot, both reading before either writes. -/
  | pairWord (slot : PairSlot) (v : Instr)
  /-- WIDENED_FORM (R282). An L = 10 extended word widens a base instruction with mask, ordering, scope, rounding and a 32-bit immediate. -/
  | widenedForm (x : Ext) (base : Instr)
  /-- LITERAL_FORM (R276). An L = 11 extended word adds a 64-bit literal read by fields of value 63. -/
  | literalForm (x : Ext) (lit : W64) (base : Instr)
  /-- ADD (R297). D := A + B modulo 2^64. -/
  | add (d a b : F6)
  /-- SUB (R297). D := A - B. -/
  | sub (d a b : F6)
  /-- AND (R297). D := A AND B. -/
  | and (d a b : F6)
  /-- OR (R297). D := A OR B. -/
  | or (d a b : F6)
  /-- XOR (R297). D := A XOR B. -/
  | xor (d a b : F6)
  /-- ANDN (R297). D := A AND NOT B. -/
  | andn (d a b : F6)
  /-- ORN (R297). D := A OR NOT B. -/
  | orn (d a b : F6)
  /-- SLL (R297). D := A shifted left by B[5:0]. -/
  | sll (d a b : F6)
  /-- SRL (R297). D := A shifted right logically by B[5:0]. -/
  | srl (d a b : F6)
  /-- SRA (R297). D := A shifted right arithmetically by B[5:0]. -/
  | sra (d a b : F6)
  /-- ROL (R297). D := A rotated left by B[5:0]. -/
  | rol (d a b : F6)
  /-- MIN (R297). D := signed minimum of A and B. -/
  | min (d a b : F6)
  /-- MAX (R297). D := signed maximum of A and B. -/
  | max (d a b : F6)
  /-- MINU (R297). D := unsigned minimum of A and B. -/
  | minu (d a b : F6)
  /-- MAXU (R297). D := unsigned maximum of A and B. -/
  | maxu (d a b : F6)
  /-- MUL (R297). D := low 64 bits of A x B. -/
  | mul (d a b : F6)
  /-- MULH (R297). D := high 64 bits of the signed product. -/
  | mulh (d a b : F6)
  /-- MULHU (R297). D := high 64 bits of the unsigned product. -/
  | mulhu (d a b : F6)
  /-- DIV (R298). D := signed quotient truncated toward zero, with defined results for zero and overflow. -/
  | div (d a b : F6)
  /-- DIVU (R298). D := unsigned quotient, all ones for a zero divisor. -/
  | divu (d a b : F6)
  /-- REM (R298). D := signed remainder with the dividend's sign, A for a zero divisor. -/
  | rem (d a b : F6)
  /-- REMU (R298). D := unsigned remainder, A for a zero divisor. -/
  | remu (d a b : F6)
  /-- ADDC (R299). D := carry out of A + B + carry-in. -/
  | addc (d a b : F6)
  /-- SUBB (R299). D := borrow of A - B - borrow-in. -/
  | subb (d a b : F6)
  /-- CLZ (R297). D := leading zero bits of A. -/
  | clz (d a : F6)
  /-- CTZ (R297). D := trailing zero bits of A. -/
  | ctz (d a : F6)
  /-- POPC (R297). D := number of one bits of A. -/
  | popc (d a : F6)
  /-- SEXT (R297). D := A sign-extended from width w, with w - 1 in the B field. -/
  | sext (d a b : F6)
  /-- ZEXT (R297). D := A zero-extended from width w. -/
  | zext (d a b : F6)
  /-- ADDI (R300). D := A + sign-extended I10. -/
  | addi (d a : F6) (imm : BitVec 10)
  /-- ANDI (R300). D := A AND sign-extended I10. -/
  | andi (d a : F6) (imm : BitVec 10)
  /-- ORI (R300). D := A OR sign-extended I10. -/
  | ori (d a : F6) (imm : BitVec 10)
  /-- XORI (R300). D := A XOR sign-extended I10. -/
  | xori (d a : F6) (imm : BitVec 10)
  /-- SLLI (R300). D := A shifted left by an immediate amount. -/
  | slli (d a amt : F6)
  /-- SRLI (R300). D := A shifted right logically by an immediate amount. -/
  | srli (d a amt : F6)
  /-- SRAI (R300). D := A shifted right arithmetically by an immediate amount. -/
  | srai (d a amt : F6)
  /-- ROLI (R300). D := A rotated left by an immediate amount. -/
  | roli (d a amt : F6)
  /-- CEQ (R301). Mask kD := all ones when A = B, else zero. -/
  | ceq (d : BitVec 3) (a b : F6)
  /-- CNE (R301). Mask kD := all ones when A differs from B. -/
  | cne (d : BitVec 3) (a b : F6)
  /-- CLT (R301). Mask kD := all ones when A < B signed. -/
  | clt (d : BitVec 3) (a b : F6)
  /-- CGE (R301). Mask kD := all ones when A >= B signed. -/
  | cge (d : BitVec 3) (a b : F6)
  /-- CLTU (R301). Mask kD := all ones when A < B unsigned. -/
  | cltu (d : BitVec 3) (a b : F6)
  /-- CGEU (R301). Mask kD := all ones when A >= B unsigned. -/
  | cgeu (d : BitVec 3) (a b : F6)
  /-- CTST (R301). Mask kD := all ones when A AND B is nonzero. -/
  | ctst (d : BitVec 3) (a b : F6)
  /-- BFX (R303). D := unsigned bit field of A. -/
  | bfx (d a : F6) (pos len : BitVec 5)
  /-- BFXS (R303). D := sign-extended bit field of A. -/
  | bfxs (d a : F6) (pos len : BitVec 5)
  /-- BFI (R303). Inserts low bits of A into D's field. -/
  | bfi (d a : F6) (pos len : BitVec 5)
  /-- BFCLR (R303). D := A with the field cleared. -/
  | bfclr (d a : F6) (pos len : BitVec 5)
  /-- MOV (R302). D := A, all 128 bits and the tag. -/
  | mov (d a : F6)
  /-- SEL (R302). D := A when bit 0 of the named mask is 1, else B. -/
  | sel (k : BitVec 3) (d a b : F6)
  /-- KAND (R302). Mask AND. -/
  | kand (d a b : BitVec 3)
  /-- KOR (R302). Mask OR. -/
  | kor (d a b : BitVec 3)
  /-- KXOR (R302). Mask XOR. -/
  | kxor (d a b : BitVec 3)
  /-- KNOT (R302). Mask NOT. -/
  | knot (d a : BitVec 3)
  /-- KMOVC (R302). Mask kD := integer A. -/
  | kmovc (d : BitVec 3) (a : F6)
  /-- KMOVK (R302). D := mask kA as an integer. -/
  | kmovk (d : F6) (a : BitVec 3)
  /-- KPOP (R302). D := number of one bits of mask kA. -/
  | kpop (d : F6) (a : BitVec 3)
  /-- KFIRST (R302). D := index of the lowest one bit of mask kA, or 64. -/
  | kfirst (d : F6) (a : BitVec 3)
  /-- CBND (R308). Sets a capability's bounds from its cursor and length, rounded outward. -/
  | cbnd (d a b : F6)
  /-- CBNDX (R308). Sets exact bounds, trapping if rounding would change them. -/
  | cbndx (d a b : F6)
  /-- CPRM (R308). Clears permission bits of a capability. -/
  | cprm (d a b : F6)
  /-- CADD (R308). Adds B to a capability's cursor or OFFSET. -/
  | cadd (d a b : F6)
  /-- CSET (R308). Sets a capability's cursor or OFFSET to B. -/
  | cset (d a b : F6)
  /-- CBASE (R308). D := decoded base of A. -/
  | cbase (d a : F6)
  /-- CLEN (R308). D := decoded length of A. -/
  | clen (d a : F6)
  /-- CPERM (R308). D := permission field of A. -/
  | cperm (d a : F6)
  /-- CTYPE (R308). D := TYPE of A. -/
  | ctype (d a : F6)
  /-- CTAG (R308). D := tag of A. -/
  | ctag (d a : F6)
  /-- CCLR (R308). D := A with tag 0. -/
  | cclr (d a : F6)
  /-- CSEAL (R308). Seals an executable memory capability into a sealed entry. -/
  | cseal (d a : F6)
  /-- CAP_CEQ (R308). D := 1 when A and B are equal in all bits and tags. -/
  | capCeq (d a b : F6)
  /-- CSUB (R308). D := difference of the low 64 bits of A and B. -/
  | csub (d a b : F6)
  /-- MVI (R304). D := sign-extended 18-bit immediate. -/
  | mvi (d : F6) (imm : BitVec 18)
  /-- ADR (R305). D := PC capability with cursor advanced by I18 words. -/
  | adr (d : F6) (imm : BitVec 18)
  /-- LD (R321). Loads 1-16 bytes zero-extended through a capability, with the chosen addressing mode. -/
  | ld (d a : F6) (sz : BitVec 3) (am : BitVec 2) (ea : BitVec 7)
  /-- LDS (R321). Loads 1, 2 or 4 bytes sign-extended. -/
  | lds (d a : F6) (sz : BitVec 3) (am : BitVec 2) (ea : BitVec 7)
  /-- ST (R321). Stores 1-16 bytes of D through a capability. -/
  | st (d a : F6) (sz : BitVec 3) (am : BitVec 2) (ea : BitVec 7)
  /-- LDFE_ANY (R324). Loads a word ignoring full/empty state. -/
  | ldfeAny (d a : F6) (am : BitVec 2) (ea : BitVec 7)
  /-- LDFE_WF (R324). Waits until the word is full, loads it, acquire at .mod. -/
  | ldfeWf (d a : F6) (am : BitVec 2) (ea : BitVec 7)
  /-- LDFE_WFE (R324). Waits until full, loads and sets the word empty, acquire at .mod. -/
  | ldfeWfe (d a : F6) (am : BitVec 2) (ea : BitVec 7)
  /-- LDFE_ST (R324). D := 1 when the word is full, 0 when empty. -/
  | ldfeSt (d a : F6) (am : BitVec 2) (ea : BitVec 7)
  /-- STFE_SF (R324). Stores and sets the word full, release at .mod. -/
  | stfeSf (d a : F6) (am : BitVec 2) (ea : BitVec 7)
  /-- STFE_WEF (R324). Waits until empty, stores and sets full, release at .mod. -/
  | stfeWef (d a : F6) (am : BitVec 2) (ea : BitVec 7)
  /-- STFE_SE (R324). Sets the word empty without storing. -/
  | stfeSe (a : F6) (am : BitVec 2) (ea : BitVec 7)
  /-- STFE_KEEP (R324). Stores leaving full/empty state unchanged. -/
  | stfeKeep (d a : F6) (am : BitVec 2) (ea : BitVec 7)
  /-- AMO_ADD (R327). Atomically adds B to the word and returns the old value. -/
  | amoAdd (d a b : F6) (sc : BitVec 3)
  /-- AMO_AND (R327). Atomic AND returning the old value. -/
  | amoAnd (d a b : F6) (sc : BitVec 3)
  /-- AMO_OR (R327). Atomic OR returning the old value. -/
  | amoOr (d a b : F6) (sc : BitVec 3)
  /-- AMO_XOR (R327). Atomic XOR returning the old value. -/
  | amoXor (d a b : F6) (sc : BitVec 3)
  /-- AMO_MIN (R327). Atomic signed minimum returning the old value. -/
  | amoMin (d a b : F6) (sc : BitVec 3)
  /-- AMO_MAX (R327). Atomic signed maximum returning the old value. -/
  | amoMax (d a b : F6) (sc : BitVec 3)
  /-- AMO_MINU (R327). Atomic unsigned minimum returning the old value. -/
  | amoMinu (d a b : F6) (sc : BitVec 3)
  /-- AMO_SWAP (R327). Atomic swap returning the old value. -/
  | amoSwap (d a b : F6) (sc : BitVec 3)
  /-- FENCE (R331). Performs acquire, release or both at the scope, optionally waiting for engine commands. -/
  | fence (sc : BitVec 3) (ord : BitVec 2) (eng : Bool)
  /-- CWB (R332). Writes back the quad's dirty bytes of the range. -/
  | cwb (a b : F6)
  /-- CINV (R332). Writes back and invalidates L1 and instruction-cache lines of the range. -/
  | cinv (a b : F6)
  /-- CWBINV (R332). Writes back and invalidates L1 lines of the range. -/
  | cwbinv (a b : F6)
  /-- CPRE (R332). Prefetches the range into L1, ignoring faults. -/
  | cpre (a b : F6)
  /-- BK (R310). Branches when bit 0 of the mask XOR polarity is 1. -/
  | bk (k : BitVec 3) (pol : Bool) (off : BitVec 18)
  /-- BRA (R310). Branches always. -/
  | bra (off : BitVec 18)
  /-- BZ (R310). Branches when the register is zero. -/
  | bz (r : F6) (off : BitVec 15)
  /-- BNZ (R310). Branches when the register is nonzero. -/
  | bnz (r : F6) (off : BitVec 15)
  /-- BLTZ (R310). Branches when the register is negative. -/
  | bltz (r : F6) (off : BitVec 15)
  /-- BGEZ (R310). Branches when the register is non-negative. -/
  | bgez (r : F6) (off : BitVec 15)
  /-- BLEZ (R310). Branches when the register is at most zero. -/
  | blez (r : F6) (off : BitVec 15)
  /-- BGTZ (R310). Branches when the register is positive. -/
  | bgtz (r : F6) (off : BitVec 15)
  /-- JMP (R310). Jumps by a 24-bit word offset. -/
  | jmp (off : BitVec 24)
  /-- CALL (R310). Writes the return capability to c30 and jumps. -/
  | call (off : BitVec 24)
  /-- JR (R311). Transfers to the capability in A. -/
  | jr (a : F6)
  /-- JALR (R311). Transfers to A and writes the return capability to D. -/
  | jalr (d a : F6)
  /-- RET (R311). Transfers to c30. -/
  | ret
  /-- CCALL (R311). Unseals a sealed entry, transfers to it and writes c30. -/
  | ccall (a : F6)
  /-- LOOP (R312). Starts a zero-overhead loop level with the count in D and body end at the offset. -/
  | loop (d : F6) (off : BitVec 18)
  /-- YIELD (R313). Makes the thread not ready until the other ready slots issue once or 8 cycles pass. -/
  | yield
  /-- HALT (R314). Waits for the thread's tickets, reports deferred faults, and ends the thread. -/
  | halt
  /-- BAR (R315). Team barrier, an acquire-release at .core. -/
  | bar
  /-- WFE (R313). Consumes the RNOTE pending bit or parks until an RNOTE arrives. -/
  | wfe
  /-- NOP (R313). No effect. -/
  | nop
  /-- SLEEP (R313). Makes the thread not ready for A core cycles. -/
  | sleep (a : F6)
  /-- BRK (R313). Raises BREAKPOINT with the 12-bit immediate A x 64 + B. -/
  | brk (imm : BitVec 12)
  /-- TRAP (R316). Raises TRAP_INSN with the 12-bit immediate. -/
  | trap (imm : BitVec 12)
  /-- ERET (R236). Returns from a trap to TRAPPC, restoring the mode. -/
  | eret
  /-- MFS (R317). Reads special register A x 64 + B into D. -/
  | mfs (d : F6) (sr : BitVec 12)
  /-- MTS (R317). Writes D into special register A x 64 + B. -/
  | mts (d : F6) (sr : BitVec 12)
  /-- TLBINV (R318). Releases at .mod and shoots down translations of a range across the module. -/
  | tlbinv (a b : F6)
  /-- VADD (R347). Element-wise add. -/
  | vadd (t : BitVec 3) (d a b : F6)
  /-- VSUB (R347). Element-wise subtract. -/
  | vsub (t : BitVec 3) (d a b : F6)
  /-- VMUL (R347). Element-wise multiply. -/
  | vmul (t : BitVec 3) (d a b : F6)
  /-- VMIN (R347). Element-wise minimum. -/
  | vmin (t : BitVec 3) (d a b : F6)
  /-- VMAX (R347). Element-wise maximum. -/
  | vmax (t : BitVec 3) (d a b : F6)
  /-- VABS (R347). Element-wise absolute value. -/
  | vabs (t : BitVec 3) (d a : F6)
  /-- VNEG (R347). Element-wise negation. -/
  | vneg (t : BitVec 3) (d a : F6)
  /-- VABD (R347). Element-wise absolute difference. -/
  | vabd (t : BitVec 3) (d a b : F6)
  /-- VFMA (R348). Fused c + a x b with one rounding. -/
  | vfma (t : BitVec 3) (d a b : F6)
  /-- VFMS (R348). Fused c - a x b. -/
  | vfms (t : BitVec 3) (d a b : F6)
  /-- VFNMA (R348). Fused -(c + a x b). -/
  | vfnma (t : BitVec 3) (d a b : F6)
  /-- VFNMS (R348). Fused a x b - c. -/
  | vfnms (t : BitVec 3) (d a b : F6)
  /-- VDOT4 (R349). Adds four narrow products into each 32-bit lane. -/
  | vdot4 (t : BitVec 3) (d a b : F6)
  /-- VDOT2 (R349). Adds two 16-bit products into each 32-bit lane. -/
  | vdot2 (t : BitVec 3) (d a b : F6)
  /-- VMULH (R349). High half of each element product. -/
  | vmulh (t : BitVec 3) (d a b : F6)
  /-- VSAD (R349). Accumulates sums of absolute differences into 32-bit lanes. -/
  | vsad (t : BitVec 3) (d a b : F6)
  /-- VAND (R350). Bitwise AND. -/
  | vand (t : BitVec 3) (d a b : F6)
  /-- VOR (R350). Bitwise OR. -/
  | vor (t : BitVec 3) (d a b : F6)
  /-- VXOR (R350). Bitwise XOR. -/
  | vxor (t : BitVec 3) (d a b : F6)
  /-- VANDN (R350). Bitwise AND NOT. -/
  | vandn (t : BitVec 3) (d a b : F6)
  /-- VSLL (R350). Element shift left. -/
  | vsll (t : BitVec 3) (d a b : F6)
  /-- VSRL (R350). Element logical shift right. -/
  | vsrl (t : BitVec 3) (d a b : F6)
  /-- VSRA (R350). Element arithmetic shift right. -/
  | vsra (t : BitVec 3) (d a b : F6)
  /-- VNOT (R350). Bitwise NOT. -/
  | vnot (t : BitVec 3) (d a : F6)
  /-- VCEQ (R351). Mask bits := elements equal. -/
  | vceq (t : BitVec 3) (d : BitVec 3) (a b : F6)
  /-- VCNE (R351). Mask bits := elements differ. -/
  | vcne (t : BitVec 3) (d : BitVec 3) (a b : F6)
  /-- VCLT (R351). Mask bits := a < b. -/
  | vclt (t : BitVec 3) (d : BitVec 3) (a b : F6)
  /-- VCLE (R351). Mask bits := a <= b. -/
  | vcle (t : BitVec 3) (d : BitVec 3) (a b : F6)
  /-- VCGT (R351). Mask bits := a > b. -/
  | vcgt (t : BitVec 3) (d : BitVec 3) (a b : F6)
  /-- VCGE (R351). Mask bits := a >= b. -/
  | vcge (t : BitVec 3) (d : BitVec 3) (a b : F6)
  /-- VCLTU (R351). Mask bits := a < b unsigned. -/
  | vcltu (t : BitVec 3) (d : BitVec 3) (a b : F6)
  /-- VCUN (R351). Mask bits := a or b is a NaN. -/
  | vcun (t : BitVec 3) (d : BitVec 3) (a b : F6)
  /-- VCVT (R352). Converts each element between formats of equal width. -/
  | vcvt (t : BitVec 3) (d a b : F6)
  /-- VCVT_SAT (R352). Converts each element with saturation. -/
  | vcvtSat (t : BitVec 3) (d a b : F6)
  /-- VQN4P (R354). Quantises float elements to QN4 codes by exact division by scales. -/
  | vqn4p (t : BitVec 3) (o : XOp)
  /-- VQN4U (R354). Unpacks QN4 codes to float values, optionally scaled. -/
  | vqn4u (t : BitVec 3) (o : XOp)
  /-- VWID (R352). Widens a part of the source elements. -/
  | vwid (t : BitVec 3) (d a b : F6)
  /-- VWIDH (R352). Widens the high half of the source elements. -/
  | vwidh (t : BitVec 3) (d a b : F6)
  /-- VNAR (R352). Narrows elements into a part of D, keeping the rest. -/
  | vnar (t : BitVec 3) (d a b : F6)
  /-- VRINT (R353). Rounds each element to an integral value in the same format. -/
  | vrint (t : BitVec 3) (d a b : F6)
  /-- VBC (R355). Broadcasts element i of A. -/
  | vbc (t : BitVec 3) (d a b : F6)
  /-- VSHF (R355). Shuffles A by indices in B. -/
  | vshf (t : BitVec 3) (d a b : F6)
  /-- VROT (R355). Rotates A by m elements. -/
  | vrot (t : BitVec 3) (d a b : F6)
  /-- VEXT (R355). Extracts n elements from A followed by B at offset m. -/
  | vext (t : BitVec 3) (d a b : F6)
  /-- VINS (R355). Inserts element 0 of A at position i of D. -/
  | vins (t : BitVec 3) (d a b : F6)
  /-- VZIP (R355). Interleaves elements of A and B. -/
  | vzip (t : BitVec 3) (d a b : F6)
  /-- VUZP (R355). De-interleaves elements of A and B. -/
  | vuzp (t : BitVec 3) (d a b : F6)
  /-- VCPR (R355). Compresses the elements of A selected by a mask. -/
  | vcpr (t : BitVec 3) (d a : F6) (b : BitVec 3)
  /-- VRADD (R356). Reduces participating elements by exact sum rounded once. -/
  | vradd (t : BitVec 3) (d a : F6)
  /-- VRMAX (R356). Reduces to the greatest element. -/
  | vrmax (t : BitVec 3) (d a : F6)
  /-- VRMIN (R356). Reduces to the least element. -/
  | vrmin (t : BitVec 3) (d a : F6)
  /-- VRAND (R356). Reduces by AND. -/
  | vrand (t : BitVec 3) (d a : F6)
  /-- VROR (R356). Reduces by OR. -/
  | vror (t : BitVec 3) (d a : F6)
  /-- VRXOR (R356). Reduces by XOR. -/
  | vrxor (t : BitVec 3) (d a : F6)
  /-- VSCAN (R356). Inclusive prefix sums of participating elements. -/
  | vscan (t : BitVec 3) (d a : F6)
  /-- VRSUM (R356). Exact 64-bit integer sum into bits [63:0] of D. -/
  | vrsum (t : BitVec 3) (d a : F6)
  /-- VRCP (R357). Correctly rounded reciprocal. -/
  | vrcp (t : BitVec 3) (d a : F6)
  /-- VRSQRT (R357). Correctly rounded reciprocal square root. -/
  | vrsqrt (t : BitVec 3) (d a : F6)
  /-- VSQRT (R357). Correctly rounded square root. -/
  | vsqrt (t : BitVec 3) (d a : F6)
  /-- VDIV (R357). Correctly rounded division. -/
  | vdiv (t : BitVec 3) (d a b : F6)
  /-- VEXP2 (R357). Correctly rounded 2 to the power. -/
  | vexp2 (t : BitVec 3) (d a : F6)
  /-- VLOG2 (R357). Correctly rounded base-2 logarithm. -/
  | vlog2 (t : BitVec 3) (d a : F6)
  /-- VTANH (R357). Correctly rounded hyperbolic tangent. -/
  | vtanh (t : BitVec 3) (d a : F6)
  /-- VSIGM (R357). Correctly rounded logistic sigmoid. -/
  | vsigm (t : BitVec 3) (d a : F6)
  /-- VLD (R362). Vector load by unit, post-increment, modulo or gather addressing. -/
  | vld (d a : F6) (sz : BitVec 3) (am : BitVec 2) (ea : BitVec 7)
  /-- VST (R362). Vector store by unit, post-increment, modulo or scatter addressing. -/
  | vst (d a : F6) (sz : BitVec 3) (am : BitVec 2) (ea : BitVec 7)
  /-- VSACC (R358). Adds scaled INT32 block sums into FP32 lanes. -/
  | vsacc (d a b : F6)
  /-- VXPK (R359). Splits FP32 lanes into exact (m, e) pairs. -/
  | vxpk (d a : F6)
  /-- VXACC (R359). Adds pairs into four 128-bit exact accumulators. -/
  | vxacc (d a : F6)
  /-- VXFIN (R359). Converts exact accumulators to FP32 in RNE and clears the state bits. -/
  | vxfin (d a : F6)
  /-- VBSC (R360). Computes QN4 block scale bytes. -/
  | vbsc (d a b : F6)
  /-- VMOV (R361). Copies A. -/
  | vmov (t : BitVec 3) (d a : F6)
  /-- VZERO (R361). Zeroes D. -/
  | vzero (t : BitVec 3) (d : F6)
  /-- VFILL (R361). Fills every element from a scalar. -/
  | vfill (t : BitVec 3) (d a : F6)
  /-- VKMOV (R361). Expands a mask into all-ones or zero elements. -/
  | vkmov (t : BitVec 3) (d : F6) (a : BitVec 3)
  /-- VWBC (R361). Repeats 128-bit group g of A in all four groups. -/
  | vwbc (t : BitVec 3) (d a b : F6)
  /-- TREF (R387). Takes a hold on a version, parking while it is not yet LIVE. -/
  | tref (a b : F6)
  /-- TDROP (R387). Releases a hold on a version and applies the reclaim test. -/
  | tdrop (a b : F6)
  /-- TINFO (R387). Returns the status word of a version or tenured rectangle. -/
  | tinfo (d a b : F6)
  /-- TCHK (R387). Returns the cause of the first failing handle check, or 0, without trapping. -/
  | tchk (d a : F6)
  /-- TDROP_ALL (R387). Sets DROP on a version and applies the reclaim test. -/
  | tdropAll (a b : F6)
  /-- QBIND (R333). Binds a queue register locally or to a mesh channel. -/
  | qbind (q : BitVec 3) (a b : F6)
  /-- QUNB (R333). Clears a queue binding, leaving received entries readable. -/
  | qunb (q : BitVec 3)
  /-- QSTAT (R333). Returns the status word of queue j. -/
  | qstat (d : F6) (q : BitVec 3)
  /-- QPEEK (R333). Returns the head of queue j without popping. -/
  | qpeek (d : F6) (q : BitVec 3)
  /-- VROW_SET (R334). Sets the team's declared vector rows, gating or powering rows. -/
  | vrowSet (d a : F6)
  /-- VROW_GET (R334). Returns VROWS and the ceiling. -/
  | vrowGet (d : F6)
  /-- LOGON (R335). Turns the thread's log switch on. -/
  | logon
  /-- LOGOFF (R335). Turns the log switch off and emits open ranges. -/
  | logoff
  /-- LOGMARK (R335). Emits open ranges and writes a mark entry with A's value. -/
  | logmark (a : F6)
  /-- MMUL (R372). Applies NK K-steps of A x B rows into an accumulator. -/
  | mmul (o : XOp)
  /-- MMULT (R374). Multiplies two tiles named by handles into an accumulator. -/
  | mmult (o : XOp)
  /-- MGRP (R373). Multiplies row groups against per-group B operands. -/
  | mgrp (o : XOp)
  /-- MQ4 (R265). Adds integer QN4 block sums into an INT32 accumulator. -/
  | mq4 (o : XOp)
  /-- MSACC (R375). Adds scaled block sums of one accumulator into an FP32 accumulator. -/
  | msacc (o : XOp)
  /-- MZERO (R376). Zeroes an accumulator. -/
  | mzero (o : XOp)
  /-- MLDZ (R376). Loads an accumulator from memory rows. -/
  | mldz (o : XOp)
  /-- MSTZ (R376). Stores an accumulator to memory rows, comparing checksums. -/
  | mstz (o : XOp)
  /-- MRD (R376). Reads a half row or column of an accumulator into a vector register. -/
  | mrd (o : XOp)
  /-- MWR (R376). Writes a vector register into a half row or column of an accumulator. -/
  | mwr (o : XOp)
  /-- MREC (R380). One recurrent step with reset and hold masks and an activation. -/
  | mrec (o : XOp)
  /-- MCMD (R378). Sends a matrix command to another team's accumulator through a matrix-command capability. -/
  | mcmd (o : XOp)
  /-- MCMD_GRANT (R377). Creates a matrix-command capability naming the issuing team. -/
  | mcmdGrant (o : XOp)
  /-- MWAIT (R379). Waits for sent and accepted remote matrix commands to complete. -/
  | mwait (o : XOp)
  /-- TNEW (R384). Allocates a versioned-tile name and returns its handle. -/
  | tnew (o : XOp)
  /-- TFREE (R384). Frees a name or a tensor region, advancing GEN. -/
  | tfree (o : XOp)
  /-- TVST (R385). Publishes a version of a tile from vectors, memory or an accumulator. -/
  | tvst (o : XOp)
  /-- TVLD (R385). Waits for and loads a version of a tile. -/
  | tvld (o : XOp)
  /-- TVLDC (R385). Waits for and loads a version, consuming a reader unit. -/
  | tvldc (o : XOp)
  /-- TVW (R386). Waits for a version without loading it. -/
  | tvw (o : XOp)
  /-- TDECL (R388). Declares a tensor region and returns its handle. -/
  | tdecl (o : XOp)
  /-- TTEN (R389). Requests read or write tenure on a rectangle. -/
  | tten (o : XOp)
  /-- TREL (R389). Releases the team's tenure on a rectangle. -/
  | trel (o : XOp)
  /-- TSPLIT (R389). Splits a write-held rectangle into sub-tiles. -/
  | tsplit (o : XOp)
  /-- TMERGE (R389). Merges a split rectangle when no sub-tile tenure is held. -/
  | tmerge (o : XOp)
  /-- THALO (R389). Subscribes the team to a halo strip of a rectangle, or ends it. -/
  | thalo (o : XOp)
  /-- CAS (R329). Atomic compare-and-swap of 4 or 8 bytes. -/
  | cas (o : XOp)
  /-- CASQ (R329). Atomic compare-and-swap of 16 bytes with tag. -/
  | casq (o : XOp)
  /-- LDACQ (R330). Load with acquire at SC. -/
  | ldacq (o : XOp)
  /-- STREL (R330). Store with release at SC. -/
  | strel (o : XOp)
  /-- CP (R336). Engine copy of n bytes. -/
  | cp (o : XOp)
  /-- CP2D (R336). Engine two-dimensional copy by descriptor. -/
  | cp2d (o : XOp)
  /-- CPF (R336). Engine fill with a 64-bit pattern. -/
  | cpf (o : XOp)
  /-- CPG (R336). Engine gather of indexed elements. -/
  | cpg (o : XOp)
  /-- CPS (R336). Engine scatter of indexed elements. -/
  | cps (o : XOp)
  /-- CPQ (R336). Engine copy of granules with tags. -/
  | cpq (o : XOp)
  /-- RLD (R338). Remote load through a window, optionally with a full/empty mode. -/
  | rld (o : XOp)
  /-- RST (R338). Remote store through a window, optionally with a full/empty mode. -/
  | rst (o : XOp)
  /-- RAMO (R338). Remote atomic. -/
  | ramo (o : XOp)
  /-- RCAS (R338). Remote compare-and-swap. -/
  | rcas (o : XOp)
  /-- RCALL (R339). Calls a handler on a team's thread 7. -/
  | rcall (o : XOp)
  /-- RNOTE (R340). Sends an RNOTE notice to a thread of a team. -/
  | rnote (o : XOp)
  /-- RFENCE (R340). Waits for every earlier keyed instruction and ticket of the thread. -/
  | rfence (o : XOp)
  /-- RGET (R341). Remote bulk read into a local or memory range. -/
  | rget (o : XOp)
  /-- RPUT (R341). Remote bulk write from a local or memory range. -/
  | rput (o : XOp)
  /-- RKREG (R342). Registers a remote region and returns its key. -/
  | rkreg (o : XOp)
  /-- RKREV (R342). Revokes a remote key across every gateway. -/
  | rkrev (o : XOp)
  /-- MIGHINT (R342). Asks Drift to move a page to a tier and die. -/
  | mighint (o : XOp)
  /-- PGPIN (R342). Sets or clears FIX of a page, aborting any motion. -/
  | pgpin (o : XOp)
  /-- PGRET (R342). Retires a page's leaf to type 5 and sets FIX. -/
  | pgret (o : XOp)
  /-- LOGRING (R342). Emits open ranges and installs a new log ring. -/
  | logring (o : XOp)
  /-- KEYSET (R342). Writes an SM4 key pair to every port for a key index. -/
  | keyset (o : XOp)
  /-- CORESEAL (R342). Seals a named logical core. -/
  | coreseal (o : XOp)
  /-- LAUNCH (R390). Releases at .mod and submits a launch record to the issuing die's dispatcher. -/
  | launch (o : XOp)
  /-- TSPAWN (R390). Launches teams with a record copied from the issuing launch. -/
  | tspawn (o : XOp)
  /-- LWAIT (R390). Waits until a launch is FREE and returns its completion value. -/
  | lwait (o : XOp)
  /-- PRIO (R390). Changes a launch's priority within its context's ceiling. -/
  | prio (o : XOp)
  /-- RESET_RELEASE (R75). The rack controller releases a module held in reset, and bring-up runs again with the MODID written during the reset. -/
  | resetRelease
  /-- LOSS_OF_MAIN_RAILS (R75). The main rails are lost while standby power stays, so dies and memories lose their contents while MODID and the Harvy port keep theirs. -/
  | lossOfMainRails
  /-- LINK_RETRAINED (R72). A link under retraining finishes training within 10 ms and resumes carrying flits, with replay keeping flit order. -/
  | linkRetrained (link : LinkId)
  /-- ZENITH_STATE_LOST (R246). An uncorrectable error in Zenith core, edge-station or die-link state fails the module, signals FAIL through vector 64 and the Harvy port, and terminates every context. -/
  | zenithStateLost (die : Nat)
  /-- QUEUE_CREDIT_RETURN (R147). A credit of a mesh queue channel returns to the sender when the receiver pops an entry, letting a blocked writer proceed. -/
  | queueCreditReturn (t : ThrId) (q : Nat)
  /-- UNALLOCATED_ENCODING (R283). A fetched instruction whose major, function, SOP, SUB or other field value is unallocated, or the all-zero word, raises ILLEGAL. -/
  | unallocatedEncoding (e : EncFault)
  /-- INSTRUCTION_FETCH_FAULT (R235). A fetch that fails the PC capability checks or translation raises its trap with TRAPVAL 64 or the faulting word's address, before any instruction is decoded. -/
  | instructionFetchFault (e : FetchFault)
deriving DecidableEq, Repr

end Sys2Proof
end

