-- ==== Sys2Proof/Decode.lean ====
section
/-!
DEFINITION. Reading an instruction's words (R272–R283): the formats, the opcode map, the register and literal rules, which
encodings raise `ILLEGAL`, which bits raise `RESERVED_FIELD`; and after the decoder the encoder, from the same tables. The
decoder reads a candidate from the fields an instruction uses, clears the fields it may not use (`canon`), and compares the
candidate's own words with the words read: the lowest bit that differs is a nonzero reserved bit.
-/
namespace Sys2Proof

noncomputable section

/-! ## Formats -/

/-- A base word by its sub-format (R273). -/
inductive BaseFmt where
  | rr (op f b a d : F6)
  | ri (op : F6) (f2 : BitVec 2) (imm : BitVec 10) (a d : F6)
  | mem (op : F6) (ea : BitVec 7) (am : BitVec 2) (sz : BitVec 3) (a d : F6)
  | bk (off : BitVec 18) (kind : BitVec 2) (pol : Bool) (k : BitVec 3)
  | bc (off : BitVec 15) (cond : BitVec 3) (r : F6)
  | j (op : F6) (off : BitVec 24)
  | mv (op : F6) (imm : BitVec 18) (d : F6)
  | vr (op : F6) (f3 t : BitVec 3) (b a d : F6)
deriving DecidableEq, Repr

/-- The word of a format, L = 00 (R273, R274). -/
def BaseFmt.word : BaseFmt → W32
  | .rr op f b a d => f ++ b ++ a ++ d ++ op ++ (0 : BitVec 2)
  | .ri op f2 imm a d => f2 ++ imm ++ a ++ d ++ op ++ (0 : BitVec 2)
  | .mem op ea am sz a d => ea ++ am ++ sz ++ a ++ d ++ op ++ (0 : BitVec 2)
  | .bk off kind pol k => off ++ kind ++ BitVec.ofBool pol ++ k ++ (0x18 : F6) ++ (0 : BitVec 2)
  | .bc off cond r => off ++ cond ++ r ++ (0x19 : F6) ++ (0 : BitVec 2)
  | .j op off => off ++ op ++ (0 : BitVec 2)
  | .mv op imm d => imm ++ d ++ op ++ (0 : BitVec 2)
  | .vr op f3 t b a d => f3 ++ t ++ b ++ a ++ d ++ op ++ (0 : BitVec 2)

/-- The sub-formats of the opcode map (R286). -/
inductive SubFmt where
  | rr
  | ri
  | mem
  | bk
  | bc
  | j
  | mv
  | vr
deriving DecidableEq, Repr

/-- The sub-format of a base major, `none` for the others (R286). -/
def subFmt (op : F6) : Option SubFmt :=
  match op.toNat with
  | 0x01 | 0x04 | 0x06 | 0x07 | 0x15 | 0x16 | 0x17 | 0x1C | 0x1E | 0x1F | 0x30 | 0x31 | 0x32 | 0x33 => some .rr
  | 0x02 | 0x03 | 0x05 => some .ri
  | 0x10 | 0x11 | 0x12 | 0x13 | 0x14 | 0x28 | 0x29 => some .mem
  | 0x18 => some .bk
  | 0x19 => some .bc
  | 0x1A | 0x1B => some .j
  | 0x08 | 0x09 | 0x1D => some .mv
  | 0x20 | 0x21 | 0x22 | 0x23 | 0x24 | 0x25 | 0x26 | 0x27 | 0x2A | 0x2B => some .vr
  | _ => none

/-- The fields of a base word (R273, R274). -/
def fmtOf (w : W32) : Option BaseFmt :=
  let op : F6 := w.extractLsb' 2 6
  let d : F6 := w.extractLsb' 8 6
  let a : F6 := w.extractLsb' 14 6
  let b : F6 := w.extractLsb' 20 6
  match subFmt op with
  | some .rr => some (.rr op (w.extractLsb' 26 6) b a d)
  | some .ri => some (.ri op (w.extractLsb' 30 2) (w.extractLsb' 20 10) a d)
  | some .mem => some (.mem op (w.extractLsb' 25 7) (w.extractLsb' 23 2) (w.extractLsb' 20 3) a d)
  | some .bk => some (.bk (w.extractLsb' 14 18) (w.extractLsb' 12 2) (w.getLsbD 11) (w.extractLsb' 8 3))
  | some .bc => some (.bc (w.extractLsb' 17 15) (w.extractLsb' 14 3) d)
  | some .j => some (.j op (w.extractLsb' 8 24))
  | some .mv => some (.mv op (w.extractLsb' 14 18) d)
  | some .vr => some (.vr op (w.extractLsb' 29 3) (w.extractLsb' 26 3) b a d)
  | none => none

/-! ## The opcode map -/

/-- The format of an instruction's base word, `none` where it has no base word (R273, R274, R286). -/
def baseFmt : Instr → Option BaseFmt
  | .add d a b => some (.rr 0x01 0 b a d)
  | .sub d a b => some (.rr 0x01 1 b a d)
  | .and d a b => some (.rr 0x01 2 b a d)
  | .or d a b => some (.rr 0x01 3 b a d)
  | .xor d a b => some (.rr 0x01 4 b a d)
  | .andn d a b => some (.rr 0x01 5 b a d)
  | .orn d a b => some (.rr 0x01 6 b a d)
  | .sll d a b => some (.rr 0x01 7 b a d)
  | .srl d a b => some (.rr 0x01 8 b a d)
  | .sra d a b => some (.rr 0x01 9 b a d)
  | .rol d a b => some (.rr 0x01 10 b a d)
  | .min d a b => some (.rr 0x01 11 b a d)
  | .max d a b => some (.rr 0x01 12 b a d)
  | .minu d a b => some (.rr 0x01 13 b a d)
  | .maxu d a b => some (.rr 0x01 14 b a d)
  | .mul d a b => some (.rr 0x01 15 b a d)
  | .mulh d a b => some (.rr 0x01 16 b a d)
  | .mulhu d a b => some (.rr 0x01 17 b a d)
  | .div d a b => some (.rr 0x01 18 b a d)
  | .divu d a b => some (.rr 0x01 19 b a d)
  | .rem d a b => some (.rr 0x01 20 b a d)
  | .remu d a b => some (.rr 0x01 21 b a d)
  | .addc d a b => some (.rr 0x01 22 b a d)
  | .subb d a b => some (.rr 0x01 23 b a d)
  | .clz d a => some (.rr 0x01 24 0 a d)
  | .ctz d a => some (.rr 0x01 25 0 a d)
  | .popc d a => some (.rr 0x01 26 0 a d)
  | .sext d a b => some (.rr 0x01 27 b a d)
  | .zext d a b => some (.rr 0x01 28 b a d)
  | .ceq d a b => some (.rr 0x04 0 b a (d.setWidth 6))
  | .cne d a b => some (.rr 0x04 1 b a (d.setWidth 6))
  | .clt d a b => some (.rr 0x04 2 b a (d.setWidth 6))
  | .cge d a b => some (.rr 0x04 3 b a (d.setWidth 6))
  | .cltu d a b => some (.rr 0x04 4 b a (d.setWidth 6))
  | .cgeu d a b => some (.rr 0x04 5 b a (d.setWidth 6))
  | .ctst d a b => some (.rr 0x04 6 b a (d.setWidth 6))
  | .cbnd d a b => some (.rr 0x07 0 b a d)
  | .cbndx d a b => some (.rr 0x07 1 b a d)
  | .cprm d a b => some (.rr 0x07 2 b a d)
  | .cadd d a b => some (.rr 0x07 3 b a d)
  | .cset d a b => some (.rr 0x07 4 b a d)
  | .cbase d a => some (.rr 0x07 5 0 a d)
  | .clen d a => some (.rr 0x07 6 0 a d)
  | .cperm d a => some (.rr 0x07 7 0 a d)
  | .ctype d a => some (.rr 0x07 8 0 a d)
  | .ctag d a => some (.rr 0x07 9 0 a d)
  | .cclr d a => some (.rr 0x07 10 0 a d)
  | .cseal d a => some (.rr 0x07 11 0 a d)
  | .capCeq d a b => some (.rr 0x07 12 b a d)
  | .csub d a b => some (.rr 0x07 13 b a d)
  | .cwb a b => some (.rr 0x17 0 b a 0)
  | .cinv a b => some (.rr 0x17 1 b a 0)
  | .cwbinv a b => some (.rr 0x17 2 b a 0)
  | .cpre a b => some (.rr 0x17 3 b a 0)
  | .jr a => some (.rr 0x1C 0 0 a 0)
  | .jalr d a => some (.rr 0x1C 1 0 a d)
  | .ret => some (.rr 0x1C 2 0 0 0)
  | .ccall a => some (.rr 0x1C 3 0 a 0)
  | .yield => some (.rr 0x1E 0 0 0 0)
  | .halt => some (.rr 0x1E 1 0 0 0)
  | .bar => some (.rr 0x1E 2 0 0 0)
  | .wfe => some (.rr 0x1E 3 0 0 0)
  | .nop => some (.rr 0x1E 4 0 0 0)
  | .sleep a => some (.rr 0x1E 5 0 a 0)
  | .brk imm => some (.rr 0x1E 6 (imm.extractLsb' 0 6) (imm.extractLsb' 6 6) 0)
  | .trap imm => some (.rr 0x1F 0 (imm.extractLsb' 0 6) (imm.extractLsb' 6 6) 0)
  | .eret => some (.rr 0x1F 1 0 0 0)
  | .mfs d sr => some (.rr 0x1F 2 (sr.extractLsb' 0 6) (sr.extractLsb' 6 6) d)
  | .mts d sr => some (.rr 0x1F 3 (sr.extractLsb' 0 6) (sr.extractLsb' 6 6) d)
  | .tlbinv a b => some (.rr 0x1F 4 b a 0)
  | .tref a b => some (.rr 0x30 0 b a 0)
  | .tdrop a b => some (.rr 0x30 1 b a 0)
  | .tinfo d a b => some (.rr 0x30 2 b a d)
  | .tchk d a => some (.rr 0x30 3 0 a d)
  | .tdropAll a b => some (.rr 0x30 4 b a 0)
  | .qbind q a b => some (.rr 0x31 0 b a ((6 : BitVec 3) ++ q))
  | .qunb q => some (.rr 0x31 1 0 0 ((6 : BitVec 3) ++ q))
  | .qstat d q => some (.rr 0x31 2 (q.setWidth 6) 0 d)
  | .qpeek d q => some (.rr 0x31 3 (q.setWidth 6) 0 d)
  | .vrowSet d a => some (.rr 0x32 0 0 a d)
  | .vrowGet d => some (.rr 0x32 1 0 0 d)
  | .logon => some (.rr 0x33 0 0 0 0)
  | .logoff => some (.rr 0x33 1 0 0 0)
  | .logmark a => some (.rr 0x33 2 0 a 0)
  | .mov d a => some (.rr 0x06 0 0 a d)
  | .kand d a b => some (.rr 0x06 16 (b.setWidth 6) (a.setWidth 6) (d.setWidth 6))
  | .kor d a b => some (.rr 0x06 17 (b.setWidth 6) (a.setWidth 6) (d.setWidth 6))
  | .kxor d a b => some (.rr 0x06 18 (b.setWidth 6) (a.setWidth 6) (d.setWidth 6))
  | .knot d a => some (.rr 0x06 19 0 (a.setWidth 6) (d.setWidth 6))
  | .kmovc d a => some (.rr 0x06 20 0 a (d.setWidth 6))
  | .kmovk d a => some (.rr 0x06 21 0 (a.setWidth 6) d)
  | .kpop d a => some (.rr 0x06 22 0 (a.setWidth 6) d)
  | .kfirst d a => some (.rr 0x06 23 0 (a.setWidth 6) d)
  | .sel k d a b => some (.rr 0x06 ((1 : BitVec 3) ++ k) b a d)
  | .amoAdd d a b sc => some (.rr 0x15 (sc ++ (0 : BitVec 3)) b a d)
  | .amoAnd d a b sc => some (.rr 0x15 (sc ++ (1 : BitVec 3)) b a d)
  | .amoOr d a b sc => some (.rr 0x15 (sc ++ (2 : BitVec 3)) b a d)
  | .amoXor d a b sc => some (.rr 0x15 (sc ++ (3 : BitVec 3)) b a d)
  | .amoMin d a b sc => some (.rr 0x15 (sc ++ (4 : BitVec 3)) b a d)
  | .amoMax d a b sc => some (.rr 0x15 (sc ++ (5 : BitVec 3)) b a d)
  | .amoMinu d a b sc => some (.rr 0x15 (sc ++ (6 : BitVec 3)) b a d)
  | .amoSwap d a b sc => some (.rr 0x15 (sc ++ (7 : BitVec 3)) b a d)
  | .fence sc ord eng => some (.rr 0x16 (BitVec.ofBool eng ++ ord ++ sc) 0 0 0)
  | .addi d a imm => some (.ri 0x02 0 imm a d)
  | .andi d a imm => some (.ri 0x02 1 imm a d)
  | .ori d a imm => some (.ri 0x02 2 imm a d)
  | .xori d a imm => some (.ri 0x02 3 imm a d)
  | .slli d a amt => some (.ri 0x03 0 (amt.setWidth 10) a d)
  | .srli d a amt => some (.ri 0x03 1 (amt.setWidth 10) a d)
  | .srai d a amt => some (.ri 0x03 2 (amt.setWidth 10) a d)
  | .roli d a amt => some (.ri 0x03 3 (amt.setWidth 10) a d)
  | .bfx d a pos len => some (.ri 0x05 0 (len ++ pos) a d)
  | .bfxs d a pos len => some (.ri 0x05 1 (len ++ pos) a d)
  | .bfi d a pos len => some (.ri 0x05 2 (len ++ pos) a d)
  | .bfclr d a pos len => some (.ri 0x05 3 (len ++ pos) a d)
  | .mvi d imm => some (.mv 0x08 imm d)
  | .adr d imm => some (.mv 0x09 imm d)
  | .loop d off => some (.mv 0x1D off d)
  | .ld d a sz am ea => some (.mem 0x10 ea am sz a d)
  | .lds d a sz am ea => some (.mem 0x11 ea am sz a d)
  | .st d a sz am ea => some (.mem 0x12 ea am sz a d)
  | .vld d a sz am ea => some (.mem 0x28 ea am sz a d)
  | .vst d a sz am ea => some (.mem 0x29 ea am sz a d)
  | .ldfeAny d a am ea => some (.mem 0x13 ea am 0 a d)
  | .ldfeWf d a am ea => some (.mem 0x13 ea am 1 a d)
  | .ldfeWfe d a am ea => some (.mem 0x13 ea am 2 a d)
  | .ldfeSt d a am ea => some (.mem 0x13 ea am 3 a d)
  | .stfeSf d a am ea => some (.mem 0x14 ea am 0 a d)
  | .stfeWef d a am ea => some (.mem 0x14 ea am 1 a d)
  | .stfeSe a am ea => some (.mem 0x14 ea am 2 a 0)
  | .stfeKeep d a am ea => some (.mem 0x14 ea am 3 a d)
  | .bk k pol off => some (.bk off 0 pol k)
  | .bra off => some (.bk off 1 false 0)
  | .bz r off => some (.bc off 0 r)
  | .bnz r off => some (.bc off 1 r)
  | .bltz r off => some (.bc off 2 r)
  | .bgez r off => some (.bc off 3 r)
  | .blez r off => some (.bc off 4 r)
  | .bgtz r off => some (.bc off 5 r)
  | .jmp off => some (.j 0x1A off)
  | .call off => some (.j 0x1B off)
  | .vadd t d a b => some (.vr 0x20 0 t b a d)
  | .vsub t d a b => some (.vr 0x20 1 t b a d)
  | .vmul t d a b => some (.vr 0x20 2 t b a d)
  | .vmin t d a b => some (.vr 0x20 3 t b a d)
  | .vmax t d a b => some (.vr 0x20 4 t b a d)
  | .vabs t d a => some (.vr 0x20 5 t 0 a d)
  | .vneg t d a => some (.vr 0x20 6 t 0 a d)
  | .vabd t d a b => some (.vr 0x20 7 t b a d)
  | .vfma t d a b => some (.vr 0x21 0 t b a d)
  | .vfms t d a b => some (.vr 0x21 1 t b a d)
  | .vfnma t d a b => some (.vr 0x21 2 t b a d)
  | .vfnms t d a b => some (.vr 0x21 3 t b a d)
  | .vdot4 t d a b => some (.vr 0x21 4 t b a d)
  | .vdot2 t d a b => some (.vr 0x21 5 t b a d)
  | .vmulh t d a b => some (.vr 0x21 6 t b a d)
  | .vsad t d a b => some (.vr 0x21 7 t b a d)
  | .vand t d a b => some (.vr 0x22 0 t b a d)
  | .vor t d a b => some (.vr 0x22 1 t b a d)
  | .vxor t d a b => some (.vr 0x22 2 t b a d)
  | .vandn t d a b => some (.vr 0x22 3 t b a d)
  | .vsll t d a b => some (.vr 0x22 4 t b a d)
  | .vsrl t d a b => some (.vr 0x22 5 t b a d)
  | .vsra t d a b => some (.vr 0x22 6 t b a d)
  | .vnot t d a => some (.vr 0x22 7 t 0 a d)
  | .vceq t d a b => some (.vr 0x23 0 t b a (d.setWidth 6))
  | .vcne t d a b => some (.vr 0x23 1 t b a (d.setWidth 6))
  | .vclt t d a b => some (.vr 0x23 2 t b a (d.setWidth 6))
  | .vcle t d a b => some (.vr 0x23 3 t b a (d.setWidth 6))
  | .vcgt t d a b => some (.vr 0x23 4 t b a (d.setWidth 6))
  | .vcge t d a b => some (.vr 0x23 5 t b a (d.setWidth 6))
  | .vcltu t d a b => some (.vr 0x23 6 t b a (d.setWidth 6))
  | .vcun t d a b => some (.vr 0x23 7 t b a (d.setWidth 6))
  | .vcvt t d a b => some (.vr 0x24 0 t b a d)
  | .vcvtSat t d a b => some (.vr 0x24 1 t b a d)
  | .vwid t d a b => some (.vr 0x24 4 t b a d)
  | .vwidh t d a b => some (.vr 0x24 5 t b a d)
  | .vnar t d a b => some (.vr 0x24 6 t b a d)
  | .vrint t d a b => some (.vr 0x24 7 t b a d)
  | .vbc t d a b => some (.vr 0x25 0 t b a d)
  | .vshf t d a b => some (.vr 0x25 1 t b a d)
  | .vrot t d a b => some (.vr 0x25 2 t b a d)
  | .vext t d a b => some (.vr 0x25 3 t b a d)
  | .vins t d a b => some (.vr 0x25 4 t b a d)
  | .vzip t d a b => some (.vr 0x25 5 t b a d)
  | .vuzp t d a b => some (.vr 0x25 6 t b a d)
  | .vcpr t d a b => some (.vr 0x25 7 t (b.setWidth 6) a d)
  | .vradd t d a => some (.vr 0x26 0 t 0 a d)
  | .vrmax t d a => some (.vr 0x26 1 t 0 a d)
  | .vrmin t d a => some (.vr 0x26 2 t 0 a d)
  | .vrand t d a => some (.vr 0x26 3 t 0 a d)
  | .vror t d a => some (.vr 0x26 4 t 0 a d)
  | .vrxor t d a => some (.vr 0x26 5 t 0 a d)
  | .vscan t d a => some (.vr 0x26 6 t 0 a d)
  | .vrsum t d a => some (.vr 0x26 7 t 0 a d)
  | .vrcp t d a => some (.vr 0x27 0 t 0 a d)
  | .vrsqrt t d a => some (.vr 0x27 1 t 0 a d)
  | .vsqrt t d a => some (.vr 0x27 2 t 0 a d)
  | .vdiv t d a b => some (.vr 0x27 3 t b a d)
  | .vexp2 t d a => some (.vr 0x27 4 t 0 a d)
  | .vlog2 t d a => some (.vr 0x27 5 t 0 a d)
  | .vtanh t d a => some (.vr 0x27 6 t 0 a d)
  | .vsigm t d a => some (.vr 0x27 7 t 0 a d)
  | .vsacc d a b => some (.vr 0x2A 0 0 b a d)
  | .vxpk d a => some (.vr 0x2A 1 0 0 a d)
  | .vxacc d a => some (.vr 0x2A 2 0 0 a d)
  | .vxfin d a => some (.vr 0x2A 3 0 0 a d)
  | .vbsc d a b => some (.vr 0x2A 4 0 b a d)
  | .vmov t d a => some (.vr 0x2B 0 t 0 a d)
  | .vzero t d => some (.vr 0x2B 1 t 0 0 d)
  | .vfill t d a => some (.vr 0x2B 2 t 0 a d)
  | .vkmov t d a => some (.vr 0x2B 3 t 0 (a.setWidth 6) d)
  | .vwbc t d a b => some (.vr 0x2B 4 t b a d)
  | _ => none

/-- The instruction of a function code of an RR major (R286). -/
def ofRR (op f b a d : F6) : Option Instr :=
  match op.toNat with
  | 0x01 =>
    match f.toNat with
    | 0 => some (.add d a b)
    | 1 => some (.sub d a b)
    | 2 => some (.and d a b)
    | 3 => some (.or d a b)
    | 4 => some (.xor d a b)
    | 5 => some (.andn d a b)
    | 6 => some (.orn d a b)
    | 7 => some (.sll d a b)
    | 8 => some (.srl d a b)
    | 9 => some (.sra d a b)
    | 10 => some (.rol d a b)
    | 11 => some (.min d a b)
    | 12 => some (.max d a b)
    | 13 => some (.minu d a b)
    | 14 => some (.maxu d a b)
    | 15 => some (.mul d a b)
    | 16 => some (.mulh d a b)
    | 17 => some (.mulhu d a b)
    | 18 => some (.div d a b)
    | 19 => some (.divu d a b)
    | 20 => some (.rem d a b)
    | 21 => some (.remu d a b)
    | 22 => some (.addc d a b)
    | 23 => some (.subb d a b)
    | 24 => some (.clz d a)
    | 25 => some (.ctz d a)
    | 26 => some (.popc d a)
    | 27 => some (.sext d a b)
    | 28 => some (.zext d a b)
    | _ => none
  | 0x04 =>
    match f.toNat with
    | 0 => some (.ceq (d.extractLsb' 0 3) a b)
    | 1 => some (.cne (d.extractLsb' 0 3) a b)
    | 2 => some (.clt (d.extractLsb' 0 3) a b)
    | 3 => some (.cge (d.extractLsb' 0 3) a b)
    | 4 => some (.cltu (d.extractLsb' 0 3) a b)
    | 5 => some (.cgeu (d.extractLsb' 0 3) a b)
    | 6 => some (.ctst (d.extractLsb' 0 3) a b)
    | _ => none
  | 0x06 =>
    if f.extractLsb' 3 3 = 1 then some (.sel (f.extractLsb' 0 3) d a b) else
    match f.toNat with
    | 0 => some (.mov d a)
    | 16 => some (.kand (d.extractLsb' 0 3) (a.extractLsb' 0 3) (b.extractLsb' 0 3))
    | 17 => some (.kor (d.extractLsb' 0 3) (a.extractLsb' 0 3) (b.extractLsb' 0 3))
    | 18 => some (.kxor (d.extractLsb' 0 3) (a.extractLsb' 0 3) (b.extractLsb' 0 3))
    | 19 => some (.knot (d.extractLsb' 0 3) (a.extractLsb' 0 3))
    | 20 => some (.kmovc (d.extractLsb' 0 3) a)
    | 21 => some (.kmovk d (a.extractLsb' 0 3))
    | 22 => some (.kpop d (a.extractLsb' 0 3))
    | 23 => some (.kfirst d (a.extractLsb' 0 3))
    | _ => none
  | 0x07 =>
    match f.toNat with
    | 0 => some (.cbnd d a b)
    | 1 => some (.cbndx d a b)
    | 2 => some (.cprm d a b)
    | 3 => some (.cadd d a b)
    | 4 => some (.cset d a b)
    | 5 => some (.cbase d a)
    | 6 => some (.clen d a)
    | 7 => some (.cperm d a)
    | 8 => some (.ctype d a)
    | 9 => some (.ctag d a)
    | 10 => some (.cclr d a)
    | 11 => some (.cseal d a)
    | 12 => some (.capCeq d a b)
    | 13 => some (.csub d a b)
    | _ => none
  | 0x15 =>
    let sc := f.extractLsb' 3 3
    match (f.extractLsb' 0 3).toNat with
    | 0 => some (.amoAdd d a b sc)
    | 1 => some (.amoAnd d a b sc)
    | 2 => some (.amoOr d a b sc)
    | 3 => some (.amoXor d a b sc)
    | 4 => some (.amoMin d a b sc)
    | 5 => some (.amoMax d a b sc)
    | 6 => some (.amoMinu d a b sc)
    | _ => some (.amoSwap d a b sc)
  | 0x16 =>
    if f.extractLsb' 3 2 = 0 then none else some (.fence (f.extractLsb' 0 3) (f.extractLsb' 3 2) (f.getLsbD 5))
  | 0x17 =>
    match f.toNat with
    | 0 => some (.cwb a b)
    | 1 => some (.cinv a b)
    | 2 => some (.cwbinv a b)
    | 3 => some (.cpre a b)
    | _ => none
  | 0x1C =>
    match f.toNat with
    | 0 => some (.jr a)
    | 1 => some (.jalr d a)
    | 2 => some (.ret)
    | 3 => some (.ccall a)
    | _ => none
  | 0x1E =>
    match f.toNat with
    | 0 => some (.yield)
    | 1 => some (.halt)
    | 2 => some (.bar)
    | 3 => some (.wfe)
    | 4 => some (.nop)
    | 5 => some (.sleep a)
    | 6 => some (.brk (a ++ b))
    | _ => none
  | 0x1F =>
    match f.toNat with
    | 0 => some (.trap (a ++ b))
    | 1 => some (.eret)
    | 2 => some (.mfs d (a ++ b))
    | 3 => some (.mts d (a ++ b))
    | 4 => some (.tlbinv a b)
    | _ => none
  | 0x30 =>
    match f.toNat with
    | 0 => some (.tref a b)
    | 1 => some (.tdrop a b)
    | 2 => some (.tinfo d a b)
    | 3 => some (.tchk d a)
    | 4 => some (.tdropAll a b)
    | _ => none
  | 0x31 =>
    match f.toNat with
    | 0 => if d.extractLsb' 3 3 = 6 then some (.qbind (d.extractLsb' 0 3) a b) else none
    | 1 => if d.extractLsb' 3 3 = 6 then some (.qunb (d.extractLsb' 0 3)) else none
    | 2 => some (.qstat d (b.extractLsb' 0 3))
    | 3 => some (.qpeek d (b.extractLsb' 0 3))
    | _ => none
  | 0x32 =>
    match f.toNat with
    | 0 => some (.vrowSet d a)
    | 1 => some (.vrowGet d)
    | _ => none
  | 0x33 =>
    match f.toNat with
    | 0 => some (.logon)
    | 1 => some (.logoff)
    | 2 => some (.logmark a)
    | _ => none
  | _ => none

/-- The instruction of an RI major: F2 selects it, `imm` is I10 (R286, R300, R303). -/
def ofRI (op : F6) (f2 : BitVec 2) (imm : BitVec 10) (a d : F6) : Option Instr :=
  match op.toNat, f2.toNat with
  | 0x02, 0 => some (.addi d a imm)
  | 0x02, 1 => some (.andi d a imm)
  | 0x02, 2 => some (.ori d a imm)
  | 0x02, 3 => some (.xori d a imm)
  | 0x03, 0 => some (.slli d a (imm.extractLsb' 0 6))
  | 0x03, 1 => some (.srli d a (imm.extractLsb' 0 6))
  | 0x03, 2 => some (.srai d a (imm.extractLsb' 0 6))
  | 0x03, 3 => some (.roli d a (imm.extractLsb' 0 6))
  | 0x05, 0 => some (.bfx d a (imm.extractLsb' 0 5) (imm.extractLsb' 5 5))
  | 0x05, 1 => some (.bfxs d a (imm.extractLsb' 0 5) (imm.extractLsb' 5 5))
  | 0x05, 2 => some (.bfi d a (imm.extractLsb' 0 5) (imm.extractLsb' 5 5))
  | 0x05, 3 => some (.bfclr d a (imm.extractLsb' 0 5) (imm.extractLsb' 5 5))
  | _, _ => none

/-- The instruction of an M or VM major (R274, R286, R324). -/
def ofMem (op : F6) (ea : BitVec 7) (am : BitVec 2) (sz : BitVec 3) (a d : F6) : Option Instr :=
  match op.toNat, sz.toNat with
  | 0x10, _ => some (.ld d a sz am ea)
  | 0x11, _ => some (.lds d a sz am ea)
  | 0x12, _ => some (.st d a sz am ea)
  | 0x13, 0 => some (.ldfeAny d a am ea)
  | 0x13, 1 => some (.ldfeWf d a am ea)
  | 0x13, 2 => some (.ldfeWfe d a am ea)
  | 0x13, 3 => some (.ldfeSt d a am ea)
  | 0x14, 0 => some (.stfeSf d a am ea)
  | 0x14, 1 => some (.stfeWef d a am ea)
  | 0x14, 2 => some (.stfeSe a am ea)
  | 0x14, 3 => some (.stfeKeep d a am ea)
  | 0x28, _ => some (.vld d a sz am ea)
  | 0x29, _ => some (.vst d a sz am ea)
  | _, _ => none

/-- The instruction of a VR major (R286). -/
def ofVR (op : F6) (f3 t : BitVec 3) (b a d : F6) : Option Instr :=
  match op.toNat, f3.toNat with
  | 0x20, 0 => some (.vadd t d a b)
  | 0x20, 1 => some (.vsub t d a b)
  | 0x20, 2 => some (.vmul t d a b)
  | 0x20, 3 => some (.vmin t d a b)
  | 0x20, 4 => some (.vmax t d a b)
  | 0x20, 5 => some (.vabs t d a)
  | 0x20, 6 => some (.vneg t d a)
  | 0x20, 7 => some (.vabd t d a b)
  | 0x21, 0 => some (.vfma t d a b)
  | 0x21, 1 => some (.vfms t d a b)
  | 0x21, 2 => some (.vfnma t d a b)
  | 0x21, 3 => some (.vfnms t d a b)
  | 0x21, 4 => some (.vdot4 t d a b)
  | 0x21, 5 => some (.vdot2 t d a b)
  | 0x21, 6 => some (.vmulh t d a b)
  | 0x21, 7 => some (.vsad t d a b)
  | 0x22, 0 => some (.vand t d a b)
  | 0x22, 1 => some (.vor t d a b)
  | 0x22, 2 => some (.vxor t d a b)
  | 0x22, 3 => some (.vandn t d a b)
  | 0x22, 4 => some (.vsll t d a b)
  | 0x22, 5 => some (.vsrl t d a b)
  | 0x22, 6 => some (.vsra t d a b)
  | 0x22, 7 => some (.vnot t d a)
  | 0x23, 0 => some (.vceq t (d.extractLsb' 0 3) a b)
  | 0x23, 1 => some (.vcne t (d.extractLsb' 0 3) a b)
  | 0x23, 2 => some (.vclt t (d.extractLsb' 0 3) a b)
  | 0x23, 3 => some (.vcle t (d.extractLsb' 0 3) a b)
  | 0x23, 4 => some (.vcgt t (d.extractLsb' 0 3) a b)
  | 0x23, 5 => some (.vcge t (d.extractLsb' 0 3) a b)
  | 0x23, 6 => some (.vcltu t (d.extractLsb' 0 3) a b)
  | 0x23, 7 => some (.vcun t (d.extractLsb' 0 3) a b)
  | 0x24, 0 => some (.vcvt t d a b)
  | 0x24, 1 => some (.vcvtSat t d a b)
  | 0x24, 4 => some (.vwid t d a b)
  | 0x24, 5 => some (.vwidh t d a b)
  | 0x24, 6 => some (.vnar t d a b)
  | 0x24, 7 => some (.vrint t d a b)
  | 0x25, 0 => some (.vbc t d a b)
  | 0x25, 1 => some (.vshf t d a b)
  | 0x25, 2 => some (.vrot t d a b)
  | 0x25, 3 => some (.vext t d a b)
  | 0x25, 4 => some (.vins t d a b)
  | 0x25, 5 => some (.vzip t d a b)
  | 0x25, 6 => some (.vuzp t d a b)
  | 0x25, 7 => some (.vcpr t d a (b.extractLsb' 0 3))
  | 0x26, 0 => some (.vradd t d a)
  | 0x26, 1 => some (.vrmax t d a)
  | 0x26, 2 => some (.vrmin t d a)
  | 0x26, 3 => some (.vrand t d a)
  | 0x26, 4 => some (.vror t d a)
  | 0x26, 5 => some (.vrxor t d a)
  | 0x26, 6 => some (.vscan t d a)
  | 0x26, 7 => some (.vrsum t d a)
  | 0x27, 0 => some (.vrcp t d a)
  | 0x27, 1 => some (.vrsqrt t d a)
  | 0x27, 2 => some (.vsqrt t d a)
  | 0x27, 3 => some (.vdiv t d a b)
  | 0x27, 4 => some (.vexp2 t d a)
  | 0x27, 5 => some (.vlog2 t d a)
  | 0x27, 6 => some (.vtanh t d a)
  | 0x27, 7 => some (.vsigm t d a)
  | 0x2A, 0 => if t = 0 then some (.vsacc d a b) else none
  | 0x2A, 1 => if t = 0 then some (.vxpk d a) else none
  | 0x2A, 2 => if t = 0 then some (.vxacc d a) else none
  | 0x2A, 3 => if t = 0 then some (.vxfin d a) else none
  | 0x2A, 4 => if t = 0 then some (.vbsc d a b) else none
  | 0x2B, 0 => some (.vmov t d a)
  | 0x2B, 1 => some (.vzero t d)
  | 0x2B, 2 => some (.vfill t d a)
  | 0x2B, 3 => some (.vkmov t d (a.extractLsb' 0 3))
  | 0x2B, 4 => some (.vwbc t d a b)
  | _, _ => none

/-- The conditional branch of a BC word (R273). -/
def ofBC (off : BitVec 15) (cond : BitVec 3) (r : F6) : Option Instr :=
  match cond.toNat with
  | 0 => some (.bz r off)
  | 1 => some (.bnz r off)
  | 2 => some (.bltz r off)
  | 3 => some (.bgez r off)
  | 4 => some (.blez r off)
  | 5 => some (.bgtz r off)
  | _ => none

/-- The major and SUB of an extended-only operation (R286); `mcmd.grant` is SUB 11 with X[1] = 1 (R377). `vqn4p` and
`vqn4u` exist only widened (R354): their SUB is F3 and T. -/
def xopCode : Instr → Option (F6 × F6 × XOp)
  | .mmul o => some (0x38, 0, o)
  | .mmult o => some (0x38, 1, o)
  | .mgrp o => some (0x38, 2, o)
  | .mq4 o => some (0x38, 3, o)
  | .msacc o => some (0x38, 4, o)
  | .mzero o => some (0x38, 5, o)
  | .mldz o => some (0x38, 6, o)
  | .mstz o => some (0x38, 7, o)
  | .mrd o => some (0x38, 8, o)
  | .mwr o => some (0x38, 9, o)
  | .mrec o => some (0x38, 10, o)
  | .mcmd o => some (0x38, 11, o)
  | .mwait o => some (0x38, 12, o)
  | .tnew o => some (0x39, 0, o)
  | .tfree o => some (0x39, 1, o)
  | .tvst o => some (0x39, 2, o)
  | .tvld o => some (0x39, 3, o)
  | .tvldc o => some (0x39, 4, o)
  | .tvw o => some (0x39, 5, o)
  | .tdecl o => some (0x39, 6, o)
  | .tten o => some (0x39, 7, o)
  | .trel o => some (0x39, 8, o)
  | .tsplit o => some (0x39, 9, o)
  | .tmerge o => some (0x39, 10, o)
  | .thalo o => some (0x39, 11, o)
  | .cas o => some (0x3A, 0, o)
  | .casq o => some (0x3A, 1, o)
  | .ldacq o => some (0x3A, 2, o)
  | .strel o => some (0x3A, 3, o)
  | .cp o => some (0x3B, 0, o)
  | .cp2d o => some (0x3B, 1, o)
  | .cpf o => some (0x3B, 2, o)
  | .cpg o => some (0x3B, 3, o)
  | .cps o => some (0x3B, 4, o)
  | .cpq o => some (0x3B, 5, o)
  | .rld o => some (0x3C, 0, o)
  | .rst o => some (0x3C, 1, o)
  | .ramo o => some (0x3C, 2, o)
  | .rcas o => some (0x3C, 3, o)
  | .rcall o => some (0x3C, 4, o)
  | .rnote o => some (0x3C, 5, o)
  | .rfence o => some (0x3C, 6, o)
  | .rget o => some (0x3C, 7, o)
  | .rput o => some (0x3C, 8, o)
  | .rkreg o => some (0x3D, 0, o)
  | .rkrev o => some (0x3D, 1, o)
  | .mighint o => some (0x3D, 2, o)
  | .pgpin o => some (0x3D, 3, o)
  | .pgret o => some (0x3D, 4, o)
  | .logring o => some (0x3D, 5, o)
  | .keyset o => some (0x3D, 6, o)
  | .coreseal o => some (0x3D, 7, o)
  | .launch o => some (0x3E, 0, o)
  | .tspawn o => some (0x3E, 1, o)
  | .lwait o => some (0x3E, 2, o)
  | .prio o => some (0x3E, 3, o)
  | .mcmdGrant o => some (0x38, 11, o)
  | _ => none

/-- The extended-only operation of a major and SUB (R286). -/
def ofXop (op sub : F6) (o : XOp) : Option Instr :=
  match op.toNat, sub.toNat with
  | 0x38, 0 => some (.mmul o)
  | 0x38, 1 => some (.mmult o)
  | 0x38, 2 => some (.mgrp o)
  | 0x38, 3 => some (.mq4 o)
  | 0x38, 4 => some (.msacc o)
  | 0x38, 5 => some (.mzero o)
  | 0x38, 6 => some (.mldz o)
  | 0x38, 7 => some (.mstz o)
  | 0x38, 8 => some (.mrd o)
  | 0x38, 9 => some (.mwr o)
  | 0x38, 10 => some (.mrec o)
  | 0x38, 11 => if o.x.x.getLsbD 1 then some (.mcmdGrant o) else some (.mcmd o)
  | 0x38, 12 => some (.mwait o)
  | 0x39, 0 => some (.tnew o)
  | 0x39, 1 => some (.tfree o)
  | 0x39, 2 => some (.tvst o)
  | 0x39, 3 => some (.tvld o)
  | 0x39, 4 => some (.tvldc o)
  | 0x39, 5 => some (.tvw o)
  | 0x39, 6 => some (.tdecl o)
  | 0x39, 7 => some (.tten o)
  | 0x39, 8 => some (.trel o)
  | 0x39, 9 => some (.tsplit o)
  | 0x39, 10 => some (.tmerge o)
  | 0x39, 11 => some (.thalo o)
  | 0x3A, 0 => some (.cas o)
  | 0x3A, 1 => some (.casq o)
  | 0x3A, 2 => some (.ldacq o)
  | 0x3A, 3 => some (.strel o)
  | 0x3B, 0 => some (.cp o)
  | 0x3B, 1 => some (.cp2d o)
  | 0x3B, 2 => some (.cpf o)
  | 0x3B, 3 => some (.cpg o)
  | 0x3B, 4 => some (.cps o)
  | 0x3B, 5 => some (.cpq o)
  | 0x3C, 0 => some (.rld o)
  | 0x3C, 1 => some (.rst o)
  | 0x3C, 2 => some (.ramo o)
  | 0x3C, 3 => some (.rcas o)
  | 0x3C, 4 => some (.rcall o)
  | 0x3C, 5 => some (.rnote o)
  | 0x3C, 6 => some (.rfence o)
  | 0x3C, 7 => some (.rget o)
  | 0x3C, 8 => some (.rput o)
  | 0x3D, 0 => some (.rkreg o)
  | 0x3D, 1 => some (.rkrev o)
  | 0x3D, 2 => some (.mighint o)
  | 0x3D, 3 => some (.pgpin o)
  | 0x3D, 4 => some (.pgret o)
  | 0x3D, 5 => some (.logring o)
  | 0x3D, 6 => some (.keyset o)
  | 0x3D, 7 => some (.coreseal o)
  | 0x3E, 0 => some (.launch o)
  | 0x3E, 1 => some (.tspawn o)
  | 0x3E, 2 => some (.lwait o)
  | 0x3E, 3 => some (.prio o)
  | _, _ => none

/-- The branch of a BK word: kind 00 `bk`, 01 `bra`, 10 and 11 illegal (R273). -/
def ofBK (off : BitVec 18) (kind : BitVec 2) (pol : Bool) (k : BitVec 3) : Option Instr :=
  match kind.toNat with
  | 0 => some (.bk k pol off)
  | 1 => some (.bra off)
  | _ => none

/-- The instruction of a J or MVI major (R286). -/
def ofJ (op : F6) (off : BitVec 24) : Option Instr :=
  match op.toNat with
  | 0x1A => some (.jmp off)
  | 0x1B => some (.call off)
  | _ => none
def ofMV (op : F6) (imm : BitVec 18) (d : F6) : Option Instr :=
  match op.toNat with
  | 0x08 => some (.mvi d imm)
  | 0x09 => some (.adr d imm)
  | 0x1D => some (.loop d imm)
  | _ => none

/-- The instruction of a base word's fields, `none` where a value is unallocated (R283, R286). -/
def ofFmt : BaseFmt → Option Instr
  | .rr op f b a d => ofRR op f b a d
  | .ri op f2 imm a d => ofRI op f2 imm a d
  | .mem op ea am sz a d => ofMem op ea am sz a d
  | .bk off kind pol k => ofBK off kind pol k
  | .bc off cond r => ofBC off cond r
  | .j op off => ofJ op off
  | .mv op imm d => ofMV op imm d
  | .vr op f3 t b a d => ofVR op f3 t b a d

/-! ## Extended words (R280) -/

/-- All fields of words 0 to 2 of an extended instruction. -/
structure ExtFmt where
  lit  : Bool
  op   : F6
  d    : F6 := 0
  a    : F6 := 0
  b    : F6 := 0
  c    : F6 := 0
  sub  : F6 := 0
  e    : F6 := 0
  k    : BitVec 3 := 0
  z    : Bool := false
  sc   : BitVec 3 := 0
  ord  : BitVec 2 := 0
  rm   : BitVec 2 := 0
  ff   : Bool := false
  t2   : BitVec 4 := 0
  x    : BitVec 4 := 0
  imm  : W32 := 0
deriving DecidableEq, Repr

def ExtFmt.words (f : ExtFmt) : List W32 :=
  [f.c ++ f.b ++ f.a ++ f.d ++ f.op ++ (if f.lit then 3 else 2 : BitVec 2),
   f.x ++ f.t2 ++ BitVec.ofBool f.ff ++ f.rm ++ f.ord ++ f.sc ++ BitVec.ofBool f.z ++ f.k ++ f.sub ++ f.e,
   f.imm]

def extFmtOf (w0 w1 w2 : W32) : ExtFmt where
  lit := w0.getLsbD 0
  op := w0.extractLsb' 2 6
  d := w0.extractLsb' 8 6
  a := w0.extractLsb' 14 6
  b := w0.extractLsb' 20 6
  c := w0.extractLsb' 26 6
  e := w1.extractLsb' 0 6
  sub := w1.extractLsb' 6 6
  k := w1.extractLsb' 12 3
  z := w1.getLsbD 15
  sc := w1.extractLsb' 16 3
  ord := w1.extractLsb' 19 2
  rm := w1.extractLsb' 21 2
  ff := w1.getLsbD 23
  t2 := w1.extractLsb' 24 4
  x := w1.extractLsb' 28 4
  imm := w2

/-- The fields that a form carries for any operation. -/
def ExtFmt.ext (f : ExtFmt) : Ext :=
  { b := f.b, c := f.c, e := f.e, k := f.k, z := f.z, sc := f.sc, ord := f.ord, rm := f.rm, ff := f.ff, t2 := f.t2,
    x := f.x, imm := f.imm }

/-- The fields of an `Ext` in the extended words. -/
def ExtFmt.ofExt (lit : Bool) (op : F6) (x : Ext) : ExtFmt :=
  { lit := lit, op := op, b := x.b, c := x.c, e := x.e, k := x.k, z := x.z, sc := x.sc, ord := x.ord, rm := x.rm, ff := x.ff,
    t2 := x.t2, x := x.x, imm := x.imm }

/-- A widened base instruction: the inner instruction, and the form's fields that it does not hold (R282). -/
def widenedOf (f : ExtFmt) : Option (Ext × Instr) :=
  let x := f.ext
  match subFmt f.op with
  | some .rr => (if f.op = 0x15 then ofRR f.op (f.sub &&& 7) f.b f.a f.d else ofRR f.op f.sub f.b f.a f.d).map
      ({ x with b := 0 }, ·)
  | some .ri => (ofRI f.op (f.sub.extractLsb' 0 2) 0 f.a f.d).map ({ x with b := 0, c := 0 }, ·)
  | some .mem => (ofMem f.op 0 (f.sub.extractLsb' 3 2) (f.sub.extractLsb' 0 3) f.a f.d).map
      ({ x with scale := f.sub.getLsbD 5 }, ·)
  | some .bk => (ofBK 0 (f.d.extractLsb' 4 2) (f.d.getLsbD 3) (f.d.extractLsb' 0 3)).map ({ x with b := 0, c := 0 }, ·)
  | some .bc => (ofBC 0 (f.sub.extractLsb' 0 3) f.d).map ({ x with b := 0, c := 0 }, ·)
  | some .j => (ofJ f.op 0).map ({ x with b := 0, c := 0 }, ·)
  | some .mv => (ofMV f.op 0 f.d).map ({ x with b := 0, c := 0 }, ·)
  | some .vr => (ofVR f.op (f.sub.extractLsb' 3 3) (f.sub.extractLsb' 0 3) f.b f.a f.d).map ({ x with b := 0 }, ·)
  | none => none

/-- The extended words of a widened base instruction (R282). -/
def widenedFmt (lit : Bool) (x : Ext) : BaseFmt → ExtFmt
  | .rr op f b a d => { ExtFmt.ofExt lit op x with sub := f, b := b, a := a, d := d }
  | .ri op f2 _ a d => { ExtFmt.ofExt lit op x with sub := f2.setWidth 6, a := a, d := d }
  | .mem op _ am sz a d => { ExtFmt.ofExt lit op x with sub := BitVec.ofBool x.scale ++ am ++ sz, a := a, d := d }
  | .bk _ kind pol k => { ExtFmt.ofExt lit 0x18 x with d := kind ++ BitVec.ofBool pol ++ k }
  | .bc _ cond r => { ExtFmt.ofExt lit 0x19 x with sub := cond.setWidth 6, d := r }
  | .j op _ => ExtFmt.ofExt lit op x
  | .mv op _ d => { ExtFmt.ofExt lit op x with d := d }
  | .vr op f3 t b a d => { ExtFmt.ofExt lit op x with sub := f3 ++ t, b := b, a := a, d := d }

/-- The base instructions whose 63 means LIT64 as the immediate when L = 11: IALUI and MVI (R282). -/
def Instr.litImm : Instr → Bool
  | .addi .. | .andi .. | .ori .. | .xori .. | .mvi .. => true
  | _ => false

/-- The scalar operation kinds of the pair table (R279). -/
inductive SopKind where
  /-- B is a register. -/
  | reg
  /-- B is a register and D names a mask. -/
  | regK
  /-- B is a signed immediate. -/
  | imm
  /-- B is a shift amount, 0–63. -/
  | sh
  /-- B must be 0. -/
  | none
deriving DecidableEq, Repr

/-- The kind of each SOP, `none` where it is unallocated (R279). -/
def sopKind (sop : F6) : Option SopKind :=
  let n := sop.toNat
  if n ≤ 12 ∨ n = 14 then some .reg
  else if n = 13 then some .none
  else if n = 16 ∨ n = 17 ∨ n = 21 ∨ (32 ≤ n ∧ n ≤ 35) then some .imm
  else if 18 ≤ n ∧ n ≤ 20 then some .sh
  else if 24 ≤ n ∧ n ≤ 29 then some .regK
  else Option.none

/-- Word 0 of a pair word (R278). -/
def PairSlot.word (p : PairSlot) : W32 := p.b ++ p.a ++ p.d ++ p.sop ++ p.gk ++ BitVec.ofBool p.gp ++ (1 : BitVec 2)

def pairSlotOf (w : W32) : PairSlot where
  gp := w.getLsbD 2
  gk := w.extractLsb' 3 3
  sop := w.extractLsb' 6 6
  d := w.extractLsb' 12 6
  a := w.extractLsb' 18 6
  b := w.extractLsb' 24 8

/-- Whether a base word may stand in a vector slot: L = 00 and OP 0x20–0x2B (R278). -/
def vecSlot (w : W32) : Bool :=
  w.extractLsb' 0 2 = 0 && decide (0x20 ≤ (w.extractLsb' 2 6).toNat) && decide ((w.extractLsb' 2 6).toNat ≤ 0x2B)

/-! ## The candidate and its words -/

/-- How many words the length field gives (R272). -/
def wordCount (w : W32) : Nat :=
  match (w.extractLsb' 0 2).toNat with
  | 0 => 1
  | 1 => 2
  | 2 => 3
  | _ => 5

/-- The candidate instruction of an extended word (R280, R282, R354). -/
def extCand (f : ExtFmt) (lit : Option W64) : Option Instr :=
  let o : XOp := ⟨f.d, f.a, f.ext, lit⟩
  if f.op = 0x24 ∧ f.sub.extractLsb' 3 3 = 2 then some (.vqn4p (f.sub.extractLsb' 0 3) o)
  else if f.op = 0x24 ∧ f.sub.extractLsb' 3 3 = 3 then some (.vqn4u (f.sub.extractLsb' 0 3) o)
  else if 0x38 ≤ f.op.toNat then ofXop f.op f.sub o
  else match widenedOf f, lit with
    | some (x, i), none => some (.widenedForm x i)
    | some (x, i), some l => some (.literalForm x l i)
    | none, _ => none

/-- The candidate of an instruction's words; `none` where a major, function, SOP, kind or condition is unallocated. -/
def candidate (ws : List W32) : Option Instr :=
  match ws with
  | [w0] => (fmtOf w0).bind ofFmt
  | [w0, w1] =>
    let p := pairSlotOf w0
    if !vecSlot w1 || (sopKind p.sop).isNone then none
    else match (fmtOf w1).bind ofFmt with
      | some v => some (.pairWord p v)
      | none => none
  | [w0, w1, w2] => extCand (extFmtOf w0 w1 w2) none
  | [w0, w1, w2, w3, w4] => extCand (extFmtOf w0 w1 w2) (some (w4 ++ w3))
  | _ => none

/-- Appends LIT64, low word first (R280). -/
def withLit (ws : List W32) : Option W64 → List W32
  | none => ws
  | some l => ws ++ [l.extractLsb' 0 32, l.extractLsb' 32 32]

/-- The words of an extended-only operation. -/
def xopWords (op sub : F6) (o : XOp) : List W32 :=
  withLit ({ ExtFmt.ofExt o.lit.isSome op o.x with d := o.d, a := o.a, sub := sub } : ExtFmt).words o.lit

/-- The words of an instruction, in address order; nothing for a row that has no words. -/
def encode (i : Instr) : List W32 :=
  match i with
  | .pairWord p v => match baseFmt v with
    | some f => [p.word, f.word]
    | none => []
  | .widenedForm x i => match baseFmt i with
    | some f => (widenedFmt false x f).words
    | none => []
  | .literalForm x l i => match baseFmt i with
    | some f => withLit (widenedFmt true x f).words (some l)
    | none => []
  | .vqn4p t o => xopWords 0x24 ((2 : BitVec 3) ++ t) o
  | .vqn4u t o => xopWords 0x24 ((3 : BitVec 3) ++ t) o
  | i => match xopCode i with
    | some (op, sub, o) => xopWords op sub o
    | none => match baseFmt i with
      | some f => [f.word]
      | none => []

/-! ## Which register a field names (R275, R276) -/

/-- What a field of an instruction is used for. -/
inductive Use where
  /-- A scalar destination. -/
  | sd (f : F6)
  /-- A scalar source. -/
  | ss (f : F6)
  /-- A scalar source that must be a `c` or `w` register (E, R281). -/
  | es (f : F6)
  /-- A scalar destination that must be a `c` or `w` register (E, R281; token registers, R336). -/
  | ed (f : F6)
  /-- A vector destination. -/
  | vd (f : F6)
  /-- A vector source. -/
  | vs (f : F6)
  /-- An accumulator (R367). -/
  | acc (f : F6)
deriving DecidableEq, Repr

/-- Whether a use names a register, or the literal where it may (R275, R276). -/
def Use.legal (lit : Bool) : Use → Bool
  | .sd f => decide (f.toNat < 56)
  | .ss f => decide (f.toNat < 56) || (lit && f = 63)
  | .es f => decide (f.toNat < 48)
  | .ed f => decide (f.toNat < 48)
  | .vd f => decide (f.toNat < 48)
  | .vs f => decide (f.toNat < 48) || (lit && f = 63)
  | .acc f => decide (f.toNat < 4)

/-- Whether a use names the literal. -/
def Use.isLit : Use → Bool
  | .ss f => f = 63
  | .vs f => f = 63
  | _ => false

/-- The index register of mode 11: base bits [30:25], or B when widened (R274). -/
def idxUse (vec : Bool) (am : BitVec 2) (f : F6) : List Use :=
  if am = 3 then (if vec then [.vs f] else [.ss f]) else []

/-- The uses of a base instruction; `w` is the form's `Ext` when it is widened. -/
def baseUses (w : Option Ext) (i : Instr) : List Use :=
  let idx (ea : BitVec 7) : F6 := match w with
    | some x => x.b
    | none => ea.extractLsb' 0 6
  let third (l : List Use) : List Use := match w with
    | some x => .vs x.c :: l
    | none => l
  let ef (l : List Use) : List Use := match w with
    | some x => if x.ff then .ed x.e :: l else l
    | none => l
  match i with
  | .add d a b | .sub d a b | .and d a b | .or d a b | .xor d a b | .andn d a b | .orn d a b | .sll d a b | .srl d a b
  | .sra d a b | .rol d a b | .min d a b | .max d a b | .minu d a b | .maxu d a b | .mul d a b | .mulh d a b | .mulhu d a b
  | .div d a b | .divu d a b | .rem d a b | .remu d a b | .sel _ d a b | .cbnd d a b | .cbndx d a b | .cprm d a b
  | .cadd d a b | .cset d a b | .capCeq d a b | .csub d a b | .amoAdd d a b _ | .amoAnd d a b _ | .amoOr d a b _
  | .amoXor d a b _ | .amoMin d a b _ | .amoMax d a b _ | .amoMinu d a b _ | .amoSwap d a b _ | .tinfo d a b =>
    [.sd d, .ss a, .ss b]
  | .addc d a b | .subb d a b => [.sd d, .ss a, .ss b] ++ (match w with
    | some x => [.ss x.c]
    | none => [])
  | .sext d a _ | .zext d a _ | .clz d a | .ctz d a | .popc d a | .addi d a _ | .andi d a _ | .ori d a _ | .xori d a _
  | .slli d a _ | .srli d a _ | .srai d a _ | .roli d a _ | .bfx d a _ _ | .bfxs d a _ _ | .bfi d a _ _ | .bfclr d a _ _
  | .mov d a | .cbase d a | .clen d a | .cperm d a | .ctype d a | .ctag d a | .cclr d a | .cseal d a | .jalr d a | .tchk d a
  | .vrowSet d a => [.sd d, .ss a]
  | .ceq _ a b | .cne _ a b | .clt _ a b | .cge _ a b | .cltu _ a b | .cgeu _ a b | .ctst _ a b
  | .cwb a b | .cinv a b | .cwbinv a b | .cpre a b | .tlbinv a b | .tref a b | .tdrop a b | .tdropAll a b | .qbind _ a b =>
    [.ss a, .ss b]
  | .kmovc _ a | .jr a | .ccall a | .sleep a | .logmark a => [.ss a]
  | .kmovk d _ | .kpop d _ | .kfirst d _ | .mvi d _ | .adr d _ | .mfs d _ | .qstat d _ | .qpeek d _ | .vrowGet d => [.sd d]
  | .mts d _ | .loop d _ => [.ss d]
  | .bz r _ | .bnz r _ | .bltz r _ | .bgez r _ | .blez r _ | .bgtz r _ => [.ss r]
  | .ld d a _ am ea | .lds d a _ am ea => [.sd d, .ss a] ++ idxUse false am (idx ea)
  | .st d a _ am ea => [.ss d, .ss a] ++ idxUse false am (idx ea)
  | .ldfeAny d a am ea | .ldfeSt d a am ea => [.sd d, .ss a] ++ idxUse false am (idx ea)
  | .ldfeWf d a am ea | .ldfeWfe d a am ea => ef ([.sd d, .ss a] ++ idxUse false am (idx ea))
  | .stfeSf d a am ea | .stfeKeep d a am ea => [.ss d, .ss a] ++ idxUse false am (idx ea)
  | .stfeWef d a am ea => ef ([.ss d, .ss a] ++ idxUse false am (idx ea))
  | .stfeSe a am ea => .ss a :: idxUse false am (idx ea)
  | .vld d a _ am ea => ef ([.vd d, .ss a] ++ idxUse true am (idx ea))
  | .vst d a _ am ea => [.vs d, .ss a] ++ idxUse true am (idx ea)
  | .vfma _ d a b | .vfms _ d a b | .vfnma _ d a b | .vfnms _ d a b | .vdot4 _ d a b | .vdot2 _ d a b | .vsad _ d a b
  | .vsacc d a b => third [.vd d, .vs a, .vs b]
  | .vadd _ d a b | .vsub _ d a b | .vmul _ d a b | .vmin _ d a b | .vmax _ d a b | .vabd _ d a b | .vmulh _ d a b
  | .vand _ d a b | .vor _ d a b | .vxor _ d a b | .vandn _ d a b | .vsll _ d a b | .vsrl _ d a b | .vsra _ d a b
  | .vshf _ d a b | .vext _ d a b | .vzip _ d a b | .vuzp _ d a b | .vdiv _ d a b | .vbsc d a b => [.vd d, .vs a, .vs b]
  | .vceq _ _ a b | .vcne _ _ a b | .vclt _ _ a b | .vcle _ _ a b | .vcgt _ _ a b | .vcge _ _ a b | .vcltu _ _ a b
  | .vcun _ _ a b => [.vs a, .vs b]
  | .vcvt _ d a _ | .vcvtSat _ d a _ | .vwid _ d a _ | .vwidh _ d a _ | .vnar _ d a _ | .vrint _ d a _ | .vbc _ d a _
  | .vrot _ d a _ | .vins _ d a _ | .vwbc _ d a _ | .vcpr _ d a _ | .vabs _ d a | .vneg _ d a | .vnot _ d a | .vradd _ d a
  | .vrmax _ d a | .vrmin _ d a | .vrand _ d a | .vror _ d a | .vrxor _ d a | .vscan _ d a | .vrsum _ d a | .vrcp _ d a
  | .vrsqrt _ d a | .vsqrt _ d a | .vexp2 _ d a | .vlog2 _ d a | .vtanh _ d a | .vsigm _ d a | .vmov _ d a | .vxpk d a
  | .vxacc d a | .vxfin d a => [.vd d, .vs a]
  | .vfill _ d a => [.vd d, .ss a]
  | .vzero _ d | .vkmov _ d _ => [.vd d]
  | _ => []

/-- The uses of an extended-only operation (R328, R336, R338, R342, R354, R367–R390). -/
def xopUses (i : Instr) : List Use :=
  let ef (o : XOp) (l : List Use) : List Use := if o.x.ff then .ed o.x.e :: l else l
  match i with
  | .vqn4p _ o => [.vd o.d, .vs o.a, .vs o.x.b]
  | .vqn4u _ o => [.vd o.d, .vs o.a] ++ (if o.x.x.getLsbD 3 then [.vs o.x.b] else [])
  | .mmul o | .mq4 o => [.acc o.d, .ss o.a, .ss o.x.b, .es o.x.e]
  | .mgrp o => [.acc o.d, .ss o.a, .ss o.x.b, .ss o.x.c, .es o.x.e]
  | .mmult o => [.acc o.d, .ss o.a, .ss o.x.b]
  | .msacc o => [.acc o.d, .acc o.a, .ss o.x.b, .ss o.x.c]
  | .mzero o => [.acc o.d]
  | .mldz o => [.acc o.d, .ss o.a, .ss o.x.b]
  | .mstz o => [.acc o.d, .ss o.a, .ss o.x.b]
  | .mrd o => [.vd o.d, .acc o.a]
  | .mwr o => [.acc o.d, .vs o.a]
  | .mrec o => [.acc o.d, .ss o.a, .ss o.x.b, .ss o.x.c]
  | .mcmd o => if o.x.imm.extractLsb' 0 2 = 2 then [.acc o.d, .ss o.a]
    else [.acc o.d, .ss o.a, .ss o.x.b, .ss o.x.c, .es o.x.e]
  | .mcmdGrant o => [.sd o.d]
  | .tnew o => [.sd o.d, .ss o.a]
  | .tfree o => [.ss o.a]
  | .tvst o => [.ss o.a, .ss o.x.b] ++ (match o.x.t2.toNat with
    | 0 => [.vs o.d]
    | 1 => [.ss o.x.c]
    | _ => [.acc o.d])
  | .tvld o | .tvldc o => ef o ([.ss o.a, .ss o.x.b] ++ (match o.x.t2.toNat with
    | 0 => [.vd o.d]
    | 1 => [.ss o.x.c]
    | _ => [.acc o.d]))
  | .tvw o | .tten o => ef o [.ss o.a, .ss o.x.b]
  | .trel o => [.ss o.a, .ss o.x.b]
  | .tdecl o => [.sd o.d, .ss o.a, .ss o.x.c]
  | .tsplit o | .tmerge o => [.sd o.d, .ss o.a, .ss o.x.b]
  | .thalo o => [.ss o.a, .ss o.x.b, .ss o.x.c]
  | .cas o | .casq o => [.sd o.d, .ss o.a, .ss o.x.b, .ss o.x.c, .ed o.x.e]
  | .ldacq o => [.sd o.d, .ss o.a]
  | .strel o => [.ss o.d, .ss o.a]
  | .cp o | .cp2d o | .cpf o | .cpg o | .cps o | .cpq o => [.ed o.d, .ss o.a, .ss o.x.b, .ss o.x.c]
  | .rld o => [.sd o.d, .ss o.a]
  | .rst o => if o.x.x = 0xC then [.ss o.a] else [.ss o.d, .ss o.a]
  | .ramo o => [.sd o.d, .ss o.a, .ss o.x.b]
  | .rcas o => [.sd o.d, .ss o.a, .ss o.x.b, .ss o.x.c, .ed o.x.e]
  | .rcall o => [.ss o.a, .ss o.x.b]
  | .rnote o => [.ss o.a]
  | .rget o | .rput o => [.sd o.d, .ss o.a, .ss o.x.b]
  | .rkreg o | .mighint o | .pgpin o | .pgret o => [.sd o.d, .ss o.a, .ss o.x.b]
  | .rkrev o | .coreseal o => [.sd o.d, .ss o.a]
  | .logring o => [.ss o.a]
  | .keyset o => [.sd o.d, .ss o.a, .ss o.x.b, .ss o.x.c]
  | .launch o | .lwait o => [.sd o.d, .ss o.a]
  | .tspawn o => [.sd o.d, .ss o.a, .ss o.x.b, .ss o.x.c, .es o.x.e]
  | .prio o => [.sd o.d, .ss o.a, .ss o.x.b]
  | _ => []

/-- The uses of the scalar slot of a pair word (R279). -/
def slotUses (p : PairSlot) : List Use :=
  let b : F6 := p.b.extractLsb' 0 6
  match sopKind p.sop with
  | some .reg => [.sd p.d, .ss p.a, .ss b]
  | some .regK => [.ss p.a, .ss b]
  | some .none | some .sh => [.sd p.d, .ss p.a]
  | some .imm => if 34 ≤ p.sop.toNat then [.ss p.d, .ss p.a] else [.sd p.d, .ss p.a]
  | none => []

/-- The uses of an instruction's fields. -/
def uses (i : Instr) : List Use :=
  match i with
  | .pairWord p v => slotUses p ++ baseUses none v
  | .widenedForm x i => baseUses (some x) i
  | .literalForm x _ i => baseUses (some x) i
  | i => match xopCode i with
    | some _ => xopUses i
    | none => match i with
      | .vqn4p .. | .vqn4u .. => xopUses i
      | i => baseUses none i

/-! ## Types (R281, R343) -/

/-- The type code of a VR instruction: T2 8 or 9 replaces T (R343). -/
def typeCode (t : BitVec 3) (w : Option Ext) : Nat :=
  match w with
  | some x => if x.t2 = 0 then t.toNat else x.t2.toNat
  | none => t.toNat

/-- Whether a VR instruction accepts a type code (R347–R361). -/
def typeOk (i : Instr) (t : Nat) : Bool :=
  let floats := [0, 1, 2, 7, 8]
  let ints := [3, 4, 5, 6]
  match i with
  | .vadd .. | .vsub .. | .vmul .. | .vmin .. | .vmax .. | .vabs .. | .vneg .. | .vabd ..
  | .vfma .. | .vfms .. | .vfnma .. | .vfnms .. | .vradd .. | .vrmax .. | .vrmin .. | .vscan .. => decide (t ≤ 6)
  | .vdot4 .. => t = 5 || t = 7 || t = 8
  | .vdot2 .. => t = 4 || t = 1 || t = 2
  | .vsad .. => t = 5 || t = 4
  | .vmulh .. | .vsll .. | .vsrl .. | .vsra .. | .vcltu .. | .vrand .. | .vror .. | .vrxor .. | .vrsum .. => ints.contains t
  | .vcun .. | .vrint .. => floats.contains t
  | .vrcp .. | .vrsqrt .. | .vsqrt .. | .vdiv .. | .vexp2 .. | .vlog2 .. | .vtanh .. | .vsigm .. => t = 0 || t = 1
  | .vsacc .. | .vxpk .. | .vxacc .. | .vxfin .. | .vbsc .. => t = 0
  | _ => decide (t ≤ 8)

/-- Element size of a type code in bytes (R343). -/
def tySize (t : Nat) : Nat :=
  match t with
  | 0 | 3 | 6 => 4
  | 1 | 2 | 4 => 2
  | _ => 1

/-- The type of a VR instruction that has a T field. -/
def Instr.vt : Instr → Option (BitVec 3)
  | .vadd t .. | .vsub t .. | .vmul t .. | .vmin t .. | .vmax t .. | .vabd t .. | .vfma t .. | .vfms t .. | .vfnma t ..
  | .vfnms t .. | .vdot4 t .. | .vdot2 t .. | .vmulh t .. | .vsad t .. | .vand t .. | .vor t .. | .vxor t .. | .vandn t ..
  | .vsll t .. | .vsrl t .. | .vsra t .. | .vcvt t .. | .vcvtSat t .. | .vwid t .. | .vwidh t .. | .vnar t .. | .vrint t ..
  | .vbc t .. | .vshf t .. | .vrot t .. | .vext t .. | .vins t .. | .vzip t .. | .vuzp t .. | .vdiv t .. | .vwbc t ..
  | .vabs t .. | .vneg t .. | .vnot t .. | .vradd t .. | .vrmax t .. | .vrmin t .. | .vrand t .. | .vror t .. | .vrxor t ..
  | .vscan t .. | .vrsum t .. | .vrcp t .. | .vrsqrt t .. | .vsqrt t .. | .vexp2 t .. | .vlog2 t .. | .vtanh t ..
  | .vsigm t .. | .vmov t .. | .vfill t .. | .vceq t .. | .vcne t .. | .vclt t .. | .vcle t .. | .vcgt t .. | .vcge t ..
  | .vcltu t .. | .vcun t .. | .vcpr t .. | .vzero t .. | .vkmov t .. => some t
  | .vsacc .. | .vxpk .. | .vxacc .. | .vxfin .. | .vbsc .. => some 0
  | _ => none

/-- The source type code of a conversion: B[2:0], or C[3:0] when widened (R282, R352). -/
def srcCode (w : Option Ext) (b : F6) : Nat :=
  match w with
  | some x => x.c.toNat % 16
  | none => b.toNat % 8

/-- The part p of a conversion: X[2:1] (R352). -/
def partOf (w : Option Ext) : Nat :=
  match w with
  | some x => x.x.toNat / 2 % 4
  | none => 0

/-- The conversions' checks: no QN4, widths, part, rounding code (R258, R352, R353). -/
def cvtIllegal (i : Instr) (w : Option Ext) : Bool :=
  let chk (t : BitVec 3) (b : F6) (ok : Nat → Nat → Nat → Bool) : Bool :=
    let dst := typeCode t w
    let src := srcCode w b
    !(decide (src ≤ 8) && decide (dst ≤ 8) && ok (tySize dst) (tySize src) (partOf w)) ||
      (w.isNone && decide (b.toNat / 8 > 4))
  match i with
  | .vcvt t _ _ b | .vcvtSat t _ _ b => chk t b fun d s p => d = s && p = 0
  | .vwid t _ _ b => chk t b fun d s p => (d = 2 * s || d = 4 * s) && decide (p < d / s)
  | .vwidh t _ _ b => chk t b fun d s p => d = 2 * s && p = 0
  | .vnar t _ _ b => chk t b fun d s p => (s = 2 * d || s = 4 * d) && decide (p < s / d)
  | .vrint t _ _ b => srcCode w b != typeCode t w || (w.isNone && decide (b.toNat / 8 > 4))
  | _ => false

/-! ## `ILLEGAL` (R283) -/

/-- The special registers that are allocated (R317). -/
def sysRegs : List Nat :=
  [0x000, 0x001, 0x002, 0x003, 0x004, 0x005, 0x006, 0x007, 0x008, 0x010, 0x011,
   0x020, 0x021, 0x022, 0x023, 0x024, 0x025, 0x026, 0x027, 0x030, 0x031, 0x032, 0x033, 0x034, 0x035,
   0x040, 0x041, 0x042, 0x043, 0x050, 0x060, 0x061, 0x062, 0x063, 0x064, 0x065,
   0x070, 0x071, 0x072, 0x073, 0x080, 0x081, 0x082]

/-- A field value of a base or widened instruction that is unallocated or out of range (R274, R281, R283, R312, R343). -/
def baseIllegal (w : Option Ext) (i : Instr) : Bool :=
  let incr (am : BitVec 2) : Bool := am = 1 || am = 2
  let t2Bad : Bool := match w with
    | some x => decide (x.t2.toNat ≠ 0 ∧ x.t2.toNat ≠ 8 ∧ x.t2.toNat ≠ 9)
    | none => false
  let ty : Bool := match i.vt with
    | some t => t2Bad || !typeOk i (typeCode t w)
    | none => false
  ty || cvtIllegal i w ||
  match i with
  | .ld d a sz am _ => decide (sz.toNat > 4) || (incr am && d = a)
  | .lds d a sz am _ => decide (sz.toNat > 2) || (incr am && d = a)
  | .st _ _ sz _ _ => decide (sz.toNat > 4)
  | .ldfeAny d a am _ | .ldfeWf d a am _ | .ldfeWfe d a am _ | .ldfeSt d a am _ => incr am && d = a
  | .vld _ _ sz _ _ | .vst _ _ sz _ _ => decide (sz.toNat > 2)
  | .fence _ ord _ => ord = 0
  | .mfs _ sr | .mts _ sr => !sysRegs.contains sr.toNat
  | .loop _ off => match w with
    | some x => decide (x.imm.toInt < 1)
    | none => decide (off.toInt < 1)
  | .bfx .. | .bfxs .. | .bfi .. | .bfclr .. => match w with
    | some x => decide ((x.imm.extractLsb' 0 6).toNat + (x.imm.extractLsb' 6 6).toNat + 1 > 64)
    | none => false
  | .amoAdd .. | .amoAnd .. | .amoOr .. | .amoXor .. | .amoMin .. | .amoMax .. | .amoMinu .. | .amoSwap .. => match w with
    | some x => !([0, 2, 3].contains x.t2.toNat)
    | none => false
  | .vbc t _ _ b | .vrot t _ _ b | .vins t _ _ b => decide (b.toNat ≥ 64 / tySize (typeCode t w))
  | .vext t .. => match w with
    | some x => decide (x.imm.toInt < 0 ∨ x.imm.toInt > 64 / tySize (typeCode t w))
    | none => false
  | .vwbc _ _ _ b => decide (b.toNat ≥ 4)
  | _ => false

/-- A field value of an extended-only operation that is unallocated or out of range. DEDUCED, log 16. -/
def xopIllegal (i : Instr) : Bool :=
  let t2in (o : XOp) (l : List Nat) : Bool := !l.contains o.x.t2.toNat
  let place (o : XOp) : Bool := t2in o [0, 1, 2] || (o.x.t2 = 0 && decide (o.d.toNat + o.x.x.toNat / 2 > 47))
  match i with
  | .vqn4p t o => t != 0 || o.x.t2 != 9 || decide (o.x.c.toNat % 16 > 2) ||
      decide (o.x.x.toNat / 2 % 4 ≥ 2 * tySize (o.x.c.toNat % 16))
  | .vqn4u t o => decide (t.toNat > 2) || o.x.t2 != 0 || decide (o.x.c.toNat % 16 ≠ 9) ||
      decide (o.x.x.toNat / 2 % 4 ≥ 2 * tySize t.toNat)
  | .mmul o | .mgrp o => t2in o [0, 1, 2, 5, 7, 8]
  | .msacc o => o.d = o.a
  | .mcmd o => let op := o.x.imm.toNat % 4
      op = 3 || (op = 0 && t2in o [0, 1, 2, 5, 7, 8])
  | .mrec o => t2in o [0, 1, 2] || decide (o.x.imm.toNat % 8 > 4)
  | .tvst o | .tvld o | .tvldc o => place o
  | .thalo o => decide (o.x.imm.toNat / 4 % 16 > 8)
  | .cas o => t2in o [2, 3]
  | .casq o => t2in o [4]
  | .ldacq o | .strel o => t2in o [0, 1, 2, 3, 4]
  | .cpg o | .cps o => t2in o [0, 1, 2, 3, 4]
  | .rld o | .rst o => if o.x.x.getLsbD 3 then t2in o [3] else t2in o [0, 1, 2, 3, 4]
  | .ramo o | .rcas o => t2in o [2, 3]
  | .rcall o => decide (o.x.c.toNat > 28)
  | .rget o | .rput o => decide (o.x.imm.toNat < 8 ∨ o.x.imm.toNat > 2048 ∨ o.x.imm.toNat % 8 ≠ 0)
  | _ => false

/-- Whether an instruction's encoding raises `ILLEGAL` (R275, R276, R279, R283). -/
def illegal (i : Instr) : Bool :=
  match i with
  | .pairWord p v => !(uses i).all (Use.legal false) || baseIllegal none v ||
      ((p.sop = 32 || p.sop = 33) && p.d = p.a)
  | .widenedForm x b => !(uses i).all (Use.legal false) || baseIllegal (some x) b
  | .literalForm x _ b => !(uses i).all (Use.legal true) || baseIllegal (some x) b ||
      !(b.litImm || (uses i).any Use.isLit)
  | i => match xopCode i with
    | some (_, _, o) => !(uses i).all (Use.legal o.lit.isSome) || xopIllegal i ||
        (o.lit.isSome && !(uses i).any Use.isLit)
    | none => match i with
      | .vqn4p _ o | .vqn4u _ o => !(uses i).all (Use.legal o.lit.isSome) || xopIllegal i ||
          (o.lit.isSome && !(uses i).any Use.isLit)
      | i => !(uses i).all (Use.legal false) || baseIllegal none i

/-! ## The fields that must be zero (R277, R281, R296, R320, R336, R338, R346, R370) -/

/-- Which fields of an `Ext` an operation uses; every other is cleared. -/
structure Keep where
  b   : Bool := false
  c   : F6 := 0
  e   : Bool := false
  k   : Bool := true
  z   : Bool := false
  sc  : Bool := false
  ord : BitVec 2 := 0
  rm  : Bool := false
  ff  : Bool := false
  t2  : Bool := false
  /-- The bits of X[3:1]. -/
  x   : BitVec 4 := 0
  imm : W32 := 0
  scale : Bool := false

/-- Clears what an operation does not use. RM is kept only under X[0] (R258). -/
def Ext.keep (p : Keep) (x : Ext) : Ext where
  b := if p.b then x.b else 0
  c := x.c &&& p.c
  e := if p.e then x.e else 0
  k := if p.k then x.k else 0
  z := p.z && x.z
  sc := if p.sc then x.sc else 0
  ord := x.ord &&& p.ord
  rm := if p.rm && x.x.getLsbD 0 then x.rm else 0
  ff := p.ff && x.ff
  t2 := if p.t2 then x.t2 else 0
  x := x.x &&& (p.x ||| (if p.rm then 1 else 0))
  imm := x.imm &&& p.imm
  scale := p.scale && x.scale

/-- Whether a VR instruction is a floating-point one, which RM and X[0] then serve (R258, R346, R365). -/
def isFp (i : Instr) (t src : Nat) : Bool :=
  let fl (t : Nat) : Bool := t = 0 || t = 1 || t = 2 || t = 7 || t = 8
  match i with
  | .vadd .. | .vsub .. | .vmul .. | .vmin .. | .vmax .. | .vabs .. | .vneg .. | .vabd ..
  | .vfma .. | .vfms .. | .vfnma .. | .vfnms .. | .vdot4 .. | .vdot2 ..
  | .vceq .. | .vcne .. | .vclt .. | .vcle .. | .vcgt .. | .vcge .. | .vcun ..
  | .vradd .. | .vrmax .. | .vrmin .. | .vscan ..
  | .vrcp .. | .vrsqrt .. | .vsqrt .. | .vdiv .. | .vexp2 .. | .vlog2 .. | .vtanh .. | .vsigm .. | .vrint .. => fl t
  | .vcvt .. | .vcvtSat .. | .vwid .. | .vwidh .. | .vnar .. => fl t || fl src
  | .vsacc .. | .vxfin .. => true
  | _ => false

/-- The fields of a widened M or VM word (R282, R320). -/
def memKeep (am : BitVec 2) (x : Ext) (sc : Bool) (k : Keep) : Keep :=
  { k with b := am = 3, c := if am = 2 then 7 else 0, scale := am = 3, imm := BitVec.allOnes 32, ord := 3,
           sc := sc || x.ord != 0 }

/-- The fields that a widened base instruction uses (R282, R296, R320, R346). -/
def baseKeep (x : Ext) (lit : Bool) (i : Instr) : Keep :=
  let all : W32 := BitVec.allOnes 32
  let imm : W32 := if lit && i.litImm then 0 else all
  match i.vt with
  | some t =>
    let ty := typeCode t (some x)
    let src := x.c.toNat % 16
    let p : Keep := { z := true, t2 := true, rm := isFp i ty src }
    match i with
    | .vadd .. | .vsub .. | .vmul .. | .vabs .. | .vneg .. =>
      { p with x := if 3 ≤ ty ∧ ty ≤ 6 then 2 else 0 }
    | .vfma .. | .vfms .. | .vfnma .. | .vfnms .. | .vdot4 .. | .vdot2 .. | .vsad .. | .vsacc .. => { p with c := 63 }
    | .vcvt .. | .vcvtSat .. => { p with c := 15 , x := 6 }
    | .vwid .. | .vwidh .. | .vnar .. => { p with c := 15, x := 14 }
    | .vrint .. => { p with c := 15 }
    | .vext .. => { p with imm := all }
    | .vzip .. | .vuzp .. | .vxpk .. | .vxfin .. => { p with x := 2 }
    | .vradd .. | .vrmax .. | .vrmin .. | .vrand .. | .vror .. | .vrxor .. | .vrsum .. | .vxacc .. => { p with z := false }
    | _ => p
  | none =>
    match i with
    | .addc .. | .subb .. => { c := 63 }
    | .addi .. | .andi .. | .ori .. | .xori .. | .mvi .. | .adr .. | .loop .. | .bk .. | .bra .. | .bz .. | .bnz ..
    | .bltz .. | .bgez .. | .blez .. | .bgtz .. | .jmp .. | .call .. => { imm := imm }
    | .slli .. | .srli .. | .srai .. | .roli .. => { imm := 0x3F }
    | .bfx .. | .bfxs .. | .bfi .. | .bfclr .. => { imm := 0xFFF }
    | .ld _ _ _ am _ | .lds _ _ _ am _ | .st _ _ _ am _ | .ldfeAny _ _ am _ | .ldfeSt _ _ am _ | .stfeSe _ am _
    | .stfeKeep _ _ am _ => memKeep am x false {}
    | .stfeSf _ _ am _ => memKeep am x true {}
    | .ldfeWf _ _ am _ | .ldfeWfe _ _ am _ | .stfeWef _ _ am _ => memKeep am x true { ff := true, e := x.ff }
    | .amoAdd .. | .amoAnd .. | .amoOr .. | .amoXor .. | .amoMin .. | .amoMax .. | .amoMinu .. | .amoSwap .. =>
      { imm := all, sc := true, ord := 3, t2 := true }
    | .cwb .. | .cinv .. | .cwbinv .. | .cpre .. => { imm := all }
    | .vld _ _ _ am _ => memKeep am x false { z := true, ff := true, e := x.ff }
    | .vst _ _ _ am _ => memKeep am x false {}
    | _ => {}

/-- Clears the fields of the inner instruction that the form carries or forbids: T under T2 8 or 9 (R343), the scope of an
AMO (R282), B of a conversion (R352), and the immediate and address fields, which the form holds (R282). DEDUCED, log 16. -/
def canonInner (x : Ext) (i : Instr) : Instr :=
  let t' (t : BitVec 3) : BitVec 3 := if x.t2 = 8 ∨ x.t2 = 9 then 0 else t
  match i with
  | .amoAdd d a b _ => .amoAdd d a b 0
  | .amoAnd d a b _ => .amoAnd d a b 0
  | .amoOr d a b _ => .amoOr d a b 0
  | .amoXor d a b _ => .amoXor d a b 0
  | .amoMin d a b _ => .amoMin d a b 0
  | .amoMax d a b _ => .amoMax d a b 0
  | .amoMinu d a b _ => .amoMinu d a b 0
  | .amoSwap d a b _ => .amoSwap d a b 0
  | .vcvt t d a _ => .vcvt (t' t) d a 0
  | .vcvtSat t d a _ => .vcvtSat (t' t) d a 0
  | .vwid t d a _ => .vwid (t' t) d a 0
  | .vwidh t d a _ => .vwidh (t' t) d a 0
  | .vnar t d a _ => .vnar (t' t) d a 0
  | .vrint t d a _ => .vrint (t' t) d a 0
  | .addi d a _ => .addi d a 0
  | .andi d a _ => .andi d a 0
  | .ori d a _ => .ori d a 0
  | .xori d a _ => .xori d a 0
  | .slli d a _ => .slli d a 0
  | .srli d a _ => .srli d a 0
  | .srai d a _ => .srai d a 0
  | .roli d a _ => .roli d a 0
  | .bfx d a _ _ => .bfx d a 0 0
  | .bfxs d a _ _ => .bfxs d a 0 0
  | .bfi d a _ _ => .bfi d a 0 0
  | .bfclr d a _ _ => .bfclr d a 0 0
  | .mvi d _ => .mvi d 0
  | .adr d _ => .adr d 0
  | .loop d _ => .loop d 0
  | .ld d a sz am _ => .ld d a sz am 0
  | .lds d a sz am _ => .lds d a sz am 0
  | .st d a sz am _ => .st d a sz am 0
  | .vld d a sz am _ => .vld d a sz am 0
  | .vst d a sz am _ => .vst d a sz am 0
  | .ldfeAny d a am _ => .ldfeAny d a am 0
  | .ldfeWf d a am _ => .ldfeWf d a am 0
  | .ldfeWfe d a am _ => .ldfeWfe d a am 0
  | .ldfeSt d a am _ => .ldfeSt d a am 0
  | .stfeSf d a am _ => .stfeSf d a am 0
  | .stfeWef d a am _ => .stfeWef d a am 0
  | .stfeSe a am _ => .stfeSe a am 0
  | .stfeKeep d a am _ => .stfeKeep d a am 0
  | .bk k pol _ => .bk k pol 0
  | .bra _ => .bra 0
  | .bz r _ => .bz r 0
  | .bnz r _ => .bnz r 0
  | .bltz r _ => .bltz r 0
  | .bgez r _ => .bgez r 0
  | .blez r _ => .blez r 0
  | .bgtz r _ => .bgtz r 0
  | .jmp _ => .jmp 0
  | .call _ => .call 0
  | .vadd t d a b => .vadd (t' t) d a b
  | .vsub t d a b => .vsub (t' t) d a b
  | .vmul t d a b => .vmul (t' t) d a b
  | .vmin t d a b => .vmin (t' t) d a b
  | .vmax t d a b => .vmax (t' t) d a b
  | .vabs t d a => .vabs (t' t) d a
  | .vneg t d a => .vneg (t' t) d a
  | .vabd t d a b => .vabd (t' t) d a b
  | .vfma t d a b => .vfma (t' t) d a b
  | .vfms t d a b => .vfms (t' t) d a b
  | .vfnma t d a b => .vfnma (t' t) d a b
  | .vfnms t d a b => .vfnms (t' t) d a b
  | .vdot4 t d a b => .vdot4 (t' t) d a b
  | .vdot2 t d a b => .vdot2 (t' t) d a b
  | .vmulh t d a b => .vmulh (t' t) d a b
  | .vsad t d a b => .vsad (t' t) d a b
  | .vand t d a b => .vand (t' t) d a b
  | .vor t d a b => .vor (t' t) d a b
  | .vxor t d a b => .vxor (t' t) d a b
  | .vandn t d a b => .vandn (t' t) d a b
  | .vsll t d a b => .vsll (t' t) d a b
  | .vsrl t d a b => .vsrl (t' t) d a b
  | .vsra t d a b => .vsra (t' t) d a b
  | .vnot t d a => .vnot (t' t) d a
  | .vceq t d a b => .vceq (t' t) d a b
  | .vcne t d a b => .vcne (t' t) d a b
  | .vclt t d a b => .vclt (t' t) d a b
  | .vcle t d a b => .vcle (t' t) d a b
  | .vcgt t d a b => .vcgt (t' t) d a b
  | .vcge t d a b => .vcge (t' t) d a b
  | .vcltu t d a b => .vcltu (t' t) d a b
  | .vcun t d a b => .vcun (t' t) d a b
  | .vbc t d a b => .vbc (t' t) d a b
  | .vshf t d a b => .vshf (t' t) d a b
  | .vrot t d a b => .vrot (t' t) d a b
  | .vext t d a b => .vext (t' t) d a b
  | .vins t d a b => .vins (t' t) d a b
  | .vzip t d a b => .vzip (t' t) d a b
  | .vuzp t d a b => .vuzp (t' t) d a b
  | .vcpr t d a b => .vcpr (t' t) d a b
  | .vradd t d a => .vradd (t' t) d a
  | .vrmax t d a => .vrmax (t' t) d a
  | .vrmin t d a => .vrmin (t' t) d a
  | .vrand t d a => .vrand (t' t) d a
  | .vror t d a => .vror (t' t) d a
  | .vrxor t d a => .vrxor (t' t) d a
  | .vscan t d a => .vscan (t' t) d a
  | .vrsum t d a => .vrsum (t' t) d a
  | .vrcp t d a => .vrcp (t' t) d a
  | .vrsqrt t d a => .vrsqrt (t' t) d a
  | .vsqrt t d a => .vsqrt (t' t) d a
  | .vdiv t d a b => .vdiv (t' t) d a b
  | .vexp2 t d a => .vexp2 (t' t) d a
  | .vlog2 t d a => .vlog2 (t' t) d a
  | .vtanh t d a => .vtanh (t' t) d a
  | .vsigm t d a => .vsigm (t' t) d a
  | .vmov t d a => .vmov (t' t) d a
  | .vzero t d => .vzero (t' t) d
  | .vfill t d a => .vfill (t' t) d a
  | .vkmov t d a => .vkmov (t' t) d a
  | .vwbc t d a b => .vwbc (t' t) d a b
  | i => i

/-- The operations of an XFAB word that carry acquire or release semantics, from ORD or from their mode (R338). -/
def xfabSync (x : Ext) (store : Bool) : Bool :=
  x.ord != 0 || (x.x.getLsbD 3 && (if store then decide (x.x.toNat / 2 % 4 < 2) else (x.x.toNat / 2 % 4 = 1 || x.x.toNat / 2 % 4 = 2)))

/-- The fields that an extended-only operation uses (R328, R336, R338, R342, R354, R370, R383–R390). DEDUCED, log 16. -/
def xopKeep (i : Instr) : Bool × Bool × Keep :=
  let all : W32 := BitVec.allOnes 32
  let m (x : Ext) : Keep := { k := false, ord := 3, sc := x.ord != 0 }
  let t : Keep := { k := false, sc := true }
  let eng (x : Ext) (xs : BitVec 4) : Keep := { b := true, c := 63, ord := 3, sc := x.ord != 0, x := xs }
  let fab (x : Ext) (store : Bool) (p : Keep) : Keep := { p with ord := 3, sc := xfabSync x store }
  match i with
  | .vqn4p _ o => (true, true, { b := true, c := 15, z := true, t2 := true, x := 6 })
  | .vqn4u _ o => (true, true, { b := o.x.x.getLsbD 3, c := 15, z := true, x := 14, rm := o.x.x.getLsbD 3 })
  | .mmul o => (true, true, { m o.x with b := true, e := true, t2 := true, rm := o.x.t2 != 5 })
  | .mq4 o => (true, true, { m o.x with b := true, e := true })
  | .mgrp o => (true, true, { m o.x with b := true, c := 63, e := true, t2 := true, rm := o.x.t2 != 5 })
  | .mmult o => (true, true, { m o.x with b := true, rm := true, sc := true, imm := all })
  | .msacc o => (true, true, { m o.x with b := true, c := 63, x := 2, rm := true })
  | .mzero _ => (true, false, { k := false })
  | .mldz o | .mstz o => (true, true, { m o.x with b := true })
  | .mrd _ => (true, true, { z := true, x := 2, imm := 0x3F })
  | .mwr _ => (true, true, { x := 2, imm := 0x3F })
  | .mrec o => (true, true, { m o.x with b := true, c := 63, t2 := true, rm := true, imm := 7 })
  | .mcmd o =>
    let z : Bool := o.x.imm.toNat % 4 = 2
    (true, true, { k := false, b := !z, c := if z then 0 else 63, e := !z, t2 := o.x.imm.toNat % 4 = 0, ord := 2,
                   sc := o.x.ord.getLsbD 1, imm := 3 })
  | .mcmdGrant _ => (true, false, { k := false, x := 2, imm := 0xF })
  | .mwait _ => (false, false, { k := false })
  | .tnew _ => (true, true, t)
  | .tfree _ => (false, true, t)
  | .tvst o => (o.x.t2 != 1, true, { t with b := true, c := if o.x.t2 = 1 then 63 else 0, ff := true, t2 := true,
                                            x := if o.x.t2 = 0 then 14 else 0, imm := 0xFFFF })
  | .tvld o | .tvldc o => (o.x.t2 != 1, true, { t with b := true, c := if o.x.t2 = 1 then 63 else 0, ff := true, e := o.x.ff,
                                                       t2 := true, x := if o.x.t2 = 0 then 14 else 0, imm := all })
  | .tvw o => (false, true, { t with b := true, ff := true, e := o.x.ff, imm := all })
  | .tdecl _ => (true, true, { t with c := 63, imm := 0xFFF })
  | .tten o => (false, true, { t with b := true, ff := true, e := o.x.ff, x := 2 })
  | .trel _ => (false, true, { t with b := true })
  | .tsplit _ => (true, true, { t with b := true, imm := 0xFF })
  | .tmerge _ => (true, true, { t with b := true })
  | .thalo _ => (false, true, { t with b := true, c := 63, imm := 0x3F })
  | .cas _ | .casq _ => (true, true, { b := true, c := 63, e := true, sc := true, ord := 3, t2 := true, imm := all })
  | .ldacq _ | .strel _ => (true, true, { sc := true, t2 := true, imm := all })
  | .cp o | .cp2d o => (true, true, eng o.x 2)
  | .cpf o => (true, true, { eng o.x 2 with imm := if o.x.x.getLsbD 1 then 1 else 0 })
  | .cpg o | .cps o => (true, true, { eng o.x 0 with t2 := true, imm := all })
  | .cpq o => (true, true, eng o.x 0)
  | .rld o => (true, true, fab o.x false { t2 := true, imm := all, x := if o.x.x.getLsbD 3 then 14 else 0 })
  | .rst o => (o.x.x.toNat / 2 ≠ 6, true, fab o.x true { t2 := true, imm := all, x := if o.x.x.getLsbD 3 then 14 else 0 })
  | .ramo o => (true, true, fab o.x false { b := true, c := 7, t2 := true, imm := all })
  | .rcas o => (true, true, fab o.x false { b := true, c := 63, e := true, t2 := true, imm := all })
  | .rcall o => (false, true, fab o.x false { b := true, c := 63, imm := all })
  | .rnote o => (false, true, fab o.x false { b := true })
  | .rfence o => (false, false, fab o.x false {})
  | .rget o | .rput o => (true, true, fab o.x false { b := true, imm := all })
  | .rkreg _ | .mighint _ | .pgpin _ | .pgret _ => (true, true, { b := true })
  | .rkrev _ | .coreseal _ => (true, true, {})
  | .logring _ => (false, true, {})
  | .keyset _ => (true, true, { b := true, c := 63 })
  | .launch _ | .lwait _ => (true, true, {})
  | .tspawn _ => (true, true, { b := true, c := 63, e := true })
  | .prio _ => (true, true, { b := true })
  | _ => (true, true, {})

/-- Clears the fields of an operation's words that it does not use. -/
def XOp.keep (p : Bool × Bool × Keep) (o : XOp) : XOp :=
  { d := if p.1 then o.d else 0, a := if p.2.1 then o.a else 0, x := o.x.keep p.2.2, lit := o.lit }

/-- An extended-only operation with its unused fields cleared; `rnote`'s B is a number, 0–7 (R340). -/
def canonX (i : Instr) : Instr :=
  let f (o : XOp) : XOp := o.keep (xopKeep i)
  match i with
  | .vqn4p t o => .vqn4p t (f o)
  | .vqn4u t o => .vqn4u t (f o)
  | .mmul o => .mmul (f o)
  | .mmult o => .mmult (f o)
  | .mgrp o => .mgrp (f o)
  | .mq4 o => .mq4 (f o)
  | .msacc o => .msacc (f o)
  | .mzero o => .mzero (f o)
  | .mldz o => .mldz (f o)
  | .mstz o => .mstz (f o)
  | .mrd o => .mrd (f o)
  | .mwr o => .mwr (f o)
  | .mrec o => .mrec (f o)
  | .mcmd o => .mcmd (f o)
  | .mcmdGrant o => .mcmdGrant (f o)
  | .mwait o => .mwait (f o)
  | .tnew o => .tnew (f o)
  | .tfree o => .tfree (f o)
  | .tvst o => .tvst (f o)
  | .tvld o => .tvld (f o)
  | .tvldc o => .tvldc (f o)
  | .tvw o => .tvw (f o)
  | .tdecl o => .tdecl (f o)
  | .tten o => .tten (f o)
  | .trel o => .trel (f o)
  | .tsplit o => .tsplit (f o)
  | .tmerge o => .tmerge (f o)
  | .thalo o => .thalo (f o)
  | .cas o => .cas (f o)
  | .casq o => .casq (f o)
  | .ldacq o => .ldacq (f o)
  | .strel o => .strel (f o)
  | .cp o => .cp (f o)
  | .cp2d o => .cp2d (f o)
  | .cpf o => .cpf (f o)
  | .cpg o => .cpg (f o)
  | .cps o => .cps (f o)
  | .cpq o => .cpq (f o)
  | .rld o => .rld (f o)
  | .rst o => .rst (f o)
  | .ramo o => .ramo (f o)
  | .rcas o => .rcas (f o)
  | .rcall o => .rcall (f o)
  | .rnote o => .rnote { f o with x := { (f o).x with b := (f o).x.b &&& 7 } }
  | .rfence o => .rfence (f o)
  | .rget o => .rget (f o)
  | .rput o => .rput (f o)
  | .rkreg o => .rkreg (f o)
  | .rkrev o => .rkrev (f o)
  | .mighint o => .mighint (f o)
  | .pgpin o => .pgpin (f o)
  | .pgret o => .pgret (f o)
  | .logring o => .logring (f o)
  | .keyset o => .keyset (f o)
  | .coreseal o => .coreseal (f o)
  | .launch o => .launch (f o)
  | .tspawn o => .tspawn (f o)
  | .lwait o => .lwait (f o)
  | .prio o => .prio (f o)
  | i => i

/-- The scalar slot with its required-zero bits cleared (R278, R279). -/
def PairSlot.canon (p : PairSlot) : PairSlot :=
  { p with
    gp := p.gp && p.gk != 0
    b := match sopKind p.sop with
      | some .imm => p.b
      | some .none => 0
      | _ => p.b &&& 0x3F
    d := match sopKind p.sop with
      | some .regK => p.d &&& 7
      | _ => p.d }

/-- The instruction with every field that must be zero cleared. -/
def canon (i : Instr) : Instr :=
  match i with
  | .pairWord p v => .pairWord p.canon v
  | .widenedForm x b => .widenedForm (x.keep (baseKeep x false b)) (canonInner x b)
  | .literalForm x l b => .literalForm (x.keep (baseKeep x true b)) l (canonInner x b)
  | i => canonX i

/-! ## The decoder -/

/-- The lowest set bit of a word. -/
def lowBit (w : W32) : Option Nat := (List.range 32).find? (fun k => w.getLsbD k)

/-- The lowest bit in which two word lists differ, as 32 × word + bit (R235). -/
def firstDiff (n : Nat) : List W32 → List W32 → Option Nat
  | a :: as, b :: bs => match lowBit (a ^^^ b) with
    | some k => some (32 * n + k)
    | none => firstDiff (n + 1) as bs
  | _, _ => none

/-- A required SC of 4–7 that is missing: an XFAB operation with acquire or release semantics (R338); the position is that of
the SC field's lowest bit. DEDUCED, log 16. -/
def scMissing (i : Instr) : Option Nat :=
  let chk (o : XOp) (store : Bool) : Option Nat :=
    if xfabSync o.x store && decide (o.x.sc.toNat < 4) then some 48 else none
  match i with
  | .rst o => chk o true
  | .rld o | .ramo o | .rcas o | .rcall o | .rnote o | .rfence o | .rget o | .rput o => chk o false
  | _ => none

/-- The earlier of two positions. -/
def minPos (a b : Option Nat) : Option Nat :=
  match a, b with
  | some x, some y => some (Nat.min x y)
  | some x, none => some x
  | none, y => y

/-- Decodes the words of one instruction (R272): the instruction, or the fault its encoding raises, `ILLEGAL` before
`RESERVED_FIELD` (R236). -/
def decodeWords (ws : List W32) : Except EncFault Instr :=
  match candidate ws with
  | none => .error .illegal
  | some i =>
    if illegal i then .error .illegal
    else match minPos (firstDiff 0 (encode (canon i)) ws) (scMissing i) with
      | some p => .error (.reserved p)
      | none => .ok i

/-- A 32-bit word of four bytes, little-endian (R272). -/
def wordOfBytes (b0 b1 b2 b3 : Byte) : W32 := b3 ++ b2 ++ b1 ++ b0

/-- The bytes of a word, in address order. -/
def bytesOfWord (w : W32) : List Byte :=
  [w.extractLsb' 0 8, w.extractLsb' 8 8, w.extractLsb' 16 8, w.extractLsb' 24 8]

/-- The whole words of a list of bytes. -/
def wordsOfBytes : List Byte → List W32
  | b0 :: b1 :: b2 :: b3 :: r => wordOfBytes b0 b1 b2 b3 :: wordsOfBytes r
  | _ => []

/-- What decoding a list of bytes gives. -/
inductive DecodeResult where
  /-- An instruction and the bytes behind it. -/
  | ok (i : Instr) (rest : List Byte)
  | fault (e : EncFault)
  /-- Fewer bytes than the length field asks for. -/
  | short
deriving DecidableEq, Repr

/-- The decoder on bytes: total, every failure named. -/
def decode (bs : List Byte) : DecodeResult :=
  match wordsOfBytes bs with
  | [] => .short
  | w :: ws =>
    let n := wordCount w
    if (w :: ws).length < n then .short
    else match decodeWords ((w :: ws).take n) with
      | .ok i => .ok i (bs.drop (4 * n))
      | .error e => .fault e

/-- The n lowest 32-bit words of a number. -/
def wordsOfNat (n w : Nat) : List W32 := (List.range n).map fun k => BitVec.ofNat 32 (w / 2 ^ (32 * k))

/-- The instruction read from a word of the opcode table, the bits above `nbits` being zero. -/
def decodeTableWord (nbits w : Nat) : Option Instr :=
  let w := w % 2 ^ nbits
  match decode ((wordsOfNat 5 w).flatMap bytesOfWord) with
  | .ok i _ => some i
  | _ => none

end

end Sys2Proof
end

