-- ==== Sys2Proof/Config.lean ====
section
/-!
DEFINITION. Free values: what the spec leaves open, as constants without a body, so that no proof can see them, and the
constants of one module that the spec gives as examples of what may differ. notes/assumptions/4.md lists the free values.
-/
namespace Sys2Proof.Config

/-- Whether an image's signature verifies (R107). -/
opaque imageSigned : List Byte → Bool
/-- The security version an image carries (R107). -/
opaque imageVersion : List Byte → Nat
/-- The fused minimum security version (R107). -/
opaque fusedVersion : Nat
/-- The signed report for a nonce, given the firmware, `MODID`, and each die's fuse and repair records (R109). -/
opaque report : BitVec 128 → List Byte → BitVec 16 → List (List Nat) → List Byte

/-- Whether the message engine performs a core's access to its own team only after the core's next accesses (R165), for a count of such. -/
opaque race : Nat → Bool

/-- A byte of a save image's reserve (R113), for a count of saves and an offset of local memory. -/
opaque reserveByte : Nat → Nat → Byte

/-- The depth of a link's buffers, by hop class and set (R92). -/
opaque linkDepth : LinkId → Nat → Nat → Nat
/-- The die that a bring-up which runs out of time names as failed (R31), for a count of such. -/
opaque lateDie : Nat → BitVec 3
/-- The dies that have completed bring-up step 5 when it fails or runs out of time (R33), for a count of such. -/
opaque diesDone : Nat → BitVec 8
/-- What the coolant sensors read (R27), at a cycle: inlet and outlet temperature, flow. -/
opaque coolant : Nat → Nat × Nat × Nat
/-- Frames of a die and a tier (0 HBM4, 1 LPDDR, 2 CXL) that bring-up gives Drift as free (R55, R194): the spec names no others. -/
opaque firmwareFrames : Nat → Nat → List Nat
/-- The firmware's reserve of free LPDDR frames (R52). -/
opaque lpReserve : Nat

end Sys2Proof.Config
end

