-- ==== Sys2Proof/Machine/CapOps.lean ====
section
/-!
DEFINITION. Capabilities (R284, R285, R306, R307): the fields of the layouts, bounds, cursor changes, setting bounds.
-/
namespace Sys2Proof

/-- TYPE, bits [121:118] (R284). -/
def Cap.ty (c : Cap) : Nat := (c.bits.extractLsb' 118 4).toNat
/-- Bits [127:122], reserved (R284). -/
def Cap.rsvOk (c : Cap) : Bool := c.bits.extractLsb' 122 6 = 0
/-- The kind a type check sees: TYPE, or 15 when a reserved bit is set (R284). -/
def Cap.kind (c : Cap) : Nat := if c.rsvOk then c.ty else 15
def Cap.cursor (c : Cap) : W64 := c.int
def Cap.exp (c : Cap) : Nat := (c.bits.extractLsb' 64 6).toNat
def Cap.bm (c : Cap) : Nat := (c.bits.extractLsb' 70 17).toNat
def Cap.lm (c : Cap) : Nat := (c.bits.extractLsb' 87 17).toNat
def Cap.boff (c : Cap) : Int := (c.bits.extractLsb' 104 2).toInt

/-- The position and width of the type's PERM field (R284, R285, R186, R377). -/
def permField (ty : Nat) : Nat × Nat :=
  match ty with
  | 0 | 1 | 4 => (106, 12)
  | 2 => (104, 8)
  | 3 | 6 => (112, 6)
  | 5 => (104, 2)
  | _ => (0, 0)

/-- Replaces `n` bits at position `lo`. -/
def setField (x : W128) (lo n : Nat) (v : Nat) : W128 :=
  (x &&& ~~~(BitVec.ofNat 128 ((2 ^ n - 1) * 2 ^ lo))) ||| BitVec.ofNat 128 (v % 2 ^ n * 2 ^ lo)

/-- Decoded base and top (R306). -/
def Cap.bounds (c : Cap) : Nat × Nat :=
  if c.exp = 63 then (0, 2 ^ 64)
  else if c.exp > 47 then (0, 0)
  else
    let blk : Nat := 2 ^ (c.exp + 17)
    let hi : Int := (c.cursor.toNat / blk : Nat) - c.boff
    let base : Int := hi * blk + c.bm * 2 ^ c.exp
    let top : Int := base + c.lm * 2 ^ c.exp
    if base < 0 ∨ top > 2 ^ 64 then (0, 0) else (base.toNat, top.toNat)

def Cap.base (c : Cap) : Nat := c.bounds.1
def Cap.top (c : Cap) : Nat := c.bounds.2

/-- Whether the type carries bounds and follows R307. -/
def Cap.bounded (c : Cap) : Bool := c.ty = 0 || c.ty = 1 || c.ty = 4

/-- A cursor change (R307): representable, or the result is untagged. For the window types it changes OFFSET (R308). DEDUCED, log 18. -/
def Cap.setCursor (c : Cap) (a : W64) : Cap :=
  let moved : W128 := setField c.bits 0 64 a.toNat
  if !c.bounded then ⟨moved, c.tag⟩
  else if c.exp = 63 then ⟨moved, c.tag⟩
  else if c.exp > 47 then ⟨moved, false⟩
  else
    let blk : Nat := 2 ^ (c.exp + 17)
    let diff : Int := (a.toNat / blk : Nat) - (c.base / blk : Nat)
    if -2 ≤ diff ∧ diff ≤ 1 then ⟨setField moved 104 2 (diff % 4).toNat, c.tag⟩ else ⟨moved, false⟩

/-- ⌈x ÷ 2^e⌉. -/
def ceilDiv (x e : Nat) : Nat := (x + 2 ^ e - 1) / 2 ^ e

/-- The least exponent from `e` whose length mantissa fits (R307); 63 when none up to 47 does. -/
def leastExp (base top : Nat) : Nat → Nat → Nat
  | 0, _ => 63
  | fuel + 1, e => if ceilDiv top e - base / 2 ^ e ≤ 2 ^ 17 - 1 then e else leastExp base top fuel (e + 1)

/-- Setting bounds (R307). -/
def Cap.setBounds (c : Cap) (base top : Nat) : Cap :=
  let e := leastExp base top 48 0
  let put (e bm lm : Nat) (boff : Nat) (tag : Bool) : Cap :=
    ⟨setField (setField (setField (setField c.bits 64 6 e) 70 17 bm) 87 17 lm) 104 2 boff, tag⟩
  if e = 63 then put 63 0 0 0 c.tag
  else
    let b := base / 2 ^ e
    let diff : Int := (c.cursor.toNat / 2 ^ (e + 17) : Nat) - (base / 2 ^ (e + 17) : Nat)
    put e (b % 2 ^ 17) (ceilDiv top e - b) (diff % 4).toNat (c.tag && decide (-2 ≤ diff ∧ diff ≤ 1))

/-- A permission bit of a memory, local or sealed-entry capability (R306). -/
def Cap.perm (c : Cap) (bit : Nat) : Bool := c.bits.getLsbD bit
def permLD : Nat := 106
def permST : Nat := 107
def permEX : Nat := 108
def permTGR : Nat := 109
def permTGW : Nat := 110
def permATOM : Nat := 111
def permFE : Nat := 112
def permENG : Nat := 113
def permMTX : Nat := 114
def permREM : Nat := 115

/-- The PERM field of the type, zero-extended (R308). -/
def Cap.permBits (c : Cap) : Nat :=
  let (lo, n) := permField c.ty
  (c.bits.extractLsb' lo n).toNat

/-- A memory or local capability with given bounds, cursor and PERM (R284). -/
def mkCap (ty base top : Nat) (cursor : W64) (perm : Nat) : Cap :=
  let bits : W128 := setField (setField (setField 0 0 64 cursor.toNat) 106 12 perm) 118 4 ty
  Cap.setBounds ⟨bits, true⟩ base top

/-- LD, ST, TGR, TGW, ATOM, FE, ENG and MTX (R116, R162). -/
def localPerm : Nat := 0b000111111011
/-- A window capability (R285). -/
def mkWindow (ty perm : Nat) (mdl : BitVec 16) (rkey : BitVec 32) (off : W64) : Cap :=
  ⟨setField (setField (setField (setField (setField 0 0 64 off.toNat) 64 32 rkey.toNat) 96 16 mdl.toNat) 112 6 perm) 118 4 ty,
   true⟩

/-- MODULE, RKEY and OFFSET of a window capability (R285). -/
def Cap.wmodule (c : Cap) : BitVec 16 := c.bits.extractLsb' 96 16
def Cap.rkey (c : Cap) : BitVec 32 := c.bits.extractLsb' 64 32
/-- A permission of a window capability: 0 LD, 1 ST, 2 ATOM, 3 FE, 4 CALL (R285). -/
def Cap.wperm (c : Cap) (n : Nat) : Bool := c.bits.getLsbD (112 + n)

end Sys2Proof
end

