-- ==== Sys2Proof/Machine/State.lean ====
section
/-!
DEFINITION. What the module holds: its standby domain, its dies, its quads and bound cores with their teams and threads, its
memory, and the inputs and messages on their way. Only what is in use is listed: a core without a team, a line that is not
resident or a name that is not allocated has no entry. Everything is plain data. notes/assumptions say which initial values
the spec does not give.
-/
namespace Sys2Proof.Machine

/-! ## Memory -/

/-- Bytes with their metadata (R41): bytes that differ from zero, by rising address; 8-byte words whose full/empty bit is empty,
16-byte granules whose tag is set, and 64-byte blocks that are poisoned, each by rising index. -/
structure Memory where
  cells  : List Host.Cell := []
  empty  : List Nat := []
  tags   : List Nat := []
  poison : List Nat := []
deriving DecidableEq, Repr

/-! ## Threads -/

/-- A release or acquire scope by its code: 0 core, 1 quad, 2 region, 3 die, 4 mod, 5 f1, 6 f2, 7 sys (R210). -/
abbrev Scope := BitVec 3

/-- The binding of a queue register (R147). -/
inductive QBind where
  | unbound
  /-- The partner thread and its queue register. -/
  | toThread (thr q : BitVec 3)
  /-- The partner's launch, team, thread and queue; whether the partner has bound to this end; the credits held; entries
  refused with `BUSY`, oldest first (R150). -/
  | toTeam (win : Cap) (team : Nat) (thr q : BitVec 3) (linked : Bool) (credits : Nat) (refused : List W64)
deriving DecidableEq, Repr

/-- A queue register: its receive FIFO, binding, and whether a mesh bind was refused (R147, R333). -/
structure Queue where
  fifo   : List W64 := []
  bind   : QBind := .unbound
  failed : Bool := false
deriving DecidableEq, Repr

/-- The writes a waiting instruction makes when what it waits for arrives: the delivered value to `d`, the listed registers
(a base update, a first-fault or success register), an acquire at a scope, and the advance by its words. -/
structure Finish where
  d    : F6 := 0
  regs : List (F6 × Cap) := []
  acq  : Option Scope := none
  len  : Nat := 1
  /-- Queue registers the instruction pops. -/
  pops : List (BitVec 3) := []
deriving DecidableEq, Repr

/-- What a waiter of a version does when it is served (R193). -/
inductive VWaitKind where
  | load (consume : Bool)
  | wait
  | hold
  | publish
deriving DecidableEq, Repr

/-- How far a tile request to another module's home has come: unanswered, in the home's wait list, or refused and tried again later. -/
inductive TileStage where
  | sent
  | waiting
  | refused
  /-- The home has served the wait of a load, and its data is on the way. -/
  | fetching
deriving DecidableEq, Repr

/-- What a parked thread waits for (R132). -/
inductive Wait where
  /-- A full/empty operation in the core's local memory: the word, the code of R324 and whether it stores. -/
  | feLocal (addr : Nat) (mode : BitVec 2) (store : Bool) (data : W64)
  /-- A full/empty operation in a port's retry list (R85, R174). -/
  | fePort (pa : Nat)
  /-- A page-fault service (R232), for an address: the instruction executes again when it resolves. -/
  | service (die svc va : Nat)
  /-- A version (R193): what the waiter does, the times its registration was refused, the cycle at which its bound expires. -/
  | version (name ver : Nat) (kind : VWaitKind) (tries : Nat) (bound : Option Nat)
  /-- A publish beyond the window, or one that waits for a frame (R191, R194): its reader count, the times its registration was refused. -/
  | publish (name ver : Nat) (readers : Option Nat) (tries : Nat)
  /-- A tenure request (R200): its entry in the tenure table, and the times it was refused a record. -/
  | tenure (slot tries : Nat)
  /-- A one-shot access queued at the directory (R202), or refused a record so many times (R198): the instruction executes again when it
  is granted. -/
  | oneShot (region tries : Nat)
  /-- A reply to a keyed request on whose acquire the thread waits (R338). -/
  | reply (tag : Nat)
  /-- A launch's completion (R390). -/
  | launch (launch : BitVec 16)
  /-- A tile operation at another module's home (R187, R193): its request, how far it has come, the times it was refused, the cycle at which
  its bound expires. -/
  | remoteTile (p : Packet) (stage : TileStage) (tries : Nat) (bound : Option Nat)
  /-- Its turn at the matrix unit (R155): the instruction executes again when the unit starts its command. -/
  | matrix
deriving DecidableEq, Repr

/-- What a thread slot does (R132, R313–R315). -/
inductive Run where
  /-- The slot holds no thread (R138). -/
  | none
  | ready
  | parked (w : Wait) (f : Finish)
  /-- `sleep` until a cycle. -/
  | sleeping (til : Nat)
  /-- `yield` until the others have issued (R313), the slots that were ready and have not, or until a cycle. -/
  | yielded (others : BitVec 8) (til : Nat)
  /-- At the barrier (R315). -/
  | bar
  /-- `wfe`, for a notice or an event (R313). -/
  | wfe
  /-- Waiting for a call (R89). -/
  | call
  | halted
deriving DecidableEq, Repr

/-- An operand latch: the register it holds, with its hold bit (R142). -/
abbrev Latch := Option (BitVec 6)

/-- The architectural state of a thread (R116, R137). -/
structure Thread where
  c       : Vector Cap 32 := Vector.replicate 32 Cap.zero
  v       : Vector V512 48 := Vector.replicate 48 0
  k       : Vector W64 8 := Vector.replicate 8 0
  m       : Vector W64 8 := Vector.replicate 8 0
  q       : Vector Queue 8 := Vector.replicate 8 {}
  pc      : Cap := Cap.zero
  /-- The fetch buffer (R135): the number of the 32-byte half line, and its bytes. -/
  fbuf    : Option (Nat × BitVec 256) := none
  /-- `LSTART`, `LEND`, `LCOUNT` of levels 0 and 1 (R312). -/
  lstart  : Vector W64 2 := Vector.replicate 2 0
  lend    : Vector W64 2 := Vector.replicate 2 0
  lcount  : Vector W64 2 := Vector.replicate 2 0
  xfloor  : W64 := 0
  fpctl   : W64 := 0
  fpflags : W64 := 0
  rowprog : W64 := 0
  trapvec : W64 := 0
  trappc  : Cap := Cap.zero
  trapcause : W64 := 0
  trapval : W64 := 0
  trapins : W64 := 0
  /-- `STATUS`: bit 0 SYS, bit 1 PSYS, bit 2 INTRAP (R234). -/
  status  : W64 := 0
  engflt  : W64 := 0
  /-- The log switch (R181). -/
  logOn   : Bool := false
  /-- A program notice is pending (R90). -/
  rnote   : Bool := false
  run     : Run := .none
  /-- Registers of `c` and `v` whose write is pending: keyed requests and tile loads (R140). -/
  pendC   : BitVec 32 := 0
  pendV   : BitVec 48 := 0
  latchA  : Latch := none
  latchB  : Latch := none
  latchC  : Latch := none
  /-- Since when the thread has been idle, and whether its rows are in retention (R146). -/
  idleAt  : Nat := 0
  retained : Bool := false
  /-- The instruction is a replay after a mismatch (R158). -/
  replayed : Bool := false
  /-- A one-shot access or a tile wait that the home has served, for the instruction that executes again (R193, R202). -/
  granted : Bool := false
  /-- What ended the wait of the instruction that executes again: cause and value (R193, R232). -/
  pendTrap : Option (BitVec 8 × W64) := none
  /-- Vector registers as they stood when rows were gated while the thread's instruction, which executes again, was parked (R145). -/
  oldRows : Option (Vector V512 48) := none
  /-- Tokens of engine commands with a release flag that the thread has not read: the register and the scope (R218). -/
  relOn : List (F6 × Scope) := []
  /-- Tags of earlier remote loads that a completed acquire at a fabric scope still waits for (R213). -/
  acqOn : List Nat := []
  /-- Answers of other modules' homes to the tile operands of the instruction that executes again: operand, value and data. -/
  tile : List (Nat × W64 × List W64) := []
  /-- Versions whose wait the home has served, each with the name's number and generation (`TName.ref`); a load's hold stands until it
  completes. -/
  held : List (Nat × Nat × VWaitKind) := []
  /-- The cycle at which a bounded wait ends, while one is running (R193). -/
  waitEnd : Option Nat := none
  /-- Completed `mcmd` refusals or faults to report at the next `mwait` (R379): the reply status. -/
  mcmdErr : Option (BitVec 4) := none
  /-- Remote matrix commands sent and not yet returned (R379). -/
  mcmdOut : Nat := 0
deriving DecidableEq, Repr

/-! ## Cores -/

/-- A resident line of the instruction cache (R135). -/
structure ICLine where
  va   : Nat
  data : V512
deriving DecidableEq, Repr

/-- An engine command (R336, R337): the operation, its operands as checked at issue, and how far it has come. -/
structure EngCmd where
  /-- 0 `cp`, 1 `cp2d`, 2 `cpf`, 3 `cpg`, 4 `cps`, 5 `cpq`. -/
  op    : Nat
  thr   : Nat
  /-- The token register. -/
  d     : F6
  a     : Cap
  b     : Cap
  c     : Cap
  imm   : W32
  /-- Element size of `cpg` and `cps`. -/
  size  : Nat
  fe    : Bool
  acq   : Option Scope
  rel   : Option Scope
  /-- The issuing thread's log switch. -/
  logged : Bool
  /-- Units performed and bytes written so far. -/
  unit  : Nat := 0
  done  : Nat := 0
  /-- The acquire of the first read has been made. -/
  begun : Bool := false
  /-- The unit's index and data read, with each piece's tag and full/empty bit, while a window access is under way; whether the write
  through a window has been answered. -/
  idx   : Option W64 := none
  buf   : Option (Nat × List (Bool × Bool)) := none
  put   : Bool := false
  /-- The engine waits for a reply. -/
  waits : Bool := false
  /-- What ended the command: cause and address. -/
  fault : Option (BitVec 8 × Nat) := none
deriving DecidableEq, Repr

/-- An open range of the log engine (R182). -/
structure LogRange where
  lo    : Nat
  hi    : Nat
  since : Nat
deriving DecidableEq, Repr

/-- States of a ticket-table entry (R241). -/
inductive TkState where
  | sent
  | ticketed
  | shadow
  | failed
deriving DecidableEq, Repr

/-- A ticket-table entry (R241): the operation as its request packet, its thread, PC and first word, destination registers,
and what became of it. -/
structure Ticket where
  /-- The entry's number; 16 and 17 are the engines' requests, which take no entry. -/
  idx     : Nat
  tag     : Nat
  gen     : BitVec 4
  thr     : Nat
  req     : Packet
  d       : F6
  e       : F6
  pc      : Cap
  ins     : W32
  st      : TkState := .sent
  /-- Times the request was sent without an answer (R86). -/
  tries   : Nat := 0
  backoff : Nat := 0
  /-- Ticket number and ticketing endpoint, and the named ticket of a shadow (R82). -/
  ticket  : Nat := 0
  endp    : BitVec 32 := 0
  named   : Nat := 0
  /-- Own REPLAY arrived before the named ticket's (R241). -/
  held    : Bool := false
  sub     : Nat := 0
  status  : BitVec 4 := 0
  /-- The scope of the acquire the access makes when it completes. -/
  acq     : Option Scope := none
  /-- Where `rget` writes: the capability, by its cursor, and the length. -/
  dst     : Option (Cap × Nat) := none
  /-- The register is a vector, its bytes that are written, the bytes of a scalar value, and whether it is sign-extended. -/
  vec     : Bool := false
  vmask   : W64 := -1
  size    : Nat := 8
  sext    : Bool := false
  /-- The thread waits for the reply of a non-waiting full/empty access, with this success register (R325). -/
  ff      : Option F6 := none
  /-- Cycles of the first send, the last send and the last packet received; whether the access is parked at its owner, and the first
  send of the PROBE that is unanswered (R86). -/
  first   : Nat := 0
  sent    : Nat := 0
  heard   : Nat := 0
  parked  : Bool := false
  probe   : Option Nat := none
deriving DecidableEq, Repr

/-- A call queued at a team's message engine (R89). -/
structure Call where
  handler : Cap
  args    : List W64
  caller  : BitVec 32
  ctx     : BitVec 6
  tag     : BitVec 10 := 0
  gen     : BitVec 4 := 0
deriving DecidableEq, Repr

/-- A tenure a team holds or waits for (R198). -/
structure TenEntry where
  slot   : Nat
  region : Nat
  rect   : Rect
  write  : Bool
  held   : Bool
deriving DecidableEq, Repr

/-- A waiting full/empty access to local memory (R163): of a thread of the team, or a request of the message engine's list. -/
structure LocalWait where
  addr : Nat
  who  : Waiter
deriving DecidableEq, Repr

/-- A context descriptor (R111). -/
structure CtxDesc where
  datacap  : Cap := Cap.zero
  codecap  : Cap := Cap.zero
  savebase : Nat := 0
  trapvec  : W64 := 0
  ptroot   : Nat := 0
  saven    : Nat := 0
  ckey     : BitVec 10 := 0
  ceil     : Nat := 0
  v        : Bool := false
deriving DecidableEq, Repr

/-- A launch record (R112). -/
structure LRec where
  format   : BitVec 8 := 1
  prio     : Nat := 0
  diemask  : BitVec 8 := 0xFF
  restart  : Bool := false
  cores    : Bool := false
  calls    : Bool := false
  logged   : Bool := false
  irq      : Bool := false
  cver     : Bool := false
  matrix   : Bool := false
  /-- Teams: NTEAM + 1. -/
  n        : Nat := 1
  /-- Threads per team: NTHR + 1. -/
  nthr     : Nat := 1
  /-- Declared vector rows: VROWS + 1. -/
  vrows    : Nat := 1
  groupmask : BitVec 32 := 0xFFFFFFFF
  localk   : Nat := 0
  stack    : Nat := 0
  gates    : List W64 := []
  ngate    : Nat := 0
  entry    : W64 := 0
  dbase    : W64 := 0
  dlen     : W64 := 0
  ctarget  : W64 := 0
  cval     : W64 := 0
  creaders : BitVec 16 := 0
  args     : List W64 := []
  /-- Every reserved field is zero. -/
  reservedOk : Bool := true
deriving DecidableEq, Repr

/-- A bound core: its team, registers and the units that serve it (R116, R120, R137). -/
structure Core where
  /-- Die × 1,024 + region × 16 + quad × 4 + core: `LOC`[12:0] (R154). -/
  id      : Nat
  launch  : BitVec 16
  team    : Nat
  ctx     : BitVec 6
  /-- The launch's record and context descriptor as read at acceptance (R111). -/
  lrec    : LRec := {}
  desc    : CtxDesc := {}
  /-- The core's issue pointer (R133). -/
  p       : BitVec 3 := 0
  w       : Vector Cap 16 := Vector.replicate 16 Cap.zero
  /-- Pending team registers (R140). -/
  wpend   : BitVec 16 := 0
  thr     : Vector Thread 8 := Vector.replicate 8 {}
  vrows   : Nat := 1
  ceil    : Nat := 1
  mem     : Memory := {}
  /-- 4 KiB blocks of local memory written since the launch (R124). -/
  dirty   : List Nat := []
  logring : W64 := 0
  loghead : W64 := 0
  logtail : W64 := 0
  logdrop : Nat := 0
  ranges  : List LogRange := []
  tickets : List Ticket := []
  /-- The tag tried first for the next request; the generation of each tag that has advanced (R86). -/
  tagNext : Nat := 0
  tagGen  : List (Nat × BitVec 4) := []
  /-- Next SEQ of each flow (R79): key and thread. -/
  seqs    : List (BitVec 32 × Nat × BitVec 16) := []
  /-- `LATE` (R88). -/
  late    : W64 := 0
  engC    : List EngCmd := []
  engG    : List EngCmd := []
  /-- The running command of each engine. -/
  runC    : Option EngCmd := none
  runG    : Option EngCmd := none
  calls   : List Call := []
  /-- In parking order. -/
  localWaits : List LocalWait := []
  tenures : List TenEntry := []
  icache  : List ICLine := []
  /-- Armed checker mismatches, and vector instructions checked (R156, R158). -/
  sundog  : Nat := 0
  sundogC : Nat := 0
  /-- The cycle until which the vector read stage is occupied (R143), and the vector instructions that the datapath has accepted in an
  arithmetic cycle (R26). -/
  vbusy   : Nat := 0
  vpipe   : Nat × Nat := (0, 0)
  /-- Accumulators `z0`–`z3`, 1,024 words each, row-major; those never written are all zero (R367). -/
  z       : Vector (List W32) 4 := Vector.replicate 4 []
  /-- Pending accumulators (R367). -/
  zpend   : BitVec 4 := 0
  /-- Inputs taken by a restartable team (R128): module, name and generation, version, units claimed; and its outputs: module, name, version. -/
  rin     : List (BitVec 16 × Nat × Nat × Nat) := []
  rout    : List (BitVec 16 × Nat × Nat) := []
  /-- Outputs of failed runs of the team. -/
  rprev   : List (BitVec 16 × Nat × Nat) := []
  /-- The team is being saved: nothing of it issues (R124); the launch that its core is vacated for (R123). -/
  stopping : Bool := false
  saveFor : Option (BitVec 16) := none
  /-- Step 4 of the save (R124): the slot allocated, modules whose holders have not acknowledged the re-pointing, the cycle it began. -/
  saveSlot : Option (Nat × List (BitVec 16) × Nat) := none
  /-- Exit is in progress (R119). -/
  exiting : Bool := false
deriving DecidableEq, Repr

/-- What a core counts from its reset on, whichever team it runs, while none is bound (R88, R133, R156): the issue pointer, `LATE`, vector
instructions checked. -/
structure CoreUnit where
  id      : Nat
  p       : BitVec 3 := 0
  late    : W64 := 0
  sundogC : Nat := 0
deriving DecidableEq, Repr

/-! ## Quads and caches -/

/-- A 64-byte block with its metadata (R41, R42): data, the key it was written under (none is clear), full/empty bits, tags, POISON.
The data under its key stands for the ciphertext of R105. -/
structure Blk where
  data   : V512 := 0
  enc    : Option (W128 × W128) := none
  fe     : BitVec 8 := 0xFF
  tags   : BitVec 4 := 0
  poison : Bool := false
deriving DecidableEq, Repr

/-- A line of a quad's L1 (R166): tag, physical line, logged bit, data, dirty bytes, FE bits, granule tags, and whether the quad owns
the line for narrow atomics (R175), and POISON (R42). DEDUCED, log 21. -/
structure L1Line where
  ctx    : BitVec 6
  va     : Nat
  pa     : Nat
  way    : Nat := 0
  logged : Bool := false
  data   : V512
  dirty  : W64 := 0
  fe     : BitVec 8 := 0xFF
  tags   : BitVec 4 := 0
  own    : Bool := false
  poison : Bool := false
  /-- Key index of the translation that filled it (R105). -/
  key    : BitVec 10 := 0
  /-- Privilege of the last store, for the check at the port (R104). -/
  priv   : Bool := false
deriving DecidableEq, Repr

/-- A TLB entry (R167): context, level (0 for 64 KiB, 1 for 64 MiB, 2 for 64 GiB), page number at that level, leaf words. -/
structure TlbEntry where
  ctx   : BitVec 6
  level : Nat
  page  : Nat
  leaf  : W64
  comp  : W64
deriving DecidableEq, Repr

/-- A matrix command in a core's dispatch queue (R155): the core, the thread that stays at it, the accumulators it writes. -/
structure MatEntry where
  core : Nat
  thr  : ThrId
  accs : List (BitVec 2) := []
deriving DecidableEq, Repr

/-- What a matrix unit does (R155): a remote command; or a thread's command, which holds the unit until it can proceed, or while the cycles
of K-steps that have been applied run out. -/
inductive UnitAct where
  | cmd (c : MatrixCmd)
  | thread (e : MatEntry) (running : Bool)
deriving DecidableEq, Repr

/-- A quad (R155, R166, R167): L1, TLB and matrix unit. -/
structure Quad where
  id    : Nat
  l1    : List L1Line := []
  tlb   : List TlbEntry := []
  /-- The command in progress, and the K-steps that a remote one has applied. -/
  act   : Option UnitAct := none
  steps : Nat := 0
  /-- The four cores' dispatch queues, in order of arrival. -/
  queue : List MatEntry := []
  /-- The queue of remote commands (R378). -/
  remq  : List MatrixCmd := []
  /-- The queue the unit served last (R155): a core's place in the quad, or 4. -/
  arb   : Nat := 4
deriving DecidableEq, Repr

/-- A line of a die's L2 (R169): way, block, dirty, the master that dirtied it (its context is the owner tag). -/
structure L2Line where
  pa     : Nat
  way    : Nat := 0
  blk    : Blk := {}
  dirty  : Bool := false
  writer : Master := ⟨0, false, 0⟩
deriving DecidableEq, Repr

/-- A line of a memory-side slice (R46): way, block, dirty. -/
structure SLine where
  pa    : Nat
  way   : Nat := 0
  blk   : Blk := {}
  dirty : Bool := false
deriving DecidableEq, Repr

/-! ## Dies -/

/-- Phases of a motion (R56, R62). -/
inductive MPhase where
  | prep
  | copy
  | commit
  /-- Aborted, with its cause: the leaf names the source again and the shootdowns are under way. -/
  | abort (cause : Nat)
deriving DecidableEq, Repr

/-- A motion record (R55, R56). -/
structure Motion where
  /-- Source and destination frames (physical addresses) and the leaf's address. -/
  src   : Nat
  dst   : Nat
  leaf  : Nat
  /-- Word 0 of the leaf as Drift last wrote it. -/
  leafw : W64 := 0
  phase : MPhase := .prep
  w     : Nat := 0
  dirty : W32 := 0
  lost  : W32 := 0
  start : Nat := 0
  /-- Held accesses, oldest first, and the threads whose access is held (R57). -/
  held  : List PortAccess := []
  heldThr : List ThrId := []
  /-- Threads whose held access the source serves (R57). -/
  passed : List ThrId := []
  /-- Quads whose shootdown has not been acknowledged. -/
  waiting : List Nat := []
deriving DecidableEq, Repr

/-- A line of the capacity cache (R48): the 2 KiB line's address, its way, its valid sectors with their blocks, SDIRTY of each, and the
sectors accessed while it was resident (R49). -/
structure CapLine where
  base    : Nat
  way     : Nat := 0
  sectors : List (Nat × Blk) := []
  dirty   : W32 := 0
  seen    : W32 := 0
deriving DecidableEq, Repr

/-- A ticket held at a gateway (R82): gateways 0–2 are a die's link gateways, 3–8 its Cirrus gateways. -/
structure GwTicket where
  gw    : Nat
  num   : Nat
  req   : Packet
  /-- The endpoint that answered TICKET: the gateway, or the Zenith core that holds a saved team (R82). -/
  endp  : BitVec 32
  /-- It waits for a page-fault service; otherwise for a team, or for the ticket it shadows. -/
  svc   : Bool
  /-- The ticket whose replay must come first (a shadow). -/
  named : Option Nat
  /-- REPLAY `OK` has been sent and the replay has not arrived (R83). -/
  told  : Bool := false
  /-- The save slot of the saved team for which the Zenith core waits (R125). -/
  slot  : Option (BitVec 16) := none
deriving DecidableEq, Repr

/-- A flow's expected SEQ at a check gateway (R79): requester, thread, key. -/
structure Flow where
  gw   : Nat
  src  : BitVec 32
  thr  : BitVec 3
  key  : BitVec 32
  seq  : BitVec 16
  last : Nat := 0
deriving DecidableEq, Repr

/-- A reply cache entry (R87): the gateway, or 16 more than a message engine's place in its die; the request's identity; its reply. -/
structure CachedReply where
  gw    : Nat
  src   : BitVec 32
  tag   : BitVec 10
  gen   : BitVec 4
  /-- The save slot of the saved team that the Zenith core `src` answers for (R125). -/
  slot  : Option (BitVec 16) := none
  /-- `none` while the request is parked. -/
  reply : Option Packet := none
  /-- The cycle of its last reply. -/
  last  : Nat := 0
deriving DecidableEq, Repr

/-- A waiting full/empty access in a port's retry list (R85, R174). -/
structure PortWait where
  pa   : Nat
  acc  : PortAccess
deriving DecidableEq, Repr

/-- The state of a link (R70–R73, R92). Counts per buffer set are by hop class (0, 1) and set: 0 request class A, 1 request class B,
2 reply, 3 notice (R71). -/
structure Link where
  id     : LinkId
  up     : Bool := true
  /-- UCIe modules or Cirrus lanes that have failed. -/
  bad    : List Nat := []
  /-- The port and lane that a gateway pair's spare lane serves, in the record of the pair's lower port. -/
  spare  : Option (Nat × Nat) := none
  retrain : Bool := false
  /-- The FSEQ expected next, and of the next new flit. -/
  fseqIn : BitVec 16 := 0
  fseqOut : BitVec 16 := 0
  /-- Flits are discarded until the expected one arrives; NAKs sent for it; NAKs received for the oldest flit not acknowledged. -/
  drops  : Bool := false
  naks   : Nat := 0
  naksIn : Nat := 0
  /-- A NAK, and the acknowledgement of a flit with content, are still to be sent. -/
  nakDue : Bool := false
  ackDue : Bool := false
  /-- Flits sent and not acknowledged, oldest first; packets that wait for room or a permit; markers that wait for room. -/
  replay : List Flit := []
  queue  : List Carried := []
  marks  : List Mark := []
  /-- The hop class whose permits the next flit returns, when both have some to return (R71). -/
  hopTurn : Bool := false
  /-- Permits spent, and permits of freed slots not yet returned. -/
  spent  : List (Nat × Nat × Nat) := []
  owed   : List (Nat × Nat × Nat) := []
deriving DecidableEq, Repr

/-- A page-fault service (R232). -/
structure Service where
  num     : Nat
  ctx     : BitVec 6
  page    : Nat
  threads : List ThrId := []
  /-- Gateway tickets that wait for it. -/
  tickets : List (Nat × Nat) := []
  /-- Engines that wait for it: core, engine and address (R177); quads whose matrix unit waits for it (R379). -/
  engines : List (Nat × Engine × Nat) := []
  units   : List Nat := []
  /-- The parked translations of completion actions: of a rejected record, and its number or launch (R410). -/
  finishing : List (Bool × BitVec 16) := []
deriving DecidableEq, Repr

/-- States of a version (R189). -/
inductive VState where
  | publishing
  | live
  | reclaimed
deriving DecidableEq, Repr

/-- A version entry (R189): state, unclaimed consuming reads (`none` for persistent), reservations, holds, drop flag, data. -/
structure Version where
  ver     : Nat
  st      : VState
  readers : Option Nat := none
  resv    : Nat := 0
  holds   : Nat := 0
  /-- Holds of loads in flight. -/
  flight  : Nat := 0
  /-- The publisher whose publish was accepted while it was parked. -/
  owner   : Option ThrId := none
  drop    : Bool := false
  /-- The pool step that holds the frame, or the tile-frame page (R170, R194). -/
  step    : Option Nat := none
  page    : Option Nat := none
  /-- The generation of its name, once the name is freed. -/
  gen     : BitVec 6 := 0
  data    : List V512 := []
deriving DecidableEq, Repr

/-- A waiter on a version, in order of registration (R193). -/
structure VWait where
  ver  : Nat
  who  : Waiter
  kind : VWaitKind
deriving DecidableEq, Repr

/-- An allocated name (R188). -/
structure TName where
  name : Nat
  gen  : BitVec 6 := 0
  ctx  : BitVec 6 := 0
  /-- Granules of a tile. -/
  gran : Nat := 1
  rows : Nat := 1
  cols : Nat := 1
  fmt  : BitVec 3 := 0
  w    : Nat := 0
  live : Bool := true
  vers : List Version := []
  /-- Versions of earlier allocations that are being published, that loads in flight hold, or that restartable teams have claimed (R188). -/
  dead : List Version := []
  waits : List VWait := []
deriving DecidableEq, Repr

/-- A tenure record at the directory (R198–R200): holder, rectangle, whether held or queued, in queue order. -/
structure TenRec where
  launch : BitVec 16
  team   : Nat
  thr    : Nat
  slot   : Nat
  rect   : Rect
  write  : Bool
  held   : Bool
  /-- A one-shot access (R202). -/
  oneShot : Bool := false
deriving DecidableEq, Repr

/-- A halo subscription (R204): the team, the rectangle's side and width, where the copy and the halo word lie, the refresh count. -/
structure HaloSub where
  launch : BitVec 16
  team   : Nat
  rect   : Rect
  side   : Nat
  width  : Nat
  copyAt : Nat
  wordAt : Nat
  count  : Nat := 0
deriving DecidableEq, Repr

/-- A tensor region (R197). -/
structure TRegion where
  num    : Nat
  gen    : BitVec 6 := 0
  ctx    : BitVec 6 := 0
  base   : Nat := 0
  rows   : Nat := 1
  cols   : Nat := 1
  stride : Nat := 64
  fmt    : BitVec 3 := 0
  live   : Bool := true
  recs   : List TenRec := []
  splits : List (Rect × Nat × Nat) := []
  halos  : List HaloSub := []
deriving DecidableEq, Repr

/-- States of a launch (R117). -/
inductive LPhase where
  | gated
  | dispatching
  | running
  | free
deriving DecidableEq, Repr

/-- A halo refresh on its way to local memory (R204): where the copy lies, its bytes, where the halo word lies, the count. -/
structure HaloCopy where
  copyAt : Nat
  size   : Nat
  data   : Nat
  wordAt : Nat
  count  : Nat
deriving DecidableEq, Repr

/-- A saved team (R124, R125): its core's record, with threads, team registers, tables and local memory. -/
structure Saved where
  team  : Nat
  image : Core
  slot  : Nat
  /-- Notices held for it (R125). -/
  held  : List Instr := []
  /-- Halo refreshes held for it (R204). -/
  halos : List HaloCopy := []
  /-- The core it is being restored to, and modules whose holders have not acknowledged the re-pointing (R126). -/
  core  : Option Nat := none
  asked : Option (List (BitVec 16)) := none
deriving DecidableEq, Repr

/-- A launch-table entry at the home die (R116, R117, R120). -/
structure Launch where
  /-- The `LAUNCH` value, bits [15:0]. -/
  id     : BitVec 16
  ctx    : BitVec 6
  lrec   : LRec
  desc   : CtxDesc
  phase  : LPhase := .gated
  /-- Gates whose wait has not been served (R118), and those of them that are registered at other modules. -/
  gatesLeft : Nat := 0
  gatesOut : List W64 := []
  prio   : Nat := 0
  /-- The next team to bind, completion releases counted, teams bound and saved. -/
  next   : Nat := 0
  done   : Nat := 0
  saved  : List Saved := []
  /-- The remote key of the launch window (R116). -/
  key    : BitVec 32 := 0
  /-- Its place in acceptance order (R120). -/
  seq    : Nat := 0
  /-- Times the registration of its gates or its completion publish was refused (R193). -/
  tries  : Nat := 0
  /-- Restarts of each team, and teams to run again from their initial state with the core of the failed run and the outputs of failed
  runs, first come first (R128). -/
  restarts : List (Nat × Nat) := []
  redo   : List (Nat × Nat × List (BitVec 16 × Nat × Nat)) := []
  /-- Cores reserved for it (R120, R122). -/
  reserved : List Nat := []
  /-- Teams that have exited (R164). -/
  exited : List Nat := []
  /-- Result value of the completion action (R390, R410). -/
  result : W64 := 0
  /-- The completion action is under way (R117, R410), and how often it has been begun with a new value. -/
  ending : Bool := false
  attempt : Nat := 0
deriving DecidableEq, Repr

/-- A rejected record whose failure value is being delivered (R114, R410). -/
structure Reject where
  num   : BitVec 16
  ctx   : BitVec 6
  lrec  : LRec
  desc  : CtxDesc
  value : W64
deriving DecidableEq, Repr

/-- One die. -/
structure Die where
  /-- Fuse, self-test and discovery (R20, R31, R34): sites fused off, failed, and those that have answered. -/
  fused   : List Nat := []
  failed  : List Nat := []
  answered : List Nat := []
  /-- Logical quad of each good physical quad, in order, and the spares (R34, R35). -/
  quadMap : List Nat := []
  spares  : List Nat := []
  /-- Logical cores moved to a spare quad: number and place (R35). -/
  moved   : List (Nat × Nat) := []
  /-- Repairs kept in standby flash (R35, R249). -/
  repairs : List Nat := []
  /-- Quarantined sets and ways: the level's code, its unit's endpoint index, set and way (R411); clean-line errors seen once, with their
  cycle (R249). -/
  quarantine : List (Nat × Nat × Nat) := []
  cleanErr : List ((Nat × Nat × Nat) × Nat) := []
  /-- Corrected errors of a frame, by their cycles (R250). -/
  corrected : List (Nat × List Nat) := []
  sealedCores : List Nat := []
  dieHot  : Bool := false
  /-- MAXMOT 16, HALVE, EN. -/
  dctl    : W64 := 0x10000003
  /-- MTIME 10, DEMO 4, PROMO 64. -/
  dthr    : W64 := 0x0A0440
  dftb    : W64 := 0
  aborts  : Nat := 0
  freeHbm : List Nat := []
  freeLp  : List Nat := []
  /-- Free CXL frames known to this die's Drift (R52). -/
  freeCxl : List Nat := []
  retired : List Nat := []
  pinned  : List Nat := []
  motions : List Motion := []
  /-- Sample counters of each station, the most recently used first: endpoint index, frame, count (R51). -/
  samples : List (Nat × Nat × Nat) := []
  /-- Lines of the memory-side slices, the most recently used first (R46). -/
  slice   : List SLine := []
  /-- Capacity-cache lines, the most recently used first, and the footprint tables (R48, R49). -/
  cap     : List CapLine := []
  foot    : List (Nat × W32) := []
  /-- TKLIM 1,000, FINAL 100. -/
  rtctl   : W64 := 0x03E800064000
  scopes  : List (Nat × Nat) := []
  /-- Topology discovery in progress: the smallest hop counts found (R91). -/
  topo    : Option (List (Nat × Nat)) := none
  /-- Region-table replicas: gateway, index, entry (R76, R78). -/
  regions : List (Nat × Nat × Region) := []
  gwTickets : List GwTicket := []
  flows   : List Flow := []
  replies : List CachedReply := []
  waits   : List PortWait := []
  lull    : Bool := false
  /-- Requests that the Lull holds back, in order (R92). -/
  lullHeld : List Packet := []
  l2cfg   : W64 := 0
  /-- Pool steps whose frames are usable (R170). -/
  poolUse : Nat := 0
  l2part  : Vector W64 2 := Vector.replicate 2 0
  /-- Lines of the L2, the most recently used first (R169). -/
  l2      : List L2Line := []
  herr    : W64 := 0
  access  : List (Nat × Nat × AccessEntry) := []
  fqbase  : W64 := 0
  fqhead  : W64 := 0
  fqtail  : W64 := 0
  fqctl   : W64 := 0
  fqdrop  : Nat := 0
  services : List Service := []
  /-- Next service number. -/
  svcNext : Nat := 0
  /-- Failure values of rejected records that wait for a service (R410). -/
  rejects : List Reject := []
  launches : List Launch := []
  /-- Generation of each launch-table index (R116), and `RRLAST` of each priority, by the launch's place in acceptance order (R120). -/
  lgen    : List (Nat × BitVec 5) := []
  rrlast  : List (Nat × Nat) := []
  names   : List TName := []
  /-- Data of publishes from other modules whose request has not arrived: sender, tag, words. -/
  tileIn  : List (BitVec 32 × BitVec 10 × List W64) := []
  /-- Tile-frame pages (R194). -/
  tilePages : List Nat := []
  tregions : List TRegion := []
deriving DecidableEq, Repr

/-! ## The module -/

/-- What leaves the module or answers an input: a flit, an MSI-X message, a value read, also with the poisoned
attribute, a report, a refusal. -/
inductive OutMsg where
  | flit (l : LinkId) (f : Flit)
  | msix (port vec : Nat)
  | value (v : W64)
  | poisoned (v : W64)
  | bytes (b : List Byte)
  | refused
deriving DecidableEq, Repr

/-- The mailbox (R108): `MBBUF`, `MBSTAT`, and the staging area with its opened length. -/
structure Mailbox where
  buf   : List Host.Cell := []
  rlen  : Nat := 0
  err   : BitVec 8 := 0
  done  : Bool := false
  busy  : Bool := false
  image : Option (List Host.Cell) := none
  ilen  : Nat := 0
deriving DecidableEq, Repr

/-- The MSI-X table at its PCIe default: every vector masked (PRESUMED, log 42). -/
def msixTable : List Host.Cell := (List.range 65).map fun v => (16 * v + 12, 1)

/-- A host port (R94, R96): its link, MSI-X state and pending bits. -/
structure Port where
  up     : Bool := false
  msixEn : Bool := true
  table  : List Host.Cell := msixTable
  pend   : List Nat := []
deriving DecidableEq, Repr

/-- The whole module. -/
structure State where
  -- the standby domain
  plim   : Nat := 3000
  throttle : Nat := 0
  /-- The cycle of the last change of the arithmetic clock, with which one of its edges falls (R26). -/
  clockAt : Nat := 0
  psum   : Nat := 0
  pcount : Nat := 0
  /-- Main power, held in reset, and what shut the module down: 1 + die, 9 + stack, 0 nothing (R30). -/
  power  : Bool := false
  held   : Bool := false
  shut   : Nat := 0
  mstat  : W64 := 0
  modid  : BitVec 16 := 0xFFFF
  cccur  : BitVec 4 := 2
  ccnext : BitVec 4 := 2
  /-- The last temperature reported by each die, and by each stack at 8 + its number (R28, R29, R110). -/
  temps  : List (Nat × Nat) := []
  /-- Actions under way at an HBM4 stack (R29): 1 doubled refresh, 2 halved bandwidth. -/
  hbmHot : List (Nat × Nat) := []
  fw     : List Byte := []
  fwStaged : Option (List Byte) := none
  /-- Attestation requests, the one being served first: the nonce, and whether the mailbox asked (R109). -/
  attest : List (BitVec 128 × Bool) := []
  -- the module
  ctxtb  : W64 := 0
  hctx   : Vector W64 64 := Vector.replicate 64 0
  ports  : Vector Port 2 := Vector.replicate 2 {}
  mbox   : Mailbox := {}
  /-- Key values by index (R105). -/
  keys   : List (Nat × W128 × W128) := []
  /-- Blocks written under a key: block, the key's two halves (R106). -/
  enc    : List (Nat × W128 × W128) := []
  /-- CXL ranges that the fabric manager has bound or released, the last one first: bound, base and length (R94). -/
  cxlRanges : List (Bool × Nat × Nat) := []
  /-- Blocks with an uncorrectable error not yet detected (R44). -/
  ueMem  : List Nat := []
  mem    : Memory := {}
  dies   : Vector Die 8 := Vector.replicate 8 {}
  quads  : List Quad := []
  cores  : List Core := []
  /-- Counts of the cores that no team is bound to, and the cycle of the cores' last reset (R317, `CLOCK`). -/
  units  : List CoreUnit := []
  coreReset : Nat := 0
  links  : List Link := []
  /-- Entries of a mesh channel that its receiver has refused and not yet got again (R150): the sender's module, launch and team, thread × 8 +
  queue, the count. -/
  refusing : List (BitVec 16 × W64 × Nat × Nat) := []
  -- the model's own fields
  now    : Nat := 0
  /-- Launches accepted so far, and armed launch slots not yet taken, in arm order (R102, R120). -/
  accepted : Nat := 0
  armed  : List (BitVec 6 × Nat) := []
  events : List Instr := []
  timers : List (Nat × Instr) := []
  outbox : List OutMsg := []
  turn   : Nat := 0
  cur    : Nat × Nat := (0, 0)
  stalled : Bool := false
  fresh  : Nat := 0
deriving DecidableEq, Repr

/-- Why the machine stops with a fault: for no reason. The spec gives every step an effect, a trap, a record or an answer of its own
(R232, R233, R251), and names no state in which the module ceases to run. -/
inductive Fault
deriving DecidableEq, Repr

/-- Why the machine refuses. -/
inductive Refusal where
  /-- The instruction has no meaning yet. Raised by the arms of `exec` for what is not modelled. Safe. -/
  | notModelled (mnemonic : String)
deriving DecidableEq, Repr

/-- The module right after standby power comes up (R30, R75): the main rails are off, nothing is bound, memory lists nothing. DESIGN CHOICE, log 1. -/
def State.reset : State := {}

/-- The outcome of a step of this machine. -/
abbrev Out := Host.Outcome State Fault Refusal

end Sys2Proof.Machine
end

