-- ==== Sys2Proof/Machine/MemOps.lean ====
section
/-!
DEFINITION. Memory as a list in canonical form (R41): bytes that differ from zero by rising address, and the sets of empty
words, tagged granules and poisoned blocks. An unlisted byte reads zero, its word full, its granule untagged (R32).
-/
namespace Sys2Proof.Machine

/-! ## Sorted sets of numbers -/

/-- `x` inserted in a rising list. -/
def setIns : List Nat → Nat → List Nat
  | [], x => [x]
  | y :: l, x => if x < y then x :: y :: l else if x = y then y :: l else y :: setIns l x

/-- `x` removed. -/
def setDel : List Nat → Nat → List Nat
  | [], _ => []
  | y :: l, x => if x = y then l else y :: setDel l x

/-- Whether a list of numbers rises strictly. -/
def rising : List Nat → Bool
  | [] => true
  | [_] => true
  | x :: y :: l => decide (x < y) && rising (y :: l)

/-- `x` made a member or not. -/
def setPut (l : List Nat) (x : Nat) (b : Bool) : List Nat := if b then setIns l x else setDel l x

/-! ## Bytes -/

/-- The byte at an address; an unlisted one is zero. -/
def cellGet : List Host.Cell → Nat → Byte
  | [], _ => 0
  | (k, v) :: l, a => if a = k then v else cellGet l a

/-- The byte at an address replaced; a zero byte is not listed. -/
def cellPut : List Host.Cell → Nat → Byte → List Host.Cell
  | [], a, b => if b = 0 then [] else [(a, b)]
  | (k, v) :: l, a, b =>
    if a < k then (if b = 0 then (k, v) :: l else (a, b) :: (k, v) :: l)
    else if a = k then (if b = 0 then l else (a, b) :: l)
    else (k, v) :: cellPut l a b

/-- Addresses rise strictly and no listed byte is zero. -/
def cellsWf : List Host.Cell → Bool
  | [] => true
  | [(_, v)] => v != 0
  | (k, v) :: (k', v') :: l => v != 0 && decide (k < k') && cellsWf ((k', v') :: l)

/-- The canonical form. -/
def Memory.wf (m : Memory) : Bool := cellsWf m.cells && rising m.empty && rising m.tags && rising m.poison

def Memory.byte (m : Memory) (a : Nat) : Byte := cellGet m.cells a
def Memory.setByte (m : Memory) (a : Nat) (b : Byte) : Memory := { m with cells := cellPut m.cells a b }

/-- `n` bytes from `a`, little-endian (R7). -/
def Memory.read (m : Memory) (a : Nat) : Nat → Nat
  | 0 => 0
  | n + 1 => (m.byte a).toNat + 256 * Memory.read m (a + 1) n

/-- `n` bytes from `a` replaced by those of `v`, little-endian. -/
def Memory.write (m : Memory) (a : Nat) : Nat → Nat → Memory
  | 0, _ => m
  | n + 1, v => Memory.write (m.setByte a (BitVec.ofNat 8 v)) (a + 1) n (v / 256)

/-! ## Metadata -/

/-- The full/empty bit of the word that holds byte `a`. -/
def Memory.full (m : Memory) (a : Nat) : Bool := !m.empty.contains (a / 8)
def Memory.setFull (m : Memory) (a : Nat) (full : Bool) : Memory := { m with empty := setPut m.empty (a / 8) (!full) }
/-- The tag of the granule that holds byte `a`. -/
def Memory.tag (m : Memory) (a : Nat) : Bool := m.tags.contains (a / 16)
def Memory.setTag (m : Memory) (a : Nat) (t : Bool) : Memory := { m with tags := setPut m.tags (a / 16) t }
/-- Whether the block that holds byte `a` is poisoned. -/
def Memory.bad (m : Memory) (a : Nat) : Bool := m.poison.contains (a / 64)
def Memory.setBad (m : Memory) (a : Nat) (b : Bool) : Memory := { m with poison := setPut m.poison (a / 64) b }

/-- The tags of the granules that `n` bytes from `a` touch, cleared (R173). -/
def Memory.untag (m : Memory) (a n : Nat) : Memory :=
  if n = 0 then m
  else (List.range ((a + n - 1) / 16 - a / 16 + 1)).foldl (fun m k => m.setTag (16 * (a / 16 + k)) false) m

/-- A plain write (R173): bytes stored, tags of the granules cleared, full/empty bits unchanged. -/
def Memory.store (m : Memory) (a n v : Nat) : Memory := (m.untag a n).write a n v

/-- A 16-byte granule with its tag. -/
def Memory.readCap (m : Memory) (a : Nat) : Cap := ⟨BitVec.ofNat 128 (m.read a 16), m.tag a⟩
def Memory.writeCap (m : Memory) (a : Nat) (c : Cap) : Memory := (m.write a 16 c.bits.toNat).setTag a c.tag

/-- The pieces of `n` bytes from `a` that lie each in one 64-byte block; `f` bounds their number. -/
def blocks : Nat → Nat → Nat → List (Nat × Nat)
  | 0, _, _ => []
  | f + 1, a, n =>
    let k := 64 - a % 64
    if n = 0 then [] else if n ≤ k then [(a, n)] else (a, k) :: blocks f (a + k) (n - k)

/-- The pieces of `n` bytes from `a` by 64-byte block. -/
def blocksOf (a n : Nat) : List (Nat × Nat) := blocks (n / 64 + 2) a n

/-- The low `n` bytes of `v` from byte `k`. -/
def sliceBytes (v k n : Nat) : Nat := v / 2 ^ (8 * k) % 2 ^ (8 * n)

/-- `n` bytes of `v` at byte `k` replaced by `x`. -/
def putBytes (v k n x : Nat) : Nat :=
  v % 2 ^ (8 * k) + 2 ^ (8 * k) * (x % 2 ^ (8 * n)) + 2 ^ (8 * (k + n)) * (v / 2 ^ (8 * (k + n)))

/-- Finding and replacing in lists of records. -/
def update {α : Type} (p : α → Bool) (f : α → α) : List α → List α
  | [] => []
  | x :: l => if p x then f x :: l else x :: update p f l

end Sys2Proof.Machine
end

