-- ==== Sys2Proof/Machine/Sm4.lean ====
section
/-!
DEFINITION. The cipher of R105: SM4 in XTS mode on a 64-byte block, with the block's number as tweak. The spec names the cipher and
does not print it. PRESUMED, log 43: SM4 of GB/T 32907, XTS of IEEE 1619; a number's lowest byte is the first of its string.
-/
namespace Sys2Proof.Sm4
open Sys2Proof

/-- The S-box, sixteen entries a row, the lowest entry of a row in its lowest byte. PRESUMED, log 43. -/
def sboxRows : List Nat :=
  [0x052CFB28C214B616B73DE1CCFEE990D6, 0x99068649261344AAC304BE2A769A672B, 0x62ACCFED430B54337A98EF91F450429C,
   0xA63F8F75FA94DF8095E808C9A91CB3E4, 0xA84F85E6193C5983BA1773F3FCA70747, 0x359D56704B0FEBF88BDA6471B2816B68,
   0x877821013B7C2225A2D158635E0E241E, 0x9EC8C4A0E702364C5227D39F574600D4, 0xA11561F9CEF2F7A3B538C740D28ABFEA,
   0xE3B18CF5303293AD551A349BA45DAEE0, 0x6F4E530DAB2329C060CA66822EE2F61D, 0x515B6C6D726AFF032F8EFDDE4537DBD5,
   0xD85A101F415CD9117FBCDDBB92AF1B8D, 0xB0B4E5B812D0742DBD7BCDA58831C10A, 0x84C66EC509F1B9657E77960C4A976989,
   0x4839CBD73E5FEE79204DDC3AEC7DF018]

def sbox (b : Nat) : Nat := sboxRows.getD (b / 16) 0 / 256 ^ (b % 16) % 256

/-- The S-box on the four bytes of a word. -/
def tau (x : W32) : W32 :=
  let n := x.toNat
  BitVec.ofNat 32 (sbox (n % 256) + 2 ^ 8 * sbox (n / 2 ^ 8 % 256) + 2 ^ 16 * sbox (n / 2 ^ 16 % 256) + 2 ^ 24 * sbox (n / 2 ^ 24))

def lin (b : W32) : W32 := b ^^^ b.rotateLeft 2 ^^^ b.rotateLeft 10 ^^^ b.rotateLeft 18 ^^^ b.rotateLeft 24
def linKey (b : W32) : W32 := b ^^^ b.rotateLeft 13 ^^^ b.rotateLeft 23

/-- Four words, in the cipher's order. -/
abbrev Quad := W32 × W32 × W32 × W32

/-- The byte string of a number as four big-endian words, and back. PRESUMED, log 43. -/
def wordOf (v : W128) (i : Nat) : W32 :=
  let byte (k : Nat) : Nat := v.toNat / 2 ^ (8 * (4 * i + k)) % 256
  BitVec.ofNat 32 (2 ^ 24 * byte 0 + 2 ^ 16 * byte 1 + 2 ^ 8 * byte 2 + byte 3)
def split (v : W128) : Quad := (wordOf v 0, wordOf v 1, wordOf v 2, wordOf v 3)
def swap (w : W32) : Nat :=
  let n := w.toNat
  n / 2 ^ 24 + 2 ^ 8 * (n / 2 ^ 16 % 256) + 2 ^ 16 * (n / 2 ^ 8 % 256) + 2 ^ 24 * (n % 256)
def join (q : Quad) : W128 :=
  BitVec.ofNat 128 (swap q.1 + 2 ^ 32 * swap q.2.1 + 2 ^ 64 * swap q.2.2.1 + 2 ^ 96 * swap q.2.2.2)

/-- The constant of a round of the key schedule. -/
def ck (i : Nat) : W32 :=
  BitVec.ofNat 32 (2 ^ 24 * (28 * i % 256) + 2 ^ 16 * ((28 * i + 7) % 256) + 2 ^ 8 * ((28 * i + 14) % 256) + (28 * i + 21) % 256)

/-- `n` round keys from round `i`. -/
def rounds : Nat → Nat → Quad → List W32
  | 0, _, _ => []
  | n + 1, i, (a, b, c, d) =>
    let k := a ^^^ linKey (tau (b ^^^ c ^^^ d ^^^ ck i))
    k :: rounds n (i + 1) (b, c, d, k)

def keys (key : W128) : List W32 :=
  let (a, b, c, d) := split key
  rounds 32 0 (a ^^^ 0xA3B1BAC6, b ^^^ 0x56AA3350, c ^^^ 0x677D9197, d ^^^ 0xB27022DC)

/-- The cipher under a list of round keys; decryption takes them in the opposite order. -/
def crypt (ks : List W32) (v : W128) : W128 :=
  let (a, b, c, d) := ks.foldl (fun (q : Quad) k =>
    let (a, b, c, d) := q
    (b, c, d, a ^^^ lin (tau (b ^^^ c ^^^ d ^^^ k)))) (split v)
  join (d, c, b, a)

/-- The tweak of the next 16 bytes. -/
def nextTweak (t : W128) : W128 := if t.getLsbD 127 then (t <<< 1) ^^^ 0x87 else t <<< 1

/-- The `n` pieces of 16 bytes of a block, each between its tweak. -/
def xtsFrom (ks : List W32) : Nat → W128 → Nat → Nat
  | 0, _, _ => 0
  | n + 1, t, v => (crypt ks (BitVec.ofNat 128 v ^^^ t) ^^^ t).toNat + 2 ^ 128 * xtsFrom ks n (nextTweak t) (v / 2 ^ 128)

/-- A block of memory enciphered under a pair of keys, data key first, with its number as tweak (R105). PRESUMED, log 43. -/
def encrypt (k : W128 × W128) (blk : Nat) (v : V512) : V512 :=
  BitVec.ofNat 512 (xtsFrom (keys k.1) 4 (crypt (keys k.2) (BitVec.ofNat 128 blk)) v.toNat)

/-- And deciphered. -/
def decrypt (k : W128 × W128) (blk : Nat) (v : V512) : V512 :=
  BitVec.ofNat 512 (xtsFrom (keys k.1).reverse 4 (crypt (keys k.2) (BitVec.ofNat 128 blk)) v.toNat)

end Sys2Proof.Sm4
end

