-- ==== Sys2Proof/Machine/Phys.lean ====
section
/-!
DEFINITION. The physical side (R36–R51, R55–R57, R104–R106, R251): the address map, the stations, encryption, detection of
errors, the fault queue, access tables, where a moving page's granules lie, and the accesses at the common level.
-/
namespace Sys2Proof.Machine
open Sys2Proof

/-- Bits [hi:lo] of a number (R13). -/
def bitsN (v hi lo : Nat) : Nat := v / 2 ^ lo % 2 ^ (hi + 1 - lo)

/-- Core cycles of a time in microseconds (R6). -/
def us (n : Nat) : Nat := 1200 * n

/-- Module time in ns (R317): a core cycle is 5/6 ns. DEDUCED, log 19. -/
def State.timeNs (s : State) : Nat := s.now * 5 / 6

/-! ## The address map -/

/-- What lies at a physical address (R36). -/
inductive PaKind where
  | hbm (die : Nat)
  | lpddr (die : Nat)
  | cxl
  /-- Module registers, with the offset. -/
  | modReg (off : Nat)
  | dieReg (die off : Nat)
  | hole
deriving DecidableEq, Repr

/-- Whether the fabric manager has bound a CXL address to the module (R94). DEDUCED, log 41. -/
def State.cxlBound (s : State) (pa : Nat) : Bool := ((s.cxlRanges.find? fun (_, b, n) => decide (b ≤ pa ∧ pa < b + n)).map (·.1)).getD false

def paKind (s : State) (pa : Nat) : PaKind :=
  if pa < 2 ^ 39 then
    if pa % 2 ^ 36 < (64 - s.cccur.toNat) * 2 ^ 30 then .hbm (pa / 2 ^ 36) else .hole
  else if 2 ^ 40 ≤ pa ∧ pa < 3 * 2 ^ 40 then
    if pa % 2 ^ 38 < 192 * 2 ^ 30 then .lpddr ((pa - 2 ^ 40) / 2 ^ 38) else .hole
  else if 2 ^ 44 ≤ pa ∧ pa < 2 ^ 45 then (if s.cxlBound pa then .cxl else .hole)
  else if 0xF00000000000 ≤ pa ∧ pa < 0xF00100000000 then .modReg (pa - 0xF00000000000)
  else if 0xF00100000000 ≤ pa ∧ pa < 0xF00900000000 then
    .dieReg ((pa - 0xF00100000000) / 2 ^ 32) ((pa - 0xF00100000000) % 2 ^ 32)
  else .hole

def PaKind.isMem : PaKind → Bool
  | .hbm _ | .lpddr _ | .cxl => true
  | _ => false

/-- The home die of an address (R37, R38). -/
def homeDie (pa : Nat) : Nat :=
  if pa < 2 ^ 39 then pa / 2 ^ 36
  else if pa < 3 * 2 ^ 40 then (pa - 2 ^ 40) / 2 ^ 38
  else if bitsN pa 16 16 = 0 then 0 else 4

/-- The station that serves an address: its die and endpoint index (R38). -/
def station (s : State) (pa : Nat) : Nat × Nat :=
  if pa < 2 ^ 39 then
    let o := pa % 2 ^ 36
    (pa / 2 ^ 36, 1024 + (bitsN o 21 16 ^^^ bitsN o 27 22))
  else if pa < 3 * 2 ^ 40 then (homeDie pa, 1088 + (bitsN pa 16 16 ^^^ bitsN pa 22 22))
  else
    let p : Fin 2 := if homeDie pa = 0 then 0 else 1
    let q : Fin 2 := if (s.ports.get p).up then p else 1 - p
    (if q = 0 then 0 else 4, 1099)

/-- The die's record. -/
def State.die (s : State) (d : Nat) : Die := s.dies.get (Fin.ofNat 8 d)
def State.setDie (s : State) (d : Nat) (f : Die → Die) : State :=
  { s with dies := s.dies.set (Fin.ofNat 8 d) (f (s.die d)) }

def State.post (s : State) (e : Instr) : State := { s with events := s.events ++ [e] }
/-- A step that comes before those that wait: the second half of a register access (R97). -/
def State.postFirst (s : State) (e : Instr) : State := { s with events := e :: s.events }

/-- A future event, kept in order of its due time, first come first served (log 3). -/
def insTimer (due : Nat) (e : Instr) : List (Nat × Instr) → List (Nat × Instr)
  | [] => [(due, e)]
  | (d, x) :: l => if due < d then (due, e) :: (d, x) :: l else (d, x) :: insTimer due e l

def State.after (s : State) (cycles : Nat) (e : Instr) : State := { s with timers := insTimer (s.now + cycles) e s.timers }

/-! ## Encryption (R105, R106) -/

/-- The key of an index: none for index 0, which means clear. DEDUCED, log 8. -/
def State.keyOf (s : State) (k : BitVec 10) : Option (W128 × W128) :=
  if k = 0 then none
  else some ((s.keys.find? (fun x => x.1 = k.toNat)).elim (0, 0) (·.2))

/-- The key under which a block was written. DEDUCED, log 8. -/
def State.encOf (s : State) (blk : Nat) : Option (W128 × W128) := (s.enc.find? (fun x => x.1 = blk)).map (·.2)

/-- DEDUCED, log 8. -/
def State.setEnc (s : State) (blk : Nat) (k : Option (W128 × W128)) : State :=
  let rest := s.enc.filter (fun x => x.1 ≠ blk)
  { s with enc := match k with
    | none => rest
    | some k => (blk, k) :: rest }

/-- Data of a block that was written under one key, as a read under another sees it: the stored ciphertext deciphered (R106). -/
def rekey (blk : Nat) (old new : Option (W128 × W128)) (v : V512) : V512 :=
  if old = new then v
  else
    let c := old.elim v fun k => Sm4.encrypt k blk v
    new.elim c fun k => Sm4.decrypt k blk c

/-! ## Blocks at every level (R39, R41, R42)

What agents see of a block at its common level is its highest copy: the home slice's of the L2, else the memory-side slice's or the
capacity cache's, else the memory's own. -/

/-- The block as the memory devices hold it. -/
def State.dram (s : State) (b : Nat) : Blk :=
  { data := BitVec.ofNat 512 (s.mem.read b 64), enc := s.encOf (b / 64)
    fe := BitVec.ofNat 8 ((List.range 8).foldl (fun acc k => acc + if s.mem.full (b + 8 * k) then 2 ^ k else 0) 0)
    tags := BitVec.ofNat 4 ((List.range 4).foldl (fun acc k => acc + if s.mem.tag (b + 16 * k) then 2 ^ k else 0) 0)
    poison := s.mem.bad b }

/-- A whole block written to the memory devices; the CXL tier stores no metadata (R43). -/
def State.putDram (s : State) (b : Nat) (x : Blk) : State :=
  let cxl := paKind s b == .cxl
  let m := s.mem.write b 64 x.data.toNat
  let m := (List.range 8).foldl (fun m k => m.setFull (b + 8 * k) (cxl || x.fe.getLsbD k)) m
  let m := (List.range 4).foldl (fun m k => m.setTag (b + 16 * k) (!cxl && x.tags.getLsbD k)) m
  ({ s with mem := m.setBad b x.poison, ueMem := setDel s.ueMem (b / 64) } : State).setEnc (b / 64) x.enc

def l2Find (s : State) (pa : Nat) : Option L2Line := (s.die (homeDie pa)).l2.find? (fun l => decide (l.pa = pa / 64 * 64))
def sliceFind (s : State) (pa : Nat) : Option SLine := (s.die (homeDie pa)).slice.find? (fun l => decide (l.pa = pa / 64 * 64))
def capFind (s : State) (pa : Nat) : Option CapLine := (s.die (homeDie pa)).cap.find? (fun l => decide (l.base = pa / 2048 * 2048))
def CapLine.sector (l : CapLine) (pa : Nat) : Option Blk := (l.sectors.find? fun x => decide (x.1 = pa % 2048 / 64)).map (·.2)

/-- The port's copy of a block above the memory devices. -/
def portCopy (s : State) (pa : Nat) : Option Blk :=
  match sliceFind s pa with
  | some l => some l.blk
  | none => (capFind s pa).bind (·.sector pa)

/-- A block as its port sees it. -/
def portBlk (s : State) (pa : Nat) : Blk := (portCopy s pa).getD (s.dram (pa / 64 * 64))

/-- The highest copy above the memory devices. -/
def cached (s : State) (pa : Nat) : Option Blk :=
  match l2Find s pa with
  | some l => some l.blk
  | none => portCopy s pa

/-- The port's copy changed, which makes it dirty (R46, R49). -/
def State.mapPort (s : State) (pa : Nat) (f : Blk → Blk) : State :=
  let b := pa / 64 * 64
  let i := pa % 2048 / 64
  s.setDie (homeDie pa) fun d =>
    if (sliceFind s pa).isSome then
      { d with slice := update (fun l => decide (l.pa = b)) (fun l => { l with blk := f l.blk, dirty := true }) d.slice }
    else { d with cap := update (fun l => decide (l.base = pa / 2048 * 2048)) (fun l =>
      { l with sectors := update (fun x => decide (x.1 = i)) (fun x => (i, f x.2)) l.sectors, dirty := l.dirty ||| 1 <<< i }) d.cap }

/-- The highest copy changed. -/
def State.mapCached (s : State) (pa : Nat) (f : Blk → Blk) : State :=
  if (l2Find s pa).isSome then
    s.setDie (homeDie pa) fun d => { d with l2 := update (fun l => decide (l.pa = pa / 64 * 64)) (fun l =>
      { l with blk := f l.blk, dirty := true }) d.l2 }
  else s.mapPort pa f

/-- A whole block written at its port. -/
def State.putPort (s : State) (pa : Nat) (x : Blk) : State :=
  if (portCopy s pa).isSome then s.mapPort pa fun _ => x else s.putDram (pa / 64 * 64) x

/-- A bit of a vector made 1 or 0. -/
def putBit {w : Nat} (x : BitVec w) (k : Nat) (b : Bool) : BitVec w :=
  if b then x ||| ((1 : BitVec w) <<< k) else x &&& ~~~((1 : BitVec w) <<< k)

/-- `n` bytes of a block from offset `o` replaced under a key: tags of the granules cleared, and POISON when all 64 bytes are written. -/
def Blk.store (x : Blk) (blk o n v : Nat) (k : Option (W128 × W128)) : Blk :=
  { x with data := BitVec.ofNat 512 (putBytes (rekey blk x.enc k x.data).toNat o n v), enc := k
           tags := (List.range 4).foldl (fun t g => if o / 16 ≤ g ∧ g ≤ (o + n - 1) / 16 then putBit t g false else t) x.tags
           poison := x.poison && n != 64 }

/-- A block as a read under a key sees it. -/
def State.blockView (s : State) (blk : Nat) (k : BitVec 10) : Nat :=
  let x := (cached s (64 * blk)).getD (s.dram (64 * blk))
  (rekey blk x.enc (s.keyOf k) x.data).toNat

/-- Bytes of one block, as read under a key. -/
def State.readBlk (s : State) (pa n : Nat) (k : BitVec 10) : Nat :=
  if (cached s pa).isNone ∧ s.encOf (pa / 64) = s.keyOf k then s.mem.read pa n
  else sliceBytes (s.blockView (pa / 64) k) (pa % 64) n

/-- Bytes of one block written under a key at its highest copy (R40, R44): a shorter write reads the block, changes it and writes it
whole; a write of all 64 bytes clears POISON. Tags are cleared. -/
def State.writeBlk (s : State) (pa n v : Nat) (k : BitVec 10) : State :=
  let blk := pa / 64
  if (cached s pa).isSome then s.mapCached pa fun x => x.store blk (pa % 64) n v (s.keyOf k)
  else
    let s1 : State :=
      if s.encOf blk = s.keyOf k ∨ n = 64 then s
      else { s with mem := s.mem.write (64 * blk) 64 (s.blockView blk k) }
    let m := s1.mem.store pa n v
    (if n = 64 then ({ s1 with mem := m.setBad pa false, ueMem := setDel s1.ueMem blk } : State) else { s1 with mem := m }).setEnc blk (s.keyOf k)

/-- Bytes at physical addresses, across blocks. -/
def State.readPa (s : State) (pa n : Nat) (k : BitVec 10) : Nat :=
  (blocksOf pa n).foldr (fun (a, m) acc => s.readBlk a m k + 2 ^ (8 * m) * acc) 0

def State.writePa (s : State) (pa n v : Nat) (k : BitVec 10) : State :=
  ((blocksOf pa n).foldl (fun (x : State × Nat) (p : Nat × Nat) =>
    (x.1.writeBlk p.1 p.2 (x.2 % 2 ^ (8 * p.2)) k, x.2 / 2 ^ (8 * p.2))) (s, v)).1

/-- Metadata of the highest copy: the full/empty bit of a word, the tag of a granule, POISON of a block. -/
def State.fullAt (s : State) (a : Nat) : Bool := (cached s a).elim (s.mem.full a) fun x => x.fe.getLsbD (a % 64 / 8)
def State.tagAt (s : State) (a : Nat) : Bool := (cached s a).elim (s.mem.tag a) fun x => x.tags.getLsbD (a % 64 / 16)
def State.badAt (s : State) (a : Nat) : Bool := (cached s a).elim (s.mem.bad a) (·.poison)

def State.setFullAt (s : State) (a : Nat) (b : Bool) : State :=
  if (cached s a).isSome then s.mapCached a fun x => { x with fe := putBit x.fe (a % 64 / 8) b } else { s with mem := s.mem.setFull a b }
def State.setTagAt (s : State) (a : Nat) (b : Bool) : State :=
  if (cached s a).isSome then s.mapCached a fun x => { x with tags := putBit x.tags (a % 64 / 16) b } else { s with mem := s.mem.setTag a b }
def State.setBadAt (s : State) (a : Nat) (b : Bool) : State :=
  if (cached s a).isSome then s.mapCached a fun x => { x with poison := b }
  else { s with mem := s.mem.setBad a b, ueMem := setDel s.ueMem (a / 64) }

/-! ## Interrupts (R96) -/

/-- Whether a vector is masked: bit 0 of its entry's vector control. -/
def Port.masked (p : Port) (vec : Nat) : Bool := (cellGet p.table (16 * vec + 12)).getLsbD 0

/-- An MSI-X vector of a port: sent, kept pending while masked, lost while MSI-X is disabled. The spec does not say what becomes of a
completion's vector while the port's link is down (R96 speaks of vector 64 only): it is sent all the same. DESIGN CHOICE, log 35. -/
def State.msix (s : State) (port vec : Nat) : State :=
  let i : Fin 2 := Fin.ofNat 2 port
  let p := s.ports.get i
  if !p.msixEn then s
  else if p.masked vec then { s with ports := s.ports.set i { p with pend := setIns p.pend vec } }
  else { s with outbox := s.outbox ++ [.msix port vec] }

/-- Vector 64 on every host port whose link is up. -/
def State.vector64 (s : State) : State :=
  let f (s : State) (p : Nat) : State := if (s.ports.get (Fin.ofNat 2 p)).up then s.msix p 64 else s
  f (f s 0) 1

/-! ## The fault queue (R251, R252) -/

/-- Room for one more record. -/
def Die.fqRoom (d : Die) : Bool :=
  let n := d.fqbase.toNat % 32
  6 ≤ n && n ≤ 16 && decide ((d.fqtail.toNat % 2 ^ 32 + 2 ^ 32 - d.fqhead.toNat % 2 ^ 32) % 2 ^ 32 < 2 ^ n - 1)

/-- A record written at TAIL, and vector 64 when it is host-visible. -/
def State.putRecord (s : State) (die : Nat) (ws : List Nat) : State :=
  let d := s.die die
  let tail := d.fqtail.toNat % 2 ^ 32
  let pa := d.fqbase.toNat / 4096 * 4096 + 32 * (tail % 2 ^ (d.fqbase.toNat % 32))
  let s1 := s.writePa pa 32 (ws.foldr (fun w acc => w % 2 ^ 64 + 2 ^ 64 * acc) 0) 0
  let s2 := s1.setDie die fun d => { d with fqtail := BitVec.ofNat 64 (d.fqtail.toNat / 2 ^ 63 * 2 ^ 63 + (tail + 1) % 2 ^ 32) }
  if d.fqctl.getLsbD (ws.headD 0 / 16 % 16) then s2.vector64 else s2

/-- The overflow record is written first when there is room (R251, kind 0x77). -/
def State.fqFlush (s : State) (die : Nat) : State :=
  let d := s.die die
  if d.fqdrop ≠ 0 ∧ d.fqRoom then
    let s1 := s.setDie die fun d => { d with fqdrop := 0, fqtail := BitVec.ofNat 64 (d.fqtail.toNat % 2 ^ 32) }
    s1.putRecord die [0x77 + die % 8 * 256, d.fqdrop, 0, s.timeNs]
  else s

/-- A record of four words written by a die, or dropped and counted. -/
def State.record (s : State) (die : Nat) (ws : List Nat) : State :=
  let s := s.fqFlush die
  if (s.die die).fqRoom then s.putRecord die ws
  else s.setDie die fun d => { d with
    fqdrop := Nat.min (d.fqdrop + 1) (2 ^ 32 - 1)
    fqtail := d.fqtail ||| (1 : W64) <<< 63 }

/-- The general layout (R252). -/
def State.fault (s : State) (die kind code : Nat) (ctx : Nat := 0) (addr : Nat := 0) (aux32 : Nat := 0) (aux64 : Nat := 0) : State :=
  s.record die [kind + die % 8 * 2 ^ 8 + ctx % 64 * 2 ^ 16 + code % 256 * 2 ^ 24 + aux32 % 2 ^ 32 * 2 ^ 32, addr, aux64, s.timeNs]

/-! ## Access tables (R104) -/

/-- Whether an entry's range and selectors match. -/
def entryHits (e : AccessEntry) (pa : Nat) (m : Master) : Bool :=
  e.v && decide (e.base.toNat ≤ pa / 4096 ∧ pa / 4096 ≤ e.limit.toNat) && e.cls.getLsbD m.cls.toNat
    && ((m.ctx ^^^ e.ctxv) &&& e.ctxm) == 0
    && (e.prv == 0 || (e.prv == 1 && !m.priv) || (e.prv == 2 && m.priv))

/-- The permission an access asks: 1 read, 2 write, 4 atomic, as records of kind 0x40 give it. -/
def entryGrants (e : AccessEntry) (need : Nat) : Bool :=
  if need = 1 then e.r else if need = 2 then e.w else e.a

/-- A die's access tables are kept by rising station and index, so the first match is the lowest index. -/
def accessOk (d : Die) (station pa : Nat) (m : Master) (need : Nat) : Bool :=
  m.cls == 5 || match d.access.find? (fun (st, _, e) => st == station && entryHits e pa m) with
    | some (_, _, e) => entryGrants e need
    | none => false

/-- The table of an address's memory port admits an access (R104). DEDUCED, log 38. -/
def State.admits (s : State) (pa : Nat) (m : Master) (need : Nat) : Bool :=
  let (d, st) := station s pa
  accessOk (s.die d) st pa m need

/-- The record of a refused access. -/
def State.refuse (s : State) (die station pa : Nat) (m : Master) (need : Nat) : State :=
  s.fault die 0x40 (m.cls.toNat + (if m.priv then 8 else 0) + need * 16) m.ctx.toNat pa station

/-- The record of an access that its memory port refuses. -/
def State.refuseAt (s : State) (pa : Nat) (m : Master) (need : Nat) : State :=
  let (d, st) := station s pa
  s.refuse d st pa m need

/-! ## The frame table and hotness (R50, R51) -/

/-- The frame-table entry of a frame, when the die has a table and the frame an entry. -/
def frameEntry (s : State) (pa : Nat) : Option Nat :=
  if pa < 3 * 2 ^ 40 then
    let d := s.die (homeDie pa)
    if d.dftb.getLsbD 0 then
      let idx := if pa < 2 ^ 39 then pa % 2 ^ 36 / 2 ^ 16 else 2 ^ 20 + pa % 2 ^ 38 / 2 ^ 16
      some (d.dftb.toNat / 2 ^ 14 % 2 ^ 38 * 2 ^ 14 + 8 * idx)
    else none
  else none

/-- The entry's value, zero when there is none. -/
def frameWord (s : State) (pa : Nat) : Nat := (frameEntry s pa).elim 0 fun a => s.readPa a 8 0

/-- Whether an address lies in a frame that an open motion reads or writes. -/
def inMotion (s : State) (pa : Nat) : Bool :=
  s.dies.any fun d => d.motions.any fun m => decide (m.src / 2 ^ 16 = pa / 2 ^ 16 ∨ m.dst / 2 ^ 16 = pa / 2 ^ 16)

/-- Whether an address is cached in its stack's capacity cache. -/
def capCached (s : State) (pa : Nat) : Bool :=
  s.cccur ≠ 0 && match paKind s pa with
    | .lpddr _ | .cxl => true
    | _ => false

/-- The set of a line of a stack's capacity cache, and the endpoint index of its cache port (R48): sets go round the pseudo-channels.
DESIGN CHOICE, log 44. -/
def capSet (s : State) (base : Nat) : Nat := base / 2048 % (s.cccur.toNat * 131072)
def capPort (s : State) (base : Nat) : Nat := 1024 + capSet s base % 64

/-- The station that an access to memory reaches first (R49): the cache port of an address that is cached there. -/
def firstPort (s : State) (pa : Nat) : Nat :=
  if capCached s pa && !inMotion s pa then capPort s (pa / 2048 * 2048) else (station s pa).2

/-- A station's counter of a frame, now the most recently used of its 256 (R51). -/
def Die.putSample (d : Die) (st f n : Nat) : Die :=
  let rest := d.samples.filter fun x => decide (x.1 ≠ st ∨ x.2.1 ≠ f)
  let mine := rest.filter fun x => decide (x.1 = st)
  let out := if 256 ≤ mine.length then mine.getLast? else none
  { d with samples := (st, f, n) :: rest.filter fun x => decide (some x ≠ out) }

/-- One access to a frame counted by its station; the sixteenth adds one to the hotness of its leaf. -/
def State.sample (s : State) (pa : Nat) : State :=
  let fw := frameWord s pa
  if fw / 2 ^ 63 = 0 then s
  else
    let f := pa / 2 ^ 16
    let st := firstPort s pa
    let n := ((s.die (homeDie pa)).samples.find? fun x => decide (x.1 = st ∧ x.2.1 = f)).elim 0 (·.2.2)
    let s1 := s.setDie (homeDie pa) fun d => d.putSample st f ((n + 1) % 16)
    if n = 15 then
      let ca := fw / 16 % 2 ^ 48 * 16 + 8
      let w := s.readPa ca 8 0
      if w / 2 ^ 46 % 256 = 255 then s1 else s1.writePa ca 8 (w + 2 ^ 46) 0
    else s1

/-! ## Uncorrectable errors (R44, R252) -/

/-- The level code of a block's tier (R252, kind 0x70). -/
def tierCode (s : State) (pa : Nat) : Nat :=
  match paKind s pa with
  | .lpddr _ => 1
  | .cxl => 10
  | _ => 0

/-- Whether Drift can move the page in a frame (R54): V, not FIX. -/
def movable (s : State) (pa : Nat) : Bool := let w := frameWord s pa; w / 2 ^ 63 = 1 && w / 2 ^ 62 % 2 = 0

/-- A read of a block at the memory devices finds its error: POISON is set, a record written, and the frame considered for retirement
(R250). In a page that moves the error stands until the motion has aborted (R62). -/
def State.detect (s : State) (pa : Nat) : State :=
  if s.ueMem.contains (pa / 64) then
    let s1 : State := { s with ueMem := if inMotion s pa then s.ueMem else setDel s.ueMem (pa / 64), mem := s.mem.setBad pa true }
    let (d, st) := station s pa
    let aux := 1 + (if tierCode s pa = 10 then 0 else if movable s pa then 64 else 128) + st * 2 ^ 16
    (s1.fault d 0x70 (tierCode s pa) 0 (pa / 64 * 64) aux).post (.frameRetirement pa)
  else s

/-! ## Ways -/

/-- The way that a new line of a set takes: the lowest allowed one that no line occupies, else that of the line used least recently
among those that may leave. `none` keeps the line out. DESIGN CHOICE, log 44. -/
def chooseWay (allowed used leave : List Nat) : Option Nat :=
  match allowed.find? fun w => !used.contains w with
  | some w => some w
  | none => (leave.filter allowed.contains).getLast?

/-- A way of a unit that is not quarantined (R249). -/
def Die.wayOk (d : Die) (code unit set way : Nat) : Bool := !d.quarantine.contains (code, unit, set + 2048 * way)

/-! ## Memory-side slices (R46) -/

/-- The set of a slice. DESIGN CHOICE, log 44. -/
def sliceSet (pa : Nat) : Nat := bitsN pa 15 6

/-- Ways that hold data: the capacity-cache tags take the top C × 64 KiB, one way for each GiB (R48). -/
def sliceWays (s : State) (pa : Nat) : List Nat :=
  let (d, st) := station s pa
  (List.range (16 - s.cccur.toNat)).filter fun w => (s.die d).wayOk 2 st (sliceSet pa) w

/-- A line leaves its slice, written to memory when it is dirty. -/
def State.sliceEvict (s : State) (l : SLine) : State :=
  let s := if l.dirty then s.putDram l.pa l.blk else s
  s.setDie (homeDie l.pa) fun d => { d with slice := d.slice.filter fun x => decide (x.pa ≠ l.pa) }

/-- An access at the slice: the line is fetched when it is absent, unless all of it is written, and is now the most recently used. -/
def State.sliceTouch (s : State) (pa : Nat) (whole : Bool) : State :=
  let b := pa / 64 * 64
  match sliceFind s b with
  | some l => s.setDie (homeDie b) fun d => { d with slice := l :: d.slice.filter fun x => decide (x.pa ≠ b) }
  | none =>
    let s := if whole then s else s.detect b
    let set := (s.die (homeDie b)).slice.filter fun l => decide (station s l.pa = station s b ∧ sliceSet l.pa = sliceSet b)
    match chooseWay (sliceWays s b) (set.map (·.way)) (set.map (·.way)) with
    | none => s
    | some w =>
      let s := ((set.find? fun l => decide (l.way = w)).map s.sliceEvict).getD s
      s.setDie (homeDie b) fun d => { d with slice := { pa := b, way := w, blk := s.dram b } :: d.slice }

/-- A frame's lines invalidated without writeback (R61, R62). -/
def State.sliceDrop (s : State) (frame : Nat) : State :=
  s.setDie (homeDie frame) fun d => { d with slice := d.slice.filter fun l => decide (l.pa / 2 ^ 16 ≠ frame / 2 ^ 16) }

/-! ## The capacity cache (R47–R49) -/

/-- Dirty sectors written to the memory port. -/
def State.capWrite (s : State) (l : CapLine) : State :=
  l.sectors.foldl (fun s x => if l.dirty.getLsbD x.1 then s.putDram (l.base + 64 * x.1) x.2 else s) s

/-- A line leaves: its footprint is recorded in the table of its cache port, of 4,096 entries. -/
def State.capEvict (s : State) (l : CapLine) : State :=
  let s := s.capWrite l
  s.setDie (homeDie l.base) fun d =>
    let rest := d.foot.filter fun x => decide (x.1 ≠ l.base)
    let mine := rest.filter fun x => decide (capPort s x.1 = capPort s l.base)
    let out := if 4096 ≤ mine.length then mine.getLast? else none
    { d with cap := d.cap.filter fun x => decide (x.base ≠ l.base)
             foot := (l.base, l.seen) :: rest.filter fun x => decide (some x ≠ out) }

/-- A sector fetched from the memory port, unless all of it is written. -/
def State.capFetch (l : CapLine) (whole : Bool) (x : State × CapLine) (i : Nat) : State × CapLine :=
  let (s, c) := x
  let b := l.base + 64 * i
  let s := if whole then s else s.detect b
  (s, { c with sectors := c.sectors ++ [(i, s.dram b)] })

/-- An access at the cache port (R49): the line and the sector become present, and the line the most recently used. A read of an absent
line brings the sectors of its footprint. The lines of a page that moves are not allocated (R57). -/
def State.capTouch (s : State) (pa : Nat) (write whole : Bool) : State :=
  let base := pa / 2048 * 2048
  let i := pa % 2048 / 64
  let bit : W32 := 1 <<< i
  let put (s : State) (l : CapLine) : State := s.setDie (homeDie pa) fun d =>
    { d with cap := { l with seen := l.seen ||| bit } :: d.cap.filter fun x => decide (x.base ≠ base) }
  if !capCached s pa then (if whole then s else s.detect pa)
  else match capFind s pa with
  | some l =>
    if (l.sector pa).isSome then put s l
    else
      let (s, l) := State.capFetch l whole (s, l) i
      put s l
  | none =>
    if inMotion s pa then (if whole then s else s.detect pa)
    else
      let set := (s.die (homeDie pa)).cap.filter fun l => decide (capSet s l.base = capSet s base)
      let ways := (List.range 4).filter fun w => (s.die (homeDie pa)).wayOk 3 (capPort s base) (capSet s base) w
      match chooseWay ways (set.map (·.way)) (set.map (·.way)) with
      | none => if whole then s else s.detect pa
      | some w =>
        let s := ((set.find? fun l => decide (l.way = w)).map s.capEvict).getD s
        let foot : W32 := if write then 0 else ((s.die (homeDie pa)).foot.find? fun x => decide (x.1 = base)).elim 0 (·.2)
        let l : CapLine := { base := base, way := w }
        let (s, l) := ((List.range 32).filter fun j => j == i || foot.getLsbD j).foldl (State.capFetch l whole) (s, l)
        put s l

/-- Lines of a page written back and invalidated at the cache port (R56, R49). -/
def State.capFlush (s : State) (page : Nat) : State :=
  let mine (l : CapLine) : Bool := decide (l.base / 2 ^ 16 = page / 2 ^ 16)
  let s := ((s.die (homeDie page)).cap.filter mine).foldl State.capWrite s
  s.setDie (homeDie page) fun d => { d with cap := d.cap.filter fun l => !mine l }

/-- What an access that reaches its port leaves there (R39): sampling, and residency in the slice or the capacity cache. `whole` is a
write of all 64 bytes, which reads nothing. -/
def State.portTouch (s : State) (pa : Nat) (write : Bool) (whole : Bool := false) : State :=
  let s := s.sample pa
  if pa < 2 ^ 39 then s.sliceTouch pa whole else s.capTouch pa write whole

/-! ## Moving pages (R57) -/

/-- The open motion whose source frame holds an address: die and record. -/
def motionOf (s : State) (pa : Nat) : Option (Nat × Motion) :=
  let f := pa / 2 ^ 16 * 2 ^ 16
  (List.range 8).findSome? fun d => ((s.die d).motions.find? (fun m => decide (m.src = f))).map (d, ·)

def State.setMotion (s : State) (d src : Nat) (f : Motion → Motion) : State :=
  s.setDie d fun x => { x with motions := update (fun m => decide (m.src = src)) f x.motions }

/-- Where an access to a page goes. -/
inductive Place where
  | at (pa : Nat)
  /-- Held by the owner: its die and the source frame. -/
  | held (die src : Nat)
deriving DecidableEq, Repr

/-- The route of R57. DEDUCED, log 11. -/
def place (s : State) (pa : Nat) : Place :=
  match motionOf s pa with
  | none => .at pa
  | some (d, m) =>
    let g := pa % 2 ^ 16 / 2048
    match m.phase with
    | .prep | .abort _ => .at pa
    | .commit => .at (m.dst + pa % 2 ^ 16)
    | .copy => if g < m.w then .at (m.dst + pa % 2 ^ 16) else if g = m.w then .held d m.src else .at pa

/-- A write below the watermark marks its granule dirty (R57). -/
def State.markMotion (s : State) (pa : Nat) : State :=
  match motionOf s pa with
  | some (d, m) =>
    let g := pa % 2 ^ 16 / 2048
    if m.phase = .copy ∧ g < m.w then s.setMotion d m.src fun m => { m with dirty := m.dirty ||| 1 <<< g } else s
  | none => s

/-- Where an access goes when it cannot wait: the source serves a held one before its granule is copied, which orders it as the
owner's queue would (log 11). -/
def placeNow (s : State) (pa : Nat) : Nat :=
  match place s pa with
  | .at a => a
  | .held .. => pa

/-! ## The L2 (R169–R171, R176) -/

/-- The home slice of an address, and the set within it. DESIGN CHOICE of the set, log 44. -/
def l2Slice (pa : Nat) : Nat := bitsN pa 13 8 ^^^ bitsN pa 19 14
def l2Set (pa : Nat) : Nat := bitsN pa 7 6 + 4 * bitsN pa 22 14

/-- The partition of a context: a value above NPART acts as NPART (R171). -/
def Die.partOf (d : Die) (ctx : BitVec 6) : Nat :=
  Nat.min (bitsN ((d.l2part.get (Fin.ofNat 2 (ctx.toNat / 32))).toNat) (2 * (ctx.toNat % 32) + 1) (2 * (ctx.toNat % 32))) (bitsN d.l2cfg.toNat 9 8)

/-- The ways in which a partition allocates in a set: the pool's steps take ways from 15 down, half of the sets each (R170, R171). -/
def Die.partWays (d : Die) (p set : Nat) : List Nat :=
  let pool := bitsN d.l2cfg.toNat 4 0
  let n := bitsN d.l2cfg.toNat 9 8 + 1
  let a := 16 - (pool + 1) / 2
  let half := if pool % 2 = 1 ∧ p = n - 1 ∧ 1024 ≤ set then [a] else []
  (List.range (a + 1)).filter (fun w => decide (p * a / n ≤ w ∧ w < (p + 1) * a / n)) ++ half

/-- The ways in which a context allocates an address. -/
def l2Ways (s : State) (pa : Nat) (ctx : BitVec 6) : List Nat :=
  let d := s.die (homeDie pa)
  (d.partWays (d.partOf ctx) (l2Set pa)).filter fun w => d.wayOk 4 (l2Slice pa) (l2Set pa) w

/-- A whole block that leaves the L2, written at its memory port for the master that dirtied it (R39, R104). DEDUCED, log 38. -/
def State.portWriteback (s : State) (pa : Nat) (x : Blk) (m : Master) : State :=
  let a := placeNow s pa
  if s.admits a m 2 then ((s.markMotion pa).portTouch a true true).putPort a x else s.refuseAt a m 2

/-- A line leaves the home slice, written back when it is dirty. -/
def State.l2Evict (s : State) (l : L2Line) : State :=
  let s := s.setDie (homeDie l.pa) fun d => { d with l2 := d.l2.filter fun x => decide (x.pa ≠ l.pa) }
  if l.dirty then s.portWriteback l.pa l.blk l.writer else s

/-- The home slice writes its copy back and invalidates it (R174, R175). -/
def State.l2Drop (s : State) (pa : Nat) : State := ((l2Find s pa).map s.l2Evict).getD s

/-- Lines of a die's L2 that a predicate selects, written back and invalidated. -/
def State.l2Flush (s : State) (die : Nat) (p : L2Line → Bool) : State := ((s.die die).l2.filter p).foldl State.l2Evict s

/-- A quad's L1 has exclusive ownership of a line (R176). -/
def owned (s : State) (pa : Nat) : Bool := s.quads.any fun q => q.l1.any fun l => decide (l.pa = pa / 64 * 64) && l.own

/-- The home slice's part of an access: the line becomes resident, filled through the port when it was absent, and dirty for a write; its
content is written after. A page that moves has no line allocated, so that the access goes on to the port (R57). A line that a quad owns
does not leave. -/
def State.l2Touch (s : State) (pa : Nat) (dirty : Bool) (m : Master) (whole : Bool := false) : State :=
  let b := pa / 64 * 64
  let put (s : State) (l : L2Line) : State := s.setDie (homeDie b) fun d =>
    { d with l2 := (if dirty then { l with dirty := true, writer := m } else l) :: d.l2.filter fun x => decide (x.pa ≠ b) }
  match l2Find s b with
  | some l => put s l
  | none =>
    let set := (s.die (homeDie b)).l2.filter fun l => decide (l2Slice l.pa = l2Slice b ∧ l2Set l.pa = l2Set b)
    let way := if inMotion s b then none
      else chooseWay (l2Ways s b m.ctx) (set.map (·.way)) ((set.filter fun l => !owned s l.pa).map (·.way))
    match way with
    | none => s.portTouch b dirty whole
    | some w =>
      let s := ((set.find? fun l => decide (l.way = w)).map s.l2Evict).getD s
      let s := if whole then s else s.portTouch b false
      put s { pa := b, way := w, blk := portBlk s b }

/-- An access that the home slice serves, or that its port's table admits (R104). -/
def State.l2Admits (s : State) (pa : Nat) (m : Master) (need : Nat) : Bool := (l2Find s pa).isSome || s.admits pa m need

/-- A line read at its home slice, or on a miss at the port, which checks its access table. `none` is a refusal (R104). -/
def State.fill (s : State) (pa : Nat) (m : Master) : State × Bool :=
  if s.l2Admits pa m 1 then (s.l2Touch pa false m, true) else (s.refuseAt pa m 1, false)

/-- A write at the home slice: checked as `fill` checks; the caller then writes the bytes. -/
def State.claim (s : State) (pa : Nat) (m : Master) (whole : Bool := false) : State × Bool :=
  if s.l2Admits pa m 2 then (s.l2Touch pa true m whole, true) else (s.refuseAt pa m 2, false)

end Sys2Proof.Machine
end

