-- ==== Sys2Proof/Machine/Link.lean ====
section
/-!
DEFINITION. Links as their stations drive them (R65–R68, R71–R73, R79, R92): buffer sets and permits, flits and the replay buffer,
packets that wait, and the routes over die links and Cirrus ports.
-/
namespace Sys2Proof.Machine
open Sys2Proof

/-! ## Links and buffer sets -/

/-- A count per buffer set: hop class (0, 1) and set (0 request class A, 1 request class B, 2 reply, 3 notice). -/
def setCount (l : List (Nat × Nat × Nat)) (h j : Nat) : Nat := ((l.find? fun x => decide (x.1 = h ∧ x.2.1 = j)).map (·.2.2)).getD 0
def setCountPut (l : List (Nat × Nat × Nat)) (h j n : Nat) : List (Nat × Nat × Nat) :=
  (h, j, n) :: l.filter fun x => !decide (x.1 = h ∧ x.2.1 = j)

/-- A link's record; one in its first state is not listed. -/
def State.link (s : State) (l : LinkId) : Link := (s.links.find? fun k => decide (k.id = l)).getD { id := l }
def State.setLink (s : State) (k : Link) : State := { s with links := k :: s.links.filter fun x => decide (x.id ≠ k.id) }

/-- The depth of a buffer set (R92): at least one packet. DESIGN CHOICE, log 4. -/
def linkDepth (l : LinkId) (h j : Nat) : Nat := Config.linkDepth l h j + 1

/-- The buffer set of a packet (R65, R67, R71). -/
def carriedSet (c : Carried) : Nat × Nat :=
  (if c.hop2 then 1 else 0, if c.p.vn = 0 then (if c.clsB then 1 else 0) else if c.p.vn = 1 then 2 else 3)

/-- Permits the sender holds (R92). -/
def Link.held (k : Link) (h j : Nat) : Nat := linkDepth k.id h j - setCount k.spent h j

def linkDie : LinkId → Nat
  | .mesh d _ | .dieLink d _ | .cirrus d _ => d % 8

/-! ## Routes (R17, R67, R79) -/

/-- The other end of a die link: gateway 0 of die d and gateway 1 of die d + 1, and gateways 2 of dies d and d + 4 (R17). A Cirrus link's
other end is no part of the module. -/
def farEnd : LinkId → Option LinkId
  | .dieLink d 0 => some (.dieLink ((d + 1) % 8) 1)
  | .dieLink d 1 => some (.dieLink ((d + 7) % 8) 0)
  | .dieLink d 2 => some (.dieLink ((d + 4) % 8) 2)
  | _ => none

/-- The die-link gateway by which a packet leaves die `a` for die `b` (R67). -/
def dieRoute (a b : Nat) : Nat :=
  match (b + 8 - a) % 8 with
  | 1 | 2 => 0
  | 7 | 6 => 1
  | _ => 2

/-- The gateway of a flow at the requester's die (R79): by its site and key. -/
def flowGw (src key : BitVec 32) : Nat := (src.toNat % 2 ^ 13 + key.toNat / 2 ^ 20) % 6

/-- The Cirrus port by which a packet leaves its die (R79). The spec names the next higher-numbered port that is up; where none up to 5 is,
the search goes on from port 0. DESIGN CHOICE, log 32. -/
def State.cirrusOut (s : State) (src key : BitVec 32) : Option LinkId :=
  let die := src.toNat / 2 ^ 13 % 8
  ((List.range 6).map fun k => LinkId.cirrus die ((flowGw src key + k) % 6)).find? fun l => (s.link l).up

/-! ## Flits (R71, R72) -/

/-- A flit on its way: an event at the far end of a die link, a message that leaves the module on a Cirrus link. -/
def State.wire (s : State) (l : LinkId) (f : Flit) : State :=
  match farEnd l with
  | some r => s.post (.flitReceive r f)
  | none => { s with outbox := s.outbox ++ [.flit l f] }

/-- Whether permits of a hop class wait to be returned. -/
def Link.owes (k : Link) (h : Nat) : Bool := (List.range 4).any fun j => setCount k.owed h j != 0

/-- The hop class whose permits the next flit returns (R71). -/
def Link.pretClass (k : Link) : Nat := if k.owes 1 && (k.hopTurn || !k.owes 0) then 1 else 0

/-- A new flit: it acknowledges the last good one, returns up to seven permits of each set of a hop class, and is kept until it is
acknowledged. -/
def State.flitOut (s : State) (l : LinkId) (start : BitVec 8) (empty : Bool) (marker : Option Mark) (ps : List Carried) : State :=
  let k := s.link l
  let h := k.pretClass
  let f : Flit := { crcOk := true, fseq := k.fseqOut, ack := k.fseqIn - 1, nak := k.nakDue, hop2 := decide (h = 1)
                    pret := Vector.ofFn fun j => BitVec.ofNat 3 (Nat.min 7 (setCount k.owed h j.val))
                    start := start, empty := empty, marker := marker, packets := ps }
  let owed := (List.range 4).foldl (fun o j => setCountPut o h j (setCount o h j - 7)) k.owed
  (s.setLink { k with fseqOut := k.fseqOut + 1, owed := owed, replay := k.replay ++ [f], nakDue := false, ackDue := false
                      hopTurn := decide (h = 0) }).wire l f

/-- Bytes of a packet (R81). -/
def packetBytes (p : Packet) : Nat := 32 + 16 * p.len.toNat

/-- Packets back to back, each with the offset of its header. -/
def offsets : Nat → List Carried → List (Nat × Carried)
  | _, [] => []
  | o, c :: l => (o, c) :: offsets (o + packetBytes c.p) l

/-- The flits of packets packed back to back (R71): START, and the packets whose last byte lies in the flit. The rest of the last flit stays
empty. DESIGN CHOICE, log 13. -/
def flitPieces (ps : List Carried) : List (BitVec 8 × List Carried) :=
  let os := offsets 0 ps
  let total := (ps.map fun c => packetBytes c.p).sum
  (List.range ((total + 239) / 240)).map fun k =>
    ((os.find? fun x => decide (240 * k ≤ x.1 ∧ x.1 < 240 * (k + 1))).elim 0xFF fun x => BitVec.ofNat 8 (x.1 - 240 * k),
     (os.filter fun x => decide (240 * k < x.1 + packetBytes x.2.p ∧ x.1 + packetBytes x.2.p ≤ 240 * (k + 1))).map (·.2))

/-- The waiting packets that leave now, those that stay, and the permits spent: a packet needs a permit of its set, and room for its flits in
the replay buffer; a Lull holds requests back (R92). -/
def batch (l : LinkId) (lull : Bool) : Nat → List (Nat × Nat × Nat) → List Carried → List Carried × List Carried × List (Nat × Nat × Nat)
  | _, sp, [] => ([], [], sp)
  | room, sp, c :: cs =>
    let (h, j) := carriedSet c
    if room < packetBytes c.p then ([], c :: cs, sp)
    else if (lull && c.p.vn == 0) || decide (linkDepth l h j ≤ setCount sp h j) then
      let (a, b, sp) := batch l lull room sp cs
      (a, c :: b, sp)
    else
      let (a, b, sp) := batch l lull (room - packetBytes c.p) (setCountPut sp h j (setCount sp h j + 1)) cs
      (c :: a, b, sp)

/-- Markers that wait, each in a flit of its own (R92), while the replay buffer has room. -/
def State.sendMarks (s : State) (l : LinkId) : State :=
  let k := s.link l
  let n := 256 - k.replay.length
  (k.marks.take n).foldl (fun s m => s.flitOut l 0xFF false (some m) []) (s.setLink { k with marks := k.marks.drop n })

/-- Flits without data, while a NAK, an acknowledgement or permits wait for one and the replay buffer has room. An idle link's further flits,
which would say nothing new, are left out. DESIGN CHOICE, log 13. -/
def State.idleFlits : Nat → LinkId → State → State
  | 0, _, s => s
  | n + 1, l, s =>
    let k := s.link l
    if k.replay.length < 256 && (k.nakDue || k.ackDue || k.owes 0 || k.owes 1) then
      State.idleFlits n l (s.flitOut l 0xFF true none [])
    else s

/-- What a link has to send leaves it: markers, packets that may go, and what no packet's flit has told. DESIGN CHOICE, log 13. -/
def State.linkDrain (s : State) (l : LinkId) : State :=
  let k := s.link l
  if !k.up || k.retrain then s
  else
    let s := s.sendMarks l
    let k := s.link l
    let (go, stay, sp) := batch l (s.die (linkDie l)).lull (240 * (256 - k.replay.length)) k.spent k.queue
    let s := (flitPieces go).foldl (fun s x => s.flitOut l x.1 false none x.2) (s.setLink { k with queue := stay, spent := sp })
    State.idleFlits (1 + ((s.link l).owed.map (·.2.2)).sum) l s

/-- A packet given to a link; a link that is down loses it. DESIGN CHOICE, log 13. -/
def State.linkSend (s : State) (l : LinkId) (c : Carried) : State :=
  let k := s.link l
  if k.up then (s.setLink { k with queue := k.queue ++ [c] }).linkDrain l else s

end Sys2Proof.Machine
end

