-- ==== Sys2Proof/Machine/Route.lean ====
section
/-!
DEFINITION. Packets between endpoints (R65–R67, R74, R77, R79, R81, R87, R92): kinds and statuses, what a keyed request asks, the checks of
its key's entry, sending by way of the entry gateway, die links and Cirrus ports, and replies.
-/
namespace Sys2Proof.Machine
open Sys2Proof

noncomputable section

/-- Kind numbers of packets (R81). -/
def kRld : BitVec 6 := 0x01
def kRst : BitVec 6 := 0x02
def kRamo : BitVec 6 := 0x03
def kRcas : BitVec 6 := 0x04
def kRcall : BitVec 6 := 0x05
def kRget : BitVec 6 := 0x06
def kRput : BitVec 6 := 0x07
def kProbe : BitVec 6 := 0x08
/-- Internal traffic (R81 gives only the range): a queue entry, a bind request, a matrix command, a tile request, a holder's endpoint
changed. -/
def kQueue : BitVec 6 := 0x10
def kBind : BitVec 6 := 0x11
def kMatrix : BitVec 6 := 0x12
def kTile : BitVec 6 := 0x13
def kRepoint : BitVec 6 := 0x16
def kData : BitVec 6 := 0x20
def kDone : BitVec 6 := 0x21
def kParked : BitVec 6 := 0x22
def kTicket : BitVec 6 := 0x23
def kError : BitVec 6 := 0x24
def kBusy : BitVec 6 := 0x25
def kVarrive : BitVec 6 := 0x30
def kReplay : BitVec 6 := 0x31
def kFewake : BitVec 6 := 0x32
def kRnote : BitVec 6 := 0x33

/-- Tags of packets that no ticket-table entry sends: queue registers, tile requests by thread, dispatchers. -/
def queueTag : Nat := 992
def tileTag : Nat := 1008

/-- Statuses of replies (R81). -/
def stOk : BitVec 4 := 0
def stKey : BitVec 4 := 1
def stBounds : BitVec 4 := 2
def stPerm : BitVec 4 := 3
def stPoison : BitVec 4 := 4
def stNoMeta : BitVec 4 := 5
def stNoCall : BitVec 4 := 6
def stNotMapped : BitVec 4 := 7
def stRetired : BitVec 4 := 8
def stSealed : BitVec 4 := 9
def stNoEp : BitVec 4 := 10
def stUnreach : BitVec 4 := 11

/-- The module an endpoint or a window names; 0xFFFF is the sender's own (R74). -/
def ownModule (s : State) (mdl : BitVec 16) : Bool := mdl == 0xFFFF || mdl == s.modid

/-- Whether a key is one that a dispatcher registered for a launch window (R164). -/
def State.windowKey (s : State) (k : BitVec 32) : Bool := s.dies.any fun d => d.launches.any (·.key == k)

/-- Endpoints that do not exist (R74). -/
def badEndpoint (e : BitVec 32) : Bool :=
  let i := e.toNat % 2 ^ 13
  let d := e.toNat / 2 ^ 13 % 8
  decide (1100 < i) || (decide (i = 1099) && d != 0 && d != 4)

/-- The step of this module that a packet on its networks causes (R81); a request to an endpoint that does not exist is one that is answered
`NOEP` (R74). -/
def packetStep (win : Bool) (p : Packet) : Instr :=
  let k := p.kind
  if p.vn = 0 ∧ badEndpoint p.dst then .probeRequest p
  else if k = kRld ∨ k = kRst ∨ k = kRamo ∨ k = kRcas then
    if win then .launchWindowRequest p
    else if k = kRld then .rldRequest p else if k = kRst then .rstRequest p
    else if k = kRamo then .ramoRequest p else .rcasRequest p
  else if k = kRcall then .rcallRequest p
  else if k = kRget then .rgetRequest p
  else if k = kRput then .rputRequest p
  else if k = kProbe then .probeRequest p
  else if k = kQueue then .queueEntryArrival p
  else if k = kBind then .meshBindRequest p
  else if k = kData then .dataReply p
  else if k = kDone then .doneReply p
  else if k = kParked then .parkedReply p
  else if k = kTicket then .ticketReply p
  else if k = kError then .errorReply p
  else if k = kBusy then .busyReply p
  else if k = kVarrive then .varriveNotice p
  else if k = kReplay then .replayNotice p
  else if k = kRnote then .rnoteNotice p
  else .nop

/-! ## Keyed requests (R76, R77) -/

/-- The access size of an SZ code (R274). -/
def szBytes (sz : BitVec 3) : Nat := 2 ^ sz.toNat

/-- The bytes a request covers. A call covers its team (R77, R339). -/
def reqSize (p : Packet) : Nat :=
  if p.kind = kRget ∨ p.kind = kRput then p.aux.toNat
  else if p.kind = kRcall then 1
  else if p.size = 5 then 64 else szBytes p.size

/-- The code of a load's or store's mode, and whether it does not wait (R325). -/
def reqMode (p : Packet) : BitVec 2 := p.mode.setWidth 2
def reqFf (p : Packet) : Bool := p.mode.getLsbD 2

/-- A synchronisation mode other than `any` and `keep`. -/
def reqFe (p : Packet) : Bool := (p.kind == kRld && reqMode p != 0) || (p.kind == kRst && reqMode p != 3)

/-- LD, ST, ATOM, FE, CALL from bit 0 upward (R77). -/
def reqPerm (p : Packet) : BitVec 5 :=
  (if p.kind = kRld ∨ p.kind = kRget then 1 else if p.kind = kRst ∨ p.kind = kRput then 2
   else if p.kind = kRcall then 16 else 4) ||| (if reqFe p then 8 else 0)

/-- The check gateway of a key, by die and number (R77). -/
def checkGw (key : BitVec 32) : Nat × Nat :=
  let i := key.toNat / 2 ^ 20
  (i / 6 % 8, 3 + i % 6)

/-- The key's check gateway as an endpoint (R77). -/
def checkEndpoint (mdl : BitVec 16) (key : BitVec 32) : BitVec 32 :=
  let idx := key.toNat / 2 ^ 20
  mdl ++ BitVec.ofNat 16 (idx / 6 % 8 * 2 ^ 13 + 1093 + idx % 6)

/-- A replica's entry; gateways 0–2 are the die links', 3–8 the Cirrus ports'. -/
def Die.region (d : Die) (gw idx : Nat) : Region :=
  ((d.regions.find? fun (g, i, _) => g == gw && i == idx).map fun (_, _, r) => r).getD {}

/-- The first of the checks 1–3 of a keyed request that a region-table entry fails (R77). -/
def regionRefuses (r : Region) (p : Packet) : Option (BitVec 4) :=
  if !r.v || r.gen != p.rkey.setWidth 20 then some stKey
  else if r.length.toNat < p.addr.toNat + reqSize p then some stBounds
  else if reqPerm p &&& ~~~r.perm != 0 then some stPerm
  else none

/-- A keyed request, by its kind. -/
def isKeyed (p : Packet) : Bool := decide (1 ≤ p.kind.toNat ∧ p.kind.toNat ≤ 7)

/-- The launch whose window a key names (R164). -/
def windowLaunch (s : State) (k : BitVec 32) : BitVec 16 :=
  (s.dies.toList.findSome? fun d => (d.launches.find? (·.key == k)).map (·.id)).getD 0

/-! ## Sending -/

/-- The site of a core by its place (R19). -/
def siteOf (id : Nat) : Nat :=
  let r := id / 16 % 64
  let q := id / 4 % 4
  let k := id % 4
  32 * (4 * (r / 8) + 2 * (q / 2) + k / 2) + (4 * (r % 8) + 2 * (q % 2) + k % 2)

/-- A request by which a core reaches its own team (R165). -/
def State.loopBack (s : State) (p : Packet) : Bool :=
  isKeyed p && s.windowKey p.rkey && s.cores.any fun c =>
    c.launch == windowLaunch s p.rkey && decide (c.team = p.addr.toNat / 0x40000 ∧ c.id / 1024 = p.src.toNat / 2 ^ 13 % 8) &&
      decide (siteOf c.id = p.src.toNat % 2 ^ 13) && ownModule s (p.src.extractLsb' 16 16)

/-- The step of a window request from a sender. -/
def sentBy (src : BitVec 32) : Instr → Bool
  | .launchWindowRequest p => p.src == src
  | _ => false

/-- A packet at its die: a step, or held while a Lull holds requests back (R92). The message engine may perform a core's access to its own
team before or after the core's next accesses (R165): which, is free. -/
def State.arrive (s : State) (die : Nat) (p : Packet) : State :=
  let step := packetStep (s.windowKey p.rkey) p
  if (s.die die).lull && p.vn == 0 then s.setDie die fun d => { d with lullHeld := d.lullHeld ++ [p] }
  else if s.loopBack p then
    if Config.race s.fresh || s.timers.any fun t => sentBy p.src t.2 then { s.after 16 step with fresh := s.fresh + 1 }
    else { s.post step with fresh := s.fresh + 1 }
  else s.post step

/-- A packet of the module at a die: it has arrived, or leaves by a die link. -/
def State.forward (s : State) (die : Nat) (c : Carried) : State :=
  let dest := c.p.dst.toNat / 2 ^ 13 % 8
  if dest = die then s.arrive die c.p else s.linkSend (.dieLink die (dieRoute die dest)) c

/-- The reply to a remote access that has executed (R81, R85). -/
def replyTo (p : Packet) (kind : BitVec 6) (status : BitVec 4) (v : Nat) (aux : Nat := 0) : Packet :=
  { rkey := 0, kind := kind, status := status, addr := BitVec.ofNat 64 v, aux := BitVec.ofNat 16 aux, tag := p.tag, gen := p.gen
    thr := p.thr, ctx := p.ctx, dst := p.src, src := p.dst, vn := 1, seq := p.seq, len := if v < 2 ^ 64 then 0 else 1
    payload := if v < 2 ^ 64 then [] else [BitVec.ofNat 64 (v / 2 ^ 64)] }

/-- The checks of a keyed request at its entry gateway (R77), of a die and number: the error reply of the first that fails. -/
def State.entryReply (s : State) (die gw : Nat) (p : Packet) : Option Packet :=
  if !isKeyed p || badEndpoint p.dst then none
  else (regionRefuses ((s.die die).region gw (p.rkey.toNat / 2 ^ 20)) p).map fun st =>
    { replyTo p kError st 0 with src := p.dst.extractLsb' 16 16 ++ BitVec.ofNat 16 (die * 2 ^ 13 + 1090 + gw) }

/-- A packet sent: within the module, where a keyed request first passes the entry gateway of the requester's die, which forwards it as a
request of class B (R65, R77); or by a Cirrus port (R79). DEDUCED, log 32. -/
def State.send (s : State) (p : Packet) : State :=
  let die := p.src.toNat / 2 ^ 13 % 8
  if ownModule s (p.dst.extractLsb' 16 16) then
    match s.entryReply die (3 + flowGw p.src p.rkey) p with
    | some r => s.forward die { p := r }
    | none => s.forward die { clsB := isKeyed p, p := p }
  else
    let src : BitVec 32 := if p.src.extractLsb' 16 16 = 0xFFFF then s.modid ++ p.src.extractLsb' 0 16 else p.src
    match s.cirrusOut src p.rkey with
    | some l => s.linkSend l { p := { p with src := src } }
    | none => s

/-- A reply cache entry is of this request. -/
def CachedReply.of (x : CachedReply) (p : Packet) : Bool := x.src == p.src && x.tag == p.tag && x.gen == p.gen

/-- An entry of a request in a cache that serves it (R87): its check gateway's, or a message engine's. -/
def CachedReply.servesAt (x : CachedReply) (die : Nat) (p : Packet) : Bool := x.of p && (decide ((die, x.gw) = checkGw p.rkey) || decide (16 ≤ x.gw))

/-- A reply of an owner or a gateway sent, and kept in the request's cache entries (R87): PARKED keeps the entry open, BUSY ends it. -/
def State.answer (s : State) (p r : Packet) : State :=
  let upd (x : CachedReply) : CachedReply := { x with reply := if r.kind = kParked then none else some r, last := s.now }
  let mine := s.dies.toList.zipIdx.flatMap fun (d, i) => (d.replies.filter (·.servesAt i p)).map fun x => (i, x.gw)
  let s1 : State := { s with dies := Vector.ofFn fun i =>
    let d := s.dies.get i
    { d with replies := if r.kind = kBusy then d.replies.filter (fun x => !x.servesAt i.val p) else update (·.servesAt i.val p) upd d.replies } }
  let s2 := if r.kind = kBusy ∨ r.kind = kParked then s1
    else mine.foldl (fun s (i, gw) => s.after (us 200) (.replyCacheExpiry i gw p.src p.tag p.gen)) s1
  s2.send r

end

end Sys2Proof.Machine
end

