-- ==== Sys2Proof/Machine/Ops.lean ====
section
/-!
DEFINITION. What an instruction of a thread works on, and the operations every meaning shares: finding cores, quads and threads;
reading and writing operands (R13, R137, R147–R149); the checks before an instruction takes effect (R132, R140, R144, R148, R236);
taking a trap and returning from one (R233, R236); retiring (R142, R143, R149, R312); waking a parked thread.
-/
namespace Sys2Proof.Machine
open Sys2Proof

noncomputable section

/-! ## Trap causes (R235) -/

def causeIllegal : BitVec 8 := 0x01
def causeReserved : BitVec 8 := 0x02
def causePrivilege : BitVec 8 := 0x03
def causeCapTag : BitVec 8 := 0x04
def causeCapBounds : BitVec 8 := 0x05
def causeCapPerm : BitVec 8 := 0x06
def causeCapType : BitVec 8 := 0x07
def causeMisaligned : BitVec 8 := 0x08
def causeNotMapped : BitVec 8 := 0x09
def causePagePerm : BitVec 8 := 0x0A
def causeGroupMask : BitVec 8 := 0x0B
def causeTenure : BitVec 8 := 0x0C
def causeVersionExists : BitVec 8 := 0x0D
def causeVersionRetired : BitVec 8 := 0x0E
def causeStaleHandle : BitVec 8 := 0x0F
def causeWaitExpired : BitVec 8 := 0x10
def causeNoMeta : BitVec 8 := 0x11
def causeRegAbsent : BitVec 8 := 0x12
def causeQueueUnbound : BitVec 8 := 0x13
def causeRemoteDeferred : BitVec 8 := 0x14
def causeMatrix : BitVec 8 := 0x15
def causeBreakpoint : BitVec 8 := 0x16
def causeTrapInsn : BitVec 8 := 0x17
def causeLoopNest : BitVec 8 := 0x18
def causeVersionWindow : BitVec 8 := 0x19

/-! ## Cores, quads and places (R19, R154) -/

def State.core? (s : State) (id : Nat) : Option Core := s.cores.find? (fun c => decide (c.id = id))
def State.setCore (s : State) (c : Core) : State := { s with cores := update (fun x => decide (x.id = c.id)) (fun _ => c) s.cores }
/-- The core that runs a team. -/
def State.coreOf? (s : State) (l : BitVec 16) (team : Nat) : Option Core :=
  s.cores.find? (fun c => c.launch == l && decide (c.team = team))

/-- A quad's record; one that holds nothing is not listed. -/
def State.quad (s : State) (q : Nat) : Quad := (s.quads.find? (fun x => decide (x.id = q))).getD { id := q }
def State.setQuad (s : State) (q : Quad) : State :=
  if s.quads.any (fun x => decide (x.id = q.id)) then { s with quads := update (fun x => decide (x.id = q.id)) (fun _ => q) s.quads }
  else { s with quads := q :: s.quads }

/-- The counts of a core that no team is bound to. -/
def State.unit (s : State) (id : Nat) : CoreUnit := (s.units.find? fun u => decide (u.id = id)).getD { id := id }
def State.setUnit (s : State) (u : CoreUnit) : State := { s with units := u :: s.units.filter fun x => decide (x.id ≠ u.id) }

def Core.die (c : Core) : Nat := c.id / 1024
def Core.quadId (c : Core) : Nat := c.id / 4
def Core.region (c : Core) : Nat := c.id / 16 % 64
def regionOfQuad (q : Nat) : Nat := q / 4 % 64

/-- The place of a core by its die and site (R19). -/
def placeOf (die site : Nat) : Nat :=
  let x := site % 32
  let y := site / 32
  die * 1024 + (8 * (y / 4) + x / 4) * 16 + (2 * (y / 2 % 2) + x / 2 % 2) * 4 + (2 * (y % 2) + x % 2)

/-- A core's endpoint number (R74). -/
def endpointOf (s : State) (id : Nat) : BitVec 32 :=
  BitVec.ofNat 32 (s.modid.toNat * 2 ^ 16 + id / 1024 * 2 ^ 13 + siteOf id)

def Thread.sys (t : Thread) : Bool := t.status.getLsbD 0

/-! ## What an instruction works on -/

/-- A thread's instruction under way: the machine, its core and thread as the instruction leaves them so far, and what retiring
it needs. -/
structure M where
  st   : State
  core : Core
  tid  : Fin 8
  thr  : Thread
  /-- First word and number of words. -/
  ins  : W32 := 0
  len  : Nat := 1
  lit  : Option W64 := none
  /-- The next PC, when the instruction transfers. -/
  npc  : Option Cap := none
  /-- Vector registers written. -/
  vwr  : List Nat := []
  /-- Floating-point flags raised. -/
  flags : FFlags := 0
  /-- Registers as both slots of a pair word read them (R140): the thread and the team registers before it. -/
  snap  : Option (Thread × Vector Cap 16) := none
  /-- Class of its accesses: 0 for the core, 1 for its engines (R104). -/
  cls   : BitVec 3 := 0

/-- The machine with the thread's and core's changes. -/
def M.flush (m : M) : State := m.st.setCore { m.core with thr := m.core.thr.set m.tid m.thr }

/-- The core and thread read again after the machine has changed. -/
def M.reload (m : M) (s : State) : M :=
  match s.core? m.core.id with
  | some c => { m with st := s, core := c, thr := c.thr.get m.tid }
  | none => { m with st := s }

/-- A step of the whole machine inside an instruction. -/
def M.world (m : M) (f : State → State) : M := m.reload (f m.flush)

/-- Who the thread is. -/
def M.who (m : M) : ThrId := ⟨m.core.launch, m.core.team, m.tid.val⟩

/-- The master of the thread's own accesses (R104). -/
def M.master (m : M) : Master := ⟨m.core.ctx, m.thr.sys, m.cls⟩

/-- Arguments of a fault record (R252). -/
structure RecArgs where
  die   : Nat
  kind  : Nat
  code  : Nat
  ctx   : Nat := 0
  addr  : Nat := 0
  aux32 : Nat := 0
  aux64 : Nat := 0

/-- Why an instruction does not complete now. -/
inductive Stop where
  /-- A trap, with the records its cause writes. -/
  | trap (cause : BitVec 8) (val : W64) (recs : List RecArgs)
  /-- A trap whose description keeps effects (R15, R239). -/
  | kept (m : M) (cause : BitVec 8) (val : W64)
  /-- Not ready (R132). -/
  | stall
  /-- Not ready: an access is held by a motion, by its die and source frame (R57). -/
  | wait (die src : Nat)
  /-- Parked until what it waits for arrives. -/
  | park (m : M) (w : Wait) (f : Finish)
  /-- A page-fault service is needed (R232): address, code of the record, write, fetch. -/
  | service (va : Nat) (code : Nat) (write fetch : Bool)
  /-- Poison is consumed (R247), with the machine in which its error has been detected (R44). -/
  | poison (s : State)
  /-- The outcome is this machine: the thread is gone. -/
  | done (s : State)

/-- What a meaning's body does. -/
abbrev Act := M → Except Stop M

def trapIf (c : Bool) (cause : BitVec 8) (val : W64) : Except Stop Unit :=
  if c then .error (.trap cause val []) else .ok ()

def stallIf (c : Bool) : Except Stop Unit := if c then .error .stall else .ok ()

/-! ## Operands (R13, R137, R147) -/

/-- The queue register a field names (R275). -/
def queueOf (f : F6) : Option (Fin 8) := if 48 ≤ f.toNat ∧ f.toNat < 56 then some (Fin.ofNat 8 (f.toNat - 48)) else none

/-- The thread whose registers are read. -/
def M.rthr (m : M) : Thread := m.snap.elim m.thr (·.1)
def M.rw (m : M) : Vector Cap 16 := m.snap.elim m.core.w (·.2)

/-- A scalar source (R13): `c0` and an absent literal read as untagged zero, the literal sign-extended, a queue register as its head entry. -/
def M.src (m : M) (f : F6) : Cap :=
  let n := f.toNat
  if n = 0 then Cap.zero
  else if n < 32 then m.rthr.c.get (Fin.ofNat 32 n)
  else if n < 48 then m.rw.get (Fin.ofNat 16 (n - 32))
  else if n < 56 then Cap.ofInt ((m.rthr.q.get (Fin.ofNat 8 (n - 48))).fifo.headD 0)
  else ⟨(m.lit.getD 0).signExtend 128, false⟩

/-- An integer source (R296). -/
def M.int (m : M) (f : F6) : W64 := (m.src f).int

def M.setThr (m : M) (u : Fin 8) (f : Thread → Thread) : M :=
  if u = m.tid then { m with thr := f m.thr } else { m with core := { m.core with thr := m.core.thr.set u (f (m.core.thr.get u)) } }

/-- A thread of the instruction's core. -/
def M.getThr (m : M) (u : Fin 8) : Thread := if u = m.tid then m.thr else m.core.thr.get u

def Thread.setQ (t : Thread) (j : Fin 8) (f : Queue → Queue) : Thread := { t with q := t.q.set j (f (t.q.get j)) }

/-- An entry pushed to a queue register's channel (R147, R150). -/
def M.push (m : M) (j : Fin 8) (v : W64) : M :=
  match (m.thr.q.get j).bind with
  | .toThread u q => m.setThr (Fin.ofNat 8 u.toNat) (fun t => t.setQ (Fin.ofNat 8 q.toNat) fun x => { x with fifo := x.fifo ++ [v] })
  | .toTeam win team u q l cr rf =>
    let p : Packet := {
      rkey := win.rkey, kind := kQueue, dst := checkEndpoint win.wmodule win.rkey, src := endpointOf m.st m.core.id
      thr := BitVec.ofNat 3 m.tid.val, ctx := m.core.ctx, aux := BitVec.ofNat 16 (j.val + 8 * q.toNat + 64 * u.toNat)
      tag := BitVec.ofNat 10 (queueTag + j.val), addr := BitVec.ofNat 64 team, len := 1, payload := [v, BitVec.ofNat 64 (m.core.launch.toNat + 2 ^ 16 * m.core.team)] }
    let m1 : M := { m with thr := m.thr.setQ j fun x => { x with bind := .toTeam win team u q l (cr - 1) rf } }
    { m1 with st := m1.st.send p }
  | .unbound => m

/-- A scalar destination (R13, R137, R149). -/
def M.wr (m : M) (f : F6) (v : Cap) : M :=
  let n := f.toNat
  if n = 0 then m
  else if n < 32 then { m with thr := { m.thr with c := m.thr.c.set (Fin.ofNat 32 n) v } }
  else if n < 48 then { m with core := { m.core with w := m.core.w.set (Fin.ofNat 16 (n - 32)) v } }
  else match queueOf f with
    | some j => m.push j v.int
    | none => m

/-- An integer result (R13, `Wr`). -/
def M.wrInt (m : M) (f : F6) (v : W64) : M := m.wr f (Cap.ofInt v)

/-- A vector source; 63 broadcasts the literal by elements of `size` bytes (R276). -/
def M.vsrc (m : M) (f : F6) (size : Nat) : V512 :=
  let n := f.toNat
  if h : n < 48 then m.rthr.v.get ⟨n, h⟩
  else
    let e := (m.lit.getD 0).toNat % 2 ^ (8 * size)
    BitVec.ofNat 512 ((List.range (64 / size)).foldl (fun acc j => acc + e * 2 ^ (8 * size * j)) 0)

def M.vwrite (m : M) (n : Nat) (v : V512) : M :=
  { m with thr := { m.thr with v := m.thr.v.set (Fin.ofNat 48 n) v }, vwr := n :: m.vwr }

def M.mask (m : M) (k : BitVec 3) : W64 := m.rthr.k.get k.toFin
def M.setMask (m : M) (k : BitVec 3) (v : W64) : M := { m with thr := { m.thr with k := m.thr.k.set k.toFin v } }

/-! ## What an instruction names (R132, R140, R144, R148) -/

/-- Registers an instruction reads or writes without a field of their own, or beside their field's first register. -/
def implicitUses (i : Instr) : List Use :=
  let group (d : F6) (n : Nat) (mk : F6 → Use) : List Use := (List.range n).map fun k => mk (BitVec.ofNat 6 (d.toNat + k))
  let base : Instr → List Use
    | .call _ | .ccall _ => [.sd 30]
    | .ret => [.ss 30]
    | .bfi d .. => [.ss d]
    | _ => []
  match i with
  | .widenedForm _ i | .literalForm _ _ i => base i
  | .rcall o => group o.x.c 4 .ss
  | .tvst o => if o.x.t2 = 0 then group o.d (o.x.c.toNat % 8 + 1) .vs else []
  | .tvld o | .tvldc o => if o.x.t2 = 0 then group o.d (o.x.c.toNat % 8 + 1) .vd else []
  | i => base i

def fieldsOf (i : Instr) : List Use := uses i ++ implicitUses i

/-- The vector register a use names. -/
def useVreg : Use → Option Nat
  | .vd f | .vs f => if f.toNat < 48 then some f.toNat else none
  | _ => none

/-- The scalar field of a use, and whether it is written. -/
def useScalar : Use → Option (F6 × Bool)
  | .sd f | .ed f => some (f, true)
  | .ss f | .es f => some (f, false)
  | _ => none

/-- Whether an instruction is a vector one: it enters the vector read stage (R143). -/
def isVector (i : Instr) : Bool :=
  let vec (i : Instr) : Bool := (i.vt).isSome || match i with
    | .vld .. | .vst .. | .vsacc .. | .vxpk .. | .vxacc .. | .vxfin .. | .vbsc .. => true
    | _ => false
  match i with
  | .pairWord _ i | .widenedForm _ i | .literalForm _ _ i => vec i
  | i => vec i

/-- Whether an instruction reads its D field's register in position C (R141, and the stored register of a vector store). -/
def readsDest : Instr → Bool
  | .vfma .. | .vfms .. | .vfnma .. | .vfnms .. | .vdot4 .. | .vdot2 .. | .vsad .. | .vins .. | .vsacc .. | .vxacc .. | .vst .. => true
  | _ => false

/-- The registers in positions A, B and C (R141). DEDUCED, log 20. -/
def positions (i : Instr) : List (Option (BitVec 6)) :=
  let reg (f : F6) : Option F6 := if f.toNat < 48 then some f else none
  let base (x : Option Ext) (i : Instr) : List (Option F6) :=
    let us := baseUses x i
    let srcs := us.filterMap fun
      | .vs f => some f
      | _ => none
    let d := us.findSome? fun
      | .vd f => some f
      | _ => none
    match x, readsDest i, srcs with
    | some _, true, [c, a, b] => [reg a, reg b, reg c]
    | _, true, [c, b] => match i with
      | .vst .. => [none, reg b, reg c]
      | _ => [reg c, reg b, d.bind reg]
    | _, true, [c] => match i with
      | .vst .. => [none, none, reg c]
      | _ => [reg c, none, d.bind reg]
    | _, _, [a, b] => [reg a, reg b, none]
    | _, _, [a] => match i with
      | .vld .. => [none, reg a, none]
      | _ => [reg a, none, none]
    | _, _, _ => [none, none, none]
  match i with
  | .pairWord _ v => base none v
  | .widenedForm x i | .literalForm x _ i => base (some x) i
  | .vqn4p _ o => [reg o.a, reg o.x.b, none]
  | .vqn4u _ o => [reg o.a, if o.x.x.getLsbD 3 then reg o.x.b else none, none]
  | i => base none i

/-- The read-stage cycles of an instruction (R143): registers that no latch holds, each once, over six banks. -/
def bankCycles (t : Thread) (ps : List (Option (BitVec 6))) : Nat :=
  let held := [t.latchA, t.latchB, t.latchC]
  let need := ((ps.zip held).filterMap fun (p, l) => if p.isSome && p != l then p else none).eraseDups
  1 + ((List.range 6).map fun b => (need.filter (fun r => decide (r.toNat % 6 = b))).length - 1).sum

/-- The K field's register of a form, when it gates the whole instruction (R296): scalar forms and extended-only operations. -/
def gateK (i : Instr) : BitVec 3 :=
  match i with
  | .widenedForm x v | .literalForm x _ v => if isVector v then 0 else x.k
  | .vqn4p .. | .vqn4u .. | .mrd .. | .mwr .. => 0
  | i => match xopCode i with
    | some (_, _, o) => o.x.k
    | none => 0

/-- The guard of a pair word's scalar slot is true (R278). -/
def guardOn (m : M) (p : PairSlot) : Bool := p.gk == 0 && !p.gp || ((m.mask p.gk).getLsbD 0 ^^ p.gp)

/-- The uses whose queue entries the instruction takes or sends: none of a gated-off instruction, none of a false guard's slot. -/
def activeUses (m : M) (i : Instr) : List Use :=
  match i with
  | .pairWord p v => (if guardOn m p then slotUses p else []) ++ baseUses none v
  | i => fieldsOf i

/-- Whether the instruction only checks its encoding because its K field's bit is 0 (R296). -/
def gatedOff (m : M) (i : Instr) : Bool := gateK i != 0 && !(m.mask (gateK i)).getLsbD 0

/-- Queue registers that an instruction reads. -/
def queueSrcs (us : List Use) : List (Fin 8) :=
  (us.filterMap fun
    | .ss f | .es f => queueOf f
    | _ => none).eraseDups

def queueDsts (us : List Use) : List (Fin 8) :=
  (us.filterMap fun
    | .sd f | .ed f => queueOf f
    | _ => none).eraseDups

/-- Whether a queue register is bound. -/
def Queue.bound (q : Queue) : Bool := !q.failed && match q.bind with
  | .unbound => false
  | _ => true

/-- Entries a queue register's channel can take now (R147, R148); 0 while the partner has not bound. -/
def M.room (m : M) (j : Fin 8) : Nat :=
  let q := m.thr.q.get j
  if q.failed then 0
  else match q.bind with
    | .unbound => 0
    | .toThread u k =>
      let p := (m.getThr (Fin.ofNat 8 u.toNat)).q.get (Fin.ofNat 8 k.toNat)
      if p.bind = .toThread (BitVec.ofNat 3 m.tid.val) (BitVec.ofNat 3 j.val) then 4 - p.fifo.length else 0
    | .toTeam _ _ _ _ linked cr rf => if linked && rf.isEmpty then cr else 0

/-- Whether both ends of a channel are bound (R147). -/
def M.linked (m : M) (j : Fin 8) : Bool :=
  match (m.thr.q.get j).bind with
  | .unbound => false
  | .toThread u k => ((m.getThr (Fin.ofNat 8 u.toNat)).q.get (Fin.ofNat 8 k.toNat)).bind =
      .toThread (BitVec.ofNat 3 m.tid.val) (BitVec.ofNat 3 j.val)
  | .toTeam _ _ _ _ l _ _ => l

/-! ## Deferred faults (R241–R244) -/

/-- The thread's tickets, oldest issue first. -/
def M.tickets (m : M) : List Ticket := m.core.tickets.filter (fun t => decide (t.thr = m.tid.val))

def Ticket.failed (t : Ticket) : Bool := t.st == .failed

/-- The trap value of a deferred fault (R244). -/
def Ticket.trapVal (t : Ticket) : W64 :=
  BitVec.ofNat 64 (t.pc.int.toNat % 2 ^ 56 * 256 + t.status.toNat * 16 + t.sub)

/-- A bit cleared, and set. -/
def bitOff {w : Nat} (x : BitVec w) (n : Nat) : BitVec w := x &&& ~~~(1#w <<< n)
def bitOn {w : Nat} (x : BitVec w) (n : Nat) : BitVec w := x ||| 1#w <<< n

/-- The destination register's pending bit and value after a report or a reply. -/
def M.clearDst (m : M) (f : F6) (vec : Bool) (v : Option Cap) : M :=
  let n := f.toNat
  if vec then { m with thr := { m.thr with pendV := bitOff m.thr.pendV n } }
  else
    let m1 := match v with
      | some v => m.wr f v
      | none => m
    if n < 32 then { m1 with thr := { m1.thr with pendC := bitOff m1.thr.pendC n } }
    else if n < 48 then { m1 with core := { m1.core with wpend := bitOff m1.core.wpend (n - 32) } }
    else m1

/-- A remote load has returned or failed: no acquire waits for it. -/
def Thread.loaded (t : Thread) (tag : Nat) : Thread := { t with acqOn := t.acqOn.filter fun x => decide (x ≠ tag) }

/-- A deferred fault reported at an instruction (R244): the entry is freed, its destination reads zero, and the trap names the
original instruction. -/
def M.report (m : M) (t : Ticket) : Stop :=
  let m1 : M := { m with core := { m.core with tickets := m.core.tickets.filter (fun x => decide (x.tag ≠ t.tag)) }, thr := m.thr.loaded t.tag }
  let m2 := if t.vec then (m1.clearDst t.d true none).vwrite t.d.toNat 0 else m1.clearDst t.d false (some Cap.zero)
  let m3 := if t.req.kind = kRcas then m2.clearDst t.e false (some Cap.zero) else m2
  .kept { m3 with ins := t.ins } causeRemoteDeferred t.trapVal

/-- The failed ticket whose destination the instruction accesses. -/
def M.deferredBy (m : M) (us : List Use) : Option Ticket :=
  m.tickets.find? fun t => t.failed && us.any fun u => match useScalar u, useVreg u with
    | some (f, _), _ => !t.vec && f != 0 && decide (f.toNat < 32) && (f == t.d || (t.req.kind == kRcas && f == t.e))
    | _, some n => t.vec && decide (t.d.toNat = n)
    | _, _ => false

/-- A pending deferred fault reported at a fence, a fabric-scope release or `halt`, oldest first. -/
def M.reportAny (m : M) : Except Stop Unit :=
  match m.tickets.find? (·.failed) with
  | some t => .error (m.report t)
  | none => .ok ()

/-! ## Checks before an instruction takes effect -/

/-- A core's command that another thread issued and the quad's unit has not completed writes an accumulator (R367). -/
def Quad.writes (q : Quad) (core : Nat) (t : ThrId) (z : BitVec 2) : Bool :=
  let mine (e : MatEntry) : Bool := decide (e.core = core) && e.thr != t && e.accs.contains z
  q.queue.any mine || match q.act with
    | some (.thread e _) => mine e
    | _ => false

/-- A register that the instruction reads or writes is pending (R140). -/
def M.pendingUse (m : M) : Use → Bool
  | .sd f | .ed f | .ss f | .es f =>
    let n := f.toNat
    if n < 32 then n != 0 && m.thr.pendC.getLsbD n else if n < 48 then m.core.wpend.getLsbD (n - 32) else false
  | .vd f | .vs f => m.thr.pendV.getLsbD f.toNat
  | .acc f => m.core.zpend.getLsbD f.toNat || (m.st.quad m.core.quadId).writes m.core.id m.who (f.setWidth 2)

/-- `QUEUE_UNBOUND` (R148): a queue destination that is unbound, or a source that is unbound and empty. -/
def M.queueTrap (m : M) (us : List Use) : Except Stop Unit :=
  match (us.findSome? fun u => match useScalar u with
    | some (f, w) => match queueOf f with
      | some j =>
        let q := m.thr.q.get j
        if !q.bound && (w || q.fifo.isEmpty) then some j.val else none
      | none => none
    | none => none) with
  | some j => .error (.trap causeQueueUnbound (BitVec.ofNat 64 j) [])
  | none => .ok ()

/-- A queue register's channel makes the instruction wait (R148). -/
def M.queueWait (m : M) (us : List Use) : Bool :=
  (queueSrcs us).any (fun j => let q := m.thr.q.get j; q.bound && q.fifo.isEmpty)
    || (queueDsts us).any (fun j => (m.thr.q.get j).bound && m.room j == 0)

/-- Restartable mode (R128). -/
def M.restart (m : M) : Bool := m.core.lrec.restart

/-- An operation of system mode only (R234, R316, R342). -/
def sysOnly (i : Instr) : Bool :=
  let base : Instr → Bool
    | .eret | .tlbinv .. => true
    | .mfs _ n => decide (0x060 ≤ n.toNat ∧ n.toNat ≤ 0x064)
    | .mts _ n => decide ((0x060 ≤ n.toNat ∧ n.toNat ≤ 0x065) ∨ n.toNat = 0x080)
    | _ => false
  match i with
  | .widenedForm _ i | .literalForm _ _ i => base i
  | .rkreg .. | .rkrev .. | .mighint .. | .pgpin .. | .pgret .. | .logring .. | .keyset .. | .coreseal .. => true
  | i => base i

/-- An XMAT operation, which a launch without MATRIX may not run (R236, R368). -/
def isMatrix (i : Instr) : Bool :=
  match i with
  | .mmul .. | .mmult .. | .mgrp .. | .mq4 .. | .msacc .. | .mzero .. | .mldz .. | .mstz .. | .mrd .. | .mwr .. | .mrec ..
  | .mcmd .. | .mcmdGrant .. | .mwait .. => true
  | _ => false

/-- A write to a special register that no mode writes (R317): `PRIVILEGE` with value 3. -/
def readOnlySr (i : Instr) : Bool :=
  let ro (n : Nat) : Bool := decide (n ≤ 0x008 ∨ n = 0x010 ∨ n = 0x011 ∨ n = 0x040 ∨ (0x070 ≤ n ∧ n ≤ 0x073) ∨ n = 0x082)
  match i with
  | .mts _ n | .widenedForm _ (.mts _ n) | .literalForm _ _ (.mts _ n) => ro n.toNat
  | _ => false

/-- The uses that name registers of the issuing core: the accumulator of `mcmd` is the target's (R378). -/
def ownUses (i : Instr) (us : List Use) : List Use :=
  match i with
  | .mcmd .. => us.filter fun
    | .acc _ => false
    | _ => true
  | _ => us

/-- An instruction that issued before rows were gated, and executes again, finds them as they were (R145). -/
def Thread.rowsSnap (t : Thread) (w : Vector Cap 16) : Option (Thread × Vector Cap 16) := t.oldRows.map fun v => ({ t with v := v, oldRows := none }, w)

/-- Readiness (R132, R140, R143, R148) and the causes of R236 up to `QUEUE_UNBOUND`. -/
def gate (i : Instr) (m : M) : Except Stop Unit := do
  let us := fieldsOf i
  match us.findSome? useVreg with
  | none => pure ()
  | some _ => match us.findSome? (fun u => (useVreg u).bind fun n => if n < 6 * m.core.vrows ∨ m.thr.oldRows.isSome then none else some n) with
    | some n => .error (.trap causeRegAbsent (BitVec.ofNat 64 n) [])
    | none => pure ()
  match m.deferredBy us with
  | some t => .error (m.report t)
  | none => pure ()
  stallIf ((ownUses i us).any m.pendingUse)
  stallIf (m.queueWait us)
  stallIf (isVector i && decide (m.st.now < m.core.vbusy))
  if gatedOff m i then pure ()
  else do
    match m.thr.pendTrap with
    | some (c, v) => .error (.trap c v [])
    | none => pure ()
    trapIf (sysOnly i && !m.thr.sys) causePrivilege 0
    trapIf (readOnlySr i) causePrivilege 3
    trapIf (isMatrix i && !m.core.lrec.matrix) causeMatrix 1
    m.queueTrap (activeUses m i)

/-! ## Retiring -/

/-- The end of a loop level (R312), tested for an instruction at `a` that falls through; answers the thread and whether the PC
goes back. -/
def loopEnd (lvl : Fin 2) (a : W64) (t : Thread) : Thread × Bool :=
  let n := t.lcount.get lvl
  if n ≠ 0 ∧ a = t.lend.get lvl then
    if n.toNat > 1 then
      ({ t with lcount := t.lcount.set lvl (n - 1), pc := t.pc.setCursor (t.lstart.get lvl) }, true)
    else ({ t with lcount := t.lcount.set lvl 0 }, false)
  else (t, false)

/-- The sequential next PC, with the loop levels tested inner first (R272, R312). -/
def Thread.advance (t : Thread) (len : Nat) : Thread :=
  let a := t.pc.cursor
  let t0 := { t with pc := t.pc.setCursor (a + BitVec.ofNat 64 (4 * len)) }
  let (t1, b1) := loopEnd 1 a t0
  if b1 then t1 else (loopEnd 0 a t1).1

/-- A write to a vector register clears the latches that hold it (R142). -/
def clearLatch (vwr : List Nat) (l : Latch) : Latch :=
  match l with
  | some r => if vwr.contains r.toNat then none else l
  | none => none

/-- Vector registers written: the latches that hold one are cleared. -/
def Thread.unlatch (t : Thread) (vwr : List Nat) : Thread :=
  { t with latchA := clearLatch vwr t.latchA, latchB := clearLatch vwr t.latchB, latchC := clearLatch vwr t.latchC }

/-- The credit a mesh channel's sender gets back when an entry is popped (R147). -/
def creditReturn (m : M) (j : Fin 8) : State → State :=
  match (m.thr.q.get j).bind with
  | .toTeam win team u q _ _ _ => fun s =>
    if ownModule s win.wmodule then s.post (.queueCreditReturn ⟨windowLaunch s win.rkey, team, u.toNat⟩ q.toNat)
    else s.send { rkey := win.rkey, kind := kQueue, mode := 1, dst := checkEndpoint win.wmodule win.rkey, src := endpointOf m.st m.core.id
                  aux := BitVec.ofNat 16 (8 * q.toNat + 64 * u.toNat), addr := BitVec.ofNat 64 team }
  | _ => id

/-- One entry taken from a queue register. -/
def M.pop (m : M) (j : Fin 8) : M :=
  let f := creditReturn m j
  let m1 : M := { m with thr := m.thr.setQ j fun q => { q with fifo := q.fifo.tail } }
  { m1 with st := f m1.st }

/-! ## The arithmetic clock (R23, R26) -/

/-- The core cycle, from the last change of the clock, in which the core sees arithmetic edge `k`: the first at or after it. An arithmetic
cycle is 32 / (16 − n) core cycles at throttle level n. -/
def State.edgeSeen (s : State) (k : Nat) : Nat := (32 * k + (15 - s.throttle)) / (16 - s.throttle)

/-- The first arithmetic edge that the core sees in cycle `t` or later. -/
def State.edgeFrom (s : State) (t : Nat) : Nat := if t = 0 then 0 else (t - 1) * (16 - s.throttle) / 32 + 1

/-- Core cycles from now until `n` arithmetic cycles have passed: they begin at the edge seen now, or the next one, and end exactly (R26). -/
def State.arith (s : State) (n : Nat) : Nat := s.clockAt + s.edgeSeen (s.edgeFrom (s.now - s.clockAt) + n) - s.now

/-- The cycle in which a vector instruction whose reads end in cycle `t` leaves the read stage, and the datapath's count: it accepts two in
an arithmetic cycle, and an instruction that finds no place waits for the next (R26). -/
def State.datapath (s : State) (used : Nat × Nat) (t : Nat) : Nat × Nat × Nat :=
  let a := (t - s.clockAt) * (16 - s.throttle) / 32
  if used.1 < a then (t, a, 1)
  else if used.1 = a ∧ used.2 < 2 then (t, a, used.2 + 1)
  else (s.clockAt + s.edgeSeen (used.1 + 1), used.1 + 1, 1)

/-- The instruction commits: queue entries are taken, latches and read stage updated, flags kept, the PC moved. -/
def retire (i : Instr) (m0 m : M) : M :=
  let off := gatedOff m0 i
  let m1 := (if off then [] else queueSrcs (activeUses m0 i)).foldl M.pop m
  let t1 := m1.thr
  let m2 : M :=
    if isVector i then
      let ps := positions i
      let g (k : Nat) : Latch := clearLatch m.vwr (ps.getD k none)
      { m1 with thr := { t1 with latchA := g 0, latchB := g 1, latchC := g 2, retained := false },
                core := { m1.core with vbusy := (m.st.datapath m1.core.vpipe (m.st.now + bankCycles m0.thr ps)).1,
                                       vpipe := (m.st.datapath m1.core.vpipe (m.st.now + bankCycles m0.thr ps)).2, sundogC := m1.core.sundogC + 1 } }
    else { m1 with thr := { t1 with latchA := clearLatch m.vwr t1.latchA, latchB := clearLatch m.vwr t1.latchB,
                                    latchC := clearLatch m.vwr t1.latchC } }
  let t2 := m2.thr
  let t3 : Thread := { t2 with fpflags := t2.fpflags ||| m.flags.setWidth 64, granted := false, tile := [], held := [], pendTrap := none, waitEnd := none, oldRows := none }
  { m2 with thr := match m.npc with
    | some pc => { t3 with pc := pc }
    | none => t3.advance m.len }

/-! ## Traps (R233, R236) -/

/-- Taking a trap: the trap registers, the mode, and the handler's address; a trap inside a handler is a double trap. -/
def M.takeTrap (m : M) (cause : BitVec 8) (val : W64) : M :=
  let t := m.thr
  if t.status.getLsbD 2 then
    { m with thr := { t with run := .halted }, st := m.st.post (.launchTermination m.core.launch 3 0x10 none) }
  else
    let sys : W64 := t.status &&& 1
    { m with thr := { t with
        trappc := t.pc, trapcause := cause.setWidth 64, trapval := val, trapins := m.ins.setWidth 64
        status := 0b101 ||| (sys <<< 1)
        pc := m.core.desc.codecap.setCursor t.trapvec
        granted := false, tile := [], held := [], pendTrap := none, waitEnd := none, oldRows := none } }

/-- Returning from a trap (R236): the PC, mode and INTRAP; an untagged `TRAPPC` is a double trap that changes nothing else. -/
def M.trapReturn (m : M) : Except Stop M :=
  let t := m.thr
  if !t.trappc.tag then .error (.kept { m with thr := { t with status := t.status ||| 4 } } causeCapTag 0)
  else .ok { m with npc := some t.trappc, thr := { t with status := ((t.status >>> 1) &&& 1) ||| (t.status &&& 2) } }

/-! ## Services (R232) -/

/-- Opens or joins the service of a page; `add` notes who waits. A die that holds 4,096 services lets the request wait, parked. -/
def State.openService (s : State) (die : Nat) (ctx : BitVec 6) (va code : Nat) (write fetch : Bool) (add : Service → Service) :
    State × Nat :=
  let d := s.die die
  let page := va / 2 ^ 16
  match d.services.find? (fun x => x.ctx == ctx && decide (x.page = page)) with
  | some x => (s.setDie die fun d => { d with services := update (fun y => decide (y.num = x.num)) add d.services }, x.num)
  | none =>
    let n := ((List.range 4097).map (fun k => (d.svcNext + k) % 2 ^ 16)).find? (fun k => !d.services.any (fun x => decide (x.num = k)))
    let n := n.getD 0
    let s1 := s.setDie die fun d => { d with services := d.services ++ [add { num := n, ctx := ctx, page := page }],
                                             svcNext := (n + 1) % 2 ^ 16 }
    (s1.fault die 0x10 code ctx.toNat va n ((if write then 1 else 0) + (if fetch then 2 else 0)), n)

/-! ## Tenure, as accesses see it (R197–R202) -/

/-- The tensor region of a number. -/
def State.tregion? (s : State) (n : Nat) : Option TRegion := (s.die (n / 128)).tregions.find? (fun r => decide (r.num = n))
def State.setTregion (s : State) (n : Nat) (f : TRegion → TRegion) : State :=
  s.setDie (n / 128) fun d => { d with tregions := update (fun r => decide (r.num = n)) f d.tregions }

/-- Element bits of a format code (R186). -/
def fmtBits (f : BitVec 3) : Nat :=
  match f.toNat with
  | 0 | 3 => 32
  | 1 | 2 => 16
  | 7 => 4
  | _ => 8

/-- The element of a byte of memory, when it is tenured (R197). -/
def TRegion.elemAt (r : TRegion) (va : Nat) : Option (Nat × Nat) :=
  let v := va % 2 ^ 56
  let b := r.base % 2 ^ 56
  if v < b ∨ r.stride = 0 then none
  else
    let o := v - b
    let c := o % r.stride * 8 / fmtBits r.fmt
    if o / r.stride < r.rows ∧ c < r.cols then some (o / r.stride, c) else none

def meets (a b : Rect) : Bool :=
  decide (a.row < b.row + b.rows ∧ b.row < a.row + a.rows ∧ a.col < b.col + b.cols ∧ b.col < a.col + a.cols)

def rectHas (a : Rect) (p : Nat × Nat) : Bool :=
  decide (a.row ≤ p.1 ∧ p.1 < a.row + a.rows ∧ a.col ≤ p.2 ∧ p.2 < a.col + a.cols)

/-- The least rectangle that holds the elements. DEDUCED, log 26. -/
def boundRect (ps : List (Nat × Nat)) : Rect :=
  let r0 := ps.foldl (fun a p => Nat.min a p.1) 4096
  let r1 := ps.foldl (fun a p => Nat.max a p.1) 0
  let c0 := ps.foldl (fun a p => Nat.min a p.2) 8192
  let c1 := ps.foldl (fun a p => Nat.max a p.2) 0
  ⟨r0, c0, r1 + 1 - r0, c1 + 1 - c0⟩

/-- The tensor regions of a context that a set of bytes touches, with the elements touched. -/
def tenured (s : State) (ctx : BitVec 6) (bytes : List Nat) : List (Nat × List (Nat × Nat)) :=
  s.dies.toList.flatMap fun d => d.tregions.filterMap fun r =>
    if r.live && r.ctx == ctx then
      match bytes.filterMap r.elemAt with
      | [] => none
      | ps => some (r.num, ps)
    else none

/-- The team holds tenure that covers the elements of a region. -/
def Core.covers (c : Core) (n : Nat) (write : Bool) (ps : List (Nat × Nat)) : Bool :=
  c.tenures.any fun e => e.held && decide (e.region = n) && (e.write || !write) && ps.all (rectHas e.rect)

/-- Whether a request of rectangle `q` may be granted, given the region's records before it (R199). -/
def grantable (recs : List TenRec) (q : Rect) (write : Bool) : Bool :=
  recs.all fun r => !(meets r.rect q && (r.write || write))

/-- A team's thread, bound or saved, changed. -/
def State.onThread (s : State) (t : ThrId) (f : Thread → Thread) : State :=
  let g (c : Core) : Core := { c with thr := c.thr.set (Fin.ofNat 8 t.thr) (f (c.thr.get (Fin.ofNat 8 t.thr))) }
  match s.coreOf? t.launch t.team with
  | some c => s.setCore (g c)
  | none => { s with dies := s.dies.map fun d => { d with launches := d.launches.map fun l =>
      if l.id == t.launch then { l with saved := l.saved.map fun v => if v.team = t.team then { v with image := g v.image } else v } else l } }

/-- A parked thread returns to issue and executes its instruction again. -/
def State.resume (s : State) (t : ThrId) (f : Thread → Thread := id) : State :=
  s.onThread t fun x => match x.run with
    | .parked .. => f { x with run := .ready }
    | _ => x

/-- The queue served in arrival order (R199, R200): the records, and the grants made. A request that `blocked` holds back stays queued, and
later ones do not pass it where they conflict. -/
def serveList (blocked : TenRec → Bool) : List TenRec → List TenRec → List TenRec × List TenRec
  | _, [] => ([], [])
  | seen, r :: l =>
    let new := !r.held && !blocked r && grantable seen r.rect r.write
    let r1 : TenRec := if new then { r with held := true } else r
    let (a, b) := serveList blocked (seen ++ [r1]) l
    (r1 :: a, if new then r1 :: b else b)

/-- Whether a queued request of the region may stand before the split grids (R200): only exact sub-tiles of a split rectangle. -/
def splitAllows (r : TRegion) (q : Rect) : Bool :=
  r.splits.all fun (p, gr, gc) => !meets p q ||
    (decide (q.rows * gr = p.rows ∧ q.cols * gc = p.cols ∧ p.row ≤ q.row ∧ p.col ≤ q.col ∧ (q.row - p.row) % q.rows = 0 ∧
      (q.col - p.col) % q.cols = 0 ∧ q.row < p.row + p.rows ∧ q.col < p.col + p.cols))

/-- A team's core changed, bound or in its saved image. -/
def State.onImage (s : State) (l : BitVec 16) (team : Nat) (f : Core → Core) : State :=
  match s.coreOf? l team with
  | some c => s.setCore (f c)
  | none => { s with dies := s.dies.map fun d => { d with launches := d.launches.map fun x =>
      if x.id == l then { x with saved := x.saved.map fun v => if v.team = team then { v with image := f v.image } else v } else x } }

/-- Serving a region's queue (R200): the grants made return their threads to issue, and a team's tenure table, bound or saved, holds
them (R205). Requests behind a split wait. -/
def State.serveQueue (s : State) (n : Nat) : State :=
  match s.tregion? n with
  | none => s
  | some r =>
    let (recs, granted) := serveList (fun x => !x.oneShot && !splitAllows r x.rect) [] r.recs
    let s := s.setTregion n fun r => { r with recs := recs }
    granted.foldl (fun s g =>
      let s := s.resume ⟨g.launch, g.team, g.thr⟩ fun x => { x with granted := true }
      if g.oneShot then s
      else s.onImage g.launch g.team fun c =>
        { c with tenures := update (fun e => decide (e.slot = g.slot)) (fun e => { e with held := true }) c.tenures }) s

/-- A one-shot record is of this thread. -/
def TenRec.shotOf (x : TenRec) (t : ThrId) : Bool :=
  x.oneShot && x.launch == t.launch && decide (x.team = t.team) && decide (x.thr = t.thr)

/-- Whether the thread has a granted one-shot record of this rectangle in a region. -/
def oneShotHeld (r : TRegion) (t : ThrId) (q : Rect) : Bool := r.recs.any fun x => x.shotOf t && x.held && x.rect == q

/-- The thread's one-shot records leave the directory, and the queue is served (R200, R202). -/
def State.dropOneShot (s : State) (n : Nat) (t : ThrId) : State :=
  (s.setTregion n fun r => { r with recs := r.recs.filter fun x => !x.shotOf t }).serveQueue n

/-- Those of every region: the instruction that queued them does not complete. -/
def State.dropOneShots (s : State) (t : ThrId) : State :=
  (s.dies.toList.flatMap fun d => (d.tregions.filter fun r => r.recs.any fun x => x.shotOf t).map (·.num)).foldl
    (fun s n => s.dropOneShot n t) s

/-- Records held or queued in the directory slice of a region; it has 2,048 (R198). -/
def State.recRoom (s : State) (n : Nat) : Bool :=
  decide ((((s.die (n / 128)).tregions.filter fun t => decide (t.num % 64 = n % 64)).map (·.recs.length)).sum < 2048)

/-- Cycles before a refused registration is tried again: 1 µs, doubling to at most 64 µs (R193). -/
def retryAfter (tries : Nat) : Nat := us (2 ^ Nat.min tries 6)

/-- A one-shot access of the thread to elements of a region (R202): performed now, or queued with the thread parked; without a free
record the request is tried again (R198). The answer tells whether a record of the thread's own must be dropped when the access has
performed. -/
def M.oneShot (m : M) (n : Nat) (ps : List (Nat × Nat)) (write : Bool) : Except Stop Bool :=
  match m.st.tregion? n with
  | none => .ok false
  | some r =>
    let q := boundRect ps
    if oneShotHeld r m.who q then .ok true
    else if grantable r.recs q write then .ok false
    else if m.st.recRoom n then
      let x : TenRec := { launch := m.core.launch, team := m.core.team, thr := m.tid.val, slot := 0, rect := q, write := write,
                          held := false, oneShot := true }
      .error (.park { m with st := m.st.setTregion n fun r => { r with recs := r.recs ++ [x] } } (.oneShot n 0) {})
    else .error (.park { m with st := m.st.after (retryAfter 0) (.tenureRequest m.who n q write) } (.oneShot n 0) {})

/-! ## Running an instruction -/

/-- A thread leaves issue. DEDUCED, log 10. -/
def M.park (m : M) (w : Wait) (f : Finish) : M := { m with thr := { m.thr with run := .parked w f, idleAt := m.st.now } }

/-- What is left when an instruction does not complete: `m0` is the thread before it. DESIGN CHOICE, log 9. DEDUCED, log 10. -/
def onStop (m0 : M) : Stop → State
  | .trap c v recs => ({ m0 with st := recs.foldl (fun s r => s.fault r.die r.kind r.code r.ctx r.addr r.aux32 r.aux64) m0.st } : M).takeTrap c v
      |>.flush
  | .kept m c v => (m.takeTrap c v).flush
  | .stall => { m0.flush with stalled := true }
  | .wait die src => { m0.flush.setMotion die src (fun x =>
      { x with heldThr := if x.heldThr.contains m0.who then x.heldThr else x.heldThr ++ [m0.who] }) with stalled := true }
  | .park m w f => (m.park w f).flush
  | .service va code wr fe =>
    let die := m0.core.die
    if (m0.st.die die).services.length ≥ 4096 then { m0.flush with stalled := true }
    else
      let (s, n) := m0.st.openService die m0.core.ctx va code wr fe (fun x => { x with threads := x.threads ++ [m0.who] })
      (({ m0 with st := s } : M).park (.service die n va) {}).flush
  | .poison s =>
    let s1 := s.post (.launchTermination m0.core.launch 1 0x10 (some m0.core.team))
    ({ m0 with st := s1, thr := { m0.thr with run := .halted } } : M).flush
  | .done s => s

/-- The thread that `cur` selects, when it may issue (R132). DESIGN CHOICE, log 9. -/
def enter (i : Instr) (s : State) : Option M :=
  match s.core? s.cur.1 with
  | none => none
  | some c =>
    let t := c.thr.get (Fin.ofNat 8 s.cur.2)
    if t.run = .ready ∧ !c.stopping then
      let ws := encode i
      some { st := { s with stalled := false }, core := c, tid := Fin.ofNat 8 s.cur.2, thr := t, ins := ws.headD 0, len := ws.length,
             snap := t.rowsSnap c.w
             lit := match i with
               | .literalForm _ l _ => some l
               | i => (xopCode i).bind fun (_, _, o) => o.lit }
    else none

/-- The checker finds a mismatch (R156–R158): the first discards the instruction for a replay, the second seals the core. DESIGN CHOICE, log 7. -/
def M.mismatch (m : M) : State :=
  let c := { m.core with sundog := m.core.sundog - 1 }
  if m.thr.replayed then (({ m with core := c } : M).flush).post (.coreSeal m.core.id 0 m.thr.pc.int)
  else ({ m with core := c, thr := { m.thr with replayed := true } } : M).flush

/-- The unit of a quad that is idle starts the next command, when one waits (R155). -/
def State.unitNext (s : State) (q : Nat) : State :=
  let x := s.quad q
  if x.act.isNone && !(x.queue.isEmpty && x.remq.isEmpty) then s.post (.matrixCommandStart q) else s

/-- The command for which a thread holds its quad's unit has ended (R239). -/
def State.leaveUnit (s : State) (q : Nat) (t : ThrId) : State :=
  match (s.quad q).act with
  | some (.thread e false) => if e.thr = t then (s.setQuad { s.quad q with act := none }).unitNext q else s
  | _ => s

/-- Whether the instruction has issued: a thread that is not ready has not (R132). -/
def Stop.issues : Stop → Bool
  | .stall | .wait .. => false
  | _ => true

/-- What is left when an instruction does not complete: a trap or poison ends its command in the matrix unit (R239), and with a service what it
queued as a one-shot access (R202). -/
def bodyStop (m : M) (e : Stop) : State :=
  match e with
  | .trap .. | .kept .. | .poison .. => ((onStop m e).dropOneShots m.who).leaveUnit m.core.quadId m.who
  | .service .. => (onStop m e).dropOneShots m.who
  | _ => onStop m e

/-- The thread's instruction is its own first issue, no replay, as its effect sees it (R158). -/
def M.fresh (m : M) : M := { m with thr := { m.thr with replayed := false } }

end

end Sys2Proof.Machine
end

