-- ==== Sys2Proof/Machine/Motion.lean ====
section
/-!
DEFINITION. The parts of a motion that accesses can cause (R42, R56, R58, R59, R61–R63): copying a granule, the shootdown of a
page, aborting and closing. What Drift does of itself is in Drift.lean.
-/
namespace Sys2Proof.Machine
open Sys2Proof

noncomputable section

/-- A tier by its code (R227): 0 HBM4, 1 LPDDR, 2 CXL. -/
def tierOf (pa : Nat) : Nat := if pa < 2 ^ 39 then 0 else if pa < 3 * 2 ^ 40 then 1 else 2

/-- The words of a leaf at a physical address, and its frame (R226, R227). -/
def State.leafWord (s : State) (leaf : Nat) : Nat := s.readPa (placeNow s leaf) 8 0
def State.companion (s : State) (leaf : Nat) : Nat := s.readPa (placeNow s (leaf + 8)) 8 0
def leafFrame (w : Nat) : Nat := bitsN w 51 16 * 2 ^ 16
def leafType (w : Nat) : Nat := if w % 2 = 1 then bitsN w 3 1 else 0

/-- A field of a number replaced. -/
def putBitsN (x hi lo v : Nat) : Nat := x % 2 ^ lo + 2 ^ lo * (v % 2 ^ (hi + 1 - lo)) + 2 ^ (hi + 1) * (x / 2 ^ (hi + 1))

/-- A word of a leaf written at its common level. -/
def State.setLeafWord (s : State) (leaf w : Nat) : State := (s.markMotion leaf).writePa (placeNow s leaf) 8 w 0

/-- The leaf compared with the word last read, and rewritten (R56). -/
def State.leafCas (s : State) (leaf old new : Nat) : Option State :=
  if s.leafWord leaf = old then some (s.setLeafWord leaf new) else none

/-- The key index of a page's companion word. -/
def keyIndex (w1 : Nat) : BitVec 10 := BitVec.ofNat 10 (bitsN w1 45 36)

/-- Drift as a master (R104). -/
def driftMaster : Master := ⟨0, true, 6⟩

/-- A 64-byte block copied between ports with its full/empty bits, tags and POISON (R42), under the page's key: the source port reads its
copy, the destination port writes the whole block. -/
def State.copyBlock (s : State) (key : BitVec 10) (a b : Nat) : State :=
  let s := s.portTouch a false
  let x := portBlk s a
  (s.portTouch b true true).putPort b { x with data := rekey (a / 64) x.enc (s.keyOf key) x.data, enc := s.keyOf key }

/-- The addresses of a granule's blocks. -/
def granBlocks (frame g : Nat) : List Nat := (List.range 32).map fun k => frame + 2048 * g + 64 * k

/-- A granule copied between frames. -/
def State.copyGranule (s : State) (key : BitVec 10) (src dst g : Nat) : State :=
  (granBlocks 0 g).foldl (fun s o => s.copyBlock key (src + o) (dst + o)) s

/-- Both ports' tables allow Drift's copy of a granule (R104): the first block that one refuses, with the permission asked. -/
def State.copyRefused (s : State) (src dst g : Nat) : Option (Nat × Nat) :=
  (granBlocks 0 g).findSome? fun o =>
    if !s.admits (src + o) driftMaster 1 then some (src + o, 1) else if !s.admits (dst + o) driftMaster 2 then some (dst + o, 2) else none

/-- A granule whose data is lost: its blocks at the source are poisoned. -/
def State.loseGranule (s : State) (src g : Nat) : State := (granBlocks src g).foldl (fun s a => s.setBadAt a true) s

/-- A block of the granule that the port would read from memory holds an uncorrectable error. -/
def State.badBlocks (s : State) (frame g : Nat) : List Nat :=
  (granBlocks frame g).filter fun a => (portCopy s a).isNone && s.ueMem.contains (a / 64)
def State.granuleBad (s : State) (frame g : Nat) : Bool := !(s.badBlocks frame g).isEmpty

/-- The records of the errors that a copy finds (R44). -/
def State.copyRecords (s : State) (blks : List Nat) : State :=
  blks.foldl (fun s b =>
    let (d, st) := station s b
    s.fault d 0x70 (tierCode s b) 0 b (1 + st * 2 ^ 16)) s

/-- A granule holds metadata that the CXL tier cannot keep (R43, R62). -/
def State.granuleMeta (s : State) (frame g : Nat) : Bool :=
  (granBlocks frame g).any fun a => let x := portBlk s a; x.tags != 0 || x.fe != 0xFF

/-- The translations of a frame that quads hold: quad, context, virtual address. A line that was filled under one counts as one, also when
its TLB entry has been replaced since. DEDUCED, log 21. -/
def holders (s : State) (frame : Nat) : List (Nat × BitVec 6 × Nat) :=
  s.quads.flatMap fun q =>
    let t := q.tlb.filterMap fun e => if e.level = 0 ∧ leafFrame e.leaf.toNat = frame then some (q.id, e.ctx, e.page * 2 ^ 16) else none
    let l := q.l1.filterMap fun l => if l.pa / 2 ^ 16 * 2 ^ 16 = frame then some (q.id, l.ctx, l.va / 2 ^ 10 * 2 ^ 16) else none
    (t ++ l).eraseDups

/-- Shootdowns sent to every quad that holds a translation of the page (R61). -/
def State.sendShoots (s : State) (d src : Nat) : State :=
  let hs := holders s src
  let s := hs.foldl (fun s (q, c, va) => s.post (.quadShootdown q c va 1 d src)) s
  s.setMotion d src fun m => { m with waiting := hs.map (·.1) }

/-- A frame joins its die's free list, unless it is retired (R250). -/
def State.freeFrame (s : State) (pa : Nat) : State :=
  s.setDie (homeDie pa) fun d => if d.retired.contains (pa / 2 ^ 16) then d else match tierOf pa with
    | 0 => { d with freeHbm := setIns d.freeHbm pa }
    | 1 => { d with freeLp := setIns d.freeLp pa }
    | _ => { d with freeCxl := setIns d.freeCxl pa }

/-- A waiter that a full retry list refuses (R59, R85): a thread stays parked and tries again after 1 µs, doubling to at most 64 µs; a remote
requester is answered BUSY. -/
def State.refuseWaiter (s : State) (acc : PortAccess) : State :=
  match acc.waiter with
  | some (.thread _) => s.after (us (2 ^ Nat.min acc.tries 6)) (.memoryPortAccess { acc with tries := acc.tries + 1 })
  | some (.remote p) => s.answer p { kind := kBusy, tag := p.tag, gen := p.gen, thr := p.thr, dst := p.src, src := p.dst, vn := 1, seq := p.seq }
  | _ => s

/-- An access that waits out its backoff follows its page. -/
def followPage (src dst : Nat) (e : Instr) : Instr :=
  match e with
  | .memoryPortAccess acc => if acc.pa / 2 ^ 16 = src / 2 ^ 16 then .memoryPortAccess { acc with pa := dst + acc.pa % 2 ^ 16 } else e
  | e => e

/-- The waiters of a page, in parking order, moved to the destination's port (R59). -/
def State.moveWaits (s : State) (src dst : Nat) : State :=
  let d := homeDie src
  let mine (w : PortWait) : Bool := decide (w.pa / 2 ^ 16 = src / 2 ^ 16)
  let ws := (s.die d).waits.filter mine
  let s : State := { s.setDie d (fun x => { x with waits := x.waits.filter fun w => !mine w }) with
    timers := s.timers.map fun t => (t.1, followPage src dst t.2), events := s.events.map (followPage src dst) }
  ws.foldl (fun s w =>
    let pa := dst + w.pa % 2 ^ 16
    let st := station s pa
    let acc := { w.acc with pa := pa }
    if ((s.die (homeDie dst)).waits.filter fun y => decide (station s y.pa = st)).length ≥ 256 then s.refuseWaiter acc
    else s.setDie (homeDie dst) fun x => { x with waits := x.waits ++ [{ pa := pa, acc := acc }] }) s

def State.dropMotion (s : State) (d src : Nat) : State :=
  s.setDie d fun x => { x with motions := x.motions.filter fun m => decide (m.src ≠ src) }

/-- The record of a migration abort (R63); DIE is that of the owner's station (R55). -/
def abortRecord (s : State) (m : Motion) (cause : Nat) : List Nat :=
  [0x21 + (station s m.src).1 % 8 * 2 ^ 8 + cause * 2 ^ 11 + tierOf m.src * 2 ^ 14 + tierOf m.dst * 2 ^ 16 + m.w % 64 * 2 ^ 18 + m.src / 2 ^ 16 * 2 ^ 24,
   m.dst, s.timeNs, m.dirty.toNat + m.lost.toNat * 2 ^ 32]

/-- The record closes once no shootdown is outstanding (R61, R62): the freed frame's lines in its slice are invalidated without writeback. -/
def State.motionClose (s : State) (d src : Nat) : State :=
  match (s.die d).motions.find? (fun m => decide (m.src = src)) with
  | none => s
  | some m =>
    if m.waiting ≠ [] then s
    else match m.phase with
      | .commit => (((s.moveWaits src m.dst).dropMotion d src).sliceDrop src).freeFrame src
      | .abort cause =>
        let s := (s.dropMotion d src).sliceDrop m.dst
        let s := if cause = 2 then s else s.freeFrame m.dst
        (s.setDie d fun x => { x with aborts := (x.aborts + 1) % 2 ^ 32 }).record (homeDie src) (abortRecord s m cause)
      | _ => s

/-- Steps 2 and 3 of an abort for one granule: the machine and the granule's LOST bit. Errors that the copy back finds are recorded
(R44, R64). -/
def abortGranule (key : BitVec 10) (m : Motion) (x : State × W32) (g : Nat) : State × W32 :=
  let (s, lost) := x
  let srcBad := s.granuleBad m.src g
  if g < m.w ∧ (m.dirty.getLsbD g ∨ srcBad) then
    if s.granuleBad m.dst g then ((s.copyRecords (s.badBlocks m.dst g)).loseGranule m.src g, bitOn lost g)
    else (s.copyGranule key m.dst m.src g, lost)
  else if srcBad then (s.loseGranule m.src g, bitOn lost g)
  else (s, lost)

/-- Causes of R62 that occur together with one that aborts a motion (R64): the steps of this cycle that would abort it, too. -/
def State.dueCauses (s : State) (m : Motion) : List Nat :=
  let ue (f : Nat) : Bool := s.ueMem.any fun b => decide (b / 1024 = f / 2 ^ 16)
  (s.events ++ (s.timers.filter fun t => decide (t.1 ≤ s.now)).map (·.2)).filterMap fun i => match i with
    | .motionTimeLimit _ src => if src = m.src then some 4 else none
    | .frameRetirement pa =>
      if pa / 2 ^ 16 = m.src / 2 ^ 16 then (if ue pa then some 0 else none)
      else if pa / 2 ^ 16 = m.dst / 2 ^ 16 then some (if ue pa then 1 else 2) else none
    | .cxlDynamicCapacityRelease ⟨false, base⟩ count => if base ≤ m.dst ∧ m.dst < base + count then some 2 else none
    | _ => none

/-- An abort of a motion that has not reached COMMIT (R62). DEDUCED, log 15. Step 4 compares and swaps: a leaf that no longer holds the moving
value, which the spec does not speak of, is left as it was found. DESIGN CHOICE, log 15. -/
def State.motionAbort (s : State) (d src cause : Nat) : State :=
  match (s.die d).motions.find? (fun m => decide (m.src = src)) with
  | none => s
  | some m =>
    if m.phase = .prep ∨ m.phase = .copy then
      let key := keyIndex (s.companion m.leaf)
      let (s, lost) := (List.range 32).foldl (abortGranule key m) (s, 0)
      let s := (s.leafCas m.leaf m.leafw.toNat (putBitsN (putBitsN m.leafw.toNat 3 1 2) 51 16 (src / 2 ^ 16))).getD s
      let cause := (s.dueCauses m).foldl Nat.min cause
      let s := s.setMotion d src fun m => { m with phase := .abort cause, lost := lost }
      (s.sendShoots d src).motionClose d src
    else s

/-- An access that would set metadata in a page moving to the CXL tier: the motion aborts first (R62, cause 5). -/
def State.metaConflict (s : State) (pa : Nat) : State :=
  match motionOf s pa with
  | some (d, m) => if tierOf m.dst = 2 then s.motionAbort d m.src 5 else s
  | none => s

/-! ## Scrubbing (R45) -/

/-- Cycles of 24 hours. -/
def dayCycles : Nat := us 86400000000

/-- The base and size of an address's stack or LPDDR package set. -/
def tierSpan (s : State) (pa : Nat) : Nat × Nat :=
  if tierOf pa = 0 then (pa / 2 ^ 36 * 2 ^ 36, (64 - s.cccur.toNat) * 2 ^ 30) else ((pa - 2 ^ 40) / 2 ^ 38 * 2 ^ 38 + 2 ^ 40, 192 * 2 ^ 30)

/-- The block that a port visits after a block: the next one of its pseudo-channel or controller, in rising address, round and round (R45). -/
def nextScrub (s : State) (blk : Nat) : Nat :=
  let pa := 64 * blk
  if (pa + 64) / 2 ^ 16 = pa / 2 ^ 16 then blk + 1
  else
    let (b, n) := tierSpan s pa
    let f (k : Nat) : Nat := b + ((pa - b) / 2 ^ 16 + 1 + k) % (n / 2 ^ 16) * 2 ^ 16
    (((List.range 256).map f).find? fun a => decide (station s a = station s pa)).getD pa / 64

/-- Cycles between a port's visits: every block once in 24 h. -/
def scrubEvery (s : State) (blk : Nat) : Nat := dayCycles / ((tierSpan s (64 * blk)).2 / (if tierOf (64 * blk) = 0 then 64 * 64 else 2 * 64))

/-- The scrub of every memory port and LPDDR controller begins (R45), at the first block of each. -/
def State.startScrub (s : State) : State :=
  let first (base n : Nat) (s : State) : State := (List.range n).foldl (fun s k =>
    let blk := (base + k * 2 ^ 16) / 64
    s.after (scrubEvery s blk) (.scrubVisit blk .clean)) s
  (List.range 8).foldl (fun s d => first (2 ^ 40 + d * 2 ^ 38) 2 (first (d * 2 ^ 36) 64 s)) s

end

end Sys2Proof.Machine
end

