-- ==== Sys2Proof/Machine/Regs.lean ====
section
/-!
DEFINITION. The device's registers at their physical addresses (R8, R9, R33, R47, R50, R52, R75, R88, R95, R103, R104, R111,
R171, R251, R409): the value read, and what a write does. A write with a row of its own in the opcode table posts that row's step.
-/
namespace Sys2Proof.Machine
open Sys2Proof

noncomputable section

/-- A register's place: an offset of the module range (`none`) or of a die's range. -/
structure RegAddr where
  die : Option Nat
  off : Nat
deriving DecidableEq, Repr

/-- A field of a register value replaced when a condition holds. -/
def setBits (x : W64) (hi lo : Nat) (v : Nat) : W64 :=
  BitVec.ofNat 64 (x.toNat % 2 ^ lo + 2 ^ lo * (v % 2 ^ (hi + 1 - lo)) + 2 ^ (hi + 1) * (x.toNat / 2 ^ (hi + 1)))

def fieldOf (x : W64) (hi lo : Nat) : Nat := bitsN x.toNat hi lo

/-- An access-table entry as its 256 bits (R104). -/
def entryBits (e : AccessEntry) : Nat :=
  (if e.v then 1 else 0) + (if e.r then 2 else 0) + (if e.w then 4 else 0) + (if e.a then 8 else 0) + e.prv.toNat * 2 ^ 50
    + e.ctxm.toNat * 2 ^ 52 + e.ctxv.toNat * 2 ^ 58 + e.cls.toNat * 2 ^ 64 + e.base.toNat * 2 ^ 88 + e.limit.toNat * 2 ^ 140

def entryOf (n : Nat) : AccessEntry where
  v := bitsN n 0 0 = 1
  r := bitsN n 1 1 = 1
  w := bitsN n 2 2 = 1
  a := bitsN n 3 3 = 1
  prv := BitVec.ofNat 2 (bitsN n 51 50)
  ctxm := BitVec.ofNat 6 (bitsN n 57 52)
  ctxv := BitVec.ofNat 6 (bitsN n 63 58)
  cls := BitVec.ofNat 8 (bitsN n 71 64)
  base := BitVec.ofNat 40 (bitsN n 127 88)
  limit := BitVec.ofNat 40 (bitsN n 179 140)

/-- The entry of a station's table; unwritten entries are invalid. -/
def Die.entry (d : Die) (st idx : Nat) : AccessEntry :=
  ((d.access.find? (fun (a, b, _) => a == st && b == idx)).map (fun (_, _, e) => e)).getD {}

/-- An entry written, the table kept by rising station and index. -/
def insEntry (st idx : Nat) (e : AccessEntry) : List (Nat × Nat × AccessEntry) → List (Nat × Nat × AccessEntry)
  | [] => [(st, idx, e)]
  | (a, b, x) :: l =>
    if a = st ∧ b = idx then (st, idx, e) :: l
    else if st < a ∨ (st = a ∧ idx < b) then (st, idx, e) :: (a, b, x) :: l
    else (a, b, x) :: insEntry st idx e l

/-- The station and index of an access-table offset (R104). -/
def tableAddr (off : Nat) : Option (Nat × Nat) :=
  if 0x400000 ≤ off ∧ off < 0x400000 + 77 * 0x400 then some (1024 + (off - 0x400000) / 0x400, (off - 0x400000) % 0x400 / 32)
  else none

/-- `MSTAT` (R33). -/
def State.mstatWord (s : State) : W64 := s.mstat

/-- `DSTAT` (R54). -/
def Die.dstat (d : Die) : W64 := BitVec.ofNat 64 (d.aborts % 2 ^ 32 * 2 ^ 32 + d.motions.length)

/-- The value of an 8-byte register; `none` for an offset that names no register (a hole, R36). -/
def regValue (s : State) (a : RegAddr) : Option W64 :=
  match a.die with
  | none =>
    if a.off = 0 then some s.mstatWord
    else if a.off = 0x100 then some (BitVec.ofNat 64 (s.cccur.toNat * 256 + s.ccnext.toNat))
    else if a.off = 0x200 then some (s.modid.setWidth 64)
    else if a.off = 0x300 then some s.ctxtb
    else if 0x1000 ≤ a.off ∧ a.off < 0x1200 ∧ a.off % 8 = 0 then some (s.hctx.get (Fin.ofNat 64 ((a.off - 0x1000) / 8)))
    else none
  | some d =>
    let x := s.die d
    if a.off = 0x100000 then some x.dctl
    else if a.off = 0x100008 then some x.dthr
    else if a.off = 0x100010 then some x.dftb
    else if a.off = 0x100018 then some x.dstat
    else if a.off = 0x200000 then some x.rtctl
    else if a.off = 0x300000 then some x.l2cfg
    else if a.off = 0x300008 then some (x.l2part.get 0)
    else if a.off = 0x300010 then some (x.l2part.get 1)
    else if a.off = 0x500000 ∧ (d = 0 ∨ d = 4) then some x.herr
    else if a.off = 0x600000 then some x.fqbase
    else if a.off = 0x600008 then some x.fqhead
    else if a.off = 0x600010 then some x.fqtail
    else if a.off = 0x600018 then some x.fqctl
    else if a.off = 0x600020 then some 0
    else match tableAddr a.off with
      | some (st, i) => if a.off % 8 = 0 then some (BitVec.ofNat 64 (entryBits (x.entry st i) / 2 ^ (64 * (a.off % 32 / 8)))) else none
      | none => none

/-- What reading `n` bytes from byte `k` does beside returning them: an RC field that is read is cleared (R8, R103). -/
def regReadEffect (s : State) (a : RegAddr) (k n : Nat) : State :=
  match a.die with
  | some d => if a.off = 0x500000 then s.setDie d fun x => { x with herr := BitVec.ofNat 64 (putBytes x.herr.toNat k n 0) } else s
  | none => s

/-- The bytes that a write does not give, as the register takes them: what it holds, and 0 for one whose bits a 1 clears (R8, W1C). -/
def regKept (a : RegAddr) (cur : W64) : W64 := if a.die.isNone && a.off == 0 then 0 else cur

/-- Registers that only class-5 masters write (R104, R171). -/
def class5Only (a : RegAddr) : Bool :=
  a.die.isSome && (decide (0x300000 ≤ a.off ∧ a.off ≤ 0x300010) || (tableAddr a.off).isSome)

/-- A write of a whole 8-byte value (R8): RO fields keep, refused values are ignored, rows of their own are the next step. DEDUCED, log 19. -/
def regWrite (s : State) (a : RegAddr) (v : W64) (m : Master) : State :=
  match a.die with
  | none =>
    if a.off = 0 then (if v.getLsbD 3 then s.postFirst .mstatThermClear else s)
    else if a.off = 0x100 then (if fieldOf v 3 0 ≤ 8 then { s with ccnext := v.setWidth 4 } else s)
    else if a.off = 0x300 then { s with ctxtb := v &&& 0x000FFFFFFFFFF001 }
    else if 0x1000 ≤ a.off ∧ a.off < 0x1200 then
      { s with hctx := s.hctx.set (Fin.ofNat 64 ((a.off - 0x1000) / 8)) (v &&& 0x000FFFFFFFFFFFFF) }
    else s
  | some d =>
    let set (f : Die → Die) : State := s.setDie d f
    if a.off = 0x100000 then
      set fun x =>
        let n := fieldOf v 28 24
        let low := setBits x.dctl 3 0 (fieldOf v 3 0)
        { x with dctl := if 1 ≤ n ∧ n ≤ 16 then setBits low 28 24 n else low }
    else if a.off = 0x100008 then
      set fun x =>
        let low := setBits x.dthr 15 0 (fieldOf v 15 0)
        { x with dthr := if fieldOf v 23 16 ≠ 0 then setBits low 23 16 (fieldOf v 23 16) else low }
    else if a.off = 0x100010 then set fun x => { x with dftb := v &&& 0x000FFFFFFFFFC001 }
    else if a.off = 0x200000 then
      set fun x =>
        let r1 := if fieldOf v 47 32 ≠ 0 then setBits x.rtctl 47 32 (fieldOf v 47 32) else x.rtctl
        { x with rtctl := if 64 ≤ fieldOf v 31 12 then setBits r1 31 12 (fieldOf v 31 12) else r1 }
    else if a.off = 0x300000 then (s.postFirst (.l2PoolWrite d v)).postFirst (.l2NpartWrite d v)
    else if a.off = 0x300008 then set fun x => { x with l2part := x.l2part.set 0 v }
    else if a.off = 0x300010 then set fun x => { x with l2part := x.l2part.set 1 v }
    else if a.off = 0x600000 then set fun x => { x with fqbase := v &&& 0x000FFFFFFFFFF01F }
    else if a.off = 0x600008 then s.postFirst (.fqheadWrite d v)
    else if a.off = 0x600018 then set fun x => { x with fqctl := v &&& 0xFFFF }
    else if a.off = 0x600020 then
      s.postFirst (if v.getLsbD 16 then .fsdoneRefuse d (fieldOf v 15 0) else .fsdoneResolve d (fieldOf v 15 0))
    else match tableAddr a.off with
      | some (st, i) =>
        let k := a.off % 32 / 8
        s.postFirst (.accessTableWrite d st i (entryOf (putBytes (entryBits ((s.die d).entry st i)) (8 * k) 8 v.toNat)) m)
      | none => s

/-- The outcome of a register access. -/
inductive RegRes where
  | ok (s : State) (v : W64)
  | refused (s : State)

/-- The register of a physical address, and the die whose Zenith core's table decides the access (R409). -/
def regAddr (s : State) (pa : Nat) : Option (RegAddr × Nat) :=
  match paKind s pa with
  | .modReg off => some (⟨none, off⟩, 0)
  | .dieReg d off => some (⟨some d, off⟩, d)
  | _ => none

/-- The die whose supervisor logs a register access to a hole outside the register ranges (R36): the home die of an address in a memory
window, else die 0. DEDUCED, log 14. -/
def regHoleDie (pa : Nat) : Nat := if pa < 2 ^ 45 then homeDie pa % 8 else 0

/-- A register access of 4 or 8 bytes (R409): the access table, holes, the access itself. A 4-byte write keeps the other half. -/
def regAccess (s : State) (pa size : Nat) (w : Option W64) (m : Master) : RegRes :=
  match regAddr s pa with
  | none =>
    if paKind s pa == .hole then
      .ok (s.fault (regHoleDie pa) 0x41 (if w.isSome then 2 else 1) m.ctx.toNat pa m.cls.toNat) (if size = 4 then 0xFFFFFFFF else -1)
    else .refused s
  | some (a, d) =>
    let need := if w.isSome then 2 else 1
    let whole : RegAddr := { a with off := a.off / 8 * 8 }
    if !accessOk (s.die d) 1100 pa m need then .refused (s.refuse d 1100 pa m need)
    else if w.isSome && class5Only whole && m.cls != 5 then .refused (s.refuse d 1100 pa m need)
    else match regValue s whole with
      | none => .ok (s.fault d 0x41 need m.ctx.toNat pa m.cls.toNat) (if size = 4 then 0xFFFFFFFF else -1)
      | some cur =>
        let k := a.off % 8
        match w with
        | none => .ok (regReadEffect s whole k size) (BitVec.ofNat 64 (sliceBytes cur.toNat k size))
        | some v => .ok (regWrite s whole (BitVec.ofNat 64 (putBytes (regKept whole cur).toNat k size v.toNat)) m) 0

end

end Sys2Proof.Machine
end

