-- ==== Sys2Proof/Machine/Access.lean ====
section
/-!
DEFINITION. How a thread reaches memory (R160–R168, R173–R176, R181–R184, R213, R224–R231, R409): translation, the quad's L1 and
TLB, local memory and the register window, acquires, and instruction fetch.
-/
namespace Sys2Proof.Machine
open Sys2Proof

noncomputable section

/-! ## Walks (R225–R228) -/

/-- The result of a walk. -/
inductive Walk where
  /-- Physical address, the leaf's words, its level and its address. -/
  | page (pa : Nat) (w0 w1 : W64) (lvl leaf : Nat)
  /-- Level and the type found. -/
  | invalid (lvl ty : Nat)
  | pending (lvl : Nat)
  | retired (lvl : Nat)
  /-- Level, type found and the entry's physical address. -/
  | malformed (lvl ty ea : Nat)
deriving DecidableEq, Repr

/-- The walk from a node at a level (R225). DEDUCED, log 8. -/
def walkAt (s : State) (va : Nat) : Nat → Nat → Walk
  | 0, node =>
    let ea := node + 16 * bitsN va 25 16
    let e := s.readPa (placeNow s ea) 16 0
    leafOf s va 0 ea (e % 2 ^ 64) (e / 2 ^ 64)
  | lvl + 1, node =>
    let ea := node + 16 * bitsN va (25 + 10 * (lvl + 1)) (16 + 10 * (lvl + 1))
    let e := s.readPa (placeNow s ea) 16 0
    let w0 := e % 2 ^ 64
    if w0 % 2 = 1 ∧ bitsN w0 3 1 = 1 ∧ bitsN w0 13 9 = 0 then walkAt s va lvl (bitsN w0 51 14 * 2 ^ 14)
    else leafOf s va (lvl + 1) ea w0 (e / 2 ^ 64)
where
  /-- An entry that is not followed to a next node. -/
  leafOf (_ : State) (va lvl ea w0 w1 : Nat) : Walk :=
    let t := bitsN w0 3 1
    if w0 % 2 = 0 ∨ t = 0 then .invalid lvl (if w0 % 2 = 0 then 0 else t)
    else if (t = 2 ∨ t = 3) ∧ lvl < 3 ∧ bitsN w0 15 9 = 0 ∧ w0 / 2 ^ 16 % 2 ^ (10 * lvl) = 0 ∧ bitsN w1 63 56 = 0 ∧ bitsN w1 55 54 ≠ 3 then
      .page (bitsN w0 51 16 * 2 ^ 16 + va % 2 ^ (16 + 10 * lvl)) (BitVec.ofNat 64 w0) (BitVec.ofNat 64 w1) lvl ea
    else if t = 4 then .pending lvl
    else if t = 5 then .retired lvl
    else .malformed lvl t ea

/-- The walk of a context's table, rooted at PTROOT (R224). -/
def walk (s : State) (root va : Nat) : Walk := walkAt s va 3 (root * 2 ^ 14)

/-- The home die's L2 serves no access now (R171). -/
def l2Waits (s : State) (pa : Nat) : Bool := (s.die (homeDie pa)).l2cfg.getLsbD 63

/-- The walk reads an entry in a die whose L2 serves no access now (R171). -/
def walkWaits (s : State) (va : Nat) : Nat → Nat → Bool
  | 0, node => l2Waits s (placeNow s (node + 16 * bitsN va 25 16))
  | lvl + 1, node =>
    let ea := placeNow s (node + 16 * bitsN va (25 + 10 * (lvl + 1)) (16 + 10 * (lvl + 1)))
    let w0 := s.readPa ea 8 0
    l2Waits s ea || (w0 % 2 = 1 && bitsN w0 3 1 = 1 && bitsN w0 13 9 = 0 && walkWaits s va lvl (bitsN w0 51 14 * 2 ^ 14))

/-- An address whose bits [63:56] equal bit 55 (R161). -/
def canonical (va : Nat) : Bool := va / 2 ^ 55 % 2 ^ 9 = 0 || va / 2 ^ 55 % 2 ^ 9 = 2 ^ 9 - 1

/-- A translated access: the physical address and the leaf's words. -/
structure XRes where
  pa : Nat
  w0 : W64
  w1 : W64

def XRes.key (x : XRes) : BitVec 10 := x.w1.extractLsb' 36 10
def XRes.logged (x : XRes) : Bool := x.w0.getLsbD 8

/-- The page permissions an access needs (R229): RD, W, X, CS. -/
structure PageNeed where
  rd : Bool := false
  w  : Bool := false
  x  : Bool := false
  cs : Bool := false

def PageNeed.met (n : PageNeed) (w0 : W64) : Bool :=
  (!n.rd || w0.getLsbD 4) && (!n.w || w0.getLsbD 5) && (!n.x || w0.getLsbD 6) && (!n.cs || w0.getLsbD 7)

def tlbHit (q : Quad) (ctx : BitVec 6) (va : Nat) : Option TlbEntry :=
  q.tlb.find? fun e => e.ctx == ctx && decide (e.page = va % 2 ^ 56 / 2 ^ (16 + 10 * e.level))

/-- The array of the TLB that an entry lies in (R167): a set of eight ways for 64 KiB pages, by the low bits of the page number, or the 64
entries for larger ones. DESIGN CHOICE of the set and of the replacement, log 44. -/
def tlbSet (e : TlbEntry) : Option Nat := if e.level = 0 then some (e.page % 256) else none
def tlbWays (e : TlbEntry) : Nat := if e.level = 0 then 8 else 64

/-- An entry becomes the most recently used; a new one takes the place of the one used least recently when its array is full. -/
def Quad.tlbPut (q : Quad) (e : TlbEntry) : Quad :=
  let rest := q.tlb.filter fun x => decide (x ≠ e)
  let mine := rest.filter fun x => decide (tlbSet x = tlbSet e)
  let out := if tlbWays e ≤ mine.length then mine.getLast? else none
  { q with tlb := e :: rest.filter fun x => decide (some x ≠ out) }

/-- Translation at the quad TLB, filled on a miss (R167, R228, R230, R231). A walk waits for an L2 that is busy (R171). -/
def M.xlat (m : M) (va : Nat) (write fetch : Bool) : Except Stop (M × XRes) := do
  let val : W64 := BitVec.ofNat 64 va
  trapIf (!canonical va) causeNotMapped val
  let v := va % 2 ^ 56
  let q := m.st.quad m.core.quadId
  match tlbHit q m.core.ctx v with
  | some e => pure ({ m with st := m.st.setQuad (q.tlbPut e) }, ⟨e.leaf.toNat / 2 ^ 16 % 2 ^ 36 * 2 ^ 16 + v % 2 ^ (16 + 10 * e.level), e.leaf, e.comp⟩)
  | none =>
    stallIf ((m.st.die m.core.die).lull || walkWaits m.st v 3 (m.core.desc.ptroot * 2 ^ 14))
    match walk m.st m.core.desc.ptroot v with
    | .page pa w0 w1 lvl _ =>
      trapIf (!w1.getLsbD (m.core.region / 2)) causeGroupMask val
      let e : TlbEntry := { ctx := m.core.ctx, level := lvl, page := v / 2 ^ (16 + 10 * lvl), leaf := w0, comp := w1 }
      pure ({ m with st := m.st.setQuad (q.tlbPut e) }, ⟨pa, w0, w1⟩)
    | .invalid lvl t => .error (.service va (t + 16 * lvl) write fetch)
    | .pending lvl => .error (.service va (4 + 16 * lvl) write fetch)
    | .retired _ => .error (.trap causeNotMapped val [])
    | .malformed lvl t ea => .error (.trap causeNotMapped val
        [{ die := m.core.die, kind := 0x76, code := t + 16 * lvl, ctx := m.core.ctx.toNat, addr := va, aux64 := ea }])

/-- Translation and page permissions (R228, R229): a frame in a hole raises `NOT_MAPPED`. -/
def M.page (m : M) (va : Nat) (need : PageNeed) (fetch : Bool := false) : Except Stop (M × XRes) := do
  let (m, x) ← m.xlat va (need.w) fetch
  trapIf (paKind m.st x.pa == .hole) causeNotMapped (BitVec.ofNat 64 va)
  trapIf (!need.met x.w0) causePagePerm (BitVec.ofNat 64 va)
  pure (m, x)

/-! ## The L1 (R166, R168) -/

/-- A refusal by the access table of an address's port, as the record it writes (R104). DEDUCED, log 38. -/
def portRefusal (s : State) (pa : Nat) (m : Master) (need : Nat) : List RecArgs :=
  let (d, st) := station s pa
  if accessOk (s.die d) st pa m need then []
  else [{ die := d, kind := 0x40, code := m.cls.toNat + (if m.priv then 8 else 0) + need * 16, ctx := m.ctx.toNat, addr := pa, aux32 := st }]

/-- A Lull lets no request leave the core's station (R92). The access is held by a motion's owner (R57): the thread waits, noted in the record; a thread the source serves goes on. -/
def M.placed (m : M) (pa : Nat) : Except Stop (M × Nat) :=
  if (m.st.die m.core.die).lull || l2Waits m.st pa then .error .stall
  else match place m.st pa with
  | .at a => .ok (m, a)
  | .held d src =>
    match (m.st.die d).motions.find? (fun x => decide (x.src = src)) with
    | some r =>
      if r.passed.contains m.who then .ok ({ m with st := m.st.setMotion d src fun x => { x with passed := x.passed.erase m.who } }, pa)
      else .error (.wait d src)
    | none => .ok (m, pa)

/-- Whether the metadata of a block is kept (R43). -/
def hasMeta (s : State) (pa : Nat) : Bool := paKind s pa != .cxl

/-- A block as a line is filled with it: what the common level holds, seen under the key of the translation. -/
def State.lineBlk (s : State) (a : Nat) (key : BitVec 10) : Blk :=
  let x := (cached s a).getD (s.dram (a / 64 * 64))
  { x with data := rekey (a / 64) x.enc (s.keyOf key) x.data, tags := if hasMeta s a then x.tags else 0 }

/-- A line replaced; one that the quad does not hold is not. -/
def State.putLine (s : State) (qid : Nat) (l : L1Line) : State :=
  let q := s.quad qid
  s.setQuad { q with l1 := update (fun y => decide (y.pa = l.pa)) (fun _ => l) q.l1 }

/-- The bytes of a mask that are set, merged from `d` over `old`. -/
def mergeBytes (mask : W64) (d old : Nat) : Nat :=
  (List.range 64).foldr (fun k acc => (if mask.getLsbD k then d / 2 ^ (8 * k) % 256 else old / 2 ^ (8 * k) % 256) + 256 * acc) 0

/-- A line's dirty bytes, and the tags of the granules they touch, merged in a block (R166). DEDUCED, log 21. -/
def L1Line.merge (l : L1Line) (blk : Nat) (tags : Bool) (k : Option (W128 × W128)) (x : Blk) : Blk :=
  { x with data := BitVec.ofNat 512 (mergeBytes l.dirty l.data.toNat (rekey blk x.enc k x.data).toNat), enc := k
           tags := (List.range 4).foldl (fun t g =>
             if (l.dirty.extractLsb' (16 * g) 16) ≠ 0 then putBit t g (tags && l.tags.getLsbD g) else t) x.tags
           poison := l.poison || (x.poison && l.dirty != -1) }

/-- A block at the common level changed: its highest copy. -/
def State.mapBlk (s : State) (a : Nat) (f : Blk → Blk) : State :=
  if (cached s a).isSome then s.mapCached a f else s.putDram (a / 64 * 64) (f (s.dram (a / 64 * 64)))

/-- A line's dirty bytes performed at the home slice or, where it allocates none, at the port, which checks its table (R39, R104, R166). -/
def State.writeCommon (s : State) (l : L1Line) : State :=
  let s := if l.tags = 0 then s else s.metaConflict l.pa
  let a := placeNow s l.pa
  let (s, ok) := (s.markMotion l.pa).claim a ⟨l.ctx, l.priv, 0⟩ (l.dirty == -1)
  if ok then s.mapBlk a (l.merge (a / 64) (hasMeta s a) (s.keyOf l.key)) else s

/-- A quad owns the line for narrow atomics (R175). -/
def ownedBy (s : State) (pa qid : Nat) : Bool := (s.quad qid).l1.any fun l => decide (l.pa = pa / 64 * 64) && l.own

/-- Exclusive ownership of a line recalled from the quad that has it: the line is written back and stays (R176). -/
def State.recallOwn (s : State) (pa : Nat) : State :=
  let b := pa / 64 * 64
  (s.quads.map (·.id)).foldl (fun s qid =>
    if ownedBy s pa qid then
      let s := ((s.quad qid).l1.filter fun l => decide (l.pa = b) && l.dirty != 0).foldl State.writeCommon s
      let q := s.quad qid
      s.setQuad { q with l1 := update (fun l => decide (l.pa = b)) (fun l => { l with own := false, dirty := 0 }) q.l1 }
    else s) s

/-- A writeback (R166): another quad's ownership of the line is recalled first, so that no write stands between an atomic and the write
it returned (R216). DEDUCED, log 21. -/
def State.writeback (s : State) (l : L1Line) : State :=
  if l.dirty = 0 then s else (if l.own then s else s.recallOwn l.pa).writeCommon l

/-- Lines of a quad that a predicate selects: written back, and invalidated or left clean. -/
def State.l1Clean (s : State) (qid : Nat) (p : L1Line → Bool) (invalidate : Bool) : State :=
  let q := s.quad qid
  let s := (q.l1.filter p).foldl State.writeback s
  let q := s.quad qid
  s.setQuad { q with l1 := if invalidate then q.l1.filter (fun l => !p l)
                           else q.l1.map (fun l => if p l then { l with dirty := 0 } else l) }

/-- Whether a selected dirty line's writeback would be held by a Lull (R92), a motion (R57) or an L2 that is busy (R171). -/
def heldLine (s : State) (qid : Nat) (p : L1Line → Bool) : Option Nat :=
  ((s.quad qid).l1.find? fun l => p l && l.dirty != 0 && ((s.die (qid / 256)).lull || l2Waits s l.pa || match place s l.pa with
    | .held .. => true
    | .at _ => false)).map (·.pa)

/-- The same for a thread, which waits while a writeback is held. -/
def M.l1Clean (m : M) (p : L1Line → Bool) (invalidate : Bool) : Except Stop M := do
  match heldLine m.st m.core.quadId p with
  | some pa =>
    let (m, _) ← m.placed pa
    pure { m with st := m.st.l1Clean m.core.quadId p invalidate }
  | none => pure { m with st := m.st.l1Clean m.core.quadId p invalidate }

/-- The slice and set of a line by its virtual line number, as R411 numbers it: VA[7:6] selects the slice. DESIGN CHOICE of the set, log 44. -/
def l1Set (vl : Nat) : Nat := 64 * (vl % 4) + vl / 4 % 64

/-- The ways that may hold a line of a quad (R166, R249). -/
def l1Ways (s : State) (qid vl : Nat) : List Nat :=
  (List.range 8).filter fun w => (s.die (qid / 256)).wayOk 5 (siteOf (4 * qid)) (l1Set vl) w

/-- A new line in the quad: it takes a way of its set, from which the line used least recently leaves, written back. Without a way it is
not kept. -/
def M.allocLine (m : M) (l : L1Line) : Except Stop (M × L1Line) := do
  let qid := m.core.quadId
  let set := (m.st.quad qid).l1.filter fun y => decide (l1Set y.va = l1Set l.va)
  match chooseWay (l1Ways m.st qid l.va) (set.map (·.way)) (set.map (·.way)) with
  | none => pure (m, l)
  | some w =>
    let m ← m.l1Clean (fun y => decide (l1Set y.va = l1Set l.va ∧ y.way = w)) true
    let q := m.st.quad qid
    let l := { l with way := w }
    pure ({ m with st := m.st.setQuad { q with l1 := l :: q.l1 } }, l)

/-- The L1 line of an access, fetched on a miss and now the most recently used; a line held under another address is retagged (R168). A
store's miss asks the port for reading and writing (log 38). DEDUCED, log 21. -/
def M.line (m : M) (va : Nat) (x : XRes) (store : Bool := false) : Except Stop (M × L1Line) := do
  let q := m.st.quad m.core.quadId
  let b := x.pa / 64 * 64
  let vl := va % 2 ^ 56 / 64
  match q.l1.find? (fun l => decide (l.pa = b)) with
  | some l =>
    let l' := { l with ctx := m.core.ctx, va := vl }
    pure ({ m with st := m.st.setQuad { q with l1 := l' :: q.l1.filter fun y => decide (y.pa ≠ b) } }, l')
  | none =>
    let (m, a) ← m.placed b
    let ask (need : Nat) : List RecArgs := if (l2Find m.st a).isSome then [] else portRefusal m.st a m.master need
    let recs := ask 1 ++ (if store && (ask 1).isEmpty then ask 2 else [])
    if recs.isEmpty then pure () else .error (.trap causePagePerm (BitVec.ofNat 64 va) recs)
    let s := m.st.l2Touch a false m.master
    let y := s.lineBlk a x.key
    ({ m with st := s } : M).allocLine { ctx := m.core.ctx, va := vl, pa := b, logged := x.logged, data := y.data, fe := y.fe, tags := y.tags,
                                         poison := y.poison, key := x.key }

/-! ## Loads and stores of translated memory -/

/-- The regions that the bytes of an access touch without a covering tenure of the team. -/
def M.uncovered (m : M) (bytes : List Nat) (write : Bool) : List (Nat × List (Nat × Nat)) :=
  (tenured m.st m.core.ctx bytes).filter fun (n, ps) => !m.core.covers n write ps

/-- Bytes read at the common level, past the L1. -/
def M.commonRead (m : M) (va n : Nat) (x : XRes) : Except Stop (M × Nat × Bool) := do
  let (m, a) ← m.placed x.pa
  let recs := if (l2Find m.st a).isSome then [] else portRefusal m.st a m.master 1
  if recs.isEmpty then pure () else .error (.trap causePagePerm (BitVec.ofNat 64 va) recs)
  let s := m.st.l2Touch a false m.master
  if s.badAt a then .error (.poison s) else pure ()
  pure ({ m with st := s }, s.readPa a n x.key, s.tagAt a && hasMeta s a)

/-- A piece of an access that lies in one line, read through the L1, with its granule's tag. -/
def M.readLine (m : M) (va n : Nat) (x : XRes) : Except Stop (M × Nat × Bool) := do
  let (m, l) ← m.line va x
  if l.poison then .error (.poison m.st) else pure ()
  pure (m, sliceBytes l.data.toNat (va % 64) n, l.tags.getLsbD (va % 64 / 16))

/-- The mask of `n` bytes from byte `k` of a line. -/
def byteMask (k n : Nat) : W64 := BitVec.ofNat 64 ((2 ^ n - 1) * 2 ^ k)

/-- A piece stored in the L1 (R166, R173); `tag` is given for a whole granule. A store of all 64 bytes clears POISON. A line that the quad
cannot keep is written back at once. -/
def M.writeLine (m : M) (va n v : Nat) (tag : Option Bool) (x : XRes) : Except Stop M := do
  let (m, l) ← m.line va x true
  let k := va % 64
  let g0 := k / 16
  let g1 := (k + n - 1) / 16
  let tags := (List.range 4).foldl (fun (t : BitVec 4) j => if g0 ≤ j ∧ j ≤ g1 then bitOff t j else t) l.tags
  let tags := if tag = some true then bitOn tags g0 else tags
  let l' := { l with data := BitVec.ofNat 512 (putBytes l.data.toNat k n v), dirty := l.dirty ||| byteMask k n, tags := tags,
                     poison := if n = 64 then false else l.poison, priv := m.thr.sys }
  let kept := (m.st.quad m.core.quadId).l1.any fun y => decide (y.pa = l.pa)
  pure { m with st := if kept then m.st.putLine m.core.quadId l' else m.st.writeback l' }

/-! ## Local memory and the register window (R151–R153, R162, R163) -/

/-- A byte of the register window: which register and which of its bytes (R151). -/
inductive WinByte where
  | c (t : Fin 8) (n : Fin 32) (k : Nat)
  | w (n : Fin 16) (k : Nat)
  | k (t : Fin 8) (n : Fin 8) (b : Nat)
  | v (n : Fin 48) (k : Nat)
  | reserved

def winByte (off : Nat) : WinByte :=
  if off < 0x3D000 then let o := off - 0x3C000; .c (Fin.ofNat 8 (o / 0x200)) (Fin.ofNat 32 (o % 0x200 / 16)) (o % 16)
  else if off < 0x3D100 then let o := off - 0x3D000; .w (Fin.ofNat 16 (o / 16)) (o % 16)
  else if off < 0x3D300 then let o := off - 0x3D100; .k (Fin.ofNat 8 (o / 0x40)) (Fin.ofNat 8 (o % 0x40 / 8)) (o % 8)
  else if 0x3E000 ≤ off ∧ off < 0x3EC00 then let o := off - 0x3E000; .v (Fin.ofNat 48 (o / 64)) (o % 64)
  else .reserved

def inWindow (off : Nat) : Bool := decide (0x3C000 ≤ off ∧ off < 0x40000)

/-- A byte of a word replaced. -/
def bvPutByte {w : Nat} (x : BitVec w) (k : Nat) (b : Byte) : BitVec w := BitVec.ofNat w (putBytes x.toNat k 1 b.toNat)
def bvByte {w : Nat} (x : BitVec w) (k : Nat) : Byte := BitVec.ofNat 8 (x.toNat / 2 ^ (8 * k))

/-- A byte of local memory as a thread of the team reads it. -/
def M.localByte (m : M) (off : Nat) : Byte :=
  if !inWindow off then m.core.mem.byte off
  else match winByte off with
    | .c t n k => if n = 0 then 0 else bvByte ((m.getThr t).c.get n).bits k
    | .w n k => bvByte (m.core.w.get n).bits k
    | .k t n b => bvByte ((m.getThr t).k.get n) b
    | .v n k => bvByte (m.thr.v.get n) k
    | .reserved => 0

/-- A block of local memory noted as written (R124). -/
def Core.soil (c : Core) (off : Nat) : Core := if inWindow off then c else { c with dirty := setIns c.dirty (off / 4096) }

/-- A byte of local memory as a thread of the team writes it; a register's tag is cleared. -/
def M.putLocalByte (m : M) (off : Nat) (b : Byte) : M :=
  if !inWindow off then { m with core := { m.core.soil off with mem := (m.core.mem.setTag off false).setByte off b } }
  else match winByte off with
    | .c t n k => if n = 0 then m else m.setThr t fun x => { x with c := x.c.set n ⟨bvPutByte (x.c.get n).bits k b, false⟩ }
    | .w n k => { m with core := { m.core with w := m.core.w.set n ⟨bvPutByte (m.core.w.get n).bits k b, false⟩ } }
    | .k t n k => m.setThr t fun x => { x with k := x.k.set n (bvPutByte (x.k.get n) k b) }
    | .v n k => m.vwrite n.val (bvPutByte (m.thr.v.get n) k b)
    | .reserved => m

/-- The gated vector register that bytes of the window name (R144), and whether a register they name is pending (R153). -/
def M.winAbsent (m : M) (off n : Nat) : Option Nat :=
  (List.range n).findSome? fun i => if !inWindow (off + i) then none else match winByte (off + i) with
    | .v r _ => if r.val < 6 * m.core.vrows then none else some r.val
    | _ => none

def M.winPending (m : M) (off n : Nat) : Bool :=
  (List.range n).any fun i => inWindow (off + i) && match winByte (off + i) with
    | .c t r _ => (m.getThr t).pendC.getLsbD r.val
    | .w r _ => m.core.wpend.getLsbD r.val
    | .v r _ => m.thr.pendV.getLsbD r.val
    | _ => false

def M.winCheck (m : M) (off n : Nat) : Except Stop Unit := do
  match m.winAbsent off n with
  | some r => .error (.trap causeRegAbsent (BitVec.ofNat 64 r) [])
  | none => pure ()
  stallIf (m.winPending off n)

def M.localRead (m : M) (off : Nat) : Nat → Nat
  | 0 => 0
  | n + 1 => (m.localByte off).toNat + 256 * M.localRead m (off + 1) n

def M.localWrite (m : M) (off : Nat) : Nat → Nat → M
  | 0, _ => m
  | n + 1, v => M.localWrite (m.putLocalByte off (BitVec.ofNat 8 v)) (off + 1) n (v / 256)

/-- The tag of a granule of local memory: a register's in the window. -/
def M.localTag (m : M) (off : Nat) : Bool :=
  if !inWindow off then m.core.mem.tag off
  else match winByte off with
    | .c t n _ => n != 0 && ((m.getThr t).c.get n).tag
    | .w n _ => (m.core.w.get n).tag
    | _ => false

/-- The tag of a whole granule written. -/
def M.putLocalTag (m : M) (off : Nat) (b : Bool) : M :=
  if !inWindow off then { m with core := { m.core.soil off with mem := m.core.mem.setTag off b } }
  else match winByte off with
    | .c t n _ => if n = 0 then m else m.setThr t fun x => { x with c := x.c.set n { x.c.get n with tag := b } }
    | .w n _ => { m with core := { m.core with w := m.core.w.set n { m.core.w.get n with tag := b } } }
    | _ => m

/-! ## Releases and acquires (R213) -/

/-- Tickets of the thread through a launch window to its own team (R165). -/
def M.ownWindow (m : M) : Bool :=
  m.tickets.any fun t => !t.failed && match m.st.coreOf? m.core.launch m.core.team with
    | some _ => windowLaunch m.st t.req.rkey == m.core.launch && m.st.windowKey t.req.rkey && decide (t.req.addr.toNat / 0x40000 = m.core.team)
    | none => false

/-- A keyed request of the thread is outstanding. -/
def M.outstanding (m : M) : Bool := m.tickets.any (!·.failed)

/-- An earlier load of the thread through a window has not returned. -/
def M.loadsOut (m : M) : Bool := m.tickets.any fun t => !t.failed && t.req.kind == kRld

/-- A fabric scope (R212). -/
def fabric (sc : Scope) : Bool := decide (5 ≤ sc.toNat)

/-- A write-held line of the quad's teams is exempt from invalidation (R213). -/
def writeHeld (s : State) (qid : Nat) (l : L1Line) : Bool :=
  let bytes := (List.range 64).map fun k => 64 * l.va + k
  (tenured s l.ctx bytes).any fun (n, ps) => s.cores.any fun c => decide (c.quadId = qid) && c.ctx == l.ctx && c.covers n true ps

/-- The acquire of an operation that has completed, when nothing can wait any more (a wake's acquire, R325). -/
def State.acquireNow (s : State) (c : Core) (sc : Scope) : State :=
  if sc.toNat ≤ 1 then s
  else s.l1Clean c.quadId (fun l => l.ctx == c.ctx && (decide (4 ≤ sc.toNat) || decide (homeDie l.pa = c.die)) && !writeHeld s c.quadId l) true

/-- The acquire of a thread's operation that has completed: at a fabric scope its later accesses also wait for the earlier remote loads whose
replies have not arrived (R213). -/
def State.acquireBy (s : State) (c : Core) (tid : Nat) (sc : Scope) : State :=
  let loads := c.tickets.filter fun t => decide (t.thr = tid) && !t.failed && t.req.kind == kRld
  let s := s.acquireNow c sc
  if fabric sc then s.onThread ⟨c.launch, c.team, tid⟩ fun x => { x with acqOn := x.acqOn ++ loads.map (·.tag) } else s

/-- An access waits behind an acquire whose reply, or an earlier load's that it waits for, has not arrived (R213, R338). -/
def M.acqPending (m : M) : Bool :=
  m.tickets.any fun t => !t.failed && (t.acq.isSome || (t.req.kind == kRld && m.thr.acqOn.contains t.tag))

/-! ## Instruction fetch (R135, R235, R272) -/

/-- Lines of the instruction cache: 16 KiB, fully associative, the most recently used first. DESIGN CHOICE of the organisation, log 44. -/
def icacheLines : Nat := 256

/-- A line read by a fetch becomes the most recently used, and its half fills the thread's fetch buffer. -/
def M.fetchFrom (m : M) (va : Nat) (l : ICLine) : M × W32 :=
  let h := va % 64 / 32
  let half : BitVec 256 := BitVec.ofNat 256 (sliceBytes l.data.toNat (32 * h) 32)
  ({ m with core := { m.core with icache := l :: (m.core.icache.filter fun x => decide (x.va ≠ l.va)).take (icacheLines - 1) }
            thr := { m.thr with fbuf := some (va % 2 ^ 56 / 32, half) } },
   BitVec.ofNat 32 (sliceBytes half.toNat (va % 32) 4))

/-- The word at an address of the thread's PC capability: from its fetch buffer, the instruction cache, or the quad's L1; past the L1 where
the line lies in a tile that the team does not hold in tenure (R172). -/
def M.fetchWord (m : M) (va : Nat) : Except Stop (M × W32) := do
  match m.thr.fbuf.bind fun b => if b.1 = va % 2 ^ 56 / 32 then some b.2 else none with
  | some half => pure (m, BitVec.ofNat 32 (sliceBytes half.toNat (va % 32) 4))
  | none =>
    match m.core.icache.find? (fun l => decide (l.va = va % 2 ^ 56 / 64)) with
    | some l => pure (m.fetchFrom va l)
    | none =>
      let (m, x) ← m.page va { x := true } true
      trapIf (!(paKind m.st x.pa).isMem) causePagePerm (BitVec.ofNat 64 va)
      let (m, d) ←
        if (m.uncovered ((List.range 64).map (va / 64 * 64 + ·)) false).isEmpty then do
          let (m, l) ← m.line va x
          if l.poison then .error (.poison m.st) else pure (m, l.data)
        else do
          let (m, v, _) ← m.commonRead (va / 64 * 64) 64 { x with pa := x.pa / 64 * 64 }
          pure (m, BitVec.ofNat 512 v)
      pure (m.fetchFrom va ⟨va % 2 ^ 56 / 64, d⟩)

/-- The PC capability's checks for the word at `va` (R235, R236). -/
def pcCheck (pc : Cap) (va : Nat) : Except Stop Unit := do
  trapIf (!pc.tag) causeCapTag 64
  trapIf (pc.kind != 0) causeCapType 64
  trapIf (!pc.perm permEX) causeCapPerm 64
  trapIf (decide (va < pc.base ∨ pc.top < va + 4)) causeCapBounds (BitVec.ofNat 64 va)

/-- `n` words from `va`. -/
def M.fetchWords (m : M) (va : Nat) : Nat → Except Stop (M × List W32)
  | 0 => .ok (m, [])
  | n + 1 => do
    pcCheck m.thr.pc va
    trapIf (va % 4 != 0) causeMisaligned (BitVec.ofNat 64 va)
    let (m, w) ← m.fetchWord va
    let (m, ws) ← m.fetchWords (va + 4) n
    pure (m, w :: ws)

/-- The words of the instruction at the PC: the first, then as many as its L field gives. DESIGN CHOICE, log 9. -/
def M.fetchInstr (m : M) : Except Stop (M × List W32) := do
  let a := m.thr.pc.cursor.toNat
  let (m, ws) ← m.fetchWords a 1
  let w := ws.headD 0
  let (m, rest) ← m.fetchWords (a + 4) (wordCount w - 1)
  pure (m, w :: rest)

end

end Sys2Proof.Machine
end

