-- ==== Sys2Proof/Machine/Port.lean ====
section
/-!
DEFINITION. Accesses at the point of coherence (R39, R85, R174–R176) and at a local SRAM (R163): full/empty operations, atomics,
compare-and-swap, their waiting lists and wakes, and threads that return to issue.
-/
namespace Sys2Proof.Machine
open Sys2Proof

noncomputable section

/-! ## Operations on one word -/

/-- The new value of an atomic (R327) on `8s`-bit numbers. -/
def amoOp (op : BitVec 3) (s old b : Nat) : Nat :=
  let w := 8 * s
  let sg (x : Nat) : Int := if x < 2 ^ (w - 1) then x else (x : Int) - 2 ^ w
  match op.toNat with
  | 0 => (old + b) % 2 ^ w
  | 1 => old &&& b
  | 2 => old ||| b
  | 3 => old ^^^ b
  | 4 => if sg old ≤ sg b then old else b
  | 5 => if sg old ≤ sg b then b else old
  | 6 => Nat.min old b
  | _ => b

/-- Whether a full/empty access proceeds on a word (R324). -/
def feReady (k : AccKind) (full : Bool) : Bool :=
  match k with
  | .ldfe 1 | .ldfe 2 => full
  | .stfe 1 => !full
  | _ => true

/-- The word's state after a full/empty access that proceeds (R324). -/
def feAfter (k : AccKind) (full : Bool) : Bool :=
  match k with
  | .ldfe 2 => false
  | .stfe 0 | .stfe 1 => true
  | .stfe 2 => false
  | _ => full

/-- Whether it stores data. -/
def AccStores : AccKind → Bool
  | .write | .amo _ | .cas => true
  | .stfe m => m != 2
  | _ => false

/-- The access-table permission an access asks (R104). -/
def accNeed : AccKind → Nat
  | .read | .ldfe 0 => 1
  | .write | .stfe 3 => 2
  | _ => 4

/-- The value an access returns: the word, or for `ldfe.st` its state (R324). -/
def accValue (k : AccKind) (old : Nat) (full : Bool) : Nat :=
  match k with
  | .ldfe 3 => if full then 1 else 0
  | _ => old

/-- The outcome of an access at a port. -/
inductive PortRes where
  /-- It executed; the value it returns and, for a compare-and-swap, whether it stored. -/
  | done (s : State) (v : Nat) (ok : Bool)
  /-- Its condition does not hold. -/
  | parked (s : State)
  | refused (s : State)
  | poison (s : State)

/-- The data part of an access on a word whose old value is known. -/
def accData (acc : PortAccess) (old : Nat) : Option Nat :=
  match acc.kind with
  | .write => some acc.data.toNat
  | .amo op => some (amoOp op acc.size old (acc.data.toNat % 2 ^ (8 * acc.size)))
  | .cas => if old = acc.cmp.toNat % 2 ^ (8 * acc.size) then some acc.data.toNat else none
  | .stfe 2 => none
  | .stfe _ => some acc.data.toNat
  | _ => none

/-- An access executed where its bytes lie (`a`), without checks: data, tags, full/empty state (R39, R173, R174). -/
def State.execAt (s : State) (acc : PortAccess) (a : Nat) : State × Nat × Bool :=
  let old := s.readPa a acc.size acc.key
  let full := !hasMeta s a || s.fullAt a
  let new := accData acc old
  let s1 := match new with
    | some v => (s.markMotion acc.pa).writePa a acc.size v acc.key
    | none => s
  let s2 : State := if hasMeta s a && feAfter acc.kind full != full then
      (s1.markMotion acc.pa).setFullAt a (feAfter acc.kind full) else s1
  (s2, accValue acc.kind old full, new.isSome)

/-- A waiter whose access has executed: the thread's notice, or the sender's reply. -/
def State.wake (s : State) (w : Option Waiter) (kind : AccKind) (v : Nat) : State :=
  match w with
  | some (.thread t) => s.post (.fewakeNotice t (BitVec.ofNat 64 v))
  | some (.remote p) => s.answer p (replyTo p (match kind with
      | .ldfe _ | .read => kData
      | _ => kDone) 0 v)
  | _ => s

/-- The home slice gives up its copy, and quads their ownership (R174, R175, R221). -/
def State.yieldLine (s : State) (pa : Nat) : State := (s.recallOwn pa).l2Drop (placeNow (s.recallOwn pa) pa)

/-- The retry list of a word's port, each waiter in parking order whose condition holds (R85); after each, the list is tried
again from its start. -/
def State.retryWord : Nat → Nat → State → State
  | 0, _, s => s
  | f + 1, pa, s =>
    let d := homeDie pa
    let a := placeNow s pa
    match (s.die d).waits.find? (fun w => decide (w.pa / 8 = pa / 8) && feReady w.acc.kind (s.fullAt a)) with
    | none => s
    | some w =>
      let s1 := s.setDie d fun x => { x with waits := x.waits.erase w }
      let s1 := s1.yieldLine pa
      let (s2, v, _) := s1.execAt w.acc (placeNow s1 w.acc.pa)
      State.retryWord f pa (s2.wake w.acc.waiter w.acc.kind v)

/-- The waiters on a word retried after its state has changed. -/
def State.retryAt (s : State) (pa : Nat) : State := State.retryWord ((s.die (homeDie pa)).waits.length + 1) pa s

/-- An access at its memory port or cache port (R39, R49, R85): the access table, detection of errors, the condition, the effect,
and the retry list when a word's state has changed. -/
def State.portExec (s : State) (acc : PortAccess) : PortRes :=
  let s := match acc.kind with
    | .ldfe 2 | .stfe 2 => s.metaConflict acc.pa
    | _ => s
  let a := placeNow s acc.pa
  let (d, st) := station s a
  let need := accNeed acc.kind
  if !accessOk (s.die d) st a acc.master need then .refused (s.refuse d st a acc.master need)
  else
    let s := s.portTouch a (AccStores acc.kind)
    let reads := match acc.kind with
      | .write | .stfe _ | .ldfe 3 => false
      | _ => true
    if reads && s.badAt a then .poison s
    else
      let full := !hasMeta s a || s.fullAt a
      if !feReady acc.kind full then .parked s
      else
        let (s1, v, ok) := s.execAt acc a
        let s2 := if s1.fullAt a != s.fullAt a then
            s1.retryAt acc.pa else s1
        .done s2 v ok

/-- Parking in the port's retry list of 256 entries (R85); `none` when it is full. -/
def State.parkAt (s : State) (acc : PortAccess) : Option State :=
  let d := homeDie acc.pa
  if ((s.die d).waits.filter fun w => decide (station s w.pa = station s acc.pa)).length ≥ 256 then none
  else some (s.setDie d fun x => { x with waits := x.waits ++ [{ pa := acc.pa, acc := acc }] })

/-! ## Shootdowns (R61, R167, R318) -/

/-- Which pages of 64 KiB a shootdown covers: `none` is every address. -/
abbrev PageRange := Option (Nat × Nat)

def inPages (r : PageRange) (lo n : Nat) : Bool :=
  match r with
  | none => true
  | some (p, k) => decide (lo < p + k ∧ p < lo + n)

/-- A quad's part: entries dropped, lines of the pages written back and invalidated. -/
def State.shootQuad (s : State) (qid : Nat) (ctx : Option (BitVec 6)) (r : PageRange) : State :=
  let mine (c : BitVec 6) : Bool := ctx.elim true (· == c)
  let q := s.quad qid
  let s := s.setQuad { q with tlb := q.tlb.filter fun e =>
    !(mine e.ctx && inPages r (e.page * 2 ^ (10 * e.level)) (2 ^ (10 * e.level))) }
  s.l1Clean qid (fun l => mine l.ctx && inPages r (l.va / 2 ^ 10) 1) true

/-- Every quad's part. -/
def State.shootAll (s : State) (ctx : Option (BitVec 6)) (r : PageRange) : State :=
  (s.quads.map (·.id)).foldl (fun s q => s.shootQuad q ctx r) s

/-! ## Returning to issue -/

/-- What a parked instruction does when its value arrives (R325, R241): its writes, its queue entries, the PC. -/
def M.finish (m : M) (v : Option Cap) : M :=
  match m.thr.run with
  | .parked _ f =>
    let m1 := match v with
      | some v => m.wr f.d v
      | none => m
    let m2 := f.regs.foldl (fun m (r : F6 × Cap) => m.wr r.1 r.2) m1
    let m3 := f.pops.foldl (fun m j => m.pop j.toFin) m2
    { m3 with thr := { m3.thr.advance f.len with run := .ready, granted := false, pendTrap := none, waitEnd := none, oldRows := none } }
  | _ => m

/-- A thread of a core as an `M` without an instruction. -/
def State.asM (s : State) (c : Core) (t : Nat) : M := { st := s, core := c, tid := Fin.ofNat 8 t, thr := c.thr.get (Fin.ofNat 8 t) }

/-- The line of an operation that a port performed for a thread of the quad leaves its L1, so that no later load of the quad returns an
older write (R211, R215). -/
def State.dropLine (s : State) (qid : Nat) (w : Wait) : State :=
  match w with
  | .fePort pa => s.l1Clean qid (fun l => decide (l.pa = pa / 64 * 64)) true
  | _ => s

/-- The parked instruction of a thread completes with a value; its acquire is performed at the quad. A saved team's thread
completes in its image (R125). -/
def State.finishThread (s : State) (t : ThrId) (v : Option Cap) : State :=
  match s.coreOf? t.launch t.team with
  | some c =>
    let m := s.asM c t.thr
    match m.thr.run with
    | .parked w f =>
      let s1 := (m.finish v).flush.dropLine c.quadId w
      match f.acq with
      | some sc => s1.acquireBy c t.thr sc
      | none => s1
    | _ => s
  | none => s.onImage t.launch t.team fun c =>
    let m := (s.asM c t.thr).finish v
    { m.core with thr := m.core.thr.set m.tid m.thr }

/-! ## Full/empty and atomic accesses to local memory (R163) -/

/-- The waits of a local word, in parking order, after its state has changed. -/
def Core.retryLocal : Nat → Nat → Core → State → Core × State
  | 0, _, c, s => (c, s)
  | f + 1, off, c, s =>
    let kindOf : Waiter → Option (AccKind × Nat)
      | .thread t => match (c.thr.get (Fin.ofNat 8 t.thr)).run with
        | .parked (.feLocal _ mode store d) _ => some (if store then .stfe mode else .ldfe mode, d.toNat)
        | _ => none
      | .remote p => some (if p.kind = kRst then .stfe (p.mode.setWidth 2) else .ldfe (p.mode.setWidth 2), (p.payload.headD 0).toNat)
      | _ => none
    match c.localWaits.find? (fun w => decide (w.addr / 8 = off / 8) && (kindOf w.who).elim false fun (k, _) => feReady k (c.mem.full off)) with
    | none => (c, s)
    | some w =>
      match kindOf w.who with
      | none => (c, s)
      | some (k, d) =>
        let old := c.mem.read w.addr 8
        let full := c.mem.full off
        let mem1 := match k with
          | .stfe m => if m = 2 then c.mem else c.mem.store w.addr 8 d
          | _ => c.mem
        let c1 : Core := { c.soil w.addr with localWaits := c.localWaits.erase w, mem := mem1.setFull w.addr (feAfter k full) }
        Core.retryLocal f off c1 (s.wake (some w.who) k old)

/-- What a full/empty access stores at the SRAM: every store but that of mode 2, which only clears E (R324). -/
def M.feStored (m : M) (off : Nat) (k : AccKind) (data : W64) : M :=
  match k with
  | .stfe md => if md = 2 then m else m.localWrite off 8 data.toNat
  | _ => m

/-- A word's E bit changed at the SRAM; the waits of the word are retried. -/
def M.setLocalFull (m : M) (off : Nat) (full : Bool) : M :=
  let c : Core := { m.core.soil off with mem := m.core.mem.setFull off full, thr := m.core.thr.set m.tid m.thr }
  let r := Core.retryLocal (c.localWaits.length + 1) off c m.st
  { m with core := r.1, st := r.2 }

/-- A full/empty access at the SRAM of the thread's core (R163, R152): executed, or its condition does not hold. The window's words
are full and stay full. -/
def M.feLocal (m : M) (off : Nat) (k : AccKind) (data : W64) : M × Nat × Bool :=
  let win := inWindow off
  let full := win || m.core.mem.full off
  if !feReady k full then (m, 0, false)
  else
    let old := m.localRead off 8
    let m1 := m.feStored off k data
    (if win || feAfter k full == full then m1 else m1.setLocalFull off (feAfter k full), accValue k old full, true)

end

end Sys2Proof.Machine
end

