-- ==== Sys2Proof/Machine/Log.lean ====
section
/-!
DEFINITION. The write-range log (R181–R184), the work of releases and acquires (R213), and running an instruction (R15, R132, R157–R159).
-/
namespace Sys2Proof.Machine
open Sys2Proof

noncomputable section

/-! ## The write-range log (R181–R184) -/

/-- The ring's base address and number of entries, when it has a valid size. -/
def Core.ring (c : Core) : Option (Nat × Nat) :=
  let n := fieldOf c.logring 4 0
  if 8 ≤ n ∧ n ≤ 24 then
    let b := fieldOf c.logring 55 12 * 4096
    some (if b / 2 ^ 55 = 0 then b else b + (2 ^ 64 - 2 ^ 56), 2 ^ n)
  else none

/-- A write of the log engine or an engine at the home slice (R178): the issuing quad's line is written back and invalidated, ownership is
recalled, and on a miss the port's table is asked (R104). -/
def M.engineWrite (m : M) (va n v : Nat) (x : XRes) : Except Stop M := do
  let m ← m.l1Clean (fun l => decide (l.pa = x.pa / 64 * 64)) true
  let (m, a) ← m.placed x.pa
  let s := m.st.recallOwn x.pa
  let recs := if (l2Find s a).isSome then [] else portRefusal s a { m.master with cls := 1 } 2
  if recs.isEmpty then pure () else .error (.trap causePagePerm (BitVec.ofNat 64 va) recs)
  let s := (s.markMotion x.pa).l2Touch a true { m.master with cls := 1 } (n == 64)
  pure { m with st := s.writePa a n v x.key }

/-- The two words of an entry written to the ring by the log engine (R183, R184): both are set full, and waiters on them retried. -/
def M.writeEntry (m : M) (va kind len : Nat) (value : W64) : Except Stop M := do
  let (m, x) ← m.page va { w := true }
  trapIf (!(paKind m.st x.pa).isMem) causePagePerm (BitVec.ofNat 64 va)
  let m ← m.engineWrite va 16 (value.toNat + 2 ^ 64 * (len * 2 ^ 16 + kind * 2 ^ 56)) x
  let fill (s : State) (pa : Nat) : State :=
    let a := placeNow s pa
    if s.fullAt a || !hasMeta s a then s else (s.setFullAt a true).retryAt pa
  pure { m with st := fill (fill m.st x.pa) (x.pa + 8) }

/-- An entry dropped and counted (R184). -/
def M.dropEntry (m : M) : M :=
  { m with core := { m.core with logdrop := Nat.min (m.core.logdrop + 1) (2 ^ 32 - 1), logtail := m.core.logtail ||| ((1 : W64) <<< 63) } }

/-- Whether the ring has room for one more entry. -/
def Core.logRoom (c : Core) (size : Nat) : Bool :=
  decide ((fieldOf c.logtail 31 0 + 2 ^ 32 - fieldOf c.loghead 31 0) % 2 ^ 32 < size - 1)

/-- One entry written to the ring, or dropped and counted (R184). -/
def M.putEntry (m : M) (kind len : Nat) (value : W64) : Except Stop M := do
  match m.core.ring with
  | none => pure m
  | some (base, size) =>
    let tail := fieldOf m.core.logtail 31 0
    if !m.core.logRoom size then pure m.dropEntry
    else
      let va := (base + 16 * (tail % size)) % 2 ^ 64
      match m.writeEntry va kind len value with
      | .error (.trap c _ recs) =>
        let s := m.st.fault m.core.die 0x62 c.toNat m.core.ctx.toNat va
        let s := recs.foldl (fun s r => s.fault r.die r.kind r.code r.ctx r.addr r.aux32 r.aux64) s
        pure { m.dropEntry with st := s }
      | .error e => .error e
      | .ok m =>
        let next : W64 := BitVec.ofNat 64 (m.core.logtail.toNat / 2 ^ 63 * 2 ^ 63 + (tail + 1) % 2 ^ 32)
        pure { m with core := { m.core with logtail := next } }

/-- The overflow entry, written when entries have been dropped and the ring has room. -/
def M.logOverflow (m : M) : Except Stop M :=
  match m.core.ring with
  | none => .ok m
  | some (_, size) =>
    if m.core.logdrop ≠ 0 ∧ m.core.logRoom size then
      let m1 : M := { m with core := { m.core with logdrop := 0, logtail := m.core.logtail &&& 0xFFFFFFFF } }
      m1.putEntry 3 0 (BitVec.ofNat 64 m.core.logdrop)
    else .ok m

/-- An entry, after the overflow entry when one is due. -/
def M.logEntry (m : M) (kind len : Nat) (value : W64) : Except Stop M := do
  let m ← m.logOverflow
  m.putEntry kind len value

/-- Open ranges emitted, oldest first. -/
def M.emitRanges (m : M) (p : LogRange → Bool) : Except Stop M := do
  let out := m.core.ranges.filter p
  let m := { m with core := { m.core with ranges := m.core.ranges.filter (fun r => !p r) } }
  out.foldlM (fun m r => m.logEntry 1 (r.hi - r.lo) (BitVec.ofNat 64 (if r.lo / 2 ^ 55 % 2 = 1 then r.lo + (2 ^ 64 - 2 ^ 56) else r.lo))) m

/-- A logged write of `n` bytes at `va` (R181, R182). -/
def M.logWrite (m : M) (va n : Nat) (logged : Bool) (switch : Option Bool := none) : Except Stop M := do
  match m.core.ring with
  | none => pure m
  | some (base, size) =>
    let v := va % 2 ^ 56
    let inRing := decide (base % 2 ^ 56 ≤ v ∧ v < base % 2 ^ 56 + 16 * size)
    if !(logged || switch.getD m.thr.logOn) || inRing then pure m
    else
      let hi := v + n - 1
      let joins (r : LogRange) : Bool := decide (r.lo / 2 ^ 16 = v / 2 ^ 16 ∧ v ≤ r.hi + 1 ∧ r.lo ≤ hi + 1)
      if m.core.ranges.any joins then
        let rs := update joins (fun r => { r with lo := Nat.min r.lo v, hi := Nat.max r.hi hi }) m.core.ranges
        pure { m with core := { m.core with ranges := rs } }
      else do
        let m ← if m.core.ranges.length ≥ 8 then
            match m.core.ranges with
            | r :: _ => m.emitRanges (fun x => decide (x = r))
            | [] => pure m
          else pure m
        let st := m.st.after (us 10) (.logRangeTimeout m.core.launch m.core.team m.st.now)
        let rs := m.core.ranges ++ [{ lo := v, hi := hi, since := m.st.now }]
        pure { m with core := { m.core with ranges := rs }, st := st }

/-! ## Releases and acquires (R213) -/

/-- The work of a release at a scope (R213, R182): open log ranges, then dirty lines; a fabric scope waits for the thread's keyed
requests and reports a deferred fault. -/
def M.release (m : M) (sc : Scope) : Except Stop M := do
  if fabric sc then m.reportAny else pure ()
  stallIf (fabric sc && m.outstanding)
  stallIf (sc == 0 && m.ownWindow)
  let m ← m.emitRanges (fun _ => true)
  if sc.toNat ≤ 1 then pure m
  else if sc.toNat ≤ 3 then m.l1Clean (fun l => decide (homeDie l.pa = m.core.die)) false
  else m.l1Clean (fun _ => true) false

/-- The work of an acquire at a scope (R213). -/
def M.acquire (m : M) (sc : Scope) : Except Stop M := do
  stallIf (m.loadsOut && (fabric sc || m.tickets.any fun t => !t.failed && t.req.kind == kRld && (m.st.windowKey t.req.rkey)))
  let s := m.st
  let q := m.core.quadId
  if sc.toNat ≤ 1 then pure m
  else if sc.toNat ≤ 3 then
    m.l1Clean (fun l => l.ctx == m.core.ctx && decide (homeDie l.pa = m.core.die) && !writeHeld s q l) true
  else m.l1Clean (fun l => l.ctx == m.core.ctx && !writeHeld s q l) true

/-! ## Running an instruction -/

/-- Tokens of commands with a release flag that an instruction reads or writes. -/
def M.tokenHits (m : M) (i : Instr) : List (F6 × Scope) :=
  m.thr.relOn.filter fun x => (activeUses m i).any fun u => (useScalar u).elim false fun f => f.1 == x.1

/-- The release of an engine's command acts as a fence at the first instruction that reads its token (R218). -/
def M.tokenFence (m : M) (i : Instr) : Except Stop M :=
  match m.tokenHits i with
  | [] => .ok m
  | hits => do
    let reads (f : F6) : Bool := (activeUses m i).any fun u => useScalar u == some (f, false)
    let m ← (hits.filter fun x => reads x.1).foldlM (fun (m : M) x => m.release x.2) m
    pure { m with thr := { m.thr with relOn := m.thr.relOn.filter fun x => !hits.contains x } }

/-- The checks of an instruction, then its body; a gated-off instruction has none (R296). -/
def attempt (i : Instr) (body : Act) : Act := fun m => do
  gate i m
  if gatedOff m i then pure m
  else do
    let m ← m.tokenFence i
    body m

/-- An instruction of the selected thread: checks, body, commit. The checker decides before its effect or its trap (R156, R159). Where `cur`
selects no thread that may issue, nothing runs (R132). -/
def runInstr (i : Instr) (body : Act) (s : State) : Out :=
  match enter i s with
  | none => .next { s with stalled := true }
  | some m =>
    match attempt i body m.fresh with
    | .error e => .next (if !e.issues then onStop m e else if m.core.sundog ≠ 0 then m.mismatch else bodyStop m.fresh e)
    | .ok m' => .next (if m.core.sundog ≠ 0 then m.mismatch else (retire i m.fresh m').flush)

end

end Sys2Proof.Machine
end

