-- ==== Sys2Proof/Machine/Operands.lean ====
section
/-!
DEFINITION. Operand forms (R274, R282, R319–R323): immediates, addressing modes and base updates, capability checks, and the loads
and stores that the memory instructions, the vector accesses and the tile moves share.
-/
namespace Sys2Proof.Machine
open Sys2Proof

noncomputable section

/-- The form of a base instruction: `none` as a base word, `some` widened with the form's fields. -/
abbrev Form := Option Ext

/-- An immediate (R282): LIT64, else IMM32 sign-extended, else the base word's. -/
def M.imm (m : M) (x : Form) (base : W64) : W64 :=
  match x with
  | none => base
  | some x => m.lit.getD (x.imm.signExtend 64)

/-- A byte offset: IMM32 sign-extended in a widened form, else none. -/
def immOff (x : Form) : W64 := x.elim 0 fun x => x.imm.signExtend 64

/-- How an access forms its address: the offset from the cursor, and the base register's new value. -/
structure Addr where
  off : W64
  upd : Option Cap := none

/-- A cursor advanced under a modulo register (R323). -/
def modulo (c : Cap) (mj : W64) (step : Int) : W64 :=
  let len : Nat := mj.toNat / 2 ^ 32
  let cur : Int := c.cursor.toNat
  if len = 0 then BitVec.ofInt 64 (cur + step)
  else
    let b : Nat := (if c.bounded then c.base else 0) + mj.toNat % 2 ^ 32
    let lo : Int := b
    BitVec.ofInt 64 (lo + (cur - lo + step) % (len : Int))

/-- The addressing modes of M and VM for accesses of `s` bytes (R274, R282, R323). Mode 11 of VM is `gather`. -/
def M.addr (m : M) (x : Form) (a : F6) (am : BitVec 2) (ea : BitVec 7) (s : Nat) : Addr :=
  let c := m.src a
  match am.toNat with
  | 0 => ⟨match x with
      | none => BitVec.ofInt 64 (ea.toInt * s)
      | some x => x.imm.signExtend 64, none⟩
  | 1 => ⟨0, some (c.setCursor (c.cursor + match x with
      | none => BitVec.ofInt 64 (ea.toInt * s)
      | some x => x.imm.signExtend 64))⟩
  | 2 =>
    let (j, step) : BitVec 3 × Int := match x with
      | none => (ea.extractLsb' 0 3, (ea.extractLsb' 3 4).toInt * s)
      | some x => (x.c.setWidth 3, x.imm.toInt)
    ⟨0, some (c.setCursor (modulo c (m.thr.m.get j.toFin) step))⟩
  | _ =>
    let (r, sc) : F6 × Bool := match x with
      | none => (ea.extractLsb' 0 6, ea.getLsbD 6)
      | some x => (x.b, x.scale)
    ⟨m.int r * (if sc then BitVec.ofNat 64 s else 1) + immOff x, none⟩

/-- The base register after the access (R323). -/
def M.update (m : M) (a : F6) (ad : Addr) : M :=
  match ad.upd with
  | some c => m.wr a c
  | none => m

/-! ## Capability checks (R13, R306, R319) -/

inductive Perm where
  | ld | st | ex | tgr | tgw | atom | fe | eng | mtx | rem | call
deriving DecidableEq, Repr

/-- The bit of PERM that a permission is (R306); CALL has none in a layout without a window. -/
def permBit (p : Perm) : Nat :=
  match p with
  | .ld => permLD
  | .st => permST
  | .ex => permEX
  | .tgr => permTGR
  | .tgw => permTGW
  | .atom => permATOM
  | .fe => permFE
  | .eng => permENG
  | .mtx => permMTX
  | .rem => permREM
  | .call => 127

/-- A permission of a window's own PERM, where ENG and MTX are not asked (R285, R319). -/
def windowHas (c : Cap) (p : Perm) : Bool :=
  match p with
  | .ld => c.wperm 0
  | .st => c.wperm 1
  | .atom => c.wperm 2
  | .fe => c.wperm 3
  | .call => c.wperm 4
  | .eng | .mtx => true
  | .ex | .tgr | .tgw | .rem => false

/-- A permission held: by PERM of the layout, or by a window's own PERM (R306, R319). -/
def capHas (c : Cap) (p : Perm) : Bool := if c.kind = 3 ∨ c.kind = 6 then windowHas c p else c.perm (permBit p)

/-- Tag, type and permissions of the capability that field `f` names (R13). -/
def checkCap (f : F6) (c : Cap) (types : List Nat) (ps : List Perm) : Except Stop Unit := do
  trapIf (!c.tag) causeCapTag (f.setWidth 64)
  trapIf (!types.contains c.kind) causeCapType (f.setWidth 64)
  trapIf (!ps.all (capHas c)) causeCapPerm (f.setWidth 64)

/-- Bounds of types 0 and 1 for `n` bytes at `a` (R14): the value is the first byte outside. -/
def checkBounds (c : Cap) (a n : Nat) : Except Stop Unit :=
  if c.kind ≠ 0 ∧ c.kind ≠ 1 then .ok ()
  else if n = 0 then .ok ()
  else if a < c.base ∨ c.top ≤ a then .error (.trap causeCapBounds (BitVec.ofNat 64 a) [])
  else if c.top < a + n then .error (.trap causeCapBounds (BitVec.ofNat 64 c.top) [])
  else .ok ()

def checkAligned (a n : Nat) : Except Stop Unit := trapIf (a % n != 0) causeMisaligned (BitVec.ofNat 64 a)

/-- A team in restartable mode writes only its local memory (R128). -/
def M.restartCheck (m : M) (c : Cap) : Except Stop Unit :=
  trapIf (m.restart && c.tag && (c.kind = 0 || c.kind = 6 || c.kind = 3)) causePrivilege 1

/-! ## Loads and stores of one aligned element (R321, R322, R409) -/

/-- An element read through a capability of type 0 or 1 whose checks have passed; the tag is the memory's. `shots` are the regions at which
the instruction's own one-shot read has its turn already. -/
def M.loadAt (m : M) (c : Cap) (a n : Nat) (regs : Bool) (shots : List Nat := []) : Except Stop (M × Nat × Bool) := do
  if c.kind = 1 then
    m.winCheck a n
    pure (m, m.localRead a n, n == 16 && m.localTag a)
  else
    let (m, x) ← m.page a { rd := true }
    if !(paKind m.st x.pa).isMem then
      trapIf (!(regs && (n == 4 || n == 8))) causePagePerm (BitVec.ofNat 64 a)
      match regAccess m.st x.pa n none m.master with
      | .ok s v => pure (m.reload (({ m with st := s } : M).flush), v.toNat, false)
      | .refused s => .error (.kept { m with st := s } causePagePerm (BitVec.ofNat 64 a))
    else
      match m.uncovered ((List.range n).map (a + ·)) false with
      | [] => m.readLine a n x
      | (r, ps) :: _ =>
        if shots.contains r then m.commonRead a n x
        else
          let own ← m.oneShot r ps false
          let (m, v, t) ← m.commonRead a n x
          pure (if own then m.world (·.dropOneShot r m.who) else m, v, t)

/-- An element stored; `tag` is given for a whole granule. -/
def M.storeAt (m : M) (c : Cap) (a n v : Nat) (tag : Option Bool) (regs : Bool) : Except Stop M := do
  if c.kind = 1 then
    m.winCheck a n
    let m := m.localWrite a n v
    pure (match tag with
      | some t => m.putLocalTag a t
      | none => m)
  else
    let (m, x) ← m.page a { w := true, cs := tag == some true }
    if !(paKind m.st x.pa).isMem then
      trapIf (!(regs && (n == 4 || n == 8))) causePagePerm (BitVec.ofNat 64 a)
      match regAccess m.st x.pa n (some (BitVec.ofNat 64 v)) m.master with
      | .ok s _ => pure { m with st := s }
      | .refused s => .error (.kept { m with st := s } causePagePerm (BitVec.ofNat 64 a))
    else
      trapIf (tag == some true && !hasMeta m.st x.pa) causeNoMeta (BitVec.ofNat 64 a)
      trapIf (!(m.uncovered ((List.range n).map (a + ·)) true).isEmpty) causeTenure 0
      let m ← m.writeLine a n v tag x
      m.logWrite a n x.logged

/-- A release before and an acquire after an operation, by its ORD bits at a scope (R212). -/
def M.ordered (m : M) (ord : BitVec 2) (sc : Scope) (body : M → Except Stop M) : Except Stop M := do
  let m ← if ord.getLsbD 1 then m.release sc else pure m
  let m ← body m
  if ord.getLsbD 0 then m.acquire sc else pure m

end

end Sys2Proof.Machine
end

