-- ==== Sys2Proof/Machine/Scalar.lean ====
section
/-!
DEFINITION. The effects of the scalar instructions (R296–R305): arithmetic, shifts, compares, masks, bit fields and constants.
`opX` is the effect of X in every form; `execX` in Exec.lean runs the base word.
-/
namespace Sys2Proof.Machine
open Sys2Proof

noncomputable section

/-! ## Integer functions (R297–R299) -/

def shAmt (b : W64) : Nat := b.toNat % 64

def rolW (a : W64) (n : Nat) : W64 := a.rotateLeft n

def divS (a b : W64) : W64 :=
  if b = 0 then -1
  else if a = BitVec.intMin 64 ∧ b = -1 then BitVec.intMin 64
  else BitVec.ofInt 64 (a.toInt.tdiv b.toInt)
def remS (a b : W64) : W64 :=
  if b = 0 then a
  else if a = BitVec.intMin 64 ∧ b = -1 then 0
  else BitVec.ofInt 64 (a.toInt.tmod b.toInt)
def divU (a b : W64) : W64 := if b = 0 then -1 else BitVec.ofNat 64 (a.toNat / b.toNat)
def remU (a b : W64) : W64 := if b = 0 then a else BitVec.ofNat 64 (a.toNat % b.toNat)

/-- Leading zero bits. -/
def clzW (a : W64) : Nat := if a = 0 then 64 else 63 - Nat.log2 a.toNat
/-- Trailing zero bits. -/
def ctzW (a : W64) : Nat := ((List.range 64).find? (fun i => a.getLsbD i)).getD 64
def popW (a : W64) : Nat := ((List.range 64).filter (fun i => a.getLsbD i)).length

/-- The low `n` bits sign-extended, and zero-extended. -/
def sextW (a : W64) (n : Nat) : W64 := BitVec.ofInt 64 (intVal true n (a.toNat % 2 ^ n))
def zextW (a : W64) (n : Nat) : W64 := BitVec.ofNat 64 (a.toNat % 2 ^ n)

def boolW (b : Bool) : W64 := if b then 1 else 0

/-! ## IALU -/

/-- An integer function of A and B written to D. -/
def binOp (f : W64 → W64 → W64) (d a b : F6) : Act := fun m => .ok (m.wrInt d (f (m.int a) (m.int b)))
def unOp (f : W64 → W64) (d a : F6) : Act := fun m => .ok (m.wrInt d (f (m.int a)))

def opAdd (d a b : F6) : Act := binOp (· + ·) d a b
def opSub (d a b : F6) : Act := binOp (· - ·) d a b
def opAnd (d a b : F6) : Act := binOp (· &&& ·) d a b
def opOr (d a b : F6) : Act := binOp (· ||| ·) d a b
def opXor (d a b : F6) : Act := binOp (· ^^^ ·) d a b
def opAndn (d a b : F6) : Act := binOp (fun x y => x &&& ~~~y) d a b
def opOrn (d a b : F6) : Act := binOp (fun x y => x ||| ~~~y) d a b
def opSll (d a b : F6) : Act := binOp (fun x y => x <<< shAmt y) d a b
def opSrl (d a b : F6) : Act := binOp (fun x y => x >>> shAmt y) d a b
def opSra (d a b : F6) : Act := binOp (fun x y => x.sshiftRight (shAmt y)) d a b
def opRol (d a b : F6) : Act := binOp (fun x y => rolW x (shAmt y)) d a b
def opMin (d a b : F6) : Act := binOp (fun x y => if x.toInt ≤ y.toInt then x else y) d a b
def opMax (d a b : F6) : Act := binOp (fun x y => if x.toInt ≤ y.toInt then y else x) d a b
def opMinu (d a b : F6) : Act := binOp (fun x y => if x.toNat ≤ y.toNat then x else y) d a b
def opMaxu (d a b : F6) : Act := binOp (fun x y => if x.toNat ≤ y.toNat then y else x) d a b
def opMul (d a b : F6) : Act := binOp (· * ·) d a b
def opMulh (d a b : F6) : Act := binOp (fun x y => BitVec.ofInt 64 ((x.toInt * y.toInt) / 2 ^ 64)) d a b
def opMulhu (d a b : F6) : Act := binOp (fun x y => BitVec.ofNat 64 (x.toNat * y.toNat / 2 ^ 64)) d a b
def opDiv (d a b : F6) : Act := binOp divS d a b
def opDivu (d a b : F6) : Act := binOp divU d a b
def opRem (d a b : F6) : Act := binOp remS d a b
def opRemu (d a b : F6) : Act := binOp remU d a b

/-- The carry-in of R299: bit 0 of C in a widened form. -/
def M.carry (m : M) (x : Form) : Nat := x.elim 0 fun x => (m.int x.c).toNat % 2
def opAddc (x : Form) (d a b : F6) : Act := fun m =>
  .ok (m.wrInt d (BitVec.ofNat 64 (((m.int a).toNat + (m.int b).toNat + m.carry x) / 2 ^ 64)))
def opSubb (x : Form) (d a b : F6) : Act := fun m =>
  .ok (m.wrInt d (boolW (decide ((m.int a).toNat < (m.int b).toNat + m.carry x))))

def opClz (d a : F6) : Act := unOp (fun x => BitVec.ofNat 64 (clzW x)) d a
def opCtz (d a : F6) : Act := unOp (fun x => BitVec.ofNat 64 (ctzW x)) d a
def opPopc (d a : F6) : Act := unOp (fun x => BitVec.ofNat 64 (popW x)) d a
/-- B is the width less one (R297). -/
def opSext (d a b : F6) : Act := unOp (fun x => sextW x (b.toNat + 1)) d a
def opZext (d a b : F6) : Act := unOp (fun x => zextW x (b.toNat + 1)) d a

/-! ## Immediates (R300) -/

def immOp (f : W64 → W64 → W64) (x : Form) (d a : F6) (imm : BitVec 10) : Act := fun m =>
  .ok (m.wrInt d (f (m.int a) (m.imm x (imm.signExtend 64))))
def opAddi (x : Form) (d a : F6) (imm : BitVec 10) : Act := immOp (· + ·) x d a imm
def opAndi (x : Form) (d a : F6) (imm : BitVec 10) : Act := immOp (· &&& ·) x d a imm
def opOri (x : Form) (d a : F6) (imm : BitVec 10) : Act := immOp (· ||| ·) x d a imm
def opXori (x : Form) (d a : F6) (imm : BitVec 10) : Act := immOp (· ^^^ ·) x d a imm

/-- The amount of an immediate shift: I10[5:0] or IMM32[5:0]. -/
def amtOf (x : Form) (amt : F6) : Nat := x.elim amt.toNat fun x => x.imm.toNat % 64
def opSlli (x : Form) (d a amt : F6) : Act := unOp (fun v => v <<< amtOf x amt) d a
def opSrli (x : Form) (d a amt : F6) : Act := unOp (fun v => v >>> amtOf x amt) d a
def opSrai (x : Form) (d a amt : F6) : Act := unOp (fun v => v.sshiftRight (amtOf x amt)) d a
def opRoli (x : Form) (d a amt : F6) : Act := unOp (fun v => rolW v (amtOf x amt)) d a

/-! ## Compares (R301) -/

def cmpOp (f : W64 → W64 → Bool) (d : BitVec 3) (a b : F6) : Act := fun m =>
  .ok (m.setMask d (if f (m.int a) (m.int b) then -1 else 0))
def opCeq (d : BitVec 3) (a b : F6) : Act := cmpOp (fun x y => x == y) d a b
def opCne (d : BitVec 3) (a b : F6) : Act := cmpOp (fun x y => x != y) d a b
def opClt (d : BitVec 3) (a b : F6) : Act := cmpOp (fun x y => decide (x.toInt < y.toInt)) d a b
def opCge (d : BitVec 3) (a b : F6) : Act := cmpOp (fun x y => decide (y.toInt ≤ x.toInt)) d a b
def opCltu (d : BitVec 3) (a b : F6) : Act := cmpOp (fun x y => decide (x.toNat < y.toNat)) d a b
def opCgeu (d : BitVec 3) (a b : F6) : Act := cmpOp (fun x y => decide (y.toNat ≤ x.toNat)) d a b
def opCtst (d : BitVec 3) (a b : F6) : Act := cmpOp (fun x y => x &&& y != 0) d a b

/-! ## Bit fields (R303) -/

/-- Position and length of a bit field. -/
def bitPos (x : Form) (pos len : BitVec 5) : Nat × Nat :=
  match x with
  | none => (pos.toNat, len.toNat + 1)
  | some x => (x.imm.toNat % 64, x.imm.toNat / 64 % 64 + 1)

def bitMask (p : Nat × Nat) : W64 := BitVec.ofNat 64 ((2 ^ p.2 - 1) * 2 ^ p.1)

def opBfx (x : Form) (d a : F6) (pos len : BitVec 5) : Act :=
  let p := bitPos x pos len
  unOp (fun v => zextW (v >>> p.1) p.2) d a
def opBfxs (x : Form) (d a : F6) (pos len : BitVec 5) : Act :=
  let p := bitPos x pos len
  unOp (fun v => sextW (v >>> p.1) p.2) d a
def opBfi (x : Form) (d a : F6) (pos len : BitVec 5) : Act := fun m =>
  let p := bitPos x pos len
  let k := bitMask p
  .ok (m.wrInt d ((m.int d &&& ~~~k) ||| ((m.int a <<< p.1) &&& k)))
def opBfclr (x : Form) (d a : F6) (pos len : BitVec 5) : Act :=
  unOp (fun v => v &&& ~~~bitMask (bitPos x pos len)) d a

/-! ## Moves and masks (R302) -/

def opMov (d a : F6) : Act := fun m => .ok (m.wr d (m.src a))
def opSel (k : BitVec 3) (d a b : F6) : Act := fun m =>
  .ok (m.wr d (if (m.mask k).getLsbD 0 then m.src a else m.src b))
def opKand (d a b : BitVec 3) : Act := fun m => .ok (m.setMask d (m.mask a &&& m.mask b))
def opKor (d a b : BitVec 3) : Act := fun m => .ok (m.setMask d (m.mask a ||| m.mask b))
def opKxor (d a b : BitVec 3) : Act := fun m => .ok (m.setMask d (m.mask a ^^^ m.mask b))
def opKnot (d a : BitVec 3) : Act := fun m => .ok (m.setMask d (~~~m.mask a))
def opKmovc (d : BitVec 3) (a : F6) : Act := fun m => .ok (m.setMask d (m.int a))
def opKmovk (d : F6) (a : BitVec 3) : Act := fun m => .ok (m.wrInt d (m.mask a))
def opKpop (d : F6) (a : BitVec 3) : Act := fun m => .ok (m.wrInt d (BitVec.ofNat 64 (popW (m.mask a))))
def opKfirst (d : F6) (a : BitVec 3) : Act := fun m => .ok (m.wrInt d (BitVec.ofNat 64 (ctzW (m.mask a))))

/-! ## Constants and code addresses (R304, R305) -/

def opMvi (x : Form) (d : F6) (imm : BitVec 18) : Act := fun m => .ok (m.wrInt d (m.imm x (imm.signExtend 64)))

/-- A word offset from the instruction, in bytes. -/
def wordOff {w : Nat} (x : Form) (off : BitVec w) : W64 := 4 * x.elim (off.signExtend 64) fun x => x.imm.signExtend 64

def opAdr (x : Form) (d : F6) (imm : BitVec 18) : Act := fun m =>
  .ok (m.wr d (m.thr.pc.setCursor (m.thr.pc.cursor + wordOff x imm)))

end

end Sys2Proof.Machine
end

