-- ==== Sys2Proof/Machine/Caps.lean ====
section
/-!
DEFINITION. The effects of the capability functions (R306–R308).
-/
namespace Sys2Proof.Machine
open Sys2Proof

noncomputable section

/-- Whether setting bounds overflows, leaves A's bounds, or (for `exact`) rounds, with the `TRAPVAL` of R308. DEDUCED, log 18. -/
def bndTrap (c r : Cap) (len : W64) (exact : Bool) : Option W64 :=
  let base := c.cursor.toNat
  let top := base + len.toNat
  if top > 2 ^ 64 then some (-1)
  else if r.base < c.base ∨ c.top < r.base then some (BitVec.ofNat 64 r.base)
  else if c.top < r.top then some (BitVec.ofNat 64 c.top)
  else if exact ∧ r.base < base then some (BitVec.ofNat 64 r.base)
  else if exact ∧ top < r.top then some (BitVec.ofNat 64 top)
  else none

/-- The bounds that setting [base, top) gives, whatever the cursor's tag. -/
def newBounds (c : Cap) (len : W64) : Cap := c.setBounds c.cursor.toNat (c.cursor.toNat + len.toNat)

def setBnd (exact : Bool) (d a b : F6) : Act := fun m => do
  let c := m.src a
  checkCap a c [0, 1] []
  let r := newBounds c (m.int b)
  match bndTrap c r (m.int b) exact with
  | some v => .error (.trap causeCapBounds v [])
  | none => .ok (m.wr d r)

def opCbnd (d a b : F6) : Act := setBnd false d a b
def opCbndx (d a b : F6) : Act := setBnd true d a b

/-- A tagged A of a type that the row does not accept (R308). -/
def typeIfTagged (a : F6) (c : Cap) (types : List Nat) : Except Stop Unit :=
  trapIf (c.tag && !types.contains c.kind) causeCapType (a.setWidth 64)

def opCprm (d a b : F6) : Act := fun m => do
  let c := m.src a
  typeIfTagged a c [0, 1, 2, 3, 5, 6]
  let (lo, n) := permField c.ty
  .ok (m.wr d ⟨setField c.bits lo n (c.permBits &&& (m.int b).toNat), c.tag⟩)

def opCadd (d a b : F6) : Act := fun m => do
  let c := m.src a
  typeIfTagged a c [0, 1, 3, 6]
  .ok (m.wr d (c.setCursor (c.cursor + m.int b)))

/-- `caddi` of a pair word (R279). -/
def opCaddi (d a : F6) (i : W64) : Act := fun m => do
  let c := m.src a
  typeIfTagged a c [0, 1, 3, 6]
  .ok (m.wr d (c.setCursor (c.cursor + i)))

def opCset (d a b : F6) : Act := fun m => do
  let c := m.src a
  typeIfTagged a c [0, 1, 3, 6]
  .ok (m.wr d (c.setCursor (m.int b)))

def opCbase (d a : F6) : Act := fun m =>
  let c := m.src a
  .ok (m.wrInt d (if c.bounded then BitVec.ofNat 64 c.base else 0))
def opClen (d a : F6) : Act := fun m =>
  let c := m.src a
  .ok (m.wrInt d (if c.bounded then BitVec.ofNat 64 (Nat.min (c.top - c.base) (2 ^ 64 - 1)) else 0))
def opCperm (d a : F6) : Act := fun m => .ok (m.wrInt d (BitVec.ofNat 64 (m.src a).permBits))
def opCtype (d a : F6) : Act := fun m => .ok (m.wrInt d (BitVec.ofNat 64 (m.src a).ty))
def opCtag (d a : F6) : Act := fun m => .ok (m.wrInt d (boolW (m.src a).tag))
def opCclr (d a : F6) : Act := fun m => .ok (m.wr d { m.src a with tag := false })
def opCseal (d a : F6) : Act := fun m => do
  let c := m.src a
  checkCap a c [0] [.ex]
  .ok (m.wr d ⟨setField c.bits 118 4 4, c.tag⟩)
def opCapCeq (d a b : F6) : Act := fun m => .ok (m.wrInt d (boolW (m.src a == m.src b)))
def opCsub (d a b : F6) : Act := fun m => .ok (m.wrInt d (m.int a - m.int b))

end

end Sys2Proof.Machine
end

