-- ==== Sys2Proof/Machine/Control.lean ====
section
/-!
DEFINITION. The effects of control transfer, loops, thread and system instructions (R309–R318).
-/
namespace Sys2Proof.Machine
open Sys2Proof

noncomputable section

/-! ## Transfers (R309–R311) -/

/-- A PC-relative transfer: only the bounds of the PC's capability are checked. -/
def M.jumpTo (m : M) (t : W64) : Except Stop M := do
  checkBounds m.thr.pc t.toNat 4
  .ok { m with npc := some (m.thr.pc.setCursor t) }

/-- The capability of the next instruction (R309). -/
def M.retCap (m : M) : Cap := m.thr.pc.setCursor (m.thr.pc.cursor + BitVec.ofNat 64 (4 * m.len))

def branchIf {w : Nat} (x : Form) (off : BitVec w) (taken : M → Bool) : Act := fun m =>
  if taken m then m.jumpTo (m.thr.pc.cursor + wordOff x off) else .ok m

def opBk (x : Form) (k : BitVec 3) (pol : Bool) (off : BitVec 18) : Act :=
  branchIf x off fun m => (m.mask k).getLsbD 0 ^^ pol
def opBra (x : Form) (off : BitVec 18) : Act := branchIf x off fun _ => true
def opBz (x : Form) (r : F6) (off : BitVec 15) : Act := branchIf x off fun m => m.int r == 0
def opBnz (x : Form) (r : F6) (off : BitVec 15) : Act := branchIf x off fun m => m.int r != 0
def opBltz (x : Form) (r : F6) (off : BitVec 15) : Act := branchIf x off fun m => decide ((m.int r).toInt < 0)
def opBgez (x : Form) (r : F6) (off : BitVec 15) : Act := branchIf x off fun m => decide (0 ≤ (m.int r).toInt)
def opBlez (x : Form) (r : F6) (off : BitVec 15) : Act := branchIf x off fun m => decide ((m.int r).toInt ≤ 0)
def opBgtz (x : Form) (r : F6) (off : BitVec 15) : Act := branchIf x off fun m => decide (0 < (m.int r).toInt)
def opJmp (x : Form) (off : BitVec 24) : Act := branchIf x off fun _ => true
def opCall (x : Form) (off : BitVec 24) : Act := fun m => do
  let link := m.retCap
  let m ← m.jumpTo (m.thr.pc.cursor + wordOff x off)
  .ok (m.wr 30 link)

/-- The checks of R309 on a target capability. DEDUCED, log 18. -/
def checkTarget (f : F6) (c : Cap) : Except Stop Unit := do
  checkCap f c [0] [.ex]
  checkAligned c.cursor.toNat 4
  checkBounds c c.cursor.toNat 4

def opJr (a : F6) : Act := fun m => do
  checkTarget a (m.src a)
  .ok { m with npc := some (m.src a) }
def opJalr (d a : F6) : Act := fun m => do
  checkTarget a (m.src a)
  .ok ({ m with npc := some (m.src a) }.wr d m.retCap)
/-- DEDUCED, log 18. -/
def opRet : Act := fun m => do
  checkTarget 30 (m.src 30)
  .ok { m with npc := some (m.src 30) }

/-- A sealed entry as the memory capability it was sealed from (R284). -/
def Cap.unseal (c : Cap) : Cap := ⟨setField c.bits 118 4 0, c.tag⟩

def opCcall (a : F6) : Act := fun m => do
  let c := m.src a
  checkCap a c [4] []
  checkTarget a (Cap.unseal c)
  .ok ({ m with npc := some (Cap.unseal c) }.wr 30 m.retCap)

/-! ## Loops (R312) -/

def opLoop (x : Form) (d : F6) (off : BitVec 18) : Act := fun m => do
  let cnt := m.int d
  let lvl : Fin 2 := if m.thr.lcount.get 0 ≠ 0 then 1 else 0
  trapIf (m.thr.lcount.get lvl != 0) causeLoopNest 0
  let endad := m.thr.pc.cursor + wordOff x off
  if cnt = 0 then
    let (m, ws) ← m.fetchWords endad.toNat 1
    .ok { m with npc := some (m.thr.pc.setCursor (endad + BitVec.ofNat 64 (4 * wordCount (ws.headD 0)))) }
  else
    let start := m.thr.pc.cursor + BitVec.ofNat 64 (4 * m.len)
    .ok { m with thr := { m.thr with lstart := m.thr.lstart.set lvl start, lend := m.thr.lend.set lvl endad, lcount := m.thr.lcount.set lvl cnt } }

/-! ## Threads (R313–R315) -/

/-- The threads that run ENTRY (R116). -/
def Core.entryThreads (c : Core) : List (Fin 8) :=
  (List.range c.lrec.nthr).filterMap fun t => if c.lrec.calls && t = 7 then none else some (Fin.ofNat 8 t)

/-- Every entry thread has halted. -/
def Core.allHalted (c : Core) : Bool := c.entryThreads.all fun t => (c.thr.get t).run = .halted

/-- The barrier completes when every participant has reached a `bar`. -/
def Core.barrier (c : Core) : Core :=
  if c.entryThreads.all fun t => (c.thr.get t).run = .bar || (c.thr.get t).run = .halted then
    { c with thr := c.thr.map fun t => if t.run = .bar then { t with run := .ready } else t }
  else c

def opNop : Act := fun m => .ok m
def opBrk (imm : BitVec 12) : Act := fun _ => .error (.trap causeBreakpoint (imm.setWidth 64) [])
def opTrap (imm : BitVec 12) : Act := fun _ => .error (.trap causeTrapInsn (imm.setWidth 64) [])

/-- The other slots of the core that are ready. -/
def M.otherReady (m : M) : BitVec 8 :=
  BitVec.ofNat 8 ((List.range 8).foldl (fun a k =>
    a + if k ≠ m.tid.val ∧ (m.core.thr.get (Fin.ofNat 8 k)).run = .ready then 2 ^ k else 0) 0)

def opYield : Act := fun m =>
  if m.otherReady = 0 then .ok m
  else .ok { m with thr := { m.thr with run := .yielded m.otherReady (m.st.now + 8) }, st := m.st.after 8 (.yieldExpiry m.who) }

def opSleep (a : F6) : Act := fun m =>
  let n := (m.int a).toNat
  if n = 0 then .ok m
  else .ok { m with thr := { m.thr with run := .sleeping (m.st.now + n), idleAt := m.st.now }, st := m.st.after n (.sleepExpiry m.who) }

def opWfe : Act := fun m =>
  if m.thr.rnote then .ok { m with thr := { m.thr with rnote := false } }
  else .ok { m with thr := { m.thr with run := .wfe, idleAt := m.st.now } }

/-- DEDUCED, log 40. -/
def opHalt : Act := fun m => do
  m.reportAny
  stallIf (!m.tickets.isEmpty)
  if m.core.lrec.calls ∧ m.tid = 7 then
    let m := { m with thr := { m.thr with run := .call, idleAt := m.st.now } }
    .ok { m with st := if m.core.calls.isEmpty then
        (if m.core.exiting then m.st.post (.teamExit m.core.id) else m.st) else m.st.post (.callStart m.core.id) }
  else
    let m := m.setThr m.tid fun t => { t with run := .halted, idleAt := m.st.now }
    let c := Core.barrier { m.core with thr := m.core.thr.set m.tid m.thr }
    .ok { m with core := c, thr := c.thr.get m.tid, st := if c.allHalted then m.st.post (.teamExit c.id) else m.st }

def opBar : Act := fun m => do
  let m ← m.release 0
  let m ← m.acquire 0
  let t := { m.thr with run := .bar, idleAt := m.st.now }
  let c := Core.barrier { m.core with thr := m.core.thr.set m.tid t }
  .ok { m with core := c, thr := c.thr.get m.tid }

/-! ## System instructions (R316–R318) -/

/-- The launch of a `LAUNCH` value, from its home die's table (R116). -/
def State.launch? (s : State) (l : BitVec 16) : Option Launch :=
  (s.die (l.toNat / 256 % 8)).launches.find? (fun x => x.id == l)

/-- `TICKETS` (R242). -/
def M.ticketsWord (m : M) : W64 :=
  let bits (ts : List Ticket) : Nat := ts.foldl (fun a t => a + 2 ^ t.idx) 0
  let all := m.core.tickets.filter fun t => decide (t.idx < 16)
  BitVec.ofNat 64 ((16 - all.length) * 2 ^ 32 + bits all * 2 ^ 16 + bits m.tickets)

/-- A special register as `mfs` reads it (R317); `none` for an unallocated number. DEDUCED, log 19. -/
def M.sysRead (m : M) (n : Nat) : Option Cap :=
  let t := m.thr
  let w (v : W64) : Option Cap := some (Cap.ofInt v)
  match n with
  | 0x000 => w (BitVec.ofNat 64 m.core.team)
  | 0x001 => w (BitVec.ofNat 64 m.tid.val)
  | 0x002 => w (BitVec.ofNat 64 m.core.lrec.nthr)
  | 0x003 => w (m.core.launch.setWidth 64)
  | 0x004 => w (m.core.ctx.setWidth 64)
  | 0x005 => w (BitVec.ofNat 64 (m.st.modid.toNat * 2 ^ 13 + m.core.id % 2 ^ 13))
  | 0x006 => w (BitVec.ofNat 64 (siteOf m.core.id))
  | 0x007 => w (BitVec.ofNat 64 ((m.st.launch? m.core.launch).elim m.core.lrec.prio (·.prio)))
  | 0x008 => some (mkCap 1 0 0x40000 0 localPerm)
  | 0x010 => w (BitVec.ofNat 64 (m.st.now - m.st.coreReset))
  | 0x011 => w (BitVec.ofNat 64 m.st.timeNs)
  | 0x020 => w (t.m.get 0)
  | 0x021 => w (t.m.get 1)
  | 0x022 => w (t.m.get 2)
  | 0x023 => w (t.m.get 3)
  | 0x024 => w (t.m.get 4)
  | 0x025 => w (t.m.get 5)
  | 0x026 => w (t.m.get 6)
  | 0x027 => w (t.m.get 7)
  | 0x030 => w (t.lstart.get 0)
  | 0x031 => w (t.lend.get 0)
  | 0x032 => w (t.lcount.get 0)
  | 0x033 => w (t.lstart.get 1)
  | 0x034 => w (t.lend.get 1)
  | 0x035 => w (t.lcount.get 1)
  | 0x040 => w (BitVec.ofNat 64 m.core.vrows)
  | 0x041 => w t.xfloor
  | 0x042 => w t.fpctl
  | 0x043 => w t.fpflags
  | 0x050 => w t.rowprog
  | 0x060 => w t.trapvec
  | 0x061 => some t.trappc
  | 0x062 => w t.trapcause
  | 0x063 => w t.trapval
  | 0x064 => w t.trapins
  | 0x065 => w t.status
  | 0x070 => w m.ticketsWord
  | 0x071 => w (BitVec.ofNat 64 (m.tickets.filter (·.failed)).length)
  | 0x072 => w m.core.late
  | 0x073 => w t.engflt
  | 0x080 => w m.core.logring
  | 0x081 => w m.core.loghead
  | 0x082 => w m.core.logtail
  | _ => none

/-- What `mfs` does beside reading: `ENGFLT` is cleared (R240). -/
def M.sysReadEffect (m : M) (n : Nat) : M := if n = 0x073 then { m with thr := { m.thr with engflt := 0 } } else m

/-- `mts` (R317): reserved bits of the value are ignored. DEDUCED, log 19. -/
def M.sysWrite (m : M) (n : Nat) (c : Cap) : Option M :=
  let v := c.int
  let t (f : Thread → Thread) : Option M := some { m with thr := f m.thr }
  let mset (k : Fin 8) : Option M := t fun x => { x with m := x.m.set k v }
  match n with
  | 0x020 => mset 0
  | 0x021 => mset 1
  | 0x022 => mset 2
  | 0x023 => mset 3
  | 0x024 => mset 4
  | 0x025 => mset 5
  | 0x026 => mset 6
  | 0x027 => mset 7
  | 0x030 => t fun x => { x with lstart := x.lstart.set 0 v }
  | 0x031 => t fun x => { x with lend := x.lend.set 0 v }
  | 0x032 => t fun x => { x with lcount := x.lcount.set 0 v }
  | 0x033 => t fun x => { x with lstart := x.lstart.set 1 v }
  | 0x034 => t fun x => { x with lend := x.lend.set 1 v }
  | 0x035 => t fun x => { x with lcount := x.lcount.set 1 v }
  | 0x041 => t fun x => { x with xfloor := v &&& 0xFFFFF }
  | 0x042 => t fun x => { x with fpctl := v &&& 3 }
  | 0x043 => t fun x => { x with fpflags := v &&& 0x1F }
  | 0x050 => t fun x => { x with rowprog := v &&& 0x83FFFFFFFFFF003F }
  | 0x060 => t fun x => { x with trapvec := v }
  | 0x061 => t fun x => { x with trappc := c }
  | 0x062 => t fun x => { x with trapcause := v &&& 0xFF }
  | 0x063 => t fun x => { x with trapval := v }
  | 0x064 => t fun x => { x with trapins := v &&& 0xFFFFFFFF }
  | 0x065 => t fun x => { x with status := (x.status &&& ~~~(2 : W64)) ||| (v &&& 2) }
  | 0x080 => some { m with core := { m.core with logring := v &&& 0x00FFFFFFFFFFF01F } }
  | 0x081 => some { m with core := { m.core with loghead := v &&& 0xFFFFFFFF } }
  | _ => none

def opMfs (d : F6) (sr : BitVec 12) : Act := fun m =>
  match m.sysRead sr.toNat with
  | some v => .ok ((m.sysReadEffect sr.toNat).wr d v)
  | none => .error (.trap causeIllegal 0 [])

/-- A new `LOGHEAD` may make room for the overflow entry that is due (R184). -/
def opMts (d : F6) (sr : BitVec 12) : Act := fun m =>
  match m.sysWrite sr.toNat (m.src d) with
  | some m => if sr = 0x081 then m.logOverflow else .ok m
  | none => .error (.trap causeIllegal 0 [])

def opEret : Act := fun m => m.trapReturn

/-- DEDUCED, log 23. -/
def opTlbinv (a b : F6) : Act := fun m => do
  let m ← m.release 4
  let v := m.int b
  let n := fieldOf v 31 0
  let all := v.getLsbD 38
  let ctx : BitVec 6 := v.extractLsb' 32 6
  let r : PageRange := if all ∨ n = 0 then none else some ((m.int a).toNat % 2 ^ 56 / 2 ^ 16, n)
  .ok { m with st := m.st.shootAll (if all then none else some ctx) r }

end

end Sys2Proof.Machine
end

