-- ==== Sys2Proof/Machine/Keyed.lean ====
section
/-!
DEFINITION. Sending a keyed request (R79, R81, R86, R241): the ticket-table entry, the transaction tag, the flow's SEQ, the packet
and its timers.
-/
namespace Sys2Proof.Machine
open Sys2Proof

noncomputable section

/-- A keyed request as an instruction forms it. -/
structure KReq where
  kind    : BitVec 6
  /-- The window capability, and the OFFSET of the access. -/
  win     : Cap
  off     : W64
  mode    : BitVec 8 := 0
  /-- Size code (R274). -/
  sz      : BitVec 3 := 3
  scope   : BitVec 3 := 0
  aux     : BitVec 16 := 0
  payload : List W64 := []
  d       : F6 := 0
  e       : F6 := 0
  /-- D names a vector register, its bytes to write; a scalar's sign extension. -/
  vec     : Bool := false
  vmask   : W64 := -1
  sext    : Bool := false
  acq     : Option Scope := none
  dst     : Option (Cap × Nat) := none
  ff      : Option F6 := none

/-- The scope-table code of a module at a die (R91): the module itself is 1. -/
def scopeCode (s : State) (die : Nat) (mdl : BitVec 16) : Nat :=
  if ownModule s mdl then 1 else (((s.die die).scopes.find? (fun x => decide (x.1 = mdl.toNat))).map (·.2)).getD 0

/-- The lowest free entry of the ticket table (R241). DEDUCED, log 39. -/
def Core.freeEntry (c : Core) : Option Nat := (List.range 16).find? fun i => !c.tickets.any (fun t => decide (t.idx = i))

/-- The next transaction tag that is free (R86): tags are taken in turn. DEDUCED, log 31. -/
def Core.newTag (c : Core) : Nat :=
  ((List.range 64).map fun k => (c.tagNext + k) % queueTag).find? (fun i => !c.tickets.any fun t => decide (t.tag = i)) |>.getD 0

/-- The generation of a tag (R86). -/
def Core.genOf (c : Core) (tag : Nat) : BitVec 4 := ((c.tagGen.find? (fun x => decide (x.1 = tag))).map (·.2)).getD 0

/-- The next SEQ of a thread's flow (R79). DEDUCED, log 31. -/
def Core.seqOf (c : Core) (key : BitVec 32) (thr : Nat) : BitVec 16 :=
  ((c.seqs.find? (fun x => x.1 == key && decide (x.2.1 = thr))).map (·.2.2)).getD 0

def Core.bumpSeq (c : Core) (key : BitVec 32) (thr : Nat) : Core :=
  let n := c.seqOf key thr
  { c with seqs := (key, thr, n + 1) :: c.seqs.filter fun x => !(x.1 == key && decide (x.2.1 = thr)) }

/-- A register's pending bit set (R140). -/
def M.setPending (m : M) (f : F6) (vec : Bool) : M :=
  let n := f.toNat
  if vec then { m with thr := { m.thr with pendV := bitOn m.thr.pendV n } }
  else if n = 0 then m
  else if n < 32 then { m with thr := { m.thr with pendC := bitOn m.thr.pendC n } }
  else if n < 48 then { m with core := { m.core with wpend := bitOn m.core.wpend (n - 32) } }
  else m

/-- FINAL and TKLIM of a die in cycles (R88). -/
def Die.final (d : Die) : Nat := us (fieldOf d.rtctl 31 12)
def Die.tklim (d : Die) : Nat := us (1000 * fieldOf d.rtctl 47 32)

/-- 20 µs. -/
def resendAfter : Nat := us 20

/-- A request on its way, or the answer of the requester's gateway to an unreachable module (R91). -/
def State.route (s : State) (die : Nat) (p : Packet) : State :=
  let mdl := p.dst.extractLsb' 16 16
  if scopeCode s die mdl = 0 then
    s.post (.errorReply { kind := kError, status := stUnreach, tag := p.tag, gen := p.gen, thr := p.thr, dst := p.src, src := p.src, vn := 1, seq := p.seq })
  else s.send p

/-- A keyed request sent: an entry, a tag, a SEQ, the packet, the timers, the pending destinations. DEDUCED, log 20. -/
def M.keyed (m : M) (k : KReq) : Except Stop M := do
  match m.core.freeEntry with
  | none => .error .stall
  | some idx =>
    let tag := m.core.newTag
    let gen := m.core.genOf tag
    let key := k.win.rkey
    let p : Packet := {
      rkey := key, mode := k.mode, scope := k.scope, size := k.sz, aux := k.aux, addr := k.off, seq := m.core.seqOf key m.tid.val
      gen := gen, tag := BitVec.ofNat 10 tag, thr := BitVec.ofNat 3 m.tid.val, ctx := m.core.ctx, priv := m.thr.sys
      len := BitVec.ofNat 8 ((k.payload.length + 1) / 2), kind := k.kind, vn := 0, dst := checkEndpoint k.win.wmodule key
      src := endpointOf m.st m.core.id, payload := k.payload }
    let t : Ticket := {
      idx := idx, tag := tag, gen := gen, thr := m.tid.val, req := p, d := k.d, e := k.e, pc := m.thr.pc, ins := m.ins, acq := k.acq, dst := k.dst
      vec := k.vec, vmask := k.vmask, size := szBytes k.sz, sext := k.sext, ff := k.ff
      first := m.st.now, sent := m.st.now, heard := m.st.now }
    let c := m.core.bumpSeq key m.tid.val
    let m : M := { m with core := { c with tickets := c.tickets ++ [t], tagNext := (tag + 1) % queueTag } }
    let m := (m.setPending k.d k.vec).setPending k.e false
    let die := m.core.die
    let s := (m.st.route die p).after resendAfter (.retransmitTimeout m.who tag gen)
    .ok { m with st := s.after (s.die die).final (.finalTimeout m.who tag gen) }

/-- Requests whose reply a thread's release at a fabric scope waits for, and the release itself (R338): performed before sending. -/
def M.keyedOrdered (m : M) (rel : Bool) (sc : Scope) (k : KReq) : Except Stop M := do
  let m ← if rel then m.release sc else pure m
  m.keyed k

/-! ## Tickets at a gateway (R82, R83) -/

/-- The REPLAY notice of a ticket. -/
def GwTicket.notice (t : GwTicket) (st : BitVec 4) : Packet :=
  { kind := kReplay, vn := 2, status := st, aux := BitVec.ofNat 16 t.num, dst := t.req.src, src := t.endp, thr := t.req.thr,
    tag := t.req.tag, gen := t.req.gen }

/-- REPLAY sent for a ticket of a die's gateway: after `OK` it stands until its replay arrives; shadows of it that need no service of
their own follow directly (R83). -/
def State.tell : Nat → Nat → Nat → Nat → BitVec 4 → State → State
  | 0, _, _, _, _, s => s
  | f + 1, die, gw, num, st, s =>
    let hit (t : GwTicket) : Bool := decide (t.gw = gw ∧ t.num = num) && !t.told
    match (s.die die).gwTickets.find? hit with
    | none => s
    | some t =>
      let rest (ts : List GwTicket) : List GwTicket :=
        if st = stOk then update hit (fun t => { t with told := true, svc := false }) ts else ts.filter fun t => !hit t
      let s1 := s.setDie die fun d => { d with gwTickets := rest d.gwTickets }
      let shadows := (s1.die die).gwTickets.filter fun x => decide (x.gw = gw) && x.named == some num && !x.svc && !x.told
      shadows.foldl (fun s x => State.tell f die gw x.num stOk s) (s1.send (t.notice st))

/-- `State.tell` with room for every shadow. -/
def State.tellTicket (s : State) (die gw num : Nat) (st : BitVec 4) : State := s.tell ((s.die die).gwTickets.length + 1) die gw num st

/-! ## Sending again -/

/-- A ticket-table entry changed, by its tag. -/
def Core.setTicket (c : Core) (tag : Nat) (f : Ticket → Ticket) : Core := { c with tickets := update (fun t => decide (t.tag = tag)) f c.tickets }

/-- The thread whose timers an entry's timers name. -/
def Core.whoOf (c : Core) (t : Ticket) : ThrId := ⟨c.launch, c.team, t.req.thr.toNat⟩

/-- The stored request sent anew (R84, R241): RETX 0, the original tag and generation, from the core where the team is bound. -/
def State.sendAnew (s : State) (core tag : Nat) : State :=
  match s.core? core with
  | none => s
  | some c => match c.tickets.find? fun t => decide (t.tag = tag) with
    | none => s
    | some t =>
      let req := { t.req with src := endpointOf s core, retx := false }
      let s := s.setCore (c.setTicket tag fun t => { t with req := req, st := .sent, parked := false, probe := none, held := false, tries := 0,
                                                            backoff := 0, first := s.now, sent := s.now, heard := s.now })
      let s := (s.route c.die req).after resendAfter (.retransmitTimeout (c.whoOf t) tag t.gen)
      s.after (s.die c.die).final (.finalTimeout (c.whoOf t) tag t.gen)

/-! ## Holders re-pointed (R125, R126) -/

/-- A change of the endpoint that holders know for a team's waits: from one to another endpoint, of a context. At a Zenith core the team's
save slot tells its waits from those of other teams; `save` tells the direction. DESIGN CHOICE, log 29. -/
structure Repoint where
  old  : BitVec 32
  new  : BitVec 32
  ctx  : BitVec 6
  slot : BitVec 16
  save : Bool

/-- A request that waits for the team. -/
def Repoint.hits (x : Repoint) (p : Packet) : Bool :=
  p.src == x.old && p.ctx == x.ctx && decide (p.tag.toNat < 1022) && (x.save || p.seq == x.slot)

def Repoint.waiter (x : Repoint) (w : Waiter) : Waiter :=
  match w with
  | .remote p => if x.hits p then .remote { p with src := x.new, seq := if x.save then x.slot else 0 } else w
  | _ => w

def Repoint.cached (x : Repoint) (r : CachedReply) : CachedReply :=
  if r.src == x.old && (x.save || r.slot == some x.slot) then { r with src := x.new, slot := if x.save then some x.slot else none } else r

def Repoint.ticket (x : Repoint) (t : GwTicket) : GwTicket :=
  if t.req.src == x.old && t.req.ctx == x.ctx && !t.told && (x.save || t.slot == some x.slot) then
    { t with req := { t.req with src := x.new }, slot := if x.save then some x.slot else none }
  else t

/-- Every holder of this module re-pointed: wait lists of versions, retry lists, message engines, gateways. -/
def State.repoint (s : State) (x : Repoint) : State :=
  { s with
    dies := s.dies.map fun d => { d with
      names := d.names.map fun n => { n with waits := n.waits.map fun w => { w with who := x.waiter w.who } }
      waits := d.waits.map fun w => { w with acc := { w.acc with waiter := w.acc.waiter.map x.waiter } }
      motions := d.motions.map fun r => { r with held := r.held.map fun a => { a with waiter := a.waiter.map x.waiter } }
      replies := d.replies.map x.cached
      gwTickets := d.gwTickets.map x.ticket }
    cores := s.cores.map fun c => { c with localWaits := c.localWaits.map fun w => { w with who := x.waiter w.who } } }

/-- The request to another module's holders, and their acknowledgement. -/
def Repoint.packet (x : Repoint) (src dst : BitVec 32) (ack : Bool) : Packet :=
  { kind := kRepoint, mode := if ack then 1 else 0, vn := if ack then 1 else 0, ctx := x.ctx, aux := x.slot, size := if x.save then 1 else 0
    src := src, dst := dst, len := 1, payload := [x.old ++ x.new] }

def Repoint.of (p : Packet) : Repoint :=
  let w := p.payload.headD 0
  { old := w.extractLsb' 32 32, new := w.setWidth 32, ctx := p.ctx, slot := p.aux, save := p.size == 1 }

/-- Other modules at which a team has something waiting: parked accesses, tickets, tile requests. -/
def Core.holders (s : State) (c : Core) : List (BitVec 16) :=
  let keyed := (c.tickets.filter fun t => t.st == .ticketed || t.st == .shadow || (t.st == .sent && t.parked)).map fun t => t.req.dst.extractLsb' 16 16
  let tiles := c.thr.toList.filterMap fun t => match t.run with
    | .parked (.remoteTile p .waiting _ _) _ => some (p.dst.extractLsb' 16 16)
    | _ => none
  ((keyed ++ tiles).filter fun m => !ownModule s m).eraseDups

end

end Sys2Proof.Machine
end

