-- ==== Sys2Proof/Machine/LoadStore.lean ====
section
/-!
DEFINITION. The effects of loads, stores, full/empty operations, atomics, compare-and-swap, fences and cache maintenance (R319–R332).
-/
namespace Sys2Proof.Machine
open Sys2Proof

noncomputable section

/-! ## Operands of an access -/

/-- A memory operand: its field, its capability, the address or OFFSET accessed, and the base update. -/
structure MRef where
  f  : F6
  c  : Cap
  va : Nat
  ad : Addr

def M.ref (m : M) (x : Form) (a : F6) (am : BitVec 2) (ea : BitVec 7) (s : Nat) : MRef :=
  let ad := m.addr x a am ea s
  ⟨a, m.src a, ((m.src a).cursor + ad.off).toNat, ad⟩

/-- An operand at the cursor plus an offset, without update. -/
def M.refAt (m : M) (a : F6) (off : W64) : MRef := ⟨a, m.src a, ((m.src a).cursor + off).toNat, ⟨off, none⟩⟩

/-- The checks of R319 for `n` bytes. -/
def checkRef (r : MRef) (ps : List Perm) (n : Nat) : Except Stop Unit := do
  checkCap r.f r.c [0, 1, 6] ps
  checkBounds r.c r.va n
  checkAligned r.va n

/-- Ordering bits of a form: ORD and SC (R320). -/
def formOrd (x : Form) : BitVec 2 × Scope := x.elim (0, 0) fun x => (x.ord, x.sc)

/-! ## Loads and stores (R321, R322, R330) -/

/-- The acquire that ORD asks. -/
def orderAcq (ord : BitVec 2) (sc : Scope) : Option Scope := if ord.getLsbD 0 then some sc else none

/-- The register value of `n` loaded bytes. -/
def loadValue (c : Cap) (n v : Nat) (tag sx : Bool) : Cap :=
  if n = 16 then ⟨BitVec.ofNat 128 v, tag && capHas c .tgr && c.kind != 6⟩
  else Cap.ofInt (if sx then sextW (BitVec.ofNat 64 v) (8 * n) else BitVec.ofNat 64 v)

def M.loadTo (m : M) (sx : Bool) (sz : BitVec 3) (ord : BitVec 2) (sc : Scope) (d : F6) (r : MRef) : Except Stop M := do
  let n := szBytes sz
  checkRef r [.ld] n
  stallIf m.acqPending
  if r.c.kind = 6 then
    let m ← m.keyedOrdered (ord.getLsbD 1) sc { kind := kRld, win := r.c, off := BitVec.ofNat 64 r.va, sz := sz, scope := sc, d := d, sext := sx,
                                                acq := orderAcq ord sc }
    pure (m.update r.f r.ad)
  else
    let m ← m.ordered ord sc fun m => do
      let (m, v, t) ← m.loadAt r.c r.va n true
      pure (m.wr d (loadValue r.c n v t sx))
    pure (m.update r.f r.ad)

/-- The payload of a stored value. -/
def storeWords (n : Nat) (v : Cap) : List W64 :=
  if n = 16 then [v.int, v.bits.extractLsb' 64 64] else [BitVec.ofNat 64 (v.int.toNat % 2 ^ (8 * n))]

def M.storeFrom (m : M) (sz : BitVec 3) (ord : BitVec 2) (sc : Scope) (v : Cap) (r : MRef) : Except Stop M := do
  let n := szBytes sz
  m.restartCheck r.c
  checkRef r (if n = 16 ∧ v.tag then [.st, .tgw] else [.st]) n
  stallIf m.acqPending
  if r.c.kind = 6 then
    let m ← m.keyedOrdered (ord.getLsbD 1) sc { kind := kRst, win := r.c, off := BitVec.ofNat 64 r.va, mode := 3, sz := sz, scope := sc,
                                                payload := storeWords n v, acq := orderAcq ord sc }
    pure (m.update r.f r.ad)
  else
    let m ← m.ordered ord sc fun m =>
      m.storeAt r.c r.va n (v.bits.toNat % 2 ^ (8 * n)) (if n = 16 then some v.tag else none) true
    pure (m.update r.f r.ad)

def opLd (x : Form) (d a : F6) (sz : BitVec 3) (am : BitVec 2) (ea : BitVec 7) : Act := fun m =>
  m.loadTo false sz (formOrd x).1 (formOrd x).2 d (m.ref x a am ea (szBytes sz))
def opLds (x : Form) (d a : F6) (sz : BitVec 3) (am : BitVec 2) (ea : BitVec 7) : Act := fun m =>
  m.loadTo true sz (formOrd x).1 (formOrd x).2 d (m.ref x a am ea (szBytes sz))
def opSt (x : Form) (d a : F6) (sz : BitVec 3) (am : BitVec 2) (ea : BitVec 7) : Act := fun m =>
  m.storeFrom sz (formOrd x).1 (formOrd x).2 (m.src d) (m.ref x a am ea (szBytes sz))

def opLdacq (o : XOp) : Act := fun m =>
  m.loadTo false (o.x.t2.setWidth 3) 1 o.x.sc o.d (m.refAt o.a (immOff (some o.x)))
def opStrel (o : XOp) : Act := fun m =>
  m.storeFrom (o.x.t2.setWidth 3) 2 o.x.sc (m.src o.d) (m.refAt o.a (immOff (some o.x)))

/-! ## Full/empty operations (R324–R326) -/

/-- Whether the region's directory takes the access as a one-shot write, and whether a tenure is required (R326). -/
def feOneShotWrite : AccKind → Bool
  | .ldfe 1 | .ldfe 2 | .stfe 1 => true
  | _ => false
/-- Whether it needs write tenure to escape the directory (R201, R202). -/
def feModifies : AccKind → Bool
  | .ldfe 1 | .ldfe 2 | .stfe _ => true
  | _ => false
def feNeedsTenure : AccKind → Bool
  | .stfe 1 => false
  | .stfe _ => true
  | _ => false

/-- The page permissions of R229. -/
def feNeed : AccKind → PageNeed
  | .stfe _ => { w := true }
  | .ldfe 2 => { rd := true, w := true }
  | _ => { rd := true }

/-- A full/empty operation under way. -/
structure FeOp where
  kind : AccKind
  d    : F6
  data : W64
  r    : MRef
  acq  : Option Scope
  rel  : Option Scope
  /-- The success register of the form that does not wait. -/
  ff   : Option F6
  pops : List (BitVec 3)

def FeOp.isLoad (f : FeOp) : Bool := match f.kind with
  | .ldfe _ => true
  | _ => false

/-- The writes of a completed operation. -/
def FeOp.finish (f : FeOp) (len : Nat) : Finish :=
  { d := if f.isLoad then f.d else 0, acq := f.acq, len := len, pops := f.pops
    regs := (match f.r.ad.upd with
      | some c => [(f.r.f, c)]
      | none => []) ++ (match f.ff with
      | some e => [(e, Cap.ofInt 1)]
      | none => []) }

/-- The operation has executed with a value. -/
def M.feDone (m : M) (f : FeOp) (v : Nat) : Except Stop M := do
  let m := if f.isLoad then m.wrInt f.d (BitVec.ofNat 64 v) else m
  let m := m.update f.r.f f.r.ad
  let m := match f.ff with
    | some e => m.wrInt e 1
    | none => m
  match f.acq with
  | some sc => m.acquire sc
  | none => pure m

def M.feRelease (m : M) (f : FeOp) : Except Stop M :=
  match f.rel with
  | some sc => m.release sc
  | none => .ok m

/-- At the SRAM of the core (R163, R152). -/
def M.feAtLocal (m : M) (f : FeOp) : Except Stop M := do
  m.winCheck f.r.va 8
  let m1 ← m.feRelease f
  let (m2, v, ok) := m1.feLocal f.r.va f.kind f.data
  if ok then m2.feDone f v
  else match f.ff with
    | some e => pure (m.wrInt e 0)
    | none =>
      let (mode, store) : BitVec 2 × Bool := match f.kind with
        | .ldfe k => (k, false)
        | .stfe k => (k, true)
        | _ => (0, false)
      .error (.park { m1 with core := { m1.core with localWaits := m1.core.localWaits ++ [⟨f.r.va, .thread m.who⟩] } }
        (.feLocal f.r.va mode store f.data) (f.finish m.len))

/-- At the point of coherence (R174, R326). -/
def M.feAtPort (m : M) (f : FeOp) : Except Stop M := do
  let va : W64 := BitVec.ofNat 64 f.r.va
  let (m, x) ← m.page f.r.va (feNeed f.kind)
  trapIf (!(paKind m.st x.pa).isMem) causePagePerm va
  trapIf (!hasMeta m.st x.pa) causeNoMeta va
  let un := m.uncovered ((List.range 8).map (f.r.va + ·)) (feModifies f.kind)
  trapIf (!un.isEmpty && feNeedsTenure f.kind) causeTenure 0
  let held ← match un with
    | [] => pure none
    | (n, ps) :: _ => do
      let own ← m.oneShot n ps (feOneShotWrite f.kind)
      pure (if own then some n else none)
  let drop (m : M) (s : State) : M := match held with
    | some n => ({ m with st := s } : M).world (·.dropOneShot n m.who)
    | none => { m with st := s }
  let m1 ← m.feRelease f
  let m1 ← m1.l1Clean (fun l => decide (l.pa = x.pa / 64 * 64)) true
  let (m1, _) ← m1.placed x.pa
  let acc : PortAccess := { pa := x.pa, size := 8, kind := f.kind, data := f.data.setWidth 128, key := x.key, master := m.master,
                            waiter := some (.thread m.who) }
  match (m1.st.yieldLine x.pa).portExec acc with
  | .refused s => .error (.kept (drop m s) causePagePerm va)
  | .poison s => .error (.poison s)
  | .parked s =>
    match f.ff with
    | some e => pure ((drop m s).wrInt e 0)
    | none => .error (.park (drop m1 ((s.parkAt acc).getD (s.refuseWaiter acc))) (.fePort x.pa) (f.finish m.len))
  | .done s v _ =>
    let m2 := drop m1 s
    let m3 ← if AccStores f.kind then m2.logWrite f.r.va 8 x.logged else pure m2
    m3.feDone f v

/-- Through a launch window (R241, R325): the waiting happens at the target; without waiting the thread parks for the reply. -/
def M.feKeyed (m : M) (f : FeOp) : Except Stop M := do
  let mode : BitVec 8 := match f.kind with
    | .ldfe k | .stfe k => k.setWidth 8
    | _ => 0
  let m ← m.feRelease f
  let m ← m.keyed { kind := if f.isLoad then kRld else kRst, win := f.r.c, off := BitVec.ofNat 64 f.r.va,
                    mode := if f.ff.isSome then mode + 4 else mode, scope := f.acq.getD (f.rel.getD 0)
                    payload := if f.isLoad then [] else [f.data], d := if f.isLoad && f.ff.isNone then f.d else 0, acq := f.acq, ff := f.ff }
  match f.ff with
  | none => pure (m.update f.r.f f.r.ad)
  | some _ =>
    let tag := (m.core.tickets.getLast?).elim 0 (·.tag)
    .error (.park m (.reply tag) { f.finish m.len with acq := none })

/-- The queue registers that a stored field pops. -/
def popsOf (f : F6) : List (BitVec 3) := match queueOf f with
  | some j => [BitVec.ofNat 3 j.val]
  | none => []

/-- The synchronisation of a mode: acquire and release scopes, from the mode and from ORD (R212, R324). -/
def feSync (k : AccKind) (x : Form) : Option Scope × Option Scope :=
  let (ord, sx) := formOrd x
  let sc : Scope := if x.isSome then sx else 4
  let acq := match k with
    | .ldfe 1 | .ldfe 2 => true
    | _ => ord.getLsbD 0
  let rel := match k with
    | .stfe 0 | .stfe 1 => true
    | _ => ord.getLsbD 1
  (if acq then some sc else none, if rel then some sc else none)

def M.fe (m : M) (x : Form) (k : AccKind) (d a : F6) (am : BitVec 2) (ea : BitVec 7) : Except Stop M := do
  let r := m.ref x a am ea 8
  let store := match k with
    | .stfe _ => true
    | _ => false
  if store then m.restartCheck r.c else pure ()
  checkRef r (if store then [.st, .fe] else [.ld, .fe]) 8
  stallIf m.acqPending
  let (acq, rel) := feSync k x
  let ff : Option F6 := match x with
    | some x => if x.ff then some x.e else none
    | none => none
  let f : FeOp := { kind := k, d := d, data := if store then m.int d else 0, r := r, acq := acq, rel := rel, ff := ff
                    pops := if store then popsOf d else [] }
  if r.c.kind = 6 then m.feKeyed f else if r.c.kind = 1 then m.feAtLocal f else m.feAtPort f

def opLdfeAny (x : Form) (d a : F6) (am : BitVec 2) (ea : BitVec 7) : Act := fun m =>
  m.loadTo false 3 (formOrd x).1 (formOrd x).2 d (m.ref x a am ea 8)
def opLdfeWf (x : Form) (d a : F6) (am : BitVec 2) (ea : BitVec 7) : Act := fun m => m.fe x (.ldfe 1) d a am ea
def opLdfeWfe (x : Form) (d a : F6) (am : BitVec 2) (ea : BitVec 7) : Act := fun m => m.fe x (.ldfe 2) d a am ea
def opLdfeSt (x : Form) (d a : F6) (am : BitVec 2) (ea : BitVec 7) : Act := fun m => m.fe x (.ldfe 3) d a am ea
def opStfeSf (x : Form) (d a : F6) (am : BitVec 2) (ea : BitVec 7) : Act := fun m => m.fe x (.stfe 0) d a am ea
def opStfeWef (x : Form) (d a : F6) (am : BitVec 2) (ea : BitVec 7) : Act := fun m => m.fe x (.stfe 1) d a am ea
def opStfeSe (x : Form) (a : F6) (am : BitVec 2) (ea : BitVec 7) : Act := fun m => m.fe x (.stfe 2) 0 a am ea
def opStfeKeep (x : Form) (d a : F6) (am : BitVec 2) (ea : BitVec 7) : Act := fun m =>
  m.storeFrom 3 (formOrd x).1 (formOrd x).2 (Cap.ofInt (m.int d)) (m.ref x a am ea 8)

/-! ## Atomics (R175, R176, R327–R329) -/

/-- What an atomic writes, from the old bytes and tag: new bytes and tag, or nothing. -/
abbrev AtomFn := Nat → Bool → Option (Nat × Bool)

/-- At the common level: the home slice, or with `port` the memory or cache port. -/
def M.atomCommon (m : M) (va n : Nat) (x : XRes) (port tagged : Bool) (f : AtomFn) : Except Stop (M × Nat × Bool × Bool) := do
  let m ← m.l1Clean (fun l => decide (l.pa = x.pa / 64 * 64)) true
  let m := if tagged then { m with st := m.st.metaConflict x.pa } else m
  let (m, a) ← m.placed x.pa
  let s := m.st.recallOwn x.pa
  let s := if port then s.l2Drop a else s
  let recs := if (l2Find s a).isSome then [] else portRefusal s a m.master 4
  if recs.isEmpty then pure () else .error (.trap causePagePerm (BitVec.ofNat 64 va) recs)
  let touch (s : State) (dirty : Bool) : State := if port then (if dirty then s else s.portTouch a true) else s.l2Touch a dirty m.master
  let s := touch s false
  if s.badAt a then .error (.poison s) else pure ()
  let old := s.readPa a n x.key
  let tag := s.tagAt a && hasMeta s a
  match f old tag with
  | none => pure ({ m with st := s }, old, tag, false)
  | some (v, t) =>
    let s := (touch (s.markMotion x.pa) true).writePa a n v x.key
    pure ({ m with st := if t then s.setTagAt a true else s }, old, tag, true)

/-- At the issuing quad's L1, which owns the line. -/
def M.atomOwned (m : M) (va n : Nat) (x : XRes) (f : AtomFn) : Except Stop (M × Nat × Bool × Bool) := do
  let b := x.pa / 64 * 64
  let qid := m.core.quadId
  let m ← if ownedBy m.st b qid then pure m
    else do
      let m ← m.l1Clean (fun l => decide (l.pa = b)) true
      let m : M := { m with st := m.st.recallOwn b }
      let (m, l) ← m.line va x true
      pure { m with st := m.st.putLine qid { l with own := true } }
  let (m, old, tag) ← m.readLine va n x
  match f old tag with
  | none => pure (m, old, tag, false)
  | some (v, t) => do
    let m ← m.writeLine va n v (if n = 16 then some t else none) x
    pure (m, old, tag, true)

/-- An atomic of `n` bytes through a capability of type 0 or 1 whose checks have passed. `tagged` is set when it may write a tag. -/
def M.atomAt (m : M) (c : Cap) (va n : Nat) (sc : Scope) (tagged : Bool) (f : AtomFn) : Except Stop (M × Nat × Bool × Bool) := do
  if c.kind = 1 then
    m.winCheck va n
    let old := m.localRead va n
    let tag := m.localTag va
    match f old tag with
    | none => pure (m, old, tag, false)
    | some (v, t) =>
      let m := m.localWrite va n v
      pure (if n = 16 then m.putLocalTag va t else m, old, tag, true)
  else
    let a : W64 := BitVec.ofNat 64 va
    let (m, x) ← m.page va { rd := true, w := true, cs := tagged }
    trapIf (!(paKind m.st x.pa).isMem) causePagePerm a
    trapIf (tagged && !hasMeta m.st x.pa) causeNoMeta a
    let (m, old, tag, ok) ← match m.uncovered ((List.range n).map (va + ·)) true with
      | (r, ps) :: _ => do
        let own ← m.oneShot r ps true
        let (m, res) ← m.atomCommon va n x (inMotion m.st x.pa) tagged f
        pure (if own then m.world (·.dropOneShot r m.who) else m, res)
      | [] =>
        if inMotion m.st x.pa ∨ 4 ≤ sc.toNat then m.atomCommon va n x true tagged f
        else if 2 ≤ sc.toNat then m.atomCommon va n x false tagged f
        else m.atomOwned va n x f
    let m ← if ok then m.logWrite va n x.logged else pure m
    pure (m, old, tag, ok)

/-- Size code of an atomic: 8 bytes, or 4 with T2 = 2. -/
def amoSz (x : Form) : BitVec 3 := x.elim 3 fun x => if x.t2 = 2 then 2 else 3

def opAmo (op : BitVec 3) (x : Form) (d a b : F6) (sc : Scope) : Act := fun m => do
  let sz := amoSz x
  let n := szBytes sz
  let r := m.refAt a (immOff x)
  let ord := (formOrd x).1
  let sc := if x.isSome then (formOrd x).2 else sc
  let v := (m.int b).toNat % 2 ^ (8 * n)
  m.restartCheck r.c
  checkRef r [.atom] n
  stallIf m.acqPending
  if r.c.kind = 6 then
    m.keyedOrdered (ord.getLsbD 1) sc { kind := kRamo, win := r.c, off := BitVec.ofNat 64 r.va, sz := sz, scope := sc, aux := op.setWidth 16,
                                        payload := [BitVec.ofNat 64 v], d := d, acq := orderAcq ord sc }
  else m.ordered ord sc fun m => do
    let (m, old, _, _) ← m.atomAt r.c r.va n sc false fun old _ => some (amoOp op n old v, false)
    pure (m.wrInt d (BitVec.ofNat 64 old))

def opAmoAdd (x : Form) (d a b : F6) (sc : BitVec 3) : Act := opAmo 0 x d a b sc
def opAmoAnd (x : Form) (d a b : F6) (sc : BitVec 3) : Act := opAmo 1 x d a b sc
def opAmoOr (x : Form) (d a b : F6) (sc : BitVec 3) : Act := opAmo 2 x d a b sc
def opAmoXor (x : Form) (d a b : F6) (sc : BitVec 3) : Act := opAmo 3 x d a b sc
def opAmoMin (x : Form) (d a b : F6) (sc : BitVec 3) : Act := opAmo 4 x d a b sc
def opAmoMax (x : Form) (d a b : F6) (sc : BitVec 3) : Act := opAmo 5 x d a b sc
def opAmoMinu (x : Form) (d a b : F6) (sc : BitVec 3) : Act := opAmo 6 x d a b sc
def opAmoSwap (x : Form) (d a b : F6) (sc : BitVec 3) : Act := opAmo 7 x d a b sc

def opCas (o : XOp) : Act := fun m => do
  let sz : BitVec 3 := o.x.t2.setWidth 3
  let n := szBytes sz
  let r := m.refAt o.a (immOff (some o.x))
  let want := (m.int o.x.b).toNat % 2 ^ (8 * n)
  let new := (m.int o.x.c).toNat % 2 ^ (8 * n)
  m.restartCheck r.c
  checkRef r [.atom] n
  stallIf m.acqPending
  if r.c.kind = 6 then
    let acq := orderAcq o.x.ord o.x.sc
    let ws : List W64 := [BitVec.ofNat 64 want, BitVec.ofNat 64 new]
    m.keyedOrdered (o.x.ord.getLsbD 1) o.x.sc
      { kind := kRcas, win := r.c, off := BitVec.ofNat 64 r.va, sz := sz, scope := o.x.sc, payload := ws, d := o.d, e := o.x.e, acq := acq }
  else m.ordered o.x.ord o.x.sc fun m => do
    let (m, old, _, ok) ← m.atomAt r.c r.va n o.x.sc false fun old _ => if old = want then some (new, false) else none
    pure ((m.wrInt o.d (BitVec.ofNat 64 old)).wrInt o.x.e (boolW ok))

def opCasq (o : XOp) : Act := fun m => do
  let r := m.refAt o.a (immOff (some o.x))
  let want := m.src o.x.b
  let new := m.src o.x.c
  m.restartCheck r.c
  checkRef r [.atom, .tgr, .tgw] 16
  stallIf m.acqPending
  m.ordered o.x.ord o.x.sc fun m => do
    let (m, old, tag, ok) ← m.atomAt r.c r.va 16 o.x.sc new.tag fun old tag =>
      if old = want.bits.toNat ∧ tag = want.tag then some (new.bits.toNat, new.tag) else none
    pure ((m.wr o.d ⟨BitVec.ofNat 128 old, tag⟩).wrInt o.x.e (boolW ok))

/-! ## Fences and cache maintenance (R331, R332) -/

/-- An engine command of the thread has not completed. -/
def M.engBusy (m : M) : Bool :=
  (m.core.engC ++ m.core.engG ++ m.core.runC.toList ++ m.core.runG.toList).any fun c => decide (c.thr = m.tid.val)

def opFence (sc : Scope) (ord : BitVec 2) (eng : Bool) : Act := fun m => do
  stallIf m.acqPending
  if fabric sc then m.reportAny else pure ()
  stallIf (fabric sc && m.outstanding)
  stallIf (sc == 0 && m.ownWindow)
  stallIf (eng && m.engBusy)
  m.ordered ord sc pure

/-- The lines of a range, by their virtual line numbers. -/
def lineIn (a n line : Nat) : Bool := decide (a % 2 ^ 56 / 64 ≤ line ∧ line ≤ (a % 2 ^ 56 + n - 1) / 64)

/-- The checks of R332; the answer tells whether there is work: a type-0 range that is not empty. -/
def M.cacheRange (m : M) (x : Form) (a b : F6) : Except Stop (Option (Nat × Nat)) := do
  let c := m.src a
  let va := (c.cursor + immOff x).toNat
  let n := (m.int b).toNat
  checkCap a c [0, 1] [.ld]
  checkBounds c va n
  pure (if c.kind = 1 ∨ n = 0 then none else some (va, n))

/-- Instruction-cache lines that a predicate selects dropped, with the fetch buffers of the core that hold a half of one (R135). -/
def M.icacheDrop (m : M) (p : Nat → Bool) : M :=
  let dry (t : Thread) : Thread := { t with fbuf := t.fbuf.filter fun b => !p (b.1 / 2) }
  { m with thr := dry m.thr, core := { m.core with icache := m.core.icache.filter fun l => !p l.va, thr := m.core.thr.map dry } }

def cacheOp (inv icache : Bool) (x : Form) (a b : F6) : Act := fun m => do
  match ← m.cacheRange x a b with
  | none => pure m
  | some (va, n) =>
    let m ← m.l1Clean (fun l => l.ctx == m.core.ctx && lineIn va n l.va) inv
    pure (if icache then m.icacheDrop fun vl => lineIn va n vl else m)

def opCwb (x : Form) (a b : F6) : Act := cacheOp false false x a b
def opCinv (x : Form) (a b : F6) : Act := cacheOp true true x a b
def opCwbinv (x : Form) (a b : F6) : Act := cacheOp true false x a b

/-- One line fetched, every fault ignored; none of a tile that the team does not hold in tenure (R166). -/
def M.prefetch (m : M) (va : Nat) : M :=
  match m.page va { rd := true } with
  | .error _ => m
  | .ok (m1, x) =>
    if (paKind m1.st x.pa).isMem && (m.uncovered ((List.range 64).map (va / 64 * 64 + ·)) false).isEmpty then
      match m1.line va x with
      | .ok (m2, _) => m2
      | .error _ => m1
    else m

def opCpre (x : Form) (a b : F6) : Act := fun m => do
  match ← m.cacheRange x a b with
  | none => pure m
  | some (va, n) => pure ((List.range ((va + n - 1) / 64 - va / 64 + 1)).foldl (fun m k => m.prefetch (64 * (va / 64 + k))) m)

end

end Sys2Proof.Machine
end

