-- ==== Sys2Proof/Machine/Remote.lean ====
section
/-!
DEFINITION. The effects of the remote instructions (R338–R341), the queue instructions (R333), the vector-row and log
instructions (R334, R335).
-/
namespace Sys2Proof.Machine
open Sys2Proof

noncomputable section

/-! ## Remote accesses (R338) -/

/-- A team in restartable mode makes no remote operation but `rld` (R128). -/
def M.remoteCheck (m : M) : Except Stop Unit := trapIf m.restart causePrivilege 1

/-- The full/empty mode of `rld` and `rst`: X[3] selects one, X[2:1] is its code. -/
def xfabMode (x : Ext) (plain : BitVec 2) : BitVec 2 := if x.x.getLsbD 3 then x.x.extractLsb' 1 2 else plain

/-- The operand of a remote access at OFFSET + IMM32, checked for `n` bytes. -/
def M.window (m : M) (o : XOp) (types : List Nat) (ps : List Perm) (n : Nat) : Except Stop MRef := do
  let r := m.refAt o.a (immOff (some o.x))
  checkCap r.f r.c types ps
  checkAligned r.va n
  stallIf m.acqPending
  pure r

def opRld (o : XOp) : Act := fun m => do
  let mode := xfabMode o.x 0
  let sz : BitVec 3 := o.x.t2.setWidth 3
  let r ← m.window o [3, 6] (if mode = 0 then [.ld] else [.ld, .fe]) (szBytes sz)
  let acq := if mode = 1 ∨ mode = 2 then some o.x.sc else orderAcq o.x.ord o.x.sc
  m.keyedOrdered (o.x.ord.getLsbD 1) o.x.sc
    { kind := kRld, win := r.c, off := BitVec.ofNat 64 r.va, mode := mode.setWidth 8, sz := sz, scope := o.x.sc, d := o.d, acq := acq }

def opRst (o : XOp) : Act := fun m => do
  m.remoteCheck
  let mode := xfabMode o.x 3
  let sz : BitVec 3 := o.x.t2.setWidth 3
  let n := szBytes sz
  let r ← m.window o [3, 6] (if mode = 3 then [.st] else [.st, .fe]) n
  let rel := mode = 0 || mode = 1 || o.x.ord.getLsbD 1
  let ws := storeWords n (m.src o.d)
  m.keyedOrdered rel o.x.sc
    { kind := kRst, win := r.c, off := BitVec.ofNat 64 r.va, mode := mode.setWidth 8, sz := sz, scope := o.x.sc, payload := ws,
      acq := orderAcq o.x.ord o.x.sc }

def opRamo (o : XOp) : Act := fun m => do
  m.remoteCheck
  let sz : BitVec 3 := o.x.t2.setWidth 3
  let n := szBytes sz
  let r ← m.window o [3, 6] [.atom] n
  m.keyedOrdered (o.x.ord.getLsbD 1) o.x.sc
    { kind := kRamo, win := r.c, off := BitVec.ofNat 64 r.va, sz := sz, scope := o.x.sc, aux := (o.x.c.setWidth 3).setWidth 16
      payload := storeWords n (m.src o.x.b), d := o.d, acq := orderAcq o.x.ord o.x.sc }

def opRcas (o : XOp) : Act := fun m => do
  m.remoteCheck
  let sz : BitVec 3 := o.x.t2.setWidth 3
  let n := szBytes sz
  let r ← m.window o [3, 6] [.atom] n
  let ws := storeWords n (Cap.ofInt (m.int o.x.b)) ++ storeWords n (Cap.ofInt (m.int o.x.c))
  m.keyedOrdered (o.x.ord.getLsbD 1) o.x.sc
    { kind := kRcas, win := r.c, off := BitVec.ofNat 64 r.va, sz := sz, scope := o.x.sc, payload := ws, d := o.d, e := o.x.e
      acq := orderAcq o.x.ord o.x.sc }

/-- `rcall` (R339): the handler's 128 bits, the four arguments, and the handler's tag in AUX[0]. -/
def opRcall (o : XOp) : Act := fun m => do
  m.remoteCheck
  let r := m.refAt o.a (immOff (some o.x))
  checkCap r.f r.c [6] [.call]
  stallIf m.acqPending
  let h := m.src o.x.b
  let args := (List.range 4).map fun k => m.int (o.x.c + BitVec.ofNat 6 k)
  m.keyedOrdered (o.x.ord.getLsbD 1) o.x.sc
    { kind := kRcall, win := r.c, off := BitVec.ofNat 64 r.va, aux := if h.tag then 1 else 0
      payload := [h.int, h.bits.extractLsb' 64 64] ++ args, acq := orderAcq o.x.ord o.x.sc }

/-- `rnote` (R340): a notice without a ticket entry. -/
def opRnote (o : XOp) : Act := fun m => do
  m.remoteCheck
  let c := m.src o.a
  checkCap o.a c [6] [.st]
  stallIf m.acqPending
  let m ← if o.x.ord.getLsbD 1 then m.release o.x.sc else pure m
  let p : Packet := { kind := kRnote, vn := 2, rkey := c.rkey, addr := c.cursor, aux := (o.x.b.setWidth 3).setWidth 16, ctx := m.core.ctx,
                      priv := m.thr.sys, thr := BitVec.ofNat 3 m.tid.val, dst := checkEndpoint c.wmodule c.rkey
                      src := endpointOf m.st m.core.id }
  let s := if scopeCode m.st m.core.die c.wmodule = 0 then m.st else m.st.send p
  let m := { m with st := s }
  if o.x.ord.getLsbD 0 then m.acquire o.x.sc else pure m

def opRfence (_ : XOp) : Act := fun m => do
  m.remoteCheck
  m.reportAny
  stallIf (!m.tickets.isEmpty)
  .ok m

/-! ## Bulk moves (R341) -/

/-- The tenured bytes of a range of translated memory without a covering tenure. -/
def M.rangeUncovered (m : M) (c : Cap) (n : Nat) (write : Bool) : Bool :=
  c.kind = 0 && !(m.uncovered ((List.range n).map (c.cursor.toNat + ·)) write).isEmpty

def opRget (o : XOp) : Act := fun m => do
  m.remoteCheck
  let w := m.src o.a
  let c := m.src o.x.b
  let n := o.x.imm.toNat
  checkCap o.a w [3, 6] [.ld]
  checkCap o.x.b c [0, 1] [.st]
  checkBounds c c.cursor.toNat n
  checkAligned w.cursor.toNat 8
  checkAligned c.cursor.toNat 8
  trapIf (m.rangeUncovered c n true) causeTenure 0
  stallIf m.acqPending
  m.keyedOrdered (o.x.ord.getLsbD 1) o.x.sc
    { kind := kRget, win := w, off := w.cursor, scope := o.x.sc, aux := BitVec.ofNat 16 n, d := o.d, dst := some (c, n)
      acq := orderAcq o.x.ord o.x.sc }

/-- A range read in 8-byte words, as loads do. -/
def M.loadWords (m : M) (c : Cap) (va : Nat) : Nat → Except Stop (M × List W64)
  | 0 => .ok (m, [])
  | k + 1 => do
    let (m, v, _) ← m.loadAt c va 8 false
    let (m, ws) ← m.loadWords c (va + 8) k
    pure (m, BitVec.ofNat 64 v :: ws)

def opRput (o : XOp) : Act := fun m => do
  m.remoteCheck
  let w := m.src o.a
  let c := m.src o.x.b
  let n := o.x.imm.toNat
  checkCap o.a w [3, 6] [.st]
  checkCap o.x.b c [0, 1] [.ld]
  checkBounds c c.cursor.toNat n
  checkAligned w.cursor.toNat 8
  checkAligned c.cursor.toNat 8
  stallIf m.acqPending
  let (m, ws) ← m.loadWords c c.cursor.toNat (n / 8)
  m.keyedOrdered (o.x.ord.getLsbD 1) o.x.sc
    { kind := kRput, win := w, off := w.cursor, scope := o.x.sc, aux := BitVec.ofNat 16 n, d := o.d, payload := ws
      acq := orderAcq o.x.ord o.x.sc }

/-! ## Queues (R333) -/

/-- A queue register unbound: entries received stay (R148). -/
def unbind (q : Queue) : Queue := { q with bind := .unbound, failed := false }

/-- The bind request of a mesh channel: sender's queue, and the partner's queue and thread, in AUX. -/
def bindPacket (m : M) (j : BitVec 3) (win : Cap) (team : Nat) (u q : BitVec 3) : Packet :=
  let who : W64 := BitVec.ofNat 64 (m.core.launch.toNat + 2 ^ 16 * m.core.team)
  { rkey := win.rkey, kind := kBind, dst := checkEndpoint win.wmodule win.rkey, src := endpointOf m.st m.core.id
    thr := BitVec.ofNat 3 m.tid.val, ctx := m.core.ctx, aux := BitVec.ofNat 16 (j.toNat + 8 * q.toNat + 64 * u.toNat)
    addr := BitVec.ofNat 64 (team * 0x40000), len := 1, payload := [who] }

/-- DEDUCED, log 20. -/
def opQbind (q : BitVec 3) (a b : F6) : Act := fun m => do
  let v := m.int b
  let j : BitVec 3 := v.setWidth 3
  let u : BitVec 3 := v.extractLsb' 3 3
  let put (m : M) (x : QBind) : M := { m with thr := m.thr.setQ q.toFin fun y => { unbind y with bind := x } }
  if v.getLsbD 6 then
    trapIf m.restart causePrivilege 1
    let c := m.src a
    checkCap a c [6] [.st, .ld]
    let team := fieldOf v 31 8
    let m := put m (.toTeam c team u j false 8 [])
    pure (if scopeCode m.st m.core.die c.wmodule = 0 then m else { m with st := m.st.send (bindPacket m q c team u j) })
  else
    let pos := 14 + ((List.range 6).find? (fun k => a.getLsbD k)).getD 0
    trapIf (a != 0) causeReserved (BitVec.ofNat 64 pos)
    pure (put m (.toThread u j))

def opQunb (q : BitVec 3) : Act := fun m => .ok { m with thr := m.thr.setQ q.toFin unbind }

/-- The status word of R333. -/
def M.qstatWord (m : M) (j : Fin 8) : W64 :=
  let q := m.thr.q.get j
  let (team, pq, pt, mesh) : Nat × Nat × Nat × Nat := match q.bind with
    | .unbound => (0, 0, 0, 0)
    | .toThread u k => (0, k.toNat, u.toNat, 0)
    | .toTeam _ t u k _ _ _ => (t, k.toNat, u.toNat, 1)
  let b (x : Bool) : Nat := if x then 1 else 0
  BitVec.ofNat 64 (team % 2 ^ 24 * 2 ^ 24 + pq * 2 ^ 21 + pt * 2 ^ 18 + b q.failed * 2 ^ 12 + b (m.linked j && !q.failed) * 2 ^ 11
    + mesh * 2 ^ 10 + b q.bound * 2 ^ 9 + m.room j * 16 + q.fifo.length % 16)

def opQstat (d : F6) (q : BitVec 3) : Act := fun m => .ok (m.wrInt d (m.qstatWord q.toFin))

def opQpeek (d : F6) (q : BitVec 3) : Act := fun m =>
  let x := m.thr.q.get q.toFin
  match x.fifo with
  | v :: _ => .ok (m.wrInt d v)
  | [] => if x.bound then .error .stall else .error (.trap causeQueueUnbound (q.setWidth 64) [])

/-! ## Vector rows (R144, R145, R334) and the log (R335) -/

/-- A thread's rows after a change of the count: newly powered rows read zero, gated rows leave the latches; an instruction
that has issued and is parked completes with the old contents (R145). -/
def rowsChange (old new : Nat) (t : Thread) : Thread :=
  let keep (l : Latch) : Latch := match l with
    | some r => if r.toNat < 6 * new then l else none
    | none => none
  let v := Vector.ofFn fun (i : Fin 48) => if 6 * old ≤ i.val ∧ i.val < 6 * new then 0 else t.v.get i
  let pend := t.pendV &&& BitVec.ofNat 48 (2 ^ (6 * new) - 1)
  let was := match t.run with
    | .parked .. => if new < old then t.oldRows.orElse fun _ => some t.v else t.oldRows
    | _ => t.oldRows
  { t with v := v, latchA := keep t.latchA, latchB := keep t.latchB, latchC := keep t.latchC, pendV := pend, oldRows := was }

def M.setRows (m : M) (n : Nat) : M :=
  let old := m.core.vrows
  let tk (t : Ticket) : Ticket := if t.vec && decide (6 * n ≤ t.d.toNat) then { t with vec := false, d := 0 } else t
  let thr := m.core.thr.map (rowsChange old n)
  { m with core := { m.core with vrows := n, thr := thr, tickets := m.core.tickets.map tk }, thr := rowsChange old n m.thr }

def opVrowSet (d a : F6) : Act := fun m =>
  let n := Nat.max 1 (Nat.min (m.int a).toNat m.core.ceil)
  .ok ((m.setRows n).wrInt d (BitVec.ofNat 64 n))

def opVrowGet (d : F6) : Act := fun m => .ok (m.wrInt d (BitVec.ofNat 64 (m.core.vrows + 16 * m.core.ceil)))

def opLogon : Act := fun m => .ok { m with thr := { m.thr with logOn := true } }
def opLogoff : Act := fun m => do
  let m ← m.emitRanges fun _ => true
  pure { m with thr := { m.thr with logOn := false } }
def opLogmark (a : F6) : Act := fun m => do
  let v := m.int a
  let m ← m.emitRanges fun _ => true
  m.logEntry 2 0 v

end

end Sys2Proof.Machine
end

