-- ==== Sys2Proof/Machine/Engines.lean ====
section
/-!
DEFINITION. The engines (R177–R180, R218, R336, R337): commands checked and queued at issue, and their units performed one after
another by the engine's own steps. A unit through a launch window is a keyed request whose reply the engine awaits.
-/
namespace Sys2Proof.Machine
open Sys2Proof

noncomputable section

/-! ## Issue (R336) -/

/-- A capability named in an engine command. -/
def engCap (f : F6) (c : Cap) (ps : List Perm) : Except Stop Unit := checkCap f c [0, 1, 6] (ps ++ [.eng])

def M.engRestart (m : M) (c : Cap) : Except Stop Unit := trapIf (m.restart && c.tag && c.kind != 1) causePrivilege 1

/-- Addresses and lengths that must be multiples of `k`; the destination is checked first. -/
def engAligned (k : Nat) (dst src : Option Cap) (n : Nat) : Except Stop Unit := do
  match dst with
  | some c => checkAligned c.cursor.toNat k
  | none => pure ()
  match src with
  | some c => checkAligned c.cursor.toNat k
  | none => pure ()
  match dst with
  | some c => trapIf (n % k != 0) causeMisaligned (c.cursor + BitVec.ofNat 64 n)
  | none => pure ()

/-- The engine of a command: 0 copy and fill, 1 gather and scatter. -/
def engOf (op : Nat) : Engine := if op = 3 ∨ op = 4 then .gather else .copy

def Core.engQueue (c : Core) : Engine → List EngCmd
  | .copy => c.engC
  | .gather => c.engG
def Core.engRun (c : Core) : Engine → Option EngCmd
  | .copy => c.runC
  | .gather => c.runG
def Core.setEng (c : Core) (e : Engine) (q : List EngCmd) (r : Option EngCmd) : Core :=
  match e with
  | .copy => { c with engC := q, runC := r }
  | .gather => { c with engG := q, runG := r }

/-- A checked command joins its engine's queue of two; the token becomes pending. -/
def M.enqueue (m : M) (o : XOp) (c : EngCmd) : Except Stop M := do
  let e := engOf c.op
  stallIf m.acqPending
  let q := m.core.engQueue e
  stallIf (q.length ≥ 2)
  let m : M := { m with core := m.core.setEng e (q ++ [c]) (m.core.engRun e) }
  pure { m.setPending o.d false with st := m.st.post (.engineCommandStart m.core.id e) }

/-- The command's common fields. -/
def M.engCmd (m : M) (o : XOp) (op : Nat) (a b c : Cap) : EngCmd :=
  { op := op, thr := m.tid.val, d := o.d, a := a, b := b, c := c, imm := o.x.imm, size := szBytes (o.x.t2.setWidth 3), fe := o.x.x.getLsbD 1
    acq := orderAcq o.x.ord o.x.sc, rel := if o.x.ord.getLsbD 1 then some o.x.sc else none, logged := m.thr.logOn }

/-- Permissions of a destination in the full/empty form. -/
def dstPerms (fe : Bool) : List Perm := if fe then [.st, .fe] else [.st]

def opCp (o : XOp) : Act := fun m => do
  let a := m.src o.a
  let b := m.src o.x.b
  let n := (m.int o.x.c).toNat
  let fe := o.x.x.getLsbD 1
  m.engRestart a
  engCap o.a a (dstPerms fe)
  checkBounds a a.cursor.toNat n
  engCap o.x.b b [.ld]
  checkBounds b b.cursor.toNat n
  if fe then engAligned 8 (some a) (some b) n else pure ()
  m.enqueue o (m.engCmd o 0 a b (m.src o.x.c))

/-- Row `i` of a `cp2d` range: its address from a cursor and a stride, mod 2^64. -/
def rowAddr (c : Cap) (stride : Int) (i : Nat) : Nat := (c.cursor + BitVec.ofInt 64 (stride * i)).toNat

/-- `cp2d`'s descriptor: width, rows, source and destination strides. -/
structure Desc2 where
  w  : Nat
  n  : Nat
  ss : Int
  ds : Int
def desc2 (c : Cap) : Desc2 where
  w := (c.bits.extractLsb' 0 24).toNat
  n := (c.bits.extractLsb' 24 24).toNat
  ss := (c.bits.extractLsb' 64 32).toInt
  ds := (c.bits.extractLsb' 96 32).toInt

/-- The rows of a `cp2d` range within bounds. -/
def rowsBounds (c : Cap) (stride : Int) (w n : Nat) : Except Stop Unit :=
  (List.range n).foldlM (fun _ i => checkBounds c (rowAddr c stride i) w) ()

/-- The full/empty form's alignment: every row of the destination, then of the source, then the width. -/
def rowsAligned (a b : Cap) (d : Desc2) : Except Stop Unit := do
  (List.range d.n).foldlM (fun _ i => checkAligned (rowAddr a d.ds i) 8) ()
  (List.range d.n).foldlM (fun _ i => checkAligned (rowAddr b d.ss i) 8) ()
  trapIf (d.w % 8 != 0) causeMisaligned (a.cursor + BitVec.ofNat 64 d.w)

def opCp2d (o : XOp) : Act := fun m => do
  let a := m.src o.a
  let b := m.src o.x.b
  let c := m.src o.x.c
  let d := desc2 c
  let fe := o.x.x.getLsbD 1
  m.engRestart a
  engCap o.a a (dstPerms fe)
  rowsBounds a d.ds d.w d.n
  engCap o.x.b b [.ld]
  rowsBounds b d.ss d.w d.n
  trapIf c.tag causeCapType (o.x.c.setWidth 64)
  if fe then rowsAligned a b d else pure ()
  m.enqueue o (m.engCmd o 1 a b c)

def opCpf (o : XOp) : Act := fun m => do
  let a := m.src o.a
  let n := (m.int o.x.c).toNat
  let fe := o.x.x.getLsbD 1
  m.engRestart a
  engCap o.a a (dstPerms fe)
  checkBounds a a.cursor.toNat n
  if fe then engAligned 8 (some a) none n else pure ()
  m.enqueue o (m.engCmd o 2 a (m.src o.x.b) (m.src o.x.c))

def opCpg (o : XOp) : Act := fun m => do
  let a := m.src o.a
  let b := m.src o.x.b
  let c := m.src o.x.c
  let n := o.x.imm.toNat
  m.engRestart a
  engCap o.a a [.st]
  checkBounds a a.cursor.toNat (n * szBytes (o.x.t2.setWidth 3))
  engCap o.x.b b [.ld]
  engCap o.x.c c [.ld]
  checkBounds c c.cursor.toNat (8 * n)
  m.enqueue o (m.engCmd o 3 a b c)

def opCps (o : XOp) : Act := fun m => do
  let a := m.src o.a
  let b := m.src o.x.b
  let c := m.src o.x.c
  let n := o.x.imm.toNat
  m.engRestart a
  engCap o.a a [.st]
  engCap o.x.b b [.ld]
  checkBounds b b.cursor.toNat (n * szBytes (o.x.t2.setWidth 3))
  engCap o.x.c c [.ld]
  checkBounds c c.cursor.toNat (8 * n)
  m.enqueue o (m.engCmd o 4 a b c)

def opCpq (o : XOp) : Act := fun m => do
  let a := m.src o.a
  let b := m.src o.x.b
  let n := (m.int o.x.c).toNat
  m.engRestart a
  engCap o.a a [.st]
  checkBounds a a.cursor.toNat n
  engCap o.x.b b [.ld]
  checkBounds b b.cursor.toNat n
  engAligned 16 (some a) (some b) n
  m.enqueue o (m.engCmd o 5 a b (m.src o.x.c))

/-! ## Units (R337) -/

/-- A unit: destination and source addresses, its bytes, and the address of its index. -/
structure EUnit where
  dst : Nat
  src : Nat
  n   : Nat
  idx : Option Nat := none

/-- Unit `k`, or none when the command is complete. -/
def EngCmd.unitAt (c : EngCmd) (k : Nat) : Option EUnit :=
  let da := c.a.cursor.toNat
  let sa := c.b.cursor.toNat
  match c.op with
  | 1 =>
    let d := desc2 c.c
    let per := (d.w + 63) / 64
    if per = 0 ∨ d.n ≤ k / per then none
    else
      let o := 64 * (k % per)
      some ⟨(rowAddr c.a d.ds (k / per) + o) % 2 ^ 64, (rowAddr c.b d.ss (k / per) + o) % 2 ^ 64, Nat.min 64 (d.w - o), none⟩
  | 3 => if c.imm.toNat ≤ k then none else some ⟨(da + c.size * k) % 2 ^ 64, sa, c.size, some ((c.c.cursor.toNat + 8 * k) % 2 ^ 64)⟩
  | 4 => if c.imm.toNat ≤ k then none else some ⟨da, (sa + c.size * k) % 2 ^ 64, c.size, some ((c.c.cursor.toNat + 8 * k) % 2 ^ 64)⟩
  | _ =>
    let n := c.c.int.toNat
    if n ≤ 64 * k then none else some ⟨(da + 64 * k) % 2 ^ 64, (sa + 64 * k) % 2 ^ 64, Nat.min 64 (n - 64 * k), none⟩

/-- The pieces of a range that are read or written one by one: granules of `cpq`, words of the full/empty form, parts of lines. -/
def EngCmd.pieces (c : EngCmd) (va n : Nat) : List (Nat × Nat) :=
  let g := if c.op = 5 then 16 else if c.fe then 8 else 0
  if g = 0 then blocksOf va n else (List.range (n / g)).map fun k => (va + g * k, g)

/-- A piece of translated memory as an engine reads it (R178): dirty bytes of the quad's L1, the rest at the common level. -/
def M.engReadMem (m : M) (va n : Nat) : Except Stop (M × Nat × Bool × Bool) := do
  let (m, x) ← m.page va { rd := true }
  trapIf (!(paKind m.st x.pa).isMem) causePagePerm (BitVec.ofNat 64 va)
  for (r, ps) in m.uncovered ((List.range n).map (va + ·)) false do
    match m.st.tregion? r with
    | some r => stallIf (!grantable r.recs (boundRect ps) false)
    | none => pure ()
  let (m, a) ← m.placed x.pa
  let recs := if (l2Find m.st a).isSome then [] else portRefusal m.st a m.master 1
  if recs.isEmpty then pure () else .error (.trap causePagePerm (BitVec.ofNat 64 va) recs)
  let s := m.st.l2Touch a false m.master
  let line := (s.quad m.core.quadId).l1.find? fun l => decide (l.pa = x.pa / 64 * 64)
  let dirty := line.elim 0 (·.dirty)
  let k := va % 64
  let mine := byteMask k n &&& dirty
  if s.badAt a && mine != byteMask k n then .error (.poison s) else pure ()
  if line.elim false (·.poison) && mine != 0 then .error (.poison s) else pure ()
  let base := s.readPa a n x.key * 2 ^ (8 * k)
  let v := mergeBytes mine (line.elim 0 (·.data.toNat)) base
  let tag := if mine != 0 then line.elim false (·.tags.getLsbD (k / 16)) else s.tagAt a && hasMeta s a
  pure ({ m with st := s }, sliceBytes v k n, tag, !hasMeta s a || s.fullAt a)

/-- A piece of a capability of type 0 or 1; the register window reads zero (R152). -/
def M.engRead (m : M) (c : Cap) (va n : Nat) : Except Stop (M × Nat × Bool × Bool) := do
  checkBounds c va n
  if c.kind = 1 then
    let v := (List.range n).foldr (fun k acc => (if inWindow (va + k) then 0 else (m.core.mem.byte (va + k)).toNat) + 256 * acc) 0
    pure (m, v, !inWindow va && m.core.mem.tag va, inWindow va || m.core.mem.full va)
  else m.engReadMem va n

/-- A piece of translated memory as an engine writes it (R178, R201). -/
def M.engWriteMem (m : M) (cmd : EngCmd) (va n v : Nat) (tag : Bool) (full : Option Bool) : Except Stop M := do
  let a : W64 := BitVec.ofNat 64 va
  let (m, x) ← m.page va { w := true, cs := tag }
  trapIf (!(paKind m.st x.pa).isMem) causePagePerm a
  trapIf ((tag || full.isSome) && !hasMeta m.st x.pa) causeNoMeta a
  trapIf (!(m.uncovered ((List.range n).map (va + ·)) true).isEmpty) causeTenure 0
  let m : M := if tag || full == some false then { m with st := m.st.metaConflict x.pa } else m
  let m ← m.engineWrite va n v x
  let p := placeNow m.st x.pa
  let s := if tag then m.st.setTagAt p true else m.st
  let s : State := match full with
    | some f => if s.fullAt p = f then s else (s.setFullAt p f).retryAt x.pa
    | none => s
  ({ m with st := s } : M).logWrite va n x.logged (some cmd.logged)

def M.engWrite (m : M) (cmd : EngCmd) (c : Cap) (va n v : Nat) (tag : Bool) (full : Option Bool) : Except Stop M := do
  checkBounds c va n
  trapIf (tag && !capHas c .tgw) causeCapPerm va
  if c.kind = 1 then
    let mem := (List.range n).foldl (fun (mem : Memory) k =>
      if inWindow (va + k) then mem else (mem.setTag (va + k) false).setByte (va + k) (BitVec.ofNat 8 (v / 2 ^ (8 * k)))) m.core.mem
    let mem := if tag && !inWindow va then mem.setTag va true else mem
    match full with
    | some f =>
      if inWindow va ∨ mem.full va = f then pure { m with core := { (m.core.soil va).soil (va + n - 1) with mem := mem } }
      else
        let c1 : Core := { (m.core.soil va).soil (va + n - 1) with mem := mem.setFull va f, thr := m.core.thr.set m.tid m.thr }
        let (c2, s) := Core.retryLocal (c1.localWaits.length + 1) va c1 m.st
        pure { m with core := c2, thr := c2.thr.get m.tid, st := s }
    | none => pure { m with core := { (m.core.soil va).soil (va + n - 1) with mem := mem } }
  else m.engWriteMem cmd va n v tag full

/-! ## Window accesses of an engine -/

/-- Engine requests are numbered above the ticket table's entries. -/
def engIdx (e : Engine) : Nat := match e with
  | .copy => 16
  | .gather => 17

/-- A request through a launch window: `n` bytes read, or written with each word's full/empty bit in a last word. DESIGN CHOICE, log 22. -/
def M.engSend (m : M) (e : Engine) (c : Cap) (off n : Nat) (fe : Bool) (put : Option (Nat × W64)) : M :=
  let tag := m.core.newTag
  let key := c.rkey
  let gen := m.core.genOf tag
  let words (v : Nat) : List W64 := (List.range ((n + 7) / 8)).map fun k => BitVec.ofNat 64 (sliceBytes v (8 * k) 8)
  let payload := put.elim [] fun (v, f) => words v ++ if fe then [f] else []
  let p : Packet := {
    rkey := key, mode := if fe then 0x10 else 0, aux := BitVec.ofNat 16 n, addr := BitVec.ofNat 64 off, seq := m.core.seqOf key m.tid.val
    gen := gen, tag := BitVec.ofNat 10 tag, thr := BitVec.ofNat 3 m.tid.val, ctx := m.core.ctx, priv := m.thr.sys, cls := 1
    len := BitVec.ofNat 8 ((payload.length + 1) / 2), kind := if put.isSome then kRput else kRget, dst := checkEndpoint c.wmodule key
    src := endpointOf m.st m.core.id, payload := payload }
  let t : Ticket := { idx := engIdx e, tag := tag, gen := gen, thr := engIdx e, req := p, d := 0, e := 0, pc := m.thr.pc, ins := 0,
                      first := m.st.now, sent := m.st.now, heard := m.st.now }
  let c1 := m.core.bumpSeq key m.tid.val
  let m : M := { m with core := { c1 with tickets := c1.tickets ++ [t], tagNext := (tag + 1) % queueTag } }
  let die := m.core.die
  let s := (m.st.route die p).after resendAfter (.retransmitTimeout m.who tag gen)
  { m with st := s.after (s.die die).final (.finalTimeout m.who tag gen) }

/-- What a step of a unit leads to. -/
inductive EngRes where
  /-- The unit is performed. -/
  | unit (m : M) (c : EngCmd)
  /-- A request was sent; the engine waits for its reply. -/
  | sent (m : M) (c : EngCmd)

/-- The unit's addresses with its index applied. -/
def EUnit.place (u : EUnit) (c : EngCmd) (idx : W64) : EUnit :=
  let o := (BitVec.ofNat 64 c.size * idx).toNat
  if c.op = 3 then { u with src := (u.src + o) % 2 ^ 64 } else if c.op = 4 then { u with dst := (u.dst + o) % 2 ^ 64 } else u

/-- The data of a unit that is not read through a window. -/
def M.engData (m : M) (c : EngCmd) (u : EUnit) : Except Stop (M × Nat × List (Bool × Bool)) :=
  if c.op = 2 then
    let pat := c.b.int.toNat
    let v := (List.range u.n).foldr (fun k acc => sliceBytes pat ((u.dst + k) % 8) 1 + 256 * acc) 0
    .ok (m, v, (c.pieces u.dst u.n).map fun _ => (false, c.imm.getLsbD 0))
  else
    (c.pieces u.src u.n).foldlM (fun (r : M × Nat × List (Bool × Bool)) p => do
      let (m, v, t, f) ← r.1.engRead c.b p.1 p.2
      pure (m, r.2.1 + v * 2 ^ (8 * (p.1 - u.src)), r.2.2 ++ [(t && c.op = 5 && capHas c.b .tgr, f)])) (m, 0, [])

/-- One unit: its index, its data, its write, each at once or through a window (R337). DESIGN CHOICE, log 22. -/
def M.engUnit (m : M) (e : Engine) (c : EngCmd) (u : EUnit) : Except Stop EngRes := do
  match u.idx, c.idx with
  | some a, none =>
    if c.c.kind = 6 then pure (.sent (m.engSend e c.c a 8 false none) { c with waits := true })
    else
      let ps := blocksOf a 8
      let (m, v) ← ps.foldlM (fun (r : M × Nat) p => do
        let (m, v, _, _) ← r.1.engRead c.c p.1 p.2
        pure (m, r.2 + v * 2 ^ (8 * (p.1 - a)))) (m, 0)
      go m { c with idx := some (BitVec.ofNat 64 v) } u
  | _, _ => go m c u
where
  go (m : M) (c : EngCmd) (u : EUnit) : Except Stop EngRes := do
    let u := match c.idx with
      | some i => u.place c i
      | none => u
    match c.buf with
    | none =>
      if c.op ≠ 2 ∧ c.b.kind = 6 then pure (.sent (m.engSend e c.b u.src u.n c.fe none) { c with waits := true })
      else
        let (m, v, ms) ← m.engData c u
        write m c u v ms
    | some (v, ms) => write m c u v ms
  write (m : M) (c : EngCmd) (u : EUnit) (v : Nat) (ms : List (Bool × Bool)) : Except Stop EngRes := do
    let done : EngCmd := { c with unit := c.unit + 1, done := c.done + u.n, idx := none, buf := none, put := false, waits := false }
    if c.a.kind = 6 then
      if c.put then pure (.unit m done)
      else
        trapIf (ms.any (·.1)) causeCapPerm 0
        let f := ms.foldr (fun x (acc : W64) => acc <<< 1 ||| (if x.2 then 1 else 0)) 0
        pure (.sent (m.engSend e c.a u.dst u.n c.fe (some (v, f))) { c with buf := some (v, ms), waits := true })
    else
      let m ← ((c.pieces u.dst u.n).zipIdx).foldlM (fun m (p, k) => do
        let meta_ := ms.getD k (false, true)
        m.engWrite c c.a p.1 p.2 (sliceBytes v (p.1 - u.dst) p.2) (meta_.1 && c.op = 5) (if c.fe then some meta_.2 else none)) m
      pure (.unit m done)

/-! ## The engine's own steps -/

/-- The engine as a master with the issuing thread's privilege. -/
def State.engM (s : State) (c : Core) (cmd : EngCmd) : M := { s.asM c cmd.thr with cls := 1 }

/-- A command ends: its release, its token, its fault; the engine takes the next. -/
def M.engEnd (m : M) (e : Engine) (c : EngCmd) : Except Stop M := do
  let failedFabric := c.rel.elim false fun sc => fabric sc && m.tickets.any (·.failed)
  let c := if failedFabric && c.fault.isNone then { c with fault := some (causeRemoteDeferred, 0) } else c
  let m ← match c.rel with
    | some sc => if failedFabric then pure m else m.release sc
    | none => pure m
  let tok : W64 := BitVec.ofNat 64 (c.done + if c.fault.isSome then 2 ^ 63 else 0)
  let m := m.clearDst c.d false (some (Cap.ofInt tok))
  let flt : W64 := match c.fault with
    | some (k, a) => if m.thr.engflt = 0 then BitVec.ofNat 64 (k.toNat * 2 ^ 56 + a % 2 ^ 56) else m.thr.engflt
    | none => m.thr.engflt
  let rel := match c.rel with
    | some sc => if failedFabric || c.d == 0 then [] else [(c.d, sc)]
    | none => []
  let m : M := { m with thr := { m.thr with engflt := flt, relOn := rel ++ m.thr.relOn.filter fun x => x.1 != c.d } }
  let m : M := { m with core := m.core.setEng e (m.core.engQueue e) none }
  pure { m with st := m.st.post (.engineCommandStart m.core.id e) }

/-- What stops an engine: a service it waits for, a retry of what is not ready, poison, or a fault that ends the command. -/
def engStop (s : State) (core : Core) (e : Engine) (c : EngCmd) (again : Instr) : Stop → State ⊕ EngCmd
  | .service va code w f =>
    if (s.die core.die).services.length ≥ 4096 then .inl (s.after 1 again)
    else .inl (s.openService core.die core.ctx va code w f (fun x => { x with engines := x.engines ++ [(core.id, e, va)] })).1
  | .trap k v _ => .inr { c with fault := some (k, v.toNat), waits := false }
  | .kept _ k v => .inr { c with fault := some (k, v.toNat) }
  | .poison s => .inl (s.post (.launchTermination core.launch 1 0x10 (some core.team)))
  | _ => .inl (s.after 1 again)

/-- Units performed until one waits or the command ends. DESIGN CHOICE, log 22. -/
def engLoop (e : Engine) : Nat → Core → EngCmd → State → State
  | 0, _, _, s => s
  | fuel + 1, core, c, s =>
    let again : Instr := .engineCommandComplete core.id e
    let put (s : State) (c : EngCmd) : State := match s.core? core.id with
      | some k => s.setCore (k.setEng e (k.engQueue e) (some c))
      | none => s
    let finish (c : EngCmd) : State :=
      let m := s.engM core c
      match m.engEnd e c with
      | .ok m => m.flush
      | .error _ => (put s c).after 1 again
    match c.fault, c.unitAt c.unit with
    | none, some u =>
      match (s.engM core c).engUnit e c u with
      | .ok (.sent m c) => put m.flush c
      | .ok (.unit m c) =>
        let s1 := put m.flush c
        match s1.core? core.id with
        | some k => engLoop e fuel k c s1
        | none => s1
      | .error x =>
        let s0 := match x with
          | .trap _ _ recs => recs.foldl (fun s r => s.fault r.die r.kind r.code r.ctx r.addr r.aux32 r.aux64) s
          | _ => s
        match engStop s0 core e c again x with
        | .inl s1 => put s1 c
        | .inr c =>
          let m := s0.engM core c
          match m.engEnd e c with
          | .ok m => m.flush
          | .error _ => (put s0 c).after 1 again
    | _, _ => finish c

/-- The units of a command, as an upper bound for the loop. -/
def EngCmd.fuel (c : EngCmd) : Nat :=
  match c.op with
  | 1 => let d := desc2 c.c; d.n * ((d.w + 63) / 64) + 2
  | 3 | 4 => c.imm.toNat + 2
  | _ => c.c.int.toNat / 64 + 3

/-- The next command starts when the engine is idle (R177); with the acquire flag, after the thread's earlier loads (R179). -/
def engineStart (core : Nat) (e : Engine) (s : State) : State :=
  match s.core? core with
  | none => s
  | some c =>
    match c.engRun e, c.engQueue e with
    | none, x :: rest => (s.setCore (c.setEng e rest (some x))).post (.engineCommandComplete core e)
    | _, _ => s

/-- The running command proceeds. -/
def engineGo (core : Nat) (e : Engine) (s : State) : State :=
  match s.core? core with
  | none => s
  | some c =>
    match c.engRun e with
    | none => s
    | some x =>
      if x.waits then s
      else if x.begun then engLoop e x.fuel c x s
      else
        let m := s.engM c x
        let again : Instr := .engineCommandComplete core e
        let r : Except Stop M := match x.acq with
          | some sc => do
            stallIf (m.loadsOut || m.acqPending)
            m.acquire sc
          | none => .ok m
        match r with
        | .error _ => s.after 1 again
        | .ok m =>
          let x := { x with begun := true }
          let s1 := m.flush
          match s1.core? core with
          | some c => engLoop e x.fuel (c.setEng e (c.engQueue e) (some x)) x s1
          | none => s1

end

end Sys2Proof.Machine
end

