-- ==== Sys2Proof/Machine/System.lean ====
section
/-!
DEFINITION. The effects of the system operations of XSYS (R342), the replicas of the region table (R76, R78), and the numbering of
a die's cores (R34, R35) that they use.
-/
namespace Sys2Proof.Machine
open Sys2Proof

noncomputable section

/-! ## Region tables (R76–R78) -/

def Die.putRegion (d : Die) (gw idx : Nat) (r : Region) : Die :=
  { d with regions := (gw, idx, r) :: d.regions.filter fun (g, i, _) => !(g == gw && i == idx) }

/-- The new entry sent to all 72 gateways, which acknowledge it. -/
def State.regionAll (s : State) (idx : Nat) (r : Region) : State :=
  { s with dies := s.dies.map fun d => (List.range 9).foldl (fun d gw => d.putRegion gw idx r) d }

/-- The lowest index that is invalid at every gateway. DESIGN CHOICE, log 6. -/
def State.regionFree (s : State) : Option Nat :=
  (List.range 4096).find? fun i => !s.dies.toList.any fun d => d.regions.any fun (_, j, r) => j == i && r.v

/-- The remote key of an entry. -/
def keyValue (idx : Nat) (gen : BitVec 20) : BitVec 32 := BitVec.ofNat 12 idx ++ gen

/-- The first armed slot of each context is offered to its dispatcher. -/
def State.offerSlots (s : State) : State :=
  ((s.armed.map (·.1)).eraseDups).foldl (fun s c => match s.armed.find? fun x => x.1 == c with
    | some (_, k) => s.post (.launchSlotTake c k)
    | none => s) s

/-- A key revoked at every gateway (R78); a slot that waits for the entry is offered again (R116). -/
def State.revokeKey (s : State) (key : BitVec 32) : State :=
  let idx := key.toNat / 2 ^ 20
  let r := (s.die 0).region 3 idx
  if r.v && r.gen == key.setWidth 20 then (s.regionAll idx { r with v := false, gen := r.gen + 1 }).offerSlots else s

/-- DEDUCED, log 23. -/
def opRkreg (o : XOp) : Act := fun m => do
  let c := m.src o.a
  checkCap o.a c [0] [.rem]
  match m.st.regionFree with
  | none => pure (m.wrInt o.d 0x8000000000000001)
  | some i =>
    let old := (m.st.die m.core.die).region 3 i
    let have_ : BitVec 5 := BitVec.ofNat 5 ((if capHas c .ld then 1 else 0) + (if capHas c .st then 2 else 0)
      + (if capHas c .atom then 4 else 0) + (if capHas c .fe then 8 else 0))
    let r : Region := { vbase := BitVec.ofNat 56 c.base, length := BitVec.ofNat 64 (c.top - c.base), ctx := m.core.ctx,
                        perm := (m.int o.x.b).setWidth 5 &&& have_, gen := old.gen, v := true }
    pure ({ m with st := m.st.regionAll i r }.wrInt o.d ((keyValue i old.gen).setWidth 64))

/-- DEDUCED, log 23. -/
def opRkrev (o : XOp) : Act := fun m =>
  let key : BitVec 32 := (m.int o.a).setWidth 32
  let r := (m.st.die m.core.die).region 3 (key.toNat / 2 ^ 20)
  if !r.v || r.gen != key.setWidth 20 then .ok (m.wrInt o.d 1)
  else if r.ctx ≠ m.core.ctx then .ok (m.wrInt o.d 2)
  else .ok ({ m with st := m.st.regionAll (key.toNat / 2 ^ 20) { r with v := false, gen := r.gen + 1 } }.wrInt o.d 0)

/-! ## Pages and Drift (R53, R54, R62) -/

/-- Whether the frame's page may move (R54): a CXL frame has no frame-table entry. -/
def frameMoves (s : State) (src : Nat) : Bool := tierOf src == 2 || movable s src

/-- The die whose station serves a frame, and keeps the record of its motion (R38, R55). -/
def ownerDie (s : State) (src : Nat) : Nat := (station s src).1

/-- The frame's memory port owns at most four records (R55). -/
def portSlot (s : State) (src : Nat) : Bool :=
  decide (((s.die (ownerDie s src)).motions.filter fun m => decide (station s m.src = station s src)).length < 4)

/-- Whether Drift of a die may open one more motion of a page with this source. -/
def motionSlot (s : State) (src : Nat) : Bool :=
  let d := s.die (ownerDie s src)
  d.dctl.getLsbD 0 && !d.dctl.getLsbD 2 && d.dftb.getLsbD 0 && decide (d.motions.length < fieldOf d.dctl 28 24) && portSlot s src

/-- The free frames of a tier at a die. -/
def Die.free (d : Die) (tier : Nat) : List Nat :=
  match tier with
  | 0 => d.freeHbm
  | 1 => d.freeLp
  | _ => d.freeCxl

/-- A frame that Drift may take: free, and at its own home die. -/
def frameFree (s : State) (dst : Nat) : Bool := ((s.die (homeDie dst)).free (tierOf dst)).contains dst

/-- What a die pin allows (R53): a reserved pin nothing, a die only its own frames and not CXL. -/
def pinAllows (pin dst : Nat) : Bool := pin == 15 || (decide (pin < 8) && decide (pin = homeDie dst) && tierOf dst != 2)

/-- `mighint`'s result code, and the motion it starts: leaf and destination. -/
def M.mighintCode (m : M) (va tier die : Nat) : Nat × Option (Nat × Nat × Nat) :=
  match walk m.st m.core.desc.ptroot (va % 2 ^ 56) with
  | .page pa w0 w1 lvl leaf =>
    if !canonical va then (5, none)
    else
      let src := pa / 2 ^ 16 * 2 ^ 16
      let pin := bitsN w1.toNat 35 32
      if leafType w0.toNat = 3 then (1, none)
      else if lvl ≠ 0 ∨ tier = 3 ∨ !frameMoves m.st src ∨ (tier = 2 ∧ tierOf src = 0) then (2, none)
      else
        let frames := if tier = 2 then ((m.st.die 0).free 2) ++ ((m.st.die 4).free 2) else (m.st.die die).free tier
        if 8 ≤ pin ∧ pin < 15 ∨ (pin < 8 ∧ (tier = 2 ∨ die ≠ pin)) then (4, none)
        else match frames with
          | f :: _ => if motionSlot m.st src then (0, some (ownerDie m.st src, leaf, f)) else (3, none)
          | [] => (3, none)
  | _ => (5, none)

def opMighint (o : XOp) : Act := fun m =>
  let b := m.int o.x.b
  let (code, start) := m.mighintCode (m.int o.a).toNat (fieldOf b 1 0) (fieldOf b 6 4)
  let s := match start with
    | some (d, leaf, dst) => m.st.post (.motionStart d leaf dst)
    | none => m.st
  .ok ({ m with st := s }.wrInt o.d (BitVec.ofNat 64 code))

/-- A motion of the frame is aborted, and the instruction waits until the record has closed. -/
def M.settle (m : M) (pa : Nat) : Except Stop Unit :=
  match motionOf m.st pa with
  | none => .ok ()
  | some (d, r) => .error (.done { (m.flush.motionAbort d r.src 3) with stalled := true })

/-- FIX of a frame's entry written (R50). -/
def State.setFix (s : State) (pa : Nat) (b : Bool) : State :=
  match frameEntry s pa with
  | none => s
  | some a => s.writePa a 8 (putBitsN (frameWord s pa) 62 62 (if b then 1 else 0)) 0

def opPgpin (o : XOp) : Act := fun m => do
  let (m, x) ← m.page (m.int o.a).toNat { rd := true }
  m.settle x.pa
  let b := (m.int o.x.b).getLsbD 0
  let prev := frameWord m.st x.pa / 2 ^ 62 % 2
  let kept := !b && (m.st.die (homeDie x.pa)).retired.contains (x.pa / 2 ^ 16)
  let s := if kept then m.st else m.st.setFix x.pa b
  pure ({ m with st := s }.wrInt o.d (BitVec.ofNat 64 (prev + if kept then 2 else 0)))

/-- A page retired: its leaf to type 5, translations shot down, FIX set (R249, R342). -/
def State.retireLeaf (s : State) (leaf : Nat) (ctx : Option (BitVec 6)) (r : PageRange) (pa : Nat) : State :=
  let w := s.leafWord leaf
  let s := s.setLeafWord leaf (putBitsN w 3 1 5)
  (s.shootAll ctx r).setFix pa true

/-- The persistent list of retired frames (R250). -/
def State.listRetired (s : State) (pa : Nat) : State :=
  s.setDie (homeDie pa) fun d => { d with retired := setIns d.retired (pa / 2 ^ 16), freeHbm := setDel d.freeHbm (pa / 2 ^ 16 * 2 ^ 16)
                                          freeLp := setDel d.freeLp (pa / 2 ^ 16 * 2 ^ 16) }

def opPgret (o : XOp) : Act := fun m => do
  let va := (m.int o.a).toNat
  let (m, x) ← m.page va { rd := true }
  m.settle x.pa
  let m ← m.release 4
  match walk m.st m.core.desc.ptroot (va % 2 ^ 56) with
  | .page _ _ _ lvl leaf =>
    let r : PageRange := some (va % 2 ^ 56 / 2 ^ (16 + 10 * lvl) * 2 ^ (10 * lvl), 2 ^ (10 * lvl))
    let s := m.st.retireLeaf leaf (some m.core.ctx) r x.pa
    let s := if (m.int o.x.b).getLsbD 0 then s.listRetired x.pa else s
    pure (m.reload ({ m with st := s } : M).flush |>.wrInt o.d 0)
  | _ => pure (m.wrInt o.d 0)

/-! ## The log ring (R183, R184) and keys (R105) -/

def opLogring (o : XOp) : Act := fun m => do
  let v := m.int o.a
  let m ← m.emitRanges fun _ => true
  pure { m with core := { m.core with logring := v &&& 0x00FFFFFFFFFFF01F, loghead := 0, logtail := 0, logdrop := 0 } }

/-- The start of the module's register range, and of a die's (R36). -/
def moduleRange : Nat := 0xF00000000000
def dieRange (d : Nat) : Nat := 0xF00100000000 + 2 ^ 32 * d

/-- A key pair at every memory port, LPDDR controller and host port. -/
def State.setKey (s : State) (k : Nat) (a b : W128) : State := { s with keys := (k, a, b) :: s.keys.filter fun x => decide (x.1 ≠ k) }

/-- DEDUCED, log 38. -/
def opKeyset (o : XOp) : Act := fun m =>
  let k := fieldOf (m.int o.a) 9 0
  if !accessOk (m.st.die 0) 1100 moduleRange m.master 2 then
    .ok ({ m with st := m.st.refuse 0 1100 moduleRange m.master 2 }.wrInt o.d 1)
  else if k = 0 then .ok (m.wrInt o.d 1)
  else .ok ({ m with st := m.st.setKey k (m.src o.x.b).bits (m.src o.x.c).bits }.wrInt o.d 0)

/-! ## Logical cores (R34, R35, R248) -/

/-- The place of core `k` of a physical quad (R19). -/
def quadPlace (die pq k : Nat) : Nat :=
  placeOf die (32 * (2 * (pq / 16) + k / 2) + (2 * (pq % 16) + k % 2))

/-- The place of a logical core. -/
def Die.corePlace (d : Die) (die n : Nat) : Option Nat :=
  match d.moved.find? fun x => decide (x.1 = n) with
  | some (_, p) => some p
  | none => (d.quadMap[n / 4]?).map fun pq => quadPlace die pq (n % 4)

/-- The logical number of a place. -/
def Die.logicalOf (d : Die) (die place : Nat) : Option Nat :=
  (List.range 992).find? fun n => d.corePlace die n == some place

/-- The active cores of a die that are not sealed, by logical number. -/
def Die.activeCores (d : Die) (die : Nat) : List Nat :=
  ((List.range 992).filterMap (d.corePlace die)).filter fun p => !d.sealedCores.contains p

/-- The next PC of the lowest slot that holds a thread (R252, kind 0x71). -/
def State.sealPc (s : State) (core : Nat) : W64 :=
  match s.core? core with
  | none => 0
  | some c => match c.thr.toList.find? fun t => t.run != .none with
    | some t => t.pc.int
    | none => 0

/-- DEDUCED, log 38. -/
def opCoreseal (o : XOp) : Act := fun m =>
  let v := m.int o.a
  let d := fieldOf v 12 10
  let die := m.st.die d
  if !accessOk die 1100 (dieRange d) m.master 2 then .ok ({ m with st := m.st.refuse d 1100 (dieRange d) m.master 2 }.wrInt o.d 1)
  else match die.corePlace d (fieldOf v 9 0) with
    | none => .ok (m.wrInt o.d 2)
    | some p =>
      if die.sealedCores.contains p then .ok (m.wrInt o.d 2)
      else .ok ({ m with st := m.st.post (.coreSeal p 3 0) }.wrInt o.d 0)

end

end Sys2Proof.Machine
end

