-- ==== Sys2Proof/Machine/Tiles.lean ====
section
/-!
DEFINITION. Versioned and tenured tiles (R186–R207, R383–R389): the state machines of names, versions and tensor regions at their
home, the checks of a handle, and the effects of the tile instructions.
-/
namespace Sys2Proof.Machine
open Sys2Proof

noncomputable section

/-! ## Names and versions at their home (R188–R193) -/

def nameDie (n : Nat) : Nat := n / 2 ^ 29 % 8
def nameRegion (n : Nat) : Nat := n / 2 ^ 23 % 64

def State.tname? (s : State) (n : Nat) : Option TName := (s.die (nameDie n)).names.find? fun x => decide (x.name = n)
def State.setTname (s : State) (n : Nat) (f : TName → TName) : State :=
  s.setDie (nameDie n) fun d => { d with names := update (fun x => decide (x.name = n)) f d.names }

def TName.ver? (n : TName) (v : Nat) : Option Version := n.vers.find? fun x => decide (x.ver = v)
def TName.setVer (n : TName) (v : Nat) (f : Version → Version) : TName := { n with vers := update (fun x => decide (x.ver = v)) f n.vers }

/-- The state of a version as R195 codes it: 0 ABSENT, 1 PUBLISHING, 2 LIVE, 3 RECLAIMED or RETIRED. -/
def TName.stateOf (n : TName) (v : Nat) : Nat :=
  if v ≤ n.w then 3
  else match n.ver? v with
    | none => 0
    | some x => match x.st with
      | .publishing => 1
      | .live => 2
      | .reclaimed => 3

/-- The reclaim test (R190). -/
def Version.reclaims (x : Version) : Bool :=
  x.st == .live && (x.drop || x.readers == some 0) && x.resv == 0 && x.holds == 0 && x.flight == 0

def Version.reclaim (x : Version) : Version := if x.reclaims then { x with st := .reclaimed, data := [] } else x

/-- W rises while the next version has been reclaimed (R189). -/
def TName.advance : Nat → TName → TName
  | 0, n => n
  | f + 1, n =>
    match n.ver? (n.w + 1) with
    | some x => if x.st = .reclaimed then TName.advance f { n with w := n.w + 1, vers := n.vers.filter fun y => decide (y.ver ≠ n.w + 1) } else n
    | none => n

/-- The dispatcher of a launch as a publisher (R410): no team has this number. -/
def launchPublisher (l : BitVec 16) : ThrId := ⟨l, 2 ^ 24, 0⟩

/-- A publisher of another module, whose request waits in the name's list. -/
def remotePublisher : ThrId := ⟨0, 2 ^ 25, 0⟩

/-- A name with its generation: what a claim or a hold on one of its versions names, also after the name is freed and its slot reused. -/
def TName.ref (x : TName) : Nat := x.name + 2 ^ 32 * x.gen.toNat
def refName (r : Nat) : Nat := r % 2 ^ 32

/-- A version of a freed name stays while it is being published, loads hold it, or restartable teams have claimed it (R188). -/
def Version.stays (y : Version) : Bool := y.st == .publishing || y.flight != 0 || y.resv != 0

/-- A version that a claim or a hold names, of the name's present allocation or an earlier one. -/
def State.refVer? (s : State) (r v : Nat) : Option Version :=
  (s.tname? (refName r)).bind fun x =>
    if x.live && decide (x.ref = r) then x.ver? v else x.dead.find? fun y => decide (y.ver = v ∧ y.gen.toNat = r / 2 ^ 32)
def State.onRef (s : State) (r v : Nat) (f : Version → Version) : State :=
  s.setTname (refName r) fun x =>
    if x.live && decide (x.ref = r) then x.setVer v f
    else { x with dead := (update (fun y => decide (y.ver = v ∧ y.gen.toNat = r / 2 ^ 32)) f x.dead).filter Version.stays }

/-! ### Frames (R170, R194) -/

/-- Granules of frames of a die's versions that a predicate selects. -/
def Die.framed (d : Die) (names : TName → Bool) (p : Version → Bool) : Nat :=
  ((d.names.filter names).map fun x => (((x.vers ++ x.dead).filter fun v => v.st != .reclaimed && p v).map fun _ => x.gran).sum).sum

/-- Granules of live frames in a pool step of a slice. -/
def Die.poolUsed (d : Die) (region k : Nat) : Nat := d.framed (fun x => decide (nameRegion x.name = region)) fun v => v.step == some k

/-- The lowest pool step with room for a name's frame, 1,024 granules each (R170). -/
def State.poolStep (s : State) (n : Nat) : Option Nat :=
  let d := s.die (nameDie n)
  let g := (s.tname? n).elim 1 (·.gran)
  (List.range d.poolUse).find? fun k => decide (d.poolUsed (nameRegion n) k + g ≤ 1024)

/-- Where a name's next frame lies: a pool step, else a tile-frame page with room, else a free HBM4 frame that becomes one. DESIGN CHOICE
of the page, log 6. -/
inductive FramePlace where
  | step (k : Nat)
  | page (pa : Nat)
  | newPage (pa : Nat)
deriving DecidableEq, Repr

def State.framePlace (s : State) (n : Nat) : Option FramePlace :=
  match s.poolStep n with
  | some k => some (.step k)
  | none =>
    let d := s.die (nameDie n)
    let g := (s.tname? n).elim 1 (·.gran)
    match d.tilePages.find? fun p => decide (d.framed (fun _ => true) (fun v => v.page == some p) + g ≤ 1024) with
    | some p => some (.page p)
    | none => (d.freeHbm.head?).map .newPage

/-- A publish accepted: a new entry in PUBLISHING with its frame and its reader count (R190). `none`: there is no frame for it (R194).
DEDUCED, log 26. -/
def State.acceptPublish (s : State) (n v : Nat) (owner : Option ThrId) (readers : Option Nat) : Option State :=
  (s.framePlace n).map fun f =>
    let y : Version := { ver := v, st := .publishing, owner := owner, readers := readers }
    let put (s : State) (y : Version) : State := s.setTname n fun x => { x with vers := x.vers ++ [y] }
    match f with
    | .step k => put s { y with step := some k }
    | .page p => put s { y with page := some p }
    | .newPage p =>
      let s := s.setDie (nameDie n) fun d => { d with freeHbm := setDel d.freeHbm p, tilePages := d.tilePages ++ [p] }
      put (s.setFix p true) { y with page := some p }

/-- Whether a parked publish may be tried again: the window and a frame allow it. -/
def State.publishReady (s : State) (x : TName) (w : VWait) : Bool :=
  w.kind == .publish && decide (w.ver ≤ x.w + 16) && (s.framePlace x.name).isSome

/-- Parked publishes of a die's names that are admitted now are tried again, in order of their registration (R191, R194). -/
def State.admitPublishes (s : State) (die : Nat) : State :=
  (s.die die).names.foldl (fun s x =>
    let go := x.waits.filter (s.publishReady x)
    let s := s.setTname x.name fun y => { y with waits := y.waits.filter fun w => !go.contains w || (match w.who with
      | .remote _ => true
      | _ => false) }
    go.foldl (fun s w => match w.who with
      | .thread t => s.post (.versionPublishRequest x.name w.ver t)
      | .finish l => s.post (.versionPublishRequest x.name w.ver (launchPublisher l))
      | .remote _ => s.post (.versionPublishRequest x.name w.ver remotePublisher)
      | _ => s) s) s

/-- Every version tested for reclamation; publishes that window and frames now allow are tried again (R191). -/
def State.reclaimTest (s : State) (n : Nat) : State :=
  match s.tname? n with
  | none => s
  | some x => (s.setTname n fun _ => TName.advance 17 { x with vers := x.vers.map Version.reclaim }).admitPublishes (nameDie n)

/-- Where notices for a thread go: its core, or the Zenith core that holds its team's image (R125). -/
def State.endpointFor (s : State) (t : ThrId) : BitVec 32 :=
  match s.coreOf? t.launch t.team with
  | some c => endpointOf s c.id
  | none => BitVec.ofNat 32 (s.modid.toNat * 2 ^ 16 + t.launch.toNat / 256 % 8 * 2 ^ 13 + 1100)

/-- The context of a thread's team, and its save slot (R125). -/
def State.ctxSlot (s : State) (t : ThrId) : BitVec 6 × BitVec 16 :=
  match s.coreOf? t.launch t.team with
  | some c => (c.ctx, 0)
  | none => match (s.launch? t.launch).bind fun l => l.saved.find? fun v => decide (v.team = t.team) with
    | some v => (v.image.ctx, BitVec.ofNat 16 v.slot)
    | none => (0, 0)

/-- A VARRIVE notice (R90); status RETIRED when a consuming waiter finds no unit (R193). -/
def varrive (s : State) (t : ThrId) (n v : Nat) (status : BitVec 4) : Packet :=
  { kind := kVarrive, vn := 2, status := status, thr := BitVec.ofNat 3 t.thr, dst := s.endpointFor t, len := 1
    ctx := (s.ctxSlot t).1, seq := (s.ctxSlot t).2
    payload := [BitVec.ofNat 64 (n + t.thr * 2 ^ 32 + v * 2 ^ 48), s.modid.setWidth 64] }

/-- Whether a team runs in restartable mode (R128). -/
def State.restartable (s : State) (l : BitVec 16) : Bool := (s.launch? l).elim false (·.lrec.restart)

/-- A reader unit claimed: consumed, or reserved by a restartable team (R190). -/
def Version.claim (x : Version) (restart : Bool) : Version :=
  match x.readers with
  | none => x
  | some r => { x with readers := some (r - 1), resv := if restart then x.resv + 1 else x.resv }

/-- The fields of a tile request (DESIGN CHOICE, log 27): in MODE the operation, and whether the team is restartable, the home has served
its wait, and it does not wait; in ADDR the name, version and generation; in SIZE which operand of the instruction it is. -/
def tileOpOf (p : Packet) : Nat := p.mode.toNat % 32
def tileRestart (p : Packet) : Bool := p.mode.getLsbD 5
def tileFetch (p : Packet) : Bool := p.mode.getLsbD 6
def tileFf (p : Packet) : Bool := p.mode.getLsbD 7
def tileNameOf (p : Packet) : Nat := fieldOf p.addr 31 0
def tileVerOf (p : Packet) : Nat := fieldOf p.addr 47 32
def tileGenOf (p : Packet) : BitVec 6 := p.addr.extractLsb' 48 6

/-- A VARRIVE notice to a waiter of another module (R90); it names the operation it serves. -/
def varriveTo (s : State) (p : Packet) (n v : Nat) (status : BitVec 4) : Packet :=
  { kind := kVarrive, vn := 2, status := status, mode := p.mode, size := p.size, addr := p.addr, tag := p.tag, thr := p.thr, dst := p.src, ctx := p.ctx, seq := p.seq, len := 1
    payload := [BitVec.ofNat 64 (n + p.thr.toNat * 2 ^ 32 + v * 2 ^ 48), s.modid.setWidth 64] }

/-- The answer to a tile request: its status, a value, a trap's cause in AUX, data. -/
def tileReply (p : Packet) (kind : BitVec 6) (status : BitVec 4) (v : W64) (cause : BitVec 8 := 0) (data : List W64 := []) : Packet :=
  { replyTo p kind status 0 cause.toNat with size := p.size, addr := v, payload := data, len := BitVec.ofNat 8 ((data.length + 1) / 2) }

/-- A granule as bytes of 64-bit words. -/
def granuleWords (v : V512) : List W64 := (List.range 8).map fun k => v.extractLsb' (64 * k) 64
def wordsGranule (ws : List W64) : V512 := BitVec.ofNat 512 ((List.range 8).foldr (fun k acc => (ws.getD k 0).toNat + 2 ^ 64 * acc) 0)

/-- A load's data sent to another module, in pieces of 2,048 bytes; AUX counts those that follow. DESIGN CHOICE, log 27. -/
def State.tileData (s : State) (p : Packet) (ws : List W64) : State :=
  let k := (ws.length - 1) / 256
  (List.range (k + 1)).foldl (fun s i => s.send (tileReply p kData 0 0 (BitVec.ofNat 8 (k - i)) ((ws.drop (256 * i)).take 256))) s

/-- One waiter of a version that has become LIVE (R193): its hold and reader unit are taken now, a thread's hold noted with it (R129). -/
def serveWaiter (n v : Nat) (s : State) (w : VWait) : State :=
  let upd (f : Version → Version) : State := s.setTname n fun x => x.setVer v f
  let ref := (s.tname? n).elim n TName.ref
  let tell (s : State) (st : BitVec 4) : State := match w.who with
    | .thread t =>
      let s := if st = 0 then s.onThread t fun y => { y with held := y.held ++ [(ref, v, w.kind)] } else s
      s.send (varrive s t n v st)
    | .gate l => s.post (.gateSatisfied l)
    | .remote p => s.send (varriveTo s p n v st)
    | .finish _ => s
  match w.kind with
  | .load consume =>
    let x := ((s.tname? n).bind (·.ver? v)).getD { ver := v, st := .live }
    if consume && x.readers == some 0 then tell s stRetired
    else
      let restart := match w.who with
        | .thread t => s.restartable t.launch
        | .remote p => tileRestart p
        | _ => false
      tell (upd fun x => { (if consume then x.claim restart else x) with flight := x.flight + 1 }) 0
  | .hold => tell (upd fun x => { x with holds := x.holds + 1 }) 0
  | _ => tell s 0

/-- A version becomes LIVE with its data (R190): its waiters are served in registration order. -/
def State.makeLive (s : State) (n v : Nat) (readers : Option Nat) (data : List V512) : State :=
  match s.tname? n with
  | none => s
  | some x =>
    let mine (w : VWait) : Bool := decide (w.ver = v) && w.kind != .publish
    let x1 : TName := { x.setVer v fun y => { y with st := .live, readers := readers, data := data, owner := none } with
                        waits := x.waits.filter fun w => !mine w }
    let x2 := if x.live then x1 else x1.setVer v fun y => { y with drop := true }
    let s1 := s.setTname n fun _ => x2
    ((x.waits.filter mine).foldl (serveWaiter n v) s1).reclaimTest n

/-- The wait list of a name's region holds 512 entries (R193). -/
def State.waitRoom (s : State) (n : Nat) : Bool :=
  decide ((((s.die (nameDie n)).names.filter fun x => decide (nameRegion x.name = nameRegion n)).map (·.waits.length)).sum < 512)

/-- A wait registered at the home, or tried again later. DEDUCED, log 26. -/
def State.registerWait (s : State) (n v : Nat) (t : ThrId) (kind : VWaitKind) (tries : Nat) : State :=
  if s.waitRoom n then s.setTname n fun x => { x with waits := x.waits ++ [{ ver := v, who := .thread t, kind := kind }] }
  else s.after (retryAfter tries) (.versionWaitRegister n v t)

/-- A publish whose entry is still PUBLISHING, of an accepted publisher: the reference of its version. -/
def State.publishAccepted (s : State) (n v : Nat) (t : ThrId) : Option Nat :=
  (s.tname? n).bind fun x =>
    let mine (y : Version) : Bool := decide (y.ver = v) && y.st == .publishing && y.owner == some t
    if x.live && x.vers.any mine then some x.ref else (x.dead.find? mine).map fun y => n + 2 ^ 32 * y.gen.toNat

/-- The publish of an accepted publisher is complete: LIVE, or at once reclaimed where the name has been freed meanwhile (R207). -/
def State.publishEnd (s : State) (r v : Nat) (readers : Option Nat) (data : List V512) : State :=
  if (s.tname? (refName r)).elim false fun x => x.live && decide (x.ref = r) then s.makeLive (refName r) v readers data
  else (s.onRef r v fun y => { y with st := .live, owner := none }).admitPublishes (nameDie r)

/-- An accepted publisher does not complete: its entries become ABSENT and their frames are freed (R190). -/
def State.abandonPublishes (s : State) (p : ThrId → Bool) : State :=
  let keep (y : Version) : Bool := !(y.st == .publishing && y.owner.elim false p)
  let hit (d : Die) : Bool := d.names.any fun x => (x.vers ++ x.dead).any fun y => !keep y
  (List.range 8).foldl (fun s d =>
    if hit (s.die d) then
      (s.setDie d fun d => { d with names := d.names.map fun x => { x with vers := x.vers.filter keep, dead := x.dead.filter keep } }).admitPublishes d
    else s) s

/-- A name freed (R188): GEN advances, waits and `tref` holds end (R119), versions are reclaimed as the holds of loads and the claims of
restartable teams end. -/
def State.freeName (s : State) (n : Nat) : State :=
  match s.tname? n with
  | none => s
  | some x =>
    let held := (x.vers.map fun v => { v with drop := true, holds := 0, gen := x.gen }).filter Version.stays
    let s1 := s.setTname n fun x => { x with gen := x.gen + 1, live := false, waits := [], dead := x.dead ++ held, vers := [] }
    (x.waits.foldl (fun s w => match w.who with
      | .thread t => s.resume t fun y => { y with pendTrap := some (causeStaleHandle, 0) }
      | .gate l => s.post (.launchTermination l 2 0x09 none)
      | .finish l => s.post (.versionPublishRequest n w.ver (launchPublisher l))
      | .remote p => s.send (tileReply p kError 0 0 causeStaleHandle)) s1).admitPublishes (nameDie n)

/-! ## Handles (R186, R187, R383) -/

def Cap.tileName (c : Cap) : Nat := bitsN c.bits.toNat 31 0
def Cap.tileVersion (c : Cap) : Nat := bitsN c.bits.toNat 47 32
def Cap.tileRows (c : Cap) : Nat := bitsN c.bits.toNat 53 48 + 1
def Cap.tileCols (c : Cap) : Nat := bitsN c.bits.toNat 59 54 + 1
def Cap.tileFmt (c : Cap) : BitVec 3 := c.bits.extractLsb' 60 3
def Cap.tenured (c : Cap) : Bool := c.bits.getLsbD 63
def Cap.tileModule (c : Cap) : BitVec 16 := c.bits.extractLsb' 64 16
def Cap.tileRow (c : Cap) : Nat := bitsN c.bits.toNat 91 80
def Cap.tileCol (c : Cap) : Nat := bitsN c.bits.toNat 103 92
def Cap.tilePerm (c : Cap) (k : Nat) : Bool := c.bits.getLsbD (104 + k)
def Cap.tileGen (c : Cap) : BitVec 6 := c.bits.extractLsb' 112 6

/-- Granules of a shape (R186). -/
def granulesOf (rows cols : Nat) (fmt : BitVec 3) : Nat := (rows * cols * fmtBits fmt + 511) / 512
def Cap.granules (c : Cap) : Nat := granulesOf (Cap.tileRows c) (Cap.tileCols c) (Cap.tileFmt c)

/-- Permissions of a handle by bit (R186). -/
def tpRead : Nat := 0
def tpPublish : Nat := 1
def tpConsume : Nat := 2
def tpTenR : Nat := 3
def tpTenW : Nat := 4
def tpSplit : Nat := 5
def tpHalo : Nat := 6
def tpRemote : Nat := 7

/-- What a tile operation names. -/
structure TRef where
  c    : Cap
  /-- The name, and the adjusted version. -/
  name : Nat
  ver  : Nat
  /-- The tensor region's adjusted rectangle. -/
  rect : Rect
  /-- The home is on this module. -/
  own  : Bool

/-- The operand of a tile operation with its adjustment (R383). -/
def tileRef (s : State) (c : Cap) (b : W64) : TRef where
  c := c
  name := Cap.tileName c
  ver := Cap.tileVersion c + b.toNat
  rect := ⟨Cap.tileRow c + fieldOf b 11 0, Cap.tileCol c + fieldOf b 23 12, Cap.tileRows c, Cap.tileCols c⟩
  own := ownModule s (Cap.tileModule c)

/-- Which kinds of handle an operation takes. -/
inductive TKind where
  | versioned | tenured | either
deriving DecidableEq, Repr

/-- Whether a handle's KIND suits the operation. -/
def TKind.fits (k : TKind) (c : Cap) : Bool :=
  match k with
  | .versioned => !Cap.tenured c
  | .tenured => Cap.tenured c
  | .either => true

/-- Check 4 of R187 on an adjusted operand. -/
def TRef.inBounds (s : State) (r : TRef) (b : W64) : Bool :=
  if Cap.tenured r.c then
    decide (r.name < 1024) && decide (b.toNat < 2 ^ 24) && match s.tregion? r.name with
      | some t => decide (r.rect.row + r.rect.rows ≤ t.rows ∧ r.rect.col + r.rect.cols ≤ t.cols)
          && !(t.fmt == 7 && (r.rect.col % 2 == 1 || r.rect.cols % 2 == 1))
      | none => true
  else decide (r.name / 2 ^ 12 % 2 ^ 11 = 0)

/-- Check 5 of R187. -/
def TRef.live (s : State) (r : TRef) : Bool :=
  if Cap.tenured r.c then (s.tregion? r.name).elim false fun t => t.live && t.gen == Cap.tileGen r.c
  else (s.tname? r.name).elim false fun n => n.live && n.gen == Cap.tileGen r.c

/-- The first check of R187 that fails, as a cause; `need` are the permissions of which one suffices, none asked when empty, `also` those that
are needed beside it. -/
def TRef.fault (s : State) (r : TRef) (b : W64) (kind : TKind) (need : List Nat) (also : List Nat := []) : Option (BitVec 8) :=
  if !r.c.tag then some causeCapTag
  else if r.c.kind ≠ 2 ∨ !kind.fits r.c then some causeCapType
  else if (!need.isEmpty && !need.any (Cap.tilePerm r.c)) || !also.all (Cap.tilePerm r.c) || (!r.own && (Cap.tenured r.c || !Cap.tilePerm r.c tpRemote)) then some causeCapPerm
  else if !r.inBounds s b then some causeCapBounds
  else none

/-- The checks of a handle operand (R187, R383), with the scope rule of R192 for a home on another module. DEDUCED, log 26. -/
def M.tileOp (m : M) (a b : F6) (kind : TKind) (need : List Nat) (fabricScope : Option Scope := none) (also : List Nat := []) :
    Except Stop TRef := do
  let r := tileRef m.st (m.src a) (m.int b)
  match r.fault m.st (m.int b) kind need also with
  | some c => .error (.trap c 0 [])
  | none => pure ()
  trapIf (!r.own && fabricScope.elim false (fun sc => !fabric sc)) causeCapPerm 0
  trapIf (!Cap.tenured r.c && decide (65535 < r.ver)) causeVersionWindow (BitVec.ofNat 64 (r.ver % 2 ^ 16))
  trapIf (r.own && !r.live m.st) causeStaleHandle 0
  pure r

/-- The module of a home as this module's tables name it: 0xFFFF for its own. -/
def homeModule (s : State) (mdl : BitVec 16) : BitVec 16 := if ownModule s mdl then 0xFFFF else mdl

/-- How a tile request is sent: the reader count or a unit count, its scope, whether it does not wait, the bound of a wait in units of 1,024
cycles, its operand's place, and its data. -/
structure TileAsk where
  aux   : Nat := 0
  sc    : Scope := 0
  ff    : Bool := false
  bound : Nat := 0
  idx   : Nat := 0
  data  : List W64 := []

/-- The request for operation `op` at another module's home (R74, R187). DESIGN CHOICE, log 27. -/
def M.tilePacket (m : M) (r : TRef) (op : Nat) (x : TileAsk) : Packet :=
  { kind := kTile, vn := 0, mode := BitVec.ofNat 8 (op + (if m.restart then 32 else 0) + if x.ff then 128 else 0), aux := BitVec.ofNat 16 x.aux
    scope := x.sc, ctx := m.core.ctx, priv := m.thr.sys, size := BitVec.ofNat 3 x.idx
    addr := BitVec.ofNat 64 (r.name + r.ver % 2 ^ 16 * 2 ^ 32 + (Cap.tileGen r.c).toNat * 2 ^ 48), tag := BitVec.ofNat 10 (tileTag + m.tid.val)
    thr := BitVec.ofNat 3 m.tid.val, dst := Cap.tileModule r.c ++ BitVec.ofNat 16 (nameDie r.name * 2 ^ 13 + 1093), src := endpointOf m.st m.core.id
    len := BitVec.ofNat 8 ((x.data.length + 1) / 2), payload := x.data }

/-- A request whose data is longer than a packet holds goes in pieces of 2,048 bytes (R81), the operation itself last. DESIGN CHOICE, log 27. -/
def State.tileSend (s : State) (die : Nat) (q : Packet) : State :=
  let k := (q.payload.length - 1) / 256
  let s := (List.range k).foldl (fun s i => s.route die { q with mode := 24, len := 128, payload := (q.payload.drop (256 * i)).take 256 }) s
  let ws := q.payload.drop (256 * k)
  s.route die { q with payload := ws, len := BitVec.ofNat 8 ((ws.length + 1) / 2) }

/-- An operation at another module's home: a request, and the thread parks until the answer. -/
def M.tileRemote (m : M) (r : TRef) (op : Nat) (x : TileAsk := {}) : Except Stop (M × W64 × List W64) :=
  match m.thr.tile.find? fun y => decide (y.1 = x.idx) with
  | some (_, v, ws) => .ok (m, v, ws)
  | none =>
    let p := m.tilePacket r op x
    let s := m.st.tileSend m.core.die p
    let til : Option Nat := if x.bound = 0 then none else some (s.now + 1024 * x.bound)
    let s := if x.bound = 0 then s else s.after (1024 * x.bound) (.versionWaitBoundExpiry m.who)
    .error (.park { m with st := s } (.remoteTile p .sent 0 til) {})

/-! ## Moving a tile's data (R385) -/

/-- The accumulator as 1,024 words. -/
def Core.accWord (c : Core) (k : BitVec 2) (i : Nat) : W32 := (c.z.get k.toFin).getD i 0
def Core.accGranules (c : Core) (k : BitVec 2) : List V512 :=
  (List.range 64).map fun g => BitVec.ofNat 512 ((List.range 16).foldr (fun j acc => (c.accWord k (16 * g + j)).toNat + 2 ^ 32 * acc) 0)
def accOf (data : List V512) : List W32 :=
  data.flatMap fun v => (List.range 16).map fun j => v.extractLsb' (32 * j) 32

/-- The place of a move: T2's checks (R385). -/
def M.tilePlace (m : M) (o : XOp) (r : TRef) (write : Bool) : Except Stop Unit := do
  let g := Cap.granules r.c
  if o.x.t2 = 0 then trapIf (decide ((o.x.x.extractLsb' 1 3).toNat + 1 ≠ g)) causeCapBounds 0
  else if o.x.t2 = 1 then
    let c := m.src o.x.c
    checkCap o.x.c c [0, 1] [if write then .st else .ld, .eng]
    checkBounds c c.cursor.toNat (64 * g)
    checkAligned c.cursor.toNat 64
  else trapIf (!(Cap.tileRows r.c == 32 && Cap.tileCols r.c == 32 && fmtBits (Cap.tileFmt r.c) == 32 )) causeCapBounds 0

/-- A granule of memory as the copy engine reads it. -/
def M.tileLoad (m : M) (c : Cap) (va : Nat) : Except Stop (M × V512) := do
  let (m, v, _, _) ← m.engRead c va 64
  pure (m, BitVec.ofNat 512 v)

def M.tileLoads (m : M) (c : Cap) (va : Nat) : Nat → Except Stop (M × List V512)
  | 0 => .ok (m, [])
  | k + 1 => do
    let (m, v) ← m.tileLoad c va
    let (m, vs) ← m.tileLoads c (va + 64) k
    pure (m, v :: vs)

/-- A granule of memory written as the copy engine does (R191): tags 0, full/empty bits unchanged; the register window takes none (R152). -/
def M.tileStore (m : M) (c : Cap) (va : Nat) (v : V512) : Except Stop M := do
  if c.kind = 1 then
    pure ((List.range 64).foldl (fun m k => if inWindow (va + k) then m else m.putLocalByte (va + k) (BitVec.ofNat 8 (v.toNat / 2 ^ (8 * k)))) m)
  else
    let a : W64 := BitVec.ofNat 64 va
    let (m, x) ← m.page va { w := true }
    trapIf (!(paKind m.st x.pa).isMem) causePagePerm a
    trapIf (!(m.uncovered ((List.range 64).map (va + ·)) true).isEmpty) causeTenure 0
    let p := placeNow m.st x.pa
    let recs := if (l2Find m.st p).isSome then [] else portRefusal m.st p m.master 2
    if recs.isEmpty then pure () else .error (.trap causePagePerm a recs)
    let m ← m.engineWrite va 64 v.toNat x
    m.logWrite va 64 x.logged

def M.tileStores (m : M) (c : Cap) (va : Nat) : List V512 → Except Stop M
  | [] => .ok m
  | v :: vs => do
    let m ← m.tileStore c va v
    m.tileStores c (va + 64) vs

/-- The data of a `tvst`'s place. -/
def M.placeRead (m : M) (o : XOp) (g : Nat) : Except Stop (M × List V512) := do
  if o.x.t2 = 0 then pure (m, (List.range g).map fun k => m.vsrc (o.d + BitVec.ofNat 6 k) 4)
  else if o.x.t2 = 1 then do
    stallIf (decide (2 ≤ m.core.engC.length))
    let c := m.src o.x.c
    m.tileLoads c c.cursor.toNat g
  else pure (m, m.core.accGranules (o.d.setWidth 2))

/-- The place of a load written. -/
def M.placeWrite (m : M) (o : XOp) (data : List V512) : Except Stop M :=
  if o.x.t2 = 0 then .ok (data.zipIdx.foldl (fun m (v, k) => m.vwrite (o.d.toNat + k) v) m)
  else if o.x.t2 = 1 then
    let c := m.src o.x.c
    m.tileStores c c.cursor.toNat data
  else .ok { m with core := { m.core with z := m.core.z.set (o.d.setWidth 2 : BitVec 2).toFin (accOf data) } }

/-! ## Versioned tiles (R384–R387) -/

/-- The free slot that `tnew` takes: the region with the most free slots, the lowest first (R188). DESIGN CHOICE, log 6. -/
def freshName (s : State) (die : Nat) : Option Nat :=
  let live := (s.die die).names.filter (·.live)
  let cnt (r : Nat) : Nat := (live.filter fun x => decide (nameRegion x.name = r)).length
  let best := (List.range 64).foldl (fun b r => if cnt r < cnt b then r else b) 0
  let base := die * 2 ^ 29 + best * 2 ^ 23
  if cnt best < 4096 then ((List.range 4096).find? fun k => !live.any fun x => decide (x.name = base + k)).map (base + ·) else none

/-- A tile handle (R186). -/
def mkHandle (tenured : Bool) (name : Nat) (gen : BitVec 6) (mdl : BitVec 16) (shape : Nat) (perm : Nat) : Cap :=
  ⟨BitVec.ofNat 128 (name + shape % 2 ^ 15 * 2 ^ 48 + (if tenured then 2 ^ 63 else 0) + mdl.toNat * 2 ^ 64 + perm * 2 ^ 104 + gen.toNat * 2 ^ 112
     + 2 * 2 ^ 118), true⟩

def opTnew (o : XOp) : Act := fun m =>
  match freshName m.st m.core.die with
  | none => .error .stall
  | some n =>
    let shape := fieldOf (m.int o.a) 62 48
    let old := m.st.tname? n
    let gen : BitVec 6 := old.elim 0 (·.gen)
    let rows := shape % 64 + 1
    let cols := shape / 64 % 64 + 1
    let fmt : BitVec 3 := BitVec.ofNat 3 (shape / 2 ^ 12)
    let x : TName := { name := n, gen := gen, ctx := m.core.ctx, gran := granulesOf rows cols fmt, rows := rows, cols := cols, fmt := fmt,
                       dead := old.elim [] (·.dead) }
    let s := m.st.setDie (nameDie n) fun d => { d with names := x :: d.names.filter fun y => decide (y.name ≠ n) }
    .ok ({ m with st := s }.wr o.d (mkHandle false n gen m.st.modid shape 0x7F))

/-- A tensor region ends (R197): its bytes are plain memory, where queued one-shot accesses execute again. -/
def State.freeRegion (s : State) (n : Nat) : State :=
  let shots := (s.tregion? n).elim [] fun r => r.recs.filter fun x => x.oneShot
  shots.foldl (fun s x => s.resume ⟨x.launch, x.team, x.thr⟩)
    (s.setTregion n fun r => { r with gen := r.gen + 1, live := false, halos := [], splits := [], recs := [] })

def opTfree (o : XOp) : Act := fun m => do
  let c := m.src o.a
  if Cap.tenured c then
    let r ← m.tileOp o.a 0 .tenured [tpTenW] none [tpSplit]
    let busy := (m.st.tregion? r.name).elim false fun t => t.recs.any fun x => !x.oneShot
    trapIf busy causeTenure 4
    pure (m.world (·.freeRegion r.name))
  else
    let r ← m.tileOp o.a 0 .versioned [tpPublish]
    if r.own then pure (m.world (·.freeName r.name))
    else do
      let (m, _, _) ← m.tileRemote r 1
      pure m

/-- The home has served the wait of the executing instruction for a version: the reference of its name (R193). DEDUCED, log 10. -/
def M.served (m : M) (n v : Nat) : Option Nat := (m.thr.held.find? fun (a, b, _) => refName a == n && b == v).map (·.1)

/-- The version's words for a load that the home has served. -/
def M.versionData (m : M) (ref v : Nat) : List V512 := (m.st.refVer? ref v).elim [] (·.data)

/-- A hold of a load in flight ends. -/
def State.endFlight (s : State) (ref v : Nat) : State :=
  (s.onRef ref v fun y => { y with flight := y.flight - 1 }).reclaimTest (refName ref)

/-- An input version recorded by a restartable team (R128): units claimed. -/
def M.noteInput (m : M) (mdl : BitVec 16) (ref v : Nat) (units : Nat) : M :=
  if m.restart then { m with core := { m.core with rin := m.core.rin ++ [(homeModule m.st mdl, ref, v, units)] } } else m

/-- An output version recorded by a restartable team (R128). -/
def M.noteOutput (m : M) (mdl : BitVec 16) (n v : Nat) : M :=
  if m.restart then { m with core := { m.core with rout := m.core.rout ++ [(homeModule m.st mdl, n, v)] } } else m

/-- A load's or a wait's registration with the thread parked (R193). -/
def M.waitVersion (m : M) (r : TRef) (kind : VWaitKind) (bound : Nat) : Stop :=
  let til : Option Nat := if bound = 0 then none else some (m.st.now + 1024 * bound)
  let s := m.st.registerWait r.name r.ver m.who kind 0
  let s := match til with
    | some _ => s.after (1024 * bound) (.versionWaitBoundExpiry m.who)
    | none => s
  .park { m with st := s } (.version r.name r.ver kind 0 til) {}

/-- The holds of loads that were served are given up. -/
def State.dropHeld (s : State) (h : List (Nat × Nat × VWaitKind)) : State :=
  h.foldl (fun s (n, v, k) => match k with
    | .load _ => s.endFlight n v
    | _ => s) s

/-- An instruction whose wait was served and that traps gives up its holds. -/
def withHolds (body : Act) : Act := fun m =>
  match body m with
  | .error (.trap c v recs) =>
    if m.thr.held = [] then .error (.trap c v recs)
    else
      let s := recs.foldl (fun s r => s.fault r.die r.kind r.code r.ctx r.addr r.aux32 r.aux64) m.st
      .error (.kept { m with st := s.dropHeld m.thr.held } c v)
  | r => r

/-- A tile load (R385): `consume` takes a reader unit. -/
def opTvldWith (consume : Bool) (o : XOp) : Act := withHolds fun m => do
  stallIf m.acqPending
  trapIf (m.restart && decide (64 ≤ m.core.rin.length)) causePrivilege 2
  let need := if consume then tpConsume else tpRead
  let units := if consume then 1 else 0
  let done (m : M) (data : List V512) : Except Stop M := do
    let m ← m.acquire o.x.sc
    let m ← m.placeWrite o data
    pure (if o.x.ff then m.wrInt o.x.e 1 else m)
  let r := tileRef m.st (m.src o.a) (m.int o.x.b)
  match (if r.own then m.served r.name r.ver else none) with
  | some ref =>
    let data := m.versionData ref r.ver
    let m ← done (m.noteInput 0xFFFF ref r.ver units) data
    pure { m with st := m.st.endFlight ref r.ver }
  | none =>
    let r ← m.tileOp o.a o.x.b .versioned [need] (some o.x.sc)
    m.tilePlace o r true
    if !r.own then
      let (m, v, ws) ← m.tileRemote r (if consume then 4 else 3) { sc := o.x.sc, ff := o.x.ff, bound := o.x.imm.toNat }
      if o.x.ff && v == 0 then pure (m.wrInt o.x.e 0)
      else
        let m := m.noteInput (Cap.tileModule r.c) (r.name + 2 ^ 32 * (Cap.tileGen r.c).toNat) r.ver units
        done m ((List.range (Cap.granules r.c)).map fun g => wordsGranule (ws.drop (8 * g)))
    else
      let x := (m.st.tname? r.name).getD { name := r.name }
      match x.stateOf r.ver with
      | 2 =>
        let y := (x.ver? r.ver).getD { ver := r.ver, st := .live }
        trapIf (consume && y.readers == some 0) causeVersionRetired (BitVec.ofNat 64 r.ver)
        let s := if consume then m.st.setTname r.name fun x => x.setVer r.ver fun y => y.claim m.restart else m.st
        let m := ({ m with st := s } : M).noteInput 0xFFFF x.ref r.ver units
        let m ← done m y.data
        pure { m with st := m.st.reclaimTest r.name }
      | 3 => .error (.trap causeVersionRetired (BitVec.ofNat 64 r.ver) [])
      | _ => if o.x.ff then pure (m.wrInt o.x.e 0) else .error (m.waitVersion r (.load consume) o.x.imm.toNat)

def opTvld (o : XOp) : Act := opTvldWith false o
def opTvldc (o : XOp) : Act := opTvldWith true o

def opTvw (o : XOp) : Act := fun m => do
  stallIf m.acqPending
  let done (m : M) : Except Stop M := do
    let m ← m.acquire o.x.sc
    pure (if o.x.ff then m.wrInt o.x.e 1 else m)
  let r := tileRef m.st (m.src o.a) (m.int o.x.b)
  if r.own && (m.served r.name r.ver).isSome then done m
  else
    let r ← m.tileOp o.a o.x.b .versioned [tpRead] (some o.x.sc)
    if !r.own then
      let (m, v, _) ← m.tileRemote r 5 { sc := o.x.sc, ff := o.x.ff, bound := o.x.imm.toNat }
      if o.x.ff && v == 0 then pure (m.wrInt o.x.e 0) else done m
    else match ((m.st.tname? r.name).getD { name := r.name }).stateOf r.ver with
      | 2 => done m
      | 3 => .error (.trap causeVersionRetired (BitVec.ofNat 64 r.ver) [])
      | _ => if o.x.ff then pure (m.wrInt o.x.e 0) else .error (m.waitVersion r .wait o.x.imm.toNat)

/-- A publish that waits at the home, for the window or for a frame (R191, R194): registered, or tried again while the list is full (R193). -/
def M.waitPublish (m : M) (r : TRef) (readers : Option Nat) : Stop :=
  let s :=
    if m.st.waitRoom r.name then
      m.st.setTname r.name fun x => { x with waits := x.waits ++ [{ ver := r.ver, who := .thread m.who, kind := .publish }] }
    else m.st.after (retryAfter 0) (.versionPublishRequest r.name r.ver m.who)
  .park { m with st := s } (.publish r.name r.ver readers 0) {}

/-- A publisher whose publish the home has accepted while it was parked, and that traps or is contained, gives its entry up (R190). -/
def withPublish (body : Act) : Act := fun m =>
  let mine (t : ThrId) : Bool := t == m.who
  let out := m.st.abandonPublishes mine
  match body m with
  | .error (.trap c v recs) =>
    if m.st = out then .error (.trap c v recs)
    else .error (.kept { m with st := recs.foldl (fun s r => s.fault r.die r.kind r.code r.ctx r.addr r.aux32 r.aux64) out } c v)
  | .error (.poison s) => .error (.poison (s.abandonPublishes mine))
  | r => r

/-- The reader count that a publish names: 0 is persistent. -/
def readersOf (n : Nat) : Option Nat := if n = 0 then none else some n

/-- `tvst` (R191, R192): acceptance, the release, the data, LIVE. DEDUCED, log 26. -/
def opTvst (o : XOp) : Act := withPublish fun m => do
  stallIf m.acqPending
  let readers := readersOf (o.x.imm.toNat % 2 ^ 16)
  let write (m : M) (r : TRef) (ref : Nat) : Except Stop M := do
    let m ← m.release o.x.sc
    let (m, data) ← m.placeRead o (Cap.granules r.c)
    pure (({ m with st := m.st.publishEnd ref r.ver readers data } : M).noteOutput 0xFFFF r.name r.ver)
  let r := tileRef m.st (m.src o.a) (m.int o.x.b)
  match (if r.own then m.st.publishAccepted r.name r.ver m.who else none) with
  | some ref => write m r ref
  | none =>
    trapIf (m.restart && decide (64 ≤ m.core.rout.length)) causePrivilege 2
    let r ← m.tileOp o.a o.x.b .versioned [tpPublish] (some o.x.sc)
    m.tilePlace o r false
    if m.restart && m.core.rprev.contains (homeModule m.st (Cap.tileModule r.c), r.name, r.ver) then
      pure (m.noteOutput (Cap.tileModule r.c) r.name r.ver)
    else if !r.own then
      let m ← m.release o.x.sc
      let (m, data) ← m.placeRead o (Cap.granules r.c)
      let (m, _, _) ← m.tileRemote r 2 { aux := o.x.imm.toNat % 2 ^ 16, sc := o.x.sc, ff := o.x.ff, data := data.flatMap granuleWords }
      pure (m.noteOutput (Cap.tileModule r.c) r.name r.ver)
    else
      let v : W64 := BitVec.ofNat 64 r.ver
      let x := (m.st.tname? r.name).getD { name := r.name }
      trapIf (decide (r.ver ≤ x.w) || x.stateOf r.ver != 0) causeVersionExists v
      trapIf (decide (x.w + 16 < r.ver) && o.x.ff) causeVersionWindow v
      if x.w + 16 < r.ver then .error (m.waitPublish r readers)
      else match m.st.acceptPublish r.name r.ver none readers with
        | none => .error (m.waitPublish r readers)
        | some _ => do
          let m ← m.release o.x.sc
          let (m, data) ← m.placeRead o (Cap.granules r.c)
          match m.st.acceptPublish r.name r.ver none readers with
          | some s => pure (({ m with st := s.publishEnd x.ref r.ver readers data } : M).noteOutput 0xFFFF r.name r.ver)
          | none => .error .stall

def opTref (a b : F6) : Act := fun m => do
  let r := tileRef m.st (m.src a) (m.int b)
  if r.own && (m.served r.name r.ver).isSome then pure m
  else
    let r ← m.tileOp a b .versioned [tpRead]
    if !r.own then
      let (m, _, _) ← m.tileRemote r 16
      pure m
    else match ((m.st.tname? r.name).getD { name := r.name }).stateOf r.ver with
      | 2 => pure { m with st := m.st.setTname r.name fun x => x.setVer r.ver fun y => { y with holds := y.holds + 1 } }
      | 3 => .error (.trap causeVersionRetired (BitVec.ofNat 64 r.ver) [])
      | _ => .error (m.waitVersion r .hold 0)

/-- The two effects of `tdrop` on a LIVE version (R190). -/
def Version.dropOne (y : Version) : Version := { y with holds := y.holds - 1 }
def Version.dropAll (y : Version) : Version := { y with drop := true }

/-- `tdrop` in its forms: an effect on a LIVE version, and the reclaim test. -/
def State.tdrop (s : State) (n v : Nat) (f : Version → Version) : State :=
  if ((s.tname? n).getD { name := n }).stateOf v = 2 then (s.setTname n fun x => x.setVer v f).reclaimTest n else s

def tdropWith (op : Nat) (need : Nat) (f : Version → Version) (a b : F6) : Act := fun m => do
  let r ← m.tileOp a b .versioned [need]
  if !r.own then
    let (m, _, _) ← m.tileRemote r op
    pure m
  else pure { m with st := m.st.tdrop r.name r.ver f }

def opTdrop (a b : F6) : Act := tdropWith 17 tpRead Version.dropOne a b
def opTdropAll (a b : F6) : Act := tdropWith 20 tpPublish Version.dropAll a b

/-- The version status word (R195). -/
def versionWord (x : TName) (v : Nat) : W64 :=
  let y := x.ver? v
  let live := (List.range 16).foldl (fun a i => a + if x.stateOf (x.w + 1 + i) = 2 then 2 ^ i else 0) 0
  let readers := (y.bind (·.readers)).getD 0
  let holds := Nat.min 255 (y.elim 0 fun y => y.holds + y.flight)
  let persist := y.elim false fun y => y.readers == none
  BitVec.ofNat 64 (live + x.stateOf v * 2 ^ 16 + (if persist then 2 ^ 18 else 0) + holds * 2 ^ 24 + readers * 2 ^ 32 + x.w * 2 ^ 48)

/-- The status word of a tenured rectangle (R387). -/
def tenureWord (m : M) (t : TRegion) (q : Rect) : W64 :=
  let held := t.recs.filter fun x => x.held && !x.oneShot && x.rect == q
  let teams := ((held.filter fun x => !x.write).map fun x => (x.launch, x.team)).eraseDups
  let mine := held.any fun x => x.launch == m.core.launch && decide (x.team = m.core.team)
  let queued := t.recs.any fun x => !x.held && !x.oneShot && x.rect == q && x.launch == m.core.launch && decide (x.team = m.core.team)
  let st := if held.any (·.write) then 2 else if !held.isEmpty then 1 else if t.splits.any fun p => p.1 == q then 3 else 0
  BitVec.ofNat 64 (st + (if mine then 8 else 0) + (if queued then 16 else 0) + teams.length * 2 ^ 16)

def opTinfo (d a b : F6) : Act := fun m => do
  let r ← m.tileOp a b .either []
  if !r.own then
    let (m, v, _) ← m.tileRemote r 18
    pure (m.wrInt d v)
  else if Cap.tenured r.c then
    pure (m.wrInt d (tenureWord m ((m.st.tregion? r.name).getD { num := r.name }) r.rect))
  else pure (m.wrInt d (versionWord ((m.st.tname? r.name).getD { name := r.name }) r.ver))

def opTchk (d a : F6) : Act := fun m => do
  let r := tileRef m.st (m.src a) 0
  match r.fault m.st 0 .either [] with
  | some c => pure (m.wrInt d (c.setWidth 64))
  | none =>
    if r.own then pure (m.wrInt d (if r.live m.st then 0 else causeStaleHandle.setWidth 64))
    else do
      let (m, v, _) ← m.tileRemote r 19
      pure (m.wrInt d v)

/-! ## Tensor regions and tenure (R197–R206, R388, R389) -/

/-- The free tensor-region number of a die. DESIGN CHOICE, log 6. -/
def freshRegion (s : State) (die : Nat) : Option Nat :=
  ((List.range 128).map (128 * die + ·)).find? fun n => !(s.tregion? n).elim false (·.live)

def opTdecl (o : XOp) : Act := fun m => do
  let v := (m.src o.a).bits.toNat
  let c := m.src o.x.c
  let stride := bitsN v 119 96
  let cols := bitsN v 95 84 + 1
  let rows := bitsN v 83 72 + 1
  let fmt : BitVec 3 := BitVec.ofNat 3 (bitsN v 71 69)
  let base := v % 2 ^ 64
  let width := (cols * fmtBits fmt + 7) / 8
  checkCap o.x.c c [0] [.ld, .st]
  let bad := bitsN v 127 120 ≠ 0 ∨ bitsN v 68 64 ≠ 0 ∨ stride % 64 ≠ 0 ∨ stride < width ∨ base % 64 ≠ 0
  trapIf (decide bad) causeCapBounds 0
  checkBounds c base ((rows - 1) * stride + width)
  match freshRegion m.st m.core.die with
  | none => .error (.trap causeTenure 4 [])
  | some n =>
    let gen : BitVec 6 := (m.st.tregion? n).elim 0 (·.gen)
    let t : TRegion := { num := n, gen := gen, ctx := m.core.ctx, base := base, rows := rows, cols := cols, stride := stride, fmt := fmt }
    let s := m.st.setDie (n / 128) fun d => { d with tregions := t :: d.tregions.filter fun x => decide (x.num ≠ n) }
    let shape := o.x.imm.toNat % 2 ^ 12 + fmt.toNat * 2 ^ 12
    pure ({ m with st := s }.wr o.d (mkHandle true n gen m.st.modid shape 0x7F))

/-- A line that holds bytes of a rectangle. -/
def TRegion.lineHas (t : TRegion) (q : Rect) (l : L1Line) : Bool :=
  l.ctx == t.ctx && (List.range 64).any fun k => (t.elemAt (64 * l.va + k)).elim false (rectHas q)

/-- The quad's lines of a rectangle written back and invalidated (R201). -/
def M.rectFlush (m : M) (t : TRegion) (q : Rect) : Except Stop M := m.l1Clean (t.lineHas q) true

/-- The lowest unused entry of the core's tenure table. -/
def Core.tenSlot (c : Core) : Nat := ((List.range 17).find? fun k => !c.tenures.any fun e => decide (e.slot = k)).getD 16

/-- Whether a tenure request is granted at once (R199, R200). -/
def TRegion.grants (t : TRegion) (q : Rect) (write : Bool) : Bool := grantable t.recs q write && splitAllows t q

def opTten (o : XOp) : Act := fun m => do
  trapIf m.restart causePrivilege 1
  stallIf m.acqPending
  let write := o.x.x.getLsbD 1
  let r ← m.tileOp o.a o.x.b .tenured [if write then tpTenW else tpTenR]
  let t := (m.st.tregion? r.name).getD { num := r.name }
  let finish (m : M) : Except Stop M := do
    let m ← m.rectFlush t r.rect
    let m ← m.acquire o.x.sc
    pure (if o.x.ff then m.wrInt o.x.e 1 else m)
  if m.thr.granted then finish m
  else
    trapIf (decide (16 ≤ m.core.tenures.length)) causeTenure 1
    let slot := m.core.tenSlot
    let rec_ (held : Bool) : TenRec :=
      { launch := m.core.launch, team := m.core.team, thr := m.tid.val, slot := slot, rect := r.rect, write := write, held := held }
    let entry (held : Bool) : TenEntry := { slot := slot, region := r.name, rect := r.rect, write := write, held := held }
    let add (m : M) (held : Bool) : M :=
      { m with st := m.st.setTregion r.name fun t => { t with recs := t.recs ++ [rec_ held] }
               core := { m.core with tenures := m.core.tenures ++ [entry held] } }
    let ok := t.grants r.rect write
    if o.x.ff ∧ !(ok && m.st.recRoom r.name) then pure (m.wrInt o.x.e 0)
    else if !m.st.recRoom r.name then
      let m : M := { m with core := { m.core with tenures := m.core.tenures ++ [entry false] }
                            st := m.st.after (retryAfter 0) (.tenureRequest m.who r.name r.rect write) }
      .error (.park m (.tenure slot 0) {})
    else if ok then finish (add m true)
    else .error (.park (add m false) (.tenure slot 0) {})

/-- The bits of an element at the common level (R204), zero where its page is not mapped. -/
def elemBits (s : State) (t : TRegion) (r c : Nat) : Nat :=
  let w := fmtBits t.fmt
  let va := t.base + r * t.stride + c * w / 8
  let root := ((s.cores.find? fun x => x.ctx == t.ctx).map (·.desc.ptroot)).getD 0
  match walk s root (va % 2 ^ 56) with
  | .page pa _ w1 _ _ => s.readPa (placeNow s pa) ((w + 7) / 8) (keyIndex w1.toNat) / 2 ^ (c * w % 8) % 2 ^ w
  | _ => 0

/-- The elements of a strip, row-major: the `h` outermost rows or columns on a side (R204). -/
def stripElems (q : Rect) (side h : Nat) : List (Nat × Nat) :=
  let (r0, nr, c0, nc) : Nat × Nat × Nat × Nat := match side with
    | 0 => (q.row, h, q.col, q.cols)
    | 1 => (q.row, q.rows, q.col + q.cols - h, h)
    | 2 => (q.row + q.rows - h, h, q.col, q.cols)
    | _ => (q.row, q.rows, q.col, h)
  (List.range nr).flatMap fun i => (List.range nc).map fun j => (r0 + i, c0 + j)

/-- The image of a team's core changed: bound, or saved. -/
def State.onTeam (s : State) (l : BitVec 16) (team : Nat) (f : State → Core → Core × State) : State :=
  match s.coreOf? l team with
  | some c => let (c, s) := f s c; s.setCore c
  | none => match (s.launch? l).bind fun x => x.saved.find? fun v => decide (v.team = team) with
    | some v =>
      let (c, s) := f s v.image
      s.setDie (l.toNat / 256 % 8) fun d => { d with launches := update (fun x => x.id == l) (fun x =>
        { x with saved := update (fun v => decide (v.team = team)) (fun v => { v with image := c }) x.saved }) d.launches }
    | none => s

/-- A refresh delivered to a core: the copy, then the count to its halo word, set full (R204). -/
def State.putHalo (s : State) (core : Nat) (x : HaloCopy) : State :=
  match s.core? core with
  | none => s
  | some c =>
    let was := c.mem.full x.wordAt
    let mem := (((c.mem.store x.copyAt x.size x.data).store x.wordAt 8 x.count).setFull x.wordAt true)
    let c := { ((c.soil x.copyAt).soil (x.copyAt + x.size)).soil x.wordAt with mem := mem }
    let (c, s) := if was then (c, s) else Core.retryLocal (c.localWaits.length + 1) x.wordAt c s
    s.setCore c

/-- One refresh: a snapshot of the strip, delivered to a bound subscriber, or held for a saved one until its re-dispatch (R204). DEDUCED, log 26. -/
def State.refresh (s : State) (t : TRegion) (h : HaloSub) : State :=
  let es := stripElems h.rect h.side h.width
  let w := fmtBits t.fmt
  let v := es.foldr (fun (r, c) acc => elemBits s t r c + 2 ^ w * acc) 0
  let x : HaloCopy := { copyAt := h.copyAt, size := (es.length * w + 7) / 8, data := v, wordAt := h.wordAt, count := h.count + 1 }
  match s.coreOf? h.launch h.team with
  | some c => s.putHalo c.id x
  | none => s.setDie (h.launch.toNat / 256 % 8) fun d => { d with launches := update (fun l => l.id == h.launch) (fun l =>
      { l with saved := update (fun y => decide (y.team = h.team)) (fun y => { y with halos := y.halos ++ [x] }) l.saved }) d.launches }

/-- After a release of a write tenure: every strip that it meets is refreshed (R204). -/
def State.refreshAll (s : State) (n : Nat) (q : Rect) : State :=
  match s.tregion? n with
  | none => s
  | some t =>
    t.halos.zipIdx.foldl (fun s (h, i) =>
      if (stripElems h.rect h.side h.width).any (rectHas q) then
        (s.refresh t h).setTregion n fun t => { t with halos := t.halos.modify i fun h => { h with count := h.count + 1 } }
      else s) s

/-- The directory's part of a release (R200): the record freed, halos refreshed after a write, the queue served. -/
def State.releaseTenure (s : State) (l : BitVec 16) (team n slot : Nat) : State :=
  match (s.tregion? n).bind fun t => t.recs.find? fun x => x.launch == l && decide (x.team = team ∧ x.slot = slot) && !x.oneShot with
  | none => s
  | some x =>
    let s := s.setTregion n fun t => { t with recs := t.recs.erase x }
    let s := if x.write && x.held then s.refreshAll n x.rect else s
    s.serveQueue n

/-- The team's held tenure on exactly a rectangle. -/
def Core.tenureOn (c : Core) (n : Nat) (q : Rect) : Option TenEntry :=
  c.tenures.find? fun e => e.held && decide (e.region = n) && e.rect == q

/-- A tenure of the team released (R201): lines written back and invalidated, the release at the scope, the directory. -/
def M.endTenure (m : M) (e : TenEntry) (sc : Scope) : Except Stop M := do
  let t := (m.st.tregion? e.region).getD { num := e.region }
  let m ← m.release sc
  let m ← m.rectFlush t e.rect
  let m : M := { m with core := { m.core with tenures := m.core.tenures.filter fun x => decide (x.slot ≠ e.slot) } }
  pure (m.world fun s => s.releaseTenure m.core.launch m.core.team e.region e.slot)

/-- The permissions of which `trel` needs one (R389). -/
def relNeed (held : Option TenEntry) : List Nat :=
  match held with
  | some e => if e.write then [tpTenW] else [tpTenR]
  | none => [tpTenR, tpTenW]

def opTrel (o : XOp) : Act := fun m => do
  trapIf m.restart causePrivilege 1
  stallIf m.acqPending
  let held := m.core.tenureOn (Cap.tileName (m.src o.a)) (tileRef m.st (m.src o.a) (m.int o.x.b)).rect
  let r ← m.tileOp o.a o.x.b .tenured (relNeed held)
  stallIf (m.core.tickets.any fun t => !t.failed && t.dst.elim false fun (c, n) =>
    c.kind == 0 && (tenured m.st m.core.ctx ((List.range n).map (c.cursor.toNat + ·))).any fun (k, ps) => k == r.name && ps.any (rectHas r.rect))
  match m.core.tenureOn r.name r.rect with
  | some e => m.endTenure e o.x.sc
  | none => m.release o.x.sc

/-- A rectangle that is a sub-tile of a recorded grid (R203). -/
def TRegion.isSub (t : TRegion) (q : Rect) : Bool :=
  t.splits.any fun (p, gr, gc) => meets p q && decide (q.rows * gr = p.rows ∧ q.cols * gc = p.cols)

def opTsplit (o : XOp) : Act := fun m => do
  trapIf m.restart causePrivilege 1
  stallIf m.acqPending
  let r ← m.tileOp o.a o.x.b .tenured [tpSplit]
  let gr := o.x.imm.toNat % 16
  let gc := o.x.imm.toNat / 16 % 16
  let t := (m.st.tregion? r.name).getD { num := r.name }
  let grid := 1 ≤ gr ∧ gr ≤ 8 ∧ 1 ≤ gc ∧ gc ≤ 8 ∧ 2 ≤ gr * gc ∧ r.rect.rows % gr = 0 ∧ r.rect.cols % gc = 0
  let sub := r.rect.rows / gr - 1 + (r.rect.cols / gc - 1) * 64
  match m.core.tenureOn r.name r.rect with
  | some e => do
    trapIf (!e.write || !decide grid || t.isSub r.rect) causeTenure 2
    let m := m.world fun s => s.setTregion r.name fun t => { t with splits := t.splits ++ [(r.rect, gr, gc)] }
    let m ← m.endTenure e o.x.sc
    let bits := setField (setField (setField r.c.bits 80 12 r.rect.row) 92 12 r.rect.col) 48 12 sub
    pure (m.wr o.d ⟨bits, true⟩)
  | none => .error (.trap causeTenure 2 [])

/-- DEDUCED, log 26. -/
def opTmerge (o : XOp) : Act := fun m => do
  trapIf m.restart causePrivilege 1
  stallIf m.acqPending
  let r ← m.tileOp o.a o.x.b .tenured [tpSplit]
  let t := (m.st.tregion? r.name).getD { num := r.name }
  trapIf (!t.splits.any fun p => p.1 == r.rect) causeTenure 2
  if t.recs.any fun x => x.held && !x.oneShot && meets x.rect r.rect then pure (m.wrInt o.d 0)
  else
    let m := m.world fun s => (s.setTregion r.name fun t => { t with splits := t.splits.filter fun p => p.1 != r.rect }).serveQueue r.name
    pure (m.wrInt o.d 1)

/-- DEDUCED, log 26. -/
def opThalo (o : XOp) : Act := fun m => do
  trapIf m.restart causePrivilege 1
  let r ← m.tileOp o.a o.x.b .tenured [tpHalo]
  let side := o.x.imm.toNat % 4
  let h := o.x.imm.toNat / 4 % 16
  let cv := m.int o.x.c
  let copyAt := fieldOf cv 31 0
  let wordAt := fieldOf cv 63 32
  let t := (m.st.tregion? r.name).getD { num := r.name }
  let mine (x : HaloSub) : Bool := x.launch == m.core.launch && decide (x.team = m.core.team)
  let same (x : HaloSub) : Bool := mine x && x.rect == r.rect && decide (x.side = side)
  let rest := t.halos.filter fun x => !same x
  if h = 0 then pure { m with st := m.st.setTregion r.name fun t => { t with halos := rest } }
  else
    let bytes := ((if side % 2 = 0 then h * r.rect.cols else r.rect.rows * h) * fmtBits t.fmt + 7) / 8
    trapIf (decide (0x3C000 < copyAt + bytes ∨ 0x3C000 < wordAt + 8 ∨ wordAt % 8 ≠ 0)) causeCapBounds 0
    trapIf (decide ((if side % 2 = 0 then r.rect.rows else r.rect.cols) < h)) causeTenure 3
    let teamSubs := (m.st.dies.toList.flatMap fun d => d.tregions.flatMap fun x => x.halos.filter mine).length
    let dup := (t.halos.filter same).length
    trapIf (decide (4 ≤ (rest.filter fun x => x.rect == r.rect).length ∨ 8 ≤ teamSubs - dup)) causeTenure 3
    let sub : HaloSub := { launch := m.core.launch, team := m.core.team, rect := r.rect, side := side, width := h, copyAt := copyAt, wordAt := wordAt }
    pure (m.world fun s => (s.refresh t sub).setTregion r.name fun t => { t with halos := rest ++ [{ sub with count := 1 }] })

end

end Sys2Proof.Machine
end

