-- ==== Sys2Proof/Machine/Vector.lean ====
section
/-!
DEFINITION. The effects of the vector instructions (R343–R366): their operands, mask and mode, the lanes' results, and vector
loads and stores.
-/
namespace Sys2Proof.Machine
open Sys2Proof

noncomputable section

/-- The form of a vector instruction: base or widened, and the guard of a pair word (R278, R344). -/
structure VForm where
  x  : Form := none
  gk : BitVec 3 := 0
  gp : Bool := false

/-- Mask bits: all in a base word, `k`K of a widened form, the guard of a pair word. -/
def M.vmask (m : M) (g : VForm) : W64 :=
  match g.x with
  | some x => if x.k = 0 then -1 else m.mask x.k
  | none => if g.gk = 0 ∧ !g.gp then -1 else if g.gp then ~~~m.mask g.gk else m.mask g.gk

/-- The rounding mode (R258). -/
def M.dynRm (m : M) : RMode := RMode.ofCode (m.thr.fpctl.setWidth 2)
def M.vrm (m : M) (g : VForm) : RMode :=
  match g.x with
  | some x => if x.x.getLsbD 0 then RMode.ofCode x.rm else m.dynRm
  | none => m.dynRm

def tyOf (t : BitVec 3) (g : VForm) : VTy := (VTy.ofCode (typeCode t g.x)).getD .f32

/-- The operands of a VR instruction. -/
def M.vin (m : M) (g : VForm) (ty : VTy) (d a b : F6) : VIn where
  ty := ty
  a := m.vsrc a ty.size
  b := m.vsrc b ty.size
  c := match g.x with
    | some x => m.vsrc x.c 4
    | none => m.vsrc d ty.size
  d := m.vsrc d ty.size
  num := b.toNat
  mask := m.vmask g
  z := g.x.elim false (·.z)
  x := g.x.elim 0 (·.x)
  rm := m.vrm g
  xf := m.thr.xfloor

/-- A VR instruction's result. -/
def M.vout (m : M) (d : F6) (o : VOut) : M :=
  let m := m.vwrite d.toNat o.v
  { m with flags := m.flags ||| o.fl, thr := { m.thr with xfloor := o.xf } }

/-- A VR instruction whose lanes are `f`. -/
def vop (f : VIn → VOut) (g : VForm) (t : BitVec 3) (d a b : F6) : Act := fun m =>
  .ok (m.vout d (f (m.vin g (tyOf t g) d a b)))

/-! ## VARITH, VFMA, VLOGIC, VMATH, VRED -/

def opVadd (g : VForm) (t : BitVec 3) (d a b : F6) : Act := vop (laneArith 0) g t d a b
def opVsub (g : VForm) (t : BitVec 3) (d a b : F6) : Act := vop (laneArith 1) g t d a b
def opVmul (g : VForm) (t : BitVec 3) (d a b : F6) : Act := vop (laneArith 2) g t d a b
def opVmin (g : VForm) (t : BitVec 3) (d a b : F6) : Act := vop (laneArith 3) g t d a b
def opVmax (g : VForm) (t : BitVec 3) (d a b : F6) : Act := vop (laneArith 4) g t d a b
def opVabs (g : VForm) (t : BitVec 3) (d a : F6) : Act := vop (laneArith 5) g t d a 0
def opVneg (g : VForm) (t : BitVec 3) (d a : F6) : Act := vop (laneArith 6) g t d a 0
def opVabd (g : VForm) (t : BitVec 3) (d a b : F6) : Act := vop (laneArith 7) g t d a b

/-- The addend of a fused multiply-add has the type's width. -/
def vfmaOp (fn : Nat) (g : VForm) (t : BitVec 3) (d a b : F6) : Act := fun m =>
  let i := m.vin g (tyOf t g) d a b
  let c := match g.x with
    | some x => m.vsrc x.c i.ty.size
    | none => i.d
  .ok (m.vout d (laneFma fn { i with c := c }))
def opVfma (g : VForm) (t : BitVec 3) (d a b : F6) : Act := vfmaOp 0 g t d a b
def opVfms (g : VForm) (t : BitVec 3) (d a b : F6) : Act := vfmaOp 1 g t d a b
def opVfnma (g : VForm) (t : BitVec 3) (d a b : F6) : Act := vfmaOp 2 g t d a b
def opVfnms (g : VForm) (t : BitVec 3) (d a b : F6) : Act := vfmaOp 3 g t d a b
def opVdot4 (g : VForm) (t : BitVec 3) (d a b : F6) : Act := vop laneDot g t d a b
def opVdot2 (g : VForm) (t : BitVec 3) (d a b : F6) : Act := vop laneDot g t d a b
def opVmulh (g : VForm) (t : BitVec 3) (d a b : F6) : Act := vop laneMulh g t d a b
def opVsad (g : VForm) (t : BitVec 3) (d a b : F6) : Act := vop laneSad g t d a b

def opVand (g : VForm) (t : BitVec 3) (d a b : F6) : Act := vop (laneLogic 0) g t d a b
def opVor (g : VForm) (t : BitVec 3) (d a b : F6) : Act := vop (laneLogic 1) g t d a b
def opVxor (g : VForm) (t : BitVec 3) (d a b : F6) : Act := vop (laneLogic 2) g t d a b
def opVandn (g : VForm) (t : BitVec 3) (d a b : F6) : Act := vop (laneLogic 3) g t d a b
def opVsll (g : VForm) (t : BitVec 3) (d a b : F6) : Act := vop (laneLogic 4) g t d a b
def opVsrl (g : VForm) (t : BitVec 3) (d a b : F6) : Act := vop (laneLogic 5) g t d a b
def opVsra (g : VForm) (t : BitVec 3) (d a b : F6) : Act := vop (laneLogic 6) g t d a b
def opVnot (g : VForm) (t : BitVec 3) (d a : F6) : Act := vop (laneLogic 7) g t d a 0

def opVrcp (g : VForm) (t : BitVec 3) (d a : F6) : Act := vop (laneMath 0) g t d a 0
def opVrsqrt (g : VForm) (t : BitVec 3) (d a : F6) : Act := vop (laneMath 1) g t d a 0
def opVsqrt (g : VForm) (t : BitVec 3) (d a : F6) : Act := vop (laneMath 2) g t d a 0
def opVdiv (g : VForm) (t : BitVec 3) (d a b : F6) : Act := vop (laneMath 3) g t d a b
def opVexp2 (g : VForm) (t : BitVec 3) (d a : F6) : Act := vop (laneMath 4) g t d a 0
def opVlog2 (g : VForm) (t : BitVec 3) (d a : F6) : Act := vop (laneMath 5) g t d a 0
def opVtanh (g : VForm) (t : BitVec 3) (d a : F6) : Act := vop (laneMath 6) g t d a 0
def opVsigm (g : VForm) (t : BitVec 3) (d a : F6) : Act := vop (laneMath 7) g t d a 0

def opVradd (g : VForm) (t : BitVec 3) (d a : F6) : Act := vop (laneRed 0) g t d a 0
def opVrmax (g : VForm) (t : BitVec 3) (d a : F6) : Act := vop (laneRed 1) g t d a 0
def opVrmin (g : VForm) (t : BitVec 3) (d a : F6) : Act := vop (laneRed 2) g t d a 0
def opVrand (g : VForm) (t : BitVec 3) (d a : F6) : Act := vop (laneRed 3) g t d a 0
def opVror (g : VForm) (t : BitVec 3) (d a : F6) : Act := vop (laneRed 4) g t d a 0
def opVrxor (g : VForm) (t : BitVec 3) (d a : F6) : Act := vop (laneRed 5) g t d a 0
def opVscan (g : VForm) (t : BitVec 3) (d a : F6) : Act := vop (laneRed 6) g t d a 0
def opVrsum (g : VForm) (t : BitVec 3) (d a : F6) : Act := vop (laneRed 7) g t d a 0

/-! ## VCMP (R351) -/

def vcmpOp (fn : Nat) (g : VForm) (t : BitVec 3) (d : BitVec 3) (a b : F6) : Act := fun m =>
  let i := m.vin g (tyOf t g) 0 a b
  let (k, fl) := laneCmp fn i (m.mask d)
  .ok { m.setMask d k with flags := m.flags ||| fl }
def opVceq (g : VForm) (t : BitVec 3) (d : BitVec 3) (a b : F6) : Act := vcmpOp 0 g t d a b
def opVcne (g : VForm) (t : BitVec 3) (d : BitVec 3) (a b : F6) : Act := vcmpOp 1 g t d a b
def opVclt (g : VForm) (t : BitVec 3) (d : BitVec 3) (a b : F6) : Act := vcmpOp 2 g t d a b
def opVcle (g : VForm) (t : BitVec 3) (d : BitVec 3) (a b : F6) : Act := vcmpOp 3 g t d a b
def opVcgt (g : VForm) (t : BitVec 3) (d : BitVec 3) (a b : F6) : Act := vcmpOp 4 g t d a b
def opVcge (g : VForm) (t : BitVec 3) (d : BitVec 3) (a b : F6) : Act := vcmpOp 5 g t d a b
def opVcltu (g : VForm) (t : BitVec 3) (d : BitVec 3) (a b : F6) : Act := vcmpOp 6 g t d a b
def opVcun (g : VForm) (t : BitVec 3) (d : BitVec 3) (a b : F6) : Act := vcmpOp 7 g t d a b

/-! ## VCVT (R352–R354) -/

/-- A conversion's operands: source type and rounding from B in the base form, from C, RM and X[0] when widened. -/
def M.cvtIn (m : M) (g : VForm) (t : BitVec 3) (d a b : F6) : VIn :=
  let src := (VTy.ofCode (srcCode g.x b)).getD .f32
  let rm := if g.x.isSome then m.vrm g else if b.toNat / 8 < 4 then RMode.ofCode (BitVec.ofNat 2 (b.toNat / 8)) else m.dynRm
  { m.vin g (tyOf t g) d a 0 with src := src, a := m.vsrc a src.size, rm := rm }

def cvtOp (f : VIn → VOut) (g : VForm) (t : BitVec 3) (d a b : F6) : Act := fun m => .ok (m.vout d (f (m.cvtIn g t d a b)))
def opVcvt (g : VForm) (t : BitVec 3) (d a b : F6) : Act := cvtOp (laneCvt false) g t d a b
def opVcvtSat (g : VForm) (t : BitVec 3) (d a b : F6) : Act := cvtOp (laneCvt true) g t d a b
def opVwid (g : VForm) (t : BitVec 3) (d a b : F6) : Act := cvtOp (laneWid (partOf g.x)) g t d a b
def opVwidh (g : VForm) (t : BitVec 3) (d a b : F6) : Act := cvtOp (laneWid 1) g t d a b
def opVnar (g : VForm) (t : BitVec 3) (d a b : F6) : Act := cvtOp (laneNar (partOf g.x)) g t d a b
def opVrint (g : VForm) (t : BitVec 3) (d a b : F6) : Act := cvtOp laneRint g t d a b

/-- The form of an extended-only vector operation. -/
def XOp.vform (o : XOp) : VForm := { x := some o.x }

def opVqn4p (_ : BitVec 3) (o : XOp) : Act := fun m =>
  let src := (VTy.ofCode (o.x.c.toNat % 16)).getD .f32
  let i := { m.vin (XOp.vform o) .qn4 o.d o.a 0 with src := src, a := m.vsrc o.a src.size, b := m.vsrc o.x.b src.size }
  .ok (m.vout o.d (laneQn4p (partOf (some o.x)) i))
def opVqn4u (t : BitVec 3) (o : XOp) : Act := fun m =>
  let ty := (VTy.ofCode t.toNat).getD .f32
  let i := { m.vin (XOp.vform o) ty o.d o.a 0 with a := m.vsrc o.a 1, b := m.vsrc o.x.b ty.size }
  .ok (m.vout o.d (laneQn4u (partOf (some o.x)) i))

/-! ## VPERM (R355), VSC (R358–R360), VMOV (R361) -/

def opVbc (g : VForm) (t : BitVec 3) (d a b : F6) : Act := vop (lanePerm 0 0) g t d a b
def opVshf (g : VForm) (t : BitVec 3) (d a b : F6) : Act := vop (lanePerm 1 0) g t d a b
def opVrot (g : VForm) (t : BitVec 3) (d a b : F6) : Act := vop (lanePerm 2 0) g t d a b
def opVext (g : VForm) (t : BitVec 3) (d a b : F6) : Act := vop (lanePerm 3 (g.x.elim 1 (·.imm.toNat))) g t d a b
def opVins (g : VForm) (t : BitVec 3) (d a b : F6) : Act := vop (lanePerm 4 0) g t d a b
def opVzip (g : VForm) (t : BitVec 3) (d a b : F6) : Act := vop (lanePerm 5 0) g t d a b
def opVuzp (g : VForm) (t : BitVec 3) (d a b : F6) : Act := vop (lanePerm 6 0) g t d a b
def opVcpr (g : VForm) (t : BitVec 3) (d a : F6) (b : BitVec 3) : Act := fun m =>
  .ok (m.vout d (lanePerm 7 0 { m.vin g (tyOf t g) d a 0 with kb := m.mask b }))

def opVsacc (g : VForm) (d a b : F6) : Act := vop laneSacc g 0 d a b
def opVxpk (g : VForm) (d a : F6) : Act := vop laneXpk g 0 d a 0
def opVxacc (g : VForm) (d a : F6) : Act := vop laneXacc g 0 d a 0
def opVxfin (g : VForm) (d a : F6) : Act := vop laneXfin g 0 d a 0
def opVbsc (g : VForm) (d a b : F6) : Act := vop laneBsc g 0 d a b

def opVmov (g : VForm) (t : BitVec 3) (d a : F6) : Act := vop (laneMov 0) g t d a 0
def opVzero (g : VForm) (t : BitVec 3) (d : F6) : Act := vop (laneMov 1) g t d 0 0
def opVfill (g : VForm) (t : BitVec 3) (d a : F6) : Act := fun m =>
  .ok (m.vout d (laneMov 2 { m.vin g (tyOf t g) d 0 0 with sc := m.int a }))
def opVkmov (g : VForm) (t : BitVec 3) (d : F6) (a : BitVec 3) : Act := fun m =>
  .ok (m.vout d (laneMov 3 { m.vin g (tyOf t g) d 0 0 with kb := m.mask a }))
def opVwbc (g : VForm) (t : BitVec 3) (d a b : F6) : Act := vop (laneMov 4) g t d a b

/-! ## Vector loads and stores (R238, R362, R363) -/

/-- A vector access: its operand, element size, addresses of the elements, and which are active. -/
structure VAcc where
  r    : MRef
  s    : Nat
  at_  : Nat → Nat
  act  : Nat → Bool

def VAcc.n (v : VAcc) : Nat := 64 / v.s
/-- The active elements, ascending. -/
def VAcc.acts (v : VAcc) : List Nat := (List.range v.n).filter v.act

def M.vacc (m : M) (g : VForm) (a : F6) (sz : BitVec 3) (am : BitVec 2) (ea : BitVec 7) : VAcc :=
  let s := szBytes sz
  let mask := m.vmask g
  let c := m.src a
  let act (j : Nat) : Bool := mask.getLsbD (s * j)
  if am = 3 then
    let (f, sc) : F6 × Bool := match g.x with
      | none => (ea.extractLsb' 0 6, ea.getLsbD 6)
      | some x => (x.b, x.scale)
    let idx := m.vsrc f s
    let base := c.cursor + immOff g.x
    { r := ⟨a, c, base.toNat, ⟨0, none⟩⟩, s := s, act := act
      at_ := fun j => (base + sextW (BitVec.ofNat 64 (elem idx s j)) (8 * s) * (if sc then BitVec.ofNat 64 s else 1)).toNat }
  else
    let r := m.ref g.x a am ea 64
    { r := r, s := s, act := act, at_ := fun j => (r.va + s * j) % 2 ^ 64 }

/-- The checks of one element, without effect. -/
def M.velemCheck (m : M) (c : Cap) (va s : Nat) (write : Bool) : Except Stop Unit := do
  checkBounds c va s
  checkAligned va s
  if c.kind = 1 then m.winCheck va s
  else if c.kind = 0 then
    let (m, x) ← m.page va { rd := !write, w := write }
    trapIf (!(paKind m.st x.pa).isMem) causePagePerm (BitVec.ofNat 64 va)
    trapIf (write && !(m.uncovered ((List.range s).map (va + ·)) true).isEmpty) causeTenure 0
  else pure ()

/-- The active elements that would fault or need service, with how. -/
def M.vfaults (m : M) (v : VAcc) (write : Bool) : List (Nat × Stop) :=
  v.acts.filterMap fun j => match m.velemCheck v.r.c (v.at_ j) v.s write with
    | .ok _ => none
    | .error e => some (j, e)

def Stop.isService : Stop → Bool
  | .service .. => true
  | _ => false

/-- Services come first; else the lowest element's fault (R238). -/
def vraise (fs : List (Nat × Stop)) : Except Stop Unit :=
  match fs.find? (fun f => f.2.isService) with
  | some f => .error f.2
  | none => match fs with
    | f :: _ => .error f.2
    | [] => .ok ()

/-- The bytes of memory that elements touch. -/
def VAcc.touched (v : VAcc) (js : List Nat) : List Nat :=
  if v.r.c.kind = 0 then js.flatMap fun j => (List.range v.s).map (v.at_ j + ·) else []

/-- Elements loaded, into a register's value. The tenured bytes of a region that they touch without a covering tenure are one one-shot
read (R202). -/
def M.vloadAll (m : M) (v : VAcc) (js : List Nat) (old : V512) : Except Stop (M × V512) := do
  let shots := m.uncovered (v.touched js) false
  let own ← shots.filterM fun (r, ps) => m.oneShot r ps false
  let (m, w) ← js.foldlM (fun (mr : M × V512) j => do
    let (m, w, _) ← mr.1.loadAt v.r.c (v.at_ j) v.s false (shots.map (·.1))
    pure (m, BitVec.ofNat 512 (putBytes mr.2.toNat (v.s * j) v.s w))) (m, old)
  pure (own.foldl (fun m x => m.world (·.dropOneShot x.1 m.who)) m, w)

/-- The old register with the inactive elements of `js` zeroed when Z is set. -/
def vInactive (z : Bool) (v : VAcc) (js : List Nat) (old : V512) : V512 :=
  if z then js.foldl (fun r j => if v.act j then r else BitVec.ofNat 512 (putBytes r.toNat (v.s * j) v.s 0)) old else old

/-- The byte mask of the active elements. -/
def VAcc.bytes (v : VAcc) : W64 := v.acts.foldl (fun k j => k ||| byteMask (v.s * j) v.s) 0

def opVld (g : VForm) (d a : F6) (sz : BitVec 3) (am : BitVec 2) (ea : BitVec 7) : Act := fun m => do
  let v := m.vacc g a sz am ea
  let c := v.r.c
  let ff := g.x.elim false (·.ff)
  let z := g.x.elim false (·.z)
  let (ord, sc) := formOrd g.x
  checkCap a c (if am = 3 ∨ ff then [0, 1] else [0, 1, 6]) [.ld]
  stallIf m.acqPending
  let old := m.vsrc d v.s
  if c.kind = 6 then
    checkAligned v.r.va v.s
    let m ← if ord.getLsbD 1 then m.release sc else pure m
    let m := m.vwrite d.toNat (vInactive z v (List.range v.n) old)
    let m ← m.keyed { kind := kRld, win := c, off := BitVec.ofNat 64 v.r.va, sz := 5, scope := sc, d := d, vec := true, vmask := v.bytes,
                      acq := orderAcq ord sc }
    pure (m.update a v.r.ad)
  else
    let fs := m.vfaults v false
    let stop := (fs.head?).elim v.n (·.1)
    let part := ff && stop < v.n && v.acts.any (· < stop)
    if part then pure () else vraise fs
    let js := List.range (if part then stop else v.n)
    let m ← m.ordered ord sc fun m => do
      let (m, w) ← m.vloadAll v (js.filter v.act) (vInactive z v js old)
      pure (m.vwrite d.toNat w)
    let m := if part then m else m.update a v.r.ad
    pure (if ff then m.wrInt (g.x.elim 0 (·.e)) (BitVec.ofNat 64 (if part then stop else v.n)) else m)

/-- `vst`: one write tenure of a region covers all its bytes that the store writes (R201); a store of all 64 bytes of a block is one write (R44). DEDUCED, log 20. -/
def opVst (g : VForm) (d a : F6) (sz : BitVec 3) (am : BitVec 2) (ea : BitVec 7) : Act := fun m => do
  let v := m.vacc g a sz am ea
  let c := v.r.c
  let w := m.vsrc d v.s
  let (ord, sc) := formOrd g.x
  m.restartCheck c
  checkCap a c (if am = 3 then [0, 1] else [0, 1, 6]) [.st]
  stallIf m.acqPending
  if c.kind = 6 then
    checkAligned v.r.va v.s
    let ws := (List.range 8).map (fun k => BitVec.ofNat 64 (elem w 8 k)) ++ [v.bytes]
    let m ← m.keyedOrdered (ord.getLsbD 1) sc
      { kind := kRst, win := c, off := BitVec.ofNat 64 v.r.va, mode := 3, sz := 5, scope := sc, payload := ws, acq := orderAcq ord sc }
    pure (m.update a v.r.ad)
  else
    vraise (m.vfaults v true)
    trapIf (!(m.uncovered (v.touched v.acts) true).isEmpty) causeTenure 0
    let block := am != 3 && c.kind == 0 && decide (v.acts.length = v.n) && v.r.va % 64 == 0
    let m ← m.ordered ord sc fun m =>
      if block then m.storeAt c v.r.va 64 w.toNat none false
      else v.acts.foldlM (fun m j => m.storeAt c (v.at_ j) v.s (elem w v.s j) none false) m
    pure (m.update a v.r.ad)

end

end Sys2Proof.Machine
end

