-- ==== Sys2Proof/Machine/Matrix.lean ====
section
/-!
DEFINITION. The matrix unit (R155, R239, R264–R266, R367–R380): K-steps, the effects of the matrix instructions, remote matrix
commands.
-/
namespace Sys2Proof.Machine
open Sys2Proof

noncomputable section

/-! ## K-steps (R264, R265) -/

/-- Operand formats of the matrix unit. -/
inductive MFmt where
  | flt (f : FFmt) (size : Nat)
  | i8
  | qn4
deriving DecidableEq, Repr

/-- The formats that T2 names (R371). -/
def MFmt.ofT2 (t : Nat) : MFmt :=
  match t with
  | 0 => .flt fp32 4
  | 1 => .flt fp16 2
  | 2 => .flt bf16 2
  | 5 => .i8
  | 7 => .flt f8e4 1
  | _ => .flt f8e5 1

/-- The format of a tile handle, when the unit accepts it (R374). -/
def MFmt.ofTile (f : BitVec 3) : Option MFmt :=
  match f.toNat with
  | 0 => some (.flt fp32 4)
  | 1 => some (.flt fp16 2)
  | 2 => some (.flt bf16 2)
  | 4 => some .i8
  | 5 => some (.flt f8e4 1)
  | 6 => some (.flt f8e5 1)
  | _ => none

/-- Elements in a 192-byte row piece (R264). -/
def MFmt.k : MFmt → Nat
  | .flt _ s => 192 / s
  | .i8 => 192
  | .qn4 => 384

/-- Element `k` of a row piece given as its bytes. -/
def MFmt.code (f : MFmt) (row k : Nat) : Nat :=
  match f with
  | .flt _ s => row / 2 ^ (8 * s * k) % 2 ^ (8 * s)
  | .i8 => row / 2 ^ (8 * k) % 2 ^ 8
  | .qn4 => row / 2 ^ (4 * k) % 16

/-- One element of a K-step over `n` products (R264, R265). -/
def stepElem (f : MFmt) (rm : RMode) (c : W32) (a b n : Nat) : FRes :=
  match f with
  | .flt g _ => fDot fp32 rm (fp32.decode c.toNat) ((List.range n).map fun k => nMul (g.decode (f.code a k)) (g.decode (f.code b k)))
  | .i8 =>
    let p := (List.range n).foldl (fun (acc : Int) k => acc + intVal true 8 (f.code a k) * intVal true 8 (f.code b k)) 0
    ⟨intBits 32 (c.toInt + p), 0⟩
  | .qn4 =>
    let p := (List.range n).foldl (fun (acc : Int) k => acc + qn4Val (f.code a k) * qn4Val (f.code b k)) 0
    ⟨intBits 32 (c.toInt + p), 0⟩

/-- A K-step on the rows from `lo` of an accumulator: `as` are the row pieces of A, `bs` those of B. -/
def stepAcc (f : MFmt) (rm : RMode) (n lo : Nat) (as bs : List Nat) (z : Nat → W32) : List W32 × FFlags :=
  let cells := (List.range 1024).map fun e =>
    let i := e / 32
    let j := e % 32
    if lo ≤ i then
      match as[i - lo]?, bs[j]? with
      | some a, some b => let r := stepElem f rm (z e) a b n; (BitVec.ofNat 32 r.bits, r.flags)
      | _, _ => (z e, 0)
    else (z e, 0)
  (cells.map (·.1), cells.foldl (fun a c => a ||| c.2) 0)

/-! ## Operands (R369) -/


/-- The matrix unit's own load pipes: master class 2. -/
def M.asUnit (m : M) : M := { m with cls := 2 }
def M.asCore (m : M) : M := { m with cls := 0 }

/-- Bytes of an operand, as an engine of the quad reads them (R178). -/
def M.matRead (m : M) (c : Cap) (va n : Nat) : Except Stop (M × Nat) := do
  let (m, v, _) ← (blocksOf va n).foldlM (fun (x : M × Nat × Nat) (p : Nat × Nat) => do
    let (m, v, at_) := x
    let (m, w, _, _) ← m.engRead c p.1 p.2
    pure (m, v + w * 2 ^ (8 * at_), at_ + p.2)) (m, 0, 0)
  pure (m, v)

/-- The address of row `i`. -/
def rowVa (base : Nat) (stride i : Nat) : Nat := (base + i * stride) % 2 ^ 64

/-- `rows` row pieces of `len` bytes at an offset in the rows. -/
def M.matRows (m : M) (c : Cap) (base stride off len : Nat) : Nat → Except Stop (M × List Nat)
  | 0 => .ok (m, [])
  | n + 1 => do
    let (m, vs) ← m.matRows c base stride off len n
    let (m, v) ← m.matRead c ((rowVa base stride n + off) % 2 ^ 64) len
    pure (m, vs ++ [v])

/-- Tag, type and permissions of a matrix operand. -/
def matCap (f : F6) (c : Cap) (p : Perm) : Except Stop Unit := checkCap f c [0, 1] [p, .mtx]

/-- The bounds of `rows` rows of `len` bytes. -/
def rowsIn (c : Cap) (base stride len rows : Nat) : Except Stop Unit :=
  (List.range rows).foldlM (fun _ i => checkBounds c (rowVa base stride i) len) ()

/-- The descriptor of R371: SA, SB, NK. -/
structure MDesc where
  sa : Nat
  sb : Nat
  nk : Nat
def mdesc (v : W64) : MDesc := ⟨fieldOf v 23 0, fieldOf v 47 24, fieldOf v 63 48⟩
def MDesc.ok (d : MDesc) : Bool := d.nk != 0 && d.sa % 64 == 0 && d.sb % 64 == 0

/-- The acquire that ORD asks of an instruction's reads. -/
def M.matAcquire (m : M) (o : XOp) : Except Stop M := if o.x.ord.getLsbD 0 then m.acquire o.x.sc else .ok m

/-- The rounding mode of an extended-only operation (R258). -/
def M.xrm (m : M) (o : XOp) : RMode := if o.x.x.getLsbD 0 then RMode.ofCode o.x.rm else m.dynRm

/-- What a thread leaves when its command waits in the unit (R369): the unit stays with it. -/
def heldStop (m : M) : Stop → Stop
  | .stall => .done (onStop m .stall)
  | .wait d src => .done (onStop m (.wait d src))
  | .service va code w f => .done (onStop m (.service va code w f))
  | e => e

/-- The rest of a matrix instruction when its command has the unit (R155): at once where the unit is idle and no command waits, else when the
unit starts it; until then the thread stays in its core's dispatch queue, and when that is full it is not ready. `accs` are the
accumulators the command writes. -/
def M.onUnit (m : M) (accs : List (BitVec 2)) (f : M → Except Stop M) : Except Stop M :=
  let q := m.st.quad m.core.quadId
  let e : MatEntry := { core := m.core.id, thr := m.who, accs := accs }
  let go (m : M) : Except Stop M :=
    match f m with
    | .ok m => .ok { m with st := m.st.leaveUnit m.core.quadId m.who }
    | .error x => .error (heldStop m x)
  match q.act with
  | some (.thread x _) => if x.thr = e.thr then go m else wait_ q e
  | some _ => wait_ q e
  | none => if q.queue.isEmpty && q.remq.isEmpty then go { m with st := m.st.setQuad { q with act := some (.thread e false) } } else wait_ q e
where
  /-- The command joins the core's queue of four. -/
  wait_ (q : Quad) (e : MatEntry) : Except Stop M :=
    if 4 ≤ (q.queue.filter fun x => decide (x.core = e.core)).length then .error .stall
    else .error (.park { m with st := m.st.setQuad { q with queue := q.queue ++ [e] } } .matrix {})

/-- A command of `n` K-steps has been applied: the unit stays with it and its thread stays at the instruction for `cycles` arithmetic cycles
(R24, R155, R368). -/
def M.runFor (m : M) (accs : List (BitVec 2)) (cycles : Nat) : M :=
  let d := m.st.arith cycles
  let e : MatEntry := { core := m.core.id, thr := m.who, accs := accs }
  let s := ((m.st.setQuad { m.st.quad m.core.quadId with act := some (.thread e true) }).after d (.matrixKstepComplete m.core.quadId)).after d (.sleepExpiry m.who)
  { m with st := s, thr := { m.thr with run := .sleeping (m.st.now + d), idleAt := m.st.now } }

/-! ## The multiply mould (R372, R239) -/

/-- A row group: its first row, its number of rows, the base of its B rows, and its number of B rows. -/
structure MGroup where
  lo : Nat
  n  : Nat
  b  : Nat
  nb : Nat := 32

/-- A multiply command: accumulator, format, mode, operands, groups. -/
structure MulJob where
  acc    : BitVec 2
  fmt    : MFmt
  rm     : RMode
  a      : Cap
  b      : Cap
  base   : Nat
  sa     : Nat
  sb     : Nat
  /-- Bytes of a row, and K-steps. -/
  bytes  : Nat
  steps  : Nat
  groups : List MGroup

/-- The accumulator after the step and the flags raised. -/
def M.putAcc (m : M) (k : BitVec 2) (z : List W32) (fl : FFlags) : M :=
  { m with core := { m.core with z := m.core.z.set k.toFin z }, flags := m.flags ||| fl }

/-- One K-step of a group: operands read, then applied whole. -/
def M.mulStep (m : M) (j : MulJob) (g : MGroup) (k : Nat) : Except Stop M := do
  let len := Nat.min 192 (j.bytes - 192 * k)
  let (m, as) ← m.asUnit.matRows j.a ((j.base + g.lo * j.sa) % 2 ^ 64) j.sa (192 * k) len g.n
  let (m, bs) ← m.matRows j.b g.b j.sb (192 * k) len g.nb
  let n := if j.fmt = .qn4 then 2 * len else j.fmt.k
  let (z, fl) := stepAcc j.fmt j.rm n g.lo as bs (m.core.accWord j.acc)
  pure (m.asCore.putAcc j.acc z fl)

/-- `ROWPROG` after a K-step (R372). -/
def rowprogWord (pc : W64) (acc : BitVec 2) (g k : Nat) : W64 :=
  BitVec.ofNat 64 (2 ^ 63 + acc.toNat * 2 ^ 56 + fieldOf pc 25 2 * 2 ^ 32 + k % 2 ^ 16 * 2 ^ 16 + g % 64)

/-- What stops a command between K-steps keeps the progress and the flags of the steps applied (R239, R259). -/
def keepStop (m : M) : Stop → Stop :=
  let mk : M := { m with thr := { m.thr with fpflags := m.thr.fpflags ||| m.flags.setWidth 64 }, flags := 0 }
  fun
  | .trap c v recs => .kept { mk with st := recs.foldl (fun s r => s.fault r.die r.kind r.code r.ctx r.addr r.aux32 r.aux64) mk.st } c v
  | .stall => .done (onStop mk .stall)
  | .wait d src => .done (onStop mk (.wait d src))
  | .service va code w f => .done (onStop mk (.service va code w f))
  | .poison s => .done (onStop mk (.poison s))
  | e => e

/-- The K-steps still to be applied, in order. DEDUCED, log 27. -/
def M.mulSteps (j : MulJob) : List (Nat × MGroup × Nat) → M → Except Stop M
  | [], m => .ok m
  | (gi, g, k) :: rest, m =>
    match m.mulStep j g k with
    | .error e => .error (keepStop m e)
    | .ok m' => M.mulSteps j rest { m' with thr := { m'.thr with rowprog := rowprogWord m'.thr.pc.int j.acc gi (k + 1) } }

/-- The steps that `ROWPROG` leaves to do. -/
def M.mulRest (m : M) (j : MulJob) : List (Nat × MGroup × Nat) :=
  let rp := m.thr.rowprog
  let mine := rp.getLsbD 63 && decide (fieldOf rp 57 56 = j.acc.toNat) && decide (fieldOf rp 55 32 = fieldOf m.thr.pc.int 25 2)
  let g0 := if mine then fieldOf rp 5 0 else 0
  let k0 := if mine then fieldOf rp 31 16 else 0
  (j.groups.zipIdx.filter fun x => decide (g0 ≤ x.2)).flatMap fun (g, gi) =>
    ((List.range j.steps).filter fun k => gi ≠ g0 || decide (k0 ≤ k)).map fun k => (gi, g, k)

/-- A multiply command whole. -/
def M.multiply (m : M) (j : MulJob) (o : XOp) : Except Stop M := do
  let ks := m.mulRest j
  let m ← M.mulSteps j ks m
  let m ← m.matAcquire o
  pure ({ m with thr := { m.thr with rowprog := 0 } }.runFor [j.acc] (16 * ks.length))

/-- The operands of `mmul` and `mq4`: the checks of R371. -/
def M.mulOperands (m : M) (fa fb : F6) (d : MDesc) (bytes : Nat) : Except Stop Unit := do
  let a := m.src fa
  let b := m.src fb
  matCap fa a .ld
  rowsIn a a.cursor.toNat d.sa bytes 32
  matCap fb b .ld
  rowsIn b b.cursor.toNat d.sb bytes 32
  checkAligned a.cursor.toNat 64
  checkAligned b.cursor.toNat 64
  trapIf (!d.ok) causeMatrix 2

def mulWith (fmt : MFmt) (qn : Bool) (o : XOp) : Act := fun m => do
  let d := mdesc (m.int o.x.e)
  let bytes := if qn then 32 * d.nk else 192 * d.nk
  m.mulOperands o.a o.x.b d bytes
  stallIf m.acqPending
  let b := m.src o.x.b
  m.onUnit [o.d.setWidth 2] fun m => m.multiply {
    acc := o.d.setWidth 2, fmt := fmt, rm := m.xrm o, a := m.src o.a, b := b, base := (m.src o.a).cursor.toNat, sa := d.sa, sb := d.sb
    bytes := bytes, steps := (bytes + 191) / 192, groups := [{ lo := 0, n := 32, b := b.cursor.toNat }] } o

def opMmul (o : XOp) : Act := mulWith (MFmt.ofT2 o.x.t2.toNat) false o
def opMq4 (o : XOp) : Act := mulWith .qn4 true o

/-! ## Grouped rows (R373) -/

/-- Entry `g` of a group table: its rows, whether a reserved bit is set, its offset. -/
def groupEntry (t g : Nat) : Nat × Bool × Int :=
  let e := t / 2 ^ (64 * g) % 2 ^ 64
  (e % 64, decide (e / 64 % 4 ≠ 0), (BitVec.ofNat 56 (e / 256)).toInt)

/-- The groups of a table, in order, empty ones too. -/
def groupsOf (t : Nat) (b : W64) : List MGroup :=
  ((List.range 8).foldl (fun (x : List MGroup × Nat) g =>
    let (n, _, o) := groupEntry t g
    (x.1 ++ [{ lo := x.2, n := n, b := (b + BitVec.ofInt 64 o).toNat }], x.2 + n)) ([], 0)).1

/-- The bounds and alignment of the B rows of each group that has rows. -/
def groupsIn (b : Cap) (sb bytes : Nat) : List MGroup → Except Stop Unit
  | [] => .ok ()
  | g :: gs =>
    if g.n = 0 then groupsIn b sb bytes gs
    else do
      rowsIn b g.b sb bytes 32
      checkAligned g.b 64
      groupsIn b sb bytes gs

/-- DEDUCED, log 27. -/
def opMgrp (o : XOp) : Act := fun m => do
  let d := mdesc (m.int o.x.e)
  let bytes := 192 * d.nk
  let a := m.src o.a
  let b := m.src o.x.b
  let c := m.src o.x.c
  matCap o.a a .ld
  matCap o.x.b b .ld
  matCap o.x.c c .ld
  checkBounds c c.cursor.toNat 64
  checkAligned a.cursor.toNat 64
  checkAligned b.cursor.toNat 64
  checkAligned c.cursor.toNat 8
  trapIf (!d.ok) causeMatrix 2
  stallIf m.acqPending
  m.onUnit [o.d.setWidth 2] fun m => do
    let (m, t) ← m.asUnit.matRead c c.cursor.toNat 64
    let m := m.asCore
    let gs := groupsOf t b.cursor
    let rows : Nat := (gs.map (·.n)).sum
    trapIf (decide (32 < rows) || (List.range 8).any fun g => (groupEntry t g).2.1) causeMatrix 3
    rowsIn a a.cursor.toNat d.sa bytes rows
    groupsIn b d.sb bytes gs
    m.multiply {
      acc := o.d.setWidth 2, fmt := MFmt.ofT2 o.x.t2.toNat, rm := m.xrm o, a := a, b := b, base := a.cursor.toNat, sa := d.sa, sb := d.sb
      bytes := bytes, steps := d.nk, groups := gs.map fun g => if g.n = 0 then { g with nb := 0 } else g } o

/-! ## Tiles as operands (R374) -/

/-- Rows of packed data, each `bytes` long. -/
def packedRows (data : Nat) (rows cols w : Nat) : List Nat := (List.range rows).map fun i => data / 2 ^ (w * cols * i) % 2 ^ (w * cols)

/-- A tile operand, checked unless the home has served its wait (R187, R193). -/
def M.tileOperand (m : M) (f : F6) (o : XOp) : Except Stop TRef :=
  let r := tileRef m.st (m.src f) 0
  if r.own && !Cap.tenured r.c && (m.served r.name r.ver).isSome then .ok r else m.tileOp f 0 .either [tpRead] (some o.x.sc)

/-- The rows of a tile operand, read whole: a version under a hold, recorded as an input by a restartable team (R128), or a tenured
rectangle. -/
def M.tileRows (m : M) (r : TRef) (o : XOp) (idx : Nat) : Except Stop (M × List Nat) := do
  let w := fmtBits (Cap.tileFmt r.c)
  if Cap.tenured r.c then
    let t := (m.st.tregion? r.name).getD { num := r.name }
    let elems := (List.range r.rect.rows).flatMap fun i => (List.range r.rect.cols).map fun j => (r.rect.row + i, r.rect.col + j)
    let own ← if m.core.covers r.name false elems then pure false else m.oneShot r.name elems false
    let (m, rows) ← m.asUnit.matRows (mkCap 0 0 (2 ^ 64) 0 0) (t.base + r.rect.row * t.stride) t.stride (r.rect.col * w / 8) (r.rect.cols * w / 8) r.rect.rows
    let m := m.asCore
    pure (if own then m.world (·.dropOneShot r.name m.who) else m, rows)
  else
    trapIf (m.restart && decide (64 ≤ m.core.rin.length)) causePrivilege 2
    let whole (data : List V512) : Nat := data.foldr (fun v acc => v.toNat + 2 ^ 512 * acc) 0
    let rows (data : List V512) : List Nat := packedRows (whole data) (Cap.tileRows r.c) (Cap.tileCols r.c) w
    match (if r.own then m.served r.name r.ver else none) with
    | some ref => pure (m.noteInput 0xFFFF ref r.ver 0, rows (m.versionData ref r.ver))
    | none =>
    if !r.own then
      let (m, _, ws) ← m.tileRemote r 3 { sc := o.x.sc, bound := o.x.imm.toNat, idx := idx }
      pure (m.noteInput (Cap.tileModule r.c) (r.name + 2 ^ 32 * (Cap.tileGen r.c).toNat) r.ver 0,
        rows ((List.range (Cap.granules r.c)).map fun g => wordsGranule (ws.drop (8 * g))))
    else
      let x := (m.st.tname? r.name).getD { name := r.name }
      match x.stateOf r.ver with
      | 2 => pure (m.noteInput 0xFFFF x.ref r.ver 0, rows ((x.ver? r.ver).elim [] (·.data)))
      | 3 => .error (.trap causeVersionRetired (BitVec.ofNat 64 r.ver) [])
      | _ => .error (m.waitVersion r (.load false) o.x.imm.toNat)

/-- The steps of a product of whole rows, applied from the one `ROWPROG` names. -/
def M.tileSteps (acc : BitVec 2) (fmt : MFmt) (rm : RMode) (as bs : List Nat) : List Nat → M → M
  | [], m => m
  | k :: ks, m =>
    let piece (x : Nat) : Nat := x / 2 ^ (1536 * k) % 2 ^ 1536
    let (z, fl) := stepAcc fmt rm fmt.k 0 (as.map piece) (bs.map piece) (m.core.accWord acc)
    M.tileSteps acc fmt rm as bs ks (m.putAcc acc z fl)

/-- Inputs are recorded when the instruction completes: one that is to execute again has recorded none (R128). -/
def forgetInputs (m0 : M) : Except Stop M → Except Stop M
  | .error (.park m w f) => .error (.park { m with core := { m.core with rin := m0.core.rin } } w f)
  | r => r

def opMmult (o : XOp) : Act := withHolds fun m => forgetInputs m do
  let ra ← m.tileOperand o.a o
  let rb ← m.tileOperand o.x.b o
  stallIf m.acqPending
  match MFmt.ofTile (Cap.tileFmt ra.c) with
  | none => .error (.trap causeMatrix 4 [])
  | some fmt => do
    trapIf (Cap.tileFmt ra.c != Cap.tileFmt rb.c || Cap.tileCols ra.c != Cap.tileCols rb.c || decide (32 < Cap.tileRows ra.c)
      || decide (32 < Cap.tileRows rb.c)) causeMatrix 4
    let (m, as) ← m.tileRows ra o 0
    let (m, bs) ← m.tileRows rb o 1
    m.onUnit [o.d.setWidth 2] fun m => do
    let m ← m.acquire o.x.sc
    let steps := (Cap.tileCols ra.c + fmt.k - 1) / fmt.k
    let rp := m.thr.rowprog
    let acc : BitVec 2 := o.d.setWidth 2
    let mine := rp.getLsbD 63 && decide (fieldOf rp 57 56 = acc.toNat) && decide (fieldOf rp 55 32 = fieldOf m.thr.pc.int 25 2)
    let k0 := if mine then (if fieldOf rp 5 0 = 0 then fieldOf rp 31 16 else steps) else 0
    let ks := (List.range steps).drop k0
    let m := M.tileSteps acc fmt (m.xrm o) as bs ks m
    let m : M := { m with st := m.st.dropHeld m.thr.held, thr := { m.thr with rowprog := 0 } }
    let m ← m.matAcquire o
    pure (m.runFor [acc] (16 * ks.length))

/-! ## Scaling and moves (R375, R376) -/

def opMsacc (o : XOp) : Act := fun m => do
  let b := m.src o.x.b
  let c := m.src o.x.c
  matCap o.x.b b .ld
  checkBounds b b.cursor.toNat 128
  matCap o.x.c c .ld
  checkBounds c c.cursor.toNat 128
  checkAligned b.cursor.toNat 4
  checkAligned c.cursor.toNat 4
  stallIf m.acqPending
  let d : BitVec 2 := o.d.setWidth 2
  let a : BitVec 2 := o.a.setWidth 2
  m.onUnit (if o.x.x.getLsbD 1 then [d, a] else [d]) fun m => do
    let (m, rho) ← m.asUnit.matRead b b.cursor.toNat 128
    let (m, kap) ← m.matRead c c.cursor.toNat 128
    let m := m.asCore
    let rm := m.xrm o
    let num (x k : Nat) : Num := fp32.decode (x / 2 ^ (32 * k) % 2 ^ 32)
    let cells := (List.range 1024).map fun e =>
      let r := fSacc rm (fp32.decode (m.core.accWord d e).toNat) (m.core.accWord a e).toInt (num rho (e / 32)) (num kap (e % 32))
      (BitVec.ofNat 32 r.bits, r.flags)
    let m := m.putAcc d (cells.map (·.1)) (cells.foldl (fun f c => f ||| c.2) 0)
    let m := if o.x.x.getLsbD 1 then m.putAcc a [] 0 else m
    m.matAcquire o

def opMzero (o : XOp) : Act := fun m => m.onUnit [o.d.setWidth 2] fun m => .ok (m.putAcc (o.d.setWidth 2) [] 0)

/-- The stride of an accumulator move: a register's 64 bits. DEDUCED, log 27. -/
def moveStride (v : W64) : Except Stop Nat := do
  trapIf (v.toNat % 64 != 0) causeMatrix 2
  pure v.toNat

def opMldz (o : XOp) : Act := fun m => do
  let a := m.src o.a
  let st := (m.int o.x.b).toNat
  matCap o.a a .ld
  rowsIn a a.cursor.toNat st 128 32
  checkAligned a.cursor.toNat 64
  let st ← moveStride (m.int o.x.b)
  stallIf m.acqPending
  m.onUnit [o.d.setWidth 2] fun m => do
    let (m, rows) ← m.asUnit.matRows a a.cursor.toNat st 0 128 32
    let z := rows.flatMap fun r => (List.range 32).map fun j => BitVec.ofNat 32 (r / 2 ^ (32 * j))
    m.asCore.putAcc (o.d.setWidth 2) z 0 |>.matAcquire o

def opMstz (o : XOp) : Act := fun m => do
  let a := m.src o.a
  let st := (m.int o.x.b).toNat
  m.restartCheck a
  matCap o.a a .st
  rowsIn a a.cursor.toNat st 128 32
  checkAligned a.cursor.toNat 64
  let st ← moveStride (m.int o.x.b)
  stallIf m.acqPending
  m.onUnit [] fun m => do
    let m ← if o.x.ord.getLsbD 1 then m.release o.x.sc else pure m
    let gran (i h : Nat) : V512 := BitVec.ofNat 512 ((List.range 16).foldr (fun j acc => (m.core.accWord (o.d.setWidth 2) (32 * i + 16 * h + j)).toNat + 2 ^ 32 * acc) 0)
    let m ← (List.range 64).foldlM (fun (m : M) k => m.tileStore a (rowVa a.cursor.toNat st (k / 2) + 64 * (k % 2)) (gran (k / 2) (k % 2))) m.asUnit
    m.asCore.matAcquire o

/-- Element `j` of the half row or column that a selector names. -/
def accIndex (o : XOp) (j : Nat) : Nat :=
  let r := o.x.imm.toNat % 32
  let h := o.x.imm.toNat / 32 % 2
  if o.x.x.getLsbD 1 then 32 * (16 * h + j) + r else 32 * r + 16 * h + j

/-- The mask of an extended-only vector operation. -/
def M.xmask (m : M) (o : XOp) : W64 := if o.x.k = 0 then -1 else m.mask o.x.k

def opMrd (o : XOp) : Act := fun m => m.onUnit [] fun m =>
  let k := m.xmask o
  let old := m.vsrc o.d 4
  let v := ofElems 4 16 fun j =>
    if k.getLsbD (4 * j) then (m.core.accWord (o.a.setWidth 2) (accIndex o j)).toNat else if o.x.z then 0 else elem old 4 j
  .ok (m.vwrite o.d.toNat v)

def opMwr (o : XOp) : Act := fun m => m.onUnit [o.d.setWidth 2] fun m =>
  let k := m.xmask o
  let v := m.vsrc o.a 4
  let d : BitVec 2 := o.d.setWidth 2
  let z := (List.range 16).foldl (fun (z : List W32) j => if k.getLsbD (4 * j) then z.set (accIndex o j) (BitVec.ofNat 32 (elem v 4 j)) else z)
    ((List.range 1024).map (m.core.accWord d))
  .ok (m.putAcc d z 0)

/-! ## Recurrence (R380) -/

/-- The activations. -/
def activate (a : Nat) (rm : RMode) (p : FRes) : FRes :=
  let n := fp32.decode p.bits
  if n.isNan then ⟨fp32.nanBits, p.flags⟩
  else
    let r : FRes := match a with
      | 1 => fTanh fp32 rm n
      | 2 => fSigm fp32 rm n
      | 3 => ⟨if numLt (.fin false 0 0) n then p.bits else 0, 0⟩
      | 4 => ⟨if numLt n (.fin true 1 0) then 0xBF800000 else if numLt (.fin false 1 0) n then 0x3F800000 else p.bits, 0⟩
      | _ => ⟨p.bits, 0⟩
    ⟨r.bits, p.flags ||| r.flags⟩

/-- The weights' format and element size by T2. -/
def recFormat (t2 : BitVec 4) : FFmt × Nat :=
  match t2.toNat with
  | 0 => (fp32, 4)
  | 1 => (fp16, 2)
  | _ => (bf16, 2)

/-- Element `e` of a recurrence: kept where its row is masked, else the activated product of the addend `xs` and the weights `ws`. -/
def M.recCell (m : M) (o : XOp) (g : FFmt) (s xs ws e : Nat) : W32 × FFlags :=
  let masks := m.int o.x.c
  let rm := m.xrm o
  let d : BitVec 2 := o.d.setWidth 2
  let h (i k : Nat) : Num := if masks.getLsbD i then .fin false 0 0 else fp32.decode (m.core.accWord d (32 * i + k)).toNat
  let w (j k : Nat) : Num := g.decode (ws / 2 ^ (8 * s * (32 * j + k)) % 2 ^ (8 * s))
  let i := e / 32
  let j := e % 32
  if masks.getLsbD (32 + i) then (m.core.accWord d e, 0)
  else
    let p := fDot fp32 rm (fp32.decode (xs / 2 ^ (32 * e) % 2 ^ 32)) ((List.range 32).map fun k => nMul (h i k) (w j k))
    let r := activate (o.x.imm.toNat % 8) rm p
    (BitVec.ofNat 32 r.bits, r.flags)

/-- DEDUCED, log 27. -/
def opMrec (o : XOp) : Act := fun m => do
  let a := m.src o.a
  let b := m.src o.x.b
  let (g, s) := recFormat o.x.t2
  matCap o.a a .ld
  checkBounds a a.cursor.toNat 4096
  matCap o.x.b b .ld
  checkBounds b b.cursor.toNat (1024 * s)
  checkAligned a.cursor.toNat 64
  stallIf m.acqPending
  m.onUnit [o.d.setWidth 2] fun m => do
    let (m, xs) ← m.asUnit.matRead a a.cursor.toNat 4096
    let (m, ws) ← m.matRead b b.cursor.toNat (1024 * s)
    let m := m.asCore
    let f := M.recCell m o g s xs ws
    let m ← (m.putAcc (o.d.setWidth 2) ((List.range 1024).map fun e => (f e).1) ((List.range 1024).foldl (fun x e => x ||| (f e).2) 0)).matAcquire o
    pure (m.runFor [o.d.setWidth 2] 40)

/-! ## Remote matrix commands (R377–R379) -/

def opMcmdGrant (o : XOp) : Act := fun m =>
  let bits : Nat := m.core.team % 2 ^ 24 + m.core.launch.toNat * 2 ^ 24 + o.x.imm.toNat % 16 * 2 ^ 40 + 3 * 2 ^ 104 + 5 * 2 ^ 118
  .ok (m.wr o.d ⟨BitVec.ofNat 128 bits, true⟩)

/-- The target's answer: accepted, refused with a status, or its queue of eight is full. -/
inductive MxAnswer where
  | accepted (s : State)
  | refused (st : BitVec 4)
  | busy

/-- The target of a command accepts or refuses it (R378); `die` is the sender's. -/
def State.acceptMatrix (s : State) (c : MatrixCmd) (die : Nat) : MxAnswer :=
  match s.launch? c.launch with
  | none => .refused stKey
  | some l =>
    if l.phase = .free then .refused stKey
    else if l.ctx ≠ c.ctx then .refused stPerm
    else match s.coreOf? c.launch c.team with
      | none => .refused stNoEp
      | some t =>
        if t.die ≠ die ∨ t.exiting ∨ t.stopping then .refused stNoEp
        else if (s.die t.die).sealedCores.contains t.id then .refused stSealed
        else if !t.lrec.matrix then .refused stPerm
        else
          let q := s.quad t.quadId
          if q.remq.length ≥ 8 then .busy
          else
            let s := s.setCore { t with zpend := bitOn t.zpend c.acc.toNat }
            .accepted ((s.setQuad { q with remq := q.remq ++ [c] }).unitNext t.quadId)

/-- The checks of a command at its sender (R378): the capability, the operands of a multiplication, the accumulator and the permission. DEDUCED, log 27. -/
def M.cmdChecks (m : M) (o : XOp) : Except Stop Unit :=
  let op := o.x.imm.toNat % 4
  let a := m.src o.a
  let d := mdesc (m.int o.x.e)
  let bytes := if op = 1 then 32 * d.nk else 192 * d.nk
  let allowed (k : Nat) : Except Stop Unit := trapIf (!a.bits.getLsbD (40 + o.d.toNat) || !a.bits.getLsbD k) causeMatrix 5
  if op = 2 then do
    checkCap o.a a [5] []
    allowed 105
  else do
    checkCap o.a a [5] []
    let b := m.src o.x.b
    let c := m.src o.x.c
    matCap o.x.b b .ld
    rowsIn b b.cursor.toNat d.sa bytes 32
    matCap o.x.c c .ld
    rowsIn c c.cursor.toNat d.sb bytes 32
    checkAligned b.cursor.toNat 64
    checkAligned c.cursor.toNat 64
    trapIf (!d.ok) causeMatrix 2
    allowed 104

/-- The command that is sent. -/
def M.matrixCmd (m : M) (o : XOp) : MatrixCmd where
  op := BitVec.ofNat 2 (o.x.imm.toNat % 4)
  fmt := o.x.t2
  acc := o.d.setWidth 2
  a := m.src o.x.b
  b := m.src o.x.c
  desc := m.int o.x.e
  rm := if o.x.x.getLsbD 0 then o.x.rm else m.thr.fpctl.setWidth 2
  launch := (m.src o.a).bits.extractLsb' 24 16
  team := bitsN (m.src o.a).bits.toNat 23 0
  ctx := m.core.ctx
  core := m.core.id
  thr := m.tid.val

/-- DEDUCED, log 27. -/
def opMcmd (o : XOp) : Act := fun m => do
  m.cmdChecks o
  stallIf m.acqPending
  let m ← if o.x.ord.getLsbD 1 then m.release o.x.sc else pure m
  match m.flush.acceptMatrix (m.matrixCmd o) m.core.die with
  | .refused st => .error (.trap causeMatrix (BitVec.ofNat 64 (6 + st.toNat * 256)) [])
  | .busy => .error .stall
  | .accepted s =>
    let m := m.reload s
    pure { m with thr := { m.thr with mcmdOut := m.thr.mcmdOut + 1 } }

/-- The remote command in progress. -/
def Quad.cmd? (q : Quad) : Option MatrixCmd :=
  match q.act with
  | some (.cmd c) => some c
  | _ => none

def opMwait (_ : XOp) : Act := fun m => do
  let q := m.st.quad m.core.quadId
  let mine (c : MatrixCmd) : Bool := c.launch == m.core.launch && decide (c.team = m.core.team)
  stallIf (m.thr.mcmdOut != 0 || q.remq.any mine || q.cmd?.elim false mine)
  match m.thr.mcmdErr with
  | some st => .error (.kept { m with thr := { m.thr with mcmdErr := none } } causeMatrix (BitVec.ofNat 64 (6 + st.toNat * 256)))
  | none => m.acquire 0

/-- The command of a quad's unit, with its target and the target's accumulator as the unit's master sees it. -/
def State.unitM (s : State) (c : MatrixCmd) : Option M :=
  (s.coreOf? c.launch c.team).map fun t => { (s.asM t 0) with cls := 2 }

/-- A remote command's K-step (R378, R379): more follow, the command is done, or it ended with a fault's status. -/
inductive KRes where
  | more (s : State)
  | done (s : State)
  | fault (s : State) (st : BitVec 4)
  | retry (s : State)
  /-- It waits for a service. -/
  | waits (s : State)

def MatrixCmd.job (c : MatrixCmd) : MulJob :=
  let d := mdesc c.desc
  let bytes := if c.op = 1 then 32 * d.nk else 192 * d.nk
  { acc := c.acc, fmt := if c.op = 1 then .qn4 else MFmt.ofT2 c.fmt.toNat, rm := RMode.ofCode c.rm, a := c.a, b := c.b
    base := c.a.cursor.toNat, sa := d.sa, sb := d.sb, bytes := bytes, steps := (bytes + 191) / 192
    groups := [{ lo := 0, n := 32, b := c.b.cursor.toNat }] }

/-- Step `k` of a remote command. -/
def State.remoteStep (s : State) (c : MatrixCmd) (k : Nat) : KRes :=
  match s.unitM c with
  | none => .done s
  | some m =>
    if c.op = 2 then .done (m.putAcc c.acc [] 0).flush
    else
      let j := MatrixCmd.job c
      match m.mulStep j { lo := 0, n := 32, b := c.b.cursor.toNat } k with
      | .ok m' => if k + 1 < j.steps then .more m'.flush else .done m'.flush
      | .error (.trap cause _ recs) =>
        let s := recs.foldl (fun s r => s.fault r.die r.kind r.code r.ctx r.addr r.aux32 r.aux64) s
        .fault s (if cause = causeNotMapped then stNotMapped else stPerm)
      | .error (.poison s) => .fault (s.post (.launchTermination c.launch 1 0x10 (some c.team))) stPoison
      | .error (.service va code w f) => .waits (s.openService m.core.die m.core.ctx va code w f fun x => { x with units := x.units ++ [m.core.quadId] }).1
      | .error _ => .retry s

/-- The command ends: the accumulator is free, the sender is told. -/
def State.unitEnd (s : State) (qid : Nat) (c : MatrixCmd) (st : Option (BitVec 4)) : State :=
  let s := s.setQuad { s.quad qid with act := none, steps := 0 }
  let s := match s.coreOf? c.launch c.team with
    | some t => s.setCore { t with zpend := bitOff t.zpend c.acc.toNat }
    | none => s
  let s := match s.core? c.core with
    | some k =>
      let f (t : Thread) : Thread := { t with mcmdOut := t.mcmdOut - 1, mcmdErr := st.orElse fun _ => t.mcmdErr }
      s.setCore { k with thr := k.thr.set (Fin.ofNat 8 c.thr) (f (k.thr.get (Fin.ofNat 8 c.thr))) }
    | none => s
  s.unitNext qid

end

end Sys2Proof.Machine
end

