-- ==== Sys2Proof/Machine/Sched.lean ====
section
/-!
DEFINITION. Launches (R111–R119, R128, R129, R390, R410): records and their checks, acceptance, gates, the initial state of a team,
the completion action, restart and termination.
-/
namespace Sys2Proof.Machine
open Sys2Proof

noncomputable section

/-! ## Records and descriptors (R111, R112) -/

/-- Bits [hi:lo] of a launch record. -/
def LRec.of (v : Nat) : LRec where
  format := BitVec.ofNat 8 (bitsN v 7 0)
  prio := bitsN v 29 24
  diemask := BitVec.ofNat 8 (bitsN v 39 32)
  restart := bitsN v 40 40 = 1
  cores := bitsN v 41 41 = 1
  calls := bitsN v 42 42 = 1
  logged := bitsN v 43 43 = 1
  irq := bitsN v 44 44 = 1
  cver := bitsN v 45 45 = 1
  matrix := bitsN v 46 46 = 1
  n := bitsN v 87 64 + 1
  nthr := bitsN v 90 88 + 1
  vrows := bitsN v 94 92 + 1
  groupmask := BitVec.ofNat 32 (bitsN v 127 96)
  localk := bitsN v 136 128
  stack := bitsN v 159 144
  ngate := bitsN v 162 160
  entry := BitVec.ofNat 64 (bitsN v 255 192)
  dbase := BitVec.ofNat 64 (bitsN v 319 256)
  dlen := BitVec.ofNat 64 (bitsN v 383 320)
  gates := (List.range 4).map fun k => BitVec.ofNat 64 (v / 2 ^ (384 + 64 * k))
  ctarget := BitVec.ofNat 64 (bitsN v 703 640)
  cval := BitVec.ofNat 64 (bitsN v 767 704)
  creaders := BitVec.ofNat 16 (bitsN v 783 768)
  args := (List.range 6).map fun k => BitVec.ofNat 64 (v / 2 ^ (832 + 64 * k))
  reservedOk := decide (bitsN v 2047 1216 = 0 ∧ bitsN v 831 784 = 0 ∧ bitsN v 191 163 = 0 ∧ bitsN v 143 137 = 0 ∧ bitsN v 95 95 = 0 ∧
    bitsN v 91 91 = 0 ∧ bitsN v 63 47 = 0 ∧ bitsN v 31 30 = 0 ∧ bitsN v 23 8 = 0)

/-- A context's descriptor as the Zenith core reads it. -/
def State.ctxDesc (s : State) (ctx : BitVec 6) : CtxDesc :=
  let a := placeNow s (fieldOf s.ctxtb 51 12 * 4096 + 64 * ctx.toNat)
  let v := s.readPa a 64 0
  { datacap := ⟨BitVec.ofNat 128 (v / 2 ^ 384), s.tagAt (a + 48)⟩, codecap := ⟨BitVec.ofNat 128 (v / 2 ^ 256), s.tagAt (a + 32)⟩
    savebase := bitsN v 243 208 * 2 ^ 16, trapvec := BitVec.ofNat 64 (v / 2 ^ 128), ptroot := bitsN v 115 78, saven := bitsN v 63 48
    ckey := BitVec.ofNat 10 (bitsN v 37 28), ceil := bitsN v 21 16, v := bitsN v 0 0 = 1 }

/-- The reserve of a team's local memory (R113). -/
def LRec.res (r : LRec) : Nat :=
  let n := 2048 + (if r.matrix then 16384 else 0) + r.nthr * (1024 + r.vrows * 384)
  (n + 1023) / 1024 * 1024

/-! ## Acceptance (R114) -/

/-- The cores that a record's masks allow, active and not sealed (R120). -/
def State.permitted (s : State) (r : LRec) : List Nat :=
  (List.range 8).flatMap fun d =>
    if r.diemask.getLsbD d then ((s.die d).activeCores d).filter fun p => r.groupmask.getLsbD (p / 16 % 64 / 2) else []

/-- A versioned tile in gate format: name, version, module. -/
def gateOf (w : W64) : Nat × Nat × BitVec 16 := (fieldOf w 31 0, fieldOf w 47 32, BitVec.ofNat 16 (fieldOf w 63 48))

/-- A gate or a completion version that cannot be reached: a module of code 0, or a name that no version table can hold (R188). -/
def State.gateBad (s : State) (die : Nat) (w : W64) : Bool :=
  let (n, _, mdl) := gateOf w
  scopeCode s die mdl == 0 || decide (n / 2 ^ 12 % 2 ^ 11 ≠ 0)

/-- The failure code of a record, 0 when every check passes. DEDUCED, log 28. -/
def State.launchCode (s : State) (die : Nat) (desc : CtxDesc) (r : LRec) : Nat :=
  let e := r.entry.toNat
  if r.format ≠ 1 ∨ !r.reservedOk ∨ !canonical e ∨ 4 < r.ngate ∨ r.cval.getLsbD 63 ∨ (!r.cver ∧ r.ctarget.toNat % 8 ≠ 0) then 1
  else if !desc.v ∨ !s.ctxtb.getLsbD 0 then 2
  else if desc.ceil < r.prio then 3
  else if 0x3C000 - r.res < r.localk * 1024 ∨ (r.calls ∧ r.nthr ≠ 8) ∨ r.localk * 1024 < r.stack * 16 * r.nthr then 4
  else if !desc.codecap.tag ∨ !desc.datacap.tag ∨ e < desc.codecap.base ∨ desc.codecap.top < e + 4
      ∨ (r.dlen ≠ 0 ∧ (r.dbase.toNat < desc.datacap.base ∨ desc.datacap.top < r.dbase.toNat + r.dlen.toNat)) then 5
  else if r.diemask = 0 ∨ r.groupmask = 0 ∨ s.permitted r = [] then 6
  else if r.cores ∧ (s.permitted r).length < r.n then 7
  else if r.restart ∧ (r.calls ∨ r.logged) then 8
  else if (r.gates.take r.ngate).any (s.gateBad die) ∨ (r.cver ∧ s.gateBad die r.ctarget) then 9
  else 0

/-- The failure value (R115). -/
def failValue (l : BitVec 16) (code : Nat) : W64 := BitVec.ofNat 64 (2 ^ 63 + l.toNat * 2 ^ 16 + code)

def launchHome (l : BitVec 16) : Nat := l.toNat / 256 % 8

/-- A launch's home entry changed. -/
def State.setLaunch (s : State) (l : BitVec 16) (f : Launch → Launch) : State :=
  s.setDie (launchHome l) fun d => { d with launches := update (fun x => x.id == l) f d.launches }

/-- Entries of a die's launch table in use (R116). -/
def State.entries (s : State) (die : Nat) : Nat :=
  ((s.dies.toList.flatMap (·.launches)).filter fun l =>
    l.phase != .free && (decide (launchHome l.id = die) || l.lrec.diemask.getLsbD die)).length

/-- Every needed entry, and an entry of the region table, is free. -/
def State.launchRoom (s : State) (home : Nat) (r : LRec) : Bool :=
  ((List.range 8).all fun d => !(decide (d = home) || r.diemask.getLsbD d) || decide (s.entries d < 256)) && s.regionFree.isSome

/-- The Zenith core of a die as an endpoint of this module (R74). -/
def State.zenith (s : State) (die : Nat) : BitVec 32 := BitVec.ofNat 32 (s.modid.toNat * 2 ^ 16 + die * 2 ^ 13 + 1100)

/-- A request of a dispatcher to another module's tile home: operation, what it is for (1 a gate, 2 a completion version), the number it is
answered by. DESIGN CHOICE, log 27. -/
def State.dispatcherAsk (s : State) (die : Nat) (op size : Nat) (tag : Nat) (num : BitVec 16) (w : W64) : Packet :=
  let (n, v, mdl) := gateOf w
  { kind := kTile, vn := 0, mode := BitVec.ofNat 8 op, tag := BitVec.ofNat 10 tag, size := BitVec.ofNat 3 size, seq := num, scope := 4
    addr := BitVec.ofNat 64 (n + v * 2 ^ 32), src := s.zenith die, dst := mdl ++ BitVec.ofNat 16 (nameDie n * 2 ^ 13 + 1093) }

/-- A gate registered at its home (R118): a version that exists, whether LIVE or RECLAIMED, satisfies it; PUBLISHING does not. DESIGN CHOICE
of RECLAIMED above W, log 28. -/
def State.registerGate (s : State) (l : BitVec 16) (w : W64) : State :=
  let (n, v, mdl) := gateOf w
  if ownModule s mdl then
    match s.tname? n with
    | none => s.post (.launchTermination l 2 0x09 none)
    | some x =>
      if !x.live then s.post (.launchTermination l 2 0x09 none)
      else if 2 ≤ x.stateOf v then s.post (.gateSatisfied l)
      else if s.waitRoom n then s.setTname n fun x => { x with waits := x.waits ++ [{ ver := v, who := .gate l, kind := .wait }] }
      else
        let tries := (s.launch? l).elim 0 (·.tries)
        (s.setLaunch l fun x => { x with tries := x.tries + 1 }).after (retryAfter tries) (.versionWaitRegister n v (launchPublisher l))
  else s.route (launchHome l) (s.dispatcherAsk (launchHome l) 5 1 1023 l w)

/-- Teams that a launch still has to bind. -/
def Launch.left (l : Launch) : Nat := l.lrec.n - l.next + (l.saved.filter (·.core.isNone)).length + l.redo.length

/-- Whether the next team of a launch may be bound to a core: a new run of a restartable team takes another core than the failed run (R128). -/
def Launch.fits (l : Launch) (p : Nat) : Bool := l.redo.head?.elim true fun r => decide (r.2.1 ≠ p)

/-- A core that no team runs on and no launch holds reserved; `l` may take cores reserved for lower priorities (R122). DESIGN CHOICE, log 6. -/
def State.coreFree (s : State) (l : Launch) (p : Nat) : Bool :=
  (s.core? p).isNone && !s.dies.toList.any fun d => d.launches.any fun x =>
    x.saved.any (·.core == some p) || (x.reserved.contains p && x.id != l.id && !(x.lrec.cores && decide (x.prio < l.prio)))

def State.freeCores (s : State) (l : Launch) : List Nat := (s.permitted l.lrec).filter fun p => s.coreFree l p && l.fits p

/-- A launch that has teams to bind: free cores are examined, and victims when there are none (R120, R123). DEDUCED, log 28. -/
def State.kick (s : State) (l : BitVec 16) : State :=
  match s.launch? l with
  | none => s
  | some x =>
    let s := ((s.freeCores x).take x.left).foldl (fun s p => s.post (.dispatchCoreFree (p / 1024) p)) s
    s.post (.preemption l)

def State.enterDispatch (s : State) (l : BitVec 16) : State := (s.setLaunch l fun x => { x with phase := .dispatching }).kick l

/-- An accepted record (R116): entries, the `LAUNCH` value, the window's key, the gates. -/
def State.acceptLaunch (s : State) (home : Nat) (ctx : BitVec 6) (desc : CtxDesc) (r : LRec) : State × BitVec 16 :=
  let d := s.die home
  let idx := ((List.range 256).find? fun i => !d.launches.any fun x => decide (x.id.toNat % 256 = i) && x.phase != .free).getD 0
  let gen : BitVec 5 := match d.lgen.find? fun x => decide (x.1 = idx) with
    | some (_, g) => g + 1
    | none => 0
  let id : BitVec 16 := gen ++ BitVec.ofNat 3 home ++ BitVec.ofNat 8 idx
  let k := s.regionFree.getD 0
  let rgen := ((s.die home).region 3 k).gen
  let region : Region := { length := BitVec.ofNat 64 (r.n * 0x40000), ctx := ctx, perm := if r.calls then 0b11111 else 0b01111, gen := rgen, v := true }
  let l : Launch := { id := id, ctx := ctx, lrec := r, desc := desc, gatesLeft := r.ngate
                      gatesOut := (r.gates.take r.ngate).filter (fun w => !ownModule s (gateOf w).2.2), prio := r.prio, key := keyValue k rgen
                      seq := s.accepted }
  let s := { (s.regionAll k region) with accepted := s.accepted + 1 }
  let s := s.setDie home fun d => { d with launches := d.launches.filter (fun x => decide (x.id.toNat % 256 ≠ idx)) ++ [l]
                                           lgen := (idx, gen) :: d.lgen.filter fun x => decide (x.1 ≠ idx) }
  let s := (r.gates.take r.ngate).foldl (fun s w => s.registerGate id w) s
  (if r.ngate = 0 then s.enterDispatch id else s, id)

/-! ## The completion action (R103, R410) -/

/-- What delivering a value leads to. -/
inductive Delivery where
  | done (s : State)
  /-- Not deliverable, with the cause of record 0x51. -/
  | failed (s : State) (cause : BitVec 8)
  /-- A service, or the publish parked at the home. -/
  | waits (s : State)

/-- A value for a completion word (CVER = 0): `stfe.sf` at the common level by a class-5 master, which no access table refuses. The failure
value of a record rejected because CTARGET is not 8-byte aligned is stored at the address it names. DESIGN CHOICE, log 28. -/
def State.deliverWord (s : State) (die : Nat) (ctx : BitVec 6) (root : Nat) (r : LRec) (v : W64) (rejected : Bool) (id : BitVec 16) : Delivery :=
  let va := r.ctarget.toNat
  if !canonical va then .failed s causeNotMapped
  else match walk s root (va % 2 ^ 56) with
    | .page pa w0 w1 _ _ =>
      if paKind s pa == .hole then .failed s causeNotMapped
      else if !w0.getLsbD 5 ∨ !(paKind s pa).isMem then .failed s causePagePerm
      else if !hasMeta s pa then .failed s causeNoMeta
      else
        let acc : PortAccess := { pa := pa, size := 8, kind := .stfe 0, data := v.setWidth 128, key := keyIndex w1.toNat, master := ⟨ctx, true, 5⟩ }
        match (s.yieldLine pa).portExec acc with
        | .done s _ _ => .done s
        | .parked s | .refused s | .poison s => .failed s causePagePerm
    | .invalid lvl t => service (t + 16 * lvl)
    | .pending lvl => service (4 + 16 * lvl)
    | .retired _ => .failed s causeNotMapped
    | .malformed lvl t ea => .failed (s.fault die 0x76 (t + 16 * lvl) ctx.toNat va 0 ea) causeNotMapped
where
  /-- The action waits for a page. -/
  service (code : Nat) : Delivery :=
    .waits (s.openService die ctx r.ctarget.toNat code true false fun x =>
      { x with finishing := if x.finishing.contains (rejected, id) then x.finishing else x.finishing ++ [(rejected, id)] }).1

/-- The granule of a completion version. -/
def completionTile (v : W64) : V512 := v.setWidth 512

/-- A value as a version (CVER = 1), published as `tvst` does; only a launch's publish parks. -/
def State.deliverVersion (s : State) (die : Nat) (r : LRec) (v : W64) (rejected : Bool) (id : BitVec 16) : Delivery :=
  let (n, ver, mdl) := gateOf r.ctarget
  let readers := readersOf r.creaders.toNat
  if scopeCode s die mdl = 0 then .failed s 0
  else if !ownModule s mdl then
    let p := s.dispatcherAsk die (if rejected then 130 else 2) 2 (if rejected then 1022 else 1023) id r.ctarget
    let gen := BitVec.ofNat 4 (if rejected then 0 else (s.launch? id).elim 0 (·.attempt))
    .waits (s.send { p with aux := r.creaders, gen := gen, len := 4, payload := granuleWords (completionTile v) })
  else match s.tname? n with
    | none => .failed s causeStaleHandle
    | some x =>
      if !x.live then .failed s causeStaleHandle
      else if ver ≤ x.w ∨ x.stateOf ver ≠ 0 then .failed s causeVersionExists
      else match if x.w + 16 < ver then none else s.acceptPublish n ver none readers with
        | some s => .done (s.publishEnd x.ref ver readers [completionTile v])
        | none =>
          if rejected then .failed s causeVersionWindow
          else if s.waitRoom n then .waits (s.setTname n fun x => { x with waits := x.waits ++ [{ ver := ver, who := .finish id, kind := .publish }] })
          else
            let tries := (s.launch? id).elim 0 (·.tries)
            .waits ((s.setLaunch id fun l => { l with tries := l.tries + 1 }).after (retryAfter tries) (.versionPublishRequest n ver (launchPublisher id)))

def State.deliver (s : State) (die : Nat) (ctx : BitVec 6) (root : Nat) (r : LRec) (v : W64) (rejected : Bool) (id : BitVec 16) : Delivery :=
  if r.cver then s.deliverVersion die r v rejected id else s.deliverWord die ctx root r v rejected id

/-- The completion interrupt (R103). VEC has 8 bits and R95 names 0–63: a value above is sent as the vector of that number. DESIGN CHOICE,
log 35. -/
def State.completionIrq (s : State) (ctx : BitVec 6) (r : LRec) : State :=
  let h := s.hctx.get ctx.toFin
  if r.irq && h.getLsbD 2 then s.msix (fieldOf h 1 1) (fieldOf h 10 3) else s

/-- Threads that wait for a launch (R390). -/
def State.launchWaiters (s : State) (l : BitVec 16) : List ThrId :=
  let cores := s.cores ++ (s.dies.toList.flatMap (·.launches)).flatMap fun x => x.saved.map (·.image)
  cores.flatMap fun c => (List.range 8).filterMap fun t => match (c.thr.get (Fin.ofNat 8 t)).run with
    | .parked (.launch k) _ => if k = l then some ⟨c.launch, c.team, t⟩ else none
    | _ => none

/-- The launch becomes FREE (R117): waiters have the value, slots that wait for an entry are offered again. -/
def State.launchFree (s : State) (l : BitVec 16) : State :=
  match s.launch? l with
  | none => s
  | some x =>
    let s := s.setLaunch l fun x => { x with phase := .free, ending := false, saved := [], redo := [], reserved := [] }
    let s := (s.launchWaiters l).foldl (fun s t => s.finishThread t (some (Cap.ofInt x.result))) s
    s.offerSlots

/-- A completion action that has delivered its value, or cannot: the record, the interrupt, FREE. -/
def State.actionEnd (s : State) (l : BitVec 16) (failed : Option (BitVec 8)) : State :=
  match s.launch? l with
  | none => s
  | some x =>
    let s := match failed with
      | some c => s.fault (launchHome l) 0x51 c.toNat x.ctx.toNat x.lrec.ctarget.toNat l.toNat x.result.toNat
      | none => s
    (s.completionIrq x.ctx x.lrec).launchFree l

/-- The completion action of a launch, begun or begun again after a wait. -/
def State.action (s : State) (l : BitVec 16) : State :=
  match s.launch? l with
  | none => s
  | some x =>
    if !x.ending then s
    else match s.deliver (launchHome l) x.ctx x.desc.ptroot x.lrec x.result false l with
      | .done s => s.actionEnd l none
      | .failed s c => s.actionEnd l (some c)
      | .waits s => s

/-- What a completion action waits for is withdrawn: its publish, or its page (R117). -/
def State.cancelAction (s : State) (l : BitVec 16) : State :=
  match s.launch? l with
  | none => s
  | some x =>
    let s : State := { s with dies := s.dies.map fun d => { d with
      names := d.names.map fun n => { n with waits := n.waits.filter fun w => w.who != .finish l }
      services := d.services.map fun y => { y with finishing := y.finishing.filter fun f => f != (false, l) } } }
    if x.lrec.cver ∧ !ownModule s (gateOf x.lrec.ctarget).2.2 then s.send (s.dispatcherAsk (launchHome l) 149 2 1023 l x.lrec.ctarget) else s

/-- Every team's release has arrived, or the launch is terminated: the key is revoked and the value delivered. -/
def State.complete (s : State) (l : BitVec 16) (v : W64) : State :=
  match s.launch? l with
  | none => s
  | some x => (((s.revokeKey x.key).setLaunch l fun x => { x with result := v, ending := true }).action l)

/-- A rejected record's delivery has ended. -/
def State.rejectEnd (s : State) (die : Nat) (r : Reject) (failed : Option (BitVec 8)) : State :=
  let s := s.setDie die fun d => { d with rejects := d.rejects.filter fun x => decide (x.num ≠ r.num) }
  let s := match failed with
    | some c => s.fault die 0x51 c.toNat r.ctx.toNat r.lrec.ctarget.toNat 0 r.value.toNat
    | none => s
  s.completionIrq r.ctx r.lrec

/-- The delivery of a rejected record, begun or begun again. -/
def State.rejectAction (s : State) (die : Nat) (num : BitVec 16) : State :=
  match (s.die die).rejects.find? fun x => x.num == num with
  | none => s
  | some r => match s.deliver die r.ctx r.desc.ptroot r.lrec r.value true num with
    | .done s => s.rejectEnd die r none
    | .failed s c => s.rejectEnd die r (some c)
    | .waits s => s

/-- A rejected record (R114): record 0x50, and the failure value unless the context is invalid. DEDUCED, log 28. -/
def State.reject (s : State) (die : Nat) (ctx : BitVec 6) (desc : CtxDesc) (r : LRec) (code addr : Nat) (deliver : Bool := true) : State :=
  let s := s.fault die 0x50 code ctx.toNat addr
  if code = 2 ∨ !deliver then s
  else
    let num := ((List.range 65536).find? fun k => !(s.die die).rejects.any fun x => decide (x.num.toNat = k)).getD 0
    let x : Reject := { num := BitVec.ofNat 16 num, ctx := ctx, lrec := r, desc := desc, value := failValue 0 code }
    (s.setDie die fun d => { d with rejects := d.rejects ++ [x] }).rejectAction die (BitVec.ofNat 16 num)

/-! ## Binding a team (R116, R120) -/

/-- The data capability of a team's threads at their start; narrowed to the data window, its cursor is at DBASE. DESIGN CHOICE of the cursor,
log 28. -/
def startData (desc : CtxDesc) (r : LRec) : Cap :=
  let c := desc.datacap
  let c := if r.dlen = 0 then c else (c.setCursor r.dbase).setBounds r.dbase.toNat (r.dbase.toNat + r.dlen.toNat)
  if r.restart then ⟨c.bits &&& ~~~(BitVec.ofNat 128 (2 ^ permST + 2 ^ permTGW + 2 ^ permATOM + 2 ^ permFE)), c.tag⟩ else c

def startThread (l : Launch) (k : Nat) : Thread :=
  let r := l.lrec
  let win := mkWindow 6 (if r.calls then 0b11111 else 0b01111) 0xFFFF l.key 0
  let stack := mkCap 1 0 (r.localk * 1024) (BitVec.ofNat 64 (r.localk * 1024 - k * r.stack * 16)) localPerm
  let c : Vector Cap 32 := Vector.ofFn fun i =>
    if i.val = 1 then startData l.desc r
    else if i.val = 2 then win
    else if 3 ≤ i.val ∧ i.val ≤ 8 then Cap.ofInt (r.args.getD (i.val - 3) 0)
    else if i.val = 31 then stack
    else Cap.zero
  { c := c, pc := l.desc.codecap.setCursor r.entry, trapvec := l.desc.trapvec, logOn := r.logged, run := if r.calls ∧ k = 7 then .call else .ready }

/-- A core at the start of a team. -/
def startCore (s : State) (l : Launch) (core team : Nat) (rprev : List (BitVec 16 × Nat × Nat)) : Core :=
  { id := core, launch := l.id, team := team, ctx := l.ctx, lrec := l.lrec, desc := l.desc
    thr := Vector.ofFn fun i => if i.val < l.lrec.nthr then { startThread l i.val with idleAt := s.now } else {}
    vrows := l.lrec.vrows, ceil := l.lrec.vrows, rprev := rprev }

/-- Tickets for a team that was not bound: the requesters are told to replay, in ticket order (R82, R164). -/
def State.replayTeam (s : State) (l : BitVec 16) (team : Nat) : State :=
  let mine (t : GwTicket) : Bool :=
    !t.svc && !t.told && t.named.isNone && windowLaunch s t.req.rkey == l && decide (t.req.addr.toNat / 0x40000 = team)
  (List.range 8).foldl (fun s d => ((s.die d).gwTickets.filter mine).foldl (fun s t => s.tellTicket d t.gw t.num stOk) s) s

/-- A core bound: the record is placed with the core's own counts, the acquire at `.mod` made (R212), a requester of the team told. -/
def State.bound (s : State) (c : Core) : State :=
  let u := s.unit c.id
  let c := { c with p := u.p, late := u.late, sundogC := u.sundogC }
  let s : State := { s with cores := s.cores.filter (fun x => decide (x.id ≠ c.id)) ++ [c], units := s.units.filter fun x => decide (x.id ≠ c.id) }
  (s.acquireNow c 4).replayTeam c.launch c.team

/-- DISPATCHING with nothing left to bind becomes RUNNING (R117). -/
def State.settlePhase (s : State) (l : BitVec 16) : State :=
  s.setLaunch l fun x => if x.phase = .dispatching ∧ x.left = 0 then { x with phase := .running } else x

/-- The launches that can use a core now (R120): co-resident ones hold it for the whole of their teams. -/
def State.cands (s : State) (p : Nat) : List Launch :=
  (s.dies.toList.flatMap (·.launches)).filter fun l =>
    l.phase == .dispatching && !l.ending && l.left != 0 && (s.permitted l.lrec).contains p && s.coreFree l p && l.fits p && !l.reserved.contains p

/-- The next launch of a priority after `RRLAST`, in acceptance order. -/
def nextAfter (last : Option Nat) (ls : List Launch) : Option Launch :=
  let least (ls : List Launch) : Option Launch := ls.foldl (fun b l => match b with
    | none => some l
    | some x => if l.seq < x.seq then some l else b) none
  match last with
  | none => least ls
  | some k => (least (ls.filter fun l => decide (k < l.seq))).orElse fun _ => least ls

/-- A free core found for a launch and its request sent to the home die (R120); the launches that do not get it may need victims (R123). -/
def State.dispatch (s : State) (die p : Nat) : State :=
  match s.cands p with
  | [] => s
  | ls =>
    let pr := ls.foldl (fun b l => Nat.max b l.prio) 0
    let last := ((s.die die).rrlast.find? fun x => decide (x.1 = pr)).map (·.2)
    match nextAfter last (ls.filter fun l => decide (l.prio = pr)) with
    | none => s
    | some l =>
      let s := s.setDie die fun d => { d with rrlast := (pr, l.seq) :: d.rrlast.filter fun x => decide (x.1 ≠ pr) }
      let s : State := { s with
        dies := s.dies.map fun d => { d with launches := d.launches.map fun x => { x with reserved := x.reserved.erase p } } }
      let s := (s.setLaunch l.id fun x => { x with reserved := x.reserved ++ [p] }).post (.bindRequest l.id p)
      (ls.filter fun x => x.id != l.id).foldl (fun s x => s.post (.preemption x.id)) s

/-- A team chosen for binding (`Bind`), and bound to a core. DEDUCED, log 28. -/
def State.bindNext (s : State) (l : Launch) (p : Nat) : Option State :=
  let s := s.setLaunch l.id fun x => { x with reserved := x.reserved.erase p }
  match l.redo with
  | (t, old, prev) :: rest =>
    if old = p then none
    else some ((((s.setLaunch l.id fun x => { x with redo := rest }).bound (startCore s l p t prev)).settlePhase l.id).kick l.id)
  | [] => match (l.saved.filter (·.core.isNone)).foldl (fun (b : Option Nat) v => some (b.elim v.team (Nat.min v.team))) none with
    | some t => some (((s.post (.teamRestore l.id t p)).setLaunch l.id fun x => { x with
        saved := x.saved.map fun v => if v.team = t then { v with core := some p } else v }).settlePhase l.id)
    | none =>
      if l.next < l.lrec.n then
        some (((s.setLaunch l.id fun x => { x with next := x.next + 1 }).bound (startCore s l p l.next [])).settlePhase l.id)
      else none

/-- A co-resident launch's teams bound in ascending order in a single step (R122). -/
def State.bindAll : Nat → BitVec 16 → State → State
  | 0, _, s => s
  | f + 1, l, s => match s.launch? l with
    | none => s
    | some x => match x.reserved with
      | [] => s
      | p :: _ => match s.bindNext x p with
        | some s => State.bindAll f l s
        | none => s

/-! ## Ends of teams (R119, R128, R129, R206) -/

/-- The threads of a team. -/
def teamThreads (l : BitVec 16) (team : Nat) : List ThrId := (List.range 8).map fun t => ⟨l, team, t⟩

def Waiter.ofTeam (l : BitVec 16) (team : Nat) : Waiter → Bool
  | .thread t => t.launch == l && decide (t.team = team)
  | _ => false

/-- The wait registrations, retry-list entries, services and queued tenure requests of a team removed at their holders (R129, R248). -/
def State.dropWaits (s : State) (l : BitVec 16) (team : Nat) : State :=
  { s with dies := s.dies.map fun d => { d with
      names := d.names.map fun n => { n with waits := n.waits.filter fun w => !Waiter.ofTeam l team w.who }
      waits := d.waits.filter fun w => !(w.acc.waiter.elim false (Waiter.ofTeam l team))
      services := d.services.map fun x => { x with threads := x.threads.filter fun t => !(t.launch == l && decide (t.team = team)) }
      motions := d.motions.map fun x => { x with heldThr := x.heldThr.filter fun t => !(t.launch == l && decide (t.team = team)) } } }

/-- The settlement of units that a restartable team claimed at another module's home (R128). DESIGN CHOICE, log 27. -/
def State.settleAsk (s : State) (core : Nat) (mdl : BitVec 16) (ref v units : Nat) (give : Bool) : Packet :=
  { kind := kTile, vn := 0, mode := if give then 151 else 23, aux := BitVec.ofNat 16 units, tag := BitVec.ofNat 10 (tileTag + 8)
    addr := BitVec.ofNat 64 (refName ref + v * 2 ^ 32 + ref / 2 ^ 32 * 2 ^ 48), src := endpointOf s core
    dst := mdl ++ BitVec.ofNat 16 (nameDie (refName ref) * 2 ^ 13 + 1093) }

/-- Units that a restartable team claimed are applied, or returned for a new run (R128, R190). -/
def Version.settle (u : Nat) (give : Bool) (y : Version) : Version :=
  { y with resv := y.resv - u, readers := if give then y.readers.map (· + u) else y.readers }

/-- Holds of loads in flight end; reader units claimed by a restartable team are applied, or returned for a new run. Holds of `tref` stay
(R119, R129). -/
def State.endHolds (s : State) (c : Core) (give : Bool) : State :=
  let s := c.thr.toList.foldl (fun s t => s.dropHeld t.held) s
  c.rin.foldl (fun s (mdl, r, v, u) =>
    if u = 0 then s
    else if mdl = 0xFFFF then (s.onRef r v (Version.settle u give)).reclaimTest (refName r)
    else s.route c.die (s.settleAsk c.id mdl r v u give)) s

/-- Queued requests and one-shot accesses of a team leave the directories, and its halo subscriptions end. -/
def State.withdraw (s : State) (l : BitVec 16) (team : Nat) : State :=
  let regions := s.dies.toList.flatMap fun d => d.tregions.map (·.num)
  regions.foldl (fun s n =>
    (s.setTregion n fun r => { r with
      recs := r.recs.filter fun x => !((!x.held || x.oneShot) && x.launch == l && decide (x.team = team))
      halos := r.halos.filter fun h => !(h.launch == l && decide (h.team = team)) }).serveQueue n) s

/-- A write tenure's dirty lines written back by every quad. -/
def State.rectWriteback (s : State) (t : TRegion) (q : Rect) : State :=
  (s.quads.map (·.id)).foldl (fun s k => s.l1Clean k (t.lineHas q) true) s

/-- Whether a strip holds a poisoned granule. -/
def stripPoisoned (s : State) (root : Nat) (t : TRegion) (h : HaloSub) : Bool :=
  (stripElems h.rect h.side h.width).any fun (r, c) =>
    match walk s root ((t.base + r * t.stride + c * fmtBits t.fmt / 8) % 2 ^ 56) with
    | .page pa _ _ _ _ => s.badAt (placeNow s pa)
    | _ => false

/-- A tenure revoked (R206). DEDUCED, log 30. -/
def State.revokeTenure (s : State) (c : Core) (e : TenEntry) : State :=
  match s.tregion? e.region with
  | none => s
  | some t =>
    let s := if e.write then s.rectWriteback t e.rect else s
    let s := s.setTregion e.region fun t => { t with recs := t.recs.filter fun x =>
      !(x.launch == c.launch && decide (x.team = c.team ∧ x.slot = e.slot) && !x.oneShot) }
    let s := if !e.write then s else t.halos.zipIdx.foldl (fun s (h, i) =>
      if (stripElems h.rect h.side h.width).any (rectHas e.rect) && !stripPoisoned s c.desc.ptroot t h then
        (s.refresh t h).setTregion e.region fun t => { t with halos := t.halos.modify i fun h => { h with count := h.count + 1 } }
      else s) s
    let aux := e.rect.row + e.rect.col * 2 ^ 12 + (e.rect.rows - 1) * 2 ^ 24 + (e.rect.cols - 1) * 2 ^ 30
    (s.serveQueue e.region).fault (e.region / 128) 0x61 0 c.ctx.toNat 0 e.region aux

/-- Requests that wait at a message engine whose team ends are answered (R164). DEDUCED, log 30. -/
def State.dropRemote (s : State) (c : Core) : State :=
  c.localWaits.foldl (fun s w => match w.who with
    | .remote p => s.answer p (replyTo p kError stNoEp 0)
    | _ => s) s

/-- A registration at another module's tile home cancelled, without an answer. DESIGN CHOICE, log 27. -/
def cancelAsk (p : Packet) (answer : Bool) : Packet :=
  { p with mode := (if answer then 21 else 149), aux := p.mode.setWidth 16, len := 0, payload := [] }

/-- The waits of a team at other modules' tile homes end. -/
def State.cancelTiles (s : State) (c : Core) : State :=
  c.thr.toList.foldl (fun s t => match t.run with
    | .parked (.remoteTile p .waiting _ _) _ =>
      let s := s.route c.die (cancelAsk p false)
      c.saveSlot.elim s fun y => s.route c.die (cancelAsk { p with src := s.zenith (launchHome c.launch), seq := BitVec.ofNat 16 y.1 } false)
    | _ => s) s

/-- Keyed accesses of a team that are parked at this module's owners, its tickets and its open replies (R248); `slot` tells a saved team's. -/
def State.dropKeyed (s : State) (c : Core) (slot : Option (BitVec 16)) : State :=
  let src := if slot.isSome then s.zenith (launchHome c.launch) else endpointOf s c.id
  let own (tag : BitVec 10) (gen : BitVec 4) : Bool := c.tickets.any fun t => decide (t.tag = tag.toNat) && t.gen == gen
  let mine (p : Packet) : Bool := p.src == src && p.ctx == c.ctx && own p.tag p.gen
  let away (w : Waiter) : Bool := match w with
    | .remote p => mine p && slot.elim true (· == p.seq)
    | _ => false
  { s with
    dies := s.dies.map fun d => { d with
      waits := d.waits.filter fun w => !(w.acc.waiter.elim false away)
      gwTickets := d.gwTickets.filter fun t => !(mine t.req && t.slot == slot)
      replies := d.replies.filter fun r => !(r.src == src && r.slot == slot && r.reply.isNone && own r.tag r.gen) }
    cores := s.cores.map fun x => { x with localWaits := x.localWaits.filter fun w => !away w.who } }

/-- The commands of a team's threads leave the matrix unit, and the remote command in progress when `drops` names it. -/
def State.unitDrop (s : State) (c : Core) (drops : MatrixCmd → Bool) : State :=
  let q := s.quad c.quadId
  let mine (e : MatEntry) : Bool := e.thr.launch == c.launch && decide (e.thr.team = c.team)
  let ends : Bool := match q.act with
    | some (.thread e _) => mine e
    | some (.cmd x) => drops x
    | none => false
  let q := { q with queue := q.queue.filter fun e => !mine e }
  if ends then
    ({ s.setQuad { q with act := none, steps := 0 } with
      timers := s.timers.filter fun x => x.2 != .matrixKstepComplete c.quadId } : State).unitNext c.quadId
  else s.setQuad q

/-- A team discarded: nothing of it stays at any holder. -/
def State.discard (s : State) (c : Core) (give : Bool) (slot : Option Nat := none) : State :=
  let slot := (slot.orElse fun _ => c.saveSlot.map (·.1)).map (BitVec.ofNat 16 ·)
  let s := (s.dropWaits c.launch c.team).cancelTiles c |>.dropKeyed c slot
  let s := s.withdraw c.launch c.team
  let s := (c.tenures.filter (·.held)).foldl (fun s e => s.revokeTenure c e) s
  let s := ((s.endHolds c give).abandonPublishes fun t => t.launch == c.launch && decide (t.team = c.team)).dropRemote c
  let q := s.quad c.quadId
  ((s.setQuad { q with remq := q.remq.filter fun x => !(x.launch == c.launch && decide (x.team = c.team)) }).unitDrop c fun x =>
    x.launch == c.launch && decide (x.team = c.team))

/-- A core leaves its team and becomes free; its own counts stay with it. -/
def State.vacate (s : State) (p : Nat) : State :=
  let s := match s.core? p with
    | some c => s.setUnit { id := p, p := c.p, late := c.late, sundogC := c.sundogC }
    | none => s
  ({ s with cores := s.cores.filter fun x => decide (x.id ≠ p) } : State).post (.dispatchCoreFree (p / 1024) p)

/-- The launch's teams discarded: the queued requests of all first, so that none of them is granted what another leaves (R129, R206). -/
def State.discardAll (s : State) (l : BitVec 16) (saved : List Saved) : State :=
  let ids := (s.cores.filter fun c => c.launch == l).map fun c => (c.id, c.team)
  let s := (ids.map (·.2) ++ saved.map (·.team)).foldl (fun s t => s.withdraw l t) s
  let s := ids.foldl (fun s (p, _) => match s.core? p with
    | some c => (s.discard c false).vacate p
    | none => s) s
  saved.foldl (fun s v => s.discard v.image false (some v.slot)) s

/-- The launch's teams discarded and its failure value delivered (R129); a completion action that still waits is begun again with the
failure value (R117). -/
def State.terminate (s : State) (l : BitVec 16) (reason code : Nat) (whole : Bool := false) : State :=
  match s.launch? l with
  | none => s
  | some x =>
    if x.phase = .free ∨ (x.ending ∧ x.result.getLsbD 63) then s
    else
      let v := failValue l code
      let note (s : State) : State := s.fault (launchHome l) 0x72 reason x.ctx.toNat 0 (l.toNat + if whole then 2 ^ 16 else 0) v.toNat
      if x.ending then
        ((note (s.cancelAction l)).setLaunch l fun x => { x with result := v, attempt := x.attempt + 1 }).action l
      else
        let s : State := { s with
          dies := s.dies.map fun d => { d with names := d.names.map fun n => { n with waits := n.waits.filter fun w => w.who != .gate l } } }
        let s := x.gatesOut.foldl (fun s w => s.route (launchHome l) (s.dispatcherAsk (launchHome l) 149 1 1023 l w)) s
        let s := s.discardAll l x.saved
        let s := s.setLaunch l fun x => { x with saved := [], redo := [], reserved := [], gatesOut := [] }
        let s := x.reserved.foldl (fun s p => s.post (.dispatchCoreFree (p / 1024) p)) s
        (note s).complete l v

/-- A restartable team runs again (R128); the fourth failure ends the launch. The flag tells whether it was re-queued. -/
def State.restartTeam (s : State) (l : BitVec 16) (team : Nat) : State × Bool :=
  match s.launch? l with
  | none => (s, false)
  | some x =>
    let n := ((x.restarts.find? fun r => decide (r.1 = team)).map (·.2)).getD 0
    if 3 ≤ n then (s.terminate l 4 0x11, false)
    else
      match (s.coreOf? l team).orElse fun _ => (x.saved.find? fun v => decide (v.team = team)).map (·.image) with
      | none => (s, false)
      | some c =>
        let s := s.discard c true ((x.saved.find? fun v => decide (v.team = team)).map (·.slot))
        let prev := (c.rprev ++ c.rout).eraseDups
        let s := s.setLaunch l fun x => { x with
          redo := (team, c.id, prev) :: x.redo, saved := x.saved.filter fun v => decide (v.team ≠ team), phase := .dispatching
          restarts := (team, n + 1) :: x.restarts.filter fun r => decide (r.1 ≠ team) }
        (if (s.coreOf? l team).isSome then s.vacate c.id else s, true)

end

end Sys2Proof.Machine
end

