-- ==== Sys2Proof/Machine/Launches.lean ====
section
/-!
DEFINITION. The scheduling instructions of XSCH (R390) and the steps of dispatchers and Zenith cores that place, save, restore and end
teams (R102, R118–R130, R146, R147, R150, R248, R313).
-/
namespace Sys2Proof.Machine
open Sys2Proof

noncomputable section

/-! ## XSCH (R390) -/

/-- A record submitted by an instruction: accepted, rejected, or the thread stays until there is room. -/
def M.submit (m : M) (d : F6) (r : LRec) (addr : Nat) : Except Stop M :=
  let desc := m.st.ctxDesc m.core.ctx
  let code := m.st.launchCode m.core.die desc r
  if code ≠ 0 then .ok ((m.world fun s => s.reject m.core.die m.core.ctx desc r code addr).wrInt d (failValue 0 code))
  else if !m.st.launchRoom m.core.die r then .error .stall
  else
    let (s, l) := m.flush.acceptLaunch m.core.die m.core.ctx desc r
    .ok ((m.reload s).wrInt d (l.setWidth 64))

/-- Words as one number, the first lowest. -/
def packWords (ws : List W64) : Nat := ws.foldr (fun w acc => w.toNat + 2 ^ 64 * acc) 0

def opLaunch (o : XOp) : Act := fun m => do
  trapIf m.restart causePrivilege 1
  let c := m.src o.a
  checkCap o.a c [0, 1] [.ld]
  checkBounds c c.cursor.toNat 256
  checkAligned c.cursor.toNat 8
  stallIf m.acqPending
  let m ← m.release 4
  let (m, ws) ← m.loadWords c c.cursor.toNat 32
  m.submit o.d (LRec.of (packWords ws)) c.cursor.toNat

/-- DEDUCED, log 28. -/
def opTspawn (o : XOp) : Act := fun m => do
  trapIf m.restart causePrivilege 1
  let a := m.src o.a
  let c := m.src o.x.c
  let n := (m.int o.x.b).toNat
  checkCap o.a a [0] [.ex]
  checkCap o.x.c c [0] [.st, .fe]
  checkBounds c c.cursor.toNat 8
  checkAligned c.cursor.toNat 8
  stallIf m.acqPending
  let m ← m.release 4
  let r := m.core.lrec
  m.submit o.d { r with
    entry := a.cursor, n := n, ngate := 0, cver := false, ctarget := c.cursor, cval := 0, args := [m.int o.x.e, 0, 0, 0, 0, 0]
    reservedOk := r.reservedOk && decide (1 ≤ n ∧ n ≤ 2 ^ 24) } 0

def opLwait (o : XOp) : Act := fun m =>
  let l : BitVec 16 := (m.int o.a).setWidth 16
  match m.st.launch? l with
  | none => .ok (m.wrInt o.d (failValue 0 0x12))
  | some x =>
    if x.ctx ≠ m.core.ctx then .ok (m.wrInt o.d (failValue 0 0x12))
    else if x.phase = .free then do
      let m ← m.acquire 4
      pure (m.wrInt o.d x.result)
    else .error (.park m (.launch l) { d := o.d, acq := some 4, len := m.len, pops := popsOf o.a })

/-- DEDUCED, log 28. -/
def opPrio (o : XOp) : Act := fun m =>
  let v : BitVec 16 := (m.int o.a).setWidth 16
  let l := if v = 0 then m.core.launch else v
  let p := fieldOf (m.int o.x.b) 5 0
  match m.st.launch? l with
  | none => .ok (m.wrInt o.d 1)
  | some x =>
    if x.ctx ≠ m.core.ctx ∨ x.phase = .free ∨ x.desc.ceil < p then .ok (m.wrInt o.d 1)
    else
      let s := m.st.setLaunch l fun x => { x with prio := p }
      let s := if x.phase == .dispatching then s.post (.preemption l) else s
      .ok ({ m with st := s }.wrInt o.d 0)

/-! ## Slots, gates, dispatch (R102, R118, R120, R122, R123) -/

/-- `MSTAT`.READY (R33). -/
def State.ready (s : State) : Bool := s.mstat.getLsbD 0

/-- The physical address of a launch slot (R95). -/
def State.slotAddr (s : State) (ctx : BitVec 6) (slot : Nat) : Nat :=
  fieldOf (s.hctx.get ctx.toFin) 51 21 * 2 ^ 21 + 256 * slot

/-- A slot's word 0 taken: it becomes empty (R102). -/
def State.emptySlot (s : State) (ctx : BitVec 6) (slot : Nat) : State :=
  let acc : PortAccess := { pa := s.slotAddr ctx slot, size := 8, kind := .ldfe 2, key := (s.hctx.get ctx.toFin).extractLsb' 11 10
                            master := ⟨ctx, true, 5⟩ }
  let s : State := { s with armed := s.armed.erase (ctx, slot) }
  match (s.yieldLine acc.pa).portExec acc with
  | .done s _ _ | .parked s | .refused s | .poison s => s

/-- The poisoned block of a slot's record, if one is. -/
def State.slotPoison (s : State) (a : Nat) : Option Nat :=
  ((List.range 4).map fun k => a + 64 * k).find? fun b => s.badAt b || s.ueMem.contains (b / 64)

/-- A poisoned record is taken, recorded and rejected (R102, R247). -/
def State.poisonSlot (s : State) (ctx : BitVec 6) (slot die b : Nat) (r : LRec) : State :=
  let known := !s.ueMem.contains (b / 64)
  let s1 := (s.detect b).emptySlot ctx slot
  let s2 := s1.setFullAt (placeNow s (s.slotAddr ctx slot)) false
  let s3 := if known then s2.fault die 0x70 (tierCode s2 b) ctx.toNat (b / 64 * 64) (1 + (station s2 b).2 * 2 ^ 16) else s2
  s3.reject die ctx {} r 1 (s.slotAddr ctx slot) false

/-- A slot taken by its die's dispatcher (R102): the oldest armed slot of the context, once its record has room. -/
def State.takeSlot (s : State) (ctx : BitVec 6) (slot : Nat) : State :=
  let a := placeNow s (s.slotAddr ctx slot)
  if !s.ready ∨ (s.armed.find? fun x => x.1 == ctx) ≠ some (ctx, slot) then s
  else if !s.fullAt a then ({ s with armed := s.armed.erase (ctx, slot) } : State).offerSlots
  else
    let r := LRec.of (s.readPa a 256 ((s.hctx.get ctx.toFin).extractLsb' 11 10))
    match s.slotPoison a with
    | some b => (s.poisonSlot ctx slot (homeDie a) b r).offerSlots
    | none =>
      if !s.launchRoom (homeDie a) r then s
      else
        let s1 := s.emptySlot ctx slot
        let desc := s1.ctxDesc ctx
        let code := s1.launchCode (homeDie a) desc r
        (if code ≠ 0 then s1.reject (homeDie a) ctx desc r code (s.slotAddr ctx slot) else (s1.acceptLaunch (homeDie a) ctx desc r).1).offerSlots

/-- DEDUCED, log 28. -/
def execLaunchSlotTake (ctx : BitVec 6) (slot : Nat) (s : State) : Out := .next (s.takeSlot ctx slot)

/-- A gate's version exists (R118). -/
def execGateSatisfied (launch : BitVec 16) (s : State) : Out :=
  match s.launch? launch with
  | none => .next s
  | some l =>
    if l.phase ≠ .gated ∨ l.ending then .next s
    else
      let s := s.setLaunch launch fun x => { x with gatesLeft := x.gatesLeft - 1 }
      .next (if l.gatesLeft ≤ 1 then s.enterDispatch launch else s)

/-- A core that was offered is in use: the first free core that a launch with teams to bind may use is offered instead (R121). -/
def State.lookAgain (s : State) : State :=
  let want (l : Launch) : Option Nat :=
    if l.phase = .dispatching ∧ !l.ending ∧ l.reserved.length < l.left then (s.freeCores l).find? fun p => !l.reserved.contains p else none
  match (s.dies.toList.flatMap (·.launches)).findSome? want with
  | some p => s.post (.dispatchCoreFree (p / 1024) p)
  | none => s

/-- A die dispatcher examines a free core (R120). -/
def execDispatchCoreFree (die core : Nat) (s : State) : Out :=
  .next (if (s.core? core).isSome ∨ ((s.die die).activeCores die).contains core = false ∨ (s.cands core).isEmpty then s.lookAgain
    else s.dispatch die core)

/-- `Bind` at the launch's home die (R120, R122). -/
def execBindRequest (launch : BitVec 16) (core : Nat) (s : State) : Out :=
  let none_ (s : State) : Out :=
    .next ((s.setLaunch launch fun x => { x with reserved := x.reserved.erase core }).post (.dispatchCoreFree (core / 1024) core))
  match s.launch? launch with
  | none => .next (s.post (.dispatchCoreFree (core / 1024) core))
  | some l =>
    if !l.reserved.contains core then .next s
    else if l.phase ≠ .dispatching ∨ l.ending then none_ s
    else if !(s.permitted l.lrec).contains core then none_ (s.kick launch)
    else if l.lrec.cores then
      let leaving := s.cores.any fun c => c.launch == launch && c.stopping
      .next (if l.left ≤ l.reserved.length ∧ !leaving then State.bindAll l.left launch s else s)
    else match s.bindNext l core with
      | some s => .next s
      | none => none_ s

/-- The save slots of a context in use (R127). -/
def State.slotsUsed (s : State) (ctx : BitVec 6) : List Nat :=
  ((s.cores.filter fun c => c.ctx == ctx).filterMap fun c => c.saveSlot.map (·.1)) ++ (s.dies.toList.flatMap (·.launches)).flatMap fun l => if l.ctx == ctx then l.saved.map (·.slot) else []

/-- Victims in order (R123): lowest priority, then the launch accepted last, then the highest team. -/
def victimBefore (s : State) (a b : Core) : Bool :=
  let key (c : Core) : Nat × Nat := (s.launch? c.launch).elim (0, 0) fun l => (l.prio, l.seq)
  let (pa, sa) := key a
  let (pb, sb) := key b
  decide (pa < pb) || (decide (pa = pb) && (decide (sb < sa) || (decide (sa = sb) && decide (b.team < a.team))))

def insVictim (s : State) (c : Core) : List Core → List Core
  | [] => [c]
  | x :: l => if victimBefore s c x then c :: x :: l else x :: insVictim s c l

/-- Victims taken one by one: a context's free save slots are counted down, a co-resident launch goes whole or not at all. -/
def takeVictims (s : State) : Nat → List Core → List Core → List Core
  | _, [], got => got
  | n, c :: rest, got =>
    if n = 0 then got
    else if got.any fun x => decide (x.id = c.id) then takeVictims s n rest got
    else match s.launch? c.launch with
      | none => takeVictims s n rest got
      | some l =>
        let free := l.desc.saven - (s.slotsUsed c.ctx).length - (got.filter fun x => x.ctx == c.ctx).length
        if l.lrec.cores then
          let all := s.cores.filter fun x => x.launch == c.launch
          if all.length ≤ n ∧ all.length ≤ free then takeVictims s (n - all.length) rest (got ++ all) else takeVictims s n rest got
        else if free = 0 then takeVictims s n rest got
        else takeVictims s (n - 1) rest (got ++ [c])

/-- Pre-emption for a launch that has teams to bind and no free core (R123). -/
def State.preempt (s : State) (l : Launch) : State :=
  let ps := s.permitted l.lrec
  if l.phase ≠ .dispatching ∨ l.ending ∨ l.left = 0 ∨ !(s.freeCores l).isEmpty then s
  else
    let here := s.cores.filter fun c => ps.contains c.id
    let leaving := (here.filter fun c => c.stopping && c.saveFor == some l.id).length
    let lower := here.filter fun c => !c.stopping && (s.launch? c.launch).elim false fun x => decide (x.prio < l.prio)
    let n := Nat.min (l.left - l.reserved.length) (lower.length + leaving) - leaving
    let vs := takeVictims s n (lower.foldr (insVictim s) []) []
    vs.foldl (fun s c => (match s.core? c.id with
      | some k => s.setCore { k with stopping := true, saveFor := some l.id }
      | none => s).post (.teamSave c.id)) s

def execPreemption (launch : BitVec 16) (s : State) : Out :=
  .next ((s.launch? launch).elim s s.preempt)

/-! ## Save images (R124–R127) -/

/-- A 64-byte block of local memory as the coder sees it: data, full/empty bits, tags. -/
structure SaveBlock where
  data : Nat
  full : Nat
  tags : Nat
deriving DecidableEq, Repr

def saveBlock (m : Memory) (a : Nat) : SaveBlock where
  data := m.read a 64
  full := (List.range 8).foldl (fun x k => x + if m.full (a + 8 * k) then 2 ^ k else 0) 0
  tags := (List.range 4).foldl (fun x k => x + if m.tag (a + 16 * k) then 2 ^ k else 0) 0

/-- The code of a block and its payload words, given the block below it in the same 4 KiB block. -/
def codeOf (prev : Option SaveBlock) (b : SaveBlock) : Nat × List W64 :=
  let w := b.data % 2 ^ 64
  let plain := b.full = 255 ∧ b.tags = 0
  if plain ∧ b.data = 0 then (0, [])
  else if prev = some b then (3, [])
  else if plain ∧ b.data = (List.range 8).foldl (fun x k => x + w * 2 ^ (64 * k)) 0 then (1, [BitVec.ofNat 64 w])
  else (2, (List.range 8).map (fun k => BitVec.ofNat 64 (b.data / 2 ^ (64 * k))) ++ [BitVec.ofNat 64 (b.full + b.tags * 2 ^ 8)])

/-- One run of 32 blocks from `a`; the first run of a 4 KiB block has no block below. -/
def codeRun (m : Memory) (a : Nat) (first : Bool) : List W64 :=
  let cs := (List.range 32).map fun k =>
    codeOf (if first ∧ k = 0 then none else some (saveBlock m (a + 64 * k - 64))) (saveBlock m (a + 64 * k))
  BitVec.ofNat 64 (cs.foldr (fun c acc => c.1 + 4 * acc) 0) :: cs.flatMap (·.2)

/-- The coded stream of the dirty 4 KiB blocks, ascending. -/
def codeStream (m : Memory) (dirty : List Nat) : List W64 :=
  dirty.flatMap fun i => codeRun m (4096 * i) true ++ codeRun m (4096 * i + 2048) false

/-- A block restored. DEDUCED, log 29. -/
def putSaveBlock (m : Memory) (a : Nat) (b : SaveBlock) : Memory :=
  let m := m.write a 64 b.data
  let m := (List.range 8).foldl (fun m k => m.setFull (a + 8 * k) (b.full / 2 ^ k % 2 = 1)) m
  (List.range 4).foldl (fun m k => m.setTag (a + 16 * k) (b.tags / 2 ^ k % 2 = 1)) m

/-- The blocks of a run decoded from its header and the words that follow; `none` for a stream that ends early or a code 11 without a
block below. -/
def decodeRun (a : Nat) : Nat → Nat → Option SaveBlock → List W64 → Memory → Option (Option SaveBlock × List W64 × Memory)
  | 0, _, prev, ws, m => some (prev, ws, m)
  | f + 1, h, prev, ws, m =>
    let go (b : SaveBlock) (ws : List W64) := decodeRun (a + 64) f (h / 4) (some b) ws (putSaveBlock m a b)
    match h % 4 with
    | 0 => go ⟨0, 255, 0⟩ ws
    | 3 => match prev with
      | some b => go b ws
      | none => none
    | 1 => match ws with
      | w :: ws => go ⟨(List.range 8).foldl (fun x k => x + w.toNat * 2 ^ (64 * k)) 0, 255, 0⟩ ws
      | [] => none
    | _ => if ws.length < 9 then none
      else
        let md := (ws.getD 8 0).toNat
        go ⟨packWords (ws.take 8), md % 256, md / 256 % 16⟩ (ws.drop 9)

/-- The 4 KiB blocks of a stream. -/
def decodeBlocks : List Nat → List W64 → Memory → Option (List W64 × Memory)
  | [], ws, m => some (ws, m)
  | i :: is, ws, m => match ws with
    | [] => none
    | h :: ws => match decodeRun (4096 * i) 32 h.toNat none ws m with
      | none => none
      | some (prev, ws, m) => match ws with
        | [] => none
        | h2 :: ws => match decodeRun (4096 * i + 2048) 32 h2.toNat prev ws m with
          | none => none
          | some (_, ws, m) => decodeBlocks is ws m

/-- The save slot's address. -/
def saveSlot (desc : CtxDesc) (slot : Nat) : Nat := desc.savebase + slot * 0x50000

/-- Words written to, and read from, a save slot. -/
def State.slotWrite (s : State) (key : BitVec 10) (a : Nat) (ws : List W64) : State :=
  ws.zipIdx.foldl (fun s (w, i) => (s.markMotion (a + 8 * i)).writePa (placeNow s (a + 8 * i)) 8 w.toNat key) s
def State.slotRead (s : State) (key : BitVec 10) (a n : Nat) : List W64 :=
  (List.range n).map fun i => BitVec.ofNat 64 (s.readPa (placeNow s (a + 8 * i)) 8 key)

/-- An entry of the slot header: holder endpoint, kind, thread, and the name and version, address or ticket number. -/
def saveEntry (holder : BitVec 32) (kind thr v : Nat) : List W64 := [BitVec.ofNat 64 v, BitVec.ofNat 64 (holder.toNat * 2 ^ 32 + kind * 2 ^ 24 + thr * 2 ^ 21)]

/-- An endpoint of this module by its die and index. -/
def State.endpoint (s : State) (die idx : Nat) : BitVec 32 := BitVec.ofNat 32 (s.modid.toNat * 2 ^ 16 + die * 2 ^ 13 + idx)

/-- The holders' entries of a team (R125): its waits for versions, at this module and at others, its full/empty waits, its tickets. -/
def State.saveEntries (s : State) (c : Core) : List (List W64) :=
  let mine (w : Waiter) : Option Nat := match w with
    | .thread t => if t.launch = c.launch ∧ t.team = c.team then some t.thr else none
    | _ => none
  let versions := s.dies.toList.flatMap fun d => d.names.flatMap fun n => n.waits.filterMap fun w => (mine w.who).map fun t =>
    saveEntry (s.endpoint (nameDie n.name) (siteOf (nameRegion n.name * 16))) 1 t (n.name + w.ver * 2 ^ 32)
  let tiles := c.thr.toList.zipIdx.filterMap fun (t, k) => match t.run with
    | .parked (.remoteTile p _ _ _) _ => some (saveEntry p.dst 1 k (p.addr.toNat % 2 ^ 48))
    | _ => none
  let words := s.dies.toList.flatMap fun d => d.waits.filterMap fun w => (w.acc.waiter.bind mine).map fun t =>
    saveEntry (s.endpoint (station s w.pa).1 (station s w.pa).2) 2 t w.pa
  let parked := c.tickets.filterMap fun t => if t.st = .sent ∧ t.parked then some (saveEntry t.req.dst 2 t.thr t.req.addr.toNat) else none
  let tickets := c.tickets.filterMap fun t => if t.st = .ticketed ∨ t.st = .shadow then some (saveEntry t.endp 3 t.thr t.ticket) else none
  (versions ++ tiles ++ words ++ parked ++ tickets).take 254

/-- A thread that waits at another module's home, under a new endpoint. -/
def retileThread (src : BitVec 32) (slot : BitVec 16) (t : Thread) : Thread :=
  match t.run with
  | .parked (.remoteTile p st n b) f => { t with run := .parked (.remoteTile { p with src := src, seq := slot } st n b) f }
  | _ => t

/-- The team's image: threads that wait for a service or the matrix unit execute their instruction again (R232, R382), a sleep ends (R313); the latches are cleared (R142), fetch buffers
and instruction cache stay behind (R135), and a first mismatch is forgotten (R159). -/
def saveThreads (src : BitVec 32) (slot : Nat) (c : Core) : Core :=
  { c with stopping := false, saveFor := none, saveSlot := none, icache := [], thr := c.thr.map fun t =>
      retileThread src (BitVec.ofNat 16 slot) { t with
        latchA := none, latchB := none, latchC := none, fbuf := none, replayed := false
        run := match t.run with
          | .parked (.service ..) _ | .parked .matrix _ | .sleeping _ | .yielded .. => .ready
          | r => r } }

/-- The reserve as the core writes it (R113): its layout is the implementation's. DEDUCED, log 29. -/
def reserveImage (k : Nat) (r : LRec) (m : Memory) : Memory :=
  (List.range r.res).foldl (fun m i => let a := 0x3C000 - r.res + i; (m.setTag a false).setByte a (Config.reserveByte k a)) m

/-- The quad's lines of the tenures that a team holds, written back and invalidated (R201, R205). -/
def State.tenuresClean (s : State) (c : Core) : State :=
  (c.tenures.filter (·.held)).foldl (fun s e =>
    s.l1Clean c.quadId (((s.tregion? e.region).getD { num := e.region }).lineHas e.rect) true) s

/-- Steps 5 and 6 of the save of a team whose holders know the Zenith core (R124). DEDUCED, log 29. -/
def State.saveTeam (s : State) (c : Core) (slot : Nat) : State :=
  let img := saveThreads (s.zenith (launchHome c.launch)) slot c
  let res := c.lrec.res
  let first := (0x3C000 - res) / 4096
  let img := { img with mem := reserveImage s.fresh c.lrec img.mem
                        dirty := (List.range (60 - first)).foldl (fun l i => setIns l (first + i)) img.dirty }
  let s : State := ({ s with fresh := s.fresh + 1 } : State).unitDrop c fun _ => false
  let s : State := { s with dies := s.dies.map fun d => { d with services := d.services.map fun x =>
    { x with threads := x.threads.filter fun t => !(t.launch == c.launch && decide (t.team = c.team)) } } }
  let a := saveSlot c.desc slot
  let es := s.saveEntries c
  let ws := codeStream img.mem img.dirty
  let dirty := img.dirty.foldl (fun x i => x + 2 ^ i) 0
  let s := s.slotWrite c.desc.ckey (a + 0x1000) ws
  let s := s.slotWrite c.desc.ckey (a + 0x20) es.flatten
  let s := s.slotWrite c.desc.ckey (a + 8) [BitVec.ofNat 64 dirty, BitVec.ofNat 64 (8 * ws.length), BitVec.ofNat 64 es.length]
  let s := s.slotWrite c.desc.ckey a [BitVec.ofNat 64 (2 ^ 63 + c.team * 2 ^ 32 + c.launch.toNat)]
  let s := s.setLaunch c.launch fun l => { l with saved := l.saved ++ [{ team := c.team, image := img, slot := slot }], phase := .dispatching }
  (s.vacate c.id).kick c.launch

/-- No engine command of the core is queued or running. -/
def Core.enginesIdle (c : Core) : Bool := c.engC.isEmpty && c.engG.isEmpty && c.runC.isNone && c.runG.isNone

/-- The packet that a step of this module brings to a core. -/
def bringsTo (e : BitVec 32) (i : Instr) : Bool :=
  match i with
  | .dataReply p | .doneReply p | .parkedReply p | .ticketReply p | .errorReply p | .busyReply p | .varriveNotice p | .replayNotice p => p.dst == e
  | _ => false

/-- Nothing of the team is on its way that must arrive before step 3: engine commands, matrix commands, requests without an answer, answers
(R124). -/
def State.quiet (s : State) (c : Core) : Bool :=
  let q := s.quad c.quadId
  let unit := (q.remq ++ q.cmd?.toList).any fun x => x.launch == c.launch && decide (x.team = c.team)
  let asked (t : Thread) : Bool := match t.run with
    | .parked (.remoteTile _ .sent _ _) _ | .parked (.remoteTile _ .fetching _ _) _ => true
    | _ => false
  c.enginesIdle && !unit && !(c.tickets.any fun t => t.st == .sent && !t.parked) && !(c.thr.any fun t => t.mcmdOut != 0 || asked t) &&
    !s.events.any (bringsTo (endpointOf s c.id))

/-- The save step that comes next, after a time. -/
def State.saveLater (s : State) (c : Core) (n : Nat) : State := (s.setCore { c with stopping := true }).after n (.teamSave c.id)

/-- The open ranges of a team's log are emitted before it leaves its core (R182, R212); `again` comes back once a page's service, a moving
page or a busy slice lets it go on. -/
def State.emptyLog (s : State) (c : Core) (again : Nat → State → State) : State × Bool :=
  match (s.asM c 0).emitRanges fun _ => true with
  | .ok m => (m.flush, true)
  | .error (.service va code w f) =>
    if (s.die c.die).services.length ≥ 4096 then (again 1 s, false) else (again (us 1) (s.openService c.die c.ctx va code w f id).1, false)
  | .error (.trap _ _ recs) => (recs.foldl (fun s r => s.fault r.die r.kind r.code r.ctx r.addr r.aux32 r.aux64) s, true)
  | .error _ => (again 1 s, false)

/-- A line of the quad that must be written back is held by a motion or a busy slice (R57, R171). -/
def State.lineWaits (s : State) (c : Core) : Bool := (Machine.heldLine s c.quadId fun _ => true).isSome

/-- Step 4 of a save (R124, R125): the holders of this module take the Zenith core's endpoint at once, those of other modules are asked. -/
def State.saveHolders (s : State) (c : Core) (slot : Nat) : State :=
  let x : Repoint := { old := endpointOf s c.id, new := s.zenith (launchHome c.launch), ctx := c.ctx, slot := BitVec.ofNat 16 slot, save := true }
  let ms := c.holders s
  let s := s.repoint x
  let c := (s.core? c.id).getD c
  if ms = [] then s.saveTeam c slot
  else
    let s := s.setCore { c with saveSlot := some (slot, ms, s.now) }
    (ms.foldl (fun s m => s.route c.die (x.packet x.new (m ++ BitVec.ofNat 16 1100) false)) s).after resendAfter (.teamSave c.id)

/-- A save whose step 4 is under way: it ends when every holder has acknowledged, or the final time-out has passed; requests are repeated. -/
def State.saveWaits (s : State) (c : Core) (slot : Nat) (ms : List (BitVec 16)) (since : Nat) : State :=
  if ms = [] ∨ since + (s.die c.die).final ≤ s.now then s.saveTeam c slot
  else
    let x : Repoint := { old := endpointOf s c.id, new := s.zenith (launchHome c.launch), ctx := c.ctx, slot := BitVec.ofNat 16 slot, save := true }
    (ms.foldl (fun s m => s.route c.die (x.packet x.new (m ++ BitVec.ofNat 16 1100) false)) s).after resendAfter (.teamSave c.id)

/-- `TEAM_SAVE`: the threads stop; commands of the engines, accepted remote matrix commands and requests that are on their way complete
first; without a free slot the save is abandoned. A core that nothing vacates is left alone. DEDUCED, log 29. -/
def execTeamSave (core : Nat) (s : State) : Out :=
  match s.core? core with
  | none => .next s
  | some c =>
    if !c.stopping then .next s
    else if c.exiting then .next (s.setCore { c with stopping := false, saveFor := none, saveSlot := none })
    else match c.saveSlot with
      | some (slot, ms, since) => .next (s.saveWaits c slot ms since)
      | none =>
        if !s.quiet c then .next (s.saveLater c 1)
        else match (List.range c.desc.saven).find? fun k => !(s.slotsUsed c.ctx).contains k with
          | none => .next (s.setCore { c with stopping := false, saveFor := none })
          | some slot =>
            let (s, go) := s.emptyLog c fun n s => s.saveLater ((s.core? core).getD c) n
            let c := (s.core? core).getD c
            if !go then .next s
            else if s.lineWaits c then .next (s.saveLater c 1)
            else
              let s := (s.l1Clean c.quadId (fun _ => true) false).tenuresClean c
              .next (s.saveHolders ((s.core? core).getD c) slot)

/-- A notice held for a saved team, noted in its slot header (R125). -/
def State.holdNotice (s : State) (l : BitVec 16) (team thr v : Nat) (e : Instr) : Option State :=
  match (s.launch? l).bind fun x => x.saved.find? fun y => decide (y.team = team) with
  | none => none
  | some y =>
    let x := y.image
    let a := saveSlot x.desc y.slot
    let n := (s.slotRead x.desc.ckey (a + 0x18) 1).headD 0
    let s := s.setLaunch l fun z => { z with saved := z.saved.map fun w => if w.team = team then { w with held := w.held ++ [e] } else w }
    some (if n.toNat < 254 then
      (s.slotWrite x.desc.ckey (a + 0x20 + 16 * n.toNat) (saveEntry (s.zenith (launchHome l)) 4 thr v)).slotWrite x.desc.ckey (a + 0x18) [n + 1]
      else s)

/-- The blocks of local memory that a save slot lists (R125). -/
def State.slotDirty (s : State) (y : Saved) : List Nat :=
  let w := (s.slotRead y.image.desc.ckey (saveSlot y.image.desc y.slot + 8) 1).headD 0
  (List.range 64).filter fun i => w.getLsbD i

/-- The local memory that a save slot holds; `none` for a corrupt image (R127): poison in it, a length that is out of range, or a coded
stream that does not decode. -/
def State.slotMemory (s : State) (y : Saved) : Option Memory :=
  let a := saveSlot y.image.desc y.slot
  let len := ((s.slotRead y.image.desc.ckey (a + 16) 1).headD 0).toNat
  let bad := (List.range ((0x1000 + len + 63) / 64)).any fun k => s.badAt (placeNow s (a + 64 * k))
  if bad ∨ len % 8 ≠ 0 ∨ 0x4F000 < len then none
  else match decodeBlocks (s.slotDirty y) (s.slotRead y.image.desc.ckey (a + 0x1000) (len / 8)) {} with
    | some ([], m) => some m
    | _ => none

/-- A held notice, now for the team's new endpoint (R126). -/
def heldNotice (e : BitVec 32) (i : Instr) : Instr :=
  match i with
  | .varriveNotice p => .varriveNotice { p with dst := e }
  | .dataReply p => .dataReply { p with dst := e }
  | .doneReply p => .doneReply { p with dst := e }
  | .errorReply p => .errorReply { p with dst := e }
  | .parkedReply p => .parkedReply { p with dst := e }
  | .ticketReply p => .ticketReply { p with dst := e }
  | .busyReply p => .busyReply { p with dst := e }
  | i => i

/-- The team's entries and waits under its new endpoint (R126). -/
def restoreThreads (src : BitVec 32) (c : Core) : Core :=
  { c with thr := c.thr.map (retileThread src 0), tickets := c.tickets.map fun t => { t with req := { t.req with src := src } } }

/-- Timers that a restored team needs again: PROBEs of parked accesses (R86), entries that its receivers refused (R150). -/
def State.rearm (s : State) (c : Core) : State :=
  let s := (c.tickets.filter fun t => t.st == .sent && t.parked).foldl (fun s t => s.after 1 (.probeTimer (c.whoOf t) t.tag t.gen)) s
  let refused (t : Thread) : List Nat := t.q.toList.zipIdx.filterMap fun (q, j) => match q.bind with
    | .toTeam _ _ _ _ _ _ (_ :: _) => some j
    | _ => none
  c.thr.toList.zipIdx.foldl (fun s (t, k) => (refused t).foldl (fun s j => s.after (us 1) (.busyBackoffExpiry ⟨c.launch, c.team, k⟩ (queueTag + j) 0)) s) s

/-- Launches that wait for cores look for victims again (R123, R130). -/
def State.preemptAll (s : State) : State :=
  ((s.dies.toList.flatMap (·.launches)).filter fun l => l.phase == .dispatching && !l.ending && l.left != 0).foldl (fun s l => s.post (.preemption l.id)) s

/-- A saved team bound again to a core with a local memory (R126): its waits name the core, refreshes held for it are delivered (R204), lines
of its tenures that the quad holds are dropped (R205). -/
def State.putTeam (s : State) (launch : BitVec 16) (y : Saved) (core : Nat) (m : Memory) : State :=
  let e := endpointOf s core
  let s := s.repoint { old := s.zenith (launchHome launch), new := e, ctx := y.image.ctx, slot := BitVec.ofNat 16 y.slot, save := false }
  let s1 := s.setLaunch launch fun l => { l with saved := l.saved.filter fun v => decide (v.team ≠ y.team) }
  let c : Core := { restoreThreads e y.image with id := core, mem := m, dirty := s.slotDirty y }
  let s2 := ((s1.bound c).tenuresClean c).rearm c
  (y.halos.foldl (fun s x => s.putHalo core x) s2).settlePhase launch |>.preemptAll

/-- The other modules' holders are asked to name the core (R126); the restore goes on when all have answered. -/
def State.askRestore (s : State) (launch : BitVec 16) (y : Saved) (core : Nat) (ms : List (BitVec 16)) : State :=
  let z := s.zenith (launchHome launch)
  let x : Repoint := { old := z, new := endpointOf s core, ctx := y.image.ctx, slot := BitVec.ofNat 16 y.slot, save := false }
  let s := s.setLaunch launch fun l => { l with saved := update (fun v => decide (v.team = y.team)) (fun v => { v with asked := some ms }) l.saved }
  (ms.foldl (fun s m => s.route (launchHome launch) (x.packet z (m ++ BitVec.ofNat 16 1100) false)) s).after resendAfter (.teamRestore launch y.team core)

/-- `TEAM_RESTORE` (R126, R127): holders re-pointed, local memory from the slot, registers, held notices, replays; a corrupt image seals the
core. DEDUCED, log 29. -/
def execTeamRestore (launch : BitVec 16) (team core : Nat) (s : State) : Out :=
  match (s.launch? launch).bind fun x => x.saved.find? fun y => decide (y.team = team) && y.core == some core with
  | none => .next (if (s.core? core).isNone then s.post (.dispatchCoreFree (core / 1024) core) else s)
  | some y =>
    let ms := y.asked.getD (y.image.holders s)
    if !((s.die (core / 1024)).activeCores (core / 1024)).contains core then
      .next ((s.setLaunch launch fun l => { l with
        saved := update (fun v => decide (v.team = team)) (fun v => { v with core := none, asked := none }) l.saved, phase := .dispatching }).kick launch)
    else if ms ≠ [] then .next (s.askRestore launch y core ms)
    else match s.slotMemory y with
      | some m => .next ((y.held.map (heldNotice (endpointOf s core))).foldl State.post (s.putTeam launch y core m))
      | none => .next ((s.putTeam launch y core {}).post (.coreSeal core 2 0))

/-- The endpoint of the waits of a team at this module changed for another module, which is told (R125). -/
def State.repointAsked (s : State) (p : Packet) : State :=
  let x := Repoint.of p
  (s.repoint x).send (x.packet p.dst p.src true)

/-- Another module's holders have acknowledged (R125, R126). -/
def State.repointDone (s : State) (p : Packet) : State :=
  let x := Repoint.of p
  let m := p.src.extractLsb' 16 16
  if x.save then
    match s.cores.find? fun c => c.ctx == x.ctx && c.saveSlot.elim false fun y => decide (y.1 = x.slot.toNat) with
    | some c => (s.setCore { c with saveSlot := c.saveSlot.map fun y => (y.1, y.2.1.erase m, y.2.2) }).post (.teamSave c.id)
    | none => s
  else
    let mine (v : Saved) : Bool := v.image.ctx == x.ctx && decide (v.slot = x.slot.toNat) && v.asked.isSome
    match (s.dies.toList.flatMap (·.launches)).findSome? fun l => (l.saved.find? mine).map fun v => (l.id, v) with
    | some (l, v) =>
      let s := s.setLaunch l fun x => { x with saved := update mine (fun v => { v with asked := v.asked.map (·.erase m) }) x.saved }
      v.core.elim s fun k => s.post (.teamRestore l v.team k)
    | none => s

/-! ## Ends of teams -/

/-- The exit of a team whose engines have drained and whose log is written (R119). -/
def State.exitTeam (s : State) (c : Core) : State :=
  let s := s.l1Clean c.quadId (fun _ => true) false
  let s := (c.tenures.filter (·.held)).foldl (fun s e =>
    let t := (s.tregion? e.region).getD { num := e.region }
    (s.l1Clean c.quadId (t.lineHas e.rect) true).releaseTenure c.launch c.team e.region e.slot) s
  let s := ((s.withdraw c.launch c.team).endHolds c false).dropRemote c
  (s.post (.teamCompletionRelease c.launch c.team none)).vacate c.id

def execTeamExit (core : Nat) (s : State) : Out :=
  match s.core? core with
  | none => .next s
  | some c =>
    if !c.allHalted then .next s
    else
      let c1 := { c with exiting := true, stopping := false }
      let s1 := s.setCore c1
      let busy := c.lrec.calls && ((c.thr.get 7).run != .call || !c.calls.isEmpty)
      if busy then .next s1
      else if !c.enginesIdle then .next (s1.after 1 (.teamExit core))
      else
        let (s2, go) := s1.emptyLog c1 fun n s => s.after n (.teamExit core)
        let c2 := (s2.core? core).getD c1
        .next (if !go then s2 else if s2.lineWaits c2 then s2.after 1 (.teamExit core) else s2.exitTeam c2)

/-- A completion release is counted (R119); the last one begins the completion action. `result` begins it again with a value. -/
def execTeamCompletionRelease (launch : BitVec 16) (team : Nat) (result : Option W64) (s : State) : Out :=
  match s.launch? launch with
  | none => .next s
  | some l =>
    if l.phase = .free ∨ l.ending then .next s
    else match result with
      | some v => .next (s.complete launch v)
      | none =>
        if l.exited.contains team then .next s
        else
          let s := s.setLaunch launch fun x => { x with done := x.done + 1, exited := x.exited ++ [team] }
          .next (if l.lrec.n ≤ l.done + 1 then s.complete launch l.lrec.cval else s)

/-- Termination, or the restart of a contained restartable team (R128, R129, R247). -/
def execLaunchTermination (launch : BitVec 16) (reason code : BitVec 8) (team : Option Nat) (s : State) : Out :=
  match s.launch? launch, team with
  | some l, some t =>
    if l.lrec.restart ∧ reason = 1 ∧ l.phase ≠ .free ∧ !l.ending then .next ((s.restartTeam launch t).1.kick launch)
    else .next (s.terminate launch reason.toNat code.toNat)
  | _, _ => .next (s.terminate launch reason.toNat code.toNat)

/-- A thread's queue registers bound to a team become unbound (R248). -/
def unbindTo (s : State) (l : BitVec 16) (team : Nat) (t : Thread) : Thread :=
  { t with q := t.q.map fun q => match q.bind with
    | .toTeam win tm _ _ _ _ _ => if windowLaunch s win.rkey = l ∧ tm = team then unbind q else q
    | _ => q }

/-- The lowest spare quad's core 0 takes the sealed core's logical number (R35). The flag tells that no spare remained: then the
failed quad is not recorded either (the spec records it with the replacement), so that the next reset numbers it again. DESIGN CHOICE, log 34. -/
def State.replaceCore (s : State) (die core : Nat) : State × Bool :=
  let d := s.die die
  match d.logicalOf die core, d.spares with
  | some n, sp :: rest =>
    let pq := (List.range 256).find? fun q => (List.range 4).any fun k => quadPlace die q k = core
    (s.setDie die fun d => { d with spares := rest, moved := (n, quadPlace die sp 0) :: d.moved.filter (fun x => decide (x.1 ≠ n))
                                    repairs := (pq.elim d.repairs fun q => setIns d.repairs q) }, false)
  | _, [] => (s, true)
  | none, _ => (s, false)

/-- The record of kind 0x70 of an event that seals a core (R246, R411); sealing by `coreseal` writes none. -/
def State.coreLoss (s : State) (core cause : Nat) : State :=
  if cause = 3 then s
  else s.fault (core / 1024) 0x70 (if cause = 4 then 6 else 7) ((s.core? core).elim 0 (·.ctx.toNat)) 0 (4 + siteOf core * 2 ^ 16)

/-- The `AUX` half of a seal record (R252, kind 0x71): the site, the logical number, whether the launch ends, whether no spare is left. -/
def State.sealAux (s : State) (core : Nat) (ended : Bool) : Nat :=
  let d := s.die (core / 1024)
  siteOf core + ((d.logicalOf (core / 1024) core).getD 0) * 2 ^ 16 + (if ended then 2 ^ 30 else 0) + (if d.spares.isEmpty then 2 ^ 31 else 0)

/-- A spare core takes a sealed core's place, and may then be dispatched to (R35, R248). -/
def State.replaceSealed (s : State) (core logical : Nat) : State :=
  let die := core / 1024
  let n := ((s.die die).corePlace die logical).getD core
  let (s, _) := s.replaceCore die core
  let p := ((s.die die).corePlace die logical).getD core
  if p = n then s else s.post (.dispatchCoreFree die p)

/-- What a sealed core's team leaves: its channels are unbound, its queued calls refused (R248). -/
def State.sealTeam (s : State) (c : Core) : State :=
  let cores := s.cores.map fun x => { x with thr := x.thr.map (unbindTo s c.launch c.team) }
  c.calls.foldl (fun s k => s.send { kind := kError, status := stSealed, vn := 1, tag := k.tag, gen := k.gen, dst := k.caller
                                     src := endpointOf s c.id }) ({ s with cores := cores } : State)

/-- A restartable team runs again, at most three times (R128). -/
def State.runsAgain (s : State) (c : Core) : Bool :=
  let runs : Nat := (((s.launch? c.launch).bind fun l => l.restarts.find? fun r => decide (r.1 = c.team)).map fun r => r.2).getD 0
  c.lrec.restart && decide (runs < 3)

/-- `CORE_SEAL` (R248): cause 0 second mismatch, 1 core state lost, 2 corrupt image, 3 `coreseal`, 4 local memory lost; the record's code
is 1 for causes 3 and 4. -/
def execCoreSeal (core cause : Nat) (pc : W64) (s : State) : Out :=
  let die := core / 1024
  if (s.die die).sealedCores.contains core then .next s
  else
    let s1 := s.coreLoss core cause
    let code := if 3 ≤ cause then 1 else cause
    let pcv := if code = 1 ∧ pc = 0 then s1.sealPc core else if code = 2 then 0 else pc
    let logical := ((s1.die die).logicalOf die core).getD 0
    let s2 := s1.setDie die fun d => { d with sealedCores := d.sealedCores ++ [core] }
    match s2.core? core with
    | none => .next ((s2.fault die 0x71 code 0 pcv.toNat (s1.sealAux core false) 0).replaceSealed core logical)
    | some c =>
      let s3 := s2.sealTeam c
      let s4 := s3.fault die 0x71 code c.ctx.toNat pcv.toNat (s1.sealAux core (!s3.runsAgain c)) (c.team + c.launch.toNat * 2 ^ 24)
      let s5 := if c.lrec.restart then ((s4.restartTeam c.launch c.team).1.kick c.launch) else s4.terminate c.launch 1 0x10
      .next (s5.replaceSealed core logical)

/-! ## Threads and queues (R146, R147, R150, R313) -/

/-- A thread that has been idle for 4 µs lets its rows enter retention (R146). DESIGN CHOICE, log 7. -/
def execRowRetentionEntry (t : ThrId) (s : State) : Out :=
  .next (s.onThread t fun x => if x.run != .ready && decide (x.idleAt + us 4 ≤ s.now) then { x with retained := true } else x)

/-- The end of a `sleep` (R313). -/
def execSleepExpiry (t : ThrId) (s : State) : Out :=
  .next (s.onThread t fun x => match x.run with
    | .sleeping til => if til ≤ s.now then { x with run := .ready } else x
    | _ => x)

/-- The end of a `yield` (R313). -/
def execYieldExpiry (t : ThrId) (s : State) : Out :=
  .next (s.onThread t fun x => match x.run with
    | .yielded _ til => if til ≤ s.now then { x with run := .ready } else x
    | _ => x)

/-- A thread of this module, of a bound or a saved team. -/
def State.thread? (s : State) (t : ThrId) : Option Thread :=
  match s.coreOf? t.launch t.team with
  | some c => some (c.thr.get (Fin.ofNat 8 t.thr))
  | none => ((s.launch? t.launch).bind fun l => l.saved.find? fun v => decide (v.team = t.team)).map fun v => v.image.thr.get (Fin.ofNat 8 t.thr)

/-- Whether a queue register is bound to the sender of a packet on its channel. -/
def boundTo (s : State) (q : Queue) (p : Packet) : Bool :=
  match q.bind with
  | .toTeam win team u k _ _ _ =>
    let from_ := (p.payload.getD (if p.kind = kQueue then 1 else 0) 0).toNat
    let who := if ownModule s (p.src.extractLsb' 16 16) then ownModule s win.wmodule && windowLaunch s win.rkey == BitVec.ofNat 16 from_
      else win.wmodule == p.src.extractLsb' 16 16
    who && !q.failed && decide (team = from_ / 2 ^ 16) && u == p.thr && k == p.aux.setWidth 3
  | _ => false

/-- The thread and queue register that a channel's packet is for. -/
def chanTarget (s : State) (p : Packet) (team : Nat) : ThrId × Fin 8 :=
  (⟨windowLaunch s p.rkey, team, p.aux.toNat / 64 % 8⟩, Fin.ofNat 8 (p.aux.toNat / 8 % 8))

/-- A mesh channel by its sender: module, launch and team, thread and queue. -/
def chanKey (s : State) (p : Packet) : BitVec 16 × W64 × Nat :=
  let m := p.src.extractLsb' 16 16
  (if ownModule s m then s.modid else m, p.payload.getD (if p.kind = kQueue then 1 else 0) 0, p.thr.toNat * 8 + p.aux.toNat % 8)

/-- Entries of a packet's channel that were refused and have not come again. -/
def State.refusedOf (s : State) (p : Packet) : Nat :=
  ((s.refusing.find? fun x => (x.1, x.2.1, x.2.2.1) == chanKey s p).map (·.2.2.2)).getD 0

def State.setRefused (s : State) (p : Packet) (n : Nat) : State :=
  let (a, b, c) := chanKey s p
  let rest := s.refusing.filter fun x => (x.1, x.2.1, x.2.2.1) != (a, b, c)
  { s with refusing := if n = 0 then rest else (a, b, c, n) :: rest }

/-- An entry delivered to its receiver, or `none` when it is refused: the team is saved, its end is not bound to the sender, or an earlier
entry was refused and has not come again, which the sender's resends do in order (R150). -/
def State.queueDeliver (s : State) (p : Packet) : Option State :=
  let (t, j) := chanTarget s p p.addr.toNat
  let n := s.refusedOf p
  match s.coreOf? t.launch t.team with
  | none => none
  | some c =>
    let q := (c.thr.get (Fin.ofNat 8 t.thr)).q.get j
    if s.windowKey p.rkey && boundTo s q p && (p.retx || n == 0) then
      some ((s.setRefused p (n - 1)).onThread t fun x => x.setQ j fun q => { q with fifo := q.fifo ++ [p.payload.headD 0] })
    else none

/-- A channel's credit count or link changed. -/
def Queue.chan (f : Nat → Bool → Nat × Bool) (q : Queue) : Queue :=
  match q.bind with
  | .toTeam w t u k l c r => let (c, l) := f c l; { q with bind := .toTeam w t u k l c r }
  | _ => q

def execQueueEntryArrival (p : Packet) (s : State) : Out :=
  if p.mode = 1 then
    let (t, j) := chanTarget s p p.addr.toNat
    .next (s.onThread t fun x => x.setQ j (Queue.chan fun c l => (c + 1, l)))
  else match s.queueDeliver p with
    | some s => .next s
    | none =>
    let s := if p.retx then s else s.setRefused p (s.refusedOf p + 1)
    .next (s.send { p with kind := kBusy, vn := 1, mode := 0, len := 1, dst := p.src, src := p.dst })

/-- A credit returned to the sender of a mesh channel (R147). -/
def execQueueCreditReturn (t : ThrId) (q : Nat) (s : State) : Out :=
  .next (s.onThread t fun x => x.setQ (Fin.ofNat 8 q) (Queue.chan fun c l => (Nat.min 8 (c + 1), l)))

/-- The answer to a mesh bind request: mode 1, with its status. -/
def bindAnswer (p : Packet) (st : BitVec 4) : Packet :=
  { kind := kBind, mode := 1, status := st, dst := p.src, src := p.dst, thr := p.thr, aux := p.aux &&& 7 }

/-- `MESH_BIND_REQUEST` (R333): the key's checks, then the channel is linked when both ends are bound to each other; an answer (mode 1)
links or fails the requester's end. A team that is not bound yet is asked again. -/
def execMeshBindRequest (p : Packet) (s : State) : Out :=
  if p.mode = 1 then
    match s.cores.find? fun c => endpointOf s c.id == p.dst with
    | none => .next s
    | some c =>
      let t : ThrId := ⟨c.launch, c.team, p.thr.toNat⟩
      .next (s.onThread t fun x => x.setQ (Fin.ofNat 8 p.aux.toNat) fun q =>
        if p.status = 0 then q.chan fun n _ => (n, true) else match q.bind with
          | .toTeam .. => { q with failed := true }
          | _ => q)
  else
    let team := p.addr.toNat / 0x40000
    let (t, j) := chanTarget s p team
    if !s.windowKey p.rkey then .next (s.send (bindAnswer p stKey))
    else match s.launch? t.launch with
      | none => .next (s.send (bindAnswer p stKey))
      | some l =>
        if l.lrec.n ≤ team then .next (s.send (bindAnswer p stBounds))
        else if l.exited.contains team then .next (s.send (bindAnswer p stNoEp))
        else match s.thread? t with
          | none => .next (s.after (us 1) (.meshBindRequest p))
          | some x =>
            if boundTo s (x.q.get j) p then
              .next (((s.setRefused p 0).onThread t fun x => x.setQ j (Queue.chan fun c _ => (c, true))).send (bindAnswer p 0))
            else .next s

end

end Sys2Proof.Machine
end

