-- ==== Sys2Proof/Machine/Gate.lean ====
section
/-!
DEFINITION. Keyed requests at their target (R74–R89, R163–R165, R221): the key's check gateway, its flows, reply cache and tickets;
the owners, memory ports and message engines; and calls on a team's thread 7.
-/
namespace Sys2Proof.Machine
open Sys2Proof

noncomputable section

/-! ## What a request asks -/

/-- Requests whose replies are not cached (R87). -/
def idempotent (p : Packet) : Bool := (p.kind == kRld && (reqMode p == 0 || reqMode p == 3)) || p.kind == kRget || p.kind == kProbe

/-- What the owner does for it. -/
def reqKind (p : Packet) : AccKind :=
  if p.kind = kRld then (if reqMode p = 0 then .read else .ldfe (reqMode p))
  else if p.kind = kRst then (if reqMode p = 3 then .write else .stfe (reqMode p))
  else if p.kind = kRamo then .amo (p.aux.setWidth 3)
  else .cas

/-- The page permissions it needs (R229). -/
def reqNeed (p : Packet) : PageNeed :=
  if p.kind = kRget then { rd := true }
  else if p.kind = kRput then { w := true }
  else match reqKind p with
    | .read => { rd := true }
    | .ldfe 2 => { rd := true, w := true }
    | .ldfe _ => { rd := true }
    | .write | .stfe _ => { w := true }
    | _ => { rd := true, w := true }

/-- A number of `n` bytes from 8-byte words. -/
def wordsNat (ws : List W64) : Nat := ws.foldr (fun w acc => w.toNat + 2 ^ 64 * acc) 0

/-- The stored or first operand value of a request. -/
def reqData (p : Packet) (n : Nat) : Nat := wordsNat p.payload % 2 ^ (8 * n)

/-- `n` bytes as 8-byte words. -/
def natWords (v n : Nat) : List W64 := (List.range ((n + 7) / 8)).map fun k => BitVec.ofNat 64 (sliceBytes v (8 * k) 8)

/-! ## Replies -/

/-- A reply with status `OK`. -/
def State.ok (s : State) (p : Packet) (v : Nat) (aux : Nat := 0) : State :=
  s.answer p (replyTo p (if p.kind = kRld ∨ p.kind = kRget then kData else kDone) stOk v aux)

/-- DATA with a payload. -/
def State.okWords (s : State) (p : Packet) (ws : List W64) : State :=
  s.answer p { replyTo p kData stOk 0 with payload := ws, len := BitVec.ofNat 8 ((ws.length + 1) / 2) }

def State.error (s : State) (p : Packet) (st : BitVec 4) : State := s.answer p (replyTo p kError st 0)
def State.busy (s : State) (p : Packet) : State := s.answer p (replyTo p kBusy stOk 0)
def State.parkedReply (s : State) (p : Packet) : State := s.answer p (replyTo p kParked stOk 0)

/-! ## Flows (R79) -/

def Flow.of (f : Flow) (gw : Nat) (p : Packet) : Bool := decide (f.gw = gw) && f.src == p.src && f.thr == p.thr && f.key == p.rkey

/-- The request's place in its flow: `none` when it is dropped. DEDUCED, log 32. -/
def State.flowCheck (s : State) (d gw : Nat) (p : Packet) : Option State :=
  match (s.die d).flows.find? (·.of gw p) with
  | none =>
    if ((s.die d).flows.filter fun f => decide (f.gw = gw)).length ≥ 4096 then some s
    else
      let f : Flow := { gw := gw, src := p.src, thr := p.thr, key := p.rkey, seq := p.seq + 1, last := s.now }
      some ((s.setDie d fun x => { x with flows := x.flows ++ [f] }).after (us 1000) (.flowIdleTimeout d gw p.src p.thr p.rkey))
  | some f =>
    let e := (p.seq - f.seq).toNat
    if 0 < e ∧ e < 2 ^ 15 then none
    else
      let g (x : Flow) : Flow := { x with seq := if e = 0 then p.seq + 1 else x.seq, last := s.now }
      some (s.setDie d fun x => { x with flows := Machine.update (·.of gw p) g x.flows })

/-! ## The reply cache (R87) -/

/-- The message engine that serves a request through a launch window: its die and the number of its cache. -/
def State.engineOf (s : State) (p : Packet) : Option Core :=
  if s.windowKey p.rkey then s.coreOf? (windowLaunch s p.rkey) (p.addr.toNat / 0x40000) else none

/-- The caches that keep a request's reply. -/
def State.caches (s : State) (p : Packet) : List (Nat × Nat) :=
  checkGw p.rkey :: ((s.engineOf p).toList.map fun c => (c.die, 16 + c.id % 1024))

/-- The entry of a request. -/
def State.cachedOf (s : State) (p : Packet) : Option CachedReply :=
  (s.caches p).findSome? fun x => (s.die x.1).replies.find? fun r => decide (r.gw = x.2) && r.of p

/-- An entry is free in a cache, or the request's own is there. DEDUCED, log 32. -/
def State.cacheRoom (s : State) (p : Packet) (x : Nat × Nat) : Bool :=
  let rs := (s.die x.1).replies.filter fun r => decide (r.gw = x.2)
  rs.any (·.of p) || decide (rs.length < 8192)

def State.cacheOpen (s : State) (p : Packet) : State :=
  (s.caches p).foldl (fun s (x : Nat × Nat) => s.setDie x.1 fun d =>
    { d with replies := d.replies.filter (fun r => !(r.of p && decide (r.gw = x.2))) ++ [{ gw := x.2, src := p.src, tag := p.tag, gen := p.gen, last := s.now }] }) s

/-- The cached reply, or PARKED while the request is parked, sent again. -/
def State.cachedAnswer (s : State) (p : Packet) (r : CachedReply) : State :=
  match r.reply with
  | some q => s.answer p q
  | none => s.parkedReply p

/-! ## Tickets (R82, R83) -/

/-- The block whose requests of the flow wait for one another. -/
def reqBlock (r : Region) (p : Packet) : Nat := (r.vbase.toNat + p.addr.toNat) % 2 ^ 64 / 256

def GwTicket.same (t : GwTicket) (p : Packet) : Bool := t.req.src == p.src && t.req.tag == p.tag && t.req.gen == p.gen
def GwTicket.flow (t : GwTicket) (p : Packet) : Bool := t.req.src == p.src && t.req.thr == p.thr && t.req.rkey == p.rkey

/-- The TICKET reply of a ticket. DEDUCED, log 32. -/
def State.ticketReply (s : State) (p : Packet) (t : GwTicket) : State :=
  let r := replyTo p kTicket stOk (t.named.elim 0 fun n => n + 2 ^ 16) t.num
  s.answer p { r with src := t.endp }

/-- A ticket number that no other pending ticket of its endpoint, or of its gateway's die, has. DEDUCED, log 32. -/
def State.ticketNumber (s : State) (d : Nat) (endp : BitVec 32) : Nat :=
  let used := (s.die d).gwTickets ++ (s.dies.toList.flatMap (·.gwTickets)).filter fun t => t.endp == endp
  ((List.range (used.length + 1)).find? fun n => !used.any fun t => decide (t.num = n)).getD 0

/-- A request ticketed, or BUSY when the gateway holds 1,024 pending tickets. -/
def State.ticketed (s : State) (d gw : Nat) (p : Packet) (endp : BitVec 32) (svc : Bool) (named : Option Nat) : State × Option Nat :=
  if ((s.die d).gwTickets.filter fun t => decide (t.gw = gw) && !t.told).length ≥ 1024 then (s.busy p, none)
  else
    let t : GwTicket := { gw := gw, num := s.ticketNumber d endp, req := p, endp := endp, svc := svc, named := named }
    ((s.setDie d fun x => { x with gwTickets := x.gwTickets ++ [t] }).ticketReply p t, some t.num)

/-- The latest ticket of an earlier request of the flow to the same block (R83). -/
def State.earlier (s : State) (d gw : Nat) (r : Region) (p : Packet) : Option GwTicket :=
  ((s.die d).gwTickets.filter fun t => decide (t.gw = gw) && t.flow p && decide (reqBlock r t.req = reqBlock r p)
    && decide (2 ^ 15 ≤ (t.req.seq - p.seq).toNat)).getLast?

/-! ## Translation at the gateway (R77, R228, R229) -/

/-- Bytes of one page: physical address, count, key index. -/
structure Seg where
  pa  : Nat
  n   : Nat
  key : BitVec 10

/-- The result of translating a request's range. -/
inductive GwXlat where
  | ok (segs : List Seg)
  /-- A service is needed: address, type found and level. -/
  | service (va code : Nat)
  | err (s : State) (st : BitVec 4)

/-- The parts of a range that lie in one page each. -/
def pageParts : Nat → Nat → Nat → List (Nat × Nat)
  | 0, _, _ => []
  | f + 1, va, n =>
    let k := 65536 - va % 65536
    if n ≤ k then [(va, n)] else (va, k) :: pageParts f (va + k) (n - k)

/-- One part. -/
def State.gwPage (s : State) (d : Nat) (ctx : BitVec 6) (root : Nat) (need : PageNeed) (va n : Nat) : GwXlat :=
  if !canonical va then .err s stNotMapped
  else match walk s root (va % 2 ^ 56) with
    | .page pa w0 w1 _ _ =>
      if paKind s pa == .hole then .err s stNotMapped
      else if !need.met w0 ∨ !(paKind s pa).isMem then .err s stPerm
      else .ok [⟨pa, n, keyIndex w1.toNat⟩]
    | .invalid lvl t => .service va (t + 16 * lvl)
    | .pending lvl => .service va (4 + 16 * lvl)
    | .retired _ => .err s stRetired
    | .malformed lvl t ea => .err (s.fault d 0x76 (64 + t + 16 * lvl) ctx.toNat va 0 ea) stNotMapped

def State.gwXlat (s : State) (d : Nat) (ctx : BitVec 6) (root : Nat) (need : PageNeed) : List (Nat × Nat) → GwXlat
  | [] => .ok []
  | (va, n) :: l => match s.gwPage d ctx root need va n with
    | .ok a => match State.gwXlat s d ctx root need l with
      | .ok b => .ok (a ++ b)
      | x => x
    | x => x

/-- The effective address of a request (R77), as a canonical address. -/
def reqVa (r : Region) (p : Packet) : Nat :=
  let va := (r.vbase.toNat + p.addr.toNat) % 2 ^ 64
  if va / 2 ^ 55 % 2 = 1 then va % 2 ^ 56 + (2 ^ 64 - 2 ^ 56) else va

/-- The pages of a request's bytes. -/
def reqParts (r : Region) (p : Packet) : List (Nat × Nat) := pageParts (reqSize p / 65536 + 2) (reqVa r p) (reqSize p)

/-- The translation of a request's bytes. -/
def State.reqXlat (s : State) (d : Nat) (r : Region) (p : Packet) : GwXlat :=
  s.gwXlat d r.ctx (s.ctxDesc r.ctx).ptroot (reqNeed p) (reqParts r p)

/-- The requester's identity, and what the request asks of an access table (R104). -/
def reqMaster (p : Packet) : Master := ⟨p.ctx, p.priv, p.cls⟩
def reqAsks (p : Packet) : Nat := if p.kind = kRget then 1 else if p.kind = kRput then 2 else accNeed (reqKind p)

/-- The request's translation or its bytes need an L2 that serves no access now (R171). -/
def State.reqWaits (s : State) (d gw : Nat) (p : Packet) : Bool :=
  let r := (s.die d).region gw (p.rkey.toNat / 2 ^ 20)
  s.dies.any (·.l2cfg.getLsbD 63) && (regionRefuses r p).isNone && !s.windowKey p.rkey &&
    (((reqParts r p).any fun x => canonical x.1 && walkWaits s (x.1 % 2 ^ 56) 3 ((s.ctxDesc r.ctx).ptroot * 2 ^ 14)) ||
      match s.reqXlat d r p with
      | .ok segs => segs.any fun g => l2Waits s (placeNow s g.pa)
      | _ => false)

/-- Cycles until an L2 serves accesses again (R170, R171). -/
def State.busyEnd (s : State) : Nat :=
  Nat.max 1 (s.timers.foldl (fun n t => match t.2 with
    | .l2BusyComplete _ => Nat.min n (t.1 - s.now)
    | _ => n) (us 100))

/-! ## Owners: memory (R80, R85, R221) -/

/-- The blocks of the segments, each with its offset from the start. -/
def segBlocks : Nat → List Seg → List (Seg × Nat)
  | _, [] => []
  | o, g :: l => ((blocksOf g.pa g.n).map fun (a, n) => (⟨a, n, g.key⟩, o + (a - g.pa))) ++ segBlocks (o + g.n) l

/-- An access at its port, after the home slice has given up its copy and quads their ownership (R221). -/
def State.atPort (s : State) (acc : PortAccess) : PortRes := (s.yieldLine acc.pa).portExec acc

/-- All 64 bytes of a block written at its port, which clears POISON (R44); a refusal is recorded (R104). -/
def State.portWhole (s : State) (pa v : Nat) (key : BitVec 10) (m : Master) : Except (State × BitVec 4) State :=
  let s := s.yieldLine pa
  let a := placeNow s pa
  if s.admits a m 2 then .ok (((s.markMotion pa).portTouch a true true).writePa a 64 v key) else .error (s.refuseAt a m 2, stPerm)

/-- Bytes read; a refusal's or poison's status. -/
def State.gwRead (s : State) (m : Master) (segs : List Seg) : Except (State × BitVec 4) (State × Nat) :=
  (segBlocks 0 segs).foldlM (fun (x : State × Nat) b =>
    match x.1.atPort { pa := b.1.pa, size := b.1.n, kind := .read, key := b.1.key, master := m } with
    | .done s v _ => .ok (s, x.2 + v * 2 ^ (8 * b.2))
    | .refused s => .error (s, stPerm)
    | .poison s => .error (s, stPoison)
    | .parked s => .error (s, stPerm)) (s, 0)

/-- Bytes written where the mask has a bit: a whole block at once, otherwise words or bytes. -/
def State.gwWrite (s : State) (m : Master) (segs : List Seg) (v : Nat) (mask : Nat → Bool) : Except (State × BitVec 4) State :=
  (segBlocks 0 segs).foldlM (fun s b =>
    let whole := (List.range b.1.n).all fun i => mask (b.2 + i)
    let parts : List (Nat × Nat) :=
      if whole then (List.range ((b.1.n + 7) / 8)).map fun k => (8 * k, Nat.min 8 (b.1.n - 8 * k))
      else ((List.range b.1.n).filter fun i => mask (b.2 + i)).map fun i => (i, 1)
    if whole && b.1.n == 64 then s.portWhole b.1.pa (sliceBytes v b.2 64) b.1.key m
    else parts.foldlM (fun s (q : Nat × Nat) =>
      match s.atPort { pa := b.1.pa + q.1, size := q.2, kind := .write, data := BitVec.ofNat 128 (sliceBytes v (b.2 + q.1) q.2), key := b.1.key, master := m } with
      | .done s _ _ => .ok s
      | .refused s => .error (s, stPerm)
      | .poison s => .error (s, stPoison)
      | .parked s => .error (s, stPerm)) s) s

/-- The full/empty bits of the words of the segments, and their change to given bits (the engines' full/empty form, R337). -/
def State.gwBits (s : State) (segs : List Seg) : Nat :=
  (segBlocks 0 segs).foldl (fun acc b => (List.range (b.1.n / 8)).foldl (fun acc k =>
    acc + (if !hasMeta s (b.1.pa + 8 * k) || s.fullAt (placeNow s (b.1.pa + 8 * k)) then 2 ^ (b.2 / 8 + k) else 0)) acc) 0

def State.gwSetBits (s : State) (segs : List Seg) (bits : Nat) : State :=
  (segBlocks 0 segs).foldl (fun s b => (List.range (b.1.n / 8)).foldl (fun s k =>
    let pa := b.1.pa + 8 * k
    let f := decide (bits / 2 ^ (b.2 / 8 + k) % 2 = 1)
    let s := if f then s else s.metaConflict pa
    let a := placeNow s pa
    if s.fullAt a = f then s else (s.setFullAt a f).retryAt pa) s) s

/-- The byte mask of a vector store, or all bytes. -/
def reqMask (p : Packet) (i : Nat) : Bool := if p.size = 5 then (p.payload.getD 8 0).getLsbD i else true

/-- A single-word access at its port. -/
def State.gwWord (s : State) (p : Packet) (m : Master) (g : Seg) (n : Nat) : State :=
  let acc : PortAccess := { pa := g.pa, size := n, kind := reqKind p, data := BitVec.ofNat 128 (if p.kind = kRcas then (p.payload.getD 1 0).toNat else (p.payload.headD 0).toNat)
                            cmp := BitVec.ofNat 128 (p.payload.headD 0).toNat, key := g.key, master := m, waiter := some (.remote p) }
  match s.atPort acc with
  | .done s v ok => s.ok p v (if reqFe p ∨ ok then 1 else 0)
  | .refused s => s.error p stPerm
  | .poison s => s.error p stPoison
  | .parked s =>
    if reqFf p then s.ok p 0 0
    else match s.parkAt acc with
      | some s => s.parkedReply p
      | none => s.busy p

/-- A request executed at its owner in memory. -/
def State.atOwner (s : State) (p : Packet) (m : Master) (segs : List Seg) : State :=
  let n := reqSize p
  let fe := p.mode.getLsbD 4
  let fin (x : Except (State × BitVec 4) State) : State := match x with
    | .ok s => s
    | .error (s, st) => s.error p st
  if p.kind = kRget ∨ (p.kind = kRld ∧ reqMode p = 0) then
    fin ((s.gwRead m segs).map fun (s, v) =>
      if p.kind = kRget ∨ n = 64 then s.okWords p (natWords v n ++ if fe then [BitVec.ofNat 64 (s.gwBits segs)] else []) else s.ok p v)
  else if p.kind = kRput ∨ (p.kind = kRst ∧ reqMode p = 3) then
    fin ((s.gwWrite m segs (reqData p n) (reqMask p)).map fun s =>
      (if fe then s.gwSetBits segs (p.payload.getLastD 0).toNat else s).ok p 0)
  else match segs with
    | g :: _ => s.gwWord p m g n
    | [] => s.error p stPerm

/-- A request to memory: translation, tensor regions (R201), the gateway's access table (R104), metadata (R43), its owner. DEDUCED, log 38. -/
def State.atMemory (s : State) (d gw : Nat) (r : Region) (p : Packet) : State :=
  let n := reqSize p
  let va := reqVa r p
  match s.reqXlat d r p with
  | .err s st => s.error p st
  | .service a code =>
    match s.ticketed d gw p p.dst true none with
    | (s, none) => s
    | (s, some num) => s.post (.serviceRequest d r.ctx a (BitVec.ofNat 8 (64 + code)) (reqNeed p).w false (.ticket gw num))
  | .ok segs =>
    let writes := p.kind == kRput || p.kind == kRamo || p.kind == kRcas || p.kind == kRst
    if writes && !(tenured s r.ctx ((List.range n).map (va + ·))).isEmpty then s.error p stPerm
    else match segs.find? fun g => !accessOk (s.die d) (1090 + gw) g.pa (reqMaster p) (reqAsks p) with
      | some g => (s.refuse d (1090 + gw) g.pa (reqMaster p) (reqAsks p)).error p stPerm
      | none =>
        if (reqFe p || p.mode.getLsbD 4) && segs.any (fun g => !hasMeta s g.pa) then s.error p stNoMeta
        else s.atOwner p ⟨r.ctx, false, 3⟩ segs

/-! ## Owners: message engines (R89, R163, R164) -/

/-- Bytes of a local memory written, with the blocks noted (R124). -/
def Core.sramStore (c : Core) (off n v : Nat) (mask : Nat → Bool) : Core :=
  (List.range n).foldl (fun c i => if mask i then { c.soil (off + i) with mem := c.mem.store (off + i) 1 (sliceBytes v i 1) } else c) c

/-- Waiting accesses of other teams at a message engine (R163). -/
def Core.remoteWaits (c : Core) : Nat := (c.localWaits.filter fun w => match w.who with
  | .remote _ => true
  | _ => false).length

/-- A full/empty access at the SRAM. -/
def State.sramFe (s : State) (c : Core) (off : Nat) (p : Packet) : State :=
  let k := reqKind p
  let full := c.mem.full off
  if !feReady k full then
    if reqFf p then s.ok p 0 0
    else if 64 ≤ c.remoteWaits then s.busy p
    else (s.setCore { c with localWaits := c.localWaits ++ [⟨off, .remote p⟩] }).parkedReply p
  else
    let old := c.mem.read off 8
    let c1 := match k with
      | .stfe md => if md = 2 then c else c.sramStore off 8 (p.payload.headD 0).toNat fun _ => true
      | _ => c
    let after := feAfter k full
    let s1 :=
      if after = full then s.setCore c1
      else
        let c2 : Core := { c1.soil off with mem := c1.mem.setFull off after }
        let (c3, s) := Core.retryLocal (c2.localWaits.length + 1) off c2 s
        s.setCore c3
    s1.ok p (accValue k old full) 1

/-- The full/empty bits of a local range set, and the waits they serve. -/
def State.sramSetBits (s : State) (core off n bits : Nat) : State :=
  (List.range (n / 8)).foldl (fun s k => match s.core? core with
    | none => s
    | some c =>
      let f := decide (bits / 2 ^ k % 2 = 1)
      let a := off + 8 * k
      if c.mem.full a = f then s
      else
        let (c, s) := Core.retryLocal (c.localWaits.length + 1) a { c.soil a with mem := c.mem.setFull a f } s
        s.setCore c) s

/-- A call (R89, R339): accepted, and begun when thread 7 waits. DEDUCED, log 33. -/
def State.callAt (s : State) (c : Core) (p : Packet) : State :=
  let h : Cap := ⟨BitVec.ofNat 128 (wordsNat (p.payload.take 2)), p.aux.getLsbD 0⟩
  let code := c.desc.codecap
  if !c.lrec.calls ∨ c.exiting ∨ c.allHalted then s.error p stNoCall
  else if !h.tag ∨ h.kind ≠ 4 ∨ h.base < code.base ∨ code.top < h.top then s.error p stPerm
  else if 16 ≤ c.calls.length then s.busy p
  else
    let k : Call := { handler := h, args := p.payload.drop 2, caller := p.src, ctx := p.ctx, tag := p.tag, gen := p.gen }
    ((s.setCore { c with calls := c.calls ++ [k] }).ok p 0).post (.callStart c.id)

/-- An access at the SRAM, at once (R164). DEDUCED, log 33. -/
def State.atEngine (s : State) (c : Core) (p : Packet) : State :=
  let off := p.addr.toNat % 0x40000
  let n := reqSize p
  if p.kind = kRcall then s.callAt c p
  else if c.lrec.localk * 1024 < off + n then s.error p stPerm
  else if reqFe p then s.sramFe c off p
  else if p.kind = kRget then
    let bits := (List.range (n / 8)).foldl (fun acc k => acc + if c.mem.full (off + 8 * k) then 2 ^ k else 0) 0
    s.okWords p (natWords (c.mem.read off n) n ++ if p.mode.getLsbD 4 then [BitVec.ofNat 64 bits] else [])
  else if p.kind = kRld then
    if n = 64 then s.okWords p (natWords (c.mem.read off n) n) else s.ok p (c.mem.read off n)
  else if p.kind = kRput then
    let s := s.setCore (c.sramStore off n (reqData p n) fun _ => true)
    (if p.mode.getLsbD 4 then s.sramSetBits c.id off n (p.payload.getLastD 0).toNat else s).ok p 0
  else if p.kind = kRst then (s.setCore (c.sramStore off n (reqData p n) (reqMask p))).ok p 0
  else
    let old := c.mem.read off n
    let acc : PortAccess := { pa := off, size := n, kind := reqKind p, master := ⟨c.ctx, false, 3⟩, cmp := BitVec.ofNat 128 (p.payload.headD 0).toNat
                              data := BitVec.ofNat 128 (if p.kind = kRcas then (p.payload.getD 1 0).toNat else (p.payload.headD 0).toNat) }
    match accData acc old with
    | some v => (s.setCore (c.sramStore off n v fun _ => true)).ok p old 1
    | none => s.ok p old 0

/-- A request to a team (R164). -/
def State.atTeam (s : State) (d gw : Nat) (p : Packet) : State :=
  let id := windowLaunch s p.rkey
  let team := p.addr.toNat / 0x40000
  match s.launch? id with
  | none => s.error p stKey
  | some l =>
    match s.coreOf? id team with
    | some c => s.atEngine c p
    | none =>
      if l.saved.any fun x => decide (x.team = team) then (s.ticketed d gw p (s.zenith (launchHome id)) false none).1
      else if l.next ≤ team ∨ l.redo.any fun x => decide (x.1 = team) then (s.ticketed d gw p p.dst false none).1
      else s.error p stNoEp

/-! ## The check gateway (R77) -/

/-- The page service that the range of a request needs: address and code. -/
def State.serviceOf (s : State) (d : Nat) (r : Region) (p : Packet) : Option (Nat × Nat) :=
  if s.windowKey p.rkey then none
  else
    match s.reqXlat d r p with
    | .service a code => some (a, code)
    | _ => none

/-- A shadow of ticket `t` (R83): with a service of its own where its translation needs one. -/
def State.shadow (s : State) (d gw : Nat) (r : Region) (p : Packet) (t : GwTicket) : State :=
  match s.serviceOf d r p with
  | some (a, code) =>
    match s.ticketed d gw p t.endp true (some t.num) with
    | (s, some n) => s.post (.serviceRequest d r.ctx a (BitVec.ofNat 8 (64 + code)) (reqNeed p).w false (.ticket gw n))
    | (s, none) => s
  | none =>
    match s.ticketed d gw p t.endp false (some t.num) with
    | (s, some n) => if t.told then s.tellTicket d gw n stOk else s
    | (s, none) => s

/-- The checks of the key's entry, the shadow rule, the owner. -/
def State.checked (s : State) (d gw : Nat) (p : Packet) : State :=
  let r := (s.die d).region gw (p.rkey.toNat / 2 ^ 20)
  match regionRefuses r p with
  | some st => s.error p st
  | none =>
    match (s.die d).gwTickets.find? fun t => decide (t.gw = gw) && t.same p && !t.told with
    | some t => s.ticketReply p t
    | none =>
      let s := s.setDie d fun x => { x with gwTickets := x.gwTickets.filter fun t => !(decide (t.gw = gw) && t.same p) }
      match s.earlier d gw r p with
      | some t => s.shadow d gw r p t
      | none => if s.windowKey p.rkey then s.atTeam d gw p else s.atMemory d gw r p

/-- A keyed request at its check gateway: it waits for a busy L2 (R171); then its flow (R79), the reply cache (R87), the checks. DEDUCED,
log 32. DEDUCED, log 37. -/
def State.gateway (s : State) (p : Packet) : State :=
  let (d, gw) := checkGw p.rkey
  if badEndpoint p.dst then s.error p stNoEp
  else if s.reqWaits d gw p then s.after s.busyEnd (packetStep (s.windowKey p.rkey) p)
  else match s.flowCheck d gw p with
    | none => s
    | some s =>
      match s.cachedOf p, p.retx with
      | some r, true => s.cachedAnswer p r
      | _, _ =>
        if idempotent p then s.checked d gw p
        else if (s.caches p).any fun x => !s.cacheRoom p x then s.busy p
        else (s.cacheOpen p).checked d gw p

/-! ## The requests' steps -/

def execRldRequest (p : Packet) (s : State) : Out := .next (s.gateway { p with kind := kRld })
def execRstRequest (p : Packet) (s : State) : Out := .next (s.gateway { p with kind := kRst })
def execRamoRequest (p : Packet) (s : State) : Out := .next (s.gateway { p with kind := kRamo })
def execRcasRequest (p : Packet) (s : State) : Out := .next (s.gateway { p with kind := kRcas })
def execRcallRequest (p : Packet) (s : State) : Out := .next (s.gateway { p with kind := kRcall })
def execRgetRequest (p : Packet) (s : State) : Out := .next (s.gateway { p with kind := kRget })
def execRputRequest (p : Packet) (s : State) : Out := .next (s.gateway { p with kind := kRput })

/-- A request addressed to a team through a launch window. -/
def execLaunchWindowRequest (p : Packet) (s : State) : Out := .next (s.gateway p)

/-- A PROBE (R86): PARKED again, or the final reply. DEDUCED, log 32. -/
def execProbeRequest (p : Packet) (s : State) : Out :=
  .next (if badEndpoint p.dst then s.error p stNoEp
  else match s.cachedOf p with
    | some r => s.cachedAnswer p r
    | none => s.parkedReply p)

/-- The next call begins on thread 7 (R89, R339). -/
def execCallStart (core : Nat) (s : State) : Out :=
  match s.core? core with
  | none => .next s
  | some c =>
    let t := c.thr.get 7
    match t.run, c.calls with
    | .call, k :: ks =>
      let arg (i : Nat) : Cap := Cap.ofInt (k.args.getD i 0)
      let regs := ((((((t.c.set 1 (arg 0)).set 2 (arg 1)).set 3 (arg 2)).set 4 (arg 3)).set 5 (Cap.ofInt (k.caller.setWidth 64))).set 6
        (Cap.ofInt (k.ctx.setWidth 64)))
      .next (s.setCore { c with calls := ks, thr := c.thr.set 7 { t with c := regs, pc := Cap.unseal k.handler, run := .ready } })
    | _, _ => .next s

/-! ## Timers and replicas at a gateway -/

/-- A flow idle for 1 ms is discarded (R79), with tickets whose replay was never sent. -/
def execFlowIdleTimeout (die gw : Nat) (src : BitVec 32) (thr : BitVec 3) (key : BitVec 32) (s : State) : Out :=
  let mine (f : Flow) : Bool := decide (f.gw = gw) && f.src == src && f.thr == thr && f.key == key
  match (s.die die).flows.find? mine with
  | none => .next s
  | some f =>
    if f.last + us 1000 ≤ s.now then
      .next (s.setDie die fun d => { d with
        flows := d.flows.filter fun f => !mine f
        gwTickets := d.gwTickets.filter fun t => !(decide (t.gw = gw) && t.told && t.req.src == src && t.req.thr == thr && t.req.rkey == key) })
    else .next (s.after (f.last + us 1000 - s.now) (.flowIdleTimeout die gw src thr key))

/-- A cached reply ends 200 µs after it was last sent (R87). -/
def execReplyCacheExpiry (die gw : Nat) (src : BitVec 32) (tag : BitVec 10) (gen : BitVec 4) (s : State) : Out :=
  .next (s.setDie die fun d => { d with replies := d.replies.filter fun r =>
    !(decide (r.gw = gw) && r.src == src && r.tag == tag && r.gen == gen && r.reply.isSome && decide (r.last + us 200 ≤ s.now)) })

/-- A replica takes a new entry (R76, R78). -/
def execRegionTableUpdate (die gw idx : Nat) (r : Region) (s : State) : Out := .next (s.setDie die fun d => d.putRegion gw idx r)

end

end Sys2Proof.Machine
end

