-- ==== Sys2Proof/Machine/Replies.lean ====
section
/-!
DEFINITION. Keyed requests at their requester (R84–R88, R90, R241–R245): replies, resends, time-outs, tickets and their replay, deferred
faults, and the notices that return threads to issue.
-/
namespace Sys2Proof.Machine
open Sys2Proof

noncomputable section

/-! ## Entries -/

/-- The core a packet is addressed to, of this module. -/
def State.coreAt (s : State) (e : BitVec 32) : Option Core :=
  s.cores.find? fun c => (endpointOf s c.id).extractLsb' 0 16 == e.extractLsb' 0 16

/-- Whether a packet is for a die's Zenith core. -/
def toZenith (p : Packet) : Bool := decide (p.dst.toNat % 2 ^ 13 = 1100)

/-- A core's place is the endpoint that a packet names. -/
def State.endsAt (s : State) (p : Packet) (id : Nat) : Bool := (endpointOf s id).extractLsb' 0 16 == p.dst.extractLsb' 0 16

/-- The teams that a packet may be for, and whether each is saved: the team bound to the core; teams saved from it or being restored to it,
whose packet was sent before a holder was re-pointed (R130); at a Zenith core those of the context whose save slot the packet names (R125). -/
def State.teamsAt (s : State) (p : Packet) : List (Core × Bool) :=
  let saved := (s.dies.toList.flatMap (·.launches)).flatMap (·.saved)
  if toZenith p then
    let mine (ctx : BitVec 6) (slot : Nat) : Bool := ctx == p.ctx && decide (slot = p.seq.toNat)
    ((s.cores.filter fun c => c.saveSlot.elim false fun y => mine c.ctx y.1).map fun c => (c, false)) ++
      (saved.filter fun v => mine v.image.ctx v.slot).map fun v => (v.image, true)
  else
    (s.coreAt p.dst).toList.map (fun c => (c, false)) ++
      (saved.filter fun v => s.endsAt p v.image.id || v.core.elim false (s.endsAt p)).map fun v => (v.image, true)

/-- The outstanding transaction that a reply answers (R88), and whether its team is saved. -/
def State.transaction (s : State) (p : Packet) : Option (Core × Ticket × Bool) :=
  (s.teamsAt p).findSome? fun (c, saved) =>
    (c.tickets.find? fun t => decide (t.tag = p.tag.toNat) && t.gen == p.gen && t.st != .failed).map fun t => (c, t, saved)

/-- `LATE` plus one. -/
def lateNext (v : W64) : W64 := BitVec.ofNat 64 ((v.toNat + 1) % 2 ^ 32)

/-- A reply that matches nothing is counted at the core (R88). -/
def State.lateReply (s : State) (p : Packet) : State :=
  match s.coreAt p.dst with
  | some c => s.setCore { c with late := lateNext c.late }
  | none =>
    if 1024 ≤ p.dst.toNat % 2 ^ 13 then s
    else
      let u := s.unit (placeOf (p.dst.toNat / 2 ^ 13 % 8) (p.dst.toNat % 2 ^ 13))
      s.setUnit { u with late := lateNext u.late }

/-- What a reply does to the transaction it answers; held for a saved team (R125), counted when it answers none (R88). -/
def State.withEntry (s : State) (p : Packet) (i : Instr) (f : Core → Ticket → State) : State :=
  match s.transaction p with
  | none => s.lateReply p
  | some (c, t, true) => (s.holdNotice c.launch c.team t.thr p.tag.toNat i).getD s
  | some (c, t, false) => if t.st ≠ .sent then s.lateReply p else f c t

/-- A team's entry by the tag and generation that its timers name. -/
def State.entryOf (s : State) (t : ThrId) (tag : Nat) (gen : BitVec 4) : Option (Core × Ticket) :=
  match s.coreOf? t.launch t.team with
  | some c => (c.tickets.find? fun x => decide (x.tag = tag) && x.gen == gen).map fun x => (c, x)
  | none => none

/-- Thread `t` waits for the reply of a full/empty access that does not wait: the success register is written, then it goes on (R325). -/
def State.ffEnd (s : State) (t : ThrId) (e : F6) : State :=
  (s.onThread t fun x => match x.run with
    | .parked w f => { x with run := .parked w { f with d := 0, regs := [(e, Cap.zero)], acq := none } }
    | _ => x).finishThread t none

/-! ## Deferred faults (R241, R243, R244) -/

/-- A `w` destination of a failed entry is written at once. -/
def Core.zeroTeamReg (c : Core) (f : F6) : Core :=
  if 32 ≤ f.toNat ∧ f.toNat < 48 then
    { c with w := c.w.set (Fin.ofNat 16 (f.toNat - 32)) Cap.zero, wpend := bitOff c.wpend (f.toNat - 32) }
  else c

/-- An entry fails, and with it the shadows that name its ticket. -/
def Core.failTicket : Nat → Nat → Nat → BitVec 4 → Core → Core
  | 0, _, _, _, c => c
  | f + 1, tag, sub, st, c =>
    match c.tickets.find? fun t => decide (t.tag = tag) && t.st != .failed with
    | none => c
    | some t =>
      let c := c.setTicket tag fun t => { t with st := .failed, sub := sub, status := st }
      let c := if t.vec then c else c.zeroTeamReg t.d
      let c := if t.req.kind = kRcas then c.zeroTeamReg t.e else c
      let shadows := c.tickets.filter fun x => x.st == .shadow && t.endp != 0 && decide (x.named = t.ticket) && x.endp == t.endp
      shadows.foldl (fun c x => Core.failTicket f x.tag 1 st c) c

/-- A request of an engine fails: its command ends with a fault (R180, R244). -/
def State.failEngine (s : State) (c : Core) (t : Ticket) : State :=
  let e : Engine := if t.idx = 16 then .copy else .gather
  let run := (c.engRun e).map fun x => { x with fault := some (causeRemoteDeferred, 0), waits := false }
  let c := { c with tickets := c.tickets.filter fun x => decide (x.tag ≠ t.tag) }
  (s.setCore (c.setEng e (c.engQueue e) run)).post (.engineCommandComplete c.id e)

/-- A deferred remote fault (R243). -/
def State.failEntry (s : State) (c : Core) (t : Ticket) (sub : Nat) (st : BitVec 4) : State :=
  if 16 ≤ t.idx then s.failEngine c t
  else
    let c1 := Core.failTicket 17 t.tag sub st c
    let woken := c1.tickets.filter fun x => x.st == .failed && x.ff.isSome
    let c2 := { c1 with tickets := c1.tickets.map fun x => if x.st = .failed then { x with ff := none } else x }
    woken.foldl (fun s x => s.ffEnd ⟨c.launch, c.team, x.thr⟩ (x.ff.getD 0)) (s.setCore c2)

/-- The subcode of an error status (R243). -/
def subOf (st : BitVec 4) : Nat :=
  if st = stNotMapped ∨ st = stRetired then 1 else if st = stKey then 3 else if st = stPoison then 4 else 5

/-- A time-out: the tag's generation advances, and the access fails with subcode 2 (R86). -/
def State.failTime (s : State) (c : Core) (t : Ticket) : State :=
  let c := { c with tagGen := (t.tag, t.gen + 1) :: c.tagGen.filter fun x => decide (x.1 ≠ t.tag) }
  s.failEntry c t 2 0

/-! ## Completion -/

/-- The bytes of a vector register that a reply writes. -/
def mergeVec (mask : W64) (new old : V512) : V512 :=
  (List.range 64).foldl (fun r i => if mask.getLsbD i then BitVec.ofNat 512 (putBytes r.toNat i 1 (sliceBytes new.toNat i 1)) else r) old

/-- The register value a reply brings: a `.q` load returns tag 0 (R338). -/
def replyValue (t : Ticket) (p : Packet) : Cap :=
  if t.req.kind = kRld ∧ t.size = 16 then ⟨(p.payload.headD 0) ++ p.addr, false⟩
  else if t.req.kind = kRget ∨ t.req.kind = kRput then Cap.ofInt (BitVec.ofNat 64 t.req.aux.toNat)
  else Cap.ofInt (if t.sext then sextW p.addr (8 * t.size) else BitVec.ofNat 64 (p.addr.toNat % 2 ^ (8 * t.size)))

/-- An `rget`'s words written to its range (R341). -/
def M.putRange (m : M) (c : Cap) : Nat → List W64 → Except Stop M
  | _, [] => .ok m
  | va, w :: ws => do
    let m ← m.storeAt c va 8 w.toNat none false
    m.putRange c (va + 8) ws

/-- Registers written by a completed keyed instruction, its acquire, its entry freed. -/
def State.land (s : State) (c : Core) (t : Ticket) (p : Packet) : State :=
  let c := { c with tickets := c.tickets.filter fun x => decide (x.tag ≠ t.tag) }
  let m := s.asM c t.thr
  let m : M :=
    if t.vec then
      let m := if t.d.toNat < 48 then m.vwrite t.d.toNat (mergeVec t.vmask (BitVec.ofNat 512 (wordsNat (p.payload.take 8))) (m.vsrc t.d 8)) else m
      { m.clearDst t.d true none with thr := (m.clearDst t.d true none).thr.unlatch [t.d.toNat] }
    else if t.req.kind = kRst ∨ t.req.kind = kRcall then m
    else m.clearDst t.d false (some (replyValue t p))
  let m := if t.req.kind = kRcas then m.clearDst t.e false (some (Cap.ofInt (if p.aux.getLsbD 0 then 1 else 0))) else m
  let s := { m with thr := m.thr.loaded t.tag }.flush
  match t.acq with
  | some sc => s.acquireBy c t.thr sc
  | none => s

/-- An engine's request is answered: its index or data, or its write (R337). -/
def State.landEngine (s : State) (c : Core) (t : Ticket) (p : Packet) : State :=
  let e : Engine := if t.idx = 16 then .copy else .gather
  let n := t.req.aux.toNat
  let words := (n + 7) / 8
  let v := wordsNat (p.payload.take words) % 2 ^ (8 * n)
  let bits := (p.payload.getD words 0).toNat
  let upd (x : EngCmd) : EngCmd :=
    if t.req.kind = kRput then { x with put := true, waits := false }
    else if x.idx.isNone && (x.op == 3 || x.op == 4) then { x with idx := some (BitVec.ofNat 64 v), waits := false }
    else
      let ms := (List.range (if x.fe then n / 8 else 1)).map fun k => (false, !x.fe || decide (bits / 2 ^ k % 2 = 1))
      { x with buf := some (v, ms), waits := false }
  let c := { c with tickets := c.tickets.filter fun x => decide (x.tag ≠ t.tag) }
  (s.setCore (c.setEng e (c.engQueue e) ((c.engRun e).map upd))).post (.engineCommandComplete c.id e)

/-- The reply of a full/empty access that does not wait: AUX tells whether it was performed (R325). -/
def State.landFf (s : State) (c : Core) (t : Ticket) (p : Packet) (e : F6) : State :=
  let who : ThrId := ⟨c.launch, c.team, t.thr⟩
  let s := s.setCore { c with tickets := c.tickets.filter fun x => decide (x.tag ≠ t.tag) }
  if p.aux.getLsbD 0 then
    let s := s.finishThread who (some (Cap.ofInt p.addr))
    let s := s.onThread who fun x => x.loaded t.tag
    match t.acq with
    | some sc => s.acquireBy c t.thr sc
    | none => s
  else s.ffEnd who e

/-- What a reply to `rget` leads to: written; held until a service or a moving page lets it be written; or failed. DEDUCED, log 33. -/
def State.landRange (s : State) (c : Core) (t : Ticket) (p : Packet) (dst : Cap) : State :=
  match (s.asM c t.thr).putRange dst dst.cursor.toNat (p.payload.take (t.req.aux.toNat / 8)) with
  | .ok m => match m.flush.core? c.id with
    | some c => m.flush.land c t p
    | none => m.flush
  | .error (.trap _ _ recs) =>
    (recs.foldl (fun s r => s.fault r.die r.kind r.code r.ctx r.addr r.aux32 r.aux64) s).failEntry c t 1 0
  | .error (.kept _ _ _) => s.failEntry c t 1 0
  | .error (.service va code wr fe) =>
    if (s.die c.die).services.length ≥ 4096 then s.after 1 (.dataReply p)
    else (s.openService c.die c.ctx va code wr fe id).1.after (us 1) (.dataReply p)
  | .error (.poison s) => s.post (.launchTermination c.launch 1 0x10 (some c.team))
  | .error _ => s.after 1 (.dataReply p)

/-- The thread of a team that waits for the answer of another module's home to a request, and the request. -/
def State.tileWaiter (s : State) (hit : Packet → Bool) (p : Packet) (thr : Nat) : Option (ThrId × Packet × Bool) :=
  if 8 ≤ thr then none
  else (s.teamsAt p).findSome? fun (c, saved) => match (c.thr.get (Fin.ofNat 8 thr)).run with
    | .parked (.remoteTile q _ _ _) _ => if hit q then some (⟨c.launch, c.team, thr⟩, q, saved) else none
    | _ => none

/-- An answer by the thread of its tag and the operand it names: a bound team's thread changes, a saved team's answer is held. -/
def State.tileAnswer (s : State) (p : Packet) (i : Instr) (f : ThrId → State) : State :=
  match s.tileWaiter (fun q => q.size == p.size) p (p.tag.toNat - tileTag) with
  | some (t, _, false) => f t
  | some (t, q, true) => (s.holdNotice t.launch t.team t.thr (q.addr.toNat % 2 ^ 48) i).getD s
  | none => s

/-- How far a thread's tile request has come. -/
def State.tileStage (s : State) (t : ThrId) (st : TileStage) (n : Nat → Nat) : State :=
  s.onThread t fun x => match x.run with
    | .parked (.remoteTile q _ k b) f => { x with run := .parked (.remoteTile q st (n k) b) f }
    | _ => x

/-- A request refused for want of room is sent again after 1 µs, doubling to 64 µs (R193). -/
def State.tileBusy (s : State) (t : ThrId) : State :=
  match (s.thread? t).elim Run.none fun x => x.run with
  | .parked (.remoteTile q _ k _) _ =>
    (s.tileStage t .refused (· + 1)).after (retryAfter k) (.versionWaitRegister (tileNameOf q) (tileVerOf q) t)
  | _ => s

/-- An answer for a dispatcher (R118, R410): of a rejected record's publish, of a launch's publish begun last, of a gate. -/
def State.dispatcherAnswer (s : State) (p : Packet) (failed : Option (BitVec 8)) : State :=
  let die := p.dst.toNat / 2 ^ 13 % 8
  if p.size = 1 then (if failed.isSome then s.post (.launchTermination p.seq 2 0x09 none) else s)
  else if p.tag.toNat = 1022 then
    match (s.die die).rejects.find? fun r => r.num == p.seq with
    | some r => s.rejectEnd die r failed
    | none => s
  else if (s.launch? p.seq).elim false fun l => l.ending && BitVec.ofNat 4 l.attempt == p.gen then s.actionEnd p.seq failed
  else s

/-- A dispatcher's registration or publish refused for want of room: tried again (R193). -/
def State.dispatcherBusy (s : State) (p : Packet) : State :=
  let n := tileNameOf p
  let v := tileVerOf p
  match s.launch? p.seq with
  | none => s
  | some l =>
    let s := s.setLaunch p.seq fun x => { x with tries := x.tries + 1 }
    s.after (retryAfter l.tries) (if p.size = 1 then .versionWaitRegister n v (launchPublisher p.seq) else .versionPublishRequest n v (launchPublisher p.seq))

/-- Whether an answer is for a dispatcher. -/
def forDispatcher (p : Packet) : Bool := decide (1022 ≤ p.tag.toNat)

/-- The answer to a tile request, or a piece of it (AUX counts those that follow): the last one returns the thread to issue. -/
def State.tilePiece (s : State) (p : Packet) (t : ThrId) : State :=
  let k := p.size.toNat
  let add (x : Thread) : Thread :=
    if x.tile.any fun y => decide (y.1 = k) then
      { x with tile := update (fun y => decide (y.1 = k)) (fun y => (k, y.2.1, y.2.2 ++ p.payload)) x.tile }
    else { x with tile := x.tile ++ [(k, p.addr, p.payload)] }
  if p.aux = 0 then s.resume t add else s.onThread t add

/-- A DATA or DONE reply. -/
def State.landed (s : State) (p : Packet) (i : Instr) : State :=
  if forDispatcher p then s.dispatcherAnswer p none
  else if tileTag ≤ p.tag.toNat then
    s.tileAnswer p i fun t => s.tilePiece p t
  else s.withEntry p i fun c t =>
    if 16 ≤ t.idx then s.landEngine c t p
    else match t.ff, t.dst with
      | some e, _ => s.landFf c t p e
      | none, some (dst, _) => if t.req.kind = kRget then s.landRange c t p dst else s.land c t p
      | none, none => s.land c t p

def execDataReply (p : Packet) (s : State) : Out := .next (s.landed p (.dataReply p))
def execDoneReply (p : Packet) (s : State) : Out := .next (s.landed p (.doneReply p))

/-- PARKED (R85, R86): PROBEs follow every 1 ms; a tile request is in the home's wait list (R193). -/
def execParkedReply (p : Packet) (s : State) : Out :=
  if forDispatcher p then .next s
  else if tileTag ≤ p.tag.toNat then .next (s.tileAnswer p (.parkedReply p) fun t => s.tileStage t .waiting fun _ => 0)
  else .next (s.withEntry p (.parkedReply p) fun c t =>
    (s.setCore (c.setTicket t.tag fun t => { t with parked := true, heard := s.now, probe := none })).after (us 1000) (.probeTimer (c.whoOf t) t.tag t.gen))

/-- TICKET (R82, R83, R241). -/
def execTicketReply (p : Packet) (s : State) : Out :=
  .next (s.withEntry p (.ticketReply p) fun c t =>
    let shadow := p.addr.getLsbD 16
    let named := fieldOf p.addr 15 0
    let s := s.setCore (c.setTicket t.tag fun t => { t with st := if shadow then .shadow else .ticketed, ticket := p.aux.toNat, endp := p.src
                                                            named := named, held := false, parked := false, probe := none, heard := s.now })
    let s := s.after (s.die c.die).tklim (.ticketLimitTimeout (c.whoOf t) t.tag t.gen)
    match c.tickets.find? fun x => shadow && x.st == .failed && decide (x.ticket = named) && x.endp == p.src, s.entryOf (c.whoOf t) t.tag t.gen with
    | some x, some (c, t) => s.failEntry c t 1 x.status
    | _, _ => s)

/-- The cause that an error answer to a tile request stands for (R187, R193): the home names it, an unreachable module has none. -/
def tileCause (p : Packet) : BitVec 8 := if p.aux.setWidth 8 = (0 : BitVec 8) then causeStaleHandle else p.aux.setWidth 8

/-- ERROR (R241, R243); of a tile request, the trap that the home names. -/
def execErrorReply (p : Packet) (s : State) : Out :=
  if forDispatcher p then .next (s.dispatcherAnswer p (some (if p.status = stUnreach then 0 else tileCause p)))
  else if tileTag ≤ p.tag.toNat then .next (s.tileAnswer p (.errorReply p) fun t => s.resume t fun x => { x with pendTrap := some (tileCause p, p.addr) })
  else .next (s.withEntry p (.errorReply p) fun c t => s.failEntry c t (subOf p.status) p.status)

/-- BUSY (R85, R150, R193): a backoff of 1 µs, doubling to 64 µs; a queue entry stays with its sender. -/
def execBusyReply (p : Packet) (s : State) : Out :=
  let g := p.tag.toNat
  if forDispatcher p then .next (s.dispatcherBusy p)
  else if queueTag ≤ g ∧ g < queueTag + 8 then
    let who := (p.payload.getD 1 0).toNat
    let t : ThrId := ⟨BitVec.ofNat 16 who, who / 2 ^ 16, p.thr.toNat⟩
    .next ((s.onThread t fun x => x.setQ (Fin.ofNat 8 (g - queueTag)) fun q => match q.bind with
      | .toTeam w tm u k l cr rf => { q with bind := .toTeam w tm u k l cr (rf ++ [p.payload.headD 0]) }
      | _ => q).after (us 1) (.busyBackoffExpiry t g 0))
  else if tileTag ≤ g then .next (s.tileAnswer p (.busyReply p) s.tileBusy)
  else .next (s.withEntry p (.busyReply p) fun c t =>
    let b := Nat.min 64 (Nat.max 1 (2 * t.backoff))
    (s.setCore (c.setTicket t.tag fun t => { t with backoff := b, heard := s.now, parked := false, probe := none })).after (us b)
      (.busyBackoffExpiry (c.whoOf t) t.tag t.gen))

/-! ## Timers (R85, R86) -/

/-- A request sent once more with RETX 1. DEDUCED, log 31. -/
def State.resendEntry (s : State) (c : Core) (t : Ticket) (tries : Nat) : State :=
  let s := s.setCore (c.setTicket t.tag fun t => { t with sent := s.now, tries := tries })
  (s.route c.die { t.req with retx := true }).after resendAfter (.retransmitTimeout (c.whoOf t) t.tag t.gen)

/-- Refused queue entries delivered again, oldest first, until one is refused (R150). -/
def State.deliverRefused (s : State) (c : Core) (t : ThrId) (j : Fin 8) (win : Cap) (team : Nat) (u q : BitVec 3) : List W64 → State × List W64
  | [] => (s, [])
  | v :: vs =>
    let p : Packet := {
      rkey := win.rkey, kind := kQueue, dst := checkEndpoint win.wmodule win.rkey, src := endpointOf s c.id, thr := BitVec.ofNat 3 t.thr, ctx := c.ctx
      aux := BitVec.ofNat 16 (j.val + 8 * q.toNat + 64 * u.toNat), tag := BitVec.ofNat 10 (queueTag + j.val), addr := BitVec.ofNat 64 team, retx := true, len := 1
      payload := [v, BitVec.ofNat 64 (c.launch.toNat + 2 ^ 16 * c.team)] }
    if ownModule s win.wmodule then
      match s.queueDeliver p with
      | some s => State.deliverRefused s c t j win team u q vs
      | none => (s, v :: vs)
    else State.deliverRefused (s.send p) c t j win team u q vs

/-- The end of a backoff after BUSY. -/
def execBusyBackoffExpiry (t : ThrId) (tag : Nat) (gen : BitVec 4) (s : State) : Out :=
  if queueTag ≤ tag ∧ tag < queueTag + 8 then
    match s.coreOf? t.launch t.team with
    | none => .next s
    | some c =>
      let j : Fin 8 := Fin.ofNat 8 (tag - queueTag)
      match ((c.thr.get (Fin.ofNat 8 t.thr)).q.get j).bind with
      | .toTeam win team u q _ _ rf =>
        let (s, left) := s.deliverRefused c t j win team u q rf
        let s := s.onThread t fun x => x.setQ j fun y => match y.bind with
          | .toTeam w tm u k l cr _ => { y with bind := .toTeam w tm u k l cr left }
          | _ => y
        .next (if left.isEmpty then s else s.after (us 1) (.busyBackoffExpiry t tag gen))
      | _ => .next s
  else match s.entryOf t tag gen with
    | some (c, x) =>
      if x.st = .sent ∧ !x.parked ∧ x.backoff ≠ 0 ∧ x.sent ≤ x.heard ∧ x.heard + us x.backoff ≤ s.now then .next (s.resendEntry c x 0) else .next s
    | none => .next s

/-- No reply for 20 µs: at most three resends (R86). -/
def execRetransmitTimeout (t : ThrId) (tag : Nat) (gen : BitVec 4) (s : State) : Out :=
  match s.entryOf t tag gen with
  | some (c, x) =>
    if x.st = .sent ∧ !x.parked ∧ x.heard ≤ x.sent ∧ (x.heard < x.sent ∨ x.backoff = 0) ∧ x.tries < 3 ∧ x.sent + resendAfter ≤ s.now then .next (s.resendEntry c x (x.tries + 1))
    else .next s
  | none => .next s

/-- The final time-out (R86): while the access is parked it runs only from the first send of an unanswered PROBE. DEDUCED, log 31. -/
def execFinalTimeout (t : ThrId) (tag : Nat) (gen : BitVec 4) (s : State) : Out :=
  match s.entryOf t tag gen with
  | some (c, x) =>
    if x.st ≠ .sent then .next s
    else
      let since : Option Nat := if x.parked then x.probe else some (Nat.max x.first x.heard)
      match since with
      | none => .next s
      | some a =>
        let due := a + (s.die c.die).final
        if due ≤ s.now then .next (s.failTime c x) else .next (s.after (due - s.now) (.finalTimeout t tag gen))
  | none => .next s

/-- PROBEs of a parked access (R86): 1 ms after the last PARKED, resent while unanswered, and every 1 ms. -/
def execProbeTimer (t : ThrId) (tag : Nat) (gen : BitVec 4) (s : State) : Out :=
  match s.entryOf t tag gen with
  | some (c, x) =>
    if x.st ≠ .sent ∨ !x.parked then .next s
    else
      let probe (retx : Bool) : Packet := { x.req with kind := kProbe, retx := retx, payload := [], len := 0 }
      let put (f : Ticket → Ticket) : State := s.setCore (c.setTicket tag f)
      let again (s : State) (n : Nat) : State := s.after n (.probeTimer t tag gen)
      match x.probe with
      | none =>
        if x.heard + us 1000 ≤ s.now then
          let s := (put fun y => { y with probe := some s.now, sent := s.now, tries := 0 }).route c.die (probe false)
          .next (again (s.after (s.die c.die).final (.finalTimeout t tag gen)) resendAfter)
        else .next s
      | some a =>
        if (s.now - a) % us 1000 = 0 ∧ a < s.now then
          .next (again ((put fun y => { y with sent := s.now, tries := 0 }).route c.die (probe false)) resendAfter)
        else if x.tries < 3 ∧ x.sent + resendAfter ≤ s.now then
          let s := (put fun y => { y with sent := s.now, tries := y.tries + 1 }).route c.die (probe true)
          .next (again s (if x.tries = 2 then us 1000 - (s.now - a) % us 1000 else resendAfter))
        else .next s
  | none => .next s

/-- A ticket's limit (R86, R241, R245): it also runs while the team is saved. -/
def execTicketLimitTimeout (t : ThrId) (tag : Nat) (gen : BitVec 4) (s : State) : Out :=
  let passed (c : Core) (x : Ticket) : Bool :=
    decide (x.tag = tag) && x.gen == gen && (x.st == .ticketed || x.st == .shadow) && decide (x.heard + (s.die c.die).tklim ≤ s.now)
  match s.coreOf? t.launch t.team with
  | some c => match c.tickets.find? (passed c) with
    | some x => .next (s.failTime c x)
    | none => .next s
  | none =>
    match (s.launch? t.launch).bind fun l => l.saved.find? fun v => decide (v.team = t.team) && v.image.tickets.any (passed v.image) with
    | none => .next s
    | some v =>
      let c := Core.failTicket 17 tag 2 0 v.image
      let c1 := { c with tickets := c.tickets.map fun x => if x.st = .failed then { x with ff := none } else x }
      let f (y : Saved) : Saved := if y.team = t.team then { y with image := c1 } else y
      let woken := c.tickets.filter fun x => x.st == .failed && x.ff.isSome
      .next (woken.foldl (fun s x => s.ffEnd ⟨t.launch, t.team, x.thr⟩ (x.ff.getD 0)) (s.setLaunch t.launch fun l => { l with saved := l.saved.map f }))

/-! ## Replays (R84, R241) -/

/-- Whether an entry whose own REPLAY has come may be sent: a shadow waits for the named ticket's. -/
def Core.mayReplay (c : Core) (t : Ticket) : Bool :=
  t.held && (t.st == .ticketed || (t.st == .shadow && !c.tickets.any fun x =>
    (x.st == .ticketed || x.st == .shadow) && decide (x.ticket = t.named) && x.endp == t.endp && decide (x.tag ≠ t.tag)))

/-- Entries whose replay may be sent, one after another. -/
def State.replayHeld : Nat → Nat → State → State
  | 0, _, s => s
  | f + 1, core, s =>
    match s.core? core with
    | none => s
    | some c => match c.tickets.find? c.mayReplay with
      | none => s
      | some t => State.replayHeld f core (s.sendAnew core t.tag)

/-- A REPLAY notice (R82, R241): for a bound team's entry, or held for a saved team (R125). -/
def execReplayNotice (p : Packet) (s : State) : Out :=
  let mine (t : Ticket) : Bool := (t.st == .ticketed || t.st == .shadow) && decide (t.ticket = p.aux.toNat) && t.endp == p.src
  match s.cores.findSome? fun c => (c.tickets.find? mine).map fun t => (c, t) with
  | some (c, t) =>
    if p.status ≠ stOk then .next (s.failEntry c t 1 p.status)
    else .next (State.replayHeld 17 c.id (s.setCore (c.setTicket t.tag fun t => { t with held := true })))
  | none =>
    let saved := (s.dies.toList.flatMap (·.launches)).flatMap fun l => l.saved.map fun v => v.image
    match saved.findSome? fun c => (c.tickets.find? mine).map fun t => (c, t) with
    | some (c, t) => .next ((s.holdNotice c.launch c.team t.thr p.aux.toNat (.replayNotice p)).getD s)
    | none => .next s

/-! ## Notices (R90, R163, R193, R340) -/

/-- A full/empty wake: the value of an access that waited (R85, R163). -/
def execFewakeNotice (t : ThrId) (v : W64) (s : State) : Out :=
  match s.coreOf? t.launch t.team with
  | some c => match (c.thr.get (Fin.ofNat 8 t.thr)).run with
    | .parked (.feLocal ..) _ | .parked (.fePort _) _ => .next (s.finishThread t (some (Cap.ofInt v)))
    | _ => .next s
  | none => .next ((s.holdNotice t.launch t.team t.thr v.toNat (.fewakeNotice t v)).getD s)

/-- A thread of this module's that waits for a version of this module, by the notice's fields: bound, or saved without a notice yet. -/
def State.versionWaiter (s : State) (p : Packet) (n v thr : Nat) : Option (ThrId × Bool) :=
  (s.teamsAt p).findSome? fun (c, saved) => match (c.thr.get (Fin.ofNat 8 thr)).run with
    | .parked (.version a b _ _ _) _ => if a = n ∧ b = v then some (⟨c.launch, c.team, thr⟩, saved) else none
    | _ => none

/-- The team that waited is gone: a load's hold at another module's home is given back (R129). DESIGN CHOICE, log 27. -/
def State.giveBack (s : State) (p : Packet) : State :=
  let op := p.mode.toNat % 32
  if (op = 3 ∨ op = 4) ∧ p.status = 0 then
    s.send { kind := kTile, mode := 22, vn := 0, tag := BitVec.ofNat 10 (tileTag + 8), addr := p.addr, src := p.dst, dst := p.src }
  else s

/-- A notice of another module's home: a load fetches its data, anything else is answered. -/
def State.tileArrives (s : State) (p : Packet) (t : ThrId) (q : Packet) : State :=
  if p.status = stRetired then s.resume t fun x => { x with pendTrap := some (causeVersionRetired, BitVec.ofNat 64 (tileVerOf q)) }
  else if tileOpOf q = 3 ∨ tileOpOf q = 4 then
    (s.tileStage t .fetching id).route (p.dst.toNat / 2 ^ 13 % 8) { q with mode := q.mode ||| 64 }
  else s.resume t fun x => { x with tile := x.tile ++ [(q.size.toNat, 1, [])] }

/-- A gate's version at another module exists: the first launch, in acceptance order, whose registration it answers (R118). -/
def State.gateArrives (s : State) (n v : Nat) (mdl : BitVec 16) : State :=
  let w (l : Launch) : Option W64 := l.gatesOut.find? fun g => gateOf g == (n, v, mdl)
  let ls := (s.dies.toList.flatMap (·.launches)).filter fun l => l.phase == .gated && (w l).isSome
  match ls.foldl (fun (b : Option Launch) l => some (b.elim l fun x => if l.seq < x.seq then l else x)) none with
  | none => s
  | some l => (s.setLaunch l.id fun x => { x with gatesOut := x.gatesOut.erase ((w l).getD 0) }).post (.gateSatisfied l.id)

/-- VARRIVE (R90): a gate is satisfied, or a thread's wait is served; RETIRED when no reader unit was left (R193). -/
def execVarriveNotice (p : Packet) (s : State) : Out :=
  let w := (p.payload.headD 0).toNat
  let n := bitsN w 31 0
  let thr := bitsN w 34 32
  let v := bitsN w 63 48
  let mdl : BitVec 16 := (p.payload.getD 1 0).setWidth 16
  let hold (t : ThrId) : State := (s.holdNotice t.launch t.team t.thr (n + v * 2 ^ 32) (.varriveNotice p)).getD s
  .next (if forDispatcher p then s.gateArrives n v mdl
  else if ownModule s mdl then
    match s.versionWaiter p n v thr with
    | some (t, true) => hold t
    | some (t, false) => s.resume t fun x => if p.status = stRetired then { x with pendTrap := some (causeVersionRetired, BitVec.ofNat 64 v) } else x
    | none => s
  else
    let hit (q : Packet) : Bool := decide (tileNameOf q = n ∧ tileVerOf q = v) && q.dst.extractLsb' 16 16 == mdl && q.size == p.size
    match s.tileWaiter hit p thr with
    | some (t, _, true) => hold t
    | some (t, q, false) => s.tileArrives p t q
    | none => s.giveBack p)

/-- RNOTE (R90, R340): checked by its key, then pending for the thread or consumed by its `wfe`; held for a saved team; repeated ones coalesce. -/
def execRnoteNotice (p : Packet) (s : State) : Out :=
  let (d, gw) := checkGw p.rkey
  let r := (s.die d).region gw (p.rkey.toNat / 2 ^ 20)
  let team := p.addr.toNat / 0x40000
  if !r.v || r.gen != p.rkey.setWidth 20 || !s.windowKey p.rkey || !r.perm.getLsbD 1 || decide (r.length.toNat ≤ p.addr.toNat) then .next s
  else
    let t : ThrId := ⟨windowLaunch s p.rkey, team, p.aux.toNat % 8⟩
    match s.coreOf? t.launch t.team with
    | some _ => .next (s.onThread t fun x => if x.run = .wfe then { x with run := .ready } else { x with rnote := true })
    | none =>
      let known := ((s.launch? t.launch).bind fun l => l.saved.find? fun v => decide (v.team = team)).elim false fun v => v.held.any fun e => match e with
        | .rnoteNotice q => q.aux == p.aux
        | _ => false
      if known then .next s else .next ((s.holdNotice t.launch t.team t.thr 0 (.rnoteNotice p)).getD s)

end

end Sys2Proof.Machine
end

