-- ==== Sys2Proof/Machine/TileHome.lean ====
section
/-!
DEFINITION. A tile home's side of the requests of other modules (R118, R187, R190–R196, R410). The packets' form is the model's: DESIGN
CHOICE, log 27.
-/
namespace Sys2Proof.Machine
open Sys2Proof

noncomputable section

/-- The name, with its generation, that a request is about. -/
def tileRefOf (p : Packet) : Nat := tileNameOf p + 2 ^ 32 * (tileGenOf p).toNat

/-- The name is allocated, and is the one that the request's handle was made for; a dispatcher's request carries no generation (R118). -/
def TName.answers (x : TName) (p : Packet) : Bool := x.live && (forDispatcher p || x.gen == tileGenOf p)

/-- A request that raises a trap at its thread, with the value it sets. -/
def State.tileFault (s : State) (p : Packet) (cause : BitVec 8) (v : Nat) : State := s.send (tileReply p kError 0 (BitVec.ofNat 64 v) cause)

/-- DONE with a value. -/
def State.tileDone (s : State) (p : Packet) (v : W64) : State := s.send (tileReply p kDone 0 v)

/-- The wait of a request, by its operation. -/
def tileWaitKind (p : Packet) : VWaitKind :=
  match tileOpOf p with
  | 3 => .load false
  | 4 => .load true
  | 5 => .wait
  | 16 => .hold
  | _ => .publish

/-- The request joins the wait list, or is refused while it is full (R193). -/
def State.tilePark (s : State) (p : Packet) : State :=
  let n := tileNameOf p
  if s.waitRoom n then
    (s.setTname n fun x => { x with waits := x.waits ++ [{ ver := tileVerOf p, who := .remote p, kind := tileWaitKind p }] }).send (tileReply p kParked 0 0)
  else s.send (tileReply p kBusy 0 p.addr)

/-- A publish (R191, R192, R410): LIVE with its data, refused, or waiting for the window or a frame; `listed` tells that it waits already. -/
def State.tilePublish (s : State) (x : TName) (p : Packet) (listed : Bool) : State :=
  let v := tileVerOf p
  let off (s : State) : State := s.setTname x.name fun y => { y with waits := y.waits.filter fun w => w.who != .remote p }
  let readers := readersOf p.aux.toNat
  if v ≤ x.w ∨ x.stateOf v ≠ 0 then (off s).tileFault p causeVersionExists v
  else match if x.w + 16 < v then none else (off s).acceptPublish x.name v none readers with
    | some s => (s.publishEnd x.ref v readers ((List.range x.gran).map fun g => wordsGranule (p.payload.drop (8 * g)))).tileDone p 1
    | none =>
      if p.tag = 1022 ∨ (tileFf p ∧ x.w + 16 < v) then s.tileFault p causeVersionWindow v
      else if listed then s else s.tilePark p

/-- A load (R193, R385): the data of a served wait, whose hold ends; of a LIVE version; or a wait. -/
def State.tileLoad (s : State) (x : TName) (p : Packet) (consume : Bool) : State :=
  let n := tileNameOf p
  let v := tileVerOf p
  match x.stateOf v with
  | 2 =>
    let y := (x.ver? v).getD { ver := v, st := .live }
    if consume ∧ y.readers = some 0 then s.tileFault p causeVersionRetired v
    else
      let s := if consume then s.setTname n fun x => x.setVer v fun y => y.claim (tileRestart p) else s
      (s.tileData p (y.data.flatMap granuleWords)).reclaimTest n
  | 3 => s.tileFault p causeVersionRetired v
  | _ => if tileFf p then s.tileDone p 0 else s.tilePark p

/-- A wait, or a gate, which a version at or below W satisfies too (R118). -/
def State.tileWait (s : State) (x : TName) (p : Packet) : State :=
  let n := tileNameOf p
  let v := tileVerOf p
  let gate := p.size = 1 ∧ forDispatcher p
  match x.stateOf v with
  | 2 => if gate then s.send (varriveTo s p n v 0) else s.tileDone p 1
  | 3 => if gate then s.send (varriveTo s p n v 0) else s.tileFault p causeVersionRetired v
  | _ => if tileFf p then s.tileDone p 0 else s.tilePark p

/-- A `tref` (R386). -/
def State.tileHold (s : State) (x : TName) (p : Packet) : State :=
  let v := tileVerOf p
  match x.stateOf v with
  | 2 => (s.setTname x.name fun x => x.setVer v fun y => { y with holds := y.holds + 1 }).tileDone p 1
  | 3 => s.tileFault p causeVersionRetired v
  | _ => s.tilePark p

/-- A registration cancelled, unless the home has served it (R193): a load whose bound has passed is told. -/
def State.tileCancel (s : State) (p : Packet) : State :=
  let v := tileVerOf p
  let mine (w : VWait) : Bool := decide (w.ver = v) && match w.who with
    | .remote q => q.src == p.src && q.tag == p.tag && q.ctx == p.ctx && q.seq == p.seq && q.size == p.size
    | _ => false
  let listed := (s.tname? (tileNameOf p)).elim false fun x => x.waits.any mine
  let s := s.setTname (tileNameOf p) fun x => { x with waits := x.waits.filter fun w => !mine w }
  if listed ∧ !tileFf p then s.tileFault p causeWaitExpired v else s

/-- Words of a publish that came before its request. -/
def Die.takeTile (d : Die) (p : Packet) : List W64 × Die :=
  let mine (x : BitVec 32 × BitVec 10 × List W64) : Bool := x.1 == p.src && x.2.1 == p.tag
  (((d.tileIn.find? mine).map (·.2.2)).getD [], { d with tileIn := d.tileIn.filter fun x => !mine x })

/-- A piece of a publish's data. -/
def State.tileKeep (s : State) (p : Packet) : State :=
  s.setDie (nameDie (tileNameOf p)) fun d =>
    let (ws, d) := d.takeTile p
    { d with tileIn := d.tileIn ++ [(p.src, p.tag, ws ++ p.payload)] }

/-- A request on an allocated name. -/
def State.tileLive (s : State) (x : TName) (p : Packet) : State :=
  match tileOpOf p with
  | 1 => (s.freeName x.name).tileDone p 1
  | 2 => s.tilePublish x p false
  | 3 => s.tileLoad x p false
  | 4 => s.tileLoad x p true
  | 5 => s.tileWait x p
  | 16 => s.tileHold x p
  | 17 => (s.tdrop x.name (tileVerOf p) Version.dropOne).tileDone p 1
  | 20 => (s.tdrop x.name (tileVerOf p) Version.dropAll).tileDone p 1
  | 18 => s.tileDone p (versionWord x (tileVerOf p))
  | _ => s.tileDone p 0

/-- A tile request of another module at its home. -/
def State.tileHome (s : State) (p : Packet) : State :=
  let op := tileOpOf p
  if op = 24 then s.tileKeep p
  else
    let (ws, d) := (s.die (nameDie (tileNameOf p))).takeTile p
    let s := s.setDie (nameDie (tileNameOf p)) fun _ => d
    let p : Packet := { p with payload := ws ++ p.payload }
    if op = 21 then s.tileCancel p
    else if op = 22 then s.endFlight (tileRefOf p) (tileVerOf p)
    else if op = 23 then (s.onRef (tileRefOf p) (tileVerOf p) (Version.settle p.aux.toNat (tileFf p))).reclaimTest (tileNameOf p)
    else if tileFetch p then
      (s.tileData p (((s.refVer? (tileRefOf p) (tileVerOf p)).elim [] (·.data)).flatMap granuleWords)).endFlight (tileRefOf p) (tileVerOf p)
    else match (s.tname? (tileNameOf p)).filter (·.answers p) with
      | some x => s.tileLive x p
      | none => if op = 19 then s.tileDone p (causeStaleHandle.setWidth 64) else s.tileFault p causeStaleHandle 0

/-- A publish of another module that window and frames now allow (R191, R194). -/
def State.tileAdmit (s : State) (name ver : Nat) : State :=
  match s.tname? name with
  | none => s
  | some x => match x.waits.findSome? fun w => if w.kind == .publish && decide (w.ver = ver) then (match w.who with
      | .remote p => some p
      | _ => none) else none with
    | some p => s.tilePublish x p true
    | none => s

end

end Sys2Proof.Machine
end

