-- ==== Sys2Proof/Machine/Home.lean ====
section
/-!
DEFINITION. Steps of the homes and units that serve instructions which wait: versions and tenures (R190–R202), page-fault services
(R232), the fault queue's head (R251), the engines (R177–R182) and the matrix units (R155, R264, R378).
-/
namespace Sys2Proof.Machine
open Sys2Proof

noncomputable section

/-! ## Versions (R190, R191, R193) -/

/-- What a thread of this module does. -/
def State.runOf (s : State) (t : ThrId) : Option Run := (s.thread? t).map fun x => x.run

/-- The waiting thread's instruction executes again and raises a trap. -/
def State.resumeTrap (s : State) (t : ThrId) (cause : BitVec 8) (v : Nat) : State :=
  s.resume t fun x => { x with pendTrap := some (cause, BitVec.ofNat 64 v) }

/-- A parked publish is tried again at its home (R191, R193): accepted with its reader count, refused, or waiting still. -/
def State.publishRequest (s : State) (t : ThrId) (n v : Nat) (readers : Option Nat) (tries : Nat) (f : Finish) : State :=
  match s.tname? n with
  | none => s.resumeTrap t causeStaleHandle 0
  | some x =>
    if !x.live then s.resumeTrap t causeStaleHandle 0
    else if v ≤ x.w ∨ x.stateOf v ≠ 0 then s.resumeTrap t causeVersionExists v
    else match if x.w + 16 < v then none else s.acceptPublish n v (some t) readers with
      | some s => s.resume t
      | none =>
        if s.waitRoom n then s.setTname n fun x => { x with waits := x.waits ++ [{ ver := v, who := .thread t, kind := .publish }] }
        else (s.onThread t fun y => { y with run := .parked (.publish n v readers (tries + 1)) f }).after (retryAfter (tries + 1)) (.versionPublishRequest n v t)

/-- A publish tried again: of a launch's dispatcher (R410), of another module, of a thread. -/
def execVersionPublishRequest (name ver : Nat) (t : ThrId) (s : State) : Out :=
  if t = remotePublisher then .next (s.tileAdmit name ver)
  else if t = launchPublisher t.launch then .next (s.action t.launch)
  else match s.runOf t with
    | some (.parked (.publish n v readers tries) f) => .next (if n ≠ name ∨ v ≠ ver then s else s.publishRequest t n v readers tries f)
    | _ => .next s

/-- A publish whose data is written becomes LIVE (R190). -/
def execVersionPublishComplete (name ver : Nat) (t : ThrId) (s : State) : Out :=
  match (s.tname? name).bind (·.ver? ver) with
  | some y => if y.st = .publishing ∧ y.owner = some t ∧ y.data ≠ [] then .next (s.makeLive name ver y.readers y.data) else .next s
  | none => .next s

/-- A registration at the home, tried again after it was refused (R193). -/
def execVersionWaitRegister (name ver : Nat) (t : ThrId) (s : State) : Out :=
  if t = launchPublisher t.launch then
    match (s.launch? t.launch).bind fun l => if l.phase = .gated then
        (l.lrec.gates.take l.lrec.ngate).find? fun g => (gateOf g).1 == name && (gateOf g).2.1 == ver else none with
    | some g => .next (s.registerGate t.launch g)
    | none => .next s
  else match s.runOf t with
    | some (.parked (.version n v kind tries til) f) =>
      if n ≠ name ∨ v ≠ ver then .next s
      else match s.tname? n with
        | none => .next (s.resumeTrap t causeStaleHandle 0)
        | some x =>
          if !x.live then .next (s.resumeTrap t causeStaleHandle 0)
          else match x.stateOf v with
            | 3 => .next (s.resumeTrap t causeVersionRetired v)
            | 2 => .next (serveWaiter n v s { ver := v, who := .thread t, kind := kind })
            | _ =>
              let s1 := s.onThread t fun y => { y with run := .parked (.version n v kind (tries + 1) til) f }
              .next (s1.registerWait n v t kind (tries + 1))
    | some (.parked (.remoteTile q .refused _ _) _) =>
      .next (if tileNameOf q = name ∧ tileVerOf q = ver then (s.tileStage t .sent id).tileSend (q.src.toNat / 2 ^ 13 % 8) q else s)
    | _ => .next s

/-- The bound of a wait passes (R193): the registration is cancelled, unless the home has served it. -/
def execVersionWaitBoundExpiry (t : ThrId) (s : State) : Out :=
  match s.runOf t with
  | some (.parked (.version n v _ _ (some til)) _) =>
    let mine (w : VWait) : Bool := w.who == .thread t && decide (w.ver = v)
    let listed := (s.tname? n).elim false fun x => x.waits.any mine
    let retrying := s.timers.any fun e => e.2 == .versionWaitRegister n v t
    if til ≤ s.now ∧ (listed ∨ retrying) then
      let s1 := s.setTname n fun x => { x with waits := x.waits.filter fun w => !mine w }
      .next (s1.resumeTrap t causeWaitExpired v)
    else .next s
  | some (.parked (.remoteTile q st _ (some til)) _) =>
    .next (if s.now < til ∨ st = .fetching then s
      else if st = .refused then s.resumeTrap t causeWaitExpired (tileVerOf q)
      else s.route (q.src.toNat / 2 ^ 13 % 8) (cancelAsk q true))
  | _ => .next s

/-! ## Tenure (R198–R202) -/

/-- The image of a thread's team, of a bound or a saved team. -/
def State.teamCore? (s : State) (l : BitVec 16) (team : Nat) : Option Core :=
  match s.coreOf? l team with
  | some c => some c
  | none => ((s.launch? l).bind fun x => x.saved.find? fun v => decide (v.team = team)).map fun v => v.image

/-- A one-shot request that found no record, tried again (R198, R202). -/
def State.shotRequest (s : State) (t : ThrId) (region : Nat) (rect : Rect) (write : Bool) (tries : Nat) : State :=
  match s.tregion? region with
  | none => s.resume t
  | some r =>
    if r.recs.any (·.shotOf t) then s
    else if s.recRoom region then
      let x : TenRec := { launch := t.launch, team := t.team, thr := t.thr, slot := 0, rect := rect, write := write, held := false, oneShot := true }
      (s.setTregion region fun r => { r with recs := r.recs ++ [x] }).serveQueue region
    else (s.onThread t fun y => { y with run := .parked (.oneShot region (tries + 1)) {} }).after (retryAfter (tries + 1))
      (.tenureRequest t region rect write)

/-- A tenure request at the directory, or a one-shot access, tried again after no record was free (R198, R200, R202). -/
def execTenureRequest (t : ThrId) (region : Nat) (rect : Rect) (write : Bool) (s : State) : Out :=
  match s.runOf t, (s.teamCore? t.launch t.team).bind fun c => c.tenures.find? fun e =>
      !e.held && decide (e.region = region) && e.rect == rect && e.write == write with
  | some (.parked (.tenure slot tries) f), some e =>
    if e.slot ≠ slot then .next s
    else match s.tregion? region with
      | none => .next (s.resumeTrap t causeStaleHandle 0)
      | some r =>
        let drop (c : Core) : Core := { c with tenures := c.tenures.filter fun x => decide (x.slot ≠ slot) }
        let hold (c : Core) : Core := { c with tenures := Machine.update (fun x => decide (x.slot = slot)) (fun x => { x with held := true }) c.tenures }
        if r.recs.any fun x => x.launch == t.launch && decide (x.team = t.team ∧ x.slot = slot) && !x.oneShot then .next s
        else if !r.live then .next ((s.onTeam t.launch t.team fun s c => (drop c, s)).resumeTrap t causeStaleHandle 0)
        else if !s.recRoom region then
          let s1 := s.onThread t fun y => { y with run := .parked (.tenure slot (tries + 1)) f }
          .next (s1.after (retryAfter (tries + 1)) (.tenureRequest t region rect write))
        else
          let ok := r.grants rect write
          let x : TenRec := { launch := t.launch, team := t.team, thr := t.thr, slot := slot, rect := rect, write := write, held := ok }
          let s1 := s.setTregion region fun r => { r with recs := r.recs ++ [x] }
          if ok then .next ((s1.onTeam t.launch t.team fun s c => (hold c, s)).resume t fun y => { y with granted := true }) else .next s1
  | some (.parked (.oneShot n tries) _), _ => .next (if n = region then s.shotRequest t region rect write tries else s)
  | _, _ => .next s

/-- A release at the directory (R200): the team's tenure on exactly the rectangle. -/
def execTenureRelease (t : ThrId) (region : Nat) (rect : Rect) (s : State) : Out :=
  match (s.teamCore? t.launch t.team).bind fun c => c.tenureOn region rect with
  | none => .next s
  | some e =>
    let drop (c : Core) : Core := { c with tenures := c.tenures.filter fun x => decide (x.slot ≠ e.slot) }
    .next ((s.onTeam t.launch t.team fun s c => (drop c, s)).releaseTenure t.launch t.team region e.slot)

/-- A one-shot access joins the region's queue, which is served (R202). -/
def execOneShotAccess (t : ThrId) (region : Nat) (rect : Rect) (write : Bool) (s : State) : Out :=
  match s.runOf t, s.tregion? region with
  | some (.parked (.oneShot n _) _), some r =>
    let listed := r.recs.any fun x => x.oneShot && x.launch == t.launch && decide (x.team = t.team ∧ x.thr = t.thr)
    if n ≠ region ∨ listed then .next s
    else
      let x : TenRec := { launch := t.launch, team := t.team, thr := t.thr, slot := 0, rect := rect, write := write, held := false, oneShot := true }
      .next ((s.setTregion region fun r => { r with recs := r.recs ++ [x] }).serveQueue region)
  | _, _ => .next s

/-! ## Services (R232) -/

/-- Who waits, added to a service. -/
def Service.add (w : SvcWaiter) (va : Nat) (x : Service) : Service :=
  match w with
  | .thread t => { x with threads := x.threads ++ [t] }
  | .ticket gw num => { x with tickets := x.tickets ++ [(gw, num)] }
  | .engine c copy => { x with engines := x.engines ++ [(c, if copy then .copy else .gather, va)] }
  | .finish r l => { x with finishing := x.finishing ++ [(r, l)] }

/-- A service request at a die's Zenith core: joined, opened, or waiting while 4,096 services are open. -/
def execServiceRequest (die : Nat) (ctx : BitVec 6) (va : Nat) (code : BitVec 8) (write fetch : Bool) (who : SvcWaiter) (s : State) : Out :=
  let d := s.die die
  if 4096 ≤ d.services.length ∧ !(d.services.any fun x => x.ctx == ctx && decide (x.page = va / 2 ^ 16)) then
    .next (s.after 1 (.serviceRequest die ctx va code write fetch who))
  else
    let (s, n) := s.openService die ctx va code.toNat write fetch (Service.add who va)
    .next (match who with
      | .thread t => s.onThread t fun x => if x.run = .ready then { x with run := .parked (.service die n va) {}, idleAt := s.now } else x
      | _ => s)

def State.service? (s : State) (die svc : Nat) : Option Service := (s.die die).services.find? fun x => decide (x.num = svc)
def State.closeService (s : State) (die svc : Nat) : State :=
  s.setDie die fun d => { d with services := d.services.filter fun x => decide (x.num ≠ svc) }

/-- A thread that waits for a service goes on. -/
def State.served (s : State) (die svc : Nat) (t : ThrId) (f : Nat → Thread → Thread) : State :=
  match s.runOf t with
  | some (.parked (.service d n va) _) => if d = die ∧ n = svc then s.resume t (f va) else s
  | _ => s

/-- `FSDONE` with REFUSE 0: threads execute again, tickets are replayed, engines, units and completion actions go on. -/
def execFsdoneResolve (die svc : Nat) (s : State) : Out :=
  match s.service? die svc with
  | none => .next s
  | some x =>
    let s := s.closeService die svc
    let s := x.threads.foldl (fun s t => s.served die svc t fun _ y => y) s
    let s := x.tickets.foldl (fun s g => s.tellTicket die g.1 g.2 stOk) s
    let s := x.engines.foldl (fun s e => s.post (.engineCommandComplete e.1 e.2.1)) s
    let s := x.units.foldl (fun s q => s.post (.matrixKstepComplete q)) s
    .next (x.finishing.foldl (fun s r => if r.1 then s.rejectAction die r.2 else s.action r.2) s)

/-- The status of a refused ticket: RETIRED when its leaf has type 5. -/
def State.refusedStatus (s : State) (die gw num : Nat) : BitVec 4 :=
  match (s.die die).gwTickets.find? fun t => decide (t.gw = gw ∧ t.num = num) with
  | none => stNotMapped
  | some t =>
    let r := (s.die die).region gw (t.req.rkey.toNat / 2 ^ 20)
    match walk s (s.ctxDesc r.ctx).ptroot ((r.vbase.toNat + t.req.addr.toNat) % 2 ^ 56) with
    | .retired _ => stRetired
    | _ => stNotMapped

/-- An engine's command ends with a fault. -/
def State.engineFault (s : State) (core : Nat) (e : Engine) (va : Nat) : State :=
  match s.core? core with
  | none => s
  | some c => (s.setCore (c.setEng e (c.engQueue e) ((c.engRun e).map fun x => { x with fault := some (causeNotMapped, va) }))).post (.engineCommandComplete core e)

/-- `FSDONE` with REFUSE 1: parked instructions raise `NOT_MAPPED`, tickets are refused, commands and actions end with that failure. -/
def execFsdoneRefuse (die svc : Nat) (s : State) : Out :=
  match s.service? die svc with
  | none => .next s
  | some x =>
    let s := s.closeService die svc
    let s := x.threads.foldl (fun s t => s.served die svc t fun va y => { y with pendTrap := some (causeNotMapped, BitVec.ofNat 64 va) }) s
    let s := x.tickets.foldl (fun s g => s.tellTicket die g.1 g.2 (s.refusedStatus die g.1 g.2)) s
    let s := x.engines.foldl (fun s e => s.engineFault e.1 e.2.1 e.2.2) s
    let s := x.units.foldl (fun s q => match (s.quad q).cmd? with
      | some c => s.unitEnd q c (some stNotMapped)
      | none => s) s
    .next (x.finishing.foldl (fun s r =>
      if r.1 then match (s.die die).rejects.find? fun y => y.num == r.2 with
        | some y => s.rejectEnd die y (some causeNotMapped)
        | none => s
      else s.actionEnd r.2 (some causeNotMapped)) s)

/-- A write of `FQHEAD` (R251): room is freed, and a pending overflow record is written first. -/
def execFqheadWrite (die : Nat) (v : W64) (s : State) : Out := .next ((s.setDie die fun d => { d with fqhead := v &&& 0xFFFFFFFF }).fqFlush die)

/-! ## Engines (R177–R180) and the log (R182) -/

def execEngineCommandStart (core : Nat) (e : Engine) (s : State) : Out := .next (engineStart core e s)

/-- The running command proceeds; when its last unit has performed it completes (R180). -/
def execEngineCommandComplete (core : Nat) (e : Engine) (s : State) : Out := .next (engineGo core e s)

/-- Ranges open for 10 µs are emitted. -/
def execLogRangeTimeout (launch : BitVec 16) (team since : Nat) (s : State) : Out :=
  match s.coreOf? launch team with
  | none => .next s
  | some c =>
    if !(c.ranges.any fun r => decide (r.since = since)) then .next s
    else match (s.asM c 0).emitRanges fun r => decide (r.since + us 10 ≤ s.now) with
      | .ok m => .next m.flush
      | .error (.service va code w f) =>
        if (s.die c.die).services.length ≥ 4096 then .next (s.after 1 (.logRangeTimeout launch team since))
        else .next ((s.openService c.die c.ctx va code w f id).1.after (us 1) (.logRangeTimeout launch team since))
      | .error _ => .next (s.after 1 (.logRangeTimeout launch team since))

/-! ## Matrix units (R155, R264, R378) -/

/-- The head of one of a unit's five queues: a core's by its place in the quad, or the remote commands'. -/
def Quad.headOf (q : Quad) (k : Nat) : Option (MatEntry ⊕ MatrixCmd) :=
  if k = 4 then q.remq.head?.map .inr else (q.queue.find? fun e => decide (e.core % 4 = k)).map .inl

/-- The unit starts the next command when it is free: round-robin over its queues, from the one after that it served last (R155). -/
def execMatrixCommandStart (quad : Nat) (s : State) : Out :=
  let q := s.quad quad
  match q.act, ((List.range 5).map fun k => (q.arb + 1 + k) % 5).findSome? fun k => (q.headOf k).map fun x => (k, x) with
  | none, some (k, .inl e) =>
    .next ((s.setQuad { q with act := some (.thread e false), queue := q.queue.erase e, arb := k }).resume e.thr)
  | none, some (k, .inr c) =>
    .next ((s.setQuad { q with act := some (.cmd c), steps := 0, remq := q.remq.tail, arb := k }).after (s.arith 16) (.matrixKstepComplete quad))
  | _, _ => .next s

/-- A K-step of the remote command in progress ends (R264, R378), or the last one of a thread's command (R368). -/
def execMatrixKstepComplete (quad : Nat) (s : State) : Out :=
  let q := s.quad quad
  match q.act with
  | none | some (.thread _ false) => .next s
  | some (.thread _ true) => .next ((s.setQuad { q with act := none }).unitNext quad)
  | some (.cmd c) => match s.remoteStep c q.steps with
    | .more s => .next ((s.setQuad { s.quad quad with steps := q.steps + 1 }).after (s.arith 16) (.matrixKstepComplete quad))
    | .done s => .next (s.unitEnd quad c none)
    | .fault s st => .next (s.unitEnd quad c (some st))
    | .retry s => .next (s.after 1 (.matrixKstepComplete quad))
    | .waits s => .next s

/-- A remote matrix command at its target (R378): accepted into the fifth queue, with the sender's count, or refused. -/
def execRemoteMatrixCommand (c : MatrixCmd) (s : State) : Out :=
  match s.acceptMatrix c (c.core / 1024) with
  | .accepted s => match s.core? c.core with
    | some k =>
      let t := k.thr.get (Fin.ofNat 8 c.thr)
      .next (s.setCore { k with thr := k.thr.set (Fin.ofNat 8 c.thr) { t with mcmdOut := t.mcmdOut + 1 } })
    | none => .next s
  | .refused st => match s.core? c.core with
    | some k =>
      let t := k.thr.get (Fin.ofNat 8 c.thr)
      .next (s.setCore { k with thr := k.thr.set (Fin.ofNat 8 c.thr) { t with mcmdErr := some st } })
    | none => .next s
  | .busy => .next (s.after (us 1) (.remoteMatrixCommand c))

end

end Sys2Proof.Machine
end

