-- ==== Sys2Proof/Machine/Bringup.lean ====
section
/-!
DEFINITION. Power, reset and bring-up (R20, R30–R35, R75, R91, R107, R110), the power and thermal controls (R25–R29), the Harvy port
(R109, R110), and writes of registers without a row of their own (R8).
-/
namespace Sys2Proof.Machine
open Sys2Proof

noncomputable section

/-! ## What survives -/

/-- Whether an address lies in the CXL tier. DESIGN CHOICE, log 2. -/
def inCxl (pa : Nat) : Bool := decide (2 ^ 44 ≤ pa ∧ pa < 2 ^ 45)

/-- Only the CXL tier keeps its contents (R30, R32). DESIGN CHOICE, log 2. -/
def Memory.onlyCxl (m : Memory) : Memory :=
  { cells := m.cells.filter fun c => inCxl c.1, empty := [], tags := [], poison := m.poison.filter fun b => inCxl (64 * b) }

def State.clearMemory (s : State) : State :=
  { s with mem := s.mem.onlyCxl, enc := s.enc.filter fun x => inCxl (64 * x.1), ueMem := s.ueMem.filter fun b => inCxl (64 * b) }

/-- A die after a reset: its persistent repair record and retired frames stay (R35, R249, R250). The spec does not say whether a reset ends the
hold of R28: here it does, and the next report below 100 °C leaves the level to R26. DESIGN CHOICE, log 34. -/
def Die.restart (d : Die) : Die :=
  { repairs := d.repairs, quarantine := d.quarantine, cleanErr := d.cleanErr, retired := d.retired, corrected := d.corrected }

/-- A staged image that verifies takes the place of the running one (R107). -/
def takenFirmware (s : State) : List Byte :=
  match s.fwStaged with
  | some img => if Config.imageSigned img ∧ Config.fusedVersion ≤ Config.imageVersion img then img else s.fw
  | none => s.fw

/-- The module in reset: the standby domain, persistent records, memory contents and the model's counters stay. DEDUCED, log 34. -/
def State.restart (s : State) : State :=
  { State.reset with
    plim := s.plim, throttle := s.throttle, clockAt := s.clockAt, psum := s.psum, pcount := s.pcount, temps := s.temps, power := s.power, held := s.held, shut := s.shut
    mstat := s.mstat &&& 8, modid := s.modid, cccur := s.ccnext, ccnext := s.ccnext, hbmHot := s.hbmHot
    fw := takenFirmware s, fwStaged := none, enc := s.enc, cxlRanges := s.cxlRanges, ueMem := s.ueMem, mem := s.mem
    dies := s.dies.map Die.restart
    now := s.now, coreReset := s.now, accepted := s.accepted, outbox := s.outbox, fresh := s.fresh }

/-! ## MSTAT (R33) -/

/-- `STEP`, the last bring-up step begun. DEDUCED, log 34. -/
def State.bringStep (s : State) : Nat := fieldOf s.mstat 23 20
def State.failedUp (s : State) : Bool := s.mstat.getLsbD 2

/-- Whether bring-up is under way. -/
def State.bringing (s : State) : Bool := s.power && !s.held && decide (1 ≤ s.bringStep) && !s.ready && !s.failedUp

/-- A field of `MSTAT` written by the device. -/
def State.mstatPut (s : State) (hi lo v : Nat) : State := { s with mstat := setBits s.mstat hi lo v }

/-- `FAIL` (R31, R96, R246): the die is recorded, `READY` is 0, vector 64 is sent. -/
def State.fail (s : State) (die : Nat) : State :=
  let s := ((s.mstatPut 2 2 1).mstatPut 0 0 0).mstatPut 1 1 0
  let s := s.mstatPut 19 16 die
  ({ s with timers := s.timers.filter fun t => match t.2 with
    | .bringupTimeout _ => false
    | _ => true } : State).vector64

/-! ## Topology discovery (R91) -/

/-- Kinds of the probe and its answer among the internal ones (R81 names none for them). -/
def kTopoProbe : BitVec 6 := 0x14
def kTopoAnswer : BitVec 6 := 0x15

/-- A die's discovery: probes through every Cirrus port that is up; a module without a number keeps its ports down. -/
def State.discover (s : State) (die : Nat) : State :=
  let s := s.setDie die fun d => { d with topo := some [] }
  let s : State :=
    if s.modid = 0xFFFF then (List.range 6).foldl (fun s g => s.setLink { s.link (.cirrus die g) with up := false }) s
    else (List.range 6).foldl (fun s g => s.linkSend (.cirrus die g)
      { p := { kind := kTopoProbe, vn := 0, src := s.zenith die, dst := 0xFFFF0000 } }) s
  let t := s.timers.filter fun t => t.2 != .topologyDiscoveryTimeout die
  ({ s with timers := t } : State).after (us 1000) (.topologyDiscoveryTimeout die)

/-- The code of a hop count. DEDUCED, log 36. -/
def hopCode (n : Nat) : Nat := if n ≤ 1 then 2 else if n = 2 then 3 else if n ≤ 15 then 4 else 0

/-! ## Bring-up (R31, R32, R34) -/

/-- A quad whose sites work and that no repair names. -/
def Die.quadWorks (d : Die) (q : Nat) : Bool :=
  !d.repairs.contains q && (List.range 4).all fun k =>
    let site := 32 * (2 * (q / 16) + k / 2) + (2 * (q % 16) + k % 2)
    !d.fused.contains site && !d.failed.contains site

/-- Logical numbering (R34). -/
def Die.number (d : Die) : Die :=
  let good := (List.range 256).filter d.quadWorks
  { d with quadMap := good.take 248, spares := good.drop 248, moved := [] }

/-- The free frames of a die's tier as bring-up leaves them: frame addresses of that tier at that die, each once, none retired. -/
def State.givenFrames (s : State) (die tier : Nat) : List Nat :=
  let ok (f : Nat) : Bool := decide (f % 2 ^ 16 = 0) && (paKind s f).isMem && decide (tierOf f = tier) && decide (homeDie f = die)
    && !(s.die die).retired.contains (f / 2 ^ 16)
  ((Config.firmwareFrames die tier).filter ok).foldl setIns []

/-- Step 5's effect on the module (R32), the frames that Drift has from then on, and the scrub (R45). -/
def State.initMemory (s : State) : State :=
  let s := s.clearMemory
  let s : State := { s with quads := [], cores := [], dies := s.dies.map fun d => { d with
    l2 := [], slice := [], cap := [], names := [], tregions := [], waits := [] } }
  (List.range 8).foldl (fun s d => s.setDie d fun x => { x with
    freeHbm := s.givenFrames d 0, freeLp := s.givenFrames d 1, freeCxl := s.givenFrames d 2 }) s.startScrub

/-- A CXL dynamic-capacity event (R94): capacity bound is mapped, and its frames that firmware gives Drift are free; from capacity taken back,
frames are no longer free and motions to it abort. DEDUCED, log 41. -/
def execCxlDynamicCapacityRelease (base : CxlChange) (count : Nat) (s : State) : Out :=
  let inside (pa : Nat) : Bool := decide (base.base ≤ pa ∧ pa < base.base + count)
  if base.bound then
    let s : State := { s with cxlRanges := (true, base.base, count) :: s.cxlRanges }
    .next (if fieldOf s.mstat 23 20 < 6 then s
      else [0, 4].foldl (fun s d => s.setDie d fun x => { x with freeCxl := ((s.givenFrames d 2).filter inside).foldl setIns x.freeCxl }) s)
  else
    let ms := (List.range 8).flatMap fun d => ((s.die d).motions.filter fun m => inside m.dst).map fun m => (d, m.src)
    let s := ms.foldl (fun s (d, src) => s.motionAbort d src 2) s
    .next { s with cxlRanges := (false, base.base, count) :: s.cxlRanges
                   dies := s.dies.map fun d => { d with freeCxl := d.freeCxl.filter fun f => !inside f } }

/-- A step begins. -/
def State.beginStep (s : State) (n : Nat) : State :=
  let s := s.mstatPut 23 20 n
  let next (s : State) : State := s.post (.bringupStepComplete true 0)
  match n with
  | 2 => s.mstatPut 1 1 1
  | 3 => (List.range 8).foldl (fun s d =>
      (s.setDie d fun x => { x with fused := [], failed := [], answered := [] }).after (us 1000) (.discoveryTimeout d)) s
  | 4 => next s
  | 6 => (List.range 8).foldl State.discover s
  | 7 => next s
  | _ => s

/-- Bring-up begins. -/
def State.beginBringup (s : State) : State :=
  (s.after (us 3000000) (.bringupTimeout (Config.lateDie s.fresh).toNat)).beginStep 1

/-- The module becomes ready (R33, R96, R102). -/
def State.becomeReady (s : State) : State :=
  let s : State := { s.mstatPut 0 0 1 with timers := s.timers.filter fun t => match t.2 with
    | .bringupTimeout _ => false
    | _ => true }
  let s := (List.range 8).foldl (fun s d => (s.after (us 10000) (.driftHalvingVisit d)).after (us 10000) (.lullStart d)) s
  s.vector64.offerSlots

/-- Bring-up firmware's access-table entries of a die (R97, R104): memory for classes 0–4 and 6, registers for the host. DEDUCED, log 38. -/
def firmwareEntries (die : Nat) : List (Nat × Nat × AccessEntry) :=
  let entry (lo hi cls : Nat) : AccessEntry :=
    { base := BitVec.ofNat 40 (lo / 4096), limit := BitVec.ofNat 40 (hi / 4096), cls := BitVec.ofNat 8 cls, a := true, w := true, r := true, v := true }
  let memory (st : Nat) : Nat × Nat × AccessEntry := (st, 0, entry 0 (2 ^ 45 - 1) 0x5F)
  let ports := (List.range 66).map fun p => memory (1024 + p)
  let gateways := (List.range 9).map fun g => memory (1090 + g)
  let host := if die = 0 ∨ die = 4 then [memory 1099] else []
  let regs := [(1100, 0, entry (dieRange die + 0x500000) (dieRange die + 0x500FFF) 0x10),
               (1100, 1, entry (dieRange die + 0x600000) (dieRange die + 0x600FFF) 0x10)]
  let module := if die = 0 then [(1100, 2, entry moduleRange (moduleRange + 0x301FFFF) 0x10)] else []
  ports ++ gateways ++ host ++ regs ++ module

/-- `DIEOK` when step 5 fails or runs out of time: the dies that had completed it, not the one that failed (R33); which ones they are the spec
leaves open. DESIGN CHOICE, log 4. -/
def State.partDone (s : State) (die : Nat) : State :=
  if s.bringStep = 5 then { s.mstatPut 31 24 (bitOff (Config.diesDone s.fresh) (die % 8)).toNat with fresh := s.fresh + 1 } else s

/-- A step's completion (R31): the next one begins; numbering fails a die with fewer than 248 working quads. Step 5 completes die by die, the
die being `fdie` (R33). -/
def execBringupStepComplete (ok : Bool) (fdie : Nat) (s : State) : Out :=
  if !s.bringing then .next s
  else if !ok then .next ((s.partDone fdie).fail fdie)
  else match s.bringStep with
    | 1 => .next (s.beginStep 2)
    | 2 =>
      let s := s.mstatPut 1 1 0
      .next (({ s with ports := s.ports.map fun p => { p with up := true } } : State).beginStep 3)
    | 3 => .next (s.beginStep 4)
    | 4 =>
      let s : State := { s with dies := s.dies.map Die.number }
      match (List.range 8).find? fun d => decide ((s.die d).quadMap.length < 248) with
      | some d => .next (s.fail d)
      | none =>
        let s := (List.range 8).foldl (fun s d => s.setDie d fun x => { x with access := firmwareEntries d }) s
        .next (s.beginStep 5)
    | 5 =>
      let done : BitVec 8 := bitOn (s.mstat.extractLsb' 24 8) (fdie % 8)
      let s := s.mstatPut 31 24 done.toNat
      .next (if done = 0xFF then s.initMemory.beginStep 6 else s)
    | 6 => .next (s.beginStep 7)
    | 7 => .next s.becomeReady
    | _ => .next s

/-- 3 s have passed since power-good. DEDUCED, log 34. -/
def execBringupTimeout (fdie : Nat) (s : State) : Out := .next (if s.bringing then (s.partDone fdie).fail fdie else s)

/-- Step 3 is complete when every site of every die has answered or the die's time has passed. -/
def State.discovered (s : State) : State :=
  if s.bringing ∧ s.bringStep = 3 ∧ (s.dies.all fun d => decide (1024 ≤ d.answered.length)) then s.post (.bringupStepComplete true 0) else s

def execDiscoveryAnswer (die site : Nat) (fused failed : Bool) (s : State) : Out :=
  if !s.bringing ∨ s.bringStep ≠ 3 ∨ 1024 ≤ site ∨ (s.die die).answered.contains site then .next s
  else
    let f (d : Die) : Die := { d with
      answered := setIns d.answered site
      fused := if fused then setIns d.fused site else d.fused
      failed := if failed then setIns d.failed site else d.failed }
    .next (s.setDie die f).discovered

/-- Sites that have not answered within 1 ms count as failed. DEDUCED, log 34. -/
def execDiscoveryTimeout (die : Nat) (s : State) : Out :=
  if !s.bringing ∨ s.bringStep ≠ 3 ∨ 1024 ≤ (s.die die).answered.length then .next s
  else
    let f (d : Die) : Die := { d with
      answered := List.range 1024
      failed := (List.range 1024).filter fun x => d.failed.contains x || !d.answered.contains x }
    .next (s.setDie die f).discovered

/-! ## Power and reset (R30, R75, R110) -/

/-- Main power is removed: everything but the standby domain, the persistent records and the CXL tier is lost. -/
def State.loseRails (s : State) (source : Nat) : State :=
  let s1 := s.clearMemory
  { s1.restart with power := false, shut := source, fw := s.fw, fwStaged := s.fwStaged, cccur := s.cccur, events := [] }

/-- Power-good (R30, R31): `THERM` tells whether the last power-down was a thermal shutdown; bring-up begins unless the module is held in reset. DEDUCED, log 34. -/
def execPowerGood (s : State) : Out :=
  if s.power then .next s
  else
    let s1 := ({ s with power := true } : State).restart
    let s2 := s1.mstatPut 3 3 (if s.shut = 0 then 0 else 1)
    .next (if s.held then s2 else s2.beginBringup)

/-- Standby power comes up (R75): what flash and the repair records keep stays. DEDUCED, log 34. -/
def execStandbyPowerUp (s : State) : Out :=
  let kept := s.dies.map Die.restart
  .next { State.reset with fw := s.fw, fwStaged := s.fwStaged, ccnext := s.ccnext, cccur := s.ccnext, cxlRanges := s.cxlRanges, dies := kept
                           mem := s.mem.onlyCxl, enc := s.clearMemory.enc, ueMem := s.clearMemory.ueMem
                           now := s.now, coreReset := s.now, accepted := s.accepted, outbox := s.outbox, fresh := s.fresh }

/-- A module reset (R110): bring-up restarts, at once or when the reset that is held is released. DEDUCED, log 34. -/
def execModuleReset (hold : Bool) (s : State) : Out :=
  if !s.power then .next { s with held := hold }
  else
    let s1 : State := { s.restart with held := hold }
    .next (if hold then s1 else s1.beginBringup)

def execResetRelease (s : State) : Out :=
  if !s.held then .next s
  else
    let s1 : State := { s with held := false }
    .next (if s.power then s1.beginBringup else s1)

def execLossOfMainRails (s : State) : Out := .next (if s.power then s.loseRails 0 else s)

/-! ## The Harvy port (R25, R75, R107, R109) -/

def State.refused (s : State) : State := { s with outbox := s.outbox ++ [.refused] }

/-- Whether the Harvy port takes a value of `PLIM` (R25). -/
def plimOk (w : Nat) : Bool := decide (1500 ≤ w ∧ w ≤ 3000 ∧ w % 25 = 0)

def execHarvySetPlim (w : Nat) (s : State) : Out := .next (if plimOk w then { s with plim := w } else s.refused)

/-- Whether `MODID` may be written now (R75): in reset, or before step 6. With the main rails off and the module not held, which R75 does not
name, it may. DESIGN CHOICE, log 34. -/
def State.modidOpen (s : State) : Bool := s.held || decide (s.bringStep < 6)

def execHarvySetModid (n : BitVec 16) (s : State) : Out := .next (if s.modidOpen then { s with modid := n } else s.refused)

/-- One staging is open at a time (R108). DEDUCED, log 35. -/
def execHarvyStageFirmware (img : List Byte) (s : State) : Out :=
  .next (if s.mbox.image.isSome then s.refused else { s with fwStaged := some img })

/-- A request joins the queue of four behind the one being served (R109). -/
def State.attestAsk (s : State) (nonce : BitVec 128) (mailbox : Bool) : Option State :=
  if 5 ≤ s.attest.length then none
  else
    let s1 : State := { s with attest := s.attest ++ [(nonce, mailbox)] }
    some (if s.attest.isEmpty then s1.after (us 50000) .attestationReport else s1)

/-- DEDUCED, log 35. -/
def execHarvyAttest (nonce : BitVec 128) (s : State) : Out := .next ((s.attestAsk nonce false).getD s.refused)

/-- The bytes of a list stored from an offset. -/
def putCells (m : List Host.Cell) (a : Nat) : List Byte → List Host.Cell
  | [] => m
  | b :: l => putCells (cellPut m a b) (a + 1) l

/-- A report is ready: to the Harvy port, or in `MBBUF` with its length in `RLEN`. -/
def execAttestationReport (s : State) : Out :=
  match s.attest with
  | [] => .next s
  | (nonce, mailbox) :: rest =>
    let r := Config.report nonce s.fw s.modid (s.dies.toList.map fun d => d.fused ++ d.failed ++ d.repairs ++ d.quarantine.flatMap fun x => [x.1, x.2.1, x.2.2])
    let s1 : State := { s with attest := rest }
    let s2 := if rest.isEmpty then s1 else s1.after (us 50000) .attestationReport
    .next (if mailbox then
        ({ s2 with mbox := { s2.mbox with buf := putCells s2.mbox.buf 0 r, rlen := r.length } } : State).post (.mailboxCommandComplete 0)
      else { s2 with outbox := s2.outbox ++ [.bytes r] })

/-! ## Power and temperature (R26, R28, R29) -/

/-- The throttle level set; a change of the arithmetic clock counts its edges anew (R26). DESIGN CHOICE that an edge falls with the change,
log 7. -/
def State.setThrottle (s : State) (n : Nat) : State :=
  if n = s.throttle then s else { s with throttle := n, clockAt := s.now, cores := s.cores.map fun c => { c with vpipe := (0, 0) } }

/-- Fifty samples of 20 µs end an interval. DESIGN CHOICE, log 7. -/
def execPowerSample (w : Nat) (s : State) : Out :=
  let s1 : State := { s.setThrottle (if 3300 < w then 8 else s.throttle) with psum := s.psum + w, pcount := s.pcount + 1 }
  .next (if s.pcount + 1 = 50 then s1.post .powerIntervalEnd else s1)

/-- The level after an interval. -/
def nextThrottle (s : State) : Nat :=
  if s.dies.any (·.dieHot) then 8
  else if s.plim * s.pcount < s.psum then Nat.min 8 (s.throttle + 1)
  else if s.psum + 100 * s.pcount < s.plim * s.pcount then s.throttle - 1
  else s.throttle

def execPowerIntervalEnd (s : State) : Out := .next { s.setThrottle (nextThrottle s) with psum := 0, pcount := 0 }

/-- A temperature noted for the Harvy port (R110). -/
def State.noteTemp (s : State) (n temp : Nat) : State := { s with temps := (n, temp) :: s.temps.filter fun x => decide (x.1 ≠ n) }

def execDieThermalReport (die temp : Nat) (s : State) : Out :=
  let s := s.noteTemp (die % 8) temp
  if !s.power then .next s
  else if 115 ≤ temp then .next (s.loseRails (1 + die % 8))
  else if 100 ≤ temp then .next ((s.setDie die fun d => { d with dieHot := true }).setThrottle 8)
  else if temp < 95 then .next (s.setDie die fun d => { d with dieHot := false })
  else .next s

/-- Whether an action is under way after a report: it starts at its threshold and ends 5 °C below. -/
def hbmAction (on : Bool) (temp thr : Nat) : Bool := decide (thr ≤ temp) || (on && decide (thr < temp + 5))

def execHbmThermalReport (stack temp : Nat) (s : State) : Out :=
  let s := s.noteTemp (8 + stack % 8) temp
  if !s.power then .next s
  else if 105 ≤ temp then .next (s.loseRails (9 + stack % 8))
  else
    let rest := s.hbmHot.filter fun x => decide (x.1 ≠ stack)
    let act (thr k : Nat) : List (Nat × Nat) := if hbmAction (s.hbmHot.contains (stack, k)) temp thr then [(stack, k)] else []
    .next { s with hbmHot := act 85 1 ++ act 95 2 ++ rest }

/-! ## What the Harvy port reads (R27, R30, R110)

No row of the opcode table stands for these reads. They change nothing: each is a function of the state. -/

/-- What the rack controller may read through the Harvy port. -/
inductive HarvyItem where
  | temperatures
  | coolant
  | shutdownSource
  | mstat
  | faultQueue (die : Nat)
deriving DecidableEq, Repr

/-- The entries of a die's fault queue between `FQHEAD` and `FQTAIL`, 32 bytes each (R251). -/
def State.queueWords (s : State) (die : Nat) : List W64 :=
  let d := s.die die
  let head := d.fqhead.toNat % 2 ^ 32
  let n := (d.fqtail.toNat % 2 ^ 32 + 2 ^ 32 - head) % 2 ^ 32
  (List.range (Nat.min n (2 ^ 16))).flatMap fun k => (List.range 4).map fun j =>
    BitVec.ofNat 64 (s.readPa (d.fqbase.toNat / 4096 * 4096 + 32 * ((head + k) % 2 ^ (d.fqbase.toNat % 32)) + 8 * j) 8 0)

/-- A read through the Harvy port, which works whether or not `READY` is 1: temperatures by die and stack, the coolant's two temperatures and
flow, what shut the module down (1 + die, 9 + stack, 0 nothing), `MSTAT`, the entries of a fault queue. -/
def State.harvyRead (s : State) (i : HarvyItem) : List W64 :=
  match i with
  | .temperatures => (List.range 16).map fun n => BitVec.ofNat 64 (((s.temps.find? fun x => decide (x.1 = n)).map (·.2)).getD 0)
  | .coolant =>
    let (a, b, f) := Config.coolant s.now
    [BitVec.ofNat 64 a, BitVec.ofNat 64 b, BitVec.ofNat 64 f]
  | .shutdownSource => [BitVec.ofNat 64 s.shut]
  | .mstat => [s.mstat]
  | .faultQueue d => s.queueWords d

/-! ## Registers (R8, R33) -/

def execMstatThermClear (s : State) : Out := .next (s.mstatPut 3 3 0)

/-- A register write by a master; an access that its table refuses has no other effect than its record (R104), one to a hole none but its
own (R36). -/
def execRegisterWrite (pa size : Nat) (v : W64) (m : Master) (s : State) : Out :=
  match regAccess s pa size (some v) m with
  | .ok s _ => .next s
  | .refused s => .next s

end

end Sys2Proof.Machine
end

