-- ==== Sys2Proof/Machine/Links.lean ====
section
/-!
DEFINITION. The receiving side of links (R70–R73, R81), topology discovery (R91) and the Lull permit audit (R92, R93).
-/
namespace Sys2Proof.Machine
open Sys2Proof

noncomputable section

/-! ## Names of a link in records -/

/-- `LTYPE` and `LINK` (R93). -/
def linkType : LinkId → Nat
  | .mesh .. => 0
  | .dieLink .. => 1
  | .cirrus .. => 2
def linkNum : LinkId → Nat
  | .mesh _ n | .dieLink _ n | .cirrus _ n => n

/-- The endpoint index of the station that receives on a link (R21). -/
def linkStation : LinkId → Nat
  | .mesh _ n => n / 4
  | .dieLink _ g => 1090 + g
  | .cirrus _ g => 1093 + g

/-- A link record (R93): word 0, then HELD, DEPTH and the rest for kind 0x31. -/
def State.linkRecord (s : State) (l : LinkId) (kind : Nat) (vn cls lane : Nat := 0) (w1 w2 : Nat := 0) : State :=
  s.record (linkDie l) [kind + linkDie l * 2 ^ 8 + linkType l * 2 ^ 13 + linkNum l % 4096 * 2 ^ 15 + vn % 4 * 2 ^ 27 + cls % 4 * 2 ^ 29
    + lane % 256 * 2 ^ 40, w1, w2, s.timeNs]

/-! ## Failure of the module (R70, R246) -/

/-- Every launch terminated with the reason for a module failure. -/
def State.terminateAll (s : State) (p : Launch → Bool) (reason : Nat) (whole : Bool) : State :=
  ((s.dies.toList.flatMap (·.launches)).filter fun l => p l && l.phase != .free && !l.ending).foldl (fun s l => s.terminate l.id reason 0x10 whole) s

/-- The host ports drop their links. -/
def State.portsDown (s : State) : State := { s with ports := s.ports.map fun p => { p with up := false } }

/-! ## Flits (R71, R72) -/

/-- The kinds that R81 lists. DESIGN CHOICE, log 13. -/
def kindListed (k : BitVec 6) : Bool :=
  let n := k.toNat
  decide ((1 ≤ n ∧ n ≤ 8) ∨ (0x10 ≤ n ∧ n ≤ 0x1F) ∨ (0x20 ≤ n ∧ n ≤ 0x25) ∨ (0x30 ≤ n ∧ n ≤ 0x34))

/-- A packet of a reserved kind, with a nonzero reserved field or a reserved status (R81). DEDUCED, log 16. -/
def Packet.reserved (p : Packet) : Bool := !kindListed p.kind || p.resv != 0 || decide (12 ≤ p.status.toNat)

/-- A packet at its die: what packets of internal kinds ask of this module's own units, else the step of its station. Of kinds whose fields
the spec does not give, only those that this model sends have a meaning. DESIGN CHOICE, log 13. -/
def State.handle (s : State) (p : Packet) : State :=
  if p.vn = 0 ∧ badEndpoint p.dst then s.post (packetStep false p)
  else if p.kind = kTopoProbe then s.post (.topologyProbe p)
  else if p.kind = kTopoAnswer then s.post (.topologyAnswer (p.dst.toNat / 2 ^ 13 % 8) (p.src.extractLsb' 16 16) p.aux.toNat)
  else if p.kind = kTile then s.tileHome p
  else if p.kind = kRepoint then (if p.mode = 1 then s.repointDone p else s.repointAsked p)
  else if p.kind = kFewake then match s.coreAt p.dst with
    | some c => s.post (.fewakeNotice ⟨c.launch, c.team, p.thr.toNat⟩ p.addr)
    | none => s
  else s.post (packetStep (s.windowKey p.rkey) p)

/-- A packet for this die that a Lull may hold back (R92). -/
def State.takeIn (s : State) (die : Nat) (p : Packet) : State :=
  if (s.die die).lull && p.vn == 0 then s.setDie die fun d => { d with lullHeld := d.lullHeld ++ [p] } else s.handle p

/-- A packet taken from a link: dropped with a record when it is reserved (R81); on a Cirrus link a keyed request passes its entry gateway's
checks (R77); then it arrives, or a gateway forwards it on a die link as class B, on its second hop as hop class 2 (R65, R67). -/
def State.takePacket (s : State) (l : LinkId) (c : Carried) : State :=
  let p := c.p
  let die := linkDie l
  let cirrus : Option Nat := match l with
    | .cirrus _ g => some g
    | _ => none
  let dest := p.dst.toNat / 2 ^ 13 % 8
  if Packet.reserved p then s.fault die 0x36 p.kind.toNat 0 0 (linkStation l) p.src.toNat
  else if p.kind = kTopoProbe ∨ p.kind = kTopoAnswer then s.handle p
  else if !ownModule s (p.dst.extractLsb' 16 16) then s
  else match cirrus.bind fun g => s.entryReply die (3 + g) p with
    | some r => s.send r
    | none =>
      if dest = die then s.takeIn die p
      else s.linkSend (.dieLink die (dieRoute die dest)) { hop2 := cirrus.isNone, clsB := cirrus.isSome || c.clsB, p := p }

/-- A flit asked for again: a NAK that carries the sequence number of the last good flit. The sixteenth for one FSEQ retrains the link. -/
def State.nakFlit (s : State) (l : LinkId) : State :=
  let k := s.link l
  let s := State.idleFlits 1 l (s.setLink { k with drops := true, naks := k.naks + 1, nakDue := true })
  if k.naks + 1 < 16 then s
  else (s.setLink { s.link l with drops := false, naks := 0, naksIn := 0, retrain := true }).after (us 10000) (.linkRetrainTimeout l)

/-- Flits after an acknowledged one. DEDUCED, log 36. -/
def afterAck (ack : BitVec 16) : List Flit → List Flit
  | [] => []
  | f :: fs => if fs.all (fun x => x.fseq != ack) && f.fseq == ack then fs else if fs.any (fun x => x.fseq == ack) then afterAck ack fs else f :: fs

/-- Flits sent again, in order, with the acknowledgement that holds now; a NAK is repeated while its flit is still missing. -/
def State.resendFlits (s : State) (l : LinkId) : State :=
  let k := s.link l
  k.replay.foldl (fun s f => s.wire l { f with ack := k.fseqIn - 1, nak := f.nak && k.drops }) s

/-- What a good flit acknowledges, asks again and returns. -/
def State.flitControl (s : State) (l : LinkId) (f : Flit) : State :=
  let k := s.link l
  let left := afterAck f.ack k.replay
  let h := if f.hop2 then 1 else 0
  let spent := (List.range 4).foldl (fun o j => setCountPut o h j (setCount o h j - (f.pret.get (Fin.ofNat 4 j)).toNat)) k.spent
  let naksIn := if !f.nak then (if left.length < k.replay.length then 0 else k.naksIn) else if left.length < k.replay.length then 1 else k.naksIn + 1
  let s := s.setLink { k with replay := left, spent := spent, naksIn := naksIn }
  if !f.nak then s
  else if 16 ≤ naksIn then (s.setLink { s.link l with retrain := true, naks := 0, naksIn := 0 }).after (us 10000) (.linkRetrainTimeout l)
  else s.resendFlits l

/-- A buffer set has no slot for the packets of a flit (R93). -/
def overfull (l : LinkId) (f : Flit) : Bool :=
  (List.range 2).any fun h => (List.range 4).any fun j => decide (linkDepth l h j < (f.packets.filter fun c => carriedSet c == (h, j)).length)

/-- `FLIT_RECEIVE` (R72). A flit with a CRC error or without room is discarded and asked for again; later ones are discarded until it comes,
the first of them asking for it (log 36). A good flit is acknowledged, and its packets' slots, free at once, are returned (R71). DESIGN CHOICE,
log 7. DESIGN CHOICE, log 13. -/
def execFlitReceive (l : LinkId) (f : Flit) (s : State) : Out :=
  let k := s.link l
  if !k.up ∨ k.retrain then .next s
  else if !f.crcOk ∨ f.fseq ≠ k.fseqIn ∨ overfull l f then
    .next (if k.drops && f.crcOk && f.fseq != k.fseqIn then s else s.nakFlit l)
  else
    let owed := f.packets.foldl (fun o c => setCountPut o (carriedSet c).1 (carriedSet c).2 (setCount o (carriedSet c).1 (carriedSet c).2 + 1)) k.owed
    let s := s.setLink { k with fseqIn := k.fseqIn + 1, drops := false, naks := 0, owed := owed, ackDue := k.ackDue || !f.empty }
    let s := s.flitControl l f
    let s := match f.marker with
      | some m => s.post (.lullMarker l m.net m.cls m.held m.pret)
      | none => s
    .next ((f.packets.foldl (fun s c => s.takePacket l c) s).linkDrain l)

/-- A die link without a working module, or whose ends do not retrain: it is down at both ends, and the module has failed (R70, R72): every
context is terminated, and the host ports drop their links (R246). -/
def State.dieLinkDown (s : State) (l : LinkId) : State :=
  let down (s : State) (l : LinkId) : State := s.setLink { s.link l with up := false, retrain := false, replay := [], queue := [] }
  let s := (farEnd l).elim (down s l) (down (down s l))
  ((s.fail (linkDie l)).portsDown).terminateAll (fun _ => true) 6 true

/-- A link under retraining that did not finish: it is down. DEDUCED, log 36. -/
def execLinkRetrainTimeout (l : LinkId) (s : State) : Out :=
  let k := s.link l
  if !k.retrain then .next s
  else match l with
    | .cirrus d g => .next ((s.setLink { k with up := false, retrain := false, replay := [], queue := [] }).post (.cirrusPortStateChange d g false))
    | .dieLink .. => .next (s.dieLinkDown l)
    | .mesh .. => .next (s.setLink { k with up := false, retrain := false, replay := [], queue := [] })

/-- A link that finished training carries flits again: those not acknowledged first. -/
def execLinkRetrained (l : LinkId) (s : State) : Out :=
  let k := s.link l
  if !k.retrain then .next s
  else
    let t := s.timers.filter fun t => t.2 != .linkRetrainTimeout l
    let s : State := { s with timers := t }
    let s := s.setLink { k with retrain := false }
    .next ((s.resendFlits l).linkDrain l)

/-- A UCIe module of a die link fails (R70), at both ends (R17); a link without a working module fails the module. -/
def execDieLinkModuleFailure (die gw m : Nat) (s : State) : Out :=
  let l := LinkId.dieLink die gw
  let k := s.link l
  if k.bad.contains m ∨ 4 ≤ m then .next s
  else
    let mark (s : State) (l : LinkId) : State := s.setLink { s.link l with bad := setIns (s.link l).bad m }
    let s := ((farEnd l).elim (mark s l) (mark (mark s l))).linkRecord l 0x35 0 0 m
    .next (if k.bad.length < 3 then s else s.dieLinkDown l)

/-- A lane of a Cirrus port fails (R73): the pair's spare takes its place, or three lanes stay, or the port goes down. -/
def execCirrusLaneFailure (die port lane : Nat) (s : State) : Out :=
  let l := LinkId.cirrus die port
  let pair := LinkId.cirrus die (port % 3)
  let k := s.link l
  if k.bad.contains lane ∨ 4 ≤ lane then .next s
  else if (s.link pair).spare.isNone then
    .next ((s.setLink { s.link pair with spare := some (port, lane) }).linkRecord l 0x32 0 0 lane)
  else
    let s := s.setLink { k with bad := setIns k.bad lane }
    .next (if k.bad.length = 0 then s.linkRecord l 0x33 0 0 lane
      else (s.linkRecord l 0x34 0 0 lane).post (.cirrusPortStateChange die port false))

/-! ## Topology (R91) -/

/-- A port changes state: its link starts anew, and discovery is repeated. One that fails training at bring-up step 2 stays down and is
reported (R31), by a record of kind 0x34. DEDUCED, log 36. -/
def execCirrusPortStateChange (die port : Nat) (up : Bool) (s : State) : Out :=
  let l := LinkId.cirrus die port
  let k := s.link l
  let up := up && s.modid != 0xFFFF
  let s := s.setLink { id := l, up := up, bad := k.bad, spare := k.spare }
  let s := if s.bringStep = 2 ∧ !up then s.linkRecord l 0x34 else s
  .next (if s.ready ∨ 6 ≤ s.bringStep then s.discover die else s)

/-- A probe is answered with this module's number and the hop count (R91). -/
def execTopologyProbe (p : Packet) (s : State) : Out :=
  .next (s.send { kind := kTopoAnswer, vn := 1, aux := p.aux, src := s.zenith (p.dst.toNat / 2 ^ 13 % 8), dst := p.src })

/-- The smallest count of a module is kept. -/
def execTopologyAnswer (die : Nat) (modid : BitVec 16) (hops : Nat) (s : State) : Out :=
  .next (s.setDie die fun d => match d.topo with
    | none => d
    | some l =>
      let n := ((l.find? fun x => decide (x.1 = modid.toNat)).map (·.2)).getD hops
      { d with topo := some ((modid.toNat, Nat.min n hops) :: l.filter fun x => decide (x.1 ≠ modid.toNat)) })

/-- The scope table is written; modules that did not answer hold code 0 by having no entry. -/
def execTopologyDiscoveryTimeout (die : Nat) (s : State) : Out :=
  match (s.die die).topo with
  | none => .next s
  | some l =>
    let t := (l.filter fun x => decide (hopCode x.2 ≠ 0)).map fun x => (x.1, hopCode x.2)
    let s := s.setDie die fun d => { d with topo := none, scopes := t }
    .next (if s.bringing ∧ s.bringStep = 6 ∧ (s.dies.all fun d => d.topo.isNone) then s.post (.bringupStepComplete true 0) else s)

/-! ## The Lull (R92, R93) -/

/-- Networks and classes of a link with their buffer sets: `VN`, `CLS`, hop class and set. -/
def permitSets : List (Nat × Nat × Nat × Nat) := [(0, 0, 0, 0), (0, 1, 0, 1), (1, 0, 0, 2), (2, 0, 0, 3), (0, 2, 1, 0), (1, 2, 1, 2), (2, 2, 1, 3)]

/-- The set of a network and class. -/
def setOf (net cls : Nat) : Nat × Nat := (if cls = 2 then 1 else 0, if net = 0 then (if cls = 1 then 1 else 0) else net + 1)

/-- The markers that a link's sender sends at a Lull: one for each network and class. -/
def Link.lullMarks (k : Link) : List Mark :=
  permitSets.map fun (n, c, h, j) => { net := n, cls := c, held := k.held h j, pret := k.fseqIn - 1 }

/-- A die's Lull begins: for 2 µs no request is injected, and the senders of its links send markers: in flits on die links and Cirrus links;
a mesh marker arrives at once (a mesh link that is not listed holds all its permits, log 13). DEDUCED, log 39. -/
def execLullStart (die : Nat) (s : State) : Out :=
  let s := s.setDie die fun d => { d with lull := true }
  let links := ((List.range 3).map (LinkId.dieLink die) ++ (List.range 6).map (LinkId.cirrus die)).filter fun l => (s.link l).up
  let s := links.foldl (fun s l => (s.setLink { s.link l with marks := (s.link l).marks ++ (s.link l).lullMarks }).linkDrain l) s
  let mesh := s.links.filter fun k => match k.id with
    | .mesh d _ => decide (d % 8 = die % 8)
    | _ => false
  let s := mesh.foldl (fun s k => k.lullMarks.foldl (fun s m => s.post (.lullMarker k.id m.net m.cls m.held m.pret)) s) s
  .next ((s.after (us 2) (.lullEnd die)).after (us 10000) (.lullStart die))

/-- A flit sent after another, in sequence. -/
def sentAfter (a b : BitVec 16) : Bool := a != b && decide ((a - b).toNat < 2 ^ 15)

/-- Permits of a set returned in flits after a given one. DEDUCED, log 36. -/
def Link.returned (k : Link) (h j : Nat) (pret : BitVec 16) : Nat :=
  (k.replay.filter fun f => sentAfter f.fseq pret && (f.hop2 == (h == 1))).foldl (fun n f => n + (f.pret.get (Fin.ofNat 4 j)).toNat) 0

/-- A marker at its receiver: H + F + R against D, where F counts the free slots whose permits are not yet returned; a difference sets the
sender's count to D − F − R and is recorded (R93). The sender of a mesh link or a die link is of this module; another module's corrects its
own. -/
def execLullMarker (l : LinkId) (net cls held : Nat) (pret : BitVec 16) (s : State) : Out :=
  let (h, j) := setOf net cls
  let k := s.link l
  let d := linkDepth l h j
  let f := setCount k.owed h j
  let r := k.returned h j pret
  if held + f + r = d then .next s
  else
    let sender : Option LinkId := match l with
      | .mesh .. => some l
      | l => farEnd l
    let s := sender.elim s fun x => s.setLink { s.link x with spent := setCountPut (s.link x).spent h j (f + r) }
    .next (s.linkRecord l 0x31 net cls 0 (d % 2 ^ 16 + held % 2 ^ 16 * 2 ^ 16 + f % 2 ^ 16 * 2 ^ 32 + r % 2 ^ 16 * 2 ^ 48) ((held + f + r) % 2 ^ 16))

/-- Injection resumes: what waited at the die's links and at its stations goes on (R92). -/
def execLullEnd (die : Nat) (s : State) : Out :=
  let ps := (s.die die).lullHeld
  let s := s.setDie die fun d => { d with lull := false, lullHeld := [] }
  let s := ((List.range 3).map (LinkId.dieLink die) ++ (List.range 6).map (LinkId.cirrus die)).foldl State.linkDrain s
  .next (ps.foldl State.handle s)

end

end Sys2Proof.Machine
end

