-- ==== Sys2Proof/Machine/HostPort.lean ====
section
/-!
DEFINITION. What the hosts do (R94–R104, R108, R247): BAR0 with its die windows, MSI-X table and mailbox; the three views of BAR2;
access tables.
-/
namespace Sys2Proof.Machine
open Sys2Proof

noncomputable section

/-! ## Errors and answers (R101, R103) -/

/-- The die that carries a host port. -/
def portDie (port : Nat) : Nat := if port % 2 = 0 then 0 else 4

def State.hostPort (s : State) (port : Nat) : Port := s.ports.get (Fin.ofNat 2 port)
def State.setPort (s : State) (port : Nat) (f : Port → Port) : State :=
  { s with ports := s.ports.set (Fin.ofNat 2 port) (f (s.hostPort port)) }

/-- Whether a host reaches the module through a port. -/
def State.linked (s : State) (port : Nat) : Bool := s.power && (s.hostPort port).up

/-- A field of `HERR` counted, saturating (R103). -/
def State.countHerr (s : State) (port hi lo : Nat) : State :=
  s.setDie (portDie port) fun d => { d with herr := setBits d.herr hi lo (Nat.min (fieldOf d.herr hi lo + 1) (2 ^ 32 - 1)) }

def State.push (s : State) (m : OutMsg) : State := { s with outbox := s.outbox ++ [m] }

/-- A refused BAR access (R101): counted; a read completes as an unsupported request. -/
def State.hostRefuse (s : State) (port : Nat) (read : Bool) : State :=
  let s := s.countHerr port 63 32
  if read then s.push .refused else s

/-- The master of the host's register accesses (R97). -/
def hostMaster : Master := ⟨0, true, 4⟩

/-- Accesses of 4 or 8 bytes, naturally aligned (R97). -/
def regSize (off size : Nat) : Bool := (size == 4 || size == 8) && off % size == 0

/-! ## Register blocks behind BAR0 (R96, R97) -/

/-- A register access of the host at a physical address. DEDUCED, log 14. -/
def State.hostReg (s : State) (port pa size : Nat) (v : Option W64) : State :=
  match regAccess s pa size v hostMaster with
  | .ok s x => if v.isSome then s else s.push (.value x)
  | .refused s => s.hostRefuse port v.isNone

/-- `DIE_WINDOW_ACCESS`: an offset in a die's window. -/
def execDieWindowAccess (port off size : Nat) (v : Option W64) (s : State) : Out :=
  if !s.linked port then .next s
  else if off < 0x4000000 ∨ 0x8000000 ≤ off ∨ !regSize off size then .next (s.hostRefuse port v.isNone)
  else .next (s.hostReg port (dieRange ((off - 0x4000000) / 0x800000) + off % 0x800000) size v)

/-! ## MSI-X (R96) -/

/-- A vector unmasked: sent once when it is pending. -/
def State.unmask (s : State) (port vec : Nat) : State :=
  let p := s.hostPort port
  let s := s.setPort port fun p => { p with table := cellPut p.table (16 * vec + 12) ((cellGet p.table (16 * vec + 12)) &&& 0xFE) }
  if p.pend.contains vec ∧ p.msixEn then (s.setPort port fun p => { p with pend := setDel p.pend vec }).push (.msix port vec) else s

def execMsixUnmask (port vec : Nat) (s : State) : Out := .next (if vec < 65 then s.unmask port vec else s)

/-- A write of the MSI-X table; a mask bit that becomes 0 unmasks its vector. -/
def State.writeTable (s : State) (port off size : Nat) (v : W64) : State :=
  let was (vec : Nat) : Bool := (s.hostPort port).masked vec
  let s := s.setPort port fun p => { p with table := (List.range size).foldl (fun t k => cellPut t (off + k) (BitVec.ofNat 8 (sliceBytes v.toNat k 1))) p.table }
  (List.range 65).foldl (fun s vec => if was vec && !(s.hostPort port).masked vec then s.unmask port vec else s) s

/-- `n` bytes of cells from an offset. -/
def cellsNat (c : List Host.Cell) (a : Nat) : Nat → Nat
  | 0 => 0
  | n + 1 => (cellGet c a).toNat + 256 * cellsNat c (a + 1) n

/-! ## The mailbox (R108) -/

/-- The address a mailbox access presents to the access table: its BAR0 offset in the module's register range (log 14). -/
def mailboxPa (off : Nat) : Nat := moduleRange + off

/-- Whether die 0's table admits the host to the mailbox; a refusal is recorded. DEDUCED, log 14. -/
def State.mailboxOk (s : State) (off need : Nat) : Bool := accessOk (s.die 0) 1100 (mailboxPa off) hostMaster need

/-- A refused mailbox access. -/
def State.mailboxRefuse (s : State) (port off need : Nat) : State :=
  (s.refuse 0 1100 (mailboxPa off) hostMaster need).hostRefuse port (need == 1)

/-- A command written to `MBCMD`: dropped and counted while one is in progress, else `BUSY` and its work. DEDUCED, log 35. -/
def State.mailCommand (s : State) (port : Nat) (f : State → State) : State :=
  if !s.linked port then s
  else if !s.mailboxOk 0x3010000 2 then s.mailboxRefuse port 0x3010000 2
  else if s.mbox.busy then s.countHerr port 63 32
  else f { s with mbox := { s.mbox with busy := true, done := false, rlen := 0 } }

/-- The command's outcome. -/
def State.mailEnd (s : State) (err : BitVec 8) : State := s.post (.mailboxCommandComplete err)

def State.staging (s : State) (image : Option (List Host.Cell)) (len : Nat) : State :=
  { s with mbox := { s.mbox with image := image, ilen := len } }

def mailArg (cmd : W64) : Nat := fieldOf cmd 63 32
def mailLen (cmd : W64) : Nat := (fieldOf cmd 31 16 + 1) * 16

/-- `OPEN`: 1 staging in use, 6 a length above 32 MiB or no multiple of 16. DEDUCED, log 35. -/
def openErr (s : State) (len : Nat) : BitVec 8 :=
  if s.mbox.image.isSome then 1 else if 2 ^ 25 < len ∨ len % 16 ≠ 0 then 6 else 0

def execMailboxOpen (port : Nat) (cmd : W64) (s : State) : Out :=
  .next (s.mailCommand port fun s =>
    let e := openErr s (mailArg cmd)
    (if e = 0 then s.staging (some []) (mailArg cmd) else s).mailEnd e)

/-- `CHUNK`: 1 no staging is open, 2 outside the opened length. The spec names no code for an offset that is no multiple of 16 or a length
above 4,095 units: 2 as well. DESIGN CHOICE, log 35. -/
def chunkErr (s : State) (off len : Nat) : BitVec 8 :=
  if s.mbox.image.isNone then 1 else if off % 16 ≠ 0 ∨ 65536 < len ∨ s.mbox.ilen < off + len then 2 else 0

def execMailboxChunk (port : Nat) (cmd : W64) (s : State) : Out :=
  .next (s.mailCommand port fun s =>
    let e := chunkErr s (mailArg cmd) (mailLen cmd)
    let img := (List.range (mailLen cmd)).foldl (fun c k => cellPut c (mailArg cmd + k) (cellGet s.mbox.buf k)) (s.mbox.image.getD [])
    (if e = 0 then s.staging (some img) s.mbox.ilen else s).mailEnd e)

/-- `COMMIT`: 1 no staging, 3 the signature does not verify, 4 the security version is too low. -/
def commitErr (img : Option (List Byte)) : BitVec 8 :=
  match img with
  | none => 1
  | some b => if !Config.imageSigned b then 3 else if Config.imageVersion b < Config.fusedVersion then 4 else 0

def execMailboxCommit (port : Nat) (_ : W64) (s : State) : Out :=
  .next (s.mailCommand port fun s =>
    let img := s.mbox.image.map fun c => (List.range s.mbox.ilen).map (cellGet c)
    let e := commitErr img
    let s := if e = 0 then { s with fwStaged := img } else s
    (s.staging none 0).mailEnd e)

/-- `ABORT`. -/
def execMailboxAbort (port : Nat) (_ : W64) (s : State) : Out :=
  .next (s.mailCommand port fun s => (s.staging none 0).mailEnd (if s.mbox.image.isSome then 0 else 1))

/-- `ATTEST`: the nonce is `MBBUF`'s first 16 bytes; 5 when the queue of R109 is full. -/
def execMailboxAttest (port : Nat) (_ : W64) (s : State) : Out :=
  .next (s.mailCommand port fun s => (s.attestAsk (BitVec.ofNat 128 (cellsNat s.mbox.buf 0 16)) true).getD (s.mailEnd 5))

def execMailboxInvalidOp (port : Nat) (_ : W64) (s : State) : Out := .next (s.mailCommand port fun s => s.mailEnd 1)

def execMailboxCommandComplete (err : BitVec 8) (s : State) : Out :=
  .next (if s.mbox.busy then { s with mbox := { s.mbox with busy := false, done := true, err := err } } else s)

/-- The step of a command word. -/
def mailStep (port : Nat) (cmd : W64) : Instr :=
  match fieldOf cmd 3 0 with
  | 1 => .mailboxOpen port cmd
  | 2 => .mailboxChunk port cmd
  | 3 => .mailboxCommit port cmd
  | 4 => .mailboxAbort port cmd
  | 5 => .mailboxAttest port cmd
  | _ => .mailboxInvalidOp port cmd

/-- `MBSTAT`. -/
def Mailbox.stat (m : Mailbox) : W64 :=
  BitVec.ofNat 64 ((if m.busy then 1 else 0) + (if m.done then 2 else 0) + m.err.toNat * 2 ^ 8 + m.rlen % 2 ^ 32 * 2 ^ 32)

def execMbstatRead (port : Nat) (s : State) : Out :=
  if !s.linked port then .next s
  else if !s.mailboxOk 0x3010008 1 then .next (s.mailboxRefuse port 0x3010008 1)
  else .next (({ s with mbox := { s.mbox with done := false } } : State).push (.value s.mbox.stat))

/-- An access of `MBBUF`. -/
def State.mailBuffer (s : State) (port off size : Nat) (v : Option W64) : State :=
  let need := if v.isSome then 2 else 1
  if !regSize off size then s.hostRefuse port v.isNone
  else if !s.mailboxOk off need then s.mailboxRefuse port off need
  else match v with
    | none => s.push (.value (BitVec.ofNat 64 (cellsNat s.mbox.buf (off - 0x3000000) size)))
    | some x =>
      if s.mbox.busy then s.countHerr port 63 32
      else
        let bytes := (List.range size).map fun k => BitVec.ofNat 8 (sliceBytes x.toNat k 1)
        { s with mbox := { s.mbox with buf := putCells s.mbox.buf (off - 0x3000000) bytes } }

/-- Other accesses of `MBCMD` and `MBSTAT`: `MBCMD` reads 0, and a write of part of it leaves the other fields 0 (R8, WO); a write of `MBSTAT`
is ignored, and reading the half that holds DONE clears it. DEDUCED, log 35. -/
def State.mailRegs (s : State) (port off size : Nat) (v : Option W64) : State :=
  let need := if v.isSome then 2 else 1
  if !regSize off size then s.hostRefuse port v.isNone
  else if !s.mailboxOk off need then s.mailboxRefuse port off need
  else if off < 0x3010008 then match v with
    | none => s.push (.value 0)
    | some x => s.post (mailStep port (BitVec.ofNat 64 (putBytes 0 (off - 0x3010000) size x.toNat)))
  else if v.isSome then s
  else
    let r := BitVec.ofNat 64 (sliceBytes s.mbox.stat.toNat (off - 0x3010008) size)
    ({ s with mbox := { s.mbox with done := s.mbox.done && off != 0x3010008 } } : State).push (.value r)

/-! ## The rest of BAR0 (R96) -/

/-- Whether R96 lists a BAR0 offset. -/
def bar0Listed (off : Nat) : Bool :=
  decide (off < 0x1000000 ∨ (0x2000000 ≤ off ∧ off < 0x2000410) ∨ (0x2001000 ≤ off ∧ off < 0x2001010) ∨ (0x3000000 ≤ off ∧ off < 0x3010010)
    ∨ (0x4000000 ≤ off ∧ off < 0x8000000))

/-- An access at a listed offset without a step of its own: module registers, the MSI-X structures, the mailbox. -/
def State.bar0 (s : State) (port off size : Nat) (v : Option W64) : State :=
  if off < 0x1000000 then (if regSize off size then s.hostReg port (moduleRange + off) size v else s.hostRefuse port v.isNone)
  else if off < 0x2000410 then match v with
    | none => s.push (.value (BitVec.ofNat 64 (cellsNat (s.hostPort port).table (off - 0x2000000) size)))
    | some x => s.writeTable port (off - 0x2000000) size x
  else if off < 0x2001010 then
    let bits := (s.hostPort port).pend.foldl (fun n k => n + 2 ^ k) 0
    if v.isNone then s.push (.value (BitVec.ofNat 64 (sliceBytes bits (off - 0x2001000) size))) else s
  else if off < 0x3010000 then s.mailBuffer port off size v
  else s.mailRegs port off size v

/-- `BAR0_UNMAPPED_ACCESS` (R96): an offset that is not listed reads all ones, drops writes and is counted. -/
def execBar0UnmappedAccess (port off size : Nat) (v : Option W64) (s : State) : Out :=
  if !s.linked port then .next s
  else if bar0Listed off then .next (s.bar0 port off size v)
  else
    let s := s.countHerr port 63 32
    .next (if v.isNone then s.push (.value (BitVec.ofNat 64 (2 ^ (8 * size) - 1))) else s)

/-- `HERR_READ` (R103): both counts, which it clears; only dies 0 and 4 have the register. -/
def execHerrRead (die : Nat) (s : State) : Out :=
  if die = 0 ∨ die = 4 then
    let v := (s.die die).herr
    .next ((s.setDie die fun d => { d with herr := 0 }).push (.value v))
  else .next ((s.fault die 0x41 1 0 (dieRange die + 0x500000) 4).push (.value (-1)))

/-- A host port goes down (R94): its contexts are unreachable, the other port serves the CXL tier (R38). -/
def execHostPortDown (port : Nat) (s : State) : Out := .next (s.setPort port fun p => { p with up := false })

/-! ## BAR2 (R95, R98–R101, R247) -/

/-- The context and the address of a BAR2 offset of a view, or `none` when the access is refused (R98, R101). DEDUCED, log 35. -/
def State.bar2 (s : State) (view port off size : Nat) : Option (BitVec 6 × Nat × Nat) :=
  let c := BitVec.ofNat 6 (off / 0x200000)
  let o := off % 0x200000
  let h := s.hctx.get c.toFin
  if off / 0x8000000 ≠ view ∨ !(size == 1 || size == 2 || size == 4 || size == 8) ∨ off % size ≠ 0
      ∨ !h.getLsbD 0 ∨ fieldOf h 1 1 ≠ port % 2 then none
  else some (c, fieldOf h 51 21 * 2 ^ 21 + o, o)

/-- An access of the host to a context's area at its memory port, under the context's key. DEDUCED, log 35. -/
def State.hostAccess (s : State) (c : BitVec 6) (pa size : Nat) (k : AccKind) (v : W64) : PortRes :=
  s.atPort { pa := pa, size := size, kind := k, data := v.setWidth 128, key := (s.hctx.get c.toFin).extractLsb' 11 10, master := ⟨c, false, 4⟩ }

/-- A host access to memory whose home L2 serves none now is performed when it does again (R171). DEDUCED, log 37. -/
def State.hostLater (s : State) (pa : Nat) (again : Instr) (now : Out) : Out :=
  if l2Waits s (placeNow s pa) then .next (s.after s.busyEnd again) else now

/-- View 0 read: a poisoned block is answered with the poisoned attribute (R247). -/
def execBar2PlainRead (port off size : Nat) (s : State) : Out :=
  if !s.linked port then .next s
  else match s.bar2 0 port off size with
    | none => .next (s.hostRefuse port true)
    | some (c, pa, _) =>
      let known := !s.ueMem.contains (placeNow s pa / 64)
      s.hostLater pa (.bar2PlainRead port off size) <| match s.hostAccess c pa size .read 0 with
      | .done s v _ => .next (s.push (.value (BitVec.ofNat 64 v)))
      | .poison s =>
        let a := placeNow s pa
        let v := s.readPa a size ((s.hctx.get c.toFin).extractLsb' 11 10)
        let (d, st) := station s a
        let s := if known then s.fault d 0x70 (tierCode s a) c.toNat (a / 64 * 64) (1 + st * 2 ^ 16) else s
        .next (s.push (.poisoned (BitVec.ofNat 64 v)))
      | .refused s => .next (s.hostRefuse port true)
      | .parked s => .next (s.hostRefuse port true)

/-- A write in one of the views, with what follows when it has performed. -/
def State.hostWrite (s : State) (port : Nat) (c : BitVec 6) (pa size : Nat) (k : AccKind) (v : W64) (f : State → State) : State :=
  match s.hostAccess c pa size k v with
  | .done s _ _ => f s
  | .refused s => s.hostRefuse port false
  | .poison s | .parked s => s

/-- View 0 write: full/empty state is left (`stfe.keep`). -/
def execBar2PlainWrite (port off size : Nat) (v : W64) (s : State) : Out :=
  if !s.linked port then .next s
  else match s.bar2 0 port off size with
    | none => .next (s.hostRefuse port false)
    | some (c, pa, _) => s.hostLater pa (.bar2PlainWrite port off size v) (.next (s.hostWrite port c pa size .write v id))

/-- View 1 read: bit 0 of the word is its full/empty bit. -/
def execBar2ArmRead (port off size : Nat) (s : State) : Out :=
  if !s.linked port then .next s
  else match s.bar2 1 port off size with
    | none => .next (s.hostRefuse port true)
    | some (c, pa, _) => s.hostLater pa (.bar2ArmRead port off size) <| match s.hostAccess c (pa / 8 * 8) 8 (.ldfe 3) 0 with
      | .done s v _ => .next (s.push (.value (BitVec.ofNat 64 (sliceBytes v (pa % 8) size))))
      | .refused s => .next (s.hostRefuse port true)
      | .poison s | .parked s => .next s

/-- Whether an offset of a host area is word 0 of a launch slot (R95). -/
def slotWord (o : Nat) : Bool := decide (o < 0x100000 ∧ o % 256 = 0)

/-- The access table of a host area's word refuses the host (R101). -/
def State.hostBars (s : State) (c : BitVec 6) (pa need : Nat) : Bool := !s.admits (placeNow s pa) ⟨c, false, 4⟩ need

/-- View 1 write (R99): 8 bytes stored and the word set full; dropped and counted when a slot's word 0 is already full, once the access table
has admitted it (R101); an armed slot is offered to its dispatcher. -/
def execBar2ArmWrite (port off size : Nat) (v : W64) (s : State) : Out :=
  if !s.linked port then .next s
  else match s.bar2 1 port off size with
    | none => .next (s.hostRefuse port false)
    | some (c, pa, o) =>
      if size ≠ 8 then .next (s.hostRefuse port false)
      else if s.hostBars c pa 4 then .next ((s.refuseAt (placeNow s pa) ⟨c, false, 4⟩ 4).hostRefuse port false)
      else if slotWord o ∧ s.fullAt (placeNow s pa) then .next (s.countHerr port 31 0)
      else s.hostLater pa (.bar2ArmWrite port off size v) <| .next (s.hostWrite port c pa 8 (.stfe 0) v fun s =>
        if slotWord o then ({ s with armed := s.armed ++ [(c, o / 256)] } : State).post (.launchSlotTake c (o / 256)) else s)

/-- View 2 read: 0, where the access table admits a read (R101). -/
def execBar2ClearRead (port off size : Nat) (s : State) : Out :=
  if !s.linked port then .next s
  else match s.bar2 2 port off size with
    | none => .next (s.hostRefuse port true)
    | some (c, pa, _) =>
      if s.hostBars c pa 1 then .next ((s.refuseAt (placeNow s pa) ⟨c, false, 4⟩ 1).hostRefuse port true) else .next (s.push (.value 0))

/-- View 2 write: the word is set empty. -/
def execBar2ClearWrite (port off size : Nat) (v : W64) (s : State) : Out :=
  if !s.linked port then .next s
  else match s.bar2 2 port off size with
    | none => .next (s.hostRefuse port false)
    | some (c, pa, _) => s.hostLater pa (.bar2ClearWrite port off size v) (.next (s.hostWrite port c (pa / 8 * 8) 8 (.stfe 2) 0 id))

/-! ## Access tables (R104) -/

/-- Only class 5 writes an entry. -/
def execAccessTableWrite (die station idx : Nat) (e : AccessEntry) (m : Master) (s : State) : Out :=
  if m.cls ≠ 5 then .next (s.refuse die 1100 (dieRange die + 0x400000 + (station - 1024) * 0x400 + 32 * idx) m 2)
  else if station < 1024 ∨ 1100 < station ∨ 32 ≤ idx then .next s
  else .next (s.setDie die fun d => { d with access := insEntry station idx e d.access })

end

end Sys2Proof.Machine
end

