-- ==== Sys2Proof/Machine/Drift.lean ====
section
/-!
DEFINITION. Accesses at the ports (R39–R45, R49), Drift and its motions (R50–R64), the CXL tier's releases (R94) and the retirement of
frames (R250).
-/
namespace Sys2Proof.Machine
open Sys2Proof

noncomputable section

/-! ## Accesses at a port (R39, R49) -/

/-- The answer of an access that is refused or finds poison. -/
def State.denied (s : State) (w : Option Waiter) (cause : BitVec 8) (st : BitVec 4) (pa : Nat) : State :=
  match w with
  | some (.thread t) => s.resumeTrap t cause pa
  | some (.remote p) => s.error p st
  | _ => s

/-- An access that its port accepts: executed, or parked in its retry list. -/
def State.serve (s : State) (acc : PortAccess) : State :=
  match (s.yieldLine acc.pa).portExec acc with
  | .done s v _ => s.wake acc.waiter acc.kind v
  | .parked s => (s.parkAt acc).getD (s.refuseWaiter acc)
  | .refused s => s.denied acc.waiter causePagePerm stPerm acc.pa
  | .poison s => match acc.waiter with
    | some (.thread t) => s.post (.launchTermination t.launch 1 0x10 (some t.team))
    | w => s.denied w causePagePerm stPoison acc.pa

/-- The owner's route of an access (R57): served where its granule lies, or held. -/
def State.routeAccess (s : State) (acc : PortAccess) : State :=
  match place s acc.pa with
  | .at _ => s.serve acc
  | .held d src => s.setMotion d src fun m => { m with held := m.held ++ [acc] }

def execMemoryPortAccess (acc : PortAccess) (s : State) : Out := .next (if (paKind s acc.pa).isMem then s.routeAccess acc else s)

/-- The cache port serves LPDDR and CXL addresses; with no capacity cache they go to their memory port (R47, R49). -/
def execCachePortAccess (acc : PortAccess) (s : State) : Out := .next (if (paKind s acc.pa).isMem then s.routeAccess acc else s)

def execMotionAccess (die src : Nat) (acc : PortAccess) (s : State) : Out :=
  .next (if (s.die die).motions.any fun m => decide (m.src = src ∧ acc.pa / 2 ^ 16 = src / 2 ^ 16) then s.routeAccess acc else s)

/-- A corrected error counted; the sixteenth within 24 h retires the frame (R250). -/
def State.countCorrected (s : State) (pa : Nat) : State :=
  let f := pa / 2 ^ 16
  let old := ((s.die (homeDie pa)).corrected.find? fun x => decide (x.1 = f)).elim [] (·.2)
  let l := s.now :: old.filter fun t => decide (s.now < t + dayCycles)
  let s := s.setDie (homeDie pa) fun d => { d with corrected := (f, l) :: d.corrected.filter fun x => decide (x.1 ≠ f) }
  if 16 ≤ l.length then s.post (.frameRetirement pa) else s

/-- A scrub visit of a block (R45): an error that stands in it is found whatever else, and the port goes on to its next block. DEDUCED, log 25. -/
def execScrubVisit (blk : Nat) (found : ScrubResult) (s : State) : Out :=
  let same (i : Instr) : Bool := match i with
    | .scrubVisit b _ => decide (station s (64 * b) = station s (64 * blk))
    | _ => false
  let s := if s.timers.any fun t => same t.2 then s else s.after (scrubEvery s blk) (.scrubVisit (nextScrub s blk) .clean)
  match found with
  | .clean => .next (s.detect (64 * blk))
  | .corrected => .next ((s.detect (64 * blk)).countCorrected (64 * blk))
  | .uncorrectable => .next (({ s with ueMem := setIns s.ueMem blk } : State).detect (64 * blk))

/-! ## Opening a motion (R54–R56) -/

/-- A frame taken from its free list. DESIGN CHOICE, log 6. -/
def State.takeFrame (s : State) (pa : Nat) : State :=
  s.setDie (homeDie pa) fun d => { d with freeHbm := setDel d.freeHbm pa, freeLp := setDel d.freeLp pa, freeCxl := setDel d.freeCxl pa }

/-- PREP: the home slice gives up the page's lines and recalls ownership, the cache port writes its lines back (R56, R58). -/
def State.prepFlush (s : State) (src : Nat) : State :=
  let owned := s.quads.flatMap fun q => (q.l1.filter fun l => l.own && decide (l.pa / 2 ^ 16 = src / 2 ^ 16)).map (·.pa)
  let s := owned.foldl State.recallOwn s
  (s.l2Flush (homeDie src) fun l => decide (l.pa / 2 ^ 16 = src / 2 ^ 16)).capFlush src

/-- Cycles of a granule's copy, about 1.6 µs. -/
def copyCycles : Nat := 1920

/-- A page larger than 64 KiB: a neighbouring frame's entry names the same leaf (R54). DEDUCED, log 24. -/
def bigPage (s : State) (src leaf : Nat) : Bool :=
  [src + 2 ^ 16, src - 2 ^ 16].any fun f => f != src && (frameWord s f / 2 ^ 63 == 1) && frameWord s f / 16 % 2 ^ 48 * 16 == leaf

/-- A motion of the page of a leaf opened, when R54 and the frames allow; `forced` passes over Drift's switches. DEDUCED, log 24. The spec gives PREP no length: both
flushes are acknowledged after 1 µs. DESIGN CHOICE, log 24. -/
def State.openMotion (s : State) (leaf dst : Nat) (forced : Bool) : Option State :=
  let w := s.leafWord leaf
  let src := leafFrame w
  let pin := bitsN (s.companion leaf) 35 32
  if leafType w ≠ 2 ∨ !(if forced then portSlot s src else motionSlot s src) ∨ !frameMoves s src ∨ !frameFree s dst ∨ !pinAllows pin dst
      ∨ (tierOf src = 0 ∧ tierOf dst = 2) ∨ inMotion s src ∨ bigPage s src leaf then none
  else
    let new := putBitsN w 3 1 3
    let s := (s.setLeafWord leaf new).takeFrame dst
    let m : Motion := { src := src, dst := dst, leaf := leaf, leafw := BitVec.ofNat 64 new, start := s.now }
    let d := ownerDie s src
    let s := (s.setDie d fun x => { x with motions := x.motions ++ [m] }).prepFlush src
    some ((s.after (us 1) (.motionFlushAck d src)).after (us (1000 * fieldOf (s.die d).dthr 23 16)) (.motionTimeLimit d src))

def execMotionStart (_ leaf dst : Nat) (s : State) : Out := .next ((s.openMotion leaf dst false).getD s)

def State.motion? (s : State) (d src : Nat) : Option Motion := (s.die d).motions.find? fun m => decide (m.src = src)

/-- Both flushes are acknowledged: COPY with the watermark 0. -/
def execMotionFlushAck (die src : Nat) (s : State) : Out :=
  match s.motion? die src with
  | none => .next s
  | some m =>
    if m.phase ≠ .prep then .next s
    else .next ((s.setMotion die src fun m => { m with phase := .copy, w := 0 }).after copyCycles (.granuleCopyAck die src))

/-! ## Copying and commit (R56, R57, R60, R61) -/

/-- The frame-table entry of a page moved to its new frame (R50). DEDUCED, log 24. -/
def State.moveEntry (s : State) (m : Motion) : State :=
  let e := if tierOf m.src = 2 then 2 ^ 63 + m.leaf / 16 * 16 else frameWord s m.src
  let s := match frameEntry s m.src with
    | some a => s.writePa a 8 0 0
    | none => s
  match frameEntry s m.dst with
  | some a => s.writePa a 8 e 0
  | none => s

/-- COMMIT: the leaf names the destination, the tier field and the frame table follow, translations are shot down. A pin that excludes
the destination, or a leaf that has changed, aborts (R62, CAUSE 3; log 15). -/
def State.commitMotion (s : State) (d src : Nat) : State :=
  match s.motion? d src with
  | none => s
  | some m =>
    let pin := bitsN (s.companion m.leaf) 35 32
    let new := putBitsN (putBitsN m.leafw.toNat 3 1 2) 51 16 (m.dst / 2 ^ 16)
    if !pinAllows pin m.dst then s.motionAbort d src 3
    else match s.leafCas m.leaf m.leafw.toNat new with
      | none => s.motionAbort d src 3
      | some s =>
        let s := s.setLeafWord (m.leaf + 8) (putBitsN (s.companion m.leaf) 55 54 (tierOf m.dst))
        let s := (s.moveEntry m).setMotion d src fun m => { m with phase := .commit }
        (s.sendShoots d src).motionClose d src

/-- Held accesses go where their granule now lies, in the order they came. -/
def State.forwardHeld (s : State) (d src : Nat) : State :=
  match s.motion? d src with
  | none => s
  | some m => m.held.foldl State.routeAccess (s.setMotion d src fun m => { m with held := [], heldThr := [] })

/-- The destination's acknowledgement of a granule did not come, or the copy starts again: the source serves what is held (R57). -/
def State.restartCopy (s : State) (die src : Nat) : State :=
  match s.motion? die src with
  | none => s
  | some m =>
    let s : State := { s with timers := s.timers.filter fun t => t.2 != .granuleCopyAck die src }
    let s := s.setMotion die src fun m => { m with held := [], passed := m.heldThr, heldThr := [] }
    (m.held.foldl State.serve s).after copyCycles (.granuleCopyAck die src)

/-- Granule `w` is acknowledged at the destination. A port that refuses Drift (R104) gives no acknowledgement, and the copy starts again.
DEDUCED, log 15. -/
def execGranuleCopyAck (die src : Nat) (s : State) : Out :=
  match s.motion? die src with
  | none => .next s
  | some m =>
    if m.phase ≠ .copy ∨ 32 ≤ m.w then .next s
    else match s.copyRefused src m.dst m.w with
    | some (pa, need) => .next ((s.refuseAt pa driftMaster need).restartCopy die src)
    | none =>
      if s.granuleBad src m.w then
        let lost := s.badBlocks src m.w
        .next ((s.motionAbort die src 0).copyRecords lost)
      else if tierOf m.dst = 2 ∧ s.granuleMeta src m.w then .next (s.motionAbort die src 5)
      else
        let s := s.copyGranule (keyIndex (s.companion m.leaf)) src m.dst m.w
        let s := (s.setMotion die src fun m => { m with w := m.w + 1, passed := [] }).forwardHeld die src
        .next (if m.w + 1 = 32 then s.commitMotion die src else s.after copyCycles (.granuleCopyAck die src))

/-- The copy is not acknowledged within 2 µs: the source serves what is held, and the copy starts again. -/
def execGranuleCopyTimeout (die src : Nat) (s : State) : Out :=
  match s.motion? die src with
  | none => .next s
  | some m => .next (if m.phase = .copy then s.restartCopy die src else s)

/-- A quad's part of a shootdown (R61): its entry and its lines of the page, then its acknowledgement; it waits
while an L2 that its writebacks reach is busy (R171). -/
def execQuadShootdown (quad : Nat) (ctx : BitVec 6) (va pages die src : Nat) (s : State) : Out :=
  let mine (l : L1Line) : Bool := l.ctx == ctx && inPages (some (va % 2 ^ 56 / 2 ^ 16, pages)) (l.va / 2 ^ 10) 1
  if ((s.quad quad).l1.any fun l => mine l && l.dirty != 0 && l2Waits s l.pa) then .next (s.after 1 (.quadShootdown quad ctx va pages die src))
  else .next ((s.shootQuad quad (some ctx) (some (va % 2 ^ 56 / 2 ^ 16, pages))).post (.motionShootdownAck die src quad))

def execMotionShootdownAck (die src quad : Nat) (s : State) : Out :=
  .next ((s.setMotion die src fun m => { m with waiting := m.waiting.erase quad }).motionClose die src)

/-! ## Aborts (R62) -/

/-- `DTHR`.MTIME has passed since the motion opened. -/
def execMotionTimeLimit (die src : Nat) (s : State) : Out :=
  match s.motion? die src with
  | none => .next s
  | some m => .next (if m.start + us (1000 * fieldOf (s.die die).dthr 23 16) ≤ s.now then s.motionAbort die src 4 else s)

/-! ## The halving visit (R52, R53) -/

/-- A candidate: its leaf, destination tier and die. -/
structure Cand where
  h    : Nat
  leaf : Nat
  tier : Nat
  die  : Nat

/-- A candidate inserted, by rising or falling hotness, after those of its own. -/
def insCand (up : Bool) (c : Cand) : List Cand → List Cand
  | [] => [c]
  | x :: l => if (up && decide (c.h < x.h)) || (!up && decide (x.h < c.h)) then c :: x :: l else x :: insCand up c l

/-- Frames of a die whose entry has V set, in the table's order: those in blocks of the table that memory or a cache holds. -/
def State.tableFrames (s : State) (die : Nat) : List Nat :=
  let base := (s.die die).dftb.toNat / 2 ^ 14 % 2 ^ 38 * 2 ^ 14
  let d := s.die (homeDie base)
  let blks := (s.mem.cells.map (·.1) ++ d.l2.map (·.pa) ++ d.slice.map (·.pa)).foldl (fun l a =>
    if base ≤ a ∧ a < base + 2 ^ 25 then setIns l (a / 64) else l) []
  blks.flatMap fun b => (List.range 8).filterMap fun k =>
    let i := (64 * b + 8 * k - base) / 8
    if s.readPa (64 * b + 8 * k) 8 0 / 2 ^ 63 = 1 then
      some (if i < 2 ^ 20 then die * 2 ^ 36 + i * 2 ^ 16 else 2 ^ 40 + die * 2 ^ 38 + (i - 2 ^ 20) * 2 ^ 16)
    else none

/-- The candidate of one frame, from the hotness of its page: first those a pin sends to another die, then promotions, demotions. -/
def State.candidate (s : State) (die src : Nat) : Option (Nat × Cand) :=
  let d := s.die die
  let leaf := frameWord s src / 16 % 2 ^ 48 * 16
  let c := s.companion leaf
  let h := bitsN c 53 46
  let pin := bitsN c 35 32
  let promo := fieldOf d.dthr 7 0
  let demo := fieldOf d.dthr 15 8
  if bigPage s src leaf ∨ leafType (s.leafWord leaf) ≠ 2 ∨ !movable s src ∨ (8 ≤ pin ∧ pin < 15) then none
  else if pin < 8 ∧ pin ≠ die then some (0, ⟨h, leaf, if promo ≤ h then 0 else 1, pin⟩)
  else if promo ≤ demo then none
  else if tierOf src = 1 ∧ promo ≤ h then some (1, ⟨h, leaf, 0, die⟩)
  else if tierOf src = 0 ∧ h ≤ demo then some (2, ⟨h, leaf, 1, die⟩)
  else if tierOf src = 1 ∧ h = 0 ∧ pin = 15 ∧ d.dctl.getLsbD 3 ∧ d.freeLp.length < Config.lpReserve then some (3, ⟨h, leaf, 2, die⟩)
  else none

/-- A reserved pin recorded the first time it is seen (R53). -/
def State.notePin (s : State) (die leaf : Nat) : State :=
  let pin := bitsN (s.companion leaf) 35 32
  if 8 ≤ pin ∧ pin < 15 ∧ !(s.die die).pinned.contains leaf then
    (s.setDie die fun d => { d with pinned := setIns d.pinned leaf }).fault die 0x22 pin 0 leaf
  else s

/-- The frames of a tier that Drift may take for a die. DEDUCED, log 24. -/
def State.framesFor (s : State) (tier die : Nat) : List Nat :=
  if tier = 2 then (s.die 0).free 2 ++ (s.die 4).free 2 else (s.die die).free tier

/-- Motions asked for the candidates, each with a frame of its own. DEDUCED, log 24. -/
def State.askMotions (s : State) (die : Nat) : List Nat → List Cand → State
  | _, [] => s
  | used, c :: l => match (s.framesFor c.tier c.die).find? fun f => !used.contains f with
    | some f => State.askMotions (s.post (.motionStart die c.leaf f)) die (f :: used) l
    | none => State.askMotions s die used l

/-- One frame's visit: its candidate is noted, its hotness halved. -/
def State.visitFrame (die : Nat) (x : State × List (Nat × Cand)) (src : Nat) : State × List (Nat × Cand) :=
  let (s, cs) := x
  let leaf := frameWord s src / 16 % 2 ^ 48 * 16
  let c := s.companion leaf
  let s1 := (s.notePin die leaf).setLeafWord (leaf + 8) (putBitsN c 53 46 (bitsN c 53 46 / 2))
  (s1, cs ++ (s.candidate die src).toList)

/-- `DRIFT_HALVING_VISIT`, and the next one 10 ms later. -/
def execDriftHalvingVisit (die : Nat) (s : State) : Out :=
  let d := s.die die
  let s0 := s.after (us 10000) (.driftHalvingVisit die)
  if !d.dctl.getLsbD 0 ∨ !d.dctl.getLsbD 1 ∨ !d.dftb.getLsbD 0 then .next s0
  else
    let (s1, cs) := (s0.tableFrames die).foldl (State.visitFrame die) (s0, [])
    let pick (k : Nat) (up : Bool) : List Cand := ((cs.filter fun x => decide (x.1 = k)).map (·.2)).foldl (fun l c => insCand up c l) []
    .next (s1.askMotions die [] (pick 0 false ++ pick 1 false ++ pick 2 true ++ pick 3 true))

/-! ## Retirement of frames (R250) -/

/-- A motion that reads or writes a frame, other than one that is closing. -/
def State.motionWith (s : State) (pa : Nat) : Option (Nat × Motion) :=
  (List.range 8).findSome? fun d => ((s.die d).motions.find? fun m => decide (m.src / 2 ^ 16 = pa / 2 ^ 16 ∨ m.dst / 2 ^ 16 = pa / 2 ^ 16)).map (d, ·)

/-- `FRAME_RETIREMENT`: an error in a page that moves aborts the motion (R62); else the page, when it can move, goes to another frame of
its tier and die, and the old one is listed. DEDUCED, log 25. -/
def execFrameRetirement (pa : Nat) (s : State) : Out :=
  match s.motionWith pa with
  | some (d, m) =>
    let again (s : State) : State := s.after (us 1) (.frameRetirement pa)
    let ue := s.ueMem.any fun b => decide (b / 1024 = pa / 2 ^ 16)
    if m.phase = .prep ∨ m.phase = .copy then
      if m.src / 2 ^ 16 = pa / 2 ^ 16 then .next (again (if ue then s.motionAbort d m.src 0 else s))
      else .next ((s.motionAbort d m.src (if ue then 1 else 2)).listRetired pa)
    else .next (again s)
  | none =>
    let leaf := frameWord s pa / 16 % 2 ^ 48 * 16
    if tierOf pa = 2 ∨ !movable s pa ∨ leafType (s.leafWord leaf) ≠ 2 ∨ (s.die (homeDie pa)).retired.contains (pa / 2 ^ 16) then .next s
    else match ((s.die (homeDie pa)).free (tierOf pa)).head?.bind fun f => s.openMotion leaf f true with
      | some s => .next (s.listRetired pa)
      | none => .next (s.after (us 1000) (.frameRetirement pa))

end

end Sys2Proof.Machine
end

