-- ==== Sys2Proof/Machine/Fetch.lean ====
section
/-!
DEFINITION. Which thread issues (R132–R134, R313), fetching its next instruction, and the place of an instruction that is to run
next: what step calls.
-/
namespace Sys2Proof.Machine
open Sys2Proof

noncomputable section

/-- The slots of a core in issue order from its pointer (R133), those that may issue. -/
def Core.readySlots (c : Core) : List Nat :=
  if c.stopping then []
  else ((List.range 8).map fun k => (c.p.toNat + k) % 8).filter fun t => (c.thr.get (Fin.ofNat 8 t)).run = .ready

/-- The slots that may issue, core by core from `turn` (log 3). -/
def State.candidates (s : State) : List (Nat × Nat) :=
  (s.cores.drop s.turn ++ s.cores.take s.turn).flatMap fun c => c.readySlots.map fun t => (c.id, t)

/-- A thread's fetch, before it is an instruction. -/
def State.selected (s : State) (c t : Nat) : Option M :=
  (s.core? c).map fun k => { st := s, core := k, tid := Fin.ofNat 8 t, thr := k.thr.get (Fin.ofNat 8 t) }

/-- The step that a fetch leads to: the decoded instruction, an encoding fault, a fetch fault or a service (R235, R236). `none` with
a state: the slot is not ready. -/
def fetched (m : M) : State × Option Instr :=
  match m.fetchInstr with
  | .ok (m', ws) => match decodeWords ws with
    | .ok i => (m'.flush, some i)
    | .error e => (m'.flush, some (.unallocatedEncoding e))
  | .error (.trap c v recs) =>
    (recs.foldl (fun s r => s.fault r.die r.kind r.code r.ctx r.addr r.aux32 r.aux64) m.st, some (.instructionFetchFault ⟨c, v⟩))
  | .error (.service va code w f) =>
    (m.st, some (.serviceRequest m.core.die m.core.ctx va (BitVec.ofNat 8 code) w f (.thread m.who)))
  | .error (.wait d src) => (m.st.setMotion d src fun x =>
      { x with heldThr := if x.heldThr.contains m.who then x.heldThr else x.heldThr ++ [m.who] }, none)
  | .error (.poison s) =>
    (s, some (.launchTermination m.core.launch 1 0x10 (some m.core.team)))
  | .error _ => (m.st, none)

/-- A yielding slot's set when slot `t` has issued (R313): slots that issued or stopped being ready leave it. -/
def Core.yields (c : Core) (t now : Nat) : Core :=
  let ready : BitVec 8 := BitVec.ofNat 8 ((List.range 8).foldl (fun a k =>
    a + if (c.thr.get (Fin.ofNat 8 k)).run = .ready then 2 ^ k else 0) 0)
  { c with thr := c.thr.map fun x => match x.run with
    | .yielded o til =>
      let o' := bitOff (o &&& ready) t
      if o' = 0 ∨ til ≤ now then { x with run := .ready } else { x with run := .yielded o' til }
    | _ => x }

/-- After an issue: the pointer follows the slot (R133), and the next core is examined first; a cycle has passed when the cores have been
gone through, so that each core issues at most once a cycle (log 3). -/
def State.issued (s : State) (c t : Nat) : State :=
  let s := match s.core? c with
    | some k => s.setCore ({ k with p := BitVec.ofNat 3 (t + 1) }.yields t s.now)
    | none => s
  let n := s.cores.length
  let i := (s.cores.findIdx? (fun k => decide (k.id = c))).getD n
  { s with stalled := false, now := if s.turn ≤ i ∧ i + 1 < n then s.now else s.now + 1, turn := if i + 1 < n then i + 1 else 0 }

/-- A cycle in which nothing issues: by one cycle while a slot may become ready by time alone, otherwise to the next timer. -/
def State.idle (s : State) : State :=
  { s with stalled := false, now := match s.timers with
    | (d, _) :: _ => if s.candidates.isEmpty then Nat.max d (s.now + 1) else s.now + 1
    | [] => s.now + 1 }

/-- A step that is not the issue of an instruction: what a fetch asks for, which leaves the slot not ready (R132, R133). -/
def notIssued (i : Instr) : Bool :=
  match i with
  | .serviceRequest .. | .launchTermination .. => true
  | _ => false

/-- Where the fetch that follows finds an instruction placed for it: die 0, frame 1. -/
def placeVa : Nat := 0x10000

/-- The thread that runs a placed instruction: slot 0 of the first core, alone in its team (log 12). -/
def placedCore : Core :=
  let t : Thread := { pc := mkCap 0 0 0x1000000 (BitVec.ofNat 64 placeVa) 0xFFF, run := .ready }
  { id := 0, launch := 0, team := 0, ctx := 0, lrec := { matrix := true }
    desc := { codecap := mkCap 0 0 0x1000000 0 0xFFF, v := true }
    thr := (Vector.replicate 8 {}).set 0 t }

/-- The translation of the placed page, and the access entry that lets cores reach its port. -/
def placedTlb : TlbEntry := { ctx := 0, level := 0, page := 1, leaf := 0x100F5, comp := 0x0000000FFFFFFFFF }
def placedEntry : AccessEntry := { limit := -1, base := 0, cls := 0xFF, a := true, w := true, r := true, v := true }

/-- The bytes of `n` words of an instruction whose bits are `w`, stored at the placed address; words above are zero. DESIGN CHOICE, log 12. -/
def State.placeBytes (s : State) (n w : Nat) : State :=
  let a := placeVa
  { s with mem := s.mem.write a 20 (w % 2 ^ (32 * n)) }

/-- DESIGN CHOICE, log 12. -/
def State.place (s : State) (n w : Nat) : State :=
  let s := s.placeBytes n w
  let s := s.setDie 0 fun d => { d with access := insEntry (station s placeVa).2 0 placedEntry d.access, l2 := [], slice := [], motions := [] }
  { s with cores := placedCore :: s.cores.filter (fun c => c.id ≠ 0), quads := { id := 0, tlb := [placedTlb] } :: s.quads.filter (fun q => q.id ≠ 0)
           turn := 0, events := [], timers := [], stalled := false, enc := s.enc.filter (fun x => x.1 ≠ placeVa / 64) }

end

end Sys2Proof.Machine
end

