-- ==== Sys2Proof/Machine/Exec.lean ====
section
/-!
DEFINITION. The meanings of the instructions: each runs its effect `opX` between the checks before an instruction and its commit
(`runInstr`). The three forms that hold another instruction (R278, R279, R282) run that instruction's effect with the form's fields.
-/
namespace Sys2Proof.Machine
open Sys2Proof

noncomputable section

/-- The effect of a base instruction in a form: `none` as a base word, `some` widened (R282). -/
def baseOp (x : Form) (i : Instr) : Act :=
  match i with
  | .add d a b => opAdd d a b
  | .sub d a b => opSub d a b
  | .and d a b => opAnd d a b
  | .or d a b => opOr d a b
  | .xor d a b => opXor d a b
  | .andn d a b => opAndn d a b
  | .orn d a b => opOrn d a b
  | .sll d a b => opSll d a b
  | .srl d a b => opSrl d a b
  | .sra d a b => opSra d a b
  | .rol d a b => opRol d a b
  | .min d a b => opMin d a b
  | .max d a b => opMax d a b
  | .minu d a b => opMinu d a b
  | .maxu d a b => opMaxu d a b
  | .mul d a b => opMul d a b
  | .mulh d a b => opMulh d a b
  | .mulhu d a b => opMulhu d a b
  | .div d a b => opDiv d a b
  | .divu d a b => opDivu d a b
  | .rem d a b => opRem d a b
  | .remu d a b => opRemu d a b
  | .addc d a b => opAddc x d a b
  | .subb d a b => opSubb x d a b
  | .clz d a => opClz d a
  | .ctz d a => opCtz d a
  | .popc d a => opPopc d a
  | .sext d a b => opSext d a b
  | .zext d a b => opZext d a b
  | .addi d a imm => opAddi x d a imm
  | .andi d a imm => opAndi x d a imm
  | .ori d a imm => opOri x d a imm
  | .xori d a imm => opXori x d a imm
  | .slli d a amt => opSlli x d a amt
  | .srli d a amt => opSrli x d a amt
  | .srai d a amt => opSrai x d a amt
  | .roli d a amt => opRoli x d a amt
  | .ceq d a b => opCeq d a b
  | .cne d a b => opCne d a b
  | .clt d a b => opClt d a b
  | .cge d a b => opCge d a b
  | .cltu d a b => opCltu d a b
  | .cgeu d a b => opCgeu d a b
  | .ctst d a b => opCtst d a b
  | .bfx d a pos len => opBfx x d a pos len
  | .bfxs d a pos len => opBfxs x d a pos len
  | .bfi d a pos len => opBfi x d a pos len
  | .bfclr d a pos len => opBfclr x d a pos len
  | .mov d a => opMov d a
  | .sel k d a b => opSel k d a b
  | .kand d a b => opKand d a b
  | .kor d a b => opKor d a b
  | .kxor d a b => opKxor d a b
  | .knot d a => opKnot d a
  | .kmovc d a => opKmovc d a
  | .kmovk d a => opKmovk d a
  | .kpop d a => opKpop d a
  | .kfirst d a => opKfirst d a
  | .cbnd d a b => opCbnd d a b
  | .cbndx d a b => opCbndx d a b
  | .cprm d a b => opCprm d a b
  | .cadd d a b => opCadd d a b
  | .cset d a b => opCset d a b
  | .cbase d a => opCbase d a
  | .clen d a => opClen d a
  | .cperm d a => opCperm d a
  | .ctype d a => opCtype d a
  | .ctag d a => opCtag d a
  | .cclr d a => opCclr d a
  | .cseal d a => opCseal d a
  | .capCeq d a b => opCapCeq d a b
  | .csub d a b => opCsub d a b
  | .mvi d imm => opMvi x d imm
  | .adr d imm => opAdr x d imm
  | .ld d a sz am ea => opLd x d a sz am ea
  | .lds d a sz am ea => opLds x d a sz am ea
  | .st d a sz am ea => opSt x d a sz am ea
  | .ldfeAny d a am ea => opLdfeAny x d a am ea
  | .ldfeWf d a am ea => opLdfeWf x d a am ea
  | .ldfeWfe d a am ea => opLdfeWfe x d a am ea
  | .ldfeSt d a am ea => opLdfeSt x d a am ea
  | .stfeSf d a am ea => opStfeSf x d a am ea
  | .stfeWef d a am ea => opStfeWef x d a am ea
  | .stfeSe a am ea => opStfeSe x a am ea
  | .stfeKeep d a am ea => opStfeKeep x d a am ea
  | .amoAdd d a b sc => opAmoAdd x d a b sc
  | .amoAnd d a b sc => opAmoAnd x d a b sc
  | .amoOr d a b sc => opAmoOr x d a b sc
  | .amoXor d a b sc => opAmoXor x d a b sc
  | .amoMin d a b sc => opAmoMin x d a b sc
  | .amoMax d a b sc => opAmoMax x d a b sc
  | .amoMinu d a b sc => opAmoMinu x d a b sc
  | .amoSwap d a b sc => opAmoSwap x d a b sc
  | .fence sc ord eng => opFence sc ord eng
  | .cwb a b => opCwb x a b
  | .cinv a b => opCinv x a b
  | .cwbinv a b => opCwbinv x a b
  | .cpre a b => opCpre x a b
  | .bk k pol off => opBk x k pol off
  | .bra off => opBra x off
  | .bz r off => opBz x r off
  | .bnz r off => opBnz x r off
  | .bltz r off => opBltz x r off
  | .bgez r off => opBgez x r off
  | .blez r off => opBlez x r off
  | .bgtz r off => opBgtz x r off
  | .jmp off => opJmp x off
  | .call off => opCall x off
  | .jr a => opJr a
  | .jalr d a => opJalr d a
  | .ret => opRet
  | .ccall a => opCcall a
  | .loop d off => opLoop x d off
  | .yield => opYield
  | .halt => opHalt
  | .bar => opBar
  | .wfe => opWfe
  | .nop => opNop
  | .sleep a => opSleep a
  | .brk imm => opBrk imm
  | .trap imm => opTrap imm
  | .eret => opEret
  | .mfs d sr => opMfs d sr
  | .mts d sr => opMts d sr
  | .tlbinv a b => opTlbinv a b
  | .vadd t d a b => opVadd { x := x } t d a b
  | .vsub t d a b => opVsub { x := x } t d a b
  | .vmul t d a b => opVmul { x := x } t d a b
  | .vmin t d a b => opVmin { x := x } t d a b
  | .vmax t d a b => opVmax { x := x } t d a b
  | .vabs t d a => opVabs { x := x } t d a
  | .vneg t d a => opVneg { x := x } t d a
  | .vabd t d a b => opVabd { x := x } t d a b
  | .vfma t d a b => opVfma { x := x } t d a b
  | .vfms t d a b => opVfms { x := x } t d a b
  | .vfnma t d a b => opVfnma { x := x } t d a b
  | .vfnms t d a b => opVfnms { x := x } t d a b
  | .vdot4 t d a b => opVdot4 { x := x } t d a b
  | .vdot2 t d a b => opVdot2 { x := x } t d a b
  | .vmulh t d a b => opVmulh { x := x } t d a b
  | .vsad t d a b => opVsad { x := x } t d a b
  | .vand t d a b => opVand { x := x } t d a b
  | .vor t d a b => opVor { x := x } t d a b
  | .vxor t d a b => opVxor { x := x } t d a b
  | .vandn t d a b => opVandn { x := x } t d a b
  | .vsll t d a b => opVsll { x := x } t d a b
  | .vsrl t d a b => opVsrl { x := x } t d a b
  | .vsra t d a b => opVsra { x := x } t d a b
  | .vnot t d a => opVnot { x := x } t d a
  | .vceq t d a b => opVceq { x := x } t d a b
  | .vcne t d a b => opVcne { x := x } t d a b
  | .vclt t d a b => opVclt { x := x } t d a b
  | .vcle t d a b => opVcle { x := x } t d a b
  | .vcgt t d a b => opVcgt { x := x } t d a b
  | .vcge t d a b => opVcge { x := x } t d a b
  | .vcltu t d a b => opVcltu { x := x } t d a b
  | .vcun t d a b => opVcun { x := x } t d a b
  | .vcvt t d a b => opVcvt { x := x } t d a b
  | .vcvtSat t d a b => opVcvtSat { x := x } t d a b
  | .vwid t d a b => opVwid { x := x } t d a b
  | .vwidh t d a b => opVwidh { x := x } t d a b
  | .vnar t d a b => opVnar { x := x } t d a b
  | .vrint t d a b => opVrint { x := x } t d a b
  | .vbc t d a b => opVbc { x := x } t d a b
  | .vshf t d a b => opVshf { x := x } t d a b
  | .vrot t d a b => opVrot { x := x } t d a b
  | .vext t d a b => opVext { x := x } t d a b
  | .vins t d a b => opVins { x := x } t d a b
  | .vzip t d a b => opVzip { x := x } t d a b
  | .vuzp t d a b => opVuzp { x := x } t d a b
  | .vcpr t d a b => opVcpr { x := x } t d a b
  | .vradd t d a => opVradd { x := x } t d a
  | .vrmax t d a => opVrmax { x := x } t d a
  | .vrmin t d a => opVrmin { x := x } t d a
  | .vrand t d a => opVrand { x := x } t d a
  | .vror t d a => opVror { x := x } t d a
  | .vrxor t d a => opVrxor { x := x } t d a
  | .vscan t d a => opVscan { x := x } t d a
  | .vrsum t d a => opVrsum { x := x } t d a
  | .vrcp t d a => opVrcp { x := x } t d a
  | .vrsqrt t d a => opVrsqrt { x := x } t d a
  | .vsqrt t d a => opVsqrt { x := x } t d a
  | .vdiv t d a b => opVdiv { x := x } t d a b
  | .vexp2 t d a => opVexp2 { x := x } t d a
  | .vlog2 t d a => opVlog2 { x := x } t d a
  | .vtanh t d a => opVtanh { x := x } t d a
  | .vsigm t d a => opVsigm { x := x } t d a
  | .vld d a sz am ea => opVld { x := x } d a sz am ea
  | .vst d a sz am ea => opVst { x := x } d a sz am ea
  | .vsacc d a b => opVsacc { x := x } d a b
  | .vxpk d a => opVxpk { x := x } d a
  | .vxacc d a => opVxacc { x := x } d a
  | .vxfin d a => opVxfin { x := x } d a
  | .vbsc d a b => opVbsc { x := x } d a b
  | .vmov t d a => opVmov { x := x } t d a
  | .vzero t d => opVzero { x := x } t d
  | .vfill t d a => opVfill { x := x } t d a
  | .vkmov t d a => opVkmov { x := x } t d a
  | .vwbc t d a b => opVwbc { x := x } t d a b
  | .tref a b => opTref a b
  | .tdrop a b => opTdrop a b
  | .tinfo d a b => opTinfo d a b
  | .tchk d a => opTchk d a
  | .tdropAll a b => opTdropAll a b
  | .qbind q a b => opQbind q a b
  | .qunb q => opQunb q
  | .qstat d q => opQstat d q
  | .qpeek d q => opQpeek d q
  | .vrowSet d a => opVrowSet d a
  | .vrowGet d => opVrowGet d
  | .logon => opLogon
  | .logoff => opLogoff
  | .logmark a => opLogmark a
  | _ => fun _ => .error (.trap causeIllegal 0 [])

/-- The effect of a vector slot under a guard (R278, R366). -/
def vecSlotOp (g : VForm) (i : Instr) : Act :=
  match i with
  | .vadd t d a b => opVadd g t d a b
  | .vsub t d a b => opVsub g t d a b
  | .vmul t d a b => opVmul g t d a b
  | .vmin t d a b => opVmin g t d a b
  | .vmax t d a b => opVmax g t d a b
  | .vabs t d a => opVabs g t d a
  | .vneg t d a => opVneg g t d a
  | .vabd t d a b => opVabd g t d a b
  | .vfma t d a b => opVfma g t d a b
  | .vfms t d a b => opVfms g t d a b
  | .vfnma t d a b => opVfnma g t d a b
  | .vfnms t d a b => opVfnms g t d a b
  | .vdot4 t d a b => opVdot4 g t d a b
  | .vdot2 t d a b => opVdot2 g t d a b
  | .vmulh t d a b => opVmulh g t d a b
  | .vsad t d a b => opVsad g t d a b
  | .vand t d a b => opVand g t d a b
  | .vor t d a b => opVor g t d a b
  | .vxor t d a b => opVxor g t d a b
  | .vandn t d a b => opVandn g t d a b
  | .vsll t d a b => opVsll g t d a b
  | .vsrl t d a b => opVsrl g t d a b
  | .vsra t d a b => opVsra g t d a b
  | .vnot t d a => opVnot g t d a
  | .vceq t d a b => opVceq g t d a b
  | .vcne t d a b => opVcne g t d a b
  | .vclt t d a b => opVclt g t d a b
  | .vcle t d a b => opVcle g t d a b
  | .vcgt t d a b => opVcgt g t d a b
  | .vcge t d a b => opVcge g t d a b
  | .vcltu t d a b => opVcltu g t d a b
  | .vcun t d a b => opVcun g t d a b
  | .vcvt t d a b => opVcvt g t d a b
  | .vcvtSat t d a b => opVcvtSat g t d a b
  | .vwid t d a b => opVwid g t d a b
  | .vwidh t d a b => opVwidh g t d a b
  | .vnar t d a b => opVnar g t d a b
  | .vrint t d a b => opVrint g t d a b
  | .vbc t d a b => opVbc g t d a b
  | .vshf t d a b => opVshf g t d a b
  | .vrot t d a b => opVrot g t d a b
  | .vext t d a b => opVext g t d a b
  | .vins t d a b => opVins g t d a b
  | .vzip t d a b => opVzip g t d a b
  | .vuzp t d a b => opVuzp g t d a b
  | .vcpr t d a b => opVcpr g t d a b
  | .vradd t d a => opVradd g t d a
  | .vrmax t d a => opVrmax g t d a
  | .vrmin t d a => opVrmin g t d a
  | .vrand t d a => opVrand g t d a
  | .vror t d a => opVror g t d a
  | .vrxor t d a => opVrxor g t d a
  | .vscan t d a => opVscan g t d a
  | .vrsum t d a => opVrsum g t d a
  | .vrcp t d a => opVrcp g t d a
  | .vrsqrt t d a => opVrsqrt g t d a
  | .vsqrt t d a => opVsqrt g t d a
  | .vdiv t d a b => opVdiv g t d a b
  | .vexp2 t d a => opVexp2 g t d a
  | .vlog2 t d a => opVlog2 g t d a
  | .vtanh t d a => opVtanh g t d a
  | .vsigm t d a => opVsigm g t d a
  | .vld d a sz am ea => opVld g d a sz am ea
  | .vst d a sz am ea => opVst g d a sz am ea
  | .vsacc d a b => opVsacc g d a b
  | .vxpk d a => opVxpk g d a
  | .vxacc d a => opVxacc g d a
  | .vxfin d a => opVxfin g d a
  | .vbsc d a b => opVbsc g d a b
  | .vmov t d a => opVmov g t d a
  | .vzero t d => opVzero g t d
  | .vfill t d a => opVfill g t d a
  | .vkmov t d a => opVkmov g t d a
  | .vwbc t d a b => opVwbc g t d a b
  | _ => fun _ => .error (.trap causeIllegal 0 [])

/-- The effect of a scalar slot (R279): the base operation of the same name, with the 8-bit immediate. -/
def scalarSlotOp (p : PairSlot) : Act :=
  let d := p.d
  let a := p.a
  let b : F6 := p.b.setWidth 6
  let k : BitVec 3 := p.d.setWidth 3
  let i8 : BitVec 10 := p.b.signExtend 10
  let step (n : Int) : Form := some { imm := BitVec.ofInt 32 (p.b.toInt * n) }
  match p.sop.toNat with
  | 0 => opAdd d a b
  | 1 => opSub d a b
  | 2 => opAnd d a b
  | 3 => opOr d a b
  | 4 => opXor d a b
  | 5 => opSll d a b
  | 6 => opSrl d a b
  | 7 => opSra d a b
  | 8 => opMin d a b
  | 9 => opMax d a b
  | 10 => opMinu d a b
  | 11 => opMaxu d a b
  | 12 => opMul d a b
  | 13 => opMov d a
  | 14 => opCadd d a b
  | 16 => opAddi none d a i8
  | 17 => opAndi none d a i8
  | 18 => opSlli none d a b
  | 19 => opSrli none d a b
  | 20 => opSrai none d a b
  | 21 => opCaddi d a (p.b.signExtend 64)
  | 24 => opCeq k a b
  | 25 => opCne k a b
  | 26 => opClt k a b
  | 27 => opCge k a b
  | 28 => opCltu k a b
  | 29 => opCgeu k a b
  | 32 => opLd (step 4) d a 2 1 0
  | 33 => opLd (step 8) d a 3 1 0
  | 34 => opSt (step 4) d a 2 1 0
  | 35 => opSt (step 8) d a 3 1 0
  | _ => fun _ => .error (.trap causeIllegal 0 [])

/-- Both slots of a pair word (R237, R278): each reads its registers before either writes, the scalar slot's trap comes first, and
where both write one register the vector slot's write stands. -/
def opPairWord (p : PairSlot) (v : Instr) : Act := fun m0 => do
  let m : M := { m0 with snap := some (m0.thr, m0.core.w) }
  let m1 ← if guardOn m p then scalarSlotOp p m else pure m
  let g : VForm := { gk := p.gk, gp := p.gp }
  let _ ← vecSlotOp g v m
  vecSlotOp g v m1

/-! ## The meanings -/

def execAdd (d a b : F6) (s : State) : Out := runInstr (.add d a b) (opAdd d a b) s
def execSub (d a b : F6) (s : State) : Out := runInstr (.sub d a b) (opSub d a b) s
def execAnd (d a b : F6) (s : State) : Out := runInstr (.and d a b) (opAnd d a b) s
def execOr (d a b : F6) (s : State) : Out := runInstr (.or d a b) (opOr d a b) s
def execXor (d a b : F6) (s : State) : Out := runInstr (.xor d a b) (opXor d a b) s
def execAndn (d a b : F6) (s : State) : Out := runInstr (.andn d a b) (opAndn d a b) s
def execOrn (d a b : F6) (s : State) : Out := runInstr (.orn d a b) (opOrn d a b) s
def execSll (d a b : F6) (s : State) : Out := runInstr (.sll d a b) (opSll d a b) s
def execSrl (d a b : F6) (s : State) : Out := runInstr (.srl d a b) (opSrl d a b) s
def execSra (d a b : F6) (s : State) : Out := runInstr (.sra d a b) (opSra d a b) s
def execRol (d a b : F6) (s : State) : Out := runInstr (.rol d a b) (opRol d a b) s
def execMin (d a b : F6) (s : State) : Out := runInstr (.min d a b) (opMin d a b) s
def execMax (d a b : F6) (s : State) : Out := runInstr (.max d a b) (opMax d a b) s
def execMinu (d a b : F6) (s : State) : Out := runInstr (.minu d a b) (opMinu d a b) s
def execMaxu (d a b : F6) (s : State) : Out := runInstr (.maxu d a b) (opMaxu d a b) s
def execMul (d a b : F6) (s : State) : Out := runInstr (.mul d a b) (opMul d a b) s
def execMulh (d a b : F6) (s : State) : Out := runInstr (.mulh d a b) (opMulh d a b) s
def execMulhu (d a b : F6) (s : State) : Out := runInstr (.mulhu d a b) (opMulhu d a b) s
def execDiv (d a b : F6) (s : State) : Out := runInstr (.div d a b) (opDiv d a b) s
def execDivu (d a b : F6) (s : State) : Out := runInstr (.divu d a b) (opDivu d a b) s
def execRem (d a b : F6) (s : State) : Out := runInstr (.rem d a b) (opRem d a b) s
def execRemu (d a b : F6) (s : State) : Out := runInstr (.remu d a b) (opRemu d a b) s
def execAddc (d a b : F6) (s : State) : Out := runInstr (.addc d a b) (opAddc none d a b) s
def execSubb (d a b : F6) (s : State) : Out := runInstr (.subb d a b) (opSubb none d a b) s
def execClz (d a : F6) (s : State) : Out := runInstr (.clz d a) (opClz d a) s
def execCtz (d a : F6) (s : State) : Out := runInstr (.ctz d a) (opCtz d a) s
def execPopc (d a : F6) (s : State) : Out := runInstr (.popc d a) (opPopc d a) s
def execSext (d a b : F6) (s : State) : Out := runInstr (.sext d a b) (opSext d a b) s
def execZext (d a b : F6) (s : State) : Out := runInstr (.zext d a b) (opZext d a b) s
def execAddi (d a : F6) (imm : BitVec 10) (s : State) : Out := runInstr (.addi d a imm) (opAddi none d a imm) s
def execAndi (d a : F6) (imm : BitVec 10) (s : State) : Out := runInstr (.andi d a imm) (opAndi none d a imm) s
def execOri (d a : F6) (imm : BitVec 10) (s : State) : Out := runInstr (.ori d a imm) (opOri none d a imm) s
def execXori (d a : F6) (imm : BitVec 10) (s : State) : Out := runInstr (.xori d a imm) (opXori none d a imm) s
def execSlli (d a amt : F6) (s : State) : Out := runInstr (.slli d a amt) (opSlli none d a amt) s
def execSrli (d a amt : F6) (s : State) : Out := runInstr (.srli d a amt) (opSrli none d a amt) s
def execSrai (d a amt : F6) (s : State) : Out := runInstr (.srai d a amt) (opSrai none d a amt) s
def execRoli (d a amt : F6) (s : State) : Out := runInstr (.roli d a amt) (opRoli none d a amt) s
def execCeq (d : BitVec 3) (a b : F6) (s : State) : Out := runInstr (.ceq d a b) (opCeq d a b) s
def execCne (d : BitVec 3) (a b : F6) (s : State) : Out := runInstr (.cne d a b) (opCne d a b) s
def execClt (d : BitVec 3) (a b : F6) (s : State) : Out := runInstr (.clt d a b) (opClt d a b) s
def execCge (d : BitVec 3) (a b : F6) (s : State) : Out := runInstr (.cge d a b) (opCge d a b) s
def execCltu (d : BitVec 3) (a b : F6) (s : State) : Out := runInstr (.cltu d a b) (opCltu d a b) s
def execCgeu (d : BitVec 3) (a b : F6) (s : State) : Out := runInstr (.cgeu d a b) (opCgeu d a b) s
def execCtst (d : BitVec 3) (a b : F6) (s : State) : Out := runInstr (.ctst d a b) (opCtst d a b) s
def execBfx (d a : F6) (pos len : BitVec 5) (s : State) : Out := runInstr (.bfx d a pos len) (opBfx none d a pos len) s
def execBfxs (d a : F6) (pos len : BitVec 5) (s : State) : Out := runInstr (.bfxs d a pos len) (opBfxs none d a pos len) s
def execBfi (d a : F6) (pos len : BitVec 5) (s : State) : Out := runInstr (.bfi d a pos len) (opBfi none d a pos len) s
def execBfclr (d a : F6) (pos len : BitVec 5) (s : State) : Out := runInstr (.bfclr d a pos len) (opBfclr none d a pos len) s
def execMov (d a : F6) (s : State) : Out := runInstr (.mov d a) (opMov d a) s
def execSel (k : BitVec 3) (d a b : F6) (s : State) : Out := runInstr (.sel k d a b) (opSel k d a b) s
def execKand (d a b : BitVec 3) (s : State) : Out := runInstr (.kand d a b) (opKand d a b) s
def execKor (d a b : BitVec 3) (s : State) : Out := runInstr (.kor d a b) (opKor d a b) s
def execKxor (d a b : BitVec 3) (s : State) : Out := runInstr (.kxor d a b) (opKxor d a b) s
def execKnot (d a : BitVec 3) (s : State) : Out := runInstr (.knot d a) (opKnot d a) s
def execKmovc (d : BitVec 3) (a : F6) (s : State) : Out := runInstr (.kmovc d a) (opKmovc d a) s
def execKmovk (d : F6) (a : BitVec 3) (s : State) : Out := runInstr (.kmovk d a) (opKmovk d a) s
def execKpop (d : F6) (a : BitVec 3) (s : State) : Out := runInstr (.kpop d a) (opKpop d a) s
def execKfirst (d : F6) (a : BitVec 3) (s : State) : Out := runInstr (.kfirst d a) (opKfirst d a) s
def execCbnd (d a b : F6) (s : State) : Out := runInstr (.cbnd d a b) (opCbnd d a b) s
def execCbndx (d a b : F6) (s : State) : Out := runInstr (.cbndx d a b) (opCbndx d a b) s
def execCprm (d a b : F6) (s : State) : Out := runInstr (.cprm d a b) (opCprm d a b) s
def execCadd (d a b : F6) (s : State) : Out := runInstr (.cadd d a b) (opCadd d a b) s
def execCset (d a b : F6) (s : State) : Out := runInstr (.cset d a b) (opCset d a b) s
def execCbase (d a : F6) (s : State) : Out := runInstr (.cbase d a) (opCbase d a) s
def execClen (d a : F6) (s : State) : Out := runInstr (.clen d a) (opClen d a) s
def execCperm (d a : F6) (s : State) : Out := runInstr (.cperm d a) (opCperm d a) s
def execCtype (d a : F6) (s : State) : Out := runInstr (.ctype d a) (opCtype d a) s
def execCtag (d a : F6) (s : State) : Out := runInstr (.ctag d a) (opCtag d a) s
def execCclr (d a : F6) (s : State) : Out := runInstr (.cclr d a) (opCclr d a) s
def execCseal (d a : F6) (s : State) : Out := runInstr (.cseal d a) (opCseal d a) s
def execCapCeq (d a b : F6) (s : State) : Out := runInstr (.capCeq d a b) (opCapCeq d a b) s
def execCsub (d a b : F6) (s : State) : Out := runInstr (.csub d a b) (opCsub d a b) s
def execMvi (d : F6) (imm : BitVec 18) (s : State) : Out := runInstr (.mvi d imm) (opMvi none d imm) s
def execAdr (d : F6) (imm : BitVec 18) (s : State) : Out := runInstr (.adr d imm) (opAdr none d imm) s
def execLd (d a : F6) (sz : BitVec 3) (am : BitVec 2) (ea : BitVec 7) (s : State) : Out := runInstr (.ld d a sz am ea) (opLd none d a sz am ea) s
def execLds (d a : F6) (sz : BitVec 3) (am : BitVec 2) (ea : BitVec 7) (s : State) : Out := runInstr (.lds d a sz am ea) (opLds none d a sz am ea) s
def execSt (d a : F6) (sz : BitVec 3) (am : BitVec 2) (ea : BitVec 7) (s : State) : Out := runInstr (.st d a sz am ea) (opSt none d a sz am ea) s
def execLdfeAny (d a : F6) (am : BitVec 2) (ea : BitVec 7) (s : State) : Out := runInstr (.ldfeAny d a am ea) (opLdfeAny none d a am ea) s
def execLdfeWf (d a : F6) (am : BitVec 2) (ea : BitVec 7) (s : State) : Out := runInstr (.ldfeWf d a am ea) (opLdfeWf none d a am ea) s
def execLdfeWfe (d a : F6) (am : BitVec 2) (ea : BitVec 7) (s : State) : Out := runInstr (.ldfeWfe d a am ea) (opLdfeWfe none d a am ea) s
def execLdfeSt (d a : F6) (am : BitVec 2) (ea : BitVec 7) (s : State) : Out := runInstr (.ldfeSt d a am ea) (opLdfeSt none d a am ea) s
def execStfeSf (d a : F6) (am : BitVec 2) (ea : BitVec 7) (s : State) : Out := runInstr (.stfeSf d a am ea) (opStfeSf none d a am ea) s
def execStfeWef (d a : F6) (am : BitVec 2) (ea : BitVec 7) (s : State) : Out := runInstr (.stfeWef d a am ea) (opStfeWef none d a am ea) s
def execStfeSe (a : F6) (am : BitVec 2) (ea : BitVec 7) (s : State) : Out := runInstr (.stfeSe a am ea) (opStfeSe none a am ea) s
def execStfeKeep (d a : F6) (am : BitVec 2) (ea : BitVec 7) (s : State) : Out := runInstr (.stfeKeep d a am ea) (opStfeKeep none d a am ea) s
def execAmoAdd (d a b : F6) (sc : BitVec 3) (s : State) : Out := runInstr (.amoAdd d a b sc) (opAmoAdd none d a b sc) s
def execAmoAnd (d a b : F6) (sc : BitVec 3) (s : State) : Out := runInstr (.amoAnd d a b sc) (opAmoAnd none d a b sc) s
def execAmoOr (d a b : F6) (sc : BitVec 3) (s : State) : Out := runInstr (.amoOr d a b sc) (opAmoOr none d a b sc) s
def execAmoXor (d a b : F6) (sc : BitVec 3) (s : State) : Out := runInstr (.amoXor d a b sc) (opAmoXor none d a b sc) s
def execAmoMin (d a b : F6) (sc : BitVec 3) (s : State) : Out := runInstr (.amoMin d a b sc) (opAmoMin none d a b sc) s
def execAmoMax (d a b : F6) (sc : BitVec 3) (s : State) : Out := runInstr (.amoMax d a b sc) (opAmoMax none d a b sc) s
def execAmoMinu (d a b : F6) (sc : BitVec 3) (s : State) : Out := runInstr (.amoMinu d a b sc) (opAmoMinu none d a b sc) s
def execAmoSwap (d a b : F6) (sc : BitVec 3) (s : State) : Out := runInstr (.amoSwap d a b sc) (opAmoSwap none d a b sc) s
def execFence (sc : BitVec 3) (ord : BitVec 2) (eng : Bool) (s : State) : Out := runInstr (.fence sc ord eng) (opFence sc ord eng) s
def execCwb (a b : F6) (s : State) : Out := runInstr (.cwb a b) (opCwb none a b) s
def execCinv (a b : F6) (s : State) : Out := runInstr (.cinv a b) (opCinv none a b) s
def execCwbinv (a b : F6) (s : State) : Out := runInstr (.cwbinv a b) (opCwbinv none a b) s
def execCpre (a b : F6) (s : State) : Out := runInstr (.cpre a b) (opCpre none a b) s
def execBk (k : BitVec 3) (pol : Bool) (off : BitVec 18) (s : State) : Out := runInstr (.bk k pol off) (opBk none k pol off) s
def execBra (off : BitVec 18) (s : State) : Out := runInstr (.bra off) (opBra none off) s
def execBz (r : F6) (off : BitVec 15) (s : State) : Out := runInstr (.bz r off) (opBz none r off) s
def execBnz (r : F6) (off : BitVec 15) (s : State) : Out := runInstr (.bnz r off) (opBnz none r off) s
def execBltz (r : F6) (off : BitVec 15) (s : State) : Out := runInstr (.bltz r off) (opBltz none r off) s
def execBgez (r : F6) (off : BitVec 15) (s : State) : Out := runInstr (.bgez r off) (opBgez none r off) s
def execBlez (r : F6) (off : BitVec 15) (s : State) : Out := runInstr (.blez r off) (opBlez none r off) s
def execBgtz (r : F6) (off : BitVec 15) (s : State) : Out := runInstr (.bgtz r off) (opBgtz none r off) s
def execJmp (off : BitVec 24) (s : State) : Out := runInstr (.jmp off) (opJmp none off) s
def execCall (off : BitVec 24) (s : State) : Out := runInstr (.call off) (opCall none off) s
def execJr (a : F6) (s : State) : Out := runInstr (.jr a) (opJr a) s
def execJalr (d a : F6) (s : State) : Out := runInstr (.jalr d a) (opJalr d a) s
def execRet (s : State) : Out := runInstr (.ret) (opRet) s
def execCcall (a : F6) (s : State) : Out := runInstr (.ccall a) (opCcall a) s
def execLoop (d : F6) (off : BitVec 18) (s : State) : Out := runInstr (.loop d off) (opLoop none d off) s
def execYield (s : State) : Out := runInstr (.yield) (opYield) s
def execHalt (s : State) : Out := runInstr (.halt) (opHalt) s
def execBar (s : State) : Out := runInstr (.bar) (opBar) s
def execWfe (s : State) : Out := runInstr (.wfe) (opWfe) s
def execNop (s : State) : Out := runInstr (.nop) (opNop) s
def execSleep (a : F6) (s : State) : Out := runInstr (.sleep a) (opSleep a) s
def execBrk (imm : BitVec 12) (s : State) : Out := runInstr (.brk imm) (opBrk imm) s
def execTrap (imm : BitVec 12) (s : State) : Out := runInstr (.trap imm) (opTrap imm) s
def execEret (s : State) : Out := runInstr (.eret) (opEret) s
def execMfs (d : F6) (sr : BitVec 12) (s : State) : Out := runInstr (.mfs d sr) (opMfs d sr) s
def execMts (d : F6) (sr : BitVec 12) (s : State) : Out := runInstr (.mts d sr) (opMts d sr) s
def execTlbinv (a b : F6) (s : State) : Out := runInstr (.tlbinv a b) (opTlbinv a b) s
def execVadd (t : BitVec 3) (d a b : F6) (s : State) : Out := runInstr (.vadd t d a b) (opVadd {} t d a b) s
def execVsub (t : BitVec 3) (d a b : F6) (s : State) : Out := runInstr (.vsub t d a b) (opVsub {} t d a b) s
def execVmul (t : BitVec 3) (d a b : F6) (s : State) : Out := runInstr (.vmul t d a b) (opVmul {} t d a b) s
def execVmin (t : BitVec 3) (d a b : F6) (s : State) : Out := runInstr (.vmin t d a b) (opVmin {} t d a b) s
def execVmax (t : BitVec 3) (d a b : F6) (s : State) : Out := runInstr (.vmax t d a b) (opVmax {} t d a b) s
def execVabs (t : BitVec 3) (d a : F6) (s : State) : Out := runInstr (.vabs t d a) (opVabs {} t d a) s
def execVneg (t : BitVec 3) (d a : F6) (s : State) : Out := runInstr (.vneg t d a) (opVneg {} t d a) s
def execVabd (t : BitVec 3) (d a b : F6) (s : State) : Out := runInstr (.vabd t d a b) (opVabd {} t d a b) s
def execVfma (t : BitVec 3) (d a b : F6) (s : State) : Out := runInstr (.vfma t d a b) (opVfma {} t d a b) s
def execVfms (t : BitVec 3) (d a b : F6) (s : State) : Out := runInstr (.vfms t d a b) (opVfms {} t d a b) s
def execVfnma (t : BitVec 3) (d a b : F6) (s : State) : Out := runInstr (.vfnma t d a b) (opVfnma {} t d a b) s
def execVfnms (t : BitVec 3) (d a b : F6) (s : State) : Out := runInstr (.vfnms t d a b) (opVfnms {} t d a b) s
def execVdot4 (t : BitVec 3) (d a b : F6) (s : State) : Out := runInstr (.vdot4 t d a b) (opVdot4 {} t d a b) s
def execVdot2 (t : BitVec 3) (d a b : F6) (s : State) : Out := runInstr (.vdot2 t d a b) (opVdot2 {} t d a b) s
def execVmulh (t : BitVec 3) (d a b : F6) (s : State) : Out := runInstr (.vmulh t d a b) (opVmulh {} t d a b) s
def execVsad (t : BitVec 3) (d a b : F6) (s : State) : Out := runInstr (.vsad t d a b) (opVsad {} t d a b) s
def execVand (t : BitVec 3) (d a b : F6) (s : State) : Out := runInstr (.vand t d a b) (opVand {} t d a b) s
def execVor (t : BitVec 3) (d a b : F6) (s : State) : Out := runInstr (.vor t d a b) (opVor {} t d a b) s
def execVxor (t : BitVec 3) (d a b : F6) (s : State) : Out := runInstr (.vxor t d a b) (opVxor {} t d a b) s
def execVandn (t : BitVec 3) (d a b : F6) (s : State) : Out := runInstr (.vandn t d a b) (opVandn {} t d a b) s
def execVsll (t : BitVec 3) (d a b : F6) (s : State) : Out := runInstr (.vsll t d a b) (opVsll {} t d a b) s
def execVsrl (t : BitVec 3) (d a b : F6) (s : State) : Out := runInstr (.vsrl t d a b) (opVsrl {} t d a b) s
def execVsra (t : BitVec 3) (d a b : F6) (s : State) : Out := runInstr (.vsra t d a b) (opVsra {} t d a b) s
def execVnot (t : BitVec 3) (d a : F6) (s : State) : Out := runInstr (.vnot t d a) (opVnot {} t d a) s
def execVceq (t : BitVec 3) (d : BitVec 3) (a b : F6) (s : State) : Out := runInstr (.vceq t d a b) (opVceq {} t d a b) s
def execVcne (t : BitVec 3) (d : BitVec 3) (a b : F6) (s : State) : Out := runInstr (.vcne t d a b) (opVcne {} t d a b) s
def execVclt (t : BitVec 3) (d : BitVec 3) (a b : F6) (s : State) : Out := runInstr (.vclt t d a b) (opVclt {} t d a b) s
def execVcle (t : BitVec 3) (d : BitVec 3) (a b : F6) (s : State) : Out := runInstr (.vcle t d a b) (opVcle {} t d a b) s
def execVcgt (t : BitVec 3) (d : BitVec 3) (a b : F6) (s : State) : Out := runInstr (.vcgt t d a b) (opVcgt {} t d a b) s
def execVcge (t : BitVec 3) (d : BitVec 3) (a b : F6) (s : State) : Out := runInstr (.vcge t d a b) (opVcge {} t d a b) s
def execVcltu (t : BitVec 3) (d : BitVec 3) (a b : F6) (s : State) : Out := runInstr (.vcltu t d a b) (opVcltu {} t d a b) s
def execVcun (t : BitVec 3) (d : BitVec 3) (a b : F6) (s : State) : Out := runInstr (.vcun t d a b) (opVcun {} t d a b) s
def execVcvt (t : BitVec 3) (d a b : F6) (s : State) : Out := runInstr (.vcvt t d a b) (opVcvt {} t d a b) s
def execVcvtSat (t : BitVec 3) (d a b : F6) (s : State) : Out := runInstr (.vcvtSat t d a b) (opVcvtSat {} t d a b) s
def execVqn4p (t : BitVec 3) (o : XOp) (s : State) : Out := runInstr (.vqn4p t o) (opVqn4p t o) s
def execVqn4u (t : BitVec 3) (o : XOp) (s : State) : Out := runInstr (.vqn4u t o) (opVqn4u t o) s
def execVwid (t : BitVec 3) (d a b : F6) (s : State) : Out := runInstr (.vwid t d a b) (opVwid {} t d a b) s
def execVwidh (t : BitVec 3) (d a b : F6) (s : State) : Out := runInstr (.vwidh t d a b) (opVwidh {} t d a b) s
def execVnar (t : BitVec 3) (d a b : F6) (s : State) : Out := runInstr (.vnar t d a b) (opVnar {} t d a b) s
def execVrint (t : BitVec 3) (d a b : F6) (s : State) : Out := runInstr (.vrint t d a b) (opVrint {} t d a b) s
def execVbc (t : BitVec 3) (d a b : F6) (s : State) : Out := runInstr (.vbc t d a b) (opVbc {} t d a b) s
def execVshf (t : BitVec 3) (d a b : F6) (s : State) : Out := runInstr (.vshf t d a b) (opVshf {} t d a b) s
def execVrot (t : BitVec 3) (d a b : F6) (s : State) : Out := runInstr (.vrot t d a b) (opVrot {} t d a b) s
def execVext (t : BitVec 3) (d a b : F6) (s : State) : Out := runInstr (.vext t d a b) (opVext {} t d a b) s
def execVins (t : BitVec 3) (d a b : F6) (s : State) : Out := runInstr (.vins t d a b) (opVins {} t d a b) s
def execVzip (t : BitVec 3) (d a b : F6) (s : State) : Out := runInstr (.vzip t d a b) (opVzip {} t d a b) s
def execVuzp (t : BitVec 3) (d a b : F6) (s : State) : Out := runInstr (.vuzp t d a b) (opVuzp {} t d a b) s
def execVcpr (t : BitVec 3) (d a : F6) (b : BitVec 3) (s : State) : Out := runInstr (.vcpr t d a b) (opVcpr {} t d a b) s
def execVradd (t : BitVec 3) (d a : F6) (s : State) : Out := runInstr (.vradd t d a) (opVradd {} t d a) s
def execVrmax (t : BitVec 3) (d a : F6) (s : State) : Out := runInstr (.vrmax t d a) (opVrmax {} t d a) s
def execVrmin (t : BitVec 3) (d a : F6) (s : State) : Out := runInstr (.vrmin t d a) (opVrmin {} t d a) s
def execVrand (t : BitVec 3) (d a : F6) (s : State) : Out := runInstr (.vrand t d a) (opVrand {} t d a) s
def execVror (t : BitVec 3) (d a : F6) (s : State) : Out := runInstr (.vror t d a) (opVror {} t d a) s
def execVrxor (t : BitVec 3) (d a : F6) (s : State) : Out := runInstr (.vrxor t d a) (opVrxor {} t d a) s
def execVscan (t : BitVec 3) (d a : F6) (s : State) : Out := runInstr (.vscan t d a) (opVscan {} t d a) s
def execVrsum (t : BitVec 3) (d a : F6) (s : State) : Out := runInstr (.vrsum t d a) (opVrsum {} t d a) s
def execVrcp (t : BitVec 3) (d a : F6) (s : State) : Out := runInstr (.vrcp t d a) (opVrcp {} t d a) s
def execVrsqrt (t : BitVec 3) (d a : F6) (s : State) : Out := runInstr (.vrsqrt t d a) (opVrsqrt {} t d a) s
def execVsqrt (t : BitVec 3) (d a : F6) (s : State) : Out := runInstr (.vsqrt t d a) (opVsqrt {} t d a) s
def execVdiv (t : BitVec 3) (d a b : F6) (s : State) : Out := runInstr (.vdiv t d a b) (opVdiv {} t d a b) s
def execVexp2 (t : BitVec 3) (d a : F6) (s : State) : Out := runInstr (.vexp2 t d a) (opVexp2 {} t d a) s
def execVlog2 (t : BitVec 3) (d a : F6) (s : State) : Out := runInstr (.vlog2 t d a) (opVlog2 {} t d a) s
def execVtanh (t : BitVec 3) (d a : F6) (s : State) : Out := runInstr (.vtanh t d a) (opVtanh {} t d a) s
def execVsigm (t : BitVec 3) (d a : F6) (s : State) : Out := runInstr (.vsigm t d a) (opVsigm {} t d a) s
def execVld (d a : F6) (sz : BitVec 3) (am : BitVec 2) (ea : BitVec 7) (s : State) : Out := runInstr (.vld d a sz am ea) (opVld {} d a sz am ea) s
def execVst (d a : F6) (sz : BitVec 3) (am : BitVec 2) (ea : BitVec 7) (s : State) : Out := runInstr (.vst d a sz am ea) (opVst {} d a sz am ea) s
def execVsacc (d a b : F6) (s : State) : Out := runInstr (.vsacc d a b) (opVsacc {} d a b) s
def execVxpk (d a : F6) (s : State) : Out := runInstr (.vxpk d a) (opVxpk {} d a) s
def execVxacc (d a : F6) (s : State) : Out := runInstr (.vxacc d a) (opVxacc {} d a) s
def execVxfin (d a : F6) (s : State) : Out := runInstr (.vxfin d a) (opVxfin {} d a) s
def execVbsc (d a b : F6) (s : State) : Out := runInstr (.vbsc d a b) (opVbsc {} d a b) s
def execVmov (t : BitVec 3) (d a : F6) (s : State) : Out := runInstr (.vmov t d a) (opVmov {} t d a) s
def execVzero (t : BitVec 3) (d : F6) (s : State) : Out := runInstr (.vzero t d) (opVzero {} t d) s
def execVfill (t : BitVec 3) (d a : F6) (s : State) : Out := runInstr (.vfill t d a) (opVfill {} t d a) s
def execVkmov (t : BitVec 3) (d : F6) (a : BitVec 3) (s : State) : Out := runInstr (.vkmov t d a) (opVkmov {} t d a) s
def execVwbc (t : BitVec 3) (d a b : F6) (s : State) : Out := runInstr (.vwbc t d a b) (opVwbc {} t d a b) s
def execTref (a b : F6) (s : State) : Out := runInstr (.tref a b) (opTref a b) s
def execTdrop (a b : F6) (s : State) : Out := runInstr (.tdrop a b) (opTdrop a b) s
def execTinfo (d a b : F6) (s : State) : Out := runInstr (.tinfo d a b) (opTinfo d a b) s
def execTchk (d a : F6) (s : State) : Out := runInstr (.tchk d a) (opTchk d a) s
def execTdropAll (a b : F6) (s : State) : Out := runInstr (.tdropAll a b) (opTdropAll a b) s
def execQbind (q : BitVec 3) (a b : F6) (s : State) : Out := runInstr (.qbind q a b) (opQbind q a b) s
def execQunb (q : BitVec 3) (s : State) : Out := runInstr (.qunb q) (opQunb q) s
def execQstat (d : F6) (q : BitVec 3) (s : State) : Out := runInstr (.qstat d q) (opQstat d q) s
def execQpeek (d : F6) (q : BitVec 3) (s : State) : Out := runInstr (.qpeek d q) (opQpeek d q) s
def execVrowSet (d a : F6) (s : State) : Out := runInstr (.vrowSet d a) (opVrowSet d a) s
def execVrowGet (d : F6) (s : State) : Out := runInstr (.vrowGet d) (opVrowGet d) s
def execLogon (s : State) : Out := runInstr (.logon) (opLogon) s
def execLogoff (s : State) : Out := runInstr (.logoff) (opLogoff) s
def execLogmark (a : F6) (s : State) : Out := runInstr (.logmark a) (opLogmark a) s
def execMmul (o : XOp) (s : State) : Out := runInstr (.mmul o) (opMmul o) s
def execMmult (o : XOp) (s : State) : Out := runInstr (.mmult o) (opMmult o) s
def execMgrp (o : XOp) (s : State) : Out := runInstr (.mgrp o) (opMgrp o) s
def execMq4 (o : XOp) (s : State) : Out := runInstr (.mq4 o) (opMq4 o) s
def execMsacc (o : XOp) (s : State) : Out := runInstr (.msacc o) (opMsacc o) s
def execMzero (o : XOp) (s : State) : Out := runInstr (.mzero o) (opMzero o) s
def execMldz (o : XOp) (s : State) : Out := runInstr (.mldz o) (opMldz o) s
def execMstz (o : XOp) (s : State) : Out := runInstr (.mstz o) (opMstz o) s
def execMrd (o : XOp) (s : State) : Out := runInstr (.mrd o) (opMrd o) s
def execMwr (o : XOp) (s : State) : Out := runInstr (.mwr o) (opMwr o) s
def execMrec (o : XOp) (s : State) : Out := runInstr (.mrec o) (opMrec o) s
def execMcmd (o : XOp) (s : State) : Out := runInstr (.mcmd o) (opMcmd o) s
def execMcmdGrant (o : XOp) (s : State) : Out := runInstr (.mcmdGrant o) (opMcmdGrant o) s
def execMwait (o : XOp) (s : State) : Out := runInstr (.mwait o) (opMwait o) s
def execTnew (o : XOp) (s : State) : Out := runInstr (.tnew o) (opTnew o) s
def execTfree (o : XOp) (s : State) : Out := runInstr (.tfree o) (opTfree o) s
def execTvst (o : XOp) (s : State) : Out := runInstr (.tvst o) (opTvst o) s
def execTvld (o : XOp) (s : State) : Out := runInstr (.tvld o) (opTvld o) s
def execTvldc (o : XOp) (s : State) : Out := runInstr (.tvldc o) (opTvldc o) s
def execTvw (o : XOp) (s : State) : Out := runInstr (.tvw o) (opTvw o) s
def execTdecl (o : XOp) (s : State) : Out := runInstr (.tdecl o) (opTdecl o) s
def execTten (o : XOp) (s : State) : Out := runInstr (.tten o) (opTten o) s
def execTrel (o : XOp) (s : State) : Out := runInstr (.trel o) (opTrel o) s
def execTsplit (o : XOp) (s : State) : Out := runInstr (.tsplit o) (opTsplit o) s
def execTmerge (o : XOp) (s : State) : Out := runInstr (.tmerge o) (opTmerge o) s
def execThalo (o : XOp) (s : State) : Out := runInstr (.thalo o) (opThalo o) s
def execCas (o : XOp) (s : State) : Out := runInstr (.cas o) (opCas o) s
def execCasq (o : XOp) (s : State) : Out := runInstr (.casq o) (opCasq o) s
def execLdacq (o : XOp) (s : State) : Out := runInstr (.ldacq o) (opLdacq o) s
def execStrel (o : XOp) (s : State) : Out := runInstr (.strel o) (opStrel o) s
def execCp (o : XOp) (s : State) : Out := runInstr (.cp o) (opCp o) s
def execCp2d (o : XOp) (s : State) : Out := runInstr (.cp2d o) (opCp2d o) s
def execCpf (o : XOp) (s : State) : Out := runInstr (.cpf o) (opCpf o) s
def execCpg (o : XOp) (s : State) : Out := runInstr (.cpg o) (opCpg o) s
def execCps (o : XOp) (s : State) : Out := runInstr (.cps o) (opCps o) s
def execCpq (o : XOp) (s : State) : Out := runInstr (.cpq o) (opCpq o) s
def execRld (o : XOp) (s : State) : Out := runInstr (.rld o) (opRld o) s
def execRst (o : XOp) (s : State) : Out := runInstr (.rst o) (opRst o) s
def execRamo (o : XOp) (s : State) : Out := runInstr (.ramo o) (opRamo o) s
def execRcas (o : XOp) (s : State) : Out := runInstr (.rcas o) (opRcas o) s
def execRcall (o : XOp) (s : State) : Out := runInstr (.rcall o) (opRcall o) s
def execRnote (o : XOp) (s : State) : Out := runInstr (.rnote o) (opRnote o) s
def execRfence (o : XOp) (s : State) : Out := runInstr (.rfence o) (opRfence o) s
def execRget (o : XOp) (s : State) : Out := runInstr (.rget o) (opRget o) s
def execRput (o : XOp) (s : State) : Out := runInstr (.rput o) (opRput o) s
def execRkreg (o : XOp) (s : State) : Out := runInstr (.rkreg o) (opRkreg o) s
def execRkrev (o : XOp) (s : State) : Out := runInstr (.rkrev o) (opRkrev o) s
def execMighint (o : XOp) (s : State) : Out := runInstr (.mighint o) (opMighint o) s
def execPgpin (o : XOp) (s : State) : Out := runInstr (.pgpin o) (opPgpin o) s
def execPgret (o : XOp) (s : State) : Out := runInstr (.pgret o) (opPgret o) s
def execLogring (o : XOp) (s : State) : Out := runInstr (.logring o) (opLogring o) s
def execKeyset (o : XOp) (s : State) : Out := runInstr (.keyset o) (opKeyset o) s
def execCoreseal (o : XOp) (s : State) : Out := runInstr (.coreseal o) (opCoreseal o) s
def execLaunch (o : XOp) (s : State) : Out := runInstr (.launch o) (opLaunch o) s
def execTspawn (o : XOp) (s : State) : Out := runInstr (.tspawn o) (opTspawn o) s
def execLwait (o : XOp) (s : State) : Out := runInstr (.lwait o) (opLwait o) s
def execPrio (o : XOp) (s : State) : Out := runInstr (.prio o) (opPrio o) s

/-- The pair word (R278). -/
def execPairWord (slot : PairSlot) (v : Instr) (s : State) : Out := runInstr (.pairWord slot v) (opPairWord slot v) s
/-- The widened form (R282). -/
def execWidenedForm (x : Ext) (base : Instr) (s : State) : Out := runInstr (.widenedForm x base) (baseOp (some x) base) s
/-- The form with a literal (R276). -/
def execLiteralForm (x : Ext) (lit : W64) (base : Instr) (s : State) : Out := runInstr (.literalForm x lit base) (baseOp (some x) base) s

/-- A trap of the selected thread's fetch; `w` is the first word fetched. -/
def fetchTrap (s : State) (w : M → W32) (cause : BitVec 8) (val : W64) : Out :=
  match s.selected s.cur.1 s.cur.2 with
  | none => .next { s with stalled := true }
  | some m =>
    if m.thr.run = .ready ∧ !m.core.stopping then .next (({ m with ins := w m } : M).takeTrap cause val).flush
    else .next { s with stalled := true }

/-- An encoding without an operation (R236, R283): the fetched instruction traps. -/
def execUnallocatedEncoding (e : EncFault) (s : State) : Out :=
  let word (m : M) : W32 := match m.fetchWords m.thr.pc.cursor.toNat 1 with
    | .ok (_, ws) => ws.headD 0
    | .error _ => 0
  match e with
  | .illegal => fetchTrap s word causeIllegal 0
  | .reserved pos => fetchTrap s word causeReserved (BitVec.ofNat 64 pos)

/-- A fetch that failed traps (R233, R235). -/
def execInstructionFetchFault (e : FetchFault) (s : State) : Out := fetchTrap s (fun _ => 0) e.cause e.value

end

end Sys2Proof.Machine
end

