-- ==== Sys2Proof/Machine/Loss.lean ====
section
/-!
DEFINITION. The L2's steps (R169–R171, R175, R176) and what happens when state is lost (R246, R249).
-/
namespace Sys2Proof.Machine
open Sys2Proof

noncomputable section

/-! ## The L2 -/

/-- `L2CFG`.BUSY, POOL and NPART. -/
def Die.l2Busy (d : Die) : Bool := d.l2cfg.getLsbD 63
def Die.pool (d : Die) : Nat := fieldOf d.l2cfg 4 0

/-- A quad given exclusive ownership of a line that it holds (R176). -/
def State.grantOwn (s : State) (pa quad : Nat) : State :=
  let q := s.quad quad
  s.setQuad { q with l1 := update (fun l => decide (l.pa = pa / 64 * 64)) (fun l => { l with own := true }) q.l1 }

/-- `L2_ACCESS`: an access waits while BUSY is 1; a miss is filled through the port's access table. -/
def execL2Access (die pa : Nat) (kind : L2Kind) (ctx : BitVec 6) (s : State) : Out :=
  if homeDie pa ≠ die ∨ !(paKind s pa).isMem then .next s
  else if (s.die die).l2Busy then .next (s.after 1 (.l2Access die pa kind ctx))
  else
    let m : Master := ⟨ctx, false, 0⟩
    match kind with
    | .read => .next (s.fill (placeNow s pa) m).1
    | .write => .next ((s.recallOwn pa).claim (placeNow s pa) m).1
    | .atomic =>
      let (s, ok) := (s.recallOwn pa).fill (placeNow s pa) m
      .next (if ok then s.l2Touch (placeNow s pa) true m else s)
    | .own q =>
      let (s, ok) := (s.recallOwn pa).fill (placeNow s pa) m
      .next (if ok && !inMotion s pa then s.grantOwn pa q else s)

/-- BUSY set for the time of a change; it ends within 100 µs. -/
def State.l2Start (s : State) (die : Nat) (cfg : W64) (p : L2Line → Bool) : State :=
  ((s.l2Flush die p).setDie die fun d => { d with l2cfg := cfg ||| (1 : W64) <<< 63 }).after (us 100) (.l2BusyComplete die)

/-- Whether a line lies in a part that pool steps `a` to `b` − 1 take: step k takes way 15 − ⌊k/2⌋ in the low half of the sets when k is
even, in the high half when k is odd (R170). -/
def inSteps (a b : Nat) (l : L2Line) : Bool :=
  (List.range b).any fun k => decide (a ≤ k ∧ l.way = 15 - k / 2 ∧ l2Set l.pa / 1024 = k % 2)

/-- A region whose slice holds a live frame in one of the steps a smaller pool would release (R170). -/
def Die.poolHolds (d : Die) (n : Nat) : Option Nat :=
  (List.range 64).find? fun r => (List.range (16 - n)).any fun k => d.poolUsed r (n + k) != 0

/-- A write of POOL: larger takes the steps' parts, whose lines are written back; smaller releases steps unless a live frame lies in
one. A field beyond the steps usable now says what is under way. DEDUCED, log 37. -/
def execL2PoolWrite (die : Nat) (v : W64) (s : State) : Out :=
  let d := s.die die
  let n := fieldOf v 4 0
  if 16 < n ∨ n = d.pool then .next s
  else if d.pool < n then .next (s.l2Start die (setBits d.l2cfg 4 0 n) (inSteps d.pool n))
  else match d.poolHolds n with
    | some r => .next (s.fault die 0x60 n 0 0 r)
    | none => .next (s.setDie die fun d => { d with l2cfg := setBits d.l2cfg 4 0 n, poolUse := Nat.min d.poolUse n })

/-- A write of NPART that changes it flushes the L2. -/
def execL2NpartWrite (die : Nat) (v : W64) (s : State) : Out :=
  let d := s.die die
  if fieldOf v 9 8 = fieldOf d.l2cfg 9 8 then .next s else .next (s.l2Start die (setBits d.l2cfg 9 8 (fieldOf v 9 8)) fun _ => true)

/-- BUSY returns to 0: the new frames are usable. DEDUCED, log 37. -/
def execL2BusyComplete (die : Nat) (s : State) : Out :=
  if !(s.die die).l2Busy then .next s
  else .next ((s.setDie die fun d => { d with l2cfg := setBits d.l2cfg 63 63 0, poolUse := d.pool }).admitPublishes die)

/-! ## Lost lines (R249) -/

/-- V of a context descriptor cleared. -/
def State.clearCtx (s : State) (ctx : BitVec 6) : State :=
  let a := fieldOf s.ctxtb 51 12 * 4096 + 64 * ctx.toNat
  if s.ctxtb.getLsbD 0 then s.writePa (placeNow s a) 8 (s.readPa (placeNow s a) 8 0 / 2 * 2) 0 else s

/-- Every launch of a context terminated, with its records (R249). -/
def State.terminateCtx (s : State) (die : Nat) (ctx : BitVec 6) : State :=
  let live := (s.dies.toList.flatMap (·.launches)).any fun l => l.ctx == ctx && l.phase != .free && !l.ending
  let s := s.terminateAll (fun l => l.ctx == ctx) 5 true
  if live then s else s.fault die 0x72 5 ctx.toNat 0 (2 ^ 16)

/-- The page of a frame retired (R249): any motion aborts, the leaf becomes type 5, translations are shot down, FIX is set. The flag
tells whether it was. -/
def State.retirePage (s : State) (pa : Nat) : State × Bool :=
  let fw := frameWord s pa
  if fw / 2 ^ 63 = 0 then (s, false)
  else
    let leaf := fw / 16 % 2 ^ 48 * 16
    let s := match motionOf s pa with
      | some (d, m) => s.motionAbort d m.src 0
      | none => s
    let s := holders s (pa / 2 ^ 16 * 2 ^ 16) |>.foldl (fun s (q, c, va) => s.shootQuad q (some c) (some (va / 2 ^ 16, 1))) s
    ((s.setLeafWord leaf (putBitsN (s.leafWord leaf) 3 1 5)).setFix pa true, true)

/-- A level's code (R252), and the endpoint index of the unit that finds the error (R411). DEDUCED, log 25. -/
def lossCode : LossLevel → Nat
  | .slice => 2
  | .capCache => 3
  | .l2 => 4
  | .l1 => 5
def lossStation (s : State) (level : LossLevel) (quad pa : Nat) : Nat :=
  match level with
  | .slice => (station s pa).2
  | .capCache => capPort s (pa / 2048 * 2048)
  | .l2 => let r := l2Slice pa
           128 * (r / 8) + 4 * (r % 8)
  | .l1 => siteOf (4 * quad)

/-- The die of the level's unit. -/
def lossDie (level : LossLevel) (quad pa : Nat) : Nat :=
  match level with
  | .l1 => quad / 256 % 8
  | _ => homeDie pa

/-- The copy of a block that a level holds. -/
structure LossCopy where
  /-- It holds the only current data. -/
  dirty : Bool
  /-- Its owner context, where the level keeps one (R249). -/
  owner : Option (BitVec 6)
  /-- Its set and way, and its place in `AUX64` (R411). -/
  place : Nat
  /-- The unit of a quarantine, as `chooseWay`'s callers name it. -/
  unit  : Nat

/-- The set and way of `AUX64`. -/
def setWay (set way : Nat) : Nat := set + 2048 * way

def State.lossCopy (s : State) (level : LossLevel) (quad pa : Nat) : Option LossCopy :=
  let b := pa / 64 * 64
  match level with
  | .l1 => ((s.quad quad).l1.find? fun l => decide (l.pa = b)).map fun l =>
      ⟨l.dirty != 0, some l.ctx, setWay (l1Set l.va) l.way, siteOf (4 * quad)⟩
  | .l2 => (l2Find s b).map fun l => ⟨l.dirty, some l.writer.ctx, setWay (l2Set b) l.way, l2Slice b⟩
  | .slice => (sliceFind s b).map fun l => ⟨l.dirty, none, setWay (sliceSet b) l.way, (station s b).2⟩
  | .capCache => (capFind s b).bind fun l => (l.sector b).map fun _ => ⟨l.dirty.getLsbD (b % 2048 / 64), none, 0, capPort s l.base⟩

/-- The copy leaves its level: a clean one is dropped, one that holds the only current data is written back with POISON, or in the slice and
the capacity cache marked so (R44, R249). -/
def State.loseCopy (s : State) (level : LossLevel) (quad pa : Nat) (dirty : Bool) : State :=
  let b := pa / 64 * 64
  match level with
  | .l1 =>
    let q := s.quad quad
    let s := s.setQuad { q with l1 := update (fun l => decide (l.pa = b)) (fun l => { l with poison := true }) q.l1 }
    s.l1Clean quad (fun l => decide (l.pa = b)) true
  | .l2 => if dirty then (s.setBadAt b true).l2Drop b else s.l2Drop b
  | .slice => if dirty then s.mapPort b fun x => { x with poison := true }
      else s.setDie (homeDie b) fun d => { d with slice := d.slice.filter fun l => decide (l.pa ≠ b) }
  | .capCache => if dirty then s.mapPort b fun x => { x with poison := true }
      else
        let rest (l : CapLine) : CapLine := { l with sectors := l.sectors.filter fun x => decide (x.1 ≠ b % 2048 / 64) }
        s.setDie (homeDie b) fun d => { d with cap := update (fun l => decide (l.base = b / 2048 * 2048)) rest d.cap }

/-- A set and way quarantined, kept with the repair record. -/
def State.quarantine (s : State) (die : Nat) (q : Nat × Nat × Nat) : State :=
  s.setDie die fun d => { d with quarantine := q :: d.quarantine.filter fun x => decide (x ≠ q) }

/-- A clean copy's error: refetched; the second within 24 h at a set and way quarantines it. -/
def State.cleanLoss (s : State) (level : LossLevel) (quad pa : Nat) (x : LossCopy) : State :=
  let d := lossDie level quad pa
  let q := (lossCode level, x.unit, x.place)
  let twice := (s.die d).cleanErr.any fun y => decide (y.1 = q ∧ s.now < y.2 + dayCycles)
  let s := s.loseCopy level quad pa false
  let s := s.setDie d fun y => { y with cleanErr := (q, s.now) :: y.cleanErr.filter fun z => decide (z.1 ≠ q) }
  let s := if twice then s.quarantine d q else s
  s.fault d 0x70 (lossCode level) 0 (pa / 64 * 64) (2 + (if twice then 32 else 0) + lossStation s level quad pa * 2 ^ 16) x.place

/-- A copy with the only current data and an owner context (R249). -/
def State.ownedLoss (s : State) (level : LossLevel) (quad pa : Nat) (x : LossCopy) (ctx : BitVec 6) : State :=
  let d := lossDie level quad pa
  let code := lossCode level
  let s := (s.loseCopy level quad pa true).quarantine d (code, x.unit, x.place)
  let s := (s.terminateCtx d ctx).clearCtx ctx
  let (s, retired) := s.retirePage pa
  s.fault d 0x70 code ctx.toNat (pa / 64 * 64) (1 + 8 + (if retired then 16 else 0) + 32 + lossStation s level quad pa * 2 ^ 16) x.place

/-- `DIRTY_LINE_LOSS`: an uncorrectable error in a copy that a level holds. A slice and the capacity cache keep no owner: their only copy
stays poisoned, and its frame is considered for retirement (R44, R250). DEDUCED, log 25. -/
def execDirtyLineLoss (level : LossLevel) (quad pa : Nat) (s : State) : Out :=
  match s.lossCopy level quad pa with
  | none => .next s
  | some x =>
    if !x.dirty then .next (s.cleanLoss level quad pa x)
    else match x.owner with
      | some ctx => .next (s.ownedLoss level quad pa x ctx)
      | none =>
        let aux := 1 + (if movable s pa then 64 else 128) + lossStation s level quad pa * 2 ^ 16
        .next (((s.loseCopy level quad pa true).fault (lossDie level quad pa) 0x70 (lossCode level) 0 (pa / 64 * 64) aux x.place).post (.frameRetirement pa))

/-- `ZENITH_STATE_LOST` (R246): the module fails and every context's launches are terminated. DEDUCED, log 25. -/
def execZenithStateLost (die : Nat) (s : State) : Out :=
  let s := s.fault die 0x70 7 0 0 (8 + 1100 * 2 ^ 16)
  .next ((s.terminateAll (fun _ => true) 6 true).fail die)

end

end Sys2Proof.Machine
end

