-- ==== Sys2Proof/Machine/Dispatch.lean ====
section
/-!
DEFINITION. The dispatch: one arm per constructor, each one direct call of its meaning.
-/
namespace Sys2Proof.Machine

open Sys2Proof in noncomputable
def exec (i : Instr) (s : State) : Host.Outcome State Fault Refusal :=
  match i with
  | .powerGood => Sys2Proof.Machine.execPowerGood s
  | .bringupStepComplete ok fdie => Sys2Proof.Machine.execBringupStepComplete ok fdie s
  | .bringupTimeout fdie => Sys2Proof.Machine.execBringupTimeout fdie s
  | .discoveryAnswer die site fused failed => Sys2Proof.Machine.execDiscoveryAnswer die site fused failed s
  | .discoveryTimeout die => Sys2Proof.Machine.execDiscoveryTimeout die s
  | .standbyPowerUp => Sys2Proof.Machine.execStandbyPowerUp s
  | .moduleReset hold => Sys2Proof.Machine.execModuleReset hold s
  | .harvySetPlim w => Sys2Proof.Machine.execHarvySetPlim w s
  | .harvySetModid n => Sys2Proof.Machine.execHarvySetModid n s
  | .harvyStageFirmware img => Sys2Proof.Machine.execHarvyStageFirmware img s
  | .harvyAttest nonce => Sys2Proof.Machine.execHarvyAttest nonce s
  | .attestationReport => Sys2Proof.Machine.execAttestationReport s
  | .powerSample w => Sys2Proof.Machine.execPowerSample w s
  | .powerIntervalEnd => Sys2Proof.Machine.execPowerIntervalEnd s
  | .dieThermalReport die temp => Sys2Proof.Machine.execDieThermalReport die temp s
  | .hbmThermalReport stack temp => Sys2Proof.Machine.execHbmThermalReport stack temp s
  | .mstatThermClear => Sys2Proof.Machine.execMstatThermClear s
  | .registerWrite pa size v m => Sys2Proof.Machine.execRegisterWrite pa size v m s
  | .memoryPortAccess acc => Sys2Proof.Machine.execMemoryPortAccess acc s
  | .scrubVisit blk found => Sys2Proof.Machine.execScrubVisit blk found s
  | .cachePortAccess acc => Sys2Proof.Machine.execCachePortAccess acc s
  | .driftHalvingVisit die => Sys2Proof.Machine.execDriftHalvingVisit die s
  | .motionStart die leaf dst => Sys2Proof.Machine.execMotionStart die leaf dst s
  | .motionFlushAck die src => Sys2Proof.Machine.execMotionFlushAck die src s
  | .granuleCopyAck die src => Sys2Proof.Machine.execGranuleCopyAck die src s
  | .granuleCopyTimeout die src => Sys2Proof.Machine.execGranuleCopyTimeout die src s
  | .motionAccess die src acc => Sys2Proof.Machine.execMotionAccess die src acc s
  | .motionShootdownAck die src quad => Sys2Proof.Machine.execMotionShootdownAck die src quad s
  | .quadShootdown quad ctx va pages die src => Sys2Proof.Machine.execQuadShootdown quad ctx va pages die src s
  | .motionTimeLimit die src => Sys2Proof.Machine.execMotionTimeLimit die src s
  | .cxlDynamicCapacityRelease base count => Sys2Proof.Machine.execCxlDynamicCapacityRelease base count s
  | .flitReceive link flit => Sys2Proof.Machine.execFlitReceive link flit s
  | .linkRetrainTimeout link => Sys2Proof.Machine.execLinkRetrainTimeout link s
  | .dieLinkModuleFailure die gw m => Sys2Proof.Machine.execDieLinkModuleFailure die gw m s
  | .cirrusLaneFailure die port lane => Sys2Proof.Machine.execCirrusLaneFailure die port lane s
  | .cirrusPortStateChange die port up => Sys2Proof.Machine.execCirrusPortStateChange die port up s
  | .rldRequest p => Sys2Proof.Machine.execRldRequest p s
  | .rstRequest p => Sys2Proof.Machine.execRstRequest p s
  | .ramoRequest p => Sys2Proof.Machine.execRamoRequest p s
  | .rcasRequest p => Sys2Proof.Machine.execRcasRequest p s
  | .rcallRequest p => Sys2Proof.Machine.execRcallRequest p s
  | .rgetRequest p => Sys2Proof.Machine.execRgetRequest p s
  | .rputRequest p => Sys2Proof.Machine.execRputRequest p s
  | .probeRequest p => Sys2Proof.Machine.execProbeRequest p s
  | .launchWindowRequest p => Sys2Proof.Machine.execLaunchWindowRequest p s
  | .dataReply p => Sys2Proof.Machine.execDataReply p s
  | .doneReply p => Sys2Proof.Machine.execDoneReply p s
  | .parkedReply p => Sys2Proof.Machine.execParkedReply p s
  | .ticketReply p => Sys2Proof.Machine.execTicketReply p s
  | .errorReply p => Sys2Proof.Machine.execErrorReply p s
  | .busyReply p => Sys2Proof.Machine.execBusyReply p s
  | .busyBackoffExpiry t tag gen => Sys2Proof.Machine.execBusyBackoffExpiry t tag gen s
  | .replayNotice p => Sys2Proof.Machine.execReplayNotice p s
  | .varriveNotice p => Sys2Proof.Machine.execVarriveNotice p s
  | .rnoteNotice p => Sys2Proof.Machine.execRnoteNotice p s
  | .fewakeNotice t v => Sys2Proof.Machine.execFewakeNotice t v s
  | .retransmitTimeout t tag gen => Sys2Proof.Machine.execRetransmitTimeout t tag gen s
  | .finalTimeout t tag gen => Sys2Proof.Machine.execFinalTimeout t tag gen s
  | .probeTimer t tag gen => Sys2Proof.Machine.execProbeTimer t tag gen s
  | .ticketLimitTimeout t tag gen => Sys2Proof.Machine.execTicketLimitTimeout t tag gen s
  | .flowIdleTimeout die gw src thr key => Sys2Proof.Machine.execFlowIdleTimeout die gw src thr key s
  | .replyCacheExpiry die gw src tag gen => Sys2Proof.Machine.execReplyCacheExpiry die gw src tag gen s
  | .regionTableUpdate die gw idx r => Sys2Proof.Machine.execRegionTableUpdate die gw idx r s
  | .callStart core => Sys2Proof.Machine.execCallStart core s
  | .topologyProbe p => Sys2Proof.Machine.execTopologyProbe p s
  | .topologyAnswer die modid hops => Sys2Proof.Machine.execTopologyAnswer die modid hops s
  | .topologyDiscoveryTimeout die => Sys2Proof.Machine.execTopologyDiscoveryTimeout die s
  | .lullStart die => Sys2Proof.Machine.execLullStart die s
  | .lullMarker link net cls held pret => Sys2Proof.Machine.execLullMarker link net cls held pret s
  | .lullEnd die => Sys2Proof.Machine.execLullEnd die s
  | .bar2PlainRead port off size => Sys2Proof.Machine.execBar2PlainRead port off size s
  | .bar2PlainWrite port off size v => Sys2Proof.Machine.execBar2PlainWrite port off size v s
  | .bar2ArmRead port off size => Sys2Proof.Machine.execBar2ArmRead port off size s
  | .bar2ArmWrite port off size v => Sys2Proof.Machine.execBar2ArmWrite port off size v s
  | .bar2ClearRead port off size => Sys2Proof.Machine.execBar2ClearRead port off size s
  | .bar2ClearWrite port off size v => Sys2Proof.Machine.execBar2ClearWrite port off size v s
  | .dieWindowAccess port off size v => Sys2Proof.Machine.execDieWindowAccess port off size v s
  | .bar0UnmappedAccess port off size v => Sys2Proof.Machine.execBar0UnmappedAccess port off size v s
  | .msixUnmask port vec => Sys2Proof.Machine.execMsixUnmask port vec s
  | .hostPortDown port => Sys2Proof.Machine.execHostPortDown port s
  | .herrRead die => Sys2Proof.Machine.execHerrRead die s
  | .mailboxOpen port cmd => Sys2Proof.Machine.execMailboxOpen port cmd s
  | .mailboxChunk port cmd => Sys2Proof.Machine.execMailboxChunk port cmd s
  | .mailboxCommit port cmd => Sys2Proof.Machine.execMailboxCommit port cmd s
  | .mailboxAbort port cmd => Sys2Proof.Machine.execMailboxAbort port cmd s
  | .mailboxAttest port cmd => Sys2Proof.Machine.execMailboxAttest port cmd s
  | .mailboxInvalidOp port cmd => Sys2Proof.Machine.execMailboxInvalidOp port cmd s
  | .mailboxCommandComplete err => Sys2Proof.Machine.execMailboxCommandComplete err s
  | .mbstatRead port => Sys2Proof.Machine.execMbstatRead port s
  | .accessTableWrite die station idx e m => Sys2Proof.Machine.execAccessTableWrite die station idx e m s
  | .launchSlotTake ctx slot => Sys2Proof.Machine.execLaunchSlotTake ctx slot s
  | .gateSatisfied launch => Sys2Proof.Machine.execGateSatisfied launch s
  | .dispatchCoreFree die core => Sys2Proof.Machine.execDispatchCoreFree die core s
  | .bindRequest launch core => Sys2Proof.Machine.execBindRequest launch core s
  | .preemption launch => Sys2Proof.Machine.execPreemption launch s
  | .teamSave core => Sys2Proof.Machine.execTeamSave core s
  | .teamRestore launch team core => Sys2Proof.Machine.execTeamRestore launch team core s
  | .teamExit core => Sys2Proof.Machine.execTeamExit core s
  | .teamCompletionRelease launch team result => Sys2Proof.Machine.execTeamCompletionRelease launch team result s
  | .launchTermination launch reason code team => Sys2Proof.Machine.execLaunchTermination launch reason code team s
  | .rowRetentionEntry t => Sys2Proof.Machine.execRowRetentionEntry t s
  | .sleepExpiry t => Sys2Proof.Machine.execSleepExpiry t s
  | .yieldExpiry t => Sys2Proof.Machine.execYieldExpiry t s
  | .queueEntryArrival p => Sys2Proof.Machine.execQueueEntryArrival p s
  | .meshBindRequest p => Sys2Proof.Machine.execMeshBindRequest p s
  | .l2Access die pa kind ctx => Sys2Proof.Machine.execL2Access die pa kind ctx s
  | .l2PoolWrite die v => Sys2Proof.Machine.execL2PoolWrite die v s
  | .l2NpartWrite die v => Sys2Proof.Machine.execL2NpartWrite die v s
  | .l2BusyComplete die => Sys2Proof.Machine.execL2BusyComplete die s
  | .engineCommandStart core e => Sys2Proof.Machine.execEngineCommandStart core e s
  | .engineCommandComplete core e => Sys2Proof.Machine.execEngineCommandComplete core e s
  | .logRangeTimeout launch team since => Sys2Proof.Machine.execLogRangeTimeout launch team since s
  | .versionPublishRequest name ver t => Sys2Proof.Machine.execVersionPublishRequest name ver t s
  | .versionPublishComplete name ver t => Sys2Proof.Machine.execVersionPublishComplete name ver t s
  | .versionWaitRegister name ver t => Sys2Proof.Machine.execVersionWaitRegister name ver t s
  | .versionWaitBoundExpiry t => Sys2Proof.Machine.execVersionWaitBoundExpiry t s
  | .tenureRequest t region rect write => Sys2Proof.Machine.execTenureRequest t region rect write s
  | .tenureRelease t region rect => Sys2Proof.Machine.execTenureRelease t region rect s
  | .oneShotAccess t region rect write => Sys2Proof.Machine.execOneShotAccess t region rect write s
  | .serviceRequest die ctx va code write fetch who => Sys2Proof.Machine.execServiceRequest die ctx va code write fetch who s
  | .fsdoneResolve die svc => Sys2Proof.Machine.execFsdoneResolve die svc s
  | .fsdoneRefuse die svc => Sys2Proof.Machine.execFsdoneRefuse die svc s
  | .fqheadWrite die v => Sys2Proof.Machine.execFqheadWrite die v s
  | .coreSeal core code pc => Sys2Proof.Machine.execCoreSeal core code pc s
  | .dirtyLineLoss level quad pa => Sys2Proof.Machine.execDirtyLineLoss level quad pa s
  | .frameRetirement pa => Sys2Proof.Machine.execFrameRetirement pa s
  | .matrixCommandStart quad => Sys2Proof.Machine.execMatrixCommandStart quad s
  | .matrixKstepComplete quad => Sys2Proof.Machine.execMatrixKstepComplete quad s
  | .remoteMatrixCommand c => Sys2Proof.Machine.execRemoteMatrixCommand c s
  | .pairWord slot v => Sys2Proof.Machine.execPairWord slot v s
  | .widenedForm x base => Sys2Proof.Machine.execWidenedForm x base s
  | .literalForm x lit base => Sys2Proof.Machine.execLiteralForm x lit base s
  | .add d a b => Sys2Proof.Machine.execAdd d a b s
  | .sub d a b => Sys2Proof.Machine.execSub d a b s
  | .and d a b => Sys2Proof.Machine.execAnd d a b s
  | .or d a b => Sys2Proof.Machine.execOr d a b s
  | .xor d a b => Sys2Proof.Machine.execXor d a b s
  | .andn d a b => Sys2Proof.Machine.execAndn d a b s
  | .orn d a b => Sys2Proof.Machine.execOrn d a b s
  | .sll d a b => Sys2Proof.Machine.execSll d a b s
  | .srl d a b => Sys2Proof.Machine.execSrl d a b s
  | .sra d a b => Sys2Proof.Machine.execSra d a b s
  | .rol d a b => Sys2Proof.Machine.execRol d a b s
  | .min d a b => Sys2Proof.Machine.execMin d a b s
  | .max d a b => Sys2Proof.Machine.execMax d a b s
  | .minu d a b => Sys2Proof.Machine.execMinu d a b s
  | .maxu d a b => Sys2Proof.Machine.execMaxu d a b s
  | .mul d a b => Sys2Proof.Machine.execMul d a b s
  | .mulh d a b => Sys2Proof.Machine.execMulh d a b s
  | .mulhu d a b => Sys2Proof.Machine.execMulhu d a b s
  | .div d a b => Sys2Proof.Machine.execDiv d a b s
  | .divu d a b => Sys2Proof.Machine.execDivu d a b s
  | .rem d a b => Sys2Proof.Machine.execRem d a b s
  | .remu d a b => Sys2Proof.Machine.execRemu d a b s
  | .addc d a b => Sys2Proof.Machine.execAddc d a b s
  | .subb d a b => Sys2Proof.Machine.execSubb d a b s
  | .clz d a => Sys2Proof.Machine.execClz d a s
  | .ctz d a => Sys2Proof.Machine.execCtz d a s
  | .popc d a => Sys2Proof.Machine.execPopc d a s
  | .sext d a b => Sys2Proof.Machine.execSext d a b s
  | .zext d a b => Sys2Proof.Machine.execZext d a b s
  | .addi d a imm => Sys2Proof.Machine.execAddi d a imm s
  | .andi d a imm => Sys2Proof.Machine.execAndi d a imm s
  | .ori d a imm => Sys2Proof.Machine.execOri d a imm s
  | .xori d a imm => Sys2Proof.Machine.execXori d a imm s
  | .slli d a amt => Sys2Proof.Machine.execSlli d a amt s
  | .srli d a amt => Sys2Proof.Machine.execSrli d a amt s
  | .srai d a amt => Sys2Proof.Machine.execSrai d a amt s
  | .roli d a amt => Sys2Proof.Machine.execRoli d a amt s
  | .ceq d a b => Sys2Proof.Machine.execCeq d a b s
  | .cne d a b => Sys2Proof.Machine.execCne d a b s
  | .clt d a b => Sys2Proof.Machine.execClt d a b s
  | .cge d a b => Sys2Proof.Machine.execCge d a b s
  | .cltu d a b => Sys2Proof.Machine.execCltu d a b s
  | .cgeu d a b => Sys2Proof.Machine.execCgeu d a b s
  | .ctst d a b => Sys2Proof.Machine.execCtst d a b s
  | .bfx d a pos len => Sys2Proof.Machine.execBfx d a pos len s
  | .bfxs d a pos len => Sys2Proof.Machine.execBfxs d a pos len s
  | .bfi d a pos len => Sys2Proof.Machine.execBfi d a pos len s
  | .bfclr d a pos len => Sys2Proof.Machine.execBfclr d a pos len s
  | .mov d a => Sys2Proof.Machine.execMov d a s
  | .sel k d a b => Sys2Proof.Machine.execSel k d a b s
  | .kand d a b => Sys2Proof.Machine.execKand d a b s
  | .kor d a b => Sys2Proof.Machine.execKor d a b s
  | .kxor d a b => Sys2Proof.Machine.execKxor d a b s
  | .knot d a => Sys2Proof.Machine.execKnot d a s
  | .kmovc d a => Sys2Proof.Machine.execKmovc d a s
  | .kmovk d a => Sys2Proof.Machine.execKmovk d a s
  | .kpop d a => Sys2Proof.Machine.execKpop d a s
  | .kfirst d a => Sys2Proof.Machine.execKfirst d a s
  | .cbnd d a b => Sys2Proof.Machine.execCbnd d a b s
  | .cbndx d a b => Sys2Proof.Machine.execCbndx d a b s
  | .cprm d a b => Sys2Proof.Machine.execCprm d a b s
  | .cadd d a b => Sys2Proof.Machine.execCadd d a b s
  | .cset d a b => Sys2Proof.Machine.execCset d a b s
  | .cbase d a => Sys2Proof.Machine.execCbase d a s
  | .clen d a => Sys2Proof.Machine.execClen d a s
  | .cperm d a => Sys2Proof.Machine.execCperm d a s
  | .ctype d a => Sys2Proof.Machine.execCtype d a s
  | .ctag d a => Sys2Proof.Machine.execCtag d a s
  | .cclr d a => Sys2Proof.Machine.execCclr d a s
  | .cseal d a => Sys2Proof.Machine.execCseal d a s
  | .capCeq d a b => Sys2Proof.Machine.execCapCeq d a b s
  | .csub d a b => Sys2Proof.Machine.execCsub d a b s
  | .mvi d imm => Sys2Proof.Machine.execMvi d imm s
  | .adr d imm => Sys2Proof.Machine.execAdr d imm s
  | .ld d a sz am ea => Sys2Proof.Machine.execLd d a sz am ea s
  | .lds d a sz am ea => Sys2Proof.Machine.execLds d a sz am ea s
  | .st d a sz am ea => Sys2Proof.Machine.execSt d a sz am ea s
  | .ldfeAny d a am ea => Sys2Proof.Machine.execLdfeAny d a am ea s
  | .ldfeWf d a am ea => Sys2Proof.Machine.execLdfeWf d a am ea s
  | .ldfeWfe d a am ea => Sys2Proof.Machine.execLdfeWfe d a am ea s
  | .ldfeSt d a am ea => Sys2Proof.Machine.execLdfeSt d a am ea s
  | .stfeSf d a am ea => Sys2Proof.Machine.execStfeSf d a am ea s
  | .stfeWef d a am ea => Sys2Proof.Machine.execStfeWef d a am ea s
  | .stfeSe a am ea => Sys2Proof.Machine.execStfeSe a am ea s
  | .stfeKeep d a am ea => Sys2Proof.Machine.execStfeKeep d a am ea s
  | .amoAdd d a b sc => Sys2Proof.Machine.execAmoAdd d a b sc s
  | .amoAnd d a b sc => Sys2Proof.Machine.execAmoAnd d a b sc s
  | .amoOr d a b sc => Sys2Proof.Machine.execAmoOr d a b sc s
  | .amoXor d a b sc => Sys2Proof.Machine.execAmoXor d a b sc s
  | .amoMin d a b sc => Sys2Proof.Machine.execAmoMin d a b sc s
  | .amoMax d a b sc => Sys2Proof.Machine.execAmoMax d a b sc s
  | .amoMinu d a b sc => Sys2Proof.Machine.execAmoMinu d a b sc s
  | .amoSwap d a b sc => Sys2Proof.Machine.execAmoSwap d a b sc s
  | .fence sc ord eng => Sys2Proof.Machine.execFence sc ord eng s
  | .cwb a b => Sys2Proof.Machine.execCwb a b s
  | .cinv a b => Sys2Proof.Machine.execCinv a b s
  | .cwbinv a b => Sys2Proof.Machine.execCwbinv a b s
  | .cpre a b => Sys2Proof.Machine.execCpre a b s
  | .bk k pol off => Sys2Proof.Machine.execBk k pol off s
  | .bra off => Sys2Proof.Machine.execBra off s
  | .bz r off => Sys2Proof.Machine.execBz r off s
  | .bnz r off => Sys2Proof.Machine.execBnz r off s
  | .bltz r off => Sys2Proof.Machine.execBltz r off s
  | .bgez r off => Sys2Proof.Machine.execBgez r off s
  | .blez r off => Sys2Proof.Machine.execBlez r off s
  | .bgtz r off => Sys2Proof.Machine.execBgtz r off s
  | .jmp off => Sys2Proof.Machine.execJmp off s
  | .call off => Sys2Proof.Machine.execCall off s
  | .jr a => Sys2Proof.Machine.execJr a s
  | .jalr d a => Sys2Proof.Machine.execJalr d a s
  | .ret => Sys2Proof.Machine.execRet s
  | .ccall a => Sys2Proof.Machine.execCcall a s
  | .loop d off => Sys2Proof.Machine.execLoop d off s
  | .yield => Sys2Proof.Machine.execYield s
  | .halt => Sys2Proof.Machine.execHalt s
  | .bar => Sys2Proof.Machine.execBar s
  | .wfe => Sys2Proof.Machine.execWfe s
  | .nop => Sys2Proof.Machine.execNop s
  | .sleep a => Sys2Proof.Machine.execSleep a s
  | .brk imm => Sys2Proof.Machine.execBrk imm s
  | .trap imm => Sys2Proof.Machine.execTrap imm s
  | .eret => Sys2Proof.Machine.execEret s
  | .mfs d sr => Sys2Proof.Machine.execMfs d sr s
  | .mts d sr => Sys2Proof.Machine.execMts d sr s
  | .tlbinv a b => Sys2Proof.Machine.execTlbinv a b s
  | .vadd t d a b => Sys2Proof.Machine.execVadd t d a b s
  | .vsub t d a b => Sys2Proof.Machine.execVsub t d a b s
  | .vmul t d a b => Sys2Proof.Machine.execVmul t d a b s
  | .vmin t d a b => Sys2Proof.Machine.execVmin t d a b s
  | .vmax t d a b => Sys2Proof.Machine.execVmax t d a b s
  | .vabs t d a => Sys2Proof.Machine.execVabs t d a s
  | .vneg t d a => Sys2Proof.Machine.execVneg t d a s
  | .vabd t d a b => Sys2Proof.Machine.execVabd t d a b s
  | .vfma t d a b => Sys2Proof.Machine.execVfma t d a b s
  | .vfms t d a b => Sys2Proof.Machine.execVfms t d a b s
  | .vfnma t d a b => Sys2Proof.Machine.execVfnma t d a b s
  | .vfnms t d a b => Sys2Proof.Machine.execVfnms t d a b s
  | .vdot4 t d a b => Sys2Proof.Machine.execVdot4 t d a b s
  | .vdot2 t d a b => Sys2Proof.Machine.execVdot2 t d a b s
  | .vmulh t d a b => Sys2Proof.Machine.execVmulh t d a b s
  | .vsad t d a b => Sys2Proof.Machine.execVsad t d a b s
  | .vand t d a b => Sys2Proof.Machine.execVand t d a b s
  | .vor t d a b => Sys2Proof.Machine.execVor t d a b s
  | .vxor t d a b => Sys2Proof.Machine.execVxor t d a b s
  | .vandn t d a b => Sys2Proof.Machine.execVandn t d a b s
  | .vsll t d a b => Sys2Proof.Machine.execVsll t d a b s
  | .vsrl t d a b => Sys2Proof.Machine.execVsrl t d a b s
  | .vsra t d a b => Sys2Proof.Machine.execVsra t d a b s
  | .vnot t d a => Sys2Proof.Machine.execVnot t d a s
  | .vceq t d a b => Sys2Proof.Machine.execVceq t d a b s
  | .vcne t d a b => Sys2Proof.Machine.execVcne t d a b s
  | .vclt t d a b => Sys2Proof.Machine.execVclt t d a b s
  | .vcle t d a b => Sys2Proof.Machine.execVcle t d a b s
  | .vcgt t d a b => Sys2Proof.Machine.execVcgt t d a b s
  | .vcge t d a b => Sys2Proof.Machine.execVcge t d a b s
  | .vcltu t d a b => Sys2Proof.Machine.execVcltu t d a b s
  | .vcun t d a b => Sys2Proof.Machine.execVcun t d a b s
  | .vcvt t d a b => Sys2Proof.Machine.execVcvt t d a b s
  | .vcvtSat t d a b => Sys2Proof.Machine.execVcvtSat t d a b s
  | .vqn4p t o => Sys2Proof.Machine.execVqn4p t o s
  | .vqn4u t o => Sys2Proof.Machine.execVqn4u t o s
  | .vwid t d a b => Sys2Proof.Machine.execVwid t d a b s
  | .vwidh t d a b => Sys2Proof.Machine.execVwidh t d a b s
  | .vnar t d a b => Sys2Proof.Machine.execVnar t d a b s
  | .vrint t d a b => Sys2Proof.Machine.execVrint t d a b s
  | .vbc t d a b => Sys2Proof.Machine.execVbc t d a b s
  | .vshf t d a b => Sys2Proof.Machine.execVshf t d a b s
  | .vrot t d a b => Sys2Proof.Machine.execVrot t d a b s
  | .vext t d a b => Sys2Proof.Machine.execVext t d a b s
  | .vins t d a b => Sys2Proof.Machine.execVins t d a b s
  | .vzip t d a b => Sys2Proof.Machine.execVzip t d a b s
  | .vuzp t d a b => Sys2Proof.Machine.execVuzp t d a b s
  | .vcpr t d a b => Sys2Proof.Machine.execVcpr t d a b s
  | .vradd t d a => Sys2Proof.Machine.execVradd t d a s
  | .vrmax t d a => Sys2Proof.Machine.execVrmax t d a s
  | .vrmin t d a => Sys2Proof.Machine.execVrmin t d a s
  | .vrand t d a => Sys2Proof.Machine.execVrand t d a s
  | .vror t d a => Sys2Proof.Machine.execVror t d a s
  | .vrxor t d a => Sys2Proof.Machine.execVrxor t d a s
  | .vscan t d a => Sys2Proof.Machine.execVscan t d a s
  | .vrsum t d a => Sys2Proof.Machine.execVrsum t d a s
  | .vrcp t d a => Sys2Proof.Machine.execVrcp t d a s
  | .vrsqrt t d a => Sys2Proof.Machine.execVrsqrt t d a s
  | .vsqrt t d a => Sys2Proof.Machine.execVsqrt t d a s
  | .vdiv t d a b => Sys2Proof.Machine.execVdiv t d a b s
  | .vexp2 t d a => Sys2Proof.Machine.execVexp2 t d a s
  | .vlog2 t d a => Sys2Proof.Machine.execVlog2 t d a s
  | .vtanh t d a => Sys2Proof.Machine.execVtanh t d a s
  | .vsigm t d a => Sys2Proof.Machine.execVsigm t d a s
  | .vld d a sz am ea => Sys2Proof.Machine.execVld d a sz am ea s
  | .vst d a sz am ea => Sys2Proof.Machine.execVst d a sz am ea s
  | .vsacc d a b => Sys2Proof.Machine.execVsacc d a b s
  | .vxpk d a => Sys2Proof.Machine.execVxpk d a s
  | .vxacc d a => Sys2Proof.Machine.execVxacc d a s
  | .vxfin d a => Sys2Proof.Machine.execVxfin d a s
  | .vbsc d a b => Sys2Proof.Machine.execVbsc d a b s
  | .vmov t d a => Sys2Proof.Machine.execVmov t d a s
  | .vzero t d => Sys2Proof.Machine.execVzero t d s
  | .vfill t d a => Sys2Proof.Machine.execVfill t d a s
  | .vkmov t d a => Sys2Proof.Machine.execVkmov t d a s
  | .vwbc t d a b => Sys2Proof.Machine.execVwbc t d a b s
  | .tref a b => Sys2Proof.Machine.execTref a b s
  | .tdrop a b => Sys2Proof.Machine.execTdrop a b s
  | .tinfo d a b => Sys2Proof.Machine.execTinfo d a b s
  | .tchk d a => Sys2Proof.Machine.execTchk d a s
  | .tdropAll a b => Sys2Proof.Machine.execTdropAll a b s
  | .qbind q a b => Sys2Proof.Machine.execQbind q a b s
  | .qunb q => Sys2Proof.Machine.execQunb q s
  | .qstat d q => Sys2Proof.Machine.execQstat d q s
  | .qpeek d q => Sys2Proof.Machine.execQpeek d q s
  | .vrowSet d a => Sys2Proof.Machine.execVrowSet d a s
  | .vrowGet d => Sys2Proof.Machine.execVrowGet d s
  | .logon => Sys2Proof.Machine.execLogon s
  | .logoff => Sys2Proof.Machine.execLogoff s
  | .logmark a => Sys2Proof.Machine.execLogmark a s
  | .mmul o => Sys2Proof.Machine.execMmul o s
  | .mmult o => Sys2Proof.Machine.execMmult o s
  | .mgrp o => Sys2Proof.Machine.execMgrp o s
  | .mq4 o => Sys2Proof.Machine.execMq4 o s
  | .msacc o => Sys2Proof.Machine.execMsacc o s
  | .mzero o => Sys2Proof.Machine.execMzero o s
  | .mldz o => Sys2Proof.Machine.execMldz o s
  | .mstz o => Sys2Proof.Machine.execMstz o s
  | .mrd o => Sys2Proof.Machine.execMrd o s
  | .mwr o => Sys2Proof.Machine.execMwr o s
  | .mrec o => Sys2Proof.Machine.execMrec o s
  | .mcmd o => Sys2Proof.Machine.execMcmd o s
  | .mcmdGrant o => Sys2Proof.Machine.execMcmdGrant o s
  | .mwait o => Sys2Proof.Machine.execMwait o s
  | .tnew o => Sys2Proof.Machine.execTnew o s
  | .tfree o => Sys2Proof.Machine.execTfree o s
  | .tvst o => Sys2Proof.Machine.execTvst o s
  | .tvld o => Sys2Proof.Machine.execTvld o s
  | .tvldc o => Sys2Proof.Machine.execTvldc o s
  | .tvw o => Sys2Proof.Machine.execTvw o s
  | .tdecl o => Sys2Proof.Machine.execTdecl o s
  | .tten o => Sys2Proof.Machine.execTten o s
  | .trel o => Sys2Proof.Machine.execTrel o s
  | .tsplit o => Sys2Proof.Machine.execTsplit o s
  | .tmerge o => Sys2Proof.Machine.execTmerge o s
  | .thalo o => Sys2Proof.Machine.execThalo o s
  | .cas o => Sys2Proof.Machine.execCas o s
  | .casq o => Sys2Proof.Machine.execCasq o s
  | .ldacq o => Sys2Proof.Machine.execLdacq o s
  | .strel o => Sys2Proof.Machine.execStrel o s
  | .cp o => Sys2Proof.Machine.execCp o s
  | .cp2d o => Sys2Proof.Machine.execCp2d o s
  | .cpf o => Sys2Proof.Machine.execCpf o s
  | .cpg o => Sys2Proof.Machine.execCpg o s
  | .cps o => Sys2Proof.Machine.execCps o s
  | .cpq o => Sys2Proof.Machine.execCpq o s
  | .rld o => Sys2Proof.Machine.execRld o s
  | .rst o => Sys2Proof.Machine.execRst o s
  | .ramo o => Sys2Proof.Machine.execRamo o s
  | .rcas o => Sys2Proof.Machine.execRcas o s
  | .rcall o => Sys2Proof.Machine.execRcall o s
  | .rnote o => Sys2Proof.Machine.execRnote o s
  | .rfence o => Sys2Proof.Machine.execRfence o s
  | .rget o => Sys2Proof.Machine.execRget o s
  | .rput o => Sys2Proof.Machine.execRput o s
  | .rkreg o => Sys2Proof.Machine.execRkreg o s
  | .rkrev o => Sys2Proof.Machine.execRkrev o s
  | .mighint o => Sys2Proof.Machine.execMighint o s
  | .pgpin o => Sys2Proof.Machine.execPgpin o s
  | .pgret o => Sys2Proof.Machine.execPgret o s
  | .logring o => Sys2Proof.Machine.execLogring o s
  | .keyset o => Sys2Proof.Machine.execKeyset o s
  | .coreseal o => Sys2Proof.Machine.execCoreseal o s
  | .launch o => Sys2Proof.Machine.execLaunch o s
  | .tspawn o => Sys2Proof.Machine.execTspawn o s
  | .lwait o => Sys2Proof.Machine.execLwait o s
  | .prio o => Sys2Proof.Machine.execPrio o s
  | .resetRelease => Sys2Proof.Machine.execResetRelease s
  | .lossOfMainRails => Sys2Proof.Machine.execLossOfMainRails s
  | .linkRetrained link => Sys2Proof.Machine.execLinkRetrained link s
  | .zenithStateLost die => Sys2Proof.Machine.execZenithStateLost die s
  | .queueCreditReturn t q => Sys2Proof.Machine.execQueueCreditReturn t q s
  | .unallocatedEncoding e => Sys2Proof.Machine.execUnallocatedEncoding e s
  | .instructionFetchFault e => Sys2Proof.Machine.execInstructionFetchFault e s

end Sys2Proof.Machine
end

