-- ==== Sys2Proof/Machine/Step.lean ====
section
/-!
DEFINITION. One step of the module (log 3): the oldest message or input, else a timer that is due, else one instruction of the
first ready slot in issue order, else an idle cycle.
-/
namespace Sys2Proof.Machine
open Sys2Proof

noncomputable section

/-- The first slot whose instruction issues. A slot that turns out not to be ready leaves only what its attempt has noted. DESIGN CHOICE, log 3. -/
def issue : List (Nat × Nat) → State → Host.Outcome State Fault Refusal
  | [], s => .next s.idle
  | (c, t) :: rest, s =>
    match s.selected c t with
    | none => issue rest s
    | some m =>
      match fetched m with
      | (s1, none) => issue rest s1
      | (s1, some i) =>
        match exec i { s1 with cur := (c, t) } with
        | .next s2 =>
          if s2.stalled then issue rest { s2 with stalled := false }
          else if notIssued i then .next { s2 with now := s2.now + 1 } else .next (s2.issued c t)
        | .fault f => .fault f
        | .refused r => .refused r

/-- One step. DESIGN CHOICE, log 3. -/
def step (s : State) : Host.Outcome State Fault Refusal :=
  match s.events with
  | e :: rest => exec e { s with events := rest, stalled := false }
  | [] =>
    match s.timers with
    | (due, e) :: rest => if due ≤ s.now then exec e { s with timers := rest, stalled := false } else issue s.candidates s
    | [] => issue s.candidates s

/-- The machine with an instruction of `nbits` table bits `w` placed where the next step fetches. DESIGN CHOICE, log 12. -/
def State.withFetchWord (s : State) (nbits w : Nat) : State := s.place (nbits / 32) w

end

end Sys2Proof.Machine
end

