-- ==== Sys2Proof/Safety.lean ====
section
/-!
DEFINITION. The terms claims are stated in: a safe step, memories in canonical form, an instruction that issues (every check before its
effect passes), the state its commit leaves, and the parts of a thread and a core that an instruction leaves alone.
-/
namespace Sys2Proof.Safety
open Sys2Proof Sys2Proof.Machine

noncomputable section

/-- A step answers a next state. -/
def SafeStep (s : State) : Prop := ∃ t, step s = .next t

/-- Every memory of the machine is canonical. -/
def MemoryOk (s : State) : Prop := s.mem.wf = true ∧ ∀ c ∈ s.cores, c.mem.wf = true

/-- Instruction `i` is to run on the selected thread of `s` and every check before its effect passes (R132, R236): the thread is ready, no
trap of the gate is due, no mismatch is armed, its K field does not gate it off, and it names no token of an engine command with a release
flag (R218). `m` is what the effect works on. -/
def Issues (i : Instr) (s : State) (m : M) : Prop :=
  ∃ m0, enter i s = some m0 ∧ m = m0.fresh ∧ gate i m = .ok () ∧ m.core.sundog = 0 ∧ gatedOff m i = false ∧ m.tokenHits i = []

/-- The issue stage passes the instruction (R132, R140, R143, R144, R148): no absent register, no deferred fault to report, nothing pending,
no queue to wait for, and a free vector read stage. -/
def MayIssue (i : Instr) (m : M) : Prop :=
  (fieldsOf i).findSome? (fun u => (useVreg u).bind fun n => if n < 6 * m.core.vrows ∨ m.thr.oldRows.isSome then none else some n) = none ∧
    m.deferredBy (fieldsOf i) = none ∧ (ownUses i (fieldsOf i)).any m.pendingUse = false ∧ m.queueWait (fieldsOf i) = false ∧
    (isVector i && decide (m.st.now < m.core.vbusy)) = false

/-- The state after `i` has committed with the effect `m'`. -/
def committed (i : Instr) (m m' : M) : State := (retire i m m').flush

/-- Running `i` completes: its answer is the next state in which it has committed with the effect `m'`. -/
def Completes (i : Instr) (s : State) (m m' : M) : Prop := exec i s = .next (committed i m m')

/-- The state in which the selected thread has taken a trap (R233); with the instruction, its one-shot accesses and its place at the matrix unit
end. -/
def trapped (m : M) (cause : BitVec 8) (val : W64) : State := ((m.takeTrap cause val).flush.dropOneShots m.who).leaveUnit m.core.quadId m.who

/-- The next state in which the selected thread has taken a trap instead. -/
def Traps (i : Instr) (s : State) (m : M) (cause : BitVec 8) (val : W64) : Prop := exec i s = .next (trapped m cause val)

/-- The unit of the core's quad is idle and no command waits for it (R155). -/
def UnitIdle (m : M) : Prop :=
  (m.st.quad m.core.quadId).act = none ∧ (m.st.quad m.core.quadId).queue = [] ∧ (m.st.quad m.core.quadId).remq = []

/-- The unit taken by the thread's command, which writes the accumulators `accs`, and given up when the command has ended. -/
def withUnit (m : M) (accs : List (BitVec 2)) : M :=
  { m with st := m.st.setQuad { m.st.quad m.core.quadId with act := some (.thread { core := m.core.id, thr := m.who, accs := accs } false) } }
def offUnit (m : M) : M := { m with st := m.st.leaveUnit m.core.quadId m.who }

/-- Operand `r` of `n` bytes is in local memory and passes every check: tag, type 1, the permissions `ps`, bounds and alignment (R319), and
of the register window a present register that is not pending (R144, R153). -/
def LocalOk (m : M) (r : MRef) (ps : List Perm) (n : Nat) : Prop :=
  r.c.tag = true ∧ r.c.kind = 1 ∧ ps.all (capHas r.c) = true ∧ r.c.base ≤ r.va ∧ r.va + n ≤ r.c.top ∧ r.va % n = 0 ∧
    m.winAbsent r.va n = none ∧ m.winPending r.va n = false

/-- `n` bytes of `v` stored in local memory, with the granule's tag where one is given. -/
def storedLocal (m : M) (a n v : Nat) (tag : Option Bool) : M :=
  match tag with
  | some t => (m.localWrite a n v).putLocalTag a t
  | none => m.localWrite a n v

/-- The dies are the same but for requests that a Lull holds back (R92). -/
def DiesSame (s t : State) : Prop := ∀ i, { t.dies.get i with lullHeld := (s.dies.get i).lullHeld } = s.dies.get i

/-- The module is the same but for its cores, and for messages and packets on their way. -/
def ModuleSame (s t : State) : Prop :=
  { t with cores := s.cores, links := s.links, outbox := s.outbox, events := s.events, stalled := s.stalled, dies := s.dies } = s ∧ DiesSame s t

/-- Thread `u` is thread `t` but for its PC and loop counts, its queue registers, its operand latches and row retention, and what an
instruction that waits keeps until it completes. -/
def ThreadSame (t u : Thread) : Prop :=
  { u with pc := t.pc, lcount := t.lcount, q := t.q, latchA := t.latchA, latchB := t.latchB, latchC := t.latchC, retained := t.retained, granted := t.granted, tile := t.tile, held := t.held, pendTrap := t.pendTrap, waitEnd := t.waitEnd, oldRows := t.oldRows } = t

/-- The threads of core `k` other than `u` are those of `c` but for their queue registers. -/
def OthersSame (u : Fin 8) (c k : Core) : Prop := ∀ x : Fin 8, x ≠ u → { k.thr.get x with q := (c.thr.get x).q } = c.thr.get x

/-- Core `k` is core `c` but for its threads, its team registers, its local memory, and what the vector read stage and the checker count. -/
def CoreSame (c k : Core) : Prop :=
  { k with thr := c.thr, w := c.w, mem := c.mem, dirty := c.dirty, vbusy := c.vbusy, vpipe := c.vpipe, sundogC := c.sundogC } = c

/-- The bounds that a capability's fields spell, before they are checked against the address space (R306). -/
def capLow (c : Cap) : Int := ((c.cursor.toNat / 2 ^ (c.exp + 17) : Nat) - c.boff) * 2 ^ (c.exp + 17) + c.bm * 2 ^ c.exp
def capHigh (c : Cap) : Int := capLow c + c.lm * 2 ^ c.exp

/-- A capability with bounds spells bounds in the address space: what every instruction that makes one keeps (R307). -/
def SoundCap (c : Cap) : Prop := c.bounded = true → c.exp = 63 ∨ (c.exp ≤ 47 ∧ 0 ≤ capLow c ∧ capHigh c ≤ 2 ^ 64)

/-- A tagged `r` admits nothing that `c` does not (R307, R308): `c` is tagged, its bounds hold those of `r`, and its permissions those of `r`. -/
def NotWider (r c : Cap) : Prop :=
  r.tag = true → c.tag = true ∧ (r.bounded = true → c.base ≤ r.base ∧ r.top ≤ c.top) ∧ r.permBits &&& c.permBits = r.permBits

end

end Sys2Proof.Safety
end

