-- ==== Sys2Proof/WellFormed.lean ====
section
/-!
DEFINITION. Which terms of `Instr` are instructions of the hardware: those with words of their own, whose encoding raises
neither `ILLEGAL` nor `RESERVED_FIELD` (R275–R283). Each check is one the decoder makes of the words.
-/
namespace Sys2Proof

noncomputable section

/-- Whether a term stands for words: a base word, a form of one, or an extended-only operation; in a pair word the second is a
base word with OP 0x20–0x2B (R278); `mcmd.grant` has X[1] = 1 (R377). The rows that are steps of the module have none. -/
def Instr.hasWords (i : Instr) : Bool :=
  match i with
  | .pairWord p v => (sopKind p.sop).isSome && (match baseFmt v with
    | some f => vecSlot f.word
    | none => false)
  | .widenedForm _ b | .literalForm _ _ b => (baseFmt b).isSome
  | .mcmdGrant o => o.x.x.getLsbD 1
  | i => (encode i).length != 0

/-- An instruction whose fields are all legal and whose required-zero fields are zero. -/
def wellFormed (i : Instr) : Bool :=
  i.hasWords && !illegal i && decide (canon i = i) && (scMissing i).isNone

end

end Sys2Proof
end

