-- ==== Sys2Proof/Certificates/Slice0/Obligations.lean ====
section
/-!
DEFINITION. The statements about this model. `Issues i s m` says that instruction `i` is to run on the selected thread and every check
before its effect passes; `Completes i s m m'` says that `exec i s` answers the next state in which `i` has committed with effect `m'`.
-/
open Sys2Proof Sys2Proof.Machine Sys2Proof.Safety

noncomputable section

/-- R297: the IALU functions in their base words write the result of the table to D, modulo 2⁶⁴, with tag 0, and raise no flag. R297: `clz` and `ctz` count from the top and from the bottom to the first one bit, and give 64 for 0. -/
def Obligations.IntegerResults : Prop := (∀ (s : State) (m : M),
  (∀ d a b : F6, Issues (.add d a b) s m → Completes (.add d a b) s m (m.wrInt d (m.int a + m.int b))) ∧
  (∀ d a b : F6, Issues (.sub d a b) s m → Completes (.sub d a b) s m (m.wrInt d (m.int a - m.int b))) ∧
  (∀ d a b : F6, Issues (.and d a b) s m → Completes (.and d a b) s m (m.wrInt d (m.int a &&& m.int b))) ∧
  (∀ d a b : F6, Issues (.or d a b) s m → Completes (.or d a b) s m (m.wrInt d (m.int a ||| m.int b))) ∧
  (∀ d a b : F6, Issues (.xor d a b) s m → Completes (.xor d a b) s m (m.wrInt d (m.int a ^^^ m.int b))) ∧
  (∀ d a b : F6, Issues (.andn d a b) s m → Completes (.andn d a b) s m (m.wrInt d (m.int a &&& ~~~m.int b))) ∧
  (∀ d a b : F6, Issues (.orn d a b) s m → Completes (.orn d a b) s m (m.wrInt d (m.int a ||| ~~~m.int b))) ∧
  (∀ d a b : F6, Issues (.sll d a b) s m → Completes (.sll d a b) s m (m.wrInt d (m.int a <<< ((m.int b).toNat % 64)))) ∧
  (∀ d a b : F6, Issues (.srl d a b) s m → Completes (.srl d a b) s m (m.wrInt d (m.int a >>> ((m.int b).toNat % 64)))) ∧
  (∀ d a b : F6, Issues (.sra d a b) s m → Completes (.sra d a b) s m (m.wrInt d ((m.int a).sshiftRight ((m.int b).toNat % 64)))) ∧
  (∀ d a b : F6, Issues (.rol d a b) s m → Completes (.rol d a b) s m (m.wrInt d ((m.int a <<< ((m.int b).toNat % 64)) + (m.int a >>> (64 - (m.int b).toNat % 64))))) ∧
  (∀ d a b : F6, Issues (.min d a b) s m → Completes (.min d a b) s m (m.wrInt d (if (m.int a).slt (m.int b) then m.int a else m.int b))) ∧
  (∀ d a b : F6, Issues (.max d a b) s m → Completes (.max d a b) s m (m.wrInt d (if (m.int a).slt (m.int b) then m.int b else m.int a))) ∧
  (∀ d a b : F6, Issues (.minu d a b) s m → Completes (.minu d a b) s m (m.wrInt d (if (m.int a).ult (m.int b) then m.int a else m.int b))) ∧
  (∀ d a b : F6, Issues (.maxu d a b) s m → Completes (.maxu d a b) s m (m.wrInt d (if (m.int a).ult (m.int b) then m.int b else m.int a))) ∧
  (∀ d a b : F6, Issues (.mul d a b) s m → Completes (.mul d a b) s m (m.wrInt d (m.int a * m.int b))) ∧
  (∀ d a b : F6, Issues (.mulh d a b) s m → Completes (.mulh d a b) s m (m.wrInt d (((m.int a).signExtend 128 * (m.int b).signExtend 128).extractLsb' 64 64))) ∧
  (∀ d a b : F6, Issues (.mulhu d a b) s m → Completes (.mulhu d a b) s m (m.wrInt d (((m.int a).setWidth 128 * (m.int b).setWidth 128).extractLsb' 64 64))) ∧
  (∀ d a : F6, Issues (.popc d a) s m → Completes (.popc d a) s m (m.wrInt d (BitVec.ofNat 64 ((List.finRange 64).countP fun i => (m.int a).getLsbD i.val)))) ∧
  (∀ d a b : F6, Issues (.sext d a b) s m → Completes (.sext d a b) s m (m.wrInt d (((m.int a).setWidth (b.toNat + 1)).signExtend 64))) ∧
  (∀ d a b : F6, Issues (.zext d a b) s m → Completes (.zext d a b) s m (m.wrInt d (((m.int a).setWidth (b.toNat + 1)).setWidth 64)))) ∧
  (∀ (s : State) (m : M),
  (∀ (d a : F6) (n : Nat), n < 64 → (m.int a).getLsbD (63 - n) = true → ((∀ k, k < n → (m.int a).getLsbD (63 - k) = false)) → Issues (.clz d a) s m → Completes (.clz d a) s m (m.wrInt d (BitVec.ofNat 64 n))) ∧
  (∀ d a : F6, m.int a = 0 → Issues (.clz d a) s m → Completes (.clz d a) s m (m.wrInt d (64))) ∧
  (∀ (d a : F6) (n : Nat), n < 64 → (m.int a).getLsbD n = true → ((∀ k, k < n → (m.int a).getLsbD k = false)) → Issues (.ctz d a) s m → Completes (.ctz d a) s m (m.wrInt d (BitVec.ofNat 64 n))) ∧
  (∀ d a : F6, m.int a = 0 → Issues (.ctz d a) s m → Completes (.ctz d a) s m (m.wrInt d (64))))

/-- R298: division and remainder for every operand pair: division by zero and the one signed overflow have the values the rule gives, truncation is toward zero, and nothing traps. -/
def Obligations.DivisionResults : Prop := ∀ (s : State) (m : M),
  (∀ d a b : F6, Issues (.div d a b) s m → Completes (.div d a b) s m (m.wrInt d (if m.int b = 0 then -1 else if m.int a = BitVec.intMin 64 ∧ m.int b = -1 then BitVec.intMin 64 else (m.int a).sdiv (m.int b)))) ∧
  (∀ d a b : F6, Issues (.rem d a b) s m → Completes (.rem d a b) s m (m.wrInt d (if m.int b = 0 then m.int a else if m.int a = BitVec.intMin 64 ∧ m.int b = -1 then 0 else (m.int a).srem (m.int b)))) ∧
  (∀ d a b : F6, Issues (.divu d a b) s m → Completes (.divu d a b) s m (m.wrInt d (if m.int b = 0 then -1 else m.int a / m.int b))) ∧
  (∀ d a b : F6, Issues (.remu d a b) s m → Completes (.remu d a b) s m (m.wrInt d (if m.int b = 0 then m.int a else m.int a % m.int b)))

/-- R299: `addc` gives the carry out of a + b + c and `subb` the borrow of a − b − c; the carry-in is 0 in the base form and bit 0 of C in the widened form. -/
def Obligations.CarryAndBorrow : Prop := ∀ (s : State) (m : M),
  (∀ d a b : F6, Issues (.addc d a b) s m → Completes (.addc d a b) s m (m.wrInt d (if 2 ^ 64 ≤ (m.int a).toNat + (m.int b).toNat then 1 else 0))) ∧
  (∀ d a b : F6, Issues (.subb d a b) s m → Completes (.subb d a b) s m (m.wrInt d (if (m.int a).toNat < (m.int b).toNat then 1 else 0))) ∧
  (∀ (x : Ext) (d a b : F6), Issues (.widenedForm x (.addc d a b)) s m → Completes (.widenedForm x (.addc d a b)) s m (m.wrInt d (if 2 ^ 64 ≤ (m.int a).toNat + (m.int b).toNat + (m.int x.c).toNat % 2 then 1 else 0))) ∧
  (∀ (x : Ext) (d a b : F6), Issues (.widenedForm x (.subb d a b)) s m → Completes (.widenedForm x (.subb d a b)) s m (m.wrInt d (if (m.int a).toNat < (m.int b).toNat + (m.int x.c).toNat % 2 then 1 else 0)))

/-- R300: the functions with an immediate: the base word's I10 sign-extended, IMM32 sign-extended in a widened form, LIT64 in a form with a literal; shifts by I10[5:0] or IMM32[5:0]. R303: the bit-field functions, with pos and len of I10 in the base words and of IMM32 in the widened forms. -/
def Obligations.ImmediateAndBitFieldResults : Prop := (∀ (s : State) (m : M),
  (∀ (d a : F6) (imm : BitVec 10), Issues (.addi d a imm) s m → Completes (.addi d a imm) s m (m.wrInt d (m.int a + imm.signExtend 64))) ∧
  (∀ (x : Ext) (d a : F6), Issues (.widenedForm x (.addi d a 0)) s m → Completes (.widenedForm x (.addi d a 0)) s m (m.wrInt d (m.int a + x.imm.signExtend 64))) ∧
  (∀ (x : Ext) (l : W64) (d a : F6), Issues (.literalForm x l (.addi d a 0)) s m → Completes (.literalForm x l (.addi d a 0)) s m (m.wrInt d (m.int a + l))) ∧
  (∀ (d a : F6) (imm : BitVec 10), Issues (.andi d a imm) s m → Completes (.andi d a imm) s m (m.wrInt d (m.int a &&& imm.signExtend 64))) ∧
  (∀ (x : Ext) (d a : F6), Issues (.widenedForm x (.andi d a 0)) s m → Completes (.widenedForm x (.andi d a 0)) s m (m.wrInt d (m.int a &&& x.imm.signExtend 64))) ∧
  (∀ (x : Ext) (l : W64) (d a : F6), Issues (.literalForm x l (.andi d a 0)) s m → Completes (.literalForm x l (.andi d a 0)) s m (m.wrInt d (m.int a &&& l))) ∧
  (∀ (d a : F6) (imm : BitVec 10), Issues (.ori d a imm) s m → Completes (.ori d a imm) s m (m.wrInt d (m.int a ||| imm.signExtend 64))) ∧
  (∀ (x : Ext) (d a : F6), Issues (.widenedForm x (.ori d a 0)) s m → Completes (.widenedForm x (.ori d a 0)) s m (m.wrInt d (m.int a ||| x.imm.signExtend 64))) ∧
  (∀ (x : Ext) (l : W64) (d a : F6), Issues (.literalForm x l (.ori d a 0)) s m → Completes (.literalForm x l (.ori d a 0)) s m (m.wrInt d (m.int a ||| l))) ∧
  (∀ (d a : F6) (imm : BitVec 10), Issues (.xori d a imm) s m → Completes (.xori d a imm) s m (m.wrInt d (m.int a ^^^ imm.signExtend 64))) ∧
  (∀ (x : Ext) (d a : F6), Issues (.widenedForm x (.xori d a 0)) s m → Completes (.widenedForm x (.xori d a 0)) s m (m.wrInt d (m.int a ^^^ x.imm.signExtend 64))) ∧
  (∀ (x : Ext) (l : W64) (d a : F6), Issues (.literalForm x l (.xori d a 0)) s m → Completes (.literalForm x l (.xori d a 0)) s m (m.wrInt d (m.int a ^^^ l))) ∧
  (∀ d a n : F6, Issues (.slli d a n) s m → Completes (.slli d a n) s m (m.wrInt d (m.int a <<< n.toNat))) ∧
  (∀ (x : Ext) (d a : F6), Issues (.widenedForm x (.slli d a 0)) s m → Completes (.widenedForm x (.slli d a 0)) s m (m.wrInt d (m.int a <<< (x.imm.toNat % 64)))) ∧
  (∀ d a n : F6, Issues (.srli d a n) s m → Completes (.srli d a n) s m (m.wrInt d (m.int a >>> n.toNat))) ∧
  (∀ (x : Ext) (d a : F6), Issues (.widenedForm x (.srli d a 0)) s m → Completes (.widenedForm x (.srli d a 0)) s m (m.wrInt d (m.int a >>> (x.imm.toNat % 64)))) ∧
  (∀ d a n : F6, Issues (.srai d a n) s m → Completes (.srai d a n) s m (m.wrInt d ((m.int a).sshiftRight n.toNat))) ∧
  (∀ (x : Ext) (d a : F6), Issues (.widenedForm x (.srai d a 0)) s m → Completes (.widenedForm x (.srai d a 0)) s m (m.wrInt d ((m.int a).sshiftRight (x.imm.toNat % 64)))) ∧
  (∀ d a n : F6, Issues (.roli d a n) s m → Completes (.roli d a n) s m (m.wrInt d ((m.int a <<< n.toNat) + (m.int a >>> (64 - n.toNat))))) ∧
  (∀ (x : Ext) (d a : F6), Issues (.widenedForm x (.roli d a 0)) s m → Completes (.widenedForm x (.roli d a 0)) s m (m.wrInt d ((m.int a <<< (x.imm.toNat % 64)) + (m.int a >>> (64 - (x.imm.toNat % 64))))))) ∧
  (∀ (s : State) (m : M),
  (∀ (d a : F6) (pos len : BitVec 5), Issues (.bfx d a pos len) s m → Completes (.bfx d a pos len) s m (m.wrInt d (((m.int a).extractLsb' pos.toNat (len.toNat + 1)).setWidth 64))) ∧
  (∀ (d a : F6) (pos len : BitVec 5), Issues (.bfxs d a pos len) s m → Completes (.bfxs d a pos len) s m (m.wrInt d (((m.int a).extractLsb' pos.toNat (len.toNat + 1)).signExtend 64))) ∧
  (∀ (d a : F6) (pos len : BitVec 5), Issues (.bfi d a pos len) s m → Completes (.bfi d a pos len) s m (m.wrInt d ((m.int d &&& ~~~(BitVec.ofNat 64 ((2 ^ (len.toNat + 1) - 1) * 2 ^ pos.toNat))) ||| (((m.int a) <<< pos.toNat) &&& BitVec.ofNat 64 ((2 ^ (len.toNat + 1) - 1) * 2 ^ pos.toNat))))) ∧
  (∀ (d a : F6) (pos len : BitVec 5), Issues (.bfclr d a pos len) s m → Completes (.bfclr d a pos len) s m (m.wrInt d (m.int a &&& ~~~(BitVec.ofNat 64 ((2 ^ (len.toNat + 1) - 1) * 2 ^ pos.toNat))))) ∧
  (∀ (x : Ext) (d a : F6), Issues (.widenedForm x (.bfx d a 0 0)) s m → Completes (.widenedForm x (.bfx d a 0 0)) s m (m.wrInt d (((m.int a).extractLsb' (x.imm.toNat % 64) (x.imm.toNat / 64 % 64 + 1)).setWidth 64))) ∧
  (∀ (x : Ext) (d a : F6), Issues (.widenedForm x (.bfxs d a 0 0)) s m → Completes (.widenedForm x (.bfxs d a 0 0)) s m (m.wrInt d (((m.int a).extractLsb' (x.imm.toNat % 64) (x.imm.toNat / 64 % 64 + 1)).signExtend 64))) ∧
  (∀ (x : Ext) (d a : F6), Issues (.widenedForm x (.bfi d a 0 0)) s m → Completes (.widenedForm x (.bfi d a 0 0)) s m (m.wrInt d ((m.int d &&& ~~~(BitVec.ofNat 64 ((2 ^ (x.imm.toNat / 64 % 64 + 1) - 1) * 2 ^ (x.imm.toNat % 64)))) ||| (((m.int a) <<< (x.imm.toNat % 64)) &&& BitVec.ofNat 64 ((2 ^ (x.imm.toNat / 64 % 64 + 1) - 1) * 2 ^ (x.imm.toNat % 64)))))) ∧
  (∀ (x : Ext) (d a : F6), Issues (.widenedForm x (.bfclr d a 0 0)) s m → Completes (.widenedForm x (.bfclr d a 0 0)) s m (m.wrInt d (m.int a &&& ~~~(BitVec.ofNat 64 ((2 ^ (x.imm.toNat / 64 % 64 + 1) - 1) * 2 ^ (x.imm.toNat % 64)))))))

/-- R302, R304, R305: constants, code addresses, and the two instructions that copy a whole register with its tag. R302: the mask operations. -/
def Obligations.ConstantsCopiesAndMasks : Prop := (∀ (s : State) (m : M),
  (∀ (d : F6) (imm : BitVec 18), Issues (.mvi d imm) s m → Completes (.mvi d imm) s m (m.wrInt d (imm.signExtend 64))) ∧
  (∀ (x : Ext) (d : F6), Issues (.widenedForm x (.mvi d 0)) s m → Completes (.widenedForm x (.mvi d 0)) s m (m.wrInt d (x.imm.signExtend 64))) ∧
  (∀ (x : Ext) (l : W64) (d : F6), Issues (.literalForm x l (.mvi d 0)) s m → Completes (.literalForm x l (.mvi d 0)) s m (m.wrInt d (l))) ∧
  (∀ (d : F6) (imm : BitVec 18), Issues (.adr d imm) s m → Completes (.adr d imm) s m (m.wr d (m.thr.pc.setCursor (m.thr.pc.cursor + 4 * imm.signExtend 64)))) ∧
  (∀ (x : Ext) (d : F6), Issues (.widenedForm x (.adr d 0)) s m → Completes (.widenedForm x (.adr d 0)) s m (m.wr d (m.thr.pc.setCursor (m.thr.pc.cursor + 4 * x.imm.signExtend 64)))) ∧
  (∀ d a : F6, Issues (.mov d a) s m → Completes (.mov d a) s m (m.wr d (m.src a))) ∧
  (∀ (k : BitVec 3) (d a b : F6), Issues (.sel k d a b) s m → Completes (.sel k d a b) s m (m.wr d (if (m.mask k).getLsbD 0 then m.src a else m.src b)))) ∧
  (∀ (s : State) (m : M),
  (∀ d a b : BitVec 3, Issues (.kand d a b) s m → Completes (.kand d a b) s m (m.setMask d (m.mask a &&& m.mask b))) ∧
  (∀ d a b : BitVec 3, Issues (.kor d a b) s m → Completes (.kor d a b) s m (m.setMask d (m.mask a ||| m.mask b))) ∧
  (∀ d a b : BitVec 3, Issues (.kxor d a b) s m → Completes (.kxor d a b) s m (m.setMask d (m.mask a ^^^ m.mask b))) ∧
  (∀ d a : BitVec 3, Issues (.knot d a) s m → Completes (.knot d a) s m (m.setMask d (~~~m.mask a))) ∧
  (∀ (d : BitVec 3) (a : F6), Issues (.kmovc d a) s m → Completes (.kmovc d a) s m (m.setMask d (m.int a))) ∧
  (∀ (d : F6) (a : BitVec 3), Issues (.kmovk d a) s m → Completes (.kmovk d a) s m (m.wrInt d (m.mask a))) ∧
  (∀ (d : F6) (a : BitVec 3), Issues (.kpop d a) s m → Completes (.kpop d a) s m (m.wrInt d (BitVec.ofNat 64 ((List.finRange 64).countP fun i => (m.mask a).getLsbD i.val)))) ∧
  (∀ (d : F6) (a : BitVec 3), m.mask a = 0 → Issues (.kfirst d a) s m → Completes (.kfirst d a) s m (m.wrInt d (64))) ∧
  (∀ (d : F6) (a : BitVec 3) (n : Nat), n < 64 → (m.mask a).getLsbD n = true → ((∀ k, k < n → (m.mask a).getLsbD k = false)) → Issues (.kfirst d a) s m → Completes (.kfirst d a) s m (m.wrInt d (BitVec.ofNat 64 n))))

/-- R301: a compare sets all 64 bits of the mask register when its condition holds and clears them otherwise. -/
def Obligations.CompareResults : Prop := ∀ (s : State) (m : M),
  (∀ (d : BitVec 3) (a b : F6), Issues (.ceq d a b) s m → Completes (.ceq d a b) s m (m.setMask d (if m.int a = m.int b then -1 else 0))) ∧
  (∀ (d : BitVec 3) (a b : F6), Issues (.cne d a b) s m → Completes (.cne d a b) s m (m.setMask d (if m.int a ≠ m.int b then -1 else 0))) ∧
  (∀ (d : BitVec 3) (a b : F6), Issues (.clt d a b) s m → Completes (.clt d a b) s m (m.setMask d (if (m.int a).slt (m.int b) then -1 else 0))) ∧
  (∀ (d : BitVec 3) (a b : F6), Issues (.cge d a b) s m → Completes (.cge d a b) s m (m.setMask d (if (m.int b).sle (m.int a) then -1 else 0))) ∧
  (∀ (d : BitVec 3) (a b : F6), Issues (.cltu d a b) s m → Completes (.cltu d a b) s m (m.setMask d (if (m.int a).ult (m.int b) then -1 else 0))) ∧
  (∀ (d : BitVec 3) (a b : F6), Issues (.cgeu d a b) s m → Completes (.cgeu d a b) s m (m.setMask d (if (m.int b).ule (m.int a) then -1 else 0))) ∧
  (∀ (d : BitVec 3) (a b : F6), Issues (.ctst d a b) s m → Completes (.ctst d a b) s m (m.setMask d (if m.int a &&& m.int b ≠ 0 then -1 else 0)))

/-- R308: the capability functions where their checks on A pass; `newBounds` is the result of setting bounds and `bndTrap` says when it traps. The model's own readings that it rests on: log 18. -/
def Obligations.CapabilityResults : Prop := ∀ (s : State) (m : M),
  (∀ d a b : F6, (m.src a).tag = true → (m.src a).kind ∈ [0, 1] → bndTrap (m.src a) (newBounds (m.src a) (m.int b)) (m.int b) false = none → Issues (.cbnd d a b) s m → Completes (.cbnd d a b) s m (m.wr d (newBounds (m.src a) (m.int b)))) ∧
  (∀ d a b : F6, (m.src a).tag = true → (m.src a).kind ∈ [0, 1] → bndTrap (m.src a) (newBounds (m.src a) (m.int b)) (m.int b) true = none → Issues (.cbndx d a b) s m → Completes (.cbndx d a b) s m (m.wr d (newBounds (m.src a) (m.int b)))) ∧
  (∀ d a b : F6, (((m.src a).tag = true → (m.src a).kind ∈ [0, 1, 2, 3, 5, 6])) → Issues (.cprm d a b) s m → Completes (.cprm d a b) s m (m.wr d ⟨setField (m.src a).bits (permField (m.src a).ty).1 (permField (m.src a).ty).2 ((m.src a).permBits &&& (m.int b).toNat), (m.src a).tag⟩)) ∧
  (∀ d a b : F6, (((m.src a).tag = true → (m.src a).kind ∈ [0, 1, 3, 6])) → Issues (.cadd d a b) s m → Completes (.cadd d a b) s m (m.wr d ((m.src a).setCursor ((m.src a).cursor + m.int b)))) ∧
  (∀ d a b : F6, (((m.src a).tag = true → (m.src a).kind ∈ [0, 1, 3, 6])) → Issues (.cset d a b) s m → Completes (.cset d a b) s m (m.wr d ((m.src a).setCursor (m.int b)))) ∧
  (∀ d a : F6, Issues (.cbase d a) s m → Completes (.cbase d a) s m (m.wrInt d (if (m.src a).ty ∈ [0, 1, 4] then BitVec.ofNat 64 (m.src a).base else 0))) ∧
  (∀ d a : F6, Issues (.clen d a) s m → Completes (.clen d a) s m (m.wrInt d (if (m.src a).ty ∈ [0, 1, 4] then (if (m.src a).top - (m.src a).base = 2 ^ 64 then -1 else BitVec.ofNat 64 ((m.src a).top - (m.src a).base)) else 0))) ∧
  (∀ d a : F6, Issues (.cperm d a) s m → Completes (.cperm d a) s m (m.wrInt d (BitVec.ofNat 64 (m.src a).permBits))) ∧
  (∀ d a : F6, Issues (.ctype d a) s m → Completes (.ctype d a) s m (m.wrInt d (((m.src a).bits.extractLsb' 118 4).setWidth 64))) ∧
  (∀ d a : F6, Issues (.ctag d a) s m → Completes (.ctag d a) s m (m.wrInt d (if (m.src a).tag then 1 else 0))) ∧
  (∀ d a : F6, Issues (.cclr d a) s m → Completes (.cclr d a) s m (m.wr d ⟨(m.src a).bits, false⟩)) ∧
  (∀ d a : F6, (m.src a).tag = true → (m.src a).kind = 0 → (m.src a).bits.getLsbD 108 = true → Issues (.cseal d a) s m → Completes (.cseal d a) s m (m.wr d ⟨setField (m.src a).bits 118 4 4, true⟩)) ∧
  (∀ d a b : F6, Issues (.capCeq d a b) s m → Completes (.capCeq d a b) s m (m.wrInt d (if m.src a = m.src b then 1 else 0))) ∧
  (∀ d a b : F6, Issues (.csub d a b) s m → Completes (.csub d a b) s m (m.wrInt d (m.int a - m.int b)))

/-- R310: the PC-relative transfers: a branch transfers to PC + 4 × offset when its condition holds and falls through otherwise; `bra`, `jmp` and `call` always transfer, and `call` writes the return capability to `c30`. The target must lie within the PC's bounds (R309); TransferTraps says what happens otherwise. -/
def Obligations.RelativeTransfers : Prop := ∀ (s : State) (m : M),
  (∀ (k : BitVec 3) (pol : Bool) (off : BitVec 18), ((m.mask k).getLsbD 0 ^^ pol) = true → m.thr.pc.base ≤ (m.thr.pc.cursor + 4 * off.signExtend 64).toNat → (m.thr.pc.cursor + 4 * off.signExtend 64).toNat + 4 ≤ m.thr.pc.top → Issues (.bk k pol off) s m → Completes (.bk k pol off) s m ({ m with npc := some (m.thr.pc.setCursor (m.thr.pc.cursor + 4 * off.signExtend 64)) })) ∧
  (∀ (k : BitVec 3) (pol : Bool) (off : BitVec 18), ((m.mask k).getLsbD 0 ^^ pol) = false → Issues (.bk k pol off) s m → Completes (.bk k pol off) s m (m)) ∧
  (∀ (r : F6) (off : BitVec 15), m.int r = 0 → m.thr.pc.base ≤ (m.thr.pc.cursor + 4 * off.signExtend 64).toNat → (m.thr.pc.cursor + 4 * off.signExtend 64).toNat + 4 ≤ m.thr.pc.top → Issues (.bz r off) s m → Completes (.bz r off) s m ({ m with npc := some (m.thr.pc.setCursor (m.thr.pc.cursor + 4 * off.signExtend 64)) })) ∧
  (∀ (r : F6) (off : BitVec 15), m.int r ≠ 0 → Issues (.bz r off) s m → Completes (.bz r off) s m (m)) ∧
  (∀ (r : F6) (off : BitVec 15), m.int r ≠ 0 → m.thr.pc.base ≤ (m.thr.pc.cursor + 4 * off.signExtend 64).toNat → (m.thr.pc.cursor + 4 * off.signExtend 64).toNat + 4 ≤ m.thr.pc.top → Issues (.bnz r off) s m → Completes (.bnz r off) s m ({ m with npc := some (m.thr.pc.setCursor (m.thr.pc.cursor + 4 * off.signExtend 64)) })) ∧
  (∀ (r : F6) (off : BitVec 15), m.int r = 0 → Issues (.bnz r off) s m → Completes (.bnz r off) s m (m)) ∧
  (∀ (r : F6) (off : BitVec 15), (m.int r).toInt < 0 → m.thr.pc.base ≤ (m.thr.pc.cursor + 4 * off.signExtend 64).toNat → (m.thr.pc.cursor + 4 * off.signExtend 64).toNat + 4 ≤ m.thr.pc.top → Issues (.bltz r off) s m → Completes (.bltz r off) s m ({ m with npc := some (m.thr.pc.setCursor (m.thr.pc.cursor + 4 * off.signExtend 64)) })) ∧
  (∀ (r : F6) (off : BitVec 15), (m.int r).toInt ≥ 0 → Issues (.bltz r off) s m → Completes (.bltz r off) s m (m)) ∧
  (∀ (r : F6) (off : BitVec 15), (m.int r).toInt ≥ 0 → m.thr.pc.base ≤ (m.thr.pc.cursor + 4 * off.signExtend 64).toNat → (m.thr.pc.cursor + 4 * off.signExtend 64).toNat + 4 ≤ m.thr.pc.top → Issues (.bgez r off) s m → Completes (.bgez r off) s m ({ m with npc := some (m.thr.pc.setCursor (m.thr.pc.cursor + 4 * off.signExtend 64)) })) ∧
  (∀ (r : F6) (off : BitVec 15), (m.int r).toInt < 0 → Issues (.bgez r off) s m → Completes (.bgez r off) s m (m)) ∧
  (∀ (r : F6) (off : BitVec 15), (m.int r).toInt ≤ 0 → m.thr.pc.base ≤ (m.thr.pc.cursor + 4 * off.signExtend 64).toNat → (m.thr.pc.cursor + 4 * off.signExtend 64).toNat + 4 ≤ m.thr.pc.top → Issues (.blez r off) s m → Completes (.blez r off) s m ({ m with npc := some (m.thr.pc.setCursor (m.thr.pc.cursor + 4 * off.signExtend 64)) })) ∧
  (∀ (r : F6) (off : BitVec 15), (m.int r).toInt > 0 → Issues (.blez r off) s m → Completes (.blez r off) s m (m)) ∧
  (∀ (r : F6) (off : BitVec 15), (m.int r).toInt > 0 → m.thr.pc.base ≤ (m.thr.pc.cursor + 4 * off.signExtend 64).toNat → (m.thr.pc.cursor + 4 * off.signExtend 64).toNat + 4 ≤ m.thr.pc.top → Issues (.bgtz r off) s m → Completes (.bgtz r off) s m ({ m with npc := some (m.thr.pc.setCursor (m.thr.pc.cursor + 4 * off.signExtend 64)) })) ∧
  (∀ (r : F6) (off : BitVec 15), (m.int r).toInt ≤ 0 → Issues (.bgtz r off) s m → Completes (.bgtz r off) s m (m)) ∧
  (∀ off : BitVec 18, m.thr.pc.base ≤ (m.thr.pc.cursor + 4 * off.signExtend 64).toNat → (m.thr.pc.cursor + 4 * off.signExtend 64).toNat + 4 ≤ m.thr.pc.top → Issues (.bra off) s m → Completes (.bra off) s m ({ m with npc := some (m.thr.pc.setCursor (m.thr.pc.cursor + 4 * off.signExtend 64)) })) ∧
  (∀ x : Ext, m.thr.pc.base ≤ (m.thr.pc.cursor + 4 * x.imm.signExtend 64).toNat → (m.thr.pc.cursor + 4 * x.imm.signExtend 64).toNat + 4 ≤ m.thr.pc.top → Issues (.widenedForm x (.bra 0)) s m → Completes (.widenedForm x (.bra 0)) s m ({ m with npc := some (m.thr.pc.setCursor (m.thr.pc.cursor + 4 * x.imm.signExtend 64)) })) ∧
  (∀ off : BitVec 24, m.thr.pc.base ≤ (m.thr.pc.cursor + 4 * off.signExtend 64).toNat → (m.thr.pc.cursor + 4 * off.signExtend 64).toNat + 4 ≤ m.thr.pc.top → Issues (.jmp off) s m → Completes (.jmp off) s m ({ m with npc := some (m.thr.pc.setCursor (m.thr.pc.cursor + 4 * off.signExtend 64)) })) ∧
  (∀ x : Ext, m.thr.pc.base ≤ (m.thr.pc.cursor + 4 * x.imm.signExtend 64).toNat → (m.thr.pc.cursor + 4 * x.imm.signExtend 64).toNat + 4 ≤ m.thr.pc.top → Issues (.widenedForm x (.jmp 0)) s m → Completes (.widenedForm x (.jmp 0)) s m ({ m with npc := some (m.thr.pc.setCursor (m.thr.pc.cursor + 4 * x.imm.signExtend 64)) })) ∧
  (∀ off : BitVec 24, m.thr.pc.base ≤ (m.thr.pc.cursor + 4 * off.signExtend 64).toNat → (m.thr.pc.cursor + 4 * off.signExtend 64).toNat + 4 ≤ m.thr.pc.top → Issues (.call off) s m → Completes (.call off) s m (({ m with npc := some (m.thr.pc.setCursor (m.thr.pc.cursor + 4 * off.signExtend 64)) }).wr 30 (m.thr.pc.setCursor (m.thr.pc.cursor + BitVec.ofNat 64 (4 * m.len)))))

/-- R311: the transfers through a capability register, whose checks (R309) pass: tagged, type 0 with EX, aligned, within bounds; `ccall` makes them on the unsealed capability. The model's own readings that it rests on: log 18. -/
def Obligations.CapabilityTransfers : Prop := ∀ (s : State) (m : M),
  (∀ a : F6, (m.src a).tag = true → (m.src a).kind = 0 → (m.src a).bits.getLsbD 108 = true → (m.src a).cursor.toNat % 4 = 0 → (m.src a).base ≤ (m.src a).cursor.toNat → (m.src a).cursor.toNat + 4 ≤ (m.src a).top → Issues (.jr a) s m → Completes (.jr a) s m ({ m with npc := some (m.src a) })) ∧
  (∀ d a : F6, (m.src a).tag = true → (m.src a).kind = 0 → (m.src a).bits.getLsbD 108 = true → (m.src a).cursor.toNat % 4 = 0 → (m.src a).base ≤ (m.src a).cursor.toNat → (m.src a).cursor.toNat + 4 ≤ (m.src a).top → Issues (.jalr d a) s m → Completes (.jalr d a) s m (({ m with npc := some (m.src a) }).wr d (m.thr.pc.setCursor (m.thr.pc.cursor + BitVec.ofNat 64 (4 * m.len))))) ∧
  ((m.src 30).tag = true → (m.src 30).kind = 0 → (m.src 30).bits.getLsbD 108 = true → (m.src 30).cursor.toNat % 4 = 0 → (m.src 30).base ≤ (m.src 30).cursor.toNat → (m.src 30).cursor.toNat + 4 ≤ (m.src 30).top → Issues (.ret) s m → Completes (.ret) s m ({ m with npc := some (m.src 30) })) ∧
  (∀ a : F6, (m.src a).kind = 4 → (Cap.unseal (m.src a)).tag = true → (Cap.unseal (m.src a)).kind = 0 → (Cap.unseal (m.src a)).bits.getLsbD 108 = true → (Cap.unseal (m.src a)).cursor.toNat % 4 = 0 → (Cap.unseal (m.src a)).base ≤ (Cap.unseal (m.src a)).cursor.toNat → (Cap.unseal (m.src a)).cursor.toNat + 4 ≤ (Cap.unseal (m.src a)).top → Issues (.ccall a) s m → Completes (.ccall a) s m (({ m with npc := some (Cap.unseal (m.src a)) }).wr 30 (m.thr.pc.setCursor (m.thr.pc.cursor + BitVec.ofNat 64 (4 * m.len)))))

/-- R312–R315: loops, and the instructions that make a thread wait: `yield`, `sleep`, `wfe`, `bar`, `halt`, and `nop`; when the last entry thread halts, the exit of the team is begun. The model's own readings that it rests on: log 3, 40. -/
def Obligations.ThreadInstructions : Prop := ∀ (s : State) (m : M),
  (Issues (.nop) s m → Completes (.nop) s m (m)) ∧
  (m.otherReady = 0 → Issues (.yield) s m → Completes (.yield) s m (m)) ∧
  (m.otherReady ≠ 0 → Issues (.yield) s m → Completes (.yield) s m ({ m with thr := { m.thr with run := .yielded m.otherReady (m.st.now + 8) }, st := m.st.after 8 (.yieldExpiry m.who) })) ∧
  (∀ a : F6, m.int a = 0 → Issues (.sleep a) s m → Completes (.sleep a) s m (m)) ∧
  (∀ a : F6, m.int a ≠ 0 → Issues (.sleep a) s m → Completes (.sleep a) s m ({ m with thr := { m.thr with run := .sleeping (m.st.now + (m.int a).toNat), idleAt := m.st.now }, st := m.st.after (m.int a).toNat (.sleepExpiry m.who) })) ∧
  (m.thr.rnote = true → Issues (.wfe) s m → Completes (.wfe) s m ({ m with thr := { m.thr with rnote := false } })) ∧
  (m.thr.rnote = false → Issues (.wfe) s m → Completes (.wfe) s m ({ m with thr := { m.thr with run := .wfe, idleAt := m.st.now } })) ∧
  (∀ (d : F6) (off : BitVec 18), m.thr.lcount.get (if m.thr.lcount.get 0 ≠ 0 then 1 else 0 : Fin 2) = 0 → m.int d ≠ 0 → Issues (.loop d off) s m → Completes (.loop d off) s m ({ m with thr := { m.thr with lstart := m.thr.lstart.set (if m.thr.lcount.get 0 ≠ 0 then 1 else 0 : Fin 2) (m.thr.pc.cursor + BitVec.ofNat 64 (4 * m.len)), lend := m.thr.lend.set (if m.thr.lcount.get 0 ≠ 0 then 1 else 0 : Fin 2) (m.thr.pc.cursor + 4 * off.signExtend 64), lcount := m.thr.lcount.set (if m.thr.lcount.get 0 ≠ 0 then 1 else 0 : Fin 2) (m.int d) } })) ∧
  (∀ (d : F6) (off : BitVec 18) (m1 : M) (w : W32), m.thr.lcount.get (if m.thr.lcount.get 0 ≠ 0 then 1 else 0 : Fin 2) = 0 → m.int d = 0 → m.fetchWords (m.thr.pc.cursor + 4 * off.signExtend 64).toNat 1 = .ok (m1, [w]) → Issues (.loop d off) s m → Completes (.loop d off) s m ({ m1 with npc := some (m1.thr.pc.setCursor (m.thr.pc.cursor + 4 * off.signExtend 64 + BitVec.ofNat 64 (4 * wordCount w))) })) ∧
  (∀ m1 m2 : M, m.release 0 = .ok m1 → m1.acquire 0 = .ok m2 → Issues .bar s m → Completes .bar s m
    (let c := Core.barrier { m2.core with thr := m2.core.thr.set m2.tid { m2.thr with run := .bar, idleAt := m2.st.now } }
     { m2 with core := c, thr := c.thr.get m2.tid })) ∧
  (m.tickets = [] → ¬(m.core.lrec.calls = true ∧ m.tid = 7) → Issues .halt s m → Completes .halt s m
    (let t := { m.thr with run := .halted, idleAt := m.st.now }
     let c := Core.barrier { m.core with thr := m.core.thr.set m.tid t }
     { m with core := c, thr := c.thr.get m.tid, st := if c.allHalted then m.st.post (.teamExit c.id) else m.st })) ∧
  (m.tickets = [] → m.core.lrec.calls = true → m.tid = 7 → Issues .halt s m → Completes .halt s m
    { m with thr := { m.thr with run := .call, idleAt := m.st.now }, st := if m.core.calls.isEmpty then (if m.core.exiting then m.st.post (.teamExit m.core.id) else m.st) else m.st.post (.callStart m.core.id) })

/-- R233, R236, R313, R316: `brk` and `trap` take their traps with their immediates; an encoding fault and a fetch fault take theirs; `eret` returns to `TRAPPC` with SYS from PSYS. -/
def Obligations.TrapsAndReturn : Prop := ∀ (s : State) (m : M),
  (∀ imm : BitVec 12, Issues (.brk imm) s m → Traps (.brk imm) s m 0x16 (imm.setWidth 64)) ∧
  (∀ imm : BitVec 12, Issues (.trap imm) s m → Traps (.trap imm) s m 0x17 (imm.setWidth 64)) ∧
  (Issues .eret s m → m.thr.trappc.tag = true → Completes .eret s m { m with npc := some m.thr.trappc, thr := { m.thr with status := ((m.thr.status >>> 1) &&& 1) ||| (m.thr.status &&& 2) } }) ∧
  (∀ (m0 : M) (pos : Nat) (m1 : M) (w : W32), s.selected s.cur.1 s.cur.2 = some m0 → m0.thr.run = .ready → m0.core.stopping = false → m0.fetchWords m0.thr.pc.cursor.toNat 1 = .ok (m1, [w]) →
    exec (.unallocatedEncoding (.reserved pos)) s = .next (({ m0 with ins := w } : M).takeTrap 0x02 (BitVec.ofNat 64 pos)).flush ∧
    exec (.unallocatedEncoding .illegal) s = .next (({ m0 with ins := w } : M).takeTrap 0x01 0).flush) ∧
  (∀ (m0 : M) (f : FetchFault), s.selected s.cur.1 s.cur.2 = some m0 → m0.thr.run = .ready → m0.core.stopping = false →
    exec (.instructionFetchFault f) s = .next (({ m0 with ins := 0 } : M).takeTrap f.cause f.value).flush)

/-- R317: what `mfs` reads and `mts` writes for every special register; the read of `ENGFLT` clears it, `STATUS` takes only PSYS, and reserved bits of a written value are ignored. The model's own readings that it rests on: log 16, 19. -/
def Obligations.SpecialRegisters : Prop := ∀ (s : State) (m : M),
  (∀ d : F6, Issues (.mfs d 0x000) s m → Completes (.mfs d 0x000) s m (m.wrInt d (BitVec.ofNat 64 m.core.team))) ∧
  (∀ d : F6, Issues (.mfs d 0x001) s m → Completes (.mfs d 0x001) s m (m.wrInt d (BitVec.ofNat 64 m.tid.val))) ∧
  (∀ d : F6, Issues (.mfs d 0x002) s m → Completes (.mfs d 0x002) s m (m.wrInt d (BitVec.ofNat 64 m.core.lrec.nthr))) ∧
  (∀ d : F6, Issues (.mfs d 0x003) s m → Completes (.mfs d 0x003) s m (m.wrInt d (m.core.launch.setWidth 64))) ∧
  (∀ d : F6, Issues (.mfs d 0x004) s m → Completes (.mfs d 0x004) s m (m.wrInt d (m.core.ctx.setWidth 64))) ∧
  (∀ d : F6, Issues (.mfs d 0x005) s m → Completes (.mfs d 0x005) s m (m.wrInt d (BitVec.ofNat 64 (m.st.modid.toNat * 2 ^ 13 + m.core.id % 2 ^ 13)))) ∧
  (∀ d : F6, Issues (.mfs d 0x006) s m → Completes (.mfs d 0x006) s m (m.wrInt d (BitVec.ofNat 64 (siteOf m.core.id)))) ∧
  (∀ d : F6, Issues (.mfs d 0x010) s m → Completes (.mfs d 0x010) s m (m.wrInt d (BitVec.ofNat 64 (m.st.now - m.st.coreReset)))) ∧
  (∀ d : F6, Issues (.mfs d 0x011) s m → Completes (.mfs d 0x011) s m (m.wrInt d (BitVec.ofNat 64 m.st.timeNs))) ∧
  (∀ d : F6, Issues (.mfs d 0x030) s m → Completes (.mfs d 0x030) s m (m.wrInt d (m.thr.lstart.get 0))) ∧
  (∀ d : F6, Issues (.mfs d 0x031) s m → Completes (.mfs d 0x031) s m (m.wrInt d (m.thr.lend.get 0))) ∧
  (∀ d : F6, Issues (.mfs d 0x032) s m → Completes (.mfs d 0x032) s m (m.wrInt d (m.thr.lcount.get 0))) ∧
  (∀ d : F6, Issues (.mfs d 0x033) s m → Completes (.mfs d 0x033) s m (m.wrInt d (m.thr.lstart.get 1))) ∧
  (∀ d : F6, Issues (.mfs d 0x034) s m → Completes (.mfs d 0x034) s m (m.wrInt d (m.thr.lend.get 1))) ∧
  (∀ d : F6, Issues (.mfs d 0x035) s m → Completes (.mfs d 0x035) s m (m.wrInt d (m.thr.lcount.get 1))) ∧
  (∀ d : F6, Issues (.mfs d 0x040) s m → Completes (.mfs d 0x040) s m (m.wrInt d (BitVec.ofNat 64 m.core.vrows))) ∧
  (∀ d : F6, Issues (.mfs d 0x041) s m → Completes (.mfs d 0x041) s m (m.wrInt d (m.thr.xfloor))) ∧
  (∀ d : F6, Issues (.mfs d 0x042) s m → Completes (.mfs d 0x042) s m (m.wrInt d (m.thr.fpctl))) ∧
  (∀ d : F6, Issues (.mfs d 0x043) s m → Completes (.mfs d 0x043) s m (m.wrInt d (m.thr.fpflags))) ∧
  (∀ d : F6, Issues (.mfs d 0x050) s m → Completes (.mfs d 0x050) s m (m.wrInt d (m.thr.rowprog))) ∧
  (∀ d : F6, Issues (.mfs d 0x060) s m → Completes (.mfs d 0x060) s m (m.wrInt d (m.thr.trapvec))) ∧
  (∀ d : F6, Issues (.mfs d 0x062) s m → Completes (.mfs d 0x062) s m (m.wrInt d (m.thr.trapcause))) ∧
  (∀ d : F6, Issues (.mfs d 0x063) s m → Completes (.mfs d 0x063) s m (m.wrInt d (m.thr.trapval))) ∧
  (∀ d : F6, Issues (.mfs d 0x064) s m → Completes (.mfs d 0x064) s m (m.wrInt d (m.thr.trapins))) ∧
  (∀ d : F6, Issues (.mfs d 0x065) s m → Completes (.mfs d 0x065) s m (m.wrInt d (m.thr.status))) ∧
  (∀ d : F6, Issues (.mfs d 0x070) s m → Completes (.mfs d 0x070) s m (m.wrInt d (m.ticketsWord))) ∧
  (∀ d : F6, Issues (.mfs d 0x072) s m → Completes (.mfs d 0x072) s m (m.wrInt d (m.core.late))) ∧
  (∀ d : F6, Issues (.mfs d 0x080) s m → Completes (.mfs d 0x080) s m (m.wrInt d (m.core.logring))) ∧
  (∀ d : F6, Issues (.mfs d 0x081) s m → Completes (.mfs d 0x081) s m (m.wrInt d (m.core.loghead))) ∧
  (∀ d : F6, Issues (.mfs d 0x082) s m → Completes (.mfs d 0x082) s m (m.wrInt d (m.core.logtail))) ∧
  (∀ d : F6, Issues (.mfs d 0x020) s m → Completes (.mfs d 0x020) s m (m.wrInt d (m.thr.m.get 0))) ∧
  (∀ d : F6, Issues (.mfs d 0x021) s m → Completes (.mfs d 0x021) s m (m.wrInt d (m.thr.m.get 1))) ∧
  (∀ d : F6, Issues (.mfs d 0x022) s m → Completes (.mfs d 0x022) s m (m.wrInt d (m.thr.m.get 2))) ∧
  (∀ d : F6, Issues (.mfs d 0x023) s m → Completes (.mfs d 0x023) s m (m.wrInt d (m.thr.m.get 3))) ∧
  (∀ d : F6, Issues (.mfs d 0x024) s m → Completes (.mfs d 0x024) s m (m.wrInt d (m.thr.m.get 4))) ∧
  (∀ d : F6, Issues (.mfs d 0x025) s m → Completes (.mfs d 0x025) s m (m.wrInt d (m.thr.m.get 5))) ∧
  (∀ d : F6, Issues (.mfs d 0x026) s m → Completes (.mfs d 0x026) s m (m.wrInt d (m.thr.m.get 6))) ∧
  (∀ d : F6, Issues (.mfs d 0x027) s m → Completes (.mfs d 0x027) s m (m.wrInt d (m.thr.m.get 7))) ∧
  (∀ d : F6, Issues (.mfs d 0x061) s m → Completes (.mfs d 0x061) s m (m.wr d m.thr.trappc)) ∧
  (∀ d : F6, Issues (.mfs d 0x008) s m → Completes (.mfs d 0x008) s m (m.wr d (mkCap 1 0 0x40000 0 localPerm))) ∧
  (∀ d : F6, Issues (.mfs d 0x073) s m → Completes (.mfs d 0x073) s m (({ m with thr := { m.thr with engflt := 0 } } : M).wr d (Cap.ofInt m.thr.engflt))) ∧
  (∀ d : F6, Issues (.mfs d 0x071) s m → Completes (.mfs d 0x071) s m (m.wrInt d (BitVec.ofNat 64 (m.tickets.filter (·.failed)).length))) ∧
  (∀ d : F6, Issues (.mfs d 0x007) s m → Completes (.mfs d 0x007) s m (m.wrInt d (BitVec.ofNat 64 ((m.st.launch? m.core.launch).elim m.core.lrec.prio (·.prio))))) ∧
  (∀ d : F6, Issues (.mts d 0x030) s m → Completes (.mts d 0x030) s m ({ m with thr := { m.thr with lstart := m.thr.lstart.set 0 (m.int d) } })) ∧
  (∀ d : F6, Issues (.mts d 0x031) s m → Completes (.mts d 0x031) s m ({ m with thr := { m.thr with lend := m.thr.lend.set 0 (m.int d) } })) ∧
  (∀ d : F6, Issues (.mts d 0x032) s m → Completes (.mts d 0x032) s m ({ m with thr := { m.thr with lcount := m.thr.lcount.set 0 (m.int d) } })) ∧
  (∀ d : F6, Issues (.mts d 0x033) s m → Completes (.mts d 0x033) s m ({ m with thr := { m.thr with lstart := m.thr.lstart.set 1 (m.int d) } })) ∧
  (∀ d : F6, Issues (.mts d 0x034) s m → Completes (.mts d 0x034) s m ({ m with thr := { m.thr with lend := m.thr.lend.set 1 (m.int d) } })) ∧
  (∀ d : F6, Issues (.mts d 0x035) s m → Completes (.mts d 0x035) s m ({ m with thr := { m.thr with lcount := m.thr.lcount.set 1 (m.int d) } })) ∧
  (∀ d : F6, Issues (.mts d 0x041) s m → Completes (.mts d 0x041) s m ({ m with thr := { m.thr with xfloor := m.int d &&& 0xFFFFF } })) ∧
  (∀ d : F6, Issues (.mts d 0x042) s m → Completes (.mts d 0x042) s m ({ m with thr := { m.thr with fpctl := m.int d &&& 3 } })) ∧
  (∀ d : F6, Issues (.mts d 0x043) s m → Completes (.mts d 0x043) s m ({ m with thr := { m.thr with fpflags := m.int d &&& 0x1F } })) ∧
  (∀ d : F6, Issues (.mts d 0x060) s m → Completes (.mts d 0x060) s m ({ m with thr := { m.thr with trapvec := m.int d } })) ∧
  (∀ d : F6, Issues (.mts d 0x061) s m → Completes (.mts d 0x061) s m ({ m with thr := { m.thr with trappc := m.src d } })) ∧
  (∀ d : F6, Issues (.mts d 0x062) s m → Completes (.mts d 0x062) s m ({ m with thr := { m.thr with trapcause := m.int d &&& 0xFF } })) ∧
  (∀ d : F6, Issues (.mts d 0x063) s m → Completes (.mts d 0x063) s m ({ m with thr := { m.thr with trapval := m.int d } })) ∧
  (∀ d : F6, Issues (.mts d 0x064) s m → Completes (.mts d 0x064) s m ({ m with thr := { m.thr with trapins := m.int d &&& 0xFFFFFFFF } })) ∧
  (∀ d : F6, Issues (.mts d 0x065) s m → Completes (.mts d 0x065) s m ({ m with thr := { m.thr with status := (m.thr.status &&& ~~~(2 : W64)) ||| (m.int d &&& 2) } })) ∧
  (∀ d : F6, Issues (.mts d 0x050) s m → Completes (.mts d 0x050) s m ({ m with thr := { m.thr with rowprog := m.int d &&& 0x83FFFFFFFFFF003F } })) ∧
  (∀ d : F6, Issues (.mts d 0x020) s m → Completes (.mts d 0x020) s m ({ m with thr := { m.thr with m := m.thr.m.set 0 (m.int d) } })) ∧
  (∀ d : F6, Issues (.mts d 0x021) s m → Completes (.mts d 0x021) s m ({ m with thr := { m.thr with m := m.thr.m.set 1 (m.int d) } })) ∧
  (∀ d : F6, Issues (.mts d 0x022) s m → Completes (.mts d 0x022) s m ({ m with thr := { m.thr with m := m.thr.m.set 2 (m.int d) } })) ∧
  (∀ d : F6, Issues (.mts d 0x023) s m → Completes (.mts d 0x023) s m ({ m with thr := { m.thr with m := m.thr.m.set 3 (m.int d) } })) ∧
  (∀ d : F6, Issues (.mts d 0x024) s m → Completes (.mts d 0x024) s m ({ m with thr := { m.thr with m := m.thr.m.set 4 (m.int d) } })) ∧
  (∀ d : F6, Issues (.mts d 0x025) s m → Completes (.mts d 0x025) s m ({ m with thr := { m.thr with m := m.thr.m.set 5 (m.int d) } })) ∧
  (∀ d : F6, Issues (.mts d 0x026) s m → Completes (.mts d 0x026) s m ({ m with thr := { m.thr with m := m.thr.m.set 6 (m.int d) } })) ∧
  (∀ d : F6, Issues (.mts d 0x027) s m → Completes (.mts d 0x027) s m ({ m with thr := { m.thr with m := m.thr.m.set 7 (m.int d) } })) ∧
  (∀ d : F6, Issues (.mts d 0x080) s m → Completes (.mts d 0x080) s m ({ m with core := { m.core with logring := m.int d &&& 0x00FFFFFFFFFFF01F } })) ∧
  (∀ d : F6, m.core.logdrop = 0 → Issues (.mts d 0x081) s m → Completes (.mts d 0x081) s m ({ m with core := { m.core with loghead := m.int d &&& 0xFFFFFFFF } })) ∧
  (∀ (d : F6) (m1 : M), ({ m with core := { m.core with loghead := m.int d &&& 0xFFFFFFFF } } : M).logOverflow = .ok m1 → Issues (.mts d 0x081) s m → Completes (.mts d 0x081) s m (m1))

/-- R333–R335: binding, unbinding and reading queue registers, vector rows, and the write log's switch and mark. The model's own readings that it rests on: log 16, 20. -/
def Obligations.QueuesRowsLog : Prop := ∀ (s : State) (m : M),
  (∀ q : BitVec 3, Issues (.qunb q) s m → Completes (.qunb q) s m ({ m with thr := m.thr.setQ q.toFin fun y => { y with bind := .unbound, failed := false } })) ∧
  (∀ (q : BitVec 3) (b : F6), (m.int b).getLsbD 6 = false → Issues (.qbind q 0 b) s m → Completes (.qbind q 0 b) s m ({ m with thr := m.thr.setQ q.toFin fun y => { y with bind := .toThread ((m.int b).extractLsb' 3 3) ((m.int b).setWidth 3), failed := false } })) ∧
  (∀ (d : F6) (q : BitVec 3), Issues (.qstat d q) s m → Completes (.qstat d q) s m (m.wrInt d (m.qstatWord q.toFin))) ∧
  (∀ (d : F6) (q : BitVec 3) (v : W64) (l : List W64), (m.thr.q.get q.toFin).fifo = v :: l → Issues (.qpeek d q) s m → Completes (.qpeek d q) s m (m.wrInt d v)) ∧
  (∀ d a : F6, Issues (.vrowSet d a) s m → Completes (.vrowSet d a) s m ((m.setRows (Nat.max 1 (Nat.min (m.int a).toNat m.core.ceil))).wrInt d (BitVec.ofNat 64 (Nat.max 1 (Nat.min (m.int a).toNat m.core.ceil))))) ∧
  (∀ d : F6, Issues (.vrowGet d) s m → Completes (.vrowGet d) s m (m.wrInt d (BitVec.ofNat 64 (m.core.vrows + 16 * m.core.ceil)))) ∧
  (Issues (.logon) s m → Completes (.logon) s m ({ m with thr := { m.thr with logOn := true } })) ∧
  (∀ m1 : M, (m.emitRanges (fun _ => true) = .ok m1) → Issues (.logoff) s m → Completes (.logoff) s m ({ m1 with thr := { m1.thr with logOn := false } })) ∧
  (∀ (a : F6) (m1 m2 : M), (m.emitRanges (fun _ => true) = .ok m1) → m1.logEntry 2 0 (m.int a) = .ok m2 → Issues (.logmark a) s m → Completes (.logmark a) s m (m2))

/-- R321, R322, R324, R330: loads and stores of local memory (an operand that passes every check, no acquire outstanding) write the loaded bytes, sign- or zero-extended, or store the register's, and update the base; the same through type 0, by the access that `loadAt` and `storeAt` perform; `ldacq` acquires after its load and `strel` releases before its store. The model's own readings that it rests on: log 10, 21, 44. -/
def Obligations.LoadsAndStores : Prop := ∀ (s : State) (m : M),
  (∀ (d a : F6) (sz : BitVec 3) (am : BitVec 2) (ea : BitVec 7) (r : MRef), r = m.ref none a am ea (szBytes sz) → LocalOk m r [.ld] (szBytes sz) → m.acqPending = false → Issues (.ld d a sz am ea) s m → Completes (.ld d a sz am ea) s m ((m.wr d (loadValue r.c (szBytes sz) (m.localRead r.va (szBytes sz)) (szBytes sz == 16 && m.localTag r.va) false)).update r.f r.ad)) ∧
  (∀ (d a : F6) (sz : BitVec 3) (am : BitVec 2) (ea : BitVec 7) (r : MRef) (m1 : M) (v : Nat) (t : Bool), r = m.ref none a am ea (szBytes sz) → checkRef r [.ld] (szBytes sz) = .ok () → r.c.kind = 0 → m.acqPending = false → m.loadAt r.c r.va (szBytes sz) true = .ok (m1, v, t) → Issues (.ld d a sz am ea) s m → Completes (.ld d a sz am ea) s m ((m1.wr d (loadValue r.c (szBytes sz) v t false)).update r.f r.ad)) ∧
  (∀ (d a : F6) (sz : BitVec 3) (am : BitVec 2) (ea : BitVec 7) (r : MRef), r = m.ref none a am ea (szBytes sz) → LocalOk m r [.ld] (szBytes sz) → m.acqPending = false → Issues (.lds d a sz am ea) s m → Completes (.lds d a sz am ea) s m ((m.wr d (loadValue r.c (szBytes sz) (m.localRead r.va (szBytes sz)) (szBytes sz == 16 && m.localTag r.va) true)).update r.f r.ad)) ∧
  (∀ (d a : F6) (sz : BitVec 3) (am : BitVec 2) (ea : BitVec 7) (r : MRef) (m1 : M) (v : Nat) (t : Bool), r = m.ref none a am ea (szBytes sz) → checkRef r [.ld] (szBytes sz) = .ok () → r.c.kind = 0 → m.acqPending = false → m.loadAt r.c r.va (szBytes sz) true = .ok (m1, v, t) → Issues (.lds d a sz am ea) s m → Completes (.lds d a sz am ea) s m ((m1.wr d (loadValue r.c (szBytes sz) v t true)).update r.f r.ad)) ∧
  (∀ (d a : F6) (am : BitVec 2) (ea : BitVec 7) (r : MRef), r = m.ref none a am ea 8 → LocalOk m r [.ld] 8 → m.acqPending = false → Issues (.ldfeAny d a am ea) s m → Completes (.ldfeAny d a am ea) s m ((m.wrInt d (BitVec.ofNat 64 (m.localRead r.va 8))).update r.f r.ad)) ∧
  (∀ (o : XOp) (r : MRef) (n : Nat) (m1 : M), n = szBytes (o.x.t2.setWidth 3) → r = m.refAt o.a (immOff (some o.x)) → LocalOk m r [.ld] n → m.acqPending = false → (m.wr o.d (loadValue r.c n (m.localRead r.va n) (n == 16 && m.localTag r.va) false)).acquire o.x.sc = .ok m1 → Issues (.ldacq o) s m → Completes (.ldacq o) s m (m1)) ∧
  (∀ (d a : F6) (sz : BitVec 3) (am : BitVec 2) (ea : BitVec 7) (r : MRef) (v : Cap), r = m.ref none a am ea (szBytes sz) → v = m.src d → LocalOk m r (if szBytes sz = 16 ∧ v.tag then [.st, .tgw] else [.st]) (szBytes sz) → m.acqPending = false → Issues (.st d a sz am ea) s m → Completes (.st d a sz am ea) s m ((storedLocal m r.va (szBytes sz) (v.bits.toNat % 2 ^ (8 * szBytes sz)) (if szBytes sz = 16 then some v.tag else none)).update r.f r.ad)) ∧
  (∀ (d a : F6) (sz : BitVec 3) (am : BitVec 2) (ea : BitVec 7) (r : MRef) (v : Cap) (m1 : M), r = m.ref none a am ea (szBytes sz) → v = m.src d → m.restartCheck r.c = .ok () → checkRef r (if szBytes sz = 16 ∧ v.tag then [.st, .tgw] else [.st]) (szBytes sz) = .ok () → r.c.kind = 0 → m.acqPending = false → m.storeAt r.c r.va (szBytes sz) (v.bits.toNat % 2 ^ (8 * szBytes sz)) (if szBytes sz = 16 then some v.tag else none) true = .ok m1 → Issues (.st d a sz am ea) s m → Completes (.st d a sz am ea) s m (m1.update r.f r.ad)) ∧
  (∀ (d a : F6) (am : BitVec 2) (ea : BitVec 7) (r : MRef), r = m.ref none a am ea 8 → LocalOk m r [.st] 8 → m.acqPending = false → Issues (.stfeKeep d a am ea) s m → Completes (.stfeKeep d a am ea) s m ((storedLocal m r.va 8 (m.int d).toNat none).update r.f r.ad)) ∧
  (∀ (o : XOp) (r : MRef) (n : Nat) (v : Cap) (m1 : M), n = szBytes (o.x.t2.setWidth 3) → v = m.src o.d → r = m.refAt o.a (immOff (some o.x)) →
    LocalOk m1 r (if n = 16 ∧ v.tag then [.st, .tgw] else [.st]) n → m.acqPending = false → m.release o.x.sc = .ok m1 → Issues (.strel o) s m →
    Completes (.strel o) s m (storedLocal m1 r.va n (v.bits.toNat % 2 ^ (8 * n)) (if n = 16 then some v.tag else none)))

/-- R324, R325: the full/empty operations of local memory whose condition holds (`feLocal` answers so) complete: the waiting loads acquire at the context's scope after they have read, the stores that set or wait release before; the others need no ordering. FullEmptyEffect says what `feLocal` answers. -/
def Obligations.FullEmptyOperations : Prop := ∀ (s : State) (m : M),
  (∀ (d a : F6) (am : BitVec 2) (ea : BitVec 7) (r : MRef) (m1 m2 : M) (v : Nat), r = m.ref none a am ea 8 → LocalOk m r [.ld, .fe] 8 → m.acqPending = false → m.feLocal r.va (.ldfe 1) 0 = (m1, v, true) → ((m1.wrInt d (BitVec.ofNat 64 v)).update r.f r.ad).acquire 4 = .ok m2 → Issues (.ldfeWf d a am ea) s m → Completes (.ldfeWf d a am ea) s m (m2)) ∧
  (∀ (d a : F6) (am : BitVec 2) (ea : BitVec 7) (r : MRef) (m1 m2 : M) (v : Nat), r = m.ref none a am ea 8 → LocalOk m r [.ld, .fe] 8 → m.acqPending = false → m.feLocal r.va (.ldfe 2) 0 = (m1, v, true) → ((m1.wrInt d (BitVec.ofNat 64 v)).update r.f r.ad).acquire 4 = .ok m2 → Issues (.ldfeWfe d a am ea) s m → Completes (.ldfeWfe d a am ea) s m (m2)) ∧
  (∀ (d a : F6) (am : BitVec 2) (ea : BitVec 7) (r : MRef) (m1 : M) (v : Nat), r = m.ref none a am ea 8 → LocalOk m r [.ld, .fe] 8 → m.acqPending = false → m.feLocal r.va (.ldfe 3) 0 = (m1, v, true) → Issues (.ldfeSt d a am ea) s m → Completes (.ldfeSt d a am ea) s m ((m1.wrInt d (BitVec.ofNat 64 v)).update r.f r.ad)) ∧
  (∀ (d a : F6) (am : BitVec 2) (ea : BitVec 7) (r : MRef) (m1 m2 : M) (v : Nat), r = m.ref none a am ea 8 → LocalOk m r [.st, .fe] 8 → m.acqPending = false → m.release 4 = .ok m1 → m1.feLocal r.va (.stfe 0) (m.int d) = (m2, v, true) → Issues (.stfeSf d a am ea) s m → Completes (.stfeSf d a am ea) s m (m2.update r.f r.ad)) ∧
  (∀ (d a : F6) (am : BitVec 2) (ea : BitVec 7) (r : MRef) (m1 m2 : M) (v : Nat), r = m.ref none a am ea 8 → LocalOk m r [.st, .fe] 8 → m.acqPending = false → m.release 4 = .ok m1 → m1.feLocal r.va (.stfe 1) (m.int d) = (m2, v, true) → Issues (.stfeWef d a am ea) s m → Completes (.stfeWef d a am ea) s m (m2.update r.f r.ad)) ∧
  (∀ (a : F6) (am : BitVec 2) (ea : BitVec 7) (r : MRef) (m2 : M) (v : Nat), r = m.ref none a am ea 8 → LocalOk m r [.st, .fe] 8 → m.acqPending = false → m.feLocal r.va (.stfe 2) (m.int 0) = (m2, v, true) → Issues (.stfeSe a am ea) s m → Completes (.stfeSe a am ea) s m (m2.update r.f r.ad))

/-- R163, R324: at the SRAM, below the register window and with no waiter parked, a full/empty access proceeds exactly when its mode's condition holds on the word's E bit. It then answers the old word (or its E bit), leaves the E bit as its mode says and every other word's as it was; a store leaves the stored word and no other byte changed, an access that stores nothing changes no byte; the rest of the thread and the state stay. -/
def Obligations.FullEmptyEffect : Prop := ∀ (m : M),
  (∀ (off : Nat) (k : AccKind) (data : W64), off + 8 ≤ 0x3C000 → feReady k (m.core.mem.full off) = false → m.feLocal off k data = (m, 0, false)) ∧
  (∀ (off : Nat) (md : BitVec 2) (data : W64), off + 8 ≤ 0x3C000 → off % 8 = 0 → m.core.mem.wf = true → m.core.localWaits = [] → feReady (.stfe md) (m.core.mem.full off) = true →
    let r := m.feLocal off (.stfe md) data
    r.2.2 = true ∧ r.1.st = m.st ∧ r.1.thr = m.thr ∧ (md ≠ 2 → r.1.core.mem.read off 8 = data.toNat) ∧
    (∀ x, md = 2 ∨ x < off ∨ off + 8 ≤ x → r.1.core.mem.byte x = m.core.mem.byte x) ∧
    (∀ x, r.1.core.mem.full x = if x / 8 = off / 8 then (if md = 2 then false else if md = 3 then m.core.mem.full off else true) else m.core.mem.full x)) ∧
  (∀ (off : Nat) (md : BitVec 2), off + 8 ≤ 0x3C000 → off % 8 = 0 → m.core.mem.wf = true → m.core.localWaits = [] → feReady (.ldfe md) (m.core.mem.full off) = true →
    let r := m.feLocal off (.ldfe md) 0
    r.2 = (if md = 3 then (if m.core.mem.full off then 1 else 0) else m.core.mem.read off 8, true) ∧ r.1.st = m.st ∧ r.1.thr = m.thr ∧
    (∀ x, r.1.core.mem.byte x = m.core.mem.byte x) ∧
    (∀ x, r.1.core.mem.full x = if x / 8 = off / 8 then (if md = 2 then false else m.core.mem.full off) else m.core.mem.full x))

/-- R175, R327, R328: each atomic of local memory writes its operation on the old word and the operand, and returns the old word; through type 0 it returns what the shared atomic access performs with that operation. R329: `cas` and `casq` on local memory: when the word (the granule with its tag) equals the compared register, the new one is stored and E is 1, else nothing is stored and E is 0; D receives what was read. -/
def Obligations.AtomicOperations : Prop := (∀ (s : State) (m : M),
  (∀ (d a b : F6) (sc : BitVec 3) (r : MRef), r = m.refAt a 0 → LocalOk m r [.atom] 8 → m.acqPending = false → Issues (.amoAdd d a b sc) s m → Completes (.amoAdd d a b sc) s m ((storedLocal m r.va 8 (amoOp 0 8 (m.localRead r.va 8) (m.int b).toNat) none).wrInt d (BitVec.ofNat 64 (m.localRead r.va 8)))) ∧
  (∀ (d a b : F6) (sc : BitVec 3) (r : MRef) (m1 : M) (old : Nat) (t done : Bool), r = m.refAt a 0 → m.restartCheck r.c = .ok () → checkRef r [.atom] 8 = .ok () → r.c.kind = 0 → m.acqPending = false → (m.atomAt r.c r.va 8 sc false (fun old _ => some (amoOp 0 8 old (m.int b).toNat, false)) = .ok (m1, old, t, done)) → Issues (.amoAdd d a b sc) s m → Completes (.amoAdd d a b sc) s m (m1.wrInt d (BitVec.ofNat 64 old))) ∧
  (∀ (d a b : F6) (sc : BitVec 3) (r : MRef), r = m.refAt a 0 → LocalOk m r [.atom] 8 → m.acqPending = false → Issues (.amoAnd d a b sc) s m → Completes (.amoAnd d a b sc) s m ((storedLocal m r.va 8 (amoOp 1 8 (m.localRead r.va 8) (m.int b).toNat) none).wrInt d (BitVec.ofNat 64 (m.localRead r.va 8)))) ∧
  (∀ (d a b : F6) (sc : BitVec 3) (r : MRef) (m1 : M) (old : Nat) (t done : Bool), r = m.refAt a 0 → m.restartCheck r.c = .ok () → checkRef r [.atom] 8 = .ok () → r.c.kind = 0 → m.acqPending = false → (m.atomAt r.c r.va 8 sc false (fun old _ => some (amoOp 1 8 old (m.int b).toNat, false)) = .ok (m1, old, t, done)) → Issues (.amoAnd d a b sc) s m → Completes (.amoAnd d a b sc) s m (m1.wrInt d (BitVec.ofNat 64 old))) ∧
  (∀ (d a b : F6) (sc : BitVec 3) (r : MRef), r = m.refAt a 0 → LocalOk m r [.atom] 8 → m.acqPending = false → Issues (.amoOr d a b sc) s m → Completes (.amoOr d a b sc) s m ((storedLocal m r.va 8 (amoOp 2 8 (m.localRead r.va 8) (m.int b).toNat) none).wrInt d (BitVec.ofNat 64 (m.localRead r.va 8)))) ∧
  (∀ (d a b : F6) (sc : BitVec 3) (r : MRef) (m1 : M) (old : Nat) (t done : Bool), r = m.refAt a 0 → m.restartCheck r.c = .ok () → checkRef r [.atom] 8 = .ok () → r.c.kind = 0 → m.acqPending = false → (m.atomAt r.c r.va 8 sc false (fun old _ => some (amoOp 2 8 old (m.int b).toNat, false)) = .ok (m1, old, t, done)) → Issues (.amoOr d a b sc) s m → Completes (.amoOr d a b sc) s m (m1.wrInt d (BitVec.ofNat 64 old))) ∧
  (∀ (d a b : F6) (sc : BitVec 3) (r : MRef), r = m.refAt a 0 → LocalOk m r [.atom] 8 → m.acqPending = false → Issues (.amoXor d a b sc) s m → Completes (.amoXor d a b sc) s m ((storedLocal m r.va 8 (amoOp 3 8 (m.localRead r.va 8) (m.int b).toNat) none).wrInt d (BitVec.ofNat 64 (m.localRead r.va 8)))) ∧
  (∀ (d a b : F6) (sc : BitVec 3) (r : MRef) (m1 : M) (old : Nat) (t done : Bool), r = m.refAt a 0 → m.restartCheck r.c = .ok () → checkRef r [.atom] 8 = .ok () → r.c.kind = 0 → m.acqPending = false → (m.atomAt r.c r.va 8 sc false (fun old _ => some (amoOp 3 8 old (m.int b).toNat, false)) = .ok (m1, old, t, done)) → Issues (.amoXor d a b sc) s m → Completes (.amoXor d a b sc) s m (m1.wrInt d (BitVec.ofNat 64 old))) ∧
  (∀ (d a b : F6) (sc : BitVec 3) (r : MRef), r = m.refAt a 0 → LocalOk m r [.atom] 8 → m.acqPending = false → Issues (.amoMin d a b sc) s m → Completes (.amoMin d a b sc) s m ((storedLocal m r.va 8 (amoOp 4 8 (m.localRead r.va 8) (m.int b).toNat) none).wrInt d (BitVec.ofNat 64 (m.localRead r.va 8)))) ∧
  (∀ (d a b : F6) (sc : BitVec 3) (r : MRef) (m1 : M) (old : Nat) (t done : Bool), r = m.refAt a 0 → m.restartCheck r.c = .ok () → checkRef r [.atom] 8 = .ok () → r.c.kind = 0 → m.acqPending = false → (m.atomAt r.c r.va 8 sc false (fun old _ => some (amoOp 4 8 old (m.int b).toNat, false)) = .ok (m1, old, t, done)) → Issues (.amoMin d a b sc) s m → Completes (.amoMin d a b sc) s m (m1.wrInt d (BitVec.ofNat 64 old))) ∧
  (∀ (d a b : F6) (sc : BitVec 3) (r : MRef), r = m.refAt a 0 → LocalOk m r [.atom] 8 → m.acqPending = false → Issues (.amoMax d a b sc) s m → Completes (.amoMax d a b sc) s m ((storedLocal m r.va 8 (amoOp 5 8 (m.localRead r.va 8) (m.int b).toNat) none).wrInt d (BitVec.ofNat 64 (m.localRead r.va 8)))) ∧
  (∀ (d a b : F6) (sc : BitVec 3) (r : MRef) (m1 : M) (old : Nat) (t done : Bool), r = m.refAt a 0 → m.restartCheck r.c = .ok () → checkRef r [.atom] 8 = .ok () → r.c.kind = 0 → m.acqPending = false → (m.atomAt r.c r.va 8 sc false (fun old _ => some (amoOp 5 8 old (m.int b).toNat, false)) = .ok (m1, old, t, done)) → Issues (.amoMax d a b sc) s m → Completes (.amoMax d a b sc) s m (m1.wrInt d (BitVec.ofNat 64 old))) ∧
  (∀ (d a b : F6) (sc : BitVec 3) (r : MRef), r = m.refAt a 0 → LocalOk m r [.atom] 8 → m.acqPending = false → Issues (.amoMinu d a b sc) s m → Completes (.amoMinu d a b sc) s m ((storedLocal m r.va 8 (amoOp 6 8 (m.localRead r.va 8) (m.int b).toNat) none).wrInt d (BitVec.ofNat 64 (m.localRead r.va 8)))) ∧
  (∀ (d a b : F6) (sc : BitVec 3) (r : MRef) (m1 : M) (old : Nat) (t done : Bool), r = m.refAt a 0 → m.restartCheck r.c = .ok () → checkRef r [.atom] 8 = .ok () → r.c.kind = 0 → m.acqPending = false → (m.atomAt r.c r.va 8 sc false (fun old _ => some (amoOp 6 8 old (m.int b).toNat, false)) = .ok (m1, old, t, done)) → Issues (.amoMinu d a b sc) s m → Completes (.amoMinu d a b sc) s m (m1.wrInt d (BitVec.ofNat 64 old))) ∧
  (∀ (d a b : F6) (sc : BitVec 3) (r : MRef), r = m.refAt a 0 → LocalOk m r [.atom] 8 → m.acqPending = false → Issues (.amoSwap d a b sc) s m → Completes (.amoSwap d a b sc) s m ((storedLocal m r.va 8 (amoOp 7 8 (m.localRead r.va 8) (m.int b).toNat) none).wrInt d (BitVec.ofNat 64 (m.localRead r.va 8)))) ∧
  (∀ (d a b : F6) (sc : BitVec 3) (r : MRef) (m1 : M) (old : Nat) (t done : Bool), r = m.refAt a 0 → m.restartCheck r.c = .ok () → checkRef r [.atom] 8 = .ok () → r.c.kind = 0 → m.acqPending = false → (m.atomAt r.c r.va 8 sc false (fun old _ => some (amoOp 7 8 old (m.int b).toNat, false)) = .ok (m1, old, t, done)) → Issues (.amoSwap d a b sc) s m → Completes (.amoSwap d a b sc) s m (m1.wrInt d (BitVec.ofNat 64 old)))) ∧
  (∀ (s : State) (m : M),
  (∀ (o : XOp) (r : MRef) (n : Nat), n = szBytes (o.x.t2.setWidth 3) → r = m.refAt o.a (immOff (some o.x)) → o.x.ord = 0 → LocalOk m r [.atom] n → m.acqPending = false → m.localRead r.va n = (m.int o.x.b).toNat % 2 ^ (8 * n) → Issues (.cas o) s m → Completes (.cas o) s m (((storedLocal m r.va n ((m.int o.x.c).toNat % 2 ^ (8 * n)) (if n = 16 then some false else none)).wrInt o.d (BitVec.ofNat 64 (m.localRead r.va n))).wrInt o.x.e 1)) ∧
  (∀ (o : XOp) (r : MRef) (n : Nat), n = szBytes (o.x.t2.setWidth 3) → r = m.refAt o.a (immOff (some o.x)) → o.x.ord = 0 → LocalOk m r [.atom] n → m.acqPending = false → m.localRead r.va n ≠ (m.int o.x.b).toNat % 2 ^ (8 * n) → Issues (.cas o) s m → Completes (.cas o) s m ((m.wrInt o.d (BitVec.ofNat 64 (m.localRead r.va n))).wrInt o.x.e 0)) ∧
  (∀ (o : XOp) (r : MRef), r = m.refAt o.a (immOff (some o.x)) → o.x.ord = 0 → LocalOk m r [.atom, .tgr, .tgw] 16 → m.acqPending = false → m.localRead r.va 16 = (m.src o.x.b).bits.toNat ∧ m.localTag r.va = (m.src o.x.b).tag → Issues (.casq o) s m → Completes (.casq o) s m (((storedLocal m r.va 16 (m.src o.x.c).bits.toNat (some (m.src o.x.c).tag)).wr o.d ⟨BitVec.ofNat 128 (m.localRead r.va 16), m.localTag r.va⟩).wrInt o.x.e 1)) ∧
  (∀ (o : XOp) (r : MRef), r = m.refAt o.a (immOff (some o.x)) → o.x.ord = 0 → LocalOk m r [.atom, .tgr, .tgw] 16 → m.acqPending = false → ¬(m.localRead r.va 16 = (m.src o.x.b).bits.toNat ∧ m.localTag r.va = (m.src o.x.b).tag) → Issues (.casq o) s m → Completes (.casq o) s m ((m.wr o.d ⟨BitVec.ofNat 128 (m.localRead r.va 16), m.localTag r.va⟩).wrInt o.x.e 0)))

/-- R331, R332: a fence with nothing to wait for performs the release and the acquire that ORD asks at its scope; `cwb` writes back the lines of its range in the L1, `cwbinv` also invalidates them, `cinv` also drops the core's instruction lines of it and the fetch buffers that hold them, and `cpre` fetches them; a range of local memory or of no bytes is no work. The model's own readings that it rests on: log 5, 21, 44. -/
def Obligations.FencesAndCaches : Prop := ∀ (s : State) (m : M),
  (∀ (sc : Scope) (ord : BitVec 2) (eng : Bool) (m2 : M), m.acqPending = false → fabric sc = false → (sc == 0 && m.ownWindow) = false → (eng && m.engBusy) = false → m.ordered ord sc Except.ok = .ok m2 → Issues (.fence sc ord eng) s m → Completes (.fence sc ord eng) s m (m2)) ∧
  (∀ (sc : Scope) (ord : BitVec 2) (eng : Bool) (m2 : M), m.tickets = [] → (eng && m.engBusy) = false → m.ordered ord sc Except.ok = .ok m2 → Issues (.fence sc ord eng) s m → Completes (.fence sc ord eng) s m (m2)) ∧
  (∀ (a b : F6) (va : Nat), checkCap a (m.src a) [0, 1] [.ld] = .ok () → checkBounds (m.src a) va (m.int b).toNat = .ok () → va = (m.src a).cursor.toNat → (m.src a).kind = 1 ∨ (m.int b).toNat = 0 → Issues (.cwb a b) s m → Completes (.cwb a b) s m (m)) ∧
  (∀ (a b : F6) (va : Nat) (m1 : M), checkCap a (m.src a) [0, 1] [.ld] = .ok () → checkBounds (m.src a) va (m.int b).toNat = .ok () → va = (m.src a).cursor.toNat → ¬((m.src a).kind = 1 ∨ (m.int b).toNat = 0) → (m.l1Clean (fun l => l.ctx == m.core.ctx && lineIn va (m.int b).toNat l.va) false = .ok m1) → Issues (.cwb a b) s m → Completes (.cwb a b) s m (m1)) ∧
  (∀ (a b : F6) (va : Nat), checkCap a (m.src a) [0, 1] [.ld] = .ok () → checkBounds (m.src a) va (m.int b).toNat = .ok () → va = (m.src a).cursor.toNat → (m.src a).kind = 1 ∨ (m.int b).toNat = 0 → Issues (.cinv a b) s m → Completes (.cinv a b) s m (m)) ∧
  (∀ (a b : F6) (va : Nat) (m1 : M), checkCap a (m.src a) [0, 1] [.ld] = .ok () → checkBounds (m.src a) va (m.int b).toNat = .ok () → va = (m.src a).cursor.toNat → ¬((m.src a).kind = 1 ∨ (m.int b).toNat = 0) → (m.l1Clean (fun l => l.ctx == m.core.ctx && lineIn va (m.int b).toNat l.va) true = .ok m1) → Issues (.cinv a b) s m → Completes (.cinv a b) s m (m1.icacheDrop fun l => lineIn va (m.int b).toNat l)) ∧
  (∀ (a b : F6) (va : Nat), checkCap a (m.src a) [0, 1] [.ld] = .ok () → checkBounds (m.src a) va (m.int b).toNat = .ok () → va = (m.src a).cursor.toNat → (m.src a).kind = 1 ∨ (m.int b).toNat = 0 → Issues (.cwbinv a b) s m → Completes (.cwbinv a b) s m (m)) ∧
  (∀ (a b : F6) (va : Nat) (m1 : M), checkCap a (m.src a) [0, 1] [.ld] = .ok () → checkBounds (m.src a) va (m.int b).toNat = .ok () → va = (m.src a).cursor.toNat → ¬((m.src a).kind = 1 ∨ (m.int b).toNat = 0) → (m.l1Clean (fun l => l.ctx == m.core.ctx && lineIn va (m.int b).toNat l.va) true = .ok m1) → Issues (.cwbinv a b) s m → Completes (.cwbinv a b) s m (m1)) ∧
  (∀ (a b : F6) (va : Nat), checkCap a (m.src a) [0, 1] [.ld] = .ok () → checkBounds (m.src a) va (m.int b).toNat = .ok () → va = (m.src a).cursor.toNat → (m.src a).kind = 1 ∨ (m.int b).toNat = 0 → Issues (.cpre a b) s m → Completes (.cpre a b) s m (m)) ∧
  (∀ (a b : F6) (va : Nat), checkCap a (m.src a) [0, 1] [.ld] = .ok () → checkBounds (m.src a) va (m.int b).toNat = .ok () → va = (m.src a).cursor.toNat → ¬((m.src a).kind = 1 ∨ (m.int b).toNat = 0) → Issues (.cpre a b) s m → Completes (.cpre a b) s m ((List.range ((va + (m.int b).toNat - 1) / 64 - va / 64 + 1)).foldl (fun m k => m.prefetch (64 * (va / 64 + k))) m))

/-- R346–R350, R356, R357: every arithmetic, fused, logic, mathematical and reduction instruction completes with the lanes of its operands written to D, its flags raised and XFLOOR updated; the third source of a base word is the old D. The model's own readings that it rests on: log 17. -/
def Obligations.VectorArithmetic : Prop := ∀ (s : State) (m : M),
  (∀ (t : BitVec 3) (d a b : F6), Issues (.vadd t d a b) s m → Completes (.vadd t d a b) s m (m.vout d (laneArith 0 (m.vin {} (tyOf t {}) d a b)))) ∧
  (∀ (t : BitVec 3) (d a b : F6), Issues (.vsub t d a b) s m → Completes (.vsub t d a b) s m (m.vout d (laneArith 1 (m.vin {} (tyOf t {}) d a b)))) ∧
  (∀ (t : BitVec 3) (d a b : F6), Issues (.vmul t d a b) s m → Completes (.vmul t d a b) s m (m.vout d (laneArith 2 (m.vin {} (tyOf t {}) d a b)))) ∧
  (∀ (t : BitVec 3) (d a b : F6), Issues (.vmin t d a b) s m → Completes (.vmin t d a b) s m (m.vout d (laneArith 3 (m.vin {} (tyOf t {}) d a b)))) ∧
  (∀ (t : BitVec 3) (d a b : F6), Issues (.vmax t d a b) s m → Completes (.vmax t d a b) s m (m.vout d (laneArith 4 (m.vin {} (tyOf t {}) d a b)))) ∧
  (∀ (t : BitVec 3) (d a : F6), Issues (.vabs t d a) s m → Completes (.vabs t d a) s m (m.vout d (laneArith 5 (m.vin {} (tyOf t {}) d a 0)))) ∧
  (∀ (t : BitVec 3) (d a : F6), Issues (.vneg t d a) s m → Completes (.vneg t d a) s m (m.vout d (laneArith 6 (m.vin {} (tyOf t {}) d a 0)))) ∧
  (∀ (t : BitVec 3) (d a b : F6), Issues (.vabd t d a b) s m → Completes (.vabd t d a b) s m (m.vout d (laneArith 7 (m.vin {} (tyOf t {}) d a b)))) ∧
  (∀ (t : BitVec 3) (d a b : F6), Issues (.vfma t d a b) s m → Completes (.vfma t d a b) s m (m.vout d (laneFma 0 { m.vin {} (tyOf t {}) d a b with c := (m.vin {} (tyOf t {}) d a b).d }))) ∧
  (∀ (t : BitVec 3) (d a b : F6), Issues (.vfms t d a b) s m → Completes (.vfms t d a b) s m (m.vout d (laneFma 1 { m.vin {} (tyOf t {}) d a b with c := (m.vin {} (tyOf t {}) d a b).d }))) ∧
  (∀ (t : BitVec 3) (d a b : F6), Issues (.vfnma t d a b) s m → Completes (.vfnma t d a b) s m (m.vout d (laneFma 2 { m.vin {} (tyOf t {}) d a b with c := (m.vin {} (tyOf t {}) d a b).d }))) ∧
  (∀ (t : BitVec 3) (d a b : F6), Issues (.vfnms t d a b) s m → Completes (.vfnms t d a b) s m (m.vout d (laneFma 3 { m.vin {} (tyOf t {}) d a b with c := (m.vin {} (tyOf t {}) d a b).d }))) ∧
  (∀ (t : BitVec 3) (d a b : F6), Issues (.vdot4 t d a b) s m → Completes (.vdot4 t d a b) s m (m.vout d (laneDot (m.vin {} (tyOf t {}) d a b)))) ∧
  (∀ (t : BitVec 3) (d a b : F6), Issues (.vdot2 t d a b) s m → Completes (.vdot2 t d a b) s m (m.vout d (laneDot (m.vin {} (tyOf t {}) d a b)))) ∧
  (∀ (t : BitVec 3) (d a b : F6), Issues (.vmulh t d a b) s m → Completes (.vmulh t d a b) s m (m.vout d (laneMulh (m.vin {} (tyOf t {}) d a b)))) ∧
  (∀ (t : BitVec 3) (d a b : F6), Issues (.vsad t d a b) s m → Completes (.vsad t d a b) s m (m.vout d (laneSad (m.vin {} (tyOf t {}) d a b)))) ∧
  (∀ (t : BitVec 3) (d a b : F6), Issues (.vand t d a b) s m → Completes (.vand t d a b) s m (m.vout d (laneLogic 0 (m.vin {} (tyOf t {}) d a b)))) ∧
  (∀ (t : BitVec 3) (d a b : F6), Issues (.vor t d a b) s m → Completes (.vor t d a b) s m (m.vout d (laneLogic 1 (m.vin {} (tyOf t {}) d a b)))) ∧
  (∀ (t : BitVec 3) (d a b : F6), Issues (.vxor t d a b) s m → Completes (.vxor t d a b) s m (m.vout d (laneLogic 2 (m.vin {} (tyOf t {}) d a b)))) ∧
  (∀ (t : BitVec 3) (d a b : F6), Issues (.vandn t d a b) s m → Completes (.vandn t d a b) s m (m.vout d (laneLogic 3 (m.vin {} (tyOf t {}) d a b)))) ∧
  (∀ (t : BitVec 3) (d a b : F6), Issues (.vsll t d a b) s m → Completes (.vsll t d a b) s m (m.vout d (laneLogic 4 (m.vin {} (tyOf t {}) d a b)))) ∧
  (∀ (t : BitVec 3) (d a b : F6), Issues (.vsrl t d a b) s m → Completes (.vsrl t d a b) s m (m.vout d (laneLogic 5 (m.vin {} (tyOf t {}) d a b)))) ∧
  (∀ (t : BitVec 3) (d a b : F6), Issues (.vsra t d a b) s m → Completes (.vsra t d a b) s m (m.vout d (laneLogic 6 (m.vin {} (tyOf t {}) d a b)))) ∧
  (∀ (t : BitVec 3) (d a : F6), Issues (.vnot t d a) s m → Completes (.vnot t d a) s m (m.vout d (laneLogic 7 (m.vin {} (tyOf t {}) d a 0)))) ∧
  (∀ (t : BitVec 3) (d a : F6), Issues (.vrcp t d a) s m → Completes (.vrcp t d a) s m (m.vout d (laneMath 0 (m.vin {} (tyOf t {}) d a 0)))) ∧
  (∀ (t : BitVec 3) (d a : F6), Issues (.vrsqrt t d a) s m → Completes (.vrsqrt t d a) s m (m.vout d (laneMath 1 (m.vin {} (tyOf t {}) d a 0)))) ∧
  (∀ (t : BitVec 3) (d a : F6), Issues (.vsqrt t d a) s m → Completes (.vsqrt t d a) s m (m.vout d (laneMath 2 (m.vin {} (tyOf t {}) d a 0)))) ∧
  (∀ (t : BitVec 3) (d a b : F6), Issues (.vdiv t d a b) s m → Completes (.vdiv t d a b) s m (m.vout d (laneMath 3 (m.vin {} (tyOf t {}) d a b)))) ∧
  (∀ (t : BitVec 3) (d a : F6), Issues (.vexp2 t d a) s m → Completes (.vexp2 t d a) s m (m.vout d (laneMath 4 (m.vin {} (tyOf t {}) d a 0)))) ∧
  (∀ (t : BitVec 3) (d a : F6), Issues (.vlog2 t d a) s m → Completes (.vlog2 t d a) s m (m.vout d (laneMath 5 (m.vin {} (tyOf t {}) d a 0)))) ∧
  (∀ (t : BitVec 3) (d a : F6), Issues (.vtanh t d a) s m → Completes (.vtanh t d a) s m (m.vout d (laneMath 6 (m.vin {} (tyOf t {}) d a 0)))) ∧
  (∀ (t : BitVec 3) (d a : F6), Issues (.vsigm t d a) s m → Completes (.vsigm t d a) s m (m.vout d (laneMath 7 (m.vin {} (tyOf t {}) d a 0)))) ∧
  (∀ (t : BitVec 3) (d a : F6), Issues (.vradd t d a) s m → Completes (.vradd t d a) s m (m.vout d (laneRed 0 (m.vin {} (tyOf t {}) d a 0)))) ∧
  (∀ (t : BitVec 3) (d a : F6), Issues (.vrmax t d a) s m → Completes (.vrmax t d a) s m (m.vout d (laneRed 1 (m.vin {} (tyOf t {}) d a 0)))) ∧
  (∀ (t : BitVec 3) (d a : F6), Issues (.vrmin t d a) s m → Completes (.vrmin t d a) s m (m.vout d (laneRed 2 (m.vin {} (tyOf t {}) d a 0)))) ∧
  (∀ (t : BitVec 3) (d a : F6), Issues (.vrand t d a) s m → Completes (.vrand t d a) s m (m.vout d (laneRed 3 (m.vin {} (tyOf t {}) d a 0)))) ∧
  (∀ (t : BitVec 3) (d a : F6), Issues (.vror t d a) s m → Completes (.vror t d a) s m (m.vout d (laneRed 4 (m.vin {} (tyOf t {}) d a 0)))) ∧
  (∀ (t : BitVec 3) (d a : F6), Issues (.vrxor t d a) s m → Completes (.vrxor t d a) s m (m.vout d (laneRed 5 (m.vin {} (tyOf t {}) d a 0)))) ∧
  (∀ (t : BitVec 3) (d a : F6), Issues (.vscan t d a) s m → Completes (.vscan t d a) s m (m.vout d (laneRed 6 (m.vin {} (tyOf t {}) d a 0)))) ∧
  (∀ (t : BitVec 3) (d a : F6), Issues (.vrsum t d a) s m → Completes (.vrsum t d a) s m (m.vout d (laneRed 7 (m.vin {} (tyOf t {}) d a 0))))

/-- R351–R355, R358–R361: compares write a mask register and flags; conversions, QN4 packing and unpacking, permutations, the scaled and exact accumulations and moves write D; all complete. The model's own readings that it rests on: log 16, 17. -/
def Obligations.VectorCompareConvertMove : Prop := ∀ (s : State) (m : M),
  (∀ (t : BitVec 3) (d : BitVec 3) (a b : F6), Issues (.vceq t d a b) s m → Completes (.vceq t d a b) s m ({ m.setMask d (laneCmp 0 (m.vin {} (tyOf t {}) 0 a b) (m.mask d)).1 with flags := m.flags ||| (laneCmp 0 (m.vin {} (tyOf t {}) 0 a b) (m.mask d)).2 })) ∧
  (∀ (t : BitVec 3) (d : BitVec 3) (a b : F6), Issues (.vcne t d a b) s m → Completes (.vcne t d a b) s m ({ m.setMask d (laneCmp 1 (m.vin {} (tyOf t {}) 0 a b) (m.mask d)).1 with flags := m.flags ||| (laneCmp 1 (m.vin {} (tyOf t {}) 0 a b) (m.mask d)).2 })) ∧
  (∀ (t : BitVec 3) (d : BitVec 3) (a b : F6), Issues (.vclt t d a b) s m → Completes (.vclt t d a b) s m ({ m.setMask d (laneCmp 2 (m.vin {} (tyOf t {}) 0 a b) (m.mask d)).1 with flags := m.flags ||| (laneCmp 2 (m.vin {} (tyOf t {}) 0 a b) (m.mask d)).2 })) ∧
  (∀ (t : BitVec 3) (d : BitVec 3) (a b : F6), Issues (.vcle t d a b) s m → Completes (.vcle t d a b) s m ({ m.setMask d (laneCmp 3 (m.vin {} (tyOf t {}) 0 a b) (m.mask d)).1 with flags := m.flags ||| (laneCmp 3 (m.vin {} (tyOf t {}) 0 a b) (m.mask d)).2 })) ∧
  (∀ (t : BitVec 3) (d : BitVec 3) (a b : F6), Issues (.vcgt t d a b) s m → Completes (.vcgt t d a b) s m ({ m.setMask d (laneCmp 4 (m.vin {} (tyOf t {}) 0 a b) (m.mask d)).1 with flags := m.flags ||| (laneCmp 4 (m.vin {} (tyOf t {}) 0 a b) (m.mask d)).2 })) ∧
  (∀ (t : BitVec 3) (d : BitVec 3) (a b : F6), Issues (.vcge t d a b) s m → Completes (.vcge t d a b) s m ({ m.setMask d (laneCmp 5 (m.vin {} (tyOf t {}) 0 a b) (m.mask d)).1 with flags := m.flags ||| (laneCmp 5 (m.vin {} (tyOf t {}) 0 a b) (m.mask d)).2 })) ∧
  (∀ (t : BitVec 3) (d : BitVec 3) (a b : F6), Issues (.vcltu t d a b) s m → Completes (.vcltu t d a b) s m ({ m.setMask d (laneCmp 6 (m.vin {} (tyOf t {}) 0 a b) (m.mask d)).1 with flags := m.flags ||| (laneCmp 6 (m.vin {} (tyOf t {}) 0 a b) (m.mask d)).2 })) ∧
  (∀ (t : BitVec 3) (d : BitVec 3) (a b : F6), Issues (.vcun t d a b) s m → Completes (.vcun t d a b) s m ({ m.setMask d (laneCmp 7 (m.vin {} (tyOf t {}) 0 a b) (m.mask d)).1 with flags := m.flags ||| (laneCmp 7 (m.vin {} (tyOf t {}) 0 a b) (m.mask d)).2 })) ∧
  (∀ (t : BitVec 3) (d a b : F6), Issues (.vcvt t d a b) s m → Completes (.vcvt t d a b) s m (m.vout d (laneCvt false (m.cvtIn {} t d a b)))) ∧
  (∀ (t : BitVec 3) (d a b : F6), Issues (.vcvtSat t d a b) s m → Completes (.vcvtSat t d a b) s m (m.vout d (laneCvt true (m.cvtIn {} t d a b)))) ∧
  (∀ (t : BitVec 3) (d a b : F6), Issues (.vwid t d a b) s m → Completes (.vwid t d a b) s m (m.vout d (laneWid 0 (m.cvtIn {} t d a b)))) ∧
  (∀ (t : BitVec 3) (d a b : F6), Issues (.vwidh t d a b) s m → Completes (.vwidh t d a b) s m (m.vout d (laneWid 1 (m.cvtIn {} t d a b)))) ∧
  (∀ (t : BitVec 3) (d a b : F6), Issues (.vnar t d a b) s m → Completes (.vnar t d a b) s m (m.vout d (laneNar 0 (m.cvtIn {} t d a b)))) ∧
  (∀ (t : BitVec 3) (d a b : F6), Issues (.vrint t d a b) s m → Completes (.vrint t d a b) s m (m.vout d (laneRint (m.cvtIn {} t d a b)))) ∧
  (∀ (t : BitVec 3) (o : XOp) (src : VTy), VTy.ofCode (o.x.c.toNat % 16) = some src → Issues (.vqn4p t o) s m → Completes (.vqn4p t o) s m (m.vout o.d (laneQn4p (partOf (some o.x)) { m.vin (XOp.vform o) .qn4 o.d o.a 0 with src := src, a := m.vsrc o.a src.size, b := m.vsrc o.x.b src.size }))) ∧
  (∀ (t : BitVec 3) (o : XOp) (ty : VTy), VTy.ofCode t.toNat = some ty → Issues (.vqn4u t o) s m → Completes (.vqn4u t o) s m (m.vout o.d (laneQn4u (partOf (some o.x)) { m.vin (XOp.vform o) ty o.d o.a 0 with a := m.vsrc o.a 1, b := m.vsrc o.x.b ty.size }))) ∧
  (∀ (t : BitVec 3) (d a b : F6), Issues (.vbc t d a b) s m → Completes (.vbc t d a b) s m (m.vout d (lanePerm 0 0 (m.vin {} (tyOf t {}) d a b)))) ∧
  (∀ (t : BitVec 3) (d a b : F6), Issues (.vshf t d a b) s m → Completes (.vshf t d a b) s m (m.vout d (lanePerm 1 0 (m.vin {} (tyOf t {}) d a b)))) ∧
  (∀ (t : BitVec 3) (d a b : F6), Issues (.vrot t d a b) s m → Completes (.vrot t d a b) s m (m.vout d (lanePerm 2 0 (m.vin {} (tyOf t {}) d a b)))) ∧
  (∀ (t : BitVec 3) (d a b : F6), Issues (.vext t d a b) s m → Completes (.vext t d a b) s m (m.vout d (lanePerm 3 1 (m.vin {} (tyOf t {}) d a b)))) ∧
  (∀ (t : BitVec 3) (d a b : F6), Issues (.vins t d a b) s m → Completes (.vins t d a b) s m (m.vout d (lanePerm 4 0 (m.vin {} (tyOf t {}) d a b)))) ∧
  (∀ (t : BitVec 3) (d a b : F6), Issues (.vzip t d a b) s m → Completes (.vzip t d a b) s m (m.vout d (lanePerm 5 0 (m.vin {} (tyOf t {}) d a b)))) ∧
  (∀ (t : BitVec 3) (d a b : F6), Issues (.vuzp t d a b) s m → Completes (.vuzp t d a b) s m (m.vout d (lanePerm 6 0 (m.vin {} (tyOf t {}) d a b)))) ∧
  (∀ (t : BitVec 3) (d a : F6) (b : BitVec 3), Issues (.vcpr t d a b) s m → Completes (.vcpr t d a b) s m (m.vout d (lanePerm 7 0 { m.vin {} (tyOf t {}) d a 0 with kb := m.mask b }))) ∧
  (∀ (d a b : F6), Issues (.vsacc d a b) s m → Completes (.vsacc d a b) s m (m.vout d (laneSacc (m.vin {} (tyOf 0 {}) d a b)))) ∧
  (∀ (d a : F6), Issues (.vxpk d a) s m → Completes (.vxpk d a) s m (m.vout d (laneXpk (m.vin {} (tyOf 0 {}) d a 0)))) ∧
  (∀ (d a : F6), Issues (.vxacc d a) s m → Completes (.vxacc d a) s m (m.vout d (laneXacc (m.vin {} (tyOf 0 {}) d a 0)))) ∧
  (∀ (d a : F6), Issues (.vxfin d a) s m → Completes (.vxfin d a) s m (m.vout d (laneXfin (m.vin {} (tyOf 0 {}) d a 0)))) ∧
  (∀ (d a b : F6), Issues (.vbsc d a b) s m → Completes (.vbsc d a b) s m (m.vout d (laneBsc (m.vin {} (tyOf 0 {}) d a b)))) ∧
  (∀ (t : BitVec 3) (d a : F6), Issues (.vmov t d a) s m → Completes (.vmov t d a) s m (m.vout d (laneMov 0 (m.vin {} (tyOf t {}) d a 0)))) ∧
  (∀ (t : BitVec 3) (d : F6), Issues (.vzero t d) s m → Completes (.vzero t d) s m (m.vout d (laneMov 1 (m.vin {} (tyOf t {}) d 0 0)))) ∧
  (∀ (t : BitVec 3) (d a : F6), Issues (.vfill t d a) s m → Completes (.vfill t d a) s m (m.vout d (laneMov 2 { m.vin {} (tyOf t {}) d 0 0 with sc := m.int a }))) ∧
  (∀ (t : BitVec 3) (d : F6) (a : BitVec 3), Issues (.vkmov t d a) s m → Completes (.vkmov t d a) s m (m.vout d (laneMov 3 { m.vin {} (tyOf t {}) d 0 0 with kb := m.mask a }))) ∧
  (∀ (t : BitVec 3) (d a b : F6), Issues (.vwbc t d a b) s m → Completes (.vwbc t d a b) s m (m.vout d (laneMov 4 (m.vin {} (tyOf t {}) d a b))))

/-- R343, R344, R346–R348, R350: element j of a result is the computed one where its mask bit is set, else zero under Z, else the old element; an active integer element of an add, subtract, multiply, minimum, maximum, absolute difference or fused operation is the exact integer result, wrapped or (with X[1], for the first three) clamped, and a logic element is the bits' operation. -/
def Obligations.VectorElements : Prop := (∀ (i : VIn) (s : Nat) (f : Nat → FRes) (j : Nat), s ∈ [1, 2, 4, 8] → j < 64 / s →
    elem (i.lanes s f).v s j = if i.mask.getLsbD (s * j) then (f j).bits % 2 ^ (8 * s) else if i.z then 0 else elem i.d s j) ∧
  (∀ (i : VIn) (j : Nat), i.ty.fmt = none → j < 64 / i.ty.size → i.mask.getLsbD (i.ty.size * j) = true →
    elem (laneArith 0 i).v i.ty.size j = intBits i.ty.bits (if i.x.getLsbD 1 then clampInt (intMin i.ty.signed i.ty.bits) (intMax i.ty.signed i.ty.bits) ((intVal i.ty.signed i.ty.bits (elem i.a i.ty.size j)) + (intVal i.ty.signed i.ty.bits (elem i.b i.ty.size j))) else (intVal i.ty.signed i.ty.bits (elem i.a i.ty.size j)) + (intVal i.ty.signed i.ty.bits (elem i.b i.ty.size j))) % 2 ^ (8 * i.ty.size)) ∧
  (∀ (i : VIn) (j : Nat), i.ty.fmt = none → j < 64 / i.ty.size → i.mask.getLsbD (i.ty.size * j) = true →
    elem (laneArith 1 i).v i.ty.size j = intBits i.ty.bits (if i.x.getLsbD 1 then clampInt (intMin i.ty.signed i.ty.bits) (intMax i.ty.signed i.ty.bits) ((intVal i.ty.signed i.ty.bits (elem i.a i.ty.size j)) - (intVal i.ty.signed i.ty.bits (elem i.b i.ty.size j))) else (intVal i.ty.signed i.ty.bits (elem i.a i.ty.size j)) - (intVal i.ty.signed i.ty.bits (elem i.b i.ty.size j))) % 2 ^ (8 * i.ty.size)) ∧
  (∀ (i : VIn) (j : Nat), i.ty.fmt = none → j < 64 / i.ty.size → i.mask.getLsbD (i.ty.size * j) = true →
    elem (laneArith 2 i).v i.ty.size j = intBits i.ty.bits (if i.x.getLsbD 1 then clampInt (intMin i.ty.signed i.ty.bits) (intMax i.ty.signed i.ty.bits) ((intVal i.ty.signed i.ty.bits (elem i.a i.ty.size j)) * (intVal i.ty.signed i.ty.bits (elem i.b i.ty.size j))) else (intVal i.ty.signed i.ty.bits (elem i.a i.ty.size j)) * (intVal i.ty.signed i.ty.bits (elem i.b i.ty.size j))) % 2 ^ (8 * i.ty.size)) ∧
  (∀ (i : VIn) (j : Nat), i.ty.fmt = none → j < 64 / i.ty.size → i.mask.getLsbD (i.ty.size * j) = true →
    elem (laneArith 3 i).v i.ty.size j = intBits i.ty.bits (if (intVal i.ty.signed i.ty.bits (elem i.a i.ty.size j)) ≤ (intVal i.ty.signed i.ty.bits (elem i.b i.ty.size j)) then (intVal i.ty.signed i.ty.bits (elem i.a i.ty.size j)) else (intVal i.ty.signed i.ty.bits (elem i.b i.ty.size j))) % 2 ^ (8 * i.ty.size)) ∧
  (∀ (i : VIn) (j : Nat), i.ty.fmt = none → j < 64 / i.ty.size → i.mask.getLsbD (i.ty.size * j) = true →
    elem (laneArith 4 i).v i.ty.size j = intBits i.ty.bits (if (intVal i.ty.signed i.ty.bits (elem i.a i.ty.size j)) ≤ (intVal i.ty.signed i.ty.bits (elem i.b i.ty.size j)) then (intVal i.ty.signed i.ty.bits (elem i.b i.ty.size j)) else (intVal i.ty.signed i.ty.bits (elem i.a i.ty.size j))) % 2 ^ (8 * i.ty.size)) ∧
  (∀ (i : VIn) (j : Nat), i.ty.fmt = none → j < 64 / i.ty.size → i.mask.getLsbD (i.ty.size * j) = true →
    elem (laneArith 7 i).v i.ty.size j = intBits i.ty.bits (((intVal i.ty.signed i.ty.bits (elem i.a i.ty.size j)) - (intVal i.ty.signed i.ty.bits (elem i.b i.ty.size j))).natAbs : Int) % 2 ^ (8 * i.ty.size)) ∧
  (∀ (i : VIn) (j : Nat), i.ty.fmt = none → j < 64 / i.ty.size → i.mask.getLsbD (i.ty.size * j) = true →
    elem (laneFma 0 i).v i.ty.size j = intBits i.ty.bits ((intVal i.ty.signed i.ty.bits (elem i.c i.ty.size j)) + (intVal i.ty.signed i.ty.bits (elem i.a i.ty.size j)) * (intVal i.ty.signed i.ty.bits (elem i.b i.ty.size j))) % 2 ^ (8 * i.ty.size)) ∧
  (∀ (i : VIn) (j : Nat), i.ty.fmt = none → j < 64 / i.ty.size → i.mask.getLsbD (i.ty.size * j) = true →
    elem (laneFma 1 i).v i.ty.size j = intBits i.ty.bits ((intVal i.ty.signed i.ty.bits (elem i.c i.ty.size j)) - (intVal i.ty.signed i.ty.bits (elem i.a i.ty.size j)) * (intVal i.ty.signed i.ty.bits (elem i.b i.ty.size j))) % 2 ^ (8 * i.ty.size)) ∧
  (∀ (i : VIn) (j : Nat), i.ty.fmt = none → j < 64 / i.ty.size → i.mask.getLsbD (i.ty.size * j) = true →
    elem (laneFma 2 i).v i.ty.size j = intBits i.ty.bits (-((intVal i.ty.signed i.ty.bits (elem i.c i.ty.size j)) + (intVal i.ty.signed i.ty.bits (elem i.a i.ty.size j)) * (intVal i.ty.signed i.ty.bits (elem i.b i.ty.size j)))) % 2 ^ (8 * i.ty.size)) ∧
  (∀ (i : VIn) (j : Nat), i.ty.fmt = none → j < 64 / i.ty.size → i.mask.getLsbD (i.ty.size * j) = true →
    elem (laneFma 3 i).v i.ty.size j = intBits i.ty.bits ((intVal i.ty.signed i.ty.bits (elem i.a i.ty.size j)) * (intVal i.ty.signed i.ty.bits (elem i.b i.ty.size j)) - (intVal i.ty.signed i.ty.bits (elem i.c i.ty.size j))) % 2 ^ (8 * i.ty.size)) ∧
  (∀ (i : VIn) (j : Nat), j < 64 / i.ty.size → i.mask.getLsbD (i.ty.size * j) = true →
    elem (laneLogic 0 i).v i.ty.size j = (elem i.a i.ty.size j &&& elem i.b i.ty.size j) % 2 ^ (8 * i.ty.size)) ∧
  (∀ (i : VIn) (j : Nat), j < 64 / i.ty.size → i.mask.getLsbD (i.ty.size * j) = true →
    elem (laneLogic 1 i).v i.ty.size j = (elem i.a i.ty.size j ||| elem i.b i.ty.size j) % 2 ^ (8 * i.ty.size)) ∧
  (∀ (i : VIn) (j : Nat), j < 64 / i.ty.size → i.mask.getLsbD (i.ty.size * j) = true →
    elem (laneLogic 2 i).v i.ty.size j = (elem i.a i.ty.size j ^^^ elem i.b i.ty.size j) % 2 ^ (8 * i.ty.size))

/-- R362, R363, R238: a vector load or store of local memory whose elements are in bounds, aligned and below the register window loads every active element into its place of D, or stores it, and updates the base; through type 0, with no element that faults, it performs the elements' accesses, and a store of a whole aligned block as one write (R44); a store that touches tenured bytes with no write tenure over all of them traps with TENURE (R201). The model's own readings that it rests on: log 10, 20. -/
def Obligations.VectorLoadsAndStores : Prop := ∀ (s : State) (m : M),
  (∀ (d a : F6) (sz : BitVec 3) (am : BitVec 2) (ea : BitVec 7) (v : VAcc), v = m.vacc {} a sz am ea → v.r.c.tag = true → v.r.c.kind = 1 → capHas v.r.c .ld = true → m.acqPending = false → ((∀ j < v.n, v.r.c.base ≤ v.at_ j ∧ v.at_ j + v.s ≤ v.r.c.top ∧ v.at_ j % v.s = 0 ∧ v.at_ j + v.s ≤ 0x3C000)) → Issues (.vld d a sz am ea) s m → Completes (.vld d a sz am ea) s m (((m.vwrite d.toNat (v.acts.foldl (fun r j => BitVec.ofNat 512 (putBytes r.toNat (v.s * j) v.s (m.localRead (v.at_ j) v.s))) (m.vsrc d v.s)))).update a v.r.ad)) ∧
  (∀ (d a : F6) (sz : BitVec 3) (am : BitVec 2) (ea : BitVec 7) (v : VAcc) (m1 : M) (w : V512), v = m.vacc {} a sz am ea → v.r.c.kind = 0 → checkCap a v.r.c (if am = 3 then [0, 1] else [0, 1, 6]) [.ld] = .ok () → m.acqPending = false → m.vfaults v false = [] → m.vloadAll v v.acts (m.vsrc d v.s) = .ok (m1, w) → Issues (.vld d a sz am ea) s m → Completes (.vld d a sz am ea) s m ((m1.vwrite d.toNat w).update a v.r.ad)) ∧
  (∀ (d a : F6) (sz : BitVec 3) (am : BitVec 2) (ea : BitVec 7) (v : VAcc), v = m.vacc {} a sz am ea → v.r.c.tag = true → v.r.c.kind = 1 → capHas v.r.c .st = true → m.acqPending = false → ((∀ j < v.n, v.r.c.base ≤ v.at_ j ∧ v.at_ j + v.s ≤ v.r.c.top ∧ v.at_ j % v.s = 0 ∧ v.at_ j + v.s ≤ 0x3C000)) → Issues (.vst d a sz am ea) s m → Completes (.vst d a sz am ea) s m ((v.acts.foldl (fun m1 j => m1.localWrite (v.at_ j) v.s (elem (m.vsrc d v.s) v.s j)) m).update a v.r.ad)) ∧
  (∀ (d a : F6) (sz : BitVec 3) (am : BitVec 2) (ea : BitVec 7) (v : VAcc) (m1 : M), v = m.vacc {} a sz am ea → v.r.c.kind = 0 → m.restartCheck v.r.c = .ok () → checkCap a v.r.c (if am = 3 then [0, 1] else [0, 1, 6]) [.st] = .ok () → m.acqPending = false → m.vfaults v true = [] → m.uncovered (v.touched v.acts) true = [] → ((if am != 3 && v.r.c.kind == 0 && decide (v.acts.length = v.n) && v.r.va % 64 == 0 then m.storeAt v.r.c v.r.va 64 (m.vsrc d v.s).toNat none false
      else v.acts.foldlM (fun m1 j => m1.storeAt v.r.c (v.at_ j) v.s (elem (m.vsrc d v.s) v.s j) none false) m) = .ok m1) → Issues (.vst d a sz am ea) s m → Completes (.vst d a sz am ea) s m (m1.update a v.r.ad)) ∧
  (∀ (d a : F6) (sz : BitVec 3) (am : BitVec 2) (ea : BitVec 7) (v : VAcc), v = m.vacc {} a sz am ea → v.r.c.kind = 0 → m.restartCheck v.r.c = .ok () → checkCap a v.r.c (if am = 3 then [0, 1] else [0, 1, 6]) [.st] = .ok () → m.acqPending = false → m.vfaults v true = [] → m.uncovered (v.touched v.acts) true ≠ [] → Issues (.vst d a sz am ea) s m → Traps (.vst d a sz am ea) s m causeTenure 0)

/-- R188, R190, R195, R384, R387: `tnew` takes a free name and writes its handle; `tfree` frees a name, or a tensor region with no tenure held or queued, and traps with TENURE while there is one; `tref` takes a hold of a LIVE version; `tdrop` and `tdrop.all` end a hold or drop a LIVE version and test it for reclaim, and do nothing to one that is not LIVE; `tinfo` and `tchk` write what they find. All of a home on the own module, its handle's checks passed. R187, R383: the checks of a tile handle in their order: the tag, the type and kind, the permissions (one of those needed, and each of those needed beside it; remote for another module's versioned handle; a tenured handle only of the own module), the bounds of the adjusted name or rectangle, the range of the adjusted version, and at the home the generation; the first that fails traps with value 0, and when all pass the operation goes on. The model's own readings that it rests on: log 6, 26. -/
def Obligations.TileNamesAndHandles : Prop := (∀ (s : State) (m : M),
  (∀ (o : XOp) (n : Nat) (x : TName), freshName m.st m.core.die = some n → x = { name := n, gen := (m.st.tname? n).elim 0 (·.gen), ctx := m.core.ctx, gran := granulesOf (fieldOf (m.int o.a) 62 48 % 64 + 1) (fieldOf (m.int o.a) 62 48 / 64 % 64 + 1) (BitVec.ofNat 3 (fieldOf (m.int o.a) 62 48 / 2 ^ 12)), rows := fieldOf (m.int o.a) 62 48 % 64 + 1, cols := fieldOf (m.int o.a) 62 48 / 64 % 64 + 1, fmt := BitVec.ofNat 3 (fieldOf (m.int o.a) 62 48 / 2 ^ 12), dead := (m.st.tname? n).elim [] (·.dead) } → Issues (.tnew o) s m → Completes (.tnew o) s m (({ m with st := m.st.setDie (nameDie n) fun d => { d with names := x :: d.names.filter fun y => decide (y.name ≠ n) } } : M).wr o.d (mkHandle false n x.gen m.st.modid (fieldOf (m.int o.a) 62 48) 0x7F))) ∧
  (∀ (o : XOp) (r : TRef), Cap.tenured (m.src o.a) = false → m.tileOp o.a 0 .versioned [tpPublish] = .ok r → r.own = true → Issues (.tfree o) s m → Completes (.tfree o) s m (m.world (·.freeName r.name))) ∧
  (∀ (o : XOp) (r : TRef) (t : TRegion), Cap.tenured (m.src o.a) = true → m.tileOp o.a 0 .tenured [tpTenW] none [tpSplit] = .ok r → m.st.tregion? r.name = some t → (∀ x ∈ t.recs, x.oneShot = true) → Issues (.tfree o) s m → Completes (.tfree o) s m (m.world (·.freeRegion r.name))) ∧
  (∀ (o : XOp) (r : TRef) (t : TRegion), Cap.tenured (m.src o.a) = true → m.tileOp o.a 0 .tenured [tpTenW] none [tpSplit] = .ok r → m.st.tregion? r.name = some t → (∃ x ∈ t.recs, x.oneShot = false) → Issues (.tfree o) s m → Traps (.tfree o) s m causeTenure 4) ∧
  (∀ (a b : F6) (r : TRef) (x : TName), m.served (tileRef m.st (m.src a) (m.int b)).name (tileRef m.st (m.src a) (m.int b)).ver = none → m.tileOp a b .versioned [tpRead] = .ok r → r.own = true → m.st.tname? r.name = some x → x.stateOf r.ver = 2 → Issues (.tref a b) s m → Completes (.tref a b) s m ({ m with st := m.st.setTname r.name fun x => x.setVer r.ver fun y => { y with holds := y.holds + 1 } })) ∧
  (∀ (a b : F6) (r : TRef) (x : TName), m.tileOp a b .versioned [tpRead] = .ok r → r.own = true → m.st.tname? r.name = some x → x.stateOf r.ver = 2 → Issues (.tdrop a b) s m → Completes (.tdrop a b) s m ({ m with st := (m.st.setTname r.name fun x => x.setVer r.ver fun y => { y with holds := y.holds - 1 }).reclaimTest r.name })) ∧
  (∀ (a b : F6) (r : TRef) (x : TName), m.tileOp a b .versioned [tpRead] = .ok r → r.own = true → m.st.tname? r.name = some x → x.stateOf r.ver ≠ 2 → Issues (.tdrop a b) s m → Completes (.tdrop a b) s m (m)) ∧
  (∀ (a b : F6) (r : TRef) (x : TName), m.tileOp a b .versioned [tpPublish] = .ok r → r.own = true → m.st.tname? r.name = some x → x.stateOf r.ver = 2 → Issues (.tdropAll a b) s m → Completes (.tdropAll a b) s m ({ m with st := (m.st.setTname r.name fun x => x.setVer r.ver fun y => { y with drop := true }).reclaimTest r.name })) ∧
  (∀ (a b : F6) (r : TRef) (x : TName), m.tileOp a b .versioned [tpPublish] = .ok r → r.own = true → m.st.tname? r.name = some x → x.stateOf r.ver ≠ 2 → Issues (.tdropAll a b) s m → Completes (.tdropAll a b) s m (m)) ∧
  (∀ (d a b : F6) (r : TRef) (x : TName), m.tileOp a b .either [] = .ok r → r.own = true → Cap.tenured r.c = false → m.st.tname? r.name = some x → Issues (.tinfo d a b) s m → Completes (.tinfo d a b) s m (m.wrInt d (versionWord x r.ver))) ∧
  (∀ (d a b : F6) (r : TRef) (t : TRegion), m.tileOp a b .either [] = .ok r → r.own = true → Cap.tenured r.c = true → m.st.tregion? r.name = some t → Issues (.tinfo d a b) s m → Completes (.tinfo d a b) s m (m.wrInt d (tenureWord m t r.rect))) ∧
  (∀ (d a : F6) (r : TRef) (c : BitVec 8), r = tileRef m.st (m.src a) 0 → r.fault m.st 0 .either [] = some c → Issues (.tchk d a) s m → Completes (.tchk d a) s m (m.wrInt d (c.setWidth 64))) ∧
  (∀ (d a : F6) (r : TRef), r = tileRef m.st (m.src a) 0 → r.fault m.st 0 .either [] = none → r.own = true → Issues (.tchk d a) s m → Completes (.tchk d a) s m (m.wrInt d (if r.live m.st then 0 else 0x0F)))) ∧
  (∀ (m : M),
  (∀ (a b : F6) (k : TKind) (need also : List Nat) (r : TRef), r = tileRef m.st (m.src a) (m.int b) → r.c.tag = false → m.tileOp a b k need none also = .error (.trap 0x04 0 [])) ∧
  (∀ (a b : F6) (k : TKind) (need also : List Nat) (r : TRef), r = tileRef m.st (m.src a) (m.int b) → r.c.tag = true → (r.c.kind ≠ 2 ∨ k.fits r.c = false) → m.tileOp a b k need none also = .error (.trap 0x07 0 [])) ∧
  (∀ (a b : F6) (k : TKind) (need also : List Nat) (r : TRef), r = tileRef m.st (m.src a) (m.int b) → r.c.tag = true → r.c.kind = 2 → k.fits r.c = true → ¬((need.isEmpty = true ∨ need.any (Cap.tilePerm r.c) = true) ∧ also.all (Cap.tilePerm r.c) = true ∧ (r.own = true ∨ (Cap.tenured r.c = false ∧ Cap.tilePerm r.c tpRemote = true))) → m.tileOp a b k need none also = .error (.trap 0x06 0 [])) ∧
  (∀ (a b : F6) (k : TKind) (need also : List Nat) (r : TRef), r = tileRef m.st (m.src a) (m.int b) → r.c.tag = true → r.c.kind = 2 → k.fits r.c = true → (need.isEmpty = true ∨ need.any (Cap.tilePerm r.c) = true) ∧ also.all (Cap.tilePerm r.c) = true ∧ (r.own = true ∨ (Cap.tenured r.c = false ∧ Cap.tilePerm r.c tpRemote = true)) → r.inBounds m.st (m.int b) = false → m.tileOp a b k need none also = .error (.trap 0x05 0 [])) ∧
  (∀ (a b : F6) (k : TKind) (need also : List Nat) (r : TRef), r = tileRef m.st (m.src a) (m.int b) → r.fault m.st (m.int b) k need also = none → Cap.tenured r.c = false → 65535 < r.ver → m.tileOp a b k need none also = .error (.trap causeVersionWindow (BitVec.ofNat 64 (r.ver % 2 ^ 16)) [])) ∧
  (∀ (a b : F6) (k : TKind) (need also : List Nat) (r : TRef), r = tileRef m.st (m.src a) (m.int b) → r.fault m.st (m.int b) k need also = none → r.own = true → (Cap.tenured r.c = true ∨ r.ver ≤ 65535) → r.live m.st = false → m.tileOp a b k need none also = .error (.trap 0x0F 0 [])) ∧
  (∀ (a b : F6) (k : TKind) (need also : List Nat) (r : TRef), r = tileRef m.st (m.src a) (m.int b) → r.c.tag = true → r.c.kind = 2 → k.fits r.c = true → (need.isEmpty = true ∨ need.any (Cap.tilePerm r.c) = true) ∧ also.all (Cap.tilePerm r.c) = true ∧ (r.own = true ∨ (Cap.tenured r.c = false ∧ Cap.tilePerm r.c tpRemote = true)) → r.inBounds m.st (m.int b) = true → (Cap.tenured r.c = true ∨ r.ver ≤ 65535) → (r.own = false ∨ r.live m.st = true) →
    m.tileOp a b k need none also = .ok r))

/-- R191–R193, R385, R386: at a home on the own module, `tvst` of an absent version in the window that has a frame is accepted with the reader count named, releases, reads its place and completes its publish; `tvld` and `tvldc` of a LIVE version acquire, write the place and test for reclaim, `tvldc` claiming a reader unit; `tvw` of a LIVE version acquires; with FF, E becomes 1. The model's own readings that it rests on: log 26, 27. -/
def Obligations.TileMoves : Prop := ∀ (s : State) (m : M),
  (∀ (o : XOp) (r : TRef) (x : TName) (m1 m2 : M) (data : List V512) (t : State), m.acqPending = false → m.st.publishAccepted (tileRef m.st (m.src o.a) (m.int o.x.b)).name (tileRef m.st (m.src o.a) (m.int o.x.b)).ver m.who = none → m.restart = false → m.tileOp o.a o.x.b .versioned [tpPublish] (some o.x.sc) = .ok r → m.tilePlace o r false = .ok () → r.own = true → m.st.tname? r.name = some x → x.stateOf r.ver = 0 → x.w < r.ver ∧ r.ver ≤ x.w + 16 → (m.st.acceptPublish r.name r.ver none (readersOf (o.x.imm.toNat % 2 ^ 16))).isSome = true → m.release o.x.sc = .ok m1 → m1.placeRead o (Cap.granules r.c) = .ok (m2, data) → m2.restart = false → m2.st.acceptPublish r.name r.ver none (readersOf (o.x.imm.toNat % 2 ^ 16)) = some t → Issues (.tvst o) s m → Completes (.tvst o) s m ({ m2 with st := t.publishEnd x.ref r.ver (readersOf (o.x.imm.toNat % 2 ^ 16)) data })) ∧
  (∀ (o : XOp) (r : TRef) (x : TName) (y : Version) (m1 m2 : M), m.acqPending = false → m.restart = false → m.served (tileRef m.st (m.src o.a) (m.int o.x.b)).name (tileRef m.st (m.src o.a) (m.int o.x.b)).ver = none → m.tileOp o.a o.x.b .versioned [tpRead] (some o.x.sc) = .ok r → m.tilePlace o r true = .ok () → r.own = true → m.st.tname? r.name = some x → x.stateOf r.ver = 2 → x.ver? r.ver = some y → ({ m with st := m.st } : M).acquire o.x.sc = .ok m1 → m1.placeWrite o y.data = .ok m2 → Issues (.tvld o) s m → Completes (.tvld o) s m ((let m3 : M := if o.x.ff then m2.wrInt o.x.e 1 else m2; { m3 with st := m3.st.reclaimTest r.name }))) ∧
  (∀ (o : XOp) (r : TRef) (x : TName) (y : Version) (m1 m2 : M), m.acqPending = false → m.restart = false → m.served (tileRef m.st (m.src o.a) (m.int o.x.b)).name (tileRef m.st (m.src o.a) (m.int o.x.b)).ver = none → m.tileOp o.a o.x.b .versioned [tpConsume] (some o.x.sc) = .ok r → m.tilePlace o r true = .ok () → r.own = true → m.st.tname? r.name = some x → x.stateOf r.ver = 2 → x.ver? r.ver = some y → y.readers ≠ some 0 → (({ m with st := (m.st.setTname r.name fun x => x.setVer r.ver fun y => y.claim false) } : M).acquire o.x.sc = .ok m1) → m1.placeWrite o y.data = .ok m2 → Issues (.tvldc o) s m → Completes (.tvldc o) s m ((let m3 : M := if o.x.ff then m2.wrInt o.x.e 1 else m2; { m3 with st := m3.st.reclaimTest r.name }))) ∧
  (∀ (o : XOp) (r : TRef) (x : TName) (m1 : M), m.acqPending = false → m.served (tileRef m.st (m.src o.a) (m.int o.x.b)).name (tileRef m.st (m.src o.a) (m.int o.x.b)).ver = none → m.tileOp o.a o.x.b .versioned [tpRead] (some o.x.sc) = .ok r → r.own = true → m.st.tname? r.name = some x → x.stateOf r.ver = 2 → m.acquire o.x.sc = .ok m1 → Issues (.tvw o) s m → Completes (.tvw o) s m (if o.x.ff then m1.wrInt o.x.e 1 else m1))

/-- R197–R204, R388, R389: `tdecl` takes a free tensor-region number and writes its handle; a tenure request that is granted flushes the rectangle's lines and acquires, and with FF one that is not granted writes 0; `trel` ends the team's tenure on exactly the rectangle, else only releases; `tsplit` records the grid and writes the first sub-tile's handle; `tmerge` frees the rectangle unless a sub-tile is held; `thalo` replaces or ends the subscription. Not in restartable mode. The model's own readings that it rests on: log 6, 26, 30. -/
def Obligations.TenureInstructions : Prop := ∀ (s : State) (m : M),
  (∀ (o : XOp) (n : Nat) (gen : BitVec 6) (t : TRegion), checkCap o.x.c (m.src o.x.c) [0] [.ld, .st] = .ok () → ¬(bitsN (m.src o.a).bits.toNat 127 120 ≠ 0 ∨ bitsN (m.src o.a).bits.toNat 68 64 ≠ 0 ∨ bitsN (m.src o.a).bits.toNat 119 96 % 64 ≠ 0 ∨ bitsN (m.src o.a).bits.toNat 119 96 < (((bitsN (m.src o.a).bits.toNat 95 84 + 1) * fmtBits (BitVec.ofNat 3 (bitsN (m.src o.a).bits.toNat 71 69)) + 7) / 8) ∨ (m.src o.a).bits.toNat % 2 ^ 64 % 64 ≠ 0) → checkBounds (m.src o.x.c) ((m.src o.a).bits.toNat % 2 ^ 64) (((bitsN (m.src o.a).bits.toNat 83 72 + 1) - 1) * bitsN (m.src o.a).bits.toNat 119 96 + (((bitsN (m.src o.a).bits.toNat 95 84 + 1) * fmtBits (BitVec.ofNat 3 (bitsN (m.src o.a).bits.toNat 71 69)) + 7) / 8)) = .ok () → freshRegion m.st m.core.die = some n → gen = (m.st.tregion? n).elim 0 (·.gen) → t = { num := n, gen := gen, ctx := m.core.ctx, base := (m.src o.a).bits.toNat % 2 ^ 64, rows := (bitsN (m.src o.a).bits.toNat 83 72 + 1), cols := (bitsN (m.src o.a).bits.toNat 95 84 + 1), stride := bitsN (m.src o.a).bits.toNat 119 96, fmt := (BitVec.ofNat 3 (bitsN (m.src o.a).bits.toNat 71 69)) } → Issues (.tdecl o) s m → Completes (.tdecl o) s m (({ m with st := m.st.setDie (n / 128) fun d => { d with tregions := t :: d.tregions.filter fun x => decide (x.num ≠ n) } } : M).wr o.d (mkHandle true n gen m.st.modid (o.x.imm.toNat % 2 ^ 12 + t.fmt.toNat * 2 ^ 12) 0x7F))) ∧
  (∀ (o : XOp) (r : TRef) (t : TRegion) (m0 m1 m2 : M), m.restart = false → m.acqPending = false → m.tileOp o.a o.x.b .tenured [if o.x.x.getLsbD 1 then tpTenW else tpTenR] = .ok r → m.st.tregion? r.name = some t → m.thr.granted = false → m.core.tenures.length < 16 → t.grants r.rect (o.x.x.getLsbD 1) = true → m.st.recRoom r.name = true → (m0 = { m with st := m.st.setTregion r.name fun t => { t with recs := t.recs ++ [({ launch := m.core.launch, team := m.core.team, thr := m.tid.val, slot := m.core.tenSlot, rect := r.rect, write := o.x.x.getLsbD 1, held := true } : TenRec)] }, core := { m.core with tenures := m.core.tenures ++ [({ slot := m.core.tenSlot, region := r.name, rect := r.rect, write := o.x.x.getLsbD 1, held := true } : TenEntry)] } }) → m0.rectFlush t r.rect = .ok m1 → m1.acquire o.x.sc = .ok m2 → Issues (.tten o) s m → Completes (.tten o) s m (if o.x.ff then m2.wrInt o.x.e 1 else m2)) ∧
  (∀ (o : XOp) (r : TRef) (t : TRegion) (m1 m2 : M), m.restart = false → m.acqPending = false → m.tileOp o.a o.x.b .tenured [if o.x.x.getLsbD 1 then tpTenW else tpTenR] = .ok r → m.st.tregion? r.name = some t → m.thr.granted = true → m.rectFlush t r.rect = .ok m1 → m1.acquire o.x.sc = .ok m2 → Issues (.tten o) s m → Completes (.tten o) s m (if o.x.ff then m2.wrInt o.x.e 1 else m2)) ∧
  (∀ (o : XOp) (r : TRef) (t : TRegion), m.restart = false → m.acqPending = false → m.tileOp o.a o.x.b .tenured [if o.x.x.getLsbD 1 then tpTenW else tpTenR] = .ok r → m.st.tregion? r.name = some t → m.thr.granted = false → m.core.tenures.length < 16 → o.x.ff = true → t.grants r.rect (o.x.x.getLsbD 1) = false → Issues (.tten o) s m → Completes (.tten o) s m (m.wrInt o.x.e 0)) ∧
  (∀ (o : XOp) (r : TRef) (e : TenEntry) (m1 : M), m.restart = false → m.acqPending = false → m.tileOp o.a o.x.b .tenured (relNeed (m.core.tenureOn (Cap.tileName (m.src o.a)) (tileRef m.st (m.src o.a) (m.int o.x.b)).rect)) = .ok r → m.core.tickets = [] → m.core.tenureOn r.name r.rect = some e → m.endTenure e o.x.sc = .ok m1 → Issues (.trel o) s m → Completes (.trel o) s m (m1)) ∧
  (∀ (o : XOp) (r : TRef) (m1 : M), m.restart = false → m.acqPending = false → m.tileOp o.a o.x.b .tenured (relNeed (m.core.tenureOn (Cap.tileName (m.src o.a)) (tileRef m.st (m.src o.a) (m.int o.x.b)).rect)) = .ok r → m.core.tickets = [] → m.core.tenureOn r.name r.rect = none → m.release o.x.sc = .ok m1 → Issues (.trel o) s m → Completes (.trel o) s m (m1)) ∧
  (∀ (o : XOp) (r : TRef) (t : TRegion) (e : TenEntry) (m1 : M), m.restart = false → m.acqPending = false → m.tileOp o.a o.x.b .tenured [tpSplit] = .ok r → m.st.tregion? r.name = some t → m.core.tenureOn r.name r.rect = some e → e.write = true → (1 ≤ (o.x.imm.toNat % 16) ∧ (o.x.imm.toNat % 16) ≤ 8 ∧ 1 ≤ (o.x.imm.toNat / 16 % 16) ∧ (o.x.imm.toNat / 16 % 16) ≤ 8 ∧ 2 ≤ (o.x.imm.toNat % 16) * (o.x.imm.toNat / 16 % 16) ∧ r.rect.rows % (o.x.imm.toNat % 16) = 0 ∧ r.rect.cols % (o.x.imm.toNat / 16 % 16) = 0) → t.isSub r.rect = false → ((m.world fun s => s.setTregion r.name fun t => { t with splits := t.splits ++ [(r.rect, (o.x.imm.toNat % 16), (o.x.imm.toNat / 16 % 16))] }).endTenure e o.x.sc = .ok m1) → Issues (.tsplit o) s m → Completes (.tsplit o) s m (m1.wr o.d ⟨setField (setField (setField r.c.bits 80 12 r.rect.row) 92 12 r.rect.col) 48 12 (r.rect.rows / (o.x.imm.toNat % 16) - 1 + (r.rect.cols / (o.x.imm.toNat / 16 % 16) - 1) * 64), true⟩)) ∧
  (∀ (o : XOp) (r : TRef) (t : TRegion), m.restart = false → m.acqPending = false → m.tileOp o.a o.x.b .tenured [tpSplit] = .ok r → m.st.tregion? r.name = some t → ((t.splits.any fun p => p.1 == r.rect) = true) → ((t.recs.any fun x => x.held && !x.oneShot && meets x.rect r.rect) = false) → Issues (.tmerge o) s m → Completes (.tmerge o) s m ((m.world fun s => (s.setTregion r.name fun t => { t with splits := t.splits.filter fun p => p.1 != r.rect }).serveQueue r.name).wrInt o.d 1)) ∧
  (∀ (o : XOp) (r : TRef) (t : TRegion), m.restart = false → m.acqPending = false → m.tileOp o.a o.x.b .tenured [tpSplit] = .ok r → m.st.tregion? r.name = some t → ((t.splits.any fun p => p.1 == r.rect) = true) → ((t.recs.any fun x => x.held && !x.oneShot && meets x.rect r.rect) = true) → Issues (.tmerge o) s m → Completes (.tmerge o) s m (m.wrInt o.d 0)) ∧
  (∀ (o : XOp) (r : TRef) (t : TRegion), m.restart = false → m.tileOp o.a o.x.b .tenured [tpHalo] = .ok r → m.st.tregion? r.name = some t → o.x.imm.toNat / 4 % 16 = 0 → Issues (.thalo o) s m → Completes (.thalo o) s m ({ m with st := m.st.setTregion r.name fun u => { u with halos := (t.halos.filter fun x => !((x.launch == m.core.launch && decide (x.team = m.core.team)) && x.rect == r.rect && decide (x.side = o.x.imm.toNat % 4))) } })) ∧
  (∀ (o : XOp) (r : TRef) (t : TRegion) (u : HaloSub) (n : Nat), m.restart = false → m.tileOp o.a o.x.b .tenured [tpHalo] = .ok r → m.st.tregion? r.name = some t → ¬ o.x.imm.toNat / 4 % 16 = 0 → u = ({ launch := m.core.launch, team := m.core.team, rect := r.rect, side := o.x.imm.toNat % 4, width := o.x.imm.toNat / 4 % 16, copyAt := fieldOf (m.int o.x.c) 31 0, wordAt := fieldOf (m.int o.x.c) 63 32 } : HaloSub) → n = ((if o.x.imm.toNat % 4 % 2 = 0 then o.x.imm.toNat / 4 % 16 * r.rect.cols else r.rect.rows * (o.x.imm.toNat / 4 % 16)) * fmtBits t.fmt + 7) / 8 → ¬(0x3C000 < fieldOf (m.int o.x.c) 31 0 + n ∨ 0x3C000 < fieldOf (m.int o.x.c) 63 32 + 8 ∨ fieldOf (m.int o.x.c) 63 32 % 8 ≠ 0) → ¬ (if o.x.imm.toNat % 4 % 2 = 0 then r.rect.rows else r.rect.cols) < o.x.imm.toNat / 4 % 16 → (¬(4 ≤ ((t.halos.filter fun x => !((x.launch == m.core.launch && decide (x.team = m.core.team)) && x.rect == r.rect && decide (x.side = o.x.imm.toNat % 4))).filter fun x => x.rect == r.rect).length ∨ 8 ≤ (m.st.dies.toList.flatMap fun d => d.tregions.flatMap fun y => y.halos.filter fun x => (x.launch == m.core.launch && decide (x.team = m.core.team))).length - (t.halos.filter fun x => (x.launch == m.core.launch && decide (x.team = m.core.team)) && x.rect == r.rect && decide (x.side = o.x.imm.toNat % 4)).length)) → Issues (.thalo o) s m → Completes (.thalo o) s m (m.world fun s => (s.refresh t u).setTregion r.name fun y => { y with halos := (t.halos.filter fun x => !((x.launch == m.core.launch && decide (x.team = m.core.team)) && x.rect == r.rect && decide (x.side = o.x.imm.toNat % 4))) ++ [{ u with count := 1 }] }))

/-- R367–R376: a local matrix command whose operands pass their checks, with the unit idle and no command waiting, completes: `mmul`, `mq4` and `mgrp` apply the K-steps that `ROWPROG` leaves in order, clear `ROWPROG`, and keep the unit and the thread for 16 arithmetic cycles a K-step (R24, R368); `msacc` adds each scaled element to D and clears A when X[1] asks; `mzero`, `mldz` and `mwr` write the accumulator, `mstz` stores its granules, `mrd` reads half a row or column, and each of these gives the unit up. The model's own readings that it rests on: log 27. -/
def Obligations.MatrixCommands : Prop := ∀ (s : State) (m : M),
  (∀ (o : XOp) (j : MulJob) (mu m1 m2 : M), j = ({ acc := o.d.setWidth 2, fmt := MFmt.ofT2 o.x.t2.toNat, rm := m.xrm o, a := m.src o.a, b := m.src o.x.b, base := (m.src o.a).cursor.toNat, sa := (mdesc (m.int o.x.e)).sa, sb := (mdesc (m.int o.x.e)).sb, bytes := 192 * (mdesc (m.int o.x.e)).nk, steps := (192 * (mdesc (m.int o.x.e)).nk + 191) / 192, groups := [{ lo := 0, n := 32, b := (m.src o.x.b).cursor.toNat }] } : MulJob) → m.mulOperands o.a o.x.b (mdesc (m.int o.x.e)) (192 * (mdesc (m.int o.x.e)).nk) = .ok () → m.acqPending = false → UnitIdle m → mu = withUnit m [o.d.setWidth 2] → M.mulSteps j (mu.mulRest j) mu = .ok m1 → m1.matAcquire o = .ok m2 → Issues (.mmul o) s m → Completes (.mmul o) s m (({ m2 with thr := { m2.thr with rowprog := 0 } } : M).runFor [o.d.setWidth 2] (16 * (mu.mulRest j).length))) ∧
  (∀ (o : XOp) (j : MulJob) (mu m1 m2 : M), j = ({ acc := o.d.setWidth 2, fmt := .qn4, rm := m.xrm o, a := m.src o.a, b := m.src o.x.b, base := (m.src o.a).cursor.toNat, sa := (mdesc (m.int o.x.e)).sa, sb := (mdesc (m.int o.x.e)).sb, bytes := 32 * (mdesc (m.int o.x.e)).nk, steps := (32 * (mdesc (m.int o.x.e)).nk + 191) / 192, groups := [{ lo := 0, n := 32, b := (m.src o.x.b).cursor.toNat }] } : MulJob) → m.mulOperands o.a o.x.b (mdesc (m.int o.x.e)) (32 * (mdesc (m.int o.x.e)).nk) = .ok () → m.acqPending = false → UnitIdle m → mu = withUnit m [o.d.setWidth 2] → M.mulSteps j (mu.mulRest j) mu = .ok m1 → m1.matAcquire o = .ok m2 → Issues (.mq4 o) s m → Completes (.mq4 o) s m (({ m2 with thr := { m2.thr with rowprog := 0 } } : M).runFor [o.d.setWidth 2] (16 * (mu.mulRest j).length))) ∧
  (∀ (o : XOp) (gs : List MGroup) (t : Nat) (j : MulJob) (mu m0 m1 m2 : M), matCap o.a (m.src o.a) .ld = .ok () → matCap o.x.b (m.src o.x.b) .ld = .ok () → matCap o.x.c (m.src o.x.c) .ld = .ok () → checkBounds (m.src o.x.c) (m.src o.x.c).cursor.toNat 64 = .ok () → checkAligned (m.src o.a).cursor.toNat 64 = .ok () → checkAligned (m.src o.x.b).cursor.toNat 64 = .ok () → checkAligned (m.src o.x.c).cursor.toNat 8 = .ok () → MDesc.ok (mdesc (m.int o.x.e)) = true → m.acqPending = false → UnitIdle m → mu = withUnit m [o.d.setWidth 2] → mu.asUnit.matRead (m.src o.x.c) (m.src o.x.c).cursor.toNat 64 = .ok (m0, t) → gs = groupsOf t (m.src o.x.b).cursor → ((decide (32 < (gs.map (·.n)).sum) || (List.range 8).any fun g => (groupEntry t g).2.1) = false) → rowsIn (m.src o.a) (m.src o.a).cursor.toNat (mdesc (m.int o.x.e)).sa (192 * (mdesc (m.int o.x.e)).nk) (gs.map (·.n)).sum = .ok () → groupsIn (m.src o.x.b) (mdesc (m.int o.x.e)).sb (192 * (mdesc (m.int o.x.e)).nk) gs = .ok () → (j = ({ acc := o.d.setWidth 2, fmt := MFmt.ofT2 o.x.t2.toNat, rm := m0.asCore.xrm o, a := m.src o.a, b := m.src o.x.b, base := (m.src o.a).cursor.toNat, sa := (mdesc (m.int o.x.e)).sa, sb := (mdesc (m.int o.x.e)).sb, bytes := 192 * (mdesc (m.int o.x.e)).nk, steps := (mdesc (m.int o.x.e)).nk, groups := gs.map fun g => if g.n = 0 then { g with nb := 0 } else g } : MulJob)) → M.mulSteps j (m0.asCore.mulRest j) m0.asCore = .ok m1 → m1.matAcquire o = .ok m2 → Issues (.mgrp o) s m → Completes (.mgrp o) s m (({ m2 with thr := { m2.thr with rowprog := 0 } } : M).runFor [o.d.setWidth 2] (16 * (m0.asCore.mulRest j).length))) ∧
  (∀ o : XOp, UnitIdle m → Issues (.mzero o) s m → Completes (.mzero o) s m (offUnit ((withUnit m [o.d.setWidth 2]).putAcc (o.d.setWidth 2) [] 0))) ∧
  (∀ (o : XOp) (rho kap : Nat) (mu m1 m2 m3 m4 : M) (f : Nat → FRes), matCap o.x.b (m.src o.x.b) .ld = .ok () → checkBounds (m.src o.x.b) (m.src o.x.b).cursor.toNat 128 = .ok () → matCap o.x.c (m.src o.x.c) .ld = .ok () → checkBounds (m.src o.x.c) (m.src o.x.c).cursor.toNat 128 = .ok () → checkAligned (m.src o.x.b).cursor.toNat 4 = .ok () → checkAligned (m.src o.x.c).cursor.toNat 4 = .ok () → m.acqPending = false → UnitIdle m → mu = withUnit m (if o.x.x.getLsbD 1 then [o.d.setWidth 2, o.a.setWidth 2] else [o.d.setWidth 2]) → mu.asUnit.matRead (m.src o.x.b) (m.src o.x.b).cursor.toNat 128 = .ok (m1, rho) → m1.matRead (m.src o.x.c) (m.src o.x.c).cursor.toNat 128 = .ok (m2, kap) → (f = fun e => fSacc (m2.asCore.xrm o) (fp32.decode (m2.asCore.core.accWord (o.d.setWidth 2) e).toNat) (m2.asCore.core.accWord (o.a.setWidth 2) e).toInt (fp32.decode (rho / 2 ^ (32 * (e / 32)) % 2 ^ 32)) (fp32.decode (kap / 2 ^ (32 * (e % 32)) % 2 ^ 32))) → (m3 = m2.asCore.putAcc (o.d.setWidth 2) ((List.range 1024).map fun e => BitVec.ofNat 32 (f e).bits) (((List.range 1024).map fun e => (f e).flags).foldl (fun x y => x ||| y) 0)) → (if o.x.x.getLsbD 1 then m3.putAcc (o.a.setWidth 2) [] 0 else m3).matAcquire o = .ok m4 → Issues (.msacc o) s m → Completes (.msacc o) s m (offUnit m4)) ∧
  (∀ (o : XOp) (rows : List Nat) (mu m1 m2 : M), matCap o.a (m.src o.a) .ld = .ok () → rowsIn (m.src o.a) (m.src o.a).cursor.toNat (m.int o.x.b).toNat 128 32 = .ok () → checkAligned (m.src o.a).cursor.toNat 64 = .ok () → (m.int o.x.b).toNat % 64 = 0 → m.acqPending = false → UnitIdle m → mu = withUnit m [o.d.setWidth 2] → mu.asUnit.matRows (m.src o.a) (m.src o.a).cursor.toNat (m.int o.x.b).toNat 0 128 32 = .ok (m1, rows) → ((m1.asCore.putAcc (o.d.setWidth 2) (rows.flatMap fun r => (List.range 32).map fun j => BitVec.ofNat 32 (r / 2 ^ (32 * j))) 0).matAcquire o = .ok m2) → Issues (.mldz o) s m → Completes (.mldz o) s m (offUnit m2)) ∧
  (∀ (o : XOp) (mu m0 m1 m2 : M), m.restartCheck (m.src o.a) = .ok () → matCap o.a (m.src o.a) .st = .ok () → rowsIn (m.src o.a) (m.src o.a).cursor.toNat (m.int o.x.b).toNat 128 32 = .ok () → checkAligned (m.src o.a).cursor.toNat 64 = .ok () → (m.int o.x.b).toNat % 64 = 0 → m.acqPending = false → UnitIdle m → mu = withUnit m [] → (if o.x.ord.getLsbD 1 then mu.release o.x.sc else .ok mu) = .ok m0 → ((List.range 64).foldlM (fun (m' : M) k => m'.tileStore (m.src o.a) (rowVa (m.src o.a).cursor.toNat (m.int o.x.b).toNat (k / 2) + 64 * (k % 2)) (BitVec.ofNat 512 ((List.range 16).foldr (fun j acc => (m0.core.accWord (o.d.setWidth 2) (32 * (k / 2) + 16 * (k % 2) + j)).toNat + 2 ^ 32 * acc) 0))) m0.asUnit = .ok m1) → m1.asCore.matAcquire o = .ok m2 → Issues (.mstz o) s m → Completes (.mstz o) s m (offUnit m2)) ∧
  (∀ o : XOp, UnitIdle m → Issues (.mrd o) s m → Completes (.mrd o) s m (offUnit ((withUnit m []).vwrite o.d.toNat (ofElems 4 16 fun j => if (m.xmask o).getLsbD (4 * j) then (m.core.accWord (o.a.setWidth 2) (accIndex o j)).toNat else if o.x.z then 0 else elem (m.vsrc o.d 4) 4 j)))) ∧
  (∀ o : XOp, UnitIdle m → Issues (.mwr o) s m → Completes (.mwr o) s m (offUnit ((withUnit m [o.d.setWidth 2]).putAcc (o.d.setWidth 2) ((List.range 16).foldl (fun z j => if (m.xmask o).getLsbD (4 * j) then z.set (accIndex o j) (BitVec.ofNat 32 (elem (m.vsrc o.a 4) 4 j)) else z) ((List.range 1024).map (m.core.accWord (o.d.setWidth 2)))) 0)))

/-- R374, R377–R380: `mmult` multiplies tile operands whose formats, columns and rows suit, from the first K-step when `ROWPROG` names none, gives its holds up and keeps the unit for 16 arithmetic cycles a K-step; `mrec` replaces the unmasked elements by the activated products in 40 arithmetic cycles; `mcmd.grant` writes a command capability; `mcmd`, accepted by its target, leaves a command outstanding; `mwait` with none outstanding acquires. The model's own readings that it rests on: log 16, 27. -/
def Obligations.MatrixTilesAndRemote : Prop := ∀ (s : State) (m : M),
  (∀ (o : XOp) (ra rb : TRef) (fmt : MFmt) (as bs : List Nat) (m1 m2 m3 m4 : M), m.tileOperand o.a o = .ok ra → m.tileOperand o.x.b o = .ok rb → m.acqPending = false → MFmt.ofTile (Cap.tileFmt ra.c) = some fmt → (Cap.tileFmt ra.c != Cap.tileFmt rb.c || Cap.tileCols ra.c != Cap.tileCols rb.c || decide (32 < Cap.tileRows ra.c) || decide (32 < Cap.tileRows rb.c)) = false → m.tileRows ra o 0 = .ok (m1, as) → m1.tileRows rb o 1 = .ok (m2, bs) → UnitIdle m2 → (withUnit m2 [o.d.setWidth 2]).acquire o.x.sc = .ok m3 → m3.thr.rowprog = 0 → (let m' := M.tileSteps (o.d.setWidth 2) fmt (m3.xrm o) as bs (List.range ((Cap.tileCols ra.c + fmt.k - 1) / fmt.k)) m3; M.matAcquire { m' with st := m'.st.dropHeld m'.thr.held, thr := { m'.thr with rowprog := 0 } } o) = .ok m4 → Issues (.mmult o) s m → Completes (.mmult o) s m (m4.runFor [o.d.setWidth 2] (16 * ((Cap.tileCols ra.c + fmt.k - 1) / fmt.k)))) ∧
  (∀ (o : XOp) (g : FFmt) (n : Nat) (xs ws : Nat) (mu m1 m2 m3 : M) (f : Nat → W32 × FFlags), recFormat o.x.t2 = (g, n) → matCap o.a (m.src o.a) .ld = .ok () → checkBounds (m.src o.a) (m.src o.a).cursor.toNat 4096 = .ok () → matCap o.x.b (m.src o.x.b) .ld = .ok () → checkBounds (m.src o.x.b) (m.src o.x.b).cursor.toNat (1024 * n) = .ok () → checkAligned (m.src o.a).cursor.toNat 64 = .ok () → m.acqPending = false → UnitIdle m → mu = withUnit m [o.d.setWidth 2] → mu.asUnit.matRead (m.src o.a) (m.src o.a).cursor.toNat 4096 = .ok (m1, xs) → m1.matRead (m.src o.x.b) (m.src o.x.b).cursor.toNat (1024 * n) = .ok (m2, ws) → f = M.recCell m2.asCore o g n xs ws → ((m2.asCore.putAcc (o.d.setWidth 2) ((List.range 1024).map fun e => (f e).1) ((List.range 1024).foldl (fun x e => x ||| (f e).2) 0)).matAcquire o = .ok m3) → Issues (.mrec o) s m → Completes (.mrec o) s m (m3.runFor [o.d.setWidth 2] 40)) ∧
  (∀ o : XOp, Issues (.mcmdGrant o) s m → Completes (.mcmdGrant o) s m (m.wr o.d ⟨BitVec.ofNat 128 (m.core.team % 2 ^ 24 + m.core.launch.toNat * 2 ^ 24 + o.x.imm.toNat % 16 * 2 ^ 40 + 3 * 2 ^ 104 + 5 * 2 ^ 118), true⟩)) ∧
  (∀ (o : XOp) (m1 : M) (t : State), m.cmdChecks o = .ok () → m.acqPending = false → (if o.x.ord.getLsbD 1 then m.release o.x.sc else .ok m) = .ok m1 → m1.flush.acceptMatrix (m1.matrixCmd o) m1.core.die = .accepted t → Issues (.mcmd o) s m → Completes (.mcmd o) s m ((let m2 := m1.reload t; { m2 with thr := { m2.thr with mcmdOut := m2.thr.mcmdOut + 1 } }))) ∧
  (∀ o : XOp, o.x.imm.toNat % 4 = 2 → (m.src o.a).tag = true → (m.src o.a).kind = 5 → (m.src o.a).bits.getLsbD (40 + o.d.toNat) = true → (m.src o.a).bits.getLsbD 105 = true → m.cmdChecks o = .ok ()) ∧
  (∀ (o : XOp) (m1 : M), m.thr.mcmdOut = 0 → (m.st.quad m.core.quadId).remq = [] → (m.st.quad m.core.quadId).act = none → m.thr.mcmdErr = none → m.acquire 0 = .ok m1 → Issues (.mwait o) s m → Completes (.mwait o) s m (m1))

/-- R177, R336: an engine command whose capabilities and ranges pass their checks, with no acquire outstanding and fewer than two commands in its engine's queue, joins the queue and makes its token register pending; `cpg` and `cps` go to the gather engine, the others to the copy engine. The model's own readings that it rests on: log 22. -/
def Obligations.EngineCommands : Prop := ∀ (s : State) (m : M),
  (∀ (o : XOp) (k : Core), m.engRestart (m.src o.a) = .ok () → engCap o.a (m.src o.a) (dstPerms (o.x.x.getLsbD 1)) = .ok () → checkBounds (m.src o.a) (m.src o.a).cursor.toNat (m.int o.x.c).toNat = .ok () → engCap o.x.b (m.src o.x.b) [.ld] = .ok () → checkBounds (m.src o.x.b) (m.src o.x.b).cursor.toNat (m.int o.x.c).toNat = .ok () → (o.x.x.getLsbD 1 = true → engAligned 8 (some (m.src o.a)) (some (m.src o.x.b)) (m.int o.x.c).toNat = .ok ()) → m.acqPending = false → (m.core.engQueue .copy).length < 2 → k = m.core.setEng .copy (m.core.engQueue .copy ++ [(m.engCmd o 0 (m.src o.a) (m.src o.x.b) (m.src o.x.c))]) (m.core.engRun .copy) → Issues (.cp o) s m → Completes (.cp o) s m ({ ({ m with core := k } : M).setPending o.d false with st := m.st.post (.engineCommandStart k.id .copy) })) ∧
  (∀ (o : XOp) (k : Core), m.engRestart (m.src o.a) = .ok () → engCap o.a (m.src o.a) (dstPerms (o.x.x.getLsbD 1)) = .ok () → checkBounds (m.src o.a) (m.src o.a).cursor.toNat (m.int o.x.c).toNat = .ok () → (o.x.x.getLsbD 1 = true → engAligned 8 (some (m.src o.a)) none (m.int o.x.c).toNat = .ok ()) → m.acqPending = false → (m.core.engQueue .copy).length < 2 → k = m.core.setEng .copy (m.core.engQueue .copy ++ [(m.engCmd o 2 (m.src o.a) (m.src o.x.b) (m.src o.x.c))]) (m.core.engRun .copy) → Issues (.cpf o) s m → Completes (.cpf o) s m ({ ({ m with core := k } : M).setPending o.d false with st := m.st.post (.engineCommandStart k.id .copy) })) ∧
  (∀ (o : XOp) (k : Core), m.engRestart (m.src o.a) = .ok () → engCap o.a (m.src o.a) (dstPerms (o.x.x.getLsbD 1)) = .ok () → rowsBounds (m.src o.a) (desc2 (m.src o.x.c)).ds (desc2 (m.src o.x.c)).w (desc2 (m.src o.x.c)).n = .ok () → engCap o.x.b (m.src o.x.b) [.ld] = .ok () → rowsBounds (m.src o.x.b) (desc2 (m.src o.x.c)).ss (desc2 (m.src o.x.c)).w (desc2 (m.src o.x.c)).n = .ok () → (m.src o.x.c).tag = false → (o.x.x.getLsbD 1 = true → rowsAligned (m.src o.a) (m.src o.x.b) (desc2 (m.src o.x.c)) = .ok ()) → m.acqPending = false → (m.core.engQueue .copy).length < 2 → k = m.core.setEng .copy (m.core.engQueue .copy ++ [(m.engCmd o 1 (m.src o.a) (m.src o.x.b) (m.src o.x.c))]) (m.core.engRun .copy) → Issues (.cp2d o) s m → Completes (.cp2d o) s m ({ ({ m with core := k } : M).setPending o.d false with st := m.st.post (.engineCommandStart k.id .copy) })) ∧
  (∀ (o : XOp) (k : Core), m.engRestart (m.src o.a) = .ok () → engCap o.a (m.src o.a) [.st] = .ok () → checkBounds (m.src o.a) (m.src o.a).cursor.toNat (o.x.imm.toNat * szBytes (o.x.t2.setWidth 3)) = .ok () → engCap o.x.b (m.src o.x.b) [.ld] = .ok () → engCap o.x.c (m.src o.x.c) [.ld] = .ok () → checkBounds (m.src o.x.c) (m.src o.x.c).cursor.toNat (8 * o.x.imm.toNat) = .ok () → m.acqPending = false → (m.core.engQueue .gather).length < 2 → k = m.core.setEng .gather (m.core.engQueue .gather ++ [(m.engCmd o 3 (m.src o.a) (m.src o.x.b) (m.src o.x.c))]) (m.core.engRun .gather) → Issues (.cpg o) s m → Completes (.cpg o) s m ({ ({ m with core := k } : M).setPending o.d false with st := m.st.post (.engineCommandStart k.id .gather) })) ∧
  (∀ (o : XOp) (k : Core), m.engRestart (m.src o.a) = .ok () → engCap o.a (m.src o.a) [.st] = .ok () → checkBounds (m.src o.x.b) (m.src o.x.b).cursor.toNat (o.x.imm.toNat * szBytes (o.x.t2.setWidth 3)) = .ok () → engCap o.x.b (m.src o.x.b) [.ld] = .ok () → engCap o.x.c (m.src o.x.c) [.ld] = .ok () → checkBounds (m.src o.x.c) (m.src o.x.c).cursor.toNat (8 * o.x.imm.toNat) = .ok () → m.acqPending = false → (m.core.engQueue .gather).length < 2 → k = m.core.setEng .gather (m.core.engQueue .gather ++ [(m.engCmd o 4 (m.src o.a) (m.src o.x.b) (m.src o.x.c))]) (m.core.engRun .gather) → Issues (.cps o) s m → Completes (.cps o) s m ({ ({ m with core := k } : M).setPending o.d false with st := m.st.post (.engineCommandStart k.id .gather) })) ∧
  (∀ (o : XOp) (k : Core), m.engRestart (m.src o.a) = .ok () → engCap o.a (m.src o.a) [.st] = .ok () → checkBounds (m.src o.a) (m.src o.a).cursor.toNat (m.int o.x.c).toNat = .ok () → engCap o.x.b (m.src o.x.b) [.ld] = .ok () → checkBounds (m.src o.x.b) (m.src o.x.b).cursor.toNat (m.int o.x.c).toNat = .ok () → engAligned 16 (some (m.src o.a)) (some (m.src o.x.b)) (m.int o.x.c).toNat = .ok () → m.acqPending = false → (m.core.engQueue .copy).length < 2 → k = m.core.setEng .copy (m.core.engQueue .copy ++ [(m.engCmd o 5 (m.src o.a) (m.src o.x.b) (m.src o.x.c))]) (m.core.engRun .copy) → Issues (.cpq o) s m → Completes (.cpq o) s m ({ ({ m with core := k } : M).setPending o.d false with st := m.st.post (.engineCommandStart k.id .copy) }))

/-- R333, R338–R341: a keyed instruction whose window passes its checks, aligned, with no acquire outstanding and not in restartable mode (but `rld`) sends its request after the release it asks; `rnote` sends its notice, `rfence` ends when the thread has no outstanding operation, and a mesh bind binds the queue with eight credits and sends its request. KeyedRequestSent says what sending does. R79, R81, R86, R241: with an entry of the ticket table free, a keyed request takes the lowest free entry and the next free transaction tag, carries the flow's SEQ, the tag and generation and the issuer's context, privilege and endpoint, and its destination is pending; with no free entry the thread stalls. The model's own readings that it rests on: log 20, 31. -/
def Obligations.KeyedInstructions : Prop := (∀ (s : State) (m : M),
  (∀ (o : XOp) (r : MRef) (m1 : M), r = m.refAt o.a (immOff (some o.x)) → checkCap o.a r.c [3, 6] (if xfabMode o.x 0 = 0 then [.ld] else [.ld, .fe]) = .ok () → r.va % (szBytes (o.x.t2.setWidth 3)) = 0 → m.acqPending = false → m.keyedOrdered (o.x.ord.getLsbD 1) o.x.sc { kind := kRld, win := r.c, off := BitVec.ofNat 64 r.va, mode := (xfabMode o.x 0).setWidth 8, sz := (o.x.t2.setWidth 3), scope := o.x.sc, d := o.d, acq := if xfabMode o.x 0 = 1 ∨ xfabMode o.x 0 = 2 then some o.x.sc else orderAcq o.x.ord o.x.sc } = .ok m1 → Issues (.rld o) s m → Completes (.rld o) s m (m1)) ∧
  (∀ (o : XOp) (r : MRef) (m1 : M), m.restart = false → r = m.refAt o.a (immOff (some o.x)) → checkCap o.a r.c [3, 6] (if xfabMode o.x 3 = 3 then [.st] else [.st, .fe]) = .ok () → r.va % (szBytes (o.x.t2.setWidth 3)) = 0 → m.acqPending = false → m.keyedOrdered (xfabMode o.x 3 = 0 || xfabMode o.x 3 = 1 || o.x.ord.getLsbD 1) o.x.sc { kind := kRst, win := r.c, off := BitVec.ofNat 64 r.va, mode := (xfabMode o.x 3).setWidth 8, sz := (o.x.t2.setWidth 3), scope := o.x.sc, payload := storeWords (szBytes (o.x.t2.setWidth 3)) (m.src o.d), acq := orderAcq o.x.ord o.x.sc } = .ok m1 → Issues (.rst o) s m → Completes (.rst o) s m (m1)) ∧
  (∀ (o : XOp) (r : MRef) (m1 : M), m.restart = false → r = m.refAt o.a (immOff (some o.x)) → checkCap o.a r.c [3, 6] [.atom] = .ok () → r.va % (szBytes (o.x.t2.setWidth 3)) = 0 → m.acqPending = false → m.keyedOrdered (o.x.ord.getLsbD 1) o.x.sc { kind := kRamo, win := r.c, off := BitVec.ofNat 64 r.va, sz := (o.x.t2.setWidth 3), scope := o.x.sc, aux := (o.x.c.setWidth 3).setWidth 16, payload := storeWords (szBytes (o.x.t2.setWidth 3)) (m.src o.x.b), d := o.d, acq := orderAcq o.x.ord o.x.sc } = .ok m1 → Issues (.ramo o) s m → Completes (.ramo o) s m (m1)) ∧
  (∀ (o : XOp) (r : MRef) (m1 : M), m.restart = false → r = m.refAt o.a (immOff (some o.x)) → checkCap o.a r.c [3, 6] [.atom] = .ok () → r.va % (szBytes (o.x.t2.setWidth 3)) = 0 → m.acqPending = false → m.keyedOrdered (o.x.ord.getLsbD 1) o.x.sc { kind := kRcas, win := r.c, off := BitVec.ofNat 64 r.va, sz := (o.x.t2.setWidth 3), scope := o.x.sc, payload := storeWords (szBytes (o.x.t2.setWidth 3)) (Cap.ofInt (m.int o.x.b)) ++ storeWords (szBytes (o.x.t2.setWidth 3)) (Cap.ofInt (m.int o.x.c)), d := o.d, e := o.x.e, acq := orderAcq o.x.ord o.x.sc } = .ok m1 → Issues (.rcas o) s m → Completes (.rcas o) s m (m1)) ∧
  (∀ (o : XOp) (r : MRef) (m1 : M), m.restart = false → r = m.refAt o.a (immOff (some o.x)) → checkCap o.a r.c [6] [.call] = .ok () → m.acqPending = false → (m.keyedOrdered (o.x.ord.getLsbD 1) o.x.sc { kind := kRcall, win := r.c, off := BitVec.ofNat 64 r.va, aux := if (m.src o.x.b).tag then 1 else 0, payload := [(m.src o.x.b).int, (m.src o.x.b).bits.extractLsb' 64 64] ++ (List.range 4).map fun k => m.int (o.x.c + BitVec.ofNat 6 k), acq := orderAcq o.x.ord o.x.sc } = .ok m1) → Issues (.rcall o) s m → Completes (.rcall o) s m (m1)) ∧
  (∀ (o : XOp) (p : Packet), m.restart = false → checkCap o.a (m.src o.a) [6] [.st] = .ok () → m.acqPending = false → o.x.ord = 0 → p = ({ kind := kRnote, vn := 2, rkey := (m.src o.a).rkey, addr := (m.src o.a).cursor, aux := (o.x.b.setWidth 3).setWidth 16, ctx := m.core.ctx, priv := m.thr.sys, thr := BitVec.ofNat 3 m.tid.val, dst := checkEndpoint (m.src o.a).wmodule (m.src o.a).rkey, src := endpointOf m.st m.core.id } : Packet) → Issues (.rnote o) s m → Completes (.rnote o) s m ({ m with st := if scopeCode m.st m.core.die (m.src o.a).wmodule = 0 then m.st else m.st.send p })) ∧
  (∀ o : XOp, m.restart = false → m.tickets = [] → Issues (.rfence o) s m → Completes (.rfence o) s m (m)) ∧
  (∀ (o : XOp) (m1 : M), m.restart = false → checkCap o.a (m.src o.a) [3, 6] [.ld] = .ok () → checkCap o.x.b (m.src o.x.b) [0, 1] [.st] = .ok () → checkBounds (m.src o.x.b) (m.src o.x.b).cursor.toNat o.x.imm.toNat = .ok () → (m.src o.a).cursor.toNat % 8 = 0 → (m.src o.x.b).cursor.toNat % 8 = 0 → m.rangeUncovered (m.src o.x.b) o.x.imm.toNat true = false → m.acqPending = false → m.keyedOrdered (o.x.ord.getLsbD 1) o.x.sc { kind := kRget, win := (m.src o.a), off := (m.src o.a).cursor, scope := o.x.sc, aux := BitVec.ofNat 16 o.x.imm.toNat, d := o.d, dst := some ((m.src o.x.b), o.x.imm.toNat), acq := orderAcq o.x.ord o.x.sc } = .ok m1 → Issues (.rget o) s m → Completes (.rget o) s m (m1)) ∧
  (∀ (o : XOp) (ws : List W64) (m0 m1 : M), m.restart = false → checkCap o.a (m.src o.a) [3, 6] [.st] = .ok () → checkCap o.x.b (m.src o.x.b) [0, 1] [.ld] = .ok () → checkBounds (m.src o.x.b) (m.src o.x.b).cursor.toNat o.x.imm.toNat = .ok () → (m.src o.a).cursor.toNat % 8 = 0 → (m.src o.x.b).cursor.toNat % 8 = 0 → m.acqPending = false → m.loadWords (m.src o.x.b) (m.src o.x.b).cursor.toNat (o.x.imm.toNat / 8) = .ok (m0, ws) → m0.keyedOrdered (o.x.ord.getLsbD 1) o.x.sc { kind := kRput, win := (m.src o.a), off := (m.src o.a).cursor, scope := o.x.sc, aux := BitVec.ofNat 16 o.x.imm.toNat, d := o.d, payload := ws, acq := orderAcq o.x.ord o.x.sc } = .ok m1 → Issues (.rput o) s m → Completes (.rput o) s m (m1)) ∧
  (∀ (q : BitVec 3) (a b : F6), (m.int b).getLsbD 6 = true → m.restart = false → checkCap a (m.src a) [6] [.st, .ld] = .ok () → Issues (.qbind q a b) s m → Completes (.qbind q a b) s m ((let m1 : M := { m with thr := m.thr.setQ q.toFin fun y => { y with bind := .toTeam (m.src a) (fieldOf (m.int b) 31 8) ((m.int b).extractLsb' 3 3) ((m.int b).setWidth 3) false 8 [], failed := false } }
     if scopeCode m.st m.core.die (m.src a).wmodule = 0 then m1 else { m1 with st := m1.st.send (bindPacket m1 q (m.src a) (fieldOf (m.int b) 31 8) ((m.int b).extractLsb' 3 3) ((m.int b).setWidth 3)) })))) ∧
  (∀ (m : M),
  (∀ k : KReq, m.core.freeEntry = none → m.keyed k = .error .stall) ∧
  (∀ (k : KReq) (idx : Nat), m.core.freeEntry = some idx → ∃ m1 t, m.keyed k = .ok m1 ∧
    m1.core.tickets = m.core.tickets ++ [t] ∧ t.idx = idx ∧ t.tag = m.core.newTag ∧ t.gen = m.core.genOf m.core.newTag ∧ t.thr = m.tid.val ∧ t.d = k.d ∧ t.e = k.e ∧
    t.req.kind = k.kind ∧ t.req.rkey = k.win.rkey ∧ t.req.addr = k.off ∧ t.req.mode = k.mode ∧ t.req.scope = k.scope ∧ t.req.size = k.sz ∧ t.req.aux = k.aux ∧
    t.req.payload = k.payload ∧ t.req.seq = m.core.seqOf k.win.rkey m.tid.val ∧ t.req.tag = BitVec.ofNat 10 m.core.newTag ∧ t.req.gen = m.core.genOf m.core.newTag ∧
    t.req.ctx = m.core.ctx ∧ t.req.priv = m.thr.sys ∧ t.req.src = endpointOf m.st m.core.id ∧ t.req.dst = checkEndpoint k.win.wmodule k.win.rkey ∧ t.req.vn = 0 ∧
    m1.thr.c = m.thr.c ∧ m1.thr.v = m.thr.v ∧ m1.thr.pc = m.thr.pc ∧ m1.core.mem = m.core.mem ∧
    (k.vec = false → 0 < k.d.toNat → k.d.toNat < 32 → k.e = 0 → m1.thr.pendC = bitOn m.thr.pendC k.d.toNat)))

/-- R78, R332, R342: `tlbinv` shoots translations down after a release; `rkreg` takes the lowest free region index and `rkrev` invalidates the context's own key, each with its codes; `mighint` answers its code and begins the motion; `pgpin` sets FIX and answers the old one, a retired frame kept; `pgret` retires the page; `logring` sets the ring empty; `keyset` and `coreseal` answer by the access table, the key number or the core. The model's own readings that it rests on: log 6, 8, 23, 38, 43. -/
def Obligations.SystemInstructions : Prop := ∀ (s : State) (m : M),
  (∀ (a b : F6) (m1 : M), m.release 4 = .ok m1 → Issues (.tlbinv a b) s m → Completes (.tlbinv a b) s m ((let v := m1.int b; { m1 with st := m1.st.shootAll (if v.getLsbD 38 then none else some (v.extractLsb' 32 6)) (if v.getLsbD 38 = true ∨ fieldOf v 31 0 = 0 then none else some ((m1.int a).toNat % 2 ^ 56 / 2 ^ 16, fieldOf v 31 0)) }))) ∧
  (∀ (o : XOp) (i : Nat) (r : Region), checkCap o.a (m.src o.a) [0] [.rem] = .ok () → m.st.regionFree = some i → r = ({ vbase := BitVec.ofNat 56 (m.src o.a).base, length := BitVec.ofNat 64 ((m.src o.a).top - (m.src o.a).base), ctx := m.core.ctx, perm := (m.int o.x.b).setWidth 5 &&& (BitVec.ofNat 5 ((if capHas (m.src o.a) .ld then 1 else 0) + (if capHas (m.src o.a) .st then 2 else 0) + (if capHas (m.src o.a) .atom then 4 else 0) + (if capHas (m.src o.a) .fe then 8 else 0))), gen := ((m.st.die m.core.die).region 3 i).gen, v := true } : Region) → Issues (.rkreg o) s m → Completes (.rkreg o) s m (({ m with st := m.st.regionAll i r } : M).wrInt o.d ((keyValue i r.gen).setWidth 64))) ∧
  (∀ o : XOp, checkCap o.a (m.src o.a) [0] [.rem] = .ok () → m.st.regionFree = none → Issues (.rkreg o) s m → Completes (.rkreg o) s m (m.wrInt o.d 0x8000000000000001)) ∧
  (∀ (o : XOp) (r : Region), r = (m.st.die m.core.die).region 3 (((m.int o.a).setWidth 32 : BitVec 32).toNat / 2 ^ 20) → r.v = true → r.gen = ((m.int o.a).setWidth 32 : BitVec 32).setWidth 20 → r.ctx = m.core.ctx → Issues (.rkrev o) s m → Completes (.rkrev o) s m (({ m with st := m.st.regionAll (((m.int o.a).setWidth 32 : BitVec 32).toNat / 2 ^ 20) { r with v := false, gen := r.gen + 1 } } : M).wrInt o.d 0)) ∧
  (∀ (o : XOp) (r : Region), r = (m.st.die m.core.die).region 3 (((m.int o.a).setWidth 32 : BitVec 32).toNat / 2 ^ 20) → r.v = false ∨ r.gen ≠ ((m.int o.a).setWidth 32 : BitVec 32).setWidth 20 → Issues (.rkrev o) s m → Completes (.rkrev o) s m (m.wrInt o.d 1)) ∧
  (∀ (o : XOp) (r : Region), r = (m.st.die m.core.die).region 3 (((m.int o.a).setWidth 32 : BitVec 32).toNat / 2 ^ 20) → r.v = true → r.gen = ((m.int o.a).setWidth 32 : BitVec 32).setWidth 20 → r.ctx ≠ m.core.ctx → Issues (.rkrev o) s m → Completes (.rkrev o) s m (m.wrInt o.d 2)) ∧
  (∀ (o : XOp) (k : Nat), m.mighintCode (m.int o.a).toNat (fieldOf (m.int o.x.b) 1 0) (fieldOf (m.int o.x.b) 6 4) = (k, none) → Issues (.mighint o) s m → Completes (.mighint o) s m (m.wrInt o.d (BitVec.ofNat 64 k))) ∧
  (∀ (o : XOp) (k d leaf dst : Nat), m.mighintCode (m.int o.a).toNat (fieldOf (m.int o.x.b) 1 0) (fieldOf (m.int o.x.b) 6 4) = (k, some (d, leaf, dst)) → Issues (.mighint o) s m → Completes (.mighint o) s m (({ m with st := m.st.post (.motionStart d leaf dst) } : M).wrInt o.d (BitVec.ofNat 64 k))) ∧
  (∀ (o : XOp) (m1 : M) (x : XRes), m.page (m.int o.a).toNat { rd := true } = .ok (m1, x) → motionOf m1.st x.pa = none → (!(m1.int o.x.b).getLsbD 0 && (m1.st.die (homeDie x.pa)).retired.contains (x.pa / 2 ^ 16)) = false → Issues (.pgpin o) s m → Completes (.pgpin o) s m (({ m1 with st := m1.st.setFix x.pa ((m1.int o.x.b).getLsbD 0) } : M).wrInt o.d (BitVec.ofNat 64 (frameWord m1.st x.pa / 2 ^ 62 % 2)))) ∧
  (∀ (o : XOp) (m1 : M) (x : XRes), m.page (m.int o.a).toNat { rd := true } = .ok (m1, x) → motionOf m1.st x.pa = none → (!(m1.int o.x.b).getLsbD 0 && (m1.st.die (homeDie x.pa)).retired.contains (x.pa / 2 ^ 16)) = true → Issues (.pgpin o) s m → Completes (.pgpin o) s m (m1.wrInt o.d (BitVec.ofNat 64 (frameWord m1.st x.pa / 2 ^ 62 % 2 + 2)))) ∧
  (∀ (o : XOp) (m1 m2 : M) (x : XRes) (pa w0 w1 lvl leaf : Nat) (t : State), m.page (m.int o.a).toNat { rd := true } = .ok (m1, x) → motionOf m1.st x.pa = none → m1.release 4 = .ok m2 → walk m2.st m2.core.desc.ptroot ((m.int o.a).toNat % 2 ^ 56) = .page pa w0 w1 lvl leaf → t = m2.st.retireLeaf leaf (some m2.core.ctx) (some (((m.int o.a).toNat % 2 ^ 56) / 2 ^ (16 + 10 * lvl) * 2 ^ (10 * lvl), 2 ^ (10 * lvl))) x.pa → Issues (.pgret o) s m → Completes (.pgret o) s m ((m2.reload ({ m2 with st := if (m2.int o.x.b).getLsbD 0 then t.listRetired x.pa else t } : M).flush).wrInt o.d 0)) ∧
  (∀ (o : XOp) (m1 : M), (m.emitRanges (fun _ => true) = .ok m1) → Issues (.logring o) s m → Completes (.logring o) s m ({ m1 with core := { m1.core with logring := m.int o.a &&& 0x00FFFFFFFFFFF01F, loghead := 0, logtail := 0, logdrop := 0 } })) ∧
  (∀ o : XOp, accessOk (m.st.die 0) 1100 moduleRange m.master 2 = true → (fieldOf (m.int o.a) 9 0) ≠ 0 → Issues (.keyset o) s m → Completes (.keyset o) s m (({ m with st := m.st.setKey (fieldOf (m.int o.a) 9 0) (m.src o.x.b).bits (m.src o.x.c).bits } : M).wrInt o.d 0)) ∧
  (∀ o : XOp, accessOk (m.st.die 0) 1100 moduleRange m.master 2 = true → (fieldOf (m.int o.a) 9 0) = 0 → Issues (.keyset o) s m → Completes (.keyset o) s m (m.wrInt o.d 1)) ∧
  (∀ o : XOp, accessOk (m.st.die 0) 1100 moduleRange m.master 2 = false → Issues (.keyset o) s m → Completes (.keyset o) s m (({ m with st := m.st.refuse 0 1100 moduleRange m.master 2 } : M).wrInt o.d 1)) ∧
  (∀ (o : XOp) (p : Nat), accessOk (m.st.die (fieldOf (m.int o.a) 12 10)) 1100 (dieRange (fieldOf (m.int o.a) 12 10)) m.master 2 = true → (m.st.die (fieldOf (m.int o.a) 12 10)).corePlace (fieldOf (m.int o.a) 12 10) (fieldOf (m.int o.a) 9 0) = some p → (m.st.die (fieldOf (m.int o.a) 12 10)).sealedCores.contains p = false → Issues (.coreseal o) s m → Completes (.coreseal o) s m (({ m with st := m.st.post (.coreSeal p 3 0) } : M).wrInt o.d 0)) ∧
  (∀ (o : XOp) (p : Nat), accessOk (m.st.die (fieldOf (m.int o.a) 12 10)) 1100 (dieRange (fieldOf (m.int o.a) 12 10)) m.master 2 = true → (m.st.die (fieldOf (m.int o.a) 12 10)).corePlace (fieldOf (m.int o.a) 12 10) (fieldOf (m.int o.a) 9 0) = some p → (m.st.die (fieldOf (m.int o.a) 12 10)).sealedCores.contains p = true → Issues (.coreseal o) s m → Completes (.coreseal o) s m (m.wrInt o.d 2)) ∧
  (∀ o : XOp, accessOk (m.st.die (fieldOf (m.int o.a) 12 10)) 1100 (dieRange (fieldOf (m.int o.a) 12 10)) m.master 2 = false → Issues (.coreseal o) s m → Completes (.coreseal o) s m (({ m with st := m.st.refuse (fieldOf (m.int o.a) 12 10) 1100 (dieRange (fieldOf (m.int o.a) 12 10)) m.master 2 } : M).wrInt o.d 1))

/-- R98, R99, R390: `launch` and `tspawn` release, read their record and, accepted with room, answer the launch's number; a rejected record answers its code; `lwait` of a launch that has ended acquires and answers its result, and of no launch of the context fails; `prio` sets a live launch's priority up to its ceiling, else answers 1. The model's own readings that it rests on: log 28. -/
def Obligations.LaunchInstructions : Prop := ∀ (s : State) (m : M),
  (∀ (o : XOp) (m1 m2 : M) (ws : List W64) (r : LRec) (d : CtxDesc) (t : State) (l : BitVec 16), m.restart = false → checkCap o.a (m.src o.a) [0, 1] [.ld] = .ok () → checkBounds (m.src o.a) (m.src o.a).cursor.toNat 256 = .ok () → (m.src o.a).cursor.toNat % 8 = 0 → m.acqPending = false → m.release 4 = .ok m1 → m1.loadWords (m.src o.a) (m.src o.a).cursor.toNat 32 = .ok (m2, ws) → r = (LRec.of (packWords ws)) → d = m2.st.ctxDesc m2.core.ctx → m2.st.launchCode m2.core.die d r = 0 → m2.st.launchRoom m2.core.die r = true → m2.flush.acceptLaunch m2.core.die m2.core.ctx d r = (t, l) → Issues (.launch o) s m → Completes (.launch o) s m ((m2.reload t).wrInt o.d (l.setWidth 64))) ∧
  (∀ (o : XOp) (m1 m2 : M) (ws : List W64) (r : LRec) (d : CtxDesc), m.restart = false → checkCap o.a (m.src o.a) [0, 1] [.ld] = .ok () → checkBounds (m.src o.a) (m.src o.a).cursor.toNat 256 = .ok () → (m.src o.a).cursor.toNat % 8 = 0 → m.acqPending = false → m.release 4 = .ok m1 → m1.loadWords (m.src o.a) (m.src o.a).cursor.toNat 32 = .ok (m2, ws) → r = (LRec.of (packWords ws)) → d = m2.st.ctxDesc m2.core.ctx → m2.st.launchCode m2.core.die d r ≠ 0 → Issues (.launch o) s m → Completes (.launch o) s m ((m2.world fun s => s.reject m2.core.die m2.core.ctx d r (m2.st.launchCode m2.core.die d r) (m.src o.a).cursor.toNat).wrInt o.d (failValue 0 (m2.st.launchCode m2.core.die d r)))) ∧
  (∀ (o : XOp) (m1 : M) (r : LRec) (d : CtxDesc) (t : State) (l : BitVec 16), m.restart = false → checkCap o.a (m.src o.a) [0] [.ex] = .ok () → checkCap o.x.c (m.src o.x.c) [0] [.st, .fe] = .ok () → checkBounds (m.src o.x.c) (m.src o.x.c).cursor.toNat 8 = .ok () → (m.src o.x.c).cursor.toNat % 8 = 0 → m.acqPending = false → m.release 4 = .ok m1 → r = { m1.core.lrec with entry := (m.src o.a).cursor, n := (m.int o.x.b).toNat, ngate := 0, cver := false, ctarget := (m.src o.x.c).cursor, cval := 0, args := [m1.int o.x.e, 0, 0, 0, 0, 0], reservedOk := m1.core.lrec.reservedOk && decide (1 ≤ (m.int o.x.b).toNat ∧ (m.int o.x.b).toNat ≤ 2 ^ 24) } → d = m1.st.ctxDesc m1.core.ctx → m1.st.launchCode m1.core.die d r = 0 → m1.st.launchRoom m1.core.die r = true → m1.flush.acceptLaunch m1.core.die m1.core.ctx d r = (t, l) → Issues (.tspawn o) s m → Completes (.tspawn o) s m ((m1.reload t).wrInt o.d (l.setWidth 64))) ∧
  (∀ (o : XOp) (x : Launch) (m1 : M), m.st.launch? ((m.int o.a).setWidth 16) = some x → x.ctx = m.core.ctx → x.phase = .free → m.acquire 4 = .ok m1 → Issues (.lwait o) s m → Completes (.lwait o) s m (m1.wrInt o.d x.result)) ∧
  (∀ o : XOp, m.st.launch? ((m.int o.a).setWidth 16) = none → Issues (.lwait o) s m → Completes (.lwait o) s m (m.wrInt o.d (failValue 0 0x12))) ∧
  (∀ (o : XOp) (x : Launch), m.st.launch? ((m.int o.a).setWidth 16) = some x → x.ctx ≠ m.core.ctx → Issues (.lwait o) s m → Completes (.lwait o) s m (m.wrInt o.d (failValue 0 0x12))) ∧
  (∀ (o : XOp) (l : BitVec 16) (x : Launch) (t : State), l = (if ((m.int o.a).setWidth 16) = (0 : BitVec 16) then m.core.launch else ((m.int o.a).setWidth 16)) → m.st.launch? l = some x → ¬(x.ctx ≠ m.core.ctx ∨ x.phase = .free ∨ x.desc.ceil < fieldOf (m.int o.x.b) 5 0) → (t = m.st.setLaunch l fun x => { x with prio := fieldOf (m.int o.x.b) 5 0 }) → Issues (.prio o) s m → Completes (.prio o) s m (({ m with st := if x.phase == .dispatching then t.post (.preemption l) else t } : M).wrInt o.d 0)) ∧
  (∀ (o : XOp) (l : BitVec 16), l = (if ((m.int o.a).setWidth 16) = (0 : BitVec 16) then m.core.launch else ((m.int o.a).setWidth 16)) → m.st.launch? l = none → Issues (.prio o) s m → Completes (.prio o) s m (m.wrInt o.d 1)) ∧
  (∀ (o : XOp) (l : BitVec 16) (x : Launch), l = (if ((m.int o.a).setWidth 16) = (0 : BitVec 16) then m.core.launch else ((m.int o.a).setWidth 16)) → m.st.launch? l = some x → x.ctx ≠ m.core.ctx ∨ x.phase = .free ∨ x.desc.ceil < fieldOf (m.int o.x.b) 5 0 → Issues (.prio o) s m → Completes (.prio o) s m (m.wrInt o.d 1))

/-- R237, R278, R279: a pair word runs the scalar slot when its guard is on, then the vector slot; both read the registers as they were before the word, and a trap of either leaves both without effect (each must pass on the state before the word). The model's own readings that it rests on: log 10. -/
def Obligations.PairWordResults : Prop := ∀ (s : State) (m : M),
  (∀ (p : PairSlot) (v : Instr) (m1 m2 m3 : M), guardOn ({ m with snap := some (m.thr, m.core.w) } : M) p = true → scalarSlotOp p ({ m with snap := some (m.thr, m.core.w) } : M) = .ok m1 → vecSlotOp ({ gk := p.gk, gp := p.gp } : VForm) v ({ m with snap := some (m.thr, m.core.w) } : M) = .ok m2 → vecSlotOp ({ gk := p.gk, gp := p.gp } : VForm) v m1 = .ok m3 → Issues (.pairWord p v) s m → Completes (.pairWord p v) s m (m3)) ∧
  (∀ (p : PairSlot) (v : Instr) (m1 : M), guardOn ({ m with snap := some (m.thr, m.core.w) } : M) p = false → vecSlotOp ({ gk := p.gk, gp := p.gp } : VForm) v ({ m with snap := some (m.thr, m.core.w) } : M) = .ok m1 → Issues (.pairWord p v) s m → Completes (.pairWord p v) s m (m1)) ∧
  (∀ (p : PairSlot) (t : BitVec 3) (d a b : F6) (r : M), r = ({ m with snap := some (m.thr, m.core.w) } : M) → guardOn r p = true → p.sop.toNat = 0 → Issues (.pairWord p (.vadd t d a b)) s m → Completes (.pairWord p (.vadd t d a b)) s m ((r.wrInt p.d (r.int p.a + r.int (p.b.setWidth 6))).vout d (laneArith 0 ((r.wrInt p.d (r.int p.a + r.int (p.b.setWidth 6))).vin ({ gk := p.gk, gp := p.gp } : VForm) (tyOf t {}) d a b)))) ∧
  (∀ (p : PairSlot) (t : BitVec 3) (d a b : F6) (r : M), r = ({ m with snap := some (m.thr, m.core.w) } : M) → guardOn r p = true → p.sop.toNat = 1 → Issues (.pairWord p (.vadd t d a b)) s m → Completes (.pairWord p (.vadd t d a b)) s m ((r.wrInt p.d (r.int p.a - r.int (p.b.setWidth 6))).vout d (laneArith 0 ((r.wrInt p.d (r.int p.a - r.int (p.b.setWidth 6))).vin ({ gk := p.gk, gp := p.gp } : VForm) (tyOf t {}) d a b)))) ∧
  (∀ (p : PairSlot) (t : BitVec 3) (d a b : F6) (r : M), r = ({ m with snap := some (m.thr, m.core.w) } : M) → guardOn r p = true → p.sop.toNat = 2 → Issues (.pairWord p (.vadd t d a b)) s m → Completes (.pairWord p (.vadd t d a b)) s m ((r.wrInt p.d (r.int p.a &&& r.int (p.b.setWidth 6))).vout d (laneArith 0 ((r.wrInt p.d (r.int p.a &&& r.int (p.b.setWidth 6))).vin ({ gk := p.gk, gp := p.gp } : VForm) (tyOf t {}) d a b)))) ∧
  (∀ (p : PairSlot) (t : BitVec 3) (d a b : F6) (r : M), r = ({ m with snap := some (m.thr, m.core.w) } : M) → guardOn r p = true → p.sop.toNat = 3 → Issues (.pairWord p (.vadd t d a b)) s m → Completes (.pairWord p (.vadd t d a b)) s m ((r.wrInt p.d (r.int p.a ||| r.int (p.b.setWidth 6))).vout d (laneArith 0 ((r.wrInt p.d (r.int p.a ||| r.int (p.b.setWidth 6))).vin ({ gk := p.gk, gp := p.gp } : VForm) (tyOf t {}) d a b)))) ∧
  (∀ (p : PairSlot) (t : BitVec 3) (d a b : F6) (r : M), r = ({ m with snap := some (m.thr, m.core.w) } : M) → guardOn r p = true → p.sop.toNat = 4 → Issues (.pairWord p (.vadd t d a b)) s m → Completes (.pairWord p (.vadd t d a b)) s m ((r.wrInt p.d (r.int p.a ^^^ r.int (p.b.setWidth 6))).vout d (laneArith 0 ((r.wrInt p.d (r.int p.a ^^^ r.int (p.b.setWidth 6))).vin ({ gk := p.gk, gp := p.gp } : VForm) (tyOf t {}) d a b))))

/-- R30, R75, R110: power-good restarts the module, sets THERM from the last power-down and begins bring-up unless held in reset; standby power-up keeps what flash and the repair records hold; a module reset restarts it, at once or held; a loss of the main rails leaves the standby domain. R25–R29, R33: fifty power samples make an interval, whose sum against PLIM moves the throttle level one step; a sample above 3,300 W sets level 8; a die at 100 °C throttles until it is below 95 °C; 115 °C at a die or 105 °C at a stack shuts the module down; HBM4 actions start at 85 and 95 °C and end 5 °C below; every temperature reported is noted; THERM is cleared by its write. The model's own readings that it rests on: log 7, 34. -/
def Obligations.PowerEvents : Prop := (∀ (s : State),
  (s.power = true → exec (.powerGood) s = .next (s)) ∧
  (∀ (t : State), s.power = false → t = ({ s with power := true } : State).restart.mstatPut 3 3 (if s.shut = 0 then 0 else 1) → exec (.powerGood) s = .next (if s.held then t else t.beginBringup)) ∧
  (exec (.standbyPowerUp) s = .next ({ State.reset with fw := s.fw, fwStaged := s.fwStaged, ccnext := s.ccnext, cccur := s.ccnext, cxlRanges := s.cxlRanges, dies := s.dies.map Die.restart, mem := s.mem.onlyCxl, enc := s.enc.filter fun x => inCxl (64 * x.1), ueMem := s.ueMem.filter fun b => inCxl (64 * b), now := s.now, coreReset := s.now, accepted := s.accepted, outbox := s.outbox, fresh := s.fresh })) ∧
  (∀ (hold : Bool), s.power = false → exec (.moduleReset hold) s = .next ({ s with held := hold })) ∧
  (s.power = true → exec (.moduleReset true) s = .next ({ s.restart with held := true })) ∧
  (s.power = true → exec (.moduleReset false) s = .next (({ s.restart with held := false } : State).beginBringup)) ∧
  (s.held = false → exec (.resetRelease) s = .next (s)) ∧
  (s.held = true → s.power = true → exec (.resetRelease) s = .next (({ s with held := false } : State).beginBringup)) ∧
  (s.held = true → s.power = false → exec (.resetRelease) s = .next ({ s with held := false })) ∧
  (exec (.lossOfMainRails) s = .next (if s.power then s.loseRails 0 else s))) ∧
  (∀ (s : State),
  (∀ n : Nat, (s.setThrottle n).throttle = n) ∧
  (∀ (w : Nat), s.pcount + 1 ≠ 50 → exec (.powerSample w) s = .next ({ s.setThrottle (if 3300 < w then 8 else s.throttle) with psum := s.psum + w, pcount := s.pcount + 1 })) ∧
  (∀ (w : Nat), s.pcount + 1 = 50 → exec (.powerSample w) s = .next (({ s.setThrottle (if 3300 < w then 8 else s.throttle) with psum := s.psum + w, pcount := s.pcount + 1 } : State).post .powerIntervalEnd)) ∧
  (s.dies.any (·.dieHot) = true → exec (.powerIntervalEnd) s = .next ({ s.setThrottle (8) with psum := 0, pcount := 0 })) ∧
  (s.dies.any (·.dieHot) = false → s.plim * s.pcount < s.psum → exec (.powerIntervalEnd) s = .next ({ s.setThrottle (Nat.min 8 (s.throttle + 1)) with psum := 0, pcount := 0 })) ∧
  (s.dies.any (·.dieHot) = false → s.psum + 100 * s.pcount < s.plim * s.pcount → exec (.powerIntervalEnd) s = .next ({ s.setThrottle (s.throttle - 1) with psum := 0, pcount := 0 })) ∧
  (s.dies.any (·.dieHot) = false → s.psum ≤ s.plim * s.pcount → s.plim * s.pcount ≤ s.psum + 100 * s.pcount → exec (.powerIntervalEnd) s = .next ({ s.setThrottle (s.throttle) with psum := 0, pcount := 0 })) ∧
  (∀ n temp : Nat, (s.noteTemp n temp).temps.find? (fun x => decide (x.1 = n)) = some (n, temp) ∧ { s.noteTemp n temp with temps := s.temps } = s) ∧
  (∀ (d temp : Nat), s.power = false → exec (.dieThermalReport d temp) s = .next ((s.noteTemp (d % 8) temp))) ∧
  (∀ (d temp : Nat), s.power = true → 115 ≤ temp → exec (.dieThermalReport d temp) s = .next ((s.noteTemp (d % 8) temp).loseRails (1 + d % 8))) ∧
  (∀ (d temp : Nat), s.power = true → 100 ≤ temp → temp < 115 → exec (.dieThermalReport d temp) s = .next (((s.noteTemp (d % 8) temp).setDie d (fun x => { x with dieHot := true })).setThrottle 8)) ∧
  (∀ (d temp : Nat), s.power = true → temp < 95 → exec (.dieThermalReport d temp) s = .next ((s.noteTemp (d % 8) temp).setDie d (fun x => { x with dieHot := false }))) ∧
  (∀ (d temp : Nat), s.power = true → 95 ≤ temp → temp < 100 → exec (.dieThermalReport d temp) s = .next ((s.noteTemp (d % 8) temp))) ∧
  (∀ (k temp : Nat), s.power = true → 105 ≤ temp → exec (.hbmThermalReport k temp) s = .next ((s.noteTemp (8 + k % 8) temp).loseRails (9 + k % 8))) ∧
  (∀ (k temp : Nat), s.power = true → temp < 105 → exec (.hbmThermalReport k temp) s = .next ({ (s.noteTemp (8 + k % 8) temp) with hbmHot := (if 85 ≤ temp ∨ (s.hbmHot.contains (k, 1) = true ∧ 80 < temp) then [(k, 1)] else []) ++ (if 95 ≤ temp ∨ (s.hbmHot.contains (k, 2) = true ∧ 90 < temp) then [(k, 2)] else []) ++ s.hbmHot.filter fun x => decide (x.1 ≠ k) })) ∧
  (exec (.mstatThermClear) s = .next (s.mstatPut 3 3 0)))

/-- R31–R34: bring-up goes from step to step as each completes; a failed step or 3 s sets FAIL; step 2 brings the host ports up, step 4 numbers the quads and fails a die with fewer than 248, step 5 sets a die's bit of DIEOK as the die completes it and with the last initialises memory, step 7 makes the module ready; a site that has not answered within 1 ms counts as failed. R25, R75, R107–R109: the Harvy port takes PLIM in steps of 25 W from 1,500 to 3,000, MODID in reset or before step 6, a staged image while the mailbox stages none, and attestation requests, one served and four waiting, each report 50 ms after the last; anything else is refused. The model's own readings that it rests on: log 4, 7, 34, 35, 36. -/
def Obligations.BringUpAndHarvyPortEvents : Prop := (∀ (s : State),
  (∀ (ok : Bool) (d : Nat), s.bringing = false → exec (.bringupStepComplete ok d) s = .next (s)) ∧
  (∀ (d : Nat), s.bringing = true → exec (.bringupStepComplete false d) s = .next ((s.partDone d).fail d)) ∧
  (∀ (d : Nat), s.bringing = true → s.bringStep = 1 → exec (.bringupStepComplete true d) s = .next (s.beginStep 2)) ∧
  (∀ (d : Nat), s.bringing = true → s.bringStep = 2 → exec (.bringupStepComplete true d) s = .next (({ s.mstatPut 1 1 0 with ports := s.ports.map fun p => { p with up := true } } : State).beginStep 3)) ∧
  (∀ (d : Nat), s.bringing = true → s.bringStep = 3 → exec (.bringupStepComplete true d) s = .next (s.beginStep 4)) ∧
  (∀ (d k : Nat), s.bringing = true → s.bringStep = 4 → ((List.range 8).find? (fun d => decide ((({ s with dies := s.dies.map Die.number } : State).die d).quadMap.length < 248)) = some k) → exec (.bringupStepComplete true d) s = .next (({ s with dies := s.dies.map Die.number } : State).fail k)) ∧
  (∀ (d : Nat), s.bringing = true → s.bringStep = 4 → ((List.range 8).find? (fun d => decide ((({ s with dies := s.dies.map Die.number } : State).die d).quadMap.length < 248)) = none) → exec (.bringupStepComplete true d) s = .next (((List.range 8).foldl (fun s d => s.setDie d fun x => { x with access := firmwareEntries d }) ({ s with dies := s.dies.map Die.number } : State)).beginStep 5)) ∧
  (∀ (d : Nat), s.bringing = true → s.bringStep = 5 → (bitOn (s.mstat.extractLsb' 24 8) (d % 8) : BitVec 8) = 0xFF → exec (.bringupStepComplete true d) s = .next ((s.mstatPut 31 24 (bitOn (s.mstat.extractLsb' 24 8) (d % 8) : BitVec 8).toNat).initMemory.beginStep 6)) ∧
  (∀ (d : Nat), s.bringing = true → s.bringStep = 5 → (bitOn (s.mstat.extractLsb' 24 8) (d % 8) : BitVec 8) ≠ 0xFF → exec (.bringupStepComplete true d) s = .next (s.mstatPut 31 24 (bitOn (s.mstat.extractLsb' 24 8) (d % 8) : BitVec 8).toNat)) ∧
  (∀ (d : Nat), s.bringing = true → s.bringStep = 6 → exec (.bringupStepComplete true d) s = .next (s.beginStep 7)) ∧
  (∀ (d : Nat), s.bringing = true → s.bringStep = 7 → exec (.bringupStepComplete true d) s = .next (s.becomeReady)) ∧
  (∀ (d : Nat), exec (.bringupTimeout d) s = .next (if s.bringing then (s.partDone d).fail d else s)) ∧
  (∀ (d k : Nat) (f g : Bool), s.bringing = false ∨ s.bringStep ≠ 3 ∨ 1024 ≤ k ∨ (s.die d).answered.contains k = true → exec (.discoveryAnswer d k f g) s = .next (s)) ∧
  (∀ (d k : Nat) (f g : Bool), s.bringing = true → s.bringStep = 3 → k < 1024 → (s.die d).answered.contains k = false → exec (.discoveryAnswer d k f g) s = .next ((s.setDie d fun x => { x with answered := setIns x.answered k, fused := if f then setIns x.fused k else x.fused, failed := if g then setIns x.failed k else x.failed }).discovered)) ∧
  (∀ (d : Nat), s.bringing = false ∨ s.bringStep ≠ 3 ∨ 1024 ≤ (s.die d).answered.length → exec (.discoveryTimeout d) s = .next (s)) ∧
  (∀ (d : Nat), s.bringing = true → s.bringStep = 3 → (s.die d).answered.length < 1024 → exec (.discoveryTimeout d) s = .next ((s.setDie d fun x => { x with answered := List.range 1024, failed := (List.range 1024).filter fun k => x.failed.contains k || !x.answered.contains k }).discovered))) ∧
  (∀ (s : State),
  (∀ (w : Nat), 1500 ≤ w ∧ w ≤ 3000 ∧ w % 25 = 0 → exec (.harvySetPlim w) s = .next ({ s with plim := w })) ∧
  (∀ (w : Nat), ¬(1500 ≤ w ∧ w ≤ 3000 ∧ w % 25 = 0) → exec (.harvySetPlim w) s = .next (s.refused)) ∧
  (∀ (n : BitVec 16), s.held = true ∨ s.bringStep < 6 → exec (.harvySetModid n) s = .next ({ s with modid := n })) ∧
  (∀ (n : BitVec 16), s.held = false → 6 ≤ s.bringStep → exec (.harvySetModid n) s = .next (s.refused)) ∧
  (∀ (img : List Byte), s.mbox.image = none → exec (.harvyStageFirmware img) s = .next ({ s with fwStaged := some img })) ∧
  (∀ (img : List Byte), s.mbox.image.isSome = true → exec (.harvyStageFirmware img) s = .next (s.refused)) ∧
  (∀ (n : BitVec 128), 5 ≤ s.attest.length → exec (.harvyAttest n) s = .next (s.refused)) ∧
  (∀ (n : BitVec 128), s.attest = [] → exec (.harvyAttest n) s = .next (({ s with attest := [(n, false)] } : State).after (us 50000) .attestationReport)) ∧
  (∀ (n : BitVec 128), s.attest ≠ [] → s.attest.length < 5 → exec (.harvyAttest n) s = .next ({ s with attest := s.attest ++ [(n, false)] })) ∧
  (∀ (n : BitVec 128) (rest : List (BitVec 128 × Bool)) (r : List Byte) (t : State), s.attest = (n, false) :: rest → (r = Config.report n s.fw s.modid (s.dies.toList.map fun d => d.fused ++ d.failed ++ d.repairs ++ d.quarantine.flatMap fun x => [x.1, x.2.1, x.2.2])) → t = (if rest.isEmpty then ({ s with attest := rest } : State) else ({ s with attest := rest } : State).after (us 50000) .attestationReport) → exec (.attestationReport) s = .next ({ t with outbox := t.outbox ++ [.bytes r] })) ∧
  (∀ (n : BitVec 128) (rest : List (BitVec 128 × Bool)) (r : List Byte) (t : State), s.attest = (n, true) :: rest → (r = Config.report n s.fw s.modid (s.dies.toList.map fun d => d.fused ++ d.failed ++ d.repairs ++ d.quarantine.flatMap fun x => [x.1, x.2.1, x.2.2])) → t = (if rest.isEmpty then ({ s with attest := rest } : State) else ({ s with attest := rest } : State).after (us 50000) .attestationReport) → exec (.attestationReport) s = .next (({ t with mbox := { t.mbox with buf := putCells t.mbox.buf 0 r, rlen := r.length } } : State).post (.mailboxCommandComplete 0))) ∧
  (s.attest = [] → exec (.attestationReport) s = .next (s)))

/-- R8, R39, R45, R49, R57: a register write that its access table admits is made, else only recorded; an access at a memory port or cache port is served where its granule lies, or held by the owner of the motion; a scrub visit detects an error that stands in its block, counts a corrected one, and the port's next visit is set unless one is. R169–R171, R175, R176: an access of the L2 waits while BUSY is set; a read fills, a write and an atomic leave the line dirty, an own gives the quad ownership; a larger pool takes its steps' parts with BUSY set, a smaller one is refused with a record while a live frame lies in a step; a changed NPART sets BUSY; BUSY ends with the new frames usable. The model's own readings that it rests on: log 5, 37, 38, 44. -/
def Obligations.PortAndSecondLevelCacheEvents : Prop := (∀ (s : State),
  (∀ (pa size : Nat) (v x : W64) (m : Master) (t : State), regAccess s pa size (some v) m = .ok t x → exec (.registerWrite pa size v m) s = .next (t)) ∧
  (∀ (pa size : Nat) (v : W64) (m : Master) (t : State), regAccess s pa size (some v) m = .refused t → exec (.registerWrite pa size v m) s = .next (t)) ∧
  (∀ (acc : PortAccess), (paKind s acc.pa).isMem = false → exec (.memoryPortAccess acc) s = .next (s)) ∧
  (∀ (acc : PortAccess) (a : Nat), (paKind s acc.pa).isMem = true → place s acc.pa = .at a → exec (.memoryPortAccess acc) s = .next (s.serve acc)) ∧
  (∀ (acc : PortAccess) (d src : Nat), (paKind s acc.pa).isMem = true → place s acc.pa = .held d src → exec (.memoryPortAccess acc) s = .next (s.setMotion d src fun m => { m with held := m.held ++ [acc] })) ∧
  (∀ (acc : PortAccess), (paKind s acc.pa).isMem = false → exec (.cachePortAccess acc) s = .next (s)) ∧
  (∀ (acc : PortAccess) (a : Nat), (paKind s acc.pa).isMem = true → place s acc.pa = .at a → exec (.cachePortAccess acc) s = .next (s.serve acc)) ∧
  (∀ (acc : PortAccess) (d src : Nat), (paKind s acc.pa).isMem = true → place s acc.pa = .held d src → exec (.cachePortAccess acc) s = .next (s.setMotion d src fun m => { m with held := m.held ++ [acc] })) ∧
  (∀ (blk : Nat) (t : State), (t = (if (s.timers.any fun x => match x.2 with | .scrubVisit b _ => decide (station s (64 * b) = station s (64 * blk)) | _ => false) then s else s.after (scrubEvery s blk) (.scrubVisit (nextScrub s blk) .clean))) → exec (.scrubVisit blk .clean) s = .next (t.detect (64 * blk))) ∧
  (∀ (blk : Nat) (t : State), (t = (if (s.timers.any fun x => match x.2 with | .scrubVisit b _ => decide (station s (64 * b) = station s (64 * blk)) | _ => false) then s else s.after (scrubEvery s blk) (.scrubVisit (nextScrub s blk) .clean))) → exec (.scrubVisit blk .corrected) s = .next ((t.detect (64 * blk)).countCorrected (64 * blk))) ∧
  (∀ (blk : Nat) (t : State), (t = (if (s.timers.any fun x => match x.2 with | .scrubVisit b _ => decide (station s (64 * b) = station s (64 * blk)) | _ => false) then s else s.after (scrubEvery s blk) (.scrubVisit (nextScrub s blk) .clean))) → exec (.scrubVisit blk .uncorrectable) s = .next (({ t with ueMem := setIns t.ueMem blk } : State).detect (64 * blk)))) ∧
  (∀ (s : State),
  (∀ (d pa : Nat) (k : L2Kind) (c : BitVec 6), homeDie pa = d → (paKind s pa).isMem = true → (s.die d).l2Busy = true → exec (.l2Access d pa k c) s = .next (s.after 1 (.l2Access d pa k c))) ∧
  (∀ (d pa : Nat) (c : BitVec 6), homeDie pa = d → (paKind s pa).isMem = true → (s.die d).l2Busy = false → exec (.l2Access d pa .read c) s = .next ((s.fill (placeNow s pa) ⟨c, false, 0⟩).1)) ∧
  (∀ (d pa : Nat) (c : BitVec 6), homeDie pa = d → (paKind s pa).isMem = true → (s.die d).l2Busy = false → exec (.l2Access d pa .write c) s = .next (((s.recallOwn pa).claim (placeNow s pa) ⟨c, false, 0⟩).1)) ∧
  (∀ (d pa : Nat) (c : BitVec 6) (t : State), homeDie pa = d → (paKind s pa).isMem = true → (s.die d).l2Busy = false → (s.recallOwn pa).fill (placeNow s pa) ⟨c, false, 0⟩ = (t, true) → exec (.l2Access d pa .atomic c) s = .next (t.l2Touch (placeNow t pa) true ⟨c, false, 0⟩)) ∧
  (∀ (d pa : Nat) (c : BitVec 6) (q : Nat) (t : State), homeDie pa = d → (paKind s pa).isMem = true → (s.die d).l2Busy = false → (s.recallOwn pa).fill (placeNow s pa) ⟨c, false, 0⟩ = (t, true) → inMotion t pa = false → exec (.l2Access d pa (.own q) c) s = .next (t.grantOwn pa q)) ∧
  (∀ (d : Nat) (v : W64) (n : Nat), n = fieldOf v 4 0 → 16 < n ∨ n = (s.die d).pool → exec (.l2PoolWrite d v) s = .next (s)) ∧
  (∀ (d : Nat) (v : W64) (n : Nat), n = fieldOf v 4 0 → n ≤ 16 → (s.die d).pool < n → exec (.l2PoolWrite d v) s = .next (s.l2Start d (setBits (s.die d).l2cfg 4 0 n) (inSteps (s.die d).pool n))) ∧
  (∀ (d : Nat) (v : W64) (n r : Nat), n = fieldOf v 4 0 → n ≤ 16 → n < (s.die d).pool → (s.die d).poolHolds n = some r → exec (.l2PoolWrite d v) s = .next (s.fault d 0x60 n 0 0 r)) ∧
  (∀ (d : Nat) (v : W64) (n : Nat), n = fieldOf v 4 0 → n ≤ 16 → n < (s.die d).pool → (s.die d).poolHolds n = none → exec (.l2PoolWrite d v) s = .next (s.setDie d fun x => { x with l2cfg := setBits (s.die d).l2cfg 4 0 n, poolUse := Nat.min x.poolUse n })) ∧
  (∀ (d : Nat) (v : W64), fieldOf v 9 8 = fieldOf (s.die d).l2cfg 9 8 → exec (.l2NpartWrite d v) s = .next (s)) ∧
  (∀ (d : Nat) (v : W64), fieldOf v 9 8 ≠ fieldOf (s.die d).l2cfg 9 8 → exec (.l2NpartWrite d v) s = .next (s.l2Start d (setBits (s.die d).l2cfg 9 8 (fieldOf v 9 8)) fun _ => true)) ∧
  (∀ (d : Nat), exec (.l2BusyComplete d) s = .next (if (s.die d).l2Busy then (s.setDie d fun x => { x with l2cfg := setBits x.l2cfg 63 63 0, poolUse := (s.die d).pool }).admitPublishes d else s)))

/-- R62, R246, R249, R250: where a level holds a copy, an error in the only current data that has an owner quarantines its place, terminates the owner's launches, retires the page and is recorded; with no owner it stays poisoned and its frame is considered for retirement; a clean copy is refetched; lost Zenith state fails the module; an uncorrectable error in a frame that a motion reads, or any retirement of one that it writes, aborts the motion, else its page moves to a free frame and the frame is retired, tried again when none is free. The model's own readings that it rests on: log 24, 25, 44. -/
def Obligations.LossAndRetirementEvents : Prop := ∀ (s : State),
  (∀ (lv : LossLevel) (q pa : Nat), s.lossCopy lv q pa = none → exec (.dirtyLineLoss lv q pa) s = .next (s)) ∧
  (∀ (lv : LossLevel) (q pa : Nat) (x : LossCopy), s.lossCopy lv q pa = some x → x.dirty = false → exec (.dirtyLineLoss lv q pa) s = .next (s.cleanLoss lv q pa x)) ∧
  (∀ (lv : LossLevel) (q pa : Nat) (x : LossCopy) (k : BitVec 6) (u : State) (r : Bool), s.lossCopy lv q pa = some x → x.dirty = true → x.owner = some k → ((((s.loseCopy lv q pa true).quarantine (lossDie lv q pa) (lossCode lv, x.unit, x.place)).terminateCtx (lossDie lv q pa) k).clearCtx k).retirePage pa = (u, r) → exec (.dirtyLineLoss lv q pa) s = .next (u.fault (lossDie lv q pa) 0x70 (lossCode lv) k.toNat (pa / 64 * 64) (1 + 8 + (if r then 16 else 0) + 32 + lossStation u lv q pa * 2 ^ 16) x.place)) ∧
  (∀ (lv : LossLevel) (q pa : Nat) (x : LossCopy), s.lossCopy lv q pa = some x → x.dirty = true → x.owner = none → exec (.dirtyLineLoss lv q pa) s = .next (((s.loseCopy lv q pa true).fault (lossDie lv q pa) 0x70 (lossCode lv) 0 (pa / 64 * 64) (1 + (if movable s pa then 64 else 128) + lossStation s lv q pa * 2 ^ 16) x.place).post (.frameRetirement pa))) ∧
  (∀ (d : Nat), exec (.zenithStateLost d) s = .next (((s.fault d 0x70 7 0 0 (8 + 1100 * 2 ^ 16)).terminateAll (fun _ => true) 6 true).fail d)) ∧
  (∀ (pa d : Nat) (m : Motion), s.motionWith pa = some (d, m) → m.phase = .prep ∨ m.phase = .copy → m.src / 2 ^ 16 = pa / 2 ^ 16 → exec (.frameRetirement pa) s = .next ((if (s.ueMem.any fun b => decide (b / 1024 = pa / 2 ^ 16)) then s.motionAbort d m.src 0 else s).after (us 1) (.frameRetirement pa))) ∧
  (∀ (pa d : Nat) (m : Motion), s.motionWith pa = some (d, m) → m.phase = .prep ∨ m.phase = .copy → ¬ m.src / 2 ^ 16 = pa / 2 ^ 16 → exec (.frameRetirement pa) s = .next ((s.motionAbort d m.src (if (s.ueMem.any fun b => decide (b / 1024 = pa / 2 ^ 16)) then 1 else 2)).listRetired pa)) ∧
  (∀ (pa d : Nat) (m : Motion), s.motionWith pa = some (d, m) → ¬(m.phase = .prep ∨ m.phase = .copy) → exec (.frameRetirement pa) s = .next (s.after (us 1) (.frameRetirement pa))) ∧
  (∀ (pa : Nat), s.motionWith pa = none → (tierOf pa = 2 ∨ !movable s pa ∨ leafType (s.leafWord (frameWord s pa / 16 % 2 ^ 48 * 16)) ≠ 2 ∨ (s.die (homeDie pa)).retired.contains (pa / 2 ^ 16)) → exec (.frameRetirement pa) s = .next (s)) ∧
  (∀ (pa : Nat) (t : State), s.motionWith pa = none → ¬(tierOf pa = 2 ∨ !movable s pa ∨ leafType (s.leafWord (frameWord s pa / 16 % 2 ^ 48 * 16)) ≠ 2 ∨ (s.die (homeDie pa)).retired.contains (pa / 2 ^ 16)) → (((s.die (homeDie pa)).free (tierOf pa)).head?.bind (fun f => s.openMotion (frameWord s pa / 16 % 2 ^ 48 * 16) f true) = some t) → exec (.frameRetirement pa) s = .next (t.listRetired pa)) ∧
  (∀ (pa : Nat), s.motionWith pa = none → ¬(tierOf pa = 2 ∨ !movable s pa ∨ leafType (s.leafWord (frameWord s pa / 16 % 2 ^ 48 * 16)) ≠ 2 ∨ (s.die (homeDie pa)).retired.contains (pa / 2 ^ 16)) → (((s.die (homeDie pa)).free (tierOf pa)).head?.bind (fun f => s.openMotion (frameWord s pa / 16 % 2 ^ 48 * 16) f true) = none) → exec (.frameRetirement pa) s = .next (s.after (us 1000) (.frameRetirement pa)))

/-- R50–R62, R94: Drift's visit halves the hotness and asks motions for its candidates; a motion goes from PREP to COPY, granule by granule to COMMIT; bad data aborts with cause 0, metadata for CXL with 5, the time limit with 4, released CXL capacity with 2 (capacity bound is mapped and its frames are free); a copy refused by a port's table or not acknowledged in time is served at its source and started again. The model's own readings that it rests on: log 11, 15, 24, 41. -/
def Obligations.MotionEvents : Prop := ∀ (s : State),
  (∀ (x leaf dst : Nat), exec (.motionStart x leaf dst) s = .next ((s.openMotion leaf dst false).getD s)) ∧
  (∀ (d src : Nat), s.motion? d src = none → exec (.motionFlushAck d src) s = .next (s)) ∧
  (∀ (d src : Nat), s.motion? d src = none → exec (.granuleCopyAck d src) s = .next (s)) ∧
  (∀ (d src : Nat), s.motion? d src = none → exec (.granuleCopyTimeout d src) s = .next (s)) ∧
  (∀ (d src : Nat), s.motion? d src = none → exec (.motionTimeLimit d src) s = .next (s)) ∧
  (∀ (d src : Nat) (m : Motion), s.motion? d src = some m → m.phase = .prep → exec (.motionFlushAck d src) s = .next ((s.setMotion d src fun m => { m with phase := .copy, w := 0 }).after 1920 (.granuleCopyAck d src))) ∧
  (∀ (d src : Nat) (m : Motion), s.motion? d src = some m → m.phase ≠ .prep → exec (.motionFlushAck d src) s = .next (s)) ∧
  (∀ (d src : Nat) (m : Motion) (a n : Nat), s.motion? d src = some m → m.phase = .copy → m.w < 32 → s.copyRefused src m.dst m.w = some (a, n) → exec (.granuleCopyAck d src) s = .next ((s.refuseAt a driftMaster n).restartCopy d src)) ∧
  (∀ (d src : Nat) (m : Motion) (bl : List Nat), s.motion? d src = some m → m.phase = .copy → m.w < 32 → s.copyRefused src m.dst m.w = none → s.granuleBad src m.w = true → bl = s.badBlocks src m.w → exec (.granuleCopyAck d src) s = .next ((s.motionAbort d src 0).copyRecords bl)) ∧
  (∀ (d src : Nat) (m : Motion), s.motion? d src = some m → m.phase = .copy → m.w < 32 → s.copyRefused src m.dst m.w = none → s.granuleBad src m.w = false → tierOf m.dst = 2 → s.granuleMeta src m.w = true → exec (.granuleCopyAck d src) s = .next (s.motionAbort d src 5)) ∧
  (∀ (d src : Nat) (m : Motion) (t : State), s.motion? d src = some m → m.phase = .copy → m.w < 32 → s.copyRefused src m.dst m.w = none → s.granuleBad src m.w = false → ¬(tierOf m.dst = 2 ∧ s.granuleMeta src m.w = true) → (t = (((s.copyGranule (keyIndex (s.companion m.leaf)) src m.dst m.w).setMotion d src fun m => { m with w := m.w + 1, passed := [] }).forwardHeld d src)) → m.w + 1 = 32 → exec (.granuleCopyAck d src) s = .next (t.commitMotion d src)) ∧
  (∀ (d src : Nat) (m : Motion) (t : State), s.motion? d src = some m → m.phase = .copy → m.w < 32 → s.copyRefused src m.dst m.w = none → s.granuleBad src m.w = false → ¬(tierOf m.dst = 2 ∧ s.granuleMeta src m.w = true) → (t = (((s.copyGranule (keyIndex (s.companion m.leaf)) src m.dst m.w).setMotion d src fun m => { m with w := m.w + 1, passed := [] }).forwardHeld d src)) → ¬ m.w + 1 = 32 → exec (.granuleCopyAck d src) s = .next (t.after 1920 (.granuleCopyAck d src))) ∧
  (∀ (d src : Nat) (m : Motion) (t : State), s.motion? d src = some m → m.phase = .copy → (t = ({ s with timers := s.timers.filter fun t => t.2 != .granuleCopyAck d src } : State).setMotion d src fun m => { m with held := [], passed := m.heldThr, heldThr := [] }) → exec (.granuleCopyTimeout d src) s = .next ((m.held.foldl State.serve t).after 1920 (.granuleCopyAck d src))) ∧
  (∀ (d src : Nat) (m : Motion), s.motion? d src = some m → ¬ m.phase = .copy → exec (.granuleCopyTimeout d src) s = .next (s)) ∧
  (∀ (d src : Nat) (acc : PortAccess), (((s.die d).motions.any fun m => decide (m.src = src ∧ acc.pa / 2 ^ 16 = src / 2 ^ 16)) = true) → exec (.motionAccess d src acc) s = .next (s.routeAccess acc)) ∧
  (∀ (d src : Nat) (acc : PortAccess), (((s.die d).motions.any fun m => decide (m.src = src ∧ acc.pa / 2 ^ 16 = src / 2 ^ 16)) = false) → exec (.motionAccess d src acc) s = .next (s)) ∧
  (∀ (q : Nat) (c : BitVec 6) (va n d src : Nat), (((s.quad q).l1.any fun l => (l.ctx == c && inPages (some (va % 2 ^ 56 / 2 ^ 16, n)) (l.va / 2 ^ 10) 1) && l.dirty != 0 && l2Waits s l.pa) = false) → exec (.quadShootdown q c va n d src) s = .next ((s.shootQuad q (some c) (some (va % 2 ^ 56 / 2 ^ 16, n))).post (.motionShootdownAck d src q))) ∧
  (∀ (q : Nat) (c : BitVec 6) (va n d src : Nat), (((s.quad q).l1.any fun l => (l.ctx == c && inPages (some (va % 2 ^ 56 / 2 ^ 16, n)) (l.va / 2 ^ 10) 1) && l.dirty != 0 && l2Waits s l.pa) = true) → exec (.quadShootdown q c va n d src) s = .next (s.after 1 (.quadShootdown q c va n d src))) ∧
  (∀ (d src q : Nat), exec (.motionShootdownAck d src q) s = .next ((s.setMotion d src fun m => { m with waiting := m.waiting.erase q }).motionClose d src)) ∧
  (∀ (d src : Nat) (m : Motion), s.motion? d src = some m → exec (.motionTimeLimit d src) s = .next (if m.start + us (1000 * fieldOf (s.die d).dthr 23 16) ≤ s.now then s.motionAbort d src 4 else s)) ∧
  (∀ (b n : Nat) (t : State), (t = ((List.range 8).flatMap fun d => ((s.die d).motions.filter fun m => decide (b ≤ m.dst ∧ m.dst < b + n)).map fun m => (d, m.src)).foldl (fun s (d, src) => s.motionAbort d src 2) s) → exec (.cxlDynamicCapacityRelease ⟨false, b⟩ n) s = .next ({ t with cxlRanges := (false, b, n) :: t.cxlRanges, dies := t.dies.map fun d => { d with freeCxl := d.freeCxl.filter fun f => !decide (b ≤ f ∧ f < b + n) } })) ∧
  (∀ (b n : Nat), fieldOf s.mstat 23 20 < 6 → exec (.cxlDynamicCapacityRelease ⟨true, b⟩ n) s = .next ({ s with cxlRanges := (true, b, n) :: s.cxlRanges })) ∧
  (∀ (b n : Nat) (t : State), ¬ fieldOf s.mstat 23 20 < 6 → t = { s with cxlRanges := (true, b, n) :: s.cxlRanges } → exec (.cxlDynamicCapacityRelease ⟨true, b⟩ n) s = .next ([0, 4].foldl (fun s d => s.setDie d fun x => { x with freeCxl := ((s.givenFrames d 2).filter fun f => decide (b ≤ f ∧ f < b + n)).foldl setIns x.freeCxl }) t)) ∧
  (∀ (d : Nat), (s.die d).dctl.getLsbD 0 = false ∨ (s.die d).dctl.getLsbD 1 = false ∨ (s.die d).dftb.getLsbD 0 = false → exec (.driftHalvingVisit d) s = .next (s.after (us 10000) (.driftHalvingVisit d))) ∧
  (∀ (d : Nat) (t : State) (cs : List (Nat × Cand)), (s.die d).dctl.getLsbD 0 = true → (s.die d).dctl.getLsbD 1 = true → (s.die d).dftb.getLsbD 0 = true → ((s.after (us 10000) (.driftHalvingVisit d)).tableFrames d).foldl (State.visitFrame d) (s.after (us 10000) (.driftHalvingVisit d), []) = (t, cs) → exec (.driftHalvingVisit d) s = .next (t.askMotions d [] ((((cs.filter fun x => decide (x.1 = 0)).map (·.2) |>.foldl (fun l c => insCand false c l) []) ++ ((cs.filter fun x => decide (x.1 = 1)).map (·.2) |>.foldl (fun l c => insCand false c l) [])) ++ ((cs.filter fun x => decide (x.1 = 2)).map (·.2) |>.foldl (fun l c => insCand true c l) []) ++ ((cs.filter fun x => decide (x.1 = 3)).map (·.2) |>.foldl (fun l c => insCand true c l) []))))

/-- R95, R98, R99, R101, R247: through BAR2 view 0 reads and writes plainly, a poisoned block answered with its attribute; view 1 reads the full/empty bit's word and stores 8 bytes that become full, counted and dropped when a slot's word 0 is full already, an armed slot offered to its dispatcher; view 2 reads 0 and empties the word; an access outside, or one that the access table refuses, is refused; while the home L2 serves nothing the access is performed later. R94, R96, R97, R101, R103, R104: a die window reaches a die's registers, an unlisted BAR0 offset reads all ones, drops writes and is counted; an unmasked vector that is pending is sent; HERR is cleared by its read and is absent but on dies 0 and 4; only class 5 writes an access table. The model's own readings that it rests on: log 14, 35, 37, 42, 43. -/
def Obligations.HostMemoryAndPortEvents : Prop := (∀ (s : State),
  (∀ (p off n : Nat), s.linked p = false → exec (.bar2PlainRead p off n) s = .next (s)) ∧
  (∀ (p off n : Nat), s.linked p = true → s.bar2 0 p off n = none → exec (.bar2PlainRead p off n) s = .next (s.hostRefuse p true)) ∧
  (∀ (p off n : Nat) (x : W64), s.linked p = false → exec (.bar2PlainWrite p off n x) s = .next (s)) ∧
  (∀ (p off n : Nat) (x : W64), s.linked p = true → s.bar2 0 p off n = none → exec (.bar2PlainWrite p off n x) s = .next (s.hostRefuse p false)) ∧
  (∀ (p off n : Nat), s.linked p = false → exec (.bar2ArmRead p off n) s = .next (s)) ∧
  (∀ (p off n : Nat), s.linked p = true → s.bar2 1 p off n = none → exec (.bar2ArmRead p off n) s = .next (s.hostRefuse p true)) ∧
  (∀ (p off n : Nat) (x : W64), s.linked p = false → exec (.bar2ArmWrite p off n x) s = .next (s)) ∧
  (∀ (p off n : Nat) (x : W64), s.linked p = true → s.bar2 1 p off n = none → exec (.bar2ArmWrite p off n x) s = .next (s.hostRefuse p false)) ∧
  (∀ (p off n : Nat), s.linked p = false → exec (.bar2ClearRead p off n) s = .next (s)) ∧
  (∀ (p off n : Nat), s.linked p = true → s.bar2 2 p off n = none → exec (.bar2ClearRead p off n) s = .next (s.hostRefuse p true)) ∧
  (∀ (p off n : Nat) (x : W64), s.linked p = false → exec (.bar2ClearWrite p off n x) s = .next (s)) ∧
  (∀ (p off n : Nat) (x : W64), s.linked p = true → s.bar2 2 p off n = none → exec (.bar2ClearWrite p off n x) s = .next (s.hostRefuse p false)) ∧
  (∀ (p off n : Nat) (c : BitVec 6) (pa o : Nat), s.linked p = true → s.bar2 0 p off n = some (c, pa, o) → l2Waits s (placeNow s pa) = true → exec (.bar2PlainRead p off n) s = .next (s.after s.busyEnd (.bar2PlainRead p off n))) ∧
  (∀ (p off n : Nat) (c : BitVec 6) (pa o : Nat) (x : W64), s.linked p = true → s.bar2 0 p off n = some (c, pa, o) → l2Waits s (placeNow s pa) = true → exec (.bar2PlainWrite p off n x) s = .next (s.after s.busyEnd (.bar2PlainWrite p off n x))) ∧
  (∀ (p off n : Nat) (c : BitVec 6) (pa o : Nat), s.linked p = true → s.bar2 1 p off n = some (c, pa, o) → l2Waits s (placeNow s pa) = true → exec (.bar2ArmRead p off n) s = .next (s.after s.busyEnd (.bar2ArmRead p off n))) ∧
  (∀ (p off n : Nat) (c : BitVec 6) (pa o : Nat) (x : W64), s.linked p = true → s.bar2 2 p off n = some (c, pa, o) → l2Waits s (placeNow s pa) = true → exec (.bar2ClearWrite p off n x) s = .next (s.after s.busyEnd (.bar2ClearWrite p off n x))) ∧
  (∀ (p off n : Nat) (c : BitVec 6) (pa o : Nat) (t : State) (v : Nat) (w : Bool), s.linked p = true → s.bar2 0 p off n = some (c, pa, o) → l2Waits s (placeNow s pa) = false → s.hostAccess c pa n .read 0 = .done t v w → exec (.bar2PlainRead p off n) s = .next (t.push (.value (BitVec.ofNat 64 v)))) ∧
  (∀ (p off n : Nat) (c : BitVec 6) (pa o : Nat) (t : State), s.linked p = true → s.bar2 0 p off n = some (c, pa, o) → l2Waits s (placeNow s pa) = false → s.hostAccess c pa n .read 0 = .refused t → exec (.bar2PlainRead p off n) s = .next (t.hostRefuse p true)) ∧
  (∀ (p off n : Nat) (c : BitVec 6) (pa o : Nat) (t : State), s.linked p = true → s.bar2 0 p off n = some (c, pa, o) → l2Waits s (placeNow s pa) = false → s.hostAccess c pa n .read 0 = .poison t → s.ueMem.contains (placeNow s pa / 64) = true → exec (.bar2PlainRead p off n) s = .next (t.push (.poisoned (BitVec.ofNat 64 (t.readPa (placeNow t pa) n ((t.hctx.get c.toFin).extractLsb' 11 10)))))) ∧
  (∀ (p off n : Nat) (c : BitVec 6) (pa o : Nat) (x : W64), s.linked p = true → s.bar2 0 p off n = some (c, pa, o) → l2Waits s (placeNow s pa) = false → exec (.bar2PlainWrite p off n x) s = .next (s.hostWrite p c pa n .write x id)) ∧
  (∀ (p off n : Nat) (c : BitVec 6) (pa o : Nat) (t : State) (v : Nat) (w : Bool), s.linked p = true → s.bar2 1 p off n = some (c, pa, o) → l2Waits s (placeNow s pa) = false → s.hostAccess c (pa / 8 * 8) 8 (.ldfe 3) 0 = .done t v w → exec (.bar2ArmRead p off n) s = .next (t.push (.value (BitVec.ofNat 64 (sliceBytes v (pa % 8) n))))) ∧
  (∀ (p off n : Nat) (c : BitVec 6) (pa o : Nat) (x : W64), s.linked p = true → s.bar2 1 p off n = some (c, pa, o) → n ≠ 8 → exec (.bar2ArmWrite p off n x) s = .next (s.hostRefuse p false)) ∧
  (∀ (p off : Nat) (c : BitVec 6) (pa o : Nat) (x : W64), s.linked p = true → s.bar2 1 p off 8 = some (c, pa, o) → s.admits (placeNow s pa) ⟨c, false, 4⟩ 4 = false → exec (.bar2ArmWrite p off 8 x) s = .next ((s.refuseAt (placeNow s pa) ⟨c, false, 4⟩ 4).hostRefuse p false)) ∧
  (∀ (p off : Nat) (c : BitVec 6) (pa o : Nat) (x : W64), s.linked p = true → s.bar2 1 p off 8 = some (c, pa, o) → s.admits (placeNow s pa) ⟨c, false, 4⟩ 4 = true → o < 0x100000 ∧ o % 256 = 0 → s.fullAt (placeNow s pa) = true → exec (.bar2ArmWrite p off 8 x) s = .next (s.countHerr p 31 0)) ∧
  (∀ (p off : Nat) (c : BitVec 6) (pa o : Nat) (x : W64), s.linked p = true → s.bar2 1 p off 8 = some (c, pa, o) → s.admits (placeNow s pa) ⟨c, false, 4⟩ 4 = true → l2Waits s (placeNow s pa) = false → (o < 0x100000 → o % 256 ≠ 0) → exec (.bar2ArmWrite p off 8 x) s = .next (s.hostWrite p c pa 8 (.stfe 0) x id)) ∧
  (∀ (p off : Nat) (c : BitVec 6) (pa o : Nat) (x : W64), s.linked p = true → s.bar2 1 p off 8 = some (c, pa, o) → s.admits (placeNow s pa) ⟨c, false, 4⟩ 4 = true → l2Waits s (placeNow s pa) = false → o < 0x100000 ∧ o % 256 = 0 → s.fullAt (placeNow s pa) = false → exec (.bar2ArmWrite p off 8 x) s = .next (s.hostWrite p c pa 8 (.stfe 0) x fun t => ({ t with armed := t.armed ++ [(c, o / 256)] } : State).post (.launchSlotTake c (o / 256)))) ∧
  (∀ (p off n : Nat) (c : BitVec 6) (pa o : Nat), s.linked p = true → s.bar2 2 p off n = some (c, pa, o) → s.admits (placeNow s pa) ⟨c, false, 4⟩ 1 = true → exec (.bar2ClearRead p off n) s = .next (s.push (.value 0))) ∧
  (∀ (p off n : Nat) (c : BitVec 6) (pa o : Nat), s.linked p = true → s.bar2 2 p off n = some (c, pa, o) → s.admits (placeNow s pa) ⟨c, false, 4⟩ 1 = false → exec (.bar2ClearRead p off n) s = .next ((s.refuseAt (placeNow s pa) ⟨c, false, 4⟩ 1).hostRefuse p true)) ∧
  (∀ (p off n : Nat) (c : BitVec 6) (pa o : Nat) (x : W64), s.linked p = true → s.bar2 2 p off n = some (c, pa, o) → l2Waits s (placeNow s pa) = false → exec (.bar2ClearWrite p off n x) s = .next (s.hostWrite p c (pa / 8 * 8) 8 (.stfe 2) 0 id))) ∧
  (∀ (s : State),
  (∀ (p off n : Nat) (v : Option W64), s.linked p = true → off < 0x4000000 ∨ 0x8000000 ≤ off ∨ regSize off n = false → exec (.dieWindowAccess p off n v) s = .next (s.hostRefuse p v.isNone)) ∧
  (∀ (p off n : Nat) (v : Option W64), s.linked p = true → 0x4000000 ≤ off → off < 0x8000000 → regSize off n = true → exec (.dieWindowAccess p off n v) s = .next (s.hostReg p (dieRange ((off - 0x4000000) / 0x800000) + off % 0x800000) n v)) ∧
  (∀ (p off n : Nat) (v : Option W64), s.linked p = true → bar0Listed off = true → exec (.bar0UnmappedAccess p off n v) s = .next (s.bar0 p off n v)) ∧
  (∀ (p off n : Nat), s.linked p = true → bar0Listed off = false → exec (.bar0UnmappedAccess p off n none) s = .next ((s.countHerr p 63 32).push (.value (BitVec.ofNat 64 (2 ^ (8 * n) - 1))))) ∧
  (∀ (p off n : Nat) (x : W64), s.linked p = true → bar0Listed off = false → exec (.bar0UnmappedAccess p off n (some x)) s = .next (s.countHerr p 63 32)) ∧
  (∀ (p v : Nat), exec (.msixUnmask p v) s = .next (if v < 65 then s.unmask p v else s)) ∧
  (∀ (p : Nat), exec (.hostPortDown p) s = .next (s.setPort p fun x => { x with up := false })) ∧
  (∀ (d : Nat), d = 0 ∨ d = 4 → exec (.herrRead d) s = .next ((s.setDie d fun x => { x with herr := 0 }).push (.value (s.die d).herr))) ∧
  (∀ (d : Nat), ¬(d = 0 ∨ d = 4) → exec (.herrRead d) s = .next ((s.fault d 0x41 1 0 (dieRange d + 0x500000) 4).push (.value (-1)))) ∧
  (∀ (d st k : Nat) (e : AccessEntry) (m : Master), m.cls ≠ 5 → exec (.accessTableWrite d st k e m) s = .next (s.refuse d 1100 (dieRange d + 0x400000 + (st - 1024) * 0x400 + 32 * k) m 2)) ∧
  (∀ (d st k : Nat) (e : AccessEntry) (m : Master), m.cls = 5 → 1024 ≤ st → st ≤ 1100 → k < 32 → exec (.accessTableWrite d st k e m) s = .next (s.setDie d fun x => { x with access := insEntry st k e x.access })))

/-- R97, R108, R109: a mailbox command is dropped and counted while one is in progress; OPEN opens staging, CHUNK copies MBBUF into it, COMMIT stages a verified image, ABORT closes it, ATTEST joins the queue, another code answers error 1; completion sets DONE and ERR; reading MBSTAT clears DONE. The model's own readings that it rests on: log 4, 14, 35. -/
def Obligations.MailboxEvents : Prop := ∀ (s : State),
  (∀ (p : Nat) (c : W64), s.linked p = true → s.mailboxOk 0x3010000 2 = false → exec (.mailboxOpen p c) s = .next (s.mailboxRefuse p 0x3010000 2)) ∧
  (∀ (p : Nat) (c : W64), s.linked p = true → s.mailboxOk 0x3010000 2 = true → s.mbox.busy = true → exec (.mailboxOpen p c) s = .next (s.countHerr p 63 32)) ∧
  (∀ (p : Nat) (c : W64), s.linked p = true → s.mailboxOk 0x3010000 2 = false → exec (.mailboxChunk p c) s = .next (s.mailboxRefuse p 0x3010000 2)) ∧
  (∀ (p : Nat) (c : W64), s.linked p = true → s.mailboxOk 0x3010000 2 = true → s.mbox.busy = true → exec (.mailboxChunk p c) s = .next (s.countHerr p 63 32)) ∧
  (∀ (p : Nat) (c : W64), s.linked p = true → s.mailboxOk 0x3010000 2 = false → exec (.mailboxCommit p c) s = .next (s.mailboxRefuse p 0x3010000 2)) ∧
  (∀ (p : Nat) (c : W64), s.linked p = true → s.mailboxOk 0x3010000 2 = true → s.mbox.busy = true → exec (.mailboxCommit p c) s = .next (s.countHerr p 63 32)) ∧
  (∀ (p : Nat) (c : W64), s.linked p = true → s.mailboxOk 0x3010000 2 = false → exec (.mailboxAbort p c) s = .next (s.mailboxRefuse p 0x3010000 2)) ∧
  (∀ (p : Nat) (c : W64), s.linked p = true → s.mailboxOk 0x3010000 2 = true → s.mbox.busy = true → exec (.mailboxAbort p c) s = .next (s.countHerr p 63 32)) ∧
  (∀ (p : Nat) (c : W64), s.linked p = true → s.mailboxOk 0x3010000 2 = false → exec (.mailboxAttest p c) s = .next (s.mailboxRefuse p 0x3010000 2)) ∧
  (∀ (p : Nat) (c : W64), s.linked p = true → s.mailboxOk 0x3010000 2 = true → s.mbox.busy = true → exec (.mailboxAttest p c) s = .next (s.countHerr p 63 32)) ∧
  (∀ (p : Nat) (c : W64), s.linked p = true → s.mailboxOk 0x3010000 2 = false → exec (.mailboxInvalidOp p c) s = .next (s.mailboxRefuse p 0x3010000 2)) ∧
  (∀ (p : Nat) (c : W64), s.linked p = true → s.mailboxOk 0x3010000 2 = true → s.mbox.busy = true → exec (.mailboxInvalidOp p c) s = .next (s.countHerr p 63 32)) ∧
  (∀ (p : Nat) (c : W64) (T : State), s.linked p = true → s.mailboxOk 0x3010000 2 = true → s.mbox.busy = false → T = { s with mbox := { s.mbox with busy := true, done := false, rlen := 0 } } → T.mbox.image = none → mailArg c ≤ 2 ^ 25 ∧ mailArg c % 16 = 0 → exec (.mailboxOpen p c) s = .next ((T.staging (some []) (mailArg c)).post (.mailboxCommandComplete 0))) ∧
  (∀ (p : Nat) (c : W64) (T : State), s.linked p = true → s.mailboxOk 0x3010000 2 = true → s.mbox.busy = false → T = { s with mbox := { s.mbox with busy := true, done := false, rlen := 0 } } → openErr T (mailArg c) ≠ 0 → exec (.mailboxOpen p c) s = .next (T.post (.mailboxCommandComplete (openErr T (mailArg c))))) ∧
  (∀ (p : Nat) (c : W64) (T : State) (I : List Host.Cell), s.linked p = true → s.mailboxOk 0x3010000 2 = true → s.mbox.busy = false → T = { s with mbox := { s.mbox with busy := true, done := false, rlen := 0 } } → chunkErr T (mailArg c) (mailLen c) = 0 → (I = (List.range (mailLen c)).foldl (fun x k => cellPut x (mailArg c + k) (cellGet T.mbox.buf k)) (T.mbox.image.getD [])) → exec (.mailboxChunk p c) s = .next ((T.staging (some I) T.mbox.ilen).post (.mailboxCommandComplete 0))) ∧
  (∀ (p : Nat) (c : W64) (T : State), s.linked p = true → s.mailboxOk 0x3010000 2 = true → s.mbox.busy = false → T = { s with mbox := { s.mbox with busy := true, done := false, rlen := 0 } } → chunkErr T (mailArg c) (mailLen c) ≠ 0 → exec (.mailboxChunk p c) s = .next (T.post (.mailboxCommandComplete (chunkErr T (mailArg c) (mailLen c))))) ∧
  (∀ (p : Nat) (c : W64) (T : State) (I : Option (List Byte)), s.linked p = true → s.mailboxOk 0x3010000 2 = true → s.mbox.busy = false → T = { s with mbox := { s.mbox with busy := true, done := false, rlen := 0 } } → (I = T.mbox.image.map fun x => (List.range T.mbox.ilen).map (cellGet x)) → commitErr I = 0 → exec (.mailboxCommit p c) s = .next ((({ T with fwStaged := I } : State).staging none 0).post (.mailboxCommandComplete 0))) ∧
  (∀ (p : Nat) (c : W64) (T : State) (I : Option (List Byte)), s.linked p = true → s.mailboxOk 0x3010000 2 = true → s.mbox.busy = false → T = { s with mbox := { s.mbox with busy := true, done := false, rlen := 0 } } → (I = T.mbox.image.map fun x => (List.range T.mbox.ilen).map (cellGet x)) → commitErr I ≠ 0 → exec (.mailboxCommit p c) s = .next ((T.staging none 0).post (.mailboxCommandComplete (commitErr I)))) ∧
  (∀ (p : Nat) (c : W64) (T : State), s.linked p = true → s.mailboxOk 0x3010000 2 = true → s.mbox.busy = false → T = { s with mbox := { s.mbox with busy := true, done := false, rlen := 0 } } → exec (.mailboxAbort p c) s = .next ((T.staging none 0).post (.mailboxCommandComplete (if T.mbox.image.isSome then 0 else 1)))) ∧
  (∀ (p : Nat) (c : W64) (T : State), s.linked p = true → s.mailboxOk 0x3010000 2 = true → s.mbox.busy = false → T = { s with mbox := { s.mbox with busy := true, done := false, rlen := 0 } } → exec (.mailboxAttest p c) s = .next (((T.attestAsk (BitVec.ofNat 128 (cellsNat T.mbox.buf 0 16)) true).getD (T.post (.mailboxCommandComplete 5))))) ∧
  (∀ (p : Nat) (c : W64) (T : State), s.linked p = true → s.mailboxOk 0x3010000 2 = true → s.mbox.busy = false → T = { s with mbox := { s.mbox with busy := true, done := false, rlen := 0 } } → exec (.mailboxInvalidOp p c) s = .next (T.post (.mailboxCommandComplete 1))) ∧
  (∀ (e : BitVec 8), s.mbox.busy = true → exec (.mailboxCommandComplete e) s = .next ({ s with mbox := { s.mbox with busy := false, done := true, err := e } })) ∧
  (∀ (p : Nat), s.linked p = true → s.mailboxOk 0x3010008 1 = true → exec (.mbstatRead p) s = .next (({ s with mbox := { s.mbox with done := false } } : State).push (.value s.mbox.stat))) ∧
  (∀ (p : Nat), s.linked p = true → s.mailboxOk 0x3010008 1 = false → exec (.mbstatRead p) s = .next (s.mailboxRefuse p 0x3010008 1))

/-- R17, R70–R73, R93: a good flit in sequence with room is acknowledged, its permits, its marker and its packets taken; a bad one, one out of sequence or one without room is dropped and asked for again; a link whose training does not finish goes down, a die link at both ends, failing the module and ending every context; a trained link sends its flits again; a UCIe module fails at both ends of its link; Cirrus lanes fail over to three, the spare first; gateways 0, 1 and 2 of a die are ends of the ring's and the chord's links. R31, R91: a port that changes state starts its link anew and repeats discovery, and is reported when it fails training at bring-up step 2; a probe is answered by this module's Zenith core; the smallest hop count of each module is kept; the time-out writes the scope table with the codes of the counts, and step 6 ends when every die has finished. R92, R93: a Lull holds a die's requests back for 2 µs and comes again after 10 ms; its links' senders send markers; at the receiver H + F + R equal to the depth leaves all as it is, another sum is recorded with its parts, the sender's count corrected when it is of this module; at its end what was held goes on, in the order it came. The model's own readings that it rests on: log 13, 36, 39. -/
def Obligations.LinkTopologyAndLullEvents : Prop := (∀ (s : State),
  (∀ (l : LinkId) (f : Flit), (s.link l).up = false ∨ (s.link l).retrain = true → exec (.flitReceive l f) s = .next (s)) ∧
  (∀ (l : LinkId) (f : Flit), (s.link l).up = true → (s.link l).retrain = false → f.crcOk = false ∨ f.fseq ≠ (s.link l).fseqIn ∨ overfull l f = true → ¬(((s.link l).drops = true ∧ f.crcOk = true) ∧ f.fseq ≠ (s.link l).fseqIn) → exec (.flitReceive l f) s = .next (s.nakFlit l)) ∧
  (∀ (l : LinkId) (f : Flit), (s.link l).up = true → (s.link l).retrain = false → f.crcOk = false ∨ f.fseq ≠ (s.link l).fseqIn ∨ overfull l f = true → ((s.link l).drops = true ∧ f.crcOk = true) ∧ f.fseq ≠ (s.link l).fseqIn → exec (.flitReceive l f) s = .next (s)) ∧
  (∀ (l : LinkId) (f : Flit) (t : State), (s.link l).up = true → (s.link l).retrain = false → f.crcOk = true → f.fseq = (s.link l).fseqIn → overfull l f = false → f.marker = none → (t = s.setLink { s.link l with fseqIn := (s.link l).fseqIn + 1, drops := false, naks := 0, ackDue := (s.link l).ackDue || !f.empty, owed := f.packets.foldl (fun o c => setCountPut o (carriedSet c).1 (carriedSet c).2 (setCount o (carriedSet c).1 (carriedSet c).2 + 1)) (s.link l).owed }) → exec (.flitReceive l f) s = .next ((f.packets.foldl (fun s c => s.takePacket l c) (t.flitControl l f)).linkDrain l)) ∧
  (∀ (l : LinkId) (f : Flit) (t : State) (k : Mark), (s.link l).up = true → (s.link l).retrain = false → f.crcOk = true → f.fseq = (s.link l).fseqIn → overfull l f = false → f.marker = some k → (t = s.setLink { s.link l with fseqIn := (s.link l).fseqIn + 1, drops := false, naks := 0, ackDue := (s.link l).ackDue || !f.empty, owed := f.packets.foldl (fun o c => setCountPut o (carriedSet c).1 (carriedSet c).2 (setCount o (carriedSet c).1 (carriedSet c).2 + 1)) (s.link l).owed }) → exec (.flitReceive l f) s = .next ((f.packets.foldl (fun s c => s.takePacket l c) ((t.flitControl l f).post (.lullMarker l k.net k.cls k.held k.pret))).linkDrain l)) ∧
  (∀ (l : LinkId), (s.link l).retrain = false → exec (.linkRetrainTimeout l) s = .next (s)) ∧
  (∀ (d g : Nat), (s.link (.cirrus d g)).retrain = true → exec (.linkRetrainTimeout (.cirrus d g)) s = .next ((s.setLink { s.link (.cirrus d g) with up := false, retrain := false, replay := [], queue := [] }).post (.cirrusPortStateChange d g false))) ∧
  (∀ (d g : Nat), (s.link (.mesh d g)).retrain = true → exec (.linkRetrainTimeout (.mesh d g)) s = .next ((s.setLink { s.link (.mesh d g) with up := false, retrain := false, replay := [], queue := [] }))) ∧
  (∀ (d g : Nat), (s.link (.dieLink d g)).retrain = true → exec (.linkRetrainTimeout (.dieLink d g)) s = .next (s.dieLinkDown (.dieLink d g))) ∧
  (∀ (l r : LinkId) (t u : State), farEnd l = some r → t = s.setLink { s.link l with up := false, retrain := false, replay := [], queue := [] } → u = t.setLink { t.link r with up := false, retrain := false, replay := [], queue := [] } → s.dieLinkDown l = ((u.fail (linkDie l)).portsDown).terminateAll (fun _ => true) 6 true) ∧
  (∀ d : Nat, d < 8 → farEnd (.dieLink d 0) = some (.dieLink ((d + 1) % 8) 1) ∧ farEnd (.dieLink d 2) = some (.dieLink ((d + 4) % 8) 2) ∧ (farEnd (.dieLink d 0)).bind farEnd = some (.dieLink d 0) ∧ (farEnd (.dieLink d 1)).bind farEnd = some (.dieLink d 1) ∧ (farEnd (.dieLink d 2)).bind farEnd = some (.dieLink d 2)) ∧
  (∀ (l : LinkId) (t : State), (s.link l).retrain = true → (t = ({ s with timers := s.timers.filter fun t => t.2 != .linkRetrainTimeout l } : State).setLink { s.link l with retrain := false }) → exec (.linkRetrained l) s = .next ((t.resendFlits l).linkDrain l)) ∧
  (∀ (l : LinkId), (s.link l).retrain = false → exec (.linkRetrained l) s = .next (s)) ∧
  (∀ (d g m : Nat) (k : Link), k = s.link (.dieLink d g) → k.bad.contains m = true ∨ 4 ≤ m → exec (.dieLinkModuleFailure d g m) s = .next (s)) ∧
  (∀ (d g m : Nat) (k : Link) (r : LinkId) (t u : State), k = s.link (.dieLink d g) → k.bad.contains m = false → m < 4 → farEnd (.dieLink d g) = some r → u = s.setLink { s.link (.dieLink d g) with bad := setIns (s.link (.dieLink d g)).bad m } → t = u.setLink { u.link r with bad := setIns (u.link r).bad m } → k.bad.length < 3 → exec (.dieLinkModuleFailure d g m) s = .next ((t.linkRecord (.dieLink d g) 0x35 0 0 m))) ∧
  (∀ (d g m : Nat) (k : Link) (r : LinkId) (t u : State), k = s.link (.dieLink d g) → k.bad.contains m = false → m < 4 → farEnd (.dieLink d g) = some r → u = s.setLink { s.link (.dieLink d g) with bad := setIns (s.link (.dieLink d g)).bad m } → t = u.setLink { u.link r with bad := setIns (u.link r).bad m } → ¬ k.bad.length < 3 → exec (.dieLinkModuleFailure d g m) s = .next ((t.linkRecord (.dieLink d g) 0x35 0 0 m).dieLinkDown (.dieLink d g))) ∧
  (∀ (d p n : Nat) (k x : Link), k = s.link (.cirrus d p) → x = s.link (.cirrus d (p % 3)) → k.bad.contains n = true ∨ 4 ≤ n → exec (.cirrusLaneFailure d p n) s = .next (s)) ∧
  (∀ (d p n : Nat) (k x : Link), k = s.link (.cirrus d p) → x = s.link (.cirrus d (p % 3)) → k.bad.contains n = false → n < 4 → x.spare.isNone = true → exec (.cirrusLaneFailure d p n) s = .next ((s.setLink { x with spare := some (p, n) }).linkRecord (.cirrus d p) 0x32 0 0 n)) ∧
  (∀ (d p n : Nat) (k x : Link), k = s.link (.cirrus d p) → x = s.link (.cirrus d (p % 3)) → k.bad.contains n = false → n < 4 → x.spare.isNone = false → k.bad.length = 0 → exec (.cirrusLaneFailure d p n) s = .next ((s.setLink { k with bad := setIns k.bad n }).linkRecord (.cirrus d p) 0x33 0 0 n)) ∧
  (∀ (d p n : Nat) (k x : Link), k = s.link (.cirrus d p) → x = s.link (.cirrus d (p % 3)) → k.bad.contains n = false → n < 4 → x.spare.isNone = false → k.bad.length ≠ 0 → exec (.cirrusLaneFailure d p n) s = .next (((s.setLink { k with bad := setIns k.bad n }).linkRecord (.cirrus d p) 0x34 0 0 n).post (.cirrusPortStateChange d p false)))) ∧
  (∀ (s : State),
  (∀ (d p : Nat) (up u : Bool) (t v : State), u = (up && s.modid != 0xFFFF) → t = s.setLink { id := .cirrus d p, up := u, bad := (s.link (.cirrus d p)).bad, spare := (s.link (.cirrus d p)).spare } → v = (if t.bringStep = 2 ∧ !u then t.linkRecord (.cirrus d p) 0x34 else t) → exec (.cirrusPortStateChange d p up) s = .next (if v.ready ∨ 6 ≤ v.bringStep then v.discover d else v)) ∧
  (∀ (p : Packet), exec (.topologyProbe p) s = .next (s.send { kind := kTopoAnswer, vn := 1, aux := p.aux, src := s.zenith (p.dst.toNat / 2 ^ 13 % 8), dst := p.src })) ∧
  (∀ (d n : Nat) (m : BitVec 16) (l : List (Nat × Nat)), (s.die d).topo = some l → exec (.topologyAnswer d m n) s = .next (s.setDie d fun x => { x with topo := some ((m.toNat, Nat.min (((l.find? fun x => decide (x.1 = m.toNat)).map (·.2)).getD n) n) :: l.filter fun x => decide (x.1 ≠ m.toNat)) })) ∧
  (∀ (d : Nat), (s.die d).topo = none → exec (.topologyDiscoveryTimeout d) s = .next (s)) ∧
  (∀ (d : Nat) (l : List (Nat × Nat)) (t : State), (s.die d).topo = some l → (t = s.setDie d fun x => { x with topo := none, scopes := (l.filter fun x => decide (hopCode x.2 ≠ 0)).map fun x => (x.1, hopCode x.2) }) → exec (.topologyDiscoveryTimeout d) s = .next (if t.bringing ∧ t.bringStep = 6 ∧ (t.dies.all fun d => d.topo.isNone) then t.post (.bringupStepComplete true 0) else t))) ∧
  (∀ (s : State),
  (∀ (d : Nat) (t u v : State), (t = s.setDie d fun x => { x with lull := true }) → (u = (((List.range 3).map (LinkId.dieLink d) ++ (List.range 6).map (LinkId.cirrus d)).filter fun l => (t.link l).up).foldl (fun s l => (s.setLink { s.link l with marks := (s.link l).marks ++ (s.link l).lullMarks }).linkDrain l) t) → (v = (u.links.filter fun k => match k.id with | .mesh e _ => decide (e % 8 = d % 8) | _ => false).foldl (fun s k => k.lullMarks.foldl (fun s m => s.post (.lullMarker k.id m.net m.cls m.held m.pret)) s) u) → exec (.lullStart d) s = .next ((v.after (us 2) (.lullEnd d)).after (us 10000) (.lullStart d))) ∧
  (∀ (l : LinkId) (n k held : Nat) (pret : BitVec 16) (h j D F R : Nat), setOf n k = (h, j) → D = linkDepth l h j → F = setCount (s.link l).owed h j → R = (s.link l).returned h j pret → held + F + R = D → exec (.lullMarker l n k held pret) s = .next (s)) ∧
  (∀ (d g : Nat) (n k held : Nat) (pret : BitVec 16) (h j D F R : Nat), setOf n k = (h, j) → D = linkDepth (.cirrus d g) h j → F = setCount (s.link (.cirrus d g)).owed h j → R = (s.link (.cirrus d g)).returned h j pret → ¬ held + F + R = D → exec (.lullMarker (.cirrus d g) n k held pret) s = .next (s.linkRecord (.cirrus d g) 0x31 n k 0 (D % 2 ^ 16 + held % 2 ^ 16 * 2 ^ 16 + F % 2 ^ 16 * 2 ^ 32 + R % 2 ^ 16 * 2 ^ 48) ((held + F + R) % 2 ^ 16))) ∧
  (∀ (d g : Nat) (n k held : Nat) (pret : BitVec 16) (h j D F R : Nat), setOf n k = (h, j) → D = linkDepth (.mesh d g) h j → F = setCount (s.link (.mesh d g)).owed h j → R = (s.link (.mesh d g)).returned h j pret → ¬ held + F + R = D → exec (.lullMarker (.mesh d g) n k held pret) s = .next ((s.setLink { s.link (.mesh d g) with spent := setCountPut (s.link (.mesh d g)).spent h j (F + R) }).linkRecord (.mesh d g) 0x31 n k 0 (D % 2 ^ 16 + held % 2 ^ 16 * 2 ^ 16 + F % 2 ^ 16 * 2 ^ 32 + R % 2 ^ 16 * 2 ^ 48) ((held + F + R) % 2 ^ 16))) ∧
  (∀ (d g : Nat) (r : LinkId) (n k held : Nat) (pret : BitVec 16) (h j D F R : Nat), setOf n k = (h, j) → D = linkDepth (.dieLink d g) h j → F = setCount (s.link (.dieLink d g)).owed h j → R = (s.link (.dieLink d g)).returned h j pret → farEnd (.dieLink d g) = some r → ¬ held + F + R = D → exec (.lullMarker (.dieLink d g) n k held pret) s = .next ((s.setLink { s.link r with spent := setCountPut (s.link r).spent h j (F + R) }).linkRecord (.dieLink d g) 0x31 n k 0 (D % 2 ^ 16 + held % 2 ^ 16 * 2 ^ 16 + F % 2 ^ 16 * 2 ^ 32 + R % 2 ^ 16 * 2 ^ 48) ((held + F + R) % 2 ^ 16))) ∧
  (∀ (d : Nat) (ps : List Packet) (t : State), ps = (s.die d).lullHeld → (t = s.setDie d fun x => { x with lull := false, lullHeld := [] }) → exec (.lullEnd d) s = .next (ps.foldl State.handle (((List.range 3).map (LinkId.dieLink d) ++ (List.range 6).map (LinkId.cirrus d)).foldl State.linkDrain t))) ∧
  (∀ (d : Nat) (p : Packet), (s.die d).lull = true → p.vn = 0 → s.takeIn d p = s.setDie d fun x => { x with lullHeld := x.lullHeld ++ [p] }))

/-- R74, R77, R79, R82, R83, R87: a keyed request at its check gateway: an endpoint that does not exist is NOEP; one ahead of its flow is dropped; a resent one is answered from the cache; a full cache is BUSY; then the key's entry is checked: KEY, BOUNDS, PERM; a ticketed request is answered with its ticket again, a later one to its block becomes a shadow; else it reaches a team or memory. R76, R78, R79, R86, R87, R89: a PROBE is answered from the cache or with PARKED; a queued call begins on a waiting thread 7 with its arguments, caller and context; a flow idle for 1 ms ends with its told tickets; a cached reply ends after 200 µs; a replica takes its new entry. The model's own readings that it rests on: log 32, 33, 37, 38. -/
def Obligations.RequestsAtTheirGateways : Prop := (∀ (s : State),
  (∀ (p q : Packet) (d gw : Nat), q = { p with kind := kRld } → checkGw q.rkey = (d, gw) → badEndpoint q.dst = true → exec (.rldRequest p) s = .next (s.error q stNoEp)) ∧
  (∀ (p q : Packet) (d gw : Nat), q = { p with kind := kRld } → checkGw q.rkey = (d, gw) → badEndpoint q.dst = false → s.reqWaits d gw q = true → exec (.rldRequest p) s = .next (s.after s.busyEnd (packetStep (s.windowKey q.rkey) q))) ∧
  (∀ (p q : Packet) (d gw : Nat), q = { p with kind := kRld } → checkGw q.rkey = (d, gw) → badEndpoint q.dst = false → s.reqWaits d gw q = false → s.flowCheck d gw q = none → exec (.rldRequest p) s = .next (s)) ∧
  (∀ (p q : Packet) (d gw : Nat) (t : State) (r : CachedReply), q = { p with kind := kRld } → checkGw q.rkey = (d, gw) → badEndpoint q.dst = false → s.reqWaits d gw q = false → s.flowCheck d gw q = some t → t.cachedOf q = some r → q.retx = true → exec (.rldRequest p) s = .next (t.cachedAnswer q r)) ∧
  (∀ (p q : Packet) (d gw : Nat) (t : State), q = { p with kind := kRld } → checkGw q.rkey = (d, gw) → badEndpoint q.dst = false → s.reqWaits d gw q = false → s.flowCheck d gw q = some t → t.cachedOf q = none ∨ q.retx = false → idempotent q = true → exec (.rldRequest p) s = .next (t.checked d gw q)) ∧
  (∀ (p q : Packet) (d gw : Nat) (t : State), q = { p with kind := kRld } → checkGw q.rkey = (d, gw) → badEndpoint q.dst = false → s.reqWaits d gw q = false → s.flowCheck d gw q = some t → t.cachedOf q = none ∨ q.retx = false → idempotent q = false → (((t.caches q).any fun x => !t.cacheRoom q x) = false) → exec (.rldRequest p) s = .next ((t.cacheOpen q).checked d gw q)) ∧
  (∀ (p q : Packet) (d gw : Nat) (t : State), q = { p with kind := kRld } → checkGw q.rkey = (d, gw) → badEndpoint q.dst = false → s.reqWaits d gw q = false → s.flowCheck d gw q = some t → t.cachedOf q = none ∨ q.retx = false → idempotent q = false → (((t.caches q).any fun x => !t.cacheRoom q x) = true) → exec (.rldRequest p) s = .next (t.busy q)) ∧
  (∀ (p q : Packet) (d gw : Nat), q = { p with kind := kRst } → checkGw q.rkey = (d, gw) → badEndpoint q.dst = true → exec (.rstRequest p) s = .next (s.error q stNoEp)) ∧
  (∀ (p q : Packet) (d gw : Nat), q = { p with kind := kRst } → checkGw q.rkey = (d, gw) → badEndpoint q.dst = false → s.reqWaits d gw q = true → exec (.rstRequest p) s = .next (s.after s.busyEnd (packetStep (s.windowKey q.rkey) q))) ∧
  (∀ (p q : Packet) (d gw : Nat), q = { p with kind := kRst } → checkGw q.rkey = (d, gw) → badEndpoint q.dst = false → s.reqWaits d gw q = false → s.flowCheck d gw q = none → exec (.rstRequest p) s = .next (s)) ∧
  (∀ (p q : Packet) (d gw : Nat) (t : State) (r : CachedReply), q = { p with kind := kRst } → checkGw q.rkey = (d, gw) → badEndpoint q.dst = false → s.reqWaits d gw q = false → s.flowCheck d gw q = some t → t.cachedOf q = some r → q.retx = true → exec (.rstRequest p) s = .next (t.cachedAnswer q r)) ∧
  (∀ (p q : Packet) (d gw : Nat) (t : State), q = { p with kind := kRst } → checkGw q.rkey = (d, gw) → badEndpoint q.dst = false → s.reqWaits d gw q = false → s.flowCheck d gw q = some t → t.cachedOf q = none ∨ q.retx = false → idempotent q = false → (((t.caches q).any fun x => !t.cacheRoom q x) = false) → exec (.rstRequest p) s = .next ((t.cacheOpen q).checked d gw q)) ∧
  (∀ (p q : Packet) (d gw : Nat) (t : State), q = { p with kind := kRst } → checkGw q.rkey = (d, gw) → badEndpoint q.dst = false → s.reqWaits d gw q = false → s.flowCheck d gw q = some t → t.cachedOf q = none ∨ q.retx = false → idempotent q = false → (((t.caches q).any fun x => !t.cacheRoom q x) = true) → exec (.rstRequest p) s = .next (t.busy q)) ∧
  (∀ (p q : Packet) (d gw : Nat), q = { p with kind := kRamo } → checkGw q.rkey = (d, gw) → badEndpoint q.dst = true → exec (.ramoRequest p) s = .next (s.error q stNoEp)) ∧
  (∀ (p q : Packet) (d gw : Nat), q = { p with kind := kRamo } → checkGw q.rkey = (d, gw) → badEndpoint q.dst = false → s.reqWaits d gw q = true → exec (.ramoRequest p) s = .next (s.after s.busyEnd (packetStep (s.windowKey q.rkey) q))) ∧
  (∀ (p q : Packet) (d gw : Nat), q = { p with kind := kRamo } → checkGw q.rkey = (d, gw) → badEndpoint q.dst = false → s.reqWaits d gw q = false → s.flowCheck d gw q = none → exec (.ramoRequest p) s = .next (s)) ∧
  (∀ (p q : Packet) (d gw : Nat) (t : State) (r : CachedReply), q = { p with kind := kRamo } → checkGw q.rkey = (d, gw) → badEndpoint q.dst = false → s.reqWaits d gw q = false → s.flowCheck d gw q = some t → t.cachedOf q = some r → q.retx = true → exec (.ramoRequest p) s = .next (t.cachedAnswer q r)) ∧
  (∀ (p q : Packet) (d gw : Nat) (t : State), q = { p with kind := kRamo } → checkGw q.rkey = (d, gw) → badEndpoint q.dst = false → s.reqWaits d gw q = false → s.flowCheck d gw q = some t → t.cachedOf q = none ∨ q.retx = false → idempotent q = false → (((t.caches q).any fun x => !t.cacheRoom q x) = false) → exec (.ramoRequest p) s = .next ((t.cacheOpen q).checked d gw q)) ∧
  (∀ (p q : Packet) (d gw : Nat) (t : State), q = { p with kind := kRamo } → checkGw q.rkey = (d, gw) → badEndpoint q.dst = false → s.reqWaits d gw q = false → s.flowCheck d gw q = some t → t.cachedOf q = none ∨ q.retx = false → idempotent q = false → (((t.caches q).any fun x => !t.cacheRoom q x) = true) → exec (.ramoRequest p) s = .next (t.busy q)) ∧
  (∀ (p q : Packet) (d gw : Nat), q = { p with kind := kRcas } → checkGw q.rkey = (d, gw) → badEndpoint q.dst = true → exec (.rcasRequest p) s = .next (s.error q stNoEp)) ∧
  (∀ (p q : Packet) (d gw : Nat), q = { p with kind := kRcas } → checkGw q.rkey = (d, gw) → badEndpoint q.dst = false → s.reqWaits d gw q = true → exec (.rcasRequest p) s = .next (s.after s.busyEnd (packetStep (s.windowKey q.rkey) q))) ∧
  (∀ (p q : Packet) (d gw : Nat), q = { p with kind := kRcas } → checkGw q.rkey = (d, gw) → badEndpoint q.dst = false → s.reqWaits d gw q = false → s.flowCheck d gw q = none → exec (.rcasRequest p) s = .next (s)) ∧
  (∀ (p q : Packet) (d gw : Nat) (t : State) (r : CachedReply), q = { p with kind := kRcas } → checkGw q.rkey = (d, gw) → badEndpoint q.dst = false → s.reqWaits d gw q = false → s.flowCheck d gw q = some t → t.cachedOf q = some r → q.retx = true → exec (.rcasRequest p) s = .next (t.cachedAnswer q r)) ∧
  (∀ (p q : Packet) (d gw : Nat) (t : State), q = { p with kind := kRcas } → checkGw q.rkey = (d, gw) → badEndpoint q.dst = false → s.reqWaits d gw q = false → s.flowCheck d gw q = some t → t.cachedOf q = none ∨ q.retx = false → idempotent q = false → (((t.caches q).any fun x => !t.cacheRoom q x) = false) → exec (.rcasRequest p) s = .next ((t.cacheOpen q).checked d gw q)) ∧
  (∀ (p q : Packet) (d gw : Nat) (t : State), q = { p with kind := kRcas } → checkGw q.rkey = (d, gw) → badEndpoint q.dst = false → s.reqWaits d gw q = false → s.flowCheck d gw q = some t → t.cachedOf q = none ∨ q.retx = false → idempotent q = false → (((t.caches q).any fun x => !t.cacheRoom q x) = true) → exec (.rcasRequest p) s = .next (t.busy q)) ∧
  (∀ (p q : Packet) (d gw : Nat), q = { p with kind := kRcall } → checkGw q.rkey = (d, gw) → badEndpoint q.dst = true → exec (.rcallRequest p) s = .next (s.error q stNoEp)) ∧
  (∀ (p q : Packet) (d gw : Nat), q = { p with kind := kRcall } → checkGw q.rkey = (d, gw) → badEndpoint q.dst = false → s.reqWaits d gw q = true → exec (.rcallRequest p) s = .next (s.after s.busyEnd (packetStep (s.windowKey q.rkey) q))) ∧
  (∀ (p q : Packet) (d gw : Nat), q = { p with kind := kRcall } → checkGw q.rkey = (d, gw) → badEndpoint q.dst = false → s.reqWaits d gw q = false → s.flowCheck d gw q = none → exec (.rcallRequest p) s = .next (s)) ∧
  (∀ (p q : Packet) (d gw : Nat) (t : State) (r : CachedReply), q = { p with kind := kRcall } → checkGw q.rkey = (d, gw) → badEndpoint q.dst = false → s.reqWaits d gw q = false → s.flowCheck d gw q = some t → t.cachedOf q = some r → q.retx = true → exec (.rcallRequest p) s = .next (t.cachedAnswer q r)) ∧
  (∀ (p q : Packet) (d gw : Nat) (t : State), q = { p with kind := kRcall } → checkGw q.rkey = (d, gw) → badEndpoint q.dst = false → s.reqWaits d gw q = false → s.flowCheck d gw q = some t → t.cachedOf q = none ∨ q.retx = false → idempotent q = false → (((t.caches q).any fun x => !t.cacheRoom q x) = false) → exec (.rcallRequest p) s = .next ((t.cacheOpen q).checked d gw q)) ∧
  (∀ (p q : Packet) (d gw : Nat) (t : State), q = { p with kind := kRcall } → checkGw q.rkey = (d, gw) → badEndpoint q.dst = false → s.reqWaits d gw q = false → s.flowCheck d gw q = some t → t.cachedOf q = none ∨ q.retx = false → idempotent q = false → (((t.caches q).any fun x => !t.cacheRoom q x) = true) → exec (.rcallRequest p) s = .next (t.busy q)) ∧
  (∀ (p q : Packet) (d gw : Nat), q = { p with kind := kRget } → checkGw q.rkey = (d, gw) → badEndpoint q.dst = true → exec (.rgetRequest p) s = .next (s.error q stNoEp)) ∧
  (∀ (p q : Packet) (d gw : Nat), q = { p with kind := kRget } → checkGw q.rkey = (d, gw) → badEndpoint q.dst = false → s.reqWaits d gw q = true → exec (.rgetRequest p) s = .next (s.after s.busyEnd (packetStep (s.windowKey q.rkey) q))) ∧
  (∀ (p q : Packet) (d gw : Nat), q = { p with kind := kRget } → checkGw q.rkey = (d, gw) → badEndpoint q.dst = false → s.reqWaits d gw q = false → s.flowCheck d gw q = none → exec (.rgetRequest p) s = .next (s)) ∧
  (∀ (p q : Packet) (d gw : Nat) (t : State) (r : CachedReply), q = { p with kind := kRget } → checkGw q.rkey = (d, gw) → badEndpoint q.dst = false → s.reqWaits d gw q = false → s.flowCheck d gw q = some t → t.cachedOf q = some r → q.retx = true → exec (.rgetRequest p) s = .next (t.cachedAnswer q r)) ∧
  (∀ (p q : Packet) (d gw : Nat) (t : State), q = { p with kind := kRget } → checkGw q.rkey = (d, gw) → badEndpoint q.dst = false → s.reqWaits d gw q = false → s.flowCheck d gw q = some t → t.cachedOf q = none ∨ q.retx = false → idempotent q = true → exec (.rgetRequest p) s = .next (t.checked d gw q)) ∧
  (∀ (p q : Packet) (d gw : Nat), q = { p with kind := kRput } → checkGw q.rkey = (d, gw) → badEndpoint q.dst = true → exec (.rputRequest p) s = .next (s.error q stNoEp)) ∧
  (∀ (p q : Packet) (d gw : Nat), q = { p with kind := kRput } → checkGw q.rkey = (d, gw) → badEndpoint q.dst = false → s.reqWaits d gw q = true → exec (.rputRequest p) s = .next (s.after s.busyEnd (packetStep (s.windowKey q.rkey) q))) ∧
  (∀ (p q : Packet) (d gw : Nat), q = { p with kind := kRput } → checkGw q.rkey = (d, gw) → badEndpoint q.dst = false → s.reqWaits d gw q = false → s.flowCheck d gw q = none → exec (.rputRequest p) s = .next (s)) ∧
  (∀ (p q : Packet) (d gw : Nat) (t : State) (r : CachedReply), q = { p with kind := kRput } → checkGw q.rkey = (d, gw) → badEndpoint q.dst = false → s.reqWaits d gw q = false → s.flowCheck d gw q = some t → t.cachedOf q = some r → q.retx = true → exec (.rputRequest p) s = .next (t.cachedAnswer q r)) ∧
  (∀ (p q : Packet) (d gw : Nat) (t : State), q = { p with kind := kRput } → checkGw q.rkey = (d, gw) → badEndpoint q.dst = false → s.reqWaits d gw q = false → s.flowCheck d gw q = some t → t.cachedOf q = none ∨ q.retx = false → idempotent q = false → (((t.caches q).any fun x => !t.cacheRoom q x) = false) → exec (.rputRequest p) s = .next ((t.cacheOpen q).checked d gw q)) ∧
  (∀ (p q : Packet) (d gw : Nat) (t : State), q = { p with kind := kRput } → checkGw q.rkey = (d, gw) → badEndpoint q.dst = false → s.reqWaits d gw q = false → s.flowCheck d gw q = some t → t.cachedOf q = none ∨ q.retx = false → idempotent q = false → (((t.caches q).any fun x => !t.cacheRoom q x) = true) → exec (.rputRequest p) s = .next (t.busy q)) ∧
  (∀ (p q : Packet) (d gw : Nat), q = p → checkGw q.rkey = (d, gw) → badEndpoint q.dst = true → exec (.launchWindowRequest p) s = .next (s.error q stNoEp)) ∧
  (∀ (p q : Packet) (d gw : Nat), q = p → checkGw q.rkey = (d, gw) → badEndpoint q.dst = false → s.reqWaits d gw q = true → exec (.launchWindowRequest p) s = .next (s.after s.busyEnd (packetStep (s.windowKey q.rkey) q))) ∧
  (∀ (p q : Packet) (d gw : Nat), q = p → checkGw q.rkey = (d, gw) → badEndpoint q.dst = false → s.reqWaits d gw q = false → s.flowCheck d gw q = none → exec (.launchWindowRequest p) s = .next (s)) ∧
  (∀ (p q : Packet) (d gw : Nat) (t : State) (r : CachedReply), q = p → checkGw q.rkey = (d, gw) → badEndpoint q.dst = false → s.reqWaits d gw q = false → s.flowCheck d gw q = some t → t.cachedOf q = some r → q.retx = true → exec (.launchWindowRequest p) s = .next (t.cachedAnswer q r)) ∧
  (∀ (p q : Packet) (d gw : Nat) (t : State), q = p → checkGw q.rkey = (d, gw) → badEndpoint q.dst = false → s.reqWaits d gw q = false → s.flowCheck d gw q = some t → t.cachedOf q = none ∨ q.retx = false → idempotent q = true → exec (.launchWindowRequest p) s = .next (t.checked d gw q)) ∧
  (∀ (p q : Packet) (d gw : Nat) (t : State), q = p → checkGw q.rkey = (d, gw) → badEndpoint q.dst = false → s.reqWaits d gw q = false → s.flowCheck d gw q = some t → t.cachedOf q = none ∨ q.retx = false → idempotent q = false → (((t.caches q).any fun x => !t.cacheRoom q x) = false) → exec (.launchWindowRequest p) s = .next ((t.cacheOpen q).checked d gw q)) ∧
  (∀ (p q : Packet) (d gw : Nat) (t : State), q = p → checkGw q.rkey = (d, gw) → badEndpoint q.dst = false → s.reqWaits d gw q = false → s.flowCheck d gw q = some t → t.cachedOf q = none ∨ q.retx = false → idempotent q = false → (((t.caches q).any fun x => !t.cacheRoom q x) = true) → exec (.launchWindowRequest p) s = .next (t.busy q)) ∧
  (∀ (p : Packet) (d gw : Nat) (r : Region), r = (s.die d).region gw (p.rkey.toNat / 2 ^ 20) → r.v = false ∨ r.gen ≠ p.rkey.setWidth 20 → s.checked d gw p = s.error p stKey) ∧
  (∀ (p : Packet) (d gw : Nat) (r : Region), r = (s.die d).region gw (p.rkey.toNat / 2 ^ 20) → r.v = true → r.gen = p.rkey.setWidth 20 → r.length.toNat < p.addr.toNat + reqSize p → s.checked d gw p = s.error p stBounds) ∧
  (∀ (p : Packet) (d gw : Nat) (r : Region), r = (s.die d).region gw (p.rkey.toNat / 2 ^ 20) → r.v = true → r.gen = p.rkey.setWidth 20 → p.addr.toNat + reqSize p ≤ r.length.toNat → reqPerm p &&& ~~~r.perm ≠ 0 → s.checked d gw p = s.error p stPerm) ∧
  (∀ (p : Packet) (d gw : Nat) (r : Region) (t : GwTicket), r = (s.die d).region gw (p.rkey.toNat / 2 ^ 20) → r.v = true → r.gen = p.rkey.setWidth 20 → p.addr.toNat + reqSize p ≤ r.length.toNat → reqPerm p &&& ~~~r.perm = 0 → ((s.die d).gwTickets.find? (fun t => decide (t.gw = gw) && t.same p && !t.told) = some t) → s.checked d gw p = s.ticketReply p t) ∧
  (∀ (p : Packet) (d gw : Nat) (r : Region) (u : State) (t : GwTicket), r = (s.die d).region gw (p.rkey.toNat / 2 ^ 20) → r.v = true → r.gen = p.rkey.setWidth 20 → p.addr.toNat + reqSize p ≤ r.length.toNat → reqPerm p &&& ~~~r.perm = 0 → ((s.die d).gwTickets.find? (fun t => decide (t.gw = gw) && t.same p && !t.told) = none) → (u = s.setDie d fun x => { x with gwTickets := x.gwTickets.filter fun t => !(decide (t.gw = gw) && t.same p) }) → u.earlier d gw r p = some t → s.checked d gw p = u.shadow d gw r p t) ∧
  (∀ (p : Packet) (d gw : Nat) (r : Region) (u : State), r = (s.die d).region gw (p.rkey.toNat / 2 ^ 20) → r.v = true → r.gen = p.rkey.setWidth 20 → p.addr.toNat + reqSize p ≤ r.length.toNat → reqPerm p &&& ~~~r.perm = 0 → ((s.die d).gwTickets.find? (fun t => decide (t.gw = gw) && t.same p && !t.told) = none) → (u = s.setDie d fun x => { x with gwTickets := x.gwTickets.filter fun t => !(decide (t.gw = gw) && t.same p) }) → u.earlier d gw r p = none → u.windowKey p.rkey = true → s.checked d gw p = u.atTeam d gw p) ∧
  (∀ (p : Packet) (d gw : Nat) (r : Region) (u : State), r = (s.die d).region gw (p.rkey.toNat / 2 ^ 20) → r.v = true → r.gen = p.rkey.setWidth 20 → p.addr.toNat + reqSize p ≤ r.length.toNat → reqPerm p &&& ~~~r.perm = 0 → ((s.die d).gwTickets.find? (fun t => decide (t.gw = gw) && t.same p && !t.told) = none) → (u = s.setDie d fun x => { x with gwTickets := x.gwTickets.filter fun t => !(decide (t.gw = gw) && t.same p) }) → u.earlier d gw r p = none → u.windowKey p.rkey = false → s.checked d gw p = u.atMemory d gw r p)) ∧
  (∀ (s : State),
  (∀ (p : Packet), badEndpoint p.dst = true → exec (.probeRequest p) s = .next (s.error p stNoEp)) ∧
  (∀ (p : Packet) (r : CachedReply), badEndpoint p.dst = false → s.cachedOf p = some r → exec (.probeRequest p) s = .next (s.cachedAnswer p r)) ∧
  (∀ (p : Packet), badEndpoint p.dst = false → s.cachedOf p = none → exec (.probeRequest p) s = .next (s.parkedReply p)) ∧
  (∀ (k : Nat), s.core? k = none → exec (.callStart k) s = .next (s)) ∧
  (∀ (k : Nat) (c : Core) (x : Call) (xs : List Call) (r : Vector Cap 32), s.core? k = some c → (c.thr.get 7).run = .call → c.calls = x :: xs → r = ((((((c.thr.get 7).c.set 1 (Cap.ofInt (x.args.getD 0 0))).set 2 (Cap.ofInt (x.args.getD 1 0))).set 3 (Cap.ofInt (x.args.getD 2 0))).set 4 (Cap.ofInt (x.args.getD 3 0))).set 5 (Cap.ofInt (x.caller.setWidth 64))).set 6 (Cap.ofInt (x.ctx.setWidth 64)) → exec (.callStart k) s = .next (s.setCore { c with calls := xs, thr := c.thr.set 7 { c.thr.get 7 with c := r, pc := Cap.unseal x.handler, run := .ready } })) ∧
  (∀ (d gw : Nat) (src : BitVec 32) (thr : BitVec 3) (key : BitVec 32), ((s.die d).flows.find? (fun x : Flow => decide (x.gw = gw) && x.src == src && x.thr == thr && x.key == key) = none) → exec (.flowIdleTimeout d gw src thr key) s = .next (s)) ∧
  (∀ (d gw : Nat) (src : BitVec 32) (thr : BitVec 3) (key : BitVec 32) (f : Flow), ((s.die d).flows.find? (fun x : Flow => decide (x.gw = gw) && x.src == src && x.thr == thr && x.key == key) = some f) → f.last + us 1000 ≤ s.now → exec (.flowIdleTimeout d gw src thr key) s = .next (s.setDie d fun x => { x with flows := x.flows.filter fun y => !(decide (y.gw = gw) && y.src == src && y.thr == thr && y.key == key), gwTickets := x.gwTickets.filter fun t => !(decide (t.gw = gw) && t.told && t.req.src == src && t.req.thr == thr && t.req.rkey == key) })) ∧
  (∀ (d gw : Nat) (src : BitVec 32) (thr : BitVec 3) (key : BitVec 32) (f : Flow), ((s.die d).flows.find? (fun x : Flow => decide (x.gw = gw) && x.src == src && x.thr == thr && x.key == key) = some f) → s.now < f.last + us 1000 → exec (.flowIdleTimeout d gw src thr key) s = .next (s.after (f.last + us 1000 - s.now) (.flowIdleTimeout d gw src thr key))) ∧
  (∀ (d gw : Nat) (src : BitVec 32) (tag : BitVec 10) (gen : BitVec 4), exec (.replyCacheExpiry d gw src tag gen) s = .next (s.setDie d fun x => { x with replies := x.replies.filter fun r => !(decide (r.gw = gw) && r.src == src && r.tag == tag && r.gen == gen && r.reply.isSome && decide (r.last + us 200 ≤ s.now)) })) ∧
  (∀ (d gw k : Nat) (r : Region), exec (.regionTableUpdate d gw k r) s = .next (s.setDie d fun x => x.putRegion gw k r)))

/-- R82, R85–R88, R150, R241, R243: a reply that matches no outstanding transaction counts as late; DATA and DONE complete the entry: registers, a full/empty success, an `rget` range or an engine's data; PARKED starts probes after 1 ms; TICKET makes the entry ticketed or a shadow with its limit; ERROR fails it with its status' subcode; BUSY backs off 1 µs, doubling to 64. The model's own readings that it rests on: log 27, 31, 33. -/
def Obligations.ReplyEvents : Prop := ∀ (s : State),
  (∀ (p : Packet), forDispatcher p = true → exec (.dataReply p) s = .next (s.dispatcherAnswer p none)) ∧
  (∀ (p : Packet), forDispatcher p = false → tileTag ≤ p.tag.toNat → (s.tileWaiter (fun q => q.size == p.size) p (p.tag.toNat - tileTag) = none) → exec (.dataReply p) s = .next (s)) ∧
  (∀ (p q : Packet) (t : ThrId), forDispatcher p = false → tileTag ≤ p.tag.toNat → (s.tileWaiter (fun q => q.size == p.size) p (p.tag.toNat - tileTag) = some (t, q, true)) → exec (.dataReply p) s = .next ((s.holdNotice t.launch t.team t.thr (q.addr.toNat % 2 ^ 48) (.dataReply p)).getD s)) ∧
  (∀ (p q : Packet) (t : ThrId), forDispatcher p = false → tileTag ≤ p.tag.toNat → (s.tileWaiter (fun q => q.size == p.size) p (p.tag.toNat - tileTag) = some (t, q, false)) → exec (.dataReply p) s = .next (s.tilePiece p t)) ∧
  (∀ (p : Packet), forDispatcher p = false → p.tag.toNat < tileTag → s.transaction p = none → exec (.dataReply p) s = .next (s.lateReply p)) ∧
  (∀ (p : Packet) (c : Core) (t : Ticket), forDispatcher p = false → p.tag.toNat < tileTag → s.transaction p = some (c, t, true) → exec (.dataReply p) s = .next ((s.holdNotice c.launch c.team t.thr p.tag.toNat (.dataReply p)).getD s)) ∧
  (∀ (p : Packet) (c : Core) (t : Ticket), forDispatcher p = false → p.tag.toNat < tileTag → s.transaction p = some (c, t, false) → t.st ≠ .sent → exec (.dataReply p) s = .next (s.lateReply p)) ∧
  (∀ (p : Packet) (c : Core) (t : Ticket), forDispatcher p = false → p.tag.toNat < tileTag → s.transaction p = some (c, t, false) → t.st = .sent → 16 ≤ t.idx → exec (.dataReply p) s = .next (s.landEngine c t p)) ∧
  (∀ (p : Packet) (c : Core) (t : Ticket) (e : F6), forDispatcher p = false → p.tag.toNat < tileTag → s.transaction p = some (c, t, false) → t.st = .sent → t.idx < 16 → t.ff = some e → exec (.dataReply p) s = .next (s.landFf c t p e)) ∧
  (∀ (p : Packet) (c : Core) (t : Ticket) (dst : Cap) (n : Nat), forDispatcher p = false → p.tag.toNat < tileTag → s.transaction p = some (c, t, false) → t.st = .sent → t.idx < 16 → t.ff = none → t.dst = some (dst, n) → exec (.dataReply p) s = .next (if t.req.kind = kRget then s.landRange c t p dst else s.land c t p)) ∧
  (∀ (p : Packet) (c : Core) (t : Ticket), forDispatcher p = false → p.tag.toNat < tileTag → s.transaction p = some (c, t, false) → t.st = .sent → t.idx < 16 → t.ff = none → t.dst = none → exec (.dataReply p) s = .next (s.land c t p)) ∧
  (∀ (p : Packet), forDispatcher p = true → exec (.doneReply p) s = .next (s.dispatcherAnswer p none)) ∧
  (∀ (p : Packet), forDispatcher p = false → tileTag ≤ p.tag.toNat → (s.tileWaiter (fun q => q.size == p.size) p (p.tag.toNat - tileTag) = none) → exec (.doneReply p) s = .next (s)) ∧
  (∀ (p q : Packet) (t : ThrId), forDispatcher p = false → tileTag ≤ p.tag.toNat → (s.tileWaiter (fun q => q.size == p.size) p (p.tag.toNat - tileTag) = some (t, q, true)) → exec (.doneReply p) s = .next ((s.holdNotice t.launch t.team t.thr (q.addr.toNat % 2 ^ 48) (.doneReply p)).getD s)) ∧
  (∀ (p q : Packet) (t : ThrId), forDispatcher p = false → tileTag ≤ p.tag.toNat → (s.tileWaiter (fun q => q.size == p.size) p (p.tag.toNat - tileTag) = some (t, q, false)) → exec (.doneReply p) s = .next (s.tilePiece p t)) ∧
  (∀ (p : Packet), forDispatcher p = false → p.tag.toNat < tileTag → s.transaction p = none → exec (.doneReply p) s = .next (s.lateReply p)) ∧
  (∀ (p : Packet) (c : Core) (t : Ticket), forDispatcher p = false → p.tag.toNat < tileTag → s.transaction p = some (c, t, true) → exec (.doneReply p) s = .next ((s.holdNotice c.launch c.team t.thr p.tag.toNat (.doneReply p)).getD s)) ∧
  (∀ (p : Packet) (c : Core) (t : Ticket), forDispatcher p = false → p.tag.toNat < tileTag → s.transaction p = some (c, t, false) → t.st ≠ .sent → exec (.doneReply p) s = .next (s.lateReply p)) ∧
  (∀ (p : Packet) (c : Core) (t : Ticket), forDispatcher p = false → p.tag.toNat < tileTag → s.transaction p = some (c, t, false) → t.st = .sent → 16 ≤ t.idx → exec (.doneReply p) s = .next (s.landEngine c t p)) ∧
  (∀ (p : Packet) (c : Core) (t : Ticket) (e : F6), forDispatcher p = false → p.tag.toNat < tileTag → s.transaction p = some (c, t, false) → t.st = .sent → t.idx < 16 → t.ff = some e → exec (.doneReply p) s = .next (s.landFf c t p e)) ∧
  (∀ (p : Packet) (c : Core) (t : Ticket) (dst : Cap) (n : Nat), forDispatcher p = false → p.tag.toNat < tileTag → s.transaction p = some (c, t, false) → t.st = .sent → t.idx < 16 → t.ff = none → t.dst = some (dst, n) → exec (.doneReply p) s = .next (if t.req.kind = kRget then s.landRange c t p dst else s.land c t p)) ∧
  (∀ (p : Packet) (c : Core) (t : Ticket), forDispatcher p = false → p.tag.toNat < tileTag → s.transaction p = some (c, t, false) → t.st = .sent → t.idx < 16 → t.ff = none → t.dst = none → exec (.doneReply p) s = .next (s.land c t p)) ∧
  (∀ (p : Packet), forDispatcher p = true → exec (.parkedReply p) s = .next (s)) ∧
  (∀ (p : Packet), forDispatcher p = false → tileTag ≤ p.tag.toNat → (s.tileWaiter (fun q => q.size == p.size) p (p.tag.toNat - tileTag) = none) → exec (.parkedReply p) s = .next (s)) ∧
  (∀ (p q : Packet) (t : ThrId), forDispatcher p = false → tileTag ≤ p.tag.toNat → (s.tileWaiter (fun q => q.size == p.size) p (p.tag.toNat - tileTag) = some (t, q, true)) → exec (.parkedReply p) s = .next ((s.holdNotice t.launch t.team t.thr (q.addr.toNat % 2 ^ 48) (.parkedReply p)).getD s)) ∧
  (∀ (p q : Packet) (t : ThrId), forDispatcher p = false → tileTag ≤ p.tag.toNat → (s.tileWaiter (fun q => q.size == p.size) p (p.tag.toNat - tileTag) = some (t, q, false)) → exec (.parkedReply p) s = .next (s.tileStage t .waiting fun _ => 0)) ∧
  (∀ (p : Packet), forDispatcher p = false → p.tag.toNat < tileTag → s.transaction p = none → exec (.parkedReply p) s = .next (s.lateReply p)) ∧
  (∀ (p : Packet) (c : Core) (t : Ticket), forDispatcher p = false → p.tag.toNat < tileTag → s.transaction p = some (c, t, true) → exec (.parkedReply p) s = .next ((s.holdNotice c.launch c.team t.thr p.tag.toNat (.parkedReply p)).getD s)) ∧
  (∀ (p : Packet) (c : Core) (t : Ticket), forDispatcher p = false → p.tag.toNat < tileTag → s.transaction p = some (c, t, false) → t.st ≠ .sent → exec (.parkedReply p) s = .next (s.lateReply p)) ∧
  (∀ (p : Packet) (c : Core) (t : Ticket), forDispatcher p = false → p.tag.toNat < tileTag → s.transaction p = some (c, t, false) → t.st = .sent → exec (.parkedReply p) s = .next ((s.setCore (c.setTicket t.tag fun t => { t with parked := true, heard := s.now, probe := none })).after (us 1000) (.probeTimer (c.whoOf t) t.tag t.gen))) ∧
  (∀ (p : Packet), s.transaction p = none → exec (.ticketReply p) s = .next (s.lateReply p)) ∧
  (∀ (p : Packet) (c : Core) (t : Ticket), s.transaction p = some (c, t, true) → exec (.ticketReply p) s = .next ((s.holdNotice c.launch c.team t.thr p.tag.toNat (.ticketReply p)).getD s)) ∧
  (∀ (p : Packet) (c : Core) (t : Ticket), s.transaction p = some (c, t, false) → t.st ≠ .sent → exec (.ticketReply p) s = .next (s.lateReply p)) ∧
  (∀ (p : Packet) (c : Core) (t : Ticket) (u v : State), s.transaction p = some (c, t, false) → t.st = .sent → (u = (s.setCore (c.setTicket t.tag fun t => { t with st := if p.addr.getLsbD 16 then .shadow else .ticketed, ticket := p.aux.toNat, endp := p.src, named := fieldOf p.addr 15 0, held := false, parked := false, probe := none, heard := s.now }))) → v = u.after (u.die c.die).tklim (.ticketLimitTimeout (c.whoOf t) t.tag t.gen) → (c.tickets.find? (fun x => p.addr.getLsbD 16 && x.st == .failed && decide (x.ticket = fieldOf p.addr 15 0) && x.endp == p.src) = none) → exec (.ticketReply p) s = .next (v)) ∧
  (∀ (p : Packet) (c : Core) (t : Ticket) (u v : State) (x y : Ticket) (k : Core), s.transaction p = some (c, t, false) → t.st = .sent → (u = (s.setCore (c.setTicket t.tag fun t => { t with st := if p.addr.getLsbD 16 then .shadow else .ticketed, ticket := p.aux.toNat, endp := p.src, named := fieldOf p.addr 15 0, held := false, parked := false, probe := none, heard := s.now }))) → v = u.after (u.die c.die).tklim (.ticketLimitTimeout (c.whoOf t) t.tag t.gen) → (c.tickets.find? (fun x => p.addr.getLsbD 16 && x.st == .failed && decide (x.ticket = fieldOf p.addr 15 0) && x.endp == p.src) = some x) → v.entryOf (c.whoOf t) t.tag t.gen = some (k, y) → exec (.ticketReply p) s = .next (v.failEntry k y 1 x.status)) ∧
  (∀ (p : Packet), forDispatcher p = true → exec (.errorReply p) s = .next (s.dispatcherAnswer p (some (if p.status = stUnreach then 0 else tileCause p)))) ∧
  (∀ (p : Packet), forDispatcher p = false → tileTag ≤ p.tag.toNat → (s.tileWaiter (fun q => q.size == p.size) p (p.tag.toNat - tileTag) = none) → exec (.errorReply p) s = .next (s)) ∧
  (∀ (p q : Packet) (t : ThrId), forDispatcher p = false → tileTag ≤ p.tag.toNat → (s.tileWaiter (fun q => q.size == p.size) p (p.tag.toNat - tileTag) = some (t, q, true)) → exec (.errorReply p) s = .next ((s.holdNotice t.launch t.team t.thr (q.addr.toNat % 2 ^ 48) (.errorReply p)).getD s)) ∧
  (∀ (p q : Packet) (t : ThrId), forDispatcher p = false → tileTag ≤ p.tag.toNat → (s.tileWaiter (fun q => q.size == p.size) p (p.tag.toNat - tileTag) = some (t, q, false)) → exec (.errorReply p) s = .next (s.resume t fun x => { x with pendTrap := some (tileCause p, p.addr) })) ∧
  (∀ (p : Packet), forDispatcher p = false → p.tag.toNat < tileTag → s.transaction p = none → exec (.errorReply p) s = .next (s.lateReply p)) ∧
  (∀ (p : Packet) (c : Core) (t : Ticket), forDispatcher p = false → p.tag.toNat < tileTag → s.transaction p = some (c, t, true) → exec (.errorReply p) s = .next ((s.holdNotice c.launch c.team t.thr p.tag.toNat (.errorReply p)).getD s)) ∧
  (∀ (p : Packet) (c : Core) (t : Ticket), forDispatcher p = false → p.tag.toNat < tileTag → s.transaction p = some (c, t, false) → t.st ≠ .sent → exec (.errorReply p) s = .next (s.lateReply p)) ∧
  (∀ (p : Packet) (c : Core) (t : Ticket), forDispatcher p = false → p.tag.toNat < tileTag → s.transaction p = some (c, t, false) → t.st = .sent → exec (.errorReply p) s = .next (s.failEntry c t (subOf p.status) p.status)) ∧
  (∀ (p : Packet), forDispatcher p = true → exec (.busyReply p) s = .next (s.dispatcherBusy p)) ∧
  (∀ (p : Packet) (t : ThrId), forDispatcher p = false → queueTag ≤ p.tag.toNat ∧ p.tag.toNat < queueTag + 8 → t = ⟨BitVec.ofNat 16 (p.payload.getD 1 0).toNat, (p.payload.getD 1 0).toNat / 2 ^ 16, p.thr.toNat⟩ → exec (.busyReply p) s = .next ((s.onThread t fun x => x.setQ (Fin.ofNat 8 (p.tag.toNat - queueTag)) fun q => match q.bind with | .toTeam w tm u k l cr rf => { q with bind := .toTeam w tm u k l cr (rf ++ [p.payload.headD 0]) } | _ => q).after (us 1) (.busyBackoffExpiry t p.tag.toNat 0))) ∧
  (∀ (p : Packet), forDispatcher p = false → tileTag ≤ p.tag.toNat → ¬(queueTag ≤ p.tag.toNat ∧ p.tag.toNat < queueTag + 8) → (s.tileWaiter (fun q => q.size == p.size) p (p.tag.toNat - tileTag) = none) → exec (.busyReply p) s = .next (s)) ∧
  (∀ (p q : Packet) (t : ThrId), forDispatcher p = false → tileTag ≤ p.tag.toNat → ¬(queueTag ≤ p.tag.toNat ∧ p.tag.toNat < queueTag + 8) → (s.tileWaiter (fun q => q.size == p.size) p (p.tag.toNat - tileTag) = some (t, q, true)) → exec (.busyReply p) s = .next ((s.holdNotice t.launch t.team t.thr (q.addr.toNat % 2 ^ 48) (.busyReply p)).getD s)) ∧
  (∀ (p q : Packet) (t : ThrId), forDispatcher p = false → tileTag ≤ p.tag.toNat → ¬(queueTag ≤ p.tag.toNat ∧ p.tag.toNat < queueTag + 8) → (s.tileWaiter (fun q => q.size == p.size) p (p.tag.toNat - tileTag) = some (t, q, false)) → exec (.busyReply p) s = .next (s.tileBusy t)) ∧
  (∀ (p : Packet), forDispatcher p = false → p.tag.toNat < tileTag → ¬(queueTag ≤ p.tag.toNat ∧ p.tag.toNat < queueTag + 8) → s.transaction p = none → exec (.busyReply p) s = .next (s.lateReply p)) ∧
  (∀ (p : Packet) (c : Core) (t : Ticket), forDispatcher p = false → p.tag.toNat < tileTag → ¬(queueTag ≤ p.tag.toNat ∧ p.tag.toNat < queueTag + 8) → s.transaction p = some (c, t, true) → exec (.busyReply p) s = .next ((s.holdNotice c.launch c.team t.thr p.tag.toNat (.busyReply p)).getD s)) ∧
  (∀ (p : Packet) (c : Core) (t : Ticket), forDispatcher p = false → p.tag.toNat < tileTag → ¬(queueTag ≤ p.tag.toNat ∧ p.tag.toNat < queueTag + 8) → s.transaction p = some (c, t, false) → t.st ≠ .sent → exec (.busyReply p) s = .next (s.lateReply p)) ∧
  (∀ (p : Packet) (c : Core) (t : Ticket) (n : Nat), forDispatcher p = false → p.tag.toNat < tileTag → ¬(queueTag ≤ p.tag.toNat ∧ p.tag.toNat < queueTag + 8) → s.transaction p = some (c, t, false) → t.st = .sent → n = Nat.min 64 (Nat.max 1 (2 * t.backoff)) → exec (.busyReply p) s = .next ((s.setCore (c.setTicket t.tag fun t => { t with backoff := n, heard := s.now, parked := false, probe := none })).after (us n) (.busyBackoffExpiry (c.whoOf t) t.tag t.gen)))

/-- R84–R86, R90, R125, R163, R193, R241, R245, R340: a request unanswered for 20 µs is resent at most three times, the final time-out and a ticket's limit fail it, a parked one is probed; REPLAY sends ticketed requests anew or fails them; a full/empty wake, a version's arrival and a program notice return their thread to issue or are held for a saved team. The model's own readings that it rests on: log 3, 31. -/
def Obligations.RequesterTimersAndNotices : Prop := ∀ (s : State),
  (∀ (t : ThrId) (tag : Nat) (gen : BitVec 4), s.entryOf t tag gen = none → exec (.retransmitTimeout t tag gen) s = .next (s)) ∧
  (∀ (t : ThrId) (tag : Nat) (gen : BitVec 4), s.entryOf t tag gen = none → exec (.finalTimeout t tag gen) s = .next (s)) ∧
  (∀ (t : ThrId) (tag : Nat) (gen : BitVec 4), s.entryOf t tag gen = none → exec (.probeTimer t tag gen) s = .next (s)) ∧
  (∀ (t : ThrId) (tag : Nat) (gen : BitVec 4) (c : Core) (x : Ticket), s.entryOf t tag gen = some (c, x) → x.st = .sent → x.parked = false → x.heard ≤ x.sent → x.heard < x.sent ∨ x.backoff = 0 → x.tries < 3 → x.sent + resendAfter ≤ s.now → exec (.retransmitTimeout t tag gen) s = .next (s.resendEntry c x (x.tries + 1))) ∧
  (∀ (t : ThrId) (tag : Nat) (gen : BitVec 4) (c : Core) (x : Ticket), s.entryOf t tag gen = some (c, x) → x.st ≠ .sent ∨ x.parked = true ∨ x.sent < x.heard ∨ (x.sent ≤ x.heard ∧ x.backoff ≠ 0) ∨ 3 ≤ x.tries ∨ s.now < x.sent + resendAfter → exec (.retransmitTimeout t tag gen) s = .next (s)) ∧
  (∀ (t : ThrId) (tag : Nat) (gen : BitVec 4) (c : Core) (x : Ticket) (a : Nat), s.entryOf t tag gen = some (c, x) → x.st = .sent → (if x.parked then x.probe else some (Nat.max x.first x.heard)) = some a → a + (s.die c.die).final ≤ s.now → exec (.finalTimeout t tag gen) s = .next (s.failTime c x)) ∧
  (∀ (t : ThrId) (tag : Nat) (gen : BitVec 4) (c : Core) (x : Ticket) (a : Nat), s.entryOf t tag gen = some (c, x) → x.st = .sent → (if x.parked then x.probe else some (Nat.max x.first x.heard)) = some a → s.now < a + (s.die c.die).final → exec (.finalTimeout t tag gen) s = .next (s.after (a + (s.die c.die).final - s.now) (.finalTimeout t tag gen))) ∧
  (∀ (t : ThrId) (tag : Nat) (gen : BitVec 4) (c : Core) (x : Ticket) (u : State), s.entryOf t tag gen = some (c, x) → x.st = .sent → x.parked = true → x.probe = none → x.heard + us 1000 ≤ s.now → (u = (s.setCore (c.setTicket tag fun y => { y with probe := some s.now, sent := s.now, tries := 0 })).route c.die { x.req with kind := kProbe, retx := false, payload := [], len := 0 }) → exec (.probeTimer t tag gen) s = .next ((u.after (u.die c.die).final (.finalTimeout t tag gen)).after resendAfter (.probeTimer t tag gen))) ∧
  (∀ (t : ThrId) (tag : Nat) (gen : BitVec 4) (c : Core) (x : Ticket), s.entryOf t tag gen = some (c, x) → x.st = .sent → x.parked = true → x.probe = none → s.now < x.heard + us 1000 → exec (.probeTimer t tag gen) s = .next (s)) ∧
  (∀ (t : ThrId) (tag : Nat) (gen : BitVec 4) (c : Core) (x : Ticket) (a : Nat), s.entryOf t tag gen = some (c, x) → x.st = .sent → x.parked = true → x.probe = some a → (s.now - a) % us 1000 = 0 ∧ a < s.now → exec (.probeTimer t tag gen) s = .next (((s.setCore (c.setTicket tag fun y => { y with sent := s.now, tries := 0 })).route c.die { x.req with kind := kProbe, retx := false, payload := [], len := 0 }).after resendAfter (.probeTimer t tag gen))) ∧
  (∀ (t : ThrId) (tag : Nat) (gen : BitVec 4) (c : Core) (x : Ticket) (a : Nat) (u : State), s.entryOf t tag gen = some (c, x) → x.st = .sent → x.parked = true → x.probe = some a → ¬((s.now - a) % us 1000 = 0 ∧ a < s.now) → x.tries < 3 ∧ x.sent + resendAfter ≤ s.now → (u = (s.setCore (c.setTicket tag fun y => { y with sent := s.now, tries := y.tries + 1 })).route c.die { x.req with kind := kProbe, retx := true, payload := [], len := 0 }) → exec (.probeTimer t tag gen) s = .next (u.after (if x.tries = 2 then us 1000 - (u.now - a) % us 1000 else resendAfter) (.probeTimer t tag gen))) ∧
  (∀ (t : ThrId) (tag : Nat) (gen : BitVec 4) (c : Core) (x : Ticket), ¬(queueTag ≤ tag ∧ tag < queueTag + 8) → s.entryOf t tag gen = some (c, x) → x.st = .sent → x.parked = false → x.backoff ≠ 0 → x.sent ≤ x.heard → x.heard + us x.backoff ≤ s.now → exec (.busyBackoffExpiry t tag gen) s = .next (s.resendEntry c x 0)) ∧
  (∀ (t : ThrId) (tag : Nat) (gen : BitVec 4), ¬(queueTag ≤ tag ∧ tag < queueTag + 8) → s.entryOf t tag gen = none → exec (.busyBackoffExpiry t tag gen) s = .next (s)) ∧
  (∀ (t : ThrId) (tag : Nat) (gen : BitVec 4) (c : Core) (x : Ticket), s.coreOf? t.launch t.team = some c → (c.tickets.find? (fun x => decide (x.tag = tag) && x.gen == gen && (x.st == .ticketed || x.st == .shadow) && decide (x.heard + (s.die c.die).tklim ≤ s.now)) = some x) → exec (.ticketLimitTimeout t tag gen) s = .next (s.failTime c x)) ∧
  (∀ (t : ThrId) (tag : Nat) (gen : BitVec 4) (c : Core), s.coreOf? t.launch t.team = some c → (c.tickets.find? (fun x => decide (x.tag = tag) && x.gen == gen && (x.st == .ticketed || x.st == .shadow) && decide (x.heard + (s.die c.die).tklim ≤ s.now)) = none) → exec (.ticketLimitTimeout t tag gen) s = .next (s)) ∧
  (∀ (t : ThrId) (tag : Nat) (gen : BitVec 4), s.coreOf? t.launch t.team = none → (((s.launch? t.launch).bind fun l => l.saved.find? fun v => decide (v.team = t.team) && v.image.tickets.any fun x => decide (x.tag = tag) && x.gen == gen && (x.st == .ticketed || x.st == .shadow) && decide (x.heard + (s.die v.image.die).tklim ≤ s.now)) = none) → exec (.ticketLimitTimeout t tag gen) s = .next (s)) ∧
  (∀ (t : ThrId) (tag : Nat) (gen : BitVec 4) (v : Saved) (c k : Core), s.coreOf? t.launch t.team = none → (((s.launch? t.launch).bind fun l => l.saved.find? fun v => decide (v.team = t.team) && v.image.tickets.any fun x => decide (x.tag = tag) && x.gen == gen && (x.st == .ticketed || x.st == .shadow) && decide (x.heard + (s.die v.image.die).tklim ≤ s.now)) = some v) → c = Core.failTicket 17 tag 2 0 v.image → (k = { c with tickets := c.tickets.map fun x => if x.st = .failed then { x with ff := none } else x }) → exec (.ticketLimitTimeout t tag gen) s = .next ((c.tickets.filter fun x => x.st == .failed && x.ff.isSome).foldl (fun s x => s.ffEnd ⟨t.launch, t.team, x.thr⟩ (x.ff.getD 0)) (s.setLaunch t.launch fun l => { l with saved := l.saved.map fun y => if y.team = t.team then { y with image := k } else y }))) ∧
  (∀ (p : Packet) (c : Core) (t : Ticket), (s.cores.findSome? (fun c => (c.tickets.find? (fun t => (t.st == .ticketed || t.st == .shadow) && decide (t.ticket = p.aux.toNat) && t.endp == p.src)).map fun t => (c, t)) = some (c, t)) → p.status ≠ stOk → exec (.replayNotice p) s = .next (s.failEntry c t 1 p.status)) ∧
  (∀ (p : Packet) (c : Core) (t : Ticket), (s.cores.findSome? (fun c => (c.tickets.find? (fun t => (t.st == .ticketed || t.st == .shadow) && decide (t.ticket = p.aux.toNat) && t.endp == p.src)).map fun t => (c, t)) = some (c, t)) → p.status = stOk → exec (.replayNotice p) s = .next (State.replayHeld 17 c.id (s.setCore (c.setTicket t.tag fun t => { t with held := true })))) ∧
  (∀ (p : Packet) (c : Core) (t : Ticket), (s.cores.findSome? (fun c => (c.tickets.find? (fun t => (t.st == .ticketed || t.st == .shadow) && decide (t.ticket = p.aux.toNat) && t.endp == p.src)).map fun t => (c, t)) = none) → (((s.dies.toList.flatMap (·.launches)).flatMap fun l => l.saved.map fun v => v.image).findSome? (fun c => (c.tickets.find? (fun t => (t.st == .ticketed || t.st == .shadow) && decide (t.ticket = p.aux.toNat) && t.endp == p.src)).map fun t => (c, t)) = some (c, t)) → exec (.replayNotice p) s = .next ((s.holdNotice c.launch c.team t.thr p.aux.toNat (.replayNotice p)).getD s)) ∧
  (∀ (p : Packet), (s.cores.findSome? (fun c => (c.tickets.find? (fun t => (t.st == .ticketed || t.st == .shadow) && decide (t.ticket = p.aux.toNat) && t.endp == p.src)).map fun t => (c, t)) = none) → (((s.dies.toList.flatMap (·.launches)).flatMap fun l => l.saved.map fun v => v.image).findSome? (fun c => (c.tickets.find? (fun t => (t.st == .ticketed || t.st == .shadow) && decide (t.ticket = p.aux.toNat) && t.endp == p.src)).map fun t => (c, t)) = none) → exec (.replayNotice p) s = .next (s)) ∧
  (∀ (t : ThrId) (v : W64) (c : Core) (a : Nat) (md : BitVec 2) (st : Bool) (x : W64) (f : Finish), s.coreOf? t.launch t.team = some c → (c.thr.get (Fin.ofNat 8 t.thr)).run = .parked (.feLocal a md st x) f → exec (.fewakeNotice t v) s = .next (s.finishThread t (some (Cap.ofInt v)))) ∧
  (∀ (t : ThrId) (v : W64) (c : Core) (a : Nat) (f : Finish), s.coreOf? t.launch t.team = some c → (c.thr.get (Fin.ofNat 8 t.thr)).run = .parked (.fePort a) f → exec (.fewakeNotice t v) s = .next (s.finishThread t (some (Cap.ofInt v)))) ∧
  (∀ (t : ThrId) (v : W64), s.coreOf? t.launch t.team = none → exec (.fewakeNotice t v) s = .next ((s.holdNotice t.launch t.team t.thr v.toNat (.fewakeNotice t v)).getD s)) ∧
  (∀ (p : Packet) (w : Nat) (md : BitVec 16), w = (p.payload.headD 0).toNat → md = (p.payload.getD 1 0).setWidth 16 → forDispatcher p = true → exec (.varriveNotice p) s = .next (s.gateArrives (bitsN w 31 0) (bitsN w 63 48) md)) ∧
  (∀ (p : Packet) (w : Nat) (md : BitVec 16) (t : ThrId), w = (p.payload.headD 0).toNat → md = (p.payload.getD 1 0).setWidth 16 → forDispatcher p = false → ownModule s md = true → s.versionWaiter p (bitsN w 31 0) (bitsN w 63 48) (bitsN w 34 32) = some (t, false) → exec (.varriveNotice p) s = .next (s.resume t fun x => if p.status = stRetired then { x with pendTrap := some (causeVersionRetired, BitVec.ofNat 64 (bitsN w 63 48)) } else x)) ∧
  (∀ (p : Packet) (w : Nat) (md : BitVec 16) (t : ThrId), w = (p.payload.headD 0).toNat → md = (p.payload.getD 1 0).setWidth 16 → forDispatcher p = false → ownModule s md = true → s.versionWaiter p (bitsN w 31 0) (bitsN w 63 48) (bitsN w 34 32) = some (t, true) → exec (.varriveNotice p) s = .next ((s.holdNotice t.launch t.team t.thr (bitsN w 31 0 + bitsN w 63 48 * 2 ^ 32) (.varriveNotice p)).getD s)) ∧
  (∀ (p : Packet) (w : Nat) (md : BitVec 16), w = (p.payload.headD 0).toNat → md = (p.payload.getD 1 0).setWidth 16 → forDispatcher p = false → ownModule s md = true → s.versionWaiter p (bitsN w 31 0) (bitsN w 63 48) (bitsN w 34 32) = none → exec (.varriveNotice p) s = .next (s)) ∧
  (∀ (p : Packet) (w : Nat) (md : BitVec 16) (t : ThrId) (q : Packet), w = (p.payload.headD 0).toNat → md = (p.payload.getD 1 0).setWidth 16 → forDispatcher p = false → ownModule s md = false → (s.tileWaiter (fun q => decide (tileNameOf q = bitsN w 31 0 ∧ tileVerOf q = bitsN w 63 48) && q.dst.extractLsb' 16 16 == md && q.size == p.size) p (bitsN w 34 32) = some (t, q, false)) → exec (.varriveNotice p) s = .next (s.tileArrives p t q)) ∧
  (∀ (p : Packet) (w : Nat) (md : BitVec 16) (t : ThrId) (q : Packet), w = (p.payload.headD 0).toNat → md = (p.payload.getD 1 0).setWidth 16 → forDispatcher p = false → ownModule s md = false → (s.tileWaiter (fun q => decide (tileNameOf q = bitsN w 31 0 ∧ tileVerOf q = bitsN w 63 48) && q.dst.extractLsb' 16 16 == md && q.size == p.size) p (bitsN w 34 32) = some (t, q, true)) → exec (.varriveNotice p) s = .next ((s.holdNotice t.launch t.team t.thr (bitsN w 31 0 + bitsN w 63 48 * 2 ^ 32) (.varriveNotice p)).getD s)) ∧
  (∀ (p : Packet) (w : Nat) (md : BitVec 16), w = (p.payload.headD 0).toNat → md = (p.payload.getD 1 0).setWidth 16 → forDispatcher p = false → ownModule s md = false → (s.tileWaiter (fun q => decide (tileNameOf q = bitsN w 31 0 ∧ tileVerOf q = bitsN w 63 48) && q.dst.extractLsb' 16 16 == md && q.size == p.size) p (bitsN w 34 32) = none) → exec (.varriveNotice p) s = .next (s.giveBack p)) ∧
  (∀ (p : Packet) (d gw : Nat) (r : Region), checkGw p.rkey = (d, gw) → r = (s.die d).region gw (p.rkey.toNat / 2 ^ 20) → (r.v = false ∨ r.gen ≠ p.rkey.setWidth 20 ∨ s.windowKey p.rkey = false ∨ r.perm.getLsbD 1 = false ∨ r.length.toNat ≤ p.addr.toNat) → exec (.rnoteNotice p) s = .next (s)) ∧
  (∀ (p : Packet) (d gw : Nat) (r : Region) (t : ThrId) (c : Core), checkGw p.rkey = (d, gw) → r = (s.die d).region gw (p.rkey.toNat / 2 ^ 20) → ¬(r.v = false ∨ r.gen ≠ p.rkey.setWidth 20 ∨ s.windowKey p.rkey = false ∨ r.perm.getLsbD 1 = false ∨ r.length.toNat ≤ p.addr.toNat) → t = ⟨windowLaunch s p.rkey, p.addr.toNat / 0x40000, p.aux.toNat % 8⟩ → s.coreOf? t.launch t.team = some c → exec (.rnoteNotice p) s = .next (s.onThread t fun x => if x.run = .wfe then { x with run := .ready } else { x with rnote := true }))

/-- R102, R118, R120–R123: the oldest armed slot of a context is taken once its record has room: word 0 becomes empty and the launch is accepted, rejected, or poisoned; the last gate begins dispatch; a free core is dispatched or another one offered; Bind binds the next team, or all of a co-resident launch, or frees its reservation; pre-emption considers a live launch. The model's own readings that it rests on: log 6, 27, 28. -/
def Obligations.LaunchEvents : Prop := ∀ (s : State),
  (∀ (c : BitVec 6) (n a : Nat), (s.ready = false ∨ s.armed.find? (fun x => x.1 == c) ≠ some (c, n)) → exec (.launchSlotTake c n) s = .next (s)) ∧
  (∀ (c : BitVec 6) (n a : Nat), a = placeNow s (s.slotAddr c n) → s.ready = true → (s.armed.find? (fun x => x.1 == c) = some (c, n)) → s.fullAt a = false → exec (.launchSlotTake c n) s = .next (({ s with armed := s.armed.erase (c, n) } : State).offerSlots)) ∧
  (∀ (c : BitVec 6) (n a : Nat) (b : Nat) (r : LRec), a = placeNow s (s.slotAddr c n) → s.ready = true → (s.armed.find? (fun x => x.1 == c) = some (c, n)) → s.fullAt a = true → r = LRec.of (s.readPa a 256 ((s.hctx.get c.toFin).extractLsb' 11 10)) → s.slotPoison a = some b → exec (.launchSlotTake c n) s = .next ((s.poisonSlot c n (homeDie a) b r).offerSlots)) ∧
  (∀ (c : BitVec 6) (n a : Nat) (r : LRec), a = placeNow s (s.slotAddr c n) → s.ready = true → (s.armed.find? (fun x => x.1 == c) = some (c, n)) → s.fullAt a = true → r = LRec.of (s.readPa a 256 ((s.hctx.get c.toFin).extractLsb' 11 10)) → s.slotPoison a = none → s.launchRoom (homeDie a) r = false → exec (.launchSlotTake c n) s = .next (s)) ∧
  (∀ (c : BitVec 6) (n a : Nat) (r : LRec) (t : State) (d : CtxDesc) (k : Nat), a = placeNow s (s.slotAddr c n) → s.ready = true → (s.armed.find? (fun x => x.1 == c) = some (c, n)) → s.fullAt a = true → r = LRec.of (s.readPa a 256 ((s.hctx.get c.toFin).extractLsb' 11 10)) → s.slotPoison a = none → s.launchRoom (homeDie a) r = true → t = s.emptySlot c n → d = t.ctxDesc c → k = t.launchCode (homeDie a) d r → k ≠ 0 → exec (.launchSlotTake c n) s = .next ((t.reject (homeDie a) c d r k (s.slotAddr c n)).offerSlots)) ∧
  (∀ (c : BitVec 6) (n a : Nat) (r : LRec) (t : State) (d : CtxDesc) (k : Nat), a = placeNow s (s.slotAddr c n) → s.ready = true → (s.armed.find? (fun x => x.1 == c) = some (c, n)) → s.fullAt a = true → r = LRec.of (s.readPa a 256 ((s.hctx.get c.toFin).extractLsb' 11 10)) → s.slotPoison a = none → s.launchRoom (homeDie a) r = true → t = s.emptySlot c n → d = t.ctxDesc c → k = t.launchCode (homeDie a) d r → k = 0 → exec (.launchSlotTake c n) s = .next ((t.acceptLaunch (homeDie a) c d r).1.offerSlots)) ∧
  (∀ (l : BitVec 16), s.launch? l = none → exec (.gateSatisfied l) s = .next (s)) ∧
  (∀ (l : BitVec 16) (x : Launch), s.launch? l = some x → x.phase = .gated → x.ending = false → 1 < x.gatesLeft → exec (.gateSatisfied l) s = .next ((s.setLaunch l fun x => { x with gatesLeft := x.gatesLeft - 1 }))) ∧
  (∀ (l : BitVec 16) (x : Launch), s.launch? l = some x → x.phase = .gated → x.ending = false → x.gatesLeft ≤ 1 → exec (.gateSatisfied l) s = .next ((s.setLaunch l fun x => { x with gatesLeft := x.gatesLeft - 1 }).enterDispatch l)) ∧
  (∀ (d p : Nat), (s.core? p).isSome ∨ ((s.die d).activeCores d).contains p = false ∨ (s.cands p).isEmpty → exec (.dispatchCoreFree d p) s = .next (s.lookAgain)) ∧
  (∀ (d p : Nat), ¬((s.core? p).isSome ∨ ((s.die d).activeCores d).contains p = false ∨ (s.cands p).isEmpty) → exec (.dispatchCoreFree d p) s = .next (s.dispatch d p)) ∧
  (∀ (l : BitVec 16) (p : Nat), s.launch? l = none → exec (.bindRequest l p) s = .next (s.post (.dispatchCoreFree (p / 1024) p))) ∧
  (∀ (l : BitVec 16) (p : Nat) (x : Launch), s.launch? l = some x → x.reserved.contains p = false → exec (.bindRequest l p) s = .next (s)) ∧
  (∀ (l : BitVec 16) (p : Nat) (x : Launch), s.launch? l = some x → x.reserved.contains p = true → x.phase ≠ .dispatching ∨ x.ending = true → exec (.bindRequest l p) s = .next ((s.setLaunch l fun x => { x with reserved := x.reserved.erase p }).post (.dispatchCoreFree (p / 1024) p))) ∧
  (∀ (l : BitVec 16) (p : Nat) (x : Launch), s.launch? l = some x → x.reserved.contains p = true → x.phase = .dispatching → x.ending = false → (s.permitted x.lrec).contains p = false → exec (.bindRequest l p) s = .next (((s.kick l).setLaunch l fun x => { x with reserved := x.reserved.erase p }).post (.dispatchCoreFree (p / 1024) p))) ∧
  (∀ (l : BitVec 16) (p : Nat) (x : Launch), s.launch? l = some x → x.reserved.contains p = true → x.phase = .dispatching → x.ending = false → (s.permitted x.lrec).contains p = true → x.lrec.cores = true → exec (.bindRequest l p) s = .next (if x.left ≤ x.reserved.length ∧ (s.cores.any fun c => c.launch == l && c.stopping) = false then State.bindAll x.left l s else s)) ∧
  (∀ (l : BitVec 16) (p : Nat) (x : Launch) (t : State), s.launch? l = some x → x.reserved.contains p = true → x.phase = .dispatching → x.ending = false → (s.permitted x.lrec).contains p = true → x.lrec.cores = false → s.bindNext x p = some t → exec (.bindRequest l p) s = .next (t)) ∧
  (∀ (l : BitVec 16) (p : Nat) (x : Launch), s.launch? l = some x → x.reserved.contains p = true → x.phase = .dispatching → x.ending = false → (s.permitted x.lrec).contains p = true → x.lrec.cores = false → s.bindNext x p = none → exec (.bindRequest l p) s = .next ((s.setLaunch l fun x => { x with reserved := x.reserved.erase p }).post (.dispatchCoreFree (p / 1024) p))) ∧
  (∀ (l : BitVec 16) (x : Launch), s.launch? l = some x → exec (.preemption l) s = .next (s.preempt x)) ∧
  (∀ (l : BitVec 16), s.launch? l = none → exec (.preemption l) s = .next (s))

/-- R119, R124–R129, R246–R248: a team is saved once its engines, units and requests have drained and a slot is free; it is restored from its slot, a corrupt image sealing the core; it exits when all its threads have halted and its engines have drained; the last release completes the launch; a contained fault restarts a restartable team, others terminate the launch; a sealed core is recorded and replaced. The model's own readings that it rests on: log 6, 28, 29. -/
def Obligations.TeamEvents : Prop := ∀ (s : State),
  (∀ (k : Nat), s.core? k = none → exec (.teamSave k) s = .next (s)) ∧
  (∀ (k : Nat) (c : Core), s.core? k = some c → c.stopping = false → exec (.teamSave k) s = .next (s)) ∧
  (∀ (k : Nat) (c : Core), s.core? k = some c → c.stopping = true → c.exiting = true → exec (.teamSave k) s = .next (s.setCore { c with stopping := false, saveFor := none, saveSlot := none })) ∧
  (∀ (k : Nat) (c : Core) (n a : Nat) (ms : List (BitVec 16)), s.core? k = some c → c.stopping = true → c.exiting = false → c.saveSlot = some (n, ms, a) → exec (.teamSave k) s = .next (s.saveWaits c n ms a)) ∧
  (∀ (k : Nat) (c : Core), s.core? k = some c → c.stopping = true → c.exiting = false → c.saveSlot = none → s.quiet c = false → exec (.teamSave k) s = .next (s.saveLater c 1)) ∧
  (∀ (k : Nat) (c : Core), s.core? k = some c → c.stopping = true → c.exiting = false → c.saveSlot = none → s.quiet c = true → ((List.range c.desc.saven).find? (fun n => !(s.slotsUsed c.ctx).contains n) = none) → exec (.teamSave k) s = .next (s.setCore { c with stopping := false, saveFor := none })) ∧
  (∀ (k : Nat) (c : Core) (n : Nat) (u : State), s.core? k = some c → c.stopping = true → c.exiting = false → c.saveSlot = none → s.quiet c = true → ((List.range c.desc.saven).find? (fun n => !(s.slotsUsed c.ctx).contains n) = some n) → (s.emptyLog c (fun n s => s.saveLater ((s.core? k).getD c) n) = (u, false)) → exec (.teamSave k) s = .next (u)) ∧
  (∀ (k : Nat) (c : Core) (n : Nat) (u : State) (d : Core), s.core? k = some c → c.stopping = true → c.exiting = false → c.saveSlot = none → s.quiet c = true → ((List.range c.desc.saven).find? (fun n => !(s.slotsUsed c.ctx).contains n) = some n) → (s.emptyLog c (fun n s => s.saveLater ((s.core? k).getD c) n) = (u, true)) → d = (u.core? k).getD c → u.lineWaits d = true → exec (.teamSave k) s = .next (u.saveLater d 1)) ∧
  (∀ (k : Nat) (c : Core) (n : Nat) (u v : State) (d : Core), s.core? k = some c → c.stopping = true → c.exiting = false → c.saveSlot = none → s.quiet c = true → ((List.range c.desc.saven).find? (fun n => !(s.slotsUsed c.ctx).contains n) = some n) → (s.emptyLog c (fun n s => s.saveLater ((s.core? k).getD c) n) = (u, true)) → d = (u.core? k).getD c → u.lineWaits d = false → (v = (u.l1Clean d.quadId (fun _ => true) false).tenuresClean d) → exec (.teamSave k) s = .next (v.saveHolders ((v.core? k).getD d) n)) ∧
  (∀ (c : Core) (n a : Nat) (ms : List (BitVec 16)), (ms = [] ∨ a + (s.die c.die).final ≤ s.now) → s.saveWaits c n ms a = s.saveTeam c n) ∧
  (∀ (c d : Core) (n : Nat) (u : State), c.holders s = [] → u = s.repoint { old := endpointOf s c.id, new := s.zenith (launchHome c.launch), ctx := c.ctx, slot := BitVec.ofNat 16 n, save := true } → d = (u.core? c.id).getD c → s.saveHolders c n = u.saveTeam d n) ∧
  (∀ (l : BitVec 16) (t k : Nat), ((s.launch? l).bind (fun x => x.saved.find? fun y => decide (y.team = t) && y.core == some k) = none) → exec (.teamRestore l t k) s = .next (if (s.core? k).isNone then s.post (.dispatchCoreFree (k / 1024) k) else s)) ∧
  (∀ (l : BitVec 16) (t k : Nat) (y : Saved) (ms : List (BitVec 16)), ((s.launch? l).bind (fun x => x.saved.find? fun y => decide (y.team = t) && y.core == some k) = some y) → ms = y.asked.getD (y.image.holders s) → ((s.die (k / 1024)).activeCores (k / 1024)).contains k = false → exec (.teamRestore l t k) s = .next ((s.setLaunch l fun x => { x with saved := update (fun v => decide (v.team = t)) (fun v => { v with core := none, asked := none }) x.saved, phase := .dispatching }).kick l)) ∧
  (∀ (l : BitVec 16) (t k : Nat) (y : Saved) (ms : List (BitVec 16)), ((s.launch? l).bind (fun x => x.saved.find? fun y => decide (y.team = t) && y.core == some k) = some y) → ms = y.asked.getD (y.image.holders s) → ((s.die (k / 1024)).activeCores (k / 1024)).contains k = true → ms ≠ [] → exec (.teamRestore l t k) s = .next (s.askRestore l y k ms)) ∧
  (∀ (l : BitVec 16) (t k : Nat) (y : Saved) (ms : List (BitVec 16)) (m : Memory), ((s.launch? l).bind (fun x => x.saved.find? fun y => decide (y.team = t) && y.core == some k) = some y) → ms = y.asked.getD (y.image.holders s) → ((s.die (k / 1024)).activeCores (k / 1024)).contains k = true → ms = [] → s.slotMemory y = some m → exec (.teamRestore l t k) s = .next ((y.held.map (heldNotice (endpointOf s k))).foldl State.post (s.putTeam l y k m))) ∧
  (∀ (l : BitVec 16) (t k : Nat) (y : Saved) (ms : List (BitVec 16)), ((s.launch? l).bind (fun x => x.saved.find? fun y => decide (y.team = t) && y.core == some k) = some y) → ms = y.asked.getD (y.image.holders s) → ((s.die (k / 1024)).activeCores (k / 1024)).contains k = true → ms = [] → s.slotMemory y = none → exec (.teamRestore l t k) s = .next ((s.putTeam l y k {}).post (.coreSeal k 2 0))) ∧
  (∀ (k : Nat), s.core? k = none → exec (.teamExit k) s = .next (s)) ∧
  (∀ (k : Nat) (c : Core), s.core? k = some c → c.allHalted = false → exec (.teamExit k) s = .next (s)) ∧
  (∀ (k : Nat) (c : Core) (x : Core), s.core? k = some c → c.allHalted = true → x = { c with exiting := true, stopping := false } → (c.lrec.calls && ((c.thr.get 7).run != .call || !c.calls.isEmpty)) = true → exec (.teamExit k) s = .next (s.setCore x)) ∧
  (∀ (k : Nat) (c : Core) (x : Core), s.core? k = some c → c.allHalted = true → x = { c with exiting := true, stopping := false } → (c.lrec.calls && ((c.thr.get 7).run != .call || !c.calls.isEmpty)) = false → c.enginesIdle = false → exec (.teamExit k) s = .next ((s.setCore x).after 1 (.teamExit k))) ∧
  (∀ (k : Nat) (c : Core) (x : Core) (u : State), s.core? k = some c → c.allHalted = true → x = { c with exiting := true, stopping := false } → (c.lrec.calls && ((c.thr.get 7).run != .call || !c.calls.isEmpty)) = false → c.enginesIdle = true → ((s.setCore x).emptyLog x (fun n s => s.after n (.teamExit k)) = (u, false)) → exec (.teamExit k) s = .next (u)) ∧
  (∀ (k : Nat) (c : Core) (x y : Core) (u : State), s.core? k = some c → c.allHalted = true → x = { c with exiting := true, stopping := false } → (c.lrec.calls && ((c.thr.get 7).run != .call || !c.calls.isEmpty)) = false → c.enginesIdle = true → ((s.setCore x).emptyLog x (fun n s => s.after n (.teamExit k)) = (u, true)) → y = (u.core? k).getD x → u.lineWaits y = true → exec (.teamExit k) s = .next (u.after 1 (.teamExit k))) ∧
  (∀ (k : Nat) (c : Core) (x y : Core) (u : State), s.core? k = some c → c.allHalted = true → x = { c with exiting := true, stopping := false } → (c.lrec.calls && ((c.thr.get 7).run != .call || !c.calls.isEmpty)) = false → c.enginesIdle = true → ((s.setCore x).emptyLog x (fun n s => s.after n (.teamExit k)) = (u, true)) → y = (u.core? k).getD x → u.lineWaits y = false → exec (.teamExit k) s = .next (u.exitTeam y)) ∧
  (∀ (l : BitVec 16) (t : Nat) (v : Option W64), s.launch? l = none → exec (.teamCompletionRelease l t v) s = .next (s)) ∧
  (∀ (l : BitVec 16) (t : Nat) (v : Option W64) (x : Launch), s.launch? l = some x → x.phase = .free ∨ x.ending = true → exec (.teamCompletionRelease l t v) s = .next (s)) ∧
  (∀ (l : BitVec 16) (t : Nat) (v : W64) (x : Launch), s.launch? l = some x → x.phase ≠ .free → x.ending = false → exec (.teamCompletionRelease l t (some v)) s = .next (s.complete l v)) ∧
  (∀ (l : BitVec 16) (t : Nat) (x : Launch), s.launch? l = some x → x.phase ≠ .free → x.ending = false → x.exited.contains t = true → exec (.teamCompletionRelease l t none) s = .next (s)) ∧
  (∀ (l : BitVec 16) (t : Nat) (x : Launch) (u : State), s.launch? l = some x → x.phase ≠ .free → x.ending = false → x.exited.contains t = false → (u = s.setLaunch l fun x => { x with done := x.done + 1, exited := x.exited ++ [t] }) → x.done + 1 < x.lrec.n → exec (.teamCompletionRelease l t none) s = .next (u)) ∧
  (∀ (l : BitVec 16) (t : Nat) (x : Launch) (u : State), s.launch? l = some x → x.phase ≠ .free → x.ending = false → x.exited.contains t = false → (u = s.setLaunch l fun x => { x with done := x.done + 1, exited := x.exited ++ [t] }) → x.lrec.n ≤ x.done + 1 → exec (.teamCompletionRelease l t none) s = .next (u.complete l x.lrec.cval)) ∧
  (∀ (l : BitVec 16) (r k : BitVec 8) (t : Nat) (x : Launch), s.launch? l = some x → x.lrec.restart = true → r = 1 → x.phase ≠ .free → x.ending = false → exec (.launchTermination l r k (some t)) s = .next ((s.restartTeam l t).1.kick l)) ∧
  (∀ (l : BitVec 16) (r k : BitVec 8) (t : Nat) (x : Launch), s.launch? l = some x → x.lrec.restart = false ∨ r ≠ 1 ∨ x.phase = .free ∨ x.ending = true → exec (.launchTermination l r k (some t)) s = .next (s.terminate l r.toNat k.toNat)) ∧
  (∀ (l : BitVec 16) (r k : BitVec 8), exec (.launchTermination l r k none) s = .next (s.terminate l r.toNat k.toNat)) ∧
  (∀ (k n : Nat) (pc : W64), (s.die (k / 1024)).sealedCores.contains k = true → exec (.coreSeal k n pc) s = .next (s)) ∧
  (∀ (k n : Nat) (pc : W64) (t u : State) (z g : Nat) (p : W64), (s.die (k / 1024)).sealedCores.contains k = false → t = s.coreLoss k n → z = (if 3 ≤ n then 1 else n) → p = (if z = 1 ∧ pc = 0 then t.sealPc k else if z = 2 then 0 else pc) → g = ((t.die (k / 1024)).logicalOf (k / 1024) k).getD 0 → (u = t.setDie (k / 1024) fun d => { d with sealedCores := d.sealedCores ++ [k] }) → u.core? k = none → exec (.coreSeal k n pc) s = .next ((u.fault (k / 1024) 0x71 z 0 p.toNat (t.sealAux k false) 0).replaceSealed k g)) ∧
  (∀ (k n : Nat) (pc : W64) (t u : State) (z g : Nat) (p : W64) (c : Core) (v w : State), (s.die (k / 1024)).sealedCores.contains k = false → t = s.coreLoss k n → z = (if 3 ≤ n then 1 else n) → p = (if z = 1 ∧ pc = 0 then t.sealPc k else if z = 2 then 0 else pc) → g = ((t.die (k / 1024)).logicalOf (k / 1024) k).getD 0 → (u = t.setDie (k / 1024) fun d => { d with sealedCores := d.sealedCores ++ [k] }) → u.core? k = some c → v = u.sealTeam c → w = v.fault (k / 1024) 0x71 z c.ctx.toNat p.toNat (t.sealAux k (!v.runsAgain c)) (c.team + c.launch.toNat * 2 ^ 24) → exec (.coreSeal k n pc) s = .next ((if c.lrec.restart then ((w.restartTeam c.launch c.team).1.kick c.launch) else w.terminate c.launch 1 0x10).replaceSealed k g))

/-- R146, R147, R150, R313, R333: a thread idle for 4 µs may let its rows enter retention; `sleep` and `yield` end at their time; a queue entry is delivered to its bound receiver or answered BUSY; a credit returns to its sender; a mesh bind request is checked: KEY, BOUNDS, NOEP, else the channel links when both ends are bound to each other. R232, R251: a page-fault service is joined or opened while fewer than 4,096 are open; resolved, its threads execute again, its tickets are replayed, its engines, units and completion actions go on; refused, its threads raise NOT_MAPPED and its tickets are refused; a write of FQHEAD frees room and writes a pending overflow record. The model's own readings that it rests on: log 7, 28, 29. -/
def Obligations.ThreadQueueAndServiceEvents : Prop := (∀ (s : State),
  (∀ (t : ThrId), exec (.rowRetentionEntry t) s = .next (s.onThread t fun x => if x.run != .ready && decide (x.idleAt + us 4 ≤ s.now) then { x with retained := true } else x)) ∧
  (∀ (t : ThrId), exec (.sleepExpiry t) s = .next (s.onThread t fun x => match x.run with | .sleeping til => if til ≤ s.now then { x with run := .ready } else x | _ => x)) ∧
  (∀ (t : ThrId), exec (.yieldExpiry t) s = .next (s.onThread t fun x => match x.run with | .yielded _ til => if til ≤ s.now then { x with run := .ready } else x | _ => x)) ∧
  (∀ (p : Packet) (t : ThrId) (j : Fin 8), chanTarget s p p.addr.toNat = (t, j) → p.mode = 1 → exec (.queueEntryArrival p) s = .next (s.onThread t fun x => x.setQ j (Queue.chan fun n l => (n + 1, l)))) ∧
  (∀ (p : Packet) (u : State), p.mode ≠ 1 → s.queueDeliver p = some u → exec (.queueEntryArrival p) s = .next (u)) ∧
  (∀ (p : Packet), p.mode ≠ 1 → s.queueDeliver p = none → exec (.queueEntryArrival p) s = .next ((if p.retx then s else s.setRefused p (s.refusedOf p + 1)).send { p with kind := kBusy, vn := 1, mode := 0, len := 1, dst := p.src, src := p.dst })) ∧
  (∀ (p : Packet) (t : ThrId) (j : Fin 8) (x : Core), chanTarget s p p.addr.toNat = (t, j) → s.coreOf? t.launch t.team = some x → s.windowKey p.rkey = true → boundTo s ((x.thr.get (Fin.ofNat 8 t.thr)).q.get j) p = true → (p.retx = true ∨ s.refusedOf p = 0) → s.queueDeliver p = some ((s.setRefused p (s.refusedOf p - 1)).onThread t fun y => y.setQ j fun q => { q with fifo := q.fifo ++ [p.payload.headD 0] })) ∧
  (∀ (t : ThrId) (q : Nat), exec (.queueCreditReturn t q) s = .next (s.onThread t fun x => x.setQ (Fin.ofNat 8 q) (Queue.chan fun n l => (Nat.min 8 (n + 1), l)))) ∧
  (∀ (p : Packet) (t : ThrId) (j : Fin 8), p.mode ≠ 1 → chanTarget s p (p.addr.toNat / 0x40000) = (t, j) → s.windowKey p.rkey = false → exec (.meshBindRequest p) s = .next (s.send (bindAnswer p stKey))) ∧
  (∀ (p : Packet) (t : ThrId) (j : Fin 8), p.mode ≠ 1 → chanTarget s p (p.addr.toNat / 0x40000) = (t, j) → s.windowKey p.rkey = true → s.launch? t.launch = none → exec (.meshBindRequest p) s = .next (s.send (bindAnswer p stKey))) ∧
  (∀ (p : Packet) (t : ThrId) (j : Fin 8) (l : Launch), p.mode ≠ 1 → chanTarget s p (p.addr.toNat / 0x40000) = (t, j) → s.windowKey p.rkey = true → s.launch? t.launch = some l → l.lrec.n ≤ p.addr.toNat / 0x40000 → exec (.meshBindRequest p) s = .next (s.send (bindAnswer p stBounds))) ∧
  (∀ (p : Packet) (t : ThrId) (j : Fin 8) (l : Launch), p.mode ≠ 1 → chanTarget s p (p.addr.toNat / 0x40000) = (t, j) → s.windowKey p.rkey = true → s.launch? t.launch = some l → p.addr.toNat / 0x40000 < l.lrec.n → l.exited.contains (p.addr.toNat / 0x40000) = true → exec (.meshBindRequest p) s = .next (s.send (bindAnswer p stNoEp))) ∧
  (∀ (p : Packet) (t : ThrId) (j : Fin 8) (l : Launch), p.mode ≠ 1 → chanTarget s p (p.addr.toNat / 0x40000) = (t, j) → s.windowKey p.rkey = true → s.launch? t.launch = some l → p.addr.toNat / 0x40000 < l.lrec.n → l.exited.contains (p.addr.toNat / 0x40000) = false → s.thread? t = none → exec (.meshBindRequest p) s = .next (s.after (us 1) (.meshBindRequest p))) ∧
  (∀ (p : Packet) (t : ThrId) (j : Fin 8) (l : Launch) (x : Thread), p.mode ≠ 1 → chanTarget s p (p.addr.toNat / 0x40000) = (t, j) → s.windowKey p.rkey = true → s.launch? t.launch = some l → p.addr.toNat / 0x40000 < l.lrec.n → l.exited.contains (p.addr.toNat / 0x40000) = false → s.thread? t = some x → boundTo s (x.q.get j) p = true → exec (.meshBindRequest p) s = .next (((s.setRefused p 0).onThread t fun x => x.setQ j (Queue.chan fun n _ => (n, true))).send (bindAnswer p 0))) ∧
  (∀ (p : Packet) (t : ThrId) (j : Fin 8) (l : Launch) (x : Thread), p.mode ≠ 1 → chanTarget s p (p.addr.toNat / 0x40000) = (t, j) → s.windowKey p.rkey = true → s.launch? t.launch = some l → p.addr.toNat / 0x40000 < l.lrec.n → l.exited.contains (p.addr.toNat / 0x40000) = false → s.thread? t = some x → boundTo s (x.q.get j) p = false → exec (.meshBindRequest p) s = .next (s))) ∧
  (∀ (s : State),
  (∀ (d : Nat) (c : BitVec 6) (va : Nat) (k : BitVec 8) (w f : Bool) (who : SvcWaiter), (4096 ≤ (s.die d).services.length ∧ ((s.die d).services.any fun x => x.ctx == c && decide (x.page = va / 2 ^ 16)) = false) → exec (.serviceRequest d c va k w f who) s = .next (s.after 1 (.serviceRequest d c va k w f who))) ∧
  (∀ (d : Nat) (c : BitVec 6) (va : Nat) (k : BitVec 8) (w f : Bool) (u : State) (n : Nat) (gw num : Nat), (¬(4096 ≤ (s.die d).services.length ∧ ((s.die d).services.any fun x => x.ctx == c && decide (x.page = va / 2 ^ 16)) = false)) → s.openService d c va k.toNat w f (Service.add (.ticket gw num) va) = (u, n) → exec (.serviceRequest d c va k w f (.ticket gw num)) s = .next (u)) ∧
  (∀ (d : Nat) (c : BitVec 6) (va : Nat) (k : BitVec 8) (w f : Bool) (u : State) (n : Nat) (x : Nat) (cp : Bool), (¬(4096 ≤ (s.die d).services.length ∧ ((s.die d).services.any fun x => x.ctx == c && decide (x.page = va / 2 ^ 16)) = false)) → s.openService d c va k.toNat w f (Service.add (.engine x cp) va) = (u, n) → exec (.serviceRequest d c va k w f (.engine x cp)) s = .next (u)) ∧
  (∀ (d : Nat) (c : BitVec 6) (va : Nat) (k : BitVec 8) (w f : Bool) (u : State) (n : Nat) (x : Bool) (l : BitVec 16), (¬(4096 ≤ (s.die d).services.length ∧ ((s.die d).services.any fun x => x.ctx == c && decide (x.page = va / 2 ^ 16)) = false)) → s.openService d c va k.toNat w f (Service.add (.finish x l) va) = (u, n) → exec (.serviceRequest d c va k w f (.finish x l)) s = .next (u)) ∧
  (∀ (d : Nat) (c : BitVec 6) (va : Nat) (k : BitVec 8) (w f : Bool) (u : State) (n : Nat) (t : ThrId), (¬(4096 ≤ (s.die d).services.length ∧ ((s.die d).services.any fun x => x.ctx == c && decide (x.page = va / 2 ^ 16)) = false)) → s.openService d c va k.toNat w f (Service.add (.thread t) va) = (u, n) → exec (.serviceRequest d c va k w f (.thread t)) s = .next (u.onThread t fun x => if x.run = .ready then { x with run := .parked (.service d n va) {}, idleAt := u.now } else x)) ∧
  (∀ (d n : Nat), s.service? d n = none → exec (.fsdoneResolve d n) s = .next (s)) ∧
  (∀ (d n : Nat), s.service? d n = none → exec (.fsdoneRefuse d n) s = .next (s)) ∧
  (∀ (d n : Nat) (x : Service) (a b e g : State), s.service? d n = some x → (a = x.threads.foldl (fun s t => s.served d n t fun _ y => y) (s.closeService d n)) → (b = x.tickets.foldl (fun s g => s.tellTicket d g.1 g.2 stOk) a) → (e = x.engines.foldl (fun s e => s.post (.engineCommandComplete e.1 e.2.1)) b) → (g = x.units.foldl (fun s q => s.post (.matrixKstepComplete q)) e) → exec (.fsdoneResolve d n) s = .next (x.finishing.foldl (fun s r => if r.1 then s.rejectAction d r.2 else s.action r.2) g)) ∧
  (∀ (d n : Nat) (x : Service) (a b e g : State), s.service? d n = some x → (a = x.threads.foldl (fun s t => s.served d n t fun va y => { y with pendTrap := some (causeNotMapped, BitVec.ofNat 64 va) }) (s.closeService d n)) → (b = x.tickets.foldl (fun s g => s.tellTicket d g.1 g.2 (s.refusedStatus d g.1 g.2)) a) → (e = x.engines.foldl (fun s e => s.engineFault e.1 e.2.1 e.2.2) b) → (g = x.units.foldl (fun s q => match (s.quad q).cmd? with | some c => s.unitEnd q c (some stNotMapped) | none => s) e) → exec (.fsdoneRefuse d n) s = .next (x.finishing.foldl (fun s r => if r.1 then (match (s.die d).rejects.find? fun y => y.num == r.2 with | some y => s.rejectEnd d y (some causeNotMapped) | none => s) else s.actionEnd r.2 (some causeNotMapped)) g)) ∧
  (∀ (d : Nat) (v : W64), exec (.fqheadWrite d v) s = .next ((s.setDie d fun x => { x with fqhead := v &&& 0xFFFFFFFF }).fqFlush d)))

/-- R155, R177–R182, R264, R378: an idle engine starts its next command, a running one proceeds, acquiring first when it was asked to; log ranges open for 10 µs are emitted; the matrix unit starts the next remote command and steps it to its end, its fault, or again; a remote command is counted, refused with its status, or tried again after 1 µs. The model's own readings that it rests on: log 22, 27. -/
def Obligations.EngineAndUnitEvents : Prop := ∀ (s : State),
  (∀ (k : Nat) (e : Engine) (c : Core) (x : EngCmd) (xs : List EngCmd), s.core? k = some c → c.engRun e = none → c.engQueue e = x :: xs → exec (.engineCommandStart k e) s = .next ((s.setCore (c.setEng e xs (some x))).post (.engineCommandComplete k e))) ∧
  (∀ (k : Nat) (e : Engine) (c : Core) (x : EngCmd), s.core? k = some c → c.engRun e = some x → exec (.engineCommandStart k e) s = .next (s)) ∧
  (∀ (k : Nat) (e : Engine) (c : Core) (x : EngCmd), s.core? k = some c → c.engRun e = some x → x.waits = true → exec (.engineCommandComplete k e) s = .next (s)) ∧
  (∀ (k : Nat) (e : Engine) (c : Core) (x : EngCmd), s.core? k = some c → c.engRun e = some x → x.waits = false → x.begun = true → exec (.engineCommandComplete k e) s = .next (engLoop e x.fuel c x s)) ∧
  (∀ (k : Nat) (e : Engine) (c : Core) (x : EngCmd) (d : Core), s.core? k = some c → c.engRun e = some x → x.waits = false → x.begun = false → x.acq = none → (s.engM c x).flush.core? k = some d → exec (.engineCommandComplete k e) s = .next (engLoop e x.fuel (d.setEng e (d.engQueue e) (some { x with begun := true })) { x with begun := true } (s.engM c x).flush)) ∧
  (∀ (l : BitVec 16) (t n : Nat), s.coreOf? l t = none → exec (.logRangeTimeout l t n) s = .next (s)) ∧
  (∀ (l : BitVec 16) (t n : Nat) (c : Core), s.coreOf? l t = some c → ((c.ranges.any fun r => decide (r.since = n)) = false) → exec (.logRangeTimeout l t n) s = .next (s)) ∧
  (∀ (l : BitVec 16) (t n : Nat) (c : Core) (m : M), s.coreOf? l t = some c → ((c.ranges.any fun r => decide (r.since = n)) = true) → ((s.asM c 0).emitRanges (fun r => decide (r.since + us 10 ≤ s.now)) = .ok m) → exec (.logRangeTimeout l t n) s = .next (m.flush)) ∧
  (∀ (q k : Nat) (e : MatEntry), (s.quad q).act = none → (((List.range 5).map fun k => ((s.quad q).arb + 1 + k) % 5).findSome? (fun k => ((s.quad q).headOf k).map fun x => (k, x)) = some (k, .inl e)) → exec (.matrixCommandStart q) s = .next ((s.setQuad { s.quad q with act := some (.thread e false), queue := (s.quad q).queue.erase e, arb := k }).resume e.thr)) ∧
  (∀ (q k : Nat) (x : MatrixCmd), (s.quad q).act = none → (((List.range 5).map fun k => ((s.quad q).arb + 1 + k) % 5).findSome? (fun k => ((s.quad q).headOf k).map fun x => (k, x)) = some (k, .inr x)) → exec (.matrixCommandStart q) s = .next ((s.setQuad { s.quad q with act := some (.cmd x), steps := 0, remq := (s.quad q).remq.tail, arb := k }).after (s.arith 16) (.matrixKstepComplete q))) ∧
  (∀ (q : Nat), (s.quad q).act = none → (((List.range 5).map fun k => ((s.quad q).arb + 1 + k) % 5).findSome? (fun k => ((s.quad q).headOf k).map fun x => (k, x)) = none) → exec (.matrixCommandStart q) s = .next (s)) ∧
  (∀ (q : Nat) (x : UnitAct), (s.quad q).act = some x → exec (.matrixCommandStart q) s = .next (s)) ∧
  (∀ (q : Nat), (s.quad q).act = none → exec (.matrixKstepComplete q) s = .next (s)) ∧
  (∀ (q : Nat) (e : MatEntry), (s.quad q).act = some (.thread e false) → exec (.matrixKstepComplete q) s = .next (s)) ∧
  (∀ (q : Nat) (e : MatEntry), (s.quad q).act = some (.thread e true) → exec (.matrixKstepComplete q) s = .next ((s.setQuad { s.quad q with act := none }).unitNext q)) ∧
  (∀ (q : Nat) (x : MatrixCmd) (t : State), (s.quad q).act = some (.cmd x) → s.remoteStep x (s.quad q).steps = .more t → exec (.matrixKstepComplete q) s = .next ((t.setQuad { t.quad q with steps := (s.quad q).steps + 1 }).after (t.arith 16) (.matrixKstepComplete q))) ∧
  (∀ (q : Nat) (x : MatrixCmd) (t : State), (s.quad q).act = some (.cmd x) → s.remoteStep x (s.quad q).steps = .done t → exec (.matrixKstepComplete q) s = .next (t.unitEnd q x none)) ∧
  (∀ (q : Nat) (x : MatrixCmd) (t : State) (st : BitVec 4), (s.quad q).act = some (.cmd x) → s.remoteStep x (s.quad q).steps = .fault t st → exec (.matrixKstepComplete q) s = .next (t.unitEnd q x (some st))) ∧
  (∀ (q : Nat) (x : MatrixCmd) (t : State), (s.quad q).act = some (.cmd x) → s.remoteStep x (s.quad q).steps = .retry t → exec (.matrixKstepComplete q) s = .next (t.after 1 (.matrixKstepComplete q))) ∧
  (∀ (q : Nat) (x : MatrixCmd) (t : State), (s.quad q).act = some (.cmd x) → s.remoteStep x (s.quad q).steps = .waits t → exec (.matrixKstepComplete q) s = .next (t)) ∧
  (∀ (x : MatrixCmd) (t : State) (k : Core) (j : Fin 8), j = Fin.ofNat 8 x.thr → s.acceptMatrix x (x.core / 1024) = .accepted t → t.core? x.core = some k → exec (.remoteMatrixCommand x) s = .next (t.setCore { k with thr := k.thr.set j { k.thr.get j with mcmdOut := (k.thr.get j).mcmdOut + 1 } })) ∧
  (∀ (x : MatrixCmd) (st : BitVec 4) (k : Core) (j : Fin 8), j = Fin.ofNat 8 x.thr → s.acceptMatrix x (x.core / 1024) = .refused st → s.core? x.core = some k → exec (.remoteMatrixCommand x) s = .next (s.setCore { k with thr := k.thr.set j { k.thr.get j with mcmdErr := some st } })) ∧
  (∀ (x : MatrixCmd), s.acceptMatrix x (x.core / 1024) = .busy → exec (.remoteMatrixCommand x) s = .next (s.after (us 1) (.remoteMatrixCommand x)))

/-- R190, R191, R193: a parked publish is accepted within the window of 16, waits beyond it, and is refused for a stale name or a version that exists; a publish whose data is written becomes live; a registration of a wait is served, retired, or listed; the bound of a wait that is still listed cancels it with WAIT_EXPIRED. R198–R202: a tenure request at the directory gets a record, granted when no conflicting one stands before it, else queued; without a free record it is tried again; a stale region traps; a release serves the queue; a one-shot access joins the region's queue, which is served. The model's own readings that it rests on: log 6, 26, 27. -/
def Obligations.VersionAndTenureEvents : Prop := (∀ (s : State),
  (∀ (n v : Nat) (t : ThrId), t = remotePublisher → exec (.versionPublishRequest n v t) s = .next (s.tileAdmit n v)) ∧
  (∀ (n v : Nat) (t : ThrId), t ≠ remotePublisher → t = launchPublisher t.launch → exec (.versionPublishRequest n v t) s = .next (s.action t.launch)) ∧
  (∀ (n v : Nat) (t : ThrId) (rd : Option Nat) (tr : Nat) (f : Finish), t ≠ remotePublisher → t ≠ launchPublisher t.launch → s.runOf t = some (.parked (.publish n v rd tr) f) → s.tname? n = none → exec (.versionPublishRequest n v t) s = .next (s.resumeTrap t causeStaleHandle 0)) ∧
  (∀ (n v : Nat) (t : ThrId) (rd : Option Nat) (tr : Nat) (f : Finish) (x : TName), t ≠ remotePublisher → t ≠ launchPublisher t.launch → s.runOf t = some (.parked (.publish n v rd tr) f) → s.tname? n = some x → x.live = false → exec (.versionPublishRequest n v t) s = .next (s.resumeTrap t causeStaleHandle 0)) ∧
  (∀ (n v : Nat) (t : ThrId) (rd : Option Nat) (tr : Nat) (f : Finish) (x : TName), t ≠ remotePublisher → t ≠ launchPublisher t.launch → s.runOf t = some (.parked (.publish n v rd tr) f) → s.tname? n = some x → x.live = true → v ≤ x.w ∨ x.stateOf v ≠ 0 → exec (.versionPublishRequest n v t) s = .next (s.resumeTrap t causeVersionExists v)) ∧
  (∀ (n v : Nat) (t : ThrId) (rd : Option Nat) (tr : Nat) (f : Finish) (x : TName) (u : State), t ≠ remotePublisher → t ≠ launchPublisher t.launch → s.runOf t = some (.parked (.publish n v rd tr) f) → s.tname? n = some x → x.live = true → ¬(v ≤ x.w ∨ x.stateOf v ≠ 0) → (if x.w + 16 < v then none else s.acceptPublish n v (some t) rd) = some u → exec (.versionPublishRequest n v t) s = .next (u.resume t)) ∧
  (∀ (n v : Nat) (t : ThrId) (rd : Option Nat) (tr : Nat) (f : Finish) (x : TName), t ≠ remotePublisher → t ≠ launchPublisher t.launch → s.runOf t = some (.parked (.publish n v rd tr) f) → s.tname? n = some x → x.live = true → ¬(v ≤ x.w ∨ x.stateOf v ≠ 0) → (if x.w + 16 < v then none else s.acceptPublish n v (some t) rd) = none → s.waitRoom n = true → exec (.versionPublishRequest n v t) s = .next (s.setTname n fun x => { x with waits := x.waits ++ [{ ver := v, who := .thread t, kind := .publish }] })) ∧
  (∀ (n v : Nat) (t : ThrId) (rd : Option Nat) (tr : Nat) (f : Finish) (x : TName), t ≠ remotePublisher → t ≠ launchPublisher t.launch → s.runOf t = some (.parked (.publish n v rd tr) f) → s.tname? n = some x → x.live = true → ¬(v ≤ x.w ∨ x.stateOf v ≠ 0) → (if x.w + 16 < v then none else s.acceptPublish n v (some t) rd) = none → s.waitRoom n = false → exec (.versionPublishRequest n v t) s = .next ((s.onThread t fun y => { y with run := .parked (.publish n v rd (tr + 1)) f }).after (retryAfter (tr + 1)) (.versionPublishRequest n v t))) ∧
  (∀ (n v : Nat) (t : ThrId) (y : Version), (s.tname? n).bind (·.ver? v) = some y → y.st = .publishing → y.owner = some t → y.data ≠ [] → exec (.versionPublishComplete n v t) s = .next (s.makeLive n v y.readers y.data)) ∧
  (∀ (n v : Nat) (t : ThrId), (s.tname? n).bind (·.ver? v) = none → exec (.versionPublishComplete n v t) s = .next (s)) ∧
  (∀ (n v : Nat) (t : ThrId) (k : VWaitKind) (tr : Nat) (til : Option Nat) (f : Finish), t ≠ launchPublisher t.launch → s.runOf t = some (.parked (.version n v k tr til) f) → s.tname? n = none → exec (.versionWaitRegister n v t) s = .next (s.resumeTrap t causeStaleHandle 0)) ∧
  (∀ (n v : Nat) (t : ThrId) (k : VWaitKind) (tr : Nat) (til : Option Nat) (f : Finish) (x : TName), t ≠ launchPublisher t.launch → s.runOf t = some (.parked (.version n v k tr til) f) → s.tname? n = some x → x.live = false → exec (.versionWaitRegister n v t) s = .next (s.resumeTrap t causeStaleHandle 0)) ∧
  (∀ (n v : Nat) (t : ThrId) (k : VWaitKind) (tr : Nat) (til : Option Nat) (f : Finish) (x : TName), t ≠ launchPublisher t.launch → s.runOf t = some (.parked (.version n v k tr til) f) → s.tname? n = some x → x.live = true → x.stateOf v = 3 → exec (.versionWaitRegister n v t) s = .next (s.resumeTrap t causeVersionRetired v)) ∧
  (∀ (n v : Nat) (t : ThrId) (k : VWaitKind) (tr : Nat) (til : Option Nat) (f : Finish) (x : TName), t ≠ launchPublisher t.launch → s.runOf t = some (.parked (.version n v k tr til) f) → s.tname? n = some x → x.live = true → x.stateOf v = 2 → exec (.versionWaitRegister n v t) s = .next (serveWaiter n v s { ver := v, who := .thread t, kind := k })) ∧
  (∀ (n v : Nat) (t : ThrId) (k : VWaitKind) (tr : Nat) (til : Option Nat) (f : Finish) (x : TName), t ≠ launchPublisher t.launch → s.runOf t = some (.parked (.version n v k tr til) f) → s.tname? n = some x → x.live = true → x.stateOf v = 0 → exec (.versionWaitRegister n v t) s = .next ((s.onThread t fun y => { y with run := .parked (.version n v k (tr + 1) til) f }).registerWait n v t k (tr + 1))) ∧
  (∀ (n v : Nat) (t : ThrId) (k : VWaitKind) (tr : Nat) (til : Option Nat) (f : Finish) (x : TName), t ≠ launchPublisher t.launch → s.runOf t = some (.parked (.version n v k tr til) f) → s.tname? n = some x → x.live = true → x.stateOf v = 1 → exec (.versionWaitRegister n v t) s = .next ((s.onThread t fun y => { y with run := .parked (.version n v k (tr + 1) til) f }).registerWait n v t k (tr + 1))) ∧
  (∀ (n v : Nat) (t : ThrId) (q : Packet) (tr : Nat) (til : Option Nat) (f : Finish), t ≠ launchPublisher t.launch → s.runOf t = some (.parked (.remoteTile q .refused tr til) f) → exec (.versionWaitRegister n v t) s = .next (if tileNameOf q = n ∧ tileVerOf q = v then (s.tileStage t .sent id).tileSend (q.src.toNat / 2 ^ 13 % 8) q else s)) ∧
  (∀ (t : ThrId) (l : Launch) (g : W64) (n v : Nat), t = launchPublisher t.launch → s.launch? t.launch = some l → l.phase = .gated → ((l.lrec.gates.take l.lrec.ngate).find? (fun g => (gateOf g).1 == n && (gateOf g).2.1 == v) = some g) → exec (.versionWaitRegister n v t) s = .next (s.registerGate t.launch g)) ∧
  (∀ (t : ThrId) (n v tr til : Nat) (k : VWaitKind) (f : Finish), s.runOf t = some (.parked (.version n v k tr (some til)) f) → (til ≤ s.now ∧ (((s.tname? n).elim false fun x => x.waits.any fun w => w.who == .thread t && decide (w.ver = v)) = true ∨ (s.timers.any fun e => e.2 == .versionWaitRegister n v t) = true)) → exec (.versionWaitBoundExpiry t) s = .next ((s.setTname n fun x => { x with waits := x.waits.filter fun w => !(w.who == .thread t && decide (w.ver = v)) }).resumeTrap t causeWaitExpired v)) ∧
  (∀ (t : ThrId) (n v tr til : Nat) (k : VWaitKind) (f : Finish), s.runOf t = some (.parked (.version n v k tr (some til)) f) → (¬(til ≤ s.now ∧ (((s.tname? n).elim false fun x => x.waits.any fun w => w.who == .thread t && decide (w.ver = v)) = true ∨ (s.timers.any fun e => e.2 == .versionWaitRegister n v t) = true))) → exec (.versionWaitBoundExpiry t) s = .next (s)) ∧
  (∀ (t : ThrId) (q : Packet) (st : TileStage) (tr til : Nat) (f : Finish), s.runOf t = some (.parked (.remoteTile q st tr (some til)) f) → s.now < til ∨ st = .fetching → exec (.versionWaitBoundExpiry t) s = .next (s)) ∧
  (∀ (t : ThrId) (q : Packet) (st : TileStage) (tr til : Nat) (f : Finish), s.runOf t = some (.parked (.remoteTile q st tr (some til)) f) → ¬(s.now < til ∨ st = .fetching) → st = .refused → exec (.versionWaitBoundExpiry t) s = .next (s.resumeTrap t causeWaitExpired (tileVerOf q))) ∧
  (∀ (t : ThrId) (q : Packet) (st : TileStage) (tr til : Nat) (f : Finish), s.runOf t = some (.parked (.remoteTile q st tr (some til)) f) → ¬(s.now < til ∨ st = .fetching) → st ≠ .refused → exec (.versionWaitBoundExpiry t) s = .next (s.route (q.src.toNat / 2 ^ 13 % 8) (cancelAsk q true)))) ∧
  (∀ (s : State),
  (∀ (t : ThrId) (r : Nat) (q : Rect) (w : Bool) (n tr : Nat) (f : Finish) (e : TenEntry), s.runOf t = some (.parked (.tenure n tr) f) → ((s.teamCore? t.launch t.team).bind (fun c => c.tenures.find? fun e => !e.held && decide (e.region = r) && e.rect == q && e.write == w) = some e) → e.slot = n → s.tregion? r = none → exec (.tenureRequest t r q w) s = .next (s.resumeTrap t causeStaleHandle 0)) ∧
  (∀ (t : ThrId) (r : Nat) (q : Rect) (w : Bool) (n tr : Nat) (f : Finish) (e : TenEntry) (x : TRegion), s.runOf t = some (.parked (.tenure n tr) f) → ((s.teamCore? t.launch t.team).bind (fun c => c.tenures.find? fun e => !e.held && decide (e.region = r) && e.rect == q && e.write == w) = some e) → e.slot = n → s.tregion? r = some x → ((x.recs.any fun y => y.launch == t.launch && decide (y.team = t.team ∧ y.slot = n) && !y.oneShot) = true) → exec (.tenureRequest t r q w) s = .next (s)) ∧
  (∀ (t : ThrId) (r : Nat) (q : Rect) (w : Bool) (n tr : Nat) (f : Finish) (e : TenEntry) (x : TRegion), s.runOf t = some (.parked (.tenure n tr) f) → ((s.teamCore? t.launch t.team).bind (fun c => c.tenures.find? fun e => !e.held && decide (e.region = r) && e.rect == q && e.write == w) = some e) → e.slot = n → s.tregion? r = some x → ((x.recs.any fun y => y.launch == t.launch && decide (y.team = t.team ∧ y.slot = n) && !y.oneShot) = false) → x.live = false → exec (.tenureRequest t r q w) s = .next ((s.onTeam t.launch t.team fun s c => ({ c with tenures := c.tenures.filter fun x => decide (x.slot ≠ n) }, s)).resumeTrap t causeStaleHandle 0)) ∧
  (∀ (t : ThrId) (r : Nat) (q : Rect) (w : Bool) (n tr : Nat) (f : Finish) (e : TenEntry) (x : TRegion), s.runOf t = some (.parked (.tenure n tr) f) → ((s.teamCore? t.launch t.team).bind (fun c => c.tenures.find? fun e => !e.held && decide (e.region = r) && e.rect == q && e.write == w) = some e) → e.slot = n → s.tregion? r = some x → ((x.recs.any fun y => y.launch == t.launch && decide (y.team = t.team ∧ y.slot = n) && !y.oneShot) = false) → x.live = true → s.recRoom r = false → exec (.tenureRequest t r q w) s = .next ((s.onThread t fun y => { y with run := .parked (.tenure n (tr + 1)) f }).after (retryAfter (tr + 1)) (.tenureRequest t r q w))) ∧
  (∀ (t : ThrId) (r : Nat) (q : Rect) (w : Bool) (n tr : Nat) (f : Finish) (e : TenEntry) (x : TRegion), s.runOf t = some (.parked (.tenure n tr) f) → ((s.teamCore? t.launch t.team).bind (fun c => c.tenures.find? fun e => !e.held && decide (e.region = r) && e.rect == q && e.write == w) = some e) → e.slot = n → s.tregion? r = some x → ((x.recs.any fun y => y.launch == t.launch && decide (y.team = t.team ∧ y.slot = n) && !y.oneShot) = false) → x.live = true → s.recRoom r = true → x.grants q w = false → exec (.tenureRequest t r q w) s = .next ((s.setTregion r fun x => { x with recs := x.recs ++ [{ launch := t.launch, team := t.team, thr := t.thr, slot := n, rect := q, write := w, held := false }] }))) ∧
  (∀ (t : ThrId) (r : Nat) (q : Rect) (w : Bool) (n tr : Nat) (f : Finish) (e : TenEntry) (x : TRegion), s.runOf t = some (.parked (.tenure n tr) f) → ((s.teamCore? t.launch t.team).bind (fun c => c.tenures.find? fun e => !e.held && decide (e.region = r) && e.rect == q && e.write == w) = some e) → e.slot = n → s.tregion? r = some x → ((x.recs.any fun y => y.launch == t.launch && decide (y.team = t.team ∧ y.slot = n) && !y.oneShot) = false) → x.live = true → s.recRoom r = true → x.grants q w = true → exec (.tenureRequest t r q w) s = .next (((s.setTregion r fun x => { x with recs := x.recs ++ [{ launch := t.launch, team := t.team, thr := t.thr, slot := n, rect := q, write := w, held := true }] }).onTeam t.launch t.team fun s c => ({ c with tenures := Machine.update (fun x => decide (x.slot = n)) (fun x => { x with held := true }) c.tenures }, s)).resume t fun y => { y with granted := true })) ∧
  (∀ (t : ThrId) (r : Nat) (q : Rect) (e : TenEntry), ((s.teamCore? t.launch t.team).bind (fun c => c.tenureOn r q) = some e) → exec (.tenureRelease t r q) s = .next ((s.onTeam t.launch t.team fun s c => ({ c with tenures := c.tenures.filter fun x => decide (x.slot ≠ e.slot) }, s)).releaseTenure t.launch t.team r e.slot)) ∧
  (∀ (t : ThrId) (r : Nat) (q : Rect), ((s.teamCore? t.launch t.team).bind (fun c => c.tenureOn r q) = none) → exec (.tenureRelease t r q) s = .next (s)) ∧
  (∀ (t : ThrId) (r : Nat) (q : Rect) (w : Bool) (tr : Nat) (f : Finish), s.runOf t = some (.parked (.oneShot r tr) f) → s.tregion? r = none → exec (.tenureRequest t r q w) s = .next (s.resume t)) ∧
  (∀ (t : ThrId) (r : Nat) (q : Rect) (w : Bool) (tr : Nat) (f : Finish) (x : TRegion), s.runOf t = some (.parked (.oneShot r tr) f) → s.tregion? r = some x → ((x.recs.any fun y => y.shotOf t) = true) → exec (.tenureRequest t r q w) s = .next (s)) ∧
  (∀ (t : ThrId) (r : Nat) (q : Rect) (w : Bool) (tr : Nat) (f : Finish) (x : TRegion), s.runOf t = some (.parked (.oneShot r tr) f) → s.tregion? r = some x → ((x.recs.any fun y => y.shotOf t) = false) → s.recRoom r = true → exec (.tenureRequest t r q w) s = .next ((s.setTregion r fun x => { x with recs := x.recs ++ [{ launch := t.launch, team := t.team, thr := t.thr, slot := 0, rect := q, write := w, held := false, oneShot := true }] }).serveQueue r)) ∧
  (∀ (t : ThrId) (r : Nat) (q : Rect) (w : Bool) (tr : Nat) (f : Finish) (x : TRegion), s.runOf t = some (.parked (.oneShot r tr) f) → s.tregion? r = some x → ((x.recs.any fun y => y.shotOf t) = false) → s.recRoom r = false → exec (.tenureRequest t r q w) s = .next ((s.onThread t fun y => { y with run := .parked (.oneShot r (tr + 1)) {} }).after (retryAfter (tr + 1)) (.tenureRequest t r q w))) ∧
  (∀ (t : ThrId) (r : Nat) (q : Rect) (w : Bool) (tr : Nat) (f : Finish) (x : TRegion), s.runOf t = some (.parked (.oneShot r tr) f) → s.tregion? r = some x → ((x.recs.any fun y => y.oneShot && y.launch == t.launch && decide (y.team = t.team ∧ y.thr = t.thr)) = true) → exec (.oneShotAccess t r q w) s = .next (s)) ∧
  (∀ (t : ThrId) (r : Nat) (q : Rect) (w : Bool) (tr : Nat) (f : Finish) (x : TRegion), s.runOf t = some (.parked (.oneShot r tr) f) → s.tregion? r = some x → ((x.recs.any fun y => y.oneShot && y.launch == t.launch && decide (y.team = t.team ∧ y.thr = t.thr)) = false) → exec (.oneShotAccess t r q w) s = .next ((s.setTregion r fun x => { x with recs := x.recs ++ [{ launch := t.launch, team := t.team, thr := t.thr, slot := 0, rect := q, write := w, held := false, oneShot := true }] }).serveQueue r)))

/-- Whatever the state, every row of the opcode table and every step answers a next state: no data, mode or order of messages stops the machine (the spec gives each case an effect, a trap, a record or an answer). The model's own readings that it rests on: log 3. -/
def Obligations.EveryStepAnswers : Prop := ∀ s : State,
  (∀ i : Instr, ∃ t, exec i s = .next t) ∧
  (∃ t, step s = .next t)

/-- R15, R132, R133, R272: a step takes the oldest message or input; else a timer that is due; else the first ready slot in issue order: it fetches the words at the PC, decodes them, and is `exec` of that instruction at the machine after the fetch, then `issued` moves the issue pointer past the slot; an instruction that cannot proceed this cycle leaves the turn to the next ready slot; words that do not decode are the step of an unallocated encoding; with nothing ready the cycle is idle. A base word is fetched from the bytes at the PC in the fetch buffer or a cached line. What a fetch asks of a service or a launch is no issue: the pointer stays. The order of messages, timers and issue is the model's (log 3). The model's own readings that it rests on: log 3, 9, 10. -/
def Obligations.StepRunsDecoded : Prop := ∀ s : State,
  (∀ (e : Instr) (rest : List Instr), s.events = e :: rest → step s = exec e { s with events := rest, stalled := false }) ∧
  (∀ (due : Nat) (e : Instr) (rest : List (Nat × Instr)), s.events = [] → s.timers = (due, e) :: rest → due ≤ s.now →
    step s = exec e { s with timers := rest, stalled := false }) ∧
  (s.events = [] → (∀ x ∈ s.timers.head?, s.now < x.1) → s.candidates = [] → step s = .next s.idle) ∧
  (∀ (c t : Nat) (rest : List (Nat × Nat)) (m m1 : M) (ws : List W32) (i : Instr) (u : State), s.events = [] → (∀ x ∈ s.timers.head?, s.now < x.1) →
    s.candidates = (c, t) :: rest → s.selected c t = some m → m.fetchInstr = .ok (m1, ws) → decodeWords ws = .ok i →
    exec i { m1.flush with cur := (c, t) } = .next u → step s = if u.stalled then issue rest { u with stalled := false } else if notIssued i then .next { u with now := u.now + 1 } else .next (u.issued c t)) ∧
  (∀ (c t : Nat) (rest : List (Nat × Nat)) (m m1 : M) (ws : List W32) (e : EncFault) (u : State), s.events = [] → (∀ x ∈ s.timers.head?, s.now < x.1) →
    s.candidates = (c, t) :: rest → s.selected c t = some m → m.fetchInstr = .ok (m1, ws) → decodeWords ws = .error e →
    exec (.unallocatedEncoding e) { m1.flush with cur := (c, t) } = .next u → step s = if u.stalled then issue rest { u with stalled := false } else .next (u.issued c t)) ∧
  (∀ (m : M) (h : BitVec 256) (w : W32), m.thr.pc.tag = true → m.thr.pc.kind = 0 → m.thr.pc.perm permEX = true → m.thr.pc.base ≤ m.thr.pc.cursor.toNat →
    m.thr.pc.cursor.toNat + 4 ≤ m.thr.pc.top → m.thr.pc.cursor.toNat % 4 = 0 →
    m.thr.fbuf = some (m.thr.pc.cursor.toNat % 2 ^ 56 / 32, h) →
    w = BitVec.ofNat 32 (sliceBytes h.toNat (m.thr.pc.cursor.toNat % 32) 4) → w.extractLsb' 0 2 = 0 → m.fetchInstr = .ok (m, [w])) ∧
  (∀ (m : M) (l : ICLine) (w : W32), m.thr.pc.tag = true → m.thr.pc.kind = 0 → m.thr.pc.perm permEX = true → m.thr.pc.base ≤ m.thr.pc.cursor.toNat →
    m.thr.pc.cursor.toNat + 4 ≤ m.thr.pc.top → m.thr.pc.cursor.toNat % 4 = 0 →
    m.thr.fbuf = none → m.core.icache.find? (fun l => decide (l.va = m.thr.pc.cursor.toNat % 2 ^ 56 / 64)) = some l →
    w = (m.fetchFrom m.thr.pc.cursor.toNat l).2 → w.extractLsb' 0 2 = 0 → m.fetchInstr = .ok ((m.fetchFrom m.thr.pc.cursor.toNat l).1, [w]))

/-- R273–R286: words written out bit by bit from the field tables, and the spec's worked examples (`amo.add.mod`, `vfma.f32`, `cas.d.ar.mod`, the guarded pair, `ld.d.acq.die`), decode to their instructions, one of each format and of each extended major; a word of a reserved major is illegal. -/
def Obligations.DecodeWords : Prop := decodeWords [0b00000100001000000100001100000100] = .ok (.sub 3 1 2) ∧
  decodeWords [0b00111100000000010000010100001000] = .ok (.addi 5 4 0x3C0) ∧
  decodeWords [0b00001000011100011000001000010000] = .ok (.clt 2 6 7) ∧
  decodeWords [0b00000000011000010100011100011100] = .ok (.cbnd 7 5 6) ∧
  decodeWords [0b01001000110100010100100100100000] = .ok (.mvi 9 0x12345) ∧
  decodeWords [0b11111110101100010000100001000000] = .ok (.ld 8 4 3 1 0x7F) ∧
  decodeWords [0b00000000001000010000100001001100] = .ok (.ldfeWfe 8 4 0 0) ∧
  decodeWords [0x80614754] = .ok (.amoAdd 7 5 6 4) ∧
  decodeWords [0b11111111111111111000101001100000] = .ok (.bk 2 true 0x3FFFE) ∧
  decodeWords [0b11111111111111101100110001100100] = .ok (.bgez 12 0x7FFF) ∧
  decodeWords [0b00000000000000010000000001101100] = .ok (.call 0x100) ∧
  decodeWords [0b00001000001000000100010001111100] = .ok (.mfs 4 0x042) ∧
  decodeWords [0x00D18084] = .ok (.vfma 0 0 6 13) ∧
  decodeWords [0b00000110001000010110100010100000] = .ok (.vld 40 5 2 0 3) ∧
  decodeWords [0b00001000100000011100011011000000] = .ok (.tinfo 6 7 8) ∧
  decodeWords [0b00001000001000000000000111000100] = .ok (.qstat 1 2) ∧
  decodeWords [0x40104411, 0x00D18084] = .ok (.pairWord { gp := false, gk := 2, sop := 16, d := 4, a := 4, b := 0x40 } (.vfma 0 0 6 13)) ∧
  decodeWords [0x00010842, 0x000B00C0, 0x00012340] = .ok (.widenedForm { sc := 3, ord := 1, imm := 0x12340 } (.ld 8 4 3 0 0)) ∧
  decodeWords [0b00000000000000000000100100100011, 0, 0, 0x89ABCDEF, 0x01234567] = .ok (.literalForm {} 0x0123456789ABCDEF (.mvi 9 0)) ∧
  decodeWords [0x248147EA, 0x031C000B, 0x00000008] = .ok (.cas { d := 7, a := 5, x := { b := 8, c := 9, e := 11, sc := 4, ord := 3, t2 := 3, imm := 8 }, lit := none }) ∧
  decodeWords [0b00100000011000010100011111101110, 0b00000000000000000000000000000000, 0] = .ok (.cp { d := 7, a := 5, x := { b := 6, c := 8 }, lit := none }) ∧
  decodeWords [0b00000000000000010100011111110010, 0b00000011000000000000000000000000, 0] = .ok (.rld { d := 7, a := 5, x := { t2 := 3 }, lit := none }) ∧
  decodeWords [0b00000000011000010100000011100110, 0b00000000000000000000000111000000, 0] = .ok (.tten { d := 0, a := 5, x := { b := 6 }, lit := none }) ∧
  decodeWords [0b00000000000000000000000111100010, 0b00000000000000000000000101000000, 0] = .ok (.mzero { d := 1, a := 0, x := {}, lit := none }) ∧
  decodeWords [0b00000000000000010100011111111010, 0b00000000000000000000000000000000, 0] = .ok (.launch { d := 7, a := 5, x := {}, lit := none }) ∧
  decodeWords [0b00000000000000010100000011110110, 0b00000000000000000000000010000000, 0] = .ok (.mighint { d := 0, a := 5, x := {}, lit := none }) ∧
  decodeWords [0b10, 0, 0] = .error .illegal ∧
  decodeWords [0] = .error .illegal ∧
  decodeWords [0b00000000000000000000000011111100] = .error .illegal

/-- R272–R283: for every well-formed instruction of every format (base, pair, widened, literal and extended-only words, with every operand at every value its encoding admits), the words of its encoding decode to it. The model's own readings that it rests on: log 16. -/
def Obligations.EncodeDecode : Prop := ∀ i : Instr,
  wellFormed i = true → decodeWords (encode i) = .ok i

/-- R132, R144, R148, R236, R281: before an instruction has any effect, in this order: an absent vector register traps `REG_ABSENT` with its number; a pending register or a queue that is not ready keeps it from issuing; a false K gate lets it commit without effect; a system-mode operation in user mode traps `PRIVILEGE` 0, a write of a register that no mode writes `PRIVILEGE` 3, a matrix operation of a launch without MATRIX traps `MATRIX` 1. With a mismatch armed the checker decides first (R159; log 7). The operations of system mode only are those of R234, R316 and R342. The model's own readings that it rests on: log 9. -/
def Obligations.ChecksBeforeEffect : Prop := (∀ (i : Instr) (s : State) (m0 m : M), i.hasWords = true → enter i s = some m0 → m = m0.fresh →
  (∀ n : Nat, (fieldsOf i).findSome? (fun u => (useVreg u).bind fun n => if n < 6 * m.core.vrows ∨ m.thr.oldRows.isSome then none else some n) = some n → m.core.sundog = 0 → exec i s = .next (trapped m 0x12 (BitVec.ofNat 64 n))) ∧
  (∀ n : Nat, (fieldsOf i).findSome? (fun u => (useVreg u).bind fun n => if n < 6 * m.core.vrows ∨ m.thr.oldRows.isSome then none else some n) = some n → m.core.sundog ≠ 0 → exec i s = .next m0.mismatch) ∧
  ((fieldsOf i).findSome? (fun u => (useVreg u).bind fun n => if n < 6 * m.core.vrows ∨ m.thr.oldRows.isSome then none else some n) = none → m.deferredBy (fieldsOf i) = none → (ownUses i (fieldsOf i)).any m.pendingUse = true ∨ m.queueWait (fieldsOf i) = true →
    exec i s = .next { m0.flush with stalled := true }) ∧
  (MayIssue i m → gatedOff m i = true → m.core.sundog = 0 → exec i s = .next (committed i m m)) ∧
  (m.core.sundog = 0 → MayIssue i m → m.thr.pendTrap = none → gatedOff m i = false → sysOnly i = true → m.thr.sys = false → exec i s = .next (trapped m 0x03 (0))) ∧
  (m.core.sundog = 0 → MayIssue i m → m.thr.pendTrap = none → gatedOff m i = false → (sysOnly i = true → m.thr.sys = true) → readOnlySr i = true → exec i s = .next (trapped m 0x03 (3))) ∧
  (m.core.sundog = 0 → MayIssue i m → m.thr.pendTrap = none → gatedOff m i = false → isMatrix i = true → m.core.lrec.matrix = false → exec i s = .next (trapped m 0x15 (1)))) ∧
  (∀ (o : XOp) (a b d : F6) (n : BitVec 12), (∀ j ∈ [.eret, .tlbinv a b, .rkreg o, .rkrev o, .mighint o, .pgpin o, .pgret o, .logring o, .keyset o, .coreseal o], sysOnly j = true) ∧
    (sysOnly (.mfs d n) = true ↔ 0x060 ≤ n.toNat ∧ n.toNat ≤ 0x064) ∧ (sysOnly (.mts d n) = true ↔ (0x060 ≤ n.toNat ∧ n.toNat ≤ 0x065) ∨ n.toNat = 0x080) ∧ (isMatrix (.mmul o) = true ∧ isMatrix (.mcmd o) = true ∧ isMatrix (.mwait o) = true))

/-- R15, R233, R236: taking a trap saves the PC, cause, value and instruction word, sets SYS and INTRAP with PSYS the old SYS, and goes to the context's CODECAP at TRAPVEC; every register, the memory and the other threads are as before; inside a handler it is a double trap: the thread stops, its trap registers stand, and its launch is terminated with reason 3. -/
def Obligations.TrapEntry : Prop := ∀ (m : M) (c0 : Core) (cause : BitVec 8) (val : W64), m.st.core? m.core.id = some c0 →
  (m.thr.status.getLsbD 2 = false → ∃ k : Core, (m.takeTrap cause val).flush.core? m.core.id = some k ∧ (k.thr.get m.tid).trappc = m.thr.pc ∧ (k.thr.get m.tid).trapcause = cause.setWidth 64 ∧
    (k.thr.get m.tid).trapval = val ∧ (k.thr.get m.tid).trapins = m.ins.setWidth 64 ∧ (k.thr.get m.tid).status.getLsbD 0 = true ∧
    (k.thr.get m.tid).status.getLsbD 1 = m.thr.status.getLsbD 0 ∧ (k.thr.get m.tid).status.getLsbD 2 = true ∧ (k.thr.get m.tid).status >>> 3 = 0 ∧
    (k.thr.get m.tid).pc = m.core.desc.codecap.setCursor m.thr.trapvec ∧ (k.thr.get m.tid).run = m.thr.run ∧ (k.thr.get m.tid).trapvec = m.thr.trapvec ∧
    (k.thr.get m.tid).c = m.thr.c ∧ (k.thr.get m.tid).v = m.thr.v ∧ (k.thr.get m.tid).k = m.thr.k ∧ (k.thr.get m.tid).m = m.thr.m ∧ (k.thr.get m.tid).q = m.thr.q ∧
    (k.thr.get m.tid).fpctl = m.thr.fpctl ∧ (k.thr.get m.tid).fpflags = m.thr.fpflags ∧ (k.thr.get m.tid).lcount = m.thr.lcount ∧
    k.w = m.core.w ∧ k.z = m.core.z ∧ k.mem = m.core.mem ∧ (∀ u, u ≠ m.tid → k.thr.get u = m.core.thr.get u) ∧
    (m.takeTrap cause val).flush.mem = m.st.mem ∧ (m.takeTrap cause val).flush.events = m.st.events ∧
    (∀ n, n ≠ m.core.id → (m.takeTrap cause val).flush.core? n = m.st.core? n)) ∧
  (m.thr.status.getLsbD 2 = true → ∃ k : Core, (m.takeTrap cause val).flush.core? m.core.id = some k ∧ (k.thr.get m.tid).run = .halted ∧
    (k.thr.get m.tid).trappc = m.thr.trappc ∧ (k.thr.get m.tid).trapcause = m.thr.trapcause ∧ (k.thr.get m.tid).trapval = m.thr.trapval ∧
    (k.thr.get m.tid).trapins = m.thr.trapins ∧ (k.thr.get m.tid).status = m.thr.status ∧
    (m.takeTrap cause val).flush.events = m.st.events ++ [.launchTermination m.core.launch 3 0x10 none])

/-- R15, R142, R147, R259, R272, R312: what the commit of any instruction adds to its effect `m`: raised flags are kept in FPFLAGS, the PC moves (with the loop counts), queue entries that were read are taken and operand latches follow; every other register of the thread, every other thread, the core with its local memory, and the module with its memory and caches are as the effect left them, but for packets and messages sent. -/
def Obligations.CommitFrame : Prop := ∀ (i : Instr) (m0 m : M) (c0 : Core), m.st.core? m.core.id = some c0 →
  ∃ k : Core, (committed i m0 m).core? m.core.id = some k ∧
    ThreadSame { m.thr with fpflags := m.thr.fpflags ||| m.flags.setWidth 64 } (k.thr.get m.tid) ∧ (∀ x : Fin 8, x ≠ m.tid → k.thr.get x = m.core.thr.get x) ∧
    { k with thr := m.core.thr, vbusy := m.core.vbusy, vpipe := m.core.vpipe, sundogC := m.core.sundogC } = m.core ∧ (isVector i = false → { k with thr := m.core.thr } = m.core) ∧
    ModuleSame m.st (committed i m0 m) ∧ (∀ n, n ≠ m.core.id → (committed i m0 m).core? n = m.st.core? n)

/-- R13, R137: the frame of the register-only scalar instructions: an instruction that writes a scalar register D leaves every other `c` and `w` register as it was (all of them where D is `c0`, whose write is discarded, or a queue register, whose entry goes to its channel), and with it every mask, vector, modulo, special and trap register, every other thread but for queue entries, local memory, every byte of the module's memory and caches, and every other core; one that writes a mask register changes that mask alone. -/
def Obligations.RegisterFrame : Prop := ∀ (s : State) (m : M),
  (∀ (d a b : F6) (imm : BitVec 10) (p l : BitVec 5) (i18 : BitVec 18) (k x y : BitVec 3) (i : Instr), i ∈ [.add d a b, .sub d a b, .and d a b, .or d a b, .xor d a b, .andn d a b, .orn d a b, .sll d a b, .srl d a b, .sra d a b, .rol d a b, .min d a b, .max d a b, .minu d a b, .maxu d a b, .mul d a b, .mulh d a b, .mulhu d a b, .div d a b, .divu d a b, .rem d a b, .remu d a b, .clz d a, .ctz d a, .popc d a, .sext d a b, .zext d a b, .addi d a imm, .andi d a imm, .ori d a imm, .xori d a imm, .slli d a b, .srli d a b, .srai d a b, .roli d a b, .bfx d a p l, .bfxs d a p l, .bfi d a p l, .bfclr d a p l, .mvi d i18, .adr d i18, .mov d a, .kpop d k, .kmovk d k, .kfirst d k, .cbase d a, .clen d a, .cperm d a, .ctype d a, .ctag d a, .cclr d a, .capCeq d a b, .csub d a b] → Issues i s m →
    ∃ (v : Cap) (t : State) (k : Core), exec i s = .next t ∧ t = committed i m (m.wr d v) ∧ t.core? m.core.id = some k ∧
    (∀ r : Fin 32, r.val ≠ d.toNat ∨ d = 0 → (k.thr.get m.tid).c.get r = m.thr.c.get r) ∧ ThreadSame { m.thr with c := (k.thr.get m.tid).c } (k.thr.get m.tid) ∧
    (∀ r : Fin 16, r.val + 32 ≠ d.toNat → k.w.get r = m.core.w.get r) ∧ OthersSame m.tid m.core k ∧ { k with thr := m.core.thr, w := m.core.w } = m.core ∧
    ModuleSame m.st t ∧ (∀ n, n ≠ m.core.id → t.core? n = m.st.core? n)) ∧
  (∀ (d a b : F6) (imm : BitVec 10) (p l : BitVec 5) (i18 : BitVec 18) (k x y : BitVec 3) (i : Instr), i ∈ [.ceq k a b, .cne k a b, .clt k a b, .cge k a b, .cltu k a b, .cgeu k a b, .ctst k a b, .kand k x y, .kor k x y, .kxor k x y, .knot k x, .kmovc k a] → Issues i s m →
    ∃ (v : W64) (t : State) (c : Core), exec i s = .next t ∧ t = committed i m (m.setMask k v) ∧ t.core? m.core.id = some c ∧
    ThreadSame { m.thr with k := m.thr.k.set k.toFin v } (c.thr.get m.tid) ∧ (∀ u : Fin 8, u ≠ m.tid → c.thr.get u = m.core.thr.get u) ∧
    { c with thr := m.core.thr } = m.core ∧ ModuleSame m.st t ∧ (∀ n, n ≠ m.core.id → t.core? n = m.st.core? n))

/-- R7, R41, R162, R319, R322: a store of any size to local memory below the register window, and `stfe.keep`, store the register's bytes at the operand's address; every byte outside them, every full/empty bit, the tags of other granules, every register but an updated base, the other threads, the module's memory and caches and every other core stay; a 16-byte store sets the granule's tag; the local memory keeps its canonical form. -/
def Obligations.LocalStoreFrame : Prop := ∀ (s : State) (m : M),
  (∀ (d a : F6) (sz : BitVec 3) (am : BitVec 2) (ea : BitVec 7) (i : Instr) (r : MRef) (n : Nat) (v : Cap), (i = .st d a sz am ea ∧ n = szBytes sz ∧ v = m.src d) ∨ (i = .stfeKeep d a am ea ∧ n = 8 ∧ v = Cap.ofInt (m.int d)) →
    r = m.ref none a am ea n → LocalOk m r (if n = 16 ∧ v.tag then [.st, .tgw] else [.st]) n → m.acqPending = false → r.va + n ≤ 0x3C000 → m.core.mem.wf = true → Issues i s m →
    ∃ (t : State) (k : Core), exec i s = .next t ∧ t.core? m.core.id = some k ∧ (∀ x, x < r.va ∨ r.va + n ≤ x → k.mem.byte x = m.core.mem.byte x) ∧ k.mem.read r.va n = v.bits.toNat % 2 ^ (8 * n) ∧
    (∀ x, k.mem.full x = m.core.mem.full x) ∧ (∀ x, (x / 16 < r.va / 16 ∨ (r.va + n - 1) / 16 < x / 16) → k.mem.tag x = m.core.mem.tag x) ∧ (n = 16 → k.mem.tag r.va = v.tag) ∧ k.mem.wf = true ∧
    (∀ x : Fin 32, x.val ≠ a.toNat ∨ r.ad.upd = none → (k.thr.get m.tid).c.get x = m.thr.c.get x) ∧ (∀ x : Fin 16, x.val + 32 ≠ a.toNat ∨ r.ad.upd = none → k.w.get x = m.core.w.get x) ∧
    ThreadSame { m.thr with c := (k.thr.get m.tid).c } (k.thr.get m.tid) ∧ OthersSame m.tid m.core k ∧ CoreSame m.core k ∧ ModuleSame m.st t ∧ (∀ y, y ≠ m.core.id → t.core? y = m.st.core? y))

/-- R13, R14, R161, R235, R319: a load or store through a capability operand traps, in this order, on an untagged capability, a wrong type, a missing permission (each with the operand's field), bytes outside the bounds (with the first byte outside), and an unaligned address; the trap leaves everything but the trap state as it was (TrapEntry). -/
def Obligations.AccessChecks : Prop := ∀ (s : State) (m : M) (i : Instr) (d a : F6) (sz : BitVec 3) (am : BitVec 2) (ea : BitVec 7) (ps : List Perm) (r : MRef), (i = .ld d a sz am ea ∧ ps = [.ld]) ∨ (i = .lds d a sz am ea ∧ ps = [.ld]) ∨ (i = .st d a sz am ea ∧ m.restart = false ∧ ps = if szBytes sz = 16 ∧ (m.src d).tag then [.st, .tgw] else [.st]) →
  r = m.ref none a am ea (szBytes sz) → Issues i s m →
  (r.c.tag = false → Traps i s m 0x04 (a.setWidth 64)) ∧
  (r.c.tag = true → r.c.kind ≠ 0 → r.c.kind ≠ 1 → r.c.kind ≠ 6 → Traps i s m 0x07 (a.setWidth 64)) ∧
  (r.c.tag = true → r.c.kind = 0 ∨ r.c.kind = 1 ∨ r.c.kind = 6 → ps.all (capHas r.c) = false → Traps i s m 0x06 (a.setWidth 64)) ∧
  (r.c.tag = true → r.c.kind = 0 ∨ r.c.kind = 1 → ps.all (capHas r.c) = true → r.va < r.c.base ∨ r.c.top ≤ r.va → Traps i s m 0x05 (BitVec.ofNat 64 r.va)) ∧
  (r.c.tag = true → r.c.kind = 0 ∨ r.c.kind = 1 → ps.all (capHas r.c) = true → r.c.base ≤ r.va ∧ r.va < r.c.top → r.c.top < r.va + szBytes sz → Traps i s m 0x05 (BitVec.ofNat 64 r.c.top)) ∧
  (r.c.tag = true → r.c.kind = 0 ∨ r.c.kind = 1 → ps.all (capHas r.c) = true → r.c.base ≤ r.va ∧ r.va + szBytes sz ≤ r.c.top → r.va % szBytes sz ≠ 0 → Traps i s m 0x08 (BitVec.ofNat 64 r.va))

/-- R306, R307, R308: no capability instruction makes a tagged capability that admits more than its operand: `cadd` and `cset` keep the bounds, permissions and type, `cprm` only clears permissions, `cbnd` and `cbndx` stay within the operand's bounds or trap `CAP_BOUNDS`, `cclr` gives no tag; and each result spells bounds in the address space, the invariant that `SoundCap` states of the operand. The model's own readings that it rests on: log 18. -/
def Obligations.CapabilitiesNeverWiden : Prop := ∀ (s : State) (m : M),
  (∀ (d a b : F6), SoundCap (m.src a) → ((m.src a).tag = true → (m.src a).kind ∈ [0, 1, 3, 6]) → Issues (.cadd d a b) s m →
    ∃ r : Cap, Completes (.cadd d a b) s m (m.wr d r) ∧ r.ty = (m.src a).ty ∧ NotWider r (m.src a) ∧ (r.tag = true → SoundCap r)) ∧
  (∀ (d a b : F6), SoundCap (m.src a) → ((m.src a).tag = true → (m.src a).kind ∈ [0, 1, 3, 6]) → Issues (.cset d a b) s m →
    ∃ r : Cap, Completes (.cset d a b) s m (m.wr d r) ∧ r.ty = (m.src a).ty ∧ NotWider r (m.src a) ∧ (r.tag = true → SoundCap r)) ∧
  (∀ (d a b : F6), SoundCap (m.src a) → ((m.src a).tag = true → (m.src a).kind ∈ [0, 1, 2, 3, 5, 6]) → Issues (.cprm d a b) s m →
    ∃ r : Cap, Completes (.cprm d a b) s m (m.wr d r) ∧ r.ty = (m.src a).ty ∧ NotWider r (m.src a) ∧ SoundCap r) ∧
  (∀ (d a b : F6), (m.src a).tag = true → (m.src a).kind ∈ [0, 1] → Issues (.cbnd d a b) s m →
    (∃ r : Cap, Completes (.cbnd d a b) s m (m.wr d r) ∧ r.ty = (m.src a).ty ∧ NotWider r (m.src a) ∧ (r.tag = true → SoundCap r)) ∨ (∃ v : W64, Traps (.cbnd d a b) s m 0x05 v)) ∧
  (∀ (d a b : F6), (m.src a).tag = true → (m.src a).kind ∈ [0, 1] → Issues (.cbndx d a b) s m →
    (∃ r : Cap, Completes (.cbndx d a b) s m (m.wr d r) ∧ r.ty = (m.src a).ty ∧ NotWider r (m.src a) ∧ (r.tag = true → SoundCap r)) ∨ (∃ v : W64, Traps (.cbndx d a b) s m 0x05 v)) ∧
  (∀ (d a : F6), Issues (.cclr d a) s m → ∃ r : Cap, Completes (.cclr d a) s m (m.wr d r) ∧ r.tag = false)

/-- R25, R33, R47, R50, R75, R88, R95, R111, R171, R251: the registers of the module and of its dies at the values the spec gives for reset; the main rails are off and no core is bound; memory reads as zero, full, untagged and clean, as R32 initialises it (the bytes of CXL memory, which R32 does not initialise, read as zero by log 2, and `MSTAT`.THERM and the CCCFG of a factory module are those of log 1), in canonical form. The model's own readings that it rests on: log 1, 41, 42. -/
def Obligations.ResetValues : Prop := (State.reset.power = false ∧ State.reset.plim = 3000 ∧ State.reset.modid = 0xFFFF ∧ State.reset.cccur = 2 ∧ State.reset.ccnext = 2 ∧ State.reset.mstat = 0 ∧ State.reset.ctxtb = 0) ∧
  (∀ i : Fin 64, State.reset.hctx.get i = 0) ∧
  (∀ d : Nat, fieldOf (State.reset.die d).dctl 28 24 = 16 ∧ fieldOf (State.reset.die d).dctl 3 0 = 3 ∧ fieldOf (State.reset.die d).dthr 23 16 = 10 ∧ fieldOf (State.reset.die d).dthr 15 8 = 4 ∧
    fieldOf (State.reset.die d).dthr 7 0 = 64 ∧ (State.reset.die d).dftb = 0 ∧ fieldOf (State.reset.die d).rtctl 31 12 = 100 ∧ fieldOf (State.reset.die d).rtctl 47 32 = 1000 ∧
    (State.reset.die d).l2cfg = 0 ∧ (State.reset.die d).herr = 0 ∧ (State.reset.die d).fqbase = 0 ∧ (State.reset.die d).fqhead = 0 ∧ (State.reset.die d).fqtail = 0 ∧ (State.reset.die d).fqctl = 0) ∧
  (∀ a : Nat, State.reset.mem.byte a = 0 ∧ State.reset.mem.full a = true ∧ State.reset.mem.tag a = false ∧ State.reset.mem.bad a = false) ∧
  (MemoryOk State.reset ∧ State.reset.cores = [])

end
end

