-- ==== Sys2Proof/Laws/Caps.lean ====
section
/-!
SUPPORT. Fields and bounds of capabilities (R306–R308).
-/
namespace Sys2Proof.Machine
open Sys2Proof Sys2Proof.Safety

theorem setField_bit (x : W128) (lo n v i : Nat) (hi : i < 128) : (setField x lo n v).getLsbD i = if lo ≤ i ∧ i < lo + n then v.testBit (i - lo) else x.getLsbD i := by
  simp only [setField, BitVec.getLsbD_or, BitVec.getLsbD_and, BitVec.getLsbD_not, BitVec.getLsbD_ofNat, hi, decide_true, Bool.true_and]
  rw [← Nat.shiftLeft_eq, ← Nat.shiftLeft_eq, Nat.testBit_shiftLeft, Nat.testBit_shiftLeft, Nat.testBit_two_pow_sub_one, Nat.testBit_mod_two_pow]
  by_cases h1 : lo ≤ i
  · by_cases h2 : i < lo + n
    · have h3 : i - lo < n := by omega
      simp [h1, h2, h3]
    · have h3 : ¬ i - lo < n := by omega
      simp [h2, h3]
  · simp [h1]

theorem setField_out (x : W128) (lo n v p k : Nat) (hk : p + k ≤ 128) (h : p + k ≤ lo ∨ lo + n ≤ p) : (setField x lo n v).extractLsb' p k = x.extractLsb' p k := by
  apply BitVec.eq_of_getLsbD_eq
  intro i hi
  simp only [BitVec.getLsbD_extractLsb', hi, decide_true, Bool.true_and]
  rw [setField_bit _ _ _ _ _ (by omega), if_neg (by omega)]

theorem setField_in (x : W128) (lo n v : Nat) (hk : lo + n ≤ 128) : (setField x lo n v).extractLsb' lo n = BitVec.ofNat n v := by
  apply BitVec.eq_of_getLsbD_eq
  intro i hi
  simp only [BitVec.getLsbD_extractLsb', hi, decide_true, Bool.true_and, BitVec.getLsbD_ofNat]
  rw [setField_bit _ _ _ _ _ (by omega), if_pos (by omega), Nat.add_sub_cancel_left]

theorem cursor_ext (c : Cap) : c.cursor = c.bits.extractLsb' 0 64 := by
  unfold Cap.cursor Cap.int
  apply BitVec.eq_of_getLsbD_eq
  intro i hi
  simp [BitVec.getLsbD_extractLsb', hi]

/-- Sound fields decode to the bounds they spell (R306). -/
theorem bounds_sound {c : Cap} (h : c.exp ≤ 47) (h1 : 0 ≤ capLow c) (h2 : capHigh c ≤ 2 ^ 64) : (c.base : Int) = capLow c ∧ (c.top : Int) = capHigh c := by
  have hb : c.bounds = ((capLow c).toNat, (capHigh c).toNat) := by
    unfold Cap.bounds
    rw [if_neg (by omega), if_neg (by omega)]
    have e1 : (((c.cursor.toNat / 2 ^ (c.exp + 17) : Nat) : Int) - c.boff) * ((2 ^ (c.exp + 17) : Nat) : Int) + (c.bm : Int) * 2 ^ c.exp = capLow c := by
      unfold capLow; push_cast; rfl
    dsimp only
    rw [e1]
    have e2 : capLow c + (c.lm : Int) * 2 ^ c.exp = capHigh c := rfl
    rw [e2, if_neg (by omega)]
  have h3 : capLow c ≤ capHigh c := by
    have : (0 : Int) ≤ (c.lm : Int) * 2 ^ c.exp := by positivity
    unfold capHigh; omega
  unfold Cap.base Cap.top
  rw [hb]
  constructor <;> omega

theorem bounds_63 {c : Cap} (h : c.exp = 63) : c.base = 0 ∧ c.top = 2 ^ 64 := by
  unfold Cap.base Cap.top Cap.bounds; rw [if_pos h]; exact ⟨rfl, rfl⟩

theorem boff_of {x : W128} {d : Int} (h : -2 ≤ d) (h2 : d ≤ 1) (hx : x.extractLsb' 104 2 = BitVec.ofNat 2 (d % 4).toNat) : (x.extractLsb' 104 2).toInt = d := by
  rw [hx]
  have : d = -2 ∨ d = -1 ∨ d = 0 ∨ d = 1 := by omega
  rcases this with rfl | rfl | rfl | rfl <;> decide

theorem bm_small (c : Cap) : (c.bm : Int) * 2 ^ c.exp < 2 ^ (c.exp + 17) := by
  have : c.bm < 2 ^ 17 := (c.bits.extractLsb' 70 17).isLt
  have h : c.bm * 2 ^ c.exp < 2 ^ 17 * 2 ^ c.exp := Nat.mul_lt_mul_of_pos_right this (by positivity)
  rw [pow_add, mul_comm ((2 : Int) ^ c.exp)]
  exact_mod_cast h

theorem bm_nonneg (c : Cap) : (0 : Int) ≤ (c.bm : Int) * 2 ^ c.exp := by positivity

theorem div_low {B P : Nat} {q r : Int} (hb : (B : Int) = q * 2 ^ P + r) (h0 : 0 ≤ r) (h1 : r < 2 ^ P) : ((B / 2 ^ P : Nat) : Int) = q := by
  have hp : (0 : Int) < 2 ^ P := by positivity
  push_cast
  rw [hb, Int.add_comm, Int.add_mul_ediv_right _ _ (by omega), Int.ediv_eq_zero_of_lt h0 h1, Int.zero_add]

theorem permField_cases (c : Cap) : permField c.ty = (106, 12) ∨ (c.bounded = false ∧ (permField c.ty = (104, 8) ∨ permField c.ty = (112, 6) ∨ permField c.ty = (104, 2) ∨ permField c.ty = (0, 0))) := by
  have hlt : c.ty < 16 := (c.bits.extractLsb' 118 4).isLt
  unfold Cap.bounded
  generalize c.ty = n at *
  interval_cases n <;> decide

theorem leastExp_spec (b t : Nat) : ∀ fuel e, leastExp b t fuel e = 63 ∨ (leastExp b t fuel e < e + fuel ∧ ceilDiv t (leastExp b t fuel e) - b / 2 ^ leastExp b t fuel e ≤ 2 ^ 17 - 1)
  | 0, e => .inl rfl
  | n + 1, e => by
    unfold leastExp
    split
    · rename_i h; exact .inr ⟨by omega, h⟩
    · rcases leastExp_spec b t n (e + 1) with h | h
      · exact .inl h
      · exact .inr ⟨by omega, h.2⟩

theorem tagged_ok {a : F6} {c : Cap} {l : List Nat} (h : c.tag = true → l.contains c.kind = true) : typeIfTagged a c l = .ok () := by
  unfold typeIfTagged trapIf
  cases ht : c.tag
  · rfl
  · rw [h ht]; rfl

theorem prm_field (c : Cap) (b : Nat) : let p := permField c.ty
    let r : Cap := ⟨setField c.bits p.1 p.2 (c.permBits &&& b), c.tag⟩
    r.ty = c.ty ∧ r.permBits = c.permBits &&& b ∧ r.exp = c.exp ∧ r.bm = c.bm ∧ r.lm = c.lm ∧ r.cursor = c.cursor ∧ (c.bounded = true → r.boff = c.boff) := by
  intro p r
  have hp : p = (106, 12) ∨ (c.bounded = false ∧ (p = (104, 8) ∨ p = (112, 6) ∨ p = (104, 2) ∨ p = (0, 0))) := permField_cases c
  have hpos : (p.1 = 0 ∧ p.2 = 0 ∨ 104 ≤ p.1) ∧ p.1 + p.2 ≤ 118 := by
    rcases hp with h | ⟨-, h | h | h | h⟩ <;> rw [h] <;> decide
  have low : ∀ q k, q + k ≤ 104 → r.bits.extractLsb' q k = c.bits.extractLsb' q k := by
    intro q k hk
    rcases hpos.1 with ⟨h1, h2⟩ | h1
    · by_cases hq : q = 0
      · apply BitVec.eq_of_getLsbD_eq
        intro i hi
        show (BitVec.extractLsb' q k (setField c.bits p.1 p.2 _)).getLsbD i = _
        simp only [BitVec.getLsbD_extractLsb', hi, decide_true, Bool.true_and]
        rw [setField_bit _ _ _ _ _ (by omega), if_neg (by omega)]
      · exact setField_out _ _ _ _ _ _ (by omega) (by omega)
    · exact setField_out _ _ _ _ _ _ (by omega) (by omega)
  have hty : r.ty = c.ty := by
    unfold Cap.ty
    rw [show r.bits.extractLsb' 118 4 = c.bits.extractLsb' 118 4 from setField_out _ _ _ _ _ _ (by omega) (by omega)]
  refine ⟨hty, ?_, ?_, ?_, ?_, ?_, ?_⟩
  · have hlt : c.permBits < 2 ^ p.2 := (c.bits.extractLsb' p.1 p.2).isLt
    have e : r.permBits = (r.bits.extractLsb' p.1 p.2).toNat := by
      show (let (lo, n) := permField r.ty; (r.bits.extractLsb' lo n).toNat) = _
      rw [hty]
    rw [e, show r.bits.extractLsb' p.1 p.2 = BitVec.ofNat p.2 _ from setField_in _ _ _ _ (by omega), BitVec.toNat_ofNat]
    exact Nat.mod_eq_of_lt (Nat.lt_of_le_of_lt Nat.and_le_left hlt)
  · unfold Cap.exp; rw [low 64 6 (by omega)]
  · unfold Cap.bm; rw [low 70 17 (by omega)]
  · unfold Cap.lm; rw [low 87 17 (by omega)]
  · rw [cursor_ext, cursor_ext, low 0 64 (by omega)]
  · intro hb
    have h106 : p = (106, 12) := by
      rcases hp with h | ⟨hf, -⟩
      · exact h
      · rw [hb] at hf; exact absurd hf (by decide)
    unfold Cap.boff
    rw [show r.bits.extractLsb' 104 2 = c.bits.extractLsb' 104 2 from setField_out _ _ _ _ _ _ (by omega) (by rw [h106]; omega)]

theorem same_bounds {r c : Cap} (h1 : r.exp = c.exp) (h2 : r.bm = c.bm) (h3 : r.lm = c.lm) (h4 : r.cursor = c.cursor) (h5 : r.boff = c.boff) : r.bounds = c.bounds ∧ capLow r = capLow c ∧ capHigh r = capHigh c := by
  have hl : capLow r = capLow c := by unfold capLow; rw [h1, h2, h4, h5]
  refine ⟨?_, hl, by unfold capHigh; rw [hl, h1, h3]⟩
  unfold Cap.bounds; rw [h1, h2, h3, h4, h5]

end Sys2Proof.Machine
end

