-- ==== Sys2Proof/Laws/Run.lean ====
section
/-!
SUPPORT. What running an instruction does, once its checks have passed.
-/
namespace Sys2Proof.Machine
open Sys2Proof Sys2Proof.Safety

/-- The attempt of an instruction that issues is its body. -/
theorem attempt_eq {i : Instr} {body : Act} {m : M} (hg : gate i m = .ok ()) (hk : gatedOff m i = false) (ht : m.tokenHits i = []) :
    attempt i body m = body m := by
  simp [attempt, hg, hk, M.tokenFence, ht, bind, Except.bind]

theorem runInstr_completes {i : Instr} {body : Act} {s : State} {m m' : M} (h : Issues i s m) (hb : body m = .ok m') :
    runInstr i body s = .next (committed i m m') := by
  obtain ⟨m0, he, rfl, hg, hs, hk, ht⟩ := h
  have hs : m0.core.sundog = 0 := hs
  simp [runInstr, he, attempt_eq hg hk ht, hb, hs, committed]

theorem runInstr_stops {i : Instr} {body : Act} {s : State} {m : M} {e : Stop} (h : Issues i s m) (hb : body m = .error e)
    (hi : e.issues = true) : runInstr i body s = .next (bodyStop m e) := by
  obtain ⟨m0, he, rfl, hg, hs, hk, ht⟩ := h
  have hs : m0.core.sundog = 0 := hs
  simp [runInstr, he, attempt_eq hg hk ht, hb, hs, hi]

/-- A widened form has no literal. -/
theorem lit_widened {x : Ext} {i : Instr} {s : State} {m : M} (h : Issues (.widenedForm x i) s m) : m.lit = none := by
  obtain ⟨m0, he, rfl, -, -, -, -⟩ := h
  unfold enter at he
  split at he
  · cases he
  · simp only at he
    split at he
    · cases he; rfl
    · cases he

theorem lit_literal {x : Ext} {l : W64} {i : Instr} {s : State} {m : M} (h : Issues (.literalForm x l i) s m) : m.lit = some l := by
  obtain ⟨m0, he, rfl, -, -, -, -⟩ := h
  unfold enter at he
  split at he
  · cases he
  · simp only at he
    split at he
    · cases he; rfl
    · cases he

theorem M.imm_widened {m : M} (x : Ext) (b : W64) (h : m.lit = none) : m.imm (some x) b = x.imm.signExtend 64 := by simp [M.imm, h]
theorem M.imm_literal {m : M} {l : W64} (x : Ext) (b : W64) (h : m.lit = some l) : m.imm (some x) b = l := by simp [M.imm, h]

end Sys2Proof.Machine
end

