-- ==== Sys2Proof/Laws/Checks.lean ====
section
/-!
SUPPORT. The checks of an operand: when each passes.
-/
namespace Sys2Proof.Machine
open Sys2Proof Sys2Proof.Safety

theorem trapIf_false {c : BitVec 8} {v : W64} : trapIf false c v = .ok () := rfl
theorem stallIf_false : stallIf false = .ok () := rfl

theorem checkBounds_ok {c : Cap} {a n : Nat} (h1 : c.base ≤ a) (h2 : a + n ≤ c.top) : checkBounds c a n = .ok () := by
  unfold checkBounds
  split
  · rfl
  · split
    · rfl
    · rw [if_neg (by omega), if_neg (by omega)]

theorem checkCap_ok {f : F6} {c : Cap} {ts : List Nat} {ps : List Perm} (h1 : c.tag = true) (h2 : ts.contains c.kind = true)
    (h3 : ps.all (capHas c) = true) : checkCap f c ts ps = .ok () := by
  simp only [checkCap, h1, h2, h3, trapIf, Bool.not_true, Bool.false_eq_true, if_false, bind, Except.bind]

theorem checkAligned_ok {a n : Nat} (h : a % n = 0) : checkAligned a n = .ok () := by simp [checkAligned, h, trapIf]

theorem checkRef_local {m : M} {r : MRef} {ps : List Perm} {n : Nat} (h : LocalOk m r ps n) : checkRef r ps n = .ok () := by
  obtain ⟨h1, h2, h3, h4, h5, h6, -⟩ := h
  simp only [checkRef, checkCap_ok h1 (ts := [0, 1, 6]) (by simp [h2]) h3, checkBounds_ok h4 h5, checkAligned_ok h6, bind, Except.bind]

theorem winCheck_ok {m : M} {a n : Nat} (h1 : m.winAbsent a n = none) (h2 : m.winPending a n = false) : m.winCheck a n = .ok () := by
  simp only [M.winCheck, h1, h2, stallIf, Bool.false_eq_true, if_false, bind, Except.bind, pure, Except.pure]

theorem winCheck_local {m : M} {r : MRef} {ps : List Perm} {n : Nat} (h : LocalOk m r ps n) : m.winCheck r.va n = .ok () :=
  winCheck_ok h.2.2.2.2.2.2.1 h.2.2.2.2.2.2.2

theorem loadAt_local {m : M} {r : MRef} {ps : List Perm} {n : Nat} {regs : Bool} (h : LocalOk m r ps n) :
    m.loadAt r.c r.va n regs = .ok (m, m.localRead r.va n, n == 16 && m.localTag r.va) := by
  simp only [M.loadAt, h.2.1, if_true, winCheck_local h, bind, Except.bind, pure, Except.pure]

theorem storeAt_local {m : M} {r : MRef} {ps : List Perm} {n v : Nat} {tag : Option Bool} {regs : Bool} (h : LocalOk m r ps n) :
    m.storeAt r.c r.va n v tag regs = .ok (storedLocal m r.va n v tag) := by
  simp only [M.storeAt, h.2.1, if_true, winCheck_local h, bind, Except.bind, pure, Except.pure]
  cases tag <;> rfl

theorem atomAt_local {m : M} {r : MRef} {ps : List Perm} {n : Nat} {sc : Scope} {tagged : Bool} {f : AtomFn} (h : LocalOk m r ps n) :
    m.atomAt r.c r.va n sc tagged f = .ok (match f (m.localRead r.va n) (m.localTag r.va) with
      | none => (m, m.localRead r.va n, m.localTag r.va, false)
      | some (v, t) => (storedLocal m r.va n v (if n = 16 then some t else none), m.localRead r.va n, m.localTag r.va, true)) := by
  simp only [M.atomAt, h.2.1, if_true, winCheck_local h, bind, Except.bind, pure, Except.pure]
  split
  · simp_all
  · rename_i v t hf
    simp only [hf, storedLocal]
    split <;> rfl

theorem restartCheck_local {m : M} {r : MRef} {ps : List Perm} {n : Nat} (h : LocalOk m r ps n) : m.restartCheck r.c = .ok () := by
  simp [M.restartCheck, h.2.1, trapIf]

theorem ordered_plain {m : M} {sc : Scope} {body : Act} : m.ordered 0 sc body = body m := by
  show (body m >>= fun m => Except.ok m) = body m
  cases body m <;> rfl

theorem ordered_acquire {m m1 : M} {sc : Scope} {body : Act} (h : body m = .ok m1) : m.ordered 1 sc body = m1.acquire sc := by
  show (body m >>= fun m => m.acquire sc) = _
  rw [h]; rfl

theorem ordered_release {m m1 : M} {sc : Scope} {body : Act} (h : m.release sc = .ok m1) : m.ordered 2 sc body = body m1 := by
  show (m.release sc >>= fun m => body m >>= fun m => Except.ok m) = _
  rw [h]
  show (body m1 >>= fun m => Except.ok m) = _
  cases body m1 <;> rfl

theorem restartCheck_kind {m : M} {c : Cap} (h : c.kind = 1) : m.restartCheck c = .ok () := by simp [M.restartCheck, h, trapIf]

end Sys2Proof.Machine
end

