-- ==== Sys2Proof/Laws/Codec.lean ====
section
/-!
SUPPORT. The fields of a word are read back from it: for the formats of base words (R273, R274), extended words (R280), widened base
words (R282) and pair words (R278).
-/
namespace Sys2Proof.Laws
open Sys2Proof

theorem getLsbD_ofBool (b : Bool) (n : Nat) : (BitVec.ofBool b).getLsbD n = (decide (n = 0) && b) := by
  cases b <;> rcases n with _ | n <;> simp [BitVec.ofBool]

/-- The fields of words 0 to 2 of an extended instruction. -/
theorem extFmtOf_words (f : ExtFmt) (w0 w1 w2 : W32) (h : f.words = [w0, w1, w2]) : extFmtOf w0 w1 w2 = f := by
  simp only [ExtFmt.words, List.cons.injEq, and_true] at h
  obtain ⟨rfl, rfl, rfl⟩ := h
  obtain ⟨lit, op, d, a, b, c, sub, e, k, z, sc, ord, rm, ff, t2, x, imm⟩ := f
  simp only [extFmtOf, ExtFmt.mk.injEq]
  refine ⟨?_, ?_, ?_, ?_, ?_, ?_, ?_, ?_, ?_, ?_, ?_, ?_, ?_, ?_, ?_, ?_, ?_⟩
  · simp only [BitVec.getLsbD_append]; cases lit <;> (try simp)
  all_goals first
    | rfl
    | (apply BitVec.eq_of_getLsbD_eq; intro i hi; simp only [BitVec.getLsbD_extractLsb', BitVec.getLsbD_append]; interval_cases i <;> simp)
    | (simp only [BitVec.getLsbD_append]; (try simp))

/-- The fields of a pair word's scalar slot. -/
theorem pairSlotOf_word (p : PairSlot) : pairSlotOf p.word = p := by
  obtain ⟨⟩ := p
  simp only [pairSlotOf, PairSlot.word, PairSlot.mk.injEq]
  refine ⟨?_, ?_, ?_, ?_, ?_, ?_⟩ <;> first
    | (apply BitVec.eq_of_getLsbD_eq; intro i hi; simp only [BitVec.getLsbD_extractLsb', BitVec.getLsbD_append]; interval_cases i <;> simp)
    | (simp only [BitVec.getLsbD_append]; (try simp))

/-- The major of a format, and its sub-format. -/
def fmtMajor : BaseFmt → F6
  | .rr op .. | .ri op .. | .mem op .. | .j op .. | .mv op .. | .vr op .. => op
  | .bk .. => 0x18
  | .bc .. => 0x19
def fmtKind : BaseFmt → SubFmt
  | .rr .. => .rr
  | .ri .. => .ri
  | .mem .. => .mem
  | .j .. => .j
  | .mv .. => .mv
  | .vr .. => .vr
  | .bk .. => .bk
  | .bc .. => .bc

theorem word_major (f : BaseFmt) : f.word.extractLsb' 2 6 = fmtMajor f := by
  cases f <;> simp only [BaseFmt.word, fmtMajor] <;>
    (apply BitVec.eq_of_getLsbD_eq; intro i hi; simp only [BitVec.getLsbD_extractLsb', BitVec.getLsbD_append]; interval_cases i <;> simp)

/-- The fields of a base word whose major has its format. -/
theorem fmtOf_word (f : BaseFmt) (h : subFmt (fmtMajor f) = some (fmtKind f)) : fmtOf f.word = some f := by
  simp only [fmtOf, word_major, h]
  cases f <;> simp only [BaseFmt.word, fmtMajor, fmtKind, Option.some.injEq, BaseFmt.rr.injEq, BaseFmt.ri.injEq, BaseFmt.mem.injEq,
    BaseFmt.bk.injEq, BaseFmt.bc.injEq, BaseFmt.j.injEq, BaseFmt.mv.injEq, BaseFmt.vr.injEq, true_and]
  all_goals repeat' apply And.intro
  all_goals first
    | (apply BitVec.eq_of_getLsbD_eq; intro i hi; simp only [BitVec.getLsbD_extractLsb', BitVec.getLsbD_append, getLsbD_ofBool]; interval_cases i <;> simp)
    | (simp only [BitVec.getLsbD_append, getLsbD_ofBool]; (try simp))

/-- A format without the immediate and address fields that a widened form holds. -/
def fmtInner : BaseFmt → BaseFmt
  | .ri op f2 _ a d => .ri op f2 0 a d
  | .mem op _ am sz a d => .mem op 0 am sz a d
  | .bk _ kind pol k => .bk 0 kind pol k
  | .bc _ cond r => .bc 0 cond r
  | .j op _ => .j op 0
  | .mv op _ d => .mv op 0 d
  | f => f

/-- What a form's fields must hold for a format: B and C are the base word's own where it has them, and only M and VM scale. -/
def fmtFits (x : Ext) : BaseFmt → Bool
  | .mem .. => true
  | .rr .. | .vr .. => x.b = 0 && !x.scale
  | _ => x.b = 0 && x.c = 0 && !x.scale

/-- A widened base word is read back as its form and its inner instruction. -/
theorem widenedOf_fmt (lit : Bool) (x : Ext) (f : BaseFmt) (i : Instr) (h : subFmt (fmtMajor f) = some (fmtKind f)) (hi : fmtInner f = f)
    (hf : fmtFits x f = true) (h15 : ∀ op g b a d, f = .rr op g b a d → op = 0x15 → g &&& 7 = g) (ho : ofFmt f = some i) :
    widenedOf (widenedFmt lit x f) = some (x, i) := by
  obtain ⟨xb, xc, xe, xk, xz, xsc, xord, xrm, xff, xt2, xx, ximm, xscale⟩ := x
  cases f with
  | rr op g b a d =>
    simp only [fmtFits, Bool.and_eq_true, decide_eq_true_eq, Bool.not_eq_true'] at hf
    obtain ⟨rfl, rfl⟩ := hf
    simp only [fmtMajor, fmtKind, ofFmt] at h ho
    simp only [widenedOf, widenedFmt, h, ExtFmt.ofExt, ExtFmt.ext]
    by_cases h5 : op = 0x15
    · subst h5
      simp only [if_true, h15 _ g b a d rfl rfl, ho, Option.map_some]
    · simp only [h5, if_false, ho, Option.map_some]
  | vr op f3 t b a d =>
    simp only [fmtFits, Bool.and_eq_true, decide_eq_true_eq, Bool.not_eq_true'] at hf
    obtain ⟨rfl, rfl⟩ := hf
    simp only [fmtMajor, fmtKind, ofFmt] at h ho
    have e1 : ∀ (p q : BitVec 3), (p ++ q).extractLsb' 3 3 = p := by decide
    have e2 : ∀ (p q : BitVec 3), (p ++ q).extractLsb' 0 3 = q := by decide
    simp only [widenedOf, widenedFmt, h, ExtFmt.ofExt, ExtFmt.ext, e1, e2, ho, Option.map_some]
  | mem op ea am sz a d =>
    simp only [fmtMajor, fmtKind, ofFmt] at h ho
    simp only [fmtInner, BaseFmt.mem.injEq, true_and, and_true] at hi
    subst hi
    have e1 : ∀ (s : Bool) (p : BitVec 2) (q : BitVec 3), (BitVec.ofBool s ++ p ++ q).extractLsb' 3 2 = p := by decide
    have e2 : ∀ (s : Bool) (p : BitVec 2) (q : BitVec 3), (BitVec.ofBool s ++ p ++ q).extractLsb' 0 3 = q := by decide
    have e3 : ∀ (s : Bool) (p : BitVec 2) (q : BitVec 3), (BitVec.ofBool s ++ p ++ q).getLsbD 5 = s := by decide
    simp only [widenedOf, widenedFmt, h, ExtFmt.ofExt, ExtFmt.ext, e1, e2, e3, ho, Option.map_some]
  | ri op f2 imm a d =>
    simp only [fmtFits, Bool.and_eq_true, decide_eq_true_eq, Bool.not_eq_true'] at hf
    obtain ⟨⟨rfl, rfl⟩, rfl⟩ := hf
    simp only [fmtMajor, fmtKind, ofFmt] at h ho
    simp only [fmtInner, BaseFmt.ri.injEq, true_and, and_true] at hi
    subst hi
    have e1 : ∀ (p : BitVec 2), (p.setWidth 6).extractLsb' 0 2 = p := by decide
    simp only [widenedOf, widenedFmt, h, ExtFmt.ofExt, ExtFmt.ext, e1, ho, Option.map_some]
  | bk off kind pol k =>
    simp only [fmtFits, Bool.and_eq_true, decide_eq_true_eq, Bool.not_eq_true'] at hf
    obtain ⟨⟨rfl, rfl⟩, rfl⟩ := hf
    simp only [fmtMajor, fmtKind, ofFmt] at h ho
    simp only [fmtInner, BaseFmt.bk.injEq, and_true] at hi
    subst hi
    have e1 : ∀ (p : BitVec 2) (s : Bool) (q : BitVec 3), (p ++ BitVec.ofBool s ++ q).extractLsb' 4 2 = p := by decide
    have e2 : ∀ (p : BitVec 2) (s : Bool) (q : BitVec 3), (p ++ BitVec.ofBool s ++ q).getLsbD 3 = s := by decide
    have e3 : ∀ (p : BitVec 2) (s : Bool) (q : BitVec 3), (p ++ BitVec.ofBool s ++ q).extractLsb' 0 3 = q := by decide
    simp only [widenedOf, widenedFmt, ExtFmt.ofExt, ExtFmt.ext, show subFmt 0x18 = some SubFmt.bk from rfl, e1, e2, e3, ho, Option.map_some]
  | bc off cond r =>
    simp only [fmtFits, Bool.and_eq_true, decide_eq_true_eq, Bool.not_eq_true'] at hf
    obtain ⟨⟨rfl, rfl⟩, rfl⟩ := hf
    simp only [fmtMajor, fmtKind, ofFmt] at h ho
    simp only [fmtInner, BaseFmt.bc.injEq, and_true] at hi
    subst hi
    have e1 : ∀ (q : BitVec 3), (q.setWidth 6).extractLsb' 0 3 = q := by decide
    simp only [widenedOf, widenedFmt, ExtFmt.ofExt, ExtFmt.ext, show subFmt 0x19 = some SubFmt.bc from rfl, e1, ho, Option.map_some]
  | j op off =>
    simp only [fmtFits, Bool.and_eq_true, decide_eq_true_eq, Bool.not_eq_true'] at hf
    obtain ⟨⟨rfl, rfl⟩, rfl⟩ := hf
    simp only [fmtMajor, fmtKind, ofFmt] at h ho
    simp only [fmtInner, BaseFmt.j.injEq, true_and] at hi
    subst hi
    simp only [widenedOf, widenedFmt, h, ExtFmt.ofExt, ExtFmt.ext, ho, Option.map_some]
  | mv op imm d =>
    simp only [fmtFits, Bool.and_eq_true, decide_eq_true_eq, Bool.not_eq_true'] at hf
    obtain ⟨⟨rfl, rfl⟩, rfl⟩ := hf
    simp only [fmtMajor, fmtKind, ofFmt] at h ho
    simp only [fmtInner, BaseFmt.mv.injEq, true_and, and_true] at hi
    subst hi
    simp only [widenedOf, widenedFmt, h, ExtFmt.ofExt, ExtFmt.ext, ho, Option.map_some]

/-- A list of words does not differ from itself. -/
theorem firstDiff_self (n : Nat) (ws : List W32) : firstDiff n ws ws = none := by
  induction ws generalizing n with
  | nil => rfl
  | cons w ws ih =>
    have h : lowBit (w ^^^ w) = none := by simp [lowBit]
    simp only [firstDiff, h, ih]

/-- Three words. -/
theorem words3 (f : ExtFmt) : ∃ a b c, f.words = [a, b, c] := ⟨_, _, _, rfl⟩
/-- The candidate of extended words, with or without a literal. -/
theorem words_cand (f : ExtFmt) (l : Option W64) : candidate (withLit f.words l) = extCand f l := by
  obtain ⟨a, b, c, h⟩ := words3 f
  have e := extFmtOf_words f a b c h
  cases l with
  | none => simp only [withLit, h, candidate, e]
  | some l =>
    have hl : l.extractLsb' 32 32 ++ l.extractLsb' 0 32 = l := by
      apply BitVec.eq_of_getLsbD_eq
      intro i hi
      simp only [BitVec.getLsbD_extractLsb', BitVec.getLsbD_append]
      interval_cases i <;> simp
    simp only [withLit, h, List.cons_append, List.nil_append, candidate, e, hl]

/-- A base major is below the extended-only ones. -/
theorem sub_lt (f : BaseFmt) (h : subFmt (fmtMajor f) = some (fmtKind f)) : ¬ 0x38 ≤ (fmtMajor f).toNat := by
  have : ∀ g : F6, (subFmt g).isSome = true → ¬ 0x38 ≤ g.toNat := by decide
  exact this _ (by rw [h]; rfl)
/-- A widened base word is no `vqn4` word and no extended-only one. -/
theorem base_major (f : BaseFmt) (i : Instr) (h : fmtOf f.word = some f) (ho : ofFmt f = some i) (w : Bool) (x : Ext) : ¬ ((widenedFmt w x f).op = 0x24 ∧ (widenedFmt w x f).sub.extractLsb' 3 3 = 2) ∧ ¬ ((widenedFmt w x f).op = 0x24 ∧ (widenedFmt w x f).sub.extractLsb' 3 3 = 3) ∧ ¬ (0x38 ≤ (widenedFmt w x f).op.toNat) := by
  have hm : subFmt (fmtMajor f) = some (fmtKind f) := by
    simp only [fmtOf, word_major] at h
    revert h
    generalize subFmt (fmtMajor f) = g
    intro h
    rcases g with _ | g
    · exact nomatch h
    · cases g <;> (simp only [Option.some.injEq] at h; rw [← h]; rfl)
  have ho' : (widenedFmt w x f).op = fmtMajor f := by cases f <;> rfl
  rw [ho']
  refine ⟨?_, ?_, sub_lt f hm⟩ <;> rintro ⟨h1, h2⟩ <;> cases f <;> simp only [fmtMajor] at h1 <;> (try subst h1) <;> (try (simp only [fmtMajor, fmtKind] at hm; revert hm; decide)) <;> (try (revert h1; decide))
  all_goals
    have e1 : ∀ (p q : BitVec 3), (p ++ q).extractLsb' 3 3 = p := by decide
    simp only [widenedFmt, ExtFmt.ofExt, e1] at h2
    subst h2
    exact nomatch ho

end Sys2Proof.Laws
end

