-- ==== Sys2Proof/Laws/State.lean ====
section
/-!
SUPPORT. What the named updates of the machine leave alone, field by field, and where a core is found after them.
-/
namespace Sys2Proof.Machine
open Sys2Proof

@[simp] theorem setCore_plim (s : State) (c : Core) : (s.setCore c).plim = s.plim := rfl
@[simp] theorem setCore_throttle (s : State) (c : Core) : (s.setCore c).throttle = s.throttle := rfl
@[simp] theorem setCore_clockAt (s : State) (c : Core) : (s.setCore c).clockAt = s.clockAt := rfl
@[simp] theorem setCore_psum (s : State) (c : Core) : (s.setCore c).psum = s.psum := rfl
@[simp] theorem setCore_pcount (s : State) (c : Core) : (s.setCore c).pcount = s.pcount := rfl
@[simp] theorem setCore_power (s : State) (c : Core) : (s.setCore c).power = s.power := rfl
@[simp] theorem setCore_held (s : State) (c : Core) : (s.setCore c).held = s.held := rfl
@[simp] theorem setCore_shut (s : State) (c : Core) : (s.setCore c).shut = s.shut := rfl
@[simp] theorem setCore_mstat (s : State) (c : Core) : (s.setCore c).mstat = s.mstat := rfl
@[simp] theorem setCore_modid (s : State) (c : Core) : (s.setCore c).modid = s.modid := rfl
@[simp] theorem setCore_cccur (s : State) (c : Core) : (s.setCore c).cccur = s.cccur := rfl
@[simp] theorem setCore_ccnext (s : State) (c : Core) : (s.setCore c).ccnext = s.ccnext := rfl
@[simp] theorem setCore_temps (s : State) (c : Core) : (s.setCore c).temps = s.temps := rfl
@[simp] theorem setCore_hbmHot (s : State) (c : Core) : (s.setCore c).hbmHot = s.hbmHot := rfl
@[simp] theorem setCore_fw (s : State) (c : Core) : (s.setCore c).fw = s.fw := rfl
@[simp] theorem setCore_fwStaged (s : State) (c : Core) : (s.setCore c).fwStaged = s.fwStaged := rfl
@[simp] theorem setCore_attest (s : State) (c : Core) : (s.setCore c).attest = s.attest := rfl
@[simp] theorem setCore_ctxtb (s : State) (c : Core) : (s.setCore c).ctxtb = s.ctxtb := rfl
@[simp] theorem setCore_hctx (s : State) (c : Core) : (s.setCore c).hctx = s.hctx := rfl
@[simp] theorem setCore_ports (s : State) (c : Core) : (s.setCore c).ports = s.ports := rfl
@[simp] theorem setCore_mbox (s : State) (c : Core) : (s.setCore c).mbox = s.mbox := rfl
@[simp] theorem setCore_keys (s : State) (c : Core) : (s.setCore c).keys = s.keys := rfl
@[simp] theorem setCore_enc (s : State) (c : Core) : (s.setCore c).enc = s.enc := rfl
@[simp] theorem setCore_cxlRanges (s : State) (c : Core) : (s.setCore c).cxlRanges = s.cxlRanges := rfl
@[simp] theorem setCore_ueMem (s : State) (c : Core) : (s.setCore c).ueMem = s.ueMem := rfl
@[simp] theorem setCore_mem (s : State) (c : Core) : (s.setCore c).mem = s.mem := rfl
@[simp] theorem setCore_dies (s : State) (c : Core) : (s.setCore c).dies = s.dies := rfl
@[simp] theorem setCore_quads (s : State) (c : Core) : (s.setCore c).quads = s.quads := rfl
@[simp] theorem setCore_units (s : State) (c : Core) : (s.setCore c).units = s.units := rfl
@[simp] theorem setCore_coreReset (s : State) (c : Core) : (s.setCore c).coreReset = s.coreReset := rfl
@[simp] theorem setCore_links (s : State) (c : Core) : (s.setCore c).links = s.links := rfl
@[simp] theorem setCore_refusing (s : State) (c : Core) : (s.setCore c).refusing = s.refusing := rfl
@[simp] theorem setCore_now (s : State) (c : Core) : (s.setCore c).now = s.now := rfl
@[simp] theorem setCore_accepted (s : State) (c : Core) : (s.setCore c).accepted = s.accepted := rfl
@[simp] theorem setCore_armed (s : State) (c : Core) : (s.setCore c).armed = s.armed := rfl
@[simp] theorem setCore_events (s : State) (c : Core) : (s.setCore c).events = s.events := rfl
@[simp] theorem setCore_timers (s : State) (c : Core) : (s.setCore c).timers = s.timers := rfl
@[simp] theorem setCore_outbox (s : State) (c : Core) : (s.setCore c).outbox = s.outbox := rfl
@[simp] theorem setCore_turn (s : State) (c : Core) : (s.setCore c).turn = s.turn := rfl
@[simp] theorem setCore_cur (s : State) (c : Core) : (s.setCore c).cur = s.cur := rfl
@[simp] theorem setCore_stalled (s : State) (c : Core) : (s.setCore c).stalled = s.stalled := rfl
@[simp] theorem setCore_fresh (s : State) (c : Core) : (s.setCore c).fresh = s.fresh := rfl

@[simp] theorem setDie_plim (s : State) (d : Nat) (f : Die → Die) : (s.setDie d f).plim = s.plim := rfl
@[simp] theorem setDie_throttle (s : State) (d : Nat) (f : Die → Die) : (s.setDie d f).throttle = s.throttle := rfl
@[simp] theorem setDie_clockAt (s : State) (d : Nat) (f : Die → Die) : (s.setDie d f).clockAt = s.clockAt := rfl
@[simp] theorem setDie_psum (s : State) (d : Nat) (f : Die → Die) : (s.setDie d f).psum = s.psum := rfl
@[simp] theorem setDie_pcount (s : State) (d : Nat) (f : Die → Die) : (s.setDie d f).pcount = s.pcount := rfl
@[simp] theorem setDie_power (s : State) (d : Nat) (f : Die → Die) : (s.setDie d f).power = s.power := rfl
@[simp] theorem setDie_held (s : State) (d : Nat) (f : Die → Die) : (s.setDie d f).held = s.held := rfl
@[simp] theorem setDie_shut (s : State) (d : Nat) (f : Die → Die) : (s.setDie d f).shut = s.shut := rfl
@[simp] theorem setDie_mstat (s : State) (d : Nat) (f : Die → Die) : (s.setDie d f).mstat = s.mstat := rfl
@[simp] theorem setDie_modid (s : State) (d : Nat) (f : Die → Die) : (s.setDie d f).modid = s.modid := rfl
@[simp] theorem setDie_cccur (s : State) (d : Nat) (f : Die → Die) : (s.setDie d f).cccur = s.cccur := rfl
@[simp] theorem setDie_ccnext (s : State) (d : Nat) (f : Die → Die) : (s.setDie d f).ccnext = s.ccnext := rfl
@[simp] theorem setDie_temps (s : State) (d : Nat) (f : Die → Die) : (s.setDie d f).temps = s.temps := rfl
@[simp] theorem setDie_hbmHot (s : State) (d : Nat) (f : Die → Die) : (s.setDie d f).hbmHot = s.hbmHot := rfl
@[simp] theorem setDie_fw (s : State) (d : Nat) (f : Die → Die) : (s.setDie d f).fw = s.fw := rfl
@[simp] theorem setDie_fwStaged (s : State) (d : Nat) (f : Die → Die) : (s.setDie d f).fwStaged = s.fwStaged := rfl
@[simp] theorem setDie_attest (s : State) (d : Nat) (f : Die → Die) : (s.setDie d f).attest = s.attest := rfl
@[simp] theorem setDie_ctxtb (s : State) (d : Nat) (f : Die → Die) : (s.setDie d f).ctxtb = s.ctxtb := rfl
@[simp] theorem setDie_hctx (s : State) (d : Nat) (f : Die → Die) : (s.setDie d f).hctx = s.hctx := rfl
@[simp] theorem setDie_ports (s : State) (d : Nat) (f : Die → Die) : (s.setDie d f).ports = s.ports := rfl
@[simp] theorem setDie_mbox (s : State) (d : Nat) (f : Die → Die) : (s.setDie d f).mbox = s.mbox := rfl
@[simp] theorem setDie_keys (s : State) (d : Nat) (f : Die → Die) : (s.setDie d f).keys = s.keys := rfl
@[simp] theorem setDie_enc (s : State) (d : Nat) (f : Die → Die) : (s.setDie d f).enc = s.enc := rfl
@[simp] theorem setDie_cxlRanges (s : State) (d : Nat) (f : Die → Die) : (s.setDie d f).cxlRanges = s.cxlRanges := rfl
@[simp] theorem setDie_ueMem (s : State) (d : Nat) (f : Die → Die) : (s.setDie d f).ueMem = s.ueMem := rfl
@[simp] theorem setDie_mem (s : State) (d : Nat) (f : Die → Die) : (s.setDie d f).mem = s.mem := rfl
@[simp] theorem setDie_quads (s : State) (d : Nat) (f : Die → Die) : (s.setDie d f).quads = s.quads := rfl
@[simp] theorem setDie_cores (s : State) (d : Nat) (f : Die → Die) : (s.setDie d f).cores = s.cores := rfl
@[simp] theorem setDie_units (s : State) (d : Nat) (f : Die → Die) : (s.setDie d f).units = s.units := rfl
@[simp] theorem setDie_coreReset (s : State) (d : Nat) (f : Die → Die) : (s.setDie d f).coreReset = s.coreReset := rfl
@[simp] theorem setDie_links (s : State) (d : Nat) (f : Die → Die) : (s.setDie d f).links = s.links := rfl
@[simp] theorem setDie_refusing (s : State) (d : Nat) (f : Die → Die) : (s.setDie d f).refusing = s.refusing := rfl
@[simp] theorem setDie_now (s : State) (d : Nat) (f : Die → Die) : (s.setDie d f).now = s.now := rfl
@[simp] theorem setDie_accepted (s : State) (d : Nat) (f : Die → Die) : (s.setDie d f).accepted = s.accepted := rfl
@[simp] theorem setDie_armed (s : State) (d : Nat) (f : Die → Die) : (s.setDie d f).armed = s.armed := rfl
@[simp] theorem setDie_events (s : State) (d : Nat) (f : Die → Die) : (s.setDie d f).events = s.events := rfl
@[simp] theorem setDie_timers (s : State) (d : Nat) (f : Die → Die) : (s.setDie d f).timers = s.timers := rfl
@[simp] theorem setDie_outbox (s : State) (d : Nat) (f : Die → Die) : (s.setDie d f).outbox = s.outbox := rfl
@[simp] theorem setDie_turn (s : State) (d : Nat) (f : Die → Die) : (s.setDie d f).turn = s.turn := rfl
@[simp] theorem setDie_cur (s : State) (d : Nat) (f : Die → Die) : (s.setDie d f).cur = s.cur := rfl
@[simp] theorem setDie_stalled (s : State) (d : Nat) (f : Die → Die) : (s.setDie d f).stalled = s.stalled := rfl
@[simp] theorem setDie_fresh (s : State) (d : Nat) (f : Die → Die) : (s.setDie d f).fresh = s.fresh := rfl

@[simp] theorem post_plim (s : State) (e : Instr) : (s.post e).plim = s.plim := rfl
@[simp] theorem post_throttle (s : State) (e : Instr) : (s.post e).throttle = s.throttle := rfl
@[simp] theorem post_clockAt (s : State) (e : Instr) : (s.post e).clockAt = s.clockAt := rfl
@[simp] theorem post_psum (s : State) (e : Instr) : (s.post e).psum = s.psum := rfl
@[simp] theorem post_pcount (s : State) (e : Instr) : (s.post e).pcount = s.pcount := rfl
@[simp] theorem post_power (s : State) (e : Instr) : (s.post e).power = s.power := rfl
@[simp] theorem post_held (s : State) (e : Instr) : (s.post e).held = s.held := rfl
@[simp] theorem post_shut (s : State) (e : Instr) : (s.post e).shut = s.shut := rfl
@[simp] theorem post_mstat (s : State) (e : Instr) : (s.post e).mstat = s.mstat := rfl
@[simp] theorem post_modid (s : State) (e : Instr) : (s.post e).modid = s.modid := rfl
@[simp] theorem post_cccur (s : State) (e : Instr) : (s.post e).cccur = s.cccur := rfl
@[simp] theorem post_ccnext (s : State) (e : Instr) : (s.post e).ccnext = s.ccnext := rfl
@[simp] theorem post_temps (s : State) (e : Instr) : (s.post e).temps = s.temps := rfl
@[simp] theorem post_hbmHot (s : State) (e : Instr) : (s.post e).hbmHot = s.hbmHot := rfl
@[simp] theorem post_fw (s : State) (e : Instr) : (s.post e).fw = s.fw := rfl
@[simp] theorem post_fwStaged (s : State) (e : Instr) : (s.post e).fwStaged = s.fwStaged := rfl
@[simp] theorem post_attest (s : State) (e : Instr) : (s.post e).attest = s.attest := rfl
@[simp] theorem post_ctxtb (s : State) (e : Instr) : (s.post e).ctxtb = s.ctxtb := rfl
@[simp] theorem post_hctx (s : State) (e : Instr) : (s.post e).hctx = s.hctx := rfl
@[simp] theorem post_ports (s : State) (e : Instr) : (s.post e).ports = s.ports := rfl
@[simp] theorem post_mbox (s : State) (e : Instr) : (s.post e).mbox = s.mbox := rfl
@[simp] theorem post_keys (s : State) (e : Instr) : (s.post e).keys = s.keys := rfl
@[simp] theorem post_enc (s : State) (e : Instr) : (s.post e).enc = s.enc := rfl
@[simp] theorem post_cxlRanges (s : State) (e : Instr) : (s.post e).cxlRanges = s.cxlRanges := rfl
@[simp] theorem post_ueMem (s : State) (e : Instr) : (s.post e).ueMem = s.ueMem := rfl
@[simp] theorem post_mem (s : State) (e : Instr) : (s.post e).mem = s.mem := rfl
@[simp] theorem post_dies (s : State) (e : Instr) : (s.post e).dies = s.dies := rfl
@[simp] theorem post_quads (s : State) (e : Instr) : (s.post e).quads = s.quads := rfl
@[simp] theorem post_cores (s : State) (e : Instr) : (s.post e).cores = s.cores := rfl
@[simp] theorem post_units (s : State) (e : Instr) : (s.post e).units = s.units := rfl
@[simp] theorem post_coreReset (s : State) (e : Instr) : (s.post e).coreReset = s.coreReset := rfl
@[simp] theorem post_links (s : State) (e : Instr) : (s.post e).links = s.links := rfl
@[simp] theorem post_refusing (s : State) (e : Instr) : (s.post e).refusing = s.refusing := rfl
@[simp] theorem post_now (s : State) (e : Instr) : (s.post e).now = s.now := rfl
@[simp] theorem post_accepted (s : State) (e : Instr) : (s.post e).accepted = s.accepted := rfl
@[simp] theorem post_armed (s : State) (e : Instr) : (s.post e).armed = s.armed := rfl
@[simp] theorem post_timers (s : State) (e : Instr) : (s.post e).timers = s.timers := rfl
@[simp] theorem post_outbox (s : State) (e : Instr) : (s.post e).outbox = s.outbox := rfl
@[simp] theorem post_turn (s : State) (e : Instr) : (s.post e).turn = s.turn := rfl
@[simp] theorem post_cur (s : State) (e : Instr) : (s.post e).cur = s.cur := rfl
@[simp] theorem post_stalled (s : State) (e : Instr) : (s.post e).stalled = s.stalled := rfl
@[simp] theorem post_fresh (s : State) (e : Instr) : (s.post e).fresh = s.fresh := rfl

@[simp] theorem after_plim (s : State) (n : Nat) (e : Instr) : (s.after n e).plim = s.plim := rfl
@[simp] theorem after_throttle (s : State) (n : Nat) (e : Instr) : (s.after n e).throttle = s.throttle := rfl
@[simp] theorem after_clockAt (s : State) (n : Nat) (e : Instr) : (s.after n e).clockAt = s.clockAt := rfl
@[simp] theorem after_psum (s : State) (n : Nat) (e : Instr) : (s.after n e).psum = s.psum := rfl
@[simp] theorem after_pcount (s : State) (n : Nat) (e : Instr) : (s.after n e).pcount = s.pcount := rfl
@[simp] theorem after_power (s : State) (n : Nat) (e : Instr) : (s.after n e).power = s.power := rfl
@[simp] theorem after_held (s : State) (n : Nat) (e : Instr) : (s.after n e).held = s.held := rfl
@[simp] theorem after_shut (s : State) (n : Nat) (e : Instr) : (s.after n e).shut = s.shut := rfl
@[simp] theorem after_mstat (s : State) (n : Nat) (e : Instr) : (s.after n e).mstat = s.mstat := rfl
@[simp] theorem after_modid (s : State) (n : Nat) (e : Instr) : (s.after n e).modid = s.modid := rfl
@[simp] theorem after_cccur (s : State) (n : Nat) (e : Instr) : (s.after n e).cccur = s.cccur := rfl
@[simp] theorem after_ccnext (s : State) (n : Nat) (e : Instr) : (s.after n e).ccnext = s.ccnext := rfl
@[simp] theorem after_temps (s : State) (n : Nat) (e : Instr) : (s.after n e).temps = s.temps := rfl
@[simp] theorem after_hbmHot (s : State) (n : Nat) (e : Instr) : (s.after n e).hbmHot = s.hbmHot := rfl
@[simp] theorem after_fw (s : State) (n : Nat) (e : Instr) : (s.after n e).fw = s.fw := rfl
@[simp] theorem after_fwStaged (s : State) (n : Nat) (e : Instr) : (s.after n e).fwStaged = s.fwStaged := rfl
@[simp] theorem after_attest (s : State) (n : Nat) (e : Instr) : (s.after n e).attest = s.attest := rfl
@[simp] theorem after_ctxtb (s : State) (n : Nat) (e : Instr) : (s.after n e).ctxtb = s.ctxtb := rfl
@[simp] theorem after_hctx (s : State) (n : Nat) (e : Instr) : (s.after n e).hctx = s.hctx := rfl
@[simp] theorem after_ports (s : State) (n : Nat) (e : Instr) : (s.after n e).ports = s.ports := rfl
@[simp] theorem after_mbox (s : State) (n : Nat) (e : Instr) : (s.after n e).mbox = s.mbox := rfl
@[simp] theorem after_keys (s : State) (n : Nat) (e : Instr) : (s.after n e).keys = s.keys := rfl
@[simp] theorem after_enc (s : State) (n : Nat) (e : Instr) : (s.after n e).enc = s.enc := rfl
@[simp] theorem after_cxlRanges (s : State) (n : Nat) (e : Instr) : (s.after n e).cxlRanges = s.cxlRanges := rfl
@[simp] theorem after_ueMem (s : State) (n : Nat) (e : Instr) : (s.after n e).ueMem = s.ueMem := rfl
@[simp] theorem after_mem (s : State) (n : Nat) (e : Instr) : (s.after n e).mem = s.mem := rfl
@[simp] theorem after_dies (s : State) (n : Nat) (e : Instr) : (s.after n e).dies = s.dies := rfl
@[simp] theorem after_quads (s : State) (n : Nat) (e : Instr) : (s.after n e).quads = s.quads := rfl
@[simp] theorem after_cores (s : State) (n : Nat) (e : Instr) : (s.after n e).cores = s.cores := rfl
@[simp] theorem after_units (s : State) (n : Nat) (e : Instr) : (s.after n e).units = s.units := rfl
@[simp] theorem after_coreReset (s : State) (n : Nat) (e : Instr) : (s.after n e).coreReset = s.coreReset := rfl
@[simp] theorem after_links (s : State) (n : Nat) (e : Instr) : (s.after n e).links = s.links := rfl
@[simp] theorem after_refusing (s : State) (n : Nat) (e : Instr) : (s.after n e).refusing = s.refusing := rfl
@[simp] theorem after_now (s : State) (n : Nat) (e : Instr) : (s.after n e).now = s.now := rfl
@[simp] theorem after_accepted (s : State) (n : Nat) (e : Instr) : (s.after n e).accepted = s.accepted := rfl
@[simp] theorem after_armed (s : State) (n : Nat) (e : Instr) : (s.after n e).armed = s.armed := rfl
@[simp] theorem after_events (s : State) (n : Nat) (e : Instr) : (s.after n e).events = s.events := rfl
@[simp] theorem after_outbox (s : State) (n : Nat) (e : Instr) : (s.after n e).outbox = s.outbox := rfl
@[simp] theorem after_turn (s : State) (n : Nat) (e : Instr) : (s.after n e).turn = s.turn := rfl
@[simp] theorem after_cur (s : State) (n : Nat) (e : Instr) : (s.after n e).cur = s.cur := rfl
@[simp] theorem after_stalled (s : State) (n : Nat) (e : Instr) : (s.after n e).stalled = s.stalled := rfl
@[simp] theorem after_fresh (s : State) (n : Nat) (e : Instr) : (s.after n e).fresh = s.fresh := rfl

@[simp] theorem push_plim (s : State) (o : OutMsg) : (s.push o).plim = s.plim := rfl
@[simp] theorem push_throttle (s : State) (o : OutMsg) : (s.push o).throttle = s.throttle := rfl
@[simp] theorem push_clockAt (s : State) (o : OutMsg) : (s.push o).clockAt = s.clockAt := rfl
@[simp] theorem push_psum (s : State) (o : OutMsg) : (s.push o).psum = s.psum := rfl
@[simp] theorem push_pcount (s : State) (o : OutMsg) : (s.push o).pcount = s.pcount := rfl
@[simp] theorem push_power (s : State) (o : OutMsg) : (s.push o).power = s.power := rfl
@[simp] theorem push_held (s : State) (o : OutMsg) : (s.push o).held = s.held := rfl
@[simp] theorem push_shut (s : State) (o : OutMsg) : (s.push o).shut = s.shut := rfl
@[simp] theorem push_mstat (s : State) (o : OutMsg) : (s.push o).mstat = s.mstat := rfl
@[simp] theorem push_modid (s : State) (o : OutMsg) : (s.push o).modid = s.modid := rfl
@[simp] theorem push_cccur (s : State) (o : OutMsg) : (s.push o).cccur = s.cccur := rfl
@[simp] theorem push_ccnext (s : State) (o : OutMsg) : (s.push o).ccnext = s.ccnext := rfl
@[simp] theorem push_temps (s : State) (o : OutMsg) : (s.push o).temps = s.temps := rfl
@[simp] theorem push_hbmHot (s : State) (o : OutMsg) : (s.push o).hbmHot = s.hbmHot := rfl
@[simp] theorem push_fw (s : State) (o : OutMsg) : (s.push o).fw = s.fw := rfl
@[simp] theorem push_fwStaged (s : State) (o : OutMsg) : (s.push o).fwStaged = s.fwStaged := rfl
@[simp] theorem push_attest (s : State) (o : OutMsg) : (s.push o).attest = s.attest := rfl
@[simp] theorem push_ctxtb (s : State) (o : OutMsg) : (s.push o).ctxtb = s.ctxtb := rfl
@[simp] theorem push_hctx (s : State) (o : OutMsg) : (s.push o).hctx = s.hctx := rfl
@[simp] theorem push_ports (s : State) (o : OutMsg) : (s.push o).ports = s.ports := rfl
@[simp] theorem push_mbox (s : State) (o : OutMsg) : (s.push o).mbox = s.mbox := rfl
@[simp] theorem push_keys (s : State) (o : OutMsg) : (s.push o).keys = s.keys := rfl
@[simp] theorem push_enc (s : State) (o : OutMsg) : (s.push o).enc = s.enc := rfl
@[simp] theorem push_cxlRanges (s : State) (o : OutMsg) : (s.push o).cxlRanges = s.cxlRanges := rfl
@[simp] theorem push_ueMem (s : State) (o : OutMsg) : (s.push o).ueMem = s.ueMem := rfl
@[simp] theorem push_mem (s : State) (o : OutMsg) : (s.push o).mem = s.mem := rfl
@[simp] theorem push_dies (s : State) (o : OutMsg) : (s.push o).dies = s.dies := rfl
@[simp] theorem push_quads (s : State) (o : OutMsg) : (s.push o).quads = s.quads := rfl
@[simp] theorem push_cores (s : State) (o : OutMsg) : (s.push o).cores = s.cores := rfl
@[simp] theorem push_units (s : State) (o : OutMsg) : (s.push o).units = s.units := rfl
@[simp] theorem push_coreReset (s : State) (o : OutMsg) : (s.push o).coreReset = s.coreReset := rfl
@[simp] theorem push_links (s : State) (o : OutMsg) : (s.push o).links = s.links := rfl
@[simp] theorem push_refusing (s : State) (o : OutMsg) : (s.push o).refusing = s.refusing := rfl
@[simp] theorem push_now (s : State) (o : OutMsg) : (s.push o).now = s.now := rfl
@[simp] theorem push_accepted (s : State) (o : OutMsg) : (s.push o).accepted = s.accepted := rfl
@[simp] theorem push_armed (s : State) (o : OutMsg) : (s.push o).armed = s.armed := rfl
@[simp] theorem push_events (s : State) (o : OutMsg) : (s.push o).events = s.events := rfl
@[simp] theorem push_timers (s : State) (o : OutMsg) : (s.push o).timers = s.timers := rfl
@[simp] theorem push_turn (s : State) (o : OutMsg) : (s.push o).turn = s.turn := rfl
@[simp] theorem push_cur (s : State) (o : OutMsg) : (s.push o).cur = s.cur := rfl
@[simp] theorem push_stalled (s : State) (o : OutMsg) : (s.push o).stalled = s.stalled := rfl
@[simp] theorem push_fresh (s : State) (o : OutMsg) : (s.push o).fresh = s.fresh := rfl

@[simp] theorem setQuad_plim (s : State) (q : Quad) : (s.setQuad q).plim = s.plim := by unfold State.setQuad; split <;> rfl
@[simp] theorem setQuad_throttle (s : State) (q : Quad) : (s.setQuad q).throttle = s.throttle := by unfold State.setQuad; split <;> rfl
@[simp] theorem setQuad_psum (s : State) (q : Quad) : (s.setQuad q).psum = s.psum := by unfold State.setQuad; split <;> rfl
@[simp] theorem setQuad_pcount (s : State) (q : Quad) : (s.setQuad q).pcount = s.pcount := by unfold State.setQuad; split <;> rfl
@[simp] theorem setQuad_power (s : State) (q : Quad) : (s.setQuad q).power = s.power := by unfold State.setQuad; split <;> rfl
@[simp] theorem setQuad_held (s : State) (q : Quad) : (s.setQuad q).held = s.held := by unfold State.setQuad; split <;> rfl
@[simp] theorem setQuad_shut (s : State) (q : Quad) : (s.setQuad q).shut = s.shut := by unfold State.setQuad; split <;> rfl
@[simp] theorem setQuad_mstat (s : State) (q : Quad) : (s.setQuad q).mstat = s.mstat := by unfold State.setQuad; split <;> rfl
@[simp] theorem setQuad_modid (s : State) (q : Quad) : (s.setQuad q).modid = s.modid := by unfold State.setQuad; split <;> rfl
@[simp] theorem setQuad_cccur (s : State) (q : Quad) : (s.setQuad q).cccur = s.cccur := by unfold State.setQuad; split <;> rfl
@[simp] theorem setQuad_ccnext (s : State) (q : Quad) : (s.setQuad q).ccnext = s.ccnext := by unfold State.setQuad; split <;> rfl
@[simp] theorem setQuad_hbmHot (s : State) (q : Quad) : (s.setQuad q).hbmHot = s.hbmHot := by unfold State.setQuad; split <;> rfl
@[simp] theorem setQuad_fw (s : State) (q : Quad) : (s.setQuad q).fw = s.fw := by unfold State.setQuad; split <;> rfl
@[simp] theorem setQuad_fwStaged (s : State) (q : Quad) : (s.setQuad q).fwStaged = s.fwStaged := by unfold State.setQuad; split <;> rfl
@[simp] theorem setQuad_attest (s : State) (q : Quad) : (s.setQuad q).attest = s.attest := by unfold State.setQuad; split <;> rfl
@[simp] theorem setQuad_ctxtb (s : State) (q : Quad) : (s.setQuad q).ctxtb = s.ctxtb := by unfold State.setQuad; split <;> rfl
@[simp] theorem setQuad_hctx (s : State) (q : Quad) : (s.setQuad q).hctx = s.hctx := by unfold State.setQuad; split <;> rfl
@[simp] theorem setQuad_ports (s : State) (q : Quad) : (s.setQuad q).ports = s.ports := by unfold State.setQuad; split <;> rfl
@[simp] theorem setQuad_mbox (s : State) (q : Quad) : (s.setQuad q).mbox = s.mbox := by unfold State.setQuad; split <;> rfl
@[simp] theorem setQuad_keys (s : State) (q : Quad) : (s.setQuad q).keys = s.keys := by unfold State.setQuad; split <;> rfl
@[simp] theorem setQuad_enc (s : State) (q : Quad) : (s.setQuad q).enc = s.enc := by unfold State.setQuad; split <;> rfl
@[simp] theorem setQuad_ueMem (s : State) (q : Quad) : (s.setQuad q).ueMem = s.ueMem := by unfold State.setQuad; split <;> rfl
@[simp] theorem setQuad_mem (s : State) (q : Quad) : (s.setQuad q).mem = s.mem := by unfold State.setQuad; split <;> rfl
@[simp] theorem setQuad_dies (s : State) (q : Quad) : (s.setQuad q).dies = s.dies := by unfold State.setQuad; split <;> rfl
@[simp] theorem setQuad_cores (s : State) (q : Quad) : (s.setQuad q).cores = s.cores := by unfold State.setQuad; split <;> rfl
@[simp] theorem setQuad_links (s : State) (q : Quad) : (s.setQuad q).links = s.links := by unfold State.setQuad; split <;> rfl
@[simp] theorem setQuad_now (s : State) (q : Quad) : (s.setQuad q).now = s.now := by unfold State.setQuad; split <;> rfl
@[simp] theorem setQuad_accepted (s : State) (q : Quad) : (s.setQuad q).accepted = s.accepted := by unfold State.setQuad; split <;> rfl
@[simp] theorem setQuad_armed (s : State) (q : Quad) : (s.setQuad q).armed = s.armed := by unfold State.setQuad; split <;> rfl
@[simp] theorem setQuad_events (s : State) (q : Quad) : (s.setQuad q).events = s.events := by unfold State.setQuad; split <;> rfl
@[simp] theorem setQuad_timers (s : State) (q : Quad) : (s.setQuad q).timers = s.timers := by unfold State.setQuad; split <;> rfl
@[simp] theorem setQuad_outbox (s : State) (q : Quad) : (s.setQuad q).outbox = s.outbox := by unfold State.setQuad; split <;> rfl
@[simp] theorem setQuad_turn (s : State) (q : Quad) : (s.setQuad q).turn = s.turn := by unfold State.setQuad; split <;> rfl
@[simp] theorem setQuad_cur (s : State) (q : Quad) : (s.setQuad q).cur = s.cur := by unfold State.setQuad; split <;> rfl
@[simp] theorem setQuad_stalled (s : State) (q : Quad) : (s.setQuad q).stalled = s.stalled := by unfold State.setQuad; split <;> rfl
@[simp] theorem setQuad_fresh (s : State) (q : Quad) : (s.setQuad q).fresh = s.fresh := by unfold State.setQuad; split <;> rfl
@[simp] theorem setQuad_temps (s : State) (q : Quad) : (s.setQuad q).temps = s.temps := by unfold State.setQuad; split <;> rfl
@[simp] theorem setQuad_cxlRanges (s : State) (q : Quad) : (s.setQuad q).cxlRanges = s.cxlRanges := by unfold State.setQuad; split <;> rfl
@[simp] theorem setQuad_units (s : State) (q : Quad) : (s.setQuad q).units = s.units := by unfold State.setQuad; split <;> rfl
@[simp] theorem setQuad_coreReset (s : State) (q : Quad) : (s.setQuad q).coreReset = s.coreReset := by unfold State.setQuad; split <;> rfl
@[simp] theorem setQuad_refusing (s : State) (q : Quad) : (s.setQuad q).refusing = s.refusing := by unfold State.setQuad; split <;> rfl
@[simp] theorem setQuad_clockAt (s : State) (q : Quad) : (s.setQuad q).clockAt = s.clockAt := by unfold State.setQuad; split <;> rfl

@[simp] theorem post_events (s : State) (e : Instr) : (s.post e).events = s.events ++ [e] := rfl
@[simp] theorem setDie_die (s : State) (d : Nat) (f : Die → Die) : (s.setDie d f).die d = f (s.die d) := by
  exact Vector.getElem_set_self (Fin.isLt _)
theorem setDie_other {s : State} {d e : Nat} {f : Die → Die} (h : d % 8 ≠ e % 8) : (s.setDie d f).die e = s.die e := by
  exact Vector.getElem_set_ne (Fin.isLt (Fin.ofNat 8 d)) (Fin.isLt (Fin.ofNat 8 e)) h

/-! ## Cores -/

theorem find_update {α : Type} {p : α → Bool} {l : List α} {x y : α} (hx : l.find? p = some x) (hy : p y = true) :
    (update p (fun _ => y) l).find? p = some y := by
  induction l with
  | nil => cases hx
  | cons z l ih =>
    unfold update
    by_cases hz : p z = true
    · rw [if_pos hz, List.find?_cons_of_pos hy]
    · rw [List.find?_cons_of_neg hz] at hx
      rw [if_neg hz, List.find?_cons_of_neg hz]
      exact ih hx

theorem find_update_other {α : Type} {p q : α → Bool} {l : List α} {y : α} (h : ∀ x, p x = true → q x = false) (hy : q y = false) :
    (update p (fun _ => y) l).find? q = l.find? q := by
  induction l with
  | nil => rfl
  | cons z l ih =>
    unfold update
    by_cases hz : p z = true
    · rw [if_pos hz, List.find?_cons_of_neg (by simp [hy]), List.find?_cons_of_neg (by simp [h z hz])]
    · rw [if_neg hz]
      by_cases hq : q z = true
      · rw [List.find?_cons_of_pos hq, List.find?_cons_of_pos hq]
      · rw [List.find?_cons_of_neg hq, List.find?_cons_of_neg hq, ih]

/-- The core that is put in is the one found under its number. -/
theorem core?_setCore {s : State} {c0 c : Core} (h : s.core? c.id = some c0) : (s.setCore c).core? c.id = some c :=
  find_update h (by simp)

theorem core?_setCore_other {s : State} {c : Core} {n : Nat} (h : n ≠ c.id) : (s.setCore c).core? n = s.core? n := by
  refine find_update_other (fun x hx => ?_) ?_
  · simp only [decide_eq_true_eq] at hx
    simp [hx, h.symm]
  · simp [h.symm]

@[simp] theorem core?_post (s : State) (e : Instr) (n : Nat) : (s.post e).core? n = s.core? n := rfl

theorem core?_id {s : State} {n : Nat} {c : Core} (h : s.core? n = some c) : c.id = n := by
  have := List.find?_some h
  simpa using this

/-! ## The thread that runs an instruction -/

@[simp] theorem flush_mem (m : M) : m.flush.mem = m.st.mem := rfl
@[simp] theorem flush_events (m : M) : m.flush.events = m.st.events := rfl
@[simp] theorem flush_dies (m : M) : m.flush.dies = m.st.dies := rfl
@[simp] theorem flush_now (m : M) : m.flush.now = m.st.now := rfl

theorem flush_core {m : M} {c0 : Core} (h : m.st.core? m.core.id = some c0) :
    m.flush.core? m.core.id = some { m.core with thr := m.core.thr.set m.tid m.thr } := core?_setCore (c := { m.core with thr := m.core.thr.set m.tid m.thr }) h
theorem flush_other {m : M} {n : Nat} (h : n ≠ m.core.id) : m.flush.core? n = m.st.core? n := core?_setCore_other h

/-- What `enter` answers: the core and the thread that `cur` selects, ready. -/
theorem enter_spec {i : Instr} {s : State} {m : M} (h : enter i s = some m) :
    m.st = { s with stalled := false } ∧ s.core? s.cur.1 = some m.core ∧ m.core.id = s.cur.1 ∧ m.tid = Fin.ofNat 8 s.cur.2 ∧
      m.thr = m.core.thr.get m.tid ∧ m.thr.run = .ready ∧ m.core.stopping = false ∧ m.npc = none ∧ m.snap = m.thr.rowsSnap m.core.w ∧ m.vwr = [] ∧ m.flags = 0 := by
  unfold enter at h
  split at h
  · cases h
  · rename_i c hc
    simp only at h
    split at h
    · rename_i hr
      cases h
      exact ⟨rfl, hc, core?_id hc, rfl, rfl, hr.1, by simpa using hr.2, rfl, rfl, rfl, rfl⟩
    · cases h

end Sys2Proof.Machine
end

