-- ==== Sys2Proof/Laws/Commit.lean ====
section
/-!
SUPPORT. What committing an instruction and writing a scalar register do, all of it.
-/
namespace Sys2Proof.Machine
open Sys2Proof Sys2Proof.Safety

theorem vget_set {α : Type} {n : Nat} (v : Vector α n) (i : Fin n) (x : α) : (v.set i x).get i = x := Vector.getElem_set_self i.isLt
theorem vget_set_ne {α : Type} {n : Nat} (v : Vector α n) {i j : Fin n} (x : α) (h : i ≠ j) : (v.set i x).get j = v.get j := Vector.getElem_set_ne i.isLt j.isLt (fun e => h (Fin.ext e))
/-- The same module but for packets and messages sent, and requests that a Lull holds back. -/
def Quiet (s t : State) : Prop := { t with links := s.links, outbox := s.outbox, events := s.events, dies := s.dies } = s ∧ DiesSame s t
theorem diesSame_refl {s t : State} (h : t.dies = s.dies) : DiesSame s t := fun i => by rw [h]
theorem diesSame_trans {a b c : State} (h : DiesSame a b) (h2 : DiesSame b c) : DiesSame a c := fun i => by
  rw [← h i, ← h2 i]
theorem Quiet.of {s t : State} (h : { t with links := s.links, outbox := s.outbox, events := s.events } = s) : Quiet s t :=
  ⟨by rw [← h], diesSame_refl (by rw [← h])⟩
theorem Quiet.refl (s : State) : Quiet s s := Quiet.of rfl
theorem Quiet.trans {a b c : State} (h : Quiet a b) (h2 : Quiet b c) : Quiet a c :=
  ⟨by rw [← h.1, ← h2.1], diesSame_trans h.2 h2.2⟩
theorem quiet_setLink (s : State) (k : Link) : Quiet s (s.setLink k) := Quiet.of rfl
theorem quiet_wire (s : State) (l : LinkId) (f : Flit) : Quiet s (s.wire l f) := by
  unfold State.wire; split <;> exact Quiet.of rfl
theorem quiet_flitOut (s : State) (l : LinkId) (a : BitVec 8) (e : Bool) (mk : Option Mark) (ps : List Carried) : Quiet s (s.flitOut l a e mk ps) :=
  (quiet_setLink s _).trans (quiet_wire _ _ _)
/-- A fold of quiet steps is quiet. -/
theorem quiet_fold {α : Type} (f : State → α → State) (hf : ∀ s x, Quiet s (f s x)) : ∀ (l : List α) (s : State), Quiet s (l.foldl f s)
  | [], s => Quiet.refl s
  | x :: l, s => (hf s x).trans (quiet_fold f hf l _)
theorem quiet_idle : ∀ (n : Nat) (l : LinkId) (s : State), Quiet s (s.idleFlits n l)
  | 0, _, s => Quiet.refl s
  | n + 1, l, s => by
    unfold State.idleFlits
    dsimp only
    split
    · exact (quiet_flitOut _ _ _ _ _ _).trans (quiet_idle n l _)
    · exact Quiet.refl s
theorem quiet_drain (s : State) (l : LinkId) : Quiet s (s.linkDrain l) := by
  unfold State.linkDrain
  dsimp only
  split
  · exact Quiet.refl s
  · have h1 : Quiet s (s.sendMarks l) := (quiet_setLink s _).trans (quiet_fold _ (fun s x => quiet_flitOut s _ _ _ _ _) _ _)
    exact h1.trans ((quiet_setLink _ _).trans ((quiet_fold _ (fun s x => quiet_flitOut s _ _ _ _ _) _ _).trans (quiet_idle _ _ _)))
theorem quiet_linkSend (s : State) (l : LinkId) (c : Carried) : Quiet s (s.linkSend l c) := by
  unfold State.linkSend
  dsimp only
  split
  · exact (quiet_setLink _ _).trans (quiet_drain _ _)
  · exact Quiet.refl s
theorem quiet_hold (s : State) (die : Nat) (ps : List Packet) : Quiet s (s.setDie die fun d => { d with lullHeld := ps }) := by
  refine ⟨rfl, fun i => ?_⟩
  unfold State.setDie
  dsimp only
  by_cases h : Fin.ofNat 8 die = i
  · subst h; rw [vget_set]; rfl
  · rw [vget_set_ne _ _ h]
theorem quiet_arrive (s : State) (die : Nat) (p : Packet) (hk : isKeyed p = false) : Quiet s (s.arrive die p) := by
  have hl : s.loopBack p = false := by simp [State.loopBack, hk]
  unfold State.arrive
  dsimp only
  rw [hl]
  split
  · exact quiet_hold s die _
  · exact Quiet.of rfl
/-- A packet that is no keyed request: sending it changes packets and messages on their way only. -/
theorem quiet_send (s : State) (p : Packet) (hk : isKeyed p = false) : Quiet s (s.send p) := by
  have he (die gw : Nat) : s.entryReply die gw p = none := by simp [State.entryReply, hk]
  unfold State.send
  dsimp only
  split
  · rw [he]
    dsimp only
    unfold State.forward
    dsimp only
    split
    · exact quiet_arrive _ _ _ hk
    · exact quiet_linkSend _ _ _
  · split
    · exact quiet_linkSend _ _ _
    · exact Quiet.refl s
theorem quiet_credit (m : M) (j : Fin 8) (s : State) : Quiet s (creditReturn m j s) := by
  unfold creditReturn
  cases (m.thr.q.get j).bind with
  | toTeam =>
    dsimp only; split
    · exact Quiet.of rfl
    · exact quiet_send _ _ rfl
  | _ => exact Quiet.refl s
/-- Taking queue entries changes the thread's queues and sends credits. -/
theorem pops (l : List (Fin 8)) (m : M) : ∃ st q, l.foldl M.pop m = { m with st := st, thr := { m.thr with q := q } } ∧ Quiet m.st st := by
  induction l generalizing m with
  | nil => exact ⟨m.st, m.thr.q, rfl, Quiet.refl _⟩
  | cons j l ih =>
    obtain ⟨st, q, h, hq⟩ := ih (m.pop j)
    refine ⟨st, q, h.trans rfl, ?_⟩
    exact (show Quiet m.st (m.pop j).st from quiet_credit m j m.st).trans hq
theorem Quiet.same {s t : State} (h : Quiet s t) : ModuleSame s t := by
  exact ⟨by rw [← h.1], h.2⟩
theorem Quiet.cores {s t : State} (h : Quiet s t) : t.cores = s.cores := by
  have := congrArg State.cores h.1; exact this
theorem flush_same {m : M} {s : State} (h : Quiet s m.st) : ModuleSame s m.flush := by
  exact ⟨h.same.1, h.same.2⟩
/-- Advancing changes the PC and the loop counts. -/
theorem advance_eq (t : Thread) (n : Nat) : ∃ pc lc, t.advance n = { t with pc := pc, lcount := lc } := by
  unfold Thread.advance loopEnd
  dsimp only
  repeat' split
  all_goals first | exact ⟨_, _, rfl⟩ | skip
/-- Everything that committing does. -/
theorem retire_eq (i : Instr) (m0 m : M) : ∃ st t vb vp sc, retire i m0 m = { m with st := st, thr := t, core := { m.core with vbusy := vb, vpipe := vp, sundogC := sc } } ∧ Quiet m.st st ∧
    ThreadSame { m.thr with fpflags := t.fpflags } t ∧ t.fpflags = m.thr.fpflags ||| m.flags.setWidth 64 ∧ (isVector i = false → vb = m.core.vbusy ∧ vp = m.core.vpipe ∧ sc = m.core.sundogC) := by
  obtain ⟨st, q, hp, hq⟩ := pops (if gatedOff m0 i then [] else queueSrcs (activeUses m0 i)) m
  unfold retire
  dsimp only
  rw [hp]
  cases hv : isVector i
  · simp only [Bool.false_eq_true, if_false]
    cases hn : m.npc with
    | some pc => exact ⟨st, _, m.core.vbusy, m.core.vpipe, m.core.sundogC, rfl, hq, rfl, rfl, fun _ => ⟨rfl, rfl, rfl⟩⟩
    | none =>
      dsimp only
      generalize hA : clearLatch m.vwr m.thr.latchA = lA
      generalize hB : clearLatch m.vwr m.thr.latchB = lB
      generalize hC : clearLatch m.vwr m.thr.latchC = lC
      obtain ⟨pc, lc, he⟩ := advance_eq { m.thr with q := q, latchA := lA, latchB := lB, latchC := lC, fpflags := m.thr.fpflags ||| m.flags.setWidth 64, granted := false, tile := [], held := [], pendTrap := none, waitEnd := none, oldRows := none } m.len
      refine ⟨st, { m.thr with q := q, latchA := lA, latchB := lB, latchC := lC, fpflags := m.thr.fpflags ||| m.flags.setWidth 64, granted := false, tile := [], held := [], pendTrap := none, waitEnd := none, oldRows := none, pc := pc, lcount := lc }, m.core.vbusy, m.core.vpipe, m.core.sundogC, ?_, hq, ?_, ?_, fun _ => ⟨rfl, rfl, rfl⟩⟩
      · rw [he]
      · rfl
      · rfl
  · simp only [if_true]
    cases hn : m.npc with
    | some pc => exact ⟨st, _, _, _, _, rfl, hq, rfl, rfl, fun h => Bool.noConfusion h⟩
    | none =>
      dsimp only
      generalize hA : clearLatch m.vwr ((positions i).getD 0 none) = lA
      generalize hB : clearLatch m.vwr ((positions i).getD 1 none) = lB
      generalize hC : clearLatch m.vwr ((positions i).getD 2 none) = lC
      obtain ⟨pc, lc, he⟩ := advance_eq { m.thr with q := q, latchA := lA, latchB := lB, latchC := lC, retained := false, fpflags := m.thr.fpflags ||| m.flags.setWidth 64, granted := false, tile := [], held := [], pendTrap := none, waitEnd := none, oldRows := none } m.len
      refine ⟨st, { m.thr with q := q, latchA := lA, latchB := lB, latchC := lC, retained := false, fpflags := m.thr.fpflags ||| m.flags.setWidth 64, granted := false, tile := [], held := [], pendTrap := none, waitEnd := none, oldRows := none, pc := pc, lcount := lc }, (m.st.datapath m.core.vpipe (m.st.now + bankCycles m0.thr (positions i))).1, (m.st.datapath m.core.vpipe (m.st.now + bankCycles m0.thr (positions i))).2, m.core.sundogC + 1, ?_, hq, ?_, ?_, fun h => Bool.noConfusion h⟩
      · rw [he]
      · rfl
      · rfl

/-- Everything that writing a scalar destination does (R13, R149): the register, nothing for `c0`, or a push. -/
theorem wr_eq (m : M) (f : F6) (v : Cap) : ∃ st q c w ts, m.wr f v = { m with st := st, thr := { m.thr with c := c, q := q }, core := { m.core with w := w, thr := ts } } ∧ Quiet m.st st ∧
    (∀ r : Fin 32, r.val ≠ f.toNat ∨ f = 0 → c.get r = m.thr.c.get r) ∧ (∀ r : Fin 16, r.val + 32 ≠ f.toNat → w.get r = m.core.w.get r) ∧
    (∀ x : Fin 8, { ts.get x with q := (m.core.thr.get x).q } = m.core.thr.get x) := by
  unfold M.wr
  dsimp only
  split
  · exact ⟨m.st, m.thr.q, m.thr.c, m.core.w, m.core.thr, rfl, Quiet.refl _, fun _ _ => rfl, fun _ _ => rfl, fun _ => rfl⟩
  · rename_i h0
    split
    · rename_i h1
      refine ⟨m.st, m.thr.q, _, m.core.w, m.core.thr, rfl, Quiet.refl _, fun r hr => ?_, fun _ _ => rfl, fun _ => rfl⟩
      refine vget_set_ne _ _ fun e => ?_
      rcases hr with hr | rfl
      · exact hr (by rw [← e]; exact (Nat.mod_eq_of_lt h1))
      · exact h0 rfl
    · split
      · rename_i h1 h2
        refine ⟨m.st, m.thr.q, m.thr.c, _, m.core.thr, rfl, Quiet.refl _, fun _ _ => rfl, fun r hr => ?_, fun _ => rfl⟩
        refine vget_set_ne _ _ fun e => hr ?_
        rw [← e]; show (f.toNat - 32) % 16 + 32 = _
        omega
      · split
        · unfold M.push
          dsimp only
          split
          · unfold M.setThr
            split
            · exact ⟨m.st, _, m.thr.c, m.core.w, m.core.thr, rfl, Quiet.refl _, fun _ _ => rfl, fun _ _ => rfl, fun _ => rfl⟩
            · refine ⟨m.st, m.thr.q, m.thr.c, m.core.w, _, rfl, Quiet.refl _, fun _ _ => rfl, fun _ _ => rfl, fun x => ?_⟩
              rename_i u _ _ _
              by_cases hx : Fin.ofNat 8 u.toNat = x
              · subst hx; rw [vget_set]; rfl
              · rw [vget_set_ne _ _ hx]
          · exact ⟨_, _, m.thr.c, m.core.w, m.core.thr, rfl, quiet_send _ _ rfl, fun _ _ => rfl, fun _ _ => rfl, fun _ => rfl⟩
          · exact ⟨m.st, m.thr.q, m.thr.c, m.core.w, m.core.thr, rfl, Quiet.refl _, fun _ _ => rfl, fun _ _ => rfl, fun _ => rfl⟩
        · exact ⟨m.st, m.thr.q, m.thr.c, m.core.w, m.core.thr, rfl, Quiet.refl _, fun _ _ => rfl, fun _ _ => rfl, fun _ => rfl⟩

end Sys2Proof.Machine
end

