-- ==== Sys2Proof/Laws/Control.lean ====
section
/-!
SUPPORT. Transfers: when a relative or a capability transfer completes.
-/
namespace Sys2Proof.Machine
open Sys2Proof Sys2Proof.Safety

theorem inBounds {c : Cap} {a : Nat} (h1 : c.base ≤ a) (h2 : a + 4 ≤ c.top) : checkBounds c a 4 = .ok () := by
  unfold checkBounds
  split
  · rfl
  · rw [if_neg (by omega), if_neg (by omega), if_neg (by omega)]

theorem jump_ok {m : M} {t : W64} (h1 : m.thr.pc.base ≤ t.toNat) (h2 : t.toNat + 4 ≤ m.thr.pc.top) :
    m.jumpTo t = .ok { m with npc := some (m.thr.pc.setCursor t) } := by
  simp only [M.jumpTo, inBounds h1 h2, bind, Except.bind]

theorem branch_taken {w : Nat} {x : Form} {off : BitVec w} {f : M → Bool} {m : M} (hf : f m = true)
    (h1 : m.thr.pc.base ≤ (m.thr.pc.cursor + wordOff x off).toNat) (h2 : (m.thr.pc.cursor + wordOff x off).toNat + 4 ≤ m.thr.pc.top) :
    branchIf x off f m = .ok { m with npc := some (m.thr.pc.setCursor (m.thr.pc.cursor + wordOff x off)) } := by
  simp only [branchIf, hf, if_true, jump_ok h1 h2]

theorem branch_not {w : Nat} {x : Form} {off : BitVec w} {f : M → Bool} {m : M} (hf : f m = false) : branchIf x off f m = .ok m := by
  simp [branchIf, hf]

theorem target_ok {f : F6} {c : Cap} (h1 : c.tag = true) (h2 : c.kind = 0) (h3 : c.bits.getLsbD 108 = true) (h4 : c.cursor.toNat % 4 = 0)
    (h5 : c.base ≤ c.cursor.toNat) (h6 : c.cursor.toNat + 4 ≤ c.top) : checkTarget f c = .ok () := by
  have hx : capHas c .ex = true := by unfold capHas; rw [if_neg (by omega)]; exact h3
  simp [checkTarget, checkCap, checkAligned, trapIf, h1, h2, hx, h4, inBounds h5 h6, bind, Except.bind]

theorem kind_pure (c : Cap) : (Cap.unseal c).tag = c.tag := rfl

end Sys2Proof.Machine
end

