-- ==== Sys2Proof/Laws/Exec.lean ====
section
/-!
SUPPORT. What `exec` is for each instruction with words: `runInstr` of its effect.
-/
namespace Sys2Proof.Machine
open Sys2Proof

theorem exec_pairWord (slot : PairSlot) (v : Instr) (s : State) : exec (.pairWord slot v) s = runInstr (.pairWord slot v) (opPairWord slot v) s := rfl
theorem exec_widenedForm (x : Ext) (base : Instr) (s : State) : exec (.widenedForm x base) s = runInstr (.widenedForm x base) (baseOp (some x) base) s := rfl
theorem exec_literalForm (x : Ext) (lit : W64) (base : Instr) (s : State) : exec (.literalForm x lit base) s = runInstr (.literalForm x lit base) (baseOp (some x) base) s := rfl
theorem exec_add (d a b : F6) (s : State) : exec (.add d a b) s = runInstr (.add d a b) (opAdd d a b) s := rfl
theorem exec_sub (d a b : F6) (s : State) : exec (.sub d a b) s = runInstr (.sub d a b) (opSub d a b) s := rfl
theorem exec_and (d a b : F6) (s : State) : exec (.and d a b) s = runInstr (.and d a b) (opAnd d a b) s := rfl
theorem exec_or (d a b : F6) (s : State) : exec (.or d a b) s = runInstr (.or d a b) (opOr d a b) s := rfl
theorem exec_xor (d a b : F6) (s : State) : exec (.xor d a b) s = runInstr (.xor d a b) (opXor d a b) s := rfl
theorem exec_andn (d a b : F6) (s : State) : exec (.andn d a b) s = runInstr (.andn d a b) (opAndn d a b) s := rfl
theorem exec_orn (d a b : F6) (s : State) : exec (.orn d a b) s = runInstr (.orn d a b) (opOrn d a b) s := rfl
theorem exec_sll (d a b : F6) (s : State) : exec (.sll d a b) s = runInstr (.sll d a b) (opSll d a b) s := rfl
theorem exec_srl (d a b : F6) (s : State) : exec (.srl d a b) s = runInstr (.srl d a b) (opSrl d a b) s := rfl
theorem exec_sra (d a b : F6) (s : State) : exec (.sra d a b) s = runInstr (.sra d a b) (opSra d a b) s := rfl
theorem exec_rol (d a b : F6) (s : State) : exec (.rol d a b) s = runInstr (.rol d a b) (opRol d a b) s := rfl
theorem exec_min (d a b : F6) (s : State) : exec (.min d a b) s = runInstr (.min d a b) (opMin d a b) s := rfl
theorem exec_max (d a b : F6) (s : State) : exec (.max d a b) s = runInstr (.max d a b) (opMax d a b) s := rfl
theorem exec_minu (d a b : F6) (s : State) : exec (.minu d a b) s = runInstr (.minu d a b) (opMinu d a b) s := rfl
theorem exec_maxu (d a b : F6) (s : State) : exec (.maxu d a b) s = runInstr (.maxu d a b) (opMaxu d a b) s := rfl
theorem exec_mul (d a b : F6) (s : State) : exec (.mul d a b) s = runInstr (.mul d a b) (opMul d a b) s := rfl
theorem exec_mulh (d a b : F6) (s : State) : exec (.mulh d a b) s = runInstr (.mulh d a b) (opMulh d a b) s := rfl
theorem exec_mulhu (d a b : F6) (s : State) : exec (.mulhu d a b) s = runInstr (.mulhu d a b) (opMulhu d a b) s := rfl
theorem exec_div (d a b : F6) (s : State) : exec (.div d a b) s = runInstr (.div d a b) (opDiv d a b) s := rfl
theorem exec_divu (d a b : F6) (s : State) : exec (.divu d a b) s = runInstr (.divu d a b) (opDivu d a b) s := rfl
theorem exec_rem (d a b : F6) (s : State) : exec (.rem d a b) s = runInstr (.rem d a b) (opRem d a b) s := rfl
theorem exec_remu (d a b : F6) (s : State) : exec (.remu d a b) s = runInstr (.remu d a b) (opRemu d a b) s := rfl
theorem exec_addc (d a b : F6) (s : State) : exec (.addc d a b) s = runInstr (.addc d a b) (opAddc none d a b) s := rfl
theorem exec_subb (d a b : F6) (s : State) : exec (.subb d a b) s = runInstr (.subb d a b) (opSubb none d a b) s := rfl
theorem exec_clz (d a : F6) (s : State) : exec (.clz d a) s = runInstr (.clz d a) (opClz d a) s := rfl
theorem exec_ctz (d a : F6) (s : State) : exec (.ctz d a) s = runInstr (.ctz d a) (opCtz d a) s := rfl
theorem exec_popc (d a : F6) (s : State) : exec (.popc d a) s = runInstr (.popc d a) (opPopc d a) s := rfl
theorem exec_sext (d a b : F6) (s : State) : exec (.sext d a b) s = runInstr (.sext d a b) (opSext d a b) s := rfl
theorem exec_zext (d a b : F6) (s : State) : exec (.zext d a b) s = runInstr (.zext d a b) (opZext d a b) s := rfl
theorem exec_addi (d a : F6) (imm : BitVec 10) (s : State) : exec (.addi d a imm) s = runInstr (.addi d a imm) (opAddi none d a imm) s := rfl
theorem exec_andi (d a : F6) (imm : BitVec 10) (s : State) : exec (.andi d a imm) s = runInstr (.andi d a imm) (opAndi none d a imm) s := rfl
theorem exec_ori (d a : F6) (imm : BitVec 10) (s : State) : exec (.ori d a imm) s = runInstr (.ori d a imm) (opOri none d a imm) s := rfl
theorem exec_xori (d a : F6) (imm : BitVec 10) (s : State) : exec (.xori d a imm) s = runInstr (.xori d a imm) (opXori none d a imm) s := rfl
theorem exec_slli (d a amt : F6) (s : State) : exec (.slli d a amt) s = runInstr (.slli d a amt) (opSlli none d a amt) s := rfl
theorem exec_srli (d a amt : F6) (s : State) : exec (.srli d a amt) s = runInstr (.srli d a amt) (opSrli none d a amt) s := rfl
theorem exec_srai (d a amt : F6) (s : State) : exec (.srai d a amt) s = runInstr (.srai d a amt) (opSrai none d a amt) s := rfl
theorem exec_roli (d a amt : F6) (s : State) : exec (.roli d a amt) s = runInstr (.roli d a amt) (opRoli none d a amt) s := rfl
theorem exec_ceq (d : BitVec 3) (a b : F6) (s : State) : exec (.ceq d a b) s = runInstr (.ceq d a b) (opCeq d a b) s := rfl
theorem exec_cne (d : BitVec 3) (a b : F6) (s : State) : exec (.cne d a b) s = runInstr (.cne d a b) (opCne d a b) s := rfl
theorem exec_clt (d : BitVec 3) (a b : F6) (s : State) : exec (.clt d a b) s = runInstr (.clt d a b) (opClt d a b) s := rfl
theorem exec_cge (d : BitVec 3) (a b : F6) (s : State) : exec (.cge d a b) s = runInstr (.cge d a b) (opCge d a b) s := rfl
theorem exec_cltu (d : BitVec 3) (a b : F6) (s : State) : exec (.cltu d a b) s = runInstr (.cltu d a b) (opCltu d a b) s := rfl
theorem exec_cgeu (d : BitVec 3) (a b : F6) (s : State) : exec (.cgeu d a b) s = runInstr (.cgeu d a b) (opCgeu d a b) s := rfl
theorem exec_ctst (d : BitVec 3) (a b : F6) (s : State) : exec (.ctst d a b) s = runInstr (.ctst d a b) (opCtst d a b) s := rfl
theorem exec_bfx (d a : F6) (pos len : BitVec 5) (s : State) : exec (.bfx d a pos len) s = runInstr (.bfx d a pos len) (opBfx none d a pos len) s := rfl
theorem exec_bfxs (d a : F6) (pos len : BitVec 5) (s : State) : exec (.bfxs d a pos len) s = runInstr (.bfxs d a pos len) (opBfxs none d a pos len) s := rfl
theorem exec_bfi (d a : F6) (pos len : BitVec 5) (s : State) : exec (.bfi d a pos len) s = runInstr (.bfi d a pos len) (opBfi none d a pos len) s := rfl
theorem exec_bfclr (d a : F6) (pos len : BitVec 5) (s : State) : exec (.bfclr d a pos len) s = runInstr (.bfclr d a pos len) (opBfclr none d a pos len) s := rfl
theorem exec_mov (d a : F6) (s : State) : exec (.mov d a) s = runInstr (.mov d a) (opMov d a) s := rfl
theorem exec_sel (k : BitVec 3) (d a b : F6) (s : State) : exec (.sel k d a b) s = runInstr (.sel k d a b) (opSel k d a b) s := rfl
theorem exec_kand (d a b : BitVec 3) (s : State) : exec (.kand d a b) s = runInstr (.kand d a b) (opKand d a b) s := rfl
theorem exec_kor (d a b : BitVec 3) (s : State) : exec (.kor d a b) s = runInstr (.kor d a b) (opKor d a b) s := rfl
theorem exec_kxor (d a b : BitVec 3) (s : State) : exec (.kxor d a b) s = runInstr (.kxor d a b) (opKxor d a b) s := rfl
theorem exec_knot (d a : BitVec 3) (s : State) : exec (.knot d a) s = runInstr (.knot d a) (opKnot d a) s := rfl
theorem exec_kmovc (d : BitVec 3) (a : F6) (s : State) : exec (.kmovc d a) s = runInstr (.kmovc d a) (opKmovc d a) s := rfl
theorem exec_kmovk (d : F6) (a : BitVec 3) (s : State) : exec (.kmovk d a) s = runInstr (.kmovk d a) (opKmovk d a) s := rfl
theorem exec_kpop (d : F6) (a : BitVec 3) (s : State) : exec (.kpop d a) s = runInstr (.kpop d a) (opKpop d a) s := rfl
theorem exec_kfirst (d : F6) (a : BitVec 3) (s : State) : exec (.kfirst d a) s = runInstr (.kfirst d a) (opKfirst d a) s := rfl
theorem exec_cbnd (d a b : F6) (s : State) : exec (.cbnd d a b) s = runInstr (.cbnd d a b) (opCbnd d a b) s := rfl
theorem exec_cbndx (d a b : F6) (s : State) : exec (.cbndx d a b) s = runInstr (.cbndx d a b) (opCbndx d a b) s := rfl
theorem exec_cprm (d a b : F6) (s : State) : exec (.cprm d a b) s = runInstr (.cprm d a b) (opCprm d a b) s := rfl
theorem exec_cadd (d a b : F6) (s : State) : exec (.cadd d a b) s = runInstr (.cadd d a b) (opCadd d a b) s := rfl
theorem exec_cset (d a b : F6) (s : State) : exec (.cset d a b) s = runInstr (.cset d a b) (opCset d a b) s := rfl
theorem exec_cbase (d a : F6) (s : State) : exec (.cbase d a) s = runInstr (.cbase d a) (opCbase d a) s := rfl
theorem exec_clen (d a : F6) (s : State) : exec (.clen d a) s = runInstr (.clen d a) (opClen d a) s := rfl
theorem exec_cperm (d a : F6) (s : State) : exec (.cperm d a) s = runInstr (.cperm d a) (opCperm d a) s := rfl
theorem exec_ctype (d a : F6) (s : State) : exec (.ctype d a) s = runInstr (.ctype d a) (opCtype d a) s := rfl
theorem exec_ctag (d a : F6) (s : State) : exec (.ctag d a) s = runInstr (.ctag d a) (opCtag d a) s := rfl
theorem exec_cclr (d a : F6) (s : State) : exec (.cclr d a) s = runInstr (.cclr d a) (opCclr d a) s := rfl
theorem exec_cseal (d a : F6) (s : State) : exec (.cseal d a) s = runInstr (.cseal d a) (opCseal d a) s := rfl
theorem exec_capCeq (d a b : F6) (s : State) : exec (.capCeq d a b) s = runInstr (.capCeq d a b) (opCapCeq d a b) s := rfl
theorem exec_csub (d a b : F6) (s : State) : exec (.csub d a b) s = runInstr (.csub d a b) (opCsub d a b) s := rfl
theorem exec_mvi (d : F6) (imm : BitVec 18) (s : State) : exec (.mvi d imm) s = runInstr (.mvi d imm) (opMvi none d imm) s := rfl
theorem exec_adr (d : F6) (imm : BitVec 18) (s : State) : exec (.adr d imm) s = runInstr (.adr d imm) (opAdr none d imm) s := rfl
theorem exec_ld (d a : F6) (sz : BitVec 3) (am : BitVec 2) (ea : BitVec 7) (s : State) : exec (.ld d a sz am ea) s = runInstr (.ld d a sz am ea) (opLd none d a sz am ea) s := rfl
theorem exec_lds (d a : F6) (sz : BitVec 3) (am : BitVec 2) (ea : BitVec 7) (s : State) : exec (.lds d a sz am ea) s = runInstr (.lds d a sz am ea) (opLds none d a sz am ea) s := rfl
theorem exec_st (d a : F6) (sz : BitVec 3) (am : BitVec 2) (ea : BitVec 7) (s : State) : exec (.st d a sz am ea) s = runInstr (.st d a sz am ea) (opSt none d a sz am ea) s := rfl
theorem exec_ldfeAny (d a : F6) (am : BitVec 2) (ea : BitVec 7) (s : State) : exec (.ldfeAny d a am ea) s = runInstr (.ldfeAny d a am ea) (opLdfeAny none d a am ea) s := rfl
theorem exec_ldfeWf (d a : F6) (am : BitVec 2) (ea : BitVec 7) (s : State) : exec (.ldfeWf d a am ea) s = runInstr (.ldfeWf d a am ea) (opLdfeWf none d a am ea) s := rfl
theorem exec_ldfeWfe (d a : F6) (am : BitVec 2) (ea : BitVec 7) (s : State) : exec (.ldfeWfe d a am ea) s = runInstr (.ldfeWfe d a am ea) (opLdfeWfe none d a am ea) s := rfl
theorem exec_ldfeSt (d a : F6) (am : BitVec 2) (ea : BitVec 7) (s : State) : exec (.ldfeSt d a am ea) s = runInstr (.ldfeSt d a am ea) (opLdfeSt none d a am ea) s := rfl
theorem exec_stfeSf (d a : F6) (am : BitVec 2) (ea : BitVec 7) (s : State) : exec (.stfeSf d a am ea) s = runInstr (.stfeSf d a am ea) (opStfeSf none d a am ea) s := rfl
theorem exec_stfeWef (d a : F6) (am : BitVec 2) (ea : BitVec 7) (s : State) : exec (.stfeWef d a am ea) s = runInstr (.stfeWef d a am ea) (opStfeWef none d a am ea) s := rfl
theorem exec_stfeSe (a : F6) (am : BitVec 2) (ea : BitVec 7) (s : State) : exec (.stfeSe a am ea) s = runInstr (.stfeSe a am ea) (opStfeSe none a am ea) s := rfl
theorem exec_stfeKeep (d a : F6) (am : BitVec 2) (ea : BitVec 7) (s : State) : exec (.stfeKeep d a am ea) s = runInstr (.stfeKeep d a am ea) (opStfeKeep none d a am ea) s := rfl
theorem exec_amoAdd (d a b : F6) (sc : BitVec 3) (s : State) : exec (.amoAdd d a b sc) s = runInstr (.amoAdd d a b sc) (opAmoAdd none d a b sc) s := rfl
theorem exec_amoAnd (d a b : F6) (sc : BitVec 3) (s : State) : exec (.amoAnd d a b sc) s = runInstr (.amoAnd d a b sc) (opAmoAnd none d a b sc) s := rfl
theorem exec_amoOr (d a b : F6) (sc : BitVec 3) (s : State) : exec (.amoOr d a b sc) s = runInstr (.amoOr d a b sc) (opAmoOr none d a b sc) s := rfl
theorem exec_amoXor (d a b : F6) (sc : BitVec 3) (s : State) : exec (.amoXor d a b sc) s = runInstr (.amoXor d a b sc) (opAmoXor none d a b sc) s := rfl
theorem exec_amoMin (d a b : F6) (sc : BitVec 3) (s : State) : exec (.amoMin d a b sc) s = runInstr (.amoMin d a b sc) (opAmoMin none d a b sc) s := rfl
theorem exec_amoMax (d a b : F6) (sc : BitVec 3) (s : State) : exec (.amoMax d a b sc) s = runInstr (.amoMax d a b sc) (opAmoMax none d a b sc) s := rfl
theorem exec_amoMinu (d a b : F6) (sc : BitVec 3) (s : State) : exec (.amoMinu d a b sc) s = runInstr (.amoMinu d a b sc) (opAmoMinu none d a b sc) s := rfl
theorem exec_amoSwap (d a b : F6) (sc : BitVec 3) (s : State) : exec (.amoSwap d a b sc) s = runInstr (.amoSwap d a b sc) (opAmoSwap none d a b sc) s := rfl
theorem exec_fence (sc : BitVec 3) (ord : BitVec 2) (eng : Bool) (s : State) : exec (.fence sc ord eng) s = runInstr (.fence sc ord eng) (opFence sc ord eng) s := rfl
theorem exec_cwb (a b : F6) (s : State) : exec (.cwb a b) s = runInstr (.cwb a b) (opCwb none a b) s := rfl
theorem exec_cinv (a b : F6) (s : State) : exec (.cinv a b) s = runInstr (.cinv a b) (opCinv none a b) s := rfl
theorem exec_cwbinv (a b : F6) (s : State) : exec (.cwbinv a b) s = runInstr (.cwbinv a b) (opCwbinv none a b) s := rfl
theorem exec_cpre (a b : F6) (s : State) : exec (.cpre a b) s = runInstr (.cpre a b) (opCpre none a b) s := rfl
theorem exec_bk (k : BitVec 3) (pol : Bool) (off : BitVec 18) (s : State) : exec (.bk k pol off) s = runInstr (.bk k pol off) (opBk none k pol off) s := rfl
theorem exec_bra (off : BitVec 18) (s : State) : exec (.bra off) s = runInstr (.bra off) (opBra none off) s := rfl
theorem exec_bz (r : F6) (off : BitVec 15) (s : State) : exec (.bz r off) s = runInstr (.bz r off) (opBz none r off) s := rfl
theorem exec_bnz (r : F6) (off : BitVec 15) (s : State) : exec (.bnz r off) s = runInstr (.bnz r off) (opBnz none r off) s := rfl
theorem exec_bltz (r : F6) (off : BitVec 15) (s : State) : exec (.bltz r off) s = runInstr (.bltz r off) (opBltz none r off) s := rfl
theorem exec_bgez (r : F6) (off : BitVec 15) (s : State) : exec (.bgez r off) s = runInstr (.bgez r off) (opBgez none r off) s := rfl
theorem exec_blez (r : F6) (off : BitVec 15) (s : State) : exec (.blez r off) s = runInstr (.blez r off) (opBlez none r off) s := rfl
theorem exec_bgtz (r : F6) (off : BitVec 15) (s : State) : exec (.bgtz r off) s = runInstr (.bgtz r off) (opBgtz none r off) s := rfl
theorem exec_jmp (off : BitVec 24) (s : State) : exec (.jmp off) s = runInstr (.jmp off) (opJmp none off) s := rfl
theorem exec_call (off : BitVec 24) (s : State) : exec (.call off) s = runInstr (.call off) (opCall none off) s := rfl
theorem exec_jr (a : F6) (s : State) : exec (.jr a) s = runInstr (.jr a) (opJr a) s := rfl
theorem exec_jalr (d a : F6) (s : State) : exec (.jalr d a) s = runInstr (.jalr d a) (opJalr d a) s := rfl
theorem exec_ret (s : State) : exec (.ret) s = runInstr (.ret) (opRet) s := rfl
theorem exec_ccall (a : F6) (s : State) : exec (.ccall a) s = runInstr (.ccall a) (opCcall a) s := rfl
theorem exec_loop (d : F6) (off : BitVec 18) (s : State) : exec (.loop d off) s = runInstr (.loop d off) (opLoop none d off) s := rfl
theorem exec_yield (s : State) : exec (.yield) s = runInstr (.yield) (opYield) s := rfl
theorem exec_halt (s : State) : exec (.halt) s = runInstr (.halt) (opHalt) s := rfl
theorem exec_bar (s : State) : exec (.bar) s = runInstr (.bar) (opBar) s := rfl
theorem exec_wfe (s : State) : exec (.wfe) s = runInstr (.wfe) (opWfe) s := rfl
theorem exec_nop (s : State) : exec (.nop) s = runInstr (.nop) (opNop) s := rfl
theorem exec_sleep (a : F6) (s : State) : exec (.sleep a) s = runInstr (.sleep a) (opSleep a) s := rfl
theorem exec_brk (imm : BitVec 12) (s : State) : exec (.brk imm) s = runInstr (.brk imm) (opBrk imm) s := rfl
theorem exec_trap (imm : BitVec 12) (s : State) : exec (.trap imm) s = runInstr (.trap imm) (opTrap imm) s := rfl
theorem exec_eret (s : State) : exec (.eret) s = runInstr (.eret) (opEret) s := rfl
theorem exec_mfs (d : F6) (sr : BitVec 12) (s : State) : exec (.mfs d sr) s = runInstr (.mfs d sr) (opMfs d sr) s := rfl
theorem exec_mts (d : F6) (sr : BitVec 12) (s : State) : exec (.mts d sr) s = runInstr (.mts d sr) (opMts d sr) s := rfl
theorem exec_tlbinv (a b : F6) (s : State) : exec (.tlbinv a b) s = runInstr (.tlbinv a b) (opTlbinv a b) s := rfl
theorem exec_vadd (t : BitVec 3) (d a b : F6) (s : State) : exec (.vadd t d a b) s = runInstr (.vadd t d a b) (opVadd {} t d a b) s := rfl
theorem exec_vsub (t : BitVec 3) (d a b : F6) (s : State) : exec (.vsub t d a b) s = runInstr (.vsub t d a b) (opVsub {} t d a b) s := rfl
theorem exec_vmul (t : BitVec 3) (d a b : F6) (s : State) : exec (.vmul t d a b) s = runInstr (.vmul t d a b) (opVmul {} t d a b) s := rfl
theorem exec_vmin (t : BitVec 3) (d a b : F6) (s : State) : exec (.vmin t d a b) s = runInstr (.vmin t d a b) (opVmin {} t d a b) s := rfl
theorem exec_vmax (t : BitVec 3) (d a b : F6) (s : State) : exec (.vmax t d a b) s = runInstr (.vmax t d a b) (opVmax {} t d a b) s := rfl
theorem exec_vabs (t : BitVec 3) (d a : F6) (s : State) : exec (.vabs t d a) s = runInstr (.vabs t d a) (opVabs {} t d a) s := rfl
theorem exec_vneg (t : BitVec 3) (d a : F6) (s : State) : exec (.vneg t d a) s = runInstr (.vneg t d a) (opVneg {} t d a) s := rfl
theorem exec_vabd (t : BitVec 3) (d a b : F6) (s : State) : exec (.vabd t d a b) s = runInstr (.vabd t d a b) (opVabd {} t d a b) s := rfl
theorem exec_vfma (t : BitVec 3) (d a b : F6) (s : State) : exec (.vfma t d a b) s = runInstr (.vfma t d a b) (opVfma {} t d a b) s := rfl
theorem exec_vfms (t : BitVec 3) (d a b : F6) (s : State) : exec (.vfms t d a b) s = runInstr (.vfms t d a b) (opVfms {} t d a b) s := rfl
theorem exec_vfnma (t : BitVec 3) (d a b : F6) (s : State) : exec (.vfnma t d a b) s = runInstr (.vfnma t d a b) (opVfnma {} t d a b) s := rfl
theorem exec_vfnms (t : BitVec 3) (d a b : F6) (s : State) : exec (.vfnms t d a b) s = runInstr (.vfnms t d a b) (opVfnms {} t d a b) s := rfl
theorem exec_vdot4 (t : BitVec 3) (d a b : F6) (s : State) : exec (.vdot4 t d a b) s = runInstr (.vdot4 t d a b) (opVdot4 {} t d a b) s := rfl
theorem exec_vdot2 (t : BitVec 3) (d a b : F6) (s : State) : exec (.vdot2 t d a b) s = runInstr (.vdot2 t d a b) (opVdot2 {} t d a b) s := rfl
theorem exec_vmulh (t : BitVec 3) (d a b : F6) (s : State) : exec (.vmulh t d a b) s = runInstr (.vmulh t d a b) (opVmulh {} t d a b) s := rfl
theorem exec_vsad (t : BitVec 3) (d a b : F6) (s : State) : exec (.vsad t d a b) s = runInstr (.vsad t d a b) (opVsad {} t d a b) s := rfl
theorem exec_vand (t : BitVec 3) (d a b : F6) (s : State) : exec (.vand t d a b) s = runInstr (.vand t d a b) (opVand {} t d a b) s := rfl
theorem exec_vor (t : BitVec 3) (d a b : F6) (s : State) : exec (.vor t d a b) s = runInstr (.vor t d a b) (opVor {} t d a b) s := rfl
theorem exec_vxor (t : BitVec 3) (d a b : F6) (s : State) : exec (.vxor t d a b) s = runInstr (.vxor t d a b) (opVxor {} t d a b) s := rfl
theorem exec_vandn (t : BitVec 3) (d a b : F6) (s : State) : exec (.vandn t d a b) s = runInstr (.vandn t d a b) (opVandn {} t d a b) s := rfl
theorem exec_vsll (t : BitVec 3) (d a b : F6) (s : State) : exec (.vsll t d a b) s = runInstr (.vsll t d a b) (opVsll {} t d a b) s := rfl
theorem exec_vsrl (t : BitVec 3) (d a b : F6) (s : State) : exec (.vsrl t d a b) s = runInstr (.vsrl t d a b) (opVsrl {} t d a b) s := rfl
theorem exec_vsra (t : BitVec 3) (d a b : F6) (s : State) : exec (.vsra t d a b) s = runInstr (.vsra t d a b) (opVsra {} t d a b) s := rfl
theorem exec_vnot (t : BitVec 3) (d a : F6) (s : State) : exec (.vnot t d a) s = runInstr (.vnot t d a) (opVnot {} t d a) s := rfl
theorem exec_vceq (t : BitVec 3) (d : BitVec 3) (a b : F6) (s : State) : exec (.vceq t d a b) s = runInstr (.vceq t d a b) (opVceq {} t d a b) s := rfl
theorem exec_vcne (t : BitVec 3) (d : BitVec 3) (a b : F6) (s : State) : exec (.vcne t d a b) s = runInstr (.vcne t d a b) (opVcne {} t d a b) s := rfl
theorem exec_vclt (t : BitVec 3) (d : BitVec 3) (a b : F6) (s : State) : exec (.vclt t d a b) s = runInstr (.vclt t d a b) (opVclt {} t d a b) s := rfl
theorem exec_vcle (t : BitVec 3) (d : BitVec 3) (a b : F6) (s : State) : exec (.vcle t d a b) s = runInstr (.vcle t d a b) (opVcle {} t d a b) s := rfl
theorem exec_vcgt (t : BitVec 3) (d : BitVec 3) (a b : F6) (s : State) : exec (.vcgt t d a b) s = runInstr (.vcgt t d a b) (opVcgt {} t d a b) s := rfl
theorem exec_vcge (t : BitVec 3) (d : BitVec 3) (a b : F6) (s : State) : exec (.vcge t d a b) s = runInstr (.vcge t d a b) (opVcge {} t d a b) s := rfl
theorem exec_vcltu (t : BitVec 3) (d : BitVec 3) (a b : F6) (s : State) : exec (.vcltu t d a b) s = runInstr (.vcltu t d a b) (opVcltu {} t d a b) s := rfl
theorem exec_vcun (t : BitVec 3) (d : BitVec 3) (a b : F6) (s : State) : exec (.vcun t d a b) s = runInstr (.vcun t d a b) (opVcun {} t d a b) s := rfl
theorem exec_vcvt (t : BitVec 3) (d a b : F6) (s : State) : exec (.vcvt t d a b) s = runInstr (.vcvt t d a b) (opVcvt {} t d a b) s := rfl
theorem exec_vcvtSat (t : BitVec 3) (d a b : F6) (s : State) : exec (.vcvtSat t d a b) s = runInstr (.vcvtSat t d a b) (opVcvtSat {} t d a b) s := rfl
theorem exec_vqn4p (t : BitVec 3) (o : XOp) (s : State) : exec (.vqn4p t o) s = runInstr (.vqn4p t o) (opVqn4p t o) s := rfl
theorem exec_vqn4u (t : BitVec 3) (o : XOp) (s : State) : exec (.vqn4u t o) s = runInstr (.vqn4u t o) (opVqn4u t o) s := rfl
theorem exec_vwid (t : BitVec 3) (d a b : F6) (s : State) : exec (.vwid t d a b) s = runInstr (.vwid t d a b) (opVwid {} t d a b) s := rfl
theorem exec_vwidh (t : BitVec 3) (d a b : F6) (s : State) : exec (.vwidh t d a b) s = runInstr (.vwidh t d a b) (opVwidh {} t d a b) s := rfl
theorem exec_vnar (t : BitVec 3) (d a b : F6) (s : State) : exec (.vnar t d a b) s = runInstr (.vnar t d a b) (opVnar {} t d a b) s := rfl
theorem exec_vrint (t : BitVec 3) (d a b : F6) (s : State) : exec (.vrint t d a b) s = runInstr (.vrint t d a b) (opVrint {} t d a b) s := rfl
theorem exec_vbc (t : BitVec 3) (d a b : F6) (s : State) : exec (.vbc t d a b) s = runInstr (.vbc t d a b) (opVbc {} t d a b) s := rfl
theorem exec_vshf (t : BitVec 3) (d a b : F6) (s : State) : exec (.vshf t d a b) s = runInstr (.vshf t d a b) (opVshf {} t d a b) s := rfl
theorem exec_vrot (t : BitVec 3) (d a b : F6) (s : State) : exec (.vrot t d a b) s = runInstr (.vrot t d a b) (opVrot {} t d a b) s := rfl
theorem exec_vext (t : BitVec 3) (d a b : F6) (s : State) : exec (.vext t d a b) s = runInstr (.vext t d a b) (opVext {} t d a b) s := rfl
theorem exec_vins (t : BitVec 3) (d a b : F6) (s : State) : exec (.vins t d a b) s = runInstr (.vins t d a b) (opVins {} t d a b) s := rfl
theorem exec_vzip (t : BitVec 3) (d a b : F6) (s : State) : exec (.vzip t d a b) s = runInstr (.vzip t d a b) (opVzip {} t d a b) s := rfl
theorem exec_vuzp (t : BitVec 3) (d a b : F6) (s : State) : exec (.vuzp t d a b) s = runInstr (.vuzp t d a b) (opVuzp {} t d a b) s := rfl
theorem exec_vcpr (t : BitVec 3) (d a : F6) (b : BitVec 3) (s : State) : exec (.vcpr t d a b) s = runInstr (.vcpr t d a b) (opVcpr {} t d a b) s := rfl
theorem exec_vradd (t : BitVec 3) (d a : F6) (s : State) : exec (.vradd t d a) s = runInstr (.vradd t d a) (opVradd {} t d a) s := rfl
theorem exec_vrmax (t : BitVec 3) (d a : F6) (s : State) : exec (.vrmax t d a) s = runInstr (.vrmax t d a) (opVrmax {} t d a) s := rfl
theorem exec_vrmin (t : BitVec 3) (d a : F6) (s : State) : exec (.vrmin t d a) s = runInstr (.vrmin t d a) (opVrmin {} t d a) s := rfl
theorem exec_vrand (t : BitVec 3) (d a : F6) (s : State) : exec (.vrand t d a) s = runInstr (.vrand t d a) (opVrand {} t d a) s := rfl
theorem exec_vror (t : BitVec 3) (d a : F6) (s : State) : exec (.vror t d a) s = runInstr (.vror t d a) (opVror {} t d a) s := rfl
theorem exec_vrxor (t : BitVec 3) (d a : F6) (s : State) : exec (.vrxor t d a) s = runInstr (.vrxor t d a) (opVrxor {} t d a) s := rfl
theorem exec_vscan (t : BitVec 3) (d a : F6) (s : State) : exec (.vscan t d a) s = runInstr (.vscan t d a) (opVscan {} t d a) s := rfl
theorem exec_vrsum (t : BitVec 3) (d a : F6) (s : State) : exec (.vrsum t d a) s = runInstr (.vrsum t d a) (opVrsum {} t d a) s := rfl
theorem exec_vrcp (t : BitVec 3) (d a : F6) (s : State) : exec (.vrcp t d a) s = runInstr (.vrcp t d a) (opVrcp {} t d a) s := rfl
theorem exec_vrsqrt (t : BitVec 3) (d a : F6) (s : State) : exec (.vrsqrt t d a) s = runInstr (.vrsqrt t d a) (opVrsqrt {} t d a) s := rfl
theorem exec_vsqrt (t : BitVec 3) (d a : F6) (s : State) : exec (.vsqrt t d a) s = runInstr (.vsqrt t d a) (opVsqrt {} t d a) s := rfl
theorem exec_vdiv (t : BitVec 3) (d a b : F6) (s : State) : exec (.vdiv t d a b) s = runInstr (.vdiv t d a b) (opVdiv {} t d a b) s := rfl
theorem exec_vexp2 (t : BitVec 3) (d a : F6) (s : State) : exec (.vexp2 t d a) s = runInstr (.vexp2 t d a) (opVexp2 {} t d a) s := rfl
theorem exec_vlog2 (t : BitVec 3) (d a : F6) (s : State) : exec (.vlog2 t d a) s = runInstr (.vlog2 t d a) (opVlog2 {} t d a) s := rfl
theorem exec_vtanh (t : BitVec 3) (d a : F6) (s : State) : exec (.vtanh t d a) s = runInstr (.vtanh t d a) (opVtanh {} t d a) s := rfl
theorem exec_vsigm (t : BitVec 3) (d a : F6) (s : State) : exec (.vsigm t d a) s = runInstr (.vsigm t d a) (opVsigm {} t d a) s := rfl
theorem exec_vld (d a : F6) (sz : BitVec 3) (am : BitVec 2) (ea : BitVec 7) (s : State) : exec (.vld d a sz am ea) s = runInstr (.vld d a sz am ea) (opVld {} d a sz am ea) s := rfl
theorem exec_vst (d a : F6) (sz : BitVec 3) (am : BitVec 2) (ea : BitVec 7) (s : State) : exec (.vst d a sz am ea) s = runInstr (.vst d a sz am ea) (opVst {} d a sz am ea) s := rfl
theorem exec_vsacc (d a b : F6) (s : State) : exec (.vsacc d a b) s = runInstr (.vsacc d a b) (opVsacc {} d a b) s := rfl
theorem exec_vxpk (d a : F6) (s : State) : exec (.vxpk d a) s = runInstr (.vxpk d a) (opVxpk {} d a) s := rfl
theorem exec_vxacc (d a : F6) (s : State) : exec (.vxacc d a) s = runInstr (.vxacc d a) (opVxacc {} d a) s := rfl
theorem exec_vxfin (d a : F6) (s : State) : exec (.vxfin d a) s = runInstr (.vxfin d a) (opVxfin {} d a) s := rfl
theorem exec_vbsc (d a b : F6) (s : State) : exec (.vbsc d a b) s = runInstr (.vbsc d a b) (opVbsc {} d a b) s := rfl
theorem exec_vmov (t : BitVec 3) (d a : F6) (s : State) : exec (.vmov t d a) s = runInstr (.vmov t d a) (opVmov {} t d a) s := rfl
theorem exec_vzero (t : BitVec 3) (d : F6) (s : State) : exec (.vzero t d) s = runInstr (.vzero t d) (opVzero {} t d) s := rfl
theorem exec_vfill (t : BitVec 3) (d a : F6) (s : State) : exec (.vfill t d a) s = runInstr (.vfill t d a) (opVfill {} t d a) s := rfl
theorem exec_vkmov (t : BitVec 3) (d : F6) (a : BitVec 3) (s : State) : exec (.vkmov t d a) s = runInstr (.vkmov t d a) (opVkmov {} t d a) s := rfl
theorem exec_vwbc (t : BitVec 3) (d a b : F6) (s : State) : exec (.vwbc t d a b) s = runInstr (.vwbc t d a b) (opVwbc {} t d a b) s := rfl
theorem exec_tref (a b : F6) (s : State) : exec (.tref a b) s = runInstr (.tref a b) (opTref a b) s := rfl
theorem exec_tdrop (a b : F6) (s : State) : exec (.tdrop a b) s = runInstr (.tdrop a b) (opTdrop a b) s := rfl
theorem exec_tinfo (d a b : F6) (s : State) : exec (.tinfo d a b) s = runInstr (.tinfo d a b) (opTinfo d a b) s := rfl
theorem exec_tchk (d a : F6) (s : State) : exec (.tchk d a) s = runInstr (.tchk d a) (opTchk d a) s := rfl
theorem exec_tdropAll (a b : F6) (s : State) : exec (.tdropAll a b) s = runInstr (.tdropAll a b) (opTdropAll a b) s := rfl
theorem exec_qbind (q : BitVec 3) (a b : F6) (s : State) : exec (.qbind q a b) s = runInstr (.qbind q a b) (opQbind q a b) s := rfl
theorem exec_qunb (q : BitVec 3) (s : State) : exec (.qunb q) s = runInstr (.qunb q) (opQunb q) s := rfl
theorem exec_qstat (d : F6) (q : BitVec 3) (s : State) : exec (.qstat d q) s = runInstr (.qstat d q) (opQstat d q) s := rfl
theorem exec_qpeek (d : F6) (q : BitVec 3) (s : State) : exec (.qpeek d q) s = runInstr (.qpeek d q) (opQpeek d q) s := rfl
theorem exec_vrowSet (d a : F6) (s : State) : exec (.vrowSet d a) s = runInstr (.vrowSet d a) (opVrowSet d a) s := rfl
theorem exec_vrowGet (d : F6) (s : State) : exec (.vrowGet d) s = runInstr (.vrowGet d) (opVrowGet d) s := rfl
theorem exec_logon (s : State) : exec (.logon) s = runInstr (.logon) (opLogon) s := rfl
theorem exec_logoff (s : State) : exec (.logoff) s = runInstr (.logoff) (opLogoff) s := rfl
theorem exec_logmark (a : F6) (s : State) : exec (.logmark a) s = runInstr (.logmark a) (opLogmark a) s := rfl
theorem exec_mmul (o : XOp) (s : State) : exec (.mmul o) s = runInstr (.mmul o) (opMmul o) s := rfl
theorem exec_mmult (o : XOp) (s : State) : exec (.mmult o) s = runInstr (.mmult o) (opMmult o) s := rfl
theorem exec_mgrp (o : XOp) (s : State) : exec (.mgrp o) s = runInstr (.mgrp o) (opMgrp o) s := rfl
theorem exec_mq4 (o : XOp) (s : State) : exec (.mq4 o) s = runInstr (.mq4 o) (opMq4 o) s := rfl
theorem exec_msacc (o : XOp) (s : State) : exec (.msacc o) s = runInstr (.msacc o) (opMsacc o) s := rfl
theorem exec_mzero (o : XOp) (s : State) : exec (.mzero o) s = runInstr (.mzero o) (opMzero o) s := rfl
theorem exec_mldz (o : XOp) (s : State) : exec (.mldz o) s = runInstr (.mldz o) (opMldz o) s := rfl
theorem exec_mstz (o : XOp) (s : State) : exec (.mstz o) s = runInstr (.mstz o) (opMstz o) s := rfl
theorem exec_mrd (o : XOp) (s : State) : exec (.mrd o) s = runInstr (.mrd o) (opMrd o) s := rfl
theorem exec_mwr (o : XOp) (s : State) : exec (.mwr o) s = runInstr (.mwr o) (opMwr o) s := rfl
theorem exec_mrec (o : XOp) (s : State) : exec (.mrec o) s = runInstr (.mrec o) (opMrec o) s := rfl
theorem exec_mcmd (o : XOp) (s : State) : exec (.mcmd o) s = runInstr (.mcmd o) (opMcmd o) s := rfl
theorem exec_mcmdGrant (o : XOp) (s : State) : exec (.mcmdGrant o) s = runInstr (.mcmdGrant o) (opMcmdGrant o) s := rfl
theorem exec_mwait (o : XOp) (s : State) : exec (.mwait o) s = runInstr (.mwait o) (opMwait o) s := rfl
theorem exec_tnew (o : XOp) (s : State) : exec (.tnew o) s = runInstr (.tnew o) (opTnew o) s := rfl
theorem exec_tfree (o : XOp) (s : State) : exec (.tfree o) s = runInstr (.tfree o) (opTfree o) s := rfl
theorem exec_tvst (o : XOp) (s : State) : exec (.tvst o) s = runInstr (.tvst o) (opTvst o) s := rfl
theorem exec_tvld (o : XOp) (s : State) : exec (.tvld o) s = runInstr (.tvld o) (opTvld o) s := rfl
theorem exec_tvldc (o : XOp) (s : State) : exec (.tvldc o) s = runInstr (.tvldc o) (opTvldc o) s := rfl
theorem exec_tvw (o : XOp) (s : State) : exec (.tvw o) s = runInstr (.tvw o) (opTvw o) s := rfl
theorem exec_tdecl (o : XOp) (s : State) : exec (.tdecl o) s = runInstr (.tdecl o) (opTdecl o) s := rfl
theorem exec_tten (o : XOp) (s : State) : exec (.tten o) s = runInstr (.tten o) (opTten o) s := rfl
theorem exec_trel (o : XOp) (s : State) : exec (.trel o) s = runInstr (.trel o) (opTrel o) s := rfl
theorem exec_tsplit (o : XOp) (s : State) : exec (.tsplit o) s = runInstr (.tsplit o) (opTsplit o) s := rfl
theorem exec_tmerge (o : XOp) (s : State) : exec (.tmerge o) s = runInstr (.tmerge o) (opTmerge o) s := rfl
theorem exec_thalo (o : XOp) (s : State) : exec (.thalo o) s = runInstr (.thalo o) (opThalo o) s := rfl
theorem exec_cas (o : XOp) (s : State) : exec (.cas o) s = runInstr (.cas o) (opCas o) s := rfl
theorem exec_casq (o : XOp) (s : State) : exec (.casq o) s = runInstr (.casq o) (opCasq o) s := rfl
theorem exec_ldacq (o : XOp) (s : State) : exec (.ldacq o) s = runInstr (.ldacq o) (opLdacq o) s := rfl
theorem exec_strel (o : XOp) (s : State) : exec (.strel o) s = runInstr (.strel o) (opStrel o) s := rfl
theorem exec_cp (o : XOp) (s : State) : exec (.cp o) s = runInstr (.cp o) (opCp o) s := rfl
theorem exec_cp2d (o : XOp) (s : State) : exec (.cp2d o) s = runInstr (.cp2d o) (opCp2d o) s := rfl
theorem exec_cpf (o : XOp) (s : State) : exec (.cpf o) s = runInstr (.cpf o) (opCpf o) s := rfl
theorem exec_cpg (o : XOp) (s : State) : exec (.cpg o) s = runInstr (.cpg o) (opCpg o) s := rfl
theorem exec_cps (o : XOp) (s : State) : exec (.cps o) s = runInstr (.cps o) (opCps o) s := rfl
theorem exec_cpq (o : XOp) (s : State) : exec (.cpq o) s = runInstr (.cpq o) (opCpq o) s := rfl
theorem exec_rld (o : XOp) (s : State) : exec (.rld o) s = runInstr (.rld o) (opRld o) s := rfl
theorem exec_rst (o : XOp) (s : State) : exec (.rst o) s = runInstr (.rst o) (opRst o) s := rfl
theorem exec_ramo (o : XOp) (s : State) : exec (.ramo o) s = runInstr (.ramo o) (opRamo o) s := rfl
theorem exec_rcas (o : XOp) (s : State) : exec (.rcas o) s = runInstr (.rcas o) (opRcas o) s := rfl
theorem exec_rcall (o : XOp) (s : State) : exec (.rcall o) s = runInstr (.rcall o) (opRcall o) s := rfl
theorem exec_rnote (o : XOp) (s : State) : exec (.rnote o) s = runInstr (.rnote o) (opRnote o) s := rfl
theorem exec_rfence (o : XOp) (s : State) : exec (.rfence o) s = runInstr (.rfence o) (opRfence o) s := rfl
theorem exec_rget (o : XOp) (s : State) : exec (.rget o) s = runInstr (.rget o) (opRget o) s := rfl
theorem exec_rput (o : XOp) (s : State) : exec (.rput o) s = runInstr (.rput o) (opRput o) s := rfl
theorem exec_rkreg (o : XOp) (s : State) : exec (.rkreg o) s = runInstr (.rkreg o) (opRkreg o) s := rfl
theorem exec_rkrev (o : XOp) (s : State) : exec (.rkrev o) s = runInstr (.rkrev o) (opRkrev o) s := rfl
theorem exec_mighint (o : XOp) (s : State) : exec (.mighint o) s = runInstr (.mighint o) (opMighint o) s := rfl
theorem exec_pgpin (o : XOp) (s : State) : exec (.pgpin o) s = runInstr (.pgpin o) (opPgpin o) s := rfl
theorem exec_pgret (o : XOp) (s : State) : exec (.pgret o) s = runInstr (.pgret o) (opPgret o) s := rfl
theorem exec_logring (o : XOp) (s : State) : exec (.logring o) s = runInstr (.logring o) (opLogring o) s := rfl
theorem exec_keyset (o : XOp) (s : State) : exec (.keyset o) s = runInstr (.keyset o) (opKeyset o) s := rfl
theorem exec_coreseal (o : XOp) (s : State) : exec (.coreseal o) s = runInstr (.coreseal o) (opCoreseal o) s := rfl
theorem exec_launch (o : XOp) (s : State) : exec (.launch o) s = runInstr (.launch o) (opLaunch o) s := rfl
theorem exec_tspawn (o : XOp) (s : State) : exec (.tspawn o) s = runInstr (.tspawn o) (opTspawn o) s := rfl
theorem exec_lwait (o : XOp) (s : State) : exec (.lwait o) s = runInstr (.lwait o) (opLwait o) s := rfl
theorem exec_prio (o : XOp) (s : State) : exec (.prio o) s = runInstr (.prio o) (opPrio o) s := rfl

/-- A term with words is run by `runInstr`. -/
theorem exec_runs {i : Instr} (h : i.hasWords = true) : ∃ body, ∀ s, exec i s = runInstr i body s := by
  cases i
  case powerGood => exact Bool.noConfusion h
  case bringupStepComplete => exact Bool.noConfusion h
  case bringupTimeout => exact Bool.noConfusion h
  case discoveryAnswer => exact Bool.noConfusion h
  case discoveryTimeout => exact Bool.noConfusion h
  case standbyPowerUp => exact Bool.noConfusion h
  case moduleReset => exact Bool.noConfusion h
  case harvySetPlim => exact Bool.noConfusion h
  case harvySetModid => exact Bool.noConfusion h
  case harvyStageFirmware => exact Bool.noConfusion h
  case harvyAttest => exact Bool.noConfusion h
  case attestationReport => exact Bool.noConfusion h
  case powerSample => exact Bool.noConfusion h
  case powerIntervalEnd => exact Bool.noConfusion h
  case dieThermalReport => exact Bool.noConfusion h
  case hbmThermalReport => exact Bool.noConfusion h
  case mstatThermClear => exact Bool.noConfusion h
  case registerWrite => exact Bool.noConfusion h
  case memoryPortAccess => exact Bool.noConfusion h
  case scrubVisit => exact Bool.noConfusion h
  case cachePortAccess => exact Bool.noConfusion h
  case driftHalvingVisit => exact Bool.noConfusion h
  case motionStart => exact Bool.noConfusion h
  case motionFlushAck => exact Bool.noConfusion h
  case granuleCopyAck => exact Bool.noConfusion h
  case granuleCopyTimeout => exact Bool.noConfusion h
  case motionAccess => exact Bool.noConfusion h
  case motionShootdownAck => exact Bool.noConfusion h
  case quadShootdown => exact Bool.noConfusion h
  case motionTimeLimit => exact Bool.noConfusion h
  case cxlDynamicCapacityRelease => exact Bool.noConfusion h
  case flitReceive => exact Bool.noConfusion h
  case linkRetrainTimeout => exact Bool.noConfusion h
  case dieLinkModuleFailure => exact Bool.noConfusion h
  case cirrusLaneFailure => exact Bool.noConfusion h
  case cirrusPortStateChange => exact Bool.noConfusion h
  case rldRequest => exact Bool.noConfusion h
  case rstRequest => exact Bool.noConfusion h
  case ramoRequest => exact Bool.noConfusion h
  case rcasRequest => exact Bool.noConfusion h
  case rcallRequest => exact Bool.noConfusion h
  case rgetRequest => exact Bool.noConfusion h
  case rputRequest => exact Bool.noConfusion h
  case probeRequest => exact Bool.noConfusion h
  case launchWindowRequest => exact Bool.noConfusion h
  case dataReply => exact Bool.noConfusion h
  case doneReply => exact Bool.noConfusion h
  case parkedReply => exact Bool.noConfusion h
  case ticketReply => exact Bool.noConfusion h
  case errorReply => exact Bool.noConfusion h
  case busyReply => exact Bool.noConfusion h
  case busyBackoffExpiry => exact Bool.noConfusion h
  case replayNotice => exact Bool.noConfusion h
  case varriveNotice => exact Bool.noConfusion h
  case rnoteNotice => exact Bool.noConfusion h
  case fewakeNotice => exact Bool.noConfusion h
  case retransmitTimeout => exact Bool.noConfusion h
  case finalTimeout => exact Bool.noConfusion h
  case probeTimer => exact Bool.noConfusion h
  case ticketLimitTimeout => exact Bool.noConfusion h
  case flowIdleTimeout => exact Bool.noConfusion h
  case replyCacheExpiry => exact Bool.noConfusion h
  case regionTableUpdate => exact Bool.noConfusion h
  case callStart => exact Bool.noConfusion h
  case topologyProbe => exact Bool.noConfusion h
  case topologyAnswer => exact Bool.noConfusion h
  case topologyDiscoveryTimeout => exact Bool.noConfusion h
  case lullStart => exact Bool.noConfusion h
  case lullMarker => exact Bool.noConfusion h
  case lullEnd => exact Bool.noConfusion h
  case bar2PlainRead => exact Bool.noConfusion h
  case bar2PlainWrite => exact Bool.noConfusion h
  case bar2ArmRead => exact Bool.noConfusion h
  case bar2ArmWrite => exact Bool.noConfusion h
  case bar2ClearRead => exact Bool.noConfusion h
  case bar2ClearWrite => exact Bool.noConfusion h
  case dieWindowAccess => exact Bool.noConfusion h
  case bar0UnmappedAccess => exact Bool.noConfusion h
  case msixUnmask => exact Bool.noConfusion h
  case hostPortDown => exact Bool.noConfusion h
  case herrRead => exact Bool.noConfusion h
  case mailboxOpen => exact Bool.noConfusion h
  case mailboxChunk => exact Bool.noConfusion h
  case mailboxCommit => exact Bool.noConfusion h
  case mailboxAbort => exact Bool.noConfusion h
  case mailboxAttest => exact Bool.noConfusion h
  case mailboxInvalidOp => exact Bool.noConfusion h
  case mailboxCommandComplete => exact Bool.noConfusion h
  case mbstatRead => exact Bool.noConfusion h
  case accessTableWrite => exact Bool.noConfusion h
  case launchSlotTake => exact Bool.noConfusion h
  case gateSatisfied => exact Bool.noConfusion h
  case dispatchCoreFree => exact Bool.noConfusion h
  case bindRequest => exact Bool.noConfusion h
  case preemption => exact Bool.noConfusion h
  case teamSave => exact Bool.noConfusion h
  case teamRestore => exact Bool.noConfusion h
  case teamExit => exact Bool.noConfusion h
  case teamCompletionRelease => exact Bool.noConfusion h
  case launchTermination => exact Bool.noConfusion h
  case rowRetentionEntry => exact Bool.noConfusion h
  case sleepExpiry => exact Bool.noConfusion h
  case yieldExpiry => exact Bool.noConfusion h
  case queueEntryArrival => exact Bool.noConfusion h
  case meshBindRequest => exact Bool.noConfusion h
  case l2Access => exact Bool.noConfusion h
  case l2PoolWrite => exact Bool.noConfusion h
  case l2NpartWrite => exact Bool.noConfusion h
  case l2BusyComplete => exact Bool.noConfusion h
  case engineCommandStart => exact Bool.noConfusion h
  case engineCommandComplete => exact Bool.noConfusion h
  case logRangeTimeout => exact Bool.noConfusion h
  case versionPublishRequest => exact Bool.noConfusion h
  case versionPublishComplete => exact Bool.noConfusion h
  case versionWaitRegister => exact Bool.noConfusion h
  case versionWaitBoundExpiry => exact Bool.noConfusion h
  case tenureRequest => exact Bool.noConfusion h
  case tenureRelease => exact Bool.noConfusion h
  case oneShotAccess => exact Bool.noConfusion h
  case serviceRequest => exact Bool.noConfusion h
  case fsdoneResolve => exact Bool.noConfusion h
  case fsdoneRefuse => exact Bool.noConfusion h
  case fqheadWrite => exact Bool.noConfusion h
  case coreSeal => exact Bool.noConfusion h
  case dirtyLineLoss => exact Bool.noConfusion h
  case frameRetirement => exact Bool.noConfusion h
  case matrixCommandStart => exact Bool.noConfusion h
  case matrixKstepComplete => exact Bool.noConfusion h
  case remoteMatrixCommand => exact Bool.noConfusion h
  case pairWord => exact ⟨_, fun _ => exec_pairWord _ _ _⟩
  case widenedForm => exact ⟨_, fun _ => exec_widenedForm _ _ _⟩
  case literalForm => exact ⟨_, fun _ => exec_literalForm _ _ _ _⟩
  case add => exact ⟨_, fun _ => exec_add _ _ _ _⟩
  case sub => exact ⟨_, fun _ => exec_sub _ _ _ _⟩
  case and => exact ⟨_, fun _ => exec_and _ _ _ _⟩
  case or => exact ⟨_, fun _ => exec_or _ _ _ _⟩
  case xor => exact ⟨_, fun _ => exec_xor _ _ _ _⟩
  case andn => exact ⟨_, fun _ => exec_andn _ _ _ _⟩
  case orn => exact ⟨_, fun _ => exec_orn _ _ _ _⟩
  case sll => exact ⟨_, fun _ => exec_sll _ _ _ _⟩
  case srl => exact ⟨_, fun _ => exec_srl _ _ _ _⟩
  case sra => exact ⟨_, fun _ => exec_sra _ _ _ _⟩
  case rol => exact ⟨_, fun _ => exec_rol _ _ _ _⟩
  case min => exact ⟨_, fun _ => exec_min _ _ _ _⟩
  case max => exact ⟨_, fun _ => exec_max _ _ _ _⟩
  case minu => exact ⟨_, fun _ => exec_minu _ _ _ _⟩
  case maxu => exact ⟨_, fun _ => exec_maxu _ _ _ _⟩
  case mul => exact ⟨_, fun _ => exec_mul _ _ _ _⟩
  case mulh => exact ⟨_, fun _ => exec_mulh _ _ _ _⟩
  case mulhu => exact ⟨_, fun _ => exec_mulhu _ _ _ _⟩
  case div => exact ⟨_, fun _ => exec_div _ _ _ _⟩
  case divu => exact ⟨_, fun _ => exec_divu _ _ _ _⟩
  case rem => exact ⟨_, fun _ => exec_rem _ _ _ _⟩
  case remu => exact ⟨_, fun _ => exec_remu _ _ _ _⟩
  case addc => exact ⟨_, fun _ => exec_addc _ _ _ _⟩
  case subb => exact ⟨_, fun _ => exec_subb _ _ _ _⟩
  case clz => exact ⟨_, fun _ => exec_clz _ _ _⟩
  case ctz => exact ⟨_, fun _ => exec_ctz _ _ _⟩
  case popc => exact ⟨_, fun _ => exec_popc _ _ _⟩
  case sext => exact ⟨_, fun _ => exec_sext _ _ _ _⟩
  case zext => exact ⟨_, fun _ => exec_zext _ _ _ _⟩
  case addi => exact ⟨_, fun _ => exec_addi _ _ _ _⟩
  case andi => exact ⟨_, fun _ => exec_andi _ _ _ _⟩
  case ori => exact ⟨_, fun _ => exec_ori _ _ _ _⟩
  case xori => exact ⟨_, fun _ => exec_xori _ _ _ _⟩
  case slli => exact ⟨_, fun _ => exec_slli _ _ _ _⟩
  case srli => exact ⟨_, fun _ => exec_srli _ _ _ _⟩
  case srai => exact ⟨_, fun _ => exec_srai _ _ _ _⟩
  case roli => exact ⟨_, fun _ => exec_roli _ _ _ _⟩
  case ceq => exact ⟨_, fun _ => exec_ceq _ _ _ _⟩
  case cne => exact ⟨_, fun _ => exec_cne _ _ _ _⟩
  case clt => exact ⟨_, fun _ => exec_clt _ _ _ _⟩
  case cge => exact ⟨_, fun _ => exec_cge _ _ _ _⟩
  case cltu => exact ⟨_, fun _ => exec_cltu _ _ _ _⟩
  case cgeu => exact ⟨_, fun _ => exec_cgeu _ _ _ _⟩
  case ctst => exact ⟨_, fun _ => exec_ctst _ _ _ _⟩
  case bfx => exact ⟨_, fun _ => exec_bfx _ _ _ _ _⟩
  case bfxs => exact ⟨_, fun _ => exec_bfxs _ _ _ _ _⟩
  case bfi => exact ⟨_, fun _ => exec_bfi _ _ _ _ _⟩
  case bfclr => exact ⟨_, fun _ => exec_bfclr _ _ _ _ _⟩
  case mov => exact ⟨_, fun _ => exec_mov _ _ _⟩
  case sel => exact ⟨_, fun _ => exec_sel _ _ _ _ _⟩
  case kand => exact ⟨_, fun _ => exec_kand _ _ _ _⟩
  case kor => exact ⟨_, fun _ => exec_kor _ _ _ _⟩
  case kxor => exact ⟨_, fun _ => exec_kxor _ _ _ _⟩
  case knot => exact ⟨_, fun _ => exec_knot _ _ _⟩
  case kmovc => exact ⟨_, fun _ => exec_kmovc _ _ _⟩
  case kmovk => exact ⟨_, fun _ => exec_kmovk _ _ _⟩
  case kpop => exact ⟨_, fun _ => exec_kpop _ _ _⟩
  case kfirst => exact ⟨_, fun _ => exec_kfirst _ _ _⟩
  case cbnd => exact ⟨_, fun _ => exec_cbnd _ _ _ _⟩
  case cbndx => exact ⟨_, fun _ => exec_cbndx _ _ _ _⟩
  case cprm => exact ⟨_, fun _ => exec_cprm _ _ _ _⟩
  case cadd => exact ⟨_, fun _ => exec_cadd _ _ _ _⟩
  case cset => exact ⟨_, fun _ => exec_cset _ _ _ _⟩
  case cbase => exact ⟨_, fun _ => exec_cbase _ _ _⟩
  case clen => exact ⟨_, fun _ => exec_clen _ _ _⟩
  case cperm => exact ⟨_, fun _ => exec_cperm _ _ _⟩
  case ctype => exact ⟨_, fun _ => exec_ctype _ _ _⟩
  case ctag => exact ⟨_, fun _ => exec_ctag _ _ _⟩
  case cclr => exact ⟨_, fun _ => exec_cclr _ _ _⟩
  case cseal => exact ⟨_, fun _ => exec_cseal _ _ _⟩
  case capCeq => exact ⟨_, fun _ => exec_capCeq _ _ _ _⟩
  case csub => exact ⟨_, fun _ => exec_csub _ _ _ _⟩
  case mvi => exact ⟨_, fun _ => exec_mvi _ _ _⟩
  case adr => exact ⟨_, fun _ => exec_adr _ _ _⟩
  case ld => exact ⟨_, fun _ => exec_ld _ _ _ _ _ _⟩
  case lds => exact ⟨_, fun _ => exec_lds _ _ _ _ _ _⟩
  case st => exact ⟨_, fun _ => exec_st _ _ _ _ _ _⟩
  case ldfeAny => exact ⟨_, fun _ => exec_ldfeAny _ _ _ _ _⟩
  case ldfeWf => exact ⟨_, fun _ => exec_ldfeWf _ _ _ _ _⟩
  case ldfeWfe => exact ⟨_, fun _ => exec_ldfeWfe _ _ _ _ _⟩
  case ldfeSt => exact ⟨_, fun _ => exec_ldfeSt _ _ _ _ _⟩
  case stfeSf => exact ⟨_, fun _ => exec_stfeSf _ _ _ _ _⟩
  case stfeWef => exact ⟨_, fun _ => exec_stfeWef _ _ _ _ _⟩
  case stfeSe => exact ⟨_, fun _ => exec_stfeSe _ _ _ _⟩
  case stfeKeep => exact ⟨_, fun _ => exec_stfeKeep _ _ _ _ _⟩
  case amoAdd => exact ⟨_, fun _ => exec_amoAdd _ _ _ _ _⟩
  case amoAnd => exact ⟨_, fun _ => exec_amoAnd _ _ _ _ _⟩
  case amoOr => exact ⟨_, fun _ => exec_amoOr _ _ _ _ _⟩
  case amoXor => exact ⟨_, fun _ => exec_amoXor _ _ _ _ _⟩
  case amoMin => exact ⟨_, fun _ => exec_amoMin _ _ _ _ _⟩
  case amoMax => exact ⟨_, fun _ => exec_amoMax _ _ _ _ _⟩
  case amoMinu => exact ⟨_, fun _ => exec_amoMinu _ _ _ _ _⟩
  case amoSwap => exact ⟨_, fun _ => exec_amoSwap _ _ _ _ _⟩
  case fence => exact ⟨_, fun _ => exec_fence _ _ _ _⟩
  case cwb => exact ⟨_, fun _ => exec_cwb _ _ _⟩
  case cinv => exact ⟨_, fun _ => exec_cinv _ _ _⟩
  case cwbinv => exact ⟨_, fun _ => exec_cwbinv _ _ _⟩
  case cpre => exact ⟨_, fun _ => exec_cpre _ _ _⟩
  case bk => exact ⟨_, fun _ => exec_bk _ _ _ _⟩
  case bra => exact ⟨_, fun _ => exec_bra _ _⟩
  case bz => exact ⟨_, fun _ => exec_bz _ _ _⟩
  case bnz => exact ⟨_, fun _ => exec_bnz _ _ _⟩
  case bltz => exact ⟨_, fun _ => exec_bltz _ _ _⟩
  case bgez => exact ⟨_, fun _ => exec_bgez _ _ _⟩
  case blez => exact ⟨_, fun _ => exec_blez _ _ _⟩
  case bgtz => exact ⟨_, fun _ => exec_bgtz _ _ _⟩
  case jmp => exact ⟨_, fun _ => exec_jmp _ _⟩
  case call => exact ⟨_, fun _ => exec_call _ _⟩
  case jr => exact ⟨_, fun _ => exec_jr _ _⟩
  case jalr => exact ⟨_, fun _ => exec_jalr _ _ _⟩
  case ret => exact ⟨_, fun _ => exec_ret  _⟩
  case ccall => exact ⟨_, fun _ => exec_ccall _ _⟩
  case loop => exact ⟨_, fun _ => exec_loop _ _ _⟩
  case yield => exact ⟨_, fun _ => exec_yield  _⟩
  case halt => exact ⟨_, fun _ => exec_halt  _⟩
  case bar => exact ⟨_, fun _ => exec_bar  _⟩
  case wfe => exact ⟨_, fun _ => exec_wfe  _⟩
  case nop => exact ⟨_, fun _ => exec_nop  _⟩
  case sleep => exact ⟨_, fun _ => exec_sleep _ _⟩
  case brk => exact ⟨_, fun _ => exec_brk _ _⟩
  case trap => exact ⟨_, fun _ => exec_trap _ _⟩
  case eret => exact ⟨_, fun _ => exec_eret  _⟩
  case mfs => exact ⟨_, fun _ => exec_mfs _ _ _⟩
  case mts => exact ⟨_, fun _ => exec_mts _ _ _⟩
  case tlbinv => exact ⟨_, fun _ => exec_tlbinv _ _ _⟩
  case vadd => exact ⟨_, fun _ => exec_vadd _ _ _ _ _⟩
  case vsub => exact ⟨_, fun _ => exec_vsub _ _ _ _ _⟩
  case vmul => exact ⟨_, fun _ => exec_vmul _ _ _ _ _⟩
  case vmin => exact ⟨_, fun _ => exec_vmin _ _ _ _ _⟩
  case vmax => exact ⟨_, fun _ => exec_vmax _ _ _ _ _⟩
  case vabs => exact ⟨_, fun _ => exec_vabs _ _ _ _⟩
  case vneg => exact ⟨_, fun _ => exec_vneg _ _ _ _⟩
  case vabd => exact ⟨_, fun _ => exec_vabd _ _ _ _ _⟩
  case vfma => exact ⟨_, fun _ => exec_vfma _ _ _ _ _⟩
  case vfms => exact ⟨_, fun _ => exec_vfms _ _ _ _ _⟩
  case vfnma => exact ⟨_, fun _ => exec_vfnma _ _ _ _ _⟩
  case vfnms => exact ⟨_, fun _ => exec_vfnms _ _ _ _ _⟩
  case vdot4 => exact ⟨_, fun _ => exec_vdot4 _ _ _ _ _⟩
  case vdot2 => exact ⟨_, fun _ => exec_vdot2 _ _ _ _ _⟩
  case vmulh => exact ⟨_, fun _ => exec_vmulh _ _ _ _ _⟩
  case vsad => exact ⟨_, fun _ => exec_vsad _ _ _ _ _⟩
  case vand => exact ⟨_, fun _ => exec_vand _ _ _ _ _⟩
  case vor => exact ⟨_, fun _ => exec_vor _ _ _ _ _⟩
  case vxor => exact ⟨_, fun _ => exec_vxor _ _ _ _ _⟩
  case vandn => exact ⟨_, fun _ => exec_vandn _ _ _ _ _⟩
  case vsll => exact ⟨_, fun _ => exec_vsll _ _ _ _ _⟩
  case vsrl => exact ⟨_, fun _ => exec_vsrl _ _ _ _ _⟩
  case vsra => exact ⟨_, fun _ => exec_vsra _ _ _ _ _⟩
  case vnot => exact ⟨_, fun _ => exec_vnot _ _ _ _⟩
  case vceq => exact ⟨_, fun _ => exec_vceq _ _ _ _ _⟩
  case vcne => exact ⟨_, fun _ => exec_vcne _ _ _ _ _⟩
  case vclt => exact ⟨_, fun _ => exec_vclt _ _ _ _ _⟩
  case vcle => exact ⟨_, fun _ => exec_vcle _ _ _ _ _⟩
  case vcgt => exact ⟨_, fun _ => exec_vcgt _ _ _ _ _⟩
  case vcge => exact ⟨_, fun _ => exec_vcge _ _ _ _ _⟩
  case vcltu => exact ⟨_, fun _ => exec_vcltu _ _ _ _ _⟩
  case vcun => exact ⟨_, fun _ => exec_vcun _ _ _ _ _⟩
  case vcvt => exact ⟨_, fun _ => exec_vcvt _ _ _ _ _⟩
  case vcvtSat => exact ⟨_, fun _ => exec_vcvtSat _ _ _ _ _⟩
  case vqn4p => exact ⟨_, fun _ => exec_vqn4p _ _ _⟩
  case vqn4u => exact ⟨_, fun _ => exec_vqn4u _ _ _⟩
  case vwid => exact ⟨_, fun _ => exec_vwid _ _ _ _ _⟩
  case vwidh => exact ⟨_, fun _ => exec_vwidh _ _ _ _ _⟩
  case vnar => exact ⟨_, fun _ => exec_vnar _ _ _ _ _⟩
  case vrint => exact ⟨_, fun _ => exec_vrint _ _ _ _ _⟩
  case vbc => exact ⟨_, fun _ => exec_vbc _ _ _ _ _⟩
  case vshf => exact ⟨_, fun _ => exec_vshf _ _ _ _ _⟩
  case vrot => exact ⟨_, fun _ => exec_vrot _ _ _ _ _⟩
  case vext => exact ⟨_, fun _ => exec_vext _ _ _ _ _⟩
  case vins => exact ⟨_, fun _ => exec_vins _ _ _ _ _⟩
  case vzip => exact ⟨_, fun _ => exec_vzip _ _ _ _ _⟩
  case vuzp => exact ⟨_, fun _ => exec_vuzp _ _ _ _ _⟩
  case vcpr => exact ⟨_, fun _ => exec_vcpr _ _ _ _ _⟩
  case vradd => exact ⟨_, fun _ => exec_vradd _ _ _ _⟩
  case vrmax => exact ⟨_, fun _ => exec_vrmax _ _ _ _⟩
  case vrmin => exact ⟨_, fun _ => exec_vrmin _ _ _ _⟩
  case vrand => exact ⟨_, fun _ => exec_vrand _ _ _ _⟩
  case vror => exact ⟨_, fun _ => exec_vror _ _ _ _⟩
  case vrxor => exact ⟨_, fun _ => exec_vrxor _ _ _ _⟩
  case vscan => exact ⟨_, fun _ => exec_vscan _ _ _ _⟩
  case vrsum => exact ⟨_, fun _ => exec_vrsum _ _ _ _⟩
  case vrcp => exact ⟨_, fun _ => exec_vrcp _ _ _ _⟩
  case vrsqrt => exact ⟨_, fun _ => exec_vrsqrt _ _ _ _⟩
  case vsqrt => exact ⟨_, fun _ => exec_vsqrt _ _ _ _⟩
  case vdiv => exact ⟨_, fun _ => exec_vdiv _ _ _ _ _⟩
  case vexp2 => exact ⟨_, fun _ => exec_vexp2 _ _ _ _⟩
  case vlog2 => exact ⟨_, fun _ => exec_vlog2 _ _ _ _⟩
  case vtanh => exact ⟨_, fun _ => exec_vtanh _ _ _ _⟩
  case vsigm => exact ⟨_, fun _ => exec_vsigm _ _ _ _⟩
  case vld => exact ⟨_, fun _ => exec_vld _ _ _ _ _ _⟩
  case vst => exact ⟨_, fun _ => exec_vst _ _ _ _ _ _⟩
  case vsacc => exact ⟨_, fun _ => exec_vsacc _ _ _ _⟩
  case vxpk => exact ⟨_, fun _ => exec_vxpk _ _ _⟩
  case vxacc => exact ⟨_, fun _ => exec_vxacc _ _ _⟩
  case vxfin => exact ⟨_, fun _ => exec_vxfin _ _ _⟩
  case vbsc => exact ⟨_, fun _ => exec_vbsc _ _ _ _⟩
  case vmov => exact ⟨_, fun _ => exec_vmov _ _ _ _⟩
  case vzero => exact ⟨_, fun _ => exec_vzero _ _ _⟩
  case vfill => exact ⟨_, fun _ => exec_vfill _ _ _ _⟩
  case vkmov => exact ⟨_, fun _ => exec_vkmov _ _ _ _⟩
  case vwbc => exact ⟨_, fun _ => exec_vwbc _ _ _ _ _⟩
  case tref => exact ⟨_, fun _ => exec_tref _ _ _⟩
  case tdrop => exact ⟨_, fun _ => exec_tdrop _ _ _⟩
  case tinfo => exact ⟨_, fun _ => exec_tinfo _ _ _ _⟩
  case tchk => exact ⟨_, fun _ => exec_tchk _ _ _⟩
  case tdropAll => exact ⟨_, fun _ => exec_tdropAll _ _ _⟩
  case qbind => exact ⟨_, fun _ => exec_qbind _ _ _ _⟩
  case qunb => exact ⟨_, fun _ => exec_qunb _ _⟩
  case qstat => exact ⟨_, fun _ => exec_qstat _ _ _⟩
  case qpeek => exact ⟨_, fun _ => exec_qpeek _ _ _⟩
  case vrowSet => exact ⟨_, fun _ => exec_vrowSet _ _ _⟩
  case vrowGet => exact ⟨_, fun _ => exec_vrowGet _ _⟩
  case logon => exact ⟨_, fun _ => exec_logon  _⟩
  case logoff => exact ⟨_, fun _ => exec_logoff  _⟩
  case logmark => exact ⟨_, fun _ => exec_logmark _ _⟩
  case mmul => exact ⟨_, fun _ => exec_mmul _ _⟩
  case mmult => exact ⟨_, fun _ => exec_mmult _ _⟩
  case mgrp => exact ⟨_, fun _ => exec_mgrp _ _⟩
  case mq4 => exact ⟨_, fun _ => exec_mq4 _ _⟩
  case msacc => exact ⟨_, fun _ => exec_msacc _ _⟩
  case mzero => exact ⟨_, fun _ => exec_mzero _ _⟩
  case mldz => exact ⟨_, fun _ => exec_mldz _ _⟩
  case mstz => exact ⟨_, fun _ => exec_mstz _ _⟩
  case mrd => exact ⟨_, fun _ => exec_mrd _ _⟩
  case mwr => exact ⟨_, fun _ => exec_mwr _ _⟩
  case mrec => exact ⟨_, fun _ => exec_mrec _ _⟩
  case mcmd => exact ⟨_, fun _ => exec_mcmd _ _⟩
  case mcmdGrant => exact ⟨_, fun _ => exec_mcmdGrant _ _⟩
  case mwait => exact ⟨_, fun _ => exec_mwait _ _⟩
  case tnew => exact ⟨_, fun _ => exec_tnew _ _⟩
  case tfree => exact ⟨_, fun _ => exec_tfree _ _⟩
  case tvst => exact ⟨_, fun _ => exec_tvst _ _⟩
  case tvld => exact ⟨_, fun _ => exec_tvld _ _⟩
  case tvldc => exact ⟨_, fun _ => exec_tvldc _ _⟩
  case tvw => exact ⟨_, fun _ => exec_tvw _ _⟩
  case tdecl => exact ⟨_, fun _ => exec_tdecl _ _⟩
  case tten => exact ⟨_, fun _ => exec_tten _ _⟩
  case trel => exact ⟨_, fun _ => exec_trel _ _⟩
  case tsplit => exact ⟨_, fun _ => exec_tsplit _ _⟩
  case tmerge => exact ⟨_, fun _ => exec_tmerge _ _⟩
  case thalo => exact ⟨_, fun _ => exec_thalo _ _⟩
  case cas => exact ⟨_, fun _ => exec_cas _ _⟩
  case casq => exact ⟨_, fun _ => exec_casq _ _⟩
  case ldacq => exact ⟨_, fun _ => exec_ldacq _ _⟩
  case strel => exact ⟨_, fun _ => exec_strel _ _⟩
  case cp => exact ⟨_, fun _ => exec_cp _ _⟩
  case cp2d => exact ⟨_, fun _ => exec_cp2d _ _⟩
  case cpf => exact ⟨_, fun _ => exec_cpf _ _⟩
  case cpg => exact ⟨_, fun _ => exec_cpg _ _⟩
  case cps => exact ⟨_, fun _ => exec_cps _ _⟩
  case cpq => exact ⟨_, fun _ => exec_cpq _ _⟩
  case rld => exact ⟨_, fun _ => exec_rld _ _⟩
  case rst => exact ⟨_, fun _ => exec_rst _ _⟩
  case ramo => exact ⟨_, fun _ => exec_ramo _ _⟩
  case rcas => exact ⟨_, fun _ => exec_rcas _ _⟩
  case rcall => exact ⟨_, fun _ => exec_rcall _ _⟩
  case rnote => exact ⟨_, fun _ => exec_rnote _ _⟩
  case rfence => exact ⟨_, fun _ => exec_rfence _ _⟩
  case rget => exact ⟨_, fun _ => exec_rget _ _⟩
  case rput => exact ⟨_, fun _ => exec_rput _ _⟩
  case rkreg => exact ⟨_, fun _ => exec_rkreg _ _⟩
  case rkrev => exact ⟨_, fun _ => exec_rkrev _ _⟩
  case mighint => exact ⟨_, fun _ => exec_mighint _ _⟩
  case pgpin => exact ⟨_, fun _ => exec_pgpin _ _⟩
  case pgret => exact ⟨_, fun _ => exec_pgret _ _⟩
  case logring => exact ⟨_, fun _ => exec_logring _ _⟩
  case keyset => exact ⟨_, fun _ => exec_keyset _ _⟩
  case coreseal => exact ⟨_, fun _ => exec_coreseal _ _⟩
  case launch => exact ⟨_, fun _ => exec_launch _ _⟩
  case tspawn => exact ⟨_, fun _ => exec_tspawn _ _⟩
  case lwait => exact ⟨_, fun _ => exec_lwait _ _⟩
  case prio => exact ⟨_, fun _ => exec_prio _ _⟩
  case resetRelease => exact Bool.noConfusion h
  case lossOfMainRails => exact Bool.noConfusion h
  case linkRetrained => exact Bool.noConfusion h
  case zenithStateLost => exact Bool.noConfusion h
  case queueCreditReturn => exact Bool.noConfusion h
  case unallocatedEncoding => exact Bool.noConfusion h
  case instructionFetchFault => exact Bool.noConfusion h


end Sys2Proof.Machine
end

