-- ==== Sys2Proof/Laws/Memory.lean ====
section
/-!
SUPPORT. The laws of memory: every operation keeps the canonical form; a read after a write; what a write leaves alone.
-/
namespace Sys2Proof.Machine
open Sys2Proof

/-! ## Sets of numbers -/

theorem rising_cons {x : Nat} {l : List Nat} : rising (x :: l) = true ↔ (∀ y ∈ l.head?, x < y) ∧ rising l = true := by
  cases l <;> simp [rising]

theorem setIns_head {l : List Nat} {x y : Nat} (h : y < x) (hl : ∀ z ∈ l.head?, y < z) : ∀ z ∈ (setIns l x).head?, y < z := by
  cases l with
  | nil => simpa [setIns] using h
  | cons a l => simp only [setIns]; split <;> (try split) <;> simp_all

theorem rising_setIns {l : List Nat} {x : Nat} (h : rising l = true) : rising (setIns l x) = true := by
  induction l with
  | nil => rfl
  | cons a l ih =>
    have ha := rising_cons.1 h
    simp only [setIns]
    split
    · exact rising_cons.2 ⟨by simpa using ‹x < a›, h⟩
    · split
      · exact h
      · exact rising_cons.2 ⟨setIns_head (by omega) ha.1, ih ha.2⟩

theorem rising_lt {l : List Nat} {x : Nat} (h : rising (x :: l) = true) : ∀ y ∈ l, x < y := by
  induction l generalizing x with
  | nil => simp
  | cons a l ih =>
    have hx := rising_cons.1 h
    intro y hy
    have hxa : x < a := hx.1 a (by simp)
    rcases List.mem_cons.1 hy with rfl | hy
    · exact hxa
    · exact Nat.lt_trans hxa (ih hx.2 y hy)

theorem setDel_mem {l : List Nat} {x y : Nat} (h : y ∈ setDel l x) : y ∈ l := by
  induction l with
  | nil => simp [setDel] at h
  | cons a l ih =>
    simp only [setDel] at h
    split at h
    · exact List.mem_cons_of_mem _ h
    · rcases List.mem_cons.1 h with rfl | h
      · exact List.mem_cons_self ..
      · exact List.mem_cons_of_mem _ (ih h)

theorem rising_setDel {l : List Nat} {x : Nat} (h : rising l = true) : rising (setDel l x) = true := by
  induction l with
  | nil => rfl
  | cons a l ih =>
    have ha := rising_cons.1 h
    simp only [setDel]
    split
    · exact ha.2
    · refine rising_cons.2 ⟨fun z hz => rising_lt h z (setDel_mem (List.mem_of_mem_head? hz)), ih ha.2⟩

theorem rising_setPut {l : List Nat} {x : Nat} {b : Bool} (h : rising l = true) : rising (setPut l x b) = true := by
  unfold setPut; split
  · exact rising_setIns h
  · exact rising_setDel h

theorem mem_setIns {l : List Nat} {x y : Nat} : y ∈ setIns l x ↔ y = x ∨ y ∈ l := by
  induction l with
  | nil => simp [setIns]
  | cons a l ih => simp only [setIns]; split <;> (try split) <;> simp_all <;>
    exact or_left_comm

theorem mem_setDel {l : List Nat} {x y : Nat} (h : rising l = true) : y ∈ setDel l x ↔ y ≠ x ∧ y ∈ l := by
  induction l with
  | nil => simp [setDel]
  | cons a l ih =>
    have hlt := rising_lt h
    have hr := (rising_cons.1 h).2
    simp only [setDel]
    split
    · rename_i hx
      subst hx
      constructor
      · intro hy; exact ⟨by have := hlt y hy; omega, List.mem_cons_of_mem _ hy⟩
      · rintro ⟨h1, h2⟩; exact (List.mem_cons.1 h2).resolve_left h1
    · rw [List.mem_cons, ih hr, List.mem_cons]
      constructor
      · rintro (rfl | ⟨h1, h2⟩)
        · exact ⟨by omega, .inl rfl⟩
        · exact ⟨h1, .inr h2⟩
      · rintro ⟨h1, rfl | h2⟩
        · exact .inl rfl
        · exact .inr ⟨h1, h2⟩

theorem contains_setPut {l : List Nat} {x y : Nat} {b : Bool} (h : rising l = true) :
    (setPut l x b).contains y = if y = x then b else l.contains y := by
  unfold setPut
  cases b <;> by_cases hy : y = x <;> simp [hy, mem_setIns, mem_setDel h]

/-! ## Cells -/

theorem cellsWf_cons {k : Nat} {v : Byte} {l : List Host.Cell} :
    cellsWf ((k, v) :: l) = true ↔ v ≠ 0 ∧ (∀ c ∈ l.head?, k < c.1) ∧ cellsWf l = true := by
  cases l with
  | nil => simp [cellsWf]
  | cons c l => obtain ⟨k', v'⟩ := c; simp [cellsWf, and_assoc]

theorem cellPut_head {l : List Host.Cell} {a k : Nat} {b : Byte} (h : k < a) (hw : cellsWf l = true) (hl : ∀ c ∈ l.head?, k < c.1) :
    ∀ c ∈ (cellPut l a b).head?, k < c.1 := by
  cases l with
  | nil => simp only [cellPut]; split <;> simp_all
  | cons c l =>
    obtain ⟨k', v'⟩ := c
    have hw' := cellsWf_cons.1 hw
    simp only [cellPut]
    split
    · split <;> simp_all
    · split
      · split
        · intro c hc; exact Nat.lt_trans (hl (k', v') (by simp)) (hw'.2.1 c hc)
        · simpa using h
      · simp_all

theorem cellsWf_put {l : List Host.Cell} {a : Nat} {b : Byte} (h : cellsWf l = true) : cellsWf (cellPut l a b) = true := by
  induction l with
  | nil => simp only [cellPut]; split <;> simp_all [cellsWf]
  | cons c l ih =>
    obtain ⟨k, v⟩ := c
    have hw := cellsWf_cons.1 h
    simp only [cellPut]
    split
    · split
      · exact h
      · exact cellsWf_cons.2 ⟨‹_›, by simpa using ‹a < k›, h⟩
    · split
      · split
        · exact hw.2.2
        · exact cellsWf_cons.2 ⟨‹_›, by subst_vars; exact hw.2.1, hw.2.2⟩
      · exact cellsWf_cons.2 ⟨hw.1, cellPut_head (by omega) hw.2.2 hw.2.1, ih hw.2.2⟩

theorem cellGet_lt {l : List Host.Cell} {a : Nat} (hw : cellsWf l = true) (h : ∀ c ∈ l.head?, a < c.1) : cellGet l a = 0 := by
  induction l with
  | nil => rfl
  | cons c l ih =>
    obtain ⟨k, v⟩ := c
    have hk : a < k := h (k, v) (by simp)
    have hw' := cellsWf_cons.1 hw
    simp only [cellGet, if_neg (show a ≠ k by omega)]
    exact ih hw'.2.2 fun c hc => Nat.lt_trans hk (hw'.2.1 c hc)

theorem cellGet_put {l : List Host.Cell} {a a' : Nat} {b : Byte} (hw : cellsWf l = true) :
    cellGet (cellPut l a b) a' = if a' = a then b else cellGet l a' := by
  induction l with
  | nil => simp only [cellPut]; split <;> simp_all [cellGet]
  | cons c l ih =>
    obtain ⟨k, v⟩ := c
    have hw' := cellsWf_cons.1 hw
    simp only [cellPut]
    by_cases h1 : a < k
    · rw [if_pos h1]
      split
      · rename_i hb
        by_cases he : a' = a
        · rw [if_pos he, he, hb]
          exact cellGet_lt hw (by simpa using h1)
        · rw [if_neg he]
      · simp only [cellGet]
    · rw [if_neg h1]
      by_cases h2 : a = k
      · rw [if_pos h2]
        subst h2
        by_cases he : a' = a
        · subst he
          split
          · rename_i hb
            rw [if_pos rfl, hb]
            exact cellGet_lt hw'.2.2 hw'.2.1
          · simp [cellGet]
        · split <;> simp [cellGet, he]
      · rw [if_neg h2]
        simp only [cellGet, ih hw'.2.2]
        by_cases he : a' = k
        · rw [if_pos he, if_pos he, if_neg (by omega)]
        · rw [if_neg he, if_neg he]

/-! ## The canonical form -/

theorem Memory.wf_iff {m : Memory} : m.wf = true ↔ cellsWf m.cells = true ∧ rising m.empty = true ∧ rising m.tags = true ∧ rising m.poison = true := by
  simp [Memory.wf, and_assoc]

theorem Memory.wf_setByte {m : Memory} {a : Nat} {b : Byte} (h : m.wf = true) : (m.setByte a b).wf = true := by
  rw [Memory.wf_iff] at *; exact ⟨cellsWf_put h.1, h.2⟩
theorem Memory.wf_setFull {m : Memory} {a : Nat} {b : Bool} (h : m.wf = true) : (m.setFull a b).wf = true := by
  rw [Memory.wf_iff] at *; exact ⟨h.1, rising_setPut h.2.1, h.2.2⟩
theorem Memory.wf_setTag {m : Memory} {a : Nat} {b : Bool} (h : m.wf = true) : (m.setTag a b).wf = true := by
  rw [Memory.wf_iff] at *; exact ⟨h.1, h.2.1, rising_setPut h.2.2.1, h.2.2.2⟩
theorem Memory.wf_setBad {m : Memory} {a : Nat} {b : Bool} (h : m.wf = true) : (m.setBad a b).wf = true := by
  rw [Memory.wf_iff] at *; exact ⟨h.1, h.2.1, h.2.2.1, rising_setPut h.2.2.2⟩
theorem Memory.wf_write {m : Memory} {a n v : Nat} (h : m.wf = true) : (m.write a n v).wf = true := by
  induction n generalizing m a v with
  | zero => exact h
  | succ n ih => exact ih (Memory.wf_setByte h)
theorem Memory.wf_foldl {α : Type} {l : List α} {f : Memory → α → Memory} (hf : ∀ m x, m.wf = true → (f m x).wf = true) {m : Memory}
    (h : m.wf = true) : (l.foldl f m).wf = true := by
  induction l generalizing m with
  | nil => exact h
  | cons x l ih => exact ih (hf m x h)
theorem Memory.wf_untag {m : Memory} {a n : Nat} (h : m.wf = true) : (m.untag a n).wf = true := by
  unfold Memory.untag; split
  · exact h
  · exact Memory.wf_foldl (fun _ _ => Memory.wf_setTag) h
theorem Memory.wf_store {m : Memory} {a n v : Nat} (h : m.wf = true) : (m.store a n v).wf = true := Memory.wf_write (Memory.wf_untag h)
theorem Memory.wf_writeCap {m : Memory} {a : Nat} {c : Cap} (h : m.wf = true) : (m.writeCap a c).wf = true :=
  Memory.wf_setTag (Memory.wf_write h)

/-! ## Reading after writing -/

theorem Memory.byte_setByte {m : Memory} {a a' : Nat} {b : Byte} (h : m.wf = true) :
    (m.setByte a b).byte a' = if a' = a then b else m.byte a' := cellGet_put (Memory.wf_iff.1 h).1
@[simp] theorem Memory.byte_setFull {m : Memory} {a a' : Nat} {b : Bool} : (m.setFull a b).byte a' = m.byte a' := rfl
@[simp] theorem Memory.byte_setTag {m : Memory} {a a' : Nat} {b : Bool} : (m.setTag a b).byte a' = m.byte a' := rfl
@[simp] theorem Memory.byte_setBad {m : Memory} {a a' : Nat} {b : Bool} : (m.setBad a b).byte a' = m.byte a' := rfl
@[simp] theorem Memory.full_setByte {m : Memory} {a a' : Nat} {b : Byte} : (m.setByte a b).full a' = m.full a' := rfl
@[simp] theorem Memory.tag_setByte {m : Memory} {a a' : Nat} {b : Byte} : (m.setByte a b).tag a' = m.tag a' := rfl
@[simp] theorem Memory.bad_setByte {m : Memory} {a a' : Nat} {b : Byte} : (m.setByte a b).bad a' = m.bad a' := rfl
@[simp] theorem Memory.full_setTag {m : Memory} {a a' : Nat} {b : Bool} : (m.setTag a b).full a' = m.full a' := rfl
@[simp] theorem Memory.tag_setFull {m : Memory} {a a' : Nat} {b : Bool} : (m.setFull a b).tag a' = m.tag a' := rfl

theorem Memory.full_setFull {m : Memory} {a a' : Nat} {b : Bool} (h : m.wf = true) :
    (m.setFull a b).full a' = if a' / 8 = a / 8 then b else m.full a' := by
  simp only [Memory.full, Memory.setFull, contains_setPut (Memory.wf_iff.1 h).2.1]
  split <;> simp
theorem Memory.tag_setTag {m : Memory} {a a' : Nat} {b : Bool} (h : m.wf = true) :
    (m.setTag a b).tag a' = if a' / 16 = a / 16 then b else m.tag a' := by
  simp only [Memory.tag, Memory.setTag, contains_setPut (Memory.wf_iff.1 h).2.2.1]
theorem Memory.bad_setBad {m : Memory} {a a' : Nat} {b : Bool} (h : m.wf = true) :
    (m.setBad a b).bad a' = if a' / 64 = a / 64 then b else m.bad a' := by
  simp only [Memory.bad, Memory.setBad, contains_setPut (Memory.wf_iff.1 h).2.2.2]

/-- A byte outside the written ones is unchanged. -/
theorem Memory.byte_write_out {m : Memory} {a n v a' : Nat} (hw : m.wf = true) (h : a' < a ∨ a + n ≤ a') : (m.write a n v).byte a' = m.byte a' := by
  induction n generalizing m a v with
  | zero => rfl
  | succ n ih =>
    rw [Memory.write, ih (Memory.wf_setByte hw) (by omega), Memory.byte_setByte hw, if_neg (by omega)]

/-- A written byte holds its byte of the value, little-endian (R7). -/
theorem Memory.byte_write_in {m : Memory} {a n v k : Nat} (hw : m.wf = true) (h : k < n) :
    (m.write a n v).byte (a + k) = BitVec.ofNat 8 (v / 256 ^ k) := by
  induction n generalizing m a v k with
  | zero => omega
  | succ n ih =>
    rw [Memory.write]
    cases k with
    | zero => rw [Memory.byte_write_out (Memory.wf_setByte hw) (by omega), Memory.byte_setByte hw, if_pos (by omega)]; simp
    | succ k =>
      rw [show a + (k + 1) = a + 1 + k by omega, ih (Memory.wf_setByte hw) (by omega), Nat.div_div_eq_div_mul,
        show 256 * 256 ^ k = 256 ^ (k + 1) by rw [Nat.pow_succ]; omega]

theorem Memory.read_congr {m m' : Memory} {a n : Nat} (h : ∀ k < n, m'.byte (a + k) = m.byte (a + k)) : m'.read a n = m.read a n := by
  induction n generalizing a with
  | zero => rfl
  | succ n ih =>
    rw [Memory.read, Memory.read, ih fun k hk => by have := h (k + 1) (by omega); rwa [show a + (k + 1) = a + 1 + k by omega] at this]
    have := h 0 (by omega)
    rw [Nat.add_zero] at this
    rw [this]

/-- The bytes written are read back. -/
theorem Memory.read_write {m : Memory} {a n v : Nat} (hw : m.wf = true) : (m.write a n v).read a n = v % 256 ^ n := by
  induction n generalizing m a v with
  | zero => rw [Nat.pow_zero, Nat.mod_one]; rfl
  | succ n ih =>
    rw [Memory.write, Memory.read, ih (Memory.wf_setByte hw), Memory.byte_write_out (Memory.wf_setByte hw) (by omega), Memory.byte_setByte hw,
      if_pos rfl, BitVec.toNat_ofNat, show 256 ^ (n + 1) = 256 * 256 ^ n by rw [Nat.pow_succ, Nat.mul_comm], Nat.mod_mul]

end Sys2Proof.Machine
end

