-- ==== Sys2Proof/Laws/Local.lean ====
section
/-!
SUPPORT. Local memory below the register window: what a write changes and what a read sees.
-/
namespace Sys2Proof.Machine
open Sys2Proof

theorem inWindow_low {a : Nat} (h : a < 0x3C000) : inWindow a = false := by simp [inWindow]; omega

theorem putLocalByte_low {m : M} {a : Nat} {b : Byte} (h : a < 0x3C000) :
    m.putLocalByte a b = { m with core := { m.core with dirty := setIns m.core.dirty (a / 4096), mem := (m.core.mem.setTag a false).setByte a b } } := by
  simp [M.putLocalByte, inWindow_low h, Core.soil]

/-- A write below the window changes the local memory and its dirty blocks, nothing else. -/
theorem localWrite_low {m : M} {a n v : Nat} (h : a + n ≤ 0x3C000) :
    m.localWrite a n v =
      { m with core := { m.core with dirty := (m.localWrite a n v).core.dirty, mem := (m.localWrite a n v).core.mem } } := by
  induction n generalizing m a v with
  | zero => rfl
  | succ n ih =>
    rw [M.localWrite]
    rw [ih (by omega)]
    rw [putLocalByte_low (by omega)]

theorem localWrite_thr {m : M} {a n v : Nat} (h : a + n ≤ 0x3C000) : (m.localWrite a n v).thr = m.thr := by rw [localWrite_low h]
theorem localWrite_st {m : M} {a n v : Nat} (h : a + n ≤ 0x3C000) : (m.localWrite a n v).st = m.st := by rw [localWrite_low h]

theorem localWrite_wf {m : M} {a n v : Nat} (h : a + n ≤ 0x3C000) (hw : m.core.mem.wf = true) : (m.localWrite a n v).core.mem.wf = true := by
  induction n generalizing m a v with
  | zero => exact hw
  | succ n ih =>
    rw [M.localWrite]
    refine ih (by omega) ?_
    rw [putLocalByte_low (by omega)]
    exact Memory.wf_setByte (Memory.wf_setTag hw)

/-- A byte after a write below the window: the written one, or the one before. -/
theorem localWrite_byte {m : M} {a n v x : Nat} (h : a + n ≤ 0x3C000) (hw : m.core.mem.wf = true) :
    (m.localWrite a n v).core.mem.byte x = if a ≤ x ∧ x < a + n then BitVec.ofNat 8 (v / 256 ^ (x - a)) else m.core.mem.byte x := by
  induction n generalizing m a v with
  | zero => rw [if_neg (by omega)]; rfl
  | succ n ih =>
    rw [M.localWrite, putLocalByte_low (by omega)]
    rw [ih (by omega) (Memory.wf_setByte (Memory.wf_setTag hw))]
    simp only [Memory.byte_setByte (Memory.wf_setTag hw), Memory.byte_setTag]
    by_cases h1 : x = a
    · subst h1
      rw [if_neg (by omega), if_pos rfl, if_pos (by omega)]; simp
    · by_cases h2 : a ≤ x ∧ x < a + (n + 1)
      · rw [if_pos (by omega), if_pos h2, Nat.div_div_eq_div_mul]
        congr 2
        rw [show x - a = (x - (a + 1)) + 1 by omega, Nat.pow_succ, Nat.mul_comm]
      · rw [if_neg (by omega), if_neg h1, if_neg h2]

theorem localWrite_full {m : M} {a n v x : Nat} (h : a + n ≤ 0x3C000) : (m.localWrite a n v).core.mem.full x = m.core.mem.full x := by
  induction n generalizing m a v with
  | zero => rfl
  | succ n ih => rw [M.localWrite, ih (by omega), putLocalByte_low (by omega)]; rfl

/-- The tags of the granules a write below the window touches are cleared; the others stay. -/
theorem localWrite_tag {m : M} {a n v x : Nat} (h : a + n ≤ 0x3C000) (hw : m.core.mem.wf = true) :
    (m.localWrite a n v).core.mem.tag x = if n ≠ 0 ∧ a / 16 ≤ x / 16 ∧ x / 16 ≤ (a + n - 1) / 16 then false else m.core.mem.tag x := by
  induction n generalizing m a v with
  | zero => rw [if_neg (by omega)]; rfl
  | succ n ih =>
    rw [M.localWrite, putLocalByte_low (by omega), ih (by omega) (Memory.wf_setByte (Memory.wf_setTag hw))]
    simp only [Memory.tag_setByte, Memory.tag_setTag hw]
    by_cases h1 : x / 16 = a / 16
    · rw [if_pos h1, if_pos (c := n + 1 ≠ 0 ∧ _) ⟨by omega, by omega, by omega⟩]; simp
    · rw [if_neg h1]
      by_cases h2 : a / 16 ≤ x / 16 ∧ x / 16 ≤ (a + (n + 1) - 1) / 16
      · rw [if_pos ⟨by omega, by omega, by omega⟩, if_pos ⟨by omega, h2⟩]
      · rw [if_neg (by omega), if_neg (by omega)]

/-- A read below the window reads the local memory. -/
theorem localRead_low {m : M} {a n : Nat} (h : a + n ≤ 0x3C000) : m.localRead a n = m.core.mem.read a n := by
  induction n generalizing a with
  | zero => rfl
  | succ n ih => rw [M.localRead, Memory.read, ih (by omega), M.localByte, inWindow_low (by omega)]; rfl

/-- The bytes a write below the window stored are read back. -/
theorem localRead_write {m : M} {a n v : Nat} (h : a + n ≤ 0x3C000) (hw : m.core.mem.wf = true) :
    (m.localWrite a n v).localRead a n = v % 256 ^ n := by
  rw [localRead_low h, ← Memory.read_write hw]
  refine Memory.read_congr fun k hk => ?_
  rw [localWrite_byte h hw, if_pos (by omega), Memory.byte_write_in hw hk, Nat.add_sub_cancel_left]

theorem retryLocal_nil {n off : Nat} {c : Core} {s : State} (h : c.localWaits = []) : Core.retryLocal n off c s = (c, s) := by
  cases n <;> simp [Core.retryLocal, h]

/-- An E bit changed below the window while nothing waits. -/
theorem setLocalFull_quiet {m : M} {off : Nat} {b : Bool} (h : off < 0x3C000) (hq : m.core.localWaits = []) :
    m.setLocalFull off b = { m with core := { m.core with dirty := setIns m.core.dirty (off / 4096), mem := m.core.mem.setFull off b,
                                                          thr := m.core.thr.set m.tid m.thr } } := by
  have hc : ∀ n, Core.retryLocal n off { m.core.soil off with mem := m.core.mem.setFull off b, thr := m.core.thr.set m.tid m.thr } m.st = _ :=
    fun n => retryLocal_nil (by simp only [Core.soil, inWindow_low h, Bool.false_eq_true, if_false]; exact hq)
  unfold M.setLocalFull
  simp only [hc]
  simp only [Core.soil, inWindow_low h, Bool.false_eq_true, if_false]

theorem feLocal_ready {m : M} {off : Nat} {k : AccKind} {data : W64} (h : off < 0x3C000) (hr : feReady k (m.core.mem.full off) = true) :
    m.feLocal off k data = (if feAfter k (m.core.mem.full off) = m.core.mem.full off then m.feStored off k data
      else (m.feStored off k data).setLocalFull off (feAfter k (m.core.mem.full off)), accValue k (m.localRead off 8) (m.core.mem.full off), true) := by
  simp [M.feLocal, inWindow_low h, hr]

theorem feLocal_notReady {m : M} {off : Nat} {k : AccKind} {data : W64} (h : off < 0x3C000) (hr : feReady k (m.core.mem.full off) = false) :
    m.feLocal off k data = (m, 0, false) := by
  simp [M.feLocal, inWindow_low h, hr]

end Sys2Proof.Machine
end

