-- ==== Sys2Proof/Laws/Full.lean ====
section
/-!
SUPPORT. Full/empty accesses at the local memory.
-/
namespace Sys2Proof.Machine
open Sys2Proof Sys2Proof.Safety

theorem full_div {m : Memory} {x y : Nat} (h : x / 8 = y / 8) : m.full x = m.full y := by simp [Memory.full, h]

theorem after_st (md : BitVec 2) (b : Bool) : feAfter (.stfe md) b = if md = 2 then false else if md = 3 then b else true := by
  revert md; cases b <;> decide

theorem after_ld (md : BitVec 2) (b : Bool) : feAfter (.ldfe md) b = if md = 2 then false else b := by
  revert md; cases b <;> decide

theorem value_ld (md : BitVec 2) (old : Nat) (b : Bool) : accValue (.ldfe md) old b = if md = 3 then (if b then 1 else 0) else old := by
  by_cases h0 : md = 3
  · subst h0; rfl
  · rw [if_neg h0]; unfold accValue; split
    · rename_i he; exact absurd (AccKind.ldfe.inj he) h0
    · rfl

theorem set_quiet {m : M} {off : Nat} {b : Bool} (h : off < 0x3C000) (hq : m.core.localWaits = []) (hw : m.core.mem.wf = true) :
    let m' := if b = m.core.mem.full off then m else m.setLocalFull off b
    m'.st = m.st ∧ m'.thr = m.thr ∧ (∀ x, m'.core.mem.byte x = m.core.mem.byte x) ∧ (∀ x, m'.core.mem.full x = if x / 8 = off / 8 then b else m.core.mem.full x) := by
  intro m'
  by_cases he : b = m.core.mem.full off
  · have : m' = m := if_pos he
    rw [this]
    refine ⟨rfl, rfl, fun _ => rfl, fun x => ?_⟩
    split
    · rename_i hx; rw [full_div hx, he]
    · rfl
  · have : m' = _ := (if_neg he).trans (setLocalFull_quiet h hq)
    rw [this]
    exact ⟨rfl, rfl, fun _ => rfl, fun x => Memory.full_setFull hw⟩

theorem read_byte {m m' : Memory} {a n : Nat} (h : ∀ x, m'.byte x = m.byte x) : m'.read a n = m.read a n := Memory.read_congr fun _ _ => h _

theorem toNat_mod (v : W64) : v.toNat % 2 ^ (8 * 8) = v.toNat := by omega

end Sys2Proof.Machine
end

