-- ==== Sys2Proof/Laws/Gate.lean ====
section
/-!
SUPPORT. The checks before an instruction takes effect (R132, R236).
-/
namespace Sys2Proof.Machine
open Sys2Proof Sys2Proof.Safety

theorem gate_absent {i : Instr} {m : M} {n : Nat} (h : (fieldsOf i).findSome? (fun u => (useVreg u).bind fun n => if n < 6 * m.core.vrows ∨ m.thr.oldRows.isSome then none else some n) = some n) :
    gate i m = .error (.trap causeRegAbsent (BitVec.ofNat 64 n) []) := by
  unfold gate
  have h1 : ∃ k, (fieldsOf i).findSome? useVreg = some k := by
    obtain ⟨u, hu, hb⟩ := List.exists_of_findSome?_eq_some h
    cases hv : useVreg u with
    | none => rw [hv] at hb; cases hb
    | some k =>
      cases hf : (fieldsOf i).findSome? useVreg with
      | some k => exact ⟨k, rfl⟩
      | none => exact absurd ((List.findSome?_eq_none_iff.mp hf) u hu) (by simp [hv])
  obtain ⟨k, hk⟩ := h1
  simp only [hk, h, bind, Except.bind]

theorem gate_ready {i : Instr} {m : M} (h : MayIssue i m) : gate i m = (if gatedOff m i then pure () else do
    match m.thr.pendTrap with
    | some (c, v) => .error (.trap c v [])
    | none => pure ()
    trapIf (sysOnly i && !m.thr.sys) causePrivilege 0
    trapIf (readOnlySr i) causePrivilege 3
    trapIf (isMatrix i && !m.core.lrec.matrix) causeMatrix 1
    m.queueTrap (activeUses m i)) := by
  obtain ⟨h1, h2, h3, h4, h5⟩ := h
  unfold gate
  cases hv : (fieldsOf i).findSome? useVreg <;> simp only [hv, h1, h2, h3, h4, h5, stallIf, bind, Except.bind, Bool.false_eq_true, if_false] <;> rfl

theorem gate_pend {i : Instr} {m : M} (h1 : (fieldsOf i).findSome? (fun u => (useVreg u).bind fun n => if n < 6 * m.core.vrows ∨ m.thr.oldRows.isSome then none else some n) = none)
    (h2 : m.deferredBy (fieldsOf i) = none) (h3 : (ownUses i (fieldsOf i)).any m.pendingUse = true) : gate i m = .error .stall := by
  unfold gate
  cases hv : (fieldsOf i).findSome? useVreg <;> simp only [hv, h1, h2, h3, stallIf, bind, Except.bind, if_true] <;> rfl

theorem gate_wait {i : Instr} {m : M} (h1 : (fieldsOf i).findSome? (fun u => (useVreg u).bind fun n => if n < 6 * m.core.vrows ∨ m.thr.oldRows.isSome then none else some n) = none)
    (h2 : m.deferredBy (fieldsOf i) = none) (h3 : (ownUses i (fieldsOf i)).any m.pendingUse = false) (h4 : m.queueWait (fieldsOf i) = true) : gate i m = .error .stall := by
  unfold gate
  cases hv : (fieldsOf i).findSome? useVreg <;> simp only [hv, h1, h2, h3, h4, stallIf, bind, Except.bind, if_true, Bool.false_eq_true, if_false] <;> rfl

end Sys2Proof.Machine
end

