-- ==== Sys2Proof/Laws/Keyed.lean ====
section
/-!
SUPPORT. Keyed instructions: the request entered in the ticket table and sent.
-/
namespace Sys2Proof.Machine
open Sys2Proof Sys2Proof.Safety

theorem enqueue_ok {m : M} {o : XOp} {x : EngCmd} (hq : m.acqPending = false) (hl : (m.core.engQueue (engOf x.op)).length < 2) :
    m.enqueue o x = .ok { ({ m with core := m.core.setEng (engOf x.op) (m.core.engQueue (engOf x.op) ++ [x]) (m.core.engRun (engOf x.op)) } : M).setPending o.d false with
      st := m.st.post (.engineCommandStart (m.core.setEng (engOf x.op) (m.core.engQueue (engOf x.op) ++ [x]) (m.core.engRun (engOf x.op))).id (engOf x.op)) } := by
  simp only [M.enqueue, hq, stallIf, Bool.false_eq_true, if_false, bind, Except.bind, pure, Except.pure, show (decide ((m.core.engQueue (engOf x.op)).length ≥ 2)) = false from by simp; omega]

theorem fe_guard {b : Bool} {e : Except Stop Unit} (h : b = true → e = .ok ()) : (if b = true then e else Except.ok ()) = .ok () := by split <;> simp_all

theorem sp_tickets (m : M) (f : F6) (b : Bool) : (m.setPending f b).core.tickets = m.core.tickets := by unfold M.setPending; simp only; split <;> (try split) <;> (try split) <;> (try split) <;> rfl

theorem sp_c (m : M) (f : F6) (b : Bool) : (m.setPending f b).thr.c = m.thr.c := by unfold M.setPending; simp only; split <;> (try split) <;> (try split) <;> (try split) <;> rfl

theorem sp_v (m : M) (f : F6) (b : Bool) : (m.setPending f b).thr.v = m.thr.v := by unfold M.setPending; simp only; split <;> (try split) <;> (try split) <;> (try split) <;> rfl

theorem sp_pc (m : M) (f : F6) (b : Bool) : (m.setPending f b).thr.pc = m.thr.pc := by unfold M.setPending; simp only; split <;> (try split) <;> (try split) <;> (try split) <;> rfl

theorem sp_mem (m : M) (f : F6) (b : Bool) : (m.setPending f b).core.mem = m.core.mem := by unfold M.setPending; simp only; split <;> (try split) <;> (try split) <;> (try split) <;> rfl

theorem sp_pend {m : M} {k : KReq} (hv : k.vec = false) (h0 : 0 < k.d.toNat) (h32 : k.d.toNat < 32) (he : k.e = 0) :
    ((m.setPending k.d k.vec).setPending k.e false).thr.pendC = bitOn m.thr.pendC k.d.toNat := by
  rw [hv, he]
  have h1 : m.setPending k.d false = { m with thr := { m.thr with pendC := bitOn m.thr.pendC k.d.toNat } } := by
    unfold M.setPending
    simp only [Bool.false_eq_true, if_false]
    rw [if_neg (by omega), if_pos h32]
  rw [h1]
  rfl

end Sys2Proof.Machine
end

