-- ==== Sys2Proof/Laws/Word.lean ====
section
/-!
SUPPORT. The word functions of the scalar instructions, each in the terms of its rule (R297–R303).
-/
namespace Sys2Proof.Machine
open Sys2Proof

theorem rolW_eq (x : W64) (n : Nat) (h : n < 64) : rolW x n = (x <<< n) + (x >>> (64 - n)) := by
  rw [rolW, BitVec.rotateLeft_def, Nat.mod_eq_of_lt h, BitVec.add_eq_or_of_and_eq_zero]
  ext i hi
  simp
  intro h1 h2
  apply BitVec.getLsbD_of_ge
  omega

theorem sextW_eq (x : W64) (n : Nat) : sextW x n = (x.setWidth n).signExtend 64 := by
  unfold sextW intVal
  simp only [BitVec.signExtend]
  congr 1
  rw [BitVec.toInt_eq_msb_cond, BitVec.msb_eq_decide]
  simp

theorem zextW_eq (x : W64) (n : Nat) : zextW x n = (x.setWidth n).setWidth 64 := by
  unfold zextW
  apply BitVec.eq_of_toNat_eq
  simp

theorem popW_eq (x : W64) : popW x = (List.finRange 64).countP fun i => x.getLsbD i.val := by
  unfold popW
  rw [← List.countP_eq_length_filter]
  have : List.range 64 = (List.finRange 64).map Fin.val := by simp
  rw [this, List.countP_map]
  rfl

theorem mulh_eq (x y : W64) :
    BitVec.ofInt 64 ((x.toInt * y.toInt) / 2 ^ 64) = ((x.signExtend 128 * y.signExtend 128).extractLsb' 64 64) := by
  apply BitVec.eq_of_toNat_eq
  have hp : x.signExtend 128 * y.signExtend 128 = BitVec.ofInt 128 (x.toInt * y.toInt) := by
    rw [BitVec.ofInt_mul]; rfl
  rw [hp]
  simp only [BitVec.extractLsb'_toNat, BitVec.toNat_ofInt, Nat.shiftRight_eq_div_pow]
  omega

theorem mulhu_eq (x y : W64) :
    BitVec.ofNat 64 (x.toNat * y.toNat / 2 ^ 64) = ((x.setWidth 128 * y.setWidth 128).extractLsb' 64 64) := by
  have hx := x.isLt
  have hy := y.isLt
  apply BitVec.eq_of_toNat_eq
  simp only [BitVec.toNat_ofNat, BitVec.extractLsb'_toNat, BitVec.toNat_mul, BitVec.toNat_setWidth, Nat.shiftRight_eq_div_pow]
  rw [Nat.mod_eq_of_lt (a := x.toNat) (by omega), Nat.mod_eq_of_lt (a := y.toNat) (by omega),
    Nat.mod_eq_of_lt (a := x.toNat * y.toNat) (by nlinarith)]

theorem clzW_eq (x : W64) (n : Nat) (hn : n < 64) (h1 : x.getLsbD (63 - n) = true) (h2 : ∀ k, k < n → x.getLsbD (63 - k) = false) :
    clzW x = n := by
  unfold clzW
  have hx : x ≠ 0 := by rintro rfl; simp at h1
  rw [if_neg hx]
  have hx' : x.toNat ≠ 0 := by intro h; apply hx; apply BitVec.eq_of_toNat_eq; simpa using h
  have : Nat.log2 x.toNat = 63 - n := by
    rw [Nat.log2_eq_iff hx']
    constructor
    · by_contra hc
      rw [BitVec.getLsbD, Nat.testBit_lt_two_pow (by omega)] at h1
      exact absurd h1 (by simp)
    · apply Nat.lt_pow_two_of_testBit
      intro i hi
      by_cases h64 : i < 64
      · have := h2 (63 - i) (by omega)
        rw [show 63 - (63 - i) = i by omega] at this
        exact this
      · exact BitVec.getLsbD_of_ge x i (by omega)
  omega

theorem ctzW_eq (x : W64) (n : Nat) (hn : n < 64) (h1 : x.getLsbD n = true) (h2 : ∀ k, k < n → x.getLsbD k = false) : ctzW x = n := by
  unfold ctzW
  have : (List.range 64).find? (fun i => x.getLsbD i) = some n := by
    rw [List.find?_range_eq_some]
    exact ⟨h1, by simpa using hn, by simpa using h2⟩
  rw [this]; rfl

theorem bfx_eq (x : W64) (p l : Nat) : zextW (x >>> p) l = (x.extractLsb' p l).setWidth 64 := by
  unfold zextW
  apply BitVec.eq_of_toNat_eq
  simp [BitVec.extractLsb'_toNat]

theorem bfxs_eq (x : W64) (p l : Nat) : sextW (x >>> p) l = (x.extractLsb' p l).signExtend 64 := by
  rw [sextW_eq]
  congr 1
  apply BitVec.eq_of_toNat_eq
  simp [BitVec.extractLsb'_toNat]

end Sys2Proof.Machine
end

