-- ==== Sys2Proof/Laws/Lanes.lean ====
section
/-!
SUPPORT. Elements of a vector register.
-/
namespace Sys2Proof.Machine
open Sys2Proof Sys2Proof.Safety

theorem sum_digits (B n : Nat) (hB : 0 < B) (g : Nat → Nat) (hg : ∀ j, g j < B) :
    (List.range n).foldl (fun acc j => acc + g j * B ^ j) 0 < B ^ n ∧
    ∀ j < n, (List.range n).foldl (fun acc j => acc + g j * B ^ j) 0 / B ^ j % B = g j := by
  induction n with
  | zero => exact ⟨by simp, fun j hj => by omega⟩
  | succ n ih =>
    rw [List.range_succ, List.foldl_append]
    simp only [List.foldl_cons, List.foldl_nil]
    obtain ⟨h1, h2⟩ := ih
    have hgn := hg n
    have hp : 0 < B ^ n := Nat.pow_pos hB
    refine ⟨?_, fun j hj => ?_⟩
    · rw [Nat.pow_succ]
      calc _ < B ^ n + g n * B ^ n := by omega
        _ = (g n + 1) * B ^ n := by rw [Nat.add_mul]; omega
        _ ≤ B * B ^ n := Nat.mul_le_mul_right _ hgn
        _ = B ^ n * B := Nat.mul_comm _ _
    · rcases Nat.lt_or_ge j n with hj' | hj'
      · obtain ⟨q, rfl⟩ : ∃ q, n = j + (q + 1) := ⟨n - j - 1, by omega⟩
        rw [← h2 j (by omega)]
        have : g (j + (q + 1)) * B ^ (j + (q + 1)) = B ^ j * (B * (g (j + (q + 1)) * B ^ q)) := by
          rw [Nat.pow_add, Nat.pow_succ]; ring
        rw [this, Nat.add_mul_div_left _ _ (Nat.pow_pos hB), Nat.add_mul_mod_self_left]
      · obtain rfl : j = n := by omega
        rw [Nat.add_mul_div_right _ _ hp, Nat.div_eq_of_lt h1, Nat.zero_add, Nat.mod_eq_of_lt hgn]

theorem elem_ofElems (s n j : Nat) (h : 8 * s * n ≤ 512) (hj : j < n) (f : Nat → Nat) : elem (ofElems s n f) s j = f j % 2 ^ (8 * s) := by
  have hB : 0 < 2 ^ (8 * s) := Nat.pow_pos (by omega)
  have hd := sum_digits (2 ^ (8 * s)) n hB (fun j => f j % 2 ^ (8 * s)) (fun j => Nat.mod_lt _ hB)
  have hp : ∀ k, (2 ^ (8 * s)) ^ k = 2 ^ (8 * s * k) := fun k => (Nat.pow_mul ..).symm
  simp only [hp] at hd
  have hlt : (List.range n).foldl (fun acc j => acc + f j % 2 ^ (8 * s) * 2 ^ (8 * s * j)) 0 < 2 ^ 512 :=
    Nat.lt_of_lt_of_le hd.1 (Nat.pow_le_pow_right (by omega) h)
  simp only [elem, ofElems, BitVec.toNat_ofNat, Nat.mod_eq_of_lt hlt]
  exact hd.2 j hj

theorem elem_lanes (i : VIn) (s j : Nat) (f : Nat → FRes) (hs : s ∈ [1, 2, 4, 8]) (hj : j < 64 / s) :
    elem (i.lanes s f).v s j = (if i.act s j then (f j).bits else if i.z then 0 else elem i.d s j) % 2 ^ (8 * s) := by
  simp only [VIn.lanes]
  refine elem_ofElems s (64 / s) j ?_ hj _
  fin_cases hs <;> decide

theorem elem_lt (v : V512) (s j : Nat) : elem v s j < 2 ^ (8 * s) := Nat.mod_lt _ (Nat.pow_pos (by omega))

end Sys2Proof.Machine
end

