-- ==== Sys2Proof/Laws/Matrix.lean ====
section
/-!
SUPPORT. A command of the matrix unit when the unit is idle.
-/
namespace Sys2Proof.Machine
open Sys2Proof Sys2Proof.Safety

theorem find_updated {α : Type} {p : α → Bool} {x : α} (hx : p x = true) : ∀ l : List α, l.any p = true → (update p (fun _ => x) l).find? p = some x
  | [], h => by simp at h
  | y :: l, h => by
    by_cases hy : p y = true
    · simp [update, hy, hx]
    · simp only [update, hy, Bool.false_eq_true, if_false, List.find?_cons]
      exact find_updated hx l (by simpa [hy] using h)

theorem quad_id (s : State) (n : Nat) : (s.quad n).id = n := by
  unfold State.quad
  cases h : s.quads.find? (fun x => decide (x.id = n)) with
  | none => rfl
  | some q => have := List.find?_some h; simpa using this

theorem quad_setQuad {s : State} {q : Quad} {n : Nat} (hn : q.id = n) : (s.setQuad q).quad n = q := by
  subst hn
  unfold State.setQuad State.quad
  split
  · rename_i h
    simp only
    rw [find_updated (by simp) _ h]; rfl
  · simp [List.find?_cons]

/-- The unit goes on with a command whose K-steps run. -/
theorem offUnit_runFor (m : M) (a : List (BitVec 2)) (n : Nat) : offUnit (m.runFor a n) = m.runFor a n := by
  have h : ((m.runFor a n).st.quad (m.runFor a n).core.quadId).act = some (.thread { core := m.core.id, thr := m.who, accs := a } true) := by
    show ((m.st.setQuad { m.st.quad m.core.quadId with act := some (.thread _ true) }).quad m.core.quadId).act = _
    rw [quad_setQuad (show ({ m.st.quad m.core.quadId with act := some (.thread { core := m.core.id, thr := m.who, accs := a } true) } : Quad).id = _ from quad_id _ _)]
  simp only [offUnit, State.leaveUnit, h]

theorem onUnit_idle {m m1 : M} {a : List (BitVec 2)} {f : M → Except Stop M} (h : UnitIdle m) (hf : f (withUnit m a) = .ok m1) : m.onUnit a f = .ok (offUnit m1) := by
  obtain ⟨h1, h2, h3⟩ := h
  simp only [M.onUnit, h1, h2, h3, List.isEmpty_nil, Bool.and_self, if_true]
  simp only [withUnit, h1, h2, h3] at hf
  rw [show f _ = _ from hf]
  rfl

theorem onUnit_run {m m1 : M} {a b : List (BitVec 2)} {n : Nat} {f : M → Except Stop M} (h : UnitIdle m) (hf : f (withUnit m a) = .ok (m1.runFor b n)) :
    m.onUnit a f = .ok (m1.runFor b n) := by rw [onUnit_idle h hf, offUnit_runFor]

end Sys2Proof.Machine
end

