-- ==== Sys2Proof/Laws/Next.lean ====
section
/-!
SUPPORT. Running an instruction answers a next state.
-/
namespace Sys2Proof.Machine
open Sys2Proof Sys2Proof.Safety

theorem runInstr_next (i : Instr) (b : Act) (s : State) : ∃ t, runInstr i b s = .next t := by
  unfold runInstr
  repeat' split
  all_goals exact ⟨_, rfl⟩

theorem fetchTrap_next (s : State) (w : M → W32) (c : BitVec 8) (v : W64) : ∃ t, fetchTrap s w c v = .next t := by
  unfold fetchTrap
  repeat' split
  all_goals exact ⟨_, rfl⟩

end Sys2Proof.Machine
end

