-- ==== Sys2Proof/Laws/PerInstr.lean ====
section
/-!
SUPPORT. One lemma per instruction: the fields of its encoding name it again (the opcode map, R286, read in both directions).
-/
namespace Sys2Proof.Laws.Codec
open Sys2Proof Sys2Proof.Laws

/-- The forms that hold another instruction, and the two words that exist only widened. -/
def isForm : Instr → Bool
  | .pairWord .. | .widenedForm .. | .literalForm .. | .vqn4p .. | .vqn4u .. => true
  | _ => false

/-- The encoding of an instruction names it: its base word, the widened form of that word, its extended-only operation. -/
def Statement (i : Instr) : Prop :=
  (∀ f w, baseFmt i = some f → baseIllegal w i = false → encode i = [f.word] ∧ fmtOf f.word = some f ∧ ofFmt f = some i ∧ ∀ x lit,
    x.keep (baseKeep x lit i) = x → canonInner x i = i → widenedOf (widenedFmt lit x f) = some (x, i)) ∧
  (∀ f, baseFmt i = some f → illegal i = false → baseIllegal none i = false) ∧
  (∀ op sub o, xopCode i = some (op, sub, o) → i.hasWords = true → canon i = i → encode i = xopWords op sub o ∧ 0x38 ≤ op.toNat ∧ o.x.scale = false ∧ ofXop op sub o = some i) ∧
  (i.hasWords = true → (baseFmt i).isSome = true ∨ (xopCode i).isSome = true ∨ isForm i = true)

/-- A base word that has no extended-only words. -/
theorem ofBase {i : Instr} (f : BaseFmt) (hb : baseFmt i = some f) (hs : subFmt (fmtMajor f) = some (fmtKind f)) (ho : ∀ w, baseIllegal w i = false → ofFmt f = some i)
    (h15 : ∀ op g b a d, f = .rr op g b a d → op = 0x15 → (g &&& 7 = g ∨ fmtInner f = f) → ∀ x, canonInner x i = i → g &&& 7 = g)
    (hw : ∀ x lit, x.keep (baseKeep x lit i) = x → canonInner x i = i → fmtInner f = f ∧ fmtFits x f = true) (hx : xopCode i = none) (he : encode i = [f.word]) (hi : illegal i = (!(uses i).all (Use.legal false) || baseIllegal none i)) :
    Statement i := by
  refine ⟨fun g w hg hl => ?_, fun _ _ h => ?_, fun op sub o h => ?_, fun _ => .inl (by rw [hb]; rfl)⟩
  · rw [hb] at hg
    obtain rfl := Option.some.inj hg
    refine ⟨he, fmtOf_word _ hs, ho w hl, fun x lit hk hc => ?_⟩
    obtain ⟨hi, hf⟩ := hw x lit hk hc
    exact widenedOf_fmt lit x f i hs hi hf (fun op g b a d e e5 => h15 op g b a d e e5 (.inr hi) x hc) (ho w hl)
  · rw [hi, Bool.or_eq_false_iff] at h
    exact h.2
  · rw [hx] at h
    exact nomatch h

/-- A row without words of its own. -/
theorem ofNone {i : Instr} (hb : baseFmt i = none) (hx : xopCode i = none) (hw : i.hasWords = true → isForm i = true) : Statement i :=
  ⟨fun f w h => by rw [hb] at h; exact (nomatch h), fun f h => by rw [hb] at h; exact (nomatch h),
    fun op sub o h => by rw [hx] at h; exact (nomatch h), fun h => .inr (.inr (hw h))⟩

/-- Only widened, or only extended, words. -/
theorem ofX {i : Instr} (op sub : F6) (o : XOp) (hb : baseFmt i = none) (hx : xopCode i = some (op, sub, o)) (h38 : 0x38 ≤ op.toNat)
    (he : encode i = xopWords op sub o)
    (hz : canon i = i → o.x.scale = false) (ho : i.hasWords = true → canon i = i → ofXop op sub o = some i) : Statement i := by
  refine ⟨fun f w h => by rw [hb] at h; exact (nomatch h), fun f h => by rw [hb] at h; exact (nomatch h),
    fun op' sub' o' h hw hc => ?_, fun _ => .inr (.inl (by rw [hx]; rfl))⟩
  rw [hx] at h
  obtain ⟨rfl, rfl, rfl⟩ := Option.some.inj h
  exact ⟨he, h38, hz hc, ho hw hc⟩

/-- A register number of three bits, of six bits in an immediate, and the two halves of a number, read back. -/
theorem back3 (a : BitVec 3) : (a.setWidth 6).extractLsb' 0 3 = a := by revert a; decide
theorem back6 (a : F6) : (a.setWidth 10).extractLsb' 0 6 = a := by revert a; decide
theorem backLow (a b : BitVec 5) : (a ++ b).extractLsb' 0 5 = b := by
  apply BitVec.eq_of_getLsbD_eq
  intro i hi
  simp only [BitVec.getLsbD_extractLsb', BitVec.getLsbD_append]
  interval_cases i <;> simp
theorem backHigh (a b : BitVec 5) : (a ++ b).extractLsb' 5 5 = a := by
  apply BitVec.eq_of_getLsbD_eq
  intro i hi
  simp only [BitVec.getLsbD_extractLsb', BitVec.getLsbD_append]
  interval_cases i <;> simp
theorem back12 (a : BitVec 12) : a.extractLsb' 6 6 ++ a.extractLsb' 0 6 = a := by
  apply BitVec.eq_of_getLsbD_eq
  intro i hi
  simp only [BitVec.getLsbD_extractLsb', BitVec.getLsbD_append]
  interval_cases i <;> simp
/-- All numbers of three bits, and of two. -/
theorem all3 {P : BitVec 3 → Prop} (h0 : P 0) (h1 : P 1) (h2 : P 2) (h3 : P 3) (h4 : P 4) (h5 : P 5) (h6 : P 6) (h7 : P 7) (a : BitVec 3) : P a := by
  have h : a = 0 ∨ a = 1 ∨ a = 2 ∨ a = 3 ∨ a = 4 ∨ a = 5 ∨ a = 6 ∨ a = 7 := by revert a; decide
  rcases h with rfl | rfl | rfl | rfl | rfl | rfl | rfl | rfl <;> assumption

/-- B, C and the scale of a form whose operation uses none. -/
theorem keep_b {x : Ext} {k : Keep} (h : x.keep k = x) (hk : k.b = false) : x.b = 0 := by
  rw [← congrArg Ext.b h]
  simp only [Ext.keep, hk, Bool.false_eq_true, if_false]
theorem keep_c {x : Ext} {k : Keep} (h : x.keep k = x) (hk : k.c = 0) : x.c = 0 := by
  rw [← congrArg Ext.c h]
  simp only [Ext.keep, hk]
  exact BitVec.and_zero
theorem keep_scale {x : Ext} {k : Keep} (h : x.keep k = x) (hk : k.scale = false) : x.scale = false := by
  rw [← congrArg Ext.scale h]
  simp only [Ext.keep, hk, Bool.false_and]
theorem fits_rr {x : Ext} (h1 : x.b = 0) (h2 : x.scale = false) (op g b a d : F6) : fmtFits x (.rr op g b a d) = true := by
  simp only [fmtFits, h1, h2, decide_true, Bool.not_false, Bool.and_self]
theorem fits_vr {x : Ext} (h1 : x.b = 0) (h2 : x.scale = false) (op : F6) (g t : BitVec 3) (b a d : F6) : fmtFits x (.vr op g t b a d) = true := by
  simp only [fmtFits, h1, h2, decide_true, Bool.not_false, Bool.and_self]
theorem fits_all {x : Ext} (h1 : x.b = 0) (h3 : x.c = 0) (h2 : x.scale = false) (f : BaseFmt) : fmtFits x f = true := by
  cases f <;> simp only [fmtFits, h1, h2, h3, decide_true, Bool.not_false, Bool.and_self]


theorem powerGood : Statement .powerGood :=
  ofNone rfl rfl (fun h => absurd h Bool.false_ne_true)

theorem bringupStepComplete (ok : Bool) (fdie : Nat) : Statement (.bringupStepComplete ok fdie) :=
  ofNone rfl rfl (fun h => absurd h Bool.false_ne_true)

theorem bringupTimeout (fdie : Nat) : Statement (.bringupTimeout fdie) :=
  ofNone rfl rfl (fun h => absurd h Bool.false_ne_true)

theorem discoveryAnswer (die site : Nat) (fused failed : Bool) : Statement (.discoveryAnswer die site fused failed) :=
  ofNone rfl rfl (fun h => absurd h Bool.false_ne_true)

theorem discoveryTimeout (die : Nat) : Statement (.discoveryTimeout die) :=
  ofNone rfl rfl (fun h => absurd h Bool.false_ne_true)

theorem standbyPowerUp : Statement .standbyPowerUp :=
  ofNone rfl rfl (fun h => absurd h Bool.false_ne_true)

theorem moduleReset (hold : Bool) : Statement (.moduleReset hold) :=
  ofNone rfl rfl (fun h => absurd h Bool.false_ne_true)

theorem harvySetPlim (w : Nat) : Statement (.harvySetPlim w) :=
  ofNone rfl rfl (fun h => absurd h Bool.false_ne_true)

theorem harvySetModid (n : BitVec 16) : Statement (.harvySetModid n) :=
  ofNone rfl rfl (fun h => absurd h Bool.false_ne_true)

theorem harvyStageFirmware (img : List Byte) : Statement (.harvyStageFirmware img) :=
  ofNone rfl rfl (fun h => absurd h Bool.false_ne_true)

theorem harvyAttest (nonce : BitVec 128) : Statement (.harvyAttest nonce) :=
  ofNone rfl rfl (fun h => absurd h Bool.false_ne_true)

theorem attestationReport : Statement .attestationReport :=
  ofNone rfl rfl (fun h => absurd h Bool.false_ne_true)

theorem powerSample (w : Nat) : Statement (.powerSample w) :=
  ofNone rfl rfl (fun h => absurd h Bool.false_ne_true)

theorem powerIntervalEnd : Statement .powerIntervalEnd :=
  ofNone rfl rfl (fun h => absurd h Bool.false_ne_true)

theorem dieThermalReport (die temp : Nat) : Statement (.dieThermalReport die temp) :=
  ofNone rfl rfl (fun h => absurd h Bool.false_ne_true)

theorem hbmThermalReport (stack temp : Nat) : Statement (.hbmThermalReport stack temp) :=
  ofNone rfl rfl (fun h => absurd h Bool.false_ne_true)

theorem mstatThermClear : Statement .mstatThermClear :=
  ofNone rfl rfl (fun h => absurd h Bool.false_ne_true)

theorem registerWrite (pa size : Nat) (v : W64) (m : Master) : Statement (.registerWrite pa size v m) :=
  ofNone rfl rfl (fun h => absurd h Bool.false_ne_true)

theorem memoryPortAccess (acc : PortAccess) : Statement (.memoryPortAccess acc) :=
  ofNone rfl rfl (fun h => absurd h Bool.false_ne_true)

theorem scrubVisit (blk : Nat) (found : ScrubResult) : Statement (.scrubVisit blk found) :=
  ofNone rfl rfl (fun h => absurd h Bool.false_ne_true)

theorem cachePortAccess (acc : PortAccess) : Statement (.cachePortAccess acc) :=
  ofNone rfl rfl (fun h => absurd h Bool.false_ne_true)

theorem driftHalvingVisit (die : Nat) : Statement (.driftHalvingVisit die) :=
  ofNone rfl rfl (fun h => absurd h Bool.false_ne_true)

theorem motionStart (die leaf dst : Nat) : Statement (.motionStart die leaf dst) :=
  ofNone rfl rfl (fun h => absurd h Bool.false_ne_true)

theorem motionFlushAck (die src : Nat) : Statement (.motionFlushAck die src) :=
  ofNone rfl rfl (fun h => absurd h Bool.false_ne_true)

theorem granuleCopyAck (die src : Nat) : Statement (.granuleCopyAck die src) :=
  ofNone rfl rfl (fun h => absurd h Bool.false_ne_true)

theorem granuleCopyTimeout (die src : Nat) : Statement (.granuleCopyTimeout die src) :=
  ofNone rfl rfl (fun h => absurd h Bool.false_ne_true)

theorem motionAccess (die src : Nat) (acc : PortAccess) : Statement (.motionAccess die src acc) :=
  ofNone rfl rfl (fun h => absurd h Bool.false_ne_true)

theorem motionShootdownAck (die src quad : Nat) : Statement (.motionShootdownAck die src quad) :=
  ofNone rfl rfl (fun h => absurd h Bool.false_ne_true)

theorem quadShootdown (quad : Nat) (ctx : BitVec 6) (va pages die src : Nat) : Statement (.quadShootdown quad ctx va pages die src) :=
  ofNone rfl rfl (fun h => absurd h Bool.false_ne_true)

theorem motionTimeLimit (die src : Nat) : Statement (.motionTimeLimit die src) :=
  ofNone rfl rfl (fun h => absurd h Bool.false_ne_true)

theorem cxlDynamicCapacityRelease (base : CxlChange) (count : Nat) : Statement (.cxlDynamicCapacityRelease base count) :=
  ofNone rfl rfl (fun h => absurd h Bool.false_ne_true)

theorem flitReceive (link : LinkId) (flit : Flit) : Statement (.flitReceive link flit) :=
  ofNone rfl rfl (fun h => absurd h Bool.false_ne_true)

theorem linkRetrainTimeout (link : LinkId) : Statement (.linkRetrainTimeout link) :=
  ofNone rfl rfl (fun h => absurd h Bool.false_ne_true)

theorem dieLinkModuleFailure (die gw m : Nat) : Statement (.dieLinkModuleFailure die gw m) :=
  ofNone rfl rfl (fun h => absurd h Bool.false_ne_true)

theorem cirrusLaneFailure (die port lane : Nat) : Statement (.cirrusLaneFailure die port lane) :=
  ofNone rfl rfl (fun h => absurd h Bool.false_ne_true)

theorem cirrusPortStateChange (die port : Nat) (up : Bool) : Statement (.cirrusPortStateChange die port up) :=
  ofNone rfl rfl (fun h => absurd h Bool.false_ne_true)

theorem rldRequest (p : Packet) : Statement (.rldRequest p) :=
  ofNone rfl rfl (fun h => absurd h Bool.false_ne_true)

theorem rstRequest (p : Packet) : Statement (.rstRequest p) :=
  ofNone rfl rfl (fun h => absurd h Bool.false_ne_true)

theorem ramoRequest (p : Packet) : Statement (.ramoRequest p) :=
  ofNone rfl rfl (fun h => absurd h Bool.false_ne_true)

theorem rcasRequest (p : Packet) : Statement (.rcasRequest p) :=
  ofNone rfl rfl (fun h => absurd h Bool.false_ne_true)

theorem rcallRequest (p : Packet) : Statement (.rcallRequest p) :=
  ofNone rfl rfl (fun h => absurd h Bool.false_ne_true)

theorem rgetRequest (p : Packet) : Statement (.rgetRequest p) :=
  ofNone rfl rfl (fun h => absurd h Bool.false_ne_true)

theorem rputRequest (p : Packet) : Statement (.rputRequest p) :=
  ofNone rfl rfl (fun h => absurd h Bool.false_ne_true)

theorem probeRequest (p : Packet) : Statement (.probeRequest p) :=
  ofNone rfl rfl (fun h => absurd h Bool.false_ne_true)

theorem launchWindowRequest (p : Packet) : Statement (.launchWindowRequest p) :=
  ofNone rfl rfl (fun h => absurd h Bool.false_ne_true)

theorem dataReply (p : Packet) : Statement (.dataReply p) :=
  ofNone rfl rfl (fun h => absurd h Bool.false_ne_true)

theorem doneReply (p : Packet) : Statement (.doneReply p) :=
  ofNone rfl rfl (fun h => absurd h Bool.false_ne_true)

theorem parkedReply (p : Packet) : Statement (.parkedReply p) :=
  ofNone rfl rfl (fun h => absurd h Bool.false_ne_true)

theorem ticketReply (p : Packet) : Statement (.ticketReply p) :=
  ofNone rfl rfl (fun h => absurd h Bool.false_ne_true)

theorem errorReply (p : Packet) : Statement (.errorReply p) :=
  ofNone rfl rfl (fun h => absurd h Bool.false_ne_true)

theorem busyReply (p : Packet) : Statement (.busyReply p) :=
  ofNone rfl rfl (fun h => absurd h Bool.false_ne_true)

theorem busyBackoffExpiry (t : ThrId) (tag : Nat) (gen : BitVec 4) : Statement (.busyBackoffExpiry t tag gen) :=
  ofNone rfl rfl (fun h => absurd h Bool.false_ne_true)

theorem replayNotice (p : Packet) : Statement (.replayNotice p) :=
  ofNone rfl rfl (fun h => absurd h Bool.false_ne_true)

theorem varriveNotice (p : Packet) : Statement (.varriveNotice p) :=
  ofNone rfl rfl (fun h => absurd h Bool.false_ne_true)

theorem rnoteNotice (p : Packet) : Statement (.rnoteNotice p) :=
  ofNone rfl rfl (fun h => absurd h Bool.false_ne_true)

theorem fewakeNotice (t : ThrId) (v : W64) : Statement (.fewakeNotice t v) :=
  ofNone rfl rfl (fun h => absurd h Bool.false_ne_true)

theorem retransmitTimeout (t : ThrId) (tag : Nat) (gen : BitVec 4) : Statement (.retransmitTimeout t tag gen) :=
  ofNone rfl rfl (fun h => absurd h Bool.false_ne_true)

theorem finalTimeout (t : ThrId) (tag : Nat) (gen : BitVec 4) : Statement (.finalTimeout t tag gen) :=
  ofNone rfl rfl (fun h => absurd h Bool.false_ne_true)

theorem probeTimer (t : ThrId) (tag : Nat) (gen : BitVec 4) : Statement (.probeTimer t tag gen) :=
  ofNone rfl rfl (fun h => absurd h Bool.false_ne_true)

theorem ticketLimitTimeout (t : ThrId) (tag : Nat) (gen : BitVec 4) : Statement (.ticketLimitTimeout t tag gen) :=
  ofNone rfl rfl (fun h => absurd h Bool.false_ne_true)

theorem flowIdleTimeout (die gw : Nat) (src : BitVec 32) (thr : BitVec 3) (key : BitVec 32) : Statement (.flowIdleTimeout die gw src thr key) :=
  ofNone rfl rfl (fun h => absurd h Bool.false_ne_true)

theorem replyCacheExpiry (die gw : Nat) (src : BitVec 32) (tag : BitVec 10) (gen : BitVec 4) : Statement (.replyCacheExpiry die gw src tag gen) :=
  ofNone rfl rfl (fun h => absurd h Bool.false_ne_true)

theorem regionTableUpdate (die gw idx : Nat) (r : Region) : Statement (.regionTableUpdate die gw idx r) :=
  ofNone rfl rfl (fun h => absurd h Bool.false_ne_true)

theorem callStart (core : Nat) : Statement (.callStart core) :=
  ofNone rfl rfl (fun h => absurd h Bool.false_ne_true)

theorem topologyProbe (p : Packet) : Statement (.topologyProbe p) :=
  ofNone rfl rfl (fun h => absurd h Bool.false_ne_true)

theorem topologyAnswer (die : Nat) (modid : BitVec 16) (hops : Nat) : Statement (.topologyAnswer die modid hops) :=
  ofNone rfl rfl (fun h => absurd h Bool.false_ne_true)

theorem topologyDiscoveryTimeout (die : Nat) : Statement (.topologyDiscoveryTimeout die) :=
  ofNone rfl rfl (fun h => absurd h Bool.false_ne_true)

theorem lullStart (die : Nat) : Statement (.lullStart die) :=
  ofNone rfl rfl (fun h => absurd h Bool.false_ne_true)

theorem lullMarker (link : LinkId) (net cls held : Nat) (pret : BitVec 16) : Statement (.lullMarker link net cls held pret) :=
  ofNone rfl rfl (fun h => absurd h Bool.false_ne_true)

theorem lullEnd (die : Nat) : Statement (.lullEnd die) :=
  ofNone rfl rfl (fun h => absurd h Bool.false_ne_true)

theorem bar2PlainRead (port off size : Nat) : Statement (.bar2PlainRead port off size) :=
  ofNone rfl rfl (fun h => absurd h Bool.false_ne_true)

theorem bar2PlainWrite (port off size : Nat) (v : W64) : Statement (.bar2PlainWrite port off size v) :=
  ofNone rfl rfl (fun h => absurd h Bool.false_ne_true)

theorem bar2ArmRead (port off size : Nat) : Statement (.bar2ArmRead port off size) :=
  ofNone rfl rfl (fun h => absurd h Bool.false_ne_true)

theorem bar2ArmWrite (port off size : Nat) (v : W64) : Statement (.bar2ArmWrite port off size v) :=
  ofNone rfl rfl (fun h => absurd h Bool.false_ne_true)

theorem bar2ClearRead (port off size : Nat) : Statement (.bar2ClearRead port off size) :=
  ofNone rfl rfl (fun h => absurd h Bool.false_ne_true)

theorem bar2ClearWrite (port off size : Nat) (v : W64) : Statement (.bar2ClearWrite port off size v) :=
  ofNone rfl rfl (fun h => absurd h Bool.false_ne_true)

theorem dieWindowAccess (port off size : Nat) (v : Option W64) : Statement (.dieWindowAccess port off size v) :=
  ofNone rfl rfl (fun h => absurd h Bool.false_ne_true)

theorem bar0UnmappedAccess (port off size : Nat) (v : Option W64) : Statement (.bar0UnmappedAccess port off size v) :=
  ofNone rfl rfl (fun h => absurd h Bool.false_ne_true)

theorem msixUnmask (port vec : Nat) : Statement (.msixUnmask port vec) :=
  ofNone rfl rfl (fun h => absurd h Bool.false_ne_true)

theorem hostPortDown (port : Nat) : Statement (.hostPortDown port) :=
  ofNone rfl rfl (fun h => absurd h Bool.false_ne_true)

theorem herrRead (die : Nat) : Statement (.herrRead die) :=
  ofNone rfl rfl (fun h => absurd h Bool.false_ne_true)

theorem mailboxOpen (port : Nat) (cmd : W64) : Statement (.mailboxOpen port cmd) :=
  ofNone rfl rfl (fun h => absurd h Bool.false_ne_true)

theorem mailboxChunk (port : Nat) (cmd : W64) : Statement (.mailboxChunk port cmd) :=
  ofNone rfl rfl (fun h => absurd h Bool.false_ne_true)

theorem mailboxCommit (port : Nat) (cmd : W64) : Statement (.mailboxCommit port cmd) :=
  ofNone rfl rfl (fun h => absurd h Bool.false_ne_true)

theorem mailboxAbort (port : Nat) (cmd : W64) : Statement (.mailboxAbort port cmd) :=
  ofNone rfl rfl (fun h => absurd h Bool.false_ne_true)

theorem mailboxAttest (port : Nat) (cmd : W64) : Statement (.mailboxAttest port cmd) :=
  ofNone rfl rfl (fun h => absurd h Bool.false_ne_true)

theorem mailboxInvalidOp (port : Nat) (cmd : W64) : Statement (.mailboxInvalidOp port cmd) :=
  ofNone rfl rfl (fun h => absurd h Bool.false_ne_true)

theorem mailboxCommandComplete (err : BitVec 8) : Statement (.mailboxCommandComplete err) :=
  ofNone rfl rfl (fun h => absurd h Bool.false_ne_true)

theorem mbstatRead (port : Nat) : Statement (.mbstatRead port) :=
  ofNone rfl rfl (fun h => absurd h Bool.false_ne_true)

theorem accessTableWrite (die station idx : Nat) (e : AccessEntry) (m : Master) : Statement (.accessTableWrite die station idx e m) :=
  ofNone rfl rfl (fun h => absurd h Bool.false_ne_true)

theorem launchSlotTake (ctx : BitVec 6) (slot : Nat) : Statement (.launchSlotTake ctx slot) :=
  ofNone rfl rfl (fun h => absurd h Bool.false_ne_true)

theorem gateSatisfied (launch : BitVec 16) : Statement (.gateSatisfied launch) :=
  ofNone rfl rfl (fun h => absurd h Bool.false_ne_true)

theorem dispatchCoreFree (die core : Nat) : Statement (.dispatchCoreFree die core) :=
  ofNone rfl rfl (fun h => absurd h Bool.false_ne_true)

theorem bindRequest (launch : BitVec 16) (core : Nat) : Statement (.bindRequest launch core) :=
  ofNone rfl rfl (fun h => absurd h Bool.false_ne_true)

theorem preemption (launch : BitVec 16) : Statement (.preemption launch) :=
  ofNone rfl rfl (fun h => absurd h Bool.false_ne_true)

theorem teamSave (core : Nat) : Statement (.teamSave core) :=
  ofNone rfl rfl (fun h => absurd h Bool.false_ne_true)

theorem teamRestore (launch : BitVec 16) (team core : Nat) : Statement (.teamRestore launch team core) :=
  ofNone rfl rfl (fun h => absurd h Bool.false_ne_true)

theorem teamExit (core : Nat) : Statement (.teamExit core) :=
  ofNone rfl rfl (fun h => absurd h Bool.false_ne_true)

theorem teamCompletionRelease (launch : BitVec 16) (team : Nat) (result : Option W64) : Statement (.teamCompletionRelease launch team result) :=
  ofNone rfl rfl (fun h => absurd h Bool.false_ne_true)

theorem launchTermination (launch : BitVec 16) (reason code : BitVec 8) (team : Option Nat) : Statement (.launchTermination launch reason code team) :=
  ofNone rfl rfl (fun h => absurd h Bool.false_ne_true)

theorem rowRetentionEntry (t : ThrId) : Statement (.rowRetentionEntry t) :=
  ofNone rfl rfl (fun h => absurd h Bool.false_ne_true)

theorem sleepExpiry (t : ThrId) : Statement (.sleepExpiry t) :=
  ofNone rfl rfl (fun h => absurd h Bool.false_ne_true)

theorem yieldExpiry (t : ThrId) : Statement (.yieldExpiry t) :=
  ofNone rfl rfl (fun h => absurd h Bool.false_ne_true)

theorem queueEntryArrival (p : Packet) : Statement (.queueEntryArrival p) :=
  ofNone rfl rfl (fun h => absurd h Bool.false_ne_true)

theorem meshBindRequest (p : Packet) : Statement (.meshBindRequest p) :=
  ofNone rfl rfl (fun h => absurd h Bool.false_ne_true)

theorem l2Access (die pa : Nat) (kind : L2Kind) (ctx : BitVec 6) : Statement (.l2Access die pa kind ctx) :=
  ofNone rfl rfl (fun h => absurd h Bool.false_ne_true)

theorem l2PoolWrite (die : Nat) (v : W64) : Statement (.l2PoolWrite die v) :=
  ofNone rfl rfl (fun h => absurd h Bool.false_ne_true)

theorem l2NpartWrite (die : Nat) (v : W64) : Statement (.l2NpartWrite die v) :=
  ofNone rfl rfl (fun h => absurd h Bool.false_ne_true)

theorem l2BusyComplete (die : Nat) : Statement (.l2BusyComplete die) :=
  ofNone rfl rfl (fun h => absurd h Bool.false_ne_true)

theorem engineCommandStart (core : Nat) (e : Engine) : Statement (.engineCommandStart core e) :=
  ofNone rfl rfl (fun h => absurd h Bool.false_ne_true)

theorem engineCommandComplete (core : Nat) (e : Engine) : Statement (.engineCommandComplete core e) :=
  ofNone rfl rfl (fun h => absurd h Bool.false_ne_true)

theorem logRangeTimeout (launch : BitVec 16) (team since : Nat) : Statement (.logRangeTimeout launch team since) :=
  ofNone rfl rfl (fun h => absurd h Bool.false_ne_true)

theorem versionPublishRequest (name ver : Nat) (t : ThrId) : Statement (.versionPublishRequest name ver t) :=
  ofNone rfl rfl (fun h => absurd h Bool.false_ne_true)

theorem versionPublishComplete (name ver : Nat) (t : ThrId) : Statement (.versionPublishComplete name ver t) :=
  ofNone rfl rfl (fun h => absurd h Bool.false_ne_true)

theorem versionWaitRegister (name ver : Nat) (t : ThrId) : Statement (.versionWaitRegister name ver t) :=
  ofNone rfl rfl (fun h => absurd h Bool.false_ne_true)

theorem versionWaitBoundExpiry (t : ThrId) : Statement (.versionWaitBoundExpiry t) :=
  ofNone rfl rfl (fun h => absurd h Bool.false_ne_true)

theorem tenureRequest (t : ThrId) (region : Nat) (rect : Rect) (write : Bool) : Statement (.tenureRequest t region rect write) :=
  ofNone rfl rfl (fun h => absurd h Bool.false_ne_true)

theorem tenureRelease (t : ThrId) (region : Nat) (rect : Rect) : Statement (.tenureRelease t region rect) :=
  ofNone rfl rfl (fun h => absurd h Bool.false_ne_true)

theorem oneShotAccess (t : ThrId) (region : Nat) (rect : Rect) (write : Bool) : Statement (.oneShotAccess t region rect write) :=
  ofNone rfl rfl (fun h => absurd h Bool.false_ne_true)

theorem serviceRequest (die : Nat) (ctx : BitVec 6) (va : Nat) (code : BitVec 8) (write fetch : Bool) (who : SvcWaiter) : Statement (.serviceRequest die ctx va code write fetch who) :=
  ofNone rfl rfl (fun h => absurd h Bool.false_ne_true)

theorem fsdoneResolve (die svc : Nat) : Statement (.fsdoneResolve die svc) :=
  ofNone rfl rfl (fun h => absurd h Bool.false_ne_true)

theorem fsdoneRefuse (die svc : Nat) : Statement (.fsdoneRefuse die svc) :=
  ofNone rfl rfl (fun h => absurd h Bool.false_ne_true)

theorem fqheadWrite (die : Nat) (v : W64) : Statement (.fqheadWrite die v) :=
  ofNone rfl rfl (fun h => absurd h Bool.false_ne_true)

theorem coreSeal (core code : Nat) (pc : W64) : Statement (.coreSeal core code pc) :=
  ofNone rfl rfl (fun h => absurd h Bool.false_ne_true)

theorem dirtyLineLoss (level : LossLevel) (quad pa : Nat) : Statement (.dirtyLineLoss level quad pa) :=
  ofNone rfl rfl (fun h => absurd h Bool.false_ne_true)

theorem frameRetirement (pa : Nat) : Statement (.frameRetirement pa) :=
  ofNone rfl rfl (fun h => absurd h Bool.false_ne_true)

theorem matrixCommandStart (quad : Nat) : Statement (.matrixCommandStart quad) :=
  ofNone rfl rfl (fun h => absurd h Bool.false_ne_true)

theorem matrixKstepComplete (quad : Nat) : Statement (.matrixKstepComplete quad) :=
  ofNone rfl rfl (fun h => absurd h Bool.false_ne_true)

theorem remoteMatrixCommand (c : MatrixCmd) : Statement (.remoteMatrixCommand c) :=
  ofNone rfl rfl (fun h => absurd h Bool.false_ne_true)

theorem pairWord (slot : PairSlot) (v : Instr) : Statement (.pairWord slot v) :=
  ofNone rfl rfl (fun _ => rfl)

theorem widenedForm (x : Ext) (base : Instr) : Statement (.widenedForm x base) :=
  ofNone rfl rfl (fun _ => rfl)

theorem literalForm (x : Ext) (lit : W64) (i : Instr) : Statement (.literalForm x lit i) :=
  ofNone rfl rfl (fun _ => rfl)

theorem add (d a b : F6) : Statement (.add d a b) :=
  ofBase (.rr 0x01 0 b a d) rfl rfl (fun _ _ => rfl) (fun _ _ _ _ _ e e5 => by simp at e; rw [← e.1] at e5; exact absurd e5 (by decide))
    (fun _ _ hk _ => ⟨rfl, fits_rr (keep_b hk rfl) (keep_scale hk rfl) _ _ _ _ _⟩) rfl rfl rfl

theorem sub (d a b : F6) : Statement (.sub d a b) :=
  ofBase (.rr 0x01 1 b a d) rfl rfl (fun _ _ => rfl) (fun _ _ _ _ _ e e5 => by simp at e; rw [← e.1] at e5; exact absurd e5 (by decide))
    (fun _ _ hk _ => ⟨rfl, fits_rr (keep_b hk rfl) (keep_scale hk rfl) _ _ _ _ _⟩) rfl rfl rfl

theorem and (d a b : F6) : Statement (.and d a b) :=
  ofBase (.rr 0x01 2 b a d) rfl rfl (fun _ _ => rfl) (fun _ _ _ _ _ e e5 => by simp at e; rw [← e.1] at e5; exact absurd e5 (by decide))
    (fun _ _ hk _ => ⟨rfl, fits_rr (keep_b hk rfl) (keep_scale hk rfl) _ _ _ _ _⟩) rfl rfl rfl

theorem or (d a b : F6) : Statement (.or d a b) :=
  ofBase (.rr 0x01 3 b a d) rfl rfl (fun _ _ => rfl) (fun _ _ _ _ _ e e5 => by simp at e; rw [← e.1] at e5; exact absurd e5 (by decide))
    (fun _ _ hk _ => ⟨rfl, fits_rr (keep_b hk rfl) (keep_scale hk rfl) _ _ _ _ _⟩) rfl rfl rfl

theorem xor (d a b : F6) : Statement (.xor d a b) :=
  ofBase (.rr 0x01 4 b a d) rfl rfl (fun _ _ => rfl) (fun _ _ _ _ _ e e5 => by simp at e; rw [← e.1] at e5; exact absurd e5 (by decide))
    (fun _ _ hk _ => ⟨rfl, fits_rr (keep_b hk rfl) (keep_scale hk rfl) _ _ _ _ _⟩) rfl rfl rfl

theorem andn (d a b : F6) : Statement (.andn d a b) :=
  ofBase (.rr 0x01 5 b a d) rfl rfl (fun _ _ => rfl) (fun _ _ _ _ _ e e5 => by simp at e; rw [← e.1] at e5; exact absurd e5 (by decide))
    (fun _ _ hk _ => ⟨rfl, fits_rr (keep_b hk rfl) (keep_scale hk rfl) _ _ _ _ _⟩) rfl rfl rfl

theorem orn (d a b : F6) : Statement (.orn d a b) :=
  ofBase (.rr 0x01 6 b a d) rfl rfl (fun _ _ => rfl) (fun _ _ _ _ _ e e5 => by simp at e; rw [← e.1] at e5; exact absurd e5 (by decide))
    (fun _ _ hk _ => ⟨rfl, fits_rr (keep_b hk rfl) (keep_scale hk rfl) _ _ _ _ _⟩) rfl rfl rfl

theorem sll (d a b : F6) : Statement (.sll d a b) :=
  ofBase (.rr 0x01 7 b a d) rfl rfl (fun _ _ => rfl) (fun _ _ _ _ _ e e5 => by simp at e; rw [← e.1] at e5; exact absurd e5 (by decide))
    (fun _ _ hk _ => ⟨rfl, fits_rr (keep_b hk rfl) (keep_scale hk rfl) _ _ _ _ _⟩) rfl rfl rfl

theorem srl (d a b : F6) : Statement (.srl d a b) :=
  ofBase (.rr 0x01 8 b a d) rfl rfl (fun _ _ => rfl) (fun _ _ _ _ _ e e5 => by simp at e; rw [← e.1] at e5; exact absurd e5 (by decide))
    (fun _ _ hk _ => ⟨rfl, fits_rr (keep_b hk rfl) (keep_scale hk rfl) _ _ _ _ _⟩) rfl rfl rfl

theorem sra (d a b : F6) : Statement (.sra d a b) :=
  ofBase (.rr 0x01 9 b a d) rfl rfl (fun _ _ => rfl) (fun _ _ _ _ _ e e5 => by simp at e; rw [← e.1] at e5; exact absurd e5 (by decide))
    (fun _ _ hk _ => ⟨rfl, fits_rr (keep_b hk rfl) (keep_scale hk rfl) _ _ _ _ _⟩) rfl rfl rfl

theorem rol (d a b : F6) : Statement (.rol d a b) :=
  ofBase (.rr 0x01 10 b a d) rfl rfl (fun _ _ => rfl) (fun _ _ _ _ _ e e5 => by simp at e; rw [← e.1] at e5; exact absurd e5 (by decide))
    (fun _ _ hk _ => ⟨rfl, fits_rr (keep_b hk rfl) (keep_scale hk rfl) _ _ _ _ _⟩) rfl rfl rfl

theorem min (d a b : F6) : Statement (.min d a b) :=
  ofBase (.rr 0x01 11 b a d) rfl rfl (fun _ _ => rfl) (fun _ _ _ _ _ e e5 => by simp at e; rw [← e.1] at e5; exact absurd e5 (by decide))
    (fun _ _ hk _ => ⟨rfl, fits_rr (keep_b hk rfl) (keep_scale hk rfl) _ _ _ _ _⟩) rfl rfl rfl

theorem max (d a b : F6) : Statement (.max d a b) :=
  ofBase (.rr 0x01 12 b a d) rfl rfl (fun _ _ => rfl) (fun _ _ _ _ _ e e5 => by simp at e; rw [← e.1] at e5; exact absurd e5 (by decide))
    (fun _ _ hk _ => ⟨rfl, fits_rr (keep_b hk rfl) (keep_scale hk rfl) _ _ _ _ _⟩) rfl rfl rfl

theorem minu (d a b : F6) : Statement (.minu d a b) :=
  ofBase (.rr 0x01 13 b a d) rfl rfl (fun _ _ => rfl) (fun _ _ _ _ _ e e5 => by simp at e; rw [← e.1] at e5; exact absurd e5 (by decide))
    (fun _ _ hk _ => ⟨rfl, fits_rr (keep_b hk rfl) (keep_scale hk rfl) _ _ _ _ _⟩) rfl rfl rfl

theorem maxu (d a b : F6) : Statement (.maxu d a b) :=
  ofBase (.rr 0x01 14 b a d) rfl rfl (fun _ _ => rfl) (fun _ _ _ _ _ e e5 => by simp at e; rw [← e.1] at e5; exact absurd e5 (by decide))
    (fun _ _ hk _ => ⟨rfl, fits_rr (keep_b hk rfl) (keep_scale hk rfl) _ _ _ _ _⟩) rfl rfl rfl

theorem mul (d a b : F6) : Statement (.mul d a b) :=
  ofBase (.rr 0x01 15 b a d) rfl rfl (fun _ _ => rfl) (fun _ _ _ _ _ e e5 => by simp at e; rw [← e.1] at e5; exact absurd e5 (by decide))
    (fun _ _ hk _ => ⟨rfl, fits_rr (keep_b hk rfl) (keep_scale hk rfl) _ _ _ _ _⟩) rfl rfl rfl

theorem mulh (d a b : F6) : Statement (.mulh d a b) :=
  ofBase (.rr 0x01 16 b a d) rfl rfl (fun _ _ => rfl) (fun _ _ _ _ _ e e5 => by simp at e; rw [← e.1] at e5; exact absurd e5 (by decide))
    (fun _ _ hk _ => ⟨rfl, fits_rr (keep_b hk rfl) (keep_scale hk rfl) _ _ _ _ _⟩) rfl rfl rfl

theorem mulhu (d a b : F6) : Statement (.mulhu d a b) :=
  ofBase (.rr 0x01 17 b a d) rfl rfl (fun _ _ => rfl) (fun _ _ _ _ _ e e5 => by simp at e; rw [← e.1] at e5; exact absurd e5 (by decide))
    (fun _ _ hk _ => ⟨rfl, fits_rr (keep_b hk rfl) (keep_scale hk rfl) _ _ _ _ _⟩) rfl rfl rfl

theorem div (d a b : F6) : Statement (.div d a b) :=
  ofBase (.rr 0x01 18 b a d) rfl rfl (fun _ _ => rfl) (fun _ _ _ _ _ e e5 => by simp at e; rw [← e.1] at e5; exact absurd e5 (by decide))
    (fun _ _ hk _ => ⟨rfl, fits_rr (keep_b hk rfl) (keep_scale hk rfl) _ _ _ _ _⟩) rfl rfl rfl

theorem divu (d a b : F6) : Statement (.divu d a b) :=
  ofBase (.rr 0x01 19 b a d) rfl rfl (fun _ _ => rfl) (fun _ _ _ _ _ e e5 => by simp at e; rw [← e.1] at e5; exact absurd e5 (by decide))
    (fun _ _ hk _ => ⟨rfl, fits_rr (keep_b hk rfl) (keep_scale hk rfl) _ _ _ _ _⟩) rfl rfl rfl

theorem rem (d a b : F6) : Statement (.rem d a b) :=
  ofBase (.rr 0x01 20 b a d) rfl rfl (fun _ _ => rfl) (fun _ _ _ _ _ e e5 => by simp at e; rw [← e.1] at e5; exact absurd e5 (by decide))
    (fun _ _ hk _ => ⟨rfl, fits_rr (keep_b hk rfl) (keep_scale hk rfl) _ _ _ _ _⟩) rfl rfl rfl

theorem remu (d a b : F6) : Statement (.remu d a b) :=
  ofBase (.rr 0x01 21 b a d) rfl rfl (fun _ _ => rfl) (fun _ _ _ _ _ e e5 => by simp at e; rw [← e.1] at e5; exact absurd e5 (by decide))
    (fun _ _ hk _ => ⟨rfl, fits_rr (keep_b hk rfl) (keep_scale hk rfl) _ _ _ _ _⟩) rfl rfl rfl

theorem addc (d a b : F6) : Statement (.addc d a b) :=
  ofBase (.rr 0x01 22 b a d) rfl rfl (fun _ _ => rfl) (fun _ _ _ _ _ e e5 => by simp at e; rw [← e.1] at e5; exact absurd e5 (by decide))
    (fun _ _ hk _ => ⟨rfl, fits_rr (keep_b hk rfl) (keep_scale hk rfl) _ _ _ _ _⟩) rfl rfl rfl

theorem subb (d a b : F6) : Statement (.subb d a b) :=
  ofBase (.rr 0x01 23 b a d) rfl rfl (fun _ _ => rfl) (fun _ _ _ _ _ e e5 => by simp at e; rw [← e.1] at e5; exact absurd e5 (by decide))
    (fun _ _ hk _ => ⟨rfl, fits_rr (keep_b hk rfl) (keep_scale hk rfl) _ _ _ _ _⟩) rfl rfl rfl

theorem clz (d a : F6) : Statement (.clz d a) :=
  ofBase (.rr 0x01 24 0 a d) rfl rfl (fun _ _ => rfl) (fun _ _ _ _ _ e e5 => by simp at e; rw [← e.1] at e5; exact absurd e5 (by decide))
    (fun _ _ hk _ => ⟨rfl, fits_rr (keep_b hk rfl) (keep_scale hk rfl) _ _ _ _ _⟩) rfl rfl rfl

theorem ctz (d a : F6) : Statement (.ctz d a) :=
  ofBase (.rr 0x01 25 0 a d) rfl rfl (fun _ _ => rfl) (fun _ _ _ _ _ e e5 => by simp at e; rw [← e.1] at e5; exact absurd e5 (by decide))
    (fun _ _ hk _ => ⟨rfl, fits_rr (keep_b hk rfl) (keep_scale hk rfl) _ _ _ _ _⟩) rfl rfl rfl

theorem popc (d a : F6) : Statement (.popc d a) :=
  ofBase (.rr 0x01 26 0 a d) rfl rfl (fun _ _ => rfl) (fun _ _ _ _ _ e e5 => by simp at e; rw [← e.1] at e5; exact absurd e5 (by decide))
    (fun _ _ hk _ => ⟨rfl, fits_rr (keep_b hk rfl) (keep_scale hk rfl) _ _ _ _ _⟩) rfl rfl rfl

theorem sext (d a b : F6) : Statement (.sext d a b) :=
  ofBase (.rr 0x01 27 b a d) rfl rfl (fun _ _ => rfl) (fun _ _ _ _ _ e e5 => by simp at e; rw [← e.1] at e5; exact absurd e5 (by decide))
    (fun _ _ hk _ => ⟨rfl, fits_rr (keep_b hk rfl) (keep_scale hk rfl) _ _ _ _ _⟩) rfl rfl rfl

theorem zext (d a b : F6) : Statement (.zext d a b) :=
  ofBase (.rr 0x01 28 b a d) rfl rfl (fun _ _ => rfl) (fun _ _ _ _ _ e e5 => by simp at e; rw [← e.1] at e5; exact absurd e5 (by decide))
    (fun _ _ hk _ => ⟨rfl, fits_rr (keep_b hk rfl) (keep_scale hk rfl) _ _ _ _ _⟩) rfl rfl rfl

theorem addi (d a : F6) (imm : BitVec 10) : Statement (.addi d a imm) :=
  ofBase (.ri 0x02 0 imm a d) rfl rfl (fun _ _ => rfl) (fun _ _ _ _ _ e => nomatch e)
    (fun _ _ hk hc => ⟨by injections; subst_vars; rfl, fits_all (keep_b hk rfl) (keep_c hk rfl) (keep_scale hk rfl) _⟩) rfl rfl rfl

theorem andi (d a : F6) (imm : BitVec 10) : Statement (.andi d a imm) :=
  ofBase (.ri 0x02 1 imm a d) rfl rfl (fun _ _ => rfl) (fun _ _ _ _ _ e => nomatch e)
    (fun _ _ hk hc => ⟨by injections; subst_vars; rfl, fits_all (keep_b hk rfl) (keep_c hk rfl) (keep_scale hk rfl) _⟩) rfl rfl rfl

theorem ori (d a : F6) (imm : BitVec 10) : Statement (.ori d a imm) :=
  ofBase (.ri 0x02 2 imm a d) rfl rfl (fun _ _ => rfl) (fun _ _ _ _ _ e => nomatch e)
    (fun _ _ hk hc => ⟨by injections; subst_vars; rfl, fits_all (keep_b hk rfl) (keep_c hk rfl) (keep_scale hk rfl) _⟩) rfl rfl rfl

theorem xori (d a : F6) (imm : BitVec 10) : Statement (.xori d a imm) :=
  ofBase (.ri 0x02 3 imm a d) rfl rfl (fun _ _ => rfl) (fun _ _ _ _ _ e => nomatch e)
    (fun _ _ hk hc => ⟨by injections; subst_vars; rfl, fits_all (keep_b hk rfl) (keep_c hk rfl) (keep_scale hk rfl) _⟩) rfl rfl rfl

theorem slli (d a amt : F6) : Statement (.slli d a amt) :=
  ofBase (.ri 0x03 0 (amt.setWidth 10) a d) rfl rfl (fun _ _ => Eq.trans (b := some (.slli d a ((amt.setWidth 10).extractLsb' 0 6))) rfl (by rw [back6])) (fun _ _ _ _ _ e => nomatch e)
    (fun _ _ hk hc => ⟨by injections; subst_vars; rfl, fits_all (keep_b hk rfl) (keep_c hk rfl) (keep_scale hk rfl) _⟩) rfl rfl rfl

theorem srli (d a amt : F6) : Statement (.srli d a amt) :=
  ofBase (.ri 0x03 1 (amt.setWidth 10) a d) rfl rfl (fun _ _ => Eq.trans (b := some (.srli d a ((amt.setWidth 10).extractLsb' 0 6))) rfl (by rw [back6])) (fun _ _ _ _ _ e => nomatch e)
    (fun _ _ hk hc => ⟨by injections; subst_vars; rfl, fits_all (keep_b hk rfl) (keep_c hk rfl) (keep_scale hk rfl) _⟩) rfl rfl rfl

theorem srai (d a amt : F6) : Statement (.srai d a amt) :=
  ofBase (.ri 0x03 2 (amt.setWidth 10) a d) rfl rfl (fun _ _ => Eq.trans (b := some (.srai d a ((amt.setWidth 10).extractLsb' 0 6))) rfl (by rw [back6])) (fun _ _ _ _ _ e => nomatch e)
    (fun _ _ hk hc => ⟨by injections; subst_vars; rfl, fits_all (keep_b hk rfl) (keep_c hk rfl) (keep_scale hk rfl) _⟩) rfl rfl rfl

theorem roli (d a amt : F6) : Statement (.roli d a amt) :=
  ofBase (.ri 0x03 3 (amt.setWidth 10) a d) rfl rfl (fun _ _ => Eq.trans (b := some (.roli d a ((amt.setWidth 10).extractLsb' 0 6))) rfl (by rw [back6])) (fun _ _ _ _ _ e => nomatch e)
    (fun _ _ hk hc => ⟨by injections; subst_vars; rfl, fits_all (keep_b hk rfl) (keep_c hk rfl) (keep_scale hk rfl) _⟩) rfl rfl rfl

theorem ceq (d : BitVec 3) (a b : F6) : Statement (.ceq d a b) :=
  ofBase (.rr 0x04 0 b a (d.setWidth 6)) rfl rfl (fun _ _ => Eq.trans (b := some (.ceq ((d.setWidth 6).extractLsb' 0 3) a b)) rfl (by simp only [back3])) (fun _ _ _ _ _ e e5 => by simp at e; rw [← e.1] at e5; exact absurd e5 (by decide))
    (fun _ _ hk _ => ⟨rfl, fits_rr (keep_b hk rfl) (keep_scale hk rfl) _ _ _ _ _⟩) rfl rfl rfl

theorem cne (d : BitVec 3) (a b : F6) : Statement (.cne d a b) :=
  ofBase (.rr 0x04 1 b a (d.setWidth 6)) rfl rfl (fun _ _ => Eq.trans (b := some (.cne ((d.setWidth 6).extractLsb' 0 3) a b)) rfl (by simp only [back3])) (fun _ _ _ _ _ e e5 => by simp at e; rw [← e.1] at e5; exact absurd e5 (by decide))
    (fun _ _ hk _ => ⟨rfl, fits_rr (keep_b hk rfl) (keep_scale hk rfl) _ _ _ _ _⟩) rfl rfl rfl

theorem clt (d : BitVec 3) (a b : F6) : Statement (.clt d a b) :=
  ofBase (.rr 0x04 2 b a (d.setWidth 6)) rfl rfl (fun _ _ => Eq.trans (b := some (.clt ((d.setWidth 6).extractLsb' 0 3) a b)) rfl (by simp only [back3])) (fun _ _ _ _ _ e e5 => by simp at e; rw [← e.1] at e5; exact absurd e5 (by decide))
    (fun _ _ hk _ => ⟨rfl, fits_rr (keep_b hk rfl) (keep_scale hk rfl) _ _ _ _ _⟩) rfl rfl rfl

theorem cge (d : BitVec 3) (a b : F6) : Statement (.cge d a b) :=
  ofBase (.rr 0x04 3 b a (d.setWidth 6)) rfl rfl (fun _ _ => Eq.trans (b := some (.cge ((d.setWidth 6).extractLsb' 0 3) a b)) rfl (by simp only [back3])) (fun _ _ _ _ _ e e5 => by simp at e; rw [← e.1] at e5; exact absurd e5 (by decide))
    (fun _ _ hk _ => ⟨rfl, fits_rr (keep_b hk rfl) (keep_scale hk rfl) _ _ _ _ _⟩) rfl rfl rfl

theorem cltu (d : BitVec 3) (a b : F6) : Statement (.cltu d a b) :=
  ofBase (.rr 0x04 4 b a (d.setWidth 6)) rfl rfl (fun _ _ => Eq.trans (b := some (.cltu ((d.setWidth 6).extractLsb' 0 3) a b)) rfl (by simp only [back3])) (fun _ _ _ _ _ e e5 => by simp at e; rw [← e.1] at e5; exact absurd e5 (by decide))
    (fun _ _ hk _ => ⟨rfl, fits_rr (keep_b hk rfl) (keep_scale hk rfl) _ _ _ _ _⟩) rfl rfl rfl

theorem cgeu (d : BitVec 3) (a b : F6) : Statement (.cgeu d a b) :=
  ofBase (.rr 0x04 5 b a (d.setWidth 6)) rfl rfl (fun _ _ => Eq.trans (b := some (.cgeu ((d.setWidth 6).extractLsb' 0 3) a b)) rfl (by simp only [back3])) (fun _ _ _ _ _ e e5 => by simp at e; rw [← e.1] at e5; exact absurd e5 (by decide))
    (fun _ _ hk _ => ⟨rfl, fits_rr (keep_b hk rfl) (keep_scale hk rfl) _ _ _ _ _⟩) rfl rfl rfl

theorem ctst (d : BitVec 3) (a b : F6) : Statement (.ctst d a b) :=
  ofBase (.rr 0x04 6 b a (d.setWidth 6)) rfl rfl (fun _ _ => Eq.trans (b := some (.ctst ((d.setWidth 6).extractLsb' 0 3) a b)) rfl (by simp only [back3])) (fun _ _ _ _ _ e e5 => by simp at e; rw [← e.1] at e5; exact absurd e5 (by decide))
    (fun _ _ hk _ => ⟨rfl, fits_rr (keep_b hk rfl) (keep_scale hk rfl) _ _ _ _ _⟩) rfl rfl rfl

theorem bfx (d a : F6) (pos len : BitVec 5) : Statement (.bfx d a pos len) :=
  ofBase (.ri 0x05 0 (len ++ pos) a d) rfl rfl (fun _ _ => Eq.trans (b := some (.bfx d a ((len ++ pos).extractLsb' 0 5) ((len ++ pos).extractLsb' 5 5))) rfl (by rw [backLow, backHigh])) (fun _ _ _ _ _ e => nomatch e)
    (fun _ _ hk hc => ⟨by injections; subst_vars; rfl, fits_all (keep_b hk rfl) (keep_c hk rfl) (keep_scale hk rfl) _⟩) rfl rfl rfl

theorem bfxs (d a : F6) (pos len : BitVec 5) : Statement (.bfxs d a pos len) :=
  ofBase (.ri 0x05 1 (len ++ pos) a d) rfl rfl (fun _ _ => Eq.trans (b := some (.bfxs d a ((len ++ pos).extractLsb' 0 5) ((len ++ pos).extractLsb' 5 5))) rfl (by rw [backLow, backHigh])) (fun _ _ _ _ _ e => nomatch e)
    (fun _ _ hk hc => ⟨by injections; subst_vars; rfl, fits_all (keep_b hk rfl) (keep_c hk rfl) (keep_scale hk rfl) _⟩) rfl rfl rfl

theorem bfi (d a : F6) (pos len : BitVec 5) : Statement (.bfi d a pos len) :=
  ofBase (.ri 0x05 2 (len ++ pos) a d) rfl rfl (fun _ _ => Eq.trans (b := some (.bfi d a ((len ++ pos).extractLsb' 0 5) ((len ++ pos).extractLsb' 5 5))) rfl (by rw [backLow, backHigh])) (fun _ _ _ _ _ e => nomatch e)
    (fun _ _ hk hc => ⟨by injections; subst_vars; rfl, fits_all (keep_b hk rfl) (keep_c hk rfl) (keep_scale hk rfl) _⟩) rfl rfl rfl

theorem bfclr (d a : F6) (pos len : BitVec 5) : Statement (.bfclr d a pos len) :=
  ofBase (.ri 0x05 3 (len ++ pos) a d) rfl rfl (fun _ _ => Eq.trans (b := some (.bfclr d a ((len ++ pos).extractLsb' 0 5) ((len ++ pos).extractLsb' 5 5))) rfl (by rw [backLow, backHigh])) (fun _ _ _ _ _ e => nomatch e)
    (fun _ _ hk hc => ⟨by injections; subst_vars; rfl, fits_all (keep_b hk rfl) (keep_c hk rfl) (keep_scale hk rfl) _⟩) rfl rfl rfl

theorem mov (d a : F6) : Statement (.mov d a) :=
  ofBase (.rr 0x06 0 0 a d) rfl rfl (fun _ _ => rfl) (fun _ _ _ _ _ e e5 => by simp at e; rw [← e.1] at e5; exact absurd e5 (by decide))
    (fun _ _ hk _ => ⟨rfl, fits_rr (keep_b hk rfl) (keep_scale hk rfl) _ _ _ _ _⟩) rfl rfl rfl

theorem sel (k : BitVec 3) (d a b : F6) : Statement (.sel k d a b) :=
  ofBase (.rr 0x06 ((1 : BitVec 3) ++ k) b a d) rfl rfl (fun _ _ => all3 (P := fun k => ofFmt (.rr 0x06 ((1 : BitVec 3) ++ k) b a d) = some (.sel k d a b)) rfl rfl rfl rfl rfl rfl rfl rfl k) (fun _ _ _ _ _ e e5 => by simp at e; rw [← e.1] at e5; exact absurd e5 (by decide))
    (fun _ _ hk _ => ⟨rfl, fits_rr (keep_b hk rfl) (keep_scale hk rfl) _ _ _ _ _⟩) rfl rfl rfl

theorem kand (d a b : BitVec 3) : Statement (.kand d a b) :=
  ofBase (.rr 0x06 16 (b.setWidth 6) (a.setWidth 6) (d.setWidth 6)) rfl rfl (fun _ _ => Eq.trans (b := some (.kand ((d.setWidth 6).extractLsb' 0 3) ((a.setWidth 6).extractLsb' 0 3) ((b.setWidth 6).extractLsb' 0 3))) rfl (by simp only [back3])) (fun _ _ _ _ _ e e5 => by simp at e; rw [← e.1] at e5; exact absurd e5 (by decide))
    (fun _ _ hk _ => ⟨rfl, fits_rr (keep_b hk rfl) (keep_scale hk rfl) _ _ _ _ _⟩) rfl rfl rfl

theorem kor (d a b : BitVec 3) : Statement (.kor d a b) :=
  ofBase (.rr 0x06 17 (b.setWidth 6) (a.setWidth 6) (d.setWidth 6)) rfl rfl (fun _ _ => Eq.trans (b := some (.kor ((d.setWidth 6).extractLsb' 0 3) ((a.setWidth 6).extractLsb' 0 3) ((b.setWidth 6).extractLsb' 0 3))) rfl (by simp only [back3])) (fun _ _ _ _ _ e e5 => by simp at e; rw [← e.1] at e5; exact absurd e5 (by decide))
    (fun _ _ hk _ => ⟨rfl, fits_rr (keep_b hk rfl) (keep_scale hk rfl) _ _ _ _ _⟩) rfl rfl rfl

theorem kxor (d a b : BitVec 3) : Statement (.kxor d a b) :=
  ofBase (.rr 0x06 18 (b.setWidth 6) (a.setWidth 6) (d.setWidth 6)) rfl rfl (fun _ _ => Eq.trans (b := some (.kxor ((d.setWidth 6).extractLsb' 0 3) ((a.setWidth 6).extractLsb' 0 3) ((b.setWidth 6).extractLsb' 0 3))) rfl (by simp only [back3])) (fun _ _ _ _ _ e e5 => by simp at e; rw [← e.1] at e5; exact absurd e5 (by decide))
    (fun _ _ hk _ => ⟨rfl, fits_rr (keep_b hk rfl) (keep_scale hk rfl) _ _ _ _ _⟩) rfl rfl rfl

theorem knot (d a : BitVec 3) : Statement (.knot d a) :=
  ofBase (.rr 0x06 19 0 (a.setWidth 6) (d.setWidth 6)) rfl rfl (fun _ _ => Eq.trans (b := some (.knot ((d.setWidth 6).extractLsb' 0 3) ((a.setWidth 6).extractLsb' 0 3))) rfl (by simp only [back3])) (fun _ _ _ _ _ e e5 => by simp at e; rw [← e.1] at e5; exact absurd e5 (by decide))
    (fun _ _ hk _ => ⟨rfl, fits_rr (keep_b hk rfl) (keep_scale hk rfl) _ _ _ _ _⟩) rfl rfl rfl

theorem kmovc (d : BitVec 3) (a : F6) : Statement (.kmovc d a) :=
  ofBase (.rr 0x06 20 0 a (d.setWidth 6)) rfl rfl (fun _ _ => Eq.trans (b := some (.kmovc ((d.setWidth 6).extractLsb' 0 3) a)) rfl (by simp only [back3])) (fun _ _ _ _ _ e e5 => by simp at e; rw [← e.1] at e5; exact absurd e5 (by decide))
    (fun _ _ hk _ => ⟨rfl, fits_rr (keep_b hk rfl) (keep_scale hk rfl) _ _ _ _ _⟩) rfl rfl rfl

theorem kmovk (d : F6) (a : BitVec 3) : Statement (.kmovk d a) :=
  ofBase (.rr 0x06 21 0 (a.setWidth 6) d) rfl rfl (fun _ _ => Eq.trans (b := some (.kmovk d ((a.setWidth 6).extractLsb' 0 3))) rfl (by simp only [back3])) (fun _ _ _ _ _ e e5 => by simp at e; rw [← e.1] at e5; exact absurd e5 (by decide))
    (fun _ _ hk _ => ⟨rfl, fits_rr (keep_b hk rfl) (keep_scale hk rfl) _ _ _ _ _⟩) rfl rfl rfl

theorem kpop (d : F6) (a : BitVec 3) : Statement (.kpop d a) :=
  ofBase (.rr 0x06 22 0 (a.setWidth 6) d) rfl rfl (fun _ _ => Eq.trans (b := some (.kpop d ((a.setWidth 6).extractLsb' 0 3))) rfl (by simp only [back3])) (fun _ _ _ _ _ e e5 => by simp at e; rw [← e.1] at e5; exact absurd e5 (by decide))
    (fun _ _ hk _ => ⟨rfl, fits_rr (keep_b hk rfl) (keep_scale hk rfl) _ _ _ _ _⟩) rfl rfl rfl

theorem kfirst (d : F6) (a : BitVec 3) : Statement (.kfirst d a) :=
  ofBase (.rr 0x06 23 0 (a.setWidth 6) d) rfl rfl (fun _ _ => Eq.trans (b := some (.kfirst d ((a.setWidth 6).extractLsb' 0 3))) rfl (by simp only [back3])) (fun _ _ _ _ _ e e5 => by simp at e; rw [← e.1] at e5; exact absurd e5 (by decide))
    (fun _ _ hk _ => ⟨rfl, fits_rr (keep_b hk rfl) (keep_scale hk rfl) _ _ _ _ _⟩) rfl rfl rfl

theorem cbnd (d a b : F6) : Statement (.cbnd d a b) :=
  ofBase (.rr 0x07 0 b a d) rfl rfl (fun _ _ => rfl) (fun _ _ _ _ _ e e5 => by simp at e; rw [← e.1] at e5; exact absurd e5 (by decide))
    (fun _ _ hk _ => ⟨rfl, fits_rr (keep_b hk rfl) (keep_scale hk rfl) _ _ _ _ _⟩) rfl rfl rfl

theorem cbndx (d a b : F6) : Statement (.cbndx d a b) :=
  ofBase (.rr 0x07 1 b a d) rfl rfl (fun _ _ => rfl) (fun _ _ _ _ _ e e5 => by simp at e; rw [← e.1] at e5; exact absurd e5 (by decide))
    (fun _ _ hk _ => ⟨rfl, fits_rr (keep_b hk rfl) (keep_scale hk rfl) _ _ _ _ _⟩) rfl rfl rfl

theorem cprm (d a b : F6) : Statement (.cprm d a b) :=
  ofBase (.rr 0x07 2 b a d) rfl rfl (fun _ _ => rfl) (fun _ _ _ _ _ e e5 => by simp at e; rw [← e.1] at e5; exact absurd e5 (by decide))
    (fun _ _ hk _ => ⟨rfl, fits_rr (keep_b hk rfl) (keep_scale hk rfl) _ _ _ _ _⟩) rfl rfl rfl

theorem cadd (d a b : F6) : Statement (.cadd d a b) :=
  ofBase (.rr 0x07 3 b a d) rfl rfl (fun _ _ => rfl) (fun _ _ _ _ _ e e5 => by simp at e; rw [← e.1] at e5; exact absurd e5 (by decide))
    (fun _ _ hk _ => ⟨rfl, fits_rr (keep_b hk rfl) (keep_scale hk rfl) _ _ _ _ _⟩) rfl rfl rfl

theorem cset (d a b : F6) : Statement (.cset d a b) :=
  ofBase (.rr 0x07 4 b a d) rfl rfl (fun _ _ => rfl) (fun _ _ _ _ _ e e5 => by simp at e; rw [← e.1] at e5; exact absurd e5 (by decide))
    (fun _ _ hk _ => ⟨rfl, fits_rr (keep_b hk rfl) (keep_scale hk rfl) _ _ _ _ _⟩) rfl rfl rfl

theorem cbase (d a : F6) : Statement (.cbase d a) :=
  ofBase (.rr 0x07 5 0 a d) rfl rfl (fun _ _ => rfl) (fun _ _ _ _ _ e e5 => by simp at e; rw [← e.1] at e5; exact absurd e5 (by decide))
    (fun _ _ hk _ => ⟨rfl, fits_rr (keep_b hk rfl) (keep_scale hk rfl) _ _ _ _ _⟩) rfl rfl rfl

theorem clen (d a : F6) : Statement (.clen d a) :=
  ofBase (.rr 0x07 6 0 a d) rfl rfl (fun _ _ => rfl) (fun _ _ _ _ _ e e5 => by simp at e; rw [← e.1] at e5; exact absurd e5 (by decide))
    (fun _ _ hk _ => ⟨rfl, fits_rr (keep_b hk rfl) (keep_scale hk rfl) _ _ _ _ _⟩) rfl rfl rfl

theorem cperm (d a : F6) : Statement (.cperm d a) :=
  ofBase (.rr 0x07 7 0 a d) rfl rfl (fun _ _ => rfl) (fun _ _ _ _ _ e e5 => by simp at e; rw [← e.1] at e5; exact absurd e5 (by decide))
    (fun _ _ hk _ => ⟨rfl, fits_rr (keep_b hk rfl) (keep_scale hk rfl) _ _ _ _ _⟩) rfl rfl rfl

theorem ctype (d a : F6) : Statement (.ctype d a) :=
  ofBase (.rr 0x07 8 0 a d) rfl rfl (fun _ _ => rfl) (fun _ _ _ _ _ e e5 => by simp at e; rw [← e.1] at e5; exact absurd e5 (by decide))
    (fun _ _ hk _ => ⟨rfl, fits_rr (keep_b hk rfl) (keep_scale hk rfl) _ _ _ _ _⟩) rfl rfl rfl

theorem ctag (d a : F6) : Statement (.ctag d a) :=
  ofBase (.rr 0x07 9 0 a d) rfl rfl (fun _ _ => rfl) (fun _ _ _ _ _ e e5 => by simp at e; rw [← e.1] at e5; exact absurd e5 (by decide))
    (fun _ _ hk _ => ⟨rfl, fits_rr (keep_b hk rfl) (keep_scale hk rfl) _ _ _ _ _⟩) rfl rfl rfl

theorem cclr (d a : F6) : Statement (.cclr d a) :=
  ofBase (.rr 0x07 10 0 a d) rfl rfl (fun _ _ => rfl) (fun _ _ _ _ _ e e5 => by simp at e; rw [← e.1] at e5; exact absurd e5 (by decide))
    (fun _ _ hk _ => ⟨rfl, fits_rr (keep_b hk rfl) (keep_scale hk rfl) _ _ _ _ _⟩) rfl rfl rfl

theorem cseal (d a : F6) : Statement (.cseal d a) :=
  ofBase (.rr 0x07 11 0 a d) rfl rfl (fun _ _ => rfl) (fun _ _ _ _ _ e e5 => by simp at e; rw [← e.1] at e5; exact absurd e5 (by decide))
    (fun _ _ hk _ => ⟨rfl, fits_rr (keep_b hk rfl) (keep_scale hk rfl) _ _ _ _ _⟩) rfl rfl rfl

theorem capCeq (d a b : F6) : Statement (.capCeq d a b) :=
  ofBase (.rr 0x07 12 b a d) rfl rfl (fun _ _ => rfl) (fun _ _ _ _ _ e e5 => by simp at e; rw [← e.1] at e5; exact absurd e5 (by decide))
    (fun _ _ hk _ => ⟨rfl, fits_rr (keep_b hk rfl) (keep_scale hk rfl) _ _ _ _ _⟩) rfl rfl rfl

theorem csub (d a b : F6) : Statement (.csub d a b) :=
  ofBase (.rr 0x07 13 b a d) rfl rfl (fun _ _ => rfl) (fun _ _ _ _ _ e e5 => by simp at e; rw [← e.1] at e5; exact absurd e5 (by decide))
    (fun _ _ hk _ => ⟨rfl, fits_rr (keep_b hk rfl) (keep_scale hk rfl) _ _ _ _ _⟩) rfl rfl rfl

theorem mvi (d : F6) (imm : BitVec 18) : Statement (.mvi d imm) :=
  ofBase (.mv 0x08 imm d) rfl rfl (fun _ _ => rfl) (fun _ _ _ _ _ e => nomatch e)
    (fun _ _ hk hc => ⟨by injections; subst_vars; rfl, fits_all (keep_b hk rfl) (keep_c hk rfl) (keep_scale hk rfl) _⟩) rfl rfl rfl

theorem adr (d : F6) (imm : BitVec 18) : Statement (.adr d imm) :=
  ofBase (.mv 0x09 imm d) rfl rfl (fun _ _ => rfl) (fun _ _ _ _ _ e => nomatch e)
    (fun _ _ hk hc => ⟨by injections; subst_vars; rfl, fits_all (keep_b hk rfl) (keep_c hk rfl) (keep_scale hk rfl) _⟩) rfl rfl rfl

theorem ld (d a : F6) (sz : BitVec 3) (am : BitVec 2) (ea : BitVec 7) : Statement (.ld d a sz am ea) :=
  ofBase (.mem 0x10 ea am sz a d) rfl rfl (fun _ _ => rfl) (fun _ _ _ _ _ e => nomatch e)
    (fun _ _ _ hc => ⟨by injections; subst_vars; rfl, rfl⟩) rfl rfl rfl

theorem lds (d a : F6) (sz : BitVec 3) (am : BitVec 2) (ea : BitVec 7) : Statement (.lds d a sz am ea) :=
  ofBase (.mem 0x11 ea am sz a d) rfl rfl (fun _ _ => rfl) (fun _ _ _ _ _ e => nomatch e)
    (fun _ _ _ hc => ⟨by injections; subst_vars; rfl, rfl⟩) rfl rfl rfl

theorem st (d a : F6) (sz : BitVec 3) (am : BitVec 2) (ea : BitVec 7) : Statement (.st d a sz am ea) :=
  ofBase (.mem 0x12 ea am sz a d) rfl rfl (fun _ _ => rfl) (fun _ _ _ _ _ e => nomatch e)
    (fun _ _ _ hc => ⟨by injections; subst_vars; rfl, rfl⟩) rfl rfl rfl

theorem ldfeAny (d a : F6) (am : BitVec 2) (ea : BitVec 7) : Statement (.ldfeAny d a am ea) :=
  ofBase (.mem 0x13 ea am 0 a d) rfl rfl (fun _ _ => rfl) (fun _ _ _ _ _ e => nomatch e)
    (fun _ _ _ hc => ⟨by injections; subst_vars; rfl, rfl⟩) rfl rfl rfl

theorem ldfeWf (d a : F6) (am : BitVec 2) (ea : BitVec 7) : Statement (.ldfeWf d a am ea) :=
  ofBase (.mem 0x13 ea am 1 a d) rfl rfl (fun _ _ => rfl) (fun _ _ _ _ _ e => nomatch e)
    (fun _ _ _ hc => ⟨by injections; subst_vars; rfl, rfl⟩) rfl rfl rfl

theorem ldfeWfe (d a : F6) (am : BitVec 2) (ea : BitVec 7) : Statement (.ldfeWfe d a am ea) :=
  ofBase (.mem 0x13 ea am 2 a d) rfl rfl (fun _ _ => rfl) (fun _ _ _ _ _ e => nomatch e)
    (fun _ _ _ hc => ⟨by injections; subst_vars; rfl, rfl⟩) rfl rfl rfl

theorem ldfeSt (d a : F6) (am : BitVec 2) (ea : BitVec 7) : Statement (.ldfeSt d a am ea) :=
  ofBase (.mem 0x13 ea am 3 a d) rfl rfl (fun _ _ => rfl) (fun _ _ _ _ _ e => nomatch e)
    (fun _ _ _ hc => ⟨by injections; subst_vars; rfl, rfl⟩) rfl rfl rfl

theorem stfeSf (d a : F6) (am : BitVec 2) (ea : BitVec 7) : Statement (.stfeSf d a am ea) :=
  ofBase (.mem 0x14 ea am 0 a d) rfl rfl (fun _ _ => rfl) (fun _ _ _ _ _ e => nomatch e)
    (fun _ _ _ hc => ⟨by injections; subst_vars; rfl, rfl⟩) rfl rfl rfl

theorem stfeWef (d a : F6) (am : BitVec 2) (ea : BitVec 7) : Statement (.stfeWef d a am ea) :=
  ofBase (.mem 0x14 ea am 1 a d) rfl rfl (fun _ _ => rfl) (fun _ _ _ _ _ e => nomatch e)
    (fun _ _ _ hc => ⟨by injections; subst_vars; rfl, rfl⟩) rfl rfl rfl

theorem stfeSe (a : F6) (am : BitVec 2) (ea : BitVec 7) : Statement (.stfeSe a am ea) :=
  ofBase (.mem 0x14 ea am 2 a 0) rfl rfl (fun _ _ => rfl) (fun _ _ _ _ _ e => nomatch e)
    (fun _ _ _ hc => ⟨by injections; subst_vars; rfl, rfl⟩) rfl rfl rfl

theorem stfeKeep (d a : F6) (am : BitVec 2) (ea : BitVec 7) : Statement (.stfeKeep d a am ea) :=
  ofBase (.mem 0x14 ea am 3 a d) rfl rfl (fun _ _ => rfl) (fun _ _ _ _ _ e => nomatch e)
    (fun _ _ _ hc => ⟨by injections; subst_vars; rfl, rfl⟩) rfl rfl rfl

theorem amoAdd (d a b : F6) (sc : BitVec 3) : Statement (.amoAdd d a b sc) :=
  ofBase (.rr 0x15 (sc ++ (0 : BitVec 3)) b a d) rfl rfl (fun _ _ => all3 (P := fun sc => ofFmt (.rr 0x15 (sc ++ (0 : BitVec 3)) b a d) = some (.amoAdd d a b sc)) rfl rfl rfl rfl rfl rfl rfl rfl sc) (fun _ _ _ _ _ e _ _ x hc => by
    simp only [canonInner, Instr.amoAdd.injEq, true_and] at hc
    simp only [BaseFmt.rr.injEq] at e
    rw [← e.2.1, ← hc]
    decide)
    (fun _ _ hk _ => ⟨rfl, fits_rr (keep_b hk rfl) (keep_scale hk rfl) _ _ _ _ _⟩) rfl rfl rfl

theorem amoAnd (d a b : F6) (sc : BitVec 3) : Statement (.amoAnd d a b sc) :=
  ofBase (.rr 0x15 (sc ++ (1 : BitVec 3)) b a d) rfl rfl (fun _ _ => all3 (P := fun sc => ofFmt (.rr 0x15 (sc ++ (1 : BitVec 3)) b a d) = some (.amoAnd d a b sc)) rfl rfl rfl rfl rfl rfl rfl rfl sc) (fun _ _ _ _ _ e _ _ x hc => by
    simp only [canonInner, Instr.amoAnd.injEq, true_and] at hc
    simp only [BaseFmt.rr.injEq] at e
    rw [← e.2.1, ← hc]
    decide)
    (fun _ _ hk _ => ⟨rfl, fits_rr (keep_b hk rfl) (keep_scale hk rfl) _ _ _ _ _⟩) rfl rfl rfl

theorem amoOr (d a b : F6) (sc : BitVec 3) : Statement (.amoOr d a b sc) :=
  ofBase (.rr 0x15 (sc ++ (2 : BitVec 3)) b a d) rfl rfl (fun _ _ => all3 (P := fun sc => ofFmt (.rr 0x15 (sc ++ (2 : BitVec 3)) b a d) = some (.amoOr d a b sc)) rfl rfl rfl rfl rfl rfl rfl rfl sc) (fun _ _ _ _ _ e _ _ x hc => by
    simp only [canonInner, Instr.amoOr.injEq, true_and] at hc
    simp only [BaseFmt.rr.injEq] at e
    rw [← e.2.1, ← hc]
    decide)
    (fun _ _ hk _ => ⟨rfl, fits_rr (keep_b hk rfl) (keep_scale hk rfl) _ _ _ _ _⟩) rfl rfl rfl

theorem amoXor (d a b : F6) (sc : BitVec 3) : Statement (.amoXor d a b sc) :=
  ofBase (.rr 0x15 (sc ++ (3 : BitVec 3)) b a d) rfl rfl (fun _ _ => all3 (P := fun sc => ofFmt (.rr 0x15 (sc ++ (3 : BitVec 3)) b a d) = some (.amoXor d a b sc)) rfl rfl rfl rfl rfl rfl rfl rfl sc) (fun _ _ _ _ _ e _ _ x hc => by
    simp only [canonInner, Instr.amoXor.injEq, true_and] at hc
    simp only [BaseFmt.rr.injEq] at e
    rw [← e.2.1, ← hc]
    decide)
    (fun _ _ hk _ => ⟨rfl, fits_rr (keep_b hk rfl) (keep_scale hk rfl) _ _ _ _ _⟩) rfl rfl rfl

theorem amoMin (d a b : F6) (sc : BitVec 3) : Statement (.amoMin d a b sc) :=
  ofBase (.rr 0x15 (sc ++ (4 : BitVec 3)) b a d) rfl rfl (fun _ _ => all3 (P := fun sc => ofFmt (.rr 0x15 (sc ++ (4 : BitVec 3)) b a d) = some (.amoMin d a b sc)) rfl rfl rfl rfl rfl rfl rfl rfl sc) (fun _ _ _ _ _ e _ _ x hc => by
    simp only [canonInner, Instr.amoMin.injEq, true_and] at hc
    simp only [BaseFmt.rr.injEq] at e
    rw [← e.2.1, ← hc]
    decide)
    (fun _ _ hk _ => ⟨rfl, fits_rr (keep_b hk rfl) (keep_scale hk rfl) _ _ _ _ _⟩) rfl rfl rfl

theorem amoMax (d a b : F6) (sc : BitVec 3) : Statement (.amoMax d a b sc) :=
  ofBase (.rr 0x15 (sc ++ (5 : BitVec 3)) b a d) rfl rfl (fun _ _ => all3 (P := fun sc => ofFmt (.rr 0x15 (sc ++ (5 : BitVec 3)) b a d) = some (.amoMax d a b sc)) rfl rfl rfl rfl rfl rfl rfl rfl sc) (fun _ _ _ _ _ e _ _ x hc => by
    simp only [canonInner, Instr.amoMax.injEq, true_and] at hc
    simp only [BaseFmt.rr.injEq] at e
    rw [← e.2.1, ← hc]
    decide)
    (fun _ _ hk _ => ⟨rfl, fits_rr (keep_b hk rfl) (keep_scale hk rfl) _ _ _ _ _⟩) rfl rfl rfl

theorem amoMinu (d a b : F6) (sc : BitVec 3) : Statement (.amoMinu d a b sc) :=
  ofBase (.rr 0x15 (sc ++ (6 : BitVec 3)) b a d) rfl rfl (fun _ _ => all3 (P := fun sc => ofFmt (.rr 0x15 (sc ++ (6 : BitVec 3)) b a d) = some (.amoMinu d a b sc)) rfl rfl rfl rfl rfl rfl rfl rfl sc) (fun _ _ _ _ _ e _ _ x hc => by
    simp only [canonInner, Instr.amoMinu.injEq, true_and] at hc
    simp only [BaseFmt.rr.injEq] at e
    rw [← e.2.1, ← hc]
    decide)
    (fun _ _ hk _ => ⟨rfl, fits_rr (keep_b hk rfl) (keep_scale hk rfl) _ _ _ _ _⟩) rfl rfl rfl

theorem amoSwap (d a b : F6) (sc : BitVec 3) : Statement (.amoSwap d a b sc) :=
  ofBase (.rr 0x15 (sc ++ (7 : BitVec 3)) b a d) rfl rfl (fun _ _ => all3 (P := fun sc => ofFmt (.rr 0x15 (sc ++ (7 : BitVec 3)) b a d) = some (.amoSwap d a b sc)) rfl rfl rfl rfl rfl rfl rfl rfl sc) (fun _ _ _ _ _ e _ _ x hc => by
    simp only [canonInner, Instr.amoSwap.injEq, true_and] at hc
    simp only [BaseFmt.rr.injEq] at e
    rw [← e.2.1, ← hc]
    decide)
    (fun _ _ hk _ => ⟨rfl, fits_rr (keep_b hk rfl) (keep_scale hk rfl) _ _ _ _ _⟩) rfl rfl rfl

theorem fence (sc : BitVec 3) (ord : BitVec 2) (eng : Bool) : Statement (.fence sc ord eng) :=
  ofBase (.rr 0x16 (BitVec.ofBool eng ++ ord ++ sc) 0 0 0) rfl rfl (fun w hl => by
    have h0 : ord ≠ 0 := by
      rintro rfl
      cases w <;> simp [baseIllegal, Instr.vt, cvtIllegal] at hl
    have h1 : ord = 1 ∨ ord = 2 ∨ ord = 3 := by
      clear hl
      revert ord
      decide
    rcases h1 with rfl | rfl | rfl <;> cases eng <;>
      exact all3 (P := fun sc => ofFmt (.rr 0x16 (BitVec.ofBool _ ++ _ ++ sc) 0 0 0) = some (.fence sc _ _)) rfl rfl rfl rfl rfl rfl rfl rfl sc) (fun _ _ _ _ _ e e5 => by simp at e; rw [← e.1] at e5; exact absurd e5 (by decide))
    (fun _ _ hk _ => ⟨rfl, fits_rr (keep_b hk rfl) (keep_scale hk rfl) _ _ _ _ _⟩) rfl rfl rfl

theorem cwb (a b : F6) : Statement (.cwb a b) :=
  ofBase (.rr 0x17 0 b a 0) rfl rfl (fun _ _ => rfl) (fun _ _ _ _ _ e e5 => by simp at e; rw [← e.1] at e5; exact absurd e5 (by decide))
    (fun _ _ hk _ => ⟨rfl, fits_rr (keep_b hk rfl) (keep_scale hk rfl) _ _ _ _ _⟩) rfl rfl rfl

theorem cinv (a b : F6) : Statement (.cinv a b) :=
  ofBase (.rr 0x17 1 b a 0) rfl rfl (fun _ _ => rfl) (fun _ _ _ _ _ e e5 => by simp at e; rw [← e.1] at e5; exact absurd e5 (by decide))
    (fun _ _ hk _ => ⟨rfl, fits_rr (keep_b hk rfl) (keep_scale hk rfl) _ _ _ _ _⟩) rfl rfl rfl

theorem cwbinv (a b : F6) : Statement (.cwbinv a b) :=
  ofBase (.rr 0x17 2 b a 0) rfl rfl (fun _ _ => rfl) (fun _ _ _ _ _ e e5 => by simp at e; rw [← e.1] at e5; exact absurd e5 (by decide))
    (fun _ _ hk _ => ⟨rfl, fits_rr (keep_b hk rfl) (keep_scale hk rfl) _ _ _ _ _⟩) rfl rfl rfl

theorem cpre (a b : F6) : Statement (.cpre a b) :=
  ofBase (.rr 0x17 3 b a 0) rfl rfl (fun _ _ => rfl) (fun _ _ _ _ _ e e5 => by simp at e; rw [← e.1] at e5; exact absurd e5 (by decide))
    (fun _ _ hk _ => ⟨rfl, fits_rr (keep_b hk rfl) (keep_scale hk rfl) _ _ _ _ _⟩) rfl rfl rfl

theorem bk (k : BitVec 3) (pol : Bool) (off : BitVec 18) : Statement (.bk k pol off) :=
  ofBase (.bk off 0 pol k) rfl rfl (fun _ _ => rfl) (fun _ _ _ _ _ e => nomatch e)
    (fun _ _ hk hc => ⟨by injections; subst_vars; rfl, fits_all (keep_b hk rfl) (keep_c hk rfl) (keep_scale hk rfl) _⟩) rfl rfl rfl

theorem bra (off : BitVec 18) : Statement (.bra off) :=
  ofBase (.bk off 1 false 0) rfl rfl (fun _ _ => rfl) (fun _ _ _ _ _ e => nomatch e)
    (fun _ _ hk hc => ⟨by injections; subst_vars; rfl, fits_all (keep_b hk rfl) (keep_c hk rfl) (keep_scale hk rfl) _⟩) rfl rfl rfl

theorem bz (r : F6) (off : BitVec 15) : Statement (.bz r off) :=
  ofBase (.bc off 0 r) rfl rfl (fun _ _ => rfl) (fun _ _ _ _ _ e => nomatch e)
    (fun _ _ hk hc => ⟨by injections; subst_vars; rfl, fits_all (keep_b hk rfl) (keep_c hk rfl) (keep_scale hk rfl) _⟩) rfl rfl rfl

theorem bnz (r : F6) (off : BitVec 15) : Statement (.bnz r off) :=
  ofBase (.bc off 1 r) rfl rfl (fun _ _ => rfl) (fun _ _ _ _ _ e => nomatch e)
    (fun _ _ hk hc => ⟨by injections; subst_vars; rfl, fits_all (keep_b hk rfl) (keep_c hk rfl) (keep_scale hk rfl) _⟩) rfl rfl rfl

theorem bltz (r : F6) (off : BitVec 15) : Statement (.bltz r off) :=
  ofBase (.bc off 2 r) rfl rfl (fun _ _ => rfl) (fun _ _ _ _ _ e => nomatch e)
    (fun _ _ hk hc => ⟨by injections; subst_vars; rfl, fits_all (keep_b hk rfl) (keep_c hk rfl) (keep_scale hk rfl) _⟩) rfl rfl rfl

theorem bgez (r : F6) (off : BitVec 15) : Statement (.bgez r off) :=
  ofBase (.bc off 3 r) rfl rfl (fun _ _ => rfl) (fun _ _ _ _ _ e => nomatch e)
    (fun _ _ hk hc => ⟨by injections; subst_vars; rfl, fits_all (keep_b hk rfl) (keep_c hk rfl) (keep_scale hk rfl) _⟩) rfl rfl rfl

theorem blez (r : F6) (off : BitVec 15) : Statement (.blez r off) :=
  ofBase (.bc off 4 r) rfl rfl (fun _ _ => rfl) (fun _ _ _ _ _ e => nomatch e)
    (fun _ _ hk hc => ⟨by injections; subst_vars; rfl, fits_all (keep_b hk rfl) (keep_c hk rfl) (keep_scale hk rfl) _⟩) rfl rfl rfl

theorem bgtz (r : F6) (off : BitVec 15) : Statement (.bgtz r off) :=
  ofBase (.bc off 5 r) rfl rfl (fun _ _ => rfl) (fun _ _ _ _ _ e => nomatch e)
    (fun _ _ hk hc => ⟨by injections; subst_vars; rfl, fits_all (keep_b hk rfl) (keep_c hk rfl) (keep_scale hk rfl) _⟩) rfl rfl rfl

theorem jmp (off : BitVec 24) : Statement (.jmp off) :=
  ofBase (.j 0x1A off) rfl rfl (fun _ _ => rfl) (fun _ _ _ _ _ e => nomatch e)
    (fun _ _ hk hc => ⟨by injections; subst_vars; rfl, fits_all (keep_b hk rfl) (keep_c hk rfl) (keep_scale hk rfl) _⟩) rfl rfl rfl

theorem call (off : BitVec 24) : Statement (.call off) :=
  ofBase (.j 0x1B off) rfl rfl (fun _ _ => rfl) (fun _ _ _ _ _ e => nomatch e)
    (fun _ _ hk hc => ⟨by injections; subst_vars; rfl, fits_all (keep_b hk rfl) (keep_c hk rfl) (keep_scale hk rfl) _⟩) rfl rfl rfl

theorem jr (a : F6) : Statement (.jr a) :=
  ofBase (.rr 0x1C 0 0 a 0) rfl rfl (fun _ _ => rfl) (fun _ _ _ _ _ e e5 => by simp at e; rw [← e.1] at e5; exact absurd e5 (by decide))
    (fun _ _ hk _ => ⟨rfl, fits_rr (keep_b hk rfl) (keep_scale hk rfl) _ _ _ _ _⟩) rfl rfl rfl

theorem jalr (d a : F6) : Statement (.jalr d a) :=
  ofBase (.rr 0x1C 1 0 a d) rfl rfl (fun _ _ => rfl) (fun _ _ _ _ _ e e5 => by simp at e; rw [← e.1] at e5; exact absurd e5 (by decide))
    (fun _ _ hk _ => ⟨rfl, fits_rr (keep_b hk rfl) (keep_scale hk rfl) _ _ _ _ _⟩) rfl rfl rfl

theorem ret : Statement .ret :=
  ofBase (.rr 0x1C 2 0 0 0) rfl rfl (fun _ _ => rfl) (fun _ _ _ _ _ e e5 => by simp at e; rw [← e.1] at e5; exact absurd e5 (by decide))
    (fun _ _ hk _ => ⟨rfl, fits_rr (keep_b hk rfl) (keep_scale hk rfl) _ _ _ _ _⟩) rfl rfl rfl

theorem ccall (a : F6) : Statement (.ccall a) :=
  ofBase (.rr 0x1C 3 0 a 0) rfl rfl (fun _ _ => rfl) (fun _ _ _ _ _ e e5 => by simp at e; rw [← e.1] at e5; exact absurd e5 (by decide))
    (fun _ _ hk _ => ⟨rfl, fits_rr (keep_b hk rfl) (keep_scale hk rfl) _ _ _ _ _⟩) rfl rfl rfl

theorem loop (d : F6) (off : BitVec 18) : Statement (.loop d off) :=
  ofBase (.mv 0x1D off d) rfl rfl (fun _ _ => rfl) (fun _ _ _ _ _ e => nomatch e)
    (fun _ _ hk hc => ⟨by injections; subst_vars; rfl, fits_all (keep_b hk rfl) (keep_c hk rfl) (keep_scale hk rfl) _⟩) rfl rfl rfl

theorem yield : Statement .yield :=
  ofBase (.rr 0x1E 0 0 0 0) rfl rfl (fun _ _ => rfl) (fun _ _ _ _ _ e e5 => by simp at e; rw [← e.1] at e5; exact absurd e5 (by decide))
    (fun _ _ hk _ => ⟨rfl, fits_rr (keep_b hk rfl) (keep_scale hk rfl) _ _ _ _ _⟩) rfl rfl rfl

theorem halt : Statement .halt :=
  ofBase (.rr 0x1E 1 0 0 0) rfl rfl (fun _ _ => rfl) (fun _ _ _ _ _ e e5 => by simp at e; rw [← e.1] at e5; exact absurd e5 (by decide))
    (fun _ _ hk _ => ⟨rfl, fits_rr (keep_b hk rfl) (keep_scale hk rfl) _ _ _ _ _⟩) rfl rfl rfl

theorem bar : Statement .bar :=
  ofBase (.rr 0x1E 2 0 0 0) rfl rfl (fun _ _ => rfl) (fun _ _ _ _ _ e e5 => by simp at e; rw [← e.1] at e5; exact absurd e5 (by decide))
    (fun _ _ hk _ => ⟨rfl, fits_rr (keep_b hk rfl) (keep_scale hk rfl) _ _ _ _ _⟩) rfl rfl rfl

theorem wfe : Statement .wfe :=
  ofBase (.rr 0x1E 3 0 0 0) rfl rfl (fun _ _ => rfl) (fun _ _ _ _ _ e e5 => by simp at e; rw [← e.1] at e5; exact absurd e5 (by decide))
    (fun _ _ hk _ => ⟨rfl, fits_rr (keep_b hk rfl) (keep_scale hk rfl) _ _ _ _ _⟩) rfl rfl rfl

theorem nop : Statement .nop :=
  ofBase (.rr 0x1E 4 0 0 0) rfl rfl (fun _ _ => rfl) (fun _ _ _ _ _ e e5 => by simp at e; rw [← e.1] at e5; exact absurd e5 (by decide))
    (fun _ _ hk _ => ⟨rfl, fits_rr (keep_b hk rfl) (keep_scale hk rfl) _ _ _ _ _⟩) rfl rfl rfl

theorem sleep (a : F6) : Statement (.sleep a) :=
  ofBase (.rr 0x1E 5 0 a 0) rfl rfl (fun _ _ => rfl) (fun _ _ _ _ _ e e5 => by simp at e; rw [← e.1] at e5; exact absurd e5 (by decide))
    (fun _ _ hk _ => ⟨rfl, fits_rr (keep_b hk rfl) (keep_scale hk rfl) _ _ _ _ _⟩) rfl rfl rfl

theorem brk (imm : BitVec 12) : Statement (.brk imm) :=
  ofBase (.rr 0x1E 6 (imm.extractLsb' 0 6) (imm.extractLsb' 6 6) 0) rfl rfl (fun _ _ => Eq.trans (b := some (.brk (imm.extractLsb' 6 6 ++ imm.extractLsb' 0 6))) rfl (by rw [back12])) (fun _ _ _ _ _ e e5 => by simp at e; rw [← e.1] at e5; exact absurd e5 (by decide))
    (fun _ _ hk _ => ⟨rfl, fits_rr (keep_b hk rfl) (keep_scale hk rfl) _ _ _ _ _⟩) rfl rfl rfl

theorem trap (imm : BitVec 12) : Statement (.trap imm) :=
  ofBase (.rr 0x1F 0 (imm.extractLsb' 0 6) (imm.extractLsb' 6 6) 0) rfl rfl (fun _ _ => Eq.trans (b := some (.trap (imm.extractLsb' 6 6 ++ imm.extractLsb' 0 6))) rfl (by rw [back12])) (fun _ _ _ _ _ e e5 => by simp at e; rw [← e.1] at e5; exact absurd e5 (by decide))
    (fun _ _ hk _ => ⟨rfl, fits_rr (keep_b hk rfl) (keep_scale hk rfl) _ _ _ _ _⟩) rfl rfl rfl

theorem eret : Statement .eret :=
  ofBase (.rr 0x1F 1 0 0 0) rfl rfl (fun _ _ => rfl) (fun _ _ _ _ _ e e5 => by simp at e; rw [← e.1] at e5; exact absurd e5 (by decide))
    (fun _ _ hk _ => ⟨rfl, fits_rr (keep_b hk rfl) (keep_scale hk rfl) _ _ _ _ _⟩) rfl rfl rfl

theorem mfs (d : F6) (sr : BitVec 12) : Statement (.mfs d sr) :=
  ofBase (.rr 0x1F 2 (sr.extractLsb' 0 6) (sr.extractLsb' 6 6) d) rfl rfl (fun _ _ => Eq.trans (b := some (.mfs d (sr.extractLsb' 6 6 ++ sr.extractLsb' 0 6))) rfl (by rw [back12])) (fun _ _ _ _ _ e e5 => by simp at e; rw [← e.1] at e5; exact absurd e5 (by decide))
    (fun _ _ hk _ => ⟨rfl, fits_rr (keep_b hk rfl) (keep_scale hk rfl) _ _ _ _ _⟩) rfl rfl rfl

theorem mts (d : F6) (sr : BitVec 12) : Statement (.mts d sr) :=
  ofBase (.rr 0x1F 3 (sr.extractLsb' 0 6) (sr.extractLsb' 6 6) d) rfl rfl (fun _ _ => Eq.trans (b := some (.mts d (sr.extractLsb' 6 6 ++ sr.extractLsb' 0 6))) rfl (by rw [back12])) (fun _ _ _ _ _ e e5 => by simp at e; rw [← e.1] at e5; exact absurd e5 (by decide))
    (fun _ _ hk _ => ⟨rfl, fits_rr (keep_b hk rfl) (keep_scale hk rfl) _ _ _ _ _⟩) rfl rfl rfl

theorem tlbinv (a b : F6) : Statement (.tlbinv a b) :=
  ofBase (.rr 0x1F 4 b a 0) rfl rfl (fun _ _ => rfl) (fun _ _ _ _ _ e e5 => by simp at e; rw [← e.1] at e5; exact absurd e5 (by decide))
    (fun _ _ hk _ => ⟨rfl, fits_rr (keep_b hk rfl) (keep_scale hk rfl) _ _ _ _ _⟩) rfl rfl rfl

theorem vadd (t : BitVec 3) (d a b : F6) : Statement (.vadd t d a b) :=
  ofBase (.vr 0x20 0 t b a d) rfl rfl (fun _ _ => rfl) (fun _ _ _ _ _ e => nomatch e)
    (fun _ _ hk _ => ⟨rfl, fits_vr (keep_b hk rfl) (keep_scale hk rfl) _ _ _ _ _ _⟩) rfl rfl rfl

theorem vsub (t : BitVec 3) (d a b : F6) : Statement (.vsub t d a b) :=
  ofBase (.vr 0x20 1 t b a d) rfl rfl (fun _ _ => rfl) (fun _ _ _ _ _ e => nomatch e)
    (fun _ _ hk _ => ⟨rfl, fits_vr (keep_b hk rfl) (keep_scale hk rfl) _ _ _ _ _ _⟩) rfl rfl rfl

theorem vmul (t : BitVec 3) (d a b : F6) : Statement (.vmul t d a b) :=
  ofBase (.vr 0x20 2 t b a d) rfl rfl (fun _ _ => rfl) (fun _ _ _ _ _ e => nomatch e)
    (fun _ _ hk _ => ⟨rfl, fits_vr (keep_b hk rfl) (keep_scale hk rfl) _ _ _ _ _ _⟩) rfl rfl rfl

theorem vmin (t : BitVec 3) (d a b : F6) : Statement (.vmin t d a b) :=
  ofBase (.vr 0x20 3 t b a d) rfl rfl (fun _ _ => rfl) (fun _ _ _ _ _ e => nomatch e)
    (fun _ _ hk _ => ⟨rfl, fits_vr (keep_b hk rfl) (keep_scale hk rfl) _ _ _ _ _ _⟩) rfl rfl rfl

theorem vmax (t : BitVec 3) (d a b : F6) : Statement (.vmax t d a b) :=
  ofBase (.vr 0x20 4 t b a d) rfl rfl (fun _ _ => rfl) (fun _ _ _ _ _ e => nomatch e)
    (fun _ _ hk _ => ⟨rfl, fits_vr (keep_b hk rfl) (keep_scale hk rfl) _ _ _ _ _ _⟩) rfl rfl rfl

theorem vabs (t : BitVec 3) (d a : F6) : Statement (.vabs t d a) :=
  ofBase (.vr 0x20 5 t 0 a d) rfl rfl (fun _ _ => rfl) (fun _ _ _ _ _ e => nomatch e)
    (fun _ _ hk _ => ⟨rfl, fits_vr (keep_b hk rfl) (keep_scale hk rfl) _ _ _ _ _ _⟩) rfl rfl rfl

theorem vneg (t : BitVec 3) (d a : F6) : Statement (.vneg t d a) :=
  ofBase (.vr 0x20 6 t 0 a d) rfl rfl (fun _ _ => rfl) (fun _ _ _ _ _ e => nomatch e)
    (fun _ _ hk _ => ⟨rfl, fits_vr (keep_b hk rfl) (keep_scale hk rfl) _ _ _ _ _ _⟩) rfl rfl rfl

theorem vabd (t : BitVec 3) (d a b : F6) : Statement (.vabd t d a b) :=
  ofBase (.vr 0x20 7 t b a d) rfl rfl (fun _ _ => rfl) (fun _ _ _ _ _ e => nomatch e)
    (fun _ _ hk _ => ⟨rfl, fits_vr (keep_b hk rfl) (keep_scale hk rfl) _ _ _ _ _ _⟩) rfl rfl rfl

theorem vfma (t : BitVec 3) (d a b : F6) : Statement (.vfma t d a b) :=
  ofBase (.vr 0x21 0 t b a d) rfl rfl (fun _ _ => rfl) (fun _ _ _ _ _ e => nomatch e)
    (fun _ _ hk _ => ⟨rfl, fits_vr (keep_b hk rfl) (keep_scale hk rfl) _ _ _ _ _ _⟩) rfl rfl rfl

theorem vfms (t : BitVec 3) (d a b : F6) : Statement (.vfms t d a b) :=
  ofBase (.vr 0x21 1 t b a d) rfl rfl (fun _ _ => rfl) (fun _ _ _ _ _ e => nomatch e)
    (fun _ _ hk _ => ⟨rfl, fits_vr (keep_b hk rfl) (keep_scale hk rfl) _ _ _ _ _ _⟩) rfl rfl rfl

theorem vfnma (t : BitVec 3) (d a b : F6) : Statement (.vfnma t d a b) :=
  ofBase (.vr 0x21 2 t b a d) rfl rfl (fun _ _ => rfl) (fun _ _ _ _ _ e => nomatch e)
    (fun _ _ hk _ => ⟨rfl, fits_vr (keep_b hk rfl) (keep_scale hk rfl) _ _ _ _ _ _⟩) rfl rfl rfl

theorem vfnms (t : BitVec 3) (d a b : F6) : Statement (.vfnms t d a b) :=
  ofBase (.vr 0x21 3 t b a d) rfl rfl (fun _ _ => rfl) (fun _ _ _ _ _ e => nomatch e)
    (fun _ _ hk _ => ⟨rfl, fits_vr (keep_b hk rfl) (keep_scale hk rfl) _ _ _ _ _ _⟩) rfl rfl rfl

theorem vdot4 (t : BitVec 3) (d a b : F6) : Statement (.vdot4 t d a b) :=
  ofBase (.vr 0x21 4 t b a d) rfl rfl (fun _ _ => rfl) (fun _ _ _ _ _ e => nomatch e)
    (fun _ _ hk _ => ⟨rfl, fits_vr (keep_b hk rfl) (keep_scale hk rfl) _ _ _ _ _ _⟩) rfl rfl rfl

theorem vdot2 (t : BitVec 3) (d a b : F6) : Statement (.vdot2 t d a b) :=
  ofBase (.vr 0x21 5 t b a d) rfl rfl (fun _ _ => rfl) (fun _ _ _ _ _ e => nomatch e)
    (fun _ _ hk _ => ⟨rfl, fits_vr (keep_b hk rfl) (keep_scale hk rfl) _ _ _ _ _ _⟩) rfl rfl rfl

theorem vmulh (t : BitVec 3) (d a b : F6) : Statement (.vmulh t d a b) :=
  ofBase (.vr 0x21 6 t b a d) rfl rfl (fun _ _ => rfl) (fun _ _ _ _ _ e => nomatch e)
    (fun _ _ hk _ => ⟨rfl, fits_vr (keep_b hk rfl) (keep_scale hk rfl) _ _ _ _ _ _⟩) rfl rfl rfl

theorem vsad (t : BitVec 3) (d a b : F6) : Statement (.vsad t d a b) :=
  ofBase (.vr 0x21 7 t b a d) rfl rfl (fun _ _ => rfl) (fun _ _ _ _ _ e => nomatch e)
    (fun _ _ hk _ => ⟨rfl, fits_vr (keep_b hk rfl) (keep_scale hk rfl) _ _ _ _ _ _⟩) rfl rfl rfl

theorem vand (t : BitVec 3) (d a b : F6) : Statement (.vand t d a b) :=
  ofBase (.vr 0x22 0 t b a d) rfl rfl (fun _ _ => rfl) (fun _ _ _ _ _ e => nomatch e)
    (fun _ _ hk _ => ⟨rfl, fits_vr (keep_b hk rfl) (keep_scale hk rfl) _ _ _ _ _ _⟩) rfl rfl rfl

theorem vor (t : BitVec 3) (d a b : F6) : Statement (.vor t d a b) :=
  ofBase (.vr 0x22 1 t b a d) rfl rfl (fun _ _ => rfl) (fun _ _ _ _ _ e => nomatch e)
    (fun _ _ hk _ => ⟨rfl, fits_vr (keep_b hk rfl) (keep_scale hk rfl) _ _ _ _ _ _⟩) rfl rfl rfl

theorem vxor (t : BitVec 3) (d a b : F6) : Statement (.vxor t d a b) :=
  ofBase (.vr 0x22 2 t b a d) rfl rfl (fun _ _ => rfl) (fun _ _ _ _ _ e => nomatch e)
    (fun _ _ hk _ => ⟨rfl, fits_vr (keep_b hk rfl) (keep_scale hk rfl) _ _ _ _ _ _⟩) rfl rfl rfl

theorem vandn (t : BitVec 3) (d a b : F6) : Statement (.vandn t d a b) :=
  ofBase (.vr 0x22 3 t b a d) rfl rfl (fun _ _ => rfl) (fun _ _ _ _ _ e => nomatch e)
    (fun _ _ hk _ => ⟨rfl, fits_vr (keep_b hk rfl) (keep_scale hk rfl) _ _ _ _ _ _⟩) rfl rfl rfl

theorem vsll (t : BitVec 3) (d a b : F6) : Statement (.vsll t d a b) :=
  ofBase (.vr 0x22 4 t b a d) rfl rfl (fun _ _ => rfl) (fun _ _ _ _ _ e => nomatch e)
    (fun _ _ hk _ => ⟨rfl, fits_vr (keep_b hk rfl) (keep_scale hk rfl) _ _ _ _ _ _⟩) rfl rfl rfl

theorem vsrl (t : BitVec 3) (d a b : F6) : Statement (.vsrl t d a b) :=
  ofBase (.vr 0x22 5 t b a d) rfl rfl (fun _ _ => rfl) (fun _ _ _ _ _ e => nomatch e)
    (fun _ _ hk _ => ⟨rfl, fits_vr (keep_b hk rfl) (keep_scale hk rfl) _ _ _ _ _ _⟩) rfl rfl rfl

theorem vsra (t : BitVec 3) (d a b : F6) : Statement (.vsra t d a b) :=
  ofBase (.vr 0x22 6 t b a d) rfl rfl (fun _ _ => rfl) (fun _ _ _ _ _ e => nomatch e)
    (fun _ _ hk _ => ⟨rfl, fits_vr (keep_b hk rfl) (keep_scale hk rfl) _ _ _ _ _ _⟩) rfl rfl rfl

theorem vnot (t : BitVec 3) (d a : F6) : Statement (.vnot t d a) :=
  ofBase (.vr 0x22 7 t 0 a d) rfl rfl (fun _ _ => rfl) (fun _ _ _ _ _ e => nomatch e)
    (fun _ _ hk _ => ⟨rfl, fits_vr (keep_b hk rfl) (keep_scale hk rfl) _ _ _ _ _ _⟩) rfl rfl rfl

theorem vceq (t : BitVec 3) (d : BitVec 3) (a b : F6) : Statement (.vceq t d a b) :=
  ofBase (.vr 0x23 0 t b a (d.setWidth 6)) rfl rfl (fun _ _ => Eq.trans (b := some (.vceq t ((d.setWidth 6).extractLsb' 0 3) a b)) rfl (by simp only [back3])) (fun _ _ _ _ _ e => nomatch e)
    (fun _ _ hk _ => ⟨rfl, fits_vr (keep_b hk rfl) (keep_scale hk rfl) _ _ _ _ _ _⟩) rfl rfl rfl

theorem vcne (t : BitVec 3) (d : BitVec 3) (a b : F6) : Statement (.vcne t d a b) :=
  ofBase (.vr 0x23 1 t b a (d.setWidth 6)) rfl rfl (fun _ _ => Eq.trans (b := some (.vcne t ((d.setWidth 6).extractLsb' 0 3) a b)) rfl (by simp only [back3])) (fun _ _ _ _ _ e => nomatch e)
    (fun _ _ hk _ => ⟨rfl, fits_vr (keep_b hk rfl) (keep_scale hk rfl) _ _ _ _ _ _⟩) rfl rfl rfl

theorem vclt (t : BitVec 3) (d : BitVec 3) (a b : F6) : Statement (.vclt t d a b) :=
  ofBase (.vr 0x23 2 t b a (d.setWidth 6)) rfl rfl (fun _ _ => Eq.trans (b := some (.vclt t ((d.setWidth 6).extractLsb' 0 3) a b)) rfl (by simp only [back3])) (fun _ _ _ _ _ e => nomatch e)
    (fun _ _ hk _ => ⟨rfl, fits_vr (keep_b hk rfl) (keep_scale hk rfl) _ _ _ _ _ _⟩) rfl rfl rfl

theorem vcle (t : BitVec 3) (d : BitVec 3) (a b : F6) : Statement (.vcle t d a b) :=
  ofBase (.vr 0x23 3 t b a (d.setWidth 6)) rfl rfl (fun _ _ => Eq.trans (b := some (.vcle t ((d.setWidth 6).extractLsb' 0 3) a b)) rfl (by simp only [back3])) (fun _ _ _ _ _ e => nomatch e)
    (fun _ _ hk _ => ⟨rfl, fits_vr (keep_b hk rfl) (keep_scale hk rfl) _ _ _ _ _ _⟩) rfl rfl rfl

theorem vcgt (t : BitVec 3) (d : BitVec 3) (a b : F6) : Statement (.vcgt t d a b) :=
  ofBase (.vr 0x23 4 t b a (d.setWidth 6)) rfl rfl (fun _ _ => Eq.trans (b := some (.vcgt t ((d.setWidth 6).extractLsb' 0 3) a b)) rfl (by simp only [back3])) (fun _ _ _ _ _ e => nomatch e)
    (fun _ _ hk _ => ⟨rfl, fits_vr (keep_b hk rfl) (keep_scale hk rfl) _ _ _ _ _ _⟩) rfl rfl rfl

theorem vcge (t : BitVec 3) (d : BitVec 3) (a b : F6) : Statement (.vcge t d a b) :=
  ofBase (.vr 0x23 5 t b a (d.setWidth 6)) rfl rfl (fun _ _ => Eq.trans (b := some (.vcge t ((d.setWidth 6).extractLsb' 0 3) a b)) rfl (by simp only [back3])) (fun _ _ _ _ _ e => nomatch e)
    (fun _ _ hk _ => ⟨rfl, fits_vr (keep_b hk rfl) (keep_scale hk rfl) _ _ _ _ _ _⟩) rfl rfl rfl

theorem vcltu (t : BitVec 3) (d : BitVec 3) (a b : F6) : Statement (.vcltu t d a b) :=
  ofBase (.vr 0x23 6 t b a (d.setWidth 6)) rfl rfl (fun _ _ => Eq.trans (b := some (.vcltu t ((d.setWidth 6).extractLsb' 0 3) a b)) rfl (by simp only [back3])) (fun _ _ _ _ _ e => nomatch e)
    (fun _ _ hk _ => ⟨rfl, fits_vr (keep_b hk rfl) (keep_scale hk rfl) _ _ _ _ _ _⟩) rfl rfl rfl

theorem vcun (t : BitVec 3) (d : BitVec 3) (a b : F6) : Statement (.vcun t d a b) :=
  ofBase (.vr 0x23 7 t b a (d.setWidth 6)) rfl rfl (fun _ _ => Eq.trans (b := some (.vcun t ((d.setWidth 6).extractLsb' 0 3) a b)) rfl (by simp only [back3])) (fun _ _ _ _ _ e => nomatch e)
    (fun _ _ hk _ => ⟨rfl, fits_vr (keep_b hk rfl) (keep_scale hk rfl) _ _ _ _ _ _⟩) rfl rfl rfl

theorem vcvt (t : BitVec 3) (d a b : F6) : Statement (.vcvt t d a b) :=
  ofBase (.vr 0x24 0 t b a d) rfl rfl (fun _ _ => rfl) (fun _ _ _ _ _ e => nomatch e)
    (fun _ _ hk _ => ⟨rfl, fits_vr (keep_b hk rfl) (keep_scale hk rfl) _ _ _ _ _ _⟩) rfl rfl rfl

theorem vcvtSat (t : BitVec 3) (d a b : F6) : Statement (.vcvtSat t d a b) :=
  ofBase (.vr 0x24 1 t b a d) rfl rfl (fun _ _ => rfl) (fun _ _ _ _ _ e => nomatch e)
    (fun _ _ hk _ => ⟨rfl, fits_vr (keep_b hk rfl) (keep_scale hk rfl) _ _ _ _ _ _⟩) rfl rfl rfl

theorem vqn4p (t : BitVec 3) (o : XOp) : Statement (.vqn4p t o) :=
  ofNone rfl rfl (fun _ => rfl)

theorem vqn4u (t : BitVec 3) (o : XOp) : Statement (.vqn4u t o) :=
  ofNone rfl rfl (fun _ => rfl)

theorem vwid (t : BitVec 3) (d a b : F6) : Statement (.vwid t d a b) :=
  ofBase (.vr 0x24 4 t b a d) rfl rfl (fun _ _ => rfl) (fun _ _ _ _ _ e => nomatch e)
    (fun _ _ hk _ => ⟨rfl, fits_vr (keep_b hk rfl) (keep_scale hk rfl) _ _ _ _ _ _⟩) rfl rfl rfl

theorem vwidh (t : BitVec 3) (d a b : F6) : Statement (.vwidh t d a b) :=
  ofBase (.vr 0x24 5 t b a d) rfl rfl (fun _ _ => rfl) (fun _ _ _ _ _ e => nomatch e)
    (fun _ _ hk _ => ⟨rfl, fits_vr (keep_b hk rfl) (keep_scale hk rfl) _ _ _ _ _ _⟩) rfl rfl rfl

theorem vnar (t : BitVec 3) (d a b : F6) : Statement (.vnar t d a b) :=
  ofBase (.vr 0x24 6 t b a d) rfl rfl (fun _ _ => rfl) (fun _ _ _ _ _ e => nomatch e)
    (fun _ _ hk _ => ⟨rfl, fits_vr (keep_b hk rfl) (keep_scale hk rfl) _ _ _ _ _ _⟩) rfl rfl rfl

theorem vrint (t : BitVec 3) (d a b : F6) : Statement (.vrint t d a b) :=
  ofBase (.vr 0x24 7 t b a d) rfl rfl (fun _ _ => rfl) (fun _ _ _ _ _ e => nomatch e)
    (fun _ _ hk _ => ⟨rfl, fits_vr (keep_b hk rfl) (keep_scale hk rfl) _ _ _ _ _ _⟩) rfl rfl rfl

theorem vbc (t : BitVec 3) (d a b : F6) : Statement (.vbc t d a b) :=
  ofBase (.vr 0x25 0 t b a d) rfl rfl (fun _ _ => rfl) (fun _ _ _ _ _ e => nomatch e)
    (fun _ _ hk _ => ⟨rfl, fits_vr (keep_b hk rfl) (keep_scale hk rfl) _ _ _ _ _ _⟩) rfl rfl rfl

theorem vshf (t : BitVec 3) (d a b : F6) : Statement (.vshf t d a b) :=
  ofBase (.vr 0x25 1 t b a d) rfl rfl (fun _ _ => rfl) (fun _ _ _ _ _ e => nomatch e)
    (fun _ _ hk _ => ⟨rfl, fits_vr (keep_b hk rfl) (keep_scale hk rfl) _ _ _ _ _ _⟩) rfl rfl rfl

theorem vrot (t : BitVec 3) (d a b : F6) : Statement (.vrot t d a b) :=
  ofBase (.vr 0x25 2 t b a d) rfl rfl (fun _ _ => rfl) (fun _ _ _ _ _ e => nomatch e)
    (fun _ _ hk _ => ⟨rfl, fits_vr (keep_b hk rfl) (keep_scale hk rfl) _ _ _ _ _ _⟩) rfl rfl rfl

theorem vext (t : BitVec 3) (d a b : F6) : Statement (.vext t d a b) :=
  ofBase (.vr 0x25 3 t b a d) rfl rfl (fun _ _ => rfl) (fun _ _ _ _ _ e => nomatch e)
    (fun _ _ hk _ => ⟨rfl, fits_vr (keep_b hk rfl) (keep_scale hk rfl) _ _ _ _ _ _⟩) rfl rfl rfl

theorem vins (t : BitVec 3) (d a b : F6) : Statement (.vins t d a b) :=
  ofBase (.vr 0x25 4 t b a d) rfl rfl (fun _ _ => rfl) (fun _ _ _ _ _ e => nomatch e)
    (fun _ _ hk _ => ⟨rfl, fits_vr (keep_b hk rfl) (keep_scale hk rfl) _ _ _ _ _ _⟩) rfl rfl rfl

theorem vzip (t : BitVec 3) (d a b : F6) : Statement (.vzip t d a b) :=
  ofBase (.vr 0x25 5 t b a d) rfl rfl (fun _ _ => rfl) (fun _ _ _ _ _ e => nomatch e)
    (fun _ _ hk _ => ⟨rfl, fits_vr (keep_b hk rfl) (keep_scale hk rfl) _ _ _ _ _ _⟩) rfl rfl rfl

theorem vuzp (t : BitVec 3) (d a b : F6) : Statement (.vuzp t d a b) :=
  ofBase (.vr 0x25 6 t b a d) rfl rfl (fun _ _ => rfl) (fun _ _ _ _ _ e => nomatch e)
    (fun _ _ hk _ => ⟨rfl, fits_vr (keep_b hk rfl) (keep_scale hk rfl) _ _ _ _ _ _⟩) rfl rfl rfl

theorem vcpr (t : BitVec 3) (d a : F6) (b : BitVec 3) : Statement (.vcpr t d a b) :=
  ofBase (.vr 0x25 7 t (b.setWidth 6) a d) rfl rfl (fun _ _ => Eq.trans (b := some (.vcpr t d a ((b.setWidth 6).extractLsb' 0 3))) rfl (by simp only [back3])) (fun _ _ _ _ _ e => nomatch e)
    (fun _ _ hk _ => ⟨rfl, fits_vr (keep_b hk rfl) (keep_scale hk rfl) _ _ _ _ _ _⟩) rfl rfl rfl

theorem vradd (t : BitVec 3) (d a : F6) : Statement (.vradd t d a) :=
  ofBase (.vr 0x26 0 t 0 a d) rfl rfl (fun _ _ => rfl) (fun _ _ _ _ _ e => nomatch e)
    (fun _ _ hk _ => ⟨rfl, fits_vr (keep_b hk rfl) (keep_scale hk rfl) _ _ _ _ _ _⟩) rfl rfl rfl

theorem vrmax (t : BitVec 3) (d a : F6) : Statement (.vrmax t d a) :=
  ofBase (.vr 0x26 1 t 0 a d) rfl rfl (fun _ _ => rfl) (fun _ _ _ _ _ e => nomatch e)
    (fun _ _ hk _ => ⟨rfl, fits_vr (keep_b hk rfl) (keep_scale hk rfl) _ _ _ _ _ _⟩) rfl rfl rfl

theorem vrmin (t : BitVec 3) (d a : F6) : Statement (.vrmin t d a) :=
  ofBase (.vr 0x26 2 t 0 a d) rfl rfl (fun _ _ => rfl) (fun _ _ _ _ _ e => nomatch e)
    (fun _ _ hk _ => ⟨rfl, fits_vr (keep_b hk rfl) (keep_scale hk rfl) _ _ _ _ _ _⟩) rfl rfl rfl

theorem vrand (t : BitVec 3) (d a : F6) : Statement (.vrand t d a) :=
  ofBase (.vr 0x26 3 t 0 a d) rfl rfl (fun _ _ => rfl) (fun _ _ _ _ _ e => nomatch e)
    (fun _ _ hk _ => ⟨rfl, fits_vr (keep_b hk rfl) (keep_scale hk rfl) _ _ _ _ _ _⟩) rfl rfl rfl

theorem vror (t : BitVec 3) (d a : F6) : Statement (.vror t d a) :=
  ofBase (.vr 0x26 4 t 0 a d) rfl rfl (fun _ _ => rfl) (fun _ _ _ _ _ e => nomatch e)
    (fun _ _ hk _ => ⟨rfl, fits_vr (keep_b hk rfl) (keep_scale hk rfl) _ _ _ _ _ _⟩) rfl rfl rfl

theorem vrxor (t : BitVec 3) (d a : F6) : Statement (.vrxor t d a) :=
  ofBase (.vr 0x26 5 t 0 a d) rfl rfl (fun _ _ => rfl) (fun _ _ _ _ _ e => nomatch e)
    (fun _ _ hk _ => ⟨rfl, fits_vr (keep_b hk rfl) (keep_scale hk rfl) _ _ _ _ _ _⟩) rfl rfl rfl

theorem vscan (t : BitVec 3) (d a : F6) : Statement (.vscan t d a) :=
  ofBase (.vr 0x26 6 t 0 a d) rfl rfl (fun _ _ => rfl) (fun _ _ _ _ _ e => nomatch e)
    (fun _ _ hk _ => ⟨rfl, fits_vr (keep_b hk rfl) (keep_scale hk rfl) _ _ _ _ _ _⟩) rfl rfl rfl

theorem vrsum (t : BitVec 3) (d a : F6) : Statement (.vrsum t d a) :=
  ofBase (.vr 0x26 7 t 0 a d) rfl rfl (fun _ _ => rfl) (fun _ _ _ _ _ e => nomatch e)
    (fun _ _ hk _ => ⟨rfl, fits_vr (keep_b hk rfl) (keep_scale hk rfl) _ _ _ _ _ _⟩) rfl rfl rfl

theorem vrcp (t : BitVec 3) (d a : F6) : Statement (.vrcp t d a) :=
  ofBase (.vr 0x27 0 t 0 a d) rfl rfl (fun _ _ => rfl) (fun _ _ _ _ _ e => nomatch e)
    (fun _ _ hk _ => ⟨rfl, fits_vr (keep_b hk rfl) (keep_scale hk rfl) _ _ _ _ _ _⟩) rfl rfl rfl

theorem vrsqrt (t : BitVec 3) (d a : F6) : Statement (.vrsqrt t d a) :=
  ofBase (.vr 0x27 1 t 0 a d) rfl rfl (fun _ _ => rfl) (fun _ _ _ _ _ e => nomatch e)
    (fun _ _ hk _ => ⟨rfl, fits_vr (keep_b hk rfl) (keep_scale hk rfl) _ _ _ _ _ _⟩) rfl rfl rfl

theorem vsqrt (t : BitVec 3) (d a : F6) : Statement (.vsqrt t d a) :=
  ofBase (.vr 0x27 2 t 0 a d) rfl rfl (fun _ _ => rfl) (fun _ _ _ _ _ e => nomatch e)
    (fun _ _ hk _ => ⟨rfl, fits_vr (keep_b hk rfl) (keep_scale hk rfl) _ _ _ _ _ _⟩) rfl rfl rfl

theorem vdiv (t : BitVec 3) (d a b : F6) : Statement (.vdiv t d a b) :=
  ofBase (.vr 0x27 3 t b a d) rfl rfl (fun _ _ => rfl) (fun _ _ _ _ _ e => nomatch e)
    (fun _ _ hk _ => ⟨rfl, fits_vr (keep_b hk rfl) (keep_scale hk rfl) _ _ _ _ _ _⟩) rfl rfl rfl

theorem vexp2 (t : BitVec 3) (d a : F6) : Statement (.vexp2 t d a) :=
  ofBase (.vr 0x27 4 t 0 a d) rfl rfl (fun _ _ => rfl) (fun _ _ _ _ _ e => nomatch e)
    (fun _ _ hk _ => ⟨rfl, fits_vr (keep_b hk rfl) (keep_scale hk rfl) _ _ _ _ _ _⟩) rfl rfl rfl

theorem vlog2 (t : BitVec 3) (d a : F6) : Statement (.vlog2 t d a) :=
  ofBase (.vr 0x27 5 t 0 a d) rfl rfl (fun _ _ => rfl) (fun _ _ _ _ _ e => nomatch e)
    (fun _ _ hk _ => ⟨rfl, fits_vr (keep_b hk rfl) (keep_scale hk rfl) _ _ _ _ _ _⟩) rfl rfl rfl

theorem vtanh (t : BitVec 3) (d a : F6) : Statement (.vtanh t d a) :=
  ofBase (.vr 0x27 6 t 0 a d) rfl rfl (fun _ _ => rfl) (fun _ _ _ _ _ e => nomatch e)
    (fun _ _ hk _ => ⟨rfl, fits_vr (keep_b hk rfl) (keep_scale hk rfl) _ _ _ _ _ _⟩) rfl rfl rfl

theorem vsigm (t : BitVec 3) (d a : F6) : Statement (.vsigm t d a) :=
  ofBase (.vr 0x27 7 t 0 a d) rfl rfl (fun _ _ => rfl) (fun _ _ _ _ _ e => nomatch e)
    (fun _ _ hk _ => ⟨rfl, fits_vr (keep_b hk rfl) (keep_scale hk rfl) _ _ _ _ _ _⟩) rfl rfl rfl

theorem vld (d a : F6) (sz : BitVec 3) (am : BitVec 2) (ea : BitVec 7) : Statement (.vld d a sz am ea) :=
  ofBase (.mem 0x28 ea am sz a d) rfl rfl (fun _ _ => rfl) (fun _ _ _ _ _ e => nomatch e)
    (fun _ _ _ hc => ⟨by injections; subst_vars; rfl, rfl⟩) rfl rfl rfl

theorem vst (d a : F6) (sz : BitVec 3) (am : BitVec 2) (ea : BitVec 7) : Statement (.vst d a sz am ea) :=
  ofBase (.mem 0x29 ea am sz a d) rfl rfl (fun _ _ => rfl) (fun _ _ _ _ _ e => nomatch e)
    (fun _ _ _ hc => ⟨by injections; subst_vars; rfl, rfl⟩) rfl rfl rfl

theorem vsacc (d a b : F6) : Statement (.vsacc d a b) :=
  ofBase (.vr 0x2A 0 0 b a d) rfl rfl (fun _ _ => rfl) (fun _ _ _ _ _ e => nomatch e)
    (fun _ _ hk _ => ⟨rfl, fits_vr (keep_b hk rfl) (keep_scale hk rfl) _ _ _ _ _ _⟩) rfl rfl rfl

theorem vxpk (d a : F6) : Statement (.vxpk d a) :=
  ofBase (.vr 0x2A 1 0 0 a d) rfl rfl (fun _ _ => rfl) (fun _ _ _ _ _ e => nomatch e)
    (fun _ _ hk _ => ⟨rfl, fits_vr (keep_b hk rfl) (keep_scale hk rfl) _ _ _ _ _ _⟩) rfl rfl rfl

theorem vxacc (d a : F6) : Statement (.vxacc d a) :=
  ofBase (.vr 0x2A 2 0 0 a d) rfl rfl (fun _ _ => rfl) (fun _ _ _ _ _ e => nomatch e)
    (fun _ _ hk _ => ⟨rfl, fits_vr (keep_b hk rfl) (keep_scale hk rfl) _ _ _ _ _ _⟩) rfl rfl rfl

theorem vxfin (d a : F6) : Statement (.vxfin d a) :=
  ofBase (.vr 0x2A 3 0 0 a d) rfl rfl (fun _ _ => rfl) (fun _ _ _ _ _ e => nomatch e)
    (fun _ _ hk _ => ⟨rfl, fits_vr (keep_b hk rfl) (keep_scale hk rfl) _ _ _ _ _ _⟩) rfl rfl rfl

theorem vbsc (d a b : F6) : Statement (.vbsc d a b) :=
  ofBase (.vr 0x2A 4 0 b a d) rfl rfl (fun _ _ => rfl) (fun _ _ _ _ _ e => nomatch e)
    (fun _ _ hk _ => ⟨rfl, fits_vr (keep_b hk rfl) (keep_scale hk rfl) _ _ _ _ _ _⟩) rfl rfl rfl

theorem vmov (t : BitVec 3) (d a : F6) : Statement (.vmov t d a) :=
  ofBase (.vr 0x2B 0 t 0 a d) rfl rfl (fun _ _ => rfl) (fun _ _ _ _ _ e => nomatch e)
    (fun _ _ hk _ => ⟨rfl, fits_vr (keep_b hk rfl) (keep_scale hk rfl) _ _ _ _ _ _⟩) rfl rfl rfl

theorem vzero (t : BitVec 3) (d : F6) : Statement (.vzero t d) :=
  ofBase (.vr 0x2B 1 t 0 0 d) rfl rfl (fun _ _ => rfl) (fun _ _ _ _ _ e => nomatch e)
    (fun _ _ hk _ => ⟨rfl, fits_vr (keep_b hk rfl) (keep_scale hk rfl) _ _ _ _ _ _⟩) rfl rfl rfl

theorem vfill (t : BitVec 3) (d a : F6) : Statement (.vfill t d a) :=
  ofBase (.vr 0x2B 2 t 0 a d) rfl rfl (fun _ _ => rfl) (fun _ _ _ _ _ e => nomatch e)
    (fun _ _ hk _ => ⟨rfl, fits_vr (keep_b hk rfl) (keep_scale hk rfl) _ _ _ _ _ _⟩) rfl rfl rfl

theorem vkmov (t : BitVec 3) (d : F6) (a : BitVec 3) : Statement (.vkmov t d a) :=
  ofBase (.vr 0x2B 3 t 0 (a.setWidth 6) d) rfl rfl (fun _ _ => Eq.trans (b := some (.vkmov t d ((a.setWidth 6).extractLsb' 0 3))) rfl (by simp only [back3])) (fun _ _ _ _ _ e => nomatch e)
    (fun _ _ hk _ => ⟨rfl, fits_vr (keep_b hk rfl) (keep_scale hk rfl) _ _ _ _ _ _⟩) rfl rfl rfl

theorem vwbc (t : BitVec 3) (d a b : F6) : Statement (.vwbc t d a b) :=
  ofBase (.vr 0x2B 4 t b a d) rfl rfl (fun _ _ => rfl) (fun _ _ _ _ _ e => nomatch e)
    (fun _ _ hk _ => ⟨rfl, fits_vr (keep_b hk rfl) (keep_scale hk rfl) _ _ _ _ _ _⟩) rfl rfl rfl

theorem tref (a b : F6) : Statement (.tref a b) :=
  ofBase (.rr 0x30 0 b a 0) rfl rfl (fun _ _ => rfl) (fun _ _ _ _ _ e e5 => by simp at e; rw [← e.1] at e5; exact absurd e5 (by decide))
    (fun _ _ hk _ => ⟨rfl, fits_rr (keep_b hk rfl) (keep_scale hk rfl) _ _ _ _ _⟩) rfl rfl rfl

theorem tdrop (a b : F6) : Statement (.tdrop a b) :=
  ofBase (.rr 0x30 1 b a 0) rfl rfl (fun _ _ => rfl) (fun _ _ _ _ _ e e5 => by simp at e; rw [← e.1] at e5; exact absurd e5 (by decide))
    (fun _ _ hk _ => ⟨rfl, fits_rr (keep_b hk rfl) (keep_scale hk rfl) _ _ _ _ _⟩) rfl rfl rfl

theorem tinfo (d a b : F6) : Statement (.tinfo d a b) :=
  ofBase (.rr 0x30 2 b a d) rfl rfl (fun _ _ => rfl) (fun _ _ _ _ _ e e5 => by simp at e; rw [← e.1] at e5; exact absurd e5 (by decide))
    (fun _ _ hk _ => ⟨rfl, fits_rr (keep_b hk rfl) (keep_scale hk rfl) _ _ _ _ _⟩) rfl rfl rfl

theorem tchk (d a : F6) : Statement (.tchk d a) :=
  ofBase (.rr 0x30 3 0 a d) rfl rfl (fun _ _ => rfl) (fun _ _ _ _ _ e e5 => by simp at e; rw [← e.1] at e5; exact absurd e5 (by decide))
    (fun _ _ hk _ => ⟨rfl, fits_rr (keep_b hk rfl) (keep_scale hk rfl) _ _ _ _ _⟩) rfl rfl rfl

theorem tdropAll (a b : F6) : Statement (.tdropAll a b) :=
  ofBase (.rr 0x30 4 b a 0) rfl rfl (fun _ _ => rfl) (fun _ _ _ _ _ e e5 => by simp at e; rw [← e.1] at e5; exact absurd e5 (by decide))
    (fun _ _ hk _ => ⟨rfl, fits_rr (keep_b hk rfl) (keep_scale hk rfl) _ _ _ _ _⟩) rfl rfl rfl

theorem qbind (q : BitVec 3) (a b : F6) : Statement (.qbind q a b) :=
  ofBase (.rr 0x31 0 b a ((6 : BitVec 3) ++ q)) rfl rfl (fun _ _ => all3 (P := fun q => ofFmt (.rr 0x31 0 b a ((6 : BitVec 3) ++ q)) = some (.qbind q a b)) rfl rfl rfl rfl rfl rfl rfl rfl q) (fun _ _ _ _ _ e e5 => by simp at e; rw [← e.1] at e5; exact absurd e5 (by decide))
    (fun _ _ hk _ => ⟨rfl, fits_rr (keep_b hk rfl) (keep_scale hk rfl) _ _ _ _ _⟩) rfl rfl rfl

theorem qunb (q : BitVec 3) : Statement (.qunb q) :=
  ofBase (.rr 0x31 1 0 0 ((6 : BitVec 3) ++ q)) rfl rfl (fun _ _ => all3 (P := fun q => ofFmt (.rr 0x31 1 0 0 ((6 : BitVec 3) ++ q)) = some (.qunb q)) rfl rfl rfl rfl rfl rfl rfl rfl q) (fun _ _ _ _ _ e e5 => by simp at e; rw [← e.1] at e5; exact absurd e5 (by decide))
    (fun _ _ hk _ => ⟨rfl, fits_rr (keep_b hk rfl) (keep_scale hk rfl) _ _ _ _ _⟩) rfl rfl rfl

theorem qstat (d : F6) (q : BitVec 3) : Statement (.qstat d q) :=
  ofBase (.rr 0x31 2 (q.setWidth 6) 0 d) rfl rfl (fun _ _ => Eq.trans (b := some (.qstat d ((q.setWidth 6).extractLsb' 0 3))) rfl (by simp only [back3])) (fun _ _ _ _ _ e e5 => by simp at e; rw [← e.1] at e5; exact absurd e5 (by decide))
    (fun _ _ hk _ => ⟨rfl, fits_rr (keep_b hk rfl) (keep_scale hk rfl) _ _ _ _ _⟩) rfl rfl rfl

theorem qpeek (d : F6) (q : BitVec 3) : Statement (.qpeek d q) :=
  ofBase (.rr 0x31 3 (q.setWidth 6) 0 d) rfl rfl (fun _ _ => Eq.trans (b := some (.qpeek d ((q.setWidth 6).extractLsb' 0 3))) rfl (by simp only [back3])) (fun _ _ _ _ _ e e5 => by simp at e; rw [← e.1] at e5; exact absurd e5 (by decide))
    (fun _ _ hk _ => ⟨rfl, fits_rr (keep_b hk rfl) (keep_scale hk rfl) _ _ _ _ _⟩) rfl rfl rfl

theorem vrowSet (d a : F6) : Statement (.vrowSet d a) :=
  ofBase (.rr 0x32 0 0 a d) rfl rfl (fun _ _ => rfl) (fun _ _ _ _ _ e e5 => by simp at e; rw [← e.1] at e5; exact absurd e5 (by decide))
    (fun _ _ hk _ => ⟨rfl, fits_rr (keep_b hk rfl) (keep_scale hk rfl) _ _ _ _ _⟩) rfl rfl rfl

theorem vrowGet (d : F6) : Statement (.vrowGet d) :=
  ofBase (.rr 0x32 1 0 0 d) rfl rfl (fun _ _ => rfl) (fun _ _ _ _ _ e e5 => by simp at e; rw [← e.1] at e5; exact absurd e5 (by decide))
    (fun _ _ hk _ => ⟨rfl, fits_rr (keep_b hk rfl) (keep_scale hk rfl) _ _ _ _ _⟩) rfl rfl rfl

theorem logon : Statement .logon :=
  ofBase (.rr 0x33 0 0 0 0) rfl rfl (fun _ _ => rfl) (fun _ _ _ _ _ e e5 => by simp at e; rw [← e.1] at e5; exact absurd e5 (by decide))
    (fun _ _ hk _ => ⟨rfl, fits_rr (keep_b hk rfl) (keep_scale hk rfl) _ _ _ _ _⟩) rfl rfl rfl

theorem logoff : Statement .logoff :=
  ofBase (.rr 0x33 1 0 0 0) rfl rfl (fun _ _ => rfl) (fun _ _ _ _ _ e e5 => by simp at e; rw [← e.1] at e5; exact absurd e5 (by decide))
    (fun _ _ hk _ => ⟨rfl, fits_rr (keep_b hk rfl) (keep_scale hk rfl) _ _ _ _ _⟩) rfl rfl rfl

theorem logmark (a : F6) : Statement (.logmark a) :=
  ofBase (.rr 0x33 2 0 a 0) rfl rfl (fun _ _ => rfl) (fun _ _ _ _ _ e e5 => by simp at e; rw [← e.1] at e5; exact absurd e5 (by decide))
    (fun _ _ hk _ => ⟨rfl, fits_rr (keep_b hk rfl) (keep_scale hk rfl) _ _ _ _ _⟩) rfl rfl rfl

theorem mmul (o : XOp) : Statement (.mmul o) :=
  ofX 0x38 0 o rfl rfl (by decide) rfl (fun hc => keep_scale (k := (xopKeep (.mmul o)).2.2) (congrArg XOp.x (Instr.mmul.inj hc)) rfl) (fun _ _ => rfl)

theorem mmult (o : XOp) : Statement (.mmult o) :=
  ofX 0x38 1 o rfl rfl (by decide) rfl (fun hc => keep_scale (k := (xopKeep (.mmult o)).2.2) (congrArg XOp.x (Instr.mmult.inj hc)) rfl) (fun _ _ => rfl)

theorem mgrp (o : XOp) : Statement (.mgrp o) :=
  ofX 0x38 2 o rfl rfl (by decide) rfl (fun hc => keep_scale (k := (xopKeep (.mgrp o)).2.2) (congrArg XOp.x (Instr.mgrp.inj hc)) rfl) (fun _ _ => rfl)

theorem mq4 (o : XOp) : Statement (.mq4 o) :=
  ofX 0x38 3 o rfl rfl (by decide) rfl (fun hc => keep_scale (k := (xopKeep (.mq4 o)).2.2) (congrArg XOp.x (Instr.mq4.inj hc)) rfl) (fun _ _ => rfl)

theorem msacc (o : XOp) : Statement (.msacc o) :=
  ofX 0x38 4 o rfl rfl (by decide) rfl (fun hc => keep_scale (k := (xopKeep (.msacc o)).2.2) (congrArg XOp.x (Instr.msacc.inj hc)) rfl) (fun _ _ => rfl)

theorem mzero (o : XOp) : Statement (.mzero o) :=
  ofX 0x38 5 o rfl rfl (by decide) rfl (fun hc => keep_scale (k := (xopKeep (.mzero o)).2.2) (congrArg XOp.x (Instr.mzero.inj hc)) rfl) (fun _ _ => rfl)

theorem mldz (o : XOp) : Statement (.mldz o) :=
  ofX 0x38 6 o rfl rfl (by decide) rfl (fun hc => keep_scale (k := (xopKeep (.mldz o)).2.2) (congrArg XOp.x (Instr.mldz.inj hc)) rfl) (fun _ _ => rfl)

theorem mstz (o : XOp) : Statement (.mstz o) :=
  ofX 0x38 7 o rfl rfl (by decide) rfl (fun hc => keep_scale (k := (xopKeep (.mstz o)).2.2) (congrArg XOp.x (Instr.mstz.inj hc)) rfl) (fun _ _ => rfl)

theorem mrd (o : XOp) : Statement (.mrd o) :=
  ofX 0x38 8 o rfl rfl (by decide) rfl (fun hc => keep_scale (k := (xopKeep (.mrd o)).2.2) (congrArg XOp.x (Instr.mrd.inj hc)) rfl) (fun _ _ => rfl)

theorem mwr (o : XOp) : Statement (.mwr o) :=
  ofX 0x38 9 o rfl rfl (by decide) rfl (fun hc => keep_scale (k := (xopKeep (.mwr o)).2.2) (congrArg XOp.x (Instr.mwr.inj hc)) rfl) (fun _ _ => rfl)

theorem mrec (o : XOp) : Statement (.mrec o) :=
  ofX 0x38 10 o rfl rfl (by decide) rfl (fun hc => keep_scale (k := (xopKeep (.mrec o)).2.2) (congrArg XOp.x (Instr.mrec.inj hc)) rfl) (fun _ _ => rfl)

theorem mcmd (o : XOp) : Statement (.mcmd o) :=
  ofX 0x38 11 o rfl rfl (by decide) rfl (fun hc => keep_scale (k := (xopKeep (.mcmd o)).2.2) (congrArg XOp.x (Instr.mcmd.inj hc)) rfl) (fun _ hc => by
    have h : o.x.x.getLsbD 1 = false := by
      have e := congrArg Ext.x (congrArg XOp.x (Instr.mcmd.inj hc))
      rw [← e]
      show (o.x.x &&& (0 ||| (0 : BitVec 4))).getLsbD 1 = false
      simp
    show (if o.x.x.getLsbD 1 then some (Instr.mcmdGrant o) else some (Instr.mcmd o)) = _
    rw [h]
    rfl)

theorem mcmdGrant (o : XOp) : Statement (.mcmdGrant o) :=
  ofX 0x38 11 o rfl rfl (by decide) rfl (fun hc => keep_scale (k := (xopKeep (.mcmdGrant o)).2.2) (congrArg XOp.x (Instr.mcmdGrant.inj hc)) rfl) (fun hw _ => by
    show (if o.x.x.getLsbD 1 then some (Instr.mcmdGrant o) else some (Instr.mcmd o)) = _
    exact if_pos hw)

theorem mwait (o : XOp) : Statement (.mwait o) :=
  ofX 0x38 12 o rfl rfl (by decide) rfl (fun hc => keep_scale (k := (xopKeep (.mwait o)).2.2) (congrArg XOp.x (Instr.mwait.inj hc)) rfl) (fun _ _ => rfl)

theorem tnew (o : XOp) : Statement (.tnew o) :=
  ofX 0x39 0 o rfl rfl (by decide) rfl (fun hc => keep_scale (k := (xopKeep (.tnew o)).2.2) (congrArg XOp.x (Instr.tnew.inj hc)) rfl) (fun _ _ => rfl)

theorem tfree (o : XOp) : Statement (.tfree o) :=
  ofX 0x39 1 o rfl rfl (by decide) rfl (fun hc => keep_scale (k := (xopKeep (.tfree o)).2.2) (congrArg XOp.x (Instr.tfree.inj hc)) rfl) (fun _ _ => rfl)

theorem tvst (o : XOp) : Statement (.tvst o) :=
  ofX 0x39 2 o rfl rfl (by decide) rfl (fun hc => keep_scale (k := (xopKeep (.tvst o)).2.2) (congrArg XOp.x (Instr.tvst.inj hc)) rfl) (fun _ _ => rfl)

theorem tvld (o : XOp) : Statement (.tvld o) :=
  ofX 0x39 3 o rfl rfl (by decide) rfl (fun hc => keep_scale (k := (xopKeep (.tvld o)).2.2) (congrArg XOp.x (Instr.tvld.inj hc)) rfl) (fun _ _ => rfl)

theorem tvldc (o : XOp) : Statement (.tvldc o) :=
  ofX 0x39 4 o rfl rfl (by decide) rfl (fun hc => keep_scale (k := (xopKeep (.tvldc o)).2.2) (congrArg XOp.x (Instr.tvldc.inj hc)) rfl) (fun _ _ => rfl)

theorem tvw (o : XOp) : Statement (.tvw o) :=
  ofX 0x39 5 o rfl rfl (by decide) rfl (fun hc => keep_scale (k := (xopKeep (.tvw o)).2.2) (congrArg XOp.x (Instr.tvw.inj hc)) rfl) (fun _ _ => rfl)

theorem tdecl (o : XOp) : Statement (.tdecl o) :=
  ofX 0x39 6 o rfl rfl (by decide) rfl (fun hc => keep_scale (k := (xopKeep (.tdecl o)).2.2) (congrArg XOp.x (Instr.tdecl.inj hc)) rfl) (fun _ _ => rfl)

theorem tten (o : XOp) : Statement (.tten o) :=
  ofX 0x39 7 o rfl rfl (by decide) rfl (fun hc => keep_scale (k := (xopKeep (.tten o)).2.2) (congrArg XOp.x (Instr.tten.inj hc)) rfl) (fun _ _ => rfl)

theorem trel (o : XOp) : Statement (.trel o) :=
  ofX 0x39 8 o rfl rfl (by decide) rfl (fun hc => keep_scale (k := (xopKeep (.trel o)).2.2) (congrArg XOp.x (Instr.trel.inj hc)) rfl) (fun _ _ => rfl)

theorem tsplit (o : XOp) : Statement (.tsplit o) :=
  ofX 0x39 9 o rfl rfl (by decide) rfl (fun hc => keep_scale (k := (xopKeep (.tsplit o)).2.2) (congrArg XOp.x (Instr.tsplit.inj hc)) rfl) (fun _ _ => rfl)

theorem tmerge (o : XOp) : Statement (.tmerge o) :=
  ofX 0x39 10 o rfl rfl (by decide) rfl (fun hc => keep_scale (k := (xopKeep (.tmerge o)).2.2) (congrArg XOp.x (Instr.tmerge.inj hc)) rfl) (fun _ _ => rfl)

theorem thalo (o : XOp) : Statement (.thalo o) :=
  ofX 0x39 11 o rfl rfl (by decide) rfl (fun hc => keep_scale (k := (xopKeep (.thalo o)).2.2) (congrArg XOp.x (Instr.thalo.inj hc)) rfl) (fun _ _ => rfl)

theorem cas (o : XOp) : Statement (.cas o) :=
  ofX 0x3A 0 o rfl rfl (by decide) rfl (fun hc => keep_scale (k := (xopKeep (.cas o)).2.2) (congrArg XOp.x (Instr.cas.inj hc)) rfl) (fun _ _ => rfl)

theorem casq (o : XOp) : Statement (.casq o) :=
  ofX 0x3A 1 o rfl rfl (by decide) rfl (fun hc => keep_scale (k := (xopKeep (.casq o)).2.2) (congrArg XOp.x (Instr.casq.inj hc)) rfl) (fun _ _ => rfl)

theorem ldacq (o : XOp) : Statement (.ldacq o) :=
  ofX 0x3A 2 o rfl rfl (by decide) rfl (fun hc => keep_scale (k := (xopKeep (.ldacq o)).2.2) (congrArg XOp.x (Instr.ldacq.inj hc)) rfl) (fun _ _ => rfl)

theorem strel (o : XOp) : Statement (.strel o) :=
  ofX 0x3A 3 o rfl rfl (by decide) rfl (fun hc => keep_scale (k := (xopKeep (.strel o)).2.2) (congrArg XOp.x (Instr.strel.inj hc)) rfl) (fun _ _ => rfl)

theorem cp (o : XOp) : Statement (.cp o) :=
  ofX 0x3B 0 o rfl rfl (by decide) rfl (fun hc => keep_scale (k := (xopKeep (.cp o)).2.2) (congrArg XOp.x (Instr.cp.inj hc)) rfl) (fun _ _ => rfl)

theorem cp2d (o : XOp) : Statement (.cp2d o) :=
  ofX 0x3B 1 o rfl rfl (by decide) rfl (fun hc => keep_scale (k := (xopKeep (.cp2d o)).2.2) (congrArg XOp.x (Instr.cp2d.inj hc)) rfl) (fun _ _ => rfl)

theorem cpf (o : XOp) : Statement (.cpf o) :=
  ofX 0x3B 2 o rfl rfl (by decide) rfl (fun hc => keep_scale (k := (xopKeep (.cpf o)).2.2) (congrArg XOp.x (Instr.cpf.inj hc)) rfl) (fun _ _ => rfl)

theorem cpg (o : XOp) : Statement (.cpg o) :=
  ofX 0x3B 3 o rfl rfl (by decide) rfl (fun hc => keep_scale (k := (xopKeep (.cpg o)).2.2) (congrArg XOp.x (Instr.cpg.inj hc)) rfl) (fun _ _ => rfl)

theorem cps (o : XOp) : Statement (.cps o) :=
  ofX 0x3B 4 o rfl rfl (by decide) rfl (fun hc => keep_scale (k := (xopKeep (.cps o)).2.2) (congrArg XOp.x (Instr.cps.inj hc)) rfl) (fun _ _ => rfl)

theorem cpq (o : XOp) : Statement (.cpq o) :=
  ofX 0x3B 5 o rfl rfl (by decide) rfl (fun hc => keep_scale (k := (xopKeep (.cpq o)).2.2) (congrArg XOp.x (Instr.cpq.inj hc)) rfl) (fun _ _ => rfl)

theorem rld (o : XOp) : Statement (.rld o) :=
  ofX 0x3C 0 o rfl rfl (by decide) rfl (fun hc => keep_scale (k := (xopKeep (.rld o)).2.2) (congrArg XOp.x (Instr.rld.inj hc)) rfl) (fun _ _ => rfl)

theorem rst (o : XOp) : Statement (.rst o) :=
  ofX 0x3C 1 o rfl rfl (by decide) rfl (fun hc => keep_scale (k := (xopKeep (.rst o)).2.2) (congrArg XOp.x (Instr.rst.inj hc)) rfl) (fun _ _ => rfl)

theorem ramo (o : XOp) : Statement (.ramo o) :=
  ofX 0x3C 2 o rfl rfl (by decide) rfl (fun hc => keep_scale (k := (xopKeep (.ramo o)).2.2) (congrArg XOp.x (Instr.ramo.inj hc)) rfl) (fun _ _ => rfl)

theorem rcas (o : XOp) : Statement (.rcas o) :=
  ofX 0x3C 3 o rfl rfl (by decide) rfl (fun hc => keep_scale (k := (xopKeep (.rcas o)).2.2) (congrArg XOp.x (Instr.rcas.inj hc)) rfl) (fun _ _ => rfl)

theorem rcall (o : XOp) : Statement (.rcall o) :=
  ofX 0x3C 4 o rfl rfl (by decide) rfl (fun hc => keep_scale (k := (xopKeep (.rcall o)).2.2) (congrArg XOp.x (Instr.rcall.inj hc)) rfl) (fun _ _ => rfl)

theorem rnote (o : XOp) : Statement (.rnote o) :=
  ofX 0x3C 5 o rfl rfl (by decide) rfl (fun hc => (congrArg Ext.scale (congrArg XOp.x (Instr.rnote.inj hc))).symm.trans (Bool.false_and o.x.scale)) (fun _ _ => rfl)

theorem rfence (o : XOp) : Statement (.rfence o) :=
  ofX 0x3C 6 o rfl rfl (by decide) rfl (fun hc => keep_scale (k := (xopKeep (.rfence o)).2.2) (congrArg XOp.x (Instr.rfence.inj hc)) rfl) (fun _ _ => rfl)

theorem rget (o : XOp) : Statement (.rget o) :=
  ofX 0x3C 7 o rfl rfl (by decide) rfl (fun hc => keep_scale (k := (xopKeep (.rget o)).2.2) (congrArg XOp.x (Instr.rget.inj hc)) rfl) (fun _ _ => rfl)

theorem rput (o : XOp) : Statement (.rput o) :=
  ofX 0x3C 8 o rfl rfl (by decide) rfl (fun hc => keep_scale (k := (xopKeep (.rput o)).2.2) (congrArg XOp.x (Instr.rput.inj hc)) rfl) (fun _ _ => rfl)

theorem rkreg (o : XOp) : Statement (.rkreg o) :=
  ofX 0x3D 0 o rfl rfl (by decide) rfl (fun hc => keep_scale (k := (xopKeep (.rkreg o)).2.2) (congrArg XOp.x (Instr.rkreg.inj hc)) rfl) (fun _ _ => rfl)

theorem rkrev (o : XOp) : Statement (.rkrev o) :=
  ofX 0x3D 1 o rfl rfl (by decide) rfl (fun hc => keep_scale (k := (xopKeep (.rkrev o)).2.2) (congrArg XOp.x (Instr.rkrev.inj hc)) rfl) (fun _ _ => rfl)

theorem mighint (o : XOp) : Statement (.mighint o) :=
  ofX 0x3D 2 o rfl rfl (by decide) rfl (fun hc => keep_scale (k := (xopKeep (.mighint o)).2.2) (congrArg XOp.x (Instr.mighint.inj hc)) rfl) (fun _ _ => rfl)

theorem pgpin (o : XOp) : Statement (.pgpin o) :=
  ofX 0x3D 3 o rfl rfl (by decide) rfl (fun hc => keep_scale (k := (xopKeep (.pgpin o)).2.2) (congrArg XOp.x (Instr.pgpin.inj hc)) rfl) (fun _ _ => rfl)

theorem pgret (o : XOp) : Statement (.pgret o) :=
  ofX 0x3D 4 o rfl rfl (by decide) rfl (fun hc => keep_scale (k := (xopKeep (.pgret o)).2.2) (congrArg XOp.x (Instr.pgret.inj hc)) rfl) (fun _ _ => rfl)

theorem logring (o : XOp) : Statement (.logring o) :=
  ofX 0x3D 5 o rfl rfl (by decide) rfl (fun hc => keep_scale (k := (xopKeep (.logring o)).2.2) (congrArg XOp.x (Instr.logring.inj hc)) rfl) (fun _ _ => rfl)

theorem keyset (o : XOp) : Statement (.keyset o) :=
  ofX 0x3D 6 o rfl rfl (by decide) rfl (fun hc => keep_scale (k := (xopKeep (.keyset o)).2.2) (congrArg XOp.x (Instr.keyset.inj hc)) rfl) (fun _ _ => rfl)

theorem coreseal (o : XOp) : Statement (.coreseal o) :=
  ofX 0x3D 7 o rfl rfl (by decide) rfl (fun hc => keep_scale (k := (xopKeep (.coreseal o)).2.2) (congrArg XOp.x (Instr.coreseal.inj hc)) rfl) (fun _ _ => rfl)

theorem launch (o : XOp) : Statement (.launch o) :=
  ofX 0x3E 0 o rfl rfl (by decide) rfl (fun hc => keep_scale (k := (xopKeep (.launch o)).2.2) (congrArg XOp.x (Instr.launch.inj hc)) rfl) (fun _ _ => rfl)

theorem tspawn (o : XOp) : Statement (.tspawn o) :=
  ofX 0x3E 1 o rfl rfl (by decide) rfl (fun hc => keep_scale (k := (xopKeep (.tspawn o)).2.2) (congrArg XOp.x (Instr.tspawn.inj hc)) rfl) (fun _ _ => rfl)

theorem lwait (o : XOp) : Statement (.lwait o) :=
  ofX 0x3E 2 o rfl rfl (by decide) rfl (fun hc => keep_scale (k := (xopKeep (.lwait o)).2.2) (congrArg XOp.x (Instr.lwait.inj hc)) rfl) (fun _ _ => rfl)

theorem prio (o : XOp) : Statement (.prio o) :=
  ofX 0x3E 3 o rfl rfl (by decide) rfl (fun hc => keep_scale (k := (xopKeep (.prio o)).2.2) (congrArg XOp.x (Instr.prio.inj hc)) rfl) (fun _ _ => rfl)

theorem resetRelease : Statement .resetRelease :=
  ofNone rfl rfl (fun h => absurd h Bool.false_ne_true)

theorem lossOfMainRails : Statement .lossOfMainRails :=
  ofNone rfl rfl (fun h => absurd h Bool.false_ne_true)

theorem linkRetrained (link : LinkId) : Statement (.linkRetrained link) :=
  ofNone rfl rfl (fun h => absurd h Bool.false_ne_true)

theorem zenithStateLost (die : Nat) : Statement (.zenithStateLost die) :=
  ofNone rfl rfl (fun h => absurd h Bool.false_ne_true)

theorem queueCreditReturn (t : ThrId) (q : Nat) : Statement (.queueCreditReturn t q) :=
  ofNone rfl rfl (fun h => absurd h Bool.false_ne_true)

theorem unallocatedEncoding (e : EncFault) : Statement (.unallocatedEncoding e) :=
  ofNone rfl rfl (fun h => absurd h Bool.false_ne_true)

theorem instructionFetchFault (e : FetchFault) : Statement (.instructionFetchFault e) :=
  ofNone rfl rfl (fun h => absurd h Bool.false_ne_true)

end Sys2Proof.Laws.Codec
end

