-- ==== Sys2Proof/Laws/Refs.lean ====
section
/-!
SUPPORT. The traps of a capability operand (R13, R14, R319).
-/
namespace Sys2Proof.Machine
open Sys2Proof Sys2Proof.Safety

theorem chk_tag {f : F6} {c : Cap} {ts : List Nat} {ps : List Perm} (h : c.tag = false) : checkCap f c ts ps = .error (.trap causeCapTag (f.setWidth 64) []) := by
  simp [checkCap, trapIf, h, bind, Except.bind]

theorem chk_type {f : F6} {c : Cap} {ts : List Nat} {ps : List Perm} (h : c.tag = true) (h2 : ts.contains c.kind = false) : checkCap f c ts ps = .error (.trap causeCapType (f.setWidth 64) []) := by
  simp only [checkCap, trapIf, h, h2, bind, Except.bind, Bool.not_true, Bool.not_false, Bool.false_eq_true, if_false, if_true]

theorem chk_perm {f : F6} {c : Cap} {ts : List Nat} {ps : List Perm} (h : c.tag = true) (h2 : ts.contains c.kind = true) (h3 : ps.all (capHas c) = false) : checkCap f c ts ps = .error (.trap causeCapPerm (f.setWidth 64) []) := by
  simp only [checkCap, trapIf, h, h2, h3, bind, Except.bind, Bool.not_true, Bool.not_false, Bool.false_eq_true, if_false, if_true]

theorem chk_ok {f : F6} {c : Cap} {ts : List Nat} {ps : List Perm} (h : c.tag = true) (h2 : ts.contains c.kind = true) (h3 : ps.all (capHas c) = true) : checkCap f c ts ps = .ok () := checkCap_ok h h2 h3

theorem bnd_low {c : Cap} {a n : Nat} (hk : c.kind = 0 ∨ c.kind = 1) (hn : n ≠ 0) (h : a < c.base ∨ c.top ≤ a) : checkBounds c a n = .error (.trap causeCapBounds (BitVec.ofNat 64 a) []) := by
  unfold checkBounds
  rw [if_neg (by omega), if_neg hn, if_pos h]

theorem bnd_high {c : Cap} {a n : Nat} (hk : c.kind = 0 ∨ c.kind = 1) (hn : n ≠ 0) (h : ¬(a < c.base ∨ c.top ≤ a)) (h2 : c.top < a + n) : checkBounds c a n = .error (.trap causeCapBounds (BitVec.ofNat 64 c.top) []) := by
  unfold checkBounds
  rw [if_neg (by omega), if_neg hn, if_neg h, if_pos h2]

theorem sz_pos (sz : BitVec 3) : szBytes sz ≠ 0 := by unfold szBytes; positivity

theorem ref_tag {r : MRef} {ps : List Perm} {n : Nat} (h : r.c.tag = false) : checkRef r ps n = .error (.trap causeCapTag (r.f.setWidth 64) []) := by
  simp only [checkRef, chk_tag h, bind, Except.bind]

theorem ref_type {r : MRef} {ps : List Perm} {n : Nat} (h : r.c.tag = true) (h2 : [0, 1, 6].contains r.c.kind = false) : checkRef r ps n = .error (.trap causeCapType (r.f.setWidth 64) []) := by
  simp only [checkRef, chk_type h h2, bind, Except.bind]

theorem ref_perm {r : MRef} {ps : List Perm} {n : Nat} (h : r.c.tag = true) (h2 : [0, 1, 6].contains r.c.kind = true) (h3 : ps.all (capHas r.c) = false) : checkRef r ps n = .error (.trap causeCapPerm (r.f.setWidth 64) []) := by
  simp only [checkRef, chk_perm h h2 h3, bind, Except.bind]

theorem k016 {k : Nat} (h : k = 0 ∨ k = 1) : [0, 1, 6].contains k = true := by rcases h with rfl | rfl <;> decide

theorem ref_low {r : MRef} {ps : List Perm} {n : Nat} (h : r.c.tag = true) (hk : r.c.kind = 0 ∨ r.c.kind = 1) (h3 : ps.all (capHas r.c) = true) (hn : n ≠ 0) (hb : r.va < r.c.base ∨ r.c.top ≤ r.va) :
    checkRef r ps n = .error (.trap causeCapBounds (BitVec.ofNat 64 r.va) []) := by
  simp only [checkRef, chk_ok h (k016 hk) h3, bnd_low hk hn hb, bind, Except.bind]

theorem ref_high {r : MRef} {ps : List Perm} {n : Nat} (h : r.c.tag = true) (hk : r.c.kind = 0 ∨ r.c.kind = 1) (h3 : ps.all (capHas r.c) = true) (hn : n ≠ 0) (hb : r.c.base ≤ r.va ∧ r.va < r.c.top) (h4 : r.c.top < r.va + n) :
    checkRef r ps n = .error (.trap causeCapBounds (BitVec.ofNat 64 r.c.top) []) := by
  simp only [checkRef, chk_ok h (k016 hk) h3, bnd_high hk hn (by omega) h4, bind, Except.bind]

theorem ref_mis {r : MRef} {ps : List Perm} {n : Nat} (h : r.c.tag = true) (hk : r.c.kind = 0 ∨ r.c.kind = 1) (h3 : ps.all (capHas r.c) = true) (hb : r.c.base ≤ r.va ∧ r.va + n ≤ r.c.top) (h4 : r.va % n ≠ 0) :
    checkRef r ps n = .error (.trap causeMisaligned (BitVec.ofNat 64 r.va) []) := by
  have h5 : (r.va % n != 0) = true := by simpa using h4
  simp only [checkRef, chk_ok h (k016 hk) h3, checkBounds_ok hb.1 hb.2, checkAligned, trapIf, h5, if_true, bind, Except.bind]

theorem ld_stop {m : M} {sx : Bool} {sz : BitVec 3} {ord : BitVec 2} {sc : Scope} {d : F6} {r : MRef} {e : Stop} (h : checkRef r [.ld] (szBytes sz) = .error e) : m.loadTo sx sz ord sc d r = .error e := by
  simp only [M.loadTo, h, bind, Except.bind]

theorem st_stop {m : M} {sz : BitVec 3} {ord : BitVec 2} {sc : Scope} {v : Cap} {r : MRef} {e : Stop} (h0 : m.restart = false) (h : checkRef r (if szBytes sz = 16 ∧ v.tag then [.st, .tgw] else [.st]) (szBytes sz) = .error e) : m.storeFrom sz ord sc v r = .error e := by
  simp only [M.storeFrom, M.restartCheck, h0, Bool.false_and, trapIf, Bool.false_eq_true, if_false, h, bind, Except.bind]

end Sys2Proof.Machine
end

