-- ==== Sys2Proof/Laws/Stores.lean ====
section
/-!
SUPPORT. A local store and the update of its base: all that they do.
-/
namespace Sys2Proof.Machine
open Sys2Proof Sys2Proof.Safety

theorem storedLocal_eq {m : M} {a n v : Nat} {tag : Option Bool} (h : a + n ≤ 0x3C000) (hn : tag ≠ none → n ≠ 0) (hw : m.core.mem.wf = true) :
    ∃ dy me, storedLocal m a n v tag = { m with core := { m.core with dirty := dy, mem := me } } ∧ me.wf = true ∧ (∀ x, me.byte x = if a ≤ x ∧ x < a + n then (m.localWrite a n v).core.mem.byte x else m.core.mem.byte x) ∧
      me.read a n = v % 256 ^ n ∧ (∀ x, me.full x = m.core.mem.full x) ∧ (∀ x, (x / 16 < a / 16 ∨ (a + n - 1) / 16 < x / 16) → me.tag x = m.core.mem.tag x) ∧ (∀ t, tag = some t → me.tag a = t) := by
  have hb : ∀ x, (m.localWrite a n v).core.mem.byte x = if a ≤ x ∧ x < a + n then (m.localWrite a n v).core.mem.byte x else m.core.mem.byte x := by
    intro x
    split
    · rfl
    · rename_i hx
      rw [localWrite_byte h hw, if_neg hx]
  have hr : (m.localWrite a n v).core.mem.read a n = v % 256 ^ n := by
    have := localRead_write (m := m) (v := v) h hw
    rw [localRead_low h] at this; exact this
  have ht : ∀ x, (x / 16 < a / 16 ∨ (a + n - 1) / 16 < x / 16) → (m.localWrite a n v).core.mem.tag x = m.core.mem.tag x := by
    intro x hx; rw [localWrite_tag h hw, if_neg (by omega)]
  cases tag with
  | none => exact ⟨_, _, localWrite_low h, localWrite_wf h hw, hb, hr, fun x => localWrite_full h, ht, fun t e => by cases e⟩
  | some t =>
    have h0 : a < 0x3C000 := by have := hn (by simp); omega
    have hwf := localWrite_wf (v := v) h hw
    refine ⟨((m.localWrite a n v).core.soil a).dirty, (m.localWrite a n v).core.mem.setTag a t, ?_, Memory.wf_setTag hwf, fun x => (hb x), (by rw [Memory.read_congr (m' := (m.localWrite a n v).core.mem.setTag a t) (m := (m.localWrite a n v).core.mem) fun _ _ => rfl]; exact hr), fun x => localWrite_full h, fun x hx => ?_, fun t' e => ?_⟩
    · simp only [storedLocal, M.putLocalTag, inWindow_low h0, Bool.not_false, if_true]
      rw [localWrite_low (v := v) h]
      simp [Core.soil, inWindow_low h0]
    · rw [Memory.tag_setTag hwf, if_neg (by have := hn (by simp); omega)]; exact ht x hx
    · cases e; rw [Memory.tag_setTag hwf, if_pos rfl]

theorem update_eq (m : M) (f : F6) (ad : Addr) : ∃ st q c w ts, m.update f ad = { m with st := st, thr := { m.thr with c := c, q := q }, core := { m.core with w := w, thr := ts } } ∧ Quiet m.st st ∧
    (∀ r : Fin 32, r.val ≠ f.toNat ∨ ad.upd = none → c.get r = m.thr.c.get r) ∧ (∀ r : Fin 16, r.val + 32 ≠ f.toNat ∨ ad.upd = none → w.get r = m.core.w.get r) ∧
    (∀ x : Fin 8, { ts.get x with q := (m.core.thr.get x).q } = m.core.thr.get x) := by
  unfold M.update
  cases hu : ad.upd with
  | none => exact ⟨m.st, m.thr.q, m.thr.c, m.core.w, m.core.thr, rfl, Quiet.refl _, fun _ _ => rfl, fun _ _ => rfl, fun _ => rfl⟩
  | some c =>
    obtain ⟨st, q, c, w, ts, he, hq, h1, h2, h3⟩ := wr_eq m f c
    exact ⟨st, q, c, w, ts, he, hq, fun r hr => h1 r (.inl (hr.resolve_right (by simp))), fun r hr => h2 r (hr.resolve_right (by simp)), h3⟩

end Sys2Proof.Machine
end

