-- ==== Sys2Proof/Laws/Tiles.lean ====
section
/-!
SUPPORT. Tile operations: their checks passed.
-/
namespace Sys2Proof.Machine
open Sys2Proof Sys2Proof.Safety

theorem tileOp_ok {m : M} {a b : F6} {k : TKind} {need : List Nat} {fs : Option Scope} {r : TRef} (hr : r = tileRef m.st (m.src a) (m.int b))
    (h : r.fault m.st (m.int b) k need = none) (hs : (!r.own && fs.elim false (fun sc => !fabric sc)) = false)
    (hv : (!Cap.tenured r.c && decide (65535 < r.ver)) = false) (hl : (r.own && !r.live m.st) = false) : m.tileOp a b k need fs = .ok r := by
  subst hr
  simp only [M.tileOp, h, trapIf, hs, hv, hl, Bool.false_eq_true, if_false, bind, Except.bind, pure, Except.pure]

theorem perms_iff {need : List Nat} {r : TRef} :
    ((!need.isEmpty && !need.any (Cap.tilePerm r.c)) || (!r.own && (Cap.tenured r.c || !Cap.tilePerm r.c tpRemote))) = false ↔
    ((need.isEmpty = true ∨ need.any (Cap.tilePerm r.c) = true) ∧ (r.own = true ∨ (Cap.tenured r.c = false ∧ Cap.tilePerm r.c tpRemote = true))) := by
  generalize need.any _ = x; generalize need.isEmpty = y; generalize r.own = z; generalize Cap.tenured _ = u; generalize Cap.tilePerm _ tpRemote = w
  cases x <;> cases y <;> cases z <;> cases u <;> cases w <;> simp

theorem withHolds_ok {body : Act} {m m1 : M} (h : body m = .ok m1) : withHolds body m = .ok m1 := by simp only [withHolds, h]

end Sys2Proof.Machine
end

