-- ==== Sys2Proof/Laws/Vector.lean ====
section
/-!
SUPPORT. Vector loads and stores of local memory.
-/
namespace Sys2Proof.Machine
open Sys2Proof Sys2Proof.Safety

theorem winAbsent_low {m : M} {a n : Nat} (h : a + n ≤ 0x3C000) : m.winAbsent a n = none := by
  rw [M.winAbsent, List.findSome?_eq_none_iff]
  intro i hi
  rw [List.mem_range] at hi
  rw [inWindow_low (show a + i < 0x3C000 by omega)]; rfl

theorem winPending_low {m : M} {a n : Nat} (h : a + n ≤ 0x3C000) : m.winPending a n = false := by
  rw [M.winPending, List.any_eq_false]
  intro i hi
  rw [List.mem_range] at hi
  rw [inWindow_low (show a + i < 0x3C000 by omega)]; simp

theorem velem_ok {m : M} {c : Cap} {a s : Nat} {w : Bool} (hk : c.kind = 1) (h1 : c.base ≤ a) (h2 : a + s ≤ c.top) (h3 : a % s = 0) (h4 : m.winCheck a s = .ok ()) :
    m.velemCheck c a s w = .ok () := by
  simp only [M.velemCheck, checkBounds_ok h1 h2, checkAligned_ok h3, bind, Except.bind]
  rw [if_pos hk, h4]

theorem vfaults_nil {m : M} {v : VAcc} {w : Bool} (h : ∀ j ∈ v.acts, m.velemCheck v.r.c (v.at_ j) v.s w = .ok ()) : m.vfaults v w = [] := by
  rw [M.vfaults, List.filterMap_eq_nil_iff]
  intro j hj
  rw [h j hj]

theorem foldlM_ok {α β : Type} {f : β → α → Except Stop β} {g : β → α → β} {P : β → Prop} {l : List α} (h : ∀ x ∈ l, ∀ b, P b → f b x = .ok (g b x) ∧ P (g b x))
    {b : β} (hb : P b) : l.foldlM f b = .ok (l.foldl g b) := by
  induction l generalizing b with
  | nil => rfl
  | cons x l ih =>
    have hx := h x (List.mem_cons_self ..) b hb
    rw [List.foldlM_cons, hx.1]
    exact ih (fun y hy => h y (List.mem_cons_of_mem _ hy)) hx.2

theorem foldl_pair {α : Type} {m : M} {g : V512 → α → V512} {l : List α} {w : V512} :
    l.foldl (fun (p : M × V512) x => (p.1, g p.2 x)) (m, w) = (m, l.foldl g w) := by
  induction l generalizing w with
  | nil => rfl
  | cons x l ih => exact ih

theorem tenured_nil (s : State) (x : BitVec 6) : tenured s x [] = [] := by
  simp only [tenured, List.filterMap_nil, List.flatMap_eq_nil_iff]
  intro d _
  rw [List.filterMap_eq_nil_iff]
  intro r _
  split <;> rfl

/-- A local access touches no byte of memory, so it is no one-shot access. -/
theorem uncovered_local {m : M} {v : VAcc} {js : List Nat} {w : Bool} (hk : v.r.c.kind = 1) : m.uncovered (v.touched js) w = [] := by
  have : v.touched js = [] := by simp [VAcc.touched, hk]
  rw [this, M.uncovered, tenured_nil]; rfl

theorem vload_local {m : M} {v : VAcc} {js : List Nat} {old : V512} (hk : v.r.c.kind = 1) (h : ∀ j ∈ js, m.winCheck (v.at_ j) v.s = .ok ()) :
    m.vloadAll v js old = .ok (m, js.foldl (fun r j => BitVec.ofNat 512 (putBytes r.toNat (v.s * j) v.s (m.localRead (v.at_ j) v.s))) old) := by
  rw [M.vloadAll, uncovered_local hk]
  simp only [List.filterM, List.filterAuxM, pure, Except.pure, bind, Except.bind, List.map_nil, List.foldl_nil]
  rw [foldlM_ok (P := fun b => b.1 = m) (g := fun (p : M × V512) j => (p.1, BitVec.ofNat 512 (putBytes p.2.toNat (v.s * j) v.s (m.localRead (v.at_ j) v.s)))) ?_ rfl,
    foldl_pair (g := fun r j => BitVec.ofNat 512 (putBytes r.toNat (v.s * j) v.s (m.localRead (v.at_ j) v.s)))]
  · rfl
  intro j hj b hb
  refine ⟨?_, hb⟩
  rw [hb, M.loadAt, if_pos hk, h j hj]
  rfl

theorem vstore_local {m : M} {c : Cap} {f : Nat → Nat} {s : Nat} {w : V512} {js : List Nat} (hk : c.kind = 1) (h : ∀ j ∈ js, f j + s ≤ 0x3C000) :
    js.foldlM (fun m j => m.storeAt c (f j) s (elem w s j) none false) m = .ok (js.foldl (fun m j => m.localWrite (f j) s (elem w s j)) m) := by
  refine foldlM_ok (P := fun _ => True) ?_ trivial
  intro j hj b _
  refine ⟨?_, trivial⟩
  have hj := h j hj
  rw [M.storeAt, if_pos hk, winCheck_ok (winAbsent_low hj) (winPending_low hj)]
  rfl

end Sys2Proof.Machine
end

