-- ==== Sys2Proof/Tests/Slice0.lean ====
section
/-!
SUPPORT. Ill-formed terms that the checks refuse; words written out from R273–R286 and the instructions they stand for; single
steps whose results are worked out from the rules; and for each obligation with hypotheses, states and operands that meet them.
-/
namespace Sys2Proof.Tests
open Sys2Proof Sys2Proof.Machine Sys2Proof.Safety

set_option Elab.async false

noncomputable section

/-! ## Terms that are no instruction -/

theorem test_no_words : wellFormed .powerGood = false ∧
    wellFormed (.pairWord { gp := false, gk := 0, sop := 15, d := 1, a := 2, b := 3 } (.vadd 0 1 2 3)) = false ∧
    wellFormed (.pairWord { gp := false, gk := 0, sop := 0, d := 1, a := 2, b := 3 } (.add 1 2 3)) = false ∧
    wellFormed (.widenedForm {} (.widenedForm {} (.add 1 2 3))) = false := by decide +kernel
theorem test_reserved_register : wellFormed (.add 9 56 3) = false ∧ wellFormed (.vadd 0 48 1 2) = false ∧
    wellFormed (.add 63 1 2) = false := by decide +kernel
theorem test_misplaced_literal : wellFormed (.add 9 63 3) = false ∧ wellFormed (.literalForm {} 5 (.add 9 2 3)) = false := by decide +kernel
theorem test_load_into_its_base : wellFormed (.ld 8 8 3 1 1) = false ∧ wellFormed (.lds 8 4 3 0 1) = false := by decide +kernel
theorem test_type_not_accepted : wellFormed (.vrcp 3 1 2) = false ∧ wellFormed (.vcvt 3 1 2 1) = false := by decide +kernel
theorem test_no_such_special_register : wellFormed (.mfs 4 0xFFF) = false := by decide +kernel
theorem test_unused_field_not_zero : wellFormed (.widenedForm { e := 4 } (.add 9 3 4)) = false ∧
    wellFormed (.widenedForm { sc := 3 } (.add 9 3 4)) = false ∧
    wellFormed (.rkrev { d := 9, a := 3, x := { b := 4 }, lit := none }) = false ∧
    wellFormed (.pairWord { gp := true, gk := 0, sop := 0, d := 1, a := 2, b := 3 } (.vadd 0 1 2 3)) = false := by decide +kernel
theorem test_scope_missing : wellFormed (.rld { d := 7, a := 5, x := { t2 := 3, ord := 1 }, lit := none }) = false ∧
    wellFormed (.rld { d := 7, a := 5, x := { t2 := 3, ord := 1, sc := 4 }, lit := none }) = true := by decide +kernel

/-! ## Words of every family -/

theorem test_decode_integer_words :
    decodeWords [0x5C40C904] = .ok (.subb 9 3 4) ∧
    decodeWords [0x8110C90C] = .ok (.srai 9 3 17) ∧
    decodeWords [0x1840C510] = .ok (.ctst 5 3 4) ∧
    decodeWords [0x8C40C914] = .ok (.bfi 9 3 4 6) ∧
    decodeWords [0x3440C918] = .ok (.sel 5 9 3 4) ∧
    decodeWords [0x5C018918] = .ok (.kfirst 9 6) := by decide +kernel

theorem test_decode_capability_words :
    decodeWords [0x1061471C] = .ok (.cset 7 5 6) ∧
    decodeWords [0xFFFF8724] = .ok (.adr 7 0x3FFFE) := by decide +kernel

theorem test_decode_memory_words :
    decodeWords [0xFA914944] = .ok (.lds 9 5 1 1 0x7D) ∧
    decodeWords [0x04214050] = .ok (.stfeSe 5 0 2) ∧
    decodeWords [0x04114950] = .ok (.stfeWef 9 5 0 2) ∧
    decodeWords [0x7C614754] = .ok (.amoSwap 7 5 6 3) ∧
    decodeWords [0xCC000058] = .ok (.fence 3 2 true) ∧
    decodeWords [0x0861405C] = .ok (.cwbinv 5 6) := by decide +kernel

theorem test_decode_control_words :
    decodeWords [0xFFFF1060] = .ok (.bra 0x3FFFC) ∧
    decodeWords [0x00C90964] = .ok (.blez 9 100) ∧
    decodeWords [0xFFFFFF68] = .ok (.jmp 0xFFFFFF) ∧
    decodeWords [0x0400C970] = .ok (.jalr 9 3) ∧
    decodeWords [0x00030974] = .ok (.loop 9 12) ∧
    decodeWords [0x18508078] = .ok (.brk 133) ∧
    decodeWords [0x0C80037C] = .ok (.mts 3 8) := by decide +kernel

theorem test_decode_vector_words :
    decodeWords [0xD040C984] = .ok (.vmulh 4 9 3 4) ∧
    decodeWords [0xCC40C28C] = .ok (.vcltu 3 2 3 4) ∧
    decodeWords [0x2D00C990] = .ok (.vcvtSat 3 9 3 16) ∧
    decodeWords [0x8040C994] = .ok (.vins 0 9 3 4) ∧
    decodeWords [0xEC00C998] = .ok (.vrsum 3 9 3) ∧
    decodeWords [0xE000C99C] = .ok (.vsigm 0 9 3) ∧
    decodeWords [0x069149A4] = .ok (.vst 9 5 1 1 3) ∧
    decodeWords [0x8040C9A8] = .ok (.vbsc 9 3 4) ∧
    decodeWords [0x8030C9AC] = .ok (.vwbc 0 9 3 3) := by decide +kernel

theorem test_decode_tile_and_queue_words :
    decodeWords [0x1040C0C0] = .ok (.tdropAll 3 4) ∧
    decodeWords [0x0C2009C4] = .ok (.qpeek 9 2) ∧
    decodeWords [0x0000C9C8] = .ok (.vrowSet 9 3) ∧
    decodeWords [0x0800C0CC] = .ok (.logmark 3) ∧
    decodeWords [0x185100E6, 0x000002C0, 0x00000023] = .ok (.thalo { d := 0, a := 4, x := { b := 5, c := 6, imm := 35 }, lit := none }) := by decide +kernel

theorem test_decode_extended_words :
    decodeWords [0x000000E2, 0x00000300, 0x00000000] = .ok (.mwait { d := 0, a := 0, x := {}, lit := none }) ∧
    decodeWords [0x248147EA, 0x0404004B, 0x00000000] = .ok (.casq { d := 7, a := 5, x := { b := 8, c := 9, e := 11, sc := 4, t2 := 4 }, lit := none }) ∧
    decodeWords [0x185103EE, 0x00000140, 0x00000000] = .ok (.cpq { d := 3, a := 4, x := { b := 5, c := 6 }, lit := none }) ∧
    decodeWords [0x005103F2, 0x00000200, 0x00000800] = .ok (.rput { d := 3, a := 4, x := { b := 5, imm := 2048 }, lit := none }) ∧
    decodeWords [0x000103F6, 0x000001C0, 0x00000000] = .ok (.coreseal { d := 3, a := 4, x := {}, lit := none }) ∧
    decodeWords [0x000100FA, 0x000000C0, 0x00000000] = .ok (.prio { d := 0, a := 4, x := {}, lit := none }) := by decide +kernel

theorem test_decode_longer_forms :
    decodeWords [0x03F0C907, 0x00000000, 0x00000000, 0x55667788, 0x11223344] = .ok (.literalForm {} 0x1122334455667788 (.add 9 3 63)) ∧
    decodeWords [0x0000C9AE, 0x0800A000, 0x00000000] = .ok (.widenedForm { k := 2, z := true, t2 := 8 } (.vmov 0 9 3)) ∧
    decodeWords [0x40104415, 0x00D18084] = .ok (.pairWord { gp := true, gk := 2, sop := 16, d := 4, a := 4, b := 0x40 } (.vfma 0 0 6 13)) := by decide +kernel

/-! ## Witnesses: a state and operands that meet the hypotheses of each clause of each statement -/

/-- A capability to all of local memory below the register window, cursor 0x100. -/
def capLocal : Cap := mkCap 1 0 0x3C000 0x100 0xFFF
/-- A capability to the placed page. -/
def capMem : Cap := mkCap 0 0 0x1000000 0x10000 0xFFF
/-- A remote and a launch window. -/
def capRemote : Cap := mkWindow 3 0x3F 0xFFFF 0x00100000 0
def capLaunch : Cap := mkWindow 6 0x3F 0xFFFF 0x00000000 0x100

def t0 : Thread :=
  { pc := capMem, run := .ready
    c := (((((((((Vector.replicate 32 Cap.zero).set 1 capLocal).set 2 capMem).set 3 (Cap.ofInt 5)).set 4 (Cap.ofInt (-7))).set 6 capLaunch).set 7
      capRemote).set 10 ⟨setField capMem.bits 118 4 4, true⟩).set 11 (Cap.ofInt 64)).set 30 capMem
    k := (Vector.replicate 8 0).set 1 (-1) }

def core0 : Core := { placedCore with thr := (Vector.replicate 8 {}).set 0 t0 }

/-- One core with one ready thread. -/
def S : State := (State.reset.place 1 0).setCore core0
/-- The same with the core, or the thread, changed. -/
def onCore (f : Core → Core) : State := S.setCore (f core0)
def onThread (f : Thread → Thread) : State := onCore fun c => { c with thr := c.thr.set 0 (f t0) }

/-- The same with the thread in system mode. -/
def Ssys : State := onThread fun t => { t with status := 1, trappc := capMem }

/-- The same with the local word at 0x100 empty. -/
def Sempty : State := onCore fun c => { c with mem := { c.mem with empty := [0x20] } }

/-- A name with one live version and a tenured region, with handles in c12 (version 1), c13 (version 2) and c14 (the region). -/
def name1 : TName := { name := 1, rows := 4, cols := 4, vers := [{ ver := 1, st := .live, readers := some 1, data := [7] }] }
def region1 : TRegion := { num := 1, base := 0x10100, rows := 8, cols := 8, stride := 64 }
def tileSet (n : TName) (r : TRegion) (s : State) : State := s.setDie 0 fun d => { d with names := [n], tregions := [r], tilePages := [0x30000] }
def withTiles (t : Thread) : Thread :=
  { t with c := (((((((t.c.set 12 (mkHandle false (1 + 2 ^ 32) 0 0xFFFF 0xC3 0xFF)).set 13 (mkHandle false (1 + 2 ^ 33) 0 0xFFFF 0xC3 0xFF)).set 14
      (mkHandle true 1 0 0xFFFF 0xC3 0xFF)).set 15 ⟨BitVec.ofNat 128 (0x10100 + 7 * 2 ^ 72 + 7 * 2 ^ 84 + 64 * 2 ^ 96), false⟩).set 16
        (Cap.ofInt (3 * 2 ^ 48 + 3 * 2 ^ 54))).set 17
        (mkHandle false (1 + 2 ^ 32) 0 0xFFFF 0xC3 0)).set 18 (Cap.ofInt 5)).set 19 (mkHandle false (1 + 2 ^ 32) 9 0xFFFF 0xC3 0xFF) }
def tcore (f : Core → Core) : State := onCore fun c => f { c with thr := c.thr.set 0 (withTiles t0) }
def ST : State := tileSet name1 region1 (tcore id)

/-- The launch of core 0, running. -/
def launch0 : Launch := { id := 0, ctx := 0, lrec := { matrix := true, n := 2 }, desc := { codecap := capMem, v := true }, phase := .running, next := 1 }
def withLaunch (s : State) : State := s.setDie 0 fun d => { d with launches := [launch0] }
def SL : State := withLaunch S

/-- A context with a descriptor, and a launch record at 0x10000 in the placed page; one quad is fitted. -/
def SRec : State :=
  let s : State := S.setDie 0 fun d => { d with quadMap := [0] }
  let v := 1 + 0x3F * 2 ^ 16 + capMem.bits.toNat * 2 ^ 256 + capMem.bits.toNat * 2 ^ 384
  let r := 1 + 0xFF * 2 ^ 32 + 0xFFFFFFFF * 2 ^ 96 + 0x10000 * 2 ^ 192
  { s with ctxtb := 0x40001, mem := { ((s.mem.write 0x40000 64 v).write 0x10000 256 r) with tags := [0x4002, 0x4003] } }

/-- The table of the thread's context: a node that names itself, and the leaf of the page at 0x10000. -/
def withPage (s : State) : State :=
  { s with mem := (s.mem.write 0x4000 8 0x4003).write 0x4010 16 (0x100F5 + 0x0000000FFFFFFFFF * 2 ^ 64) }
def SPage : State := withPage (onCore fun c => { c with desc := { c.desc with ptroot := 1 }, thr := c.thr.set 0 { t0 with status := 1 } })
/-- The access table of the register block's station admits the thread. -/
def SReg : State := Ssys.setDie 0 fun d => { d with access := insEntry 1100 0 placedEntry d.access }
def SCoreReg : State := SReg.setDie 0 fun d => { d with quadMap := [0] }
/-- A page that Drift may move: a frame table that holds the frame's entry, and free frames. -/
def SMove : State :=
  { SPage with mem := SPage.mem.write 0x24008 8 (2 ^ 63) }.setDie 0 fun d =>
    { d with dftb := 0x24001, dctl := 0x10000003, freeHbm := [0x30000] }

/-- An access of the host. -/
def hostAcc (pa : Nat) : PortAccess := { pa := pa, size := 8, kind := .read, master := ⟨0, true, 5⟩ }
/-- A motion of the frame at 0x20000 to the frame at 0x30000, in a phase. -/
def mot (p : MPhase) (w : Nat) (leaf : Nat := 0x4010) (dst : Nat := 0x30000) : Motion := { src := 0x20000, dst := dst, leaf := leaf, phase := p, w := w }
def SMot (m : Motion) : State := S.setDie 0 fun d => { d with motions := [m] }
/-- The same with the access tables that firmware writes. -/
def SMotA (m : Motion) : State := S.setDie 0 fun d => { d with motions := [m], access := firmwareEntries 0 }
/-- A frame table that lists the frame at 0x10000 as movable. -/
def SFrame (free : List Nat) : State :=
  let s : State := { S with mem := ((S.mem.write 0x24008 8 (2 ^ 63 + 0x4010)).write 0x4010 16 (0x100F5 + 0x0000000FFFFFFFFF * 2 ^ 64)) }
  s.setDie 0 fun d => { d with dftb := 0x24001, dctl := 0x10000003, freeHbm := free }
/-- The second-level cache of a die, its pool and a register of it. -/
def SPool (n : Nat) : State := S.setDie 0 fun d => { d with l2cfg := BitVec.ofNat 64 n }

/-- A team saved beside the bound one, and its thread 0 changed. -/
def SSaved (f : Core → Core) : State := S.setDie 0 fun d => { d with launches := [{ launch0 with saved := [{ team := 1, slot := 0, image := f core0 }] }] }
def savedRun (r : Run) : State := SSaved fun c => { c with thr := c.thr.set 0 { t0 with run := r } }

def m0 : M := { st := S, core := core0, tid := 0, thr := t0 }
/-- What the effect of `i` works on. -/
def entered (i : Instr) (s : State) : M :=
  match enter i s with
  | some m => m.fresh
  | none => m0
def canIssue (s : State) (i : Instr) : Bool :=
  match enter i s with
  | some m => (match gate i m.fresh with
    | .ok _ => true
    | .error _ => false) && decide (m.core.sundog = 0) && !gatedOff m.fresh i && (m.fresh.tokenHits i).isEmpty
  | none => false

theorem issues_entered {i : Instr} {s : State} (h : canIssue s i = true) : Issues i s (entered i s) := by
  unfold canIssue at h
  unfold Issues entered
  cases he : enter i s with
  | none => rw [he] at h; cases h
  | some m =>
    rw [he] at h
    simp only [Bool.and_eq_true, decide_eq_true_eq, Bool.not_eq_true', List.isEmpty_iff] at h
    obtain ⟨⟨⟨hg, hs⟩, hk⟩, ht⟩ := h
    refine ⟨m, rfl, rfl, ?_, hs, hk, ht⟩
    cases hx : gate i m.fresh with
    | ok => rfl
    | error => rw [hx] at hg; cases hg

theorem issues_all {l : List Instr} {s : State} (h : l.all (canIssue s) = true) : ∀ i ∈ l, Issues i s (entered i s) :=
  fun i hi => issues_entered (List.all_eq_true.mp h i hi)

/-- The value of an answer that there is. -/
def okV {ε α : Type} (d : α) (e : Except ε α) : α :=
  match e with
  | .ok a => a
  | .error _ => d
def isOk {ε α : Type} (e : Except ε α) : Bool :=
  match e with
  | .ok _ => true
  | .error _ => false
theorem ok_spec {ε α : Type} {d : α} {e : Except ε α} (h : isOk e = true) : e = .ok (okV d e) := by
  cases e with
  | ok => rfl
  | error => cases h

def someV {α : Type} (d : α) (e : Option α) : α := e.getD d
theorem some_spec {α : Type} {d : α} {e : Option α} (h : e.isSome = true) : e = some (someV d e) := by
  cases e with
  | some => rfl
  | none => cases h
theorem tup3 {α β : Type} {b : Bool} {e : α × β × Bool} (h : e.2.2 = b) : e = (e.1, e.2.1, b) := by
  obtain ⟨x, y, z⟩ := e
  cases h; rfl
theorem tup2r {α β : Type} {b : β} {e : α × β} (h : e.2 = b) : e = (e.1, b) := by
  obtain ⟨x, y⟩ := e
  cases h; rfl

theorem ok2l {ε α β : Type} {d : α × β} {a : α} {e : Except ε (α × β)} (h : isOk e = true) (ha : (okV d e).1 = a) :
    e = .ok (a, (okV d e).2) := by
  cases e with
  | ok x => obtain ⟨x, y⟩ := x; cases ha; rfl
  | error => cases h
theorem ok1 {ε α β : Type} {d : α × List β} {z : β} {e : Except ε (α × List β)} (h : isOk e = true)
    (hl : (okV d e).2.length = 1) : e = .ok ((okV d e).1, [(okV d e).2.headD z]) := by
  cases e with
  | ok x => obtain ⟨x, y⟩ := x; match y, hl with | [w], _ => rfl
  | error => cases h

theorem ok_spec2 {ε α β : Type} {d : α × β} {e : Except ε (α × β)} (h : isOk e = true) : e = .ok ((okV d e).1, (okV d e).2) := ok_spec h
theorem ok_spec3 {ε α β γ : Type} {d : α × β × γ} {e : Except ε (α × β × γ)} (h : isOk e = true) :
    e = .ok ((okV d e).1, (okV d e).2.1, (okV d e).2.2) := ok_spec h
theorem ok_spec4 {ε α β γ δ : Type} {d : α × β × γ × δ} {e : Except ε (α × β × γ × δ)} (h : isOk e = true) :
    e = .ok ((okV d e).1, (okV d e).2.1, (okV d e).2.2.1, (okV d e).2.2.2) := ok_spec h
theorem some_spec2 {α β : Type} {d : α × β} {e : Option (α × β)} (h : e.isSome = true) : e = some ((someV d e).1, (someV d e).2) := some_spec h

theorem some_spec3 {α β γ : Type} {d : α × β × γ} {e : Option (α × β × γ)} (h : e.isSome = true) :
    e = some ((someV d e).1, (someV d e).2.1, (someV d e).2.2) := some_spec h

theorem some3r {α β γ : Type} {d : α × β × γ} {b : γ} {e : Option (α × β × γ)} (h : e.isSome = true) (hb : (someV d e).2.2 = b) :
    e = some ((someV d e).1, (someV d e).2.1, b) := by
  cases e with
  | some x => obtain ⟨x, y, z⟩ := x; cases hb; rfl
  | none => cases h
theorem some2r {α β : Type} {d : α × β} {b : β} {e : Option (α × β)} (h : e.isSome = true) (hb : (someV d e).2 = b) :
    e = some ((someV d e).1, b) := by
  cases e with
  | some x => obtain ⟨x, y⟩ := x; cases hb; rfl
  | none => cases h

theorem ok_unit {ε : Type} {e : Except ε Unit} (h : isOk e = true) : e = .ok () := ok_spec (d := ()) h

def MxAnswer.value (x : MxAnswer) : State :=
  match x with
  | .accepted s => s
  | _ => S
def MxAnswer.taken (x : MxAnswer) : Bool :=
  match x with
  | .accepted _ => true
  | _ => false
theorem taken_spec {x : MxAnswer} (h : MxAnswer.taken x = true) : x = .accepted (MxAnswer.value x) := by
  cases x with
  | accepted => rfl
  | refused => cases h
  | busy => cases h


/-! ## Single steps -/

/-- Thread 0 of core 0 after an instruction. -/
def thrAfter (i : Instr) (s : State) : Thread :=
  match exec i s with
  | .next s' => (s'.core? 0).elim {} fun c => c.thr.get 0
  | _ => {}
/-- Core 0 after an instruction. -/
def coreAfter (i : Instr) (s : State) : Core :=
  match exec i s with
  | .next s' => (s'.core? 0).getD core0
  | _ => core0

/-- R296: 5 + (−7) = −2 modulo 2^64, untagged, and the program counter moves one word. -/
theorem test_add_wraps : (thrAfter (.add 9 3 4) S).c.get 9 = ⟨0xFFFFFFFFFFFFFFFE, false⟩ ∧
    (thrAfter (.add 9 3 4) S).pc.cursor = 0x10004 := by decide +kernel
/-- R13: a write of c0 is discarded. -/
theorem test_add_to_c0 : (thrAfter (.add 0 3 4) S).c.get 0 = Cap.zero := by decide +kernel
/-- R298: the quotient truncates toward zero, and the remainder has the dividend's sign. -/
theorem test_div_truncates : (thrAfter (.div 9 4 3) S).c.get 9 = Cap.ofInt (-1) ∧
    (thrAfter (.rem 9 4 3) S).c.get 9 = Cap.ofInt (-2) := by decide +kernel
/-- R301: the whole mask receives one; the comparison is signed. -/
theorem test_clt_signed : (thrAfter (.clt 2 4 3) S).k.get 2 = 0xFFFFFFFFFFFFFFFF ∧ (thrAfter (.cltu 2 4 3) S).k.get 2 = 0 := by decide +kernel
/-- R274: little-endian bytes; the post-increment moves the base by I7 × size. -/
theorem test_store_post_increment : (coreAfter (.st 4 1 1 1 3) S).mem.read 0x100 4 = 0x0000FFF9 ∧
    ((thrAfter (.st 4 1 1 1 3) S).c.get 1).cursor = 0x106 := by decide +kernel
/-- R310: a word offset from the branch; R311: the return capability in c30. -/
theorem test_branch_and_call : (thrAfter (.bltz 4 0x7FFF) S).pc.cursor = 0xFFFC ∧ (thrAfter (.bgez 4 0x7FFF) S).pc.cursor = 0x10004 ∧
    ((thrAfter (.call 4) S).c.get 30).cursor = 0x10004 ∧ (thrAfter (.call 4) S).pc.cursor = 0x10010 := by decide +kernel
/-- R233, R234, R313: a software trap enters the handler in system mode with its immediate, at its own address. -/
theorem test_brk_enters_the_handler : (thrAfter (.brk 133) S).trapcause = 0x16 ∧ (thrAfter (.brk 133) S).trapval = 133 ∧
    (thrAfter (.brk 133) S).status = 5 ∧ (thrAfter (.brk 133) S).trappc = t0.pc := by decide +kernel
/-- R234: a system register is privileged in user mode. -/
theorem test_mts_privileged : (thrAfter (.mts 3 0x060) S).status = 5 ∧ (thrAfter (.mts 3 0x060) S).trapvec = 0 ∧
    (thrAfter (.mts 3 0x060) Ssys).trapvec = 5 := by decide +kernel
/-- R343: an i16 element is 16 bits; sums wrap in their element. -/
theorem test_vadd_wraps_in_its_element :
    ((thrAfter (.vadd 4 2 0 1) (onThread fun t => { t with v := (t.v.set 0 0x0001FFFF).set 1 0x00010001 })).v.get 2) = 0x00020000 := by decide +kernel
/-- A placed instruction (`nop`) is the first that a step runs. -/
theorem test_step_runs_what_is_placed : (match step (State.reset.withFetchWord 32 0x10000078) with
    | .next s' => (s'.core? 0).map fun c => (c.thr.get 0).pc.cursor
    | _ => none) = some (BitVec.ofNat 64 (placeVa + 4)) := by decide +kernel

/-- The example of GB/T 32907, appendix A: the block `0123456789abcdeffedcba9876543210` under itself as key. -/
theorem test_sm4_known_answer : Sm4.crypt (Sm4.keys 0x1032547698BADCFEEFCDAB8967452301) 0x1032547698BADCFEEFCDAB8967452301 =
    0x46426E534FE9B3865E9606D234DF1E68 := by decide +kernel

/-! ## The hypotheses of each statement are met -/

/-- Hypotheses of `Obligations.IntegerResults`. -/
theorem wit_IntegerResults :
    (∀ i ∈ [(.add 9 3 4), (.sub 9 3 4), (.and 9 3 4), (.or 9 3 4), (.xor 9 3 4), (.andn 9 3 4), (.orn 9 3 4), (.sll 9 3 4), (.srl 9 3 4), (.sra 9 3 4), (.rol 9 3 4), (.min 9 3 4), (.max 9 3 4), (.minu 9 3 4), (.maxu 9 3 4), (.mul 9 3 4), (.mulh 9 3 4), (.mulhu 9 3 4), (.popc 9 3), (.sext 9 3 4), (.zext 9 3 4)], Issues i S (entered i S)) :=
  issues_all (by decide +kernel)

/-- Hypotheses of `Obligations.IntegerResults`. -/
theorem wit_LeadingAndTrailingZeros :
    (∃ (s : State) (m : M) (d : F6) (a : F6) (n : Nat), n < 64 ∧ (m.int a).getLsbD (63 - n) = true ∧ (((∀ k, k < n → (m.int a).getLsbD (63 - k) = false))) ∧ Issues (.clz d a) s m) ∧
    (∃ (s : State) (m : M) (d : F6) (a : F6), m.int a = 0 ∧ Issues (.clz d a) s m) ∧
    (∃ (s : State) (m : M) (d : F6) (a : F6) (n : Nat), n < 64 ∧ (m.int a).getLsbD n = true ∧ (((∀ k, k < n → (m.int a).getLsbD k = false))) ∧ Issues (.ctz d a) s m) ∧
    (∃ (s : State) (m : M) (d : F6) (a : F6), m.int a = 0 ∧ Issues (.ctz d a) s m) :=
  ⟨⟨S, (entered ((.clz 9 3)) S), 9, 3, 61, by decide +kernel, by decide +kernel, by decide +kernel, issues_entered (by decide +kernel)⟩,
   ⟨S, (entered ((.clz 9 5)) S), 9, 5, by decide +kernel, issues_entered (by decide +kernel)⟩,
   ⟨S, (entered ((.ctz 9 3)) S), 9, 3, 0, by decide +kernel, by decide +kernel, by decide +kernel, issues_entered (by decide +kernel)⟩,
   ⟨S, (entered ((.ctz 9 5)) S), 9, 5, by decide +kernel, issues_entered (by decide +kernel)⟩⟩

/-- Hypotheses of `Obligations.DivisionResults`. -/
theorem wit_DivisionResults :
    (∀ i ∈ [(.div 9 3 4), (.rem 9 3 4), (.divu 9 3 4), (.remu 9 3 4)], Issues i S (entered i S)) :=
  issues_all (by decide +kernel)

/-- Hypotheses of `Obligations.CarryAndBorrow`. -/
theorem wit_CarryAndBorrow :
    (∀ i ∈ [(.addc 9 3 4), (.subb 9 3 4), (.widenedForm ({}) (.addc 9 3 4)), (.widenedForm ({}) (.subb 9 3 4))], Issues i S (entered i S)) :=
  issues_all (by decide +kernel)

/-- Hypotheses of `Obligations.ImmediateAndBitFieldResults`. -/
theorem wit_ImmediateResults :
    (∀ i ∈ [(.addi 9 3 1), (.widenedForm ({}) (.addi 9 3 0)), (.literalForm ({}) 0 (.addi 9 3 0)), (.andi 9 3 1), (.widenedForm ({}) (.andi 9 3 0)), (.literalForm ({}) 0 (.andi 9 3 0)), (.ori 9 3 1), (.widenedForm ({}) (.ori 9 3 0)), (.literalForm ({}) 0 (.ori 9 3 0)), (.xori 9 3 1), (.widenedForm ({}) (.xori 9 3 0)), (.literalForm ({}) 0 (.xori 9 3 0)), (.slli 9 3 9), (.widenedForm ({}) (.slli 9 3 0)), (.srli 9 3 9), (.widenedForm ({}) (.srli 9 3 0)), (.srai 9 3 9), (.widenedForm ({}) (.srai 9 3 0)), (.roli 9 3 9), (.widenedForm ({}) (.roli 9 3 0))], Issues i S (entered i S)) :=
  issues_all (by decide +kernel)

/-- Hypotheses of `Obligations.ImmediateAndBitFieldResults`. -/
theorem wit_BitFieldResults :
    (∀ i ∈ [(.bfx 9 3 0 0), (.bfxs 9 3 0 0), (.bfi 9 3 0 0), (.bfclr 9 3 0 0), (.widenedForm ({}) (.bfx 9 3 0 0)), (.widenedForm ({}) (.bfxs 9 3 0 0)), (.widenedForm ({}) (.bfi 9 3 0 0)), (.widenedForm ({}) (.bfclr 9 3 0 0))], Issues i S (entered i S)) :=
  issues_all (by decide +kernel)

/-- Hypotheses of `Obligations.ConstantsCopiesAndMasks`. -/
theorem wit_ConstantsAndCopies :
    (∀ i ∈ [(.mvi 9 0), (.widenedForm ({}) (.mvi 9 0)), (.literalForm ({}) 0 (.mvi 9 0)), (.adr 9 0), (.widenedForm ({}) (.adr 9 0)), (.mov 9 3), (.sel 1 9 3 4)], Issues i S (entered i S)) :=
  issues_all (by decide +kernel)

/-- Hypotheses of `Obligations.CompareResults`. -/
theorem wit_CompareResults :
    (∀ i ∈ [(.ceq 1 3 4), (.cne 1 3 4), (.clt 1 3 4), (.cge 1 3 4), (.cltu 1 3 4), (.cgeu 1 3 4), (.ctst 1 3 4)], Issues i S (entered i S)) :=
  issues_all (by decide +kernel)

/-- Hypotheses of `Obligations.ConstantsCopiesAndMasks`. -/
theorem wit_MaskResults :
    (∀ i ∈ [(.kand 1 1 1), (.kor 1 1 1), (.kxor 1 1 1), (.knot 1 1), (.kmovc 1 3), (.kmovk 9 1), (.kpop 9 1)], Issues i S (entered i S)) ∧
    (∃ (s : State) (m : M) (d : F6) (a : BitVec 3), m.mask a = 0 ∧ Issues (.kfirst d a) s m) ∧
    (∃ (s : State) (m : M) (d : F6) (a : BitVec 3) (n : Nat), n < 64 ∧ (m.mask a).getLsbD n = true ∧ (((∀ k, k < n → (m.mask a).getLsbD k = false))) ∧ Issues (.kfirst d a) s m) :=
  ⟨issues_all (by decide +kernel),
   ⟨S, (entered ((.kfirst 9 2)) S), 9, 2, by decide +kernel, issues_entered (by decide +kernel)⟩,
   ⟨S, (entered ((.kfirst 9 1)) S), 9, 1, 0, by decide +kernel, by decide +kernel, by decide +kernel, issues_entered (by decide +kernel)⟩⟩

/-- Hypotheses of `Obligations.CapabilityResults`. -/
theorem wit_CapabilityResults :
    (∀ i ∈ [(.cbase 9 3), (.clen 9 3), (.cperm 9 3), (.ctype 9 3), (.ctag 9 3), (.cclr 9 3), (.capCeq 9 3 4), (.csub 9 3 4)], Issues i S (entered i S)) ∧
    (∃ (s : State) (m : M) (d : F6) (a : F6) (b : F6), (m.src a).tag = true ∧ (m.src a).kind ∈ [0, 1] ∧ bndTrap (m.src a) (newBounds (m.src a) (m.int b)) (m.int b) false = none ∧ Issues (.cbnd d a b) s m) ∧
    (∃ (s : State) (m : M) (d : F6) (a : F6) (b : F6), (m.src a).tag = true ∧ (m.src a).kind ∈ [0, 1] ∧ bndTrap (m.src a) (newBounds (m.src a) (m.int b)) (m.int b) true = none ∧ Issues (.cbndx d a b) s m) ∧
    (∃ (s : State) (m : M) (d : F6) (a : F6) (b : F6), ((((m.src a).tag = true → (m.src a).kind ∈ [0, 1, 2, 3, 5, 6]))) ∧ Issues (.cprm d a b) s m) ∧
    (∃ (s : State) (m : M) (d : F6) (a : F6) (b : F6), ((((m.src a).tag = true → (m.src a).kind ∈ [0, 1, 3, 6]))) ∧ Issues (.cadd d a b) s m) ∧
    (∃ (s : State) (m : M) (d : F6) (a : F6) (b : F6), ((((m.src a).tag = true → (m.src a).kind ∈ [0, 1, 3, 6]))) ∧ Issues (.cset d a b) s m) ∧
    (∃ (s : State) (m : M) (d : F6) (a : F6), (m.src a).tag = true ∧ (m.src a).kind = 0 ∧ (m.src a).bits.getLsbD 108 = true ∧ Issues (.cseal d a) s m) :=
  ⟨issues_all (by decide +kernel),
   ⟨S, (entered ((.cbnd 9 1 11)) S), 9, 1, 11, by decide +kernel, by decide +kernel, by decide +kernel, issues_entered (by decide +kernel)⟩,
   ⟨S, (entered ((.cbndx 9 1 11)) S), 9, 1, 11, by decide +kernel, by decide +kernel, by decide +kernel, issues_entered (by decide +kernel)⟩,
   ⟨S, (entered ((.cprm 9 2 3)) S), 9, 2, 3, by decide +kernel, issues_entered (by decide +kernel)⟩,
   ⟨S, (entered ((.cadd 9 1 3)) S), 9, 1, 3, by decide +kernel, issues_entered (by decide +kernel)⟩,
   ⟨S, (entered ((.cset 9 7 3)) S), 9, 7, 3, by decide +kernel, issues_entered (by decide +kernel)⟩,
   ⟨S, (entered ((.cseal 9 2)) S), 9, 2, by decide +kernel, by decide +kernel, by decide +kernel, issues_entered (by decide +kernel)⟩⟩

/-- Hypotheses of `Obligations.RelativeTransfers`. -/
theorem wit_RelativeTransfers :
    (∃ (s : State) (m : M) (k : BitVec 3) (pol : Bool) (off : BitVec 18), ((m.mask k).getLsbD 0 ^^ pol) = true ∧ m.thr.pc.base ≤ (m.thr.pc.cursor + 4 * off.signExtend 64).toNat ∧ (m.thr.pc.cursor + 4 * off.signExtend 64).toNat + 4 ≤ m.thr.pc.top ∧ Issues (.bk k pol off) s m) ∧
    (∃ (s : State) (m : M) (k : BitVec 3) (pol : Bool) (off : BitVec 18), ((m.mask k).getLsbD 0 ^^ pol) = false ∧ Issues (.bk k pol off) s m) ∧
    (∃ (s : State) (m : M) (r : F6) (off : BitVec 15), m.int r = 0 ∧ m.thr.pc.base ≤ (m.thr.pc.cursor + 4 * off.signExtend 64).toNat ∧ (m.thr.pc.cursor + 4 * off.signExtend 64).toNat + 4 ≤ m.thr.pc.top ∧ Issues (.bz r off) s m) ∧
    (∃ (s : State) (m : M) (r : F6) (off : BitVec 15), m.int r ≠ 0 ∧ Issues (.bz r off) s m) ∧
    (∃ (s : State) (m : M) (r : F6) (off : BitVec 15), m.int r ≠ 0 ∧ m.thr.pc.base ≤ (m.thr.pc.cursor + 4 * off.signExtend 64).toNat ∧ (m.thr.pc.cursor + 4 * off.signExtend 64).toNat + 4 ≤ m.thr.pc.top ∧ Issues (.bnz r off) s m) ∧
    (∃ (s : State) (m : M) (r : F6) (off : BitVec 15), m.int r = 0 ∧ Issues (.bnz r off) s m) ∧
    (∃ (s : State) (m : M) (r : F6) (off : BitVec 15), (m.int r).toInt < 0 ∧ m.thr.pc.base ≤ (m.thr.pc.cursor + 4 * off.signExtend 64).toNat ∧ (m.thr.pc.cursor + 4 * off.signExtend 64).toNat + 4 ≤ m.thr.pc.top ∧ Issues (.bltz r off) s m) ∧
    (∃ (s : State) (m : M) (r : F6) (off : BitVec 15), (m.int r).toInt ≥ 0 ∧ Issues (.bltz r off) s m) ∧
    (∃ (s : State) (m : M) (r : F6) (off : BitVec 15), (m.int r).toInt ≥ 0 ∧ m.thr.pc.base ≤ (m.thr.pc.cursor + 4 * off.signExtend 64).toNat ∧ (m.thr.pc.cursor + 4 * off.signExtend 64).toNat + 4 ≤ m.thr.pc.top ∧ Issues (.bgez r off) s m) ∧
    (∃ (s : State) (m : M) (r : F6) (off : BitVec 15), (m.int r).toInt < 0 ∧ Issues (.bgez r off) s m) ∧
    (∃ (s : State) (m : M) (r : F6) (off : BitVec 15), (m.int r).toInt ≤ 0 ∧ m.thr.pc.base ≤ (m.thr.pc.cursor + 4 * off.signExtend 64).toNat ∧ (m.thr.pc.cursor + 4 * off.signExtend 64).toNat + 4 ≤ m.thr.pc.top ∧ Issues (.blez r off) s m) ∧
    (∃ (s : State) (m : M) (r : F6) (off : BitVec 15), (m.int r).toInt > 0 ∧ Issues (.blez r off) s m) ∧
    (∃ (s : State) (m : M) (r : F6) (off : BitVec 15), (m.int r).toInt > 0 ∧ m.thr.pc.base ≤ (m.thr.pc.cursor + 4 * off.signExtend 64).toNat ∧ (m.thr.pc.cursor + 4 * off.signExtend 64).toNat + 4 ≤ m.thr.pc.top ∧ Issues (.bgtz r off) s m) ∧
    (∃ (s : State) (m : M) (r : F6) (off : BitVec 15), (m.int r).toInt ≤ 0 ∧ Issues (.bgtz r off) s m) ∧
    (∃ (s : State) (m : M) (off : BitVec 18), m.thr.pc.base ≤ (m.thr.pc.cursor + 4 * off.signExtend 64).toNat ∧ (m.thr.pc.cursor + 4 * off.signExtend 64).toNat + 4 ≤ m.thr.pc.top ∧ Issues (.bra off) s m) ∧
    (∃ (s : State) (m : M) (x : Ext), m.thr.pc.base ≤ (m.thr.pc.cursor + 4 * x.imm.signExtend 64).toNat ∧ (m.thr.pc.cursor + 4 * x.imm.signExtend 64).toNat + 4 ≤ m.thr.pc.top ∧ Issues (.widenedForm x (.bra 0)) s m) ∧
    (∃ (s : State) (m : M) (off : BitVec 24), m.thr.pc.base ≤ (m.thr.pc.cursor + 4 * off.signExtend 64).toNat ∧ (m.thr.pc.cursor + 4 * off.signExtend 64).toNat + 4 ≤ m.thr.pc.top ∧ Issues (.jmp off) s m) ∧
    (∃ (s : State) (m : M) (x : Ext), m.thr.pc.base ≤ (m.thr.pc.cursor + 4 * x.imm.signExtend 64).toNat ∧ (m.thr.pc.cursor + 4 * x.imm.signExtend 64).toNat + 4 ≤ m.thr.pc.top ∧ Issues (.widenedForm x (.jmp 0)) s m) ∧
    (∃ (s : State) (m : M) (off : BitVec 24), m.thr.pc.base ≤ (m.thr.pc.cursor + 4 * off.signExtend 64).toNat ∧ (m.thr.pc.cursor + 4 * off.signExtend 64).toNat + 4 ≤ m.thr.pc.top ∧ Issues (.call off) s m) :=
  ⟨⟨S, (entered ((.bk 1 false 1)) S), 1, false, 1, by decide +kernel, by decide +kernel, by decide +kernel, issues_entered (by decide +kernel)⟩,
   ⟨S, (entered ((.bk 0 false 1)) S), 0, false, 1, by decide +kernel, issues_entered (by decide +kernel)⟩,
   ⟨S, (entered ((.bz 5 1)) S), 5, 1, by decide +kernel, by decide +kernel, by decide +kernel, issues_entered (by decide +kernel)⟩,
   ⟨S, (entered ((.bz 3 1)) S), 3, 1, by decide +kernel, issues_entered (by decide +kernel)⟩,
   ⟨S, (entered ((.bnz 3 1)) S), 3, 1, by decide +kernel, by decide +kernel, by decide +kernel, issues_entered (by decide +kernel)⟩,
   ⟨S, (entered ((.bnz 5 1)) S), 5, 1, by decide +kernel, issues_entered (by decide +kernel)⟩,
   ⟨S, (entered ((.bltz 4 1)) S), 4, 1, by decide +kernel, by decide +kernel, by decide +kernel, issues_entered (by decide +kernel)⟩,
   ⟨S, (entered ((.bltz 5 1)) S), 5, 1, by decide +kernel, issues_entered (by decide +kernel)⟩,
   ⟨S, (entered ((.bgez 5 1)) S), 5, 1, by decide +kernel, by decide +kernel, by decide +kernel, issues_entered (by decide +kernel)⟩,
   ⟨S, (entered ((.bgez 4 1)) S), 4, 1, by decide +kernel, issues_entered (by decide +kernel)⟩,
   ⟨S, (entered ((.blez 5 1)) S), 5, 1, by decide +kernel, by decide +kernel, by decide +kernel, issues_entered (by decide +kernel)⟩,
   ⟨S, (entered ((.blez 3 1)) S), 3, 1, by decide +kernel, issues_entered (by decide +kernel)⟩,
   ⟨S, (entered ((.bgtz 3 1)) S), 3, 1, by decide +kernel, by decide +kernel, by decide +kernel, issues_entered (by decide +kernel)⟩,
   ⟨S, (entered ((.bgtz 5 1)) S), 5, 1, by decide +kernel, issues_entered (by decide +kernel)⟩,
   ⟨S, (entered ((.bra 1)) S), 1, by decide +kernel, by decide +kernel, issues_entered (by decide +kernel)⟩,
   ⟨S, (entered ((.widenedForm ({ imm := 1 }) (.bra 0))) S), { imm := 1 }, by decide +kernel, by decide +kernel, issues_entered (by decide +kernel)⟩,
   ⟨S, (entered ((.jmp 1)) S), 1, by decide +kernel, by decide +kernel, issues_entered (by decide +kernel)⟩,
   ⟨S, (entered ((.widenedForm ({ imm := 1 }) (.jmp 0))) S), { imm := 1 }, by decide +kernel, by decide +kernel, issues_entered (by decide +kernel)⟩,
   ⟨S, (entered ((.call 1)) S), 1, by decide +kernel, by decide +kernel, issues_entered (by decide +kernel)⟩⟩

/-- Hypotheses of `Obligations.CapabilityTransfers`. -/
theorem wit_CapabilityTransfers :
    (∃ (s : State) (m : M) (a : F6), (m.src a).tag = true ∧ (m.src a).kind = 0 ∧ (m.src a).bits.getLsbD 108 = true ∧ (m.src a).cursor.toNat % 4 = 0 ∧ (m.src a).base ≤ (m.src a).cursor.toNat ∧ (m.src a).cursor.toNat + 4 ≤ (m.src a).top ∧ Issues (.jr a) s m) ∧
    (∃ (s : State) (m : M) (d : F6) (a : F6), (m.src a).tag = true ∧ (m.src a).kind = 0 ∧ (m.src a).bits.getLsbD 108 = true ∧ (m.src a).cursor.toNat % 4 = 0 ∧ (m.src a).base ≤ (m.src a).cursor.toNat ∧ (m.src a).cursor.toNat + 4 ≤ (m.src a).top ∧ Issues (.jalr d a) s m) ∧
    (∃ (s : State) (m : M), (m.src 30).tag = true ∧ (m.src 30).kind = 0 ∧ (m.src 30).bits.getLsbD 108 = true ∧ (m.src 30).cursor.toNat % 4 = 0 ∧ (m.src 30).base ≤ (m.src 30).cursor.toNat ∧ (m.src 30).cursor.toNat + 4 ≤ (m.src 30).top ∧ Issues (.ret) s m) ∧
    (∃ (s : State) (m : M) (a : F6), (m.src a).kind = 4 ∧ (Cap.unseal (m.src a)).tag = true ∧ (Cap.unseal (m.src a)).kind = 0 ∧ (Cap.unseal (m.src a)).bits.getLsbD 108 = true ∧ (Cap.unseal (m.src a)).cursor.toNat % 4 = 0 ∧ (Cap.unseal (m.src a)).base ≤ (Cap.unseal (m.src a)).cursor.toNat ∧ (Cap.unseal (m.src a)).cursor.toNat + 4 ≤ (Cap.unseal (m.src a)).top ∧ Issues (.ccall a) s m) :=
  ⟨⟨S, (entered ((.jr 2)) S), 2, by decide +kernel, by decide +kernel, by decide +kernel, by decide +kernel, by decide +kernel, by decide +kernel, issues_entered (by decide +kernel)⟩,
   ⟨S, (entered ((.jalr 9 2)) S), 9, 2, by decide +kernel, by decide +kernel, by decide +kernel, by decide +kernel, by decide +kernel, by decide +kernel, issues_entered (by decide +kernel)⟩,
   ⟨S, (entered ((.ret)) S), by decide +kernel, by decide +kernel, by decide +kernel, by decide +kernel, by decide +kernel, by decide +kernel, issues_entered (by decide +kernel)⟩,
   ⟨S, (entered ((.ccall 10)) S), 10, by decide +kernel, by decide +kernel, by decide +kernel, by decide +kernel, by decide +kernel, by decide +kernel, by decide +kernel, issues_entered (by decide +kernel)⟩⟩

/-- Hypotheses of `Obligations.ThreadInstructions`. -/
theorem wit_ThreadInstructions :
    (∀ i ∈ [(.nop)], Issues i S (entered i S)) ∧
    (∃ (s : State) (m : M), m.otherReady = 0 ∧ Issues (.yield) s m) ∧
    (∃ (s : State) (m : M), m.otherReady ≠ 0 ∧ Issues (.yield) s m) ∧
    (∃ (s : State) (m : M) (a : F6), m.int a = 0 ∧ Issues (.sleep a) s m) ∧
    (∃ (s : State) (m : M) (a : F6), m.int a ≠ 0 ∧ Issues (.sleep a) s m) ∧
    (∃ (s : State) (m : M), m.thr.rnote = true ∧ Issues (.wfe) s m) ∧
    (∃ (s : State) (m : M), m.thr.rnote = false ∧ Issues (.wfe) s m) ∧
    (∃ (s : State) (m : M) (d : F6) (off : BitVec 18), m.thr.lcount.get (if m.thr.lcount.get 0 ≠ 0 then 1 else 0 : Fin 2) = 0 ∧ m.int d ≠ 0 ∧ Issues (.loop d off) s m) ∧
    (∃ (s : State) (m : M) (d : F6) (off : BitVec 18) (m1 : M) (w : W32), m.thr.lcount.get (if m.thr.lcount.get 0 ≠ 0 then 1 else 0 : Fin 2) = 0 ∧ m.int d = 0 ∧ m.fetchWords (m.thr.pc.cursor + 4 * off.signExtend 64).toNat 1 = .ok (m1, [w]) ∧ Issues (.loop d off) s m) ∧
    (∃ (s : State) (m : M) (m1 : M) (m2 : M), m.release 0 = .ok m1 ∧ m1.acquire 0 = .ok m2 ∧ Issues .bar s m) ∧
    (∃ (s : State) (m : M), m.tickets = [] ∧ (¬(m.core.lrec.calls = true ∧ m.tid = 7)) ∧ Issues .halt s m) ∧
    (∃ (s : State) (m : M), m.tickets = [] ∧ m.core.lrec.calls = true ∧ m.tid = 7 ∧ Issues .halt s m) :=
  ⟨issues_all (by decide +kernel),
   ⟨S, (entered ((.yield)) S), by decide +kernel, issues_entered (by decide +kernel)⟩,
   ⟨(onCore fun c => { c with thr := c.thr.set 1 t0 }), (entered ((.yield)) ((onCore fun c => { c with thr := c.thr.set 1 t0 }))), by decide +kernel, issues_entered (by decide +kernel)⟩,
   ⟨S, (entered ((.sleep 5)) S), 5, by decide +kernel, issues_entered (by decide +kernel)⟩,
   ⟨S, (entered ((.sleep 3)) S), 3, by decide +kernel, issues_entered (by decide +kernel)⟩,
   ⟨(onThread fun t => { t with rnote := true }), (entered ((.wfe)) ((onThread fun t => { t with rnote := true }))), by decide +kernel, issues_entered (by decide +kernel)⟩,
   ⟨S, (entered ((.wfe)) S), by decide +kernel, issues_entered (by decide +kernel)⟩,
   ⟨S, (entered ((.loop 3 0)) S), 3, 0, by decide +kernel, by decide +kernel, issues_entered (by decide +kernel)⟩,
   ⟨S, (entered ((.loop 5 ((1 : BitVec 18)))) S), 5, (1 : BitVec 18), _, _, by decide +kernel, by decide +kernel, ok1 (d := (m0, [])) (z := 0) (by decide +kernel) (by decide +kernel), issues_entered (by decide +kernel)⟩,
   ⟨S, (entered (.bar) S), _, _, ok_spec (d := (m0)) (by decide +kernel), ok_spec (d := (m0)) (by decide +kernel), issues_entered (by decide +kernel)⟩,
   ⟨S, (entered (.halt) S), by decide +kernel, by decide +kernel, issues_entered (by decide +kernel)⟩,
   ⟨{ ((State.reset.place 1 0).setCore { core0 with lrec := { core0.lrec with calls := true }, thr := core0.thr.set 7 t0 }) with cur := (0, 7) }, (entered (.halt) ({ ((State.reset.place 1 0).setCore { core0 with lrec := { core0.lrec with calls := true }, thr := core0.thr.set 7 t0 }) with cur := (0, 7) })), by decide +kernel, by decide +kernel, by decide +kernel, issues_entered (by decide +kernel)⟩⟩

/-- Hypotheses of `Obligations.TrapsAndReturn`. -/
theorem wit_TrapsAndReturn :
    (∀ i ∈ [(.brk 1), (.trap 1)], Issues i S (entered i S)) ∧
    (∃ (s : State) (m : M), Issues .eret s m ∧ m.thr.trappc.tag = true) ∧
    (∃ (s : State) (m : M) (m0 : M) (pos : Nat) (m1 : M) (w : W32), s.selected s.cur.1 s.cur.2 = some m0 ∧ m0.thr.run = .ready ∧ m0.core.stopping = false ∧ m0.fetchWords m0.thr.pc.cursor.toNat 1 = .ok (m1, [w])) ∧
    (∃ (s : State) (m : M) (m0 : M) (f : FetchFault), s.selected s.cur.1 s.cur.2 = some m0 ∧ m0.thr.run = .ready ∧ m0.core.stopping = false) :=
  ⟨issues_all (by decide +kernel),
   ⟨Ssys, (entered (.eret) Ssys), issues_entered (by decide +kernel), by decide +kernel⟩,
   ⟨S, m0, _, 0, _, _, some_spec (d := (m0)) (by decide +kernel), by decide +kernel, by decide +kernel, ok1 (d := (m0, [])) (z := 0) (by decide +kernel) (by decide +kernel)⟩,
   ⟨S, m0, _, (⟨0, 0⟩), some_spec (d := (m0)) (by decide +kernel), by decide +kernel, by decide +kernel⟩⟩

/-- Hypotheses of `Obligations.SpecialRegisters`. -/
theorem wit_SpecialRegisters :
    (∀ i ∈ [(.mfs 9 0x000), (.mfs 9 0x001), (.mfs 9 0x002), (.mfs 9 0x003), (.mfs 9 0x004), (.mfs 9 0x005), (.mfs 9 0x006), (.mfs 9 0x010), (.mfs 9 0x011), (.mfs 9 0x030), (.mfs 9 0x031), (.mfs 9 0x032), (.mfs 9 0x033), (.mfs 9 0x034), (.mfs 9 0x035), (.mfs 9 0x040), (.mfs 9 0x041), (.mfs 9 0x042), (.mfs 9 0x043), (.mfs 9 0x050), (.mfs 9 0x060), (.mfs 9 0x062), (.mfs 9 0x063), (.mfs 9 0x064), (.mfs 9 0x065), (.mfs 9 0x070), (.mfs 9 0x072), (.mfs 9 0x080), (.mfs 9 0x081), (.mfs 9 0x082), (.mfs 9 0x020), (.mfs 9 0x021), (.mfs 9 0x022), (.mfs 9 0x023), (.mfs 9 0x024), (.mfs 9 0x025), (.mfs 9 0x026), (.mfs 9 0x027), (.mfs 9 0x061), (.mfs 9 0x008), (.mfs 9 0x073), (.mfs 9 0x071), (.mfs 9 0x007), (.mts 9 0x030), (.mts 9 0x031), (.mts 9 0x032), (.mts 9 0x033), (.mts 9 0x034), (.mts 9 0x035), (.mts 9 0x041), (.mts 9 0x042), (.mts 9 0x043), (.mts 9 0x060), (.mts 9 0x061), (.mts 9 0x062), (.mts 9 0x063), (.mts 9 0x064), (.mts 9 0x065), (.mts 9 0x050), (.mts 9 0x020), (.mts 9 0x021), (.mts 9 0x022), (.mts 9 0x023), (.mts 9 0x024), (.mts 9 0x025), (.mts 9 0x026), (.mts 9 0x027), (.mts 9 0x080)], Issues i Ssys (entered i Ssys)) ∧
    (∃ (s : State) (m : M) (d : F6), m.core.logdrop = 0 ∧ Issues (.mts d 0x081) s m) ∧
    (∃ (s : State) (m : M) (d : F6) (m1 : M), ({ m with core := { m.core with loghead := m.int d &&& 0xFFFFFFFF } } : M).logOverflow = .ok m1 ∧ Issues (.mts d 0x081) s m) :=
  ⟨issues_all (by decide +kernel),
   ⟨Ssys, (entered ((.mts 9 0x081)) Ssys), 9, by decide +kernel, issues_entered (by decide +kernel)⟩,
   ⟨Ssys, (entered ((.mts 9 0x081)) Ssys), 9, _, ok_spec (d := (m0)) (by decide +kernel), issues_entered (by decide +kernel)⟩⟩

/-- Hypotheses of `Obligations.QueuesRowsLog`. -/
theorem wit_QueuesRowsLog :
    (∀ i ∈ [(.qunb 1), (.qstat 9 1), (.vrowSet 9 3), (.vrowGet 9), (.logon)], Issues i S (entered i S)) ∧
    (∃ (s : State) (m : M) (q : BitVec 3) (b : F6), (m.int b).getLsbD 6 = false ∧ Issues (.qbind q 0 b) s m) ∧
    (∃ (s : State) (m : M) (d : F6) (q : BitVec 3) (v : W64) (l : List W64), (m.thr.q.get q.toFin).fifo = v :: l ∧ Issues (.qpeek d q) s m) ∧
    (∃ (s : State) (m : M) (m1 : M), (m.emitRanges (fun _ => true) = .ok m1) ∧ Issues (.logoff) s m) ∧
    (∃ (s : State) (m : M) (a : F6) (m1 : M) (m2 : M), (m.emitRanges (fun _ => true) = .ok m1) ∧ m1.logEntry 2 0 (m.int a) = .ok m2 ∧ Issues (.logmark a) s m) :=
  ⟨issues_all (by decide +kernel),
   ⟨S, (entered ((.qbind 1 0 5)) S), 1, 5, by decide +kernel, issues_entered (by decide +kernel)⟩,
   ⟨(onThread fun t => t.setQ 0 fun y => { y with fifo := [7] }), (entered ((.qpeek 9 0)) ((onThread fun t => t.setQ 0 fun y => { y with fifo := [7] }))), 9, 0, 7, [], by decide +kernel, issues_entered (by decide +kernel)⟩,
   ⟨S, (entered ((.logoff)) S), _, ok_spec (d := (m0)) (by decide +kernel), issues_entered (by decide +kernel)⟩,
   ⟨S, (entered ((.logmark 3)) S), 3, _, _, ok_spec (d := (m0)) (by decide +kernel), ok_spec (d := (m0)) (by decide +kernel), issues_entered (by decide +kernel)⟩⟩

/-- Hypotheses of `Obligations.LoadsAndStores`. -/
theorem wit_LoadsAndStores :
    (∃ (s : State) (m : M) (d : F6) (a : F6) (sz : BitVec 3) (am : BitVec 2) (ea : BitVec 7) (r : MRef), r = m.ref none a am ea (szBytes sz) ∧ LocalOk m r [.ld] (szBytes sz) ∧ m.acqPending = false ∧ Issues (.ld d a sz am ea) s m) ∧
    (∃ (s : State) (m : M) (d : F6) (a : F6) (sz : BitVec 3) (am : BitVec 2) (ea : BitVec 7) (r : MRef) (m1 : M) (v : Nat) (t : Bool), r = m.ref none a am ea (szBytes sz) ∧ checkRef r [.ld] (szBytes sz) = .ok () ∧ r.c.kind = 0 ∧ m.acqPending = false ∧ m.loadAt r.c r.va (szBytes sz) true = .ok (m1, v, t) ∧ Issues (.ld d a sz am ea) s m) ∧
    (∃ (s : State) (m : M) (d : F6) (a : F6) (sz : BitVec 3) (am : BitVec 2) (ea : BitVec 7) (r : MRef), r = m.ref none a am ea (szBytes sz) ∧ LocalOk m r [.ld] (szBytes sz) ∧ m.acqPending = false ∧ Issues (.lds d a sz am ea) s m) ∧
    (∃ (s : State) (m : M) (d : F6) (a : F6) (sz : BitVec 3) (am : BitVec 2) (ea : BitVec 7) (r : MRef) (m1 : M) (v : Nat) (t : Bool), r = m.ref none a am ea (szBytes sz) ∧ checkRef r [.ld] (szBytes sz) = .ok () ∧ r.c.kind = 0 ∧ m.acqPending = false ∧ m.loadAt r.c r.va (szBytes sz) true = .ok (m1, v, t) ∧ Issues (.lds d a sz am ea) s m) ∧
    (∃ (s : State) (m : M) (d : F6) (a : F6) (am : BitVec 2) (ea : BitVec 7) (r : MRef), r = m.ref none a am ea 8 ∧ LocalOk m r [.ld] 8 ∧ m.acqPending = false ∧ Issues (.ldfeAny d a am ea) s m) ∧
    (∃ (s : State) (m : M) (o : XOp) (r : MRef) (n : Nat) (m1 : M), n = szBytes (o.x.t2.setWidth 3) ∧ r = m.refAt o.a (immOff (some o.x)) ∧ LocalOk m r [.ld] n ∧ m.acqPending = false ∧ (m.wr o.d (loadValue r.c n (m.localRead r.va n) (n == 16 && m.localTag r.va) false)).acquire o.x.sc = .ok m1 ∧ Issues (.ldacq o) s m) ∧
    (∃ (s : State) (m : M) (d : F6) (a : F6) (sz : BitVec 3) (am : BitVec 2) (ea : BitVec 7) (r : MRef) (v : Cap), r = m.ref none a am ea (szBytes sz) ∧ v = m.src d ∧ (LocalOk m r (if szBytes sz = 16 ∧ v.tag then [.st, .tgw] else [.st]) (szBytes sz)) ∧ m.acqPending = false ∧ Issues (.st d a sz am ea) s m) ∧
    (∃ (s : State) (m : M) (d : F6) (a : F6) (sz : BitVec 3) (am : BitVec 2) (ea : BitVec 7) (r : MRef) (v : Cap) (m1 : M), r = m.ref none a am ea (szBytes sz) ∧ v = m.src d ∧ m.restartCheck r.c = .ok () ∧ (checkRef r (if szBytes sz = 16 ∧ v.tag then [.st, .tgw] else [.st]) (szBytes sz) = .ok ()) ∧ r.c.kind = 0 ∧ m.acqPending = false ∧ m.storeAt r.c r.va (szBytes sz) (v.bits.toNat % 2 ^ (8 * szBytes sz)) (if szBytes sz = 16 then some v.tag else none) true = .ok m1 ∧ Issues (.st d a sz am ea) s m) ∧
    (∃ (s : State) (m : M) (d : F6) (a : F6) (am : BitVec 2) (ea : BitVec 7) (r : MRef), r = m.ref none a am ea 8 ∧ LocalOk m r [.st] 8 ∧ m.acqPending = false ∧ Issues (.stfeKeep d a am ea) s m) ∧
    (∃ (s : State) (m : M) (o : XOp) (r : MRef) (n : Nat) (v : Cap) (m1 : M), n = szBytes (o.x.t2.setWidth 3) ∧ v = m.src o.d ∧ r = m.refAt o.a (immOff (some o.x)) ∧ (LocalOk m1 r (if n = 16 ∧ v.tag then [.st, .tgw] else [.st]) n) ∧ m.acqPending = false ∧ m.release o.x.sc = .ok m1 ∧ Issues (.strel o) s m) :=
  ⟨⟨S, (entered ((.ld 9 1 1 0 0)) S), 9, 1, 1, 0, 0, _, rfl, by unfold LocalOk; decide +kernel, by decide +kernel, issues_entered (by decide +kernel)⟩,
   ⟨S, (entered ((.ld 9 2 1 0 0)) S), 9, 2, 1, 0, 0, _, _, _, _, rfl, ok_unit (by decide +kernel), by decide +kernel, by decide +kernel, ok_spec3 (d := (m0, 0, false)) (by decide +kernel), issues_entered (by decide +kernel)⟩,
   ⟨S, (entered ((.lds 9 1 1 0 0)) S), 9, 1, 1, 0, 0, _, rfl, by unfold LocalOk; decide +kernel, by decide +kernel, issues_entered (by decide +kernel)⟩,
   ⟨S, (entered ((.lds 9 2 1 0 0)) S), 9, 2, 1, 0, 0, _, _, _, _, rfl, ok_unit (by decide +kernel), by decide +kernel, by decide +kernel, ok_spec3 (d := (m0, 0, false)) (by decide +kernel), issues_entered (by decide +kernel)⟩,
   ⟨S, (entered ((.ldfeAny 9 1 0 0)) S), 9, 1, 0, 0, _, rfl, by unfold LocalOk; decide +kernel, by decide +kernel, issues_entered (by decide +kernel)⟩,
   ⟨S, (entered ((.ldacq ({ d := 9, a := 1, x := { t2 := 3, sc := 1 }, lit := none }))) S), { d := 9, a := 1, x := { t2 := 3, sc := 1 }, lit := none }, _, _, _, rfl, rfl, by unfold LocalOk; decide +kernel, by decide +kernel, ok_spec (d := (m0)) (by decide +kernel), issues_entered (by decide +kernel)⟩,
   ⟨S, (entered ((.st 3 1 3 0 0)) S), 3, 1, 3, 0, 0, _, _, rfl, rfl, by unfold LocalOk; decide +kernel, by decide +kernel, issues_entered (by decide +kernel)⟩,
   ⟨S, (entered ((.st 3 2 1 0 0)) S), 3, 2, 1, 0, 0, _, _, _, rfl, rfl, ok_unit (by decide +kernel), ok_unit (by decide +kernel), by decide +kernel, by decide +kernel, ok_spec (d := (m0)) (by decide +kernel), issues_entered (by decide +kernel)⟩,
   ⟨S, (entered ((.stfeKeep 3 1 0 0)) S), 3, 1, 0, 0, _, rfl, by unfold LocalOk; decide +kernel, by decide +kernel, issues_entered (by decide +kernel)⟩,
   ⟨S, (entered ((.strel ({ d := 3, a := 1, x := { t2 := 3, sc := 1 }, lit := none }))) S), { d := 3, a := 1, x := { t2 := 3, sc := 1 }, lit := none }, _, _, _, _, rfl, rfl, rfl, by unfold LocalOk; decide +kernel, by decide +kernel, ok_spec (d := (m0)) (by decide +kernel), issues_entered (by decide +kernel)⟩⟩

/-- Hypotheses of `Obligations.FullEmptyOperations`. -/
theorem wit_FullEmptyOperations :
    (∃ (s : State) (m : M) (d : F6) (a : F6) (am : BitVec 2) (ea : BitVec 7) (r : MRef) (m1 : M) (m2 : M) (v : Nat), r = m.ref none a am ea 8 ∧ LocalOk m r [.ld, .fe] 8 ∧ m.acqPending = false ∧ m.feLocal r.va (.ldfe 1) 0 = (m1, v, true) ∧ ((m1.wrInt d (BitVec.ofNat 64 v)).update r.f r.ad).acquire 4 = .ok m2 ∧ Issues (.ldfeWf d a am ea) s m) ∧
    (∃ (s : State) (m : M) (d : F6) (a : F6) (am : BitVec 2) (ea : BitVec 7) (r : MRef) (m1 : M) (m2 : M) (v : Nat), r = m.ref none a am ea 8 ∧ LocalOk m r [.ld, .fe] 8 ∧ m.acqPending = false ∧ m.feLocal r.va (.ldfe 2) 0 = (m1, v, true) ∧ ((m1.wrInt d (BitVec.ofNat 64 v)).update r.f r.ad).acquire 4 = .ok m2 ∧ Issues (.ldfeWfe d a am ea) s m) ∧
    (∃ (s : State) (m : M) (d : F6) (a : F6) (am : BitVec 2) (ea : BitVec 7) (r : MRef) (m1 : M) (v : Nat), r = m.ref none a am ea 8 ∧ LocalOk m r [.ld, .fe] 8 ∧ m.acqPending = false ∧ m.feLocal r.va (.ldfe 3) 0 = (m1, v, true) ∧ Issues (.ldfeSt d a am ea) s m) ∧
    (∃ (s : State) (m : M) (d : F6) (a : F6) (am : BitVec 2) (ea : BitVec 7) (r : MRef) (m1 : M) (m2 : M) (v : Nat), r = m.ref none a am ea 8 ∧ LocalOk m r [.st, .fe] 8 ∧ m.acqPending = false ∧ m.release 4 = .ok m1 ∧ m1.feLocal r.va (.stfe 0) (m.int d) = (m2, v, true) ∧ Issues (.stfeSf d a am ea) s m) ∧
    (∃ (s : State) (m : M) (d : F6) (a : F6) (am : BitVec 2) (ea : BitVec 7) (r : MRef) (m1 : M) (m2 : M) (v : Nat), r = m.ref none a am ea 8 ∧ LocalOk m r [.st, .fe] 8 ∧ m.acqPending = false ∧ m.release 4 = .ok m1 ∧ m1.feLocal r.va (.stfe 1) (m.int d) = (m2, v, true) ∧ Issues (.stfeWef d a am ea) s m) ∧
    (∃ (s : State) (m : M) (a : F6) (am : BitVec 2) (ea : BitVec 7) (r : MRef) (m2 : M) (v : Nat), r = m.ref none a am ea 8 ∧ LocalOk m r [.st, .fe] 8 ∧ m.acqPending = false ∧ m.feLocal r.va (.stfe 2) (m.int 0) = (m2, v, true) ∧ Issues (.stfeSe a am ea) s m) :=
  ⟨⟨S, (entered ((.ldfeWf 3 1 0 0)) S), 3, 1, 0, 0, _, _, _, _, rfl, by unfold LocalOk; decide +kernel, by decide +kernel, tup3 (by decide +kernel), ok_spec (d := (m0)) (by decide +kernel), issues_entered (by decide +kernel)⟩,
   ⟨S, (entered ((.ldfeWfe 3 1 0 0)) S), 3, 1, 0, 0, _, _, _, _, rfl, by unfold LocalOk; decide +kernel, by decide +kernel, tup3 (by decide +kernel), ok_spec (d := (m0)) (by decide +kernel), issues_entered (by decide +kernel)⟩,
   ⟨S, (entered ((.ldfeSt 3 1 0 0)) S), 3, 1, 0, 0, _, _, _, rfl, by unfold LocalOk; decide +kernel, by decide +kernel, tup3 (by decide +kernel), issues_entered (by decide +kernel)⟩,
   ⟨S, (entered ((.stfeSf 3 1 0 0)) S), 3, 1, 0, 0, _, _, _, _, rfl, by unfold LocalOk; decide +kernel, by decide +kernel, ok_spec (d := (m0)) (by decide +kernel), tup3 (by decide +kernel), issues_entered (by decide +kernel)⟩,
   ⟨Sempty, (entered ((.stfeWef 3 1 0 0)) Sempty), 3, 1, 0, 0, _, _, _, _, rfl, by unfold LocalOk; decide +kernel, by decide +kernel, ok_spec (d := (m0)) (by decide +kernel), tup3 (by decide +kernel), issues_entered (by decide +kernel)⟩,
   ⟨S, (entered ((.stfeSe 1 0 0)) S), 1, 0, 0, _, _, _, rfl, by unfold LocalOk; decide +kernel, by decide +kernel, tup3 (by decide +kernel), issues_entered (by decide +kernel)⟩⟩

/-- Hypotheses of `Obligations.FullEmptyEffect`. -/
theorem wit_FullEmptyEffect :
    (∃ (m : M) (off : Nat) (k : AccKind) (data : W64), off + 8 ≤ 0x3C000 ∧ feReady k (m.core.mem.full off) = false) ∧
    (∃ (m : M) (off : Nat) (md : BitVec 2) (data : W64), off + 8 ≤ 0x3C000 ∧ off % 8 = 0 ∧ m.core.mem.wf = true ∧ m.core.localWaits = [] ∧ feReady (.stfe md) (m.core.mem.full off) = true) ∧
    (∃ (m : M) (off : Nat) (md : BitVec 2), off + 8 ≤ 0x3C000 ∧ off % 8 = 0 ∧ m.core.mem.wf = true ∧ m.core.localWaits = [] ∧ feReady (.ldfe md) (m.core.mem.full off) = true) :=
  ⟨⟨m0, 0x3BFF8, (.stfe 1), 0, by decide +kernel, by decide +kernel⟩,
   ⟨m0, 0x3BFF8, 0, 0, by decide +kernel, by decide +kernel, by decide +kernel, by decide +kernel, by decide +kernel⟩,
   ⟨m0, 0, 0, by decide +kernel, by decide +kernel, by decide +kernel, by decide +kernel, by decide +kernel⟩⟩

/-- Hypotheses of `Obligations.AtomicOperations`. -/
theorem wit_AtomicOperations :
    (∃ (s : State) (m : M) (d : F6) (a : F6) (b : F6) (sc : BitVec 3) (r : MRef), r = m.refAt a 0 ∧ LocalOk m r [.atom] 8 ∧ m.acqPending = false ∧ Issues (.amoAdd d a b sc) s m) ∧
    (∃ (s : State) (m : M) (d : F6) (a : F6) (b : F6) (sc : BitVec 3) (r : MRef) (m1 : M) (old : Nat) (t : Bool) (done : Bool), r = m.refAt a 0 ∧ m.restartCheck r.c = .ok () ∧ checkRef r [.atom] 8 = .ok () ∧ r.c.kind = 0 ∧ m.acqPending = false ∧ (m.atomAt r.c r.va 8 sc false (fun old _ => some (amoOp 0 8 old (m.int b).toNat, false)) = .ok (m1, old, t, done)) ∧ Issues (.amoAdd d a b sc) s m) ∧
    (∃ (s : State) (m : M) (d : F6) (a : F6) (b : F6) (sc : BitVec 3) (r : MRef), r = m.refAt a 0 ∧ LocalOk m r [.atom] 8 ∧ m.acqPending = false ∧ Issues (.amoAnd d a b sc) s m) ∧
    (∃ (s : State) (m : M) (d : F6) (a : F6) (b : F6) (sc : BitVec 3) (r : MRef) (m1 : M) (old : Nat) (t : Bool) (done : Bool), r = m.refAt a 0 ∧ m.restartCheck r.c = .ok () ∧ checkRef r [.atom] 8 = .ok () ∧ r.c.kind = 0 ∧ m.acqPending = false ∧ (m.atomAt r.c r.va 8 sc false (fun old _ => some (amoOp 1 8 old (m.int b).toNat, false)) = .ok (m1, old, t, done)) ∧ Issues (.amoAnd d a b sc) s m) ∧
    (∃ (s : State) (m : M) (d : F6) (a : F6) (b : F6) (sc : BitVec 3) (r : MRef), r = m.refAt a 0 ∧ LocalOk m r [.atom] 8 ∧ m.acqPending = false ∧ Issues (.amoOr d a b sc) s m) ∧
    (∃ (s : State) (m : M) (d : F6) (a : F6) (b : F6) (sc : BitVec 3) (r : MRef) (m1 : M) (old : Nat) (t : Bool) (done : Bool), r = m.refAt a 0 ∧ m.restartCheck r.c = .ok () ∧ checkRef r [.atom] 8 = .ok () ∧ r.c.kind = 0 ∧ m.acqPending = false ∧ (m.atomAt r.c r.va 8 sc false (fun old _ => some (amoOp 2 8 old (m.int b).toNat, false)) = .ok (m1, old, t, done)) ∧ Issues (.amoOr d a b sc) s m) ∧
    (∃ (s : State) (m : M) (d : F6) (a : F6) (b : F6) (sc : BitVec 3) (r : MRef), r = m.refAt a 0 ∧ LocalOk m r [.atom] 8 ∧ m.acqPending = false ∧ Issues (.amoXor d a b sc) s m) ∧
    (∃ (s : State) (m : M) (d : F6) (a : F6) (b : F6) (sc : BitVec 3) (r : MRef) (m1 : M) (old : Nat) (t : Bool) (done : Bool), r = m.refAt a 0 ∧ m.restartCheck r.c = .ok () ∧ checkRef r [.atom] 8 = .ok () ∧ r.c.kind = 0 ∧ m.acqPending = false ∧ (m.atomAt r.c r.va 8 sc false (fun old _ => some (amoOp 3 8 old (m.int b).toNat, false)) = .ok (m1, old, t, done)) ∧ Issues (.amoXor d a b sc) s m) ∧
    (∃ (s : State) (m : M) (d : F6) (a : F6) (b : F6) (sc : BitVec 3) (r : MRef), r = m.refAt a 0 ∧ LocalOk m r [.atom] 8 ∧ m.acqPending = false ∧ Issues (.amoMin d a b sc) s m) ∧
    (∃ (s : State) (m : M) (d : F6) (a : F6) (b : F6) (sc : BitVec 3) (r : MRef) (m1 : M) (old : Nat) (t : Bool) (done : Bool), r = m.refAt a 0 ∧ m.restartCheck r.c = .ok () ∧ checkRef r [.atom] 8 = .ok () ∧ r.c.kind = 0 ∧ m.acqPending = false ∧ (m.atomAt r.c r.va 8 sc false (fun old _ => some (amoOp 4 8 old (m.int b).toNat, false)) = .ok (m1, old, t, done)) ∧ Issues (.amoMin d a b sc) s m) ∧
    (∃ (s : State) (m : M) (d : F6) (a : F6) (b : F6) (sc : BitVec 3) (r : MRef), r = m.refAt a 0 ∧ LocalOk m r [.atom] 8 ∧ m.acqPending = false ∧ Issues (.amoMax d a b sc) s m) ∧
    (∃ (s : State) (m : M) (d : F6) (a : F6) (b : F6) (sc : BitVec 3) (r : MRef) (m1 : M) (old : Nat) (t : Bool) (done : Bool), r = m.refAt a 0 ∧ m.restartCheck r.c = .ok () ∧ checkRef r [.atom] 8 = .ok () ∧ r.c.kind = 0 ∧ m.acqPending = false ∧ (m.atomAt r.c r.va 8 sc false (fun old _ => some (amoOp 5 8 old (m.int b).toNat, false)) = .ok (m1, old, t, done)) ∧ Issues (.amoMax d a b sc) s m) ∧
    (∃ (s : State) (m : M) (d : F6) (a : F6) (b : F6) (sc : BitVec 3) (r : MRef), r = m.refAt a 0 ∧ LocalOk m r [.atom] 8 ∧ m.acqPending = false ∧ Issues (.amoMinu d a b sc) s m) ∧
    (∃ (s : State) (m : M) (d : F6) (a : F6) (b : F6) (sc : BitVec 3) (r : MRef) (m1 : M) (old : Nat) (t : Bool) (done : Bool), r = m.refAt a 0 ∧ m.restartCheck r.c = .ok () ∧ checkRef r [.atom] 8 = .ok () ∧ r.c.kind = 0 ∧ m.acqPending = false ∧ (m.atomAt r.c r.va 8 sc false (fun old _ => some (amoOp 6 8 old (m.int b).toNat, false)) = .ok (m1, old, t, done)) ∧ Issues (.amoMinu d a b sc) s m) ∧
    (∃ (s : State) (m : M) (d : F6) (a : F6) (b : F6) (sc : BitVec 3) (r : MRef), r = m.refAt a 0 ∧ LocalOk m r [.atom] 8 ∧ m.acqPending = false ∧ Issues (.amoSwap d a b sc) s m) ∧
    (∃ (s : State) (m : M) (d : F6) (a : F6) (b : F6) (sc : BitVec 3) (r : MRef) (m1 : M) (old : Nat) (t : Bool) (done : Bool), r = m.refAt a 0 ∧ m.restartCheck r.c = .ok () ∧ checkRef r [.atom] 8 = .ok () ∧ r.c.kind = 0 ∧ m.acqPending = false ∧ (m.atomAt r.c r.va 8 sc false (fun old _ => some (amoOp 7 8 old (m.int b).toNat, false)) = .ok (m1, old, t, done)) ∧ Issues (.amoSwap d a b sc) s m) :=
  ⟨⟨S, (entered ((.amoAdd 9 1 3 1)) S), 9, 1, 3, 1, _, rfl, by unfold LocalOk; decide +kernel, by decide +kernel, issues_entered (by decide +kernel)⟩,
   ⟨S, (entered ((.amoAdd 9 2 3 1)) S), 9, 2, 3, 1, _, _, _, _, _, rfl, ok_unit (by decide +kernel), ok_unit (by decide +kernel), by decide +kernel, by decide +kernel, ok_spec4 (d := (m0, 0, false, false)) (by decide +kernel), issues_entered (by decide +kernel)⟩,
   ⟨S, (entered ((.amoAnd 9 1 3 1)) S), 9, 1, 3, 1, _, rfl, by unfold LocalOk; decide +kernel, by decide +kernel, issues_entered (by decide +kernel)⟩,
   ⟨S, (entered ((.amoAnd 9 2 3 1)) S), 9, 2, 3, 1, _, _, _, _, _, rfl, ok_unit (by decide +kernel), ok_unit (by decide +kernel), by decide +kernel, by decide +kernel, ok_spec4 (d := (m0, 0, false, false)) (by decide +kernel), issues_entered (by decide +kernel)⟩,
   ⟨S, (entered ((.amoOr 9 1 3 1)) S), 9, 1, 3, 1, _, rfl, by unfold LocalOk; decide +kernel, by decide +kernel, issues_entered (by decide +kernel)⟩,
   ⟨S, (entered ((.amoOr 9 2 3 1)) S), 9, 2, 3, 1, _, _, _, _, _, rfl, ok_unit (by decide +kernel), ok_unit (by decide +kernel), by decide +kernel, by decide +kernel, ok_spec4 (d := (m0, 0, false, false)) (by decide +kernel), issues_entered (by decide +kernel)⟩,
   ⟨S, (entered ((.amoXor 9 1 3 1)) S), 9, 1, 3, 1, _, rfl, by unfold LocalOk; decide +kernel, by decide +kernel, issues_entered (by decide +kernel)⟩,
   ⟨S, (entered ((.amoXor 9 2 3 1)) S), 9, 2, 3, 1, _, _, _, _, _, rfl, ok_unit (by decide +kernel), ok_unit (by decide +kernel), by decide +kernel, by decide +kernel, ok_spec4 (d := (m0, 0, false, false)) (by decide +kernel), issues_entered (by decide +kernel)⟩,
   ⟨S, (entered ((.amoMin 9 1 3 1)) S), 9, 1, 3, 1, _, rfl, by unfold LocalOk; decide +kernel, by decide +kernel, issues_entered (by decide +kernel)⟩,
   ⟨S, (entered ((.amoMin 9 2 3 1)) S), 9, 2, 3, 1, _, _, _, _, _, rfl, ok_unit (by decide +kernel), ok_unit (by decide +kernel), by decide +kernel, by decide +kernel, ok_spec4 (d := (m0, 0, false, false)) (by decide +kernel), issues_entered (by decide +kernel)⟩,
   ⟨S, (entered ((.amoMax 9 1 3 1)) S), 9, 1, 3, 1, _, rfl, by unfold LocalOk; decide +kernel, by decide +kernel, issues_entered (by decide +kernel)⟩,
   ⟨S, (entered ((.amoMax 9 2 3 1)) S), 9, 2, 3, 1, _, _, _, _, _, rfl, ok_unit (by decide +kernel), ok_unit (by decide +kernel), by decide +kernel, by decide +kernel, ok_spec4 (d := (m0, 0, false, false)) (by decide +kernel), issues_entered (by decide +kernel)⟩,
   ⟨S, (entered ((.amoMinu 9 1 3 1)) S), 9, 1, 3, 1, _, rfl, by unfold LocalOk; decide +kernel, by decide +kernel, issues_entered (by decide +kernel)⟩,
   ⟨S, (entered ((.amoMinu 9 2 3 1)) S), 9, 2, 3, 1, _, _, _, _, _, rfl, ok_unit (by decide +kernel), ok_unit (by decide +kernel), by decide +kernel, by decide +kernel, ok_spec4 (d := (m0, 0, false, false)) (by decide +kernel), issues_entered (by decide +kernel)⟩,
   ⟨S, (entered ((.amoSwap 9 1 3 1)) S), 9, 1, 3, 1, _, rfl, by unfold LocalOk; decide +kernel, by decide +kernel, issues_entered (by decide +kernel)⟩,
   ⟨S, (entered ((.amoSwap 9 2 3 1)) S), 9, 2, 3, 1, _, _, _, _, _, rfl, ok_unit (by decide +kernel), ok_unit (by decide +kernel), by decide +kernel, by decide +kernel, ok_spec4 (d := (m0, 0, false, false)) (by decide +kernel), issues_entered (by decide +kernel)⟩⟩

/-- Hypotheses of `Obligations.AtomicOperations`. -/
theorem wit_CompareAndSwap :
    (∃ (s : State) (m : M) (o : XOp) (r : MRef) (n : Nat), n = szBytes (o.x.t2.setWidth 3) ∧ r = m.refAt o.a (immOff (some o.x)) ∧ o.x.ord = 0 ∧ LocalOk m r [.atom] n ∧ m.acqPending = false ∧ m.localRead r.va n = (m.int o.x.b).toNat % 2 ^ (8 * n) ∧ Issues (.cas o) s m) ∧
    (∃ (s : State) (m : M) (o : XOp) (r : MRef) (n : Nat), n = szBytes (o.x.t2.setWidth 3) ∧ r = m.refAt o.a (immOff (some o.x)) ∧ o.x.ord = 0 ∧ LocalOk m r [.atom] n ∧ m.acqPending = false ∧ m.localRead r.va n ≠ (m.int o.x.b).toNat % 2 ^ (8 * n) ∧ Issues (.cas o) s m) ∧
    (∃ (s : State) (m : M) (o : XOp) (r : MRef), r = m.refAt o.a (immOff (some o.x)) ∧ o.x.ord = 0 ∧ LocalOk m r [.atom, .tgr, .tgw] 16 ∧ m.acqPending = false ∧ (m.localRead r.va 16 = (m.src o.x.b).bits.toNat ∧ m.localTag r.va = (m.src o.x.b).tag) ∧ Issues (.casq o) s m) ∧
    (∃ (s : State) (m : M) (o : XOp) (r : MRef), r = m.refAt o.a (immOff (some o.x)) ∧ o.x.ord = 0 ∧ LocalOk m r [.atom, .tgr, .tgw] 16 ∧ m.acqPending = false ∧ (¬(m.localRead r.va 16 = (m.src o.x.b).bits.toNat ∧ m.localTag r.va = (m.src o.x.b).tag)) ∧ Issues (.casq o) s m) :=
  ⟨⟨S, (entered ((.cas ({ d := 9, a := 1, x := { t2 := 3, b := 5, c := 4 }, lit := none }))) S), { d := 9, a := 1, x := { t2 := 3, b := 5, c := 4 }, lit := none }, _, _, rfl, rfl, by decide +kernel, by unfold LocalOk; decide +kernel, by decide +kernel, by decide +kernel, issues_entered (by decide +kernel)⟩,
   ⟨S, (entered ((.cas ({ d := 9, a := 1, x := { t2 := 3, b := 3, c := 4 }, lit := none }))) S), { d := 9, a := 1, x := { t2 := 3, b := 3, c := 4 }, lit := none }, _, _, rfl, rfl, by decide +kernel, by unfold LocalOk; decide +kernel, by decide +kernel, by decide +kernel, issues_entered (by decide +kernel)⟩,
   ⟨S, (entered ((.casq ({ d := 9, a := 1, x := { t2 := 3, b := 5, c := 4 }, lit := none }))) S), { d := 9, a := 1, x := { t2 := 3, b := 5, c := 4 }, lit := none }, _, rfl, by decide +kernel, by unfold LocalOk; decide +kernel, by decide +kernel, by decide +kernel, issues_entered (by decide +kernel)⟩,
   ⟨S, (entered ((.casq ({ d := 9, a := 1, x := { t2 := 3, b := 3, c := 4 }, lit := none }))) S), { d := 9, a := 1, x := { t2 := 3, b := 3, c := 4 }, lit := none }, _, rfl, by decide +kernel, by unfold LocalOk; decide +kernel, by decide +kernel, by decide +kernel, issues_entered (by decide +kernel)⟩⟩

/-- Hypotheses of `Obligations.FencesAndCaches`. -/
theorem wit_FencesAndCaches :
    (∃ (s : State) (m : M) (sc : Scope) (ord : BitVec 2) (eng : Bool) (m2 : M), m.acqPending = false ∧ fabric sc = false ∧ (sc == 0 && m.ownWindow) = false ∧ (eng && m.engBusy) = false ∧ m.ordered ord sc Except.ok = .ok m2 ∧ Issues (.fence sc ord eng) s m) ∧
    (∃ (s : State) (m : M) (sc : Scope) (ord : BitVec 2) (eng : Bool) (m2 : M), m.tickets = [] ∧ (eng && m.engBusy) = false ∧ m.ordered ord sc Except.ok = .ok m2 ∧ Issues (.fence sc ord eng) s m) ∧
    (∃ (s : State) (m : M) (a : F6) (b : F6) (va : Nat), checkCap a (m.src a) [0, 1] [.ld] = .ok () ∧ checkBounds (m.src a) va (m.int b).toNat = .ok () ∧ va = (m.src a).cursor.toNat ∧ ((m.src a).kind = 1 ∨ (m.int b).toNat = 0) ∧ Issues (.cwb a b) s m) ∧
    (∃ (s : State) (m : M) (a : F6) (b : F6) (va : Nat) (m1 : M), checkCap a (m.src a) [0, 1] [.ld] = .ok () ∧ checkBounds (m.src a) va (m.int b).toNat = .ok () ∧ va = (m.src a).cursor.toNat ∧ (¬((m.src a).kind = 1 ∨ (m.int b).toNat = 0)) ∧ (m.l1Clean (fun l => l.ctx == m.core.ctx && lineIn va (m.int b).toNat l.va) false = .ok m1) ∧ Issues (.cwb a b) s m) ∧
    (∃ (s : State) (m : M) (a : F6) (b : F6) (va : Nat), checkCap a (m.src a) [0, 1] [.ld] = .ok () ∧ checkBounds (m.src a) va (m.int b).toNat = .ok () ∧ va = (m.src a).cursor.toNat ∧ ((m.src a).kind = 1 ∨ (m.int b).toNat = 0) ∧ Issues (.cinv a b) s m) ∧
    (∃ (s : State) (m : M) (a : F6) (b : F6) (va : Nat) (m1 : M), checkCap a (m.src a) [0, 1] [.ld] = .ok () ∧ checkBounds (m.src a) va (m.int b).toNat = .ok () ∧ va = (m.src a).cursor.toNat ∧ (¬((m.src a).kind = 1 ∨ (m.int b).toNat = 0)) ∧ (m.l1Clean (fun l => l.ctx == m.core.ctx && lineIn va (m.int b).toNat l.va) true = .ok m1) ∧ Issues (.cinv a b) s m) ∧
    (∃ (s : State) (m : M) (a : F6) (b : F6) (va : Nat), checkCap a (m.src a) [0, 1] [.ld] = .ok () ∧ checkBounds (m.src a) va (m.int b).toNat = .ok () ∧ va = (m.src a).cursor.toNat ∧ ((m.src a).kind = 1 ∨ (m.int b).toNat = 0) ∧ Issues (.cwbinv a b) s m) ∧
    (∃ (s : State) (m : M) (a : F6) (b : F6) (va : Nat) (m1 : M), checkCap a (m.src a) [0, 1] [.ld] = .ok () ∧ checkBounds (m.src a) va (m.int b).toNat = .ok () ∧ va = (m.src a).cursor.toNat ∧ (¬((m.src a).kind = 1 ∨ (m.int b).toNat = 0)) ∧ (m.l1Clean (fun l => l.ctx == m.core.ctx && lineIn va (m.int b).toNat l.va) true = .ok m1) ∧ Issues (.cwbinv a b) s m) ∧
    (∃ (s : State) (m : M) (a : F6) (b : F6) (va : Nat), checkCap a (m.src a) [0, 1] [.ld] = .ok () ∧ checkBounds (m.src a) va (m.int b).toNat = .ok () ∧ va = (m.src a).cursor.toNat ∧ ((m.src a).kind = 1 ∨ (m.int b).toNat = 0) ∧ Issues (.cpre a b) s m) ∧
    (∃ (s : State) (m : M) (a : F6) (b : F6) (va : Nat), checkCap a (m.src a) [0, 1] [.ld] = .ok () ∧ checkBounds (m.src a) va (m.int b).toNat = .ok () ∧ va = (m.src a).cursor.toNat ∧ (¬((m.src a).kind = 1 ∨ (m.int b).toNat = 0)) ∧ Issues (.cpre a b) s m) :=
  ⟨⟨S, (entered ((.fence 1 0 false)) S), 1, 0, false, _, by decide +kernel, by decide +kernel, by decide +kernel, by decide +kernel, ok_spec (d := (m0)) (by decide +kernel), issues_entered (by decide +kernel)⟩,
   ⟨S, (entered ((.fence 1 0 false)) S), 1, 0, false, _, by decide +kernel, by decide +kernel, ok_spec (d := (m0)) (by decide +kernel), issues_entered (by decide +kernel)⟩,
   ⟨S, (entered ((.cwb 2 5)) S), 2, 5, _, ok_unit (by decide +kernel), ok_unit (by decide +kernel), rfl, by decide +kernel, issues_entered (by decide +kernel)⟩,
   ⟨S, (entered ((.cwb 2 11)) S), 2, 11, _, _, ok_unit (by decide +kernel), ok_unit (by decide +kernel), rfl, by decide +kernel, ok_spec (d := (m0)) (by decide +kernel), issues_entered (by decide +kernel)⟩,
   ⟨S, (entered ((.cinv 2 5)) S), 2, 5, _, ok_unit (by decide +kernel), ok_unit (by decide +kernel), rfl, by decide +kernel, issues_entered (by decide +kernel)⟩,
   ⟨S, (entered ((.cinv 2 11)) S), 2, 11, _, _, ok_unit (by decide +kernel), ok_unit (by decide +kernel), rfl, by decide +kernel, ok_spec (d := (m0)) (by decide +kernel), issues_entered (by decide +kernel)⟩,
   ⟨S, (entered ((.cwbinv 2 5)) S), 2, 5, _, ok_unit (by decide +kernel), ok_unit (by decide +kernel), rfl, by decide +kernel, issues_entered (by decide +kernel)⟩,
   ⟨S, (entered ((.cwbinv 2 11)) S), 2, 11, _, _, ok_unit (by decide +kernel), ok_unit (by decide +kernel), rfl, by decide +kernel, ok_spec (d := (m0)) (by decide +kernel), issues_entered (by decide +kernel)⟩,
   ⟨S, (entered ((.cpre 2 5)) S), 2, 5, _, ok_unit (by decide +kernel), ok_unit (by decide +kernel), rfl, by decide +kernel, issues_entered (by decide +kernel)⟩,
   ⟨S, (entered ((.cpre 2 11)) S), 2, 11, _, ok_unit (by decide +kernel), ok_unit (by decide +kernel), rfl, by decide +kernel, issues_entered (by decide +kernel)⟩⟩

/-- Hypotheses of `Obligations.VectorArithmetic`. -/
theorem wit_VectorArithmetic :
    (∀ i ∈ [(.vadd 3 5 3 4), (.vsub 3 5 3 4), (.vmul 3 5 3 4), (.vmin 3 5 3 4), (.vmax 3 5 3 4), (.vabs 3 5 3), (.vneg 3 5 3), (.vabd 3 5 3 4), (.vfma 3 5 3 4), (.vfms 3 5 3 4), (.vfnma 3 5 3 4), (.vfnms 3 5 3 4), (.vdot4 3 5 3 4), (.vdot2 3 5 3 4), (.vmulh 3 5 3 4), (.vsad 3 5 3 4), (.vand 3 5 3 4), (.vor 3 5 3 4), (.vxor 3 5 3 4), (.vandn 3 5 3 4), (.vsll 3 5 3 4), (.vsrl 3 5 3 4), (.vsra 3 5 3 4), (.vnot 3 5 3), (.vrcp 3 5 3), (.vrsqrt 3 5 3), (.vsqrt 3 5 3), (.vdiv 3 5 3 4), (.vexp2 3 5 3), (.vlog2 3 5 3), (.vtanh 3 5 3), (.vsigm 3 5 3), (.vradd 3 5 3), (.vrmax 3 5 3), (.vrmin 3 5 3), (.vrand 3 5 3), (.vror 3 5 3), (.vrxor 3 5 3), (.vscan 3 5 3), (.vrsum 3 5 3)], Issues i S (entered i S)) :=
  issues_all (by decide +kernel)

/-- Hypotheses of `Obligations.VectorCompareConvertMove`. -/
theorem wit_VectorCompareConvertMove :
    (∀ i ∈ [(.vceq 3 5 3 4), (.vcne 3 5 3 4), (.vclt 3 5 3 4), (.vcle 3 5 3 4), (.vcgt 3 5 3 4), (.vcge 3 5 3 4), (.vcltu 3 5 3 4), (.vcun 3 5 3 4), (.vcvt 3 5 3 4), (.vcvtSat 3 5 3 4), (.vwid 3 5 3 4), (.vwidh 3 5 3 4), (.vnar 3 5 3 4), (.vrint 3 5 3 4), (.vbc 3 5 3 4), (.vshf 3 5 3 4), (.vrot 3 5 3 4), (.vext 3 5 3 4), (.vins 3 5 3 4), (.vzip 3 5 3 4), (.vuzp 3 5 3 4), (.vcpr 3 5 3 1), (.vsacc 5 3 4), (.vxpk 5 3), (.vxacc 5 3), (.vxfin 5 3), (.vbsc 5 3 4), (.vmov 3 5 3), (.vzero 3 5), (.vfill 3 5 3), (.vkmov 3 5 1), (.vwbc 3 5 3 4)], Issues i S (entered i S)) ∧
    (∃ (s : State) (m : M) (t : BitVec 3) (o : XOp) (src : VTy), VTy.ofCode (o.x.c.toNat % 16) = some src ∧ Issues (.vqn4p t o) s m) ∧
    (∃ (s : State) (m : M) (t : BitVec 3) (o : XOp) (ty : VTy), VTy.ofCode t.toNat = some ty ∧ Issues (.vqn4u t o) s m) :=
  ⟨issues_all (by decide +kernel),
   ⟨S, (entered ((.vqn4p ((3 : BitVec 3)) ({ d := 5, a := 3, x := { b := 4, c := 3 }, lit := none }))) S), (3 : BitVec 3), { d := 5, a := 3, x := { b := 4, c := 3 }, lit := none }, _, some_spec (d := VTy.i32) (by decide +kernel), issues_entered (by decide +kernel)⟩,
   ⟨S, (entered ((.vqn4u ((3 : BitVec 3)) ({ d := 5, a := 3, x := { b := 4, c := 3 }, lit := none }))) S), (3 : BitVec 3), { d := 5, a := 3, x := { b := 4, c := 3 }, lit := none }, _, some_spec (d := VTy.i32) (by decide +kernel), issues_entered (by decide +kernel)⟩⟩

/-- Hypotheses of `Obligations.VectorElements`. -/
theorem wit_VectorElements :
    (∃ (i : VIn) (s : Nat) (f : Nat → FRes) (j : Nat), s ∈ [1, 2, 4, 8] ∧ j < 64 / s) ∧
    (∃ (i : VIn) (j : Nat), i.ty.fmt = none ∧ j < 64 / i.ty.size ∧ i.mask.getLsbD (i.ty.size * j) = true) ∧
    (∃ (i : VIn) (j : Nat), i.ty.fmt = none ∧ j < 64 / i.ty.size ∧ i.mask.getLsbD (i.ty.size * j) = true) ∧
    (∃ (i : VIn) (j : Nat), i.ty.fmt = none ∧ j < 64 / i.ty.size ∧ i.mask.getLsbD (i.ty.size * j) = true) ∧
    (∃ (i : VIn) (j : Nat), i.ty.fmt = none ∧ j < 64 / i.ty.size ∧ i.mask.getLsbD (i.ty.size * j) = true) ∧
    (∃ (i : VIn) (j : Nat), i.ty.fmt = none ∧ j < 64 / i.ty.size ∧ i.mask.getLsbD (i.ty.size * j) = true) ∧
    (∃ (i : VIn) (j : Nat), i.ty.fmt = none ∧ j < 64 / i.ty.size ∧ i.mask.getLsbD (i.ty.size * j) = true) ∧
    (∃ (i : VIn) (j : Nat), i.ty.fmt = none ∧ j < 64 / i.ty.size ∧ i.mask.getLsbD (i.ty.size * j) = true) ∧
    (∃ (i : VIn) (j : Nat), i.ty.fmt = none ∧ j < 64 / i.ty.size ∧ i.mask.getLsbD (i.ty.size * j) = true) ∧
    (∃ (i : VIn) (j : Nat), i.ty.fmt = none ∧ j < 64 / i.ty.size ∧ i.mask.getLsbD (i.ty.size * j) = true) ∧
    (∃ (i : VIn) (j : Nat), i.ty.fmt = none ∧ j < 64 / i.ty.size ∧ i.mask.getLsbD (i.ty.size * j) = true) ∧
    (∃ (i : VIn) (j : Nat), j < 64 / i.ty.size ∧ i.mask.getLsbD (i.ty.size * j) = true) ∧
    (∃ (i : VIn) (j : Nat), j < 64 / i.ty.size ∧ i.mask.getLsbD (i.ty.size * j) = true) ∧
    (∃ (i : VIn) (j : Nat), j < 64 / i.ty.size ∧ i.mask.getLsbD (i.ty.size * j) = true) :=
  ⟨⟨{ ty := .i32, a := 1, b := 2, d := 0, mask := 1 }, 4, (fun _ => ⟨0, 0⟩), 15, by decide +kernel, by decide +kernel⟩,
   ⟨{ ty := .i32, a := 1, b := 2, d := 0, mask := 1 }, 0, by decide +kernel, by decide +kernel, by decide +kernel⟩,
   ⟨{ ty := .i32, a := 1, b := 2, d := 0, mask := 1 }, 0, by decide +kernel, by decide +kernel, by decide +kernel⟩,
   ⟨{ ty := .i32, a := 1, b := 2, d := 0, mask := 1 }, 0, by decide +kernel, by decide +kernel, by decide +kernel⟩,
   ⟨{ ty := .i32, a := 1, b := 2, d := 0, mask := 1 }, 0, by decide +kernel, by decide +kernel, by decide +kernel⟩,
   ⟨{ ty := .i32, a := 1, b := 2, d := 0, mask := 1 }, 0, by decide +kernel, by decide +kernel, by decide +kernel⟩,
   ⟨{ ty := .i32, a := 1, b := 2, d := 0, mask := 1 }, 0, by decide +kernel, by decide +kernel, by decide +kernel⟩,
   ⟨{ ty := .i32, a := 1, b := 2, d := 0, mask := 1 }, 0, by decide +kernel, by decide +kernel, by decide +kernel⟩,
   ⟨{ ty := .i32, a := 1, b := 2, d := 0, mask := 1 }, 0, by decide +kernel, by decide +kernel, by decide +kernel⟩,
   ⟨{ ty := .i32, a := 1, b := 2, d := 0, mask := 1 }, 0, by decide +kernel, by decide +kernel, by decide +kernel⟩,
   ⟨{ ty := .i32, a := 1, b := 2, d := 0, mask := 1 }, 0, by decide +kernel, by decide +kernel, by decide +kernel⟩,
   ⟨{ ty := .i32, a := 1, b := 2, d := 0, mask := 1 }, 0, by decide +kernel, by decide +kernel⟩,
   ⟨{ ty := .i32, a := 1, b := 2, d := 0, mask := 1 }, 0, by decide +kernel, by decide +kernel⟩,
   ⟨{ ty := .i32, a := 1, b := 2, d := 0, mask := 1 }, 0, by decide +kernel, by decide +kernel⟩⟩

/-- Two tenures that between them, but neither alone, cover a row. -/
def STwo : State := tileSet name1 region1 (tcore fun c => { c with tenures := [⟨0, 1, ⟨0, 0, 1, 4⟩, true, true⟩, ⟨1, 1, ⟨0, 4, 1, 4⟩, true, true⟩] })

/-- Hypotheses of `Obligations.VectorLoadsAndStores`. -/
theorem wit_VectorLoadsAndStores :
    (∃ (s : State) (m : M) (d : F6) (a : F6) (sz : BitVec 3) (am : BitVec 2) (ea : BitVec 7) (v : VAcc), v = m.vacc {} a sz am ea ∧ v.r.c.tag = true ∧ v.r.c.kind = 1 ∧ capHas v.r.c .ld = true ∧ m.acqPending = false ∧ (((∀ j < v.n, v.r.c.base ≤ v.at_ j ∧ v.at_ j + v.s ≤ v.r.c.top ∧ v.at_ j % v.s = 0 ∧ v.at_ j + v.s ≤ 0x3C000))) ∧ Issues (.vld d a sz am ea) s m) ∧
    (∃ (s : State) (m : M) (d : F6) (a : F6) (sz : BitVec 3) (am : BitVec 2) (ea : BitVec 7) (v : VAcc) (m1 : M) (w : V512), v = m.vacc {} a sz am ea ∧ v.r.c.kind = 0 ∧ checkCap a v.r.c (if am = 3 then [0, 1] else [0, 1, 6]) [.ld] = .ok () ∧ m.acqPending = false ∧ m.vfaults v false = [] ∧ m.vloadAll v v.acts (m.vsrc d v.s) = .ok (m1, w) ∧ Issues (.vld d a sz am ea) s m) ∧
    (∃ (s : State) (m : M) (d : F6) (a : F6) (sz : BitVec 3) (am : BitVec 2) (ea : BitVec 7) (v : VAcc), v = m.vacc {} a sz am ea ∧ v.r.c.tag = true ∧ v.r.c.kind = 1 ∧ capHas v.r.c .st = true ∧ m.acqPending = false ∧ (((∀ j < v.n, v.r.c.base ≤ v.at_ j ∧ v.at_ j + v.s ≤ v.r.c.top ∧ v.at_ j % v.s = 0 ∧ v.at_ j + v.s ≤ 0x3C000))) ∧ Issues (.vst d a sz am ea) s m) ∧
    (∃ (s : State) (m : M) (d : F6) (a : F6) (sz : BitVec 3) (am : BitVec 2) (ea : BitVec 7) (v : VAcc) (m1 : M), v = m.vacc {} a sz am ea ∧ v.r.c.kind = 0 ∧ m.restartCheck v.r.c = .ok () ∧ checkCap a v.r.c (if am = 3 then [0, 1] else [0, 1, 6]) [.st] = .ok () ∧ m.acqPending = false ∧ m.vfaults v true = [] ∧ m.uncovered (v.touched v.acts) true = [] ∧ ((if am != 3 && v.r.c.kind == 0 && decide (v.acts.length = v.n) && v.r.va % 64 == 0 then m.storeAt v.r.c v.r.va 64 (m.vsrc d v.s).toNat none false else v.acts.foldlM (fun m1 j => m1.storeAt v.r.c (v.at_ j) v.s (elem (m.vsrc d v.s) v.s j) none false) m) = .ok m1) ∧ Issues (.vst d a sz am ea) s m) ∧
    (∃ (s : State) (m : M) (d : F6) (a : F6) (sz : BitVec 3) (am : BitVec 2) (ea : BitVec 7) (v : VAcc), v = m.vacc {} a sz am ea ∧ v.r.c.kind = 0 ∧ m.restartCheck v.r.c = .ok () ∧ checkCap a v.r.c (if am = 3 then [0, 1] else [0, 1, 6]) [.st] = .ok () ∧ m.acqPending = false ∧ m.vfaults v true = [] ∧ m.uncovered (v.touched v.acts) true ≠ [] ∧ Issues (.vst d a sz am ea) s m) :=
  ⟨⟨S, (entered ((.vld 1 1 3 0 0)) S), 1, 1, 3, 0, 0, _, rfl, by decide +kernel, by decide +kernel, by decide +kernel, by decide +kernel, by decide +kernel, issues_entered (by decide +kernel)⟩,
   ⟨S, (entered ((.vld 1 2 3 0 0)) S), 1, 2, 3, 0, 0, _, _, _, rfl, by decide +kernel, ok_unit (by decide +kernel), by decide +kernel, by decide +kernel, ok_spec2 (d := (m0, 0)) (by decide +kernel), issues_entered (by decide +kernel)⟩,
   ⟨S, (entered ((.vst 1 1 3 0 0)) S), 1, 1, 3, 0, 0, _, rfl, by decide +kernel, by decide +kernel, by decide +kernel, by decide +kernel, by decide +kernel, issues_entered (by decide +kernel)⟩,
   ⟨S, (entered ((.vst 1 2 3 0 0)) S), 1, 2, 3, 0, 0, _, _, rfl, by decide +kernel, ok_unit (by decide +kernel), ok_unit (by decide +kernel), by decide +kernel, by decide +kernel, by decide +kernel, ok_spec (d := (m0)) (by decide +kernel), issues_entered (by decide +kernel)⟩,
   ⟨STwo, (entered ((.vst 1 2 2 0 4)) STwo), 1, 2, 2, 0, 4, _, rfl, by decide +kernel, ok_unit (by decide +kernel), ok_unit (by decide +kernel), by decide +kernel, by decide +kernel, by decide +kernel, issues_entered (by decide +kernel)⟩⟩

/-- A tensor region of which a tenure is held. -/
def SHeld : State := tileSet name1 { region1 with recs := [{ launch := 0, team := 0, thr := 0, slot := 0, rect := ⟨0, 0, 1, 1⟩, write := true, held := true }] } (tcore id)

/-- Hypotheses of `Obligations.TileNamesAndHandles`. -/
theorem wit_HandleChecks :
    (∃ (m : M) (a : F6) (b : F6) (k : TKind) (need : List Nat) (also : List Nat) (r : TRef), r = tileRef m.st (m.src a) (m.int b) ∧ r.c.tag = false) ∧
    (∃ (m : M) (a : F6) (b : F6) (k : TKind) (need : List Nat) (also : List Nat) (r : TRef), r = tileRef m.st (m.src a) (m.int b) ∧ r.c.tag = true ∧ ((r.c.kind ≠ 2 ∨ k.fits r.c = false))) ∧
    (∃ (m : M) (a : F6) (b : F6) (k : TKind) (need : List Nat) (also : List Nat) (r : TRef), r = tileRef m.st (m.src a) (m.int b) ∧ r.c.tag = true ∧ r.c.kind = 2 ∧ k.fits r.c = true ∧ (¬((need.isEmpty = true ∨ need.any (Cap.tilePerm r.c) = true) ∧ also.all (Cap.tilePerm r.c) = true ∧ (r.own = true ∨ (Cap.tenured r.c = false ∧ Cap.tilePerm r.c tpRemote = true))))) ∧
    (∃ (m : M) (a : F6) (b : F6) (k : TKind) (need : List Nat) (also : List Nat) (r : TRef), r = tileRef m.st (m.src a) (m.int b) ∧ r.c.tag = true ∧ r.c.kind = 2 ∧ k.fits r.c = true ∧ ((need.isEmpty = true ∨ need.any (Cap.tilePerm r.c) = true) ∧ also.all (Cap.tilePerm r.c) = true ∧ (r.own = true ∨ (Cap.tenured r.c = false ∧ Cap.tilePerm r.c tpRemote = true))) ∧ r.inBounds m.st (m.int b) = false) ∧
    (∃ (m : M) (a : F6) (b : F6) (k : TKind) (need : List Nat) (also : List Nat) (r : TRef), r = tileRef m.st (m.src a) (m.int b) ∧ r.fault m.st (m.int b) k need also = none ∧ Cap.tenured r.c = false ∧ 65535 < r.ver) ∧
    (∃ (m : M) (a : F6) (b : F6) (k : TKind) (need : List Nat) (also : List Nat) (r : TRef), r = tileRef m.st (m.src a) (m.int b) ∧ r.fault m.st (m.int b) k need also = none ∧ r.own = true ∧ ((Cap.tenured r.c = true ∨ r.ver ≤ 65535)) ∧ r.live m.st = false) ∧
    (∃ (m : M) (a : F6) (b : F6) (k : TKind) (need : List Nat) (also : List Nat) (r : TRef), r = tileRef m.st (m.src a) (m.int b) ∧ r.c.tag = true ∧ r.c.kind = 2 ∧ k.fits r.c = true ∧ ((need.isEmpty = true ∨ need.any (Cap.tilePerm r.c) = true) ∧ also.all (Cap.tilePerm r.c) = true ∧ (r.own = true ∨ (Cap.tenured r.c = false ∧ Cap.tilePerm r.c tpRemote = true))) ∧ r.inBounds m.st (m.int b) = true ∧ ((Cap.tenured r.c = true ∨ r.ver ≤ 65535)) ∧ ((r.own = false ∨ r.live m.st = true))) :=
  ⟨⟨{ m0 with st := ST, thr := withTiles t0 }, 3, 5, .either, [], [], _, rfl, by decide +kernel⟩,
   ⟨{ m0 with st := ST, thr := withTiles t0 }, 14, 5, .versioned, [], [], _, rfl, by decide +kernel, by decide +kernel⟩,
   ⟨{ m0 with st := ST, thr := withTiles t0 }, 17, 5, .versioned, [tpRead], [], _, rfl, by decide +kernel, by decide +kernel, by decide +kernel, by decide +kernel⟩,
   ⟨{ m0 with st := ST, thr := withTiles t0 }, 14, 18, .tenured, [], [], _, rfl, by decide +kernel, by decide +kernel, by decide +kernel, by decide +kernel, by decide +kernel⟩,
   ⟨{ m0 with st := ST, thr := withTiles t0 }, 12, 2, .versioned, [], [], _, rfl, by decide +kernel, by decide +kernel, by decide +kernel⟩,
   ⟨{ m0 with st := ST, thr := withTiles t0 }, 19, 5, .versioned, [], [], _, rfl, by decide +kernel, by decide +kernel, by decide +kernel, by decide +kernel⟩,
   ⟨{ m0 with st := ST, thr := withTiles t0 }, 12, 5, .versioned, ([tpRead, tpPublish]), [], _, rfl, by decide +kernel, by decide +kernel, by decide +kernel, by decide +kernel, by decide +kernel, by decide +kernel, by decide +kernel⟩⟩

/-- Hypotheses of `Obligations.TileNamesAndHandles`. -/
theorem wit_TileNames :
    (∃ (s : State) (m : M) (o : XOp) (n : Nat) (x : TName), freshName m.st m.core.die = some n ∧ x = { name := n, gen := (m.st.tname? n).elim 0 (·.gen), ctx := m.core.ctx, gran := granulesOf (fieldOf (m.int o.a) 62 48 % 64 + 1) (fieldOf (m.int o.a) 62 48 / 64 % 64 + 1) (BitVec.ofNat 3 (fieldOf (m.int o.a) 62 48 / 2 ^ 12)), rows := fieldOf (m.int o.a) 62 48 % 64 + 1, cols := fieldOf (m.int o.a) 62 48 / 64 % 64 + 1, fmt := BitVec.ofNat 3 (fieldOf (m.int o.a) 62 48 / 2 ^ 12), dead := (m.st.tname? n).elim [] (·.dead) } ∧ Issues (.tnew o) s m) ∧
    (∃ (s : State) (m : M) (o : XOp) (r : TRef), Cap.tenured (m.src o.a) = false ∧ m.tileOp o.a 0 .versioned [tpPublish] = .ok r ∧ r.own = true ∧ Issues (.tfree o) s m) ∧
    (∃ (s : State) (m : M) (o : XOp) (r : TRef) (t : TRegion), Cap.tenured (m.src o.a) = true ∧ m.tileOp o.a 0 .tenured [tpTenW] none [tpSplit] = .ok r ∧ m.st.tregion? r.name = some t ∧ (∀ x ∈ t.recs, x.oneShot = true) ∧ Issues (.tfree o) s m) ∧
    (∃ (s : State) (m : M) (o : XOp) (r : TRef) (t : TRegion), Cap.tenured (m.src o.a) = true ∧ m.tileOp o.a 0 .tenured [tpTenW] none [tpSplit] = .ok r ∧ m.st.tregion? r.name = some t ∧ ((∃ x ∈ t.recs, x.oneShot = false)) ∧ Issues (.tfree o) s m) ∧
    (∃ (s : State) (m : M) (a : F6) (b : F6) (r : TRef) (x : TName), m.served (tileRef m.st (m.src a) (m.int b)).name (tileRef m.st (m.src a) (m.int b)).ver = none ∧ m.tileOp a b .versioned [tpRead] = .ok r ∧ r.own = true ∧ m.st.tname? r.name = some x ∧ x.stateOf r.ver = 2 ∧ Issues (.tref a b) s m) ∧
    (∃ (s : State) (m : M) (a : F6) (b : F6) (r : TRef) (x : TName), m.tileOp a b .versioned [tpRead] = .ok r ∧ r.own = true ∧ m.st.tname? r.name = some x ∧ x.stateOf r.ver = 2 ∧ Issues (.tdrop a b) s m) ∧
    (∃ (s : State) (m : M) (a : F6) (b : F6) (r : TRef) (x : TName), m.tileOp a b .versioned [tpRead] = .ok r ∧ r.own = true ∧ m.st.tname? r.name = some x ∧ x.stateOf r.ver ≠ 2 ∧ Issues (.tdrop a b) s m) ∧
    (∃ (s : State) (m : M) (a : F6) (b : F6) (r : TRef) (x : TName), m.tileOp a b .versioned [tpPublish] = .ok r ∧ r.own = true ∧ m.st.tname? r.name = some x ∧ x.stateOf r.ver = 2 ∧ Issues (.tdropAll a b) s m) ∧
    (∃ (s : State) (m : M) (a : F6) (b : F6) (r : TRef) (x : TName), m.tileOp a b .versioned [tpPublish] = .ok r ∧ r.own = true ∧ m.st.tname? r.name = some x ∧ x.stateOf r.ver ≠ 2 ∧ Issues (.tdropAll a b) s m) ∧
    (∃ (s : State) (m : M) (d : F6) (a : F6) (b : F6) (r : TRef) (x : TName), m.tileOp a b .either [] = .ok r ∧ r.own = true ∧ Cap.tenured r.c = false ∧ m.st.tname? r.name = some x ∧ Issues (.tinfo d a b) s m) ∧
    (∃ (s : State) (m : M) (d : F6) (a : F6) (b : F6) (r : TRef) (t : TRegion), m.tileOp a b .either [] = .ok r ∧ r.own = true ∧ Cap.tenured r.c = true ∧ m.st.tregion? r.name = some t ∧ Issues (.tinfo d a b) s m) ∧
    (∃ (s : State) (m : M) (d : F6) (a : F6) (r : TRef) (c : BitVec 8), r = tileRef m.st (m.src a) 0 ∧ r.fault m.st 0 .either [] = some c ∧ Issues (.tchk d a) s m) ∧
    (∃ (s : State) (m : M) (d : F6) (a : F6) (r : TRef), r = tileRef m.st (m.src a) 0 ∧ r.fault m.st 0 .either [] = none ∧ r.own = true ∧ Issues (.tchk d a) s m) :=
  ⟨⟨ST, (entered ((.tnew ({ d := 9, a := 16, x := {  }, lit := none }))) ST), { d := 9, a := 16, x := {  }, lit := none }, _, _, some_spec (d := (0)) (by decide +kernel), rfl, issues_entered (by decide +kernel)⟩,
   ⟨ST, (entered ((.tfree ({ d := 9, a := 12, x := {  }, lit := none }))) ST), { d := 9, a := 12, x := {  }, lit := none }, _, by decide +kernel, ok_spec (d := (tileRef S Cap.zero 0)) (by decide +kernel), by decide +kernel, issues_entered (by decide +kernel)⟩,
   ⟨ST, (entered ((.tfree ({ d := 9, a := 14, x := {  }, lit := none }))) ST), { d := 9, a := 14, x := {  }, lit := none }, _, _, by decide +kernel, ok_spec (d := (tileRef S Cap.zero 0)) (by decide +kernel), some_spec (d := (region1)) (by decide +kernel), by decide +kernel, issues_entered (by decide +kernel)⟩,
   ⟨SHeld, (entered ((.tfree ({ d := 9, a := 14, x := {  }, lit := none }))) SHeld), { d := 9, a := 14, x := {  }, lit := none }, _, _, by decide +kernel, ok_spec (d := (tileRef S Cap.zero 0)) (by decide +kernel), some_spec (d := (region1)) (by decide +kernel), by decide +kernel, issues_entered (by decide +kernel)⟩,
   ⟨ST, (entered ((.tref 12 5)) ST), 12, 5, _, _, by decide +kernel, ok_spec (d := (tileRef S Cap.zero 0)) (by decide +kernel), by decide +kernel, some_spec (d := (name1)) (by decide +kernel), by decide +kernel, issues_entered (by decide +kernel)⟩,
   ⟨ST, (entered ((.tdrop 12 5)) ST), 12, 5, _, _, ok_spec (d := (tileRef S Cap.zero 0)) (by decide +kernel), by decide +kernel, some_spec (d := (name1)) (by decide +kernel), by decide +kernel, issues_entered (by decide +kernel)⟩,
   ⟨ST, (entered ((.tdrop 13 5)) ST), 13, 5, _, _, ok_spec (d := (tileRef S Cap.zero 0)) (by decide +kernel), by decide +kernel, some_spec (d := (name1)) (by decide +kernel), by decide +kernel, issues_entered (by decide +kernel)⟩,
   ⟨ST, (entered ((.tdropAll 12 5)) ST), 12, 5, _, _, ok_spec (d := (tileRef S Cap.zero 0)) (by decide +kernel), by decide +kernel, some_spec (d := (name1)) (by decide +kernel), by decide +kernel, issues_entered (by decide +kernel)⟩,
   ⟨ST, (entered ((.tdropAll 13 5)) ST), 13, 5, _, _, ok_spec (d := (tileRef S Cap.zero 0)) (by decide +kernel), by decide +kernel, some_spec (d := (name1)) (by decide +kernel), by decide +kernel, issues_entered (by decide +kernel)⟩,
   ⟨ST, (entered ((.tinfo 9 12 5)) ST), 9, 12, 5, _, _, ok_spec (d := (tileRef S Cap.zero 0)) (by decide +kernel), by decide +kernel, by decide +kernel, some_spec (d := (name1)) (by decide +kernel), issues_entered (by decide +kernel)⟩,
   ⟨ST, (entered ((.tinfo 9 14 5)) ST), 9, 14, 5, _, _, ok_spec (d := (tileRef S Cap.zero 0)) (by decide +kernel), by decide +kernel, by decide +kernel, some_spec (d := (region1)) (by decide +kernel), issues_entered (by decide +kernel)⟩,
   ⟨ST, (entered ((.tchk 9 3)) ST), 9, 3, _, _, rfl, some_spec (d := (0)) (by decide +kernel), issues_entered (by decide +kernel)⟩,
   ⟨ST, (entered ((.tchk 9 12)) ST), 9, 12, _, rfl, by decide +kernel, by decide +kernel, issues_entered (by decide +kernel)⟩⟩

/-- Hypotheses of `Obligations.TileMoves`. -/
theorem wit_TileMoves :
    (∃ (s : State) (m : M) (o : XOp) (r : TRef) (x : TName) (m1 : M) (m2 : M) (data : List V512) (t : State), m.acqPending = false ∧ m.st.publishAccepted (tileRef m.st (m.src o.a) (m.int o.x.b)).name (tileRef m.st (m.src o.a) (m.int o.x.b)).ver m.who = none ∧ m.restart = false ∧ m.tileOp o.a o.x.b .versioned [tpPublish] (some o.x.sc) = .ok r ∧ m.tilePlace o r false = .ok () ∧ r.own = true ∧ m.st.tname? r.name = some x ∧ x.stateOf r.ver = 0 ∧ (x.w < r.ver ∧ r.ver ≤ x.w + 16) ∧ (m.st.acceptPublish r.name r.ver none (readersOf (o.x.imm.toNat % 2 ^ 16))).isSome = true ∧ m.release o.x.sc = .ok m1 ∧ m1.placeRead o (Cap.granules r.c) = .ok (m2, data) ∧ m2.restart = false ∧ m2.st.acceptPublish r.name r.ver none (readersOf (o.x.imm.toNat % 2 ^ 16)) = some t ∧ Issues (.tvst o) s m) ∧
    (∃ (s : State) (m : M) (o : XOp) (r : TRef) (x : TName) (y : Version) (m1 : M) (m2 : M), m.acqPending = false ∧ m.restart = false ∧ m.served (tileRef m.st (m.src o.a) (m.int o.x.b)).name (tileRef m.st (m.src o.a) (m.int o.x.b)).ver = none ∧ m.tileOp o.a o.x.b .versioned [tpRead] (some o.x.sc) = .ok r ∧ m.tilePlace o r true = .ok () ∧ r.own = true ∧ m.st.tname? r.name = some x ∧ x.stateOf r.ver = 2 ∧ x.ver? r.ver = some y ∧ ({ m with st := m.st } : M).acquire o.x.sc = .ok m1 ∧ m1.placeWrite o y.data = .ok m2 ∧ Issues (.tvld o) s m) ∧
    (∃ (s : State) (m : M) (o : XOp) (r : TRef) (x : TName) (y : Version) (m1 : M) (m2 : M), m.acqPending = false ∧ m.restart = false ∧ m.served (tileRef m.st (m.src o.a) (m.int o.x.b)).name (tileRef m.st (m.src o.a) (m.int o.x.b)).ver = none ∧ m.tileOp o.a o.x.b .versioned [tpConsume] (some o.x.sc) = .ok r ∧ m.tilePlace o r true = .ok () ∧ r.own = true ∧ m.st.tname? r.name = some x ∧ x.stateOf r.ver = 2 ∧ x.ver? r.ver = some y ∧ y.readers ≠ some 0 ∧ (({ m with st := (m.st.setTname r.name fun x => x.setVer r.ver fun y => y.claim false) } : M).acquire o.x.sc = .ok m1) ∧ m1.placeWrite o y.data = .ok m2 ∧ Issues (.tvldc o) s m) ∧
    (∃ (s : State) (m : M) (o : XOp) (r : TRef) (x : TName) (m1 : M), m.acqPending = false ∧ m.served (tileRef m.st (m.src o.a) (m.int o.x.b)).name (tileRef m.st (m.src o.a) (m.int o.x.b)).ver = none ∧ m.tileOp o.a o.x.b .versioned [tpRead] (some o.x.sc) = .ok r ∧ r.own = true ∧ m.st.tname? r.name = some x ∧ x.stateOf r.ver = 2 ∧ m.acquire o.x.sc = .ok m1 ∧ Issues (.tvw o) s m) :=
  ⟨⟨ST, (entered ((.tvst ({ d := 9, a := 13, x := { b := 5, c := 1, t2 := 1, sc := 1 }, lit := none }))) ST), { d := 9, a := 13, x := { b := 5, c := 1, t2 := 1, sc := 1 }, lit := none }, _, _, _, _, _, _, by decide +kernel, by decide +kernel, by decide +kernel, ok_spec (d := (tileRef S Cap.zero 0)) (by decide +kernel), ok_unit (by decide +kernel), by decide +kernel, some_spec (d := (name1)) (by decide +kernel), by decide +kernel, by decide +kernel, by decide +kernel, ok_spec (d := (m0)) (by decide +kernel), ok_spec2 (d := (m0, [])) (by decide +kernel), by decide +kernel, some_spec (d := (S)) (by decide +kernel), issues_entered (by decide +kernel)⟩,
   ⟨ST, (entered ((.tvld ({ d := 9, a := 12, x := { b := 5, c := 1, t2 := 1, sc := 1 }, lit := none }))) ST), { d := 9, a := 12, x := { b := 5, c := 1, t2 := 1, sc := 1 }, lit := none }, _, _, _, _, _, by decide +kernel, by decide +kernel, by decide +kernel, ok_spec (d := (tileRef S Cap.zero 0)) (by decide +kernel), ok_unit (by decide +kernel), by decide +kernel, some_spec (d := (name1)) (by decide +kernel), by decide +kernel, some_spec (d := ({ ver := 0, st := .live })) (by decide +kernel), ok_spec (d := (m0)) (by decide +kernel), ok_spec (d := (m0)) (by decide +kernel), issues_entered (by decide +kernel)⟩,
   ⟨ST, (entered ((.tvldc ({ d := 9, a := 12, x := { b := 5, c := 1, t2 := 1, sc := 1 }, lit := none }))) ST), { d := 9, a := 12, x := { b := 5, c := 1, t2 := 1, sc := 1 }, lit := none }, _, _, _, _, _, by decide +kernel, by decide +kernel, by decide +kernel, ok_spec (d := (tileRef S Cap.zero 0)) (by decide +kernel), ok_unit (by decide +kernel), by decide +kernel, some_spec (d := (name1)) (by decide +kernel), by decide +kernel, some_spec (d := ({ ver := 0, st := .live })) (by decide +kernel), by decide +kernel, ok_spec (d := (m0)) (by decide +kernel), ok_spec (d := (m0)) (by decide +kernel), issues_entered (by decide +kernel)⟩,
   ⟨ST, (entered ((.tvw ({ d := 9, a := 12, x := { b := 5, sc := 1 }, lit := none }))) ST), { d := 9, a := 12, x := { b := 5, sc := 1 }, lit := none }, _, _, _, by decide +kernel, by decide +kernel, ok_spec (d := (tileRef S Cap.zero 0)) (by decide +kernel), by decide +kernel, some_spec (d := (name1)) (by decide +kernel), by decide +kernel, ok_spec (d := (m0)) (by decide +kernel), issues_entered (by decide +kernel)⟩⟩

/-- Hypotheses of `Obligations.TenureInstructions`. -/
theorem wit_TenureInstructions :
    (∃ (s : State) (m : M) (o : XOp) (n : Nat) (gen : BitVec 6) (t : TRegion), checkCap o.x.c (m.src o.x.c) [0] [.ld, .st] = .ok () ∧ (¬(bitsN (m.src o.a).bits.toNat 127 120 ≠ 0 ∨ bitsN (m.src o.a).bits.toNat 68 64 ≠ 0 ∨ bitsN (m.src o.a).bits.toNat 119 96 % 64 ≠ 0 ∨ bitsN (m.src o.a).bits.toNat 119 96 < (((bitsN (m.src o.a).bits.toNat 95 84 + 1) * fmtBits (BitVec.ofNat 3 (bitsN (m.src o.a).bits.toNat 71 69)) + 7) / 8) ∨ (m.src o.a).bits.toNat % 2 ^ 64 % 64 ≠ 0)) ∧ checkBounds (m.src o.x.c) ((m.src o.a).bits.toNat % 2 ^ 64) (((bitsN (m.src o.a).bits.toNat 83 72 + 1) - 1) * bitsN (m.src o.a).bits.toNat 119 96 + (((bitsN (m.src o.a).bits.toNat 95 84 + 1) * fmtBits (BitVec.ofNat 3 (bitsN (m.src o.a).bits.toNat 71 69)) + 7) / 8)) = .ok () ∧ freshRegion m.st m.core.die = some n ∧ gen = (m.st.tregion? n).elim 0 (·.gen) ∧ t = { num := n, gen := gen, ctx := m.core.ctx, base := (m.src o.a).bits.toNat % 2 ^ 64, rows := (bitsN (m.src o.a).bits.toNat 83 72 + 1), cols := (bitsN (m.src o.a).bits.toNat 95 84 + 1), stride := bitsN (m.src o.a).bits.toNat 119 96, fmt := (BitVec.ofNat 3 (bitsN (m.src o.a).bits.toNat 71 69)) } ∧ Issues (.tdecl o) s m) ∧
    (∃ (s : State) (m : M) (o : XOp) (r : TRef) (t : TRegion) (m0 : M) (m1 : M) (m2 : M), m.restart = false ∧ m.acqPending = false ∧ m.tileOp o.a o.x.b .tenured [if o.x.x.getLsbD 1 then tpTenW else tpTenR] = .ok r ∧ m.st.tregion? r.name = some t ∧ m.thr.granted = false ∧ m.core.tenures.length < 16 ∧ t.grants r.rect (o.x.x.getLsbD 1) = true ∧ m.st.recRoom r.name = true ∧ (m0 = { m with st := m.st.setTregion r.name fun t => { t with recs := t.recs ++ [({ launch := m.core.launch, team := m.core.team, thr := m.tid.val, slot := m.core.tenSlot, rect := r.rect, write := o.x.x.getLsbD 1, held := true } : TenRec)] }, core := { m.core with tenures := m.core.tenures ++ [({ slot := m.core.tenSlot, region := r.name, rect := r.rect, write := o.x.x.getLsbD 1, held := true } : TenEntry)] } }) ∧ m0.rectFlush t r.rect = .ok m1 ∧ m1.acquire o.x.sc = .ok m2 ∧ Issues (.tten o) s m) ∧
    (∃ (s : State) (m : M) (o : XOp) (r : TRef) (t : TRegion) (m1 : M) (m2 : M), m.restart = false ∧ m.acqPending = false ∧ m.tileOp o.a o.x.b .tenured [if o.x.x.getLsbD 1 then tpTenW else tpTenR] = .ok r ∧ m.st.tregion? r.name = some t ∧ m.thr.granted = true ∧ m.rectFlush t r.rect = .ok m1 ∧ m1.acquire o.x.sc = .ok m2 ∧ Issues (.tten o) s m) ∧
    (∃ (s : State) (m : M) (o : XOp) (r : TRef) (t : TRegion), m.restart = false ∧ m.acqPending = false ∧ m.tileOp o.a o.x.b .tenured [if o.x.x.getLsbD 1 then tpTenW else tpTenR] = .ok r ∧ m.st.tregion? r.name = some t ∧ m.thr.granted = false ∧ m.core.tenures.length < 16 ∧ o.x.ff = true ∧ t.grants r.rect (o.x.x.getLsbD 1) = false ∧ Issues (.tten o) s m) ∧
    (∃ (s : State) (m : M) (o : XOp) (r : TRef) (e : TenEntry) (m1 : M), m.restart = false ∧ m.acqPending = false ∧ m.tileOp o.a o.x.b .tenured (relNeed (m.core.tenureOn (Cap.tileName (m.src o.a)) (tileRef m.st (m.src o.a) (m.int o.x.b)).rect)) = .ok r ∧ m.core.tickets = [] ∧ m.core.tenureOn r.name r.rect = some e ∧ m.endTenure e o.x.sc = .ok m1 ∧ Issues (.trel o) s m) ∧
    (∃ (s : State) (m : M) (o : XOp) (r : TRef) (m1 : M), m.restart = false ∧ m.acqPending = false ∧ m.tileOp o.a o.x.b .tenured (relNeed (m.core.tenureOn (Cap.tileName (m.src o.a)) (tileRef m.st (m.src o.a) (m.int o.x.b)).rect)) = .ok r ∧ m.core.tickets = [] ∧ m.core.tenureOn r.name r.rect = none ∧ m.release o.x.sc = .ok m1 ∧ Issues (.trel o) s m) ∧
    (∃ (s : State) (m : M) (o : XOp) (r : TRef) (t : TRegion) (e : TenEntry) (m1 : M), m.restart = false ∧ m.acqPending = false ∧ m.tileOp o.a o.x.b .tenured [tpSplit] = .ok r ∧ m.st.tregion? r.name = some t ∧ m.core.tenureOn r.name r.rect = some e ∧ e.write = true ∧ ((1 ≤ (o.x.imm.toNat % 16) ∧ (o.x.imm.toNat % 16) ≤ 8 ∧ 1 ≤ (o.x.imm.toNat / 16 % 16) ∧ (o.x.imm.toNat / 16 % 16) ≤ 8 ∧ 2 ≤ (o.x.imm.toNat % 16) * (o.x.imm.toNat / 16 % 16) ∧ r.rect.rows % (o.x.imm.toNat % 16) = 0 ∧ r.rect.cols % (o.x.imm.toNat / 16 % 16) = 0)) ∧ t.isSub r.rect = false ∧ ((m.world fun s => s.setTregion r.name fun t => { t with splits := t.splits ++ [(r.rect, (o.x.imm.toNat % 16), (o.x.imm.toNat / 16 % 16))] }).endTenure e o.x.sc = .ok m1) ∧ Issues (.tsplit o) s m) ∧
    (∃ (s : State) (m : M) (o : XOp) (r : TRef) (t : TRegion), m.restart = false ∧ m.acqPending = false ∧ m.tileOp o.a o.x.b .tenured [tpSplit] = .ok r ∧ m.st.tregion? r.name = some t ∧ ((t.splits.any fun p => p.1 == r.rect) = true) ∧ ((t.recs.any fun x => x.held && !x.oneShot && meets x.rect r.rect) = false) ∧ Issues (.tmerge o) s m) ∧
    (∃ (s : State) (m : M) (o : XOp) (r : TRef) (t : TRegion), m.restart = false ∧ m.acqPending = false ∧ m.tileOp o.a o.x.b .tenured [tpSplit] = .ok r ∧ m.st.tregion? r.name = some t ∧ ((t.splits.any fun p => p.1 == r.rect) = true) ∧ ((t.recs.any fun x => x.held && !x.oneShot && meets x.rect r.rect) = true) ∧ Issues (.tmerge o) s m) ∧
    (∃ (s : State) (m : M) (o : XOp) (r : TRef) (t : TRegion), m.restart = false ∧ m.tileOp o.a o.x.b .tenured [tpHalo] = .ok r ∧ m.st.tregion? r.name = some t ∧ o.x.imm.toNat / 4 % 16 = 0 ∧ Issues (.thalo o) s m) ∧
    (∃ (s : State) (m : M) (o : XOp) (r : TRef) (t : TRegion) (u : HaloSub) (n : Nat), m.restart = false ∧ m.tileOp o.a o.x.b .tenured [tpHalo] = .ok r ∧ m.st.tregion? r.name = some t ∧ ¬ o.x.imm.toNat / 4 % 16 = 0 ∧ u = ({ launch := m.core.launch, team := m.core.team, rect := r.rect, side := o.x.imm.toNat % 4, width := o.x.imm.toNat / 4 % 16, copyAt := fieldOf (m.int o.x.c) 31 0, wordAt := fieldOf (m.int o.x.c) 63 32 } : HaloSub) ∧ n = ((if o.x.imm.toNat % 4 % 2 = 0 then o.x.imm.toNat / 4 % 16 * r.rect.cols else r.rect.rows * (o.x.imm.toNat / 4 % 16)) * fmtBits t.fmt + 7) / 8 ∧ (¬(0x3C000 < fieldOf (m.int o.x.c) 31 0 + n ∨ 0x3C000 < fieldOf (m.int o.x.c) 63 32 + 8 ∨ fieldOf (m.int o.x.c) 63 32 % 8 ≠ 0)) ∧ ¬ (if o.x.imm.toNat % 4 % 2 = 0 then r.rect.rows else r.rect.cols) < o.x.imm.toNat / 4 % 16 ∧ ((¬(4 ≤ ((t.halos.filter fun x => !((x.launch == m.core.launch && decide (x.team = m.core.team)) && x.rect == r.rect && decide (x.side = o.x.imm.toNat % 4))).filter fun x => x.rect == r.rect).length ∨ 8 ≤ (m.st.dies.toList.flatMap fun d => d.tregions.flatMap fun y => y.halos.filter fun x => (x.launch == m.core.launch && decide (x.team = m.core.team))).length - (t.halos.filter fun x => (x.launch == m.core.launch && decide (x.team = m.core.team)) && x.rect == r.rect && decide (x.side = o.x.imm.toNat % 4)).length))) ∧ Issues (.thalo o) s m) :=
  ⟨⟨ST, (entered ((.tdecl ({ d := 9, a := 15, x := { c := 2 }, lit := none }))) ST), { d := 9, a := 15, x := { c := 2 }, lit := none }, _, _, _, ok_unit (by decide +kernel), by decide +kernel, ok_unit (by decide +kernel), some_spec (d := (0)) (by decide +kernel), rfl, rfl, issues_entered (by decide +kernel)⟩,
   ⟨ST, (entered ((.tten ({ d := 9, a := 14, x := { b := 5, sc := 1, x := 2 }, lit := none }))) ST), { d := 9, a := 14, x := { b := 5, sc := 1, x := 2 }, lit := none }, _, _, _, _, _, by decide +kernel, by decide +kernel, ok_spec (d := (tileRef S Cap.zero 0)) (by decide +kernel), some_spec (d := (region1)) (by decide +kernel), by decide +kernel, by decide +kernel, by decide +kernel, by decide +kernel, rfl, ok_spec (d := (m0)) (by decide +kernel), ok_spec (d := (m0)) (by decide +kernel), issues_entered (by decide +kernel)⟩,
   ⟨(tileSet name1 region1 (onThread fun t => { withTiles t with granted := true })), (entered ((.tten ({ d := 9, a := 14, x := { b := 5, sc := 1, x := 2 }, lit := none }))) ((tileSet name1 region1 (onThread fun t => { withTiles t with granted := true })))), { d := 9, a := 14, x := { b := 5, sc := 1, x := 2 }, lit := none }, _, _, _, _, by decide +kernel, by decide +kernel, ok_spec (d := (tileRef S Cap.zero 0)) (by decide +kernel), some_spec (d := (region1)) (by decide +kernel), by decide +kernel, ok_spec (d := (m0)) (by decide +kernel), ok_spec (d := (m0)) (by decide +kernel), issues_entered (by decide +kernel)⟩,
   ⟨(tileSet name1 { region1 with recs := [{ launch := 0, team := 1, thr := 0, slot := 0, rect := ⟨0, 0, 4, 4⟩, write := true, held := true }] } (tcore id)), (entered ((.tten ({ d := 9, a := 14, x := { b := 5, sc := 1, x := 2, ff := true, e := 20 }, lit := none }))) ((tileSet name1 { region1 with recs := [{ launch := 0, team := 1, thr := 0, slot := 0, rect := ⟨0, 0, 4, 4⟩, write := true, held := true }] } (tcore id)))), { d := 9, a := 14, x := { b := 5, sc := 1, x := 2, ff := true, e := 20 }, lit := none }, _, _, by decide +kernel, by decide +kernel, ok_spec (d := (tileRef S Cap.zero 0)) (by decide +kernel), some_spec (d := (region1)) (by decide +kernel), by decide +kernel, by decide +kernel, by decide +kernel, by decide +kernel, issues_entered (by decide +kernel)⟩,
   ⟨(tileSet name1 { region1 with recs := [{ launch := 0, team := 0, thr := 0, slot := 0, rect := ⟨0, 0, 4, 4⟩, write := true, held := true }] } (tcore fun c => { c with tenures := [{ slot := 0, region := 1, rect := ⟨0, 0, 4, 4⟩, write := true, held := true }] })), (entered ((.trel ({ d := 9, a := 14, x := { b := 5, sc := 1, c := 5 }, lit := none }))) ((tileSet name1 { region1 with recs := [{ launch := 0, team := 0, thr := 0, slot := 0, rect := ⟨0, 0, 4, 4⟩, write := true, held := true }] } (tcore fun c => { c with tenures := [{ slot := 0, region := 1, rect := ⟨0, 0, 4, 4⟩, write := true, held := true }] })))), { d := 9, a := 14, x := { b := 5, sc := 1, c := 5 }, lit := none }, _, _, _, by decide +kernel, by decide +kernel, ok_spec (d := (tileRef S Cap.zero 0)) (by decide +kernel), by decide +kernel, some_spec (d := (⟨0, 0, ⟨0, 0, 1, 1⟩, false, false⟩)) (by decide +kernel), ok_spec (d := (m0)) (by decide +kernel), issues_entered (by decide +kernel)⟩,
   ⟨ST, (entered ((.trel ({ d := 9, a := 14, x := { b := 5, sc := 1, c := 5 }, lit := none }))) ST), { d := 9, a := 14, x := { b := 5, sc := 1, c := 5 }, lit := none }, _, _, by decide +kernel, by decide +kernel, ok_spec (d := (tileRef S Cap.zero 0)) (by decide +kernel), by decide +kernel, by decide +kernel, ok_spec (d := (m0)) (by decide +kernel), issues_entered (by decide +kernel)⟩,
   ⟨(tileSet name1 { region1 with recs := [{ launch := 0, team := 0, thr := 0, slot := 0, rect := ⟨0, 0, 4, 4⟩, write := true, held := true }] } (tcore fun c => { c with tenures := [{ slot := 0, region := 1, rect := ⟨0, 0, 4, 4⟩, write := true, held := true }] })), (entered ((.tsplit ({ d := 9, a := 14, x := { b := 5, sc := 1, imm := 0x22 }, lit := none }))) ((tileSet name1 { region1 with recs := [{ launch := 0, team := 0, thr := 0, slot := 0, rect := ⟨0, 0, 4, 4⟩, write := true, held := true }] } (tcore fun c => { c with tenures := [{ slot := 0, region := 1, rect := ⟨0, 0, 4, 4⟩, write := true, held := true }] })))), { d := 9, a := 14, x := { b := 5, sc := 1, imm := 0x22 }, lit := none }, _, _, _, _, by decide +kernel, by decide +kernel, ok_spec (d := (tileRef S Cap.zero 0)) (by decide +kernel), some_spec (d := (region1)) (by decide +kernel), some_spec (d := (⟨0, 0, ⟨0, 0, 1, 1⟩, false, false⟩)) (by decide +kernel), by decide +kernel, by decide +kernel, by decide +kernel, ok_spec (d := (m0)) (by decide +kernel), issues_entered (by decide +kernel)⟩,
   ⟨(tileSet name1 { region1 with splits := [(⟨0, 0, 4, 4⟩, 2, 2)] } (tcore id)), (entered ((.tmerge ({ d := 9, a := 14, x := { b := 5, sc := 1, c := 5 }, lit := none }))) ((tileSet name1 { region1 with splits := [(⟨0, 0, 4, 4⟩, 2, 2)] } (tcore id)))), { d := 9, a := 14, x := { b := 5, sc := 1, c := 5 }, lit := none }, _, _, by decide +kernel, by decide +kernel, ok_spec (d := (tileRef S Cap.zero 0)) (by decide +kernel), some_spec (d := (region1)) (by decide +kernel), by decide +kernel, by decide +kernel, issues_entered (by decide +kernel)⟩,
   ⟨(tileSet name1 { region1 with splits := [(⟨0, 0, 4, 4⟩, 2, 2)], recs := [{ launch := 0, team := 0, thr := 0, slot := 0, rect := ⟨0, 0, 4, 4⟩, write := true, held := true }] } (tcore id)), (entered ((.tmerge ({ d := 9, a := 14, x := { b := 5, sc := 1, c := 5 }, lit := none }))) ((tileSet name1 { region1 with splits := [(⟨0, 0, 4, 4⟩, 2, 2)], recs := [{ launch := 0, team := 0, thr := 0, slot := 0, rect := ⟨0, 0, 4, 4⟩, write := true, held := true }] } (tcore id)))), { d := 9, a := 14, x := { b := 5, sc := 1, c := 5 }, lit := none }, _, _, by decide +kernel, by decide +kernel, ok_spec (d := (tileRef S Cap.zero 0)) (by decide +kernel), some_spec (d := (region1)) (by decide +kernel), by decide +kernel, by decide +kernel, issues_entered (by decide +kernel)⟩,
   ⟨ST, (entered ((.thalo ({ d := 9, a := 14, x := { b := 5, sc := 1, imm := 0 }, lit := none }))) ST), { d := 9, a := 14, x := { b := 5, sc := 1, imm := 0 }, lit := none }, _, _, by decide +kernel, ok_spec (d := (tileRef S Cap.zero 0)) (by decide +kernel), some_spec (d := (region1)) (by decide +kernel), by decide +kernel, issues_entered (by decide +kernel)⟩,
   ⟨ST, (entered ((.thalo ({ d := 9, a := 14, x := { b := 5, sc := 1, imm := 4, c := 5 }, lit := none }))) ST), { d := 9, a := 14, x := { b := 5, sc := 1, imm := 4, c := 5 }, lit := none }, _, _, _, _, by decide +kernel, ok_spec (d := (tileRef S Cap.zero 0)) (by decide +kernel), some_spec (d := (region1)) (by decide +kernel), by decide +kernel, rfl, rfl, by decide +kernel, by decide +kernel, by decide +kernel, issues_entered (by decide +kernel)⟩⟩

/-- A thread of a local matrix command: the descriptor of one K-step in c20, and a `ROWPROG` that says the step is done. -/
def SMat : State := onThread fun t => { t with c := t.c.set 20 (Cap.ofInt (2 ^ 48)), rowprog := 0x8000400000010000 }
/-- A command capability to the accumulators of core 0 in c21. -/
def SCmd : State := onThread fun t => { t with c := t.c.set 21 ⟨BitVec.ofNat 128 (0xFF * 2 ^ 40 + 0xFF * 2 ^ 104 + 5 * 2 ^ 118), true⟩ }

/-- Hypotheses of `Obligations.MatrixCommands`. -/
theorem wit_MatrixCommands :
    (∃ (s : State) (m : M) (o : XOp) (j : MulJob) (mu : M) (m1 : M) (m2 : M), j = ({ acc := o.d.setWidth 2, fmt := MFmt.ofT2 o.x.t2.toNat, rm := m.xrm o, a := m.src o.a, b := m.src o.x.b, base := (m.src o.a).cursor.toNat, sa := (mdesc (m.int o.x.e)).sa, sb := (mdesc (m.int o.x.e)).sb, bytes := 192 * (mdesc (m.int o.x.e)).nk, steps := (192 * (mdesc (m.int o.x.e)).nk + 191) / 192, groups := [{ lo := 0, n := 32, b := (m.src o.x.b).cursor.toNat }] } : MulJob) ∧ m.mulOperands o.a o.x.b (mdesc (m.int o.x.e)) (192 * (mdesc (m.int o.x.e)).nk) = .ok () ∧ m.acqPending = false ∧ UnitIdle m ∧ mu = withUnit m [o.d.setWidth 2] ∧ M.mulSteps j (mu.mulRest j) mu = .ok m1 ∧ m1.matAcquire o = .ok m2 ∧ Issues (.mmul o) s m) ∧
    (∃ (s : State) (m : M) (o : XOp) (j : MulJob) (mu : M) (m1 : M) (m2 : M), j = ({ acc := o.d.setWidth 2, fmt := .qn4, rm := m.xrm o, a := m.src o.a, b := m.src o.x.b, base := (m.src o.a).cursor.toNat, sa := (mdesc (m.int o.x.e)).sa, sb := (mdesc (m.int o.x.e)).sb, bytes := 32 * (mdesc (m.int o.x.e)).nk, steps := (32 * (mdesc (m.int o.x.e)).nk + 191) / 192, groups := [{ lo := 0, n := 32, b := (m.src o.x.b).cursor.toNat }] } : MulJob) ∧ m.mulOperands o.a o.x.b (mdesc (m.int o.x.e)) (32 * (mdesc (m.int o.x.e)).nk) = .ok () ∧ m.acqPending = false ∧ UnitIdle m ∧ mu = withUnit m [o.d.setWidth 2] ∧ M.mulSteps j (mu.mulRest j) mu = .ok m1 ∧ m1.matAcquire o = .ok m2 ∧ Issues (.mq4 o) s m) ∧
    (∃ (s : State) (m : M) (o : XOp) (gs : List MGroup) (t : Nat) (j : MulJob) (mu : M) (m0 : M) (m1 : M) (m2 : M), matCap o.a (m.src o.a) .ld = .ok () ∧ matCap o.x.b (m.src o.x.b) .ld = .ok () ∧ matCap o.x.c (m.src o.x.c) .ld = .ok () ∧ checkBounds (m.src o.x.c) (m.src o.x.c).cursor.toNat 64 = .ok () ∧ checkAligned (m.src o.a).cursor.toNat 64 = .ok () ∧ checkAligned (m.src o.x.b).cursor.toNat 64 = .ok () ∧ checkAligned (m.src o.x.c).cursor.toNat 8 = .ok () ∧ MDesc.ok (mdesc (m.int o.x.e)) = true ∧ m.acqPending = false ∧ UnitIdle m ∧ mu = withUnit m [o.d.setWidth 2] ∧ mu.asUnit.matRead (m.src o.x.c) (m.src o.x.c).cursor.toNat 64 = .ok (m0, t) ∧ gs = groupsOf t (m.src o.x.b).cursor ∧ ((decide (32 < (gs.map (·.n)).sum) || (List.range 8).any fun g => (groupEntry t g).2.1) = false) ∧ rowsIn (m.src o.a) (m.src o.a).cursor.toNat (mdesc (m.int o.x.e)).sa (192 * (mdesc (m.int o.x.e)).nk) (gs.map (·.n)).sum = .ok () ∧ groupsIn (m.src o.x.b) (mdesc (m.int o.x.e)).sb (192 * (mdesc (m.int o.x.e)).nk) gs = .ok () ∧ (j = ({ acc := o.d.setWidth 2, fmt := MFmt.ofT2 o.x.t2.toNat, rm := m0.asCore.xrm o, a := m.src o.a, b := m.src o.x.b, base := (m.src o.a).cursor.toNat, sa := (mdesc (m.int o.x.e)).sa, sb := (mdesc (m.int o.x.e)).sb, bytes := 192 * (mdesc (m.int o.x.e)).nk, steps := (mdesc (m.int o.x.e)).nk, groups := gs.map fun g => if g.n = 0 then { g with nb := 0 } else g } : MulJob)) ∧ M.mulSteps j (m0.asCore.mulRest j) m0.asCore = .ok m1 ∧ m1.matAcquire o = .ok m2 ∧ Issues (.mgrp o) s m) ∧
    (∃ (s : State) (m : M) (o : XOp), UnitIdle m ∧ Issues (.mzero o) s m) ∧
    (∃ (s : State) (m : M) (o : XOp) (rho : Nat) (kap : Nat) (mu : M) (m1 : M) (m2 : M) (m3 : M) (m4 : M) (f : Nat → FRes), matCap o.x.b (m.src o.x.b) .ld = .ok () ∧ checkBounds (m.src o.x.b) (m.src o.x.b).cursor.toNat 128 = .ok () ∧ matCap o.x.c (m.src o.x.c) .ld = .ok () ∧ checkBounds (m.src o.x.c) (m.src o.x.c).cursor.toNat 128 = .ok () ∧ checkAligned (m.src o.x.b).cursor.toNat 4 = .ok () ∧ checkAligned (m.src o.x.c).cursor.toNat 4 = .ok () ∧ m.acqPending = false ∧ UnitIdle m ∧ mu = withUnit m (if o.x.x.getLsbD 1 then [o.d.setWidth 2, o.a.setWidth 2] else [o.d.setWidth 2]) ∧ mu.asUnit.matRead (m.src o.x.b) (m.src o.x.b).cursor.toNat 128 = .ok (m1, rho) ∧ m1.matRead (m.src o.x.c) (m.src o.x.c).cursor.toNat 128 = .ok (m2, kap) ∧ (f = fun e => fSacc (m2.asCore.xrm o) (fp32.decode (m2.asCore.core.accWord (o.d.setWidth 2) e).toNat) (m2.asCore.core.accWord (o.a.setWidth 2) e).toInt (fp32.decode (rho / 2 ^ (32 * (e / 32)) % 2 ^ 32)) (fp32.decode (kap / 2 ^ (32 * (e % 32)) % 2 ^ 32))) ∧ (m3 = m2.asCore.putAcc (o.d.setWidth 2) ((List.range 1024).map fun e => BitVec.ofNat 32 (f e).bits) (((List.range 1024).map fun e => (f e).flags).foldl (fun x y => x ||| y) 0)) ∧ (if o.x.x.getLsbD 1 then m3.putAcc (o.a.setWidth 2) [] 0 else m3).matAcquire o = .ok m4 ∧ Issues (.msacc o) s m) ∧
    (∃ (s : State) (m : M) (o : XOp) (rows : List Nat) (mu : M) (m1 : M) (m2 : M), matCap o.a (m.src o.a) .ld = .ok () ∧ rowsIn (m.src o.a) (m.src o.a).cursor.toNat (m.int o.x.b).toNat 128 32 = .ok () ∧ checkAligned (m.src o.a).cursor.toNat 64 = .ok () ∧ (m.int o.x.b).toNat % 64 = 0 ∧ m.acqPending = false ∧ UnitIdle m ∧ mu = withUnit m [o.d.setWidth 2] ∧ mu.asUnit.matRows (m.src o.a) (m.src o.a).cursor.toNat (m.int o.x.b).toNat 0 128 32 = .ok (m1, rows) ∧ ((m1.asCore.putAcc (o.d.setWidth 2) (rows.flatMap fun r => (List.range 32).map fun j => BitVec.ofNat 32 (r / 2 ^ (32 * j))) 0).matAcquire o = .ok m2) ∧ Issues (.mldz o) s m) ∧
    (∃ (s : State) (m : M) (o : XOp) (mu : M) (m0 : M) (m1 : M) (m2 : M), m.restartCheck (m.src o.a) = .ok () ∧ matCap o.a (m.src o.a) .st = .ok () ∧ rowsIn (m.src o.a) (m.src o.a).cursor.toNat (m.int o.x.b).toNat 128 32 = .ok () ∧ checkAligned (m.src o.a).cursor.toNat 64 = .ok () ∧ (m.int o.x.b).toNat % 64 = 0 ∧ m.acqPending = false ∧ UnitIdle m ∧ mu = withUnit m [] ∧ (if o.x.ord.getLsbD 1 then mu.release o.x.sc else .ok mu) = .ok m0 ∧ ((List.range 64).foldlM (fun (m' : M) k => m'.tileStore (m.src o.a) (rowVa (m.src o.a).cursor.toNat (m.int o.x.b).toNat (k / 2) + 64 * (k % 2)) (BitVec.ofNat 512 ((List.range 16).foldr (fun j acc => (m0.core.accWord (o.d.setWidth 2) (32 * (k / 2) + 16 * (k % 2) + j)).toNat + 2 ^ 32 * acc) 0))) m0.asUnit = .ok m1) ∧ m1.asCore.matAcquire o = .ok m2 ∧ Issues (.mstz o) s m) ∧
    (∃ (s : State) (m : M) (o : XOp), UnitIdle m ∧ Issues (.mrd o) s m) ∧
    (∃ (s : State) (m : M) (o : XOp), UnitIdle m ∧ Issues (.mwr o) s m) :=
  ⟨⟨SMat, (entered ((.mmul ({ d := 0, a := 1, x := { b := 1, c := 5, e := 20,  }, lit := none }))) SMat), { d := 0, a := 1, x := { b := 1, c := 5, e := 20,  }, lit := none }, _, _, _, _, rfl, ok_unit (by decide +kernel), by decide +kernel, by unfold UnitIdle; decide +kernel, rfl, ok_spec (d := (m0)) (by decide +kernel), ok_spec (d := (m0)) (by decide +kernel), issues_entered (by decide +kernel)⟩,
   ⟨SMat, (entered ((.mq4 ({ d := 0, a := 1, x := { b := 1, c := 5, e := 20,  }, lit := none }))) SMat), { d := 0, a := 1, x := { b := 1, c := 5, e := 20,  }, lit := none }, _, _, _, _, rfl, ok_unit (by decide +kernel), by decide +kernel, by unfold UnitIdle; decide +kernel, rfl, ok_spec (d := (m0)) (by decide +kernel), ok_spec (d := (m0)) (by decide +kernel), issues_entered (by decide +kernel)⟩,
   ⟨SMat, (entered ((.mgrp ({ d := 0, a := 1, x := { b := 1, c := 1, e := 20, t2 := 5 }, lit := none }))) SMat), { d := 0, a := 1, x := { b := 1, c := 1, e := 20, t2 := 5 }, lit := none }, _, _, _, _, _, _, _, ok_unit (by decide +kernel), ok_unit (by decide +kernel), ok_unit (by decide +kernel), ok_unit (by decide +kernel), ok_unit (by decide +kernel), ok_unit (by decide +kernel), ok_unit (by decide +kernel), by decide +kernel, by decide +kernel, by unfold UnitIdle; decide +kernel, rfl, ok_spec2 (d := (m0, 0)) (by decide +kernel), rfl, by decide +kernel, ok_unit (by decide +kernel), ok_unit (by decide +kernel), rfl, ok_spec (d := (m0)) (by decide +kernel), ok_spec (d := (m0)) (by decide +kernel), issues_entered (by decide +kernel)⟩,
   ⟨SMat, (entered ((.mzero ({ d := 1, a := 0, x := { b := 0, c := 0, e := 20,  }, lit := none }))) SMat), { d := 1, a := 0, x := { b := 0, c := 0, e := 20,  }, lit := none }, by unfold UnitIdle; decide +kernel, issues_entered (by decide +kernel)⟩,
   ⟨SMat, (entered ((.msacc ({ d := 0, a := 1, x := { b := 1, c := 1, e := 20,  }, lit := none }))) SMat), { d := 0, a := 1, x := { b := 1, c := 1, e := 20,  }, lit := none }, _, _, _, _, _, _, _, _, ok_unit (by decide +kernel), ok_unit (by decide +kernel), ok_unit (by decide +kernel), ok_unit (by decide +kernel), ok_unit (by decide +kernel), ok_unit (by decide +kernel), by decide +kernel, by unfold UnitIdle; decide +kernel, rfl, ok_spec2 (d := (m0, 0)) (by decide +kernel), ok_spec2 (d := (m0, 0)) (by decide +kernel), rfl, rfl, ok_spec (d := (m0)) (by decide +kernel), issues_entered (by decide +kernel)⟩,
   ⟨SMat, (entered ((.mldz ({ d := 0, a := 1, x := { b := 11, c := 5, e := 20,  }, lit := none }))) SMat), { d := 0, a := 1, x := { b := 11, c := 5, e := 20,  }, lit := none }, _, _, _, _, ok_unit (by decide +kernel), ok_unit (by decide +kernel), ok_unit (by decide +kernel), by decide +kernel, by decide +kernel, by unfold UnitIdle; decide +kernel, rfl, ok_spec2 (d := (m0, [])) (by decide +kernel), ok_spec (d := (m0)) (by decide +kernel), issues_entered (by decide +kernel)⟩,
   ⟨SMat, (entered ((.mstz ({ d := 0, a := 1, x := { b := 11, c := 5, e := 20,  }, lit := none }))) SMat), { d := 0, a := 1, x := { b := 11, c := 5, e := 20,  }, lit := none }, _, _, _, _, ok_unit (by decide +kernel), ok_unit (by decide +kernel), ok_unit (by decide +kernel), ok_unit (by decide +kernel), by decide +kernel, by decide +kernel, by unfold UnitIdle; decide +kernel, rfl, ok_spec (d := (m0)) (by decide +kernel), ok_spec (d := (m0)) (by decide +kernel), ok_spec (d := (m0)) (by decide +kernel), issues_entered (by decide +kernel)⟩,
   ⟨SMat, (entered ((.mrd ({ d := 0, a := 0, x := { b := 0, c := 0, e := 20,  }, lit := none }))) SMat), { d := 0, a := 0, x := { b := 0, c := 0, e := 20,  }, lit := none }, by unfold UnitIdle; decide +kernel, issues_entered (by decide +kernel)⟩,
   ⟨SMat, (entered ((.mwr ({ d := 0, a := 0, x := { b := 0, c := 0, e := 20,  }, lit := none }))) SMat), { d := 0, a := 0, x := { b := 0, c := 0, e := 20,  }, lit := none }, by unfold UnitIdle; decide +kernel, issues_entered (by decide +kernel)⟩⟩

/-- Hypotheses of `Obligations.MatrixTilesAndRemote`. -/
theorem wit_MatrixTilesAndRemote :
    (∀ i ∈ [(.mcmdGrant ({ d := 0, a := 0, x := { b := 0, c := 0, e := 20,  }, lit := none }))], Issues i S (entered i S)) ∧
    (∃ (s : State) (m : M) (o : XOp) (ra : TRef) (rb : TRef) (fmt : MFmt) (as : List Nat) (bs : List Nat) (m1 : M) (m2 : M) (m3 : M) (m4 : M), m.tileOperand o.a o = .ok ra ∧ m.tileOperand o.x.b o = .ok rb ∧ m.acqPending = false ∧ MFmt.ofTile (Cap.tileFmt ra.c) = some fmt ∧ (Cap.tileFmt ra.c != Cap.tileFmt rb.c || Cap.tileCols ra.c != Cap.tileCols rb.c || decide (32 < Cap.tileRows ra.c) || decide (32 < Cap.tileRows rb.c)) = false ∧ m.tileRows ra o 0 = .ok (m1, as) ∧ m1.tileRows rb o 1 = .ok (m2, bs) ∧ UnitIdle m2 ∧ (withUnit m2 [o.d.setWidth 2]).acquire o.x.sc = .ok m3 ∧ m3.thr.rowprog = 0 ∧ (let m' := M.tileSteps (o.d.setWidth 2) fmt (m3.xrm o) as bs (List.range ((Cap.tileCols ra.c + fmt.k - 1) / fmt.k)) m3; M.matAcquire { m' with st := m'.st.dropHeld m'.thr.held, thr := { m'.thr with rowprog := 0 } } o) = .ok m4 ∧ Issues (.mmult o) s m) ∧
    (∃ (s : State) (m : M) (o : XOp) (g : FFmt) (n : Nat) (xs : Nat) (ws : Nat) (mu : M) (m1 : M) (m2 : M) (m3 : M) (f : Nat → W32 × FFlags), recFormat o.x.t2 = (g, n) ∧ matCap o.a (m.src o.a) .ld = .ok () ∧ checkBounds (m.src o.a) (m.src o.a).cursor.toNat 4096 = .ok () ∧ matCap o.x.b (m.src o.x.b) .ld = .ok () ∧ checkBounds (m.src o.x.b) (m.src o.x.b).cursor.toNat (1024 * n) = .ok () ∧ checkAligned (m.src o.a).cursor.toNat 64 = .ok () ∧ m.acqPending = false ∧ UnitIdle m ∧ mu = withUnit m [o.d.setWidth 2] ∧ mu.asUnit.matRead (m.src o.a) (m.src o.a).cursor.toNat 4096 = .ok (m1, xs) ∧ m1.matRead (m.src o.x.b) (m.src o.x.b).cursor.toNat (1024 * n) = .ok (m2, ws) ∧ f = M.recCell m2.asCore o g n xs ws ∧ ((m2.asCore.putAcc (o.d.setWidth 2) ((List.range 1024).map fun e => (f e).1) ((List.range 1024).foldl (fun x e => x ||| (f e).2) 0)).matAcquire o = .ok m3) ∧ Issues (.mrec o) s m) ∧
    (∃ (s : State) (m : M) (o : XOp) (m1 : M) (t : State), m.cmdChecks o = .ok () ∧ m.acqPending = false ∧ (if o.x.ord.getLsbD 1 then m.release o.x.sc else .ok m) = .ok m1 ∧ m1.flush.acceptMatrix (m1.matrixCmd o) m1.core.die = .accepted t ∧ Issues (.mcmd o) s m) ∧
    (∃ (s : State) (m : M) (o : XOp), o.x.imm.toNat % 4 = 2 ∧ (m.src o.a).tag = true ∧ (m.src o.a).kind = 5 ∧ (m.src o.a).bits.getLsbD (40 + o.d.toNat) = true ∧ (m.src o.a).bits.getLsbD 105 = true) ∧
    (∃ (s : State) (m : M) (o : XOp) (m1 : M), m.thr.mcmdOut = 0 ∧ (m.st.quad m.core.quadId).remq = [] ∧ (m.st.quad m.core.quadId).act = none ∧ m.thr.mcmdErr = none ∧ m.acquire 0 = .ok m1 ∧ Issues (.mwait o) s m) :=
  ⟨issues_all (by decide +kernel),
   ⟨ST, (entered ((.mmult ({ d := 0, a := 12, x := { b := 12, c := 5, e := 20, sc := 1 }, lit := none }))) ST), { d := 0, a := 12, x := { b := 12, c := 5, e := 20, sc := 1 }, lit := none }, _, _, _, _, _, _, _, _, _, ok_spec (d := (tileRef S Cap.zero 0)) (by decide +kernel), ok_spec (d := (tileRef S Cap.zero 0)) (by decide +kernel), by decide +kernel, some_spec (d := (MFmt.i8)) (by decide +kernel), by decide +kernel, ok_spec2 (d := (m0, [])) (by decide +kernel), ok_spec2 (d := (m0, [])) (by decide +kernel), by unfold UnitIdle; decide +kernel, ok_spec (d := (m0)) (by decide +kernel), by decide +kernel, ok_spec (d := (m0)) (by decide +kernel), issues_entered (by decide +kernel)⟩,
   ⟨S, (entered ((.mrec ({ d := 0, a := 1, x := { b := 1, c := 5, e := 20, t2 := 2 }, lit := none }))) S), { d := 0, a := 1, x := { b := 1, c := 5, e := 20, t2 := 2 }, lit := none }, _, _, _, _, _, _, _, _, _, rfl, ok_unit (by decide +kernel), ok_unit (by decide +kernel), ok_unit (by decide +kernel), ok_unit (by decide +kernel), ok_unit (by decide +kernel), by decide +kernel, by unfold UnitIdle; decide +kernel, rfl, ok_spec2 (d := (m0, 0)) (by decide +kernel), ok_spec2 (d := (m0, 0)) (by decide +kernel), rfl, ok_spec (d := (m0)) (by decide +kernel), issues_entered (by decide +kernel)⟩,
   ⟨(withLaunch SCmd), (entered ((.mcmd ({ d := 0, a := 21, x := { b := 0, c := 0, e := 20, imm := 2 }, lit := none }))) ((withLaunch SCmd))), { d := 0, a := 21, x := { b := 0, c := 0, e := 20, imm := 2 }, lit := none }, _, _, ok_unit (by decide +kernel), by decide +kernel, ok_spec (d := (m0)) (by decide +kernel), taken_spec (by decide +kernel), issues_entered (by decide +kernel)⟩,
   ⟨SCmd, (entered .nop SCmd), { d := 0, a := 21, x := { b := 0, c := 0, e := 20, imm := 2 }, lit := none }, by decide +kernel, by decide +kernel, by decide +kernel, by decide +kernel, by decide +kernel⟩,
   ⟨S, (entered ((.mwait ({ d := 9, a := 1, x := {}, lit := none }))) S), { d := 9, a := 1, x := {}, lit := none }, _, by decide +kernel, by decide +kernel, by decide +kernel, by decide +kernel, ok_spec (d := (m0)) (by decide +kernel), issues_entered (by decide +kernel)⟩⟩

/-- Hypotheses of `Obligations.EngineCommands`. -/
theorem wit_EngineCommands :
    (∃ (s : State) (m : M) (o : XOp) (k : Core), m.engRestart (m.src o.a) = .ok () ∧ engCap o.a (m.src o.a) (dstPerms (o.x.x.getLsbD 1)) = .ok () ∧ checkBounds (m.src o.a) (m.src o.a).cursor.toNat (m.int o.x.c).toNat = .ok () ∧ engCap o.x.b (m.src o.x.b) [.ld] = .ok () ∧ checkBounds (m.src o.x.b) (m.src o.x.b).cursor.toNat (m.int o.x.c).toNat = .ok () ∧ ((o.x.x.getLsbD 1 = true → engAligned 8 (some (m.src o.a)) (some (m.src o.x.b)) (m.int o.x.c).toNat = .ok ())) ∧ m.acqPending = false ∧ (m.core.engQueue .copy).length < 2 ∧ k = m.core.setEng .copy (m.core.engQueue .copy ++ [(m.engCmd o 0 (m.src o.a) (m.src o.x.b) (m.src o.x.c))]) (m.core.engRun .copy) ∧ Issues (.cp o) s m) ∧
    (∃ (s : State) (m : M) (o : XOp) (k : Core), m.engRestart (m.src o.a) = .ok () ∧ engCap o.a (m.src o.a) (dstPerms (o.x.x.getLsbD 1)) = .ok () ∧ checkBounds (m.src o.a) (m.src o.a).cursor.toNat (m.int o.x.c).toNat = .ok () ∧ ((o.x.x.getLsbD 1 = true → engAligned 8 (some (m.src o.a)) none (m.int o.x.c).toNat = .ok ())) ∧ m.acqPending = false ∧ (m.core.engQueue .copy).length < 2 ∧ k = m.core.setEng .copy (m.core.engQueue .copy ++ [(m.engCmd o 2 (m.src o.a) (m.src o.x.b) (m.src o.x.c))]) (m.core.engRun .copy) ∧ Issues (.cpf o) s m) ∧
    (∃ (s : State) (m : M) (o : XOp) (k : Core), m.engRestart (m.src o.a) = .ok () ∧ engCap o.a (m.src o.a) (dstPerms (o.x.x.getLsbD 1)) = .ok () ∧ rowsBounds (m.src o.a) (desc2 (m.src o.x.c)).ds (desc2 (m.src o.x.c)).w (desc2 (m.src o.x.c)).n = .ok () ∧ engCap o.x.b (m.src o.x.b) [.ld] = .ok () ∧ rowsBounds (m.src o.x.b) (desc2 (m.src o.x.c)).ss (desc2 (m.src o.x.c)).w (desc2 (m.src o.x.c)).n = .ok () ∧ (m.src o.x.c).tag = false ∧ ((o.x.x.getLsbD 1 = true → rowsAligned (m.src o.a) (m.src o.x.b) (desc2 (m.src o.x.c)) = .ok ())) ∧ m.acqPending = false ∧ (m.core.engQueue .copy).length < 2 ∧ k = m.core.setEng .copy (m.core.engQueue .copy ++ [(m.engCmd o 1 (m.src o.a) (m.src o.x.b) (m.src o.x.c))]) (m.core.engRun .copy) ∧ Issues (.cp2d o) s m) ∧
    (∃ (s : State) (m : M) (o : XOp) (k : Core), m.engRestart (m.src o.a) = .ok () ∧ engCap o.a (m.src o.a) [.st] = .ok () ∧ checkBounds (m.src o.a) (m.src o.a).cursor.toNat (o.x.imm.toNat * szBytes (o.x.t2.setWidth 3)) = .ok () ∧ engCap o.x.b (m.src o.x.b) [.ld] = .ok () ∧ engCap o.x.c (m.src o.x.c) [.ld] = .ok () ∧ checkBounds (m.src o.x.c) (m.src o.x.c).cursor.toNat (8 * o.x.imm.toNat) = .ok () ∧ m.acqPending = false ∧ (m.core.engQueue .gather).length < 2 ∧ k = m.core.setEng .gather (m.core.engQueue .gather ++ [(m.engCmd o 3 (m.src o.a) (m.src o.x.b) (m.src o.x.c))]) (m.core.engRun .gather) ∧ Issues (.cpg o) s m) ∧
    (∃ (s : State) (m : M) (o : XOp) (k : Core), m.engRestart (m.src o.a) = .ok () ∧ engCap o.a (m.src o.a) [.st] = .ok () ∧ checkBounds (m.src o.x.b) (m.src o.x.b).cursor.toNat (o.x.imm.toNat * szBytes (o.x.t2.setWidth 3)) = .ok () ∧ engCap o.x.b (m.src o.x.b) [.ld] = .ok () ∧ engCap o.x.c (m.src o.x.c) [.ld] = .ok () ∧ checkBounds (m.src o.x.c) (m.src o.x.c).cursor.toNat (8 * o.x.imm.toNat) = .ok () ∧ m.acqPending = false ∧ (m.core.engQueue .gather).length < 2 ∧ k = m.core.setEng .gather (m.core.engQueue .gather ++ [(m.engCmd o 4 (m.src o.a) (m.src o.x.b) (m.src o.x.c))]) (m.core.engRun .gather) ∧ Issues (.cps o) s m) ∧
    (∃ (s : State) (m : M) (o : XOp) (k : Core), m.engRestart (m.src o.a) = .ok () ∧ engCap o.a (m.src o.a) [.st] = .ok () ∧ checkBounds (m.src o.a) (m.src o.a).cursor.toNat (m.int o.x.c).toNat = .ok () ∧ engCap o.x.b (m.src o.x.b) [.ld] = .ok () ∧ checkBounds (m.src o.x.b) (m.src o.x.b).cursor.toNat (m.int o.x.c).toNat = .ok () ∧ engAligned 16 (some (m.src o.a)) (some (m.src o.x.b)) (m.int o.x.c).toNat = .ok () ∧ m.acqPending = false ∧ (m.core.engQueue .copy).length < 2 ∧ k = m.core.setEng .copy (m.core.engQueue .copy ++ [(m.engCmd o 5 (m.src o.a) (m.src o.x.b) (m.src o.x.c))]) (m.core.engRun .copy) ∧ Issues (.cpq o) s m) :=
  ⟨⟨S, (entered ((.cp ({ d := 0, a := 1, x := { b := 2, c := 11, t2 := 3, sc := 1, x := 2,  }, lit := none }))) S), { d := 0, a := 1, x := { b := 2, c := 11, t2 := 3, sc := 1, x := 2,  }, lit := none }, _, ok_unit (by decide +kernel), ok_unit (by decide +kernel), ok_unit (by decide +kernel), ok_unit (by decide +kernel), ok_unit (by decide +kernel), fun _ => ok_unit (by decide +kernel), by decide +kernel, by decide +kernel, rfl, issues_entered (by decide +kernel)⟩,
   ⟨S, (entered ((.cpf ({ d := 0, a := 1, x := { b := 2, c := 11, t2 := 3, sc := 1, x := 2,  }, lit := none }))) S), { d := 0, a := 1, x := { b := 2, c := 11, t2 := 3, sc := 1, x := 2,  }, lit := none }, _, ok_unit (by decide +kernel), ok_unit (by decide +kernel), ok_unit (by decide +kernel), fun _ => ok_unit (by decide +kernel), by decide +kernel, by decide +kernel, rfl, issues_entered (by decide +kernel)⟩,
   ⟨S, (entered ((.cp2d ({ d := 0, a := 1, x := { b := 2, c := 5, t2 := 3, sc := 1, x := 2,  }, lit := none }))) S), { d := 0, a := 1, x := { b := 2, c := 5, t2 := 3, sc := 1, x := 2,  }, lit := none }, _, ok_unit (by decide +kernel), ok_unit (by decide +kernel), ok_unit (by decide +kernel), ok_unit (by decide +kernel), ok_unit (by decide +kernel), by decide +kernel, fun _ => ok_unit (by decide +kernel), by decide +kernel, by decide +kernel, rfl, issues_entered (by decide +kernel)⟩,
   ⟨S, (entered ((.cpg ({ d := 0, a := 1, x := { b := 1, c := 1, t2 := 3, sc := 1, x := 2, imm := 4 }, lit := none }))) S), { d := 0, a := 1, x := { b := 1, c := 1, t2 := 3, sc := 1, x := 2, imm := 4 }, lit := none }, _, ok_unit (by decide +kernel), ok_unit (by decide +kernel), ok_unit (by decide +kernel), ok_unit (by decide +kernel), ok_unit (by decide +kernel), ok_unit (by decide +kernel), by decide +kernel, by decide +kernel, rfl, issues_entered (by decide +kernel)⟩,
   ⟨S, (entered ((.cps ({ d := 0, a := 1, x := { b := 1, c := 1, t2 := 3, sc := 1, x := 2, imm := 4 }, lit := none }))) S), { d := 0, a := 1, x := { b := 1, c := 1, t2 := 3, sc := 1, x := 2, imm := 4 }, lit := none }, _, ok_unit (by decide +kernel), ok_unit (by decide +kernel), ok_unit (by decide +kernel), ok_unit (by decide +kernel), ok_unit (by decide +kernel), ok_unit (by decide +kernel), by decide +kernel, by decide +kernel, rfl, issues_entered (by decide +kernel)⟩,
   ⟨S, (entered ((.cpq ({ d := 0, a := 1, x := { b := 2, c := 11, t2 := 3, sc := 1, x := 2,  }, lit := none }))) S), { d := 0, a := 1, x := { b := 2, c := 11, t2 := 3, sc := 1, x := 2,  }, lit := none }, _, ok_unit (by decide +kernel), ok_unit (by decide +kernel), ok_unit (by decide +kernel), ok_unit (by decide +kernel), ok_unit (by decide +kernel), ok_unit (by decide +kernel), by decide +kernel, by decide +kernel, rfl, issues_entered (by decide +kernel)⟩⟩

/-- Hypotheses of `Obligations.KeyedInstructions`. -/
theorem wit_KeyedInstructions :
    (∃ (s : State) (m : M) (o : XOp) (r : MRef) (m1 : M), r = m.refAt o.a (immOff (some o.x)) ∧ checkCap o.a r.c [3, 6] (if xfabMode o.x 0 = 0 then [.ld] else [.ld, .fe]) = .ok () ∧ r.va % (szBytes (o.x.t2.setWidth 3)) = 0 ∧ m.acqPending = false ∧ (m.keyedOrdered (o.x.ord.getLsbD 1) o.x.sc { kind := kRld, win := r.c, off := BitVec.ofNat 64 r.va, mode := (xfabMode o.x 0).setWidth 8, sz := (o.x.t2.setWidth 3), scope := o.x.sc, d := o.d, acq := if xfabMode o.x 0 = 1 ∨ xfabMode o.x 0 = 2 then some o.x.sc else orderAcq o.x.ord o.x.sc } = .ok m1) ∧ Issues (.rld o) s m) ∧
    (∃ (s : State) (m : M) (o : XOp) (r : MRef) (m1 : M), m.restart = false ∧ r = m.refAt o.a (immOff (some o.x)) ∧ checkCap o.a r.c [3, 6] (if xfabMode o.x 3 = 3 then [.st] else [.st, .fe]) = .ok () ∧ r.va % (szBytes (o.x.t2.setWidth 3)) = 0 ∧ m.acqPending = false ∧ m.keyedOrdered (xfabMode o.x 3 = 0 || xfabMode o.x 3 = 1 || o.x.ord.getLsbD 1) o.x.sc { kind := kRst, win := r.c, off := BitVec.ofNat 64 r.va, mode := (xfabMode o.x 3).setWidth 8, sz := (o.x.t2.setWidth 3), scope := o.x.sc, payload := storeWords (szBytes (o.x.t2.setWidth 3)) (m.src o.d), acq := orderAcq o.x.ord o.x.sc } = .ok m1 ∧ Issues (.rst o) s m) ∧
    (∃ (s : State) (m : M) (o : XOp) (r : MRef) (m1 : M), m.restart = false ∧ r = m.refAt o.a (immOff (some o.x)) ∧ checkCap o.a r.c [3, 6] [.atom] = .ok () ∧ r.va % (szBytes (o.x.t2.setWidth 3)) = 0 ∧ m.acqPending = false ∧ m.keyedOrdered (o.x.ord.getLsbD 1) o.x.sc { kind := kRamo, win := r.c, off := BitVec.ofNat 64 r.va, sz := (o.x.t2.setWidth 3), scope := o.x.sc, aux := (o.x.c.setWidth 3).setWidth 16, payload := storeWords (szBytes (o.x.t2.setWidth 3)) (m.src o.x.b), d := o.d, acq := orderAcq o.x.ord o.x.sc } = .ok m1 ∧ Issues (.ramo o) s m) ∧
    (∃ (s : State) (m : M) (o : XOp) (r : MRef) (m1 : M), m.restart = false ∧ r = m.refAt o.a (immOff (some o.x)) ∧ checkCap o.a r.c [3, 6] [.atom] = .ok () ∧ r.va % (szBytes (o.x.t2.setWidth 3)) = 0 ∧ m.acqPending = false ∧ m.keyedOrdered (o.x.ord.getLsbD 1) o.x.sc { kind := kRcas, win := r.c, off := BitVec.ofNat 64 r.va, sz := (o.x.t2.setWidth 3), scope := o.x.sc, payload := storeWords (szBytes (o.x.t2.setWidth 3)) (Cap.ofInt (m.int o.x.b)) ++ storeWords (szBytes (o.x.t2.setWidth 3)) (Cap.ofInt (m.int o.x.c)), d := o.d, e := o.x.e, acq := orderAcq o.x.ord o.x.sc } = .ok m1 ∧ Issues (.rcas o) s m) ∧
    (∃ (s : State) (m : M) (o : XOp) (r : MRef) (m1 : M), m.restart = false ∧ r = m.refAt o.a (immOff (some o.x)) ∧ checkCap o.a r.c [6] [.call] = .ok () ∧ m.acqPending = false ∧ (m.keyedOrdered (o.x.ord.getLsbD 1) o.x.sc { kind := kRcall, win := r.c, off := BitVec.ofNat 64 r.va, aux := if (m.src o.x.b).tag then 1 else 0, payload := [(m.src o.x.b).int, (m.src o.x.b).bits.extractLsb' 64 64] ++ (List.range 4).map fun k => m.int (o.x.c + BitVec.ofNat 6 k), acq := orderAcq o.x.ord o.x.sc } = .ok m1) ∧ Issues (.rcall o) s m) ∧
    (∃ (s : State) (m : M) (o : XOp) (p : Packet), m.restart = false ∧ checkCap o.a (m.src o.a) [6] [.st] = .ok () ∧ m.acqPending = false ∧ o.x.ord = 0 ∧ p = ({ kind := kRnote, vn := 2, rkey := (m.src o.a).rkey, addr := (m.src o.a).cursor, aux := (o.x.b.setWidth 3).setWidth 16, ctx := m.core.ctx, priv := m.thr.sys, thr := BitVec.ofNat 3 m.tid.val, dst := checkEndpoint (m.src o.a).wmodule (m.src o.a).rkey, src := endpointOf m.st m.core.id } : Packet) ∧ Issues (.rnote o) s m) ∧
    (∃ (s : State) (m : M) (o : XOp), m.restart = false ∧ m.tickets = [] ∧ Issues (.rfence o) s m) ∧
    (∃ (s : State) (m : M) (o : XOp) (m1 : M), m.restart = false ∧ checkCap o.a (m.src o.a) [3, 6] [.ld] = .ok () ∧ checkCap o.x.b (m.src o.x.b) [0, 1] [.st] = .ok () ∧ checkBounds (m.src o.x.b) (m.src o.x.b).cursor.toNat o.x.imm.toNat = .ok () ∧ (m.src o.a).cursor.toNat % 8 = 0 ∧ (m.src o.x.b).cursor.toNat % 8 = 0 ∧ m.rangeUncovered (m.src o.x.b) o.x.imm.toNat true = false ∧ m.acqPending = false ∧ m.keyedOrdered (o.x.ord.getLsbD 1) o.x.sc { kind := kRget, win := (m.src o.a), off := (m.src o.a).cursor, scope := o.x.sc, aux := BitVec.ofNat 16 o.x.imm.toNat, d := o.d, dst := some ((m.src o.x.b), o.x.imm.toNat), acq := orderAcq o.x.ord o.x.sc } = .ok m1 ∧ Issues (.rget o) s m) ∧
    (∃ (s : State) (m : M) (o : XOp) (ws : List W64) (m0 : M) (m1 : M), m.restart = false ∧ checkCap o.a (m.src o.a) [3, 6] [.st] = .ok () ∧ checkCap o.x.b (m.src o.x.b) [0, 1] [.ld] = .ok () ∧ checkBounds (m.src o.x.b) (m.src o.x.b).cursor.toNat o.x.imm.toNat = .ok () ∧ (m.src o.a).cursor.toNat % 8 = 0 ∧ (m.src o.x.b).cursor.toNat % 8 = 0 ∧ m.acqPending = false ∧ m.loadWords (m.src o.x.b) (m.src o.x.b).cursor.toNat (o.x.imm.toNat / 8) = .ok (m0, ws) ∧ m0.keyedOrdered (o.x.ord.getLsbD 1) o.x.sc { kind := kRput, win := (m.src o.a), off := (m.src o.a).cursor, scope := o.x.sc, aux := BitVec.ofNat 16 o.x.imm.toNat, d := o.d, payload := ws, acq := orderAcq o.x.ord o.x.sc } = .ok m1 ∧ Issues (.rput o) s m) ∧
    (∃ (s : State) (m : M) (q : BitVec 3) (a : F6) (b : F6), (m.int b).getLsbD 6 = true ∧ m.restart = false ∧ checkCap a (m.src a) [6] [.st, .ld] = .ok () ∧ Issues (.qbind q a b) s m) :=
  ⟨⟨S, (entered ((.rld ({ d := 9, a := 7, x := { b := 3, c := 4, t2 := 3, sc := 1, x := 2,  }, lit := none }))) S), { d := 9, a := 7, x := { b := 3, c := 4, t2 := 3, sc := 1, x := 2,  }, lit := none }, _, _, rfl, ok_unit (by decide +kernel), by decide +kernel, by decide +kernel, ok_spec (d := (m0)) (by decide +kernel), issues_entered (by decide +kernel)⟩,
   ⟨S, (entered ((.rst ({ d := 9, a := 7, x := { b := 3, c := 4, t2 := 3, sc := 1, x := 2,  }, lit := none }))) S), { d := 9, a := 7, x := { b := 3, c := 4, t2 := 3, sc := 1, x := 2,  }, lit := none }, _, _, by decide +kernel, rfl, ok_unit (by decide +kernel), by decide +kernel, by decide +kernel, ok_spec (d := (m0)) (by decide +kernel), issues_entered (by decide +kernel)⟩,
   ⟨S, (entered ((.ramo ({ d := 9, a := 7, x := { b := 3, c := 4, t2 := 3, sc := 1, x := 2,  }, lit := none }))) S), { d := 9, a := 7, x := { b := 3, c := 4, t2 := 3, sc := 1, x := 2,  }, lit := none }, _, _, by decide +kernel, rfl, ok_unit (by decide +kernel), by decide +kernel, by decide +kernel, ok_spec (d := (m0)) (by decide +kernel), issues_entered (by decide +kernel)⟩,
   ⟨S, (entered ((.rcas ({ d := 9, a := 7, x := { b := 3, c := 4, t2 := 3, sc := 1, x := 2,  }, lit := none }))) S), { d := 9, a := 7, x := { b := 3, c := 4, t2 := 3, sc := 1, x := 2,  }, lit := none }, _, _, by decide +kernel, rfl, ok_unit (by decide +kernel), by decide +kernel, by decide +kernel, ok_spec (d := (m0)) (by decide +kernel), issues_entered (by decide +kernel)⟩,
   ⟨S, (entered ((.rcall ({ d := 9, a := 6, x := { b := 3, c := 4, t2 := 3, sc := 1, x := 2,  }, lit := none }))) S), { d := 9, a := 6, x := { b := 3, c := 4, t2 := 3, sc := 1, x := 2,  }, lit := none }, _, _, by decide +kernel, rfl, ok_unit (by decide +kernel), by decide +kernel, ok_spec (d := (m0)) (by decide +kernel), issues_entered (by decide +kernel)⟩,
   ⟨S, (entered ((.rnote ({ d := 9, a := 6, x := { b := 3, c := 4, t2 := 3, sc := 1, x := 2,  }, lit := none }))) S), { d := 9, a := 6, x := { b := 3, c := 4, t2 := 3, sc := 1, x := 2,  }, lit := none }, _, by decide +kernel, ok_unit (by decide +kernel), by decide +kernel, by decide +kernel, rfl, issues_entered (by decide +kernel)⟩,
   ⟨S, (entered ((.rfence ({ d := 9, a := 6, x := { b := 3, c := 4, t2 := 3, sc := 1, x := 2,  }, lit := none }))) S), { d := 9, a := 6, x := { b := 3, c := 4, t2 := 3, sc := 1, x := 2,  }, lit := none }, by decide +kernel, by decide +kernel, issues_entered (by decide +kernel)⟩,
   ⟨S, (entered ((.rget ({ d := 9, a := 7, x := { b := 1, c := 4, t2 := 3, sc := 1, x := 2, imm := 8 }, lit := none }))) S), { d := 9, a := 7, x := { b := 1, c := 4, t2 := 3, sc := 1, x := 2, imm := 8 }, lit := none }, _, by decide +kernel, ok_unit (by decide +kernel), ok_unit (by decide +kernel), ok_unit (by decide +kernel), by decide +kernel, by decide +kernel, by decide +kernel, by decide +kernel, ok_spec (d := (m0)) (by decide +kernel), issues_entered (by decide +kernel)⟩,
   ⟨S, (entered ((.rput ({ d := 9, a := 7, x := { b := 1, c := 4, t2 := 3, sc := 1, x := 2, imm := 8 }, lit := none }))) S), { d := 9, a := 7, x := { b := 1, c := 4, t2 := 3, sc := 1, x := 2, imm := 8 }, lit := none }, _, _, _, by decide +kernel, ok_unit (by decide +kernel), ok_unit (by decide +kernel), ok_unit (by decide +kernel), by decide +kernel, by decide +kernel, by decide +kernel, ok_spec2 (d := (m0, [])) (by decide +kernel), ok_spec (d := (m0)) (by decide +kernel), issues_entered (by decide +kernel)⟩,
   ⟨S, (entered ((.qbind 1 6 11)) S), 1, 6, 11, by decide +kernel, by decide +kernel, ok_unit (by decide +kernel), issues_entered (by decide +kernel)⟩⟩

/-- Hypotheses of `Obligations.KeyedInstructions`. -/
theorem wit_KeyedRequestSent :
    (∃ (m : M) (k : KReq), m.core.freeEntry = none) ∧
    (∃ (m : M) (k : KReq) (idx : Nat), m.core.freeEntry = some idx) :=
  ⟨⟨{ m0 with core := { core0 with tickets := (List.range 16).map fun i => { idx := i, tag := i, gen := 0, thr := 0, req := { kind := kRld, vn := 1 }, d := 0, e := 0, pc := capMem, ins := 0 } } }, { kind := kRld, win := capRemote, off := 0 }, by decide +kernel⟩,
   ⟨{ m0 with st := S.setDie 0 fun d => { d with lull := true } }, { kind := kRld, win := capRemote, off := 0 }, _, some_spec (d := (0)) (by decide +kernel)⟩⟩

theorem regions_used {s : State} (h : (s.dies.get 0).regions = (List.range 4096).map fun i => (0, i, { v := true })) : s.regionFree = none := by
  unfold State.regionFree
  rw [List.find?_eq_none]
  intro i hi
  simp only [Bool.not_eq_true', Bool.not_eq_false, List.any_eq_true]
  refine ⟨s.dies.get 0, List.getElem_mem (l := s.dies.toList) (n := 0) (by simp), (0, i, { v := true }), ?_, by simp⟩
  rw [h]; exact List.mem_map.mpr ⟨i, hi, rfl⟩
theorem set_regions {s : State} {r : List (Nat × Nat × Region)} : ((s.setDie 0 fun d => { d with regions := r }).dies.get 0).regions = r := by
  show ((s.dies.set 0 _)[0]).regions = r
  rw [Vector.getElem_set_self]
/-- Every index of the region table is in use. -/
def SFull : State := Ssys.setDie 0 fun d => { d with regions := (List.range 4096).map fun i => (0, i, { v := true }) }

/-- Hypotheses of `Obligations.SystemInstructions`. -/
theorem wit_SystemInstructions :
    (∃ (s : State) (m : M) (a : F6) (b : F6) (m1 : M), m.release 4 = .ok m1 ∧ Issues (.tlbinv a b) s m) ∧
    (∃ (s : State) (m : M) (o : XOp) (i : Nat) (r : Region), checkCap o.a (m.src o.a) [0] [.rem] = .ok () ∧ m.st.regionFree = some i ∧ r = ({ vbase := BitVec.ofNat 56 (m.src o.a).base, length := BitVec.ofNat 64 ((m.src o.a).top - (m.src o.a).base), ctx := m.core.ctx, perm := (m.int o.x.b).setWidth 5 &&& (BitVec.ofNat 5 ((if capHas (m.src o.a) .ld then 1 else 0) + (if capHas (m.src o.a) .st then 2 else 0) + (if capHas (m.src o.a) .atom then 4 else 0) + (if capHas (m.src o.a) .fe then 8 else 0))), gen := ((m.st.die m.core.die).region 3 i).gen, v := true } : Region) ∧ Issues (.rkreg o) s m) ∧
    (∃ (s : State) (m : M) (o : XOp), checkCap o.a (m.src o.a) [0] [.rem] = .ok () ∧ m.st.regionFree = none ∧ Issues (.rkreg o) s m) ∧
    (∃ (s : State) (m : M) (o : XOp) (r : Region), r = (m.st.die m.core.die).region 3 (((m.int o.a).setWidth 32 : BitVec 32).toNat / 2 ^ 20) ∧ r.v = true ∧ r.gen = ((m.int o.a).setWidth 32 : BitVec 32).setWidth 20 ∧ r.ctx = m.core.ctx ∧ Issues (.rkrev o) s m) ∧
    (∃ (s : State) (m : M) (o : XOp) (r : Region), r = (m.st.die m.core.die).region 3 (((m.int o.a).setWidth 32 : BitVec 32).toNat / 2 ^ 20) ∧ (r.v = false ∨ r.gen ≠ ((m.int o.a).setWidth 32 : BitVec 32).setWidth 20) ∧ Issues (.rkrev o) s m) ∧
    (∃ (s : State) (m : M) (o : XOp) (r : Region), r = (m.st.die m.core.die).region 3 (((m.int o.a).setWidth 32 : BitVec 32).toNat / 2 ^ 20) ∧ r.v = true ∧ r.gen = ((m.int o.a).setWidth 32 : BitVec 32).setWidth 20 ∧ r.ctx ≠ m.core.ctx ∧ Issues (.rkrev o) s m) ∧
    (∃ (s : State) (m : M) (o : XOp) (k : Nat), m.mighintCode (m.int o.a).toNat (fieldOf (m.int o.x.b) 1 0) (fieldOf (m.int o.x.b) 6 4) = (k, none) ∧ Issues (.mighint o) s m) ∧
    (∃ (s : State) (m : M) (o : XOp) (k : Nat) (d : Nat) (leaf : Nat) (dst : Nat), m.mighintCode (m.int o.a).toNat (fieldOf (m.int o.x.b) 1 0) (fieldOf (m.int o.x.b) 6 4) = (k, some (d, leaf, dst)) ∧ Issues (.mighint o) s m) ∧
    (∃ (s : State) (m : M) (o : XOp) (m1 : M) (x : XRes), m.page (m.int o.a).toNat { rd := true } = .ok (m1, x) ∧ motionOf m1.st x.pa = none ∧ (!(m1.int o.x.b).getLsbD 0 && (m1.st.die (homeDie x.pa)).retired.contains (x.pa / 2 ^ 16)) = false ∧ Issues (.pgpin o) s m) ∧
    (∃ (s : State) (m : M) (o : XOp) (m1 : M) (x : XRes), m.page (m.int o.a).toNat { rd := true } = .ok (m1, x) ∧ motionOf m1.st x.pa = none ∧ (!(m1.int o.x.b).getLsbD 0 && (m1.st.die (homeDie x.pa)).retired.contains (x.pa / 2 ^ 16)) = true ∧ Issues (.pgpin o) s m) ∧
    (∃ (s : State) (m : M) (o : XOp) (m1 : M) (m2 : M) (x : XRes) (pa : Nat) (w0 : Nat) (w1 : Nat) (lvl : Nat) (leaf : Nat) (t : State), m.page (m.int o.a).toNat { rd := true } = .ok (m1, x) ∧ motionOf m1.st x.pa = none ∧ m1.release 4 = .ok m2 ∧ walk m2.st m2.core.desc.ptroot ((m.int o.a).toNat % 2 ^ 56) = .page pa w0 w1 lvl leaf ∧ t = m2.st.retireLeaf leaf (some m2.core.ctx) (some (((m.int o.a).toNat % 2 ^ 56) / 2 ^ (16 + 10 * lvl) * 2 ^ (10 * lvl), 2 ^ (10 * lvl))) x.pa ∧ Issues (.pgret o) s m) ∧
    (∃ (s : State) (m : M) (o : XOp) (m1 : M), (m.emitRanges (fun _ => true) = .ok m1) ∧ Issues (.logring o) s m) ∧
    (∃ (s : State) (m : M) (o : XOp), accessOk (m.st.die 0) 1100 moduleRange m.master 2 = true ∧ (fieldOf (m.int o.a) 9 0) ≠ 0 ∧ Issues (.keyset o) s m) ∧
    (∃ (s : State) (m : M) (o : XOp), accessOk (m.st.die 0) 1100 moduleRange m.master 2 = true ∧ (fieldOf (m.int o.a) 9 0) = 0 ∧ Issues (.keyset o) s m) ∧
    (∃ (s : State) (m : M) (o : XOp), accessOk (m.st.die 0) 1100 moduleRange m.master 2 = false ∧ Issues (.keyset o) s m) ∧
    (∃ (s : State) (m : M) (o : XOp) (p : Nat), accessOk (m.st.die (fieldOf (m.int o.a) 12 10)) 1100 (dieRange (fieldOf (m.int o.a) 12 10)) m.master 2 = true ∧ (m.st.die (fieldOf (m.int o.a) 12 10)).corePlace (fieldOf (m.int o.a) 12 10) (fieldOf (m.int o.a) 9 0) = some p ∧ (m.st.die (fieldOf (m.int o.a) 12 10)).sealedCores.contains p = false ∧ Issues (.coreseal o) s m) ∧
    (∃ (s : State) (m : M) (o : XOp) (p : Nat), accessOk (m.st.die (fieldOf (m.int o.a) 12 10)) 1100 (dieRange (fieldOf (m.int o.a) 12 10)) m.master 2 = true ∧ (m.st.die (fieldOf (m.int o.a) 12 10)).corePlace (fieldOf (m.int o.a) 12 10) (fieldOf (m.int o.a) 9 0) = some p ∧ (m.st.die (fieldOf (m.int o.a) 12 10)).sealedCores.contains p = true ∧ Issues (.coreseal o) s m) ∧
    (∃ (s : State) (m : M) (o : XOp), accessOk (m.st.die (fieldOf (m.int o.a) 12 10)) 1100 (dieRange (fieldOf (m.int o.a) 12 10)) m.master 2 = false ∧ Issues (.coreseal o) s m) :=
  ⟨⟨Ssys, (entered ((.tlbinv 3 4)) Ssys), 3, 4, _, ok_spec (d := (m0)) (by decide +kernel), issues_entered (by decide +kernel)⟩,
   ⟨Ssys, (entered ((.rkreg ({ d := 9, a := 2, x := { b := 4, c := 0,  }, lit := none }))) Ssys), { d := 9, a := 2, x := { b := 4, c := 0,  }, lit := none }, _, _, ok_unit (by decide +kernel), some_spec (d := (0)) (by decide +kernel), rfl, issues_entered (by decide +kernel)⟩,
   ⟨SFull, { entered (.rkreg { d := 9, a := 2, x := { b := 4, c := 0,  }, lit := none }) SFull with st := SFull }, { d := 9, a := 2, x := { b := 4, c := 0,  }, lit := none }, ok_unit (by decide +kernel), regions_used set_regions, issues_entered (by decide +kernel)⟩,
   ⟨(Ssys.setDie 0 fun d => d.putRegion 3 0 { v := true }), (entered ((.rkrev ({ d := 9, a := 5, x := { b := 4, c := 0,  }, lit := none }))) ((Ssys.setDie 0 fun d => d.putRegion 3 0 { v := true }))), { d := 9, a := 5, x := { b := 4, c := 0,  }, lit := none }, _, rfl, by decide +kernel, by decide +kernel, by decide +kernel, issues_entered (by decide +kernel)⟩,
   ⟨Ssys, (entered ((.rkrev ({ d := 9, a := 5, x := { b := 4, c := 0,  }, lit := none }))) Ssys), { d := 9, a := 5, x := { b := 4, c := 0,  }, lit := none }, _, rfl, by decide +kernel, issues_entered (by decide +kernel)⟩,
   ⟨(Ssys.setDie 0 fun d => d.putRegion 3 0 { v := true, ctx := 1 }), (entered ((.rkrev ({ d := 9, a := 5, x := { b := 4, c := 0,  }, lit := none }))) ((Ssys.setDie 0 fun d => d.putRegion 3 0 { v := true, ctx := 1 }))), { d := 9, a := 5, x := { b := 4, c := 0,  }, lit := none }, _, rfl, by decide +kernel, by decide +kernel, by decide +kernel, issues_entered (by decide +kernel)⟩,
   ⟨Ssys, (entered ((.mighint ({ d := 9, a := 3, x := { b := 4, c := 0,  }, lit := none }))) Ssys), { d := 9, a := 3, x := { b := 4, c := 0,  }, lit := none }, _, tup2r (by decide +kernel), issues_entered (by decide +kernel)⟩,
   ⟨SMove, (entered ((.mighint ({ d := 9, a := 2, x := { b := 5, c := 0,  }, lit := none }))) SMove), { d := 9, a := 2, x := { b := 5, c := 0,  }, lit := none }, 0, 0, 0x4010, 0x30000, by decide +kernel, issues_entered (by decide +kernel)⟩,
   ⟨SPage, (entered ((.pgpin ({ d := 9, a := 2, x := { b := 3, c := 0,  }, lit := none }))) SPage), { d := 9, a := 2, x := { b := 3, c := 0,  }, lit := none }, _, _, ok_spec2 (d := (m0, ⟨0, 0, 0⟩)) (by decide +kernel), by decide +kernel, by decide +kernel, issues_entered (by decide +kernel)⟩,
   ⟨(SPage.setDie 0 fun d => { d with retired := [1] }), (entered ((.pgpin ({ d := 9, a := 2, x := { b := 5, c := 0,  }, lit := none }))) ((SPage.setDie 0 fun d => { d with retired := [1] }))), { d := 9, a := 2, x := { b := 5, c := 0,  }, lit := none }, _, _, ok_spec2 (d := (m0, ⟨0, 0, 0⟩)) (by decide +kernel), by decide +kernel, by decide +kernel, issues_entered (by decide +kernel)⟩,
   ⟨SPage, (entered ((.pgret ({ d := 9, a := 2, x := { b := 5, c := 0,  }, lit := none }))) SPage), { d := 9, a := 2, x := { b := 5, c := 0,  }, lit := none }, _, _, _, 0x10000, 0x100F5, 0x0000000FFFFFFFFF, 0, 0x4010, _, ok_spec2 (d := (m0, ⟨0, 0, 0⟩)) (by decide +kernel), by decide +kernel, ok_spec (d := (m0)) (by decide +kernel), by decide +kernel, rfl, issues_entered (by decide +kernel)⟩,
   ⟨Ssys, (entered ((.logring ({ d := 9, a := 1, x := {}, lit := none }))) Ssys), { d := 9, a := 1, x := {}, lit := none }, _, ok_spec (d := (m0)) (by decide +kernel), issues_entered (by decide +kernel)⟩,
   ⟨SReg, (entered ((.keyset ({ d := 9, a := 3, x := { b := 5, c := 0,  }, lit := none }))) SReg), { d := 9, a := 3, x := { b := 5, c := 0,  }, lit := none }, by decide +kernel, by decide +kernel, issues_entered (by decide +kernel)⟩,
   ⟨SReg, (entered ((.keyset ({ d := 9, a := 5, x := { b := 5, c := 0,  }, lit := none }))) SReg), { d := 9, a := 5, x := { b := 5, c := 0,  }, lit := none }, by decide +kernel, by decide +kernel, issues_entered (by decide +kernel)⟩,
   ⟨Ssys, (entered ((.keyset ({ d := 9, a := 5, x := { b := 5, c := 0,  }, lit := none }))) Ssys), { d := 9, a := 5, x := { b := 5, c := 0,  }, lit := none }, by decide +kernel, issues_entered (by decide +kernel)⟩,
   ⟨SCoreReg, (entered ((.coreseal ({ d := 9, a := 5, x := { b := 5, c := 0,  }, lit := none }))) SCoreReg), { d := 9, a := 5, x := { b := 5, c := 0,  }, lit := none }, _, by decide +kernel, some_spec (d := (0)) (by decide +kernel), by decide +kernel, issues_entered (by decide +kernel)⟩,
   ⟨(SCoreReg.setDie 0 fun d => { d with sealedCores := [0] }), (entered ((.coreseal ({ d := 9, a := 5, x := { b := 5, c := 0,  }, lit := none }))) ((SCoreReg.setDie 0 fun d => { d with sealedCores := [0] }))), { d := 9, a := 5, x := { b := 5, c := 0,  }, lit := none }, _, by decide +kernel, some_spec (d := (0)) (by decide +kernel), by decide +kernel, issues_entered (by decide +kernel)⟩,
   ⟨Ssys, (entered ((.coreseal ({ d := 9, a := 5, x := { b := 5, c := 0,  }, lit := none }))) Ssys), { d := 9, a := 5, x := { b := 5, c := 0,  }, lit := none }, by decide +kernel, issues_entered (by decide +kernel)⟩⟩

/-- Hypotheses of `Obligations.LaunchInstructions`. -/
theorem wit_LaunchInstructions :
    (∃ (s : State) (m : M) (o : XOp) (m1 : M) (m2 : M) (ws : List W64) (r : LRec) (d : CtxDesc) (t : State) (l : BitVec 16), m.restart = false ∧ checkCap o.a (m.src o.a) [0, 1] [.ld] = .ok () ∧ checkBounds (m.src o.a) (m.src o.a).cursor.toNat 256 = .ok () ∧ (m.src o.a).cursor.toNat % 8 = 0 ∧ m.acqPending = false ∧ m.release 4 = .ok m1 ∧ m1.loadWords (m.src o.a) (m.src o.a).cursor.toNat 32 = .ok (m2, ws) ∧ r = (LRec.of (packWords ws)) ∧ d = m2.st.ctxDesc m2.core.ctx ∧ m2.st.launchCode m2.core.die d r = 0 ∧ m2.st.launchRoom m2.core.die r = true ∧ m2.flush.acceptLaunch m2.core.die m2.core.ctx d r = (t, l) ∧ Issues (.launch o) s m) ∧
    (∃ (s : State) (m : M) (o : XOp) (m1 : M) (m2 : M) (ws : List W64) (r : LRec) (d : CtxDesc), m.restart = false ∧ checkCap o.a (m.src o.a) [0, 1] [.ld] = .ok () ∧ checkBounds (m.src o.a) (m.src o.a).cursor.toNat 256 = .ok () ∧ (m.src o.a).cursor.toNat % 8 = 0 ∧ m.acqPending = false ∧ m.release 4 = .ok m1 ∧ m1.loadWords (m.src o.a) (m.src o.a).cursor.toNat 32 = .ok (m2, ws) ∧ r = (LRec.of (packWords ws)) ∧ d = m2.st.ctxDesc m2.core.ctx ∧ m2.st.launchCode m2.core.die d r ≠ 0 ∧ Issues (.launch o) s m) ∧
    (∃ (s : State) (m : M) (o : XOp) (m1 : M) (r : LRec) (d : CtxDesc) (t : State) (l : BitVec 16), m.restart = false ∧ checkCap o.a (m.src o.a) [0] [.ex] = .ok () ∧ checkCap o.x.c (m.src o.x.c) [0] [.st, .fe] = .ok () ∧ checkBounds (m.src o.x.c) (m.src o.x.c).cursor.toNat 8 = .ok () ∧ (m.src o.x.c).cursor.toNat % 8 = 0 ∧ m.acqPending = false ∧ m.release 4 = .ok m1 ∧ (r = { m1.core.lrec with entry := (m.src o.a).cursor, n := (m.int o.x.b).toNat, ngate := 0, cver := false, ctarget := (m.src o.x.c).cursor, cval := 0, args := [m1.int o.x.e, 0, 0, 0, 0, 0], reservedOk := m1.core.lrec.reservedOk && decide (1 ≤ (m.int o.x.b).toNat ∧ (m.int o.x.b).toNat ≤ 2 ^ 24) }) ∧ d = m1.st.ctxDesc m1.core.ctx ∧ m1.st.launchCode m1.core.die d r = 0 ∧ m1.st.launchRoom m1.core.die r = true ∧ m1.flush.acceptLaunch m1.core.die m1.core.ctx d r = (t, l) ∧ Issues (.tspawn o) s m) ∧
    (∃ (s : State) (m : M) (o : XOp) (x : Launch) (m1 : M), m.st.launch? ((m.int o.a).setWidth 16) = some x ∧ x.ctx = m.core.ctx ∧ x.phase = .free ∧ m.acquire 4 = .ok m1 ∧ Issues (.lwait o) s m) ∧
    (∃ (s : State) (m : M) (o : XOp), m.st.launch? ((m.int o.a).setWidth 16) = none ∧ Issues (.lwait o) s m) ∧
    (∃ (s : State) (m : M) (o : XOp) (x : Launch), m.st.launch? ((m.int o.a).setWidth 16) = some x ∧ x.ctx ≠ m.core.ctx ∧ Issues (.lwait o) s m) ∧
    (∃ (s : State) (m : M) (o : XOp) (l : BitVec 16) (x : Launch) (t : State), l = (if ((m.int o.a).setWidth 16) = (0 : BitVec 16) then m.core.launch else ((m.int o.a).setWidth 16)) ∧ m.st.launch? l = some x ∧ (¬(x.ctx ≠ m.core.ctx ∨ x.phase = .free ∨ x.desc.ceil < fieldOf (m.int o.x.b) 5 0)) ∧ (t = m.st.setLaunch l fun x => { x with prio := fieldOf (m.int o.x.b) 5 0 }) ∧ Issues (.prio o) s m) ∧
    (∃ (s : State) (m : M) (o : XOp) (l : BitVec 16), l = (if ((m.int o.a).setWidth 16) = (0 : BitVec 16) then m.core.launch else ((m.int o.a).setWidth 16)) ∧ m.st.launch? l = none ∧ Issues (.prio o) s m) ∧
    (∃ (s : State) (m : M) (o : XOp) (l : BitVec 16) (x : Launch), l = (if ((m.int o.a).setWidth 16) = (0 : BitVec 16) then m.core.launch else ((m.int o.a).setWidth 16)) ∧ m.st.launch? l = some x ∧ (x.ctx ≠ m.core.ctx ∨ x.phase = .free ∨ x.desc.ceil < fieldOf (m.int o.x.b) 5 0) ∧ Issues (.prio o) s m) :=
  ⟨⟨SRec, (entered ((.launch ({ d := 9, a := 2, x := { b := 3, c := 2,  }, lit := none }))) SRec), { d := 9, a := 2, x := { b := 3, c := 2,  }, lit := none }, _, _, _, _, _, _, _, by decide +kernel, ok_unit (by decide +kernel), ok_unit (by decide +kernel), by decide +kernel, by decide +kernel, ok_spec (d := (m0)) (by decide +kernel), ok_spec2 (d := (m0, [])) (by decide +kernel), rfl, rfl, by decide +kernel, by decide +kernel, rfl, issues_entered (by decide +kernel)⟩,
   ⟨S, (entered ((.launch ({ d := 9, a := 2, x := { b := 3, c := 2,  }, lit := none }))) S), { d := 9, a := 2, x := { b := 3, c := 2,  }, lit := none }, _, _, _, _, _, by decide +kernel, ok_unit (by decide +kernel), ok_unit (by decide +kernel), by decide +kernel, by decide +kernel, ok_spec (d := (m0)) (by decide +kernel), ok_spec2 (d := (m0, [])) (by decide +kernel), rfl, rfl, by decide +kernel, issues_entered (by decide +kernel)⟩,
   ⟨SRec, (entered ((.tspawn ({ d := 9, a := 2, x := { b := 3, c := 2,  }, lit := none }))) SRec), { d := 9, a := 2, x := { b := 3, c := 2,  }, lit := none }, _, _, _, _, _, by decide +kernel, ok_unit (by decide +kernel), ok_unit (by decide +kernel), ok_unit (by decide +kernel), by decide +kernel, by decide +kernel, ok_spec (d := (m0)) (by decide +kernel), rfl, rfl, by decide +kernel, by decide +kernel, rfl, issues_entered (by decide +kernel)⟩,
   ⟨(SL.setDie 0 fun d => { d with launches := [{ launch0 with phase := .free }] }), (entered ((.lwait ({ d := 9, a := 5, x := { b := 5, c := 5,  }, lit := none }))) ((SL.setDie 0 fun d => { d with launches := [{ launch0 with phase := .free }] }))), { d := 9, a := 5, x := { b := 5, c := 5,  }, lit := none }, _, _, some_spec (d := (launch0)) (by decide +kernel), by decide +kernel, by decide +kernel, ok_spec (d := (m0)) (by decide +kernel), issues_entered (by decide +kernel)⟩,
   ⟨S, (entered ((.lwait ({ d := 9, a := 5, x := { b := 5, c := 5,  }, lit := none }))) S), { d := 9, a := 5, x := { b := 5, c := 5,  }, lit := none }, by decide +kernel, issues_entered (by decide +kernel)⟩,
   ⟨(SL.setDie 0 fun d => { d with launches := [{ launch0 with ctx := 1 }] }), (entered ((.lwait ({ d := 9, a := 5, x := { b := 5, c := 5,  }, lit := none }))) ((SL.setDie 0 fun d => { d with launches := [{ launch0 with ctx := 1 }] }))), { d := 9, a := 5, x := { b := 5, c := 5,  }, lit := none }, _, some_spec (d := (launch0)) (by decide +kernel), by decide +kernel, issues_entered (by decide +kernel)⟩,
   ⟨SL, (entered ((.prio ({ d := 9, a := 5, x := { b := 5, c := 5,  }, lit := none }))) SL), { d := 9, a := 5, x := { b := 5, c := 5,  }, lit := none }, _, _, _, rfl, some_spec (d := (launch0)) (by decide +kernel), by decide +kernel, rfl, issues_entered (by decide +kernel)⟩,
   ⟨S, (entered ((.prio ({ d := 9, a := 5, x := { b := 5, c := 5,  }, lit := none }))) S), { d := 9, a := 5, x := { b := 5, c := 5,  }, lit := none }, _, rfl, by decide +kernel, issues_entered (by decide +kernel)⟩,
   ⟨SL, (entered ((.prio ({ d := 9, a := 5, x := { b := 3, c := 5,  }, lit := none }))) SL), { d := 9, a := 5, x := { b := 3, c := 5,  }, lit := none }, _, _, rfl, some_spec (d := (launch0)) (by decide +kernel), by decide +kernel, issues_entered (by decide +kernel)⟩⟩

/-- Hypotheses of `Obligations.PairWordResults`. -/
theorem wit_PairWordResults :
    (∃ (s : State) (m : M) (p : PairSlot) (v : Instr) (m1 : M) (m2 : M) (m3 : M), guardOn ({ m with snap := some (m.thr, m.core.w) } : M) p = true ∧ scalarSlotOp p ({ m with snap := some (m.thr, m.core.w) } : M) = .ok m1 ∧ vecSlotOp ({ gk := p.gk, gp := p.gp } : VForm) v ({ m with snap := some (m.thr, m.core.w) } : M) = .ok m2 ∧ vecSlotOp ({ gk := p.gk, gp := p.gp } : VForm) v m1 = .ok m3 ∧ Issues (.pairWord p v) s m) ∧
    (∃ (s : State) (m : M) (p : PairSlot) (v : Instr) (m1 : M), guardOn ({ m with snap := some (m.thr, m.core.w) } : M) p = false ∧ vecSlotOp ({ gk := p.gk, gp := p.gp } : VForm) v ({ m with snap := some (m.thr, m.core.w) } : M) = .ok m1 ∧ Issues (.pairWord p v) s m) ∧
    (∃ (s : State) (m : M) (p : PairSlot) (t : BitVec 3) (d : F6) (a : F6) (b : F6) (r : M), r = ({ m with snap := some (m.thr, m.core.w) } : M) ∧ guardOn r p = true ∧ p.sop.toNat = 0 ∧ Issues (.pairWord p (.vadd t d a b)) s m) ∧
    (∃ (s : State) (m : M) (p : PairSlot) (t : BitVec 3) (d : F6) (a : F6) (b : F6) (r : M), r = ({ m with snap := some (m.thr, m.core.w) } : M) ∧ guardOn r p = true ∧ p.sop.toNat = 1 ∧ Issues (.pairWord p (.vadd t d a b)) s m) ∧
    (∃ (s : State) (m : M) (p : PairSlot) (t : BitVec 3) (d : F6) (a : F6) (b : F6) (r : M), r = ({ m with snap := some (m.thr, m.core.w) } : M) ∧ guardOn r p = true ∧ p.sop.toNat = 2 ∧ Issues (.pairWord p (.vadd t d a b)) s m) ∧
    (∃ (s : State) (m : M) (p : PairSlot) (t : BitVec 3) (d : F6) (a : F6) (b : F6) (r : M), r = ({ m with snap := some (m.thr, m.core.w) } : M) ∧ guardOn r p = true ∧ p.sop.toNat = 3 ∧ Issues (.pairWord p (.vadd t d a b)) s m) ∧
    (∃ (s : State) (m : M) (p : PairSlot) (t : BitVec 3) (d : F6) (a : F6) (b : F6) (r : M), r = ({ m with snap := some (m.thr, m.core.w) } : M) ∧ guardOn r p = true ∧ p.sop.toNat = 4 ∧ Issues (.pairWord p (.vadd t d a b)) s m) :=
  ⟨⟨S, (entered ((.pairWord ({ gp := false, gk := 0, sop := 0, d := 9, a := 3, b := 4 }) (.vadd 3 5 3 4))) S), { gp := false, gk := 0, sop := 0, d := 9, a := 3, b := 4 }, (.vadd 3 5 3 4), _, _, _, by decide +kernel, ok_spec (d := (m0)) (by decide +kernel), ok_spec (d := (m0)) (by decide +kernel), ok_spec (d := (m0)) (by decide +kernel), issues_entered (by decide +kernel)⟩,
   ⟨S, (entered ((.pairWord ({ gp := true, gk := 1, sop := 0, d := 9, a := 3, b := 4 }) (.vadd 3 5 3 4))) S), { gp := true, gk := 1, sop := 0, d := 9, a := 3, b := 4 }, (.vadd 3 5 3 4), _, by decide +kernel, ok_spec (d := (m0)) (by decide +kernel), issues_entered (by decide +kernel)⟩,
   ⟨S, (entered ((.pairWord ({ gp := false, gk := 0, sop := 0, d := 9, a := 3, b := 4 }) (.vadd 3 5 3 4))) S), { gp := false, gk := 0, sop := 0, d := 9, a := 3, b := 4 }, 3, 5, 3, 4, _, rfl, by decide +kernel, by decide +kernel, issues_entered (by decide +kernel)⟩,
   ⟨S, (entered ((.pairWord ({ gp := false, gk := 0, sop := 1, d := 9, a := 3, b := 4 }) (.vadd 3 5 3 4))) S), { gp := false, gk := 0, sop := 1, d := 9, a := 3, b := 4 }, 3, 5, 3, 4, _, rfl, by decide +kernel, by decide +kernel, issues_entered (by decide +kernel)⟩,
   ⟨S, (entered ((.pairWord ({ gp := false, gk := 0, sop := 2, d := 9, a := 3, b := 4 }) (.vadd 3 5 3 4))) S), { gp := false, gk := 0, sop := 2, d := 9, a := 3, b := 4 }, 3, 5, 3, 4, _, rfl, by decide +kernel, by decide +kernel, issues_entered (by decide +kernel)⟩,
   ⟨S, (entered ((.pairWord ({ gp := false, gk := 0, sop := 3, d := 9, a := 3, b := 4 }) (.vadd 3 5 3 4))) S), { gp := false, gk := 0, sop := 3, d := 9, a := 3, b := 4 }, 3, 5, 3, 4, _, rfl, by decide +kernel, by decide +kernel, issues_entered (by decide +kernel)⟩,
   ⟨S, (entered ((.pairWord ({ gp := false, gk := 0, sop := 4, d := 9, a := 3, b := 4 }) (.vadd 3 5 3 4))) S), { gp := false, gk := 0, sop := 4, d := 9, a := 3, b := 4 }, 3, 5, 3, 4, _, rfl, by decide +kernel, by decide +kernel, issues_entered (by decide +kernel)⟩⟩

/-- Hypotheses of `Obligations.PowerEvents`. -/
theorem wit_PowerAndResetEvents :
    (∃ (s : State), s.power = true) ∧
    (∃ (s : State) (t : State), s.power = false ∧ t = ({ s with power := true } : State).restart.mstatPut 3 3 (if s.shut = 0 then 0 else 1)) ∧
    (∃ (s : State) (hold : Bool), s.power = false) ∧
    (∃ (s : State), s.power = true) ∧
    (∃ (s : State), s.power = true) ∧
    (∃ (s : State), s.held = false) ∧
    (∃ (s : State), s.held = true ∧ s.power = true) ∧
    (∃ (s : State), s.held = true ∧ s.power = false) :=
  ⟨⟨{ S with power := true }, by decide +kernel⟩,
   ⟨{ S with power := false }, _, by decide +kernel, rfl⟩,
   ⟨{ S with power := false }, false, by decide +kernel⟩,
   ⟨{ S with power := true }, by decide +kernel⟩,
   ⟨{ S with power := true }, by decide +kernel⟩,
   ⟨{ S with held := false }, by decide +kernel⟩,
   ⟨{ S with held := true, power := true }, by decide +kernel, by decide +kernel⟩,
   ⟨{ S with held := true, power := false }, by decide +kernel, by decide +kernel⟩⟩

/-- Hypotheses of `Obligations.PowerEvents`. -/
theorem wit_PowerAndThermalControl :
    (∃ (s : State) (w : Nat), s.pcount + 1 ≠ 50) ∧
    (∃ (s : State) (w : Nat), s.pcount + 1 = 50) ∧
    (∃ (s : State), s.dies.any (·.dieHot) = true) ∧
    (∃ (s : State), s.dies.any (·.dieHot) = false ∧ s.plim * s.pcount < s.psum) ∧
    (∃ (s : State), s.dies.any (·.dieHot) = false ∧ s.psum + 100 * s.pcount < s.plim * s.pcount) ∧
    (∃ (s : State), s.dies.any (·.dieHot) = false ∧ s.psum ≤ s.plim * s.pcount ∧ s.plim * s.pcount ≤ s.psum + 100 * s.pcount) ∧
    (∃ (s : State) (d : Nat) (temp : Nat), s.power = false) ∧
    (∃ (s : State) (d : Nat) (temp : Nat), s.power = true ∧ 115 ≤ temp) ∧
    (∃ (s : State) (d : Nat) (temp : Nat), s.power = true ∧ 100 ≤ temp ∧ temp < 115) ∧
    (∃ (s : State) (d : Nat) (temp : Nat), s.power = true ∧ temp < 95) ∧
    (∃ (s : State) (d : Nat) (temp : Nat), s.power = true ∧ 95 ≤ temp ∧ temp < 100) ∧
    (∃ (s : State) (k : Nat) (temp : Nat), s.power = true ∧ 105 ≤ temp) ∧
    (∃ (s : State) (k : Nat) (temp : Nat), s.power = true ∧ temp < 105) :=
  ⟨⟨{ S with pcount := 48 }, 0, by decide +kernel⟩,
   ⟨{ S with pcount := 49 }, 0, by decide +kernel⟩,
   ⟨{ S with dies := S.dies.set 0 { S.dies.get 0 with dieHot := true } }, by decide +kernel⟩,
   ⟨{ S with plim := 1500, pcount := 50, psum := 75001 }, by decide +kernel, by decide +kernel⟩,
   ⟨{ S with plim := 1500, pcount := 50, psum := 69999 }, by decide +kernel, by decide +kernel⟩,
   ⟨{ S with plim := 1500, pcount := 50, psum := 70000 }, by decide +kernel, by decide +kernel, by decide +kernel⟩,
   ⟨{ S with power := false }, 0, 120, by decide +kernel⟩,
   ⟨{ S with power := true }, 0, 115, by decide +kernel, by decide +kernel⟩,
   ⟨{ S with power := true }, 0, 100, by decide +kernel, by decide +kernel, by decide +kernel⟩,
   ⟨{ S with power := true }, 0, 94, by decide +kernel, by decide +kernel⟩,
   ⟨{ S with power := true }, 0, 99, by decide +kernel, by decide +kernel, by decide +kernel⟩,
   ⟨{ S with power := true }, 0, 105, by decide +kernel, by decide +kernel⟩,
   ⟨{ S with power := true }, 0, 104, by decide +kernel, by decide +kernel⟩⟩

/-- Hypotheses of `Obligations.BringUpAndHarvyPortEvents`. -/
theorem wit_BringUpEvents :
    (∃ (s : State) (ok : Bool) (d : Nat), s.bringing = false) ∧
    (∃ (s : State) (d : Nat), s.bringing = true) ∧
    (∃ (s : State) (d : Nat), s.bringing = true ∧ s.bringStep = 1) ∧
    (∃ (s : State) (d : Nat), s.bringing = true ∧ s.bringStep = 2) ∧
    (∃ (s : State) (d : Nat), s.bringing = true ∧ s.bringStep = 3) ∧
    (∃ (s : State) (d : Nat) (k : Nat), s.bringing = true ∧ s.bringStep = 4 ∧ ((List.range 8).find? (fun d => decide ((({ s with dies := s.dies.map Die.number } : State).die d).quadMap.length < 248)) = some k)) ∧
    (∃ (s : State) (d : Nat), s.bringing = true ∧ s.bringStep = 4 ∧ ((List.range 8).find? (fun d => decide ((({ s with dies := s.dies.map Die.number } : State).die d).quadMap.length < 248)) = none)) ∧
    (∃ (s : State) (d : Nat), s.bringing = true ∧ s.bringStep = 5 ∧ (bitOn (s.mstat.extractLsb' 24 8) (d % 8) : BitVec 8) = 0xFF) ∧
    (∃ (s : State) (d : Nat), s.bringing = true ∧ s.bringStep = 5 ∧ (bitOn (s.mstat.extractLsb' 24 8) (d % 8) : BitVec 8) ≠ 0xFF) ∧
    (∃ (s : State) (d : Nat), s.bringing = true ∧ s.bringStep = 6) ∧
    (∃ (s : State) (d : Nat), s.bringing = true ∧ s.bringStep = 7) ∧
    (∃ (s : State) (d : Nat) (k : Nat) (f : Bool) (g : Bool), (s.bringing = false ∨ s.bringStep ≠ 3 ∨ 1024 ≤ k ∨ (s.die d).answered.contains k = true)) ∧
    (∃ (s : State) (d : Nat) (k : Nat) (f : Bool) (g : Bool), s.bringing = true ∧ s.bringStep = 3 ∧ k < 1024 ∧ (s.die d).answered.contains k = false) ∧
    (∃ (s : State) (d : Nat), (s.bringing = false ∨ s.bringStep ≠ 3 ∨ 1024 ≤ (s.die d).answered.length)) ∧
    (∃ (s : State) (d : Nat), s.bringing = true ∧ s.bringStep = 3 ∧ (s.die d).answered.length < 1024) :=
  ⟨⟨{ S with power := false }, false, 0, by decide +kernel⟩,
   ⟨{ S with power := true, held := false, mstat := 1048576 }, 0, by decide +kernel⟩,
   ⟨{ S with power := true, held := false, mstat := 1048576 }, 0, by decide +kernel, by decide +kernel⟩,
   ⟨{ S with power := true, held := false, mstat := 2097152 }, 0, by decide +kernel, by decide +kernel⟩,
   ⟨{ S with power := true, held := false, mstat := 3145728 }, 0, by decide +kernel, by decide +kernel⟩,
   ⟨{ S with power := true, held := false, mstat := 4194304, dies := Vector.replicate 8 { fused := List.range 64 } }, 0, _, by decide +kernel, by decide +kernel, some_spec (d := (0)) (by decide +kernel)⟩,
   ⟨{ S with power := true, held := false, mstat := 4194304, dies := Vector.replicate 8 { answered := List.range 1024 } }, 0, by decide +kernel, by decide +kernel, by decide +kernel⟩,
   ⟨{ S with power := true, held := false, mstat := 4266655744 }, 0, by decide +kernel, by decide +kernel, by decide +kernel⟩,
   ⟨{ S with power := true, held := false, mstat := 5242880 }, 0, by decide +kernel, by decide +kernel, by decide +kernel⟩,
   ⟨{ S with power := true, held := false, mstat := 6291456 }, 0, by decide +kernel, by decide +kernel⟩,
   ⟨{ S with power := true, held := false, mstat := 7340032 }, 0, by decide +kernel, by decide +kernel⟩,
   ⟨{ S with power := true, held := false, mstat := 2097152 }, 0, 0, false, false, by decide +kernel⟩,
   ⟨{ S with power := true, held := false, mstat := 3145728 }, 0, 1023, false, false, by decide +kernel, by decide +kernel, by decide +kernel, by decide +kernel⟩,
   ⟨{ S with power := true, held := false, mstat := 3145728, dies := Vector.replicate 8 { answered := List.range 1024 } }, 0, by decide +kernel⟩,
   ⟨{ S with power := true, held := false, mstat := 3145728 }, 0, by decide +kernel, by decide +kernel, by decide +kernel⟩⟩

/-- Hypotheses of `Obligations.BringUpAndHarvyPortEvents`. -/
theorem wit_HarvyPortEvents :
    (∃ (s : State) (w : Nat), (1500 ≤ w ∧ w ≤ 3000 ∧ w % 25 = 0)) ∧
    (∃ (s : State) (w : Nat), (¬(1500 ≤ w ∧ w ≤ 3000 ∧ w % 25 = 0))) ∧
    (∃ (s : State) (n : BitVec 16), (s.held = true ∨ s.bringStep < 6)) ∧
    (∃ (s : State) (n : BitVec 16), s.held = false ∧ 6 ≤ s.bringStep) ∧
    (∃ (s : State) (img : List Byte), s.mbox.image = none) ∧
    (∃ (s : State) (img : List Byte), s.mbox.image.isSome = true) ∧
    (∃ (s : State) (n : BitVec 128), 5 ≤ s.attest.length) ∧
    (∃ (s : State) (n : BitVec 128), s.attest = []) ∧
    (∃ (s : State) (n : BitVec 128), s.attest ≠ [] ∧ s.attest.length < 5) ∧
    (∃ (s : State) (n : BitVec 128) (rest : List (BitVec 128 × Bool)) (r : List Byte) (t : State), s.attest = (n, false) :: rest ∧ (r = Config.report n s.fw s.modid (s.dies.toList.map fun d => d.fused ++ d.failed ++ d.repairs ++ d.quarantine.flatMap fun x => [x.1, x.2.1, x.2.2])) ∧ t = (if rest.isEmpty then ({ s with attest := rest } : State) else ({ s with attest := rest } : State).after (us 50000) .attestationReport)) ∧
    (∃ (s : State) (n : BitVec 128) (rest : List (BitVec 128 × Bool)) (r : List Byte) (t : State), s.attest = (n, true) :: rest ∧ (r = Config.report n s.fw s.modid (s.dies.toList.map fun d => d.fused ++ d.failed ++ d.repairs ++ d.quarantine.flatMap fun x => [x.1, x.2.1, x.2.2])) ∧ t = (if rest.isEmpty then ({ s with attest := rest } : State) else ({ s with attest := rest } : State).after (us 50000) .attestationReport)) ∧
    (∃ (s : State), s.attest = []) :=
  ⟨⟨S, 3000, by decide +kernel⟩,
   ⟨S, 1501, by decide +kernel⟩,
   ⟨{ S with held := true }, 0, by decide +kernel⟩,
   ⟨{ S with power := true, held := false, mstat := 6291456 }, 1, by decide +kernel, by decide +kernel⟩,
   ⟨S, [1], by decide +kernel⟩,
   ⟨{ S with mbox := { S.mbox with image := some [1] } }, [1], by decide +kernel⟩,
   ⟨{ S with attest := List.replicate 5 (0, false) }, 1, by decide +kernel⟩,
   ⟨{ S with attest := [] }, 1, by decide +kernel⟩,
   ⟨{ S with attest := List.replicate 4 (0, false) }, 1, by decide +kernel, by decide +kernel⟩,
   ⟨{ S with attest := [(1, false)] }, 1, [], _, _, by decide +kernel, rfl, rfl⟩,
   ⟨{ S with attest := [(1, true), (2, false)] }, 1, ([(2, false)]), _, _, by decide +kernel, rfl, rfl⟩,
   ⟨{ S with attest := [] }, by decide +kernel⟩⟩

def RegRes.st (r : RegRes) : State × W64 × Bool :=
  match r with
  | .ok s v => (s, v, true)
  | .refused s => (s, 0, false)
theorem reg_ok {r : RegRes} (h : (RegRes.st r).2.2 = true) : r = .ok (RegRes.st r).1 (RegRes.st r).2.1 := by
  cases r with
  | ok => rfl
  | refused => cases h
theorem reg_no {r : RegRes} (h : (RegRes.st r).2.2 = false) : r = .refused (RegRes.st r).1 := by
  cases r with
  | refused => rfl
  | ok => cases h

/-- Hypotheses of `Obligations.PortAndSecondLevelCacheEvents`. -/
theorem wit_PortAccessEvents :
    (∃ (s : State) (pa : Nat) (size : Nat) (v : W64) (x : W64) (m : Master) (t : State), regAccess s pa size (some v) m = .ok t x) ∧
    (∃ (s : State) (pa : Nat) (size : Nat) (v : W64) (m : Master) (t : State), regAccess s pa size (some v) m = .refused t) ∧
    (∃ (s : State) (acc : PortAccess), (paKind s acc.pa).isMem = false) ∧
    (∃ (s : State) (acc : PortAccess) (a : Nat), (paKind s acc.pa).isMem = true ∧ place s acc.pa = .at a) ∧
    (∃ (s : State) (acc : PortAccess) (d : Nat) (src : Nat), (paKind s acc.pa).isMem = true ∧ place s acc.pa = .held d src) ∧
    (∃ (s : State) (acc : PortAccess), (paKind s acc.pa).isMem = false) ∧
    (∃ (s : State) (acc : PortAccess) (a : Nat), (paKind s acc.pa).isMem = true ∧ place s acc.pa = .at a) ∧
    (∃ (s : State) (acc : PortAccess) (d : Nat) (src : Nat), (paKind s acc.pa).isMem = true ∧ place s acc.pa = .held d src) ∧
    (∃ (s : State) (blk : Nat) (t : State), (t = (if (s.timers.any fun x => match x.2 with | .scrubVisit b _ => decide (station s (64 * b) = station s (64 * blk)) | _ => false) then s else s.after (scrubEvery s blk) (.scrubVisit (nextScrub s blk) .clean)))) ∧
    (∃ (s : State) (blk : Nat) (t : State), (t = (if (s.timers.any fun x => match x.2 with | .scrubVisit b _ => decide (station s (64 * b) = station s (64 * blk)) | _ => false) then s else s.after (scrubEvery s blk) (.scrubVisit (nextScrub s blk) .clean)))) ∧
    (∃ (s : State) (blk : Nat) (t : State), (t = (if (s.timers.any fun x => match x.2 with | .scrubVisit b _ => decide (station s (64 * b) = station s (64 * blk)) | _ => false) then s else s.after (scrubEvery s blk) (.scrubVisit (nextScrub s blk) .clean)))) :=
  ⟨⟨S, 0xF00000000000, 8, 0, _, (⟨0, true, 5⟩), _, reg_ok (by decide +kernel)⟩,
   ⟨S, 0xF00000000000, 8, 0, (⟨0, false, 0⟩), _, reg_no (by decide +kernel)⟩,
   ⟨S, (hostAcc 0xE00000000000), by decide +kernel⟩,
   ⟨S, (hostAcc 0x20000), 0x20000, by decide +kernel, by decide +kernel⟩,
   ⟨(SMot (mot .copy 0)), (hostAcc 0x20000), 0, 0x20000, by decide +kernel, by decide +kernel⟩,
   ⟨S, (hostAcc 0xE00000000000), by decide +kernel⟩,
   ⟨S, (hostAcc 0x20000), 0x20000, by decide +kernel, by decide +kernel⟩,
   ⟨(SMot (mot .copy 0)), (hostAcc 0x20000), 0, 0x20000, by decide +kernel, by decide +kernel⟩,
   ⟨S, 0x400, _, rfl⟩,
   ⟨S, 0x400, _, rfl⟩,
   ⟨S, 0, _, rfl⟩⟩

/-- Hypotheses of `Obligations.PortAndSecondLevelCacheEvents`. -/
theorem wit_SecondLevelCacheEvents :
    (∃ (s : State) (d : Nat) (pa : Nat) (k : L2Kind) (c : BitVec 6), homeDie pa = d ∧ (paKind s pa).isMem = true ∧ (s.die d).l2Busy = true) ∧
    (∃ (s : State) (d : Nat) (pa : Nat) (c : BitVec 6), homeDie pa = d ∧ (paKind s pa).isMem = true ∧ (s.die d).l2Busy = false) ∧
    (∃ (s : State) (d : Nat) (pa : Nat) (c : BitVec 6), homeDie pa = d ∧ (paKind s pa).isMem = true ∧ (s.die d).l2Busy = false) ∧
    (∃ (s : State) (d : Nat) (pa : Nat) (c : BitVec 6) (t : State), homeDie pa = d ∧ (paKind s pa).isMem = true ∧ (s.die d).l2Busy = false ∧ (s.recallOwn pa).fill (placeNow s pa) ⟨c, false, 0⟩ = (t, true)) ∧
    (∃ (s : State) (d : Nat) (pa : Nat) (c : BitVec 6) (q : Nat) (t : State), homeDie pa = d ∧ (paKind s pa).isMem = true ∧ (s.die d).l2Busy = false ∧ (s.recallOwn pa).fill (placeNow s pa) ⟨c, false, 0⟩ = (t, true) ∧ inMotion t pa = false) ∧
    (∃ (s : State) (d : Nat) (v : W64) (n : Nat), n = fieldOf v 4 0 ∧ (16 < n ∨ n = (s.die d).pool)) ∧
    (∃ (s : State) (d : Nat) (v : W64) (n : Nat), n = fieldOf v 4 0 ∧ n ≤ 16 ∧ (s.die d).pool < n) ∧
    (∃ (s : State) (d : Nat) (v : W64) (n : Nat) (r : Nat), n = fieldOf v 4 0 ∧ n ≤ 16 ∧ n < (s.die d).pool ∧ (s.die d).poolHolds n = some r) ∧
    (∃ (s : State) (d : Nat) (v : W64) (n : Nat), n = fieldOf v 4 0 ∧ n ≤ 16 ∧ n < (s.die d).pool ∧ (s.die d).poolHolds n = none) ∧
    (∃ (s : State) (d : Nat) (v : W64), fieldOf v 9 8 = fieldOf (s.die d).l2cfg 9 8) ∧
    (∃ (s : State) (d : Nat) (v : W64), fieldOf v 9 8 ≠ fieldOf (s.die d).l2cfg 9 8) :=
  ⟨⟨(S.setDie 0 fun d => { d with l2cfg := BitVec.ofNat 64 (2 ^ 63) }), 0, 0x20000, .read, 0, by decide +kernel, by decide +kernel, by decide +kernel⟩,
   ⟨S, 0, 0x10000, 0, by decide +kernel, by decide +kernel, by decide +kernel⟩,
   ⟨S, 0, 0x10000, 0, by decide +kernel, by decide +kernel, by decide +kernel⟩,
   ⟨S, 0, 0x10000, 0, _, by decide +kernel, by decide +kernel, by decide +kernel, tup2r (by decide +kernel)⟩,
   ⟨S, 0, 0x10000, 0, 0, _, by decide +kernel, by decide +kernel, by decide +kernel, tup2r (by decide +kernel), by decide +kernel⟩,
   ⟨S, 0, 17, _, rfl, by decide +kernel⟩,
   ⟨(SPool 0), 0, 16, _, rfl, by decide +kernel, by decide +kernel⟩,
   ⟨((SPool 1).setDie 0 fun d => { d with names := [{ name1 with vers := [{ ver := 1, st := .live, step := some 0 }] }] }), 0, 0, _, _, rfl, by decide +kernel, by decide +kernel, some_spec (d := (0)) (by decide +kernel)⟩,
   ⟨(SPool 16), 0, 0, _, rfl, by decide +kernel, by decide +kernel, by decide +kernel⟩,
   ⟨(SPool 0), 0, 0, by decide +kernel⟩,
   ⟨(SPool 0), 0, 256, by decide +kernel⟩⟩

/-- Hypotheses of `Obligations.LossAndRetirementEvents`. -/
theorem wit_LossAndRetirementEvents :
    (∃ (s : State) (lv : LossLevel) (q : Nat) (pa : Nat), s.lossCopy lv q pa = none) ∧
    (∃ (s : State) (lv : LossLevel) (q : Nat) (pa : Nat) (x : LossCopy), s.lossCopy lv q pa = some x ∧ x.dirty = false) ∧
    (∃ (s : State) (lv : LossLevel) (q : Nat) (pa : Nat) (x : LossCopy) (k : BitVec 6) (u : State) (r : Bool), s.lossCopy lv q pa = some x ∧ x.dirty = true ∧ x.owner = some k ∧ ((((s.loseCopy lv q pa true).quarantine (lossDie lv q pa) (lossCode lv, x.unit, x.place)).terminateCtx (lossDie lv q pa) k).clearCtx k).retirePage pa = (u, r)) ∧
    (∃ (s : State) (lv : LossLevel) (q : Nat) (pa : Nat) (x : LossCopy), s.lossCopy lv q pa = some x ∧ x.dirty = true ∧ x.owner = none) ∧
    (∃ (s : State) (pa : Nat) (d : Nat) (m : Motion), s.motionWith pa = some (d, m) ∧ (m.phase = .prep ∨ m.phase = .copy) ∧ m.src / 2 ^ 16 = pa / 2 ^ 16) ∧
    (∃ (s : State) (pa : Nat) (d : Nat) (m : Motion), s.motionWith pa = some (d, m) ∧ (m.phase = .prep ∨ m.phase = .copy) ∧ ¬ m.src / 2 ^ 16 = pa / 2 ^ 16) ∧
    (∃ (s : State) (pa : Nat) (d : Nat) (m : Motion), s.motionWith pa = some (d, m) ∧ (¬(m.phase = .prep ∨ m.phase = .copy))) ∧
    (∃ (s : State) (pa : Nat), s.motionWith pa = none ∧ ((tierOf pa = 2 ∨ !movable s pa ∨ leafType (s.leafWord (frameWord s pa / 16 % 2 ^ 48 * 16)) ≠ 2 ∨ (s.die (homeDie pa)).retired.contains (pa / 2 ^ 16)))) ∧
    (∃ (s : State) (pa : Nat) (t : State), s.motionWith pa = none ∧ (¬(tierOf pa = 2 ∨ !movable s pa ∨ leafType (s.leafWord (frameWord s pa / 16 % 2 ^ 48 * 16)) ≠ 2 ∨ (s.die (homeDie pa)).retired.contains (pa / 2 ^ 16))) ∧ (((s.die (homeDie pa)).free (tierOf pa)).head?.bind (fun f => s.openMotion (frameWord s pa / 16 % 2 ^ 48 * 16) f true) = some t)) ∧
    (∃ (s : State) (pa : Nat), s.motionWith pa = none ∧ (¬(tierOf pa = 2 ∨ !movable s pa ∨ leafType (s.leafWord (frameWord s pa / 16 % 2 ^ 48 * 16)) ≠ 2 ∨ (s.die (homeDie pa)).retired.contains (pa / 2 ^ 16))) ∧ (((s.die (homeDie pa)).free (tierOf pa)).head?.bind (fun f => s.openMotion (frameWord s pa / 16 % 2 ^ 48 * 16) f true) = none)) :=
  ⟨⟨S, .l2, 0, 0x20000, by decide +kernel⟩,
   ⟨(S.setDie 0 fun d => { d with l2 := [{ pa := 0x20000 }] }), .l2, 0, 0x20000, _, some_spec (d := (⟨false, none, 0, 0⟩)) (by decide +kernel), by decide +kernel⟩,
   ⟨(S.setDie 0 fun d => { d with l2 := [{ pa := 0x20000, dirty := true }] }), .l2, 0, 0x20000, _, _, _, _, some_spec (d := (⟨false, none, 0, 0⟩)) (by decide +kernel), by decide +kernel, some_spec (d := (0)) (by decide +kernel), rfl⟩,
   ⟨(S.setDie 0 fun d => { d with slice := [{ pa := 0x20000, dirty := true }] }), .slice, 0, 0x20000, _, some_spec (d := (⟨false, none, 0, 0⟩)) (by decide +kernel), by decide +kernel, by decide +kernel⟩,
   ⟨(SMot (mot .prep 0)), 0x20000, _, _, some_spec2 (d := (0, { src := 0, dst := 0, leaf := 0 })) (by decide +kernel), by decide +kernel, by decide +kernel⟩,
   ⟨(SMot (mot .prep 0)), 0x30000, _, _, some_spec2 (d := (0, { src := 0, dst := 0, leaf := 0 })) (by decide +kernel), by decide +kernel, by decide +kernel⟩,
   ⟨(SMot (mot .commit 0)), 0x20000, _, _, some_spec2 (d := (0, { src := 0, dst := 0, leaf := 0 })) (by decide +kernel), by decide +kernel⟩,
   ⟨S, 0x20000, by decide +kernel, by decide +kernel⟩,
   ⟨(SFrame [0x30000]), 0x10000, _, by decide +kernel, by decide +kernel, some_spec (d := (S)) (by decide +kernel)⟩,
   ⟨(SFrame []), 0x10000, by decide +kernel, by decide +kernel, by decide +kernel⟩⟩

/-- Hypotheses of `Obligations.MotionEvents`. -/
theorem wit_MotionEvents :
    (∃ (s : State) (d : Nat) (src : Nat), s.motion? d src = none) ∧
    (∃ (s : State) (d : Nat) (src : Nat), s.motion? d src = none) ∧
    (∃ (s : State) (d : Nat) (src : Nat), s.motion? d src = none) ∧
    (∃ (s : State) (d : Nat) (src : Nat), s.motion? d src = none) ∧
    (∃ (s : State) (d : Nat) (src : Nat) (m : Motion), s.motion? d src = some m ∧ m.phase = .prep) ∧
    (∃ (s : State) (d : Nat) (src : Nat) (m : Motion), s.motion? d src = some m ∧ m.phase ≠ .prep) ∧
    (∃ (s : State) (d : Nat) (src : Nat) (m : Motion) (a : Nat) (n : Nat), s.motion? d src = some m ∧ m.phase = .copy ∧ m.w < 32 ∧ s.copyRefused src m.dst m.w = some (a, n)) ∧
    (∃ (s : State) (d : Nat) (src : Nat) (m : Motion) (bl : List Nat), s.motion? d src = some m ∧ m.phase = .copy ∧ m.w < 32 ∧ s.copyRefused src m.dst m.w = none ∧ s.granuleBad src m.w = true ∧ bl = s.badBlocks src m.w) ∧
    (∃ (s : State) (d : Nat) (src : Nat) (m : Motion), s.motion? d src = some m ∧ m.phase = .copy ∧ m.w < 32 ∧ s.copyRefused src m.dst m.w = none ∧ s.granuleBad src m.w = false ∧ tierOf m.dst = 2 ∧ s.granuleMeta src m.w = true) ∧
    (∃ (s : State) (d : Nat) (src : Nat) (m : Motion) (t : State), s.motion? d src = some m ∧ m.phase = .copy ∧ m.w < 32 ∧ s.copyRefused src m.dst m.w = none ∧ s.granuleBad src m.w = false ∧ (¬(tierOf m.dst = 2 ∧ s.granuleMeta src m.w = true)) ∧ (t = (((s.copyGranule (keyIndex (s.companion m.leaf)) src m.dst m.w).setMotion d src fun m => { m with w := m.w + 1, passed := [] }).forwardHeld d src)) ∧ m.w + 1 = 32) ∧
    (∃ (s : State) (d : Nat) (src : Nat) (m : Motion) (t : State), s.motion? d src = some m ∧ m.phase = .copy ∧ m.w < 32 ∧ s.copyRefused src m.dst m.w = none ∧ s.granuleBad src m.w = false ∧ (¬(tierOf m.dst = 2 ∧ s.granuleMeta src m.w = true)) ∧ (t = (((s.copyGranule (keyIndex (s.companion m.leaf)) src m.dst m.w).setMotion d src fun m => { m with w := m.w + 1, passed := [] }).forwardHeld d src)) ∧ ¬ m.w + 1 = 32) ∧
    (∃ (s : State) (d : Nat) (src : Nat) (m : Motion) (t : State), s.motion? d src = some m ∧ m.phase = .copy ∧ (t = ({ s with timers := s.timers.filter fun t => t.2 != .granuleCopyAck d src } : State).setMotion d src fun m => { m with held := [], passed := m.heldThr, heldThr := [] })) ∧
    (∃ (s : State) (d : Nat) (src : Nat) (m : Motion), s.motion? d src = some m ∧ ¬ m.phase = .copy) ∧
    (∃ (s : State) (d : Nat) (src : Nat) (acc : PortAccess), ((((s.die d).motions.any fun m => decide (m.src = src ∧ acc.pa / 2 ^ 16 = src / 2 ^ 16)) = true))) ∧
    (∃ (s : State) (d : Nat) (src : Nat) (acc : PortAccess), ((((s.die d).motions.any fun m => decide (m.src = src ∧ acc.pa / 2 ^ 16 = src / 2 ^ 16)) = false))) ∧
    (∃ (s : State) (q : Nat) (c : BitVec 6) (va : Nat) (n : Nat) (d : Nat) (src : Nat), (((s.quad q).l1.any fun l => (l.ctx == c && inPages (some (va % 2 ^ 56 / 2 ^ 16, n)) (l.va / 2 ^ 10) 1) && l.dirty != 0 && l2Waits s l.pa) = false)) ∧
    (∃ (s : State) (q : Nat) (c : BitVec 6) (va : Nat) (n : Nat) (d : Nat) (src : Nat), (((s.quad q).l1.any fun l => (l.ctx == c && inPages (some (va % 2 ^ 56 / 2 ^ 16, n)) (l.va / 2 ^ 10) 1) && l.dirty != 0 && l2Waits s l.pa) = true)) ∧
    (∃ (s : State) (d : Nat) (src : Nat) (m : Motion), s.motion? d src = some m) ∧
    (∃ (s : State) (b : Nat) (n : Nat) (t : State), ((t = ((List.range 8).flatMap fun d => ((s.die d).motions.filter fun m => decide (b ≤ m.dst ∧ m.dst < b + n)).map fun m => (d, m.src)).foldl (fun s (d, src) => s.motionAbort d src 2) s))) ∧
    (∃ (s : State) (b : Nat) (n : Nat), fieldOf s.mstat 23 20 < 6) ∧
    (∃ (s : State) (b : Nat) (n : Nat) (t : State), ¬ fieldOf s.mstat 23 20 < 6 ∧ t = { s with cxlRanges := (true, b, n) :: s.cxlRanges }) ∧
    (∃ (s : State) (d : Nat), ((s.die d).dctl.getLsbD 0 = false ∨ (s.die d).dctl.getLsbD 1 = false ∨ (s.die d).dftb.getLsbD 0 = false)) ∧
    (∃ (s : State) (d : Nat) (t : State) (cs : List (Nat × Cand)), (s.die d).dctl.getLsbD 0 = true ∧ (s.die d).dctl.getLsbD 1 = true ∧ (s.die d).dftb.getLsbD 0 = true ∧ ((s.after (us 10000) (.driftHalvingVisit d)).tableFrames d).foldl (State.visitFrame d) (s.after (us 10000) (.driftHalvingVisit d), []) = (t, cs)) :=
  ⟨⟨S, 0, 0x20000, by decide +kernel⟩,
   ⟨S, 0, 0x20000, by decide +kernel⟩,
   ⟨S, 0, 0x20000, by decide +kernel⟩,
   ⟨S, 0, 0x20000, by decide +kernel⟩,
   ⟨(SMotA (mot .prep 0)), 0, 0x20000, _, some_spec (d := ({ src := 0, dst := 0, leaf := 0 })) (by decide +kernel), by decide +kernel⟩,
   ⟨(SMotA (mot .copy 0)), 0, 0x20000, _, some_spec (d := ({ src := 0, dst := 0, leaf := 0 })) (by decide +kernel), by decide +kernel⟩,
   ⟨(SMot (mot .copy 0)), 0, 0x20000, _, _, _, some_spec (d := ({ src := 0, dst := 0, leaf := 0 })) (by decide +kernel), by decide +kernel, by decide +kernel, some_spec2 (d := (0, 0)) (by decide +kernel)⟩,
   ⟨{ SMotA (mot .copy 0) with ueMem := [0x800] }, 0, 0x20000, _, _, some_spec (d := ({ src := 0, dst := 0, leaf := 0 })) (by decide +kernel), by decide +kernel, by decide +kernel, by decide +kernel, by decide +kernel, rfl⟩,
   ⟨{ (SMotA (mot .copy 0 0x4010 0xD0000000000)).setDie 4 (fun d => { d with access := firmwareEntries 4 }) with mem := { S.mem with tags := [0x2000] } }, 0, 0x20000, _, some_spec (d := ({ src := 0, dst := 0, leaf := 0 })) (by decide +kernel), by decide +kernel, by decide +kernel, by decide +kernel, by decide +kernel, by decide +kernel, by decide +kernel⟩,
   ⟨(SMotA (mot .copy 31)), 0, 0x20000, _, _, some_spec (d := ({ src := 0, dst := 0, leaf := 0 })) (by decide +kernel), by decide +kernel, by decide +kernel, by decide +kernel, by decide +kernel, by decide +kernel, rfl, by decide +kernel⟩,
   ⟨(SMotA (mot .copy 30)), 0, 0x20000, _, _, some_spec (d := ({ src := 0, dst := 0, leaf := 0 })) (by decide +kernel), by decide +kernel, by decide +kernel, by decide +kernel, by decide +kernel, by decide +kernel, rfl, by decide +kernel⟩,
   ⟨(SMotA (mot .copy 0)), 0, 0x20000, _, _, some_spec (d := ({ src := 0, dst := 0, leaf := 0 })) (by decide +kernel), by decide +kernel, rfl⟩,
   ⟨(SMotA (mot .prep 0)), 0, 0x20000, _, some_spec (d := ({ src := 0, dst := 0, leaf := 0 })) (by decide +kernel), by decide +kernel⟩,
   ⟨(SMotA (mot .copy 0)), 0, 0x20000, (hostAcc 0x2FFF8), by decide +kernel⟩,
   ⟨S, 0, 0x20000, (hostAcc 0x2FFF8), by decide +kernel⟩,
   ⟨S, 0, 0, 0, 0, 0, 0, by decide +kernel⟩,
   ⟨{ S.setDie 0 (fun d => { d with l2cfg := BitVec.ofNat 64 (2 ^ 63) }) with quads := [{ id := 0, l1 := [{ ctx := 0, va := 0, pa := 0x10000, data := 0, dirty := 1 }] }] }, 0, 0, 0, 1, 0, 0, by decide +kernel⟩,
   ⟨(SMotA (mot .prep 0)), 0, 0x20000, _, some_spec (d := ({ src := 0, dst := 0, leaf := 0 })) (by decide +kernel)⟩,
   ⟨(SMotA (mot .prep 0)), 0x30000, 0x10000, _, rfl⟩,
   ⟨S, 0xD0000000000, 0x10000, by decide +kernel⟩,
   ⟨{ S with mstat := 7340032 }, 0xD0000000000, 0x10000, _, by decide +kernel, rfl⟩,
   ⟨S, 0, by decide +kernel⟩,
   ⟨(SFrame []), 0, _, _, by decide +kernel, by decide +kernel, by decide +kernel, rfl⟩⟩

/-- A port is up; context 0 has its area at address 0 on port 0; the tables allow the host. -/
def SHost : State :=
  { S with power := true, ports := S.ports.set 0 { (S.ports.get 0) with up := true }, hctx := S.hctx.set 0 1 }.setDie 0 fun d =>
    { d with access := insEntry 1100 0 placedEntry d.access }
def SMail (b : Mailbox) : State := { SHost with mbox := b }
def SShut : State := SHost.setDie 0 fun d => { d with access := [] }
def PortRes.kind (r : PortRes) : Nat :=
  match r with
  | .done .. => 0
  | .refused _ => 1
  | .poison _ => 2
  | .parked _ => 3
def PortRes.st (r : PortRes) : State × Nat × Bool :=
  match r with
  | .done s v w => (s, v, w)
  | .refused s | .poison s | .parked s => (s, 0, false)
theorem done_spec {r : PortRes} (h : PortRes.kind r = 0) : r = .done (PortRes.st r).1 (PortRes.st r).2.1 (PortRes.st r).2.2 := by
  cases r <;> first | rfl | cases h
theorem refused_spec {r : PortRes} (h : PortRes.kind r = 1) : r = .refused (PortRes.st r).1 := by
  cases r <;> first | rfl | cases h
theorem poison_spec {r : PortRes} (h : PortRes.kind r = 2) : r = .poison (PortRes.st r).1 := by
  cases r <;> first | rfl | cases h

/-- Hypotheses of `Obligations.HostMemoryAndPortEvents`. -/
theorem wit_HostMemoryViews_1 :
    (∃ (s : State) (p : Nat) (off : Nat) (n : Nat), s.linked p = false) ∧
    (∃ (s : State) (p : Nat) (off : Nat) (n : Nat), s.linked p = true ∧ s.bar2 0 p off n = none) ∧
    (∃ (s : State) (p : Nat) (off : Nat) (n : Nat) (x : W64), s.linked p = false) ∧
    (∃ (s : State) (p : Nat) (off : Nat) (n : Nat) (x : W64), s.linked p = true ∧ s.bar2 0 p off n = none) ∧
    (∃ (s : State) (p : Nat) (off : Nat) (n : Nat), s.linked p = false) ∧
    (∃ (s : State) (p : Nat) (off : Nat) (n : Nat), s.linked p = true ∧ s.bar2 1 p off n = none) ∧
    (∃ (s : State) (p : Nat) (off : Nat) (n : Nat) (x : W64), s.linked p = false) ∧
    (∃ (s : State) (p : Nat) (off : Nat) (n : Nat) (x : W64), s.linked p = true ∧ s.bar2 1 p off n = none) ∧
    (∃ (s : State) (p : Nat) (off : Nat) (n : Nat), s.linked p = false) ∧
    (∃ (s : State) (p : Nat) (off : Nat) (n : Nat), s.linked p = true ∧ s.bar2 2 p off n = none) ∧
    (∃ (s : State) (p : Nat) (off : Nat) (n : Nat) (x : W64), s.linked p = false) ∧
    (∃ (s : State) (p : Nat) (off : Nat) (n : Nat) (x : W64), s.linked p = true ∧ s.bar2 2 p off n = none) ∧
    (∃ (s : State) (p : Nat) (off : Nat) (n : Nat) (c : BitVec 6) (pa : Nat) (o : Nat), s.linked p = true ∧ s.bar2 0 p off n = some (c, pa, o) ∧ l2Waits s (placeNow s pa) = true) ∧
    (∃ (s : State) (p : Nat) (off : Nat) (n : Nat) (c : BitVec 6) (pa : Nat) (o : Nat) (x : W64), s.linked p = true ∧ s.bar2 0 p off n = some (c, pa, o) ∧ l2Waits s (placeNow s pa) = true) ∧
    (∃ (s : State) (p : Nat) (off : Nat) (n : Nat) (c : BitVec 6) (pa : Nat) (o : Nat), s.linked p = true ∧ s.bar2 1 p off n = some (c, pa, o) ∧ l2Waits s (placeNow s pa) = true) ∧
    (∃ (s : State) (p : Nat) (off : Nat) (n : Nat) (c : BitVec 6) (pa : Nat) (o : Nat) (x : W64), s.linked p = true ∧ s.bar2 2 p off n = some (c, pa, o) ∧ l2Waits s (placeNow s pa) = true) ∧
    (∃ (s : State) (p : Nat) (off : Nat) (n : Nat) (c : BitVec 6) (pa : Nat) (o : Nat) (t : State) (v : Nat) (w : Bool), s.linked p = true ∧ s.bar2 0 p off n = some (c, pa, o) ∧ l2Waits s (placeNow s pa) = false ∧ s.hostAccess c pa n .read 0 = .done t v w) ∧
    (∃ (s : State) (p : Nat) (off : Nat) (n : Nat) (c : BitVec 6) (pa : Nat) (o : Nat) (t : State), s.linked p = true ∧ s.bar2 0 p off n = some (c, pa, o) ∧ l2Waits s (placeNow s pa) = false ∧ s.hostAccess c pa n .read 0 = .refused t) ∧
    (∃ (s : State) (p : Nat) (off : Nat) (n : Nat) (c : BitVec 6) (pa : Nat) (o : Nat) (t : State), s.linked p = true ∧ s.bar2 0 p off n = some (c, pa, o) ∧ l2Waits s (placeNow s pa) = false ∧ s.hostAccess c pa n .read 0 = .poison t ∧ s.ueMem.contains (placeNow s pa / 64) = true) ∧
    (∃ (s : State) (p : Nat) (off : Nat) (n : Nat) (c : BitVec 6) (pa : Nat) (o : Nat) (x : W64), s.linked p = true ∧ s.bar2 0 p off n = some (c, pa, o) ∧ l2Waits s (placeNow s pa) = false) ∧
    (∃ (s : State) (p : Nat) (off : Nat) (n : Nat) (c : BitVec 6) (pa : Nat) (o : Nat) (t : State) (v : Nat) (w : Bool), s.linked p = true ∧ s.bar2 1 p off n = some (c, pa, o) ∧ l2Waits s (placeNow s pa) = false ∧ s.hostAccess c (pa / 8 * 8) 8 (.ldfe 3) 0 = .done t v w) ∧
    (∃ (s : State) (p : Nat) (off : Nat) (n : Nat) (c : BitVec 6) (pa : Nat) (o : Nat) (x : W64), s.linked p = true ∧ s.bar2 1 p off n = some (c, pa, o) ∧ n ≠ 8) ∧
    (∃ (s : State) (p : Nat) (off : Nat) (c : BitVec 6) (pa : Nat) (o : Nat) (x : W64), s.linked p = true ∧ s.bar2 1 p off 8 = some (c, pa, o) ∧ s.admits (placeNow s pa) ⟨c, false, 4⟩ 4 = false) ∧
    (∃ (s : State) (p : Nat) (off : Nat) (c : BitVec 6) (pa : Nat) (o : Nat) (x : W64), s.linked p = true ∧ s.bar2 1 p off 8 = some (c, pa, o) ∧ s.admits (placeNow s pa) ⟨c, false, 4⟩ 4 = true ∧ (o < 0x100000 ∧ o % 256 = 0) ∧ s.fullAt (placeNow s pa) = true) :=
  ⟨⟨S, 0, 0, 0, by decide +kernel⟩,
   ⟨SHost, 0, 0, 3, by decide +kernel, by decide +kernel⟩,
   ⟨S, 0, 0, 0, 0, by decide +kernel⟩,
   ⟨SHost, 0, 0, 3, 0, by decide +kernel, by decide +kernel⟩,
   ⟨S, 0, 0, 0, by decide +kernel⟩,
   ⟨SHost, 0, 0, 3, by decide +kernel, by decide +kernel⟩,
   ⟨S, 0, 0, 0, 0, by decide +kernel⟩,
   ⟨SHost, 0, 0, 3, 0, by decide +kernel, by decide +kernel⟩,
   ⟨S, 0, 0, 0, by decide +kernel⟩,
   ⟨SHost, 0, 0, 3, by decide +kernel, by decide +kernel⟩,
   ⟨S, 0, 0, 0, 0, by decide +kernel⟩,
   ⟨SHost, 0, 0, 3, 0, by decide +kernel, by decide +kernel⟩,
   ⟨(SHost.setDie 0 fun d => { d with l2cfg := BitVec.ofNat 64 (2 ^ 63) }), 0, 0x10000, 8, 0, 0x10000, 0x10000, by decide +kernel, by decide +kernel, by decide +kernel⟩,
   ⟨(SHost.setDie 0 fun d => { d with l2cfg := BitVec.ofNat 64 (2 ^ 63) }), 0, 0x10000, 8, 0, 0x10000, 0x10000, 0, by decide +kernel, by decide +kernel, by decide +kernel⟩,
   ⟨(SHost.setDie 0 fun d => { d with l2cfg := BitVec.ofNat 64 (2 ^ 63) }), 0, 0x8010000, 8, 0, 0x10000, 0x10000, by decide +kernel, by decide +kernel, by decide +kernel⟩,
   ⟨(SHost.setDie 0 fun d => { d with l2cfg := BitVec.ofNat 64 (2 ^ 63) }), 0, 0x10010000, 8, 0, 0x10000, 0x10000, 0, by decide +kernel, by decide +kernel, by decide +kernel⟩,
   ⟨SHost, 0, 0x10000, 8, 0, 0x10000, 0x10000, _, _, _, by decide +kernel, by decide +kernel, by decide +kernel, done_spec (by decide +kernel)⟩,
   ⟨SShut, 0, 0x10000, 8, 0, 0x10000, 0x10000, _, by decide +kernel, by decide +kernel, by decide +kernel, refused_spec (by decide +kernel)⟩,
   ⟨{ SHost with ueMem := [0x400] }, 0, 0x10000, 8, 0, 0x10000, 0x10000, _, by decide +kernel, by decide +kernel, by decide +kernel, poison_spec (by decide +kernel), by decide +kernel⟩,
   ⟨SHost, 0, 0x10000, 8, 0, 0x10000, 0x10000, 0, by decide +kernel, by decide +kernel, by decide +kernel⟩,
   ⟨SHost, 0, 0x8010000, 8, 0, 0x10000, 0x10000, _, _, _, by decide +kernel, by decide +kernel, by decide +kernel, done_spec (by decide +kernel)⟩,
   ⟨SHost, 0, 0x8010000, 4, 0, 0x10000, 0x10000, 0, by decide +kernel, by decide +kernel, by decide +kernel⟩,
   ⟨SShut, 0, 0x8010000, 0, 0x10000, 0x10000, 0, by decide +kernel, by decide +kernel, by decide +kernel⟩,
   ⟨SHost, 0, 0x8010000, 0, 0x10000, 0x10000, 0, by decide +kernel, by decide +kernel, by decide +kernel, by decide +kernel, by decide +kernel⟩⟩

/-- Hypotheses of `Obligations.HostMemoryAndPortEvents`. -/
theorem wit_HostMemoryViews_2 :
    (∃ (s : State) (p : Nat) (off : Nat) (c : BitVec 6) (pa : Nat) (o : Nat) (x : W64), s.linked p = true ∧ s.bar2 1 p off 8 = some (c, pa, o) ∧ s.admits (placeNow s pa) ⟨c, false, 4⟩ 4 = true ∧ l2Waits s (placeNow s pa) = false ∧ ((o < 0x100000 → o % 256 ≠ 0))) ∧
    (∃ (s : State) (p : Nat) (off : Nat) (c : BitVec 6) (pa : Nat) (o : Nat) (x : W64), s.linked p = true ∧ s.bar2 1 p off 8 = some (c, pa, o) ∧ s.admits (placeNow s pa) ⟨c, false, 4⟩ 4 = true ∧ l2Waits s (placeNow s pa) = false ∧ (o < 0x100000 ∧ o % 256 = 0) ∧ s.fullAt (placeNow s pa) = false) ∧
    (∃ (s : State) (p : Nat) (off : Nat) (n : Nat) (c : BitVec 6) (pa : Nat) (o : Nat), s.linked p = true ∧ s.bar2 2 p off n = some (c, pa, o) ∧ s.admits (placeNow s pa) ⟨c, false, 4⟩ 1 = true) ∧
    (∃ (s : State) (p : Nat) (off : Nat) (n : Nat) (c : BitVec 6) (pa : Nat) (o : Nat), s.linked p = true ∧ s.bar2 2 p off n = some (c, pa, o) ∧ s.admits (placeNow s pa) ⟨c, false, 4⟩ 1 = false) ∧
    (∃ (s : State) (p : Nat) (off : Nat) (n : Nat) (c : BitVec 6) (pa : Nat) (o : Nat) (x : W64), s.linked p = true ∧ s.bar2 2 p off n = some (c, pa, o) ∧ l2Waits s (placeNow s pa) = false) :=
  ⟨⟨SHost, 0, 0x8010008, 0, 0x10008, 0x10008, 0, by decide +kernel, by decide +kernel, by decide +kernel, by decide +kernel, by decide +kernel⟩,
   ⟨{ SHost with mem := { SHost.mem with empty := [0x2000] } }, 0, 0x8010000, 0, 0x10000, 0x10000, 0, by decide +kernel, by decide +kernel, by decide +kernel, by decide +kernel, by decide +kernel, by decide +kernel⟩,
   ⟨SHost, 0, 0x10010000, 8, 0, 0x10000, 0x10000, by decide +kernel, by decide +kernel, by decide +kernel⟩,
   ⟨SShut, 0, 0x10010000, 8, 0, 0x10000, 0x10000, by decide +kernel, by decide +kernel, by decide +kernel⟩,
   ⟨SHost, 0, 0x10010000, 8, 0, 0x10000, 0x10000, 0, by decide +kernel, by decide +kernel, by decide +kernel⟩⟩

/-- Hypotheses of `Obligations.HostMemoryAndPortEvents`. -/
theorem wit_HostPortEvents :
    (∃ (s : State) (p : Nat) (off : Nat) (n : Nat) (v : Option W64), s.linked p = true ∧ (off < 0x4000000 ∨ 0x8000000 ≤ off ∨ regSize off n = false)) ∧
    (∃ (s : State) (p : Nat) (off : Nat) (n : Nat) (v : Option W64), s.linked p = true ∧ 0x4000000 ≤ off ∧ off < 0x8000000 ∧ regSize off n = true) ∧
    (∃ (s : State) (p : Nat) (off : Nat) (n : Nat) (v : Option W64), s.linked p = true ∧ bar0Listed off = true) ∧
    (∃ (s : State) (p : Nat) (off : Nat) (n : Nat), s.linked p = true ∧ bar0Listed off = false) ∧
    (∃ (s : State) (p : Nat) (off : Nat) (n : Nat) (x : W64), s.linked p = true ∧ bar0Listed off = false) ∧
    (∃ (s : State) (d : Nat), (d = 0 ∨ d = 4)) ∧
    (∃ (s : State) (d : Nat), (¬(d = 0 ∨ d = 4))) ∧
    (∃ (s : State) (d : Nat) (st : Nat) (k : Nat) (e : AccessEntry) (m : Master), m.cls ≠ 5) ∧
    (∃ (s : State) (d : Nat) (st : Nat) (k : Nat) (e : AccessEntry) (m : Master), m.cls = 5 ∧ 1024 ≤ st ∧ st ≤ 1100 ∧ k < 32) :=
  ⟨⟨SHost, 0, 0x4000002, 4, none, by decide +kernel, by decide +kernel⟩,
   ⟨SHost, 0, 0x7FFFFF8, 8, none, by decide +kernel, by decide +kernel, by decide +kernel, by decide +kernel⟩,
   ⟨SHost, 0, 0x301000F, 1, none, by decide +kernel, by decide +kernel⟩,
   ⟨SHost, 0, 0x3010010, 1, by decide +kernel, by decide +kernel⟩,
   ⟨SHost, 0, 0x3010010, 1, 0, by decide +kernel, by decide +kernel⟩,
   ⟨SHost, 4, by decide +kernel⟩,
   ⟨SHost, 1, by decide +kernel⟩,
   ⟨SHost, 0, 0, 0, placedEntry, (⟨0, true, 4⟩), by decide +kernel⟩,
   ⟨SHost, 0, 1100, 31, placedEntry, (⟨0, true, 5⟩), by decide +kernel, by decide +kernel, by decide +kernel, by decide +kernel⟩⟩

/-- Hypotheses of `Obligations.MailboxEvents`. -/
theorem wit_MailboxEvents :
    (∃ (s : State) (p : Nat) (c : W64), s.linked p = true ∧ s.mailboxOk 0x3010000 2 = false) ∧
    (∃ (s : State) (p : Nat) (c : W64), s.linked p = true ∧ s.mailboxOk 0x3010000 2 = true ∧ s.mbox.busy = true) ∧
    (∃ (s : State) (p : Nat) (c : W64), s.linked p = true ∧ s.mailboxOk 0x3010000 2 = false) ∧
    (∃ (s : State) (p : Nat) (c : W64), s.linked p = true ∧ s.mailboxOk 0x3010000 2 = true ∧ s.mbox.busy = true) ∧
    (∃ (s : State) (p : Nat) (c : W64), s.linked p = true ∧ s.mailboxOk 0x3010000 2 = false) ∧
    (∃ (s : State) (p : Nat) (c : W64), s.linked p = true ∧ s.mailboxOk 0x3010000 2 = true ∧ s.mbox.busy = true) ∧
    (∃ (s : State) (p : Nat) (c : W64), s.linked p = true ∧ s.mailboxOk 0x3010000 2 = false) ∧
    (∃ (s : State) (p : Nat) (c : W64), s.linked p = true ∧ s.mailboxOk 0x3010000 2 = true ∧ s.mbox.busy = true) ∧
    (∃ (s : State) (p : Nat) (c : W64), s.linked p = true ∧ s.mailboxOk 0x3010000 2 = false) ∧
    (∃ (s : State) (p : Nat) (c : W64), s.linked p = true ∧ s.mailboxOk 0x3010000 2 = true ∧ s.mbox.busy = true) ∧
    (∃ (s : State) (p : Nat) (c : W64), s.linked p = true ∧ s.mailboxOk 0x3010000 2 = false) ∧
    (∃ (s : State) (p : Nat) (c : W64), s.linked p = true ∧ s.mailboxOk 0x3010000 2 = true ∧ s.mbox.busy = true) ∧
    (∃ (s : State) (p : Nat) (c : W64) (T : State), s.linked p = true ∧ s.mailboxOk 0x3010000 2 = true ∧ s.mbox.busy = false ∧ T = { s with mbox := { s.mbox with busy := true, done := false, rlen := 0 } } ∧ T.mbox.image = none ∧ (mailArg c ≤ 2 ^ 25 ∧ mailArg c % 16 = 0)) ∧
    (∃ (s : State) (p : Nat) (c : W64) (T : State), s.linked p = true ∧ s.mailboxOk 0x3010000 2 = true ∧ s.mbox.busy = false ∧ T = { s with mbox := { s.mbox with busy := true, done := false, rlen := 0 } } ∧ openErr T (mailArg c) ≠ 0) ∧
    (∃ (s : State) (p : Nat) (c : W64) (T : State) (I : List Host.Cell), s.linked p = true ∧ s.mailboxOk 0x3010000 2 = true ∧ s.mbox.busy = false ∧ T = { s with mbox := { s.mbox with busy := true, done := false, rlen := 0 } } ∧ chunkErr T (mailArg c) (mailLen c) = 0 ∧ (I = (List.range (mailLen c)).foldl (fun x k => cellPut x (mailArg c + k) (cellGet T.mbox.buf k)) (T.mbox.image.getD []))) ∧
    (∃ (s : State) (p : Nat) (c : W64) (T : State), s.linked p = true ∧ s.mailboxOk 0x3010000 2 = true ∧ s.mbox.busy = false ∧ T = { s with mbox := { s.mbox with busy := true, done := false, rlen := 0 } } ∧ chunkErr T (mailArg c) (mailLen c) ≠ 0) ∧
    (∃ (s : State) (p : Nat) (c : W64) (T : State) (I : Option (List Byte)), s.linked p = true ∧ s.mailboxOk 0x3010000 2 = true ∧ s.mbox.busy = false ∧ T = { s with mbox := { s.mbox with busy := true, done := false, rlen := 0 } } ∧ (I = T.mbox.image.map fun x => (List.range T.mbox.ilen).map (cellGet x)) ∧ commitErr I ≠ 0) ∧
    (∃ (s : State) (p : Nat) (c : W64) (T : State), s.linked p = true ∧ s.mailboxOk 0x3010000 2 = true ∧ s.mbox.busy = false ∧ T = { s with mbox := { s.mbox with busy := true, done := false, rlen := 0 } }) ∧
    (∃ (s : State) (p : Nat) (c : W64) (T : State), s.linked p = true ∧ s.mailboxOk 0x3010000 2 = true ∧ s.mbox.busy = false ∧ T = { s with mbox := { s.mbox with busy := true, done := false, rlen := 0 } }) ∧
    (∃ (s : State) (p : Nat) (c : W64) (T : State), s.linked p = true ∧ s.mailboxOk 0x3010000 2 = true ∧ s.mbox.busy = false ∧ T = { s with mbox := { s.mbox with busy := true, done := false, rlen := 0 } }) ∧
    (∃ (s : State) (e : BitVec 8), s.mbox.busy = true) ∧
    (∃ (s : State) (p : Nat), s.linked p = true ∧ s.mailboxOk 0x3010008 1 = true) ∧
    (∃ (s : State) (p : Nat), s.linked p = true ∧ s.mailboxOk 0x3010008 1 = false) :=
  ⟨⟨{ S with power := true, ports := SHost.ports }, 0, 0, by decide +kernel, by decide +kernel⟩,
   ⟨(SMail { busy := true }), 0, 0, by decide +kernel, by decide +kernel, by decide +kernel⟩,
   ⟨{ S with power := true, ports := SHost.ports }, 0, 0, by decide +kernel, by decide +kernel⟩,
   ⟨(SMail { busy := true }), 0, 0, by decide +kernel, by decide +kernel, by decide +kernel⟩,
   ⟨{ S with power := true, ports := SHost.ports }, 0, 0, by decide +kernel, by decide +kernel⟩,
   ⟨(SMail { busy := true }), 0, 0, by decide +kernel, by decide +kernel, by decide +kernel⟩,
   ⟨{ S with power := true, ports := SHost.ports }, 0, 0, by decide +kernel, by decide +kernel⟩,
   ⟨(SMail { busy := true }), 0, 0, by decide +kernel, by decide +kernel, by decide +kernel⟩,
   ⟨{ S with power := true, ports := SHost.ports }, 0, 0, by decide +kernel, by decide +kernel⟩,
   ⟨(SMail { busy := true }), 0, 0, by decide +kernel, by decide +kernel, by decide +kernel⟩,
   ⟨{ S with power := true, ports := SHost.ports }, 0, 0, by decide +kernel, by decide +kernel⟩,
   ⟨(SMail { busy := true }), 0, 0, by decide +kernel, by decide +kernel, by decide +kernel⟩,
   ⟨(SMail {}), 0, 0x200000000000000, _, by decide +kernel, by decide +kernel, by decide +kernel, rfl, by decide +kernel, by decide +kernel⟩,
   ⟨(SMail {}), 0, 0x800000000, _, by decide +kernel, by decide +kernel, by decide +kernel, rfl, by decide +kernel⟩,
   ⟨(SMail { image := some [], ilen := 16 }), 0, 0, _, _, by decide +kernel, by decide +kernel, by decide +kernel, rfl, by decide +kernel, rfl⟩,
   ⟨(SMail { image := some [], ilen := 16 }), 0, 0x1000000000, _, by decide +kernel, by decide +kernel, by decide +kernel, rfl, by decide +kernel⟩,
   ⟨(SMail {}), 0, 0, _, _, by decide +kernel, by decide +kernel, by decide +kernel, rfl, rfl, by decide +kernel⟩,
   ⟨(SMail {}), 0, 0, _, by decide +kernel, by decide +kernel, by decide +kernel, rfl⟩,
   ⟨(SMail {}), 0, 0, _, by decide +kernel, by decide +kernel, by decide +kernel, rfl⟩,
   ⟨(SMail {}), 0, 0, _, by decide +kernel, by decide +kernel, by decide +kernel, rfl⟩,
   ⟨(SMail { busy := true }), 0, by decide +kernel⟩,
   ⟨(SMail {}), 0, by decide +kernel, by decide +kernel⟩,
   ⟨{ S with power := true, ports := SHost.ports }, 0, by decide +kernel, by decide +kernel⟩⟩

/-- A link's record, and flits that it receives. -/
def SLink (k : Link) : State := { S with links := [k] }
def flit (ok : Bool) (n : BitVec 16) (ps : List Carried) (mk : Option Mark := none) : Flit :=
  { crcOk := ok, fseq := n, ack := 0, nak := false, hop2 := false, pret := Vector.replicate 4 0, packets := ps, marker := mk }

/-- Hypotheses of `Obligations.LinkTopologyAndLullEvents`. -/
theorem wit_LinkEvents :
    (∃ (s : State) (l : LinkId) (f : Flit), ((s.link l).up = false ∨ (s.link l).retrain = true)) ∧
    (∃ (s : State) (l : LinkId) (f : Flit), (s.link l).up = true ∧ (s.link l).retrain = false ∧ (f.crcOk = false ∨ f.fseq ≠ (s.link l).fseqIn ∨ overfull l f = true) ∧ (¬(((s.link l).drops = true ∧ f.crcOk = true) ∧ f.fseq ≠ (s.link l).fseqIn))) ∧
    (∃ (s : State) (l : LinkId) (f : Flit), (s.link l).up = true ∧ (s.link l).retrain = false ∧ (f.crcOk = false ∨ f.fseq ≠ (s.link l).fseqIn ∨ overfull l f = true) ∧ (((s.link l).drops = true ∧ f.crcOk = true) ∧ f.fseq ≠ (s.link l).fseqIn)) ∧
    (∃ (s : State) (l : LinkId) (f : Flit) (t : State), (s.link l).up = true ∧ (s.link l).retrain = false ∧ f.crcOk = true ∧ f.fseq = (s.link l).fseqIn ∧ overfull l f = false ∧ f.marker = none ∧ (t = s.setLink { s.link l with fseqIn := (s.link l).fseqIn + 1, drops := false, naks := 0, ackDue := (s.link l).ackDue || !f.empty, owed := f.packets.foldl (fun o c => setCountPut o (carriedSet c).1 (carriedSet c).2 (setCount o (carriedSet c).1 (carriedSet c).2 + 1)) (s.link l).owed })) ∧
    (∃ (s : State) (l : LinkId) (f : Flit) (t : State) (k : Mark), (s.link l).up = true ∧ (s.link l).retrain = false ∧ f.crcOk = true ∧ f.fseq = (s.link l).fseqIn ∧ overfull l f = false ∧ f.marker = some k ∧ (t = s.setLink { s.link l with fseqIn := (s.link l).fseqIn + 1, drops := false, naks := 0, ackDue := (s.link l).ackDue || !f.empty, owed := f.packets.foldl (fun o c => setCountPut o (carriedSet c).1 (carriedSet c).2 (setCount o (carriedSet c).1 (carriedSet c).2 + 1)) (s.link l).owed })) ∧
    (∃ (s : State) (l : LinkId), (s.link l).retrain = false) ∧
    (∃ (s : State) (d : Nat) (g : Nat), (s.link (.cirrus d g)).retrain = true) ∧
    (∃ (s : State) (d : Nat) (g : Nat), (s.link (.mesh d g)).retrain = true) ∧
    (∃ (s : State) (d : Nat) (g : Nat), (s.link (.dieLink d g)).retrain = true) ∧
    (∃ (s : State) (l : LinkId) (r : LinkId) (t : State) (u : State), farEnd l = some r ∧ t = s.setLink { s.link l with up := false, retrain := false, replay := [], queue := [] } ∧ u = t.setLink { t.link r with up := false, retrain := false, replay := [], queue := [] }) ∧
    (∃ (s : State) (d : Nat), d < 8) ∧
    (∃ (s : State) (l : LinkId) (t : State), (s.link l).retrain = true ∧ (t = ({ s with timers := s.timers.filter fun t => t.2 != .linkRetrainTimeout l } : State).setLink { s.link l with retrain := false })) ∧
    (∃ (s : State) (l : LinkId), (s.link l).retrain = false) ∧
    (∃ (s : State) (d : Nat) (g : Nat) (m : Nat) (k : Link), k = s.link (.dieLink d g) ∧ (k.bad.contains m = true ∨ 4 ≤ m)) ∧
    (∃ (s : State) (d : Nat) (g : Nat) (m : Nat) (k : Link) (r : LinkId) (t : State) (u : State), k = s.link (.dieLink d g) ∧ k.bad.contains m = false ∧ m < 4 ∧ farEnd (.dieLink d g) = some r ∧ u = s.setLink { s.link (.dieLink d g) with bad := setIns (s.link (.dieLink d g)).bad m } ∧ t = u.setLink { u.link r with bad := setIns (u.link r).bad m } ∧ k.bad.length < 3) ∧
    (∃ (s : State) (d : Nat) (g : Nat) (m : Nat) (k : Link) (r : LinkId) (t : State) (u : State), k = s.link (.dieLink d g) ∧ k.bad.contains m = false ∧ m < 4 ∧ farEnd (.dieLink d g) = some r ∧ u = s.setLink { s.link (.dieLink d g) with bad := setIns (s.link (.dieLink d g)).bad m } ∧ t = u.setLink { u.link r with bad := setIns (u.link r).bad m } ∧ ¬ k.bad.length < 3) ∧
    (∃ (s : State) (d : Nat) (p : Nat) (n : Nat) (k : Link) (x : Link), k = s.link (.cirrus d p) ∧ x = s.link (.cirrus d (p % 3)) ∧ (k.bad.contains n = true ∨ 4 ≤ n)) ∧
    (∃ (s : State) (d : Nat) (p : Nat) (n : Nat) (k : Link) (x : Link), k = s.link (.cirrus d p) ∧ x = s.link (.cirrus d (p % 3)) ∧ k.bad.contains n = false ∧ n < 4 ∧ x.spare.isNone = true) ∧
    (∃ (s : State) (d : Nat) (p : Nat) (n : Nat) (k : Link) (x : Link), k = s.link (.cirrus d p) ∧ x = s.link (.cirrus d (p % 3)) ∧ k.bad.contains n = false ∧ n < 4 ∧ x.spare.isNone = false ∧ k.bad.length = 0) ∧
    (∃ (s : State) (d : Nat) (p : Nat) (n : Nat) (k : Link) (x : Link), k = s.link (.cirrus d p) ∧ x = s.link (.cirrus d (p % 3)) ∧ k.bad.contains n = false ∧ n < 4 ∧ x.spare.isNone = false ∧ k.bad.length ≠ 0) :=
  ⟨⟨(SLink { id := .dieLink 0 0, up := false }), (.dieLink 0 0), (flit true 0 []), by decide +kernel⟩,
   ⟨(SLink { id := .dieLink 0 0 }), (.dieLink 0 0), (flit true 1 []), by decide +kernel, by decide +kernel, by decide +kernel, by decide +kernel⟩,
   ⟨(SLink { id := .dieLink 0 0, drops := true }), (.dieLink 0 0), (flit true 1 []), by decide +kernel, by decide +kernel, by decide +kernel, by decide +kernel⟩,
   ⟨(SLink { id := .dieLink 0 0, fseqIn := 0xFFFF }), (.dieLink 0 0), (flit true 0xFFFF [{ p := { kind := kRld } }]), _, by decide +kernel, by decide +kernel, by decide +kernel, by decide +kernel, by decide +kernel, by decide +kernel, rfl⟩,
   ⟨(SLink { id := .dieLink 0 0, fseqIn := 0xFFFF }), (.dieLink 0 0), (flit true 0xFFFF [] (some ⟨0, 0, 0, 0⟩)), _, _, by decide +kernel, by decide +kernel, by decide +kernel, by decide +kernel, by decide +kernel, some_spec (d := (⟨0, 0, 0, 0⟩)) (by decide +kernel), rfl⟩,
   ⟨S, (.dieLink 0 0), by decide +kernel⟩,
   ⟨(SLink { id := .cirrus 0 0, retrain := true }), 0, 0, by decide +kernel⟩,
   ⟨(SLink { id := .mesh 0 0, retrain := true }), 0, 0, by decide +kernel⟩,
   ⟨(SLink { id := .dieLink 0 0, retrain := true }), 0, 0, by decide +kernel⟩,
   ⟨S, (.dieLink 0 0), _, _, _, some_spec (d := (LinkId.dieLink 0 0)) (by decide +kernel), rfl, rfl⟩,
   ⟨S, 7, by decide +kernel⟩,
   ⟨(SLink { id := .dieLink 0 0, retrain := true }), (.dieLink 0 0), _, by decide +kernel, rfl⟩,
   ⟨S, (.dieLink 0 0), by decide +kernel⟩,
   ⟨S, 0, 0, 4, _, rfl, by decide +kernel⟩,
   ⟨(SLink { id := .dieLink 0 0, bad := [0, 1] }), 0, 0, 3, _, _, _, _, rfl, by decide +kernel, by decide +kernel, some_spec (d := (LinkId.dieLink 0 0)) (by decide +kernel), rfl, rfl, by decide +kernel⟩,
   ⟨(SLink { id := .dieLink 0 0, bad := [0, 1, 2] }), 0, 0, 3, _, _, _, _, rfl, by decide +kernel, by decide +kernel, some_spec (d := (LinkId.dieLink 0 0)) (by decide +kernel), rfl, rfl, by decide +kernel⟩,
   ⟨S, 0, 0, 4, _, _, rfl, rfl, by decide +kernel⟩,
   ⟨S, 0, 0, 3, _, _, rfl, rfl, by decide +kernel, by decide +kernel, by decide +kernel⟩,
   ⟨(SLink { id := .cirrus 0 0, spare := some (3, 0) }), 0, 0, 3, _, _, rfl, rfl, by decide +kernel, by decide +kernel, by decide +kernel, by decide +kernel⟩,
   ⟨(SLink { id := .cirrus 0 0, spare := some (3, 0), bad := [1] }), 0, 0, 3, _, _, rfl, rfl, by decide +kernel, by decide +kernel, by decide +kernel, by decide +kernel⟩⟩

/-- Hypotheses of `Obligations.LinkTopologyAndLullEvents`. -/
theorem wit_TopologyEvents :
    (∃ (s : State) (d : Nat) (p : Nat) (up : Bool) (u : Bool) (t : State) (v : State), u = (up && s.modid != 0xFFFF) ∧ t = s.setLink { id := .cirrus d p, up := u, bad := (s.link (.cirrus d p)).bad, spare := (s.link (.cirrus d p)).spare } ∧ (v = (if t.bringStep = 2 ∧ !u then t.linkRecord (.cirrus d p) 0x34 else t))) ∧
    (∃ (s : State) (d : Nat) (n : Nat) (m : BitVec 16) (l : List (Nat × Nat)), (s.die d).topo = some l) ∧
    (∃ (s : State) (d : Nat), (s.die d).topo = none) ∧
    (∃ (s : State) (d : Nat) (l : List (Nat × Nat)) (t : State), (s.die d).topo = some l ∧ (t = s.setDie d fun x => { x with topo := none, scopes := (l.filter fun x => decide (hopCode x.2 ≠ 0)).map fun x => (x.1, hopCode x.2) })) :=
  ⟨⟨S, 0, 0, true, _, _, _, rfl, rfl, rfl⟩,
   ⟨(S.setDie 0 fun d => { d with topo := some [(1, 2)] }), 0, 1, 2, ([(1, 2)]), by decide +kernel⟩,
   ⟨S, 0, by decide +kernel⟩,
   ⟨(S.setDie 0 fun d => { d with topo := some [(1, 2)] }), 0, ([(1, 2)]), _, by decide +kernel, rfl⟩⟩

/-- Hypotheses of `Obligations.LinkTopologyAndLullEvents`. -/
theorem wit_LullEvents :
    (∃ (s : State) (d : Nat) (t : State) (u : State) (v : State), (t = s.setDie d fun x => { x with lull := true }) ∧ (u = (((List.range 3).map (LinkId.dieLink d) ++ (List.range 6).map (LinkId.cirrus d)).filter fun l => (t.link l).up).foldl (fun s l => (s.setLink { s.link l with marks := (s.link l).marks ++ (s.link l).lullMarks }).linkDrain l) t) ∧ (v = (u.links.filter fun k => match k.id with | .mesh e _ => decide (e % 8 = d % 8) | _ => false).foldl (fun s k => k.lullMarks.foldl (fun s m => s.post (.lullMarker k.id m.net m.cls m.held m.pret)) s) u)) ∧
    (∃ (s : State) (l : LinkId) (n : Nat) (k : Nat) (held : Nat) (pret : BitVec 16) (h : Nat) (j : Nat) (D : Nat) (F : Nat) (R : Nat), setOf n k = (h, j) ∧ D = linkDepth l h j ∧ F = setCount (s.link l).owed h j ∧ R = (s.link l).returned h j pret ∧ held + F + R = D) ∧
    (∃ (s : State) (d : Nat) (g : Nat) (n : Nat) (k : Nat) (held : Nat) (pret : BitVec 16) (h : Nat) (j : Nat) (D : Nat) (F : Nat) (R : Nat), setOf n k = (h, j) ∧ D = linkDepth (.cirrus d g) h j ∧ F = setCount (s.link (.cirrus d g)).owed h j ∧ R = (s.link (.cirrus d g)).returned h j pret ∧ ¬ held + F + R = D) ∧
    (∃ (s : State) (d : Nat) (g : Nat) (n : Nat) (k : Nat) (held : Nat) (pret : BitVec 16) (h : Nat) (j : Nat) (D : Nat) (F : Nat) (R : Nat), setOf n k = (h, j) ∧ D = linkDepth (.mesh d g) h j ∧ F = setCount (s.link (.mesh d g)).owed h j ∧ R = (s.link (.mesh d g)).returned h j pret ∧ ¬ held + F + R = D) ∧
    (∃ (s : State) (d : Nat) (g : Nat) (r : LinkId) (n : Nat) (k : Nat) (held : Nat) (pret : BitVec 16) (h : Nat) (j : Nat) (D : Nat) (F : Nat) (R : Nat), setOf n k = (h, j) ∧ D = linkDepth (.dieLink d g) h j ∧ F = setCount (s.link (.dieLink d g)).owed h j ∧ R = (s.link (.dieLink d g)).returned h j pret ∧ farEnd (.dieLink d g) = some r ∧ ¬ held + F + R = D) ∧
    (∃ (s : State) (d : Nat) (ps : List Packet) (t : State), ps = (s.die d).lullHeld ∧ (t = s.setDie d fun x => { x with lull := false, lullHeld := [] })) ∧
    (∃ (s : State) (d : Nat) (p : Packet), (s.die d).lull = true ∧ p.vn = 0) :=
  ⟨⟨S, 0, _, _, _, rfl, rfl, rfl⟩,
   ⟨S, (.dieLink 0 0), 2, 2, (linkDepth (.dieLink 0 0) 1 3), 0, 1, 3, (linkDepth (.dieLink 0 0) 1 3), 0, 0, by decide +kernel, rfl, by decide +kernel, by decide +kernel, rfl⟩,
   ⟨S, 0, 0, 2, 2, (linkDepth (.cirrus 0 0) 1 3 + 1), 0, 1, 3, (linkDepth (.cirrus 0 0) 1 3), 0, 0, by decide +kernel, rfl, by decide +kernel, by decide +kernel, Nat.succ_ne_self (linkDepth (.cirrus 0 0) 1 3)⟩,
   ⟨S, 0, 0, 2, 2, (linkDepth (.mesh 0 0) 1 3 + 1), 0, 1, 3, (linkDepth (.mesh 0 0) 1 3), 0, 0, by decide +kernel, rfl, by decide +kernel, by decide +kernel, Nat.succ_ne_self (linkDepth (.mesh 0 0) 1 3)⟩,
   ⟨S, 0, 0, _, 2, 2, (linkDepth (.dieLink 0 0) 1 3 + 1), 0, 1, 3, (linkDepth (.dieLink 0 0) 1 3), 0, 0, by decide +kernel, rfl, by decide +kernel, by decide +kernel, some_spec (d := (LinkId.dieLink 0 0)) (by decide +kernel), Nat.succ_ne_self (linkDepth (.dieLink 0 0) 1 3)⟩,
   ⟨S, 0, _, _, rfl, rfl⟩,
   ⟨(S.setDie 0 fun d => { d with lull := true }), 0, { kind := kRld }, by decide +kernel, by decide +kernel⟩⟩

/-- A request's flow, its cached reply, a gateway's table and caches. -/
def SFlow : State := S.setDie 0 fun d => { d with flows := [{ gw := 3, src := 0, thr := 0, key := 0, seq := 0 }] }
def SCached : State := S.setDie 0 fun d => { d with replies := [{ gw := 3, src := 0, tag := 1, gen := 0 }] }
def SCaches : State := S.setDie 0 fun d => { d with replies := List.replicate 8192 { gw := 3, src := 1, tag := 0, gen := 0 } }
def SKey (ts : List GwTicket) : State :=
  S.setDie 0 fun d => { d.putRegion 3 0 { v := true, length := 0x1000, perm := 0x1F } with gwTickets := ts }
def SBusy : State := (SKey []).setDie 0 fun d => { d with l2cfg := BitVec.ofNat 64 (2 ^ 63) }
def gwt (n : Nat) (q : Packet) : GwTicket := { gw := 3, num := n, req := q, endp := 0, svc := true, named := none }

/-- Hypotheses of `Obligations.RequestsAtTheirGateways`. -/
theorem wit_RequestsAtTheirGateway_1 :
    (∃ (s : State) (p : Packet) (q : Packet) (d : Nat) (gw : Nat), q = { p with kind := kRld } ∧ checkGw q.rkey = (d, gw) ∧ badEndpoint q.dst = true) ∧
    (∃ (s : State) (p : Packet) (q : Packet) (d : Nat) (gw : Nat), q = { p with kind := kRld } ∧ checkGw q.rkey = (d, gw) ∧ badEndpoint q.dst = false ∧ s.reqWaits d gw q = true) ∧
    (∃ (s : State) (p : Packet) (q : Packet) (d : Nat) (gw : Nat), q = { p with kind := kRld } ∧ checkGw q.rkey = (d, gw) ∧ badEndpoint q.dst = false ∧ s.reqWaits d gw q = false ∧ s.flowCheck d gw q = none) ∧
    (∃ (s : State) (p : Packet) (q : Packet) (d : Nat) (gw : Nat) (t : State) (r : CachedReply), q = { p with kind := kRld } ∧ checkGw q.rkey = (d, gw) ∧ badEndpoint q.dst = false ∧ s.reqWaits d gw q = false ∧ s.flowCheck d gw q = some t ∧ t.cachedOf q = some r ∧ q.retx = true) ∧
    (∃ (s : State) (p : Packet) (q : Packet) (d : Nat) (gw : Nat) (t : State), q = { p with kind := kRld } ∧ checkGw q.rkey = (d, gw) ∧ badEndpoint q.dst = false ∧ s.reqWaits d gw q = false ∧ s.flowCheck d gw q = some t ∧ (t.cachedOf q = none ∨ q.retx = false) ∧ idempotent q = true) ∧
    (∃ (s : State) (p : Packet) (q : Packet) (d : Nat) (gw : Nat) (t : State), q = { p with kind := kRld } ∧ checkGw q.rkey = (d, gw) ∧ badEndpoint q.dst = false ∧ s.reqWaits d gw q = false ∧ s.flowCheck d gw q = some t ∧ (t.cachedOf q = none ∨ q.retx = false) ∧ idempotent q = false ∧ (((t.caches q).any fun x => !t.cacheRoom q x) = false)) ∧
    (∃ (s : State) (p : Packet) (q : Packet) (d : Nat) (gw : Nat), q = { p with kind := kRst } ∧ checkGw q.rkey = (d, gw) ∧ badEndpoint q.dst = true) ∧
    (∃ (s : State) (p : Packet) (q : Packet) (d : Nat) (gw : Nat), q = { p with kind := kRst } ∧ checkGw q.rkey = (d, gw) ∧ badEndpoint q.dst = false ∧ s.reqWaits d gw q = true) ∧
    (∃ (s : State) (p : Packet) (q : Packet) (d : Nat) (gw : Nat), q = { p with kind := kRst } ∧ checkGw q.rkey = (d, gw) ∧ badEndpoint q.dst = false ∧ s.reqWaits d gw q = false ∧ s.flowCheck d gw q = none) ∧
    (∃ (s : State) (p : Packet) (q : Packet) (d : Nat) (gw : Nat) (t : State) (r : CachedReply), q = { p with kind := kRst } ∧ checkGw q.rkey = (d, gw) ∧ badEndpoint q.dst = false ∧ s.reqWaits d gw q = false ∧ s.flowCheck d gw q = some t ∧ t.cachedOf q = some r ∧ q.retx = true) ∧
    (∃ (s : State) (p : Packet) (q : Packet) (d : Nat) (gw : Nat) (t : State), q = { p with kind := kRst } ∧ checkGw q.rkey = (d, gw) ∧ badEndpoint q.dst = false ∧ s.reqWaits d gw q = false ∧ s.flowCheck d gw q = some t ∧ (t.cachedOf q = none ∨ q.retx = false) ∧ idempotent q = false ∧ (((t.caches q).any fun x => !t.cacheRoom q x) = false)) ∧
    (∃ (s : State) (p : Packet) (q : Packet) (d : Nat) (gw : Nat), q = { p with kind := kRamo } ∧ checkGw q.rkey = (d, gw) ∧ badEndpoint q.dst = true) ∧
    (∃ (s : State) (p : Packet) (q : Packet) (d : Nat) (gw : Nat), q = { p with kind := kRamo } ∧ checkGw q.rkey = (d, gw) ∧ badEndpoint q.dst = false ∧ s.reqWaits d gw q = true) ∧
    (∃ (s : State) (p : Packet) (q : Packet) (d : Nat) (gw : Nat), q = { p with kind := kRamo } ∧ checkGw q.rkey = (d, gw) ∧ badEndpoint q.dst = false ∧ s.reqWaits d gw q = false ∧ s.flowCheck d gw q = none) ∧
    (∃ (s : State) (p : Packet) (q : Packet) (d : Nat) (gw : Nat) (t : State) (r : CachedReply), q = { p with kind := kRamo } ∧ checkGw q.rkey = (d, gw) ∧ badEndpoint q.dst = false ∧ s.reqWaits d gw q = false ∧ s.flowCheck d gw q = some t ∧ t.cachedOf q = some r ∧ q.retx = true) ∧
    (∃ (s : State) (p : Packet) (q : Packet) (d : Nat) (gw : Nat) (t : State), q = { p with kind := kRamo } ∧ checkGw q.rkey = (d, gw) ∧ badEndpoint q.dst = false ∧ s.reqWaits d gw q = false ∧ s.flowCheck d gw q = some t ∧ (t.cachedOf q = none ∨ q.retx = false) ∧ idempotent q = false ∧ (((t.caches q).any fun x => !t.cacheRoom q x) = false)) ∧
    (∃ (s : State) (p : Packet) (q : Packet) (d : Nat) (gw : Nat) (t : State), q = { p with kind := kRamo } ∧ checkGw q.rkey = (d, gw) ∧ badEndpoint q.dst = false ∧ s.reqWaits d gw q = false ∧ s.flowCheck d gw q = some t ∧ (t.cachedOf q = none ∨ q.retx = false) ∧ idempotent q = false ∧ (((t.caches q).any fun x => !t.cacheRoom q x) = true)) ∧
    (∃ (s : State) (p : Packet) (q : Packet) (d : Nat) (gw : Nat), q = { p with kind := kRcas } ∧ checkGw q.rkey = (d, gw) ∧ badEndpoint q.dst = true) ∧
    (∃ (s : State) (p : Packet) (q : Packet) (d : Nat) (gw : Nat), q = { p with kind := kRcas } ∧ checkGw q.rkey = (d, gw) ∧ badEndpoint q.dst = false ∧ s.reqWaits d gw q = true) ∧
    (∃ (s : State) (p : Packet) (q : Packet) (d : Nat) (gw : Nat), q = { p with kind := kRcas } ∧ checkGw q.rkey = (d, gw) ∧ badEndpoint q.dst = false ∧ s.reqWaits d gw q = false ∧ s.flowCheck d gw q = none) ∧
    (∃ (s : State) (p : Packet) (q : Packet) (d : Nat) (gw : Nat) (t : State) (r : CachedReply), q = { p with kind := kRcas } ∧ checkGw q.rkey = (d, gw) ∧ badEndpoint q.dst = false ∧ s.reqWaits d gw q = false ∧ s.flowCheck d gw q = some t ∧ t.cachedOf q = some r ∧ q.retx = true) ∧
    (∃ (s : State) (p : Packet) (q : Packet) (d : Nat) (gw : Nat) (t : State), q = { p with kind := kRcas } ∧ checkGw q.rkey = (d, gw) ∧ badEndpoint q.dst = false ∧ s.reqWaits d gw q = false ∧ s.flowCheck d gw q = some t ∧ (t.cachedOf q = none ∨ q.retx = false) ∧ idempotent q = false ∧ (((t.caches q).any fun x => !t.cacheRoom q x) = false)) ∧
    (∃ (s : State) (p : Packet) (q : Packet) (d : Nat) (gw : Nat), q = { p with kind := kRcall } ∧ checkGw q.rkey = (d, gw) ∧ badEndpoint q.dst = true) ∧
    (∃ (s : State) (p : Packet) (q : Packet) (d : Nat) (gw : Nat), q = { p with kind := kRcall } ∧ checkGw q.rkey = (d, gw) ∧ badEndpoint q.dst = false ∧ s.reqWaits d gw q = true) :=
  ⟨⟨S, { dst := 1101 }, _, 0, 3, rfl, by decide +kernel, by decide +kernel⟩,
   ⟨SBusy, { size := 3, addr := 0x10 }, _, _, _, rfl, rfl, by decide +kernel, by decide +kernel⟩,
   ⟨SFlow, { seq := 0x7FFF }, _, 0, 3, rfl, by decide +kernel, by decide +kernel, by decide +kernel, by decide +kernel⟩,
   ⟨SCached, { tag := 1, retx := true }, _, 0, 3, _, _, rfl, by decide +kernel, by decide +kernel, by decide +kernel, some_spec (d := (S)) (by decide +kernel), some_spec (d := ({ gw := 0, src := 0, tag := 0, gen := 0 })) (by decide +kernel), by decide +kernel⟩,
   ⟨SFlow, { seq := 0xFFFF }, _, 0, 3, _, rfl, by decide +kernel, by decide +kernel, by decide +kernel, some_spec (d := (S)) (by decide +kernel), by decide +kernel, by decide +kernel⟩,
   ⟨S, { tag := 1, mode := 1 }, _, 0, 3, _, rfl, by decide +kernel, by decide +kernel, by decide +kernel, some_spec (d := (S)) (by decide +kernel), by decide +kernel, by decide +kernel, by decide +kernel⟩,
   ⟨S, { dst := 1101 }, _, 0, 3, rfl, by decide +kernel, by decide +kernel⟩,
   ⟨SBusy, { size := 3, addr := 0x10 }, _, _, _, rfl, rfl, by decide +kernel, by decide +kernel⟩,
   ⟨SFlow, { seq := 0x7FFF }, _, 0, 3, rfl, by decide +kernel, by decide +kernel, by decide +kernel, by decide +kernel⟩,
   ⟨SCached, { tag := 1, retx := true }, _, 0, 3, _, _, rfl, by decide +kernel, by decide +kernel, by decide +kernel, some_spec (d := (S)) (by decide +kernel), some_spec (d := ({ gw := 0, src := 0, tag := 0, gen := 0 })) (by decide +kernel), by decide +kernel⟩,
   ⟨S, { tag := 1, mode := 1 }, _, 0, 3, _, rfl, by decide +kernel, by decide +kernel, by decide +kernel, some_spec (d := (S)) (by decide +kernel), by decide +kernel, by decide +kernel, by decide +kernel⟩,
   ⟨S, { dst := 1101 }, _, 0, 3, rfl, by decide +kernel, by decide +kernel⟩,
   ⟨SBusy, { size := 3, addr := 0x10 }, _, _, _, rfl, rfl, by decide +kernel, by decide +kernel⟩,
   ⟨SFlow, { seq := 0x7FFF }, _, 0, 3, rfl, by decide +kernel, by decide +kernel, by decide +kernel, by decide +kernel⟩,
   ⟨SCached, { tag := 1, retx := true }, _, 0, 3, _, _, rfl, by decide +kernel, by decide +kernel, by decide +kernel, some_spec (d := (S)) (by decide +kernel), some_spec (d := ({ gw := 0, src := 0, tag := 0, gen := 0 })) (by decide +kernel), by decide +kernel⟩,
   ⟨S, { tag := 1, mode := 1 }, _, 0, 3, _, rfl, by decide +kernel, by decide +kernel, by decide +kernel, some_spec (d := (S)) (by decide +kernel), by decide +kernel, by decide +kernel, by decide +kernel⟩,
   ⟨SCaches, { tag := 1, mode := 1 }, _, 0, 3, _, rfl, by decide +kernel, by decide +kernel, by decide +kernel, some_spec (d := (S)) (by decide +kernel), by decide +kernel, by decide +kernel, by decide +kernel⟩,
   ⟨S, { dst := 1101 }, _, 0, 3, rfl, by decide +kernel, by decide +kernel⟩,
   ⟨SBusy, { size := 3, addr := 0x10 }, _, _, _, rfl, rfl, by decide +kernel, by decide +kernel⟩,
   ⟨SFlow, { seq := 0x7FFF }, _, 0, 3, rfl, by decide +kernel, by decide +kernel, by decide +kernel, by decide +kernel⟩,
   ⟨SCached, { tag := 1, retx := true }, _, 0, 3, _, _, rfl, by decide +kernel, by decide +kernel, by decide +kernel, some_spec (d := (S)) (by decide +kernel), some_spec (d := ({ gw := 0, src := 0, tag := 0, gen := 0 })) (by decide +kernel), by decide +kernel⟩,
   ⟨S, { tag := 1, mode := 1 }, _, 0, 3, _, rfl, by decide +kernel, by decide +kernel, by decide +kernel, some_spec (d := (S)) (by decide +kernel), by decide +kernel, by decide +kernel, by decide +kernel⟩,
   ⟨S, { dst := 1101 }, _, 0, 3, rfl, by decide +kernel, by decide +kernel⟩,
   ⟨SBusy, { size := 3, addr := 0x10 }, _, _, _, rfl, rfl, by decide +kernel, by decide +kernel⟩⟩

/-- Hypotheses of `Obligations.RequestsAtTheirGateways`. -/
theorem wit_RequestsAtTheirGateway_2 :
    (∃ (s : State) (p : Packet) (q : Packet) (d : Nat) (gw : Nat), q = { p with kind := kRcall } ∧ checkGw q.rkey = (d, gw) ∧ badEndpoint q.dst = false ∧ s.reqWaits d gw q = false ∧ s.flowCheck d gw q = none) ∧
    (∃ (s : State) (p : Packet) (q : Packet) (d : Nat) (gw : Nat) (t : State) (r : CachedReply), q = { p with kind := kRcall } ∧ checkGw q.rkey = (d, gw) ∧ badEndpoint q.dst = false ∧ s.reqWaits d gw q = false ∧ s.flowCheck d gw q = some t ∧ t.cachedOf q = some r ∧ q.retx = true) ∧
    (∃ (s : State) (p : Packet) (q : Packet) (d : Nat) (gw : Nat) (t : State), q = { p with kind := kRcall } ∧ checkGw q.rkey = (d, gw) ∧ badEndpoint q.dst = false ∧ s.reqWaits d gw q = false ∧ s.flowCheck d gw q = some t ∧ (t.cachedOf q = none ∨ q.retx = false) ∧ idempotent q = false ∧ (((t.caches q).any fun x => !t.cacheRoom q x) = false)) ∧
    (∃ (s : State) (p : Packet) (q : Packet) (d : Nat) (gw : Nat), q = { p with kind := kRget } ∧ checkGw q.rkey = (d, gw) ∧ badEndpoint q.dst = true) ∧
    (∃ (s : State) (p : Packet) (q : Packet) (d : Nat) (gw : Nat), q = { p with kind := kRget } ∧ checkGw q.rkey = (d, gw) ∧ badEndpoint q.dst = false ∧ s.reqWaits d gw q = true) ∧
    (∃ (s : State) (p : Packet) (q : Packet) (d : Nat) (gw : Nat), q = { p with kind := kRget } ∧ checkGw q.rkey = (d, gw) ∧ badEndpoint q.dst = false ∧ s.reqWaits d gw q = false ∧ s.flowCheck d gw q = none) ∧
    (∃ (s : State) (p : Packet) (q : Packet) (d : Nat) (gw : Nat) (t : State) (r : CachedReply), q = { p with kind := kRget } ∧ checkGw q.rkey = (d, gw) ∧ badEndpoint q.dst = false ∧ s.reqWaits d gw q = false ∧ s.flowCheck d gw q = some t ∧ t.cachedOf q = some r ∧ q.retx = true) ∧
    (∃ (s : State) (p : Packet) (q : Packet) (d : Nat) (gw : Nat) (t : State), q = { p with kind := kRget } ∧ checkGw q.rkey = (d, gw) ∧ badEndpoint q.dst = false ∧ s.reqWaits d gw q = false ∧ s.flowCheck d gw q = some t ∧ (t.cachedOf q = none ∨ q.retx = false) ∧ idempotent q = true) ∧
    (∃ (s : State) (p : Packet) (q : Packet) (d : Nat) (gw : Nat), q = { p with kind := kRput } ∧ checkGw q.rkey = (d, gw) ∧ badEndpoint q.dst = true) ∧
    (∃ (s : State) (p : Packet) (q : Packet) (d : Nat) (gw : Nat), q = { p with kind := kRput } ∧ checkGw q.rkey = (d, gw) ∧ badEndpoint q.dst = false ∧ s.reqWaits d gw q = true) ∧
    (∃ (s : State) (p : Packet) (q : Packet) (d : Nat) (gw : Nat), q = { p with kind := kRput } ∧ checkGw q.rkey = (d, gw) ∧ badEndpoint q.dst = false ∧ s.reqWaits d gw q = false ∧ s.flowCheck d gw q = none) ∧
    (∃ (s : State) (p : Packet) (q : Packet) (d : Nat) (gw : Nat) (t : State) (r : CachedReply), q = { p with kind := kRput } ∧ checkGw q.rkey = (d, gw) ∧ badEndpoint q.dst = false ∧ s.reqWaits d gw q = false ∧ s.flowCheck d gw q = some t ∧ t.cachedOf q = some r ∧ q.retx = true) ∧
    (∃ (s : State) (p : Packet) (q : Packet) (d : Nat) (gw : Nat) (t : State), q = { p with kind := kRput } ∧ checkGw q.rkey = (d, gw) ∧ badEndpoint q.dst = false ∧ s.reqWaits d gw q = false ∧ s.flowCheck d gw q = some t ∧ (t.cachedOf q = none ∨ q.retx = false) ∧ idempotent q = false ∧ (((t.caches q).any fun x => !t.cacheRoom q x) = false)) ∧
    (∃ (s : State) (p : Packet) (q : Packet) (d : Nat) (gw : Nat), q = p ∧ checkGw q.rkey = (d, gw) ∧ badEndpoint q.dst = true) ∧
    (∃ (s : State) (p : Packet) (q : Packet) (d : Nat) (gw : Nat), q = p ∧ checkGw q.rkey = (d, gw) ∧ badEndpoint q.dst = false ∧ s.reqWaits d gw q = true) ∧
    (∃ (s : State) (p : Packet) (q : Packet) (d : Nat) (gw : Nat), q = p ∧ checkGw q.rkey = (d, gw) ∧ badEndpoint q.dst = false ∧ s.reqWaits d gw q = false ∧ s.flowCheck d gw q = none) ∧
    (∃ (s : State) (p : Packet) (q : Packet) (d : Nat) (gw : Nat) (t : State) (r : CachedReply), q = p ∧ checkGw q.rkey = (d, gw) ∧ badEndpoint q.dst = false ∧ s.reqWaits d gw q = false ∧ s.flowCheck d gw q = some t ∧ t.cachedOf q = some r ∧ q.retx = true) ∧
    (∃ (s : State) (p : Packet) (q : Packet) (d : Nat) (gw : Nat) (t : State), q = p ∧ checkGw q.rkey = (d, gw) ∧ badEndpoint q.dst = false ∧ s.reqWaits d gw q = false ∧ s.flowCheck d gw q = some t ∧ (t.cachedOf q = none ∨ q.retx = false) ∧ idempotent q = true) ∧
    (∃ (s : State) (p : Packet) (q : Packet) (d : Nat) (gw : Nat) (t : State), q = p ∧ checkGw q.rkey = (d, gw) ∧ badEndpoint q.dst = false ∧ s.reqWaits d gw q = false ∧ s.flowCheck d gw q = some t ∧ (t.cachedOf q = none ∨ q.retx = false) ∧ idempotent q = false ∧ (((t.caches q).any fun x => !t.cacheRoom q x) = false)) ∧
    (∃ (s : State) (p : Packet) (q : Packet) (d : Nat) (gw : Nat) (t : State), q = p ∧ checkGw q.rkey = (d, gw) ∧ badEndpoint q.dst = false ∧ s.reqWaits d gw q = false ∧ s.flowCheck d gw q = some t ∧ (t.cachedOf q = none ∨ q.retx = false) ∧ idempotent q = false ∧ (((t.caches q).any fun x => !t.cacheRoom q x) = true)) ∧
    (∃ (s : State) (p : Packet) (d : Nat) (gw : Nat) (r : Region), r = (s.die d).region gw (p.rkey.toNat / 2 ^ 20) ∧ (r.v = false ∨ r.gen ≠ p.rkey.setWidth 20)) ∧
    (∃ (s : State) (p : Packet) (d : Nat) (gw : Nat) (r : Region), r = (s.die d).region gw (p.rkey.toNat / 2 ^ 20) ∧ r.v = true ∧ r.gen = p.rkey.setWidth 20 ∧ r.length.toNat < p.addr.toNat + reqSize p) ∧
    (∃ (s : State) (p : Packet) (d : Nat) (gw : Nat) (r : Region), r = (s.die d).region gw (p.rkey.toNat / 2 ^ 20) ∧ r.v = true ∧ r.gen = p.rkey.setWidth 20 ∧ p.addr.toNat + reqSize p ≤ r.length.toNat ∧ reqPerm p &&& ~~~r.perm ≠ 0) ∧
    (∃ (s : State) (p : Packet) (d : Nat) (gw : Nat) (r : Region) (t : GwTicket), r = (s.die d).region gw (p.rkey.toNat / 2 ^ 20) ∧ r.v = true ∧ r.gen = p.rkey.setWidth 20 ∧ p.addr.toNat + reqSize p ≤ r.length.toNat ∧ reqPerm p &&& ~~~r.perm = 0 ∧ ((s.die d).gwTickets.find? (fun t => decide (t.gw = gw) && t.same p && !t.told) = some t)) :=
  ⟨⟨SFlow, { seq := 0x7FFF }, _, 0, 3, rfl, by decide +kernel, by decide +kernel, by decide +kernel, by decide +kernel⟩,
   ⟨SCached, { tag := 1, retx := true }, _, 0, 3, _, _, rfl, by decide +kernel, by decide +kernel, by decide +kernel, some_spec (d := (S)) (by decide +kernel), some_spec (d := ({ gw := 0, src := 0, tag := 0, gen := 0 })) (by decide +kernel), by decide +kernel⟩,
   ⟨S, { tag := 1, mode := 1 }, _, 0, 3, _, rfl, by decide +kernel, by decide +kernel, by decide +kernel, some_spec (d := (S)) (by decide +kernel), by decide +kernel, by decide +kernel, by decide +kernel⟩,
   ⟨S, { dst := 1101 }, _, 0, 3, rfl, by decide +kernel, by decide +kernel⟩,
   ⟨SBusy, { size := 3, addr := 0x10 }, _, _, _, rfl, rfl, by decide +kernel, by decide +kernel⟩,
   ⟨SFlow, { seq := 0x7FFF }, _, 0, 3, rfl, by decide +kernel, by decide +kernel, by decide +kernel, by decide +kernel⟩,
   ⟨SCached, { tag := 1, retx := true }, _, 0, 3, _, _, rfl, by decide +kernel, by decide +kernel, by decide +kernel, some_spec (d := (S)) (by decide +kernel), some_spec (d := ({ gw := 0, src := 0, tag := 0, gen := 0 })) (by decide +kernel), by decide +kernel⟩,
   ⟨SFlow, { seq := 0xFFFF }, _, 0, 3, _, rfl, by decide +kernel, by decide +kernel, by decide +kernel, some_spec (d := (S)) (by decide +kernel), by decide +kernel, by decide +kernel⟩,
   ⟨S, { dst := 1101 }, _, 0, 3, rfl, by decide +kernel, by decide +kernel⟩,
   ⟨SBusy, { size := 3, addr := 0x10 }, _, _, _, rfl, rfl, by decide +kernel, by decide +kernel⟩,
   ⟨SFlow, { seq := 0x7FFF }, _, 0, 3, rfl, by decide +kernel, by decide +kernel, by decide +kernel, by decide +kernel⟩,
   ⟨SCached, { tag := 1, retx := true }, _, 0, 3, _, _, rfl, by decide +kernel, by decide +kernel, by decide +kernel, some_spec (d := (S)) (by decide +kernel), some_spec (d := ({ gw := 0, src := 0, tag := 0, gen := 0 })) (by decide +kernel), by decide +kernel⟩,
   ⟨S, { tag := 1, mode := 1 }, _, 0, 3, _, rfl, by decide +kernel, by decide +kernel, by decide +kernel, some_spec (d := (S)) (by decide +kernel), by decide +kernel, by decide +kernel, by decide +kernel⟩,
   ⟨S, { dst := 1101, kind := kRld }, _, 0, 3, rfl, by decide +kernel, by decide +kernel⟩,
   ⟨SBusy, { size := 3, addr := 0x10, kind := kRld }, _, _, _, rfl, rfl, by decide +kernel, by decide +kernel⟩,
   ⟨SFlow, { seq := 0x7FFF, kind := kRld }, _, 0, 3, rfl, by decide +kernel, by decide +kernel, by decide +kernel, by decide +kernel⟩,
   ⟨SCached, { tag := 1, retx := true, kind := kRld }, _, 0, 3, _, _, rfl, by decide +kernel, by decide +kernel, by decide +kernel, some_spec (d := (S)) (by decide +kernel), some_spec (d := ({ gw := 0, src := 0, tag := 0, gen := 0 })) (by decide +kernel), by decide +kernel⟩,
   ⟨SFlow, { seq := 0xFFFF, kind := kRld }, _, 0, 3, _, rfl, by decide +kernel, by decide +kernel, by decide +kernel, some_spec (d := (S)) (by decide +kernel), by decide +kernel, by decide +kernel⟩,
   ⟨S, { tag := 1, mode := 1, kind := kRld }, _, 0, 3, _, rfl, by decide +kernel, by decide +kernel, by decide +kernel, some_spec (d := (S)) (by decide +kernel), by decide +kernel, by decide +kernel, by decide +kernel⟩,
   ⟨SCaches, { tag := 1, mode := 1, kind := kRld }, _, 0, 3, _, rfl, by decide +kernel, by decide +kernel, by decide +kernel, some_spec (d := (S)) (by decide +kernel), by decide +kernel, by decide +kernel, by decide +kernel⟩,
   ⟨S, { kind := kRld, size := 3, addr := 0, seq := 0 }, 0, 3, _, rfl, by decide +kernel⟩,
   ⟨(SKey []), { kind := kRld, size := 3, addr := 0xFF9, seq := 0 }, 0, 3, _, rfl, by decide +kernel, by decide +kernel, by decide +kernel⟩,
   ⟨(S.setDie 0 fun d => d.putRegion 3 0 { v := true, length := 0x1000, perm := 0x1E }), { kind := kRld, size := 3, addr := 0xFF8, seq := 0 }, 0, 3, _, rfl, by decide +kernel, by decide +kernel, by decide +kernel, by decide +kernel⟩,
   ⟨(SKey [gwt 1 ({ kind := kRld, size := 3, addr := 0xFF8, seq := 0 })]), { kind := kRld, size := 3, addr := 0xFF8, seq := 0 }, 0, 3, _, _, rfl, by decide +kernel, by decide +kernel, by decide +kernel, by decide +kernel, some_spec (d := ({ gw := 0, num := 0, req := {}, endp := 0, svc := true, named := none })) (by decide +kernel)⟩⟩

/-- Hypotheses of `Obligations.RequestsAtTheirGateways`. -/
theorem wit_RequestsAtTheirGateway_3 :
    (∃ (s : State) (p : Packet) (d : Nat) (gw : Nat) (r : Region) (u : State) (t : GwTicket), r = (s.die d).region gw (p.rkey.toNat / 2 ^ 20) ∧ r.v = true ∧ r.gen = p.rkey.setWidth 20 ∧ p.addr.toNat + reqSize p ≤ r.length.toNat ∧ reqPerm p &&& ~~~r.perm = 0 ∧ ((s.die d).gwTickets.find? (fun t => decide (t.gw = gw) && t.same p && !t.told) = none) ∧ (u = s.setDie d fun x => { x with gwTickets := x.gwTickets.filter fun t => !(decide (t.gw = gw) && t.same p) }) ∧ u.earlier d gw r p = some t) ∧
    (∃ (s : State) (p : Packet) (d : Nat) (gw : Nat) (r : Region) (u : State), r = (s.die d).region gw (p.rkey.toNat / 2 ^ 20) ∧ r.v = true ∧ r.gen = p.rkey.setWidth 20 ∧ p.addr.toNat + reqSize p ≤ r.length.toNat ∧ reqPerm p &&& ~~~r.perm = 0 ∧ ((s.die d).gwTickets.find? (fun t => decide (t.gw = gw) && t.same p && !t.told) = none) ∧ (u = s.setDie d fun x => { x with gwTickets := x.gwTickets.filter fun t => !(decide (t.gw = gw) && t.same p) }) ∧ u.earlier d gw r p = none ∧ u.windowKey p.rkey = true) ∧
    (∃ (s : State) (p : Packet) (d : Nat) (gw : Nat) (r : Region) (u : State), r = (s.die d).region gw (p.rkey.toNat / 2 ^ 20) ∧ r.v = true ∧ r.gen = p.rkey.setWidth 20 ∧ p.addr.toNat + reqSize p ≤ r.length.toNat ∧ reqPerm p &&& ~~~r.perm = 0 ∧ ((s.die d).gwTickets.find? (fun t => decide (t.gw = gw) && t.same p && !t.told) = none) ∧ (u = s.setDie d fun x => { x with gwTickets := x.gwTickets.filter fun t => !(decide (t.gw = gw) && t.same p) }) ∧ u.earlier d gw r p = none ∧ u.windowKey p.rkey = false) :=
  ⟨⟨(SKey [gwt 1 ({ kind := kRld, size := 3, addr := 0xFF8, seq := 0 })]), { tag := 1, kind := kRld, size := 3, addr := 0xFF8, seq := 1 }, 0, 3, _, _, _, rfl, by decide +kernel, by decide +kernel, by decide +kernel, by decide +kernel, by decide +kernel, rfl, some_spec (d := ({ gw := 0, num := 0, req := {}, endp := 0, svc := true, named := none })) (by decide +kernel)⟩,
   ⟨((SKey []).setDie 0 fun d => { d with launches := [launch0] }), { kind := kRld, size := 3, addr := 0xFF8, seq := 0 }, 0, 3, _, _, rfl, by decide +kernel, by decide +kernel, by decide +kernel, by decide +kernel, by decide +kernel, rfl, by decide +kernel, by decide +kernel⟩,
   ⟨(SKey []), { kind := kRld, size := 3, addr := 0xFF8, seq := 0 }, 0, 3, _, _, rfl, by decide +kernel, by decide +kernel, by decide +kernel, by decide +kernel, by decide +kernel, rfl, by decide +kernel, by decide +kernel⟩⟩

/-- Hypotheses of `Obligations.RequestsAtTheirGateways`. -/
theorem wit_GatewayEvents :
    (∃ (s : State) (p : Packet), badEndpoint p.dst = true) ∧
    (∃ (s : State) (p : Packet) (r : CachedReply), badEndpoint p.dst = false ∧ s.cachedOf p = some r) ∧
    (∃ (s : State) (p : Packet), badEndpoint p.dst = false ∧ s.cachedOf p = none) ∧
    (∃ (s : State) (k : Nat), s.core? k = none) ∧
    (∃ (s : State) (k : Nat) (c : Core) (x : Call) (xs : List Call) (r : Vector Cap 32), s.core? k = some c ∧ (c.thr.get 7).run = .call ∧ c.calls = x :: xs ∧ r = ((((((c.thr.get 7).c.set 1 (Cap.ofInt (x.args.getD 0 0))).set 2 (Cap.ofInt (x.args.getD 1 0))).set 3 (Cap.ofInt (x.args.getD 2 0))).set 4 (Cap.ofInt (x.args.getD 3 0))).set 5 (Cap.ofInt (x.caller.setWidth 64))).set 6 (Cap.ofInt (x.ctx.setWidth 64))) ∧
    (∃ (s : State) (d : Nat) (gw : Nat) (src : BitVec 32) (thr : BitVec 3) (key : BitVec 32), ((s.die d).flows.find? (fun x : Flow => decide (x.gw = gw) && x.src == src && x.thr == thr && x.key == key) = none)) ∧
    (∃ (s : State) (d : Nat) (gw : Nat) (src : BitVec 32) (thr : BitVec 3) (key : BitVec 32) (f : Flow), ((s.die d).flows.find? (fun x : Flow => decide (x.gw = gw) && x.src == src && x.thr == thr && x.key == key) = some f) ∧ f.last + us 1000 ≤ s.now) ∧
    (∃ (s : State) (d : Nat) (gw : Nat) (src : BitVec 32) (thr : BitVec 3) (key : BitVec 32) (f : Flow), ((s.die d).flows.find? (fun x : Flow => decide (x.gw = gw) && x.src == src && x.thr == thr && x.key == key) = some f) ∧ s.now < f.last + us 1000) :=
  ⟨⟨S, { dst := 1101 }, by decide +kernel⟩,
   ⟨SCached, { tag := 1 }, _, by decide +kernel, some_spec (d := ({ gw := 0, src := 0, tag := 0, gen := 0 })) (by decide +kernel)⟩,
   ⟨S, {}, by decide +kernel, by decide +kernel⟩,
   ⟨S, 1, by decide +kernel⟩,
   ⟨(onCore fun c => { c with thr := c.thr.set 7 { t0 with run := .call }, calls := [⟨capMem, [], 0, 0, 0, 0⟩] }), 0, _, (⟨capMem, [], 0, 0, 0, 0⟩), [], _, some_spec (d := (core0)) (by decide +kernel), by decide +kernel, by decide +kernel, rfl⟩,
   ⟨S, 0, 3, 0, 0, 0, by decide +kernel⟩,
   ⟨{ SFlow with now := us 1000 }, 0, 3, 0, 0, 0, _, some_spec (d := ({ gw := 0, src := 0, thr := 0, key := 0, seq := 0 })) (by decide +kernel), by decide +kernel⟩,
   ⟨{ SFlow with now := us 1000 - 1 }, 0, 3, 0, 0, 0, _, some_spec (d := ({ gw := 0, src := 0, thr := 0, key := 0, seq := 0 })) (by decide +kernel), by decide +kernel⟩⟩

/-- A ticket-table entry of the thread. -/
def tick : Ticket := { idx := 0, tag := 5, gen := 0, thr := 0, req := { kind := kRld }, d := 9, e := 0, pc := capMem, ins := 0 }
def STick (t : Ticket) : State := onCore fun c => { c with tickets := [t] }
def SParked (w : Wait) : State := onThread fun t => { t with run := .parked w {} }

/-- Hypotheses of `Obligations.ReplyEvents`. -/
theorem wit_ReplyEvents_1 :
    (∃ (s : State) (p : Packet), forDispatcher p = true) ∧
    (∃ (s : State) (p : Packet), forDispatcher p = false ∧ tileTag ≤ p.tag.toNat ∧ (s.tileWaiter (fun q => q.size == p.size) p (p.tag.toNat - tileTag) = none)) ∧
    (∃ (s : State) (p : Packet) (q : Packet) (t : ThrId), forDispatcher p = false ∧ tileTag ≤ p.tag.toNat ∧ (s.tileWaiter (fun q => q.size == p.size) p (p.tag.toNat - tileTag) = some (t, q, true))) ∧
    (∃ (s : State) (p : Packet) (q : Packet) (t : ThrId), forDispatcher p = false ∧ tileTag ≤ p.tag.toNat ∧ (s.tileWaiter (fun q => q.size == p.size) p (p.tag.toNat - tileTag) = some (t, q, false))) ∧
    (∃ (s : State) (p : Packet), forDispatcher p = false ∧ p.tag.toNat < tileTag ∧ s.transaction p = none) ∧
    (∃ (s : State) (p : Packet) (c : Core) (t : Ticket), forDispatcher p = false ∧ p.tag.toNat < tileTag ∧ s.transaction p = some (c, t, true)) ∧
    (∃ (s : State) (p : Packet) (c : Core) (t : Ticket), forDispatcher p = false ∧ p.tag.toNat < tileTag ∧ s.transaction p = some (c, t, false) ∧ t.st ≠ .sent) ∧
    (∃ (s : State) (p : Packet) (c : Core) (t : Ticket), forDispatcher p = false ∧ p.tag.toNat < tileTag ∧ s.transaction p = some (c, t, false) ∧ t.st = .sent ∧ 16 ≤ t.idx) ∧
    (∃ (s : State) (p : Packet) (c : Core) (t : Ticket) (e : F6), forDispatcher p = false ∧ p.tag.toNat < tileTag ∧ s.transaction p = some (c, t, false) ∧ t.st = .sent ∧ t.idx < 16 ∧ t.ff = some e) ∧
    (∃ (s : State) (p : Packet) (c : Core) (t : Ticket) (dst : Cap) (n : Nat), forDispatcher p = false ∧ p.tag.toNat < tileTag ∧ s.transaction p = some (c, t, false) ∧ t.st = .sent ∧ t.idx < 16 ∧ t.ff = none ∧ t.dst = some (dst, n)) ∧
    (∃ (s : State) (p : Packet) (c : Core) (t : Ticket), forDispatcher p = false ∧ p.tag.toNat < tileTag ∧ s.transaction p = some (c, t, false) ∧ t.st = .sent ∧ t.idx < 16 ∧ t.ff = none ∧ t.dst = none) ∧
    (∃ (s : State) (p : Packet), forDispatcher p = true) ∧
    (∃ (s : State) (p : Packet), forDispatcher p = false ∧ tileTag ≤ p.tag.toNat ∧ (s.tileWaiter (fun q => q.size == p.size) p (p.tag.toNat - tileTag) = none)) ∧
    (∃ (s : State) (p : Packet) (q : Packet) (t : ThrId), forDispatcher p = false ∧ tileTag ≤ p.tag.toNat ∧ (s.tileWaiter (fun q => q.size == p.size) p (p.tag.toNat - tileTag) = some (t, q, true))) ∧
    (∃ (s : State) (p : Packet) (q : Packet) (t : ThrId), forDispatcher p = false ∧ tileTag ≤ p.tag.toNat ∧ (s.tileWaiter (fun q => q.size == p.size) p (p.tag.toNat - tileTag) = some (t, q, false))) ∧
    (∃ (s : State) (p : Packet), forDispatcher p = false ∧ p.tag.toNat < tileTag ∧ s.transaction p = none) ∧
    (∃ (s : State) (p : Packet) (c : Core) (t : Ticket), forDispatcher p = false ∧ p.tag.toNat < tileTag ∧ s.transaction p = some (c, t, true)) ∧
    (∃ (s : State) (p : Packet) (c : Core) (t : Ticket), forDispatcher p = false ∧ p.tag.toNat < tileTag ∧ s.transaction p = some (c, t, false) ∧ t.st ≠ .sent) ∧
    (∃ (s : State) (p : Packet) (c : Core) (t : Ticket), forDispatcher p = false ∧ p.tag.toNat < tileTag ∧ s.transaction p = some (c, t, false) ∧ t.st = .sent ∧ 16 ≤ t.idx) ∧
    (∃ (s : State) (p : Packet) (c : Core) (t : Ticket) (e : F6), forDispatcher p = false ∧ p.tag.toNat < tileTag ∧ s.transaction p = some (c, t, false) ∧ t.st = .sent ∧ t.idx < 16 ∧ t.ff = some e) ∧
    (∃ (s : State) (p : Packet) (c : Core) (t : Ticket) (dst : Cap) (n : Nat), forDispatcher p = false ∧ p.tag.toNat < tileTag ∧ s.transaction p = some (c, t, false) ∧ t.st = .sent ∧ t.idx < 16 ∧ t.ff = none ∧ t.dst = some (dst, n)) ∧
    (∃ (s : State) (p : Packet) (c : Core) (t : Ticket), forDispatcher p = false ∧ p.tag.toNat < tileTag ∧ s.transaction p = some (c, t, false) ∧ t.st = .sent ∧ t.idx < 16 ∧ t.ff = none ∧ t.dst = none) ∧
    (∃ (s : State) (p : Packet), forDispatcher p = true) ∧
    (∃ (s : State) (p : Packet), forDispatcher p = false ∧ tileTag ≤ p.tag.toNat ∧ (s.tileWaiter (fun q => q.size == p.size) p (p.tag.toNat - tileTag) = none)) :=
  ⟨⟨S, { tag := 1022 }, by decide +kernel⟩,
   ⟨S, { tag := 1008 }, by decide +kernel, by decide +kernel, by decide +kernel⟩,
   ⟨(savedRun (.parked (.remoteTile {} .sent 0 none) {})), { tag := 1008 }, _, _, by decide +kernel, by decide +kernel, some3r (d := (⟨0, 0, 0⟩, {}, true)) (by decide +kernel) (by decide +kernel)⟩,
   ⟨(SParked (.remoteTile {} .sent 0 none)), { tag := 1008 }, _, _, by decide +kernel, by decide +kernel, some3r (d := (⟨0, 0, 0⟩, {}, false)) (by decide +kernel) (by decide +kernel)⟩,
   ⟨S, { tag := 5 }, by decide +kernel, by decide +kernel, by decide +kernel⟩,
   ⟨(SSaved fun c => { c with tickets := [tick] }), { tag := 5 }, _, _, by decide +kernel, by decide +kernel, some3r (d := (core0, { idx := 0, tag := 5, gen := 0, thr := 0, req := {}, d := 9, e := 0, pc := capMem, ins := 0 }, true)) (by decide +kernel) (by decide +kernel)⟩,
   ⟨(STick { tick with st := .ticketed }), { tag := 5 }, _, _, by decide +kernel, by decide +kernel, some3r (d := (core0, { idx := 0, tag := 5, gen := 0, thr := 0, req := {}, d := 9, e := 0, pc := capMem, ins := 0 }, false)) (by decide +kernel) (by decide +kernel), by decide +kernel⟩,
   ⟨(STick { tick with idx := 16 }), { tag := 5 }, _, _, by decide +kernel, by decide +kernel, some3r (d := (core0, { idx := 0, tag := 5, gen := 0, thr := 0, req := {}, d := 9, e := 0, pc := capMem, ins := 0 }, false)) (by decide +kernel) (by decide +kernel), by decide +kernel, by decide +kernel⟩,
   ⟨(STick { tick with ff := some 9 }), { tag := 5 }, _, _, 9, by decide +kernel, by decide +kernel, some3r (d := (core0, { idx := 0, tag := 5, gen := 0, thr := 0, req := {}, d := 9, e := 0, pc := capMem, ins := 0 }, false)) (by decide +kernel) (by decide +kernel), by decide +kernel, by decide +kernel, by decide +kernel⟩,
   ⟨(STick { tick with dst := some (capMem, 8) }), { tag := 5 }, _, _, capMem, 8, by decide +kernel, by decide +kernel, some3r (d := (core0, { idx := 0, tag := 5, gen := 0, thr := 0, req := {}, d := 9, e := 0, pc := capMem, ins := 0 }, false)) (by decide +kernel) (by decide +kernel), by decide +kernel, by decide +kernel, by decide +kernel, by decide +kernel⟩,
   ⟨(STick { tick with idx := 15 }), { tag := 5 }, _, _, by decide +kernel, by decide +kernel, some3r (d := (core0, { idx := 0, tag := 5, gen := 0, thr := 0, req := {}, d := 9, e := 0, pc := capMem, ins := 0 }, false)) (by decide +kernel) (by decide +kernel), by decide +kernel, by decide +kernel, by decide +kernel, by decide +kernel⟩,
   ⟨S, { tag := 1022 }, by decide +kernel⟩,
   ⟨S, { tag := 1008 }, by decide +kernel, by decide +kernel, by decide +kernel⟩,
   ⟨(savedRun (.parked (.remoteTile {} .sent 0 none) {})), { tag := 1008 }, _, _, by decide +kernel, by decide +kernel, some3r (d := (⟨0, 0, 0⟩, {}, true)) (by decide +kernel) (by decide +kernel)⟩,
   ⟨(SParked (.remoteTile {} .sent 0 none)), { tag := 1008 }, _, _, by decide +kernel, by decide +kernel, some3r (d := (⟨0, 0, 0⟩, {}, false)) (by decide +kernel) (by decide +kernel)⟩,
   ⟨S, { tag := 5 }, by decide +kernel, by decide +kernel, by decide +kernel⟩,
   ⟨(SSaved fun c => { c with tickets := [tick] }), { tag := 5 }, _, _, by decide +kernel, by decide +kernel, some3r (d := (core0, { idx := 0, tag := 5, gen := 0, thr := 0, req := {}, d := 9, e := 0, pc := capMem, ins := 0 }, true)) (by decide +kernel) (by decide +kernel)⟩,
   ⟨(STick { tick with st := .ticketed }), { tag := 5 }, _, _, by decide +kernel, by decide +kernel, some3r (d := (core0, { idx := 0, tag := 5, gen := 0, thr := 0, req := {}, d := 9, e := 0, pc := capMem, ins := 0 }, false)) (by decide +kernel) (by decide +kernel), by decide +kernel⟩,
   ⟨(STick { tick with idx := 16 }), { tag := 5 }, _, _, by decide +kernel, by decide +kernel, some3r (d := (core0, { idx := 0, tag := 5, gen := 0, thr := 0, req := {}, d := 9, e := 0, pc := capMem, ins := 0 }, false)) (by decide +kernel) (by decide +kernel), by decide +kernel, by decide +kernel⟩,
   ⟨(STick { tick with ff := some 9 }), { tag := 5 }, _, _, 9, by decide +kernel, by decide +kernel, some3r (d := (core0, { idx := 0, tag := 5, gen := 0, thr := 0, req := {}, d := 9, e := 0, pc := capMem, ins := 0 }, false)) (by decide +kernel) (by decide +kernel), by decide +kernel, by decide +kernel, by decide +kernel⟩,
   ⟨(STick { tick with dst := some (capMem, 8) }), { tag := 5 }, _, _, capMem, 8, by decide +kernel, by decide +kernel, some3r (d := (core0, { idx := 0, tag := 5, gen := 0, thr := 0, req := {}, d := 9, e := 0, pc := capMem, ins := 0 }, false)) (by decide +kernel) (by decide +kernel), by decide +kernel, by decide +kernel, by decide +kernel, by decide +kernel⟩,
   ⟨(STick { tick with idx := 15 }), { tag := 5 }, _, _, by decide +kernel, by decide +kernel, some3r (d := (core0, { idx := 0, tag := 5, gen := 0, thr := 0, req := {}, d := 9, e := 0, pc := capMem, ins := 0 }, false)) (by decide +kernel) (by decide +kernel), by decide +kernel, by decide +kernel, by decide +kernel, by decide +kernel⟩,
   ⟨S, { tag := 1022 }, by decide +kernel⟩,
   ⟨S, { tag := 1008 }, by decide +kernel, by decide +kernel, by decide +kernel⟩⟩

/-- Hypotheses of `Obligations.ReplyEvents`. -/
theorem wit_ReplyEvents_2 :
    (∃ (s : State) (p : Packet) (q : Packet) (t : ThrId), forDispatcher p = false ∧ tileTag ≤ p.tag.toNat ∧ (s.tileWaiter (fun q => q.size == p.size) p (p.tag.toNat - tileTag) = some (t, q, true))) ∧
    (∃ (s : State) (p : Packet) (q : Packet) (t : ThrId), forDispatcher p = false ∧ tileTag ≤ p.tag.toNat ∧ (s.tileWaiter (fun q => q.size == p.size) p (p.tag.toNat - tileTag) = some (t, q, false))) ∧
    (∃ (s : State) (p : Packet), forDispatcher p = false ∧ p.tag.toNat < tileTag ∧ s.transaction p = none) ∧
    (∃ (s : State) (p : Packet) (c : Core) (t : Ticket), forDispatcher p = false ∧ p.tag.toNat < tileTag ∧ s.transaction p = some (c, t, true)) ∧
    (∃ (s : State) (p : Packet) (c : Core) (t : Ticket), forDispatcher p = false ∧ p.tag.toNat < tileTag ∧ s.transaction p = some (c, t, false) ∧ t.st ≠ .sent) ∧
    (∃ (s : State) (p : Packet) (c : Core) (t : Ticket), forDispatcher p = false ∧ p.tag.toNat < tileTag ∧ s.transaction p = some (c, t, false) ∧ t.st = .sent) ∧
    (∃ (s : State) (p : Packet), s.transaction p = none) ∧
    (∃ (s : State) (p : Packet) (c : Core) (t : Ticket), s.transaction p = some (c, t, true)) ∧
    (∃ (s : State) (p : Packet) (c : Core) (t : Ticket), s.transaction p = some (c, t, false) ∧ t.st ≠ .sent) ∧
    (∃ (s : State) (p : Packet) (c : Core) (t : Ticket) (u : State) (v : State), s.transaction p = some (c, t, false) ∧ t.st = .sent ∧ (u = (s.setCore (c.setTicket t.tag fun t => { t with st := if p.addr.getLsbD 16 then .shadow else .ticketed, ticket := p.aux.toNat, endp := p.src, named := fieldOf p.addr 15 0, held := false, parked := false, probe := none, heard := s.now }))) ∧ v = u.after (u.die c.die).tklim (.ticketLimitTimeout (c.whoOf t) t.tag t.gen) ∧ (c.tickets.find? (fun x => p.addr.getLsbD 16 && x.st == .failed && decide (x.ticket = fieldOf p.addr 15 0) && x.endp == p.src) = none)) ∧
    (∃ (s : State) (p : Packet) (c : Core) (t : Ticket) (u : State) (v : State) (x : Ticket) (y : Ticket) (k : Core), s.transaction p = some (c, t, false) ∧ t.st = .sent ∧ (u = (s.setCore (c.setTicket t.tag fun t => { t with st := if p.addr.getLsbD 16 then .shadow else .ticketed, ticket := p.aux.toNat, endp := p.src, named := fieldOf p.addr 15 0, held := false, parked := false, probe := none, heard := s.now }))) ∧ v = u.after (u.die c.die).tklim (.ticketLimitTimeout (c.whoOf t) t.tag t.gen) ∧ (c.tickets.find? (fun x => p.addr.getLsbD 16 && x.st == .failed && decide (x.ticket = fieldOf p.addr 15 0) && x.endp == p.src) = some x) ∧ v.entryOf (c.whoOf t) t.tag t.gen = some (k, y)) ∧
    (∃ (s : State) (p : Packet), forDispatcher p = true) ∧
    (∃ (s : State) (p : Packet), forDispatcher p = false ∧ tileTag ≤ p.tag.toNat ∧ (s.tileWaiter (fun q => q.size == p.size) p (p.tag.toNat - tileTag) = none)) ∧
    (∃ (s : State) (p : Packet) (q : Packet) (t : ThrId), forDispatcher p = false ∧ tileTag ≤ p.tag.toNat ∧ (s.tileWaiter (fun q => q.size == p.size) p (p.tag.toNat - tileTag) = some (t, q, true))) ∧
    (∃ (s : State) (p : Packet) (q : Packet) (t : ThrId), forDispatcher p = false ∧ tileTag ≤ p.tag.toNat ∧ (s.tileWaiter (fun q => q.size == p.size) p (p.tag.toNat - tileTag) = some (t, q, false))) ∧
    (∃ (s : State) (p : Packet), forDispatcher p = false ∧ p.tag.toNat < tileTag ∧ s.transaction p = none) ∧
    (∃ (s : State) (p : Packet) (c : Core) (t : Ticket), forDispatcher p = false ∧ p.tag.toNat < tileTag ∧ s.transaction p = some (c, t, true)) ∧
    (∃ (s : State) (p : Packet) (c : Core) (t : Ticket), forDispatcher p = false ∧ p.tag.toNat < tileTag ∧ s.transaction p = some (c, t, false) ∧ t.st ≠ .sent) ∧
    (∃ (s : State) (p : Packet) (c : Core) (t : Ticket), forDispatcher p = false ∧ p.tag.toNat < tileTag ∧ s.transaction p = some (c, t, false) ∧ t.st = .sent) ∧
    (∃ (s : State) (p : Packet), forDispatcher p = true) ∧
    (∃ (s : State) (p : Packet) (t : ThrId), forDispatcher p = false ∧ (queueTag ≤ p.tag.toNat ∧ p.tag.toNat < queueTag + 8) ∧ t = ⟨BitVec.ofNat 16 (p.payload.getD 1 0).toNat, (p.payload.getD 1 0).toNat / 2 ^ 16, p.thr.toNat⟩) ∧
    (∃ (s : State) (p : Packet), forDispatcher p = false ∧ tileTag ≤ p.tag.toNat ∧ (¬(queueTag ≤ p.tag.toNat ∧ p.tag.toNat < queueTag + 8)) ∧ (s.tileWaiter (fun q => q.size == p.size) p (p.tag.toNat - tileTag) = none)) ∧
    (∃ (s : State) (p : Packet) (q : Packet) (t : ThrId), forDispatcher p = false ∧ tileTag ≤ p.tag.toNat ∧ (¬(queueTag ≤ p.tag.toNat ∧ p.tag.toNat < queueTag + 8)) ∧ (s.tileWaiter (fun q => q.size == p.size) p (p.tag.toNat - tileTag) = some (t, q, true))) ∧
    (∃ (s : State) (p : Packet) (q : Packet) (t : ThrId), forDispatcher p = false ∧ tileTag ≤ p.tag.toNat ∧ (¬(queueTag ≤ p.tag.toNat ∧ p.tag.toNat < queueTag + 8)) ∧ (s.tileWaiter (fun q => q.size == p.size) p (p.tag.toNat - tileTag) = some (t, q, false))) :=
  ⟨⟨(savedRun (.parked (.remoteTile {} .sent 0 none) {})), { tag := 1008 }, _, _, by decide +kernel, by decide +kernel, some3r (d := (⟨0, 0, 0⟩, {}, true)) (by decide +kernel) (by decide +kernel)⟩,
   ⟨(SParked (.remoteTile {} .sent 0 none)), { tag := 1008 }, _, _, by decide +kernel, by decide +kernel, some3r (d := (⟨0, 0, 0⟩, {}, false)) (by decide +kernel) (by decide +kernel)⟩,
   ⟨S, { tag := 5 }, by decide +kernel, by decide +kernel, by decide +kernel⟩,
   ⟨(SSaved fun c => { c with tickets := [tick] }), { tag := 5 }, _, _, by decide +kernel, by decide +kernel, some3r (d := (core0, { idx := 0, tag := 5, gen := 0, thr := 0, req := {}, d := 9, e := 0, pc := capMem, ins := 0 }, true)) (by decide +kernel) (by decide +kernel)⟩,
   ⟨(STick { tick with st := .shadow }), { tag := 5 }, _, _, by decide +kernel, by decide +kernel, some3r (d := (core0, { idx := 0, tag := 5, gen := 0, thr := 0, req := {}, d := 9, e := 0, pc := capMem, ins := 0 }, false)) (by decide +kernel) (by decide +kernel), by decide +kernel⟩,
   ⟨(STick tick), { tag := 5 }, _, _, by decide +kernel, by decide +kernel, some3r (d := (core0, { idx := 0, tag := 5, gen := 0, thr := 0, req := {}, d := 9, e := 0, pc := capMem, ins := 0 }, false)) (by decide +kernel) (by decide +kernel), by decide +kernel⟩,
   ⟨S, { tag := 5 }, by decide +kernel⟩,
   ⟨(SSaved fun c => { c with tickets := [tick] }), { tag := 5 }, _, _, some3r (d := (core0, { idx := 0, tag := 5, gen := 0, thr := 0, req := {}, d := 9, e := 0, pc := capMem, ins := 0 }, true)) (by decide +kernel) (by decide +kernel)⟩,
   ⟨(STick { tick with st := .shadow }), { tag := 5 }, _, _, some3r (d := (core0, { idx := 0, tag := 5, gen := 0, thr := 0, req := {}, d := 9, e := 0, pc := capMem, ins := 0 }, false)) (by decide +kernel) (by decide +kernel), by decide +kernel⟩,
   ⟨(STick tick), { tag := 5 }, _, _, _, _, some3r (d := (core0, { idx := 0, tag := 5, gen := 0, thr := 0, req := {}, d := 9, e := 0, pc := capMem, ins := 0 }, false)) (by decide +kernel) (by decide +kernel), by decide +kernel, rfl, rfl, by decide +kernel⟩,
   ⟨(onCore fun c => { c with tickets := [tick, { tick with idx := 1, tag := 6, st := .failed, ticket := 7 }] }), { tag := 5, addr := 0x10007, src := 0 }, _, _, _, _, _, _, _, some3r (d := (core0, { idx := 0, tag := 5, gen := 0, thr := 0, req := {}, d := 9, e := 0, pc := capMem, ins := 0 }, false)) (by decide +kernel) (by decide +kernel), by decide +kernel, rfl, rfl, some_spec (d := ({ idx := 0, tag := 5, gen := 0, thr := 0, req := {}, d := 9, e := 0, pc := capMem, ins := 0 })) (by decide +kernel), some_spec2 (d := (core0, { idx := 0, tag := 5, gen := 0, thr := 0, req := {}, d := 9, e := 0, pc := capMem, ins := 0 })) (by decide +kernel)⟩,
   ⟨S, { tag := 1022 }, by decide +kernel⟩,
   ⟨S, { tag := 1008 }, by decide +kernel, by decide +kernel, by decide +kernel⟩,
   ⟨(savedRun (.parked (.remoteTile {} .sent 0 none) {})), { tag := 1008 }, _, _, by decide +kernel, by decide +kernel, some3r (d := (⟨0, 0, 0⟩, {}, true)) (by decide +kernel) (by decide +kernel)⟩,
   ⟨(SParked (.remoteTile {} .sent 0 none)), { tag := 1008 }, _, _, by decide +kernel, by decide +kernel, some3r (d := (⟨0, 0, 0⟩, {}, false)) (by decide +kernel) (by decide +kernel)⟩,
   ⟨S, { tag := 5 }, by decide +kernel, by decide +kernel, by decide +kernel⟩,
   ⟨(SSaved fun c => { c with tickets := [tick] }), { tag := 5 }, _, _, by decide +kernel, by decide +kernel, some3r (d := (core0, { idx := 0, tag := 5, gen := 0, thr := 0, req := {}, d := 9, e := 0, pc := capMem, ins := 0 }, true)) (by decide +kernel) (by decide +kernel)⟩,
   ⟨(STick { tick with st := .shadow }), { tag := 5 }, _, _, by decide +kernel, by decide +kernel, some3r (d := (core0, { idx := 0, tag := 5, gen := 0, thr := 0, req := {}, d := 9, e := 0, pc := capMem, ins := 0 }, false)) (by decide +kernel) (by decide +kernel), by decide +kernel⟩,
   ⟨(STick tick), { tag := 5 }, _, _, by decide +kernel, by decide +kernel, some3r (d := (core0, { idx := 0, tag := 5, gen := 0, thr := 0, req := {}, d := 9, e := 0, pc := capMem, ins := 0 }, false)) (by decide +kernel) (by decide +kernel), by decide +kernel⟩,
   ⟨S, { tag := 1022 }, by decide +kernel⟩,
   ⟨S, { tag := 992 }, _, by decide +kernel, by decide +kernel, rfl⟩,
   ⟨S, { tag := 1008 }, by decide +kernel, by decide +kernel, by decide +kernel, by decide +kernel⟩,
   ⟨(savedRun (.parked (.remoteTile {} .sent 0 none) {})), { tag := 1008 }, _, _, by decide +kernel, by decide +kernel, by decide +kernel, some3r (d := (⟨0, 0, 0⟩, {}, true)) (by decide +kernel) (by decide +kernel)⟩,
   ⟨(SParked (.remoteTile {} .sent 0 none)), { tag := 1008 }, _, _, by decide +kernel, by decide +kernel, by decide +kernel, some3r (d := (⟨0, 0, 0⟩, {}, false)) (by decide +kernel) (by decide +kernel)⟩⟩

/-- Hypotheses of `Obligations.ReplyEvents`. -/
theorem wit_ReplyEvents_3 :
    (∃ (s : State) (p : Packet), forDispatcher p = false ∧ p.tag.toNat < tileTag ∧ (¬(queueTag ≤ p.tag.toNat ∧ p.tag.toNat < queueTag + 8)) ∧ s.transaction p = none) ∧
    (∃ (s : State) (p : Packet) (c : Core) (t : Ticket), forDispatcher p = false ∧ p.tag.toNat < tileTag ∧ (¬(queueTag ≤ p.tag.toNat ∧ p.tag.toNat < queueTag + 8)) ∧ s.transaction p = some (c, t, true)) ∧
    (∃ (s : State) (p : Packet) (c : Core) (t : Ticket), forDispatcher p = false ∧ p.tag.toNat < tileTag ∧ (¬(queueTag ≤ p.tag.toNat ∧ p.tag.toNat < queueTag + 8)) ∧ s.transaction p = some (c, t, false) ∧ t.st ≠ .sent) ∧
    (∃ (s : State) (p : Packet) (c : Core) (t : Ticket) (n : Nat), forDispatcher p = false ∧ p.tag.toNat < tileTag ∧ (¬(queueTag ≤ p.tag.toNat ∧ p.tag.toNat < queueTag + 8)) ∧ s.transaction p = some (c, t, false) ∧ t.st = .sent ∧ n = Nat.min 64 (Nat.max 1 (2 * t.backoff))) :=
  ⟨⟨S, { tag := 5 }, by decide +kernel, by decide +kernel, by decide +kernel, by decide +kernel⟩,
   ⟨(SSaved fun c => { c with tickets := [tick] }), { tag := 5 }, _, _, by decide +kernel, by decide +kernel, by decide +kernel, some3r (d := (core0, { idx := 0, tag := 5, gen := 0, thr := 0, req := {}, d := 9, e := 0, pc := capMem, ins := 0 }, true)) (by decide +kernel) (by decide +kernel)⟩,
   ⟨(STick { tick with st := .shadow }), { tag := 5 }, _, _, by decide +kernel, by decide +kernel, by decide +kernel, some3r (d := (core0, { idx := 0, tag := 5, gen := 0, thr := 0, req := {}, d := 9, e := 0, pc := capMem, ins := 0 }, false)) (by decide +kernel) (by decide +kernel), by decide +kernel⟩,
   ⟨(STick { tick with backoff := 64 }), { tag := 5 }, _, _, _, by decide +kernel, by decide +kernel, by decide +kernel, some3r (d := (core0, { idx := 0, tag := 5, gen := 0, thr := 0, req := {}, d := 9, e := 0, pc := capMem, ins := 0 }, false)) (by decide +kernel) (by decide +kernel), by decide +kernel, rfl⟩⟩

/-- Hypotheses of `Obligations.RequesterTimersAndNotices`. -/
theorem wit_RequesterTimersAndNotices_1 :
    (∃ (s : State) (t : ThrId) (tag : Nat) (gen : BitVec 4), s.entryOf t tag gen = none) ∧
    (∃ (s : State) (t : ThrId) (tag : Nat) (gen : BitVec 4), s.entryOf t tag gen = none) ∧
    (∃ (s : State) (t : ThrId) (tag : Nat) (gen : BitVec 4), s.entryOf t tag gen = none) ∧
    (∃ (s : State) (t : ThrId) (tag : Nat) (gen : BitVec 4) (c : Core) (x : Ticket), s.entryOf t tag gen = some (c, x) ∧ x.st = .sent ∧ x.parked = false ∧ x.heard ≤ x.sent ∧ (x.heard < x.sent ∨ x.backoff = 0) ∧ x.tries < 3 ∧ x.sent + resendAfter ≤ s.now) ∧
    (∃ (s : State) (t : ThrId) (tag : Nat) (gen : BitVec 4) (c : Core) (x : Ticket), s.entryOf t tag gen = some (c, x) ∧ (x.st ≠ .sent ∨ x.parked = true ∨ x.sent < x.heard ∨ (x.sent ≤ x.heard ∧ x.backoff ≠ 0) ∨ 3 ≤ x.tries ∨ s.now < x.sent + resendAfter)) ∧
    (∃ (s : State) (t : ThrId) (tag : Nat) (gen : BitVec 4) (c : Core) (x : Ticket) (a : Nat), s.entryOf t tag gen = some (c, x) ∧ x.st = .sent ∧ (if x.parked then x.probe else some (Nat.max x.first x.heard)) = some a ∧ a + (s.die c.die).final ≤ s.now) ∧
    (∃ (s : State) (t : ThrId) (tag : Nat) (gen : BitVec 4) (c : Core) (x : Ticket) (a : Nat), s.entryOf t tag gen = some (c, x) ∧ x.st = .sent ∧ (if x.parked then x.probe else some (Nat.max x.first x.heard)) = some a ∧ s.now < a + (s.die c.die).final) ∧
    (∃ (s : State) (t : ThrId) (tag : Nat) (gen : BitVec 4) (c : Core) (x : Ticket) (u : State), s.entryOf t tag gen = some (c, x) ∧ x.st = .sent ∧ x.parked = true ∧ x.probe = none ∧ x.heard + us 1000 ≤ s.now ∧ (u = (s.setCore (c.setTicket tag fun y => { y with probe := some s.now, sent := s.now, tries := 0 })).route c.die { x.req with kind := kProbe, retx := false, payload := [], len := 0 })) ∧
    (∃ (s : State) (t : ThrId) (tag : Nat) (gen : BitVec 4) (c : Core) (x : Ticket), s.entryOf t tag gen = some (c, x) ∧ x.st = .sent ∧ x.parked = true ∧ x.probe = none ∧ s.now < x.heard + us 1000) ∧
    (∃ (s : State) (t : ThrId) (tag : Nat) (gen : BitVec 4) (c : Core) (x : Ticket) (a : Nat), s.entryOf t tag gen = some (c, x) ∧ x.st = .sent ∧ x.parked = true ∧ x.probe = some a ∧ ((s.now - a) % us 1000 = 0 ∧ a < s.now)) ∧
    (∃ (s : State) (t : ThrId) (tag : Nat) (gen : BitVec 4) (c : Core) (x : Ticket) (a : Nat) (u : State), s.entryOf t tag gen = some (c, x) ∧ x.st = .sent ∧ x.parked = true ∧ x.probe = some a ∧ (¬((s.now - a) % us 1000 = 0 ∧ a < s.now)) ∧ (x.tries < 3 ∧ x.sent + resendAfter ≤ s.now) ∧ (u = (s.setCore (c.setTicket tag fun y => { y with sent := s.now, tries := y.tries + 1 })).route c.die { x.req with kind := kProbe, retx := true, payload := [], len := 0 })) ∧
    (∃ (s : State) (t : ThrId) (tag : Nat) (gen : BitVec 4) (c : Core) (x : Ticket), (¬(queueTag ≤ tag ∧ tag < queueTag + 8)) ∧ s.entryOf t tag gen = some (c, x) ∧ x.st = .sent ∧ x.parked = false ∧ x.backoff ≠ 0 ∧ x.sent ≤ x.heard ∧ x.heard + us x.backoff ≤ s.now) ∧
    (∃ (s : State) (t : ThrId) (tag : Nat) (gen : BitVec 4), (¬(queueTag ≤ tag ∧ tag < queueTag + 8)) ∧ s.entryOf t tag gen = none) ∧
    (∃ (s : State) (t : ThrId) (tag : Nat) (gen : BitVec 4) (c : Core) (x : Ticket), s.coreOf? t.launch t.team = some c ∧ (c.tickets.find? (fun x => decide (x.tag = tag) && x.gen == gen && (x.st == .ticketed || x.st == .shadow) && decide (x.heard + (s.die c.die).tklim ≤ s.now)) = some x)) ∧
    (∃ (s : State) (t : ThrId) (tag : Nat) (gen : BitVec 4) (c : Core), s.coreOf? t.launch t.team = some c ∧ (c.tickets.find? (fun x => decide (x.tag = tag) && x.gen == gen && (x.st == .ticketed || x.st == .shadow) && decide (x.heard + (s.die c.die).tklim ≤ s.now)) = none)) ∧
    (∃ (s : State) (t : ThrId) (tag : Nat) (gen : BitVec 4), s.coreOf? t.launch t.team = none ∧ (((s.launch? t.launch).bind fun l => l.saved.find? fun v => decide (v.team = t.team) && v.image.tickets.any fun x => decide (x.tag = tag) && x.gen == gen && (x.st == .ticketed || x.st == .shadow) && decide (x.heard + (s.die v.image.die).tklim ≤ s.now)) = none)) ∧
    (∃ (s : State) (t : ThrId) (tag : Nat) (gen : BitVec 4) (v : Saved) (c : Core) (k : Core), s.coreOf? t.launch t.team = none ∧ (((s.launch? t.launch).bind fun l => l.saved.find? fun v => decide (v.team = t.team) && v.image.tickets.any fun x => decide (x.tag = tag) && x.gen == gen && (x.st == .ticketed || x.st == .shadow) && decide (x.heard + (s.die v.image.die).tklim ≤ s.now)) = some v) ∧ c = Core.failTicket 17 tag 2 0 v.image ∧ (k = { c with tickets := c.tickets.map fun x => if x.st = .failed then { x with ff := none } else x })) ∧
    (∃ (s : State) (p : Packet) (c : Core) (t : Ticket), (s.cores.findSome? (fun c => (c.tickets.find? (fun t => (t.st == .ticketed || t.st == .shadow) && decide (t.ticket = p.aux.toNat) && t.endp == p.src)).map fun t => (c, t)) = some (c, t)) ∧ p.status ≠ stOk) ∧
    (∃ (s : State) (p : Packet) (c : Core) (t : Ticket), (s.cores.findSome? (fun c => (c.tickets.find? (fun t => (t.st == .ticketed || t.st == .shadow) && decide (t.ticket = p.aux.toNat) && t.endp == p.src)).map fun t => (c, t)) = some (c, t)) ∧ p.status = stOk) ∧
    (∃ (s : State) (p : Packet) (c : Core) (t : Ticket), (s.cores.findSome? (fun c => (c.tickets.find? (fun t => (t.st == .ticketed || t.st == .shadow) && decide (t.ticket = p.aux.toNat) && t.endp == p.src)).map fun t => (c, t)) = none) ∧ (((s.dies.toList.flatMap (·.launches)).flatMap fun l => l.saved.map fun v => v.image).findSome? (fun c => (c.tickets.find? (fun t => (t.st == .ticketed || t.st == .shadow) && decide (t.ticket = p.aux.toNat) && t.endp == p.src)).map fun t => (c, t)) = some (c, t))) ∧
    (∃ (s : State) (p : Packet), (s.cores.findSome? (fun c => (c.tickets.find? (fun t => (t.st == .ticketed || t.st == .shadow) && decide (t.ticket = p.aux.toNat) && t.endp == p.src)).map fun t => (c, t)) = none) ∧ (((s.dies.toList.flatMap (·.launches)).flatMap fun l => l.saved.map fun v => v.image).findSome? (fun c => (c.tickets.find? (fun t => (t.st == .ticketed || t.st == .shadow) && decide (t.ticket = p.aux.toNat) && t.endp == p.src)).map fun t => (c, t)) = none)) ∧
    (∃ (s : State) (t : ThrId) (v : W64) (c : Core) (a : Nat) (md : BitVec 2) (st : Bool) (x : W64) (f : Finish), s.coreOf? t.launch t.team = some c ∧ (c.thr.get (Fin.ofNat 8 t.thr)).run = .parked (.feLocal a md st x) f) ∧
    (∃ (s : State) (t : ThrId) (v : W64) (c : Core) (a : Nat) (f : Finish), s.coreOf? t.launch t.team = some c ∧ (c.thr.get (Fin.ofNat 8 t.thr)).run = .parked (.fePort a) f) ∧
    (∃ (s : State) (t : ThrId) (v : W64), s.coreOf? t.launch t.team = none) :=
  ⟨⟨(STick tick), (⟨0, 0, 0⟩), 6, 0, by decide +kernel⟩,
   ⟨(STick tick), (⟨0, 0, 0⟩), 6, 0, by decide +kernel⟩,
   ⟨(STick tick), (⟨0, 0, 0⟩), 6, 0, by decide +kernel⟩,
   ⟨{ (STick tick) with now := resendAfter }, (⟨0, 0, 0⟩), 5, 0, _, _, some_spec2 (d := (core0, { idx := 0, tag := 5, gen := 0, thr := 0, req := {}, d := 9, e := 0, pc := capMem, ins := 0 })) (by decide +kernel), by decide +kernel, by decide +kernel, by decide +kernel, by decide +kernel, by decide +kernel, by decide +kernel⟩,
   ⟨{ (STick tick) with now := resendAfter - 1 }, (⟨0, 0, 0⟩), 5, 0, _, _, some_spec2 (d := (core0, { idx := 0, tag := 5, gen := 0, thr := 0, req := {}, d := 9, e := 0, pc := capMem, ins := 0 })) (by decide +kernel), by decide +kernel⟩,
   ⟨{ (STick tick) with now := (S.die 0).final }, (⟨0, 0, 0⟩), 5, 0, _, _, _, some_spec2 (d := (core0, { idx := 0, tag := 5, gen := 0, thr := 0, req := {}, d := 9, e := 0, pc := capMem, ins := 0 })) (by decide +kernel), by decide +kernel, some_spec (d := (0)) (by decide +kernel), by decide +kernel⟩,
   ⟨{ (STick tick) with now := (S.die 0).final - 1 }, (⟨0, 0, 0⟩), 5, 0, _, _, _, some_spec2 (d := (core0, { idx := 0, tag := 5, gen := 0, thr := 0, req := {}, d := 9, e := 0, pc := capMem, ins := 0 })) (by decide +kernel), by decide +kernel, some_spec (d := (0)) (by decide +kernel), by decide +kernel⟩,
   ⟨{ (STick { tick with parked := true }) with now := us 1000 }, (⟨0, 0, 0⟩), 5, 0, _, _, _, some_spec2 (d := (core0, { idx := 0, tag := 5, gen := 0, thr := 0, req := {}, d := 9, e := 0, pc := capMem, ins := 0 })) (by decide +kernel), by decide +kernel, by decide +kernel, by decide +kernel, by decide +kernel, rfl⟩,
   ⟨{ (STick { tick with parked := true }) with now := us 1000 - 1 }, (⟨0, 0, 0⟩), 5, 0, _, _, some_spec2 (d := (core0, { idx := 0, tag := 5, gen := 0, thr := 0, req := {}, d := 9, e := 0, pc := capMem, ins := 0 })) (by decide +kernel), by decide +kernel, by decide +kernel, by decide +kernel, by decide +kernel⟩,
   ⟨{ (STick { tick with parked := true, probe := some 0 }) with now := us 1000 }, (⟨0, 0, 0⟩), 5, 0, _, _, 0, some_spec2 (d := (core0, { idx := 0, tag := 5, gen := 0, thr := 0, req := {}, d := 9, e := 0, pc := capMem, ins := 0 })) (by decide +kernel), by decide +kernel, by decide +kernel, by decide +kernel, by decide +kernel⟩,
   ⟨{ (STick { tick with parked := true, probe := some 0 }) with now := resendAfter }, (⟨0, 0, 0⟩), 5, 0, _, _, 0, _, some_spec2 (d := (core0, { idx := 0, tag := 5, gen := 0, thr := 0, req := {}, d := 9, e := 0, pc := capMem, ins := 0 })) (by decide +kernel), by decide +kernel, by decide +kernel, by decide +kernel, by decide +kernel, by decide +kernel, rfl⟩,
   ⟨{ (STick { tick with backoff := 1, heard := 1 }) with now := us 1 + 1 }, (⟨0, 0, 0⟩), 5, 0, _, _, by decide +kernel, some_spec2 (d := (core0, { idx := 0, tag := 5, gen := 0, thr := 0, req := {}, d := 9, e := 0, pc := capMem, ins := 0 })) (by decide +kernel), by decide +kernel, by decide +kernel, by decide +kernel, by decide +kernel, by decide +kernel⟩,
   ⟨(STick tick), (⟨0, 0, 0⟩), 6, 0, by decide +kernel, by decide +kernel⟩,
   ⟨{ (STick { tick with st := .ticketed }) with now := (S.die 0).tklim }, (⟨0, 0, 0⟩), 5, 0, _, _, some_spec (d := (core0)) (by decide +kernel), some_spec (d := ({ idx := 0, tag := 5, gen := 0, thr := 0, req := {}, d := 9, e := 0, pc := capMem, ins := 0 })) (by decide +kernel)⟩,
   ⟨{ (STick { tick with st := .sent }) with now := (S.die 0).tklim }, (⟨0, 0, 0⟩), 5, 0, _, some_spec (d := (core0)) (by decide +kernel), by decide +kernel⟩,
   ⟨S, (⟨1, 0, 0⟩), 5, 0, by decide +kernel, by decide +kernel⟩,
   ⟨{ (SSaved fun c => { c with tickets := [{ tick with st := .ticketed }] }) with now := (S.die 0).tklim }, (⟨0, 1, 0⟩), 5, 0, _, _, _, by decide +kernel, some_spec (d := ({ team := 0, slot := 0, image := core0 })) (by decide +kernel), rfl, rfl⟩,
   ⟨(STick { tick with st := .ticketed }), { status := stKey }, _, _, some_spec2 (d := (core0, { idx := 0, tag := 5, gen := 0, thr := 0, req := {}, d := 9, e := 0, pc := capMem, ins := 0 })) (by decide +kernel), by decide +kernel⟩,
   ⟨(STick { tick with st := .shadow }), { status := stOk }, _, _, some_spec2 (d := (core0, { idx := 0, tag := 5, gen := 0, thr := 0, req := {}, d := 9, e := 0, pc := capMem, ins := 0 })) (by decide +kernel), by decide +kernel⟩,
   ⟨(SSaved fun c => { c with tickets := [{ tick with st := .ticketed }] }), {}, _, _, by decide +kernel, some_spec2 (d := (core0, { idx := 0, tag := 5, gen := 0, thr := 0, req := {}, d := 9, e := 0, pc := capMem, ins := 0 })) (by decide +kernel)⟩,
   ⟨S, {}, by decide +kernel, by decide +kernel⟩,
   ⟨(SParked (.feLocal 0x100 1 false 0)), (⟨0, 0, 0⟩), 0, _, 0x100, 1, false, 0, {}, some_spec (d := (core0)) (by decide +kernel), by decide +kernel⟩,
   ⟨(SParked (.fePort 0x100)), (⟨0, 0, 0⟩), 0, _, 0x100, {}, some_spec (d := (core0)) (by decide +kernel), by decide +kernel⟩,
   ⟨S, (⟨1, 0, 0⟩), 0, by decide +kernel⟩⟩

/-- Hypotheses of `Obligations.RequesterTimersAndNotices`. -/
theorem wit_RequesterTimersAndNotices_2 :
    (∃ (s : State) (p : Packet) (w : Nat) (md : BitVec 16), w = (p.payload.headD 0).toNat ∧ md = (p.payload.getD 1 0).setWidth 16 ∧ forDispatcher p = true) ∧
    (∃ (s : State) (p : Packet) (w : Nat) (md : BitVec 16) (t : ThrId), w = (p.payload.headD 0).toNat ∧ md = (p.payload.getD 1 0).setWidth 16 ∧ forDispatcher p = false ∧ ownModule s md = true ∧ s.versionWaiter p (bitsN w 31 0) (bitsN w 63 48) (bitsN w 34 32) = some (t, false)) ∧
    (∃ (s : State) (p : Packet) (w : Nat) (md : BitVec 16) (t : ThrId), w = (p.payload.headD 0).toNat ∧ md = (p.payload.getD 1 0).setWidth 16 ∧ forDispatcher p = false ∧ ownModule s md = true ∧ s.versionWaiter p (bitsN w 31 0) (bitsN w 63 48) (bitsN w 34 32) = some (t, true)) ∧
    (∃ (s : State) (p : Packet) (w : Nat) (md : BitVec 16), w = (p.payload.headD 0).toNat ∧ md = (p.payload.getD 1 0).setWidth 16 ∧ forDispatcher p = false ∧ ownModule s md = true ∧ s.versionWaiter p (bitsN w 31 0) (bitsN w 63 48) (bitsN w 34 32) = none) ∧
    (∃ (s : State) (p : Packet) (w : Nat) (md : BitVec 16) (t : ThrId) (q : Packet), w = (p.payload.headD 0).toNat ∧ md = (p.payload.getD 1 0).setWidth 16 ∧ forDispatcher p = false ∧ ownModule s md = false ∧ ((s.tileWaiter (fun q => decide (tileNameOf q = bitsN w 31 0 ∧ tileVerOf q = bitsN w 63 48) && q.dst.extractLsb' 16 16 == md && q.size == p.size) p (bitsN w 34 32) = some (t, q, false)))) ∧
    (∃ (s : State) (p : Packet) (w : Nat) (md : BitVec 16) (t : ThrId) (q : Packet), w = (p.payload.headD 0).toNat ∧ md = (p.payload.getD 1 0).setWidth 16 ∧ forDispatcher p = false ∧ ownModule s md = false ∧ ((s.tileWaiter (fun q => decide (tileNameOf q = bitsN w 31 0 ∧ tileVerOf q = bitsN w 63 48) && q.dst.extractLsb' 16 16 == md && q.size == p.size) p (bitsN w 34 32) = some (t, q, true)))) ∧
    (∃ (s : State) (p : Packet) (w : Nat) (md : BitVec 16), w = (p.payload.headD 0).toNat ∧ md = (p.payload.getD 1 0).setWidth 16 ∧ forDispatcher p = false ∧ ownModule s md = false ∧ ((s.tileWaiter (fun q => decide (tileNameOf q = bitsN w 31 0 ∧ tileVerOf q = bitsN w 63 48) && q.dst.extractLsb' 16 16 == md && q.size == p.size) p (bitsN w 34 32) = none))) ∧
    (∃ (s : State) (p : Packet) (d : Nat) (gw : Nat) (r : Region), checkGw p.rkey = (d, gw) ∧ r = (s.die d).region gw (p.rkey.toNat / 2 ^ 20) ∧ ((r.v = false ∨ r.gen ≠ p.rkey.setWidth 20 ∨ s.windowKey p.rkey = false ∨ r.perm.getLsbD 1 = false ∨ r.length.toNat ≤ p.addr.toNat))) ∧
    (∃ (s : State) (p : Packet) (d : Nat) (gw : Nat) (r : Region) (t : ThrId) (c : Core), checkGw p.rkey = (d, gw) ∧ r = (s.die d).region gw (p.rkey.toNat / 2 ^ 20) ∧ (¬(r.v = false ∨ r.gen ≠ p.rkey.setWidth 20 ∨ s.windowKey p.rkey = false ∨ r.perm.getLsbD 1 = false ∨ r.length.toNat ≤ p.addr.toNat)) ∧ t = ⟨windowLaunch s p.rkey, p.addr.toNat / 0x40000, p.aux.toNat % 8⟩ ∧ s.coreOf? t.launch t.team = some c) :=
  ⟨⟨S, { tag := 1022, payload := [1 + 2 ^ 48] }, _, _, rfl, rfl, by decide +kernel⟩,
   ⟨(SParked (.version 1 1 .wait 0 none)), { payload := [1 + 2 ^ 48, 0xFFFF] }, _, _, _, rfl, rfl, by decide +kernel, by decide +kernel, some2r (d := (⟨0, 0, 0⟩, false)) (by decide +kernel) (by decide +kernel)⟩,
   ⟨(savedRun (.parked (.version 1 1 .wait 0 none) {})), { payload := [1 + 2 ^ 48, 0xFFFF] }, _, _, _, rfl, rfl, by decide +kernel, by decide +kernel, some2r (d := (⟨0, 0, 0⟩, true)) (by decide +kernel) (by decide +kernel)⟩,
   ⟨S, { payload := [1 + 2 ^ 48, 0xFFFF] }, _, _, rfl, rfl, by decide +kernel, by decide +kernel, by decide +kernel⟩,
   ⟨(SParked (.remoteTile { addr := 1 + 2 ^ 32, dst := 5 * 65536 } .sent 0 none)), { payload := [1 + 2 ^ 48, 5] }, _, _, _, _, rfl, rfl, by decide +kernel, by decide +kernel, some3r (d := (⟨0, 0, 0⟩, {}, false)) (by decide +kernel) (by decide +kernel)⟩,
   ⟨(savedRun (.parked (.remoteTile { addr := 1 + 2 ^ 32, dst := 5 * 65536 } .sent 0 none) {})), { payload := [1 + 2 ^ 48, 5] }, _, _, _, _, rfl, rfl, by decide +kernel, by decide +kernel, some3r (d := (⟨0, 0, 0⟩, {}, true)) (by decide +kernel) (by decide +kernel)⟩,
   ⟨S, { payload := [1 + 2 ^ 48, 5] }, _, _, rfl, rfl, by decide +kernel, by decide +kernel, by decide +kernel⟩,
   ⟨S, {}, 0, 3, _, by decide +kernel, rfl, by decide +kernel⟩,
   ⟨(S.setDie 0 fun d => { d.putRegion 3 0 { v := true, length := 0x1000, perm := 0x1F } with launches := [launch0] }), {}, 0, 3, _, _, _, by decide +kernel, rfl, by decide +kernel, rfl, some_spec (d := (core0)) (by decide +kernel)⟩⟩

/-- An armed launch slot of context 0, and the launch of core 0 in a phase. -/
def SSlot (s : State) : State := { s with mstat := 1, armed := [(0, 256)], hctx := s.hctx.set 0 1 }
def SLaunch (l : Launch) (s : State := S) : State := s.setDie 0 fun d => { d with quadMap := [0], launches := [l] }
def SQueue (b : QBind) : State := SLaunch launch0 (onThread fun t => t.setQ 0 fun y => { y with bind := b })

/-- Hypotheses of `Obligations.LaunchEvents`. -/
theorem wit_LaunchEvents :
    (∃ (s : State) (c : BitVec 6) (n : Nat) (a : Nat), ((s.ready = false ∨ s.armed.find? (fun x => x.1 == c) ≠ some (c, n)))) ∧
    (∃ (s : State) (c : BitVec 6) (n : Nat) (a : Nat), a = placeNow s (s.slotAddr c n) ∧ s.ready = true ∧ (s.armed.find? (fun x => x.1 == c) = some (c, n)) ∧ s.fullAt a = false) ∧
    (∃ (s : State) (c : BitVec 6) (n : Nat) (a : Nat) (b : Nat) (r : LRec), a = placeNow s (s.slotAddr c n) ∧ s.ready = true ∧ (s.armed.find? (fun x => x.1 == c) = some (c, n)) ∧ s.fullAt a = true ∧ r = LRec.of (s.readPa a 256 ((s.hctx.get c.toFin).extractLsb' 11 10)) ∧ s.slotPoison a = some b) ∧
    (∃ (s : State) (c : BitVec 6) (n : Nat) (a : Nat) (r : LRec), a = placeNow s (s.slotAddr c n) ∧ s.ready = true ∧ (s.armed.find? (fun x => x.1 == c) = some (c, n)) ∧ s.fullAt a = true ∧ r = LRec.of (s.readPa a 256 ((s.hctx.get c.toFin).extractLsb' 11 10)) ∧ s.slotPoison a = none ∧ s.launchRoom (homeDie a) r = false) ∧
    (∃ (s : State) (c : BitVec 6) (n : Nat) (a : Nat) (r : LRec) (t : State) (d : CtxDesc) (k : Nat), a = placeNow s (s.slotAddr c n) ∧ s.ready = true ∧ (s.armed.find? (fun x => x.1 == c) = some (c, n)) ∧ s.fullAt a = true ∧ r = LRec.of (s.readPa a 256 ((s.hctx.get c.toFin).extractLsb' 11 10)) ∧ s.slotPoison a = none ∧ s.launchRoom (homeDie a) r = true ∧ t = s.emptySlot c n ∧ d = t.ctxDesc c ∧ k = t.launchCode (homeDie a) d r ∧ k ≠ 0) ∧
    (∃ (s : State) (c : BitVec 6) (n : Nat) (a : Nat) (r : LRec) (t : State) (d : CtxDesc) (k : Nat), a = placeNow s (s.slotAddr c n) ∧ s.ready = true ∧ (s.armed.find? (fun x => x.1 == c) = some (c, n)) ∧ s.fullAt a = true ∧ r = LRec.of (s.readPa a 256 ((s.hctx.get c.toFin).extractLsb' 11 10)) ∧ s.slotPoison a = none ∧ s.launchRoom (homeDie a) r = true ∧ t = s.emptySlot c n ∧ d = t.ctxDesc c ∧ k = t.launchCode (homeDie a) d r ∧ k = 0) ∧
    (∃ (s : State) (l : BitVec 16), s.launch? l = none) ∧
    (∃ (s : State) (l : BitVec 16) (x : Launch), s.launch? l = some x ∧ x.phase = .gated ∧ x.ending = false ∧ 1 < x.gatesLeft) ∧
    (∃ (s : State) (l : BitVec 16) (x : Launch), s.launch? l = some x ∧ x.phase = .gated ∧ x.ending = false ∧ x.gatesLeft ≤ 1) ∧
    (∃ (s : State) (d : Nat) (p : Nat), ((s.core? p).isSome ∨ ((s.die d).activeCores d).contains p = false ∨ (s.cands p).isEmpty)) ∧
    (∃ (s : State) (d : Nat) (p : Nat), (¬((s.core? p).isSome ∨ ((s.die d).activeCores d).contains p = false ∨ (s.cands p).isEmpty))) ∧
    (∃ (s : State) (l : BitVec 16) (p : Nat), s.launch? l = none) ∧
    (∃ (s : State) (l : BitVec 16) (p : Nat) (x : Launch), s.launch? l = some x ∧ x.reserved.contains p = false) ∧
    (∃ (s : State) (l : BitVec 16) (p : Nat) (x : Launch), s.launch? l = some x ∧ x.reserved.contains p = true ∧ (x.phase ≠ .dispatching ∨ x.ending = true)) ∧
    (∃ (s : State) (l : BitVec 16) (p : Nat) (x : Launch), s.launch? l = some x ∧ x.reserved.contains p = true ∧ x.phase = .dispatching ∧ x.ending = false ∧ (s.permitted x.lrec).contains p = false) ∧
    (∃ (s : State) (l : BitVec 16) (p : Nat) (x : Launch), s.launch? l = some x ∧ x.reserved.contains p = true ∧ x.phase = .dispatching ∧ x.ending = false ∧ (s.permitted x.lrec).contains p = true ∧ x.lrec.cores = true) ∧
    (∃ (s : State) (l : BitVec 16) (p : Nat) (x : Launch) (t : State), s.launch? l = some x ∧ x.reserved.contains p = true ∧ x.phase = .dispatching ∧ x.ending = false ∧ (s.permitted x.lrec).contains p = true ∧ x.lrec.cores = false ∧ s.bindNext x p = some t) ∧
    (∃ (s : State) (l : BitVec 16) (p : Nat) (x : Launch), s.launch? l = some x ∧ x.reserved.contains p = true ∧ x.phase = .dispatching ∧ x.ending = false ∧ (s.permitted x.lrec).contains p = true ∧ x.lrec.cores = false ∧ s.bindNext x p = none) ∧
    (∃ (s : State) (l : BitVec 16) (x : Launch), s.launch? l = some x) ∧
    (∃ (s : State) (l : BitVec 16), s.launch? l = none) :=
  ⟨⟨(SSlot S), 0, 1, 0, by decide +kernel⟩,
   ⟨{ SSlot S with mem := { S.mem with empty := [0x2000] } }, 0, 256, _, rfl, by decide +kernel, by decide +kernel, by decide +kernel⟩,
   ⟨{ SSlot S with mem := { S.mem with poison := [0x403] } }, 0, 256, _, 0x100C0, _, rfl, by decide +kernel, by decide +kernel, by decide +kernel, rfl, by decide +kernel⟩,
   ⟨(SSlot (S.setDie 0 fun d => { d with launches := List.replicate 256 launch0 })), 0, 256, _, _, rfl, by decide +kernel, by decide +kernel, by decide +kernel, rfl, by decide +kernel, by decide +kernel⟩,
   ⟨(SSlot S), 0, 256, _, _, _, _, _, rfl, by decide +kernel, by decide +kernel, by decide +kernel, rfl, by decide +kernel, by decide +kernel, rfl, rfl, rfl, by decide +kernel⟩,
   ⟨(SSlot SRec), 0, 256, _, _, _, _, _, rfl, by decide +kernel, by decide +kernel, by decide +kernel, rfl, by decide +kernel, by decide +kernel, rfl, rfl, rfl, by decide +kernel⟩,
   ⟨S, 1, by decide +kernel⟩,
   ⟨(SLaunch { launch0 with phase := .gated, gatesLeft := 2 }), 0, _, some_spec (d := (launch0)) (by decide +kernel), by decide +kernel, by decide +kernel, by decide +kernel⟩,
   ⟨(SLaunch { launch0 with phase := .gated, gatesLeft := 1 }), 0, _, some_spec (d := (launch0)) (by decide +kernel), by decide +kernel, by decide +kernel, by decide +kernel⟩,
   ⟨S, 0, 0, by decide +kernel⟩,
   ⟨(SLaunch { launch0 with phase := .dispatching }), 0, 1, by decide +kernel⟩,
   ⟨S, 1, 0, by decide +kernel⟩,
   ⟨(SLaunch launch0), 0, 1, _, some_spec (d := (launch0)) (by decide +kernel), by decide +kernel⟩,
   ⟨(SLaunch { launch0 with reserved := [1], phase := .running }), 0, 1, _, some_spec (d := (launch0)) (by decide +kernel), by decide +kernel, by decide +kernel⟩,
   ⟨(SLaunch { launch0 with reserved := [1], phase := .dispatching, lrec := { diemask := 0 } }), 0, 1, _, some_spec (d := (launch0)) (by decide +kernel), by decide +kernel, by decide +kernel, by decide +kernel, by decide +kernel⟩,
   ⟨(SLaunch { launch0 with reserved := [1], phase := .dispatching, lrec := { cores := true } }), 0, 1, _, some_spec (d := (launch0)) (by decide +kernel), by decide +kernel, by decide +kernel, by decide +kernel, by decide +kernel, by decide +kernel⟩,
   ⟨(SLaunch { launch0 with reserved := [1], phase := .dispatching }), 0, 1, _, _, some_spec (d := (launch0)) (by decide +kernel), by decide +kernel, by decide +kernel, by decide +kernel, by decide +kernel, by decide +kernel, some_spec (d := (S)) (by decide +kernel)⟩,
   ⟨(SLaunch { launch0 with reserved := [1], phase := .dispatching, next := 2 }), 0, 1, _, some_spec (d := (launch0)) (by decide +kernel), by decide +kernel, by decide +kernel, by decide +kernel, by decide +kernel, by decide +kernel, by decide +kernel⟩,
   ⟨(SLaunch { launch0 with reserved := [1], phase := .running }), 0, _, some_spec (d := (launch0)) (by decide +kernel)⟩,
   ⟨S, 1, by decide +kernel⟩⟩

/-- Hypotheses of `Obligations.TeamEvents`. -/
theorem wit_TeamEvents_1 :
    (∃ (s : State) (k : Nat), s.core? k = none) ∧
    (∃ (s : State) (k : Nat) (c : Core), s.core? k = some c ∧ c.stopping = false) ∧
    (∃ (s : State) (k : Nat) (c : Core), s.core? k = some c ∧ c.stopping = true ∧ c.exiting = true) ∧
    (∃ (s : State) (k : Nat) (c : Core) (n : Nat) (a : Nat) (ms : List (BitVec 16)), s.core? k = some c ∧ c.stopping = true ∧ c.exiting = false ∧ c.saveSlot = some (n, ms, a)) ∧
    (∃ (s : State) (k : Nat) (c : Core), s.core? k = some c ∧ c.stopping = true ∧ c.exiting = false ∧ c.saveSlot = none ∧ s.quiet c = false) ∧
    (∃ (s : State) (k : Nat) (c : Core), s.core? k = some c ∧ c.stopping = true ∧ c.exiting = false ∧ c.saveSlot = none ∧ s.quiet c = true ∧ ((List.range c.desc.saven).find? (fun n => !(s.slotsUsed c.ctx).contains n) = none)) ∧
    (∃ (s : State) (k : Nat) (c : Core) (n : Nat) (u : State), s.core? k = some c ∧ c.stopping = true ∧ c.exiting = false ∧ c.saveSlot = none ∧ s.quiet c = true ∧ ((List.range c.desc.saven).find? (fun n => !(s.slotsUsed c.ctx).contains n) = some n) ∧ (s.emptyLog c (fun n s => s.saveLater ((s.core? k).getD c) n) = (u, false))) ∧
    (∃ (s : State) (k : Nat) (c : Core) (n : Nat) (u : State) (d : Core), s.core? k = some c ∧ c.stopping = true ∧ c.exiting = false ∧ c.saveSlot = none ∧ s.quiet c = true ∧ ((List.range c.desc.saven).find? (fun n => !(s.slotsUsed c.ctx).contains n) = some n) ∧ (s.emptyLog c (fun n s => s.saveLater ((s.core? k).getD c) n) = (u, true)) ∧ d = (u.core? k).getD c ∧ u.lineWaits d = true) ∧
    (∃ (s : State) (k : Nat) (c : Core) (n : Nat) (u : State) (v : State) (d : Core), s.core? k = some c ∧ c.stopping = true ∧ c.exiting = false ∧ c.saveSlot = none ∧ s.quiet c = true ∧ ((List.range c.desc.saven).find? (fun n => !(s.slotsUsed c.ctx).contains n) = some n) ∧ (s.emptyLog c (fun n s => s.saveLater ((s.core? k).getD c) n) = (u, true)) ∧ d = (u.core? k).getD c ∧ u.lineWaits d = false ∧ (v = (u.l1Clean d.quadId (fun _ => true) false).tenuresClean d)) ∧
    (∃ (s : State) (c : Core) (n : Nat) (a : Nat) (ms : List (BitVec 16)), ((ms = [] ∨ a + (s.die c.die).final ≤ s.now))) ∧
    (∃ (s : State) (c : Core) (d : Core) (n : Nat) (u : State), c.holders s = [] ∧ u = s.repoint { old := endpointOf s c.id, new := s.zenith (launchHome c.launch), ctx := c.ctx, slot := BitVec.ofNat 16 n, save := true } ∧ d = (u.core? c.id).getD c) ∧
    (∃ (s : State) (l : BitVec 16) (t : Nat) (k : Nat), ((s.launch? l).bind (fun x => x.saved.find? fun y => decide (y.team = t) && y.core == some k) = none)) ∧
    (∃ (s : State) (l : BitVec 16) (t : Nat) (k : Nat) (y : Saved) (ms : List (BitVec 16)), ((s.launch? l).bind (fun x => x.saved.find? fun y => decide (y.team = t) && y.core == some k) = some y) ∧ ms = y.asked.getD (y.image.holders s) ∧ ((s.die (k / 1024)).activeCores (k / 1024)).contains k = false) ∧
    (∃ (s : State) (l : BitVec 16) (t : Nat) (k : Nat) (y : Saved) (ms : List (BitVec 16)), ((s.launch? l).bind (fun x => x.saved.find? fun y => decide (y.team = t) && y.core == some k) = some y) ∧ ms = y.asked.getD (y.image.holders s) ∧ ((s.die (k / 1024)).activeCores (k / 1024)).contains k = true ∧ ms ≠ []) ∧
    (∃ (s : State) (l : BitVec 16) (t : Nat) (k : Nat) (y : Saved) (ms : List (BitVec 16)) (m : Memory), ((s.launch? l).bind (fun x => x.saved.find? fun y => decide (y.team = t) && y.core == some k) = some y) ∧ ms = y.asked.getD (y.image.holders s) ∧ ((s.die (k / 1024)).activeCores (k / 1024)).contains k = true ∧ ms = [] ∧ s.slotMemory y = some m) ∧
    (∃ (s : State) (l : BitVec 16) (t : Nat) (k : Nat) (y : Saved) (ms : List (BitVec 16)), ((s.launch? l).bind (fun x => x.saved.find? fun y => decide (y.team = t) && y.core == some k) = some y) ∧ ms = y.asked.getD (y.image.holders s) ∧ ((s.die (k / 1024)).activeCores (k / 1024)).contains k = true ∧ ms = [] ∧ s.slotMemory y = none) ∧
    (∃ (s : State) (k : Nat), s.core? k = none) ∧
    (∃ (s : State) (k : Nat) (c : Core), s.core? k = some c ∧ c.allHalted = false) ∧
    (∃ (s : State) (k : Nat) (c : Core) (x : Core), s.core? k = some c ∧ c.allHalted = true ∧ x = { c with exiting := true, stopping := false } ∧ (c.lrec.calls && ((c.thr.get 7).run != .call || !c.calls.isEmpty)) = true) ∧
    (∃ (s : State) (k : Nat) (c : Core) (x : Core), s.core? k = some c ∧ c.allHalted = true ∧ x = { c with exiting := true, stopping := false } ∧ (c.lrec.calls && ((c.thr.get 7).run != .call || !c.calls.isEmpty)) = false ∧ c.enginesIdle = false) ∧
    (∃ (s : State) (k : Nat) (c : Core) (x : Core) (u : State), s.core? k = some c ∧ c.allHalted = true ∧ x = { c with exiting := true, stopping := false } ∧ (c.lrec.calls && ((c.thr.get 7).run != .call || !c.calls.isEmpty)) = false ∧ c.enginesIdle = true ∧ ((s.setCore x).emptyLog x (fun n s => s.after n (.teamExit k)) = (u, false))) ∧
    (∃ (s : State) (k : Nat) (c : Core) (x : Core) (y : Core) (u : State), s.core? k = some c ∧ c.allHalted = true ∧ x = { c with exiting := true, stopping := false } ∧ (c.lrec.calls && ((c.thr.get 7).run != .call || !c.calls.isEmpty)) = false ∧ c.enginesIdle = true ∧ ((s.setCore x).emptyLog x (fun n s => s.after n (.teamExit k)) = (u, true)) ∧ y = (u.core? k).getD x ∧ u.lineWaits y = true) ∧
    (∃ (s : State) (k : Nat) (c : Core) (x : Core) (y : Core) (u : State), s.core? k = some c ∧ c.allHalted = true ∧ x = { c with exiting := true, stopping := false } ∧ (c.lrec.calls && ((c.thr.get 7).run != .call || !c.calls.isEmpty)) = false ∧ c.enginesIdle = true ∧ ((s.setCore x).emptyLog x (fun n s => s.after n (.teamExit k)) = (u, true)) ∧ y = (u.core? k).getD x ∧ u.lineWaits y = false) ∧
    (∃ (s : State) (l : BitVec 16) (t : Nat) (v : Option W64), s.launch? l = none) :=
  ⟨⟨S, 1, by decide +kernel⟩,
   ⟨S, 0, _, some_spec (d := (core0)) (by decide +kernel), by decide +kernel⟩,
   ⟨(onCore fun c => { c with stopping := true, exiting := true }), 0, _, some_spec (d := (core0)) (by decide +kernel), by decide +kernel, by decide +kernel⟩,
   ⟨(onCore fun c => { c with stopping := true, saveSlot := some (0, [5], 0) }), 0, _, _, _, _, some_spec (d := (core0)) (by decide +kernel), by decide +kernel, by decide +kernel, some_spec3 (d := (0, [], 0)) (by decide +kernel)⟩,
   ⟨(onCore fun c => { c with stopping := true, tickets := [{ idx := 0, tag := 5, gen := 0, thr := 0, req := {}, d := 9, e := 0, pc := capMem, ins := 0 }] }), 0, _, some_spec (d := (core0)) (by decide +kernel), by decide +kernel, by decide +kernel, by decide +kernel, by decide +kernel⟩,
   ⟨(onCore fun c => { c with stopping := true }), 0, _, some_spec (d := (core0)) (by decide +kernel), by decide +kernel, by decide +kernel, by decide +kernel, by decide +kernel, by decide +kernel⟩,
   ⟨((onCore fun c => { c with stopping := true, desc := { c.desc with saven := 1 }, ranges := [⟨0x30000, 0x30007, 0⟩], logring := 0x10008 }).setDie 0 fun d => { d with l2cfg := BitVec.ofNat 64 (2 ^ 63) }), 0, _, _, _, some_spec (d := (core0)) (by decide +kernel), by decide +kernel, by decide +kernel, by decide +kernel, by decide +kernel, some_spec (d := (0)) (by decide +kernel), tup2r (by decide +kernel)⟩,
   ⟨{ ((onCore fun c => { c with stopping := true, desc := { c.desc with saven := 1 } }).setDie 0 fun d => { d with lull := true }) with quads := [{ id := 0, l1 := [{ ctx := 0, va := 0, pa := 0x10000, data := 0, dirty := 1 }] }] }, 0, _, _, _, _, some_spec (d := (core0)) (by decide +kernel), by decide +kernel, by decide +kernel, by decide +kernel, by decide +kernel, some_spec (d := (0)) (by decide +kernel), tup2r (by decide +kernel), rfl, by decide +kernel⟩,
   ⟨(onCore fun c => { c with stopping := true, desc := { c.desc with saven := 1 } }), 0, _, _, _, _, _, some_spec (d := (core0)) (by decide +kernel), by decide +kernel, by decide +kernel, by decide +kernel, by decide +kernel, some_spec (d := (0)) (by decide +kernel), tup2r (by decide +kernel), rfl, by decide +kernel, rfl⟩,
   ⟨S, core0, 0, 0, [], .inl rfl⟩,
   ⟨S, core0, _, 0, _, by decide +kernel, rfl, rfl⟩,
   ⟨S, 0, 1, 1, by decide +kernel⟩,
   ⟨(S.setDie 0 fun d => { d with launches := [{ launch0 with saved := [{ team := 1, slot := 0, image := core0, core := some 1 }] }] }), 0, 1, 1, _, _, some_spec (d := ({ team := 0, slot := 0, image := core0 })) (by decide +kernel), rfl, by decide +kernel⟩,
   ⟨(SLaunch { launch0 with saved := [{ team := 1, slot := 0, image := core0, core := some 1, asked := some [5] }] }), 0, 1, 1, _, _, some_spec (d := ({ team := 0, slot := 0, image := core0 })) (by decide +kernel), rfl, by decide +kernel, by decide +kernel⟩,
   ⟨(SLaunch { launch0 with saved := [{ team := 1, slot := 0, image := core0, core := some 1 }] }), 0, 1, 1, _, _, _, some_spec (d := ({ team := 0, slot := 0, image := core0 })) (by decide +kernel), rfl, by decide +kernel, by decide +kernel, some_spec (d := ({})) (by decide +kernel)⟩,
   ⟨(SLaunch { launch0 with saved := [{ team := 1, slot := 0, image := core0, core := some 1 }] } { S with mem := { S.mem with poison := [0] } }), 0, 1, 1, _, _, some_spec (d := ({ team := 0, slot := 0, image := core0 })) (by decide +kernel), rfl, by decide +kernel, by decide +kernel, by decide +kernel⟩,
   ⟨S, 1, by decide +kernel⟩,
   ⟨S, 0, _, some_spec (d := (core0)) (by decide +kernel), by decide +kernel⟩,
   ⟨(onCore fun c => { c with thr := c.thr.set 0 { t0 with run := .halted }, lrec := { c.lrec with calls := true, nthr := 1 } }), 0, _, _, some_spec (d := (core0)) (by decide +kernel), by decide +kernel, rfl, by decide +kernel⟩,
   ⟨(onCore fun c => { c with thr := c.thr.set 0 { t0 with run := .halted }, runC := some { op := 0, thr := 0, d := 0, a := capMem, b := capMem, c := Cap.zero, imm := 0, size := 8, fe := false, acq := none, rel := none, logged := false } }), 0, _, _, some_spec (d := (core0)) (by decide +kernel), by decide +kernel, rfl, by decide +kernel, by decide +kernel⟩,
   ⟨((onCore fun c => { c with thr := c.thr.set 0 { t0 with run := .halted }, ranges := [⟨0x30000, 0x30007, 0⟩], logring := 0x10008 }).setDie 0 fun d => { d with l2cfg := BitVec.ofNat 64 (2 ^ 63) }), 0, _, _, _, some_spec (d := (core0)) (by decide +kernel), by decide +kernel, rfl, by decide +kernel, by decide +kernel, tup2r (by decide +kernel)⟩,
   ⟨{ ((onCore fun c => { c with thr := c.thr.set 0 { t0 with run := .halted } }).setDie 0 fun d => { d with lull := true }) with quads := [{ id := 0, l1 := [{ ctx := 0, va := 0, pa := 0x10000, data := 0, dirty := 1 }] }] }, 0, _, _, _, _, some_spec (d := (core0)) (by decide +kernel), by decide +kernel, rfl, by decide +kernel, by decide +kernel, tup2r (by decide +kernel), rfl, by decide +kernel⟩,
   ⟨(onCore fun c => { c with thr := c.thr.set 0 { t0 with run := .halted } }), 0, _, _, _, _, some_spec (d := (core0)) (by decide +kernel), by decide +kernel, rfl, by decide +kernel, by decide +kernel, tup2r (by decide +kernel), rfl, by decide +kernel⟩,
   ⟨S, 1, 0, none, by decide +kernel⟩⟩

/-- Hypotheses of `Obligations.TeamEvents`. -/
theorem wit_TeamEvents_2 :
    (∃ (s : State) (l : BitVec 16) (t : Nat) (v : Option W64) (x : Launch), s.launch? l = some x ∧ (x.phase = .free ∨ x.ending = true)) ∧
    (∃ (s : State) (l : BitVec 16) (t : Nat) (v : W64) (x : Launch), s.launch? l = some x ∧ x.phase ≠ .free ∧ x.ending = false) ∧
    (∃ (s : State) (l : BitVec 16) (t : Nat) (x : Launch), s.launch? l = some x ∧ x.phase ≠ .free ∧ x.ending = false ∧ x.exited.contains t = true) ∧
    (∃ (s : State) (l : BitVec 16) (t : Nat) (x : Launch) (u : State), s.launch? l = some x ∧ x.phase ≠ .free ∧ x.ending = false ∧ x.exited.contains t = false ∧ (u = s.setLaunch l fun x => { x with done := x.done + 1, exited := x.exited ++ [t] }) ∧ x.done + 1 < x.lrec.n) ∧
    (∃ (s : State) (l : BitVec 16) (t : Nat) (x : Launch) (u : State), s.launch? l = some x ∧ x.phase ≠ .free ∧ x.ending = false ∧ x.exited.contains t = false ∧ (u = s.setLaunch l fun x => { x with done := x.done + 1, exited := x.exited ++ [t] }) ∧ x.lrec.n ≤ x.done + 1) ∧
    (∃ (s : State) (l : BitVec 16) (r : BitVec 8) (k : BitVec 8) (t : Nat) (x : Launch), s.launch? l = some x ∧ x.lrec.restart = true ∧ r = 1 ∧ x.phase ≠ .free ∧ x.ending = false) ∧
    (∃ (s : State) (l : BitVec 16) (r : BitVec 8) (k : BitVec 8) (t : Nat) (x : Launch), s.launch? l = some x ∧ (x.lrec.restart = false ∨ r ≠ 1 ∨ x.phase = .free ∨ x.ending = true)) ∧
    (∃ (s : State) (k : Nat) (n : Nat) (pc : W64), (s.die (k / 1024)).sealedCores.contains k = true) ∧
    (∃ (s : State) (k : Nat) (n : Nat) (pc : W64) (t : State) (u : State) (z : Nat) (g : Nat) (p : W64), (s.die (k / 1024)).sealedCores.contains k = false ∧ t = s.coreLoss k n ∧ z = (if 3 ≤ n then 1 else n) ∧ (p = (if z = 1 ∧ pc = 0 then t.sealPc k else if z = 2 then 0 else pc)) ∧ g = ((t.die (k / 1024)).logicalOf (k / 1024) k).getD 0 ∧ (u = t.setDie (k / 1024) fun d => { d with sealedCores := d.sealedCores ++ [k] }) ∧ u.core? k = none) ∧
    (∃ (s : State) (k : Nat) (n : Nat) (pc : W64) (t : State) (u : State) (z : Nat) (g : Nat) (p : W64) (c : Core) (v : State) (w : State), (s.die (k / 1024)).sealedCores.contains k = false ∧ t = s.coreLoss k n ∧ z = (if 3 ≤ n then 1 else n) ∧ (p = (if z = 1 ∧ pc = 0 then t.sealPc k else if z = 2 then 0 else pc)) ∧ g = ((t.die (k / 1024)).logicalOf (k / 1024) k).getD 0 ∧ (u = t.setDie (k / 1024) fun d => { d with sealedCores := d.sealedCores ++ [k] }) ∧ u.core? k = some c ∧ v = u.sealTeam c ∧ w = v.fault (k / 1024) 0x71 z c.ctx.toNat p.toNat (t.sealAux k (!v.runsAgain c)) (c.team + c.launch.toNat * 2 ^ 24)) :=
  ⟨⟨(SLaunch { launch0 with phase := .free }), 0, 0, none, _, some_spec (d := (launch0)) (by decide +kernel), by decide +kernel⟩,
   ⟨SL, 0, 0, 0, _, some_spec (d := (launch0)) (by decide +kernel), by decide +kernel, by decide +kernel⟩,
   ⟨(SLaunch { launch0 with exited := [0] }), 0, 0, _, some_spec (d := (launch0)) (by decide +kernel), by decide +kernel, by decide +kernel, by decide +kernel⟩,
   ⟨SL, 0, 0, _, _, some_spec (d := (launch0)) (by decide +kernel), by decide +kernel, by decide +kernel, by decide +kernel, rfl, by decide +kernel⟩,
   ⟨(SLaunch { launch0 with done := 1 }), 0, 0, _, _, some_spec (d := (launch0)) (by decide +kernel), by decide +kernel, by decide +kernel, by decide +kernel, rfl, by decide +kernel⟩,
   ⟨(SLaunch { launch0 with lrec := { restart := true } }), 0, _, 0, 0, _, some_spec (d := (launch0)) (by decide +kernel), by decide +kernel, rfl, by decide +kernel, by decide +kernel⟩,
   ⟨SL, 0, 1, 0, 0, _, some_spec (d := (launch0)) (by decide +kernel), by decide +kernel⟩,
   ⟨(S.setDie 0 fun d => { d with sealedCores := [0] }), 0, 1, 0, by decide +kernel⟩,
   ⟨S, 1, 3, 0, _, _, _, _, _, by decide +kernel, rfl, rfl, rfl, rfl, rfl, by decide +kernel⟩,
   ⟨SL, 0, 1, 0, _, _, _, _, _, _, _, _, by decide +kernel, rfl, rfl, rfl, rfl, rfl, some_spec (d := (core0)) (by decide +kernel), rfl, rfl⟩⟩

/-- Hypotheses of `Obligations.ThreadQueueAndServiceEvents`. -/
theorem wit_ThreadAndQueueEvents :
    (∃ (s : State) (p : Packet) (t : ThrId) (j : Fin 8), chanTarget s p p.addr.toNat = (t, j) ∧ p.mode = 1) ∧
    (∃ (s : State) (p : Packet) (u : State), p.mode ≠ 1 ∧ s.queueDeliver p = some u) ∧
    (∃ (s : State) (p : Packet), p.mode ≠ 1 ∧ s.queueDeliver p = none) ∧
    (∃ (s : State) (p : Packet) (t : ThrId) (j : Fin 8) (x : Core), chanTarget s p p.addr.toNat = (t, j) ∧ s.coreOf? t.launch t.team = some x ∧ s.windowKey p.rkey = true ∧ boundTo s ((x.thr.get (Fin.ofNat 8 t.thr)).q.get j) p = true ∧ ((p.retx = true ∨ s.refusedOf p = 0))) ∧
    (∃ (s : State) (p : Packet) (t : ThrId) (j : Fin 8), p.mode ≠ 1 ∧ chanTarget s p (p.addr.toNat / 0x40000) = (t, j) ∧ s.windowKey p.rkey = false) ∧
    (∃ (s : State) (p : Packet) (t : ThrId) (j : Fin 8), p.mode ≠ 1 ∧ chanTarget s p (p.addr.toNat / 0x40000) = (t, j) ∧ s.windowKey p.rkey = true ∧ s.launch? t.launch = none) ∧
    (∃ (s : State) (p : Packet) (t : ThrId) (j : Fin 8) (l : Launch), p.mode ≠ 1 ∧ chanTarget s p (p.addr.toNat / 0x40000) = (t, j) ∧ s.windowKey p.rkey = true ∧ s.launch? t.launch = some l ∧ l.lrec.n ≤ p.addr.toNat / 0x40000) ∧
    (∃ (s : State) (p : Packet) (t : ThrId) (j : Fin 8) (l : Launch), p.mode ≠ 1 ∧ chanTarget s p (p.addr.toNat / 0x40000) = (t, j) ∧ s.windowKey p.rkey = true ∧ s.launch? t.launch = some l ∧ p.addr.toNat / 0x40000 < l.lrec.n ∧ l.exited.contains (p.addr.toNat / 0x40000) = true) ∧
    (∃ (s : State) (p : Packet) (t : ThrId) (j : Fin 8) (l : Launch), p.mode ≠ 1 ∧ chanTarget s p (p.addr.toNat / 0x40000) = (t, j) ∧ s.windowKey p.rkey = true ∧ s.launch? t.launch = some l ∧ p.addr.toNat / 0x40000 < l.lrec.n ∧ l.exited.contains (p.addr.toNat / 0x40000) = false ∧ s.thread? t = none) ∧
    (∃ (s : State) (p : Packet) (t : ThrId) (j : Fin 8) (l : Launch) (x : Thread), p.mode ≠ 1 ∧ chanTarget s p (p.addr.toNat / 0x40000) = (t, j) ∧ s.windowKey p.rkey = true ∧ s.launch? t.launch = some l ∧ p.addr.toNat / 0x40000 < l.lrec.n ∧ l.exited.contains (p.addr.toNat / 0x40000) = false ∧ s.thread? t = some x ∧ boundTo s (x.q.get j) p = true) ∧
    (∃ (s : State) (p : Packet) (t : ThrId) (j : Fin 8) (l : Launch) (x : Thread), p.mode ≠ 1 ∧ chanTarget s p (p.addr.toNat / 0x40000) = (t, j) ∧ s.windowKey p.rkey = true ∧ s.launch? t.launch = some l ∧ p.addr.toNat / 0x40000 < l.lrec.n ∧ l.exited.contains (p.addr.toNat / 0x40000) = false ∧ s.thread? t = some x ∧ boundTo s (x.q.get j) p = false) :=
  ⟨⟨SL, { mode := 1 }, _, _, rfl, by decide +kernel⟩,
   ⟨(SQueue (.toTeam capLaunch 0 0 0 true 0 [])), { kind := kQueue, src := 0xFFFF0000, payload := [7, 0] }, _, by decide +kernel, some_spec (d := (S)) (by decide +kernel)⟩,
   ⟨SL, { kind := kQueue, src := 0xFFFF0000, payload := [7, 0] }, by decide +kernel, by decide +kernel⟩,
   ⟨(SQueue (.toTeam capLaunch 0 0 0 true 0 [])), { kind := kQueue, src := 0xFFFF0000, payload := [7, 0] }, _, _, _, rfl, some_spec (d := (core0)) (by decide +kernel), by decide +kernel, by decide +kernel, by decide +kernel⟩,
   ⟨S, { kind := kQueue, src := 0xFFFF0000, payload := [7, 0] }, _, _, by decide +kernel, rfl, by decide +kernel⟩,
   ⟨(SLaunch { launch0 with id := 0x100 }), { kind := kQueue, src := 0xFFFF0000, payload := [7, 0] }, _, _, by decide +kernel, rfl, by decide +kernel, by decide +kernel⟩,
   ⟨SL, { kind := kQueue, addr := 0x80000, src := 0xFFFF0000, payload := [7, 0] }, _, _, _, by decide +kernel, rfl, by decide +kernel, some_spec (d := (launch0)) (by decide +kernel), by decide +kernel⟩,
   ⟨(SLaunch { launch0 with exited := [0] }), { kind := kQueue, src := 0xFFFF0000, payload := [7, 0] }, _, _, _, by decide +kernel, rfl, by decide +kernel, some_spec (d := (launch0)) (by decide +kernel), by decide +kernel, by decide +kernel⟩,
   ⟨SL, { kind := kQueue, addr := 0x40000, src := 0xFFFF0000, payload := [7, 0] }, _, _, _, by decide +kernel, rfl, by decide +kernel, some_spec (d := (launch0)) (by decide +kernel), by decide +kernel, by decide +kernel, by decide +kernel⟩,
   ⟨(SQueue (.toTeam capLaunch 0 0 0 true 0 [])), { kind := kQueue, src := 0xFFFF0000, payload := [7, 0] }, _, _, _, _, by decide +kernel, rfl, by decide +kernel, some_spec (d := (launch0)) (by decide +kernel), by decide +kernel, by decide +kernel, some_spec (d := (t0)) (by decide +kernel), by decide +kernel⟩,
   ⟨SL, { kind := kQueue, src := 0xFFFF0000, payload := [7, 0] }, _, _, _, _, by decide +kernel, rfl, by decide +kernel, some_spec (d := (launch0)) (by decide +kernel), by decide +kernel, by decide +kernel, some_spec (d := (t0)) (by decide +kernel), by decide +kernel⟩⟩

def eng1 : EngCmd :=
  { op := 0, thr := 0, d := 0, a := capMem, b := capMem, c := Cap.zero, imm := 0, size := 8, fe := false, acq := none, rel := none, logged := false }
def cmd1 (op : BitVec 2) (a : Cap) : MatrixCmd :=
  { op := op, fmt := 5, acc := 0, a := a, b := a, desc := 2 ^ 48, rm := 0, launch := 0, team := 0, ctx := 0, core := 0, thr := 0 }
def SQuad (q : Quad) (s : State := S) : State := s.setQuad { s.quad 0 with act := q.act, remq := q.remq, queue := q.queue }
def KRes.kind (r : KRes) : Nat :=
  match r with
  | .more _ => 0
  | .done _ => 1
  | .fault .. => 2
  | .retry _ => 3
  | .waits _ => 4
def KRes.st (r : KRes) : State × BitVec 4 :=
  match r with
  | .more s | .done s | .retry s | .waits s => (s, 0)
  | .fault s x => (s, x)
theorem kdone {r : KRes} (h : KRes.kind r = 1) : r = .done (KRes.st r).1 := by
  cases r <;> first | rfl | cases h
theorem kmore {r : KRes} (h : KRes.kind r = 0) : r = .more (KRes.st r).1 := by
  cases r <;> first | rfl | cases h
theorem kfault {r : KRes} (h : KRes.kind r = 2) : r = .fault (KRes.st r).1 (KRes.st r).2 := by
  cases r <;> first | rfl | cases h
theorem kretry {r : KRes} (h : KRes.kind r = 3) : r = .retry (KRes.st r).1 := by
  cases r <;> first | rfl | cases h
theorem kwaits {r : KRes} (h : KRes.kind r = 4) : r = .waits (KRes.st r).1 := by
  cases r <;> first | rfl | cases h
def MxAnswer.why (x : MxAnswer) : Option (BitVec 4) :=
  match x with
  | .refused s => some s
  | _ => none
theorem why_spec {x : MxAnswer} {st : BitVec 4} (h : MxAnswer.why x = some st) : x = .refused st := by
  cases x with
  | refused => cases h; rfl
  | accepted => cases h
  | busy => cases h
theorem busy_spec {x : MxAnswer} (h : (MxAnswer.taken x || (MxAnswer.why x).isSome) = false) : x = .busy := by
  cases x with
  | busy => rfl
  | accepted => cases h
  | refused => cases h
/-- A thread that is parked. -/
def SWait (w : Wait) (s : State := ST) : State := s.setCore { core0 with thr := core0.thr.set 0 { t0 with run := .parked w {} } }

/-- Hypotheses of `Obligations.EngineAndUnitEvents`. -/
theorem wit_EngineAndUnitEvents :
    (∃ (s : State) (k : Nat) (e : Engine) (c : Core) (x : EngCmd) (xs : List EngCmd), s.core? k = some c ∧ c.engRun e = none ∧ c.engQueue e = x :: xs) ∧
    (∃ (s : State) (k : Nat) (e : Engine) (c : Core) (x : EngCmd), s.core? k = some c ∧ c.engRun e = some x) ∧
    (∃ (s : State) (k : Nat) (e : Engine) (c : Core) (x : EngCmd), s.core? k = some c ∧ c.engRun e = some x ∧ x.waits = true) ∧
    (∃ (s : State) (k : Nat) (e : Engine) (c : Core) (x : EngCmd), s.core? k = some c ∧ c.engRun e = some x ∧ x.waits = false ∧ x.begun = true) ∧
    (∃ (s : State) (k : Nat) (e : Engine) (c : Core) (x : EngCmd) (d : Core), s.core? k = some c ∧ c.engRun e = some x ∧ x.waits = false ∧ x.begun = false ∧ x.acq = none ∧ (s.engM c x).flush.core? k = some d) ∧
    (∃ (s : State) (l : BitVec 16) (t : Nat) (n : Nat), s.coreOf? l t = none) ∧
    (∃ (s : State) (l : BitVec 16) (t : Nat) (n : Nat) (c : Core), s.coreOf? l t = some c ∧ ((c.ranges.any fun r => decide (r.since = n)) = false)) ∧
    (∃ (s : State) (l : BitVec 16) (t : Nat) (n : Nat) (c : Core) (m : M), s.coreOf? l t = some c ∧ ((c.ranges.any fun r => decide (r.since = n)) = true) ∧ ((s.asM c 0).emitRanges (fun r => decide (r.since + us 10 ≤ s.now)) = .ok m)) ∧
    (∃ (s : State) (q : Nat) (k : Nat) (e : MatEntry), (s.quad q).act = none ∧ (((List.range 5).map fun k => ((s.quad q).arb + 1 + k) % 5).findSome? (fun k => ((s.quad q).headOf k).map fun x => (k, x)) = some (k, .inl e))) ∧
    (∃ (s : State) (q : Nat) (k : Nat) (x : MatrixCmd), (s.quad q).act = none ∧ (((List.range 5).map fun k => ((s.quad q).arb + 1 + k) % 5).findSome? (fun k => ((s.quad q).headOf k).map fun x => (k, x)) = some (k, .inr x))) ∧
    (∃ (s : State) (q : Nat), (s.quad q).act = none ∧ (((List.range 5).map fun k => ((s.quad q).arb + 1 + k) % 5).findSome? (fun k => ((s.quad q).headOf k).map fun x => (k, x)) = none)) ∧
    (∃ (s : State) (q : Nat) (x : UnitAct), (s.quad q).act = some x) ∧
    (∃ (s : State) (q : Nat), (s.quad q).act = none) ∧
    (∃ (s : State) (q : Nat) (e : MatEntry), (s.quad q).act = some (.thread e false)) ∧
    (∃ (s : State) (q : Nat) (e : MatEntry), (s.quad q).act = some (.thread e true)) ∧
    (∃ (s : State) (q : Nat) (x : MatrixCmd) (t : State), (s.quad q).act = some (.cmd x) ∧ s.remoteStep x (s.quad q).steps = .more t) ∧
    (∃ (s : State) (q : Nat) (x : MatrixCmd) (t : State), (s.quad q).act = some (.cmd x) ∧ s.remoteStep x (s.quad q).steps = .done t) ∧
    (∃ (s : State) (q : Nat) (x : MatrixCmd) (t : State) (st : BitVec 4), (s.quad q).act = some (.cmd x) ∧ s.remoteStep x (s.quad q).steps = .fault t st) ∧
    (∃ (s : State) (q : Nat) (x : MatrixCmd) (t : State), (s.quad q).act = some (.cmd x) ∧ s.remoteStep x (s.quad q).steps = .retry t) ∧
    (∃ (s : State) (q : Nat) (x : MatrixCmd) (t : State), (s.quad q).act = some (.cmd x) ∧ s.remoteStep x (s.quad q).steps = .waits t) ∧
    (∃ (s : State) (x : MatrixCmd) (t : State) (k : Core) (j : Fin 8), j = Fin.ofNat 8 x.thr ∧ s.acceptMatrix x (x.core / 1024) = .accepted t ∧ t.core? x.core = some k) ∧
    (∃ (s : State) (x : MatrixCmd) (st : BitVec 4) (k : Core) (j : Fin 8), j = Fin.ofNat 8 x.thr ∧ s.acceptMatrix x (x.core / 1024) = .refused st ∧ s.core? x.core = some k) ∧
    (∃ (s : State) (x : MatrixCmd), s.acceptMatrix x (x.core / 1024) = .busy) :=
  ⟨⟨(onCore fun c => { c with engC := [eng1] }), 0, .copy, _, eng1, [], some_spec (d := (core0)) (by decide +kernel), by decide +kernel, by decide +kernel⟩,
   ⟨(onCore fun c => { c with runC := some eng1 }), 0, .copy, _, _, some_spec (d := (core0)) (by decide +kernel), some_spec (d := (⟨0, 0, 0, capMem, capMem, capMem, 0, 8, false, none, none, false, 0, 0, false, none, none, false, false, none⟩)) (by decide +kernel)⟩,
   ⟨(onCore fun c => { c with runC := some { eng1 with waits := true } }), 0, .copy, _, _, some_spec (d := (core0)) (by decide +kernel), some_spec (d := (⟨0, 0, 0, capMem, capMem, capMem, 0, 8, false, none, none, false, 0, 0, false, none, none, false, false, none⟩)) (by decide +kernel), by decide +kernel⟩,
   ⟨(onCore fun c => { c with runC := some { eng1 with begun := true } }), 0, .copy, _, _, some_spec (d := (core0)) (by decide +kernel), some_spec (d := (⟨0, 0, 0, capMem, capMem, capMem, 0, 8, false, none, none, false, 0, 0, false, none, none, false, false, none⟩)) (by decide +kernel), by decide +kernel, by decide +kernel⟩,
   ⟨(onCore fun c => { c with runC := some eng1 }), 0, .copy, _, _, _, some_spec (d := (core0)) (by decide +kernel), some_spec (d := (⟨0, 0, 0, capMem, capMem, capMem, 0, 8, false, none, none, false, 0, 0, false, none, none, false, false, none⟩)) (by decide +kernel), by decide +kernel, by decide +kernel, by decide +kernel, some_spec (d := (core0)) (by decide +kernel)⟩,
   ⟨S, 1, 0, 0, by decide +kernel⟩,
   ⟨S, 0, 0, 0, _, some_spec (d := (core0)) (by decide +kernel), by decide +kernel⟩,
   ⟨(onCore fun c => { c with ranges := [⟨0x100, 0x108, 0⟩] }), 0, 0, 0, _, _, some_spec (d := (core0)) (by decide +kernel), by decide +kernel, ok_spec (d := (m0)) (by decide +kernel)⟩,
   ⟨(SQuad { id := 0, queue := [⟨0, ⟨0, 0, 0⟩, []⟩] }), 0, 0, (⟨0, ⟨0, 0, 0⟩, []⟩), by decide +kernel, by decide +kernel⟩,
   ⟨(SQuad { id := 0, remq := [cmd1 2 capMem] }), 0, 4, (cmd1 2 capMem), by decide +kernel, by decide +kernel⟩,
   ⟨S, 0, by decide +kernel, by decide +kernel⟩,
   ⟨(SQuad { id := 0, act := some (.cmd (cmd1 2 capMem)) }), 0, _, some_spec (d := (.thread ⟨0, ⟨0, 0, 0⟩, []⟩ false)) (by decide +kernel)⟩,
   ⟨S, 0, by decide +kernel⟩,
   ⟨(SQuad { id := 0, act := some (.thread ⟨0, ⟨0, 0, 0⟩, []⟩ false) }), 0, (⟨0, ⟨0, 0, 0⟩, []⟩), by decide +kernel⟩,
   ⟨(SQuad { id := 0, act := some (.thread ⟨0, ⟨0, 0, 0⟩, []⟩ true) }), 0, (⟨0, ⟨0, 0, 0⟩, []⟩), by decide +kernel⟩,
   ⟨(SQuad { id := 0, act := some (.cmd { cmd1 0 capMem with desc := 5 * 2 ^ 48 }) } SL), 0, { cmd1 0 capMem with desc := 5 * 2 ^ 48 }, _, by decide +kernel, kmore (by decide +kernel)⟩,
   ⟨(SQuad { id := 0, act := some (.cmd (cmd1 2 capMem)) } SL), 0, (cmd1 2 capMem), _, by decide +kernel, kdone (by decide +kernel)⟩,
   ⟨(SQuad { id := 0, act := some (.cmd (cmd1 0 (capMem.setCursor (BitVec.ofNat 64 (2 ^ 55))))) } SL), 0, (cmd1 0 (capMem.setCursor (BitVec.ofNat 64 (2 ^ 55)))), _, _, by decide +kernel, kfault (by decide +kernel)⟩,
   ⟨(SQuad { id := 0, act := some (.cmd (cmd1 0 capMem)) } (SL.setDie 0 fun d => { d with motions := [{ mot .copy 0 with src := 0x10000 }] })), 0, (cmd1 0 capMem), _, by decide +kernel, kretry (by decide +kernel)⟩,
   ⟨(SQuad { id := 0, act := some (.cmd (cmd1 0 (capMem.setCursor 0x20000))) } { SPage with mem := SPage.mem.write 0x4020 8 9 }), 0, (cmd1 0 (capMem.setCursor 0x20000)), _, by decide +kernel, kwaits (by decide +kernel)⟩,
   ⟨SL, (cmd1 2 capMem), _, _, _, rfl, taken_spec (by decide +kernel), some_spec (d := (core0)) (by decide +kernel)⟩,
   ⟨S, (cmd1 2 capMem), stKey, _, _, rfl, why_spec (by decide +kernel), some_spec (d := (core0)) (by decide +kernel)⟩,
   ⟨(SQuad { id := 0, remq := List.replicate 8 (cmd1 2 capMem) } SL), (cmd1 2 capMem), busy_spec (by decide +kernel)⟩⟩

/-- Hypotheses of `Obligations.VersionAndTenureEvents`. -/
theorem wit_VersionEvents :
    (∃ (s : State) (n : Nat) (v : Nat) (t : ThrId), t = remotePublisher) ∧
    (∃ (s : State) (n : Nat) (v : Nat) (t : ThrId), t ≠ remotePublisher ∧ t = launchPublisher t.launch) ∧
    (∃ (s : State) (n : Nat) (v : Nat) (t : ThrId) (rd : Option Nat) (tr : Nat) (f : Finish), t ≠ remotePublisher ∧ t ≠ launchPublisher t.launch ∧ s.runOf t = some (.parked (.publish n v rd tr) f) ∧ s.tname? n = none) ∧
    (∃ (s : State) (n : Nat) (v : Nat) (t : ThrId) (rd : Option Nat) (tr : Nat) (f : Finish) (x : TName), t ≠ remotePublisher ∧ t ≠ launchPublisher t.launch ∧ s.runOf t = some (.parked (.publish n v rd tr) f) ∧ s.tname? n = some x ∧ x.live = false) ∧
    (∃ (s : State) (n : Nat) (v : Nat) (t : ThrId) (rd : Option Nat) (tr : Nat) (f : Finish) (x : TName), t ≠ remotePublisher ∧ t ≠ launchPublisher t.launch ∧ s.runOf t = some (.parked (.publish n v rd tr) f) ∧ s.tname? n = some x ∧ x.live = true ∧ (v ≤ x.w ∨ x.stateOf v ≠ 0)) ∧
    (∃ (s : State) (n : Nat) (v : Nat) (t : ThrId) (rd : Option Nat) (tr : Nat) (f : Finish) (x : TName) (u : State), t ≠ remotePublisher ∧ t ≠ launchPublisher t.launch ∧ s.runOf t = some (.parked (.publish n v rd tr) f) ∧ s.tname? n = some x ∧ x.live = true ∧ (¬(v ≤ x.w ∨ x.stateOf v ≠ 0)) ∧ (if x.w + 16 < v then none else s.acceptPublish n v (some t) rd) = some u) ∧
    (∃ (s : State) (n : Nat) (v : Nat) (t : ThrId) (rd : Option Nat) (tr : Nat) (f : Finish) (x : TName), t ≠ remotePublisher ∧ t ≠ launchPublisher t.launch ∧ s.runOf t = some (.parked (.publish n v rd tr) f) ∧ s.tname? n = some x ∧ x.live = true ∧ (¬(v ≤ x.w ∨ x.stateOf v ≠ 0)) ∧ (if x.w + 16 < v then none else s.acceptPublish n v (some t) rd) = none ∧ s.waitRoom n = true) ∧
    (∃ (s : State) (n : Nat) (v : Nat) (t : ThrId) (rd : Option Nat) (tr : Nat) (f : Finish) (x : TName), t ≠ remotePublisher ∧ t ≠ launchPublisher t.launch ∧ s.runOf t = some (.parked (.publish n v rd tr) f) ∧ s.tname? n = some x ∧ x.live = true ∧ (¬(v ≤ x.w ∨ x.stateOf v ≠ 0)) ∧ (if x.w + 16 < v then none else s.acceptPublish n v (some t) rd) = none ∧ s.waitRoom n = false) ∧
    (∃ (s : State) (n : Nat) (v : Nat) (t : ThrId) (y : Version), (s.tname? n).bind (·.ver? v) = some y ∧ y.st = .publishing ∧ y.owner = some t ∧ y.data ≠ []) ∧
    (∃ (s : State) (n : Nat) (v : Nat) (t : ThrId), (s.tname? n).bind (·.ver? v) = none) ∧
    (∃ (s : State) (n : Nat) (v : Nat) (t : ThrId) (k : VWaitKind) (tr : Nat) (til : Option Nat) (f : Finish), t ≠ launchPublisher t.launch ∧ s.runOf t = some (.parked (.version n v k tr til) f) ∧ s.tname? n = none) ∧
    (∃ (s : State) (n : Nat) (v : Nat) (t : ThrId) (k : VWaitKind) (tr : Nat) (til : Option Nat) (f : Finish) (x : TName), t ≠ launchPublisher t.launch ∧ s.runOf t = some (.parked (.version n v k tr til) f) ∧ s.tname? n = some x ∧ x.live = false) ∧
    (∃ (s : State) (n : Nat) (v : Nat) (t : ThrId) (k : VWaitKind) (tr : Nat) (til : Option Nat) (f : Finish) (x : TName), t ≠ launchPublisher t.launch ∧ s.runOf t = some (.parked (.version n v k tr til) f) ∧ s.tname? n = some x ∧ x.live = true ∧ x.stateOf v = 3) ∧
    (∃ (s : State) (n : Nat) (v : Nat) (t : ThrId) (k : VWaitKind) (tr : Nat) (til : Option Nat) (f : Finish) (x : TName), t ≠ launchPublisher t.launch ∧ s.runOf t = some (.parked (.version n v k tr til) f) ∧ s.tname? n = some x ∧ x.live = true ∧ x.stateOf v = 2) ∧
    (∃ (s : State) (n : Nat) (v : Nat) (t : ThrId) (k : VWaitKind) (tr : Nat) (til : Option Nat) (f : Finish) (x : TName), t ≠ launchPublisher t.launch ∧ s.runOf t = some (.parked (.version n v k tr til) f) ∧ s.tname? n = some x ∧ x.live = true ∧ x.stateOf v = 0) ∧
    (∃ (s : State) (n : Nat) (v : Nat) (t : ThrId) (k : VWaitKind) (tr : Nat) (til : Option Nat) (f : Finish) (x : TName), t ≠ launchPublisher t.launch ∧ s.runOf t = some (.parked (.version n v k tr til) f) ∧ s.tname? n = some x ∧ x.live = true ∧ x.stateOf v = 1) ∧
    (∃ (s : State) (n : Nat) (v : Nat) (t : ThrId) (q : Packet) (tr : Nat) (til : Option Nat) (f : Finish), t ≠ launchPublisher t.launch ∧ s.runOf t = some (.parked (.remoteTile q .refused tr til) f)) ∧
    (∃ (s : State) (t : ThrId) (l : Launch) (g : W64) (n : Nat) (v : Nat), t = launchPublisher t.launch ∧ s.launch? t.launch = some l ∧ l.phase = .gated ∧ ((l.lrec.gates.take l.lrec.ngate).find? (fun g => (gateOf g).1 == n && (gateOf g).2.1 == v) = some g)) ∧
    (∃ (s : State) (t : ThrId) (n : Nat) (v : Nat) (tr : Nat) (til : Nat) (k : VWaitKind) (f : Finish), s.runOf t = some (.parked (.version n v k tr (some til)) f) ∧ ((til ≤ s.now ∧ (((s.tname? n).elim false fun x => x.waits.any fun w => w.who == .thread t && decide (w.ver = v)) = true ∨ (s.timers.any fun e => e.2 == .versionWaitRegister n v t) = true)))) ∧
    (∃ (s : State) (t : ThrId) (n : Nat) (v : Nat) (tr : Nat) (til : Nat) (k : VWaitKind) (f : Finish), s.runOf t = some (.parked (.version n v k tr (some til)) f) ∧ ((¬(til ≤ s.now ∧ (((s.tname? n).elim false fun x => x.waits.any fun w => w.who == .thread t && decide (w.ver = v)) = true ∨ (s.timers.any fun e => e.2 == .versionWaitRegister n v t) = true))))) ∧
    (∃ (s : State) (t : ThrId) (q : Packet) (st : TileStage) (tr : Nat) (til : Nat) (f : Finish), s.runOf t = some (.parked (.remoteTile q st tr (some til)) f) ∧ (s.now < til ∨ st = .fetching)) ∧
    (∃ (s : State) (t : ThrId) (q : Packet) (st : TileStage) (tr : Nat) (til : Nat) (f : Finish), s.runOf t = some (.parked (.remoteTile q st tr (some til)) f) ∧ (¬(s.now < til ∨ st = .fetching)) ∧ st = .refused) ∧
    (∃ (s : State) (t : ThrId) (q : Packet) (st : TileStage) (tr : Nat) (til : Nat) (f : Finish), s.runOf t = some (.parked (.remoteTile q st tr (some til)) f) ∧ (¬(s.now < til ∨ st = .fetching)) ∧ st ≠ .refused) :=
  ⟨⟨S, 1, 1, remotePublisher, by decide +kernel⟩,
   ⟨S, 1, 1, (launchPublisher 0), by decide +kernel, by decide +kernel⟩,
   ⟨(SWait (.publish 2 1 none 0) (tileSet (name1) region1 S)), 2, 1, (⟨0, 0, 0⟩), none, 0, {}, by decide +kernel, by decide +kernel, by decide +kernel, by decide +kernel⟩,
   ⟨(SWait (.publish 1 2 none 0) (tileSet ({ name1 with live := false }) region1 S)), 1, 2, (⟨0, 0, 0⟩), none, 0, {}, _, by decide +kernel, by decide +kernel, by decide +kernel, some_spec (d := (name1)) (by decide +kernel), by decide +kernel⟩,
   ⟨(SWait (.publish 1 1 none 0) (tileSet (name1) region1 S)), 1, 1, (⟨0, 0, 0⟩), none, 0, {}, _, by decide +kernel, by decide +kernel, by decide +kernel, some_spec (d := (name1)) (by decide +kernel), by decide +kernel, by decide +kernel⟩,
   ⟨(SWait (.publish 1 16 none 0) (tileSet (name1) region1 S)), 1, 16, (⟨0, 0, 0⟩), none, 0, {}, _, _, by decide +kernel, by decide +kernel, by decide +kernel, some_spec (d := (name1)) (by decide +kernel), by decide +kernel, by decide +kernel, some_spec (d := (S)) (by decide +kernel)⟩,
   ⟨(SWait (.publish 1 17 none 0) (tileSet (name1) region1 S)), 1, 17, (⟨0, 0, 0⟩), none, 0, {}, _, by decide +kernel, by decide +kernel, by decide +kernel, some_spec (d := (name1)) (by decide +kernel), by decide +kernel, by decide +kernel, by decide +kernel, by decide +kernel⟩,
   ⟨(SWait (.publish 1 17 none 0) (tileSet ({ name1 with waits := List.replicate 512 ⟨2, .gate 0, .wait⟩ }) region1 S)), 1, 17, (⟨0, 0, 0⟩), none, 0, {}, _, by decide +kernel, by decide +kernel, by decide +kernel, some_spec (d := (name1)) (by decide +kernel), by decide +kernel, by decide +kernel, by decide +kernel, by decide +kernel⟩,
   ⟨(SWait (.publish 1 2 none 0) (tileSet ({ name1 with vers := [{ ver := 2, st := .publishing, owner := some ⟨0, 0, 0⟩, data := [1] }] }) region1 S)), 1, 2, (⟨0, 0, 0⟩), { ver := 2, st := .publishing, owner := some ⟨0, 0, 0⟩, data := [1] }, by decide +kernel, by decide +kernel, by decide +kernel, by decide +kernel⟩,
   ⟨S, 1, 2, (⟨0, 0, 0⟩), by decide +kernel⟩,
   ⟨(SWait (.version 2 1 .wait 0 none) (tileSet (name1) region1 S)), 2, 1, (⟨0, 0, 0⟩), .wait, 0, none, {}, by decide +kernel, by decide +kernel, by decide +kernel⟩,
   ⟨(SWait (.version 1 2 .wait 0 none) (tileSet ({ name1 with live := false }) region1 S)), 1, 2, (⟨0, 0, 0⟩), .wait, 0, none, {}, _, by decide +kernel, by decide +kernel, some_spec (d := (name1)) (by decide +kernel), by decide +kernel⟩,
   ⟨(SWait (.version 1 0 .wait 0 none) (tileSet (name1) region1 S)), 1, 0, (⟨0, 0, 0⟩), .wait, 0, none, {}, _, by decide +kernel, by decide +kernel, some_spec (d := (name1)) (by decide +kernel), by decide +kernel, by decide +kernel⟩,
   ⟨(SWait (.version 1 1 .wait 0 none) (tileSet (name1) region1 S)), 1, 1, (⟨0, 0, 0⟩), .wait, 0, none, {}, _, by decide +kernel, by decide +kernel, some_spec (d := (name1)) (by decide +kernel), by decide +kernel, by decide +kernel⟩,
   ⟨(SWait (.version 1 2 .wait 0 none) (tileSet (name1) region1 S)), 1, 2, (⟨0, 0, 0⟩), .wait, 0, none, {}, _, by decide +kernel, by decide +kernel, some_spec (d := (name1)) (by decide +kernel), by decide +kernel, by decide +kernel⟩,
   ⟨(SWait (.version 1 2 .wait 0 none) (tileSet ({ name1 with vers := [{ ver := 2, st := .publishing }] }) region1 S)), 1, 2, (⟨0, 0, 0⟩), .wait, 0, none, {}, _, by decide +kernel, by decide +kernel, some_spec (d := (name1)) (by decide +kernel), by decide +kernel, by decide +kernel⟩,
   ⟨(SWait (.remoteTile { addr := 1 + 2 ^ 32 } .refused 0 none) (tileSet (name1) region1 S)), 1, 1, (⟨0, 0, 0⟩), { addr := 1 + 2 ^ 32 }, 0, none, {}, by decide +kernel, by decide +kernel⟩,
   ⟨(S.setDie 0 fun d => { d with launches := [{ launch0 with phase := .gated, gatesLeft := 1, lrec := { ngate := 1, gates := [1 + 2 ^ 32] } }] }), (launchPublisher 0), _, (1 + 2 ^ 32), 1, 1, by decide +kernel, some_spec (d := (launch0)) (by decide +kernel), by decide +kernel, by decide +kernel⟩,
   ⟨{ (SWait (.version 1 2 .wait 0 (some 8)) (tileSet ({ name1 with waits := [⟨2, .thread ⟨0, 0, 0⟩, .wait⟩] }) region1 S)) with now := 8 }, (⟨0, 0, 0⟩), 1, 2, 0, 8, .wait, {}, by decide +kernel, by decide +kernel⟩,
   ⟨{ (SWait (.version 1 2 .wait 0 (some 8)) (tileSet ({ name1 with waits := [⟨2, .thread ⟨0, 0, 0⟩, .wait⟩] }) region1 S)) with now := 7 }, (⟨0, 0, 0⟩), 1, 2, 0, 8, .wait, {}, by decide +kernel, by decide +kernel⟩,
   ⟨{ (SWait (.remoteTile {} .sent 0 (some 8)) (tileSet (name1) region1 S)) with now := 7 }, (⟨0, 0, 0⟩), {}, .sent, 0, 8, {}, by decide +kernel, by decide +kernel⟩,
   ⟨{ (SWait (.remoteTile {} .refused 0 (some 8)) (tileSet (name1) region1 S)) with now := 8 }, (⟨0, 0, 0⟩), {}, .refused, 0, 8, {}, by decide +kernel, by decide +kernel, by decide +kernel⟩,
   ⟨{ (SWait (.remoteTile {} .sent 0 (some 8)) (tileSet (name1) region1 S)) with now := 8 }, (⟨0, 0, 0⟩), {}, .sent, 0, 8, {}, by decide +kernel, by decide +kernel, by decide +kernel⟩⟩

/-- Hypotheses of `Obligations.VersionAndTenureEvents`. -/
theorem wit_TenureEvents :
    (∃ (s : State) (t : ThrId) (r : Nat) (q : Rect) (w : Bool) (n : Nat) (tr : Nat) (f : Finish) (e : TenEntry), s.runOf t = some (.parked (.tenure n tr) f) ∧ ((s.teamCore? t.launch t.team).bind (fun c => c.tenures.find? fun e => !e.held && decide (e.region = r) && e.rect == q && e.write == w) = some e) ∧ e.slot = n ∧ s.tregion? r = none) ∧
    (∃ (s : State) (t : ThrId) (r : Nat) (q : Rect) (w : Bool) (n : Nat) (tr : Nat) (f : Finish) (e : TenEntry) (x : TRegion), s.runOf t = some (.parked (.tenure n tr) f) ∧ ((s.teamCore? t.launch t.team).bind (fun c => c.tenures.find? fun e => !e.held && decide (e.region = r) && e.rect == q && e.write == w) = some e) ∧ e.slot = n ∧ s.tregion? r = some x ∧ (((x.recs.any fun y => y.launch == t.launch && decide (y.team = t.team ∧ y.slot = n) && !y.oneShot) = true))) ∧
    (∃ (s : State) (t : ThrId) (r : Nat) (q : Rect) (w : Bool) (n : Nat) (tr : Nat) (f : Finish) (e : TenEntry) (x : TRegion), s.runOf t = some (.parked (.tenure n tr) f) ∧ ((s.teamCore? t.launch t.team).bind (fun c => c.tenures.find? fun e => !e.held && decide (e.region = r) && e.rect == q && e.write == w) = some e) ∧ e.slot = n ∧ s.tregion? r = some x ∧ (((x.recs.any fun y => y.launch == t.launch && decide (y.team = t.team ∧ y.slot = n) && !y.oneShot) = false)) ∧ x.live = false) ∧
    (∃ (s : State) (t : ThrId) (r : Nat) (q : Rect) (w : Bool) (n : Nat) (tr : Nat) (f : Finish) (e : TenEntry) (x : TRegion), s.runOf t = some (.parked (.tenure n tr) f) ∧ ((s.teamCore? t.launch t.team).bind (fun c => c.tenures.find? fun e => !e.held && decide (e.region = r) && e.rect == q && e.write == w) = some e) ∧ e.slot = n ∧ s.tregion? r = some x ∧ (((x.recs.any fun y => y.launch == t.launch && decide (y.team = t.team ∧ y.slot = n) && !y.oneShot) = false)) ∧ x.live = true ∧ s.recRoom r = false) ∧
    (∃ (s : State) (t : ThrId) (r : Nat) (q : Rect) (w : Bool) (n : Nat) (tr : Nat) (f : Finish) (e : TenEntry) (x : TRegion), s.runOf t = some (.parked (.tenure n tr) f) ∧ ((s.teamCore? t.launch t.team).bind (fun c => c.tenures.find? fun e => !e.held && decide (e.region = r) && e.rect == q && e.write == w) = some e) ∧ e.slot = n ∧ s.tregion? r = some x ∧ (((x.recs.any fun y => y.launch == t.launch && decide (y.team = t.team ∧ y.slot = n) && !y.oneShot) = false)) ∧ x.live = true ∧ s.recRoom r = true ∧ x.grants q w = false) ∧
    (∃ (s : State) (t : ThrId) (r : Nat) (q : Rect) (w : Bool) (n : Nat) (tr : Nat) (f : Finish) (e : TenEntry) (x : TRegion), s.runOf t = some (.parked (.tenure n tr) f) ∧ ((s.teamCore? t.launch t.team).bind (fun c => c.tenures.find? fun e => !e.held && decide (e.region = r) && e.rect == q && e.write == w) = some e) ∧ e.slot = n ∧ s.tregion? r = some x ∧ (((x.recs.any fun y => y.launch == t.launch && decide (y.team = t.team ∧ y.slot = n) && !y.oneShot) = false)) ∧ x.live = true ∧ s.recRoom r = true ∧ x.grants q w = true) ∧
    (∃ (s : State) (t : ThrId) (r : Nat) (q : Rect) (e : TenEntry), ((s.teamCore? t.launch t.team).bind (fun c => c.tenureOn r q) = some e)) ∧
    (∃ (s : State) (t : ThrId) (r : Nat) (q : Rect), ((s.teamCore? t.launch t.team).bind (fun c => c.tenureOn r q) = none)) ∧
    (∃ (s : State) (t : ThrId) (r : Nat) (q : Rect) (w : Bool) (tr : Nat) (f : Finish), s.runOf t = some (.parked (.oneShot r tr) f) ∧ s.tregion? r = none) ∧
    (∃ (s : State) (t : ThrId) (r : Nat) (q : Rect) (w : Bool) (tr : Nat) (f : Finish) (x : TRegion), s.runOf t = some (.parked (.oneShot r tr) f) ∧ s.tregion? r = some x ∧ ((x.recs.any fun y => y.shotOf t) = true)) ∧
    (∃ (s : State) (t : ThrId) (r : Nat) (q : Rect) (w : Bool) (tr : Nat) (f : Finish) (x : TRegion), s.runOf t = some (.parked (.oneShot r tr) f) ∧ s.tregion? r = some x ∧ ((x.recs.any fun y => y.shotOf t) = false) ∧ s.recRoom r = true) ∧
    (∃ (s : State) (t : ThrId) (r : Nat) (q : Rect) (w : Bool) (tr : Nat) (f : Finish) (x : TRegion), s.runOf t = some (.parked (.oneShot r tr) f) ∧ s.tregion? r = some x ∧ ((x.recs.any fun y => y.shotOf t) = false) ∧ s.recRoom r = false) ∧
    (∃ (s : State) (t : ThrId) (r : Nat) (q : Rect) (w : Bool) (tr : Nat) (f : Finish) (x : TRegion), s.runOf t = some (.parked (.oneShot r tr) f) ∧ s.tregion? r = some x ∧ (((x.recs.any fun y => y.oneShot && y.launch == t.launch && decide (y.team = t.team ∧ y.thr = t.thr)) = true))) ∧
    (∃ (s : State) (t : ThrId) (r : Nat) (q : Rect) (w : Bool) (tr : Nat) (f : Finish) (x : TRegion), s.runOf t = some (.parked (.oneShot r tr) f) ∧ s.tregion? r = some x ∧ (((x.recs.any fun y => y.oneShot && y.launch == t.launch && decide (y.team = t.team ∧ y.thr = t.thr)) = false))) :=
  ⟨⟨((tileSet name1 (region1) S).setCore { core0 with tenures := [{ slot := 0, region := 2, rect := ⟨0, 0, 4, 4⟩, write := true, held := false }], thr := core0.thr.set 0 { t0 with run := .parked (.tenure 0 0) {} } }), (⟨0, 0, 0⟩), 2, (⟨0, 0, 4, 4⟩), true, 0, 0, {}, _, by decide +kernel, some_spec (d := (⟨0, 0, ⟨0, 0, 1, 1⟩, false, false⟩)) (by decide +kernel), by decide +kernel, by decide +kernel⟩,
   ⟨((tileSet name1 ({ region1 with recs := [{ launch := 0, team := 0, thr := 0, slot := 0, rect := ⟨0, 0, 4, 4⟩, write := true, held := true }] }) S).setCore { core0 with tenures := [{ slot := 0, region := 1, rect := ⟨0, 0, 4, 4⟩, write := true, held := false }], thr := core0.thr.set 0 { t0 with run := .parked (.tenure 0 0) {} } }), (⟨0, 0, 0⟩), 1, (⟨0, 0, 4, 4⟩), true, 0, 0, {}, _, _, by decide +kernel, some_spec (d := (⟨0, 0, ⟨0, 0, 1, 1⟩, false, false⟩)) (by decide +kernel), by decide +kernel, some_spec (d := (region1)) (by decide +kernel), by decide +kernel⟩,
   ⟨((tileSet name1 ({ region1 with live := false }) S).setCore { core0 with tenures := [{ slot := 0, region := 1, rect := ⟨0, 0, 4, 4⟩, write := true, held := false }], thr := core0.thr.set 0 { t0 with run := .parked (.tenure 0 0) {} } }), (⟨0, 0, 0⟩), 1, (⟨0, 0, 4, 4⟩), true, 0, 0, {}, _, _, by decide +kernel, some_spec (d := (⟨0, 0, ⟨0, 0, 1, 1⟩, false, false⟩)) (by decide +kernel), by decide +kernel, some_spec (d := (region1)) (by decide +kernel), by decide +kernel, by decide +kernel⟩,
   ⟨((tileSet name1 ({ region1 with recs := List.replicate 2048 { launch := 0, team := 1, thr := 0, slot := 0, rect := ⟨0, 0, 4, 4⟩, write := true, held := true } }) S).setCore { core0 with tenures := [{ slot := 0, region := 1, rect := ⟨0, 0, 4, 4⟩, write := true, held := false }], thr := core0.thr.set 0 { t0 with run := .parked (.tenure 0 0) {} } }), (⟨0, 0, 0⟩), 1, (⟨0, 0, 4, 4⟩), true, 0, 0, {}, _, _, by decide +kernel, some_spec (d := (⟨0, 0, ⟨0, 0, 1, 1⟩, false, false⟩)) (by decide +kernel), by decide +kernel, some_spec (d := (region1)) (by decide +kernel), by decide +kernel, by decide +kernel, by decide +kernel⟩,
   ⟨((tileSet name1 ({ region1 with recs := [{ launch := 0, team := 1, thr := 0, slot := 0, rect := ⟨0, 0, 4, 4⟩, write := true, held := true }] }) S).setCore { core0 with tenures := [{ slot := 0, region := 1, rect := ⟨0, 0, 4, 4⟩, write := true, held := false }], thr := core0.thr.set 0 { t0 with run := .parked (.tenure 0 0) {} } }), (⟨0, 0, 0⟩), 1, (⟨0, 0, 4, 4⟩), true, 0, 0, {}, _, _, by decide +kernel, some_spec (d := (⟨0, 0, ⟨0, 0, 1, 1⟩, false, false⟩)) (by decide +kernel), by decide +kernel, some_spec (d := (region1)) (by decide +kernel), by decide +kernel, by decide +kernel, by decide +kernel, by decide +kernel⟩,
   ⟨((tileSet name1 (region1) S).setCore { core0 with tenures := [{ slot := 0, region := 1, rect := ⟨0, 0, 4, 4⟩, write := true, held := false }], thr := core0.thr.set 0 { t0 with run := .parked (.tenure 0 0) {} } }), (⟨0, 0, 0⟩), 1, (⟨0, 0, 4, 4⟩), true, 0, 0, {}, _, _, by decide +kernel, some_spec (d := (⟨0, 0, ⟨0, 0, 1, 1⟩, false, false⟩)) (by decide +kernel), by decide +kernel, some_spec (d := (region1)) (by decide +kernel), by decide +kernel, by decide +kernel, by decide +kernel, by decide +kernel⟩,
   ⟨(onCore fun c => { c with tenures := [{ slot := 0, region := 1, rect := ⟨0, 0, 4, 4⟩, write := true, held := true }] }), (⟨0, 0, 0⟩), 1, (⟨0, 0, 4, 4⟩), _, some_spec (d := (⟨0, 0, ⟨0, 0, 1, 1⟩, false, false⟩)) (by decide +kernel)⟩,
   ⟨S, (⟨0, 0, 0⟩), 1, (⟨0, 0, 4, 4⟩), by decide +kernel⟩,
   ⟨(SWait (.oneShot 2 0) (tileSet name1 region1 S)), (⟨0, 0, 0⟩), 2, (⟨0, 0, 4, 4⟩), true, 0, {}, by decide +kernel, by decide +kernel⟩,
   ⟨(SWait (.oneShot 1 0) (tileSet name1 ({ region1 with recs := [{ launch := 0, team := 0, thr := 0, slot := 0, rect := ⟨0, 0, 4, 4⟩, write := true, held := true, oneShot := true }] }) S)), (⟨0, 0, 0⟩), 1, (⟨0, 0, 4, 4⟩), true, 0, {}, _, by decide +kernel, some_spec (d := (region1)) (by decide +kernel), by decide +kernel⟩,
   ⟨(SWait (.oneShot 1 0) (tileSet name1 (region1) S)), (⟨0, 0, 0⟩), 1, (⟨0, 0, 4, 4⟩), true, 0, {}, _, by decide +kernel, some_spec (d := (region1)) (by decide +kernel), by decide +kernel, by decide +kernel⟩,
   ⟨(SWait (.oneShot 1 0) (tileSet name1 ({ region1 with recs := List.replicate 2048 { launch := 0, team := 1, thr := 0, slot := 0, rect := ⟨0, 0, 4, 4⟩, write := true, held := true } }) S)), (⟨0, 0, 0⟩), 1, (⟨0, 0, 4, 4⟩), true, 0, {}, _, by decide +kernel, some_spec (d := (region1)) (by decide +kernel), by decide +kernel, by decide +kernel⟩,
   ⟨(SWait (.oneShot 1 0) (tileSet name1 ({ region1 with recs := [{ launch := 0, team := 0, thr := 0, slot := 0, rect := ⟨0, 0, 4, 4⟩, write := true, held := true, oneShot := true }] }) S)), (⟨0, 0, 0⟩), 1, (⟨0, 0, 4, 4⟩), true, 0, {}, _, by decide +kernel, some_spec (d := (region1)) (by decide +kernel), by decide +kernel⟩,
   ⟨(SWait (.oneShot 1 0) (tileSet name1 (region1) S)), (⟨0, 0, 0⟩), 1, (⟨0, 0, 4, 4⟩), true, 0, {}, _, by decide +kernel, some_spec (d := (region1)) (by decide +kernel), by decide +kernel⟩⟩

/-- Hypotheses of `Obligations.ThreadQueueAndServiceEvents`. -/
theorem wit_ServiceEvents :
    (∃ (s : State) (d : Nat) (c : BitVec 6) (va : Nat) (k : BitVec 8) (w : Bool) (f : Bool) (who : SvcWaiter), ((4096 ≤ (s.die d).services.length ∧ ((s.die d).services.any fun x => x.ctx == c && decide (x.page = va / 2 ^ 16)) = false))) ∧
    (∃ (s : State) (d : Nat) (c : BitVec 6) (va : Nat) (k : BitVec 8) (w : Bool) (f : Bool) (u : State) (n : Nat) (gw : Nat) (num : Nat), ((¬(4096 ≤ (s.die d).services.length ∧ ((s.die d).services.any fun x => x.ctx == c && decide (x.page = va / 2 ^ 16)) = false))) ∧ s.openService d c va k.toNat w f (Service.add (.ticket gw num) va) = (u, n)) ∧
    (∃ (s : State) (d : Nat) (c : BitVec 6) (va : Nat) (k : BitVec 8) (w : Bool) (f : Bool) (u : State) (n : Nat) (x : Nat) (cp : Bool), ((¬(4096 ≤ (s.die d).services.length ∧ ((s.die d).services.any fun x => x.ctx == c && decide (x.page = va / 2 ^ 16)) = false))) ∧ s.openService d c va k.toNat w f (Service.add (.engine x cp) va) = (u, n)) ∧
    (∃ (s : State) (d : Nat) (c : BitVec 6) (va : Nat) (k : BitVec 8) (w : Bool) (f : Bool) (u : State) (n : Nat) (x : Bool) (l : BitVec 16), ((¬(4096 ≤ (s.die d).services.length ∧ ((s.die d).services.any fun x => x.ctx == c && decide (x.page = va / 2 ^ 16)) = false))) ∧ s.openService d c va k.toNat w f (Service.add (.finish x l) va) = (u, n)) ∧
    (∃ (s : State) (d : Nat) (c : BitVec 6) (va : Nat) (k : BitVec 8) (w : Bool) (f : Bool) (u : State) (n : Nat) (t : ThrId), ((¬(4096 ≤ (s.die d).services.length ∧ ((s.die d).services.any fun x => x.ctx == c && decide (x.page = va / 2 ^ 16)) = false))) ∧ s.openService d c va k.toNat w f (Service.add (.thread t) va) = (u, n)) ∧
    (∃ (s : State) (d : Nat) (n : Nat), s.service? d n = none) ∧
    (∃ (s : State) (d : Nat) (n : Nat), s.service? d n = none) ∧
    (∃ (s : State) (d : Nat) (n : Nat) (x : Service) (a : State) (b : State) (e : State) (g : State), s.service? d n = some x ∧ (a = x.threads.foldl (fun s t => s.served d n t fun _ y => y) (s.closeService d n)) ∧ (b = x.tickets.foldl (fun s g => s.tellTicket d g.1 g.2 stOk) a) ∧ (e = x.engines.foldl (fun s e => s.post (.engineCommandComplete e.1 e.2.1)) b) ∧ (g = x.units.foldl (fun s q => s.post (.matrixKstepComplete q)) e)) ∧
    (∃ (s : State) (d : Nat) (n : Nat) (x : Service) (a : State) (b : State) (e : State) (g : State), s.service? d n = some x ∧ (a = x.threads.foldl (fun s t => s.served d n t fun va y => { y with pendTrap := some (causeNotMapped, BitVec.ofNat 64 va) }) (s.closeService d n)) ∧ (b = x.tickets.foldl (fun s g => s.tellTicket d g.1 g.2 (s.refusedStatus d g.1 g.2)) a) ∧ (e = x.engines.foldl (fun s e => s.engineFault e.1 e.2.1 e.2.2) b) ∧ (g = x.units.foldl (fun s q => match (s.quad q).cmd? with | some c => s.unitEnd q c (some stNotMapped) | none => s) e)) :=
  ⟨⟨(S.setDie 0 fun d => { d with services := List.replicate 4096 { num := 0, ctx := 0, page := 2 } }), 0, 0, 0x10000, 0, false, false, (.thread ⟨0, 0, 0⟩), by decide +kernel⟩,
   ⟨(S.setDie 0 fun d => { d with services := List.replicate 4096 { num := 0, ctx := 0, page := 2 } }), 0, 0, 0x20000, 0, false, false, _, _, 3, 1, by decide +kernel, rfl⟩,
   ⟨(S.setDie 0 fun d => { d with services := List.replicate 4096 { num := 0, ctx := 0, page := 2 } }), 0, 0, 0x20000, 0, false, false, _, _, 0, false, by decide +kernel, rfl⟩,
   ⟨(S.setDie 0 fun d => { d with services := List.replicate 4096 { num := 0, ctx := 0, page := 2 } }), 0, 0, 0x20000, 0, false, false, _, _, false, 0, by decide +kernel, rfl⟩,
   ⟨(S.setDie 0 fun d => { d with services := List.replicate 4096 { num := 0, ctx := 0, page := 2 } }), 0, 0, 0x20000, 0, false, false, _, _, (⟨0, 0, 0⟩), by decide +kernel, rfl⟩,
   ⟨S, 0, 0, by decide +kernel⟩,
   ⟨S, 0, 0, by decide +kernel⟩,
   ⟨(S.setDie 0 fun d => { d with services := [{ num := 0, ctx := 0, page := 2, threads := [⟨0, 0, 0⟩] }] }), 0, 0, _, _, _, _, _, some_spec (d := (⟨0, 0, 0, [], [], [], [], []⟩)) (by decide +kernel), rfl, rfl, rfl, rfl⟩,
   ⟨(S.setDie 0 fun d => { d with services := [{ num := 0, ctx := 0, page := 2, threads := [⟨0, 0, 0⟩] }] }), 0, 0, _, _, _, _, _, some_spec (d := (⟨0, 0, 0, [], [], [], [], []⟩)) (by decide +kernel), rfl, rfl, rfl, rfl⟩⟩

def outV (o : Out) : State :=
  match o with
  | .next s => s
  | _ => S
def isNext (o : Out) : Bool :=
  match o with
  | .next _ => true
  | _ => false
theorem out_spec {o : Out} (h : isNext o = true) : o = .next (outV o) := by
  cases o with
  | next => rfl
  | fault => cases h
  | refused => cases h
theorem ok_is {ε α : Type} {d v : α} {e : Except ε α} (h : isOk e = true) (hv : okV d e = v) : e = .ok v := by
  rw [ok_spec (d := d) h, hv]
theorem err_is {ε α : Type} {v : ε} {e : Except ε α} (h : isOk e = false) (hv : ∀ x, e = .error x → x = v) : e = .error v := by
  cases e with
  | ok => cases h
  | error x => rw [hv x rfl]
/-- The placed word, with nothing pending. -/
def SWord (w : Nat) : State := (State.reset.place 1 w).setCore core0
def errV {ε α : Type} (d : ε) (e : Except ε α) : ε :=
  match e with
  | .ok _ => d
  | .error x => x
theorem err_spec {ε α : Type} {d : ε} {e : Except ε α} (h : isOk e = false) : e = .error (errV d e) := by
  cases e with
  | ok => cases h
  | error => rfl
def SBuf : State := onThread fun t => { t with fbuf := some (0x800, 0) }
def SLine : State := onCore fun c => { c with icache := [{ va := 0x400, data := 0 }] }

/-- Hypotheses of `Obligations.StepRunsDecoded`. -/
theorem wit_StepRunsDecoded :
    (∃ (s : State) (e : Instr) (rest : List Instr), s.events = e :: rest) ∧
    (∃ (s : State) (due : Nat) (e : Instr) (rest : List (Nat × Instr)), s.events = [] ∧ s.timers = (due, e) :: rest ∧ due ≤ s.now) ∧
    (∃ (s : State), s.events = [] ∧ (∀ x ∈ s.timers.head?, s.now < x.1) ∧ s.candidates = []) ∧
    (∃ (s : State) (c : Nat) (t : Nat) (rest : List (Nat × Nat)) (m : M) (m1 : M) (ws : List W32) (i : Instr) (u : State), s.events = [] ∧ (∀ x ∈ s.timers.head?, s.now < x.1) ∧ s.candidates = (c, t) :: rest ∧ s.selected c t = some m ∧ m.fetchInstr = .ok (m1, ws) ∧ decodeWords ws = .ok i ∧ exec i { m1.flush with cur := (c, t) } = .next u) ∧
    (∃ (s : State) (c : Nat) (t : Nat) (rest : List (Nat × Nat)) (m : M) (m1 : M) (ws : List W32) (e : EncFault) (u : State), s.events = [] ∧ (∀ x ∈ s.timers.head?, s.now < x.1) ∧ s.candidates = (c, t) :: rest ∧ s.selected c t = some m ∧ m.fetchInstr = .ok (m1, ws) ∧ decodeWords ws = .error e ∧ exec (.unallocatedEncoding e) { m1.flush with cur := (c, t) } = .next u) ∧
    (∃ (s : State) (m : M) (h : BitVec 256) (w : W32), m.thr.pc.tag = true ∧ m.thr.pc.kind = 0 ∧ m.thr.pc.perm permEX = true ∧ m.thr.pc.base ≤ m.thr.pc.cursor.toNat ∧ m.thr.pc.cursor.toNat + 4 ≤ m.thr.pc.top ∧ m.thr.pc.cursor.toNat % 4 = 0 ∧ m.thr.fbuf = some (m.thr.pc.cursor.toNat % 2 ^ 56 / 32, h) ∧ w = BitVec.ofNat 32 (sliceBytes h.toNat (m.thr.pc.cursor.toNat % 32) 4) ∧ w.extractLsb' 0 2 = 0) ∧
    (∃ (s : State) (m : M) (l : ICLine) (w : W32), m.thr.pc.tag = true ∧ m.thr.pc.kind = 0 ∧ m.thr.pc.perm permEX = true ∧ m.thr.pc.base ≤ m.thr.pc.cursor.toNat ∧ m.thr.pc.cursor.toNat + 4 ≤ m.thr.pc.top ∧ m.thr.pc.cursor.toNat % 4 = 0 ∧ m.thr.fbuf = none ∧ m.core.icache.find? (fun l => decide (l.va = m.thr.pc.cursor.toNat % 2 ^ 56 / 64)) = some l ∧ w = (m.fetchFrom m.thr.pc.cursor.toNat l).2 ∧ w.extractLsb' 0 2 = 0) :=
  ⟨⟨{ S with events := [.nop] }, .nop, [], by decide +kernel⟩,
   ⟨{ S with timers := [(0, .nop)] }, 0, .nop, [], by decide +kernel, by decide +kernel, by decide +kernel⟩,
   ⟨(onThread fun t => { t with run := .halted }), by decide +kernel, by decide +kernel, by decide +kernel⟩,
   ⟨(SWord 0x10000078), 0, 0, [], _, _, _, _, _, by decide +kernel, by decide +kernel, by decide +kernel, some_spec (d := m0) (by decide +kernel), ok_spec2 (d := (m0, [])) (by decide +kernel), ok_spec (d := .nop) (by decide +kernel), out_spec (by decide +kernel)⟩,
   ⟨(SWord 0), 0, 0, [], _, _, _, _, _, by decide +kernel, by decide +kernel, by decide +kernel, some_spec (d := m0) (by decide +kernel), ok_spec2 (d := (m0, [])) (by decide +kernel), err_spec (d := .illegal) (by decide +kernel), out_spec (by decide +kernel)⟩,
   ⟨SBuf, (someV m0 (SBuf.selected 0 0)), 0, _, by decide +kernel, by decide +kernel, by decide +kernel, by decide +kernel, by decide +kernel, by decide +kernel, by decide +kernel, rfl, by decide +kernel⟩,
   ⟨SLine, (someV m0 (SLine.selected 0 0)), _, _, by decide +kernel, by decide +kernel, by decide +kernel, by decide +kernel, by decide +kernel, by decide +kernel, by decide +kernel, some_spec (d := (⟨0, 0⟩)) (by decide +kernel), rfl, by decide +kernel⟩⟩

theorem commitErr_signed {b : List Byte} (h : Config.imageSigned b = true) (hv : ¬ Config.imageVersion b < Config.fusedVersion) :
    commitErr (some b) = 0 := by simp [commitErr, h, hv]

/-- Hypotheses of `Obligations.MailboxEvents`. -/
theorem wit_MailboxEvents_signed : ∃ (s : State) (p : Nat) (T : State) (I : Option (List Byte)), s.linked p = true ∧ s.mailboxOk 0x3010000 2 = true ∧
    s.mbox.busy = false ∧ (T = { s with mbox := { s.mbox with busy := true, done := false, rlen := 0 } }) ∧
    (I = T.mbox.image.map fun x => (List.range T.mbox.ilen).map (cellGet x)) ∧
    (∃ b, I = some b ∧ (Config.imageSigned b = true → ¬ Config.imageVersion b < Config.fusedVersion → commitErr I = 0)) :=
  ⟨SMail { image := some [], ilen := 16 }, 0, _, _, by decide +kernel, by decide +kernel, by decide +kernel, rfl, rfl,
    ⟨_, rfl, fun h1 h2 => commitErr_signed h1 h2⟩⟩

def SNoMat : State := onCore fun c => { c with lrec := { c.lrec with matrix := false } }
def mOf (i : Instr) (s : State) : M := (enter i s).getD m0
theorem mOf_spec {i : Instr} {s : State} (h : (enter i s).isSome = true) : enter i s = some (mOf i s) := by
  unfold mOf
  cases he : enter i s with
  | some m => rfl
  | none => rw [he] at h; cases h
/-- An instruction behind a K gate. -/
def gated : Instr := .widenedForm { k := 2 } (.add 9 3 4)
def SPend : State := onThread fun t => { t with pendC := 0x200 }

/-- Hypotheses of `Obligations.EncodeDecode`. -/
theorem wit_EncodeDecode : ∀ i ∈ [.add 47 47 0, .bk 7 true 0x20000, .widenedForm { sc := 7, ord := 3 } (.ld 8 4 3 0 0), .literalForm {} 0x0123456789ABCDEF (.mvi 9 0), .nop], wellFormed i = true :=
  by decide +kernel

/-- A mismatch armed on the core. -/
def SArmed : State := onCore fun c => { c with sundog := 1 }

/-- Hypotheses of `Obligations.ChecksBeforeEffect`. -/
theorem wit_ChecksBeforeEffect :
    (∃ (i : Instr) (s : State) (m0 m : M) (n : Nat), i.hasWords = true ∧ enter i s = some m0 ∧ m = m0.fresh ∧
      (fieldsOf i).findSome? (fun u => (useVreg u).bind fun n => if n < 6 * m.core.vrows ∨ m.thr.oldRows.isSome then none else some n) = some n ∧
      m.core.sundog = 0) ∧
    (∃ (i : Instr) (s : State) (m0 m : M) (n : Nat), i.hasWords = true ∧ enter i s = some m0 ∧ m = m0.fresh ∧
      (fieldsOf i).findSome? (fun u => (useVreg u).bind fun n => if n < 6 * m.core.vrows ∨ m.thr.oldRows.isSome then none else some n) = some n ∧
      m.core.sundog ≠ 0) ∧
    (∃ (i : Instr) (s : State) (m0 m : M), i.hasWords = true ∧ enter i s = some m0 ∧ m = m0.fresh ∧
      (fieldsOf i).findSome? (fun u => (useVreg u).bind fun n => if n < 6 * m.core.vrows ∨ m.thr.oldRows.isSome then none else some n) = none ∧
      m.deferredBy (fieldsOf i) = none ∧ ((ownUses i (fieldsOf i)).any m.pendingUse = true ∨ m.queueWait (fieldsOf i) = true)) ∧
    (∃ (i : Instr) (s : State) (m0 m : M), i.hasWords = true ∧ enter i s = some m0 ∧ m = m0.fresh ∧ MayIssue i m ∧ gatedOff m i = true ∧ m.core.sundog = 0) ∧
    (∃ (i : Instr) (s : State) (m0 m : M), i.hasWords = true ∧ enter i s = some m0 ∧ m = m0.fresh ∧ m.core.sundog = 0 ∧ MayIssue i m ∧ m.thr.pendTrap = none ∧ gatedOff m i = false ∧
      sysOnly i = true ∧ m.thr.sys = false) ∧
    (∃ (i : Instr) (s : State) (m0 m : M), i.hasWords = true ∧ enter i s = some m0 ∧ m = m0.fresh ∧ m.core.sundog = 0 ∧ MayIssue i m ∧ m.thr.pendTrap = none ∧ gatedOff m i = false ∧
      (sysOnly i = true → m.thr.sys = true) ∧ readOnlySr i = true) ∧
    (∃ (i : Instr) (s : State) (m0 m : M), i.hasWords = true ∧ enter i s = some m0 ∧ m = m0.fresh ∧ m.core.sundog = 0 ∧ MayIssue i m ∧ m.thr.pendTrap = none ∧ gatedOff m i = false ∧
      isMatrix i = true ∧ m.core.lrec.matrix = false) :=
  ⟨⟨.vadd 3 6 3 4, S, mOf (.vadd 3 6 3 4) S, (mOf (.vadd 3 6 3 4) S).fresh, 6, by decide +kernel, mOf_spec (by decide +kernel), rfl, by decide +kernel, by decide +kernel⟩,
   ⟨.vadd 3 6 3 4, SArmed, mOf (.vadd 3 6 3 4) SArmed, (mOf (.vadd 3 6 3 4) SArmed).fresh, 6, by decide +kernel, mOf_spec (by decide +kernel), rfl, by decide +kernel, by decide +kernel⟩,
   ⟨.add 9 3 4, SPend, mOf (.add 9 3 4) SPend, (mOf (.add 9 3 4) SPend).fresh, by decide +kernel, mOf_spec (by decide +kernel), rfl, by decide +kernel, by decide +kernel, .inl (by decide +kernel)⟩,
   ⟨gated, S, mOf (gated) S, (mOf (gated) S).fresh, by decide +kernel, mOf_spec (by decide +kernel), rfl, by unfold MayIssue; decide +kernel, by decide +kernel, by decide +kernel⟩,
   ⟨.eret, S, mOf (.eret) S, (mOf (.eret) S).fresh, by decide +kernel, mOf_spec (by decide +kernel), rfl, by decide +kernel, by unfold MayIssue; decide +kernel, by decide +kernel, by decide +kernel, by decide +kernel, by decide +kernel⟩,
   ⟨.mts 3 0x008, S, mOf (.mts 3 0x008) S, (mOf (.mts 3 0x008) S).fresh, by decide +kernel, mOf_spec (by decide +kernel), rfl, by decide +kernel, by unfold MayIssue; decide +kernel, by decide +kernel, by decide +kernel, by decide +kernel, by decide +kernel⟩,
   ⟨.mwait { d := 0, a := 0, x := {}, lit := none }, SNoMat, mOf (.mwait { d := 0, a := 0, x := {}, lit := none }) SNoMat, (mOf (.mwait { d := 0, a := 0, x := {}, lit := none }) SNoMat).fresh, by decide +kernel, mOf_spec (by decide +kernel), rfl, by decide +kernel, by unfold MayIssue; decide +kernel, by decide +kernel, by decide +kernel, by decide +kernel, by decide +kernel⟩⟩

/-- Hypotheses of `Obligations.TrapEntry`. -/
theorem wit_TrapEntry :
    (∃ (m : M) (c : Core), m.st.core? m.core.id = some c ∧ m.thr.status.getLsbD 2 = false) ∧
    (∃ (m : M) (c : Core), m.st.core? m.core.id = some c ∧ m.thr.status.getLsbD 2 = true) :=
  ⟨⟨m0, _, some_spec (d := core0) (by decide +kernel), by decide +kernel⟩,
   ⟨{ m0 with thr := { t0 with status := 5 } }, _, some_spec (d := core0) (by decide +kernel), by decide +kernel⟩⟩

/-- Hypotheses of `Obligations.CommitFrame`. -/
theorem wit_CommitFrame :
    ∃ (m : M) (c : Core) (i : Instr) (x : Fin 8) (n : Nat), m.st.core? m.core.id = some c ∧ isVector i = false ∧ x ≠ m.tid ∧ n ≠ m.core.id :=
  ⟨m0, _, .nop, 7, 1, some_spec (d := core0) (by decide +kernel), by decide +kernel, by decide +kernel, by decide +kernel⟩

/-- Hypotheses of `Obligations.RegisterFrame`. -/
theorem wit_RegisterFrame :
    (∃ (s : State) (m : M) (i : Instr), i ∈ [.add 63 3 4, .clz 0 3, .addi 31 3 0x200, .mvi 47 0x20000, .cclr 9 3] ∧ Issues i s m) ∧
    (∃ (s : State) (m : M) (i : Instr), i ∈ [.ceq 7 3 4, .kand 0 1 2, .kmovc 1 3] ∧ Issues i s m) :=
  ⟨⟨S, _, .addi 31 3 0x200, by decide +kernel, issues_entered (by decide +kernel)⟩,
   ⟨S, _, .ceq 7 3 4, by decide +kernel, issues_entered (by decide +kernel)⟩⟩

/-- Hypotheses of `Obligations.LocalStoreFrame`. -/
theorem wit_LocalStoreFrame :
    (∃ (s : State) (m : M) (d a : F6) (r : MRef) (n : Nat) (v : Cap), n = szBytes 4 ∧ v = m.src d ∧ r = m.ref none a 0 0 n ∧
      LocalOk m r (if n = 16 ∧ v.tag then [.st, .tgw] else [.st]) n ∧ m.acqPending = false ∧ r.va + n ≤ 0x3C000 ∧ m.core.mem.wf = true ∧
      Issues (.st d a 4 0 0) s m) ∧
    (∃ (s : State) (m : M) (d a : F6) (r : MRef) (v : Cap), v = Cap.ofInt (m.int d) ∧ r = m.ref none a 0 0 8 ∧ LocalOk m r [.st] 8 ∧
      m.acqPending = false ∧ r.va + 8 ≤ 0x3C000 ∧ m.core.mem.wf = true ∧ Issues (.stfeKeep d a 0 0) s m) :=
  ⟨⟨S, entered (.st 2 1 4 0 0) S, 2, 1, _, _, _, rfl, rfl, rfl, by unfold LocalOk; decide +kernel, by decide +kernel, by decide +kernel, by decide +kernel,
     issues_entered (by decide +kernel)⟩,
   ⟨S, entered (.stfeKeep 3 1 0 0) S, 3, 1, _, _, rfl, rfl, by unfold LocalOk; decide +kernel, by decide +kernel, by decide +kernel, by decide +kernel,
     issues_entered (by decide +kernel)⟩⟩

/-- Capabilities at the edges of the checks, in c20 (no permission), c21 (cursor at the top), c22 (half inside) and c23 (not aligned). -/
def SEdge : State := onThread fun t =>
  { t with c := (((t.c.set 20 (mkCap 1 0 0x3C000 0x100 0)).set 21
      (mkCap 1 0 0x3C000 0x3C000 0xFFF)).set 22 (mkCap 1 0 0x104 0x100 0xFFF)).set 23 (mkCap 1 0 0x3C000 0x101 0xFFF) }

/-- Hypotheses of `Obligations.AccessChecks`. -/
theorem wit_AccessChecks :
    ∃ (s : State) (f : F6 → M) (r : F6 → MRef), (∀ a ∈ [3, 10, 20, 21, 22, 23], Issues (.ld 9 a 3 0 0) s (f a) ∧ r a = (f a).ref none a 0 0 8) ∧
      (r 3).c.tag = false ∧ ((r 10).c.tag = true ∧ (r 10).c.kind ≠ 0 ∧ (r 10).c.kind ≠ 1 ∧ (r 10).c.kind ≠ 6) ∧
      ((r 20).c.kind = 1 ∧ ([.ld].all (capHas (r 20).c)) = false) ∧ ((r 21).c.kind = 1 ∧ (r 21).c.top ≤ (r 21).va) ∧
      ((r 22).c.base ≤ (r 22).va ∧ (r 22).va < (r 22).c.top ∧ (r 22).c.top < (r 22).va + 8) ∧
      ((r 23).c.base ≤ (r 23).va ∧ (r 23).va + 8 ≤ (r 23).c.top ∧ (r 23).va % 8 ≠ 0) := by
  refine ⟨SEdge, fun a => entered (.ld 9 a 3 0 0) SEdge, fun a => (entered (.ld 9 a 3 0 0) SEdge).ref none a 0 0 8, ?_, ?_, ?_, ?_, ?_, ?_, ?_⟩
  · intro a ha
    refine ⟨issues_entered ?_, rfl⟩
    revert a
    decide +kernel
  all_goals decide +kernel

/-- Hypotheses of `Obligations.CapabilitiesNeverWiden`. -/
theorem wit_CapabilitiesNeverWiden :
    (∃ (s : State) (m : M) (a : F6), SoundCap (m.src a) ∧ ((m.src a).tag = true → (m.src a).kind ∈ [0, 1, 3, 6]) ∧ Issues (.cadd 9 a 3) s m) ∧
    (∃ (s : State) (m : M) (a : F6), SoundCap (m.src a) ∧ ((m.src a).tag = true → (m.src a).kind ∈ [0, 1, 3, 6]) ∧ Issues (.cset 9 a 3) s m) ∧
    (∃ (s : State) (m : M) (a : F6), SoundCap (m.src a) ∧ ((m.src a).tag = true → (m.src a).kind ∈ [0, 1, 2, 3, 5, 6]) ∧ Issues (.cprm 9 a 3) s m) ∧
    (∃ (s : State) (m : M) (a : F6), (m.src a).tag = true ∧ (m.src a).kind ∈ [0, 1] ∧ Issues (.cbnd 9 a 11) s m) ∧
    (∃ (s : State) (m : M) (a : F6), (m.src a).tag = true ∧ (m.src a).kind ∈ [0, 1] ∧ Issues (.cbndx 9 a 11) s m) ∧
    (∃ (s : State) (m : M), Issues (.cclr 9 3) s m) :=
  ⟨⟨S, entered (.cadd 9 1 3) S, 1, by unfold SoundCap; decide +kernel, by decide +kernel, issues_entered (by decide +kernel)⟩,
   ⟨S, entered (.cset 9 2 3) S, 2, by unfold SoundCap; decide +kernel, by decide +kernel, issues_entered (by decide +kernel)⟩,
   ⟨S, entered (.cprm 9 1 3) S, 1, by unfold SoundCap; decide +kernel, by decide +kernel, issues_entered (by decide +kernel)⟩,
   ⟨S, entered (.cbnd 9 1 11) S, 1, by decide +kernel, by decide +kernel, issues_entered (by decide +kernel)⟩,
   ⟨S, entered (.cbndx 9 1 11) S, 1, by decide +kernel, by decide +kernel, issues_entered (by decide +kernel)⟩,
   ⟨S, _, issues_entered (by decide +kernel)⟩⟩

end

end Sys2Proof.Tests
end

section
/-!
What taking a trap, committing an instruction and writing a register leave as they were (R13, R15, R137, R233, R236, R259, R312), and the
traps of a load or store on its capability operand, in their order (R319).
-/
namespace Sys2Proof.Machine
open Sys2Proof Sys2Proof.Safety

/-! ## Taking a trap (R233, R236) -/

/-- Thread `t` as it enters the handler of the context whose code capability is `code`, at instruction word `ins`. -/
def Thread.inHandler (t : Thread) (code : Cap) (ins : W32) (cause : BitVec 8) (val : W64) : Thread :=
  { t with
    trappc := t.pc, trapcause := cause.setWidth 64, trapval := val, trapins := ins.setWidth 64
    status := 0b101 ||| ((t.status &&& 1) <<< 1)
    pc := code.setCursor t.trapvec
    granted := false, tile := [], held := [], pendTrap := none, waitEnd := none, oldRows := none }

theorem takeTrap_outside {m : M} (h : m.thr.status.getLsbD 2 = false) (cause : BitVec 8) (val : W64) :
    m.takeTrap cause val = { m with thr := m.thr.inHandler m.core.desc.codecap m.ins cause val } := by
  simp only [M.takeTrap, h, Bool.false_eq_true, if_false, Thread.inHandler]

theorem takeTrap_inside {m : M} (h : m.thr.status.getLsbD 2 = true) (cause : BitVec 8) (val : W64) :
    m.takeTrap cause val =
      { m with thr := { m.thr with run := .halted }, st := m.st.post (.launchTermination m.core.launch 3 0x10 none) } := by
  simp only [M.takeTrap, h, if_true]

/-- In the handler SYS and INTRAP are set, PSYS is the old SYS, and no other bit of STATUS is (R233). -/
theorem inHandler_status (t : Thread) (code : Cap) (ins : W32) (cause : BitVec 8) (val : W64) :
    (t.inHandler code ins cause val).status.getLsbD 0 = true ∧
      (t.inHandler code ins cause val).status.getLsbD 1 = t.status.getLsbD 0 ∧
      (t.inHandler code ins cause val).status.getLsbD 2 = true ∧ (t.inHandler code ins cause val).status >>> 3 = 0 := by
  have hs : (t.inHandler code ins cause val).status = 0b101 ||| ((t.status &&& 1) <<< 1) := rfl
  rw [hs]
  refine ⟨by simp, by simp, by simp, ?_⟩
  rw [BitVec.ushiftRight_or_distrib]
  apply BitVec.eq_of_getLsbD_eq
  intro i _
  simp

/-- The core found after a `flush`: the core worked on, with the thread's own record in place and every other thread and core as it was. -/
theorem flush_finds {m : M} {c0 : Core} (h : m.st.core? m.core.id = some c0) :
    ∃ ts : Vector Thread 8, m.flush.core? m.core.id = some { m.core with thr := ts } ∧ ts.get m.tid = m.thr ∧
      (∀ u, u ≠ m.tid → ts.get u = m.core.thr.get u) ∧ ∀ n, n ≠ m.core.id → m.flush.core? n = m.st.core? n :=
  ⟨_, flush_core h, vget_set _ _ _, fun _ hu => vget_set_ne _ _ hu.symm, fun _ hn => flush_other hn⟩

/-- Settles O54: outside a handler the thread's record becomes `Thread.inHandler`, and inside one only `run` and the messages change. -/
theorem trapEntry : Obligations.TrapEntry := by
  intro m c0 cause val hc
  constructor
  · intro h
    rw [takeTrap_outside h]
    obtain ⟨ts, hk, ht, ho, hn⟩ := flush_finds (m := { m with thr := m.thr.inHandler m.core.desc.codecap m.ins cause val }) hc
    obtain ⟨hsys, hpsys, hin, hrest⟩ := inHandler_status m.thr m.core.desc.codecap m.ins cause val
    refine ⟨_, hk, ?_⟩
    rw [ht]
    exact ⟨rfl, rfl, rfl, rfl, hsys, hpsys, hin, hrest, rfl, rfl, rfl, rfl, rfl, rfl, rfl, rfl, rfl, rfl, rfl, rfl, rfl, rfl,
      ho, rfl, rfl, hn⟩
  · intro h
    rw [takeTrap_inside h]
    obtain ⟨ts, hk, ht, -⟩ := flush_finds (m := { m with
      thr := { m.thr with run := .halted }, st := m.st.post (.launchTermination m.core.launch 3 0x10 none) }) hc
    refine ⟨_, hk, ?_⟩
    rw [ht]
    exact ⟨rfl, rfl, rfl, rfl, rfl, rfl, rfl⟩

/-! ## The commit (R15, R259, R312) -/

/-- Quiet steps bind no core and free none. -/
theorem quiet_core? {s t : State} (h : Quiet s t) (n : Nat) : t.core? n = s.core? n := by
  unfold State.core?
  rw [h.cores]

/-- Settles O55, from `retire_eq`, which says everything that retiring does. -/
theorem commitFrame : Obligations.CommitFrame := by
  intro i m0 m c0 hc
  obtain ⟨st, t, vb, vp, sc, hr, hq, ht, hf, hv⟩ := retire_eq i m0 m
  unfold committed
  rw [hr]
  obtain ⟨ts, hk, hts, ho, hn⟩ := flush_finds
    (m := { m with st := st, thr := t, core := { m.core with vbusy := vb, vpipe := vp, sundogC := sc } }) ((quiet_core? hq _).trans hc)
  refine ⟨_, hk, ?_, ho, rfl, fun hi => ?_, flush_same hq, fun n hne => (hn n hne).trans (quiet_core? hq n)⟩
  · rw [← hf, hts]
    exact ht
  · obtain ⟨rfl, rfl, rfl⟩ := hv hi
    rfl

/-! ## Registers (R13, R137) -/

/-- What issues works on a core of the machine. -/
theorem issues_core? {i : Instr} {s : State} {m : M} (h : Issues i s m) : m.st.core? m.core.id = some m.core := by
  obtain ⟨m0, he, rfl, -⟩ := h
  obtain ⟨hst, hc, hid, -⟩ := enter_spec he
  show m0.st.core? m0.core.id = some m0.core
  rw [hst, hid]
  exact hc

theorem issues_flags {i : Instr} {s : State} {m : M} (h : Issues i s m) : m.flags = 0 := by
  obtain ⟨m0, he, rfl, -⟩ := h
  obtain ⟨-, -, -, -, -, -, -, -, -, -, hf⟩ := enter_spec he
  exact hf

theorem quiet_moduleSame {s t u : State} (h : Quiet s t) (h2 : ModuleSame t u) : ModuleSame s u :=
  ⟨by rw [← h.1, ← h2.1], diesSame_trans h.2 h2.2⟩

/-- Raising no flag leaves FPFLAGS. -/
theorem threadSame_noFlags {t u : Thread} {f : FFlags} (hf : f = 0)
    (h : ThreadSame { t with fpflags := t.fpflags ||| f.setWidth 64 } u) : ThreadSame t u := by
  subst hf
  have e : t.fpflags ||| (0 : FFlags).setWidth 64 = t.fpflags := by simp
  rwa [e] at h

/-- `ThreadSame` leaves the queue registers open. -/
theorem threadSame_queues {t u : Thread} {q : Vector Queue 8} (h : ThreadSame { t with q := q } u) : ThreadSame t u := by
  have := congrArg (fun x : Thread => { x with q := t.q }) h
  exact this

/-- The effect of the scalar instruction `i` is one write of register `d`. -/
structure WritesReg (d : F6) (i : Instr) : Prop where
  scalar : isVector i = false
  completes : ∀ (s : State) (m : M), Issues i s m → ∃ v : Cap, Completes i s m (m.wr d v)

/-- The effect of the scalar instruction `i` is one write of mask register `k`. -/
structure WritesMask (k : BitVec 3) (i : Instr) : Prop where
  scalar : isVector i = false
  completes : ∀ (s : State) (m : M), Issues i s m → ∃ v : W64, Completes i s m (m.setMask k v)

theorem writesReg_of {d : F6} {i : Instr} {body : Act} (hv : isVector i = false) (he : ∀ s, exec i s = runInstr i body s)
    (hb : ∀ m, ∃ v, body m = .ok (m.wr d v)) : WritesReg d i :=
  ⟨hv, fun s m h => (hb m).imp fun _ hw => (he s).trans (runInstr_completes h hw)⟩

theorem writesMask_of {k : BitVec 3} {i : Instr} {body : Act} (hv : isVector i = false) (he : ∀ s, exec i s = runInstr i body s)
    (hb : ∀ m, ∃ v, body m = .ok (m.setMask k v)) : WritesMask k i :=
  ⟨hv, fun s m h => (hb m).imp fun _ hw => (he s).trans (runInstr_completes h hw)⟩

/-- Settles O56: each listed effect is one register or mask write, and the frame is that of the write (`wr_eq`) and of the commit. -/
theorem registerFrame : Obligations.RegisterFrame := by
  intro s m
  constructor
  · intro d a b imm p l i18 k x y i hi h
    have hw : WritesReg d i := by
      clear h
      revert i
      simp only [List.forall_mem_cons, List.not_mem_nil, IsEmpty.forall_iff, implies_true, and_true]
      -- one goal for each listed instruction, whose effect is the write by definition
      and_intros
      all_goals exact writesReg_of rfl (fun _ => rfl) fun _ => ⟨_, rfl⟩
    obtain ⟨v, hx⟩ := hw.completes s m h
    obtain ⟨st, q, c, w, ts, e, hq, hcs, hws, hts⟩ := wr_eq m d v
    refine ⟨v, committed i m (m.wr d v), ?_⟩
    rw [e] at hx ⊢
    obtain ⟨n, hn, ht, ho, -, hc, hM, hne⟩ := commitFrame i m
      { m with st := st, thr := { m.thr with c := c, q := q }, core := { m.core with w := w, thr := ts } } m.core
      ((quiet_core? hq _).trans (issues_core? h))
    have hthr := threadSame_noFlags (issues_flags h) ht
    have hcore := hc hw.scalar
    have hregs : (n.thr.get m.tid).c = c := congrArg Thread.c hthr
    have hteam : n.w = w := congrArg Core.w hcore
    refine ⟨n, hx, rfl, hn, fun r hr => ?_, ?_, fun r hr => ?_, fun u hu => ?_,
      congrArg (fun c : Core => { c with thr := m.core.thr, w := m.core.w }) hcore,
      quiet_moduleSame hq hM, fun j hj => (hne j hj).trans (quiet_core? hq j)⟩
    · rw [hregs]
      exact hcs r hr
    · rw [hregs]
      exact threadSame_queues hthr
    · rw [hteam]
      exact hws r hr
    · rw [ho u hu]
      exact hts u
  · intro d a b imm p l i18 k x y i hi h
    have hw : WritesMask k i := by
      clear h
      revert i
      simp only [List.forall_mem_cons, List.not_mem_nil, IsEmpty.forall_iff, implies_true, and_true]
      -- one goal for each listed instruction, whose effect is the write by definition
      and_intros
      all_goals exact writesMask_of rfl (fun _ => rfl) fun _ => ⟨_, rfl⟩
    obtain ⟨v, hx⟩ := hw.completes s m h
    have hcore := issues_core? h
    obtain ⟨n, hn, ht, ho, -, hc, hM, hne⟩ := commitFrame i m (m.setMask k v) m.core hcore
    exact ⟨v, _, n, hx, rfl, hn, threadSame_noFlags (issues_flags h) ht, ho, hc hw.scalar, hM, hne⟩

/-! ## The checks of an access (R319) -/

theorem checkCap_untagged {f : F6} {c : Cap} {ts : List Nat} {ps : List Perm} (h : c.tag = false) :
    checkCap f c ts ps = .error (.trap 0x04 (f.setWidth 64) []) := by
  simp only [checkCap, trapIf, h, Bool.not_false, if_true, bind, Except.bind]
  rfl

theorem checkCap_wrongType {f : F6} {c : Cap} {ts : List Nat} {ps : List Perm} (h : c.tag = true) (h2 : ts.contains c.kind = false) :
    checkCap f c ts ps = .error (.trap 0x07 (f.setWidth 64) []) := by
  simp only [checkCap, trapIf, h, h2, Bool.not_true, Bool.not_false, Bool.false_eq_true, if_false, if_true, bind, Except.bind]
  rfl

theorem checkCap_missing {f : F6} {c : Cap} {ts : List Nat} {ps : List Perm} (h : c.tag = true) (h2 : ts.contains c.kind = true)
    (h3 : ps.all (capHas c) = false) : checkCap f c ts ps = .error (.trap 0x06 (f.setWidth 64) []) := by
  simp only [checkCap, trapIf, h, h2, h3, Bool.not_true, Bool.not_false, Bool.false_eq_true, if_false, if_true, bind, Except.bind]
  rfl

/-- The first byte lies outside the bounds. -/
theorem checkBounds_first {c : Cap} {a n : Nat} (hk : c.kind = 0 ∨ c.kind = 1) (hn : n ≠ 0) (h : a < c.base ∨ c.top ≤ a) :
    checkBounds c a n = .error (.trap 0x05 (BitVec.ofNat 64 a) []) := by
  unfold checkBounds
  rw [if_neg (by omega), if_neg hn, if_pos h]
  rfl

/-- The first byte lies inside the bounds and the last one does not. -/
theorem checkBounds_last {c : Cap} {a n : Nat} (hk : c.kind = 0 ∨ c.kind = 1) (hn : n ≠ 0) (h1 : c.base ≤ a) (h2 : a < c.top)
    (h : c.top < a + n) : checkBounds c a n = .error (.trap 0x05 (BitVec.ofNat 64 c.top) []) := by
  unfold checkBounds
  rw [if_neg (by omega), if_neg hn, if_neg (by omega), if_pos h]
  rfl

theorem checkAligned_off {a n : Nat} (h : a % n ≠ 0) : checkAligned a n = .error (.trap 0x08 (BitVec.ofNat 64 a) []) := by
  simp [checkAligned, h, trapIf, causeMisaligned]

section
variable {r : MRef} {ps : List Perm} {n : Nat} {e : Stop}

/-- The checks of R319 stop at the first that fails. -/
theorem checkRef_cap (h : checkCap r.f r.c [0, 1, 6] ps = .error e) : checkRef r ps n = .error e := by
  simp only [checkRef, h, bind, Except.bind]

theorem checkRef_bounds (h : checkCap r.f r.c [0, 1, 6] ps = .ok ()) (h2 : checkBounds r.c r.va n = .error e) :
    checkRef r ps n = .error e := by
  simp only [checkRef, h, h2, bind, Except.bind]

theorem checkRef_aligned (h : checkCap r.f r.c [0, 1, 6] ps = .ok ()) (h2 : checkBounds r.c r.va n = .ok ())
    (h3 : checkAligned r.va n = .error e) : checkRef r ps n = .error e := by
  simp only [checkRef, h, h2, h3, bind, Except.bind]

end

/-- A load or a store stops where its operand's checks stop, before any effect. -/
theorem loadTo_stops {m : M} {sx : Bool} {sz : BitVec 3} {ord : BitVec 2} {sc : Scope} {d : F6} {r : MRef} {e : Stop}
    (h : checkRef r [.ld] (szBytes sz) = .error e) : m.loadTo sx sz ord sc d r = .error e := by
  simp only [M.loadTo, h, bind, Except.bind]

theorem storeFrom_stops {m : M} {sz : BitVec 3} {ord : BitVec 2} {sc : Scope} {v : Cap} {r : MRef} {e : Stop} (hr : m.restart = false)
    (h : checkRef r (if szBytes sz = 16 ∧ v.tag then [.st, .tgw] else [.st]) (szBytes sz) = .error e) :
    m.storeFrom sz ord sc v r = .error e := by
  have hs : m.restartCheck r.c = .ok () := by simp [M.restartCheck, hr, trapIf]
  simp only [M.storeFrom, hs, h, bind, Except.bind]

/-- A trap without records that the effect of an instruction raises is the trap that the thread takes. -/
theorem runInstr_traps {i : Instr} {body : Act} {s : State} {m : M} {cause : BitVec 8} {val : W64} (h : Issues i s m)
    (hb : body m = .error (.trap cause val [])) : runInstr i body s = .next (trapped m cause val) :=
  runInstr_stops h hb rfl

/-- Settles O58: each case is the first check of R319 that fails. -/
theorem accessChecks : Obligations.AccessChecks := by
  intro s m i d a sz am ea ps r hi hr h
  have traps : ∀ {cause : BitVec 8} {val : W64}, checkRef r ps (szBytes sz) = .error (.trap cause val []) → Traps i s m cause val := by
    intro cause val hc
    subst hr
    rcases hi with ⟨rfl, rfl⟩ | ⟨rfl, rfl⟩ | ⟨rfl, hre, rfl⟩
    · exact (exec_ld ..).trans (runInstr_traps h (loadTo_stops hc))
    · exact (exec_lds ..).trans (runInstr_traps h (loadTo_stops hc))
    · exact (exec_st ..).trans (runInstr_traps h (storeFrom_stops hre hc))
  have hf : r.f = a := by rw [hr]; rfl
  have hn : szBytes sz ≠ 0 := Nat.two_pow_pos sz.toNat |>.ne'
  rw [← hf]
  refine ⟨fun ht => traps (checkRef_cap (checkCap_untagged ht)), fun ht h0 h1 h6 => traps (checkRef_cap (checkCap_wrongType ht ?_)),
    fun ht hk hp => traps (checkRef_cap (checkCap_missing ht ?_ hp)),
    fun ht hk hp hb => traps (checkRef_bounds (checkCap_ok ht ?_ hp) (checkBounds_first hk hn hb)),
    fun ht hk hp hb he => traps (checkRef_bounds (checkCap_ok ht ?_ hp) (checkBounds_last hk hn hb.1 hb.2 he)),
    fun ht hk hp hb ha => traps (checkRef_aligned (checkCap_ok ht ?_ hp) (checkBounds_ok hb.1 hb.2) (checkAligned_off ha))⟩
  · simp [h0, h1, h6]
  · rcases hk with hk | hk | hk <;> simp [hk]
  all_goals rcases hk with hk | hk <;> simp [hk]

end Sys2Proof.Machine
end

section
/-!
What reset leaves (R25, R47, R50, R88, R171), and the steps of power, reset and thermal control (R25–R30, R33, R75, R110).
-/
namespace Sys2Proof.Machine
open Sys2Proof Sys2Proof.Safety

/-! ## Reset -/

/-- Every die starts with its factory values. -/
theorem reset_die (d : Nat) : State.reset.die d = {} := Vector.getElem_replicate ..

/-- An empty memory lists nothing: every byte is zero, its word full, its granule untagged and its block clean (R32). -/
theorem emptyMemory_reads (a : Nat) :
    ({} : Memory).byte a = 0 ∧ ({} : Memory).full a = true ∧ ({} : Memory).tag a = false ∧ ({} : Memory).bad a = false :=
  ⟨rfl, rfl, rfl, rfl⟩

/-- Settles O60: the registers are the default values of the state's fields, and memory is the empty one. -/
theorem resetValues : Obligations.ResetValues := by
  refine ⟨by decide, fun _ => Vector.getElem_replicate .., fun d => ?_, emptyMemory_reads, ⟨rfl, fun _ hc => nomatch hc⟩, rfl⟩
  rw [reset_die]
  decide

/-! ## Throttling (R26, R28) -/

theorem setThrottle_throttle (s : State) (n : Nat) : (s.setThrottle n).throttle = n := by
  unfold State.setThrottle
  split
  · next h => exact h.symm
  · rfl

section
variable {s : State}

/-- R28: a hot die holds the level at 8. -/
theorem nextThrottle_hot (h : s.dies.any (·.dieHot) = true) : nextThrottle s = 8 := if_pos h

/-- R26: a mean above `PLIM` raises the level. -/
theorem nextThrottle_above (h : s.dies.any (·.dieHot) = false) (ha : s.plim * s.pcount < s.psum) :
    nextThrottle s = Nat.min 8 (s.throttle + 1) :=
  (if_neg (by simp [h])).trans (if_pos ha)

/-- R26: a mean more than 100 W below `PLIM` lowers the level. -/
theorem nextThrottle_below (h : s.dies.any (·.dieHot) = false) (hb : s.psum + 100 * s.pcount < s.plim * s.pcount) :
    nextThrottle s = s.throttle - 1 :=
  (if_neg (by simp [h])).trans ((if_neg (by omega)).trans (if_pos hb))

/-- R26: a mean in the band of 100 W under `PLIM` leaves the level. -/
theorem nextThrottle_within (h : s.dies.any (·.dieHot) = false) (ha : s.psum ≤ s.plim * s.pcount)
    (hb : s.plim * s.pcount ≤ s.psum + 100 * s.pcount) : nextThrottle s = s.throttle :=
  (if_neg (by simp [h])).trans ((if_neg (by omega)).trans (if_neg (by omega)))

theorem powerIntervalEnd_sets {n : Nat} (h : nextThrottle s = n) :
    exec .powerIntervalEnd s = .next { s.setThrottle n with psum := 0, pcount := 0 } := by
  subst h
  rfl

end

/-! ## Temperatures (R28, R29) -/

/-- The last temperature noted under a number is the one found there. -/
theorem noteTemp_finds (s : State) (n temp : Nat) : (s.noteTemp n temp).temps.find? (fun x => decide (x.1 = n)) = some (n, temp) :=
  List.find?_cons_of_pos (decide_eq_true rfl)

@[simp] theorem noteTemp_power (s : State) (n temp : Nat) : (s.noteTemp n temp).power = s.power := rfl

/-- R29: an action goes on until its stack is 5 °C below the temperature that starts it. -/
theorem hbmAction_iff {on : Bool} {temp stop : Nat} :
    hbmAction on temp (stop + 5) = true ↔ stop + 5 ≤ temp ∨ (on = true ∧ stop < temp) := by
  simp [hbmAction]

/-- Below 105 °C a report renews its stack's two actions and leaves those of the others. -/
theorem hbmThermalReport_acts {s : State} {k temp : Nat} (hp : s.power = true) (ht : temp < 105) :
    exec (.hbmThermalReport k temp) s = .next { s.noteTemp (8 + k % 8) temp with
      hbmHot := (if hbmAction (s.hbmHot.contains (k, 1)) temp 85 then [(k, 1)] else []) ++
        (if hbmAction (s.hbmHot.contains (k, 2)) temp 95 then [(k, 2)] else []) ++ s.hbmHot.filter fun x => decide (x.1 ≠ k) } :=
  (if_neg (by simp [hp])).trans (if_neg (by omega))

/-- Settles O33: each clause is one path through the branches of its step; the levels and the actions are those of `nextThrottle` and
`hbmAction`. -/
theorem powerEvents : Obligations.PowerEvents := by
  constructor
  · intro s
    refine ⟨fun h => if_pos h, ?_, rfl, ?_, ?_, ?_, ?_, ?_, ?_, rfl⟩
    -- power-good (R30, R31)
    · rintro t h rfl
      exact if_neg (by simp [h])
    -- a module reset, with the main rails off, held, at once (R110)
    · exact fun hold h => if_pos (by simp [h])
    · exact fun h => if_neg (by simp [h])
    · exact fun h => if_neg (by simp [h])
    -- the release of a reset: none held, with power, without
    · exact fun h => if_pos (by simp [h])
    · exact fun hh hp => (if_neg (by simp [hh])).trans (congrArg _ (if_pos hp))
    · exact fun hh hp => (if_neg (by simp [hh])).trans (congrArg _ (if_neg (by simp [hp])))
  · intro s
    refine ⟨setThrottle_throttle s, fun w h => congrArg _ (if_neg h), fun w h => congrArg _ (if_pos h),
      fun h => powerIntervalEnd_sets (nextThrottle_hot h), fun h ha => powerIntervalEnd_sets (nextThrottle_above h ha),
      fun h hb => powerIntervalEnd_sets (nextThrottle_below h hb), fun h ha hb => powerIntervalEnd_sets (nextThrottle_within h ha hb),
      fun n temp => ⟨noteTemp_finds s n temp, rfl⟩, ?_, ?_, ?_, ?_, ?_, ?_, ?_, rfl⟩
    -- a die's temperature (R28): rails off, 115 °C, from 100 °C, below 95 °C, between
    · exact fun d temp hp => if_pos (by simp [hp])
    · exact fun d temp hp ht => (if_neg (by simp [hp])).trans (if_pos ht)
    · exact fun d temp hp ht hl => (if_neg (by simp [hp])).trans ((if_neg (by omega)).trans (if_pos ht))
    · exact fun d temp hp ht =>
        (if_neg (by simp [hp])).trans ((if_neg (by omega)).trans ((if_neg (by omega)).trans (if_pos ht)))
    · exact fun d temp hp ht hl =>
        (if_neg (by simp [hp])).trans ((if_neg (by omega)).trans ((if_neg (by omega)).trans (if_neg (by omega))))
    -- a stack's temperature (R29): 105 °C, below
    · exact fun k temp hp ht => (if_neg (by simp [hp])).trans (if_pos ht)
    · intro k temp hp ht
      rw [hbmThermalReport_acts hp ht]
      simp only [hbmAction_iff (stop := 80), hbmAction_iff (stop := 90), Nat.reduceAdd]

end Sys2Proof.Machine
end

section
/-!
The steps of bring-up and of the Harvy port (R25, R31–R34, R75, R107–R109).
-/
namespace Sys2Proof.Machine
open Sys2Proof Sys2Proof.Safety

/-! ## Bring-up (R31) -/

theorem exec_bringupStepComplete (ok : Bool) (d : Nat) (s : State) :
    exec (.bringupStepComplete ok d) s = execBringupStepComplete ok d s := rfl

/-! ## Attestation (R109) -/

theorem exec_harvyAttest (n : BitVec 128) (s : State) :
    exec (.harvyAttest n) s = .next ((s.attestAsk n false).getD s.refused) := rfl

theorem exec_attestationReport (s : State) : exec .attestationReport s = execAttestationReport s := rfl

section
variable {s : State} (n : BitVec 128) (mailbox : Bool)

/-- One request is served and four wait: a sixth finds no room. -/
theorem attestAsk_full (h : 5 ≤ s.attest.length) : s.attestAsk n mailbox = none := if_pos h

/-- The first request starts the 50 ms of its report. -/
theorem attestAsk_first (h : s.attest = []) :
    s.attestAsk n mailbox = some (({ s with attest := [(n, mailbox)] } : State).after (us 50000) .attestationReport) := by
  simp [State.attestAsk, h]

/-- A later request waits behind the one being served. -/
theorem attestAsk_waits (h : s.attest ≠ []) (hl : s.attest.length < 5) :
    s.attestAsk n mailbox = some { s with attest := s.attest ++ [(n, mailbox)] } := by
  simp [State.attestAsk, h, Nat.not_le.mpr hl]

end

/-- Settles O34: each clause is one path through the branches of its step, the completed step of bring-up being found by its number. -/
theorem bringUpAndHarvyPortEvents : Obligations.BringUpAndHarvyPortEvents := by
  constructor
  · intro s
    refine ⟨fun ok d h => if_pos (by simp [h]), fun d hb => (if_neg (by simp [hb])).trans (if_pos rfl),
      fun d hb hn => ?_, fun d hb hn => ?_, fun d hb hn => ?_, fun d k hb hn hk => ?_, fun d hb hn hk => ?_, fun d hb hn hk => ?_,
      fun d hb hn hk => ?_, fun d hb hn => ?_, fun d hb hn => ?_, fun d => rfl,
      -- a site's answer, and the end of a die's time (R31): each out of turn and in turn
      fun d k f g h => if_pos (by simpa using h), fun d k f g hb h3 hk ha => if_neg (by rw [hb, h3, ha]; simp; omega),
      fun d h => if_pos (by simpa using h), fun d hb h3 hl => if_neg (by rw [hb, h3]; simp; omega)⟩
    -- what remains is a completed step of bring-up (R31): the clauses of steps 1 to 7
    all_goals
      rw [exec_bringupStepComplete, execBringupStepComplete, hb, hn]
      refine (if_neg nofun).trans ((if_neg nofun).trans ?_)
    · rfl
    · rfl
    · rfl
    · simp only [hk]
    · simp only [hk]
    · exact congrArg Host.Outcome.next (if_pos hk)
    · exact congrArg Host.Outcome.next (if_neg hk)
    · rfl
    · rfl
  · intro s
    refine ⟨fun w h => congrArg _ (if_pos (decide_eq_true h)), fun w h => congrArg _ (if_neg (by simpa [plimOk] using h)),
      fun n h => congrArg _ (if_pos (by simpa [State.modidOpen] using h)),
      fun n hh h6 => congrArg _ (if_neg (by simp [State.modidOpen, hh, h6])),
      fun img h => congrArg _ (if_neg (by simp [h])), fun img h => congrArg _ (if_pos h),
      fun n h => ?_, fun n h => ?_, fun n h hl => ?_, ?_, ?_, fun h => ?_⟩
    -- a request (R109): no room, the first, one that waits
    · rw [exec_harvyAttest, attestAsk_full n false h, Option.getD_none]
    · rw [exec_harvyAttest, attestAsk_first n false h, Option.getD_some]
    · rw [exec_harvyAttest, attestAsk_waits n false h hl, Option.getD_some]
    -- a report (R109): to the Harvy port, to the mailbox, none due
    · rintro n rest r t h rfl rfl
      rw [exec_attestationReport, execAttestationReport, h]
      rfl
    · rintro n rest r t h rfl rfl
      rw [exec_attestationReport, execAttestationReport, h]
      rfl
    · rw [exec_attestationReport, execAttestationReport, h]

end Sys2Proof.Machine
end

section
/-!
The steps of links, topology discovery and the Lull (R17, R31, R70–R73, R91–R93).
-/
namespace Sys2Proof.Machine
open Sys2Proof Sys2Proof.Safety

/-! ## Links that fail (R70, R73) -/

/-- A part, of the four, that has not failed yet. -/
theorem not_failed_or_absent {bad : List Nat} {n : Nat} (hb : bad.contains n = false) (hn : n < 4) :
    ¬ (bad.contains n = true ∨ 4 ≤ n) :=
  not_or.mpr ⟨ne_true_of_eq_false hb, by omega⟩

/-- R17: gateways 0 and 1 are the two ends of the ring's links, gateways 2 those of the chords. -/
theorem farEnd_involutive : ∀ d : Nat, d < 8 → (farEnd (.dieLink d 0)).bind farEnd = some (.dieLink d 0) ∧
    (farEnd (.dieLink d 1)).bind farEnd = some (.dieLink d 1) ∧ (farEnd (.dieLink d 2)).bind farEnd = some (.dieLink d 2) := by
  decide

theorem exec_dieLinkModuleFailure (d g m : Nat) (s : State) :
    exec (.dieLinkModuleFailure d g m) s = execDieLinkModuleFailure d g m s := rfl

/-! ## Topology discovery (R91) -/

/-- Two updates that agree on the die give the same state. -/
theorem setDie_congr {s : State} {d : Nat} {f g : Die → Die} (h : f (s.die d) = g (s.die d)) : s.setDie d f = s.setDie d g := by
  unfold State.setDie
  rw [h]

theorem exec_topologyDiscoveryTimeout (d : Nat) (s : State) :
    exec (.topologyDiscoveryTimeout d) s = execTopologyDiscoveryTimeout d s := rfl

/-! ## The Lull's markers (R92, R93) -/

theorem exec_lullMarker (l : LinkId) (net cls held : Nat) (pret : BitVec 16) (s : State) :
    exec (.lullMarker l net cls held pret) s = execLullMarker l net cls held pret s := rfl

/-- Settles O40: each clause is one path through the branches of its step. -/
theorem linkTopologyAndLullEvents : Obligations.LinkTopologyAndLullEvents := by
  refine ⟨fun s => ⟨?_, ?_, ?_, ?_, ?_, ?_, ?_, ?_, ?_, ?_, ?_, ?_, ?_, ?_, ?_, ?_, ?_, ?_, ?_, ?_⟩, fun s => ⟨?_, ?_, ?_, ?_, ?_⟩,
    fun s => ⟨?_, ?_, ?_, ?_, ?_, ?_, ?_⟩⟩
  -- a flit (R71, R72): the link is down, the flit is asked for again, dropped, taken without and with a marker
  · exact fun l f h => if_pos (by simpa using h)
  · exact fun l f hu hr hd hn =>
      (if_neg (by simp [hu, hr])).trans ((if_pos (by simpa using hd)).trans (congrArg Host.Outcome.next (if_neg (by simpa using hn))))
  · exact fun l f hu hr hd hn =>
      (if_neg (by simp [hu, hr])).trans ((if_pos (by simpa using hd)).trans (congrArg Host.Outcome.next (if_pos (by simpa using hn))))
  · rintro l f t hu hr hc hf ho hm rfl
    refine (if_neg (by simp [hu, hr])).trans ((if_neg (by simp [hc, hf, ho])).trans ?_)
    simp only [hm]
  · rintro l f t k hu hr hc hf ho hm rfl
    refine (if_neg (by simp [hu, hr])).trans ((if_neg (by simp [hc, hf, ho])).trans ?_)
    simp only [hm]
  -- training that does not finish, by kind of link, and what goes down with a die link (R70, R72)
  · exact fun l h => if_pos (by simp [h])
  · exact fun d g h => if_neg (by simp [h])
  · exact fun d g h => if_neg (by simp [h])
  · exact fun d g h => if_neg (by simp [h])
  · rintro l r t u h rfl rfl
    rw [State.dieLinkDown, h]
    rfl
  · exact fun d hd => ⟨rfl, rfl, farEnd_involutive d hd⟩
  -- training that finishes (R72)
  · rintro l t h rfl
    exact if_neg (by simp [h])
  · exact fun l h => if_pos (by simp [h])
  -- a UCIe module (R70): failed before, one of several, the last one
  · rintro d g m k rfl h
    exact if_pos h
  · rintro d g m k r t u rfl hm hm4 hr rfl rfl hk
    rw [exec_dieLinkModuleFailure, execDieLinkModuleFailure, if_neg (not_failed_or_absent hm hm4), hr]
    exact congrArg Host.Outcome.next (if_pos hk)
  · rintro d g m k r t u rfl hm hm4 hr rfl rfl hk
    rw [exec_dieLinkModuleFailure, execDieLinkModuleFailure, if_neg (not_failed_or_absent hm hm4), hr]
    exact congrArg Host.Outcome.next (if_neg hk)
  -- a Cirrus lane (R73): failed before, the spare takes over, three lanes stay, the port goes down
  · rintro d p n k x rfl rfl h
    exact if_pos h
  · rintro d p n k x rfl rfl hb hn hx
    exact (if_neg (not_failed_or_absent hb hn)).trans (if_pos hx)
  · rintro d p n k x rfl rfl hb hn hx hl
    exact (if_neg (not_failed_or_absent hb hn)).trans ((if_neg (by simp [hx])).trans (congrArg Host.Outcome.next (if_pos hl)))
  · rintro d p n k x rfl rfl hb hn hx hl
    exact (if_neg (not_failed_or_absent hb hn)).trans ((if_neg (by simp [hx])).trans (congrArg Host.Outcome.next (if_neg hl)))
  -- discovery (R91): a port's change, a probe, an answer, the time-out without and with a discovery in progress
  · rintro d p up u t v rfl rfl rfl
    rfl
  · exact fun p => rfl
  · exact fun d n m l h => congrArg Host.Outcome.next (setDie_congr (by simp only [h]))
  · exact fun d h => by rw [exec_topologyDiscoveryTimeout, execTopologyDiscoveryTimeout, h]
  · rintro d l t h rfl
    rw [exec_topologyDiscoveryTimeout, execTopologyDiscoveryTimeout, h]
  -- the Lull (R92, R93): its start
  · rintro d t u v rfl rfl rfl
    rfl
  -- a marker whose sum is the depth, then another sum by kind of link
  · rintro l n k held pret h j D F R hs rfl rfl rfl he
    obtain ⟨rfl, rfl⟩ := Prod.mk.inj hs
    exact if_pos he
  · rintro d g n k held pret h j D F R hs rfl rfl rfl he
    obtain ⟨rfl, rfl⟩ := Prod.mk.inj hs
    exact if_neg he
  · rintro d g n k held pret h j D F R hs rfl rfl rfl he
    obtain ⟨rfl, rfl⟩ := Prod.mk.inj hs
    exact if_neg he
  · rintro d g r n k held pret h j D F R hs rfl rfl rfl hr he
    obtain ⟨rfl, rfl⟩ := Prod.mk.inj hs
    refine (if_neg he).trans ?_
    simp only [hr]
    rfl
  -- its end, and a request that comes meanwhile
  · rintro d ps t rfl rfl
    rfl
  · exact fun d p hl hv => if_pos (by simp [hl, hv])

end Sys2Proof.Machine
end

section
/-!
What a store to local memory leaves as it was (R7, R41, R162, R319, R322).
-/
namespace Sys2Proof.Machine
open Sys2Proof Sys2Proof.Safety

/-! ## A local store -/

/-- A plain store through an operand in local memory, all of whose checks pass, stores the value's low bytes and updates the base. -/
theorem storeFrom_local {m : M} {sz : BitVec 3} {sc : Scope} {v : Cap} {r : MRef}
    (h : LocalOk m r (if szBytes sz = 16 ∧ v.tag then [.st, .tgw] else [.st]) (szBytes sz)) (ha : m.acqPending = false) :
    m.storeFrom sz 0 sc v r = .ok ((storedLocal m r.va (szBytes sz) (v.bits.toNat % 2 ^ (8 * szBytes sz))
      (if szBytes sz = 16 then some v.tag else none)).update r.f r.ad) := by
  have hk : r.c.kind ≠ 6 := by
    obtain ⟨-, hk, -⟩ := h
    omega
  simp only [M.storeFrom, restartCheck_local h, checkRef_local h, ha, stallIf_false, ordered_plain, storeAt_local h, if_neg hk,
    bind, Except.bind, pure, Except.pure]

/-- `st`, and `stfe.keep` for the 8 bytes of an integer, complete with that effect. -/
theorem localStore_completes {s : State} {m : M} {d a : F6} {sz : BitVec 3} {am : BitVec 2} {ea : BitVec 7} {i : Instr} {r : MRef} {n : Nat}
    {v : Cap} (hi : (i = .st d a sz am ea ∧ n = szBytes sz ∧ v = m.src d) ∨ (i = .stfeKeep d a am ea ∧ n = 8 ∧ v = Cap.ofInt (m.int d)))
    (hr : r = m.ref none a am ea n) (hl : LocalOk m r (if n = 16 ∧ v.tag then [.st, .tgw] else [.st]) n) (ha : m.acqPending = false)
    (h : Issues i s m) :
    Completes i s m ((storedLocal m r.va n (v.bits.toNat % 2 ^ (8 * n)) (if n = 16 then some v.tag else none)).update a r.ad) := by
  have hf : r.f = a := by rw [hr]; rfl
  rw [← hf]
  rcases hi with ⟨rfl, rfl, rfl⟩ | ⟨rfl, rfl, rfl⟩
  · refine (exec_st ..).trans (runInstr_completes h ?_)
    rw [opSt, ← hr]
    exact storeFrom_local hl ha
  · refine (exec_stfeKeep ..).trans (runInstr_completes h ?_)
    rw [opStfeKeep, ← hr]
    exact storeFrom_local (sz := 3) hl ha

/-- Settles O57: the frame is that of the stored bytes (`storedLocal_eq`), of the base update (`update_eq`) and of the commit. -/
theorem localStoreFrame : Obligations.LocalStoreFrame := by
  intro s m d a sz am ea i r n v hi hr hl ha hle hwf h
  have hx := localStore_completes hi hr hl ha h
  have hv : isVector i = false := by rcases hi with ⟨rfl, -⟩ | ⟨rfl, -⟩ <;> rfl
  obtain ⟨dy, me, hs, hme, hbyte, hread, hfull, htag, hset⟩ := storedLocal_eq (v := v.bits.toNat % 2 ^ (8 * n))
    (tag := if n = 16 then some v.tag else none) hle (fun ht hn => ht (by simp [hn])) hwf
  obtain ⟨st, q, c, w, ts, hu, hq, hc, hw, hts⟩ := update_eq { m with core := { m.core with dirty := dy, mem := me } } a r.ad
  rw [hs, hu] at hx
  obtain ⟨k, hk, ht, ho, -, hcore, hM, hne⟩ := commitFrame i m
    { m with st := st, thr := { m.thr with c := c, q := q }, core := { m.core with dirty := dy, mem := me, w := w, thr := ts } } m.core
    ((quiet_core? hq _).trans (issues_core? h))
  have hthr := threadSame_noFlags (issues_flags h) ht
  have hkc := hcore hv
  have hregs : (k.thr.get m.tid).c = c := congrArg Thread.c hthr
  have hteam : k.w = w := congrArg Core.w hkc
  have hmem : k.mem = me := congrArg Core.mem hkc
  refine ⟨_, k, hx, hk, fun x hxo => ?_, ?_, ?_, ?_, ?_, ?_, fun x hxa => ?_, fun x hxa => ?_, ?_, fun u hu' => ?_, ?_,
    quiet_moduleSame hq hM, fun y hy => (hne y hy).trans (quiet_core? hq y)⟩
  · rw [hmem, hbyte, if_neg (by omega)]
  · rw [hmem, hread, show 256 ^ n = 2 ^ (8 * n) by rw [Nat.pow_mul], Nat.mod_mod]
  · rw [hmem]
    exact hfull
  · rw [hmem]
    exact htag
  · rw [hmem]
    exact fun hn => hset _ (if_pos hn)
  · rw [hmem]
    exact hme
  · rw [hregs]
    exact hc x hxa
  · rw [hteam]
    exact hw x hxa
  · rw [hregs]
    exact threadSame_queues hthr
  · rw [ho u hu']
    exact hts u
  · exact congrArg (fun k : Core => { k with
      thr := m.core.thr, w := m.core.w, mem := m.core.mem, dirty := m.core.dirty
      vbusy := m.core.vbusy, vpipe := m.core.vpipe, sundogC := m.core.sundogC }) hkc

end Sys2Proof.Machine
end

section
/-!
The steps of the memory and cache ports, and of the second-level cache (R8, R39, R45, R49, R57, R169–R171, R175, R176).
-/
namespace Sys2Proof.Machine
open Sys2Proof Sys2Proof.Safety

/-! ## Accesses at a port (R39, R49, R57) -/

theorem exec_registerWrite (pa size : Nat) (v : W64) (m : Master) (s : State) :
    exec (.registerWrite pa size v m) s = execRegisterWrite pa size v m s := rfl

section
variable {s : State} {acc : PortAccess}

/-- An access to no memory has no effect. -/
theorem portAccess_hole (h : (paKind s acc.pa).isMem = false) : (if (paKind s acc.pa).isMem then s.routeAccess acc else s) = s :=
  if_neg (by simp [h])

/-- An access whose granule does not wait for its copy is served. -/
theorem portAccess_served {a : Nat} (h : (paKind s acc.pa).isMem = true) (hp : place s acc.pa = .at a) :
    (if (paKind s acc.pa).isMem then s.routeAccess acc else s) = s.serve acc := by
  rw [if_pos h, State.routeAccess, hp]

/-- An access to the granule that is being copied is held. -/
theorem portAccess_held {d src : Nat} (h : (paKind s acc.pa).isMem = true) (hp : place s acc.pa = .held d src) :
    (if (paKind s acc.pa).isMem then s.routeAccess acc else s) =
      s.setMotion d src fun m => { m with held := m.held ++ [acc] } := by
  rw [if_pos h, State.routeAccess, hp]

end

/-! ## The L2 (R169–R171, R176) -/

section
variable {s : State} {d pa : Nat} (hd : homeDie pa = d) (hm : (paKind s pa).isMem = true)
include hd hm

/-- An access to memory at its home L2 goes on to BUSY. -/
theorem l2Access_home : ¬ (homeDie pa ≠ d ∨ (!(paKind s pa).isMem) = true) := by
  simp [hd, hm]

/-- While BUSY is set no access of the L2 is performed. -/
theorem l2Access_busy (k : L2Kind) (c : BitVec 6) (hb : (s.die d).l2Busy = true) :
    exec (.l2Access d pa k c) s = .next (s.after 1 (.l2Access d pa k c)) :=
  (if_neg (l2Access_home hd hm)).trans (if_pos hb)

/-- While BUSY is clear the L2 goes on to the access's kind. -/
theorem l2Access_free {α : Type} {away busy free : α} (hb : (s.die d).l2Busy = false) :
    (if homeDie pa ≠ d ∨ (!(paKind s pa).isMem) = true then away else if (s.die d).l2Busy = true then busy else free) = free :=
  (if_neg (l2Access_home hd hm)).trans (if_neg (by simp [hb]))

end

/-- Settles O35: each clause is one path through the branches of its step. -/
theorem portAndSecondLevelCacheEvents : Obligations.PortAndSecondLevelCacheEvents := by
  constructor
  · intro s
    refine ⟨fun pa size v x m t h => ?_, fun pa size v m t h => ?_,
      fun acc h => congrArg _ (portAccess_hole h), fun acc a h hp => congrArg _ (portAccess_served h hp),
      fun acc d src h hp => congrArg _ (portAccess_held h hp),
      fun acc h => congrArg _ (portAccess_hole h), fun acc a h hp => congrArg _ (portAccess_served h hp),
      fun acc d src h hp => congrArg _ (portAccess_held h hp), ?_, ?_, ?_⟩
    -- a register write (R8): admitted, refused
    · rw [exec_registerWrite, execRegisterWrite, h]
    · rw [exec_registerWrite, execRegisterWrite, h]
    -- a scrub visit (R45), by what it finds
    · rintro blk t rfl
      rfl
    · rintro blk t rfl
      rfl
    · rintro blk t rfl
      rfl
  · intro s
    refine ⟨fun d pa k c hd hm hb => l2Access_busy hd hm k c hb, fun d pa c hd hm hb => l2Access_free hd hm hb,
      fun d pa c hd hm hb => l2Access_free hd hm hb, fun d pa c t hd hm hb hf => ?_, fun d pa c q t hd hm hb hf hi => ?_, ?_, ?_, ?_, ?_, ?_, ?_, ?_⟩
    -- an access while BUSY is clear (R175, R176): an atomic, an own
    · refine (l2Access_free hd hm hb).trans ?_
      simp only [hf, if_true]
    · refine (l2Access_free hd hm hb).trans ?_
      simp only [hf, hi, Bool.not_false, Bool.and_self, if_true]
    -- POOL (R170): the same steps, more, fewer with and without a live frame in one
    · rintro d v n rfl h
      exact if_pos h
    · rintro d v n rfl h16 h
      exact (if_neg (by omega)).trans (if_pos h)
    · rintro d v n r rfl h16 h hr
      refine ((if_neg (by omega)).trans (if_neg (by omega))).trans ?_
      simp only [hr]
    · rintro d v n rfl h16 h hr
      refine ((if_neg (by omega)).trans (if_neg (by omega))).trans ?_
      simp only [hr]
      exact congrArg _ (setDie_congr rfl)
    -- NPART (R171): unchanged, changed
    · exact fun d v h => if_pos h
    · exact fun d v h => if_neg h
    -- the end of BUSY (R171)
    · intro d
      cases hb : (s.die d).l2Busy with
      | false => exact if_pos (by simp [hb])
      | true =>
        exact (if_neg (by simp [hb])).trans
          (congrArg (fun t : State => Host.Outcome.next (t.admitPublishes d)) (setDie_congr rfl))

end Sys2Proof.Machine
end

section
/-!
The steps of Drift and of the motion of pages, and of capacity bound and taken back on CXL (R50–R62, R94).
-/
namespace Sys2Proof.Machine
open Sys2Proof Sys2Proof.Safety

/-! ## A motion's steps (R56, R57, R62) -/

theorem exec_motionFlushAck (d src : Nat) (s : State) : exec (.motionFlushAck d src) s = execMotionFlushAck d src s := rfl
theorem exec_granuleCopyAck (d src : Nat) (s : State) : exec (.granuleCopyAck d src) s = execGranuleCopyAck d src s := rfl
theorem exec_granuleCopyTimeout (d src : Nat) (s : State) : exec (.granuleCopyTimeout d src) s = execGranuleCopyTimeout d src s := rfl
theorem exec_motionTimeLimit (d src : Nat) (s : State) : exec (.motionTimeLimit d src) s = execMotionTimeLimit d src s := rfl

/-- The state in which the granule at the watermark of motion `m` is copied and what it held has gone on (R56, R57). -/
def State.granuleCopied (s : State) (d src : Nat) (m : Motion) : State :=
  ((s.copyGranule (keyIndex (s.companion m.leaf)) src m.dst m.w).setMotion d src fun m => { m with w := m.w + 1, passed := [] }).forwardHeld d src

section
variable {s : State} {d src : Nat} {m : Motion} (hm : s.motion? d src = some m)
include hm

theorem motionFlushAck_open : exec (.motionFlushAck d src) s = if m.phase ≠ .prep then .next s else
    .next ((s.setMotion d src fun m => { m with phase := .copy, w := 0 }).after 1920 (.granuleCopyAck d src)) := by
  rw [exec_motionFlushAck, execMotionFlushAck, hm]
  rfl

theorem granuleCopyTimeout_open :
    exec (.granuleCopyTimeout d src) s = .next (if m.phase = .copy then s.restartCopy d src else s) := by
  rw [exec_granuleCopyTimeout, execGranuleCopyTimeout, hm]

/-- A copy that starts again: the source serves what is held. -/
theorem restartCopy_open {t : State}
    (ht : t = ({ s with timers := s.timers.filter fun t => t.2 != .granuleCopyAck d src } : State).setMotion d src fun m =>
      { m with held := [], passed := m.heldThr, heldThr := [] }) :
    s.restartCopy d src = (m.held.foldl State.serve t).after 1920 (.granuleCopyAck d src) := by
  rw [State.restartCopy, hm, ht]
  rfl

theorem motionTimeLimit_open : exec (.motionTimeLimit d src) s =
    .next (if m.start + us (1000 * fieldOf (s.die d).dthr 23 16) ≤ s.now then s.motionAbort d src 4 else s) := by
  rw [exec_motionTimeLimit, execMotionTimeLimit, hm]

section
variable (hp : m.phase = .copy) (hw : m.w < 32)
include hp hw

/-- A port's table refuses Drift: the copy starts again. -/
theorem granuleCopyAck_refused {a n : Nat} (hr : s.copyRefused src m.dst m.w = some (a, n)) :
    exec (.granuleCopyAck d src) s = .next ((s.refuseAt a driftMaster n).restartCopy d src) := by
  rw [exec_granuleCopyAck, execGranuleCopyAck, hm]
  refine (if_neg (by simp [hp, hw])).trans ?_
  rw [hr]

/-- Both ports' tables allow Drift's copy: the granule's data and metadata decide. -/
theorem granuleCopyAck_admitted (hr : s.copyRefused src m.dst m.w = none) :
    exec (.granuleCopyAck d src) s =
      if s.granuleBad src m.w then .next ((s.motionAbort d src 0).copyRecords (s.badBlocks src m.w))
      else if tierOf m.dst = 2 ∧ s.granuleMeta src m.w then .next (s.motionAbort d src 5)
      else .next (if m.w + 1 = 32 then (s.granuleCopied d src m).commitMotion d src
        else (s.granuleCopied d src m).after 1920 (.granuleCopyAck d src)) := by
  rw [exec_granuleCopyAck, execGranuleCopyAck, hm]
  refine (if_neg (by simp [hp, hw])).trans ?_
  rw [hr]
  rfl

/-- Good data, and no metadata that the destination's tier cannot keep: the granule is copied. -/
theorem granuleCopyAck_copies {t : State} (hr : s.copyRefused src m.dst m.w = none) (hb : s.granuleBad src m.w = false)
    (hx : ¬(tierOf m.dst = 2 ∧ s.granuleMeta src m.w = true)) (ht : t = s.granuleCopied d src m) :
    exec (.granuleCopyAck d src) s =
      .next (if m.w + 1 = 32 then t.commitMotion d src else t.after 1920 (.granuleCopyAck d src)) := by
  rw [ht]
  exact (granuleCopyAck_admitted hm hp hw hr).trans ((if_neg (by simp [hb])).trans (if_neg hx))

end

end

/-! ## The halving visit (R52, R53) -/

theorem exec_driftHalvingVisit (d : Nat) (s : State) : exec (.driftHalvingVisit d) s = execDriftHalvingVisit d s := rfl

/-- Settles O37: each clause is one path through the branches of its step. -/
theorem motionEvents : Obligations.MotionEvents := by
  intro s
  refine ⟨fun x leaf dst => rfl,
    -- a motion that is no longer open
    fun d src h => by rw [exec_motionFlushAck, execMotionFlushAck, h],
    fun d src h => by rw [exec_granuleCopyAck, execGranuleCopyAck, h],
    fun d src h => by rw [exec_granuleCopyTimeout, execGranuleCopyTimeout, h],
    fun d src h => by rw [exec_motionTimeLimit, execMotionTimeLimit, h],
    -- the flushes are acknowledged: in PREP, later
    fun d src m hm hp => (motionFlushAck_open hm).trans (if_neg (by simp [hp])),
    fun d src m hm hp => (motionFlushAck_open hm).trans (if_pos hp),
    -- a granule: refused, bad data, metadata for CXL, the last one, another
    fun d src m a n hm hp hw hr => granuleCopyAck_refused hm hp hw hr, ?_,
    fun d src m hm hp hw hr hb ht hx =>
      (granuleCopyAck_admitted hm hp hw hr).trans ((if_neg (by simp [hb])).trans (if_pos ⟨ht, hx⟩)),
    fun d src m t hm hp hw hr hb hx ht hl => (granuleCopyAck_copies hm hp hw hr hb hx ht).trans (congrArg _ (if_pos hl)),
    fun d src m t hm hp hw hr hb hx ht hl => (granuleCopyAck_copies hm hp hw hr hb hx ht).trans (congrArg _ (if_neg hl)),
    -- the copy's time-out: in COPY, later
    fun d src m t hm hp ht =>
      (granuleCopyTimeout_open hm).trans ((congrArg _ (if_pos hp)).trans (congrArg _ (restartCopy_open hm ht))),
    fun d src m hm hp => (granuleCopyTimeout_open hm).trans (congrArg _ (if_neg hp)),
    -- an access of a page that moves, or no longer
    fun d src acc h => congrArg _ (if_pos h), fun d src acc h => congrArg _ (if_neg (ne_true_of_eq_false h)),
    -- a quad's part of a shootdown: performed, waiting for a busy L2; its acknowledgement
    fun q c va n d src h => if_neg (ne_true_of_eq_false h), fun q c va n d src h => if_pos h, fun d src q => rfl,
    fun d src m hm => motionTimeLimit_open hm,
    -- CXL capacity (R94): taken back, bound before bring-up's step 6 and after
    ?_, fun b n h => congrArg _ (if_pos h), ?_,
    -- Drift's visit (R52, R53): switched off, on
    fun d h => if_pos (by simpa using h), ?_⟩
  · rintro d src m bl hm hp hw hr hb rfl
    exact (granuleCopyAck_admitted hm hp hw hr).trans (if_pos hb)
  · rintro b n t rfl
    rfl
  · rintro b n t h rfl
    exact congrArg _ (if_neg h)
  · rintro d t cs h0 h1 hv hf
    rw [exec_driftHalvingVisit, execDriftHalvingVisit]
    refine (if_neg (by simp [h0, h1, hv])).trans ?_
    rw [hf]

end Sys2Proof.Machine
end

section
/-!
The system instructions (R53, R78, R105, R332, R342).
-/
namespace Sys2Proof.Machine
open Sys2Proof Sys2Proof.Safety

/-! ## Region keys (R78) -/

/-- An entry does not serve a key: it is invalid, or of another generation (R77). -/
theorem region_stale_iff {r : Region} {g : BitVec 20} : (!r.v || r.gen != g) = true ↔ r.v = false ∨ r.gen ≠ g := by
  simp

/-- A valid entry of the key's generation serves the key. -/
theorem region_serves {r : Region} {g : BitVec 20} (hv : r.v = true) (hg : r.gen = g) : ¬ (!r.v || r.gen != g) = true :=
  region_stale_iff.not.mpr (by simp [hv, hg])

section
variable {o : XOp} {m : M}

theorem opRkreg_free {i : Nat} {r : Region} (hc : checkCap o.a (m.src o.a) [0] [.rem] = .ok ()) (hf : m.st.regionFree = some i)
    (hr : r = { vbase := BitVec.ofNat 56 (m.src o.a).base, length := BitVec.ofNat 64 ((m.src o.a).top - (m.src o.a).base)
                ctx := m.core.ctx
                perm := (m.int o.x.b).setWidth 5 &&& BitVec.ofNat 5 ((if capHas (m.src o.a) .ld then 1 else 0)
                  + (if capHas (m.src o.a) .st then 2 else 0) + (if capHas (m.src o.a) .atom then 4 else 0)
                  + (if capHas (m.src o.a) .fe then 8 else 0))
                gen := ((m.st.die m.core.die).region 3 i).gen, v := true }) :
    opRkreg o m = .ok (({ m with st := m.st.regionAll i r } : M).wrInt o.d ((keyValue i r.gen).setWidth 64)) := by
  subst hr
  simp only [opRkreg, hc, hf, bind, Except.bind, pure, Except.pure]

theorem opRkreg_full (hc : checkCap o.a (m.src o.a) [0] [.rem] = .ok ()) (hf : m.st.regionFree = none) :
    opRkreg o m = .ok (m.wrInt o.d 0x8000000000000001) := by
  simp only [opRkreg, hc, hf, bind, Except.bind, pure, Except.pure]

section
variable {r : Region} (hr : r = (m.st.die m.core.die).region 3 (((m.int o.a).setWidth 32 : BitVec 32).toNat / 2 ^ 20))
include hr

theorem opRkrev_stale (h : r.v = false ∨ r.gen ≠ ((m.int o.a).setWidth 32 : BitVec 32).setWidth 20) :
    opRkrev o m = .ok (m.wrInt o.d 1) := by
  subst hr
  exact if_pos (region_stale_iff.mpr h)

/-- The key of a valid entry passes `rkrev`'s first check. -/
theorem opRkrev_valid (hv : r.v = true) (hg : r.gen = ((m.int o.a).setWidth 32 : BitVec 32).setWidth 20) :
    opRkrev o m = if r.ctx ≠ m.core.ctx then .ok (m.wrInt o.d 2)
      else .ok (({ m with
        st := m.st.regionAll (((m.int o.a).setWidth 32 : BitVec 32).toNat / 2 ^ 20) { r with v := false, gen := r.gen + 1 } } : M).wrInt
          o.d 0) := by
  subst hr
  exact if_neg (region_serves hv hg)

end

/-! ## Pages (R53, R342) -/

/-- Without a motion of the frame there is nothing to wait for. -/
theorem settle_still {pa : Nat} (h : motionOf m.st pa = none) : m.settle pa = .ok () := by
  simp only [M.settle, h]

section
variable {k : Nat}

theorem opMighint_answers
    (h : m.mighintCode (m.int o.a).toNat (fieldOf (m.int o.x.b) 1 0) (fieldOf (m.int o.x.b) 6 4) = (k, none)) :
    opMighint o m = .ok (m.wrInt o.d (BitVec.ofNat 64 k)) := by
  simp only [opMighint, h]

theorem opMighint_moves {d leaf dst : Nat}
    (h : m.mighintCode (m.int o.a).toNat (fieldOf (m.int o.x.b) 1 0) (fieldOf (m.int o.x.b) 6 4) = (k, some (d, leaf, dst))) :
    opMighint o m = .ok (({ m with st := m.st.post (.motionStart d leaf dst) } : M).wrInt o.d (BitVec.ofNat 64 k)) := by
  simp only [opMighint, h]

end

section
variable {m1 : M} {x : XRes} (hp : m.page (m.int o.a).toNat { rd := true } = .ok (m1, x)) (hs : motionOf m1.st x.pa = none)
include hp hs

/-- A mapped page whose frame does not move: the old FIX is answered, with 2 where a retired frame keeps it. -/
theorem opPgpin_mapped {kept : Bool}
    (hk : (!(m1.int o.x.b).getLsbD 0 && (m1.st.die (homeDie x.pa)).retired.contains (x.pa / 2 ^ 16)) = kept) :
    opPgpin o m = .ok (({ m1 with st := if kept then m1.st else m1.st.setFix x.pa ((m1.int o.x.b).getLsbD 0) } : M).wrInt o.d
      (BitVec.ofNat 64 (frameWord m1.st x.pa / 2 ^ 62 % 2 + if kept then 2 else 0))) := by
  simp only [opPgpin, hp, settle_still hs, hk, bind, Except.bind, pure, Except.pure]

/-- A mapped page whose frame does not move is retired after the release; the persistent list takes its frame where `B` says so. -/
theorem opPgret_mapped {m2 : M} {pa lvl leaf : Nat} {w0 w1 : W64} {t : State} (hr : m1.release 4 = .ok m2)
    (hw : walk m2.st m2.core.desc.ptroot ((m.int o.a).toNat % 2 ^ 56) = .page pa w0 w1 lvl leaf)
    (ht : t = m2.st.retireLeaf leaf (some m2.core.ctx)
      (some (((m.int o.a).toNat % 2 ^ 56) / 2 ^ (16 + 10 * lvl) * 2 ^ (10 * lvl), 2 ^ (10 * lvl))) x.pa) :
    opPgret o m = .ok ((m2.reload ({ m2 with st := if (m2.int o.x.b).getLsbD 0 then t.listRetired x.pa else t } : M).flush).wrInt o.d 0) := by
  subst ht
  simp only [opPgret, hp, settle_still hs, hr, hw, bind, Except.bind, pure, Except.pure]

end

end

/-! ## Keys and cores (R105, R342) -/

section
variable {o : XOp} {m : M}

theorem opLogring_emitted {m1 : M} (h : m.emitRanges (fun _ => true) = .ok m1) :
    opLogring o m = .ok { m1 with core := { m1.core with
      logring := m.int o.a &&& 0x00FFFFFFFFFFF01F, loghead := 0, logtail := 0, logdrop := 0 } } := by
  simp only [opLogring, h, bind, Except.bind, pure, Except.pure]

/-- `keyset` that the access table admits: key number 0 is refused. -/
theorem opKeyset_admitted (h : accessOk (m.st.die 0) 1100 moduleRange m.master 2 = true) :
    opKeyset o m = if fieldOf (m.int o.a) 9 0 = 0 then .ok (m.wrInt o.d 1)
      else .ok (({ m with st := m.st.setKey (fieldOf (m.int o.a) 9 0) (m.src o.x.b).bits (m.src o.x.c).bits } : M).wrInt o.d 0) :=
  if_neg (by simp [h])

theorem opKeyset_refused (h : accessOk (m.st.die 0) 1100 moduleRange m.master 2 = false) :
    opKeyset o m = .ok (({ m with st := m.st.refuse 0 1100 moduleRange m.master 2 } : M).wrInt o.d 1) :=
  if_pos (by simp [h])

section
variable {d : Nat} (hd : d = fieldOf (m.int o.a) 12 10)
include hd

/-- `coreseal` of an existing core that the access table admits: one sealed before is refused. -/
theorem opCoreseal_admitted {p : Nat} (h : accessOk (m.st.die d) 1100 (dieRange d) m.master 2 = true)
    (hp : (m.st.die d).corePlace d (fieldOf (m.int o.a) 9 0) = some p) :
    opCoreseal o m = if (m.st.die d).sealedCores.contains p then .ok (m.wrInt o.d 2)
      else .ok (({ m with st := m.st.post (.coreSeal p 3 0) } : M).wrInt o.d 0) := by
  subst hd
  refine (if_neg (by simp [h])).trans ?_
  simp only [hp]

theorem opCoreseal_refused (h : accessOk (m.st.die d) 1100 (dieRange d) m.master 2 = false) :
    opCoreseal o m = .ok (({ m with st := m.st.refuse d 1100 (dieRange d) m.master 2 } : M).wrInt o.d 1) := by
  subst hd
  exact if_pos (by simp [h])

end

end

/-- Settles O30: an instruction that issues completes with what its effect answers, and each clause is one answer of an effect. -/
theorem systemInstructions : Obligations.SystemInstructions := by
  intro s m
  refine ⟨fun a b m1 hr h => (exec_tlbinv ..).trans (runInstr_completes h ?_),
    -- region keys (R78)
    fun o i r hc hf hr h => (exec_rkreg ..).trans (runInstr_completes h (opRkreg_free hc hf hr)),
    fun o hc hf h => (exec_rkreg ..).trans (runInstr_completes h (opRkreg_full hc hf)),
    fun o r hr hv hg hx h => (exec_rkrev ..).trans (runInstr_completes h ((opRkrev_valid hr hv hg).trans (if_neg (by simp [hx])))),
    fun o r hr hs h => (exec_rkrev ..).trans (runInstr_completes h (opRkrev_stale hr hs)),
    fun o r hr hv hg hx h => (exec_rkrev ..).trans (runInstr_completes h ((opRkrev_valid hr hv hg).trans (if_pos hx))),
    -- pages (R53, R342)
    fun o k hk h => (exec_mighint ..).trans (runInstr_completes h (opMighint_answers hk)),
    fun o k d leaf dst hk h => (exec_mighint ..).trans (runInstr_completes h (opMighint_moves hk)),
    fun o m1 x hp hs hk h => (exec_pgpin ..).trans (runInstr_completes h (opPgpin_mapped hp hs hk)),
    fun o m1 x hp hs hk h => (exec_pgpin ..).trans (runInstr_completes h (opPgpin_mapped hp hs hk)),
    fun o m1 m2 x pa w0 w1 lvl leaf t hp hs hr hw ht h =>
      (exec_pgret ..).trans (runInstr_completes h (opPgret_mapped hp hs hr hw ht)),
    -- the log ring, keys (R105) and cores
    fun o m1 he h => (exec_logring ..).trans (runInstr_completes h (opLogring_emitted he)),
    fun o ha hk h => (exec_keyset ..).trans (runInstr_completes h ((opKeyset_admitted ha).trans (if_neg hk))),
    fun o ha hk h => (exec_keyset ..).trans (runInstr_completes h ((opKeyset_admitted ha).trans (if_pos hk))),
    fun o ha h => (exec_keyset ..).trans (runInstr_completes h (opKeyset_refused ha)),
    fun o p ha hp hs h =>
      (exec_coreseal ..).trans (runInstr_completes h ((opCoreseal_admitted rfl ha hp).trans (if_neg (ne_true_of_eq_false hs)))),
    fun o p ha hp hs h => (exec_coreseal ..).trans (runInstr_completes h ((opCoreseal_admitted rfl ha hp).trans (if_pos hs))),
    fun o ha h => (exec_coreseal ..).trans (runInstr_completes h (opCoreseal_refused rfl ha))⟩
  simp only [opTlbinv, hr, bind, Except.bind]

end Sys2Proof.Machine
end

section
/-!
The steps of keyed requests at their gateways (R74, R76–R79, R82, R83, R86, R87, R89).
-/
namespace Sys2Proof.Machine
open Sys2Proof Sys2Proof.Safety

/-! ## The check gateway (R77, R79, R87) -/

/-- The step `i` takes its packet, with the kind that `f` gives it, to its check gateway. -/
def ToGateway (s : State) (i : Packet → Instr) (f : Packet → Packet) : Prop := ∀ p, exec (i p) s = .next (s.gateway (f p))

section
variable {s : State} {i : Packet → Instr} {f : Packet → Packet} (h : ToGateway s i f) (p q : Packet) (d gw : Nat) (t : State)
  (r : CachedReply) (hq : q = f p) (hg : checkGw q.rkey = (d, gw))
include h hq hg

theorem ToGateway.noEndpoint (he : badEndpoint q.dst = true) : exec (i p) s = .next (s.error q stNoEp) := by
  subst hq
  rw [h, State.gateway, hg]
  exact congrArg _ (if_pos he)

section
variable (he : badEndpoint q.dst = false)
include he

theorem ToGateway.waits (hw : s.reqWaits d gw q = true) :
    exec (i p) s = .next (s.after s.busyEnd (packetStep (s.windowKey q.rkey) q)) := by
  subst hq
  rw [h, State.gateway, hg]
  exact congrArg _ ((if_neg (ne_true_of_eq_false he)).trans (if_pos hw))

section
variable (hw : s.reqWaits d gw q = false)
include hw

theorem ToGateway.dropped (hf : s.flowCheck d gw q = none) : exec (i p) s = .next s := by
  subst hq
  rw [h, State.gateway, hg]
  refine congrArg _ ((if_neg (ne_true_of_eq_false he)).trans ((if_neg (ne_true_of_eq_false hw)).trans ?_))
  simp only [hf]

theorem ToGateway.resent (hf : s.flowCheck d gw q = some t) (hr : t.cachedOf q = some r) (hx : q.retx = true) :
    exec (i p) s = .next (t.cachedAnswer q r) := by
  subst hq
  rw [h, State.gateway, hg]
  refine congrArg _ ((if_neg (ne_true_of_eq_false he)).trans ((if_neg (ne_true_of_eq_false hw)).trans ?_))
  simp only [hf, hr, hx]

section
variable (hf : s.flowCheck d gw q = some t) (hn : t.cachedOf q = none ∨ q.retx = false)
include hf hn

/-- A request that the reply cache does not answer goes on to the checks, an entry being opened for a reply that is to be cached. -/
theorem ToGateway.new : exec (i p) s = .next (if idempotent q then t.checked d gw q
    else if (t.caches q).any fun x => !t.cacheRoom q x then t.busy q else (t.cacheOpen q).checked d gw q) := by
  subst hq
  rw [h, State.gateway, hg]
  refine congrArg _ ((if_neg (ne_true_of_eq_false he)).trans ((if_neg (ne_true_of_eq_false hw)).trans ?_))
  rw [hf]
  rcases hn with hn | hn
  · simp only [hn]
  · cases hr : t.cachedOf (f p) <;> simp only [hr, hn]

theorem ToGateway.idempotent (hi : Machine.idempotent q = true) : exec (i p) s = .next (t.checked d gw q) :=
  (h.new p q d gw t hq hg he hw hf hn).trans (congrArg _ (if_pos hi))

variable (hi : Machine.idempotent q = false)
include hi

theorem ToGateway.opens (hx : ((t.caches q).any fun x => !t.cacheRoom q x) = false) :
    exec (i p) s = .next ((t.cacheOpen q).checked d gw q) :=
  (h.new p q d gw t hq hg he hw hf hn).trans
    (congrArg _ ((if_neg (ne_true_of_eq_false hi)).trans (if_neg (ne_true_of_eq_false hx))))

theorem ToGateway.full (hx : ((t.caches q).any fun x => !t.cacheRoom q x) = true) : exec (i p) s = .next (t.busy q) :=
  (h.new p q d gw t hq hg he hw hf hn).trans (congrArg _ ((if_neg (ne_true_of_eq_false hi)).trans (if_pos hx)))

end

end

end

end

/-! ## The checks of the key's entry (R77), tickets and shadows (R82, R83) -/

section
variable {r : Region} {p : Packet}

theorem regionRefuses_key (h : r.v = false ∨ r.gen ≠ p.rkey.setWidth 20) : regionRefuses r p = some stKey :=
  if_pos (region_stale_iff.mpr h)

section
variable (hv : r.v = true) (hg : r.gen = p.rkey.setWidth 20)
include hv hg

theorem regionRefuses_bounds (h : r.length.toNat < p.addr.toNat + reqSize p) : regionRefuses r p = some stBounds :=
  (if_neg (region_serves hv hg)).trans (if_pos h)

/-- A request in bounds of the key's entry is refused for its permissions alone. -/
theorem regionRefuses_inBounds (h : p.addr.toNat + reqSize p ≤ r.length.toNat) :
    regionRefuses r p = if reqPerm p &&& ~~~r.perm != 0 then some stPerm else none :=
  (if_neg (region_serves hv hg)).trans (if_neg (by omega))

theorem regionRefuses_perm (h : p.addr.toNat + reqSize p ≤ r.length.toNat) (hp : reqPerm p &&& ~~~r.perm ≠ 0) :
    regionRefuses r p = some stPerm :=
  (regionRefuses_inBounds hv hg h).trans (if_pos (bne_iff_ne.mpr hp))

theorem regionRefuses_none (h : p.addr.toNat + reqSize p ≤ r.length.toNat) (hp : reqPerm p &&& ~~~r.perm = 0) :
    regionRefuses r p = none :=
  (regionRefuses_inBounds hv hg h).trans (if_neg (by simp [hp]))

end

section
variable {s : State} {d gw : Nat} (hr : r = (s.die d).region gw (p.rkey.toNat / 2 ^ 20))
include hr

theorem checked_refused {st : BitVec 4} (h : regionRefuses r p = some st) : s.checked d gw p = s.error p st := by
  subst hr
  simp only [State.checked, h]

section
variable (h : regionRefuses r p = none)
include h

theorem checked_ticketed {t : GwTicket}
    (ht : (s.die d).gwTickets.find? (fun t => decide (t.gw = gw) && t.same p && !t.told) = some t) :
    s.checked d gw p = s.ticketReply p t := by
  subst hr
  simp only [State.checked, h, ht]

/-- A request without a ticket to be told forgets the told ones: behind an earlier request to its block it is a shadow, else it reaches
its owner. -/
theorem checked_admitted {u : State}
    (hn : (s.die d).gwTickets.find? (fun t => decide (t.gw = gw) && t.same p && !t.told) = none)
    (hu : u = s.setDie d fun x => { x with gwTickets := x.gwTickets.filter fun t => !(decide (t.gw = gw) && t.same p) }) :
    s.checked d gw p = (u.earlier d gw r p).elim (if u.windowKey p.rkey then u.atTeam d gw p else u.atMemory d gw r p)
      (u.shadow d gw r p) := by
  subst hr hu
  simp only [State.checked, h, hn]
  cases State.earlier _ d gw _ p <;> rfl

end

end

end

/-! ## Calls, flows and PROBEs (R79, R86, R89) -/

section
variable {s : State}

theorem callStart_begins {k : Nat} {c : Core} {x : Call} {xs : List Call} (hc : s.core? k = some c) (ht : (c.thr.get 7).run = .call)
    (hx : c.calls = x :: xs) {r : Vector Cap 32}
    (hr : r = ((((((c.thr.get 7).c.set 1 (Cap.ofInt (x.args.getD 0 0))).set 2 (Cap.ofInt (x.args.getD 1 0))).set 3
      (Cap.ofInt (x.args.getD 2 0))).set 4 (Cap.ofInt (x.args.getD 3 0))).set 5 (Cap.ofInt (x.caller.setWidth 64))).set 6
      (Cap.ofInt (x.ctx.setWidth 64))) :
    execCallStart k s = .next (s.setCore { c with
      calls := xs, thr := c.thr.set 7 { c.thr.get 7 with c := r, pc := Cap.unseal x.handler, run := .ready } }) := by
  subst hr
  simp only [execCallStart, hc, ht, hx]

theorem exec_callStart (k : Nat) (s : State) : exec (.callStart k) s = execCallStart k s := rfl
theorem exec_probeRequest (p : Packet) (s : State) : exec (.probeRequest p) s = execProbeRequest p s := rfl
theorem exec_flowIdleTimeout (d gw : Nat) (src : BitVec 32) (thr : BitVec 3) (key : BitVec 32) (s : State) :
    exec (.flowIdleTimeout d gw src thr key) s = execFlowIdleTimeout d gw src thr key s := rfl

end

/-- Settles O41: a request's step takes it to the gateway, whose answers are the clauses of `ToGateway`; the checks of the key's entry
are those of `regionRefuses`. -/
theorem requestsAtTheirGateways : Obligations.RequestsAtTheirGateways := by
  refine ⟨fun s => ?_, fun s => ?_⟩
  · have rld : ToGateway s .rldRequest fun p => { p with kind := kRld } := fun _ => rfl
    have rst : ToGateway s .rstRequest fun p => { p with kind := kRst } := fun _ => rfl
    have ramo : ToGateway s .ramoRequest fun p => { p with kind := kRamo } := fun _ => rfl
    have rcas : ToGateway s .rcasRequest fun p => { p with kind := kRcas } := fun _ => rfl
    have rcall : ToGateway s .rcallRequest fun p => { p with kind := kRcall } := fun _ => rfl
    have rget : ToGateway s .rgetRequest fun p => { p with kind := kRget } := fun _ => rfl
    have rput : ToGateway s .rputRequest fun p => { p with kind := kRput } := fun _ => rfl
    have window : ToGateway s .launchWindowRequest fun p => p := fun _ => rfl
    refine ⟨rld.noEndpoint, rld.waits, rld.dropped, rld.resent, rld.idempotent, rld.opens, rld.full,
      rst.noEndpoint, rst.waits, rst.dropped, rst.resent, rst.opens, rst.full,
      ramo.noEndpoint, ramo.waits, ramo.dropped, ramo.resent, ramo.opens, ramo.full,
      rcas.noEndpoint, rcas.waits, rcas.dropped, rcas.resent, rcas.opens, rcas.full,
      rcall.noEndpoint, rcall.waits, rcall.dropped, rcall.resent, rcall.opens, rcall.full,
      rget.noEndpoint, rget.waits, rget.dropped, rget.resent, rget.idempotent,
      rput.noEndpoint, rput.waits, rput.dropped, rput.resent, rput.opens, rput.full,
      window.noEndpoint, window.waits, window.dropped, window.resent, window.idempotent, window.opens, window.full,
      -- the key's entry (R77): KEY, BOUNDS, PERM
      fun p d gw r hr h => checked_refused hr (regionRefuses_key h),
      fun p d gw r hr hv hg h => checked_refused hr (regionRefuses_bounds hv hg h),
      fun p d gw r hr hv hg h hp => checked_refused hr (regionRefuses_perm hv hg h hp),
      -- its ticket again, a shadow (R82, R83); a team, memory
      fun p d gw r t hr hv hg h hp ht => checked_ticketed hr (regionRefuses_none hv hg h hp) ht,
      fun p d gw r u t hr hv hg h hp hn hu ht => ?_, fun p d gw r u hr hv hg h hp hn hu ht hw => ?_,
      fun p d gw r u hr hv hg h hp hn hu ht hw => ?_⟩
    all_goals rw [checked_admitted hr (regionRefuses_none hv hg h hp) hn hu, ht]
    · rfl
    · exact if_pos hw
    · exact if_neg (ne_true_of_eq_false hw)
  · refine ⟨fun p he => congrArg _ (if_pos he), fun p r he hr => ?_, fun p he hr => ?_,
      -- a queued call (R89)
      fun k hc => by rw [exec_callStart, execCallStart, hc],
      fun k c x xs r hc ht hx hr => (exec_callStart ..).trans (callStart_begins hc ht hx hr),
      -- an idle flow (R79): ended before, idle for 1 ms, used meanwhile
      fun d gw src thr key hf => ?_, fun d gw src thr key f hf hl => ?_, fun d gw src thr key f hf hl => ?_,
      -- a cached reply (R87), a replica (R78)
      fun d gw src tag gen => rfl, fun d gw k r => rfl⟩
    -- a PROBE (R86): answered from the cache, or with PARKED
    · refine congrArg _ ((if_neg (ne_true_of_eq_false he)).trans ?_)
      simp only [hr]
    · refine congrArg _ ((if_neg (ne_true_of_eq_false he)).trans ?_)
      simp only [hr]
    · rw [exec_flowIdleTimeout, execFlowIdleTimeout, hf]
    · rw [exec_flowIdleTimeout, execFlowIdleTimeout, hf]
      exact if_pos hl
    · rw [exec_flowIdleTimeout, execFlowIdleTimeout, hf]
      exact if_neg (by omega)

end Sys2Proof.Machine
end

section
/-!
Replies at their requester (R82, R85–R88, R150, R193, R241, R243).
-/
namespace Sys2Proof.Machine
open Sys2Proof Sys2Proof.Safety

/-! ## The transaction that a reply answers (R88), and the thread that an answer to a tile request is for (R193) -/

section
variable {s : State} {p : Packet} (i : Instr)

section
variable (f : Core → Ticket → State)

theorem withEntry_late (h : s.transaction p = none) : s.withEntry p i f = s.lateReply p := by
  rw [State.withEntry, h]

section
variable {c : Core} {t : Ticket}

theorem withEntry_saved (h : s.transaction p = some (c, t, true)) :
    s.withEntry p i f = (s.holdNotice c.launch c.team t.thr p.tag.toNat i).getD s := by
  rw [State.withEntry, h]

theorem withEntry_settled (h : s.transaction p = some (c, t, false)) (ht : t.st ≠ .sent) : s.withEntry p i f = s.lateReply p := by
  rw [State.withEntry, h]
  exact if_pos ht

theorem withEntry_sent (h : s.transaction p = some (c, t, false)) (ht : t.st = .sent) : s.withEntry p i f = f c t := by
  rw [State.withEntry, h]
  exact if_neg (not_not_intro ht)

end

end

section
variable (f : ThrId → State)

theorem tileAnswer_gone (h : s.tileWaiter (fun q => q.size == p.size) p (p.tag.toNat - tileTag) = none) : s.tileAnswer p i f = s := by
  unfold State.tileAnswer
  generalize p.tag.toNat - tileTag = n at h ⊢
  rw [h]

section
variable {q : Packet} {t : ThrId}

theorem tileAnswer_saved (h : s.tileWaiter (fun q => q.size == p.size) p (p.tag.toNat - tileTag) = some (t, q, true)) :
    s.tileAnswer p i f = (s.holdNotice t.launch t.team t.thr (q.addr.toNat % 2 ^ 48) i).getD s := by
  unfold State.tileAnswer
  generalize p.tag.toNat - tileTag = n at h ⊢
  rw [h]

theorem tileAnswer_bound (h : s.tileWaiter (fun q => q.size == p.size) p (p.tag.toNat - tileTag) = some (t, q, false)) :
    s.tileAnswer p i f = f t := by
  unfold State.tileAnswer
  generalize p.tag.toNat - tileTag = n at h ⊢
  rw [h]

end

end

end

/-! ## By whom a reply is awaited -/

/-- The step `i` of the reply `p` serves whom its tag names: a dispatcher, which it leaves in `d`; a thread that waits for another module's
home of a tile, by `f`; or the outstanding transaction, by `g`. -/
def Serves (s : State) (p : Packet) (i : Instr) (d : State) (f : ThrId → State) (g : Core → Ticket → State) : Prop :=
  exec i s = .next (if forDispatcher p then d else if tileTag ≤ p.tag.toNat then s.tileAnswer p i f else s.withEntry p i g)

section
variable {s : State} {p : Packet} {i : Instr} {d : State} {f : ThrId → State} {g : Core → Ticket → State}
  {c : Core} {t : Ticket} {q : Packet} {w : ThrId} (h : Serves s p i d f g)
include h

theorem Serves.dispatcher (hd : forDispatcher p = true) : exec i s = .next d := h.trans (congrArg _ (if_pos hd))

section
variable (hd : forDispatcher p = false)
include hd

section
variable (ht : tileTag ≤ p.tag.toNat)
include ht

theorem Serves.tile : exec i s = .next (s.tileAnswer p i f) :=
  h.trans (congrArg _ ((if_neg (ne_true_of_eq_false hd)).trans (if_pos ht)))

theorem Serves.tileGone (hw : s.tileWaiter (fun q => q.size == p.size) p (p.tag.toNat - tileTag) = none) : exec i s = .next s :=
  (h.tile hd ht).trans (congrArg _ (tileAnswer_gone i f hw))

theorem Serves.tileSaved (hw : s.tileWaiter (fun q => q.size == p.size) p (p.tag.toNat - tileTag) = some (w, q, true)) :
    exec i s = .next ((s.holdNotice w.launch w.team w.thr (q.addr.toNat % 2 ^ 48) i).getD s) :=
  (h.tile hd ht).trans (congrArg _ (tileAnswer_saved i f hw))

theorem Serves.tileBound (hw : s.tileWaiter (fun q => q.size == p.size) p (p.tag.toNat - tileTag) = some (w, q, false)) :
    exec i s = .next (f w) :=
  (h.tile hd ht).trans (congrArg _ (tileAnswer_bound i f hw))

end

section
variable (ht : p.tag.toNat < tileTag)
include ht

theorem Serves.entry : exec i s = .next (s.withEntry p i g) :=
  h.trans (congrArg _ ((if_neg (ne_true_of_eq_false hd)).trans (if_neg (Nat.not_le.mpr ht))))

theorem Serves.late (hw : s.transaction p = none) : exec i s = .next (s.lateReply p) :=
  (h.entry hd ht).trans (congrArg _ (withEntry_late i g hw))

theorem Serves.saved (hw : s.transaction p = some (c, t, true)) :
    exec i s = .next ((s.holdNotice c.launch c.team t.thr p.tag.toNat i).getD s) :=
  (h.entry hd ht).trans (congrArg _ (withEntry_saved i g hw))

theorem Serves.settled (hw : s.transaction p = some (c, t, false)) (hs : t.st ≠ .sent) : exec i s = .next (s.lateReply p) :=
  (h.entry hd ht).trans (congrArg _ (withEntry_settled i g hw hs))

theorem Serves.sent (hw : s.transaction p = some (c, t, false)) (hs : t.st = .sent) : exec i s = .next (g c t) :=
  (h.entry hd ht).trans (congrArg _ (withEntry_sent i g hw hs))

end

end

end

/-! ## DATA and DONE (R88, R325, R337, R341) -/

/-- What DATA or DONE does to the entry it completes. -/
noncomputable def State.completed (s : State) (p : Packet) (c : Core) (t : Ticket) : State :=
  if 16 ≤ t.idx then s.landEngine c t p
  else match t.ff, t.dst with
    | some e, _ => s.landFf c t p e
    | none, some (dst, _) => if t.req.kind = kRget then s.landRange c t p dst else s.land c t p
    | none, none => s.land c t p

section
variable {s : State} {p : Packet} {i : Instr} {d : State} {f : ThrId → State} {c : Core} {t : Ticket} {e : F6} {dst : Cap} {n : Nat}
  (h : Serves s p i d f (s.completed p)) (hd : forDispatcher p = false) (ht : p.tag.toNat < tileTag)
  (hw : s.transaction p = some (c, t, false)) (hs : t.st = .sent)
include h hd ht hw hs

theorem Serves.engine (hi : 16 ≤ t.idx) : exec i s = .next (s.landEngine c t p) :=
  (h.sent hd ht hw hs).trans (congrArg _ (if_pos hi))

section
variable (hi : t.idx < 16)
include hi

theorem Serves.fullEmpty (hf : t.ff = some e) : exec i s = .next (s.landFf c t p e) := by
  refine (h.sent hd ht hw hs).trans (congrArg _ ((if_neg (by omega)).trans ?_))
  simp only [hf]

section
variable (hf : t.ff = none)
include hf

theorem Serves.range (hr : t.dst = some (dst, n)) :
    exec i s = .next (if t.req.kind = kRget then s.landRange c t p dst else s.land c t p) := by
  refine (h.sent hd ht hw hs).trans (congrArg _ ((if_neg (by omega)).trans ?_))
  simp only [hf, hr]

theorem Serves.registers (hr : t.dst = none) : exec i s = .next (s.land c t p) := by
  refine (h.sent hd ht hw hs).trans (congrArg _ ((if_neg (by omega)).trans ?_))
  simp only [hf, hr]

end

end

end

/-- Completion of an entry is what a landed reply does to it. -/
theorem landed_eq (s : State) (p : Packet) (i : Instr) : s.landed p i = if forDispatcher p then s.dispatcherAnswer p none
    else if tileTag ≤ p.tag.toNat then s.tileAnswer p i (s.tilePiece p) else s.withEntry p i (s.completed p) := rfl

theorem dataReply_serves (s : State) (p : Packet) :
    Serves s p (.dataReply p) (s.dispatcherAnswer p none) (s.tilePiece p) (s.completed p) := congrArg Host.Outcome.next (landed_eq ..)

theorem doneReply_serves (s : State) (p : Packet) :
    Serves s p (.doneReply p) (s.dispatcherAnswer p none) (s.tilePiece p) (s.completed p) := congrArg Host.Outcome.next (landed_eq ..)

/-! ## PARKED, ERROR and BUSY (R85, R86, R150, R193, R241) -/

/-- The entry's access is parked: PROBEs begin 1 ms later. -/
noncomputable def State.entryParked (s : State) (c : Core) (t : Ticket) : State :=
  (s.setCore (c.setTicket t.tag fun t => { t with parked := true, heard := s.now, probe := none })).after (us 1000)
    (.probeTimer (c.whoOf t) t.tag t.gen)

/-- The entry backs off for `n` µs. -/
noncomputable def State.entryBackoff (s : State) (c : Core) (t : Ticket) (n : Nat) : State :=
  (s.setCore (c.setTicket t.tag fun t => { t with backoff := n, heard := s.now, parked := false, probe := none })).after (us n)
    (.busyBackoffExpiry (c.whoOf t) t.tag t.gen)

theorem parkedReply_serves (s : State) (p : Packet) :
    Serves s p (.parkedReply p) s (fun t => s.tileStage t .waiting fun _ => 0) s.entryParked := by
  rw [Serves, apply_ite Host.Outcome.next, apply_ite Host.Outcome.next]
  rfl

theorem errorReply_serves (s : State) (p : Packet) :
    Serves s p (.errorReply p) (s.dispatcherAnswer p (some (if p.status = stUnreach then 0 else tileCause p)))
      (fun t => s.resume t fun x => { x with pendTrap := some (tileCause p, p.addr) })
      (fun c t => s.failEntry c t (subOf p.status) p.status) := by
  rw [Serves, apply_ite Host.Outcome.next, apply_ite Host.Outcome.next]
  rfl

theorem exec_busyReply (p : Packet) (s : State) : exec (.busyReply p) s = execBusyReply p s := rfl

theorem busyReply_serves (s : State) (p : Packet) (h : ¬(queueTag ≤ p.tag.toNat ∧ p.tag.toNat < queueTag + 8)) :
    Serves s p (.busyReply p) (s.dispatcherBusy p) s.tileBusy
      (fun c t => s.entryBackoff c t (Nat.min 64 (Nat.max 1 (2 * t.backoff)))) := by
  rw [Serves, apply_ite Host.Outcome.next, apply_ite Host.Outcome.next, exec_busyReply, execBusyReply, if_neg h]
  rfl

/-! ## TICKET (R82, R83, R241) -/

theorem exec_ticketReply (p : Packet) (s : State) : exec (.ticketReply p) s = execTicketReply p s := rfl

section
variable {s : State} {p : Packet}

theorem ticketReply_late (h : s.transaction p = none) : exec (.ticketReply p) s = .next (s.lateReply p) :=
  congrArg Host.Outcome.next (withEntry_late _ _ h)

section
variable {c : Core} {t : Ticket}

theorem ticketReply_saved (h : s.transaction p = some (c, t, true)) :
    exec (.ticketReply p) s = .next ((s.holdNotice c.launch c.team t.thr p.tag.toNat (.ticketReply p)).getD s) :=
  congrArg Host.Outcome.next (withEntry_saved _ _ h)

theorem ticketReply_settled (h : s.transaction p = some (c, t, false)) (ht : t.st ≠ .sent) :
    exec (.ticketReply p) s = .next (s.lateReply p) :=
  congrArg Host.Outcome.next (withEntry_settled _ _ h ht)

section
variable {u v : State} (h : s.transaction p = some (c, t, false)) (ht : t.st = .sent)
  (hu : u = s.setCore (c.setTicket t.tag fun t => { t with
    st := if p.addr.getLsbD 16 then .shadow else .ticketed, ticket := p.aux.toNat, endp := p.src, named := fieldOf p.addr 15 0
    held := false, parked := false, probe := none, heard := s.now }))
  (hv : v = u.after (u.die c.die).tklim (.ticketLimitTimeout (c.whoOf t) t.tag t.gen))
include h ht hu hv

/-- A ticket that names no failed one leaves its entry ticketed, with the ticket's limit. -/
theorem ticketReply_ticketed (hx : c.tickets.find? (fun x =>
      p.addr.getLsbD 16 && x.st == .failed && decide (x.ticket = fieldOf p.addr 15 0) && x.endp == p.src) = none) :
    exec (.ticketReply p) s = .next v := by
  subst hu hv
  refine (congrArg Host.Outcome.next (withEntry_sent _ _ h ht)).trans ?_
  simp only [hx]

/-- A shadow that names a failed ticket fails with its status. -/
theorem ticketReply_failed {x y : Ticket} {k : Core} (hx : c.tickets.find? (fun x =>
      p.addr.getLsbD 16 && x.st == .failed && decide (x.ticket = fieldOf p.addr 15 0) && x.endp == p.src) = some x)
    (hy : v.entryOf (c.whoOf t) t.tag t.gen = some (k, y)) :
    exec (.ticketReply p) s = .next (v.failEntry k y 1 x.status) := by
  subst hu hv
  refine (congrArg Host.Outcome.next (withEntry_sent _ _ h ht)).trans ?_
  simp only [hx, hy]

end

end

end

/-- Settles O42: each reply serves whom its tag names (`Serves`); DATA and DONE complete the entry as `State.completed`. -/
theorem replyEvents : Obligations.ReplyEvents := by
  intro s
  have data := dataReply_serves s
  have landed := doneReply_serves s
  have parked := parkedReply_serves s
  have error := errorReply_serves s
  have busy := busyReply_serves s
  refine ⟨-- DATA, DONE and PARKED
    fun p => (data p).dispatcher, fun p => (data p).tileGone, fun p _ _ => (data p).tileSaved, fun p _ _ => (data p).tileBound,
    fun p => (data p).late, fun p _ _ => (data p).saved, fun p _ _ => (data p).settled,
    fun p _ _ => (data p).engine, fun p _ _ _ => (data p).fullEmpty, fun p _ _ _ _ => (data p).range, fun p _ _ => (data p).registers,
    fun p => (landed p).dispatcher, fun p => (landed p).tileGone, fun p _ _ => (landed p).tileSaved, fun p _ _ => (landed p).tileBound,
    fun p => (landed p).late, fun p _ _ => (landed p).saved, fun p _ _ => (landed p).settled,
    fun p _ _ => (landed p).engine, fun p _ _ _ => (landed p).fullEmpty, fun p _ _ _ _ => (landed p).range, fun p _ _ => (landed p).registers,
    fun p => (parked p).dispatcher, fun p => (parked p).tileGone, fun p _ _ => (parked p).tileSaved,
    fun p _ _ => (parked p).tileBound, fun p => (parked p).late, fun p _ _ => (parked p).saved, fun p _ _ => (parked p).settled,
    fun p _ _ => (parked p).sent,
    -- TICKET (R82, R83), ERROR (R243)
    fun p => ticketReply_late, fun p _ _ => ticketReply_saved, fun p _ _ => ticketReply_settled,
    fun p c t u v h ht hu hv => ticketReply_ticketed h ht hu hv,
    fun p c t u v x y k h ht hu hv => ticketReply_failed h ht hu hv,
    fun p => (error p).dispatcher, fun p => (error p).tileGone, fun p _ _ => (error p).tileSaved, fun p _ _ => (error p).tileBound,
    fun p => (error p).late, fun p _ _ => (error p).saved, fun p _ _ => (error p).settled, fun p _ _ => (error p).sent,
    -- BUSY: a dispatcher's, of a queue's entry (R150), another's
    fun p h => if_pos h, ?_,
    fun p hd ht hq => (busy p hq).tileGone hd ht, fun p _ _ hd ht hq => (busy p hq).tileSaved hd ht,
    fun p _ _ hd ht hq => (busy p hq).tileBound hd ht, fun p hd ht hq => (busy p hq).late hd ht,
    fun p _ _ hd ht hq => (busy p hq).saved hd ht, fun p _ _ hd ht hq => (busy p hq).settled hd ht, ?_⟩
  · rintro p t hd hq rfl
    exact (if_neg (ne_true_of_eq_false hd)).trans (if_pos hq)
  · rintro p c t n hd ht hq hw hs rfl
    exact (busy p hq).sent hd ht hw hs

end Sys2Proof.Machine
end

section
/-!
A requester's timers, replays and notices (R84–R86, R90, R125, R163, R193, R241, R245, R340).
-/
namespace Sys2Proof.Machine
open Sys2Proof Sys2Proof.Safety

/-! ## Resends, the final time-out and PROBEs (R86) -/

section
variable (t : ThrId) (tag : Nat) (gen : BitVec 4) (s : State)

theorem exec_retransmitTimeout : exec (.retransmitTimeout t tag gen) s = execRetransmitTimeout t tag gen s := rfl
theorem exec_finalTimeout : exec (.finalTimeout t tag gen) s = execFinalTimeout t tag gen s := rfl
theorem exec_probeTimer : exec (.probeTimer t tag gen) s = execProbeTimer t tag gen s := rfl
theorem exec_busyBackoffExpiry : exec (.busyBackoffExpiry t tag gen) s = execBusyBackoffExpiry t tag gen s := rfl
theorem exec_ticketLimitTimeout : exec (.ticketLimitTimeout t tag gen) s = execTicketLimitTimeout t tag gen s := rfl

end

section
variable {t : ThrId} {tag : Nat} {gen : BitVec 4} {s : State} {c : Core} {x : Ticket} (h : s.entryOf t tag gen = some (c, x))
include h

theorem retransmitTimeout_entry : exec (.retransmitTimeout t tag gen) s =
    if x.st = .sent ∧ !x.parked ∧ x.heard ≤ x.sent ∧ (x.heard < x.sent ∨ x.backoff = 0) ∧ x.tries < 3 ∧ x.sent + resendAfter ≤ s.now then
      .next (s.resendEntry c x (x.tries + 1)) else .next s := by
  rw [exec_retransmitTimeout, execRetransmitTimeout, h]

/-- A backoff's end concerns an entry, unless its tag is a queue's. -/
theorem busyBackoffExpiry_entry (hq : ¬(queueTag ≤ tag ∧ tag < queueTag + 8)) : exec (.busyBackoffExpiry t tag gen) s =
    if x.st = .sent ∧ !x.parked ∧ x.backoff ≠ 0 ∧ x.sent ≤ x.heard ∧ x.heard + us x.backoff ≤ s.now then .next (s.resendEntry c x 0)
    else .next s := by
  rw [exec_busyBackoffExpiry, execBusyBackoffExpiry, if_neg hq, h]

section
variable (hs : x.st = .sent)
include hs

/-- The final time-out runs from `a`. -/
theorem finalTimeout_runs {a : Nat} (ha : (if x.parked then x.probe else some (Nat.max x.first x.heard)) = some a) :
    exec (.finalTimeout t tag gen) s = if a + (s.die c.die).final ≤ s.now then .next (s.failTime c x)
      else .next (s.after (a + (s.die c.die).final - s.now) (.finalTimeout t tag gen)) := by
  rw [exec_finalTimeout, execFinalTimeout, h]
  refine (if_neg (by simp [hs])).trans ?_
  simp only [ha]

section
variable (hp : x.parked = true)
include hp

/-- A parked access not probed since the last PARKED: the first PROBE is sent 1 ms later. -/
theorem probeTimer_first (hn : x.probe = none) {u : State}
    (hu : u = (s.setCore (c.setTicket tag fun y => { y with probe := some s.now, sent := s.now, tries := 0 })).route c.die
      { x.req with kind := kProbe, retx := false, payload := [], len := 0 }) :
    exec (.probeTimer t tag gen) s = if x.heard + us 1000 ≤ s.now then
      .next ((u.after (u.die c.die).final (.finalTimeout t tag gen)).after resendAfter (.probeTimer t tag gen)) else .next s := by
  subst hu
  rw [exec_probeTimer, execProbeTimer, h]
  refine (if_neg (by simp [hs, hp])).trans ?_
  simp only [hn]

/-- A PROBE first sent at `a`, each millisecond after: it is sent anew. -/
theorem probeTimer_anew {a : Nat} (hn : x.probe = some a) (hm : (s.now - a) % us 1000 = 0 ∧ a < s.now) :
    exec (.probeTimer t tag gen) s =
      .next (((s.setCore (c.setTicket tag fun y => { y with sent := s.now, tries := 0 })).route c.die
        { x.req with kind := kProbe, retx := false, payload := [], len := 0 }).after resendAfter (.probeTimer t tag gen)) := by
  rw [exec_probeTimer, execProbeTimer, h]
  refine (if_neg (by simp [hs, hp])).trans ?_
  simp only [hn]
  exact if_pos hm

/-- Between them, unanswered for 20 µs: it is resent, and after the third time waits for the millisecond. -/
theorem probeTimer_resent {a : Nat} (hn : x.probe = some a) (hm : ¬((s.now - a) % us 1000 = 0 ∧ a < s.now))
    (hr : x.tries < 3 ∧ x.sent + resendAfter ≤ s.now) {u : State}
    (hu : u = (s.setCore (c.setTicket tag fun y => { y with sent := s.now, tries := y.tries + 1 })).route c.die
      { x.req with kind := kProbe, retx := true, payload := [], len := 0 }) :
    exec (.probeTimer t tag gen) s =
      .next (u.after (if x.tries = 2 then us 1000 - (u.now - a) % us 1000 else resendAfter) (.probeTimer t tag gen)) := by
  subst hu
  rw [exec_probeTimer, execProbeTimer, h]
  refine (if_neg (by simp [hs, hp])).trans ?_
  simp only [hn]
  exact (if_neg hm).trans (if_pos hr)

end

end

end

/-! ## Notices (R90, R163, R193, R340) -/

theorem exec_replayNotice (p : Packet) (s : State) : exec (.replayNotice p) s = execReplayNotice p s := rfl
theorem exec_fewakeNotice (t : ThrId) (v : W64) (s : State) : exec (.fewakeNotice t v) s = execFewakeNotice t v s := rfl
theorem exec_rnoteNotice (p : Packet) (s : State) : exec (.rnoteNotice p) s = execRnoteNotice p s := rfl

section
variable {s : State} {p : Packet} {w : Nat} {md : BitVec 16} (hw : w = (p.payload.headD 0).toNat)
  (hm : md = (p.payload.getD 1 0).setWidth 16) (hd : forDispatcher p = false)
include hw hm hd

/-- A version of this module has come: the thread that waits for it goes on, or its saved team's notice is held. -/
theorem varriveNotice_own (ho : ownModule s md = true) : exec (.varriveNotice p) s =
    .next ((s.versionWaiter p (bitsN w 31 0) (bitsN w 63 48) (bitsN w 34 32)).elim s fun x =>
      if x.2 then (s.holdNotice x.1.launch x.1.team x.1.thr (bitsN w 31 0 + bitsN w 63 48 * 2 ^ 32) (.varriveNotice p)).getD s
      else s.resume x.1 fun y =>
        if p.status = stRetired then { y with pendTrap := some (causeVersionRetired, BitVec.ofNat 64 (bitsN w 63 48)) } else y) := by
  subst hw hm
  refine congrArg _ ((if_neg (ne_true_of_eq_false hd)).trans ((if_pos ho).trans ?_))
  rcases s.versionWaiter p _ _ _ with _ | ⟨t, _ | _⟩ <;> rfl

/-- A version of another module has come: without a thread that waits for it, a load's hold is given back. -/
theorem varriveNotice_other (ho : ownModule s md = false) : exec (.varriveNotice p) s =
    .next ((s.tileWaiter (fun q => decide (tileNameOf q = bitsN w 31 0 ∧ tileVerOf q = bitsN w 63 48)
        && q.dst.extractLsb' 16 16 == md && q.size == p.size) p (bitsN w 34 32)).elim (s.giveBack p) fun x =>
      if x.2.2 then (s.holdNotice x.1.launch x.1.team x.1.thr (bitsN w 31 0 + bitsN w 63 48 * 2 ^ 32) (.varriveNotice p)).getD s
      else s.tileArrives p x.1 x.2.1) := by
  subst hw hm
  refine congrArg _ ((if_neg (ne_true_of_eq_false hd)).trans ((if_neg (ne_true_of_eq_false ho)).trans ?_))
  dsimp only
  rcases s.tileWaiter _ p _ with _ | ⟨t, q, _ | _⟩ <;> rfl

end

section
variable {s : State} {p : Packet} {d gw : Nat} {r : Region} (hg : checkGw p.rkey = (d, gw))
  (hr : r = (s.die d).region gw (p.rkey.toNat / 2 ^ 20))
include hg hr

/-- A program notice whose key does not open its window is dropped. -/
theorem rnoteNotice_refused (h : r.v = false ∨ r.gen ≠ p.rkey.setWidth 20 ∨ s.windowKey p.rkey = false ∨ r.perm.getLsbD 1 = false ∨
    r.length.toNat ≤ p.addr.toNat) : exec (.rnoteNotice p) s = .next s := by
  subst hr
  rw [exec_rnoteNotice, execRnoteNotice, hg]
  exact if_pos (by simpa [or_assoc] using h)

/-- One that its key admits ends the `wfe` of a bound thread, or stays pending for it. -/
theorem rnoteNotice_bound {t : ThrId} {c : Core} (h : ¬(r.v = false ∨ r.gen ≠ p.rkey.setWidth 20 ∨ s.windowKey p.rkey = false ∨
      r.perm.getLsbD 1 = false ∨ r.length.toNat ≤ p.addr.toNat))
    (ht : t = ⟨windowLaunch s p.rkey, p.addr.toNat / 0x40000, p.aux.toNat % 8⟩) (hc : s.coreOf? t.launch t.team = some c) :
    exec (.rnoteNotice p) s =
      .next (s.onThread t fun x => if x.run = .wfe then { x with run := .ready } else { x with rnote := true }) := by
  subst hr ht
  rw [exec_rnoteNotice, execRnoteNotice, hg]
  refine (if_neg (by simpa [or_assoc] using h)).trans ?_
  simp only [hc]

end

/-- Settles O43: a timer acts on the entry its tag and generation name, by its branches' conditions; a notice serves the team it finds. -/
theorem requesterTimersAndNotices : Obligations.RequesterTimersAndNotices := by
  intro s
  refine ⟨fun t tag gen h => by rw [exec_retransmitTimeout, execRetransmitTimeout, h],
    fun t tag gen h => by rw [exec_finalTimeout, execFinalTimeout, h],
    fun t tag gen h => by rw [exec_probeTimer, execProbeTimer, h],
    -- resends (R86)
    fun t tag gen c x h hs hp hh hb hr hn =>
      (retransmitTimeout_entry h).trans (if_pos ⟨hs, by simp [hp], hh, hb, hr, hn⟩),
    fun t tag gen c x h hn => (retransmitTimeout_entry h).trans (if_neg ?_),
    -- the final time-out: reached, not yet
    fun t tag gen c x a h hs ha hn => (finalTimeout_runs h hs ha).trans (if_pos hn),
    fun t tag gen c x a h hs ha hn => (finalTimeout_runs h hs ha).trans (if_neg (by omega)),
    -- PROBEs
    fun t tag gen c x u h hs hp hn hm hu => (probeTimer_first h hs hp hn hu).trans (if_pos hm),
    fun t tag gen c x h hs hp hn hm => (probeTimer_first h hs hp hn rfl).trans (if_neg (by omega)),
    fun t tag gen c x a h hs hp hn hm => probeTimer_anew h hs hp hn hm,
    fun t tag gen c x a u h hs hp hn hm hr hu => probeTimer_resent h hs hp hn hm hr hu,
    -- the end of a backoff
    fun t tag gen c x hq h hs hp hb hh hn => (busyBackoffExpiry_entry h hq).trans (if_pos ⟨hs, by simp [hp], hb, hh, hn⟩),
    fun t tag gen hq h => by rw [exec_busyBackoffExpiry, execBusyBackoffExpiry, if_neg hq, h],
    -- a ticket's limit (R241, R245): of a bound team, of a saved one
    fun t tag gen c x hc hx => by rw [exec_ticketLimitTimeout, execTicketLimitTimeout, hc]; simp only [hx],
    fun t tag gen c hc hx => by rw [exec_ticketLimitTimeout, execTicketLimitTimeout, hc]; simp only [hx],
    fun t tag gen hc hv => by rw [exec_ticketLimitTimeout, execTicketLimitTimeout, hc]; simp only [hv],
    fun t tag gen v c k hc hv hf hk => by subst hf hk; rw [exec_ticketLimitTimeout, execTicketLimitTimeout, hc]; simp only [hv],
    -- REPLAY (R84, R125, R241): an endpoint's refusal, a bound team's entry, a saved team's, none
    fun p c t h hp => by rw [exec_replayNotice, execReplayNotice]; simp only [h]; exact if_pos hp,
    fun p c t h hp => by rw [exec_replayNotice, execReplayNotice]; simp only [h]; exact if_neg (not_not_intro hp),
    fun p c t h hv => by rw [exec_replayNotice, execReplayNotice]; simp only [h, hv],
    fun p h hv => by rw [exec_replayNotice, execReplayNotice]; simp only [h, hv],
    -- full/empty wakes (R163): of a local wait, of one at a port, for a team that is not bound
    fun t v c a md st x f hc hr => by rw [exec_fewakeNotice, execFewakeNotice, hc]; simp only [hr],
    fun t v c a f hc hr => by rw [exec_fewakeNotice, execFewakeNotice, hc]; simp only [hr],
    fun t v hc => by rw [exec_fewakeNotice, execFewakeNotice, hc],
    -- VARRIVE (R90, R193): for a gate; of this module's home, of another's
    fun p w md hw hm hd => by subst hw hm; exact congrArg _ (if_pos hd),
    fun p w md t hw hm hd ho hv => by rw [varriveNotice_own hw hm hd ho, hv]; rfl,
    fun p w md t hw hm hd ho hv => by rw [varriveNotice_own hw hm hd ho, hv]; rfl,
    fun p w md hw hm hd ho hv => by rw [varriveNotice_own hw hm hd ho, hv]; rfl,
    fun p w md t q hw hm hd ho hv => by rw [varriveNotice_other hw hm hd ho, hv]; rfl,
    fun p w md t q hw hm hd ho hv => by rw [varriveNotice_other hw hm hd ho, hv]; rfl,
    fun p w md hw hm hd ho hv => by rw [varriveNotice_other hw hm hd ho, hv]; rfl,
    -- RNOTE (R90, R340)
    fun p d gw r hg hr h => rnoteNotice_refused hg hr h, fun p d gw r t c hg hr h ht hc => rnoteNotice_bound hg hr h ht hc⟩
  rintro ⟨hs, hp, hh, hb, hr, ht⟩
  rcases hn with hn | hn | hn | ⟨hn, hn'⟩ | hn | hn
  · exact hn hs
  · simp [hn] at hp
  all_goals omega

end Sys2Proof.Machine
end

section
/-!
The host's views of memory through BAR2, its registers behind BAR0, and access tables (R94–R101, R103, R104, R171, R247).
-/
namespace Sys2Proof.Machine
open Sys2Proof Sys2Proof.Safety

section
variable {s : State} {p : Nat}

/-- A step of a port that a host is linked to goes on to its access. -/
theorem linked_else {α : Type} {away here : α} (h : s.linked p = true) : (if !s.linked p then away else here) = here :=
  if_neg (by simp [h])

theorem unlinked_then {α : Type} {away here : α} (h : s.linked p = false) : (if !s.linked p then away else here) = away :=
  if_pos (by simp [h])

end

/-! ## BAR2 (R95, R98–R101, R171, R247) -/

/-- The step `i` at offset `off` of a view of BAR2: none without a host; refused where the offset is in no area of the port; else `f` of the
context, the address and the offset in the area. -/
def InView (s : State) (view p off n : Nat) (read : Bool) (i : Instr) (f : BitVec 6 → Nat → Nat → Out) : Prop :=
  exec i s = if !s.linked p then .next s
    else match s.bar2 view p off n with
      | none => .next (s.hostRefuse p read)
      | some (c, pa, o) => f c pa o

section
variable {s : State} {view p off n : Nat} {read : Bool} {i : Instr} {f : BitVec 6 → Nat → Nat → Out} (h : InView s view p off n read i f)
include h

theorem InView.unlinked (hl : s.linked p = false) : exec i s = .next s := h.trans (unlinked_then hl)

section
variable (hl : s.linked p = true)
include hl

theorem InView.outside (hb : s.bar2 view p off n = none) : exec i s = .next (s.hostRefuse p read) :=
  h.trans ((linked_else hl).trans (by rw [hb]))

theorem InView.inside {c : BitVec 6} {pa o : Nat} (hb : s.bar2 view p off n = some (c, pa, o)) : exec i s = f c pa o :=
  h.trans ((linked_else hl).trans (by rw [hb]))

end

end

section
variable {s : State} {pa : Nat} {i : Instr} {o : Out}

/-- An access whose home L2 serves nothing now is performed later (R171). -/
theorem hostLater_waits (h : l2Waits s (placeNow s pa) = true) : s.hostLater pa i o = .next (s.after s.busyEnd i) := if_pos h

theorem hostLater_now (h : l2Waits s (placeNow s pa) = false) : s.hostLater pa i o = o := if_neg (by simp [h])

end

section
variable (s : State) (p off n : Nat) (v : W64)

/-- View 0 reads plainly; a poisoned block is answered as poisoned, and recorded unless it is known. -/
theorem bar2PlainRead_inView : InView s 0 p off n true (.bar2PlainRead p off n) fun c pa _ =>
    s.hostLater pa (.bar2PlainRead p off n) <| match s.hostAccess c pa n .read 0 with
      | .done t v _ => .next (t.push (.value (BitVec.ofNat 64 v)))
      | .poison t =>
        let a := placeNow t pa
        let u := if !s.ueMem.contains (placeNow s pa / 64)
          then t.fault (station t a).1 0x70 (tierCode t a) c.toNat (a / 64 * 64) (1 + (station t a).2 * 2 ^ 16) else t
        .next (u.push (.poisoned (BitVec.ofNat 64 (t.readPa a n ((t.hctx.get c.toFin).extractLsb' 11 10)))))
      | .refused t => .next (t.hostRefuse p true)
      | .parked t => .next (t.hostRefuse p true) := rfl

theorem bar2PlainWrite_inView : InView s 0 p off n false (.bar2PlainWrite p off n v) fun c pa _ =>
    s.hostLater pa (.bar2PlainWrite p off n v) (.next (s.hostWrite p c pa n .write v id)) := rfl

/-- View 1 reads the word of the full/empty bit. -/
theorem bar2ArmRead_inView : InView s 1 p off n true (.bar2ArmRead p off n) fun c pa _ =>
    s.hostLater pa (.bar2ArmRead p off n) <| match s.hostAccess c (pa / 8 * 8) 8 (.ldfe 3) 0 with
      | .done t v _ => .next (t.push (.value (BitVec.ofNat 64 (sliceBytes v (pa % 8) n))))
      | .refused t => .next (t.hostRefuse p true)
      | .poison t => .next t
      | .parked t => .next t := rfl

/-- View 1 stores 8 bytes that become full, after its checks; a slot's word 0 arms the slot. -/
theorem bar2ArmWrite_inView : InView s 1 p off n false (.bar2ArmWrite p off n v) fun c pa o =>
    if n ≠ 8 then .next (s.hostRefuse p false)
    else if s.hostBars c pa 4 then .next ((s.refuseAt (placeNow s pa) ⟨c, false, 4⟩ 4).hostRefuse p false)
    else if slotWord o ∧ s.fullAt (placeNow s pa) then .next (s.countHerr p 31 0)
    else s.hostLater pa (.bar2ArmWrite p off n v) <| .next (s.hostWrite p c pa 8 (.stfe 0) v fun t =>
      if slotWord o then ({ t with armed := t.armed ++ [(c, o / 256)] } : State).post (.launchSlotTake c (o / 256)) else t) := rfl

theorem bar2ClearRead_inView : InView s 2 p off n true (.bar2ClearRead p off n) fun c pa _ =>
    if s.hostBars c pa 1 then .next ((s.refuseAt (placeNow s pa) ⟨c, false, 4⟩ 1).hostRefuse p true) else .next (s.push (.value 0)) := rfl

theorem bar2ClearWrite_inView : InView s 2 p off n false (.bar2ClearWrite p off n v) fun c pa _ =>
    s.hostLater pa (.bar2ClearWrite p off n v) (.next (s.hostWrite p c (pa / 8 * 8) 8 (.stfe 2) 0 id)) := rfl

end

/-- The access table refuses the host (R101). -/
theorem hostBars_iff {s : State} {c : BitVec 6} {pa need : Nat} :
    s.hostBars c pa need = true ↔ s.admits (placeNow s pa) ⟨c, false, 4⟩ need = false := by
  simp [State.hostBars]

theorem hostBars_not_iff {s : State} {c : BitVec 6} {pa need : Nat} :
    ¬ s.hostBars c pa need = true ↔ s.admits (placeNow s pa) ⟨c, false, 4⟩ need = true := by
  simp [State.hostBars]

theorem slotWord_iff {o : Nat} : slotWord o = true ↔ o < 0x100000 ∧ o % 256 = 0 := decide_eq_true_iff

section
variable {s : State} {p off : Nat} {c : BitVec 6} {pa o : Nat} (v : W64) (hl : s.linked p = true)
  (hb : s.bar2 1 p off 8 = some (c, pa, o)) (ha : s.admits (placeNow s pa) ⟨c, false, 4⟩ 4 = true)
include hl hb ha

/-- An admitted store of view 1 to a launch slot's word 0 that is full is dropped and counted (R99). -/
theorem bar2ArmWrite_full (ho : slotWord o = true) (hf : s.fullAt (placeNow s pa) = true) :
    exec (.bar2ArmWrite p off 8 v) s = .next (s.countHerr p 31 0) :=
  ((bar2ArmWrite_inView s p off 8 v).inside hl hb).trans
    ((if_neg nofun).trans ((if_neg (hostBars_not_iff.mpr ha)).trans (if_pos ⟨ho, hf⟩)))

/-- Any other one is performed, once the home L2 serves it. -/
theorem bar2ArmWrite_stores (hf : ¬(slotWord o = true ∧ s.fullAt (placeNow s pa) = true)) (hw : l2Waits s (placeNow s pa) = false) :
    exec (.bar2ArmWrite p off 8 v) s = .next (s.hostWrite p c pa 8 (.stfe 0) v fun t =>
      if slotWord o then ({ t with armed := t.armed ++ [(c, o / 256)] } : State).post (.launchSlotTake c (o / 256)) else t) :=
  ((bar2ArmWrite_inView s p off 8 v).inside hl hb).trans
    ((if_neg nofun).trans ((if_neg (hostBars_not_iff.mpr ha)).trans ((if_neg hf).trans (hostLater_now hw))))

end

/-! ## Registers behind BAR0 (R94, R96, R97, R103, R104) -/

section
variable {s : State} {p : Nat} (off n : Nat) (v : Option W64) (hl : s.linked p = true)
include hl

theorem dieWindowAccess_linked : exec (.dieWindowAccess p off n v) s =
    if off < 0x4000000 ∨ 0x8000000 ≤ off ∨ !regSize off n then .next (s.hostRefuse p v.isNone)
    else .next (s.hostReg p (dieRange ((off - 0x4000000) / 0x800000) + off % 0x800000) n v) := linked_else hl

theorem bar0UnmappedAccess_linked : exec (.bar0UnmappedAccess p off n v) s =
    if bar0Listed off then .next (s.bar0 p off n v)
    else .next (if v.isNone then (s.countHerr p 63 32).push (.value (BitVec.ofNat 64 (2 ^ (8 * n) - 1))) else s.countHerr p 63 32) :=
  linked_else hl

end

/-- Settles O38: a view's step by whether a host is linked, its offset is in an area, the table admits it and the L2 serves it; a register's
step by its branches. -/
theorem hostMemoryAndPortEvents : Obligations.HostMemoryAndPortEvents := by
  constructor
  · intro s
    refine ⟨
      -- no host, and an offset outside: the six steps
      fun p off n h => (bar2PlainRead_inView s p off n).unlinked h, fun p off n h => (bar2PlainRead_inView s p off n).outside h,
      fun p off n x h => (bar2PlainWrite_inView s p off n x).unlinked h, fun p off n x h => (bar2PlainWrite_inView s p off n x).outside h,
      fun p off n h => (bar2ArmRead_inView s p off n).unlinked h, fun p off n h => (bar2ArmRead_inView s p off n).outside h,
      fun p off n x h => (bar2ArmWrite_inView s p off n x).unlinked h, fun p off n x h => (bar2ArmWrite_inView s p off n x).outside h,
      fun p off n h => (bar2ClearRead_inView s p off n).unlinked h, fun p off n h => (bar2ClearRead_inView s p off n).outside h,
      fun p off n x h => (bar2ClearWrite_inView s p off n x).unlinked h, fun p off n x h => (bar2ClearWrite_inView s p off n x).outside h,
      -- the home L2 serves nothing now (R171)
      fun p off n c pa o hl hb hw => ((bar2PlainRead_inView s p off n).inside hl hb).trans (hostLater_waits hw),
      fun p off n c pa o x hl hb hw => ((bar2PlainWrite_inView s p off n x).inside hl hb).trans (hostLater_waits hw),
      fun p off n c pa o hl hb hw => ((bar2ArmRead_inView s p off n).inside hl hb).trans (hostLater_waits hw),
      fun p off n c pa o x hl hb hw => ((bar2ClearWrite_inView s p off n x).inside hl hb).trans (hostLater_waits hw),
      -- view 0 (R95, R247): a read that is done, refused, poisoned; a write
      fun p off n c pa o t v w hl hb hw ha => ((bar2PlainRead_inView s p off n).inside hl hb).trans ((hostLater_now hw).trans (by rw [ha])),
      fun p off n c pa o t hl hb hw ha => ((bar2PlainRead_inView s p off n).inside hl hb).trans ((hostLater_now hw).trans (by rw [ha])),
      fun p off n c pa o t hl hb hw ha hu =>
        ((bar2PlainRead_inView s p off n).inside hl hb).trans ((hostLater_now hw).trans (by rw [ha, hu]; rfl)),
      fun p off n c pa o x hl hb hw => ((bar2PlainWrite_inView s p off n x).inside hl hb).trans (hostLater_now hw),
      -- view 1 (R99): a read; a write of another size, one that the table refuses, a full slot, another word, an empty slot
      fun p off n c pa o t v w hl hb hw ha => ((bar2ArmRead_inView s p off n).inside hl hb).trans ((hostLater_now hw).trans (by rw [ha])),
      fun p off n c pa o x hl hb hn => ((bar2ArmWrite_inView s p off n x).inside hl hb).trans (if_pos hn),
      fun p off c pa o x hl hb ha =>
        ((bar2ArmWrite_inView s p off 8 x).inside hl hb).trans ((if_neg nofun).trans (if_pos (hostBars_iff.mpr ha))),
      fun p off c pa o x hl hb ha ho hf => bar2ArmWrite_full x hl hb ha (slotWord_iff.mpr ho) hf,
      fun p off c pa o x hl hb ha hw ho => ?_, fun p off c pa o x hl hb ha hw ho hf => ?_,
      -- view 2: a read that the table admits, one that it refuses; a write
      fun p off n c pa o hl hb ha => ((bar2ClearRead_inView s p off n).inside hl hb).trans (if_neg (hostBars_not_iff.mpr ha)),
      fun p off n c pa o hl hb ha => ((bar2ClearRead_inView s p off n).inside hl hb).trans (if_pos (hostBars_iff.mpr ha)),
      fun p off n c pa o x hl hb hw => ((bar2ClearWrite_inView s p off n x).inside hl hb).trans (hostLater_now hw)⟩
    · have ho : ¬ slotWord o = true := fun h => ho (slotWord_iff.mp h).1 (slotWord_iff.mp h).2
      rw [bar2ArmWrite_stores x hl hb ha (fun h => ho h.1) hw]
      simp only [if_neg ho]
      rfl
    · rw [bar2ArmWrite_stores x hl hb ha (by simp [hf]) hw]
      simp only [if_pos (slotWord_iff.mpr ho)]
  · intro s
    refine ⟨fun p off n v hl h => (dieWindowAccess_linked off n v hl).trans (if_pos (by simpa using h)),
      fun p off n v hl h1 h2 hr => (dieWindowAccess_linked off n v hl).trans (if_neg (by simp [hr]; omega)),
      fun p off n v hl h => (bar0UnmappedAccess_linked off n v hl).trans (if_pos h),
      fun p off n hl h => (bar0UnmappedAccess_linked off n none hl).trans (if_neg (ne_true_of_eq_false h)),
      fun p off n x hl h => (bar0UnmappedAccess_linked off n (some x) hl).trans (if_neg (ne_true_of_eq_false h)),
      fun p v => rfl, fun p => rfl, fun d h => if_pos h, fun d h => if_neg h, fun d st k e m h => if_pos h,
      fun d st k e m h h1 h2 h3 => (if_neg (not_not_intro h)).trans (if_neg (by omega))⟩

end Sys2Proof.Machine
end

section
/-!
The mailbox: its commands, their completion, and MBSTAT (R97, R108, R109).
-/
namespace Sys2Proof.Machine
open Sys2Proof Sys2Proof.Safety

/-- The step `i` of a command written at port `p`, whose work is `f` once the command is accepted. -/
def MailStep (s : State) (p : Nat) (i : Instr) (f : State → State) : Prop := exec i s = .next (s.mailCommand p f)

section
variable {s : State} {p : Nat} {i : Instr} {f : State → State} (h : MailStep s p i f) (hl : s.linked p = true)
include h hl

theorem MailStep.refused (hm : s.mailboxOk 0x3010000 2 = false) : exec i s = .next (s.mailboxRefuse p 0x3010000 2) :=
  h.trans (congrArg _ ((linked_else hl).trans (if_pos (by simp [hm]))))

section
variable (hm : s.mailboxOk 0x3010000 2 = true)
include hm

/-- A command while one is in progress is dropped and counted. -/
theorem MailStep.dropped (hb : s.mbox.busy = true) : exec i s = .next (s.countHerr p 63 32) :=
  h.trans (congrArg _ ((linked_else hl).trans ((if_neg (by simp [hm])).trans (if_pos hb))))

theorem MailStep.accepted (hb : s.mbox.busy = false) {t : State}
    (ht : t = { s with mbox := { s.mbox with busy := true, done := false, rlen := 0 } }) : exec i s = .next (f t) := by
  subst ht
  exact h.trans (congrArg _ ((linked_else hl).trans ((if_neg (by simp [hm])).trans (if_neg (by simp [hb])))))

end

end

section
variable (s : State) (p : Nat) (c : W64)

theorem mailboxOpen_step : MailStep s p (.mailboxOpen p c) fun t =>
    (if openErr t (mailArg c) = 0 then t.staging (some []) (mailArg c) else t).mailEnd (openErr t (mailArg c)) := rfl

/-- CHUNK copies MBBUF's first bytes into the staging area. -/
theorem mailboxChunk_step : MailStep s p (.mailboxChunk p c) fun t =>
    (if chunkErr t (mailArg c) (mailLen c) = 0 then t.staging (some ((List.range (mailLen c)).foldl
        (fun x k => cellPut x (mailArg c + k) (cellGet t.mbox.buf k)) (t.mbox.image.getD []))) t.mbox.ilen
      else t).mailEnd (chunkErr t (mailArg c) (mailLen c)) := rfl

/-- The staged image, as COMMIT verifies it. -/
def State.mailImage (s : State) : Option (List Byte) := s.mbox.image.map fun x => (List.range s.mbox.ilen).map (cellGet x)

theorem mailboxCommit_step : MailStep s p (.mailboxCommit p c) fun t =>
    ((if commitErr t.mailImage = 0 then { t with fwStaged := t.mailImage } else t).staging none 0).mailEnd (commitErr t.mailImage) := rfl

theorem mailboxAbort_step : MailStep s p (.mailboxAbort p c) fun t =>
    (t.staging none 0).mailEnd (if t.mbox.image.isSome then 0 else 1) := rfl

theorem mailboxAttest_step : MailStep s p (.mailboxAttest p c) fun t =>
    (t.attestAsk (BitVec.ofNat 128 (cellsNat t.mbox.buf 0 16)) true).getD (t.mailEnd 5) := rfl

theorem mailboxInvalidOp_step : MailStep s p (.mailboxInvalidOp p c) fun t => t.mailEnd 1 := rfl

end

/-- No image is staged and the length is a multiple of 16 up to 32 MiB: OPEN succeeds. -/
theorem openErr_none {s : State} {n : Nat} (hi : s.mbox.image = none) (h : n ≤ 2 ^ 25 ∧ n % 16 = 0) : openErr s n = 0 := by
  simp only [openErr, hi, Option.isSome_none, Bool.false_eq_true, if_false]
  exact if_neg (by omega)

/-- Settles O39: a command is refused, dropped or accepted whatever it is; an accepted one by its error code. -/
theorem mailboxEvents : Obligations.MailboxEvents := by
  intro s
  refine ⟨
    -- each command: refused, and dropped while one is in progress
    fun p c => (mailboxOpen_step s p c).refused, fun p c => (mailboxOpen_step s p c).dropped,
    fun p c => (mailboxChunk_step s p c).refused, fun p c => (mailboxChunk_step s p c).dropped,
    fun p c => (mailboxCommit_step s p c).refused, fun p c => (mailboxCommit_step s p c).dropped,
    fun p c => (mailboxAbort_step s p c).refused, fun p c => (mailboxAbort_step s p c).dropped,
    fun p c => (mailboxAttest_step s p c).refused, fun p c => (mailboxAttest_step s p c).dropped,
    fun p c => (mailboxInvalidOp_step s p c).refused, fun p c => (mailboxInvalidOp_step s p c).dropped,
    -- OPEN, CHUNK and COMMIT: success, error
    fun p c t hl hm hb ht hi ha => ?_, fun p c t hl hm hb ht he => ?_, fun p c t img hl hm hb ht he hi => ?_,
    fun p c t hl hm hb ht he => ?_, fun p c t img hl hm hb ht hi he => ?_, fun p c t img hl hm hb ht hi he => ?_,
    -- ABORT, ATTEST, another code
    fun p c t hl hm hb ht => (mailboxAbort_step s p c).accepted hl hm hb ht,
    fun p c t hl hm hb ht => (mailboxAttest_step s p c).accepted hl hm hb ht,
    fun p c t hl hm hb ht => (mailboxInvalidOp_step s p c).accepted hl hm hb ht,
    -- completion, and a read of MBSTAT
    fun e hb => congrArg _ (if_pos hb), fun p hl hm => (linked_else hl).trans (if_neg (by simp [hm])),
    fun p hl hm => (linked_else hl).trans (if_pos (by simp [hm]))⟩
  · rw [(mailboxOpen_step s p c).accepted hl hm hb ht, openErr_none hi ha]
    rfl
  · rw [(mailboxOpen_step s p c).accepted hl hm hb ht, if_neg he]
    rfl
  · rw [(mailboxChunk_step s p c).accepted hl hm hb ht, he, hi]
    rfl
  · rw [(mailboxChunk_step s p c).accepted hl hm hb ht, if_neg he]
    rfl
  · obtain rfl : img = t.mailImage := hi
    rw [(mailboxCommit_step s p c).accepted hl hm hb ht, he]
    rfl
  · obtain rfl : img = t.mailImage := hi
    rw [(mailboxCommit_step s p c).accepted hl hm hb ht, if_neg he]
    rfl

end Sys2Proof.Machine
end

section
/-!
A launch from its slot to the binding of its teams (R102, R116, R118, R120–R123, R247).
-/
namespace Sys2Proof.Machine
open Sys2Proof Sys2Proof.Safety

/-! ## A slot is taken (R102, R247) -/

section
variable {s : State} {c : BitVec 6} {n a : Nat} {r : LRec}

/-- A slot that is not the oldest armed one of its context is left, and so is any before the module is ready. -/
theorem takeSlot_notOldest (h : s.ready = false ∨ s.armed.find? (fun x => x.1 == c) ≠ some (c, n)) : s.takeSlot c n = s :=
  if_pos (by simpa using h)

section
variable (ha : a = placeNow s (s.slotAddr c n)) (hr : s.ready = true) (ho : s.armed.find? (fun x => x.1 == c) = some (c, n))
include ha hr ho

/-- A slot whose word 0 was emptied since is no longer armed. -/
theorem takeSlot_empty (hf : s.fullAt a = false) :
    s.takeSlot c n = ({ s with armed := s.armed.erase (c, n) } : State).offerSlots := by
  subst ha
  exact (if_neg (by simp [hr, ho])).trans (if_pos (by simp [hf]))

section
variable (hf : s.fullAt a = true) (hrec : r = LRec.of (s.readPa a 256 ((s.hctx.get c.toFin).extractLsb' 11 10)))
include hf hrec

/-- The oldest armed slot of its context, full: its record is poisoned, has no room, is rejected, or is accepted. -/
theorem takeSlot_full : s.takeSlot c n = match s.slotPoison a with
    | some b => (s.poisonSlot c n (homeDie a) b r).offerSlots
    | none =>
      if !s.launchRoom (homeDie a) r then s
      else (if (s.emptySlot c n).launchCode (homeDie a) ((s.emptySlot c n).ctxDesc c) r ≠ 0 then
          (s.emptySlot c n).reject (homeDie a) c ((s.emptySlot c n).ctxDesc c) r
            ((s.emptySlot c n).launchCode (homeDie a) ((s.emptySlot c n).ctxDesc c) r) (s.slotAddr c n)
        else ((s.emptySlot c n).acceptLaunch (homeDie a) c ((s.emptySlot c n).ctxDesc c) r).1).offerSlots := by
  subst ha hrec
  exact (if_neg (by simp [hr, ho])).trans (if_neg (by simp [hf]))

theorem takeSlot_poisoned {b : Nat} (hp : s.slotPoison a = some b) :
    s.takeSlot c n = (s.poisonSlot c n (homeDie a) b r).offerSlots := by
  rw [takeSlot_full ha hr ho hf hrec, hp]

section
variable (hp : s.slotPoison a = none)
include hp

theorem takeSlot_noRoom (hq : s.launchRoom (homeDie a) r = false) : s.takeSlot c n = s := by
  rw [takeSlot_full ha hr ho hf hrec, hp]
  exact if_pos (by simp [hq])

section
variable (hq : s.launchRoom (homeDie a) r = true) {t : State} {d : CtxDesc} {k : Nat} (ht : t = s.emptySlot c n) (hd : d = t.ctxDesc c)
  (hk : k = t.launchCode (homeDie a) d r)
include hq ht hd hk

theorem takeSlot_rejects (h : k ≠ 0) : s.takeSlot c n = (t.reject (homeDie a) c d r k (s.slotAddr c n)).offerSlots := by
  rw [takeSlot_full ha hr ho hf hrec, hp, ← ht, ← hd, ← hk]
  exact (if_neg (by simp [hq])).trans (congrArg State.offerSlots (if_pos h))

theorem takeSlot_accepts (h : k = 0) : s.takeSlot c n = (t.acceptLaunch (homeDie a) c d r).1.offerSlots := by
  rw [takeSlot_full ha hr ho hf hrec, hp, ← ht, ← hd, ← hk]
  exact (if_neg (by simp [hq])).trans (congrArg State.offerSlots (if_neg (not_not_intro h)))

end

end

end

end

end

theorem exec_launchSlotTake (c : BitVec 6) (n : Nat) (s : State) : exec (.launchSlotTake c n) s = .next (s.takeSlot c n) := rfl

/-! ## Gates, Bind and pre-emption (R118, R120–R123) -/

theorem exec_gateSatisfied (l : BitVec 16) (s : State) : exec (.gateSatisfied l) s = execGateSatisfied l s := rfl
theorem exec_bindRequest (l : BitVec 16) (p : Nat) (s : State) : exec (.bindRequest l p) s = execBindRequest l p s := rfl
theorem exec_preemption (l : BitVec 16) (s : State) : exec (.preemption l) s = .next ((s.launch? l).elim s s.preempt) := rfl

section
variable {s : State} {l : BitVec 16} {x : Launch} (hx : s.launch? l = some x)
include hx

/-- One gate less; the last one begins dispatch. -/
theorem gateSatisfied_gated (hp : x.phase = .gated) (he : x.ending = false) : exec (.gateSatisfied l) s =
    .next (if x.gatesLeft ≤ 1 then (s.setLaunch l fun x => { x with gatesLeft := x.gatesLeft - 1 }).enterDispatch l
      else s.setLaunch l fun x => { x with gatesLeft := x.gatesLeft - 1 }) := by
  rw [exec_gateSatisfied, execGateSatisfied, hx]
  exact if_neg (by simp [hp, he])

/-- The reservation of core `p` given up, and the core offered again. -/
def State.unreserve (s : State) (l : BitVec 16) (p : Nat) : State :=
  (s.setLaunch l fun x => { x with reserved := x.reserved.erase p }).post (.dispatchCoreFree (p / 1024) p)

section
variable {p : Nat}

theorem bindRequest_unreserved (hr : x.reserved.contains p = false) : exec (.bindRequest l p) s = .next s := by
  rw [exec_bindRequest, execBindRequest, hx]
  exact if_pos (by rw [hr]; rfl)

section
variable (hr : x.reserved.contains p = true)
include hr

theorem bindRequest_reserved : exec (.bindRequest l p) s =
    if x.phase ≠ .dispatching ∨ x.ending then .next (s.unreserve l p)
    else if !(s.permitted x.lrec).contains p then .next ((s.kick l).unreserve l p)
    else if x.lrec.cores then
      .next (if x.left ≤ x.reserved.length ∧ !(s.cores.any fun c => c.launch == l && c.stopping) then State.bindAll x.left l s else s)
    else (s.bindNext x p).elim (.next (s.unreserve l p)) .next := by
  rw [exec_bindRequest, execBindRequest, hx]
  refine (if_neg (by rw [hr]; nofun)).trans ?_
  cases s.bindNext x p <;> rfl

section
variable (hp : x.phase = .dispatching) (he : x.ending = false)
include hp he

theorem bindRequest_notPermitted (hq : (s.permitted x.lrec).contains p = false) :
    exec (.bindRequest l p) s = .next ((s.kick l).unreserve l p) :=
  (bindRequest_reserved hx hr).trans ((if_neg (by simp [hp, he])).trans (if_pos (by rw [hq]; rfl)))

section
variable (hq : (s.permitted x.lrec).contains p = true)
include hq

theorem bindRequest_permitted : exec (.bindRequest l p) s =
    if x.lrec.cores then
      .next (if x.left ≤ x.reserved.length ∧ !(s.cores.any fun c => c.launch == l && c.stopping) then State.bindAll x.left l s else s)
    else (s.bindNext x p).elim (.next (s.unreserve l p)) .next :=
  (bindRequest_reserved hx hr).trans ((if_neg (by simp [hp, he])).trans (if_neg (by rw [hq]; nofun)))

/-- A launch whose teams run one to a core binds the next one, if it has one for this core. -/
theorem bindRequest_next (hc : x.lrec.cores = false) :
    exec (.bindRequest l p) s = (s.bindNext x p).elim (.next (s.unreserve l p)) .next :=
  (bindRequest_permitted hx hr hp he hq).trans (if_neg (by simp [hc]))

end

end

end

end

end

/-- Settles O44: a slot, a gate, an offered core and Bind, each by the branches of its step in their order. -/
theorem launchEvents : Obligations.LaunchEvents := by
  intro s
  refine ⟨
    -- a slot (R102): not the oldest, empty, poisoned, without room, rejected, accepted
    fun c n a h => congrArg _ (takeSlot_notOldest h), fun c n a ha hr ho hf => congrArg _ (takeSlot_empty ha hr ho hf),
    fun c n a b r ha hr ho hf h hp => congrArg _ (takeSlot_poisoned ha hr ho hf h hp),
    fun c n a r ha hr ho hf h hp hq => congrArg _ (takeSlot_noRoom ha hr ho hf h hp hq),
    fun c n a r t d k ha hr ho hf h hp hq ht hd hk h0 => congrArg _ (takeSlot_rejects ha hr ho hf h hp hq ht hd hk h0),
    fun c n a r t d k ha hr ho hf h hp hq ht hd hk h0 => congrArg _ (takeSlot_accepts ha hr ho hf h hp hq ht hd hk h0),
    -- a gate (R118): of no launch, one of several, the last
    fun l hx => by rw [exec_gateSatisfied, execGateSatisfied, hx],
    fun l x hx hp he hg => (gateSatisfied_gated hx hp he).trans (congrArg _ (if_neg (Nat.not_le.mpr hg))),
    fun l x hx hp he hg => (gateSatisfied_gated hx hp he).trans (congrArg _ (if_pos hg)),
    -- a core that was offered (R120, R121): in use, free
    fun d p h => congrArg _ (if_pos h), fun d p h => congrArg _ (if_neg h),
    -- Bind (R120, R122): no launch, no reservation, one that ends, a core that is not permitted; all teams, the next one, none
    fun l p hx => by rw [exec_bindRequest, execBindRequest, hx], fun l p x hx hr => bindRequest_unreserved hx hr,
    fun l p x hx hr h => (bindRequest_reserved hx hr).trans (if_pos h),
    fun l p x hx hr hp he hq => bindRequest_notPermitted hx hr hp he hq,
    fun l p x hx hr hp he hq hc => (bindRequest_permitted hx hr hp he hq).trans ((if_pos hc).trans (by simp only [Bool.not_eq_true'])),
    fun l p x t hx hr hp he hq hc hb => (bindRequest_next hx hr hp he hq hc).trans (by rw [hb, Option.elim_some]),
    fun l p x hx hr hp he hq hc hb => (bindRequest_next hx hr hp he hq hc).trans (by rw [hb, Option.elim_none]; rfl),
    -- pre-emption (R123): of a live launch, of none
    fun l x hx => by rw [exec_preemption, hx, Option.elim_some], fun l hx => by rw [exec_preemption, hx, Option.elim_none]⟩

end Sys2Proof.Machine
end


section
/-!
A team's save, restore and exit, its completion release, the end or restart of its launch, and the seal of its core (R119, R124–R129,
R246–R248).
-/
namespace Sys2Proof.Machine
open Sys2Proof Sys2Proof.Safety

/-! ## A team's log and lines leave the quad (R182, R212, R171) -/

/-- What a save and an exit have in common: the log of core `k` is emptied, a line that is held makes the step come again (`wait`), and
otherwise it goes on (`go`). -/
noncomputable def State.drain (s : State) (k : Nat) (c : Core) (again : Nat → State → State) (wait go : State → Core → State) : State :=
  let (u, done) := s.emptyLog c again
  let d := (u.core? k).getD c
  if !done then u else if u.lineWaits d then wait u d else go u d

section
variable {s u : State} {k : Nat} {c d : Core} {again : Nat → State → State} {wait go : State → Core → State}

theorem drain_logWaits (h : s.emptyLog c again = (u, false)) : s.drain k c again wait go = u := by
  rw [State.drain, h]
  rfl

section
variable (h : s.emptyLog c again = (u, true)) (hd : d = (u.core? k).getD c)
include h hd

theorem drain_lineWaits (hw : u.lineWaits d = true) : s.drain k c again wait go = wait u d := by
  subst hd
  rw [State.drain, h]
  exact (if_neg (by nofun)).trans (if_pos hw)

theorem drain_goes (hw : u.lineWaits d = false) : s.drain k c again wait go = go u d := by
  subst hd
  rw [State.drain, h]
  exact (if_neg (by nofun)).trans (if_neg (ne_true_of_eq_false hw))

end

end

/-! ## Save (R124, R125) -/

/-- The save of core `k` into slot `n` once its log is empty: the quad's lines are cleaned and step 4 begins. -/
noncomputable def State.saveDrained (k n : Nat) (u : State) (d : Core) : State :=
  let v := (u.l1Clean d.quadId (fun _ => true) false).tenuresClean d
  v.saveHolders ((v.core? k).getD d) n

theorem exec_teamSave (k : Nat) (s : State) : exec (.teamSave k) s = execTeamSave k s := rfl

section
variable {s : State} {k : Nat}

theorem teamSave_unbound (hc : s.core? k = none) : exec (.teamSave k) s = .next s := by
  rw [exec_teamSave, execTeamSave, hc]

section
variable {c : Core} (hc : s.core? k = some c)
include hc

theorem teamSave_unasked (hs : c.stopping = false) : exec (.teamSave k) s = .next s := by
  rw [exec_teamSave, execTeamSave, hc]
  exact if_pos (by rw [hs]; rfl)

section
variable (hs : c.stopping = true)
include hs

theorem teamSave_exiting (he : c.exiting = true) :
    exec (.teamSave k) s = .next (s.setCore { c with stopping := false, saveFor := none, saveSlot := none }) := by
  rw [exec_teamSave, execTeamSave, hc]
  exact (if_neg (by rw [hs]; nofun)).trans (if_pos he)

section
variable (he : c.exiting = false)
include he

theorem teamSave_underWay {n a : Nat} {ms : List (BitVec 16)} (hn : c.saveSlot = some (n, ms, a)) :
    exec (.teamSave k) s = .next (s.saveWaits c n ms a) := by
  rw [exec_teamSave, execTeamSave, hc]
  refine (if_neg (by rw [hs]; nofun)).trans ((if_neg (ne_true_of_eq_false he)).trans ?_)
  rw [hn]

section
variable (hn : c.saveSlot = none)
include hn

/-- A save that has no slot yet waits until the core is quiet, and then takes the lowest free slot. -/
theorem teamSave_begins : exec (.teamSave k) s =
    if !s.quiet c then .next (s.saveLater c 1)
    else ((List.range c.desc.saven).find? fun n => !(s.slotsUsed c.ctx).contains n).elim
      (.next (s.setCore { c with stopping := false, saveFor := none })) fun n =>
        .next (s.drain k c (fun n s => s.saveLater ((s.core? k).getD c) n) (fun u d => u.saveLater d 1) (State.saveDrained k n)) := by
  rw [exec_teamSave, execTeamSave, hc]
  refine (if_neg (by rw [hs]; nofun)).trans ((if_neg (ne_true_of_eq_false he)).trans ?_)
  rw [hn]
  refine if_congr Iff.rfl rfl ?_
  cases (List.range c.desc.saven).find? fun n => !(s.slotsUsed c.ctx).contains n with
  | none => rfl
  | some n => simp only [Option.elim_some, State.drain, State.saveDrained, apply_ite Host.Outcome.next]

theorem teamSave_notQuiet (hq : s.quiet c = false) : exec (.teamSave k) s = .next (s.saveLater c 1) :=
  (teamSave_begins hc hs he hn).trans (if_pos (by rw [hq]; rfl))

section
variable (hq : s.quiet c = true)
include hq

theorem teamSave_noSlot (hf : (List.range c.desc.saven).find? (fun n => !(s.slotsUsed c.ctx).contains n) = none) :
    exec (.teamSave k) s = .next (s.setCore { c with stopping := false, saveFor := none }) :=
  (teamSave_begins hc hs he hn).trans ((if_neg (by rw [hq]; nofun)).trans (by rw [hf, Option.elim_none]))

/-- With a free slot the log and the lines go first, and then the holders of the team's endpoint are told. -/
theorem teamSave_slot {n : Nat} (hf : (List.range c.desc.saven).find? (fun n => !(s.slotsUsed c.ctx).contains n) = some n) :
    exec (.teamSave k) s =
      .next (s.drain k c (fun n s => s.saveLater ((s.core? k).getD c) n) (fun u d => u.saveLater d 1) (State.saveDrained k n)) :=
  (teamSave_begins hc hs he hn).trans ((if_neg (by rw [hq]; nofun)).trans (by rw [hf, Option.elim_some]))

end

end

end

end

end

end

/-- Without holders in other modules a save has no step 4 to wait for. -/
theorem saveHolders_none {s u : State} {c d : Core} {n : Nat} (h : c.holders s = [])
    (hu : u = s.repoint { old := endpointOf s c.id, new := s.zenith (launchHome c.launch), ctx := c.ctx, slot := BitVec.ofNat 16 n, save := true })
    (hd : d = (u.core? c.id).getD c) : s.saveHolders c n = u.saveTeam d n := by
  subst hu hd
  exact if_pos h

/-! ## Restore (R126, R127) -/

theorem exec_teamRestore (l : BitVec 16) (t k : Nat) (s : State) : exec (.teamRestore l t k) s = execTeamRestore l t k s := rfl

section
variable {s : State} {l : BitVec 16} {t k : Nat}

theorem teamRestore_notSaved (hy : ((s.launch? l).bind fun x => x.saved.find? fun y => decide (y.team = t) && y.core == some k) = none) :
    exec (.teamRestore l t k) s = .next (if (s.core? k).isNone then s.post (.dispatchCoreFree (k / 1024) k) else s) := by
  rw [exec_teamRestore, execTeamRestore, hy]

section
variable {y : Saved} {ms : List (BitVec 16)}
  (hy : ((s.launch? l).bind fun x => x.saved.find? fun y => decide (y.team = t) && y.core == some k) = some y)
  (hm : ms = y.asked.getD (y.image.holders s))
include hy

theorem teamRestore_coreGone (ha : ((s.die (k / 1024)).activeCores (k / 1024)).contains k = false) :
    exec (.teamRestore l t k) s = .next ((s.setLaunch l fun x => { x with
      saved := update (fun v => decide (v.team = t)) (fun v => { v with core := none, asked := none }) x.saved
      phase := .dispatching }).kick l) := by
  rw [exec_teamRestore, execTeamRestore, hy]
  exact if_pos (by rw [ha]; rfl)

section
variable (ha : ((s.die (k / 1024)).activeCores (k / 1024)).contains k = true)
include hm ha

theorem teamRestore_asks (h : ms ≠ []) : exec (.teamRestore l t k) s = .next (s.askRestore l y k ms) := by
  subst hm
  rw [exec_teamRestore, execTeamRestore, hy]
  exact (if_neg (by rw [ha]; nofun)).trans (if_pos h)

/-- With every holder's answer the slot's memory decides. -/
theorem teamRestore_answered (h : ms = []) : exec (.teamRestore l t k) s =
    (s.slotMemory y).elim (.next ((s.putTeam l y k {}).post (.coreSeal k 2 0))) fun m =>
      .next ((y.held.map (heldNotice (endpointOf s k))).foldl State.post (s.putTeam l y k m)) := by
  subst hm
  rw [exec_teamRestore, execTeamRestore, hy]
  refine (if_neg (by rw [ha]; nofun)).trans ((if_neg (not_not_intro h)).trans ?_)
  cases s.slotMemory y <;> rfl

end

end

end

/-! ## Exit and completion (R119) -/

theorem exec_teamExit (k : Nat) (s : State) : exec (.teamExit k) s = execTeamExit k s := rfl

section
variable {s : State} {k : Nat}

theorem teamExit_unbound (hc : s.core? k = none) : exec (.teamExit k) s = .next s := by
  rw [exec_teamExit, execTeamExit, hc]

section
variable {c x : Core} (hc : s.core? k = some c)
include hc

theorem teamExit_runs (ha : c.allHalted = false) : exec (.teamExit k) s = .next s := by
  rw [exec_teamExit, execTeamExit, hc]
  exact if_pos (by rw [ha]; rfl)

section
variable (ha : c.allHalted = true) (hx : x = { c with exiting := true, stopping := false })
include ha hx

/-- A halted team waits for its calls and its engines; then its log and lines go, and it exits. -/
theorem teamExit_halted : exec (.teamExit k) s =
    if c.lrec.calls && ((c.thr.get 7).run != .call || !c.calls.isEmpty) then .next (s.setCore x)
    else if !c.enginesIdle then .next ((s.setCore x).after 1 (.teamExit k))
    else .next ((s.setCore x).drain k x (fun n s => s.after n (.teamExit k)) (fun u _ => u.after 1 (.teamExit k)) State.exitTeam) := by
  subst hx
  rw [exec_teamExit, execTeamExit, hc]
  exact if_neg (by rw [ha]; nofun)

theorem teamExit_calls (hb : (c.lrec.calls && ((c.thr.get 7).run != .call || !c.calls.isEmpty)) = true) :
    exec (.teamExit k) s = .next (s.setCore x) :=
  (teamExit_halted hc ha hx).trans (if_pos hb)

section
variable (hb : (c.lrec.calls && ((c.thr.get 7).run != .call || !c.calls.isEmpty)) = false)
include hb

theorem teamExit_engines (hi : c.enginesIdle = false) : exec (.teamExit k) s = .next ((s.setCore x).after 1 (.teamExit k)) :=
  (teamExit_halted hc ha hx).trans ((if_neg (ne_true_of_eq_false hb)).trans (if_pos (by rw [hi]; rfl)))

theorem teamExit_drains (hi : c.enginesIdle = true) : exec (.teamExit k) s =
    .next ((s.setCore x).drain k x (fun n s => s.after n (.teamExit k)) (fun u _ => u.after 1 (.teamExit k)) State.exitTeam) :=
  (teamExit_halted hc ha hx).trans ((if_neg (ne_true_of_eq_false hb)).trans (if_neg (by rw [hi]; nofun)))

end

end

end

end

theorem exec_teamCompletionRelease (l : BitVec 16) (t : Nat) (v : Option W64) (s : State) :
    exec (.teamCompletionRelease l t v) s = execTeamCompletionRelease l t v s := rfl

section
variable {s : State} {l : BitVec 16} {t : Nat}

theorem teamCompletionRelease_noLaunch (v : Option W64) (hx : s.launch? l = none) :
    exec (.teamCompletionRelease l t v) s = .next s := by
  rw [exec_teamCompletionRelease, execTeamCompletionRelease, hx]

section
variable {x : Launch} (hx : s.launch? l = some x)
include hx

theorem teamCompletionRelease_over (v : Option W64) (h : x.phase = .free ∨ x.ending = true) :
    exec (.teamCompletionRelease l t v) s = .next s := by
  rw [exec_teamCompletionRelease, execTeamCompletionRelease, hx]
  exact if_pos h

section
variable (hp : x.phase ≠ .free) (he : x.ending = false)
include hp he

theorem teamCompletionRelease_value (v : W64) : exec (.teamCompletionRelease l t (some v)) s = .next (s.complete l v) := by
  rw [exec_teamCompletionRelease, execTeamCompletionRelease, hx]
  exact if_neg (by simp [hp, he])

/-- A team's release is counted once; the last one completes the launch. -/
theorem teamCompletionRelease_counts : exec (.teamCompletionRelease l t none) s =
    if x.exited.contains t then .next s
    else .next (if x.lrec.n ≤ x.done + 1
      then (s.setLaunch l fun x => { x with done := x.done + 1, exited := x.exited ++ [t] }).complete l x.lrec.cval
      else s.setLaunch l fun x => { x with done := x.done + 1, exited := x.exited ++ [t] }) := by
  rw [exec_teamCompletionRelease, execTeamCompletionRelease, hx]
  exact if_neg (by simp [hp, he])

theorem teamCompletionRelease_again (ht : x.exited.contains t = true) : exec (.teamCompletionRelease l t none) s = .next s :=
  (teamCompletionRelease_counts hx hp he).trans (if_pos ht)

section
variable {u : State} (ht : x.exited.contains t = false)
  (hu : u = s.setLaunch l fun x => { x with done := x.done + 1, exited := x.exited ++ [t] })
include ht hu

theorem teamCompletionRelease_notLast (hn : x.done + 1 < x.lrec.n) : exec (.teamCompletionRelease l t none) s = .next u := by
  subst hu
  exact (teamCompletionRelease_counts hx hp he).trans
    ((if_neg (ne_true_of_eq_false ht)).trans (congrArg _ (if_neg (Nat.not_le.mpr hn))))

theorem teamCompletionRelease_last (hn : x.lrec.n ≤ x.done + 1) :
    exec (.teamCompletionRelease l t none) s = .next (u.complete l x.lrec.cval) := by
  subst hu
  exact (teamCompletionRelease_counts hx hp he).trans ((if_neg (ne_true_of_eq_false ht)).trans (congrArg _ (if_pos hn)))

end

end

end

end

/-! ## Termination and restart (R128, R129, R247) -/

theorem exec_launchTermination (l : BitVec 16) (r k : BitVec 8) (t : Option Nat) (s : State) :
    exec (.launchTermination l r k t) s = execLaunchTermination l r k t s := rfl

/-- An end that names no team terminates the launch, whether it lives or not. -/
theorem launchTermination_noTeam (l : BitVec 16) (r k : BitVec 8) (s : State) :
    exec (.launchTermination l r k none) s = .next (s.terminate l r.toNat k.toNat) := by
  rw [exec_launchTermination]
  unfold execLaunchTermination
  cases s.launch? l <;> rfl

/-- An end that names a team: a live restartable launch restarts the team of a contained fault (reason 1). -/
theorem launchTermination_team {s : State} {l : BitVec 16} {x : Launch} (hx : s.launch? l = some x) (r k : BitVec 8) (t : Nat) :
    exec (.launchTermination l r k (some t)) s =
      if x.lrec.restart ∧ r = 1 ∧ x.phase ≠ .free ∧ !x.ending then .next ((s.restartTeam l t).1.kick l)
      else .next (s.terminate l r.toNat k.toNat) := by
  rw [exec_launchTermination]
  unfold execLaunchTermination
  rw [hx]

theorem launchTermination_terminates {s : State} {l : BitVec 16} {x : Launch} (hx : s.launch? l = some x) {r : BitVec 8} (k : BitVec 8)
    (t : Nat) (h : x.lrec.restart = false ∨ r ≠ 1 ∨ x.phase = .free ∨ x.ending = true) :
    exec (.launchTermination l r k (some t)) s = .next (s.terminate l r.toNat k.toNat) := by
  refine (launchTermination_team hx r k t).trans (if_neg ?_)
  rintro ⟨hr, h1, hp, he⟩
  rcases h with h | h | h | h
  · exact ne_true_of_eq_false h hr
  · exact h h1
  · exact hp h
  · exact absurd he (by rw [h]; nofun)

/-! ## A core is sealed (R246, R248) -/

theorem exec_coreSeal (k n : Nat) (pc : W64) (s : State) : exec (.coreSeal k n pc) s = execCoreSeal k n pc s := rfl

section
variable {s : State} {k n : Nat} {pc : W64}

theorem coreSeal_sealed (h : (s.die (k / 1024)).sealedCores.contains k = true) : exec (.coreSeal k n pc) s = .next s := by
  rw [exec_coreSeal, execCoreSeal]
  exact if_pos h

section
variable {t u : State} {z g : Nat} {p : W64} (h : (s.die (k / 1024)).sealedCores.contains k = false) (ht : t = s.coreLoss k n)
  (hz : z = if 3 ≤ n then 1 else n) (hp : p = if z = 1 ∧ pc = 0 then t.sealPc k else if z = 2 then 0 else pc)
  (hg : g = ((t.die (k / 1024)).logicalOf (k / 1024) k).getD 0)
  (hu : u = t.setDie (k / 1024) fun d => { d with sealedCores := d.sealedCores ++ [k] })
include h ht hz hp hg hu

/-- A core without a team is recorded and replaced. -/
theorem coreSeal_unbound (hc : u.core? k = none) :
    exec (.coreSeal k n pc) s = .next ((u.fault (k / 1024) 0x71 z 0 p.toNat (t.sealAux k false) 0).replaceSealed k g) := by
  rw [exec_coreSeal, execCoreSeal]
  refine (if_neg (ne_true_of_eq_false h)).trans ?_
  simp only [← ht, ← hz, ← hp, ← hg, ← hu, hc]

/-- The team of a sealed core leaves its channels and calls; it runs again or its launch ends, and the core is replaced. -/
theorem coreSeal_bound {c : Core} {v w : State} (hc : u.core? k = some c) (hv : v = u.sealTeam c)
    (hw : w = v.fault (k / 1024) 0x71 z c.ctx.toNat p.toNat (t.sealAux k (!v.runsAgain c)) (c.team + c.launch.toNat * 2 ^ 24)) :
    exec (.coreSeal k n pc) s = .next ((if c.lrec.restart then (w.restartTeam c.launch c.team).1.kick c.launch
      else w.terminate c.launch 1 0x10).replaceSealed k g) := by
  rw [exec_coreSeal, execCoreSeal]
  refine (if_neg (ne_true_of_eq_false h)).trans ?_
  simp only [← ht, ← hz, ← hp, ← hg, ← hu, hc, ← hv, ← hw]

end

end

/-- Settles O45: each event by the branches of its step in their order; a save and an exit share `State.drain`. -/
theorem teamEvents : Obligations.TeamEvents := by
  intro s
  refine ⟨
    -- a save (R124): no team, none asked, an exit, step 4 under way, not quiet, no free slot; its log or lines wait, its holders are told
    fun k hc => teamSave_unbound hc, fun k c hc hs => teamSave_unasked hc hs, fun k c hc hs he => teamSave_exiting hc hs he,
    fun k c n a ms hc hs he hn => teamSave_underWay hc hs he hn, fun k c hc hs he hn hq => teamSave_notQuiet hc hs he hn hq,
    fun k c hc hs he hn hq hf => teamSave_noSlot hc hs he hn hq hf,
    fun k c n u hc hs he hn hq hf hl => (teamSave_slot hc hs he hn hq hf).trans (congrArg _ (drain_logWaits hl)),
    fun k c n u d hc hs he hn hq hf hl hd hw => (teamSave_slot hc hs he hn hq hf).trans (congrArg _ (drain_lineWaits hl hd hw)),
    fun k c n u v d hc hs he hn hq hf hl hd hw hv =>
      (teamSave_slot hc hs he hn hq hf).trans (congrArg _ ((drain_goes hl hd hw).trans (by rw [hv]; rfl))),
    -- its step 4 (R125): answered or timed out, nobody to ask
    fun c n a ms h => if_pos h, fun c d n u h hu hd => saveHolders_none h hu hd,
    -- a restore (R126, R127): not of this core, the core gone, holders to ask, the image sound, corrupt
    fun l t k hy => teamRestore_notSaved hy, fun l t k y ms hy _ ha => teamRestore_coreGone hy ha,
    fun l t k y ms hy hm ha h => teamRestore_asks hy hm ha h,
    fun l t k y ms m hy hm ha h hs => (teamRestore_answered hy hm ha h).trans (by rw [hs, Option.elim_some]),
    fun l t k y ms hy hm ha h hs => (teamRestore_answered hy hm ha h).trans (by rw [hs, Option.elim_none]),
    -- an exit (R119): no team, threads that run, calls, engines; its log or lines wait, it leaves
    fun k hc => teamExit_unbound hc, fun k c hc ha => teamExit_runs hc ha, fun k c x hc ha hx hb => teamExit_calls hc ha hx hb,
    fun k c x hc ha hx hb hi => teamExit_engines hc ha hx hb hi,
    fun k c x u hc ha hx hb hi hl => (teamExit_drains hc ha hx hb hi).trans (congrArg _ (drain_logWaits hl)),
    fun k c x y u hc ha hx hb hi hl hy hw => (teamExit_drains hc ha hx hb hi).trans (congrArg _ (drain_lineWaits hl hy hw)),
    fun k c x y u hc ha hx hb hi hl hy hw => (teamExit_drains hc ha hx hb hi).trans (congrArg _ (drain_goes hl hy hw)),
    -- a completion release (R119): no launch, one that is over, with a value; counted before, not the last, the last
    fun l t v hx => teamCompletionRelease_noLaunch v hx, fun l t v x hx h => teamCompletionRelease_over hx v h,
    fun l t v x hx hp he => teamCompletionRelease_value hx hp he v, fun l t x hx hp he ht => teamCompletionRelease_again hx hp he ht,
    fun l t x u hx hp he ht hu hn => teamCompletionRelease_notLast hx hp he ht hu hn,
    fun l t x u hx hp he ht hu hn => teamCompletionRelease_last hx hp he ht hu hn,
    -- a launch's end (R128, R129, R247): a team restarts, the launch terminates
    fun l r k t x hx hr h1 hp he => (launchTermination_team hx r k t).trans (if_pos ⟨hr, h1, hp, by rw [he]; rfl⟩),
    fun l r k t x hx h => launchTermination_terminates hx k t h, fun l r k => launchTermination_noTeam l r k s,
    -- a seal (R248): sealed before, without a team, with one
    fun k n pc h => coreSeal_sealed h, fun k n pc t u z g p h ht hz hp hg hu hc => coreSeal_unbound h ht hz hp hg hu hc,
    fun k n pc t u z g p c v w h ht hz hp hg hu hc hv hw => coreSeal_bound h ht hz hp hg hu hc hv hw⟩

end Sys2Proof.Machine
end

section
/-!
The checks made before an instruction takes effect, in their order (R132, R144, R148, R159, R236, R281).
-/
namespace Sys2Proof.Machine
open Sys2Proof Sys2Proof.Safety

/-! ## What the gate answers -/

/-- An XMAT operation is neither of system mode only nor a write of a special register. -/
theorem isMatrix_unprivileged {i : Instr} (hm : isMatrix i = true) : sysOnly i = false ∧ readOnlySr i = false := by
  unfold isMatrix at hm
  split at hm
  case h_15 => cases hm
  all_goals exact ⟨rfl, rfl⟩

section
variable {i : Instr} {m : M} (h : MayIssue i m) (hp : m.thr.pendTrap = none) (hk : gatedOff m i = false)
include h hp hk

/-- Behind the issue stage and an open K gate, the privilege and the launch's MATRIX are left to check, and the queues. -/
theorem gate_open : gate i m = (do
    trapIf (sysOnly i && !m.thr.sys) causePrivilege 0
    trapIf (readOnlySr i) causePrivilege 3
    trapIf (isMatrix i && !m.core.lrec.matrix) causeMatrix 1
    m.queueTrap (activeUses m i)) := by
  rw [gate_ready h, hk, hp]
  rfl

theorem gate_userMode (hs : sysOnly i = true) (hu : m.thr.sys = false) : gate i m = .error (.trap causePrivilege 0 []) := by
  rw [gate_open h hp hk, hs, hu]
  rfl

theorem gate_readOnly (hs : sysOnly i = true → m.thr.sys = true) (hr : readOnlySr i = true) :
    gate i m = .error (.trap causePrivilege 3 []) := by
  have hn : (sysOnly i && !m.thr.sys) = false := by
    cases hi : sysOnly i with
    | false => rfl
    | true => simp [hs hi]
  rw [gate_open h hp hk, hn, hr]
  rfl

theorem gate_noMatrix (hm : isMatrix i = true) (hl : m.core.lrec.matrix = false) :
    gate i m = .error (.trap causeMatrix 1 []) := by
  obtain ⟨hs, hr⟩ := isMatrix_unprivileged hm
  rw [gate_open h hp hk, hs, hr, hm, hl]
  rfl

end

/-! ## What the machine does with the answer -/

section
variable {i : Instr} {s : State} {m0 : M} (hw : i.hasWords = true) (he : enter i s = some m0)
include hw he

/-- An instruction that the gate stops has no effect: it has not issued, or a mismatch is found first, or it stops. -/
theorem exec_gateStops {e : Stop} (hg : gate i m0.fresh = .error e) : exec i s =
    .next (if !e.issues then onStop m0 e else if m0.core.sundog ≠ 0 then m0.mismatch else bodyStop m0.fresh e) := by
  obtain ⟨body, hb⟩ := exec_runs hw
  rw [hb, runInstr, he]
  simp only [attempt, hg, bind, Except.bind]

/-- Without a mismatch the thread takes the gate's trap. -/
theorem exec_gateTraps {c : BitVec 8} {v : W64} (hs : m0.core.sundog = 0) (hg : gate i m0.fresh = .error (.trap c v [])) :
    exec i s = .next (trapped m0.fresh c v) :=
  (exec_gateStops hw he hg).trans (congrArg _ (if_neg (not_not_intro hs)))

/-- With a mismatch armed the checker decides first (R159). -/
theorem exec_gateMismatch {c : BitVec 8} {v : W64} (hs : m0.core.sundog ≠ 0) (hg : gate i m0.fresh = .error (.trap c v [])) :
    exec i s = .next m0.mismatch :=
  (exec_gateStops hw he hg).trans (congrArg _ (if_pos hs))

/-- Behind a false K gate an instruction commits without effect (R281). -/
theorem exec_gatedOff (h : MayIssue i m0.fresh) (hk : gatedOff m0.fresh i = true) (hs : m0.core.sundog = 0) :
    exec i s = .next (committed i m0.fresh m0.fresh) := by
  have hg : gate i m0.fresh = .ok () := by
    rw [gate_ready h, hk]
    rfl
  obtain ⟨body, hb⟩ := exec_runs hw
  rw [hb, runInstr, he]
  simp [attempt, hg, hk, hs, committed, bind, Except.bind, pure, Except.pure]

end

/-- Settles O53: each check is an answer of `gate`, and `exec` makes a trap, a stall or a commit of it. -/
theorem checksBeforeEffect : Obligations.ChecksBeforeEffect := by
  constructor
  · rintro i s m0 _ hw he rfl
    refine ⟨fun n ha hs => exec_gateTraps hw he hs (gate_absent ha), fun n ha hs => exec_gateMismatch hw he hs (gate_absent ha),
      fun ha hd hq => ?_, fun h hk hs => exec_gatedOff hw he h hk hs,
      fun hs h hp hk hy hu => exec_gateTraps hw he hs (gate_userMode h hp hk hy hu),
      fun hs h hp hk hy hr => exec_gateTraps hw he hs (gate_readOnly h hp hk hy hr),
      fun hs h hp hk hm hl => exec_gateTraps hw he hs (gate_noMatrix h hp hk hm hl)⟩
    have hg : gate i m0.fresh = .error .stall := by
      cases hu : (ownUses i (fieldsOf i)).any m0.fresh.pendingUse with
      | true => exact gate_pend ha hd hu
      | false => exact gate_wait ha hd hu (hq.resolve_left (by simp [hu]))
    exact exec_gateStops hw he hg
  · intro o a b d n
    refine ⟨?_, decide_eq_true_iff, decide_eq_true_iff, rfl, rfl, rfl⟩
    simp [sysOnly]

end Sys2Proof.Machine
end

section
/-!
The steps of threads and their queues (R146, R147, R150, R313, R333), and of page-fault services (R232, R251).
-/
namespace Sys2Proof.Machine
open Sys2Proof Sys2Proof.Safety

/-! ## Queue entries (R147, R150) -/

theorem exec_queueEntryArrival (p : Packet) (s : State) : exec (.queueEntryArrival p) s = execQueueEntryArrival p s := rfl

/-- An answer of mode 1 returns a credit to its sender. -/
theorem queueEntryArrival_credit {s : State} {p : Packet} {t : ThrId} {j : Fin 8} (ht : chanTarget s p p.addr.toNat = (t, j))
    (hp : p.mode = 1) : exec (.queueEntryArrival p) s =
      .next (s.onThread t fun x => x.setQ j (Queue.chan fun n l => (n + 1, l))) := by
  rw [exec_queueEntryArrival, execQueueEntryArrival, if_pos hp, ht]

theorem queueEntryArrival_delivered {s u : State} {p : Packet} (hp : p.mode ≠ 1) (hu : s.queueDeliver p = some u) :
    exec (.queueEntryArrival p) s = .next u := by
  rw [exec_queueEntryArrival, execQueueEntryArrival, if_neg hp, hu]

theorem queueEntryArrival_refused {s : State} {p : Packet} (hp : p.mode ≠ 1) (hu : s.queueDeliver p = none) :
    exec (.queueEntryArrival p) s = .next ((if p.retx then s else s.setRefused p (s.refusedOf p + 1)).send
      { p with kind := kBusy, vn := 1, mode := 0, len := 1, dst := p.src, src := p.dst }) := by
  rw [exec_queueEntryArrival, execQueueEntryArrival, if_neg hp, hu]

/-- The team is bound, its end is bound to the sender, and no earlier entry was refused: the entry joins the queue. -/
theorem queueDeliver_joins {s : State} {p : Packet} {t : ThrId} {j : Fin 8} {x : Core} (ht : chanTarget s p p.addr.toNat = (t, j))
    (hc : s.coreOf? t.launch t.team = some x) (hk : s.windowKey p.rkey = true)
    (hb : boundTo s ((x.thr.get (Fin.ofNat 8 t.thr)).q.get j) p = true) (hr : p.retx = true ∨ s.refusedOf p = 0) :
    s.queueDeliver p = some ((s.setRefused p (s.refusedOf p - 1)).onThread t fun y =>
      y.setQ j fun q => { q with fifo := q.fifo ++ [p.payload.headD 0] }) := by
  have hg : (s.windowKey p.rkey && boundTo s ((x.thr.get (Fin.ofNat 8 t.thr)).q.get j) p && (p.retx || s.refusedOf p == 0)) = true := by
    rw [hk, hb]
    simpa using hr
  rw [State.queueDeliver, ht]
  simp only [hc, hg, if_true]

/-! ## A mesh bind request (R333) -/

theorem exec_meshBindRequest (p : Packet) (s : State) : exec (.meshBindRequest p) s = execMeshBindRequest p s := rfl

section
variable {s : State} {p : Packet} {t : ThrId} {j : Fin 8} (hp : p.mode ≠ 1)
  (ht : chanTarget s p (p.addr.toNat / 0x40000) = (t, j))
include hp ht

theorem meshBindRequest_badKey (hk : s.windowKey p.rkey = false) :
    exec (.meshBindRequest p) s = .next (s.send (bindAnswer p stKey)) := by
  rw [exec_meshBindRequest, execMeshBindRequest, if_neg hp]
  dsimp only
  rw [ht]
  exact if_pos (by rw [hk]; rfl)

variable (hk : s.windowKey p.rkey = true)
include hk

theorem meshBindRequest_noLaunch (hl : s.launch? t.launch = none) :
    exec (.meshBindRequest p) s = .next (s.send (bindAnswer p stKey)) := by
  rw [exec_meshBindRequest, execMeshBindRequest, if_neg hp]
  dsimp only
  rw [ht]
  refine (if_neg (by simp [hk])).trans ?_
  rw [hl]

variable {l : Launch} (hl : s.launch? t.launch = some l)
include hl

/-- The key opens the window of a launch: its teams, those that have exited, and the receiver's thread decide. -/
theorem meshBindRequest_keyed : exec (.meshBindRequest p) s =
    if l.lrec.n ≤ p.addr.toNat / 0x40000 then .next (s.send (bindAnswer p stBounds))
    else if l.exited.contains (p.addr.toNat / 0x40000) then .next (s.send (bindAnswer p stNoEp))
    else (s.thread? t).elim (.next (s.after (us 1) (.meshBindRequest p))) fun x =>
      if boundTo s (x.q.get j) p then
        .next (((s.setRefused p 0).onThread t fun x => x.setQ j (Queue.chan fun c _ => (c, true))).send (bindAnswer p 0))
      else .next s := by
  rw [exec_meshBindRequest, execMeshBindRequest, if_neg hp]
  dsimp only
  rw [ht]
  refine (if_neg (by simp [hk])).trans ?_
  rw [hl]
  cases s.thread? t <;> rfl

theorem meshBindRequest_beyond (hn : l.lrec.n ≤ p.addr.toNat / 0x40000) :
    exec (.meshBindRequest p) s = .next (s.send (bindAnswer p stBounds)) :=
  (meshBindRequest_keyed hp ht hk hl).trans (if_pos hn)

variable (hn : p.addr.toNat / 0x40000 < l.lrec.n)
include hn

theorem meshBindRequest_exited (he : l.exited.contains (p.addr.toNat / 0x40000) = true) :
    exec (.meshBindRequest p) s = .next (s.send (bindAnswer p stNoEp)) :=
  (meshBindRequest_keyed hp ht hk hl).trans ((if_neg (by omega)).trans (if_pos he))

variable (he : l.exited.contains (p.addr.toNat / 0x40000) = false)
include he

/-- A team that is not bound yet is asked again after 1 µs. -/
theorem meshBindRequest_unbound (hx : s.thread? t = none) :
    exec (.meshBindRequest p) s = .next (s.after (us 1) (.meshBindRequest p)) := by
  refine (meshBindRequest_keyed hp ht hk hl).trans ((if_neg (by omega)).trans ((if_neg (ne_true_of_eq_false he)).trans ?_))
  rw [hx, Option.elim_none]

/-- The channel links when both ends are bound to each other, and stays as it is while they are not. -/
theorem meshBindRequest_bound {x : Thread} (hx : s.thread? t = some x) : exec (.meshBindRequest p) s =
    if boundTo s (x.q.get j) p then
      .next (((s.setRefused p 0).onThread t fun x => x.setQ j (Queue.chan fun c _ => (c, true))).send (bindAnswer p 0))
    else .next s := by
  refine (meshBindRequest_keyed hp ht hk hl).trans ((if_neg (by omega)).trans ((if_neg (ne_true_of_eq_false he)).trans ?_))
  rw [hx, Option.elim_some]

end

/-! ## Page-fault services (R232) -/

section
variable {s : State} {d va : Nat} {c : BitVec 6} {k : BitVec 8} {w f : Bool}

theorem exec_serviceRequest (who : SvcWaiter) : exec (.serviceRequest d c va k w f who) s = execServiceRequest d c va k w f who s := rfl

/-- While 4,096 services are open, a request that joins none of them is made again. -/
theorem serviceRequest_full (who : SvcWaiter)
    (h : 4096 ≤ (s.die d).services.length ∧ ((s.die d).services.any fun x => x.ctx == c && decide (x.page = va / 2 ^ 16)) = false) :
    exec (.serviceRequest d c va k w f who) s = .next (s.after 1 (.serviceRequest d c va k w f who)) :=
  if_pos (by simpa using h)

/-- Otherwise a service is joined or opened, and a ready thread waits for it. -/
theorem serviceRequest_opens {who : SvcWaiter} {u : State} {n : Nat}
    (h : ¬(4096 ≤ (s.die d).services.length ∧ ((s.die d).services.any fun x => x.ctx == c && decide (x.page = va / 2 ^ 16)) = false))
    (hu : s.openService d c va k.toNat w f (Service.add who va) = (u, n)) :
    exec (.serviceRequest d c va k w f who) s = .next (match who with
      | .thread t => u.onThread t fun x => if x.run = .ready then { x with run := .parked (.service d n va) {}, idleAt := u.now } else x
      | _ => u) := by
  rw [exec_serviceRequest, execServiceRequest]
  refine (if_neg (by simpa using h)).trans ?_
  rw [hu]
  cases who <;> rfl

end

theorem exec_fsdoneResolve (d n : Nat) (s : State) : exec (.fsdoneResolve d n) s = execFsdoneResolve d n s := rfl
theorem exec_fsdoneRefuse (d n : Nat) (s : State) : exec (.fsdoneRefuse d n) s = execFsdoneRefuse d n s := rfl

/-- Settles O46: each clause is one path through the branches of its step. -/
theorem threadQueueAndServiceEvents : Obligations.ThreadQueueAndServiceEvents := by
  constructor
  · intro s
    refine ⟨-- rows, `sleep` and `yield` (R146, R313)
      fun t => rfl, fun t => rfl, fun t => rfl,
      -- a queue entry (R147, R150): a credit, delivered, refused; what delivers it; a credit returned
      fun p t j ht hp => queueEntryArrival_credit ht hp, fun p u hp hu => queueEntryArrival_delivered hp hu,
      fun p hp hu => queueEntryArrival_refused hp hu, fun p t j x ht hc hk hb hr => queueDeliver_joins ht hc hk hb hr, fun t q => rfl,
      -- a mesh bind request (R333): KEY, BOUNDS, NOEP, a team that is not bound yet, a bound one
      fun p t j hp ht hk => meshBindRequest_badKey hp ht hk, fun p t j hp ht hk hl => meshBindRequest_noLaunch hp ht hk hl,
      fun p t j l hp ht hk hl hn => meshBindRequest_beyond hp ht hk hl hn,
      fun p t j l hp ht hk hl hn he => meshBindRequest_exited hp ht hk hl hn he,
      fun p t j l hp ht hk hl hn he hx => meshBindRequest_unbound hp ht hk hl hn he hx,
      fun p t j l x hp ht hk hl hn he hx hb => (meshBindRequest_bound hp ht hk hl hn he hx).trans (if_pos hb),
      fun p t j l x hp ht hk hl hn he hx hb => (meshBindRequest_bound hp ht hk hl hn he hx).trans (if_neg (ne_true_of_eq_false hb))⟩
  · intro s
    refine ⟨-- a request (R232): no room, and one of each kind of waiter
      fun d c va k w f who h => serviceRequest_full who h, fun d c va k w f u n gw num h hu => serviceRequest_opens h hu,
      fun d c va k w f u n x cp h hu => serviceRequest_opens h hu, fun d c va k w f u n x l h hu => serviceRequest_opens h hu,
      fun d c va k w f u n t h hu => serviceRequest_opens h hu,
      -- FSDONE (R232) of no open service, resolving one, refusing one
      fun d n h => by rw [exec_fsdoneResolve, execFsdoneResolve, h], fun d n h => by rw [exec_fsdoneRefuse, execFsdoneRefuse, h],
      ?_, ?_, fun d v => rfl⟩
    · rintro d n x _ _ _ _ hx rfl rfl rfl rfl
      rw [exec_fsdoneResolve, execFsdoneResolve]
      split
      case h_1 h => cases hx.symm.trans h
      case h_2 h => cases hx.symm.trans h; rfl
    · rintro d n x _ _ _ _ hx rfl rfl rfl rfl
      rw [exec_fsdoneRefuse, execFsdoneRefuse]
      split
      case h_1 h => cases hx.symm.trans h
      case h_2 h => cases hx.symm.trans h; rfl

end Sys2Proof.Machine
end

section
/-!
What a step runs (R15, R132, R133, R235, R272): the oldest message, a timer that is due, or the first ready slot's instruction.
-/
namespace Sys2Proof.Machine
open Sys2Proof Sys2Proof.Safety

/-! ## The order of a step -/

/-- With no message waiting and no timer due, the slots are tried in issue order. -/
theorem step_issues {s : State} (he : s.events = []) (ht : ∀ x ∈ s.timers.head?, s.now < x.1) : step s = issue s.candidates s := by
  rw [step, he]
  cases hx : s.timers with
  | nil => rfl
  | cons x rest =>
    have hn : ¬ x.1 ≤ s.now := Nat.not_le.mpr (ht x (by simp [hx]))
    exact if_neg hn

/-- A slot whose fetch leads to `i`: an instruction that cannot proceed leaves the turn to the next slot. -/
theorem issue_runs {s s1 u : State} {c t : Nat} {rest : List (Nat × Nat)} {m : M} {i : Instr} (hs : s.selected c t = some m)
    (hf : fetched m = (s1, some i)) (hx : exec i { s1 with cur := (c, t) } = .next u) :
    issue ((c, t) :: rest) s = if u.stalled then issue rest { u with stalled := false }
      else if notIssued i then .next { u with now := u.now + 1 } else .next (u.issued c t) := by
  simp only [issue, hs, hf, hx]

theorem fetched_decodes {m m1 : M} {ws : List W32} {i : Instr} (hf : m.fetchInstr = .ok (m1, ws)) (hd : decodeWords ws = .ok i) :
    fetched m = (m1.flush, some i) := by
  simp only [fetched, hf, hd]

theorem fetched_unallocated {m m1 : M} {ws : List W32} {e : EncFault} (hf : m.fetchInstr = .ok (m1, ws))
    (hd : decodeWords ws = .error e) : fetched m = (m1.flush, some (.unallocatedEncoding e)) := by
  simp only [fetched, hf, hd]

/-! ## The fetch of a base word (R235, R272) -/

theorem wordCount_base {w : W32} (h : w.extractLsb' 0 2 = 0) : wordCount w = 1 := by
  rw [wordCount, h]
  rfl

/-- The capability in the PC admits the fetch of a word at its address. -/
theorem pcCheck_ok {pc : Cap} {a : Nat} (ht : pc.tag = true) (hk : pc.kind = 0) (hp : pc.perm permEX = true) (hb : pc.base ≤ a)
    (hl : a + 4 ≤ pc.top) : pcCheck pc a = .ok () := by
  have hr : ¬ (a < pc.base ∨ pc.top < a + 4) := by omega
  simp [pcCheck, ht, hk, hp, hr, trapIf, bind, Except.bind]

/-- A base word is the whole instruction: nothing after it is fetched. -/
theorem fetchInstr_base {m m1 : M} {w : W32} (hc : pcCheck m.thr.pc m.thr.pc.cursor.toNat = .ok ())
    (ha : m.thr.pc.cursor.toNat % 4 = 0) (hf : m.fetchWord m.thr.pc.cursor.toNat = .ok (m1, w)) (hw : w.extractLsb' 0 2 = 0) :
    m.fetchInstr = .ok (m1, [w]) := by
  simp [M.fetchInstr, M.fetchWords, hc, ha, hf, wordCount_base hw, trapIf, bind, Except.bind, pure, Except.pure]

theorem fetchWord_buffer {m : M} {a : Nat} {h : BitVec 256} (hb : m.thr.fbuf = some (a % 2 ^ 56 / 32, h)) :
    m.fetchWord a = .ok (m, BitVec.ofNat 32 (sliceBytes h.toNat (a % 32) 4)) := by
  simp [M.fetchWord, hb, pure, Except.pure]

theorem fetchWord_line {m : M} {a : Nat} {l : ICLine} (hb : m.thr.fbuf = none)
    (hl : m.core.icache.find? (fun l => decide (l.va = a % 2 ^ 56 / 64)) = some l) : m.fetchWord a = .ok (m.fetchFrom a l) := by
  simp only [M.fetchWord, hb, hl, Option.bind_none, pure, Except.pure]

/-- Settles O50: `step_issues` and `issue_runs` say what a step runs, `fetchInstr_base` what it fetches. -/
theorem stepRunsDecoded : Obligations.StepRunsDecoded := by
  intro s
  refine ⟨fun e rest he => ?_, fun due e rest he ht hd => ?_, fun he ht hc => ?_, fun c t rest m m1 ws i u he ht hc hs hf hd hx => ?_,
    fun c t rest m m1 ws e u he ht hc hs hf hd hx => ?_, fun m h w ht hk hp hb hl ha hf hw hz => ?_,
    fun m l w ht hk hp hb hl ha hf hi hw hz => ?_⟩
  -- a message, a timer that is due, an idle cycle
  · rw [step, he]
  · rw [step, he, ht]
    exact if_pos hd
  · rw [step_issues he ht, hc, issue]
  -- the first ready slot: words that decode, words that do not
  · rw [step_issues he ht, hc]
    exact issue_runs hs (fetched_decodes hf hd) hx
  · rw [step_issues he ht, hc]
    exact issue_runs hs (fetched_unallocated hf hd) hx
  -- the fetch: from the fetch buffer, from a cached line
  · exact fetchInstr_base (pcCheck_ok ht hk hp hb hl) ha (hw ▸ fetchWord_buffer hf) hz
  · subst hw
    exact fetchInstr_base (pcCheck_ok ht hk hp hb hl) ha (fetchWord_line hf hi) hz

end Sys2Proof.Machine
end

section
/-!
Every row of the opcode table and every step answers a next state (R132, R233, R235, R236).
-/
namespace Sys2Proof.Machine
open Sys2Proof Sys2Proof.Safety

/-- The outcome is a next state. -/
def Answers (o : Out) : Prop := ∃ t, o = .next t

theorem next_answers (s : State) : Answers (.next s) := ⟨s, rfl⟩

/-! ## The steps of the module that branch: a next state at the end of every branch -/

section
variable (s : State)

/-- Power and bring-up, the ports and caches, motions, and links (R8, R17, R25–R33, R45, R50–R62, R70–R73, R91–R94, R169–R171). -/
theorem moduleSteps_answer :
    Answers (exec .powerGood s) ∧ (∀ ok fdie, Answers (exec (.bringupStepComplete ok fdie) s)) ∧
    (∀ die site fused failed, Answers (exec (.discoveryAnswer die site fused failed) s)) ∧
    (∀ die, Answers (exec (.discoveryTimeout die) s)) ∧ Answers (exec .standbyPowerUp s) ∧
    (∀ hold, Answers (exec (.moduleReset hold) s)) ∧ Answers (exec .resetRelease s) ∧ Answers (exec .attestationReport s) ∧
    (∀ w, Answers (exec (.powerSample w) s)) ∧ (∀ die temp, Answers (exec (.dieThermalReport die temp) s)) ∧
    (∀ stack temp, Answers (exec (.hbmThermalReport stack temp) s)) ∧
    (∀ pa size v m, Answers (exec (.registerWrite pa size v m) s)) ∧ (∀ blk found, Answers (exec (.scrubVisit blk found) s)) ∧
    (∀ pa, Answers (exec (.frameRetirement pa) s)) ∧ (∀ level quad pa, Answers (exec (.dirtyLineLoss level quad pa) s)) ∧
    (∀ die, Answers (exec (.zenithStateLost die) s)) ∧
    (∀ die station idx e m, Answers (exec (.accessTableWrite die station idx e m) s)) ∧
    (∀ die pa kind ctx, Answers (exec (.l2Access die pa kind ctx) s)) ∧ (∀ die v, Answers (exec (.l2PoolWrite die v) s)) ∧
    (∀ die v, Answers (exec (.l2NpartWrite die v) s)) ∧ (∀ die, Answers (exec (.l2BusyComplete die) s)) ∧
    (∀ die, Answers (exec (.driftHalvingVisit die) s)) ∧ (∀ die src, Answers (exec (.motionFlushAck die src) s)) ∧
    (∀ die src, Answers (exec (.granuleCopyAck die src) s)) ∧ (∀ die src, Answers (exec (.granuleCopyTimeout die src) s)) ∧
    (∀ quad ctx va pages die src, Answers (exec (.quadShootdown quad ctx va pages die src) s)) ∧
    (∀ die src, Answers (exec (.motionTimeLimit die src) s)) ∧
    (∀ base count, Answers (exec (.cxlDynamicCapacityRelease base count) s)) ∧
    (∀ link flit, Answers (exec (.flitReceive link flit) s)) ∧ (∀ link, Answers (exec (.linkRetrainTimeout link) s)) ∧
    (∀ link, Answers (exec (.linkRetrained link) s)) ∧ (∀ die gw m, Answers (exec (.dieLinkModuleFailure die gw m) s)) ∧
    (∀ die port lane, Answers (exec (.cirrusLaneFailure die port lane) s)) ∧
    (∀ die port up, Answers (exec (.cirrusPortStateChange die port up) s)) ∧
    (∀ die, Answers (exec (.topologyDiscoveryTimeout die) s)) ∧ (∀ die, Answers (exec (.lullStart die) s)) ∧
    (∀ link net cls held pret, Answers (exec (.lullMarker link net cls held pret) s)) ∧ (∀ die, Answers (exec (.lullEnd die) s)) := by
  unfold exec
  and_intros
  all_goals
    intros
    dsimp only [execPowerGood, execBringupStepComplete, execDiscoveryAnswer, execDiscoveryTimeout, execStandbyPowerUp, execModuleReset,
      execResetRelease, execAttestationReport, execPowerSample, execDieThermalReport, execHbmThermalReport, execRegisterWrite,
      execScrubVisit, execFrameRetirement, execDirtyLineLoss, execZenithStateLost, execAccessTableWrite, execL2Access,
      execL2PoolWrite, execL2NpartWrite, execL2BusyComplete, execDriftHalvingVisit, execMotionFlushAck, execGranuleCopyAck,
      execGranuleCopyTimeout, execQuadShootdown, execMotionTimeLimit, execCxlDynamicCapacityRelease, execFlitReceive,
      execLinkRetrainTimeout, execLinkRetrained, execDieLinkModuleFailure, execCirrusLaneFailure, execCirrusPortStateChange,
      execTopologyDiscoveryTimeout, execLullStart, execLullMarker, execLullEnd]
    repeat' split
    all_goals exact next_answers _

/-- Replies, timers and notices of keyed requests, and the host's accesses (R82–R90, R94–R104, R241). -/
theorem messageSteps_answer :
    (∀ p, Answers (exec (.parkedReply p) s)) ∧ (∀ p, Answers (exec (.errorReply p) s)) ∧ (∀ p, Answers (exec (.busyReply p) s)) ∧
    (∀ t tag gen, Answers (exec (.busyBackoffExpiry t tag gen) s)) ∧ (∀ p, Answers (exec (.replayNotice p) s)) ∧
    (∀ p, Answers (exec (.varriveNotice p) s)) ∧ (∀ p, Answers (exec (.rnoteNotice p) s)) ∧
    (∀ t v, Answers (exec (.fewakeNotice t v) s)) ∧ (∀ t tag gen, Answers (exec (.retransmitTimeout t tag gen) s)) ∧
    (∀ t tag gen, Answers (exec (.finalTimeout t tag gen) s)) ∧ (∀ t tag gen, Answers (exec (.probeTimer t tag gen) s)) ∧
    (∀ t tag gen, Answers (exec (.ticketLimitTimeout t tag gen) s)) ∧
    (∀ die gw src thr key, Answers (exec (.flowIdleTimeout die gw src thr key) s)) ∧ (∀ core, Answers (exec (.callStart core) s)) ∧
    (∀ port off size, Answers (exec (.bar2PlainRead port off size) s)) ∧
    (∀ port off size v, Answers (exec (.bar2PlainWrite port off size v) s)) ∧
    (∀ port off size, Answers (exec (.bar2ArmRead port off size) s)) ∧
    (∀ port off size v, Answers (exec (.bar2ArmWrite port off size v) s)) ∧
    (∀ port off size, Answers (exec (.bar2ClearRead port off size) s)) ∧
    (∀ port off size v, Answers (exec (.bar2ClearWrite port off size v) s)) ∧
    (∀ port off size v, Answers (exec (.dieWindowAccess port off size v) s)) ∧
    (∀ port off size v, Answers (exec (.bar0UnmappedAccess port off size v) s)) ∧ (∀ die, Answers (exec (.herrRead die) s)) ∧
    (∀ port, Answers (exec (.mbstatRead port) s)) := by
  unfold exec
  and_intros
  all_goals
    intros
    dsimp only [execParkedReply, execErrorReply, execBusyReply, execBusyBackoffExpiry, execReplayNotice, execVarriveNotice, execRnoteNotice,
      execFewakeNotice, execRetransmitTimeout, execFinalTimeout, execProbeTimer, execTicketLimitTimeout, execFlowIdleTimeout,
      execCallStart, execBar2PlainRead, execBar2PlainWrite, execBar2ArmRead, execBar2ArmWrite, execBar2ClearRead,
      execBar2ClearWrite, execDieWindowAccess, execBar0UnmappedAccess, execHerrRead, execMbstatRead, State.hostLater]
    repeat' split
    all_goals exact next_answers _

/-- Launches and teams, versions and tenures, queues, services, the log and the matrix units (R117–R129, R150, R155, R182, R190–R202, R232). -/
theorem workSteps_answer :
    (∀ launch, Answers (exec (.gateSatisfied launch) s)) ∧ (∀ launch core, Answers (exec (.bindRequest launch core) s)) ∧
    (∀ core, Answers (exec (.teamSave core) s)) ∧ (∀ launch team core, Answers (exec (.teamRestore launch team core) s)) ∧
    (∀ core, Answers (exec (.teamExit core) s)) ∧
    (∀ launch team result, Answers (exec (.teamCompletionRelease launch team result) s)) ∧
    (∀ launch reason code team, Answers (exec (.launchTermination launch reason code team) s)) ∧
    (∀ core code pc, Answers (exec (.coreSeal core code pc) s)) ∧
    (∀ name ver t, Answers (exec (.versionPublishRequest name ver t) s)) ∧
    (∀ name ver t, Answers (exec (.versionPublishComplete name ver t) s)) ∧
    (∀ name ver t, Answers (exec (.versionWaitRegister name ver t) s)) ∧ (∀ t, Answers (exec (.versionWaitBoundExpiry t) s)) ∧
    (∀ t region rect write, Answers (exec (.tenureRequest t region rect write) s)) ∧
    (∀ t region rect, Answers (exec (.tenureRelease t region rect) s)) ∧
    (∀ t region rect write, Answers (exec (.oneShotAccess t region rect write) s)) ∧
    (∀ p, Answers (exec (.queueEntryArrival p) s)) ∧ (∀ p, Answers (exec (.meshBindRequest p) s)) ∧
    (∀ die ctx va code write fetch who, Answers (exec (.serviceRequest die ctx va code write fetch who) s)) ∧
    (∀ die svc, Answers (exec (.fsdoneResolve die svc) s)) ∧ (∀ die svc, Answers (exec (.fsdoneRefuse die svc) s)) ∧
    (∀ launch team since, Answers (exec (.logRangeTimeout launch team since) s)) ∧
    (∀ quad, Answers (exec (.matrixCommandStart quad) s)) ∧ (∀ quad, Answers (exec (.matrixKstepComplete quad) s)) ∧
    (∀ c, Answers (exec (.remoteMatrixCommand c) s)) := by
  unfold exec
  and_intros
  all_goals
    intros
    dsimp only [execGateSatisfied, execBindRequest, execTeamSave, execTeamRestore, execTeamExit, execTeamCompletionRelease,
      execLaunchTermination, execCoreSeal, execVersionPublishRequest, execVersionPublishComplete, execVersionWaitRegister,
      execVersionWaitBoundExpiry, execTenureRequest, execTenureRelease, execOneShotAccess, execQueueEntryArrival,
      execMeshBindRequest, execServiceRequest, execFsdoneResolve, execFsdoneRefuse, execLogRangeTimeout, execMatrixCommandStart,
      execMatrixKstepComplete, execRemoteMatrixCommand]
    repeat' split
    all_goals exact next_answers _

end

/-- Every row answers: a step of the module by its branches, an instruction as `runInstr` does. -/
theorem exec_answers (i : Instr) (s : State) : Answers (exec i s) := by
  cases i
  -- steps of the module without a branch
  case bringupTimeout | harvySetPlim | harvySetModid | harvyStageFirmware | harvyAttest | powerIntervalEnd | mstatThermClear |
    memoryPortAccess | cachePortAccess | motionStart | motionAccess | motionShootdownAck | rldRequest | rstRequest | ramoRequest |
    rcasRequest | rcallRequest | rgetRequest | rputRequest | probeRequest | launchWindowRequest | dataReply | doneReply |
    ticketReply | replyCacheExpiry | regionTableUpdate | topologyProbe | topologyAnswer | msixUnmask | hostPortDown | mailboxOpen |
    mailboxChunk | mailboxCommit | mailboxAbort | mailboxAttest | mailboxInvalidOp | mailboxCommandComplete | launchSlotTake |
    dispatchCoreFree | preemption | rowRetentionEntry | sleepExpiry | yieldExpiry | engineCommandStart | engineCommandComplete |
    fqheadWrite | lossOfMainRails | queueCreditReturn =>
    exact next_answers _
  -- steps of the module that branch
  case powerGood | bringupStepComplete | discoveryAnswer | discoveryTimeout | standbyPowerUp | moduleReset | resetRelease |
    attestationReport | powerSample | dieThermalReport | hbmThermalReport | registerWrite | scrubVisit | frameRetirement |
    dirtyLineLoss | zenithStateLost | accessTableWrite | l2Access | l2PoolWrite | l2NpartWrite | l2BusyComplete | driftHalvingVisit
    | motionFlushAck | granuleCopyAck | granuleCopyTimeout | quadShootdown | motionTimeLimit | cxlDynamicCapacityRelease |
    flitReceive | linkRetrainTimeout | linkRetrained | dieLinkModuleFailure | cirrusLaneFailure | cirrusPortStateChange |
    topologyDiscoveryTimeout | lullStart | lullMarker | lullEnd =>
    simp only [moduleSteps_answer]
  case parkedReply | errorReply | busyReply | busyBackoffExpiry | replayNotice | varriveNotice | rnoteNotice | fewakeNotice |
    retransmitTimeout | finalTimeout | probeTimer | ticketLimitTimeout | flowIdleTimeout | callStart | bar2PlainRead |
    bar2PlainWrite | bar2ArmRead | bar2ArmWrite | bar2ClearRead | bar2ClearWrite | dieWindowAccess | bar0UnmappedAccess | herrRead |
    mbstatRead =>
    simp only [messageSteps_answer]
  case gateSatisfied | bindRequest | teamSave | teamRestore | teamExit | teamCompletionRelease | launchTermination | coreSeal |
    versionPublishRequest | versionPublishComplete | versionWaitRegister | versionWaitBoundExpiry | tenureRequest | tenureRelease |
    oneShotAccess | queueEntryArrival | meshBindRequest | serviceRequest | fsdoneResolve | fsdoneRefuse | logRangeTimeout |
    matrixCommandStart | matrixKstepComplete | remoteMatrixCommand =>
    simp only [workSteps_answer]
  -- a fetch that leads to no instruction
  case unallocatedEncoding e => cases e <;> exact fetchTrap_next ..
  case instructionFetchFault e => exact fetchTrap_next ..
  -- instructions
  all_goals exact runInstr_next ..

/-! ## A step -/

/-- Whatever the slots left to try, one of them issues or the cycle is idle. -/
theorem issue_answers (slots : List (Nat × Nat)) (s : State) : Answers (issue slots s) := by
  induction slots generalizing s with
  | nil => exact next_answers _
  | cons x rest ih =>
    obtain ⟨c, t⟩ := x
    cases hm : s.selected c t with
    | none =>
      rw [issue, hm]
      exact ih s
    | some m =>
      rcases hf : fetched m with ⟨s1, _ | i⟩
      · rw [issue, hm]
        simp only [hf]
        exact ih s1
      · obtain ⟨u, hu⟩ := exec_answers i { s1 with cur := (c, t) }
        rw [issue_runs hm hf hu]
        split
        · exact ih _
        · split <;> exact next_answers _

theorem step_answers (s : State) : Answers (step s) := by
  unfold step
  split
  · exact exec_answers ..
  · split
    · split
      · exact exec_answers ..
      · exact issue_answers ..
    · exact issue_answers ..

/-- Settles O49: by `exec_answers` and `step_answers`. -/
theorem everyStepAnswers : Obligations.EveryStepAnswers := fun s => ⟨fun i => exec_answers i s, step_answers s⟩

end Sys2Proof.Machine
end

section
/-!
Full/empty accesses, atomics and compare-and-swap on local memory (R163, R175, R324, R327–R329).
-/
namespace Sys2Proof.Machine
open Sys2Proof Sys2Proof.Safety

/-! ## A full/empty access at the SRAM (R163, R324) -/

section
variable {m : M} {off : Nat} (hb : off + 8 ≤ 0x3C000) (hw : m.core.mem.wf = true)
include hb hw

/-- Storing the data, before E changes, touches local memory and its dirty blocks, and no E bit. -/
theorem feStored_eq (k : AccKind) (data : W64) :
    ∃ dy me, m.feStored off k data = { m with core := { m.core with dirty := dy, mem := me } } ∧ me.wf = true ∧
      ∀ x, me.full x = m.core.mem.full x := by
  unfold M.feStored
  split
  · split
    · exact ⟨_, _, rfl, hw, fun _ => rfl⟩
    · exact ⟨_, _, localWrite_low hb, localWrite_wf hb hw, fun _ => localWrite_full hb⟩
  · exact ⟨_, _, rfl, hw, fun _ => rfl⟩

/-- An access that proceeds while nothing waits: its answer, the bytes as `feStored` leaves them, and one word's E bit as its mode says. -/
theorem feLocal_effect {k : AccKind} (data : W64) (hq : m.core.localWaits = []) (hr : feReady k (m.core.mem.full off) = true) :
    let r := m.feLocal off k data
    r.2 = (accValue k (m.core.mem.read off 8) (m.core.mem.full off), true) ∧ r.1.st = m.st ∧ r.1.thr = m.thr ∧
    (∀ x, r.1.core.mem.byte x = (m.feStored off k data).core.mem.byte x) ∧
    (∀ x, r.1.core.mem.full x = if x / 8 = off / 8 then feAfter k (m.core.mem.full off) else m.core.mem.full x) := by
  intro r
  have hlt : off < 0x3C000 := by omega
  obtain ⟨dy, me, he, hme, hfull⟩ := feStored_eq hb hw k data
  have hset := set_quiet (m := { m with core := { m.core with dirty := dy, mem := me } }) (b := feAfter k (m.core.mem.full off)) hlt hq hme
  simp only [hfull] at hset
  have hx : r = _ := feLocal_ready hlt hr
  rw [hx, he, localRead_low hb]
  exact ⟨rfl, hset⟩

end

/-- The bytes after the access that stores: the word's, unless mode 2 only clears E, and all others as they were. -/
theorem feStored_store {m : M} {off : Nat} {md : BitVec 2} {data : W64} (hb : off + 8 ≤ 0x3C000) (hw : m.core.mem.wf = true) :
    (md ≠ 2 → (m.feStored off (.stfe md) data).core.mem.read off 8 = data.toNat) ∧
    ∀ x, md = 2 ∨ x < off ∨ off + 8 ≤ x → (m.feStored off (.stfe md) data).core.mem.byte x = m.core.mem.byte x := by
  have stores (h2 : md ≠ 2) : m.feStored off (.stfe md) data = m.localWrite off 8 data.toNat := if_neg h2
  constructor
  · intro h2
    rw [stores h2, ← localRead_low hb, localRead_write hb hw]
    exact Nat.mod_eq_of_lt data.isLt
  · intro x hx
    by_cases h2 : md = 2
    · rw [show m.feStored off (.stfe md) data = m from if_pos h2]
    · rw [stores h2, localWrite_byte hb hw, if_neg (by have := hx.resolve_left h2; omega)]

/-- Settles O16: an access that proceeds stores (`feStored`), then sets one word's E bit (`feAfter`). -/
theorem fullEmptyEffect : Obligations.FullEmptyEffect := by
  intro m
  refine ⟨fun off k data hb hr => feLocal_notReady (by omega) hr, fun off md data hb _ hw hq hr => ?_, fun off md hb _ hw hq hr => ?_⟩
  · obtain ⟨hv, hst, hthr, hbyte, hfull⟩ := feLocal_effect hb hw data hq hr
    obtain ⟨hread, hframe⟩ := feStored_store (md := md) (data := data) hb hw
    exact ⟨congrArg Prod.snd hv, hst, hthr, fun h2 => (read_byte hbyte).trans (hread h2), fun x hx => (hbyte x).trans (hframe x hx),
      fun x => by rw [hfull, after_st]⟩
  · obtain ⟨hv, hst, hthr, hbyte, hfull⟩ := feLocal_effect hb hw 0 hq hr
    exact ⟨by rw [hv, value_ld], hst, hthr, hbyte, fun x => by rw [hfull, after_ld]⟩

/-! ## Atomics (R175, R327, R328) -/

section
variable {m : M} {r : MRef} {ps : List Perm} {n : Nat} {sc : Scope} {tagged : Bool} {f : AtomFn} (hl : LocalOk m r ps n)
include hl

/-- An atomic access of local memory stores the value its operation answers, and stores nothing where it answers none. -/
theorem atomAt_local_stores {v : Nat} {t : Bool} (hf : f (m.localRead r.va n) (m.localTag r.va) = some (v, t)) :
    m.atomAt r.c r.va n sc tagged f =
      .ok (storedLocal m r.va n v (if n = 16 then some t else none), m.localRead r.va n, m.localTag r.va, true) := by
  rw [atomAt_local hl, hf]

theorem atomAt_local_keeps (hf : f (m.localRead r.va n) (m.localTag r.va) = none) :
    m.atomAt r.c r.va n sc tagged f = .ok (m, m.localRead r.va n, m.localTag r.va, false) := by
  rw [atomAt_local hl, hf]

theorem localOk_not_window : r.c.kind ≠ 6 := by
  obtain ⟨-, hk, -⟩ := hl
  omega

end

/-- A base-word atomic whose operand passes its checks: the atomic access with its operation, then the old word to D. -/
theorem opAmo_performs {m m1 : M} {op : BitVec 3} {d a b : F6} {sc : BitVec 3} {r : MRef} {old : Nat} {t done : Bool}
    (hr : r = m.refAt a 0) (hs : m.restartCheck r.c = .ok ()) (hc : checkRef r [.atom] 8 = .ok ()) (hk : r.c.kind ≠ 6)
    (ha : m.acqPending = false)
    (hx : m.atomAt r.c r.va 8 sc false (fun old _ => some (amoOp op 8 old (m.int b).toNat, false)) = .ok (m1, old, t, done)) :
    opAmo op none d a b sc m = .ok (m1.wrInt d (BitVec.ofNat 64 old)) := by
  have hn : szBytes (amoSz none) = 8 := rfl
  have hoff : immOff none = 0 := rfl
  have hord : formOrd none = (0, 0) := rfl
  simp only [opAmo, hn, hoff, hord, ← hr, hs, hc, ha, if_neg hk, toNat_mod, stallIf_false, ordered_plain, Option.isSome_none,
    Bool.false_eq_true, if_false, hx, bind, Except.bind, pure, Except.pure]

section
variable {op : BitVec 3} {i : F6 → F6 → F6 → BitVec 3 → Instr}
  (he : ∀ d a b sc s, exec (i d a b sc) s = runInstr (i d a b sc) (opAmo op none d a b sc) s) {s : State} {m : M}
include he

theorem amo_local (d a b : F6) (sc : BitVec 3) (r : MRef) (hr : r = m.refAt a 0) (hl : LocalOk m r [.atom] 8) (ha : m.acqPending = false)
    (h : Issues (i d a b sc) s m) :
    Completes (i d a b sc) s m ((storedLocal m r.va 8 (amoOp op 8 (m.localRead r.va 8) (m.int b).toNat) none).wrInt d
      (BitVec.ofNat 64 (m.localRead r.va 8))) :=
  (he ..).trans (runInstr_completes h (opAmo_performs hr (restartCheck_local hl) (checkRef_local hl) (localOk_not_window hl) ha
    (atomAt_local_stores hl rfl)))

theorem amo_shared (d a b : F6) (sc : BitVec 3) (r : MRef) (m1 : M) (old : Nat) (t done : Bool) (hr : r = m.refAt a 0)
    (hs : m.restartCheck r.c = .ok ()) (hc : checkRef r [.atom] 8 = .ok ()) (hk : r.c.kind = 0) (ha : m.acqPending = false)
    (hx : m.atomAt r.c r.va 8 sc false (fun old _ => some (amoOp op 8 old (m.int b).toNat, false)) = .ok (m1, old, t, done))
    (h : Issues (i d a b sc) s m) : Completes (i d a b sc) s m (m1.wrInt d (BitVec.ofNat 64 old)) :=
  (he ..).trans (runInstr_completes h (opAmo_performs hr hs hc (by omega) ha hx))

end

/-! ## Compare-and-swap (R329) -/

section
variable {m m1 : M} {o : XOp} {r : MRef} {old : Nat} {t ok : Bool} (hr : r = m.refAt o.a (immOff (some o.x))) (ho : o.x.ord = 0)
  (hs : m.restartCheck r.c = .ok ()) (ha : m.acqPending = false)
include hr ho hs ha

/-- `cas` without ordering: the atomic access with its comparison, then D and E. -/
theorem opCas_performs {n : Nat} (hn : n = szBytes (o.x.t2.setWidth 3)) (hc : checkRef r [.atom] n = .ok ()) (hk : r.c.kind ≠ 6)
    (hx : m.atomAt r.c r.va n o.x.sc false (fun old _ => if old = (m.int o.x.b).toNat % 2 ^ (8 * n)
      then some ((m.int o.x.c).toNat % 2 ^ (8 * n), false) else none) = .ok (m1, old, t, ok)) :
    opCas o m = .ok ((m1.wrInt o.d (BitVec.ofNat 64 old)).wrInt o.x.e (boolW ok)) := by
  simp only [opCas, ← hn, ← hr, ho, hs, hc, ha, stallIf_false, if_neg hk, ordered_plain, hx, bind, Except.bind, pure, Except.pure]

/-- `casq` without ordering: the same with the granule and its tag. -/
theorem opCasq_performs (hc : checkRef r [.atom, .tgr, .tgw] 16 = .ok ())
    (hx : m.atomAt r.c r.va 16 o.x.sc (m.src o.x.c).tag (fun old tag => if old = (m.src o.x.b).bits.toNat ∧ tag = (m.src o.x.b).tag
      then some ((m.src o.x.c).bits.toNat, (m.src o.x.c).tag) else none) = .ok (m1, old, t, ok)) :
    opCasq o m = .ok ((m1.wr o.d ⟨BitVec.ofNat 128 old, t⟩).wrInt o.x.e (boolW ok)) := by
  simp only [opCasq, ← hr, ho, hs, hc, ha, stallIf_false, ordered_plain, hx, bind, Except.bind, pure, Except.pure]

end

/-- Settles O17: an atomic by `opAmo_performs`; a compare-and-swap by whether its comparison holds. -/
theorem atomicOperations : Obligations.AtomicOperations := by
  refine ⟨fun s m => ⟨amo_local exec_amoAdd, amo_shared exec_amoAdd, amo_local exec_amoAnd, amo_shared exec_amoAnd,
    amo_local exec_amoOr, amo_shared exec_amoOr, amo_local exec_amoXor, amo_shared exec_amoXor,
    amo_local exec_amoMin, amo_shared exec_amoMin, amo_local exec_amoMax, amo_shared exec_amoMax,
    amo_local exec_amoMinu, amo_shared exec_amoMinu, amo_local exec_amoSwap, amo_shared exec_amoSwap⟩, fun s m => ⟨?_, ?_, ?_, ?_⟩⟩
  -- `cas`: the word is the expected one, or not
  · intro o r n hn hr ho hl ha heq h
    have hx := opCas_performs hr ho (restartCheck_local hl) ha hn (checkRef_local hl)
      (localOk_not_window hl) (atomAt_local_stores hl (if_pos heq))
    exact (exec_cas ..).trans (runInstr_completes h hx)
  · intro o r n hn hr ho hl ha hne h
    have hx := opCas_performs hr ho (restartCheck_local hl) ha hn (checkRef_local hl)
      (localOk_not_window hl) (atomAt_local_keeps hl (if_neg hne))
    exact (exec_cas ..).trans (runInstr_completes h hx)
  -- `casq`: the granule and its tag are the expected ones, or not
  · intro o r hr ho hl ha heq h
    have hx := opCasq_performs hr ho (restartCheck_local hl) ha (checkRef_local hl)
      (atomAt_local_stores hl (if_pos heq))
    exact (exec_casq ..).trans (runInstr_completes h hx)
  · intro o r hr ho hl ha hne h
    have hx := opCasq_performs hr ho (restartCheck_local hl) ha (checkRef_local hl)
      (atomAt_local_keeps hl (if_neg hne))
    exact (exec_casq ..).trans (runInstr_completes h hx)

end Sys2Proof.Machine
end

section
/-!
The engines: commands checked and queued at issue (R177, R336), and the steps of the engines, the log and the matrix units (R155,
R177–R182, R264, R378).
-/
namespace Sys2Proof.Machine
open Sys2Proof Sys2Proof.Safety

/-! ## Engine commands at issue (R336) -/

/-- An engine command whose effect comes to queueing `x`, with room in its engine's queue: it joins the queue, and its token is pending. -/
theorem engineCommand_completes {s : State} {m : M} {i : Instr} {body : Act} {o : XOp} {x : EngCmd} {e : Engine} {k : Core}
    (hx : ∀ s, exec i s = runInstr i body s) (hb : body m = m.enqueue o x) (he : engOf x.op = e) (ha : m.acqPending = false)
    (hl : (m.core.engQueue e).length < 2) (hk : k = m.core.setEng e (m.core.engQueue e ++ [x]) (m.core.engRun e)) (h : Issues i s m) :
    Completes i s m { ({ m with core := k } : M).setPending o.d false with st := m.st.post (.engineCommandStart k.id e) } := by
  subst he hk
  exact (hx s).trans (runInstr_completes h (hb.trans (enqueue_ok ha hl)))

/-- The alignment that only the full/empty form checks. -/
theorem feForm_passes {α : Type} {b : Bool} {e : Except Stop Unit} (h : b = true → e = .ok ()) (k : Except Stop α) :
    (if b = true then e >>= fun _ => k else k) = k := by
  split
  · next hb =>
    rw [h hb]
    rfl
  · rfl

section
variable {m : M} {o : XOp} (hr : m.engRestart (m.src o.a) = .ok ())
include hr

section
variable (hd : engCap o.a (m.src o.a) (dstPerms (o.x.x.getLsbD 1)) = .ok ())
include hd

theorem opCp_enqueues (hn : checkBounds (m.src o.a) (m.src o.a).cursor.toNat (m.int o.x.c).toNat = .ok ())
    (hs : engCap o.x.b (m.src o.x.b) [.ld] = .ok ())
    (hm : checkBounds (m.src o.x.b) (m.src o.x.b).cursor.toNat (m.int o.x.c).toNat = .ok ())
    (hf : o.x.x.getLsbD 1 = true → engAligned 8 (some (m.src o.a)) (some (m.src o.x.b)) (m.int o.x.c).toNat = .ok ()) :
    opCp o m = m.enqueue o (m.engCmd o 0 (m.src o.a) (m.src o.x.b) (m.src o.x.c)) := by
  simp only [opCp, hr, hd, hn, hs, hm, ↓feForm_passes hf, bind, Except.bind]

theorem opCpf_enqueues (hn : checkBounds (m.src o.a) (m.src o.a).cursor.toNat (m.int o.x.c).toNat = .ok ())
    (hf : o.x.x.getLsbD 1 = true → engAligned 8 (some (m.src o.a)) none (m.int o.x.c).toNat = .ok ()) :
    opCpf o m = m.enqueue o (m.engCmd o 2 (m.src o.a) (m.src o.x.b) (m.src o.x.c)) := by
  simp only [opCpf, hr, hd, hn, ↓feForm_passes hf, bind, Except.bind]

theorem opCp2d_enqueues {d : Desc2} (hc : d = desc2 (m.src o.x.c)) (hn : rowsBounds (m.src o.a) d.ds d.w d.n = .ok ())
    (hs : engCap o.x.b (m.src o.x.b) [.ld] = .ok ()) (hm : rowsBounds (m.src o.x.b) d.ss d.w d.n = .ok ())
    (ht : (m.src o.x.c).tag = false) (hf : o.x.x.getLsbD 1 = true → rowsAligned (m.src o.a) (m.src o.x.b) d = .ok ()) :
    opCp2d o m = m.enqueue o (m.engCmd o 1 (m.src o.a) (m.src o.x.b) (m.src o.x.c)) := by
  subst hc
  simp only [opCp2d, hr, hd, hn, hs, hm, ht, trapIf_false, ↓feForm_passes hf, bind, Except.bind]

end

section
variable (hd : engCap o.a (m.src o.a) [.st] = .ok ()) (hs : engCap o.x.b (m.src o.x.b) [.ld] = .ok ())
include hd hs

theorem opCpq_enqueues (hn : checkBounds (m.src o.a) (m.src o.a).cursor.toNat (m.int o.x.c).toNat = .ok ())
    (hm : checkBounds (m.src o.x.b) (m.src o.x.b).cursor.toNat (m.int o.x.c).toNat = .ok ())
    (hf : engAligned 16 (some (m.src o.a)) (some (m.src o.x.b)) (m.int o.x.c).toNat = .ok ()) :
    opCpq o m = m.enqueue o (m.engCmd o 5 (m.src o.a) (m.src o.x.b) (m.src o.x.c)) := by
  simp only [opCpq, hr, hd, hn, hs, hm, hf, bind, Except.bind]

variable (hi : engCap o.x.c (m.src o.x.c) [.ld] = .ok ())
  (hj : checkBounds (m.src o.x.c) (m.src o.x.c).cursor.toNat (8 * o.x.imm.toNat) = .ok ())
include hi hj

theorem opCpg_enqueues
    (hn : checkBounds (m.src o.a) (m.src o.a).cursor.toNat (o.x.imm.toNat * szBytes (o.x.t2.setWidth 3)) = .ok ()) :
    opCpg o m = m.enqueue o (m.engCmd o 3 (m.src o.a) (m.src o.x.b) (m.src o.x.c)) := by
  simp only [opCpg, hr, hd, hn, hs, hi, hj, bind, Except.bind]

theorem opCps_enqueues
    (hn : checkBounds (m.src o.x.b) (m.src o.x.b).cursor.toNat (o.x.imm.toNat * szBytes (o.x.t2.setWidth 3)) = .ok ()) :
    opCps o m = m.enqueue o (m.engCmd o 4 (m.src o.a) (m.src o.x.b) (m.src o.x.c)) := by
  simp only [opCps, hr, hd, hn, hs, hi, hj, bind, Except.bind]

end

end

/-- Settles O28: a command whose checks pass is the queueing of itself (`op…_enqueues`), which `engineCommand_completes` completes. -/
theorem engineCommands : Obligations.EngineCommands := by
  intro s m
  refine ⟨?_, ?_, ?_, ?_, ?_, ?_⟩
  · intro o k hr hd hn hs hm hf
    exact engineCommand_completes (exec_cp o) (opCp_enqueues hr hd hn hs hm hf) rfl
  · intro o k hr hd hn hf
    exact engineCommand_completes (exec_cpf o) (opCpf_enqueues hr hd hn hf) rfl
  · intro o k hr hd hn hs hm ht hf
    exact engineCommand_completes (exec_cp2d o) (opCp2d_enqueues hr hd rfl hn hs hm ht hf) rfl
  · intro o k hr hd hn hs hi hj
    exact engineCommand_completes (exec_cpg o) (opCpg_enqueues hr hd hs hi hj hn) rfl
  · intro o k hr hd hn hs hi hj
    exact engineCommand_completes (exec_cps o) (opCps_enqueues hr hd hs hi hj hn) rfl
  · intro o k hr hd hn hs hm hf
    exact engineCommand_completes (exec_cpq o) (opCpq_enqueues hr hd hs hn hm hf) rfl

/-! ## The engines' own steps (R177, R179, R180) -/

section
variable {s : State} {k : Nat} {e : Engine} {c : Core} (hc : s.core? k = some c)
include hc

/-- An idle engine takes the first command of its queue. -/
theorem engineStart_idle {x : EngCmd} {xs : List EngCmd} (hr : c.engRun e = none) (hq : c.engQueue e = x :: xs) :
    engineStart k e s = (s.setCore (c.setEng e xs (some x))).post (.engineCommandComplete k e) := by
  simp only [engineStart, hc, hr, hq]

theorem engineStart_running {x : EngCmd} (hr : c.engRun e = some x) : engineStart k e s = s := by
  simp only [engineStart, hc, hr]

variable {x : EngCmd} (hr : c.engRun e = some x)
include hr

/-- A command that waits for a reply is left to it. -/
theorem engineGo_waits (hw : x.waits = true) : engineGo k e s = s := by
  simp only [engineGo, hc, hr, hw, if_true]

variable (hw : x.waits = false)
include hw

theorem engineGo_begun (hb : x.begun = true) : engineGo k e s = engLoop e x.fuel c x s := by
  simp only [engineGo, hc, hr, hw, hb, Bool.false_eq_true, if_false, if_true]

/-- A command without the acquire flag begins at once. -/
theorem engineGo_begins {d : Core} (hb : x.begun = false) (ha : x.acq = none) (hd : (s.engM c x).flush.core? k = some d) :
    engineGo k e s =
      engLoop e x.fuel (d.setEng e (d.engQueue e) (some { x with begun := true })) { x with begun := true } (s.engM c x).flush := by
  simp only [engineGo, hc, hr, hw, hb, ha, hd, Bool.false_eq_true, if_false]
  rfl

end

/-! ## The log's ranges (R182) -/

theorem exec_logRangeTimeout (l : BitVec 16) (t n : Nat) (s : State) : exec (.logRangeTimeout l t n) s = execLogRangeTimeout l t n s := rfl

section
variable {s : State} {l : BitVec 16} {t n : Nat}

theorem logRangeTimeout_unbound (hc : s.coreOf? l t = none) : exec (.logRangeTimeout l t n) s = .next s := by
  rw [exec_logRangeTimeout, execLogRangeTimeout, hc]

variable {c : Core} (hc : s.coreOf? l t = some c)
include hc

/-- The range of the timer has been emitted already. -/
theorem logRangeTimeout_closed (hr : (c.ranges.any fun r => decide (r.since = n)) = false) :
    exec (.logRangeTimeout l t n) s = .next s := by
  rw [exec_logRangeTimeout, execLogRangeTimeout, hc]
  exact if_pos (by simp [hr])

theorem logRangeTimeout_emits {m : M} (hr : (c.ranges.any fun r => decide (r.since = n)) = true)
    (hm : (s.asM c 0).emitRanges (fun r => decide (r.since + us 10 ≤ s.now)) = .ok m) :
    exec (.logRangeTimeout l t n) s = .next m.flush := by
  rw [exec_logRangeTimeout, execLogRangeTimeout, hc]
  refine (if_neg (by simp [hr])).trans ?_
  rw [hm]

end

/-! ## The matrix units (R155, R264, R378) -/

theorem exec_matrixCommandStart (q : Nat) (s : State) : exec (.matrixCommandStart q) s = execMatrixCommandStart q s := rfl
theorem exec_matrixKstepComplete (q : Nat) (s : State) : exec (.matrixKstepComplete q) s = execMatrixKstepComplete q s := rfl
theorem exec_remoteMatrixCommand (x : MatrixCmd) (s : State) : exec (.remoteMatrixCommand x) s = execRemoteMatrixCommand x s := rfl

/-- The next command of a unit: the first head of its five queues, from the one after that it served last, with its queue's number. -/
def Quad.nextHead (q : Quad) : Option (Nat × (MatEntry ⊕ MatrixCmd)) :=
  ((List.range 5).map fun k => (q.arb + 1 + k) % 5).findSome? fun k => (q.headOf k).map fun x => (k, x)

section
variable {s : State} {q : Nat}

section
variable (ha : (s.quad q).act = none)
include ha

/-- A thread's command is first: its instruction executes again, on the unit. -/
theorem matrixCommandStart_thread {k : Nat} {e : MatEntry} (hn : (s.quad q).nextHead = some (k, .inl e)) :
    exec (.matrixCommandStart q) s =
      .next ((s.setQuad { s.quad q with act := some (.thread e false), queue := (s.quad q).queue.erase e, arb := k }).resume e.thr) := by
  unfold Quad.nextHead at hn
  simp only [exec_matrixCommandStart, execMatrixCommandStart, ha, hn]

/-- A remote command is first: its first K-step ends after 16 arithmetic cycles. -/
theorem matrixCommandStart_remote {k : Nat} {x : MatrixCmd} (hn : (s.quad q).nextHead = some (k, .inr x)) :
    exec (.matrixCommandStart q) s =
      .next ((s.setQuad { s.quad q with act := some (.cmd x), steps := 0, remq := (s.quad q).remq.tail, arb := k }).after (s.arith 16)
        (.matrixKstepComplete q)) := by
  unfold Quad.nextHead at hn
  simp only [exec_matrixCommandStart, execMatrixCommandStart, ha, hn]

theorem matrixCommandStart_empty (hn : (s.quad q).nextHead = none) : exec (.matrixCommandStart q) s = .next s := by
  unfold Quad.nextHead at hn
  simp only [exec_matrixCommandStart, execMatrixCommandStart, ha, hn]

end

theorem matrixCommandStart_busy {x : UnitAct} (ha : (s.quad q).act = some x) : exec (.matrixCommandStart q) s = .next s := by
  simp only [exec_matrixCommandStart, execMatrixCommandStart, ha]

theorem matrixKstepComplete_idle (ha : (s.quad q).act = none) : exec (.matrixKstepComplete q) s = .next s := by
  simp only [exec_matrixKstepComplete, execMatrixKstepComplete, ha]

/-- A thread's command that still runs, or whose time has passed. -/
theorem matrixKstepComplete_thread {e : MatEntry} {b : Bool} (ha : (s.quad q).act = some (.thread e b)) :
    exec (.matrixKstepComplete q) s = .next (if b then (s.setQuad { s.quad q with act := none }).unitNext q else s) := by
  cases b
  · simp only [exec_matrixKstepComplete, execMatrixKstepComplete, ha]
    rfl
  · simp only [exec_matrixKstepComplete, execMatrixKstepComplete, ha]
    rfl

/-- What a unit does after a step of its remote command (R264, R378): the next one, the command's end or fault, a retry, or nothing while
it waits. -/
def State.afterStep (s : State) (q : Nat) (x : MatrixCmd) : KRes → State
  | .more t => (t.setQuad { t.quad q with steps := (s.quad q).steps + 1 }).after (t.arith 16) (.matrixKstepComplete q)
  | .done t => t.unitEnd q x none
  | .fault t st => t.unitEnd q x (some st)
  | .retry t => t.after 1 (.matrixKstepComplete q)
  | .waits t => t

theorem matrixKstepComplete_remote {x : MatrixCmd} {r : KRes} (ha : (s.quad q).act = some (.cmd x))
    (hr : s.remoteStep x (s.quad q).steps = r) : exec (.matrixKstepComplete q) s = .next (s.afterStep q x r) := by
  simp only [exec_matrixKstepComplete, execMatrixKstepComplete, ha, hr]
  cases r <;> rfl

end

section
variable {s : State} {x : MatrixCmd} {k : Core} {j : Fin 8} (hj : j = Fin.ofNat 8 x.thr)
include hj

/-- An accepted remote command is counted for its sender. -/
theorem remoteMatrixCommand_accepted {t : State} (ha : s.acceptMatrix x (x.core / 1024) = .accepted t) (hk : t.core? x.core = some k) :
    exec (.remoteMatrixCommand x) s =
      .next (t.setCore { k with thr := k.thr.set j { k.thr.get j with mcmdOut := (k.thr.get j).mcmdOut + 1 } }) := by
  subst hj
  simp only [exec_remoteMatrixCommand, execRemoteMatrixCommand, ha, hk]

/-- A refused one leaves its status with its sender. -/
theorem remoteMatrixCommand_refused {st : BitVec 4} (ha : s.acceptMatrix x (x.core / 1024) = .refused st)
    (hk : s.core? x.core = some k) :
    exec (.remoteMatrixCommand x) s = .next (s.setCore { k with thr := k.thr.set j { k.thr.get j with mcmdErr := some st } }) := by
  subst hj
  simp only [exec_remoteMatrixCommand, execRemoteMatrixCommand, ha, hk]

end

/-- Settles O47: each clause is one path through the branches of its step; a step of a remote command leads on by `State.afterStep`. -/
theorem engineAndUnitEvents : Obligations.EngineAndUnitEvents := by
  intro s
  exact ⟨
    -- an engine's start: idle, running
    fun k e c x xs hc hr hq => congrArg _ (engineStart_idle hc hr hq), fun k e c x hc hr => congrArg _ (engineStart_running hc hr),
    -- its running command: waiting, begun, beginning
    fun k e c x hc hr hw => congrArg _ (engineGo_waits hc hr hw), fun k e c x hc hr hw hb => congrArg _ (engineGo_begun hc hr hw hb),
    fun k e c x d hc hr hw hb ha hd => congrArg _ (engineGo_begins hc hr hw hb ha hd),
    -- the log's ranges: no team, none open since then, emitted
    fun l t n hc => logRangeTimeout_unbound hc, fun l t n c hc hr => logRangeTimeout_closed hc hr,
    fun l t n c m hc hr hm => logRangeTimeout_emits hc hr hm,
    -- a unit's start: a thread's command, a remote one, none, busy
    fun q k e ha hn => matrixCommandStart_thread ha hn, fun q k x ha hn => matrixCommandStart_remote ha hn,
    fun q ha hn => matrixCommandStart_empty ha hn, fun q x ha => matrixCommandStart_busy ha,
    -- the end of a step: idle, a thread's command, a remote one by what its step answers
    fun q ha => matrixKstepComplete_idle ha, fun q e ha => matrixKstepComplete_thread ha, fun q e ha => matrixKstepComplete_thread ha,
    fun q x t ha hr => matrixKstepComplete_remote ha hr, fun q x t ha hr => matrixKstepComplete_remote ha hr,
    fun q x t st ha hr => matrixKstepComplete_remote ha hr, fun q x t ha hr => matrixKstepComplete_remote ha hr,
    fun q x t ha hr => matrixKstepComplete_remote ha hr,
    -- a remote command at its target: accepted, refused, tried again
    fun x t k j hj ha hk => remoteMatrixCommand_accepted hj ha hk, fun x st k j hj ha hk => remoteMatrixCommand_refused hj ha hk,
    fun x ha => by rw [exec_remoteMatrixCommand, execRemoteMatrixCommand, ha]⟩

end Sys2Proof.Machine
end

section
/-!
The checks of a tile handle (R187, R383), and the names of tiles with the holds and the states of their versions (R188, R190, R195, R384,
R387).
-/
namespace Sys2Proof.Machine
open Sys2Proof Sys2Proof.Safety

/-! ## The checks of a handle (R187, R383) -/

/-- Check 3 of R187: one of the permissions `need` and each of `also`; another module's handle is versioned and remote. -/
def TRef.Permitted (r : TRef) (need also : List Nat) : Prop :=
  (need.isEmpty = true ∨ need.any (Cap.tilePerm r.c) = true) ∧ also.all (Cap.tilePerm r.c) = true ∧
    (r.own = true ∨ (Cap.tenured r.c = false ∧ Cap.tilePerm r.c tpRemote = true))

section
variable {s : State} {r : TRef} {b : W64} {k : TKind} {need also : List Nat}

/-- `TRef.Permitted` is the check that `TRef.fault` makes. -/
theorem permitted_iff : r.Permitted need also ↔ ((!need.isEmpty && !need.any (Cap.tilePerm r.c)) || !also.all (Cap.tilePerm r.c) ||
    (!r.own && (Cap.tenured r.c || !Cap.tilePerm r.c tpRemote))) = false := by
  simp only [TRef.Permitted, Bool.or_eq_false_iff, Bool.and_eq_false_iff, Bool.not_eq_false', and_assoc]

theorem fault_untagged (ht : r.c.tag = false) : r.fault s b k need also = some causeCapTag := if_pos (by simp [ht])

section
variable (ht : r.c.tag = true)
include ht

theorem fault_wrongKind (h : r.c.kind ≠ 2 ∨ k.fits r.c = false) : r.fault s b k need also = some causeCapType :=
  (if_neg (by simp [ht])).trans (if_pos (by simpa using h))

section
variable (hk : r.c.kind = 2) (hf : k.fits r.c = true)
include hk hf

theorem fault_notPermitted (hp : ¬ r.Permitted need also) : r.fault s b k need also = some causeCapPerm :=
  (if_neg (by simp [ht])).trans ((if_neg (by simp [hk, hf])).trans (if_pos (eq_true_of_ne_false (mt permitted_iff.mpr hp))))

section
variable (hp : r.Permitted need also)
include hp

theorem fault_outOfBounds (hb : r.inBounds s b = false) : r.fault s b k need also = some causeCapBounds :=
  (if_neg (by simp [ht])).trans ((if_neg (by simp [hk, hf])).trans
    ((if_neg (ne_true_of_eq_false (permitted_iff.mp hp))).trans (if_pos (by simp [hb]))))

theorem fault_none (hb : r.inBounds s b = true) : r.fault s b k need also = none :=
  (if_neg (by simp [ht])).trans ((if_neg (by simp [hk, hf])).trans
    ((if_neg (ne_true_of_eq_false (permitted_iff.mp hp))).trans (if_neg (by simp [hb]))))

end

end

end

end

/-- A tenured handle has no version, and a versioned one's fits its field. -/
theorem versionRange_ok {r : TRef} (hv : Cap.tenured r.c = true ∨ r.ver ≤ 65535) :
    (!Cap.tenured r.c && decide (65535 < r.ver)) = false := by
  rcases hv with ht | hv
  · simp [ht]
  · simp [Nat.not_lt.mpr hv]

section
variable {m : M} {a b : F6} {k : TKind} {need also : List Nat} {r : TRef} (hr : r = tileRef m.st (m.src a) (m.int b))
include hr

/-- An operand that fails check 1 to 4 traps with that check's cause and value 0. -/
theorem tileOp_fault {c : BitVec 8} (hf : r.fault m.st (m.int b) k need also = some c) :
    m.tileOp a b k need none also = .error (.trap c 0 []) := by
  subst hr
  simp only [M.tileOp, hf, bind, Except.bind]

section
variable (hf : r.fault m.st (m.int b) k need also = none)
include hf

/-- After checks 1 to 4: the range of the adjusted version, and at an own home the generation. -/
theorem tileOp_later : m.tileOp a b k need none also = (do
    trapIf (!Cap.tenured r.c && decide (65535 < r.ver)) causeVersionWindow (BitVec.ofNat 64 (r.ver % 2 ^ 16))
    trapIf (r.own && !r.live m.st) causeStaleHandle 0
    pure r) := by
  subst hr
  have hs : trapIf (!(tileRef m.st (m.src a) (m.int b)).own && false) causeCapPerm 0 = .ok () := by rw [Bool.and_false]; rfl
  simp only [M.tileOp, hf, Option.elim_none, hs, bind, Except.bind, pure, Except.pure]

theorem tileOp_versionRange (ht : Cap.tenured r.c = false) (hv : 65535 < r.ver) :
    m.tileOp a b k need none also = .error (.trap causeVersionWindow (BitVec.ofNat 64 (r.ver % 2 ^ 16)) []) := by
  rw [tileOp_later hr hf, ht, decide_eq_true hv]
  rfl

section
variable (hv : Cap.tenured r.c = true ∨ r.ver ≤ 65535)
include hv

theorem tileOp_stale (ho : r.own = true) (hl : r.live m.st = false) :
    m.tileOp a b k need none also = .error (.trap causeStaleHandle 0 []) := by
  rw [tileOp_later hr hf, versionRange_ok hv, ho, hl]
  rfl

theorem tileOp_passes (hl : r.own = false ∨ r.live m.st = true) : m.tileOp a b k need none also = .ok r := by
  have hs : (r.own && !r.live m.st) = false := by rcases hl with hl | hl <;> simp [hl]
  rw [tileOp_later hr hf, versionRange_ok hv, hs]
  rfl

end

end

end

/-! ## Names (R188, R384) -/

/-- The entry of the new name `n` for tiles of the given shape: the generation, and the versions that still stay, are those of the name's
earlier allocation. -/
def M.newName (m : M) (n shape : Nat) : TName :=
  { name := n, gen := (m.st.tname? n).elim 0 (·.gen), ctx := m.core.ctx
    gran := granulesOf (shape % 64 + 1) (shape / 64 % 64 + 1) (BitVec.ofNat 3 (shape / 2 ^ 12)), rows := shape % 64 + 1
    cols := shape / 64 % 64 + 1, fmt := BitVec.ofNat 3 (shape / 2 ^ 12), dead := (m.st.tname? n).elim [] (·.dead) }

theorem opTnew_fresh {m : M} {o : XOp} {n shape : Nat} {x : TName} (hn : freshName m.st m.core.die = some n)
    (hs : shape = fieldOf (m.int o.a) 62 48) (hx : x = m.newName n shape) :
    opTnew o m = .ok (({ m with st := m.st.setDie (nameDie n) fun d =>
      { d with names := x :: d.names.filter fun y => decide (y.name ≠ n) } } : M).wr
        o.d (mkHandle false n x.gen m.st.modid shape 0x7F)) := by
  subst hx hs
  simp only [opTnew, hn, M.newName]

section
variable {m : M} {o : XOp} {r : TRef}

theorem opTfree_name (ht : Cap.tenured (m.src o.a) = false) (h : m.tileOp o.a 0 .versioned [tpPublish] = .ok r) (ho : r.own = true) :
    opTfree o m = .ok (m.world (·.freeName r.name)) := by
  simp only [opTfree, ht, h, ho, Bool.false_eq_true, if_true, if_false, bind, Except.bind, pure, Except.pure]

section
variable {t : TRegion} (ht : Cap.tenured (m.src o.a) = true) (h : m.tileOp o.a 0 .tenured [tpTenW] none [tpSplit] = .ok r)
  (hr : m.st.tregion? r.name = some t)
include ht h hr

/-- R197: a region with no tenure held or queued, its records all of one-shot accesses, is freed. -/
theorem opTfree_region (hs : ∀ x ∈ t.recs, x.oneShot = true) : opTfree o m = .ok (m.world (·.freeRegion r.name)) := by
  have hb : (t.recs.any fun x => !x.oneShot) = false := List.any_eq_false.mpr fun x hx => by simp [hs x hx]
  simp only [opTfree, ht, h, hr, hb, Option.elim_some, trapIf_false, if_true, bind, Except.bind, pure, Except.pure]

theorem opTfree_busy (hs : ∃ x ∈ t.recs, x.oneShot = false) : opTfree o m = .error (.trap causeTenure 4 []) := by
  have hb : (t.recs.any fun x => !x.oneShot) = true := List.any_eq_true.mpr (hs.imp fun x hx => ⟨hx.1, by simp [hx.2]⟩)
  simp only [opTfree, ht, h, hr, hb, Option.elim_some, trapIf, if_true, bind, Except.bind]

end

end

/-! ## Holds and drops of versions at an own home (R190, R387) -/

section
variable {m : M} {a b : F6} {r : TRef} {x : TName} (ho : r.own = true) (hx : m.st.tname? r.name = some x)
include ho hx

/-- A version that is LIVE is held, unless the instruction has been served before. -/
theorem opTref_live (hs : m.served (tileRef m.st (m.src a) (m.int b)).name (tileRef m.st (m.src a) (m.int b)).ver = none)
    (h : m.tileOp a b .versioned [tpRead] = .ok r) (hl : x.stateOf r.ver = 2) :
    opTref a b m = .ok { m with st := m.st.setTname r.name fun x => x.setVer r.ver fun y => { y with holds := y.holds + 1 } } := by
  simp only [opTref, hs, h, ho, hx, hl, Option.isSome_none, Bool.and_false, Bool.not_true, Bool.false_eq_true, if_false, Option.getD_some,
    bind, Except.bind, pure, Except.pure]

section
variable {op need : Nat} {f : Version → Version} (h : m.tileOp a b .versioned [need] = .ok r)
include h

theorem tdropWith_live (hl : x.stateOf r.ver = 2) :
    tdropWith op need f a b m = .ok { m with st := (m.st.setTname r.name fun x => x.setVer r.ver f).reclaimTest r.name } := by
  simp only [tdropWith, State.tdrop, h, ho, hx, hl, Bool.not_true, Bool.false_eq_true, if_true, if_false, Option.getD_some, bind,
    Except.bind, pure, Except.pure]

theorem tdropWith_notLive (hl : x.stateOf r.ver ≠ 2) : tdropWith op need f a b m = .ok m := by
  simp only [tdropWith, State.tdrop, h, ho, hx, hl, Bool.not_true, Bool.false_eq_true, if_false, Option.getD_some, bind, Except.bind,
    pure, Except.pure]

end

end

/-! ## What `tinfo` and `tchk` find (R195, R387) -/

section
variable {m : M} {d a b : F6} {r : TRef} (h : m.tileOp a b .either [] = .ok r) (ho : r.own = true)
include h ho

theorem opTinfo_version {x : TName} (ht : Cap.tenured r.c = false) (hx : m.st.tname? r.name = some x) :
    opTinfo d a b m = .ok (m.wrInt d (versionWord x r.ver)) := by
  simp only [opTinfo, h, ho, ht, hx, Bool.not_true, Bool.false_eq_true, if_false, Option.getD_some, bind, Except.bind, pure, Except.pure]

theorem opTinfo_tenure {t : TRegion} (ht : Cap.tenured r.c = true) (hx : m.st.tregion? r.name = some t) :
    opTinfo d a b m = .ok (m.wrInt d (tenureWord m t r.rect)) := by
  simp only [opTinfo, h, ho, ht, hx, Bool.not_true, Bool.false_eq_true, if_true, if_false, Option.getD_some, bind, Except.bind, pure,
    Except.pure]

end

section
variable {m : M} {d a : F6} {r : TRef} (hr : r = tileRef m.st (m.src a) 0)
include hr

theorem opTchk_fault {c : BitVec 8} (hf : r.fault m.st 0 .either [] = some c) : opTchk d a m = .ok (m.wrInt d (c.setWidth 64)) := by
  subst hr
  simp only [opTchk, hf, pure, Except.pure]

theorem opTchk_own (hf : r.fault m.st 0 .either [] = none) (ho : r.own = true) :
    opTchk d a m = .ok (m.wrInt d (if r.live m.st then 0 else 0x0F)) := by
  subst hr
  simp only [opTchk, hf, ho, if_true, pure, Except.pure]
  rfl

end

/-- Settles O23: an instruction whose handle passes does what the lemma of its effect says (`op…`), and the checks of a handle are those of
`TRef.fault`, then `tileOp_later`. -/
theorem tileNamesAndHandles : Obligations.TileNamesAndHandles := by
  constructor
  · intro s m
    exact ⟨
      -- a name taken, a name freed, a region freed, a region in use
      fun o n x hn hx hi => (exec_tnew o s).trans (runInstr_completes hi (opTnew_fresh hn rfl hx)),
      fun o r ht h ho hi => (exec_tfree o s).trans (runInstr_completes hi (opTfree_name ht h ho)),
      fun o r t ht h hr hs hi => (exec_tfree o s).trans (runInstr_completes hi (opTfree_region ht h hr hs)),
      fun o r t ht h hr hs hi => (exec_tfree o s).trans (runInstr_traps hi (opTfree_busy ht h hr hs)),
      -- a hold taken, ended, nothing to end; a version dropped, nothing to drop
      fun a b r x hs h ho hx hl hi => (exec_tref a b s).trans (runInstr_completes hi (opTref_live ho hx hs h hl)),
      fun a b r x h ho hx hl hi => (exec_tdrop a b s).trans (runInstr_completes hi (tdropWith_live ho hx h hl)),
      fun a b r x h ho hx hl hi => (exec_tdrop a b s).trans (runInstr_completes hi (tdropWith_notLive ho hx h hl)),
      fun a b r x h ho hx hl hi => (exec_tdropAll a b s).trans (runInstr_completes hi (tdropWith_live ho hx h hl)),
      fun a b r x h ho hx hl hi => (exec_tdropAll a b s).trans (runInstr_completes hi (tdropWith_notLive ho hx h hl)),
      -- `tinfo` of a version and of a rectangle, `tchk` of a handle that fails a check and of one that passes
      fun d a b r x h ho ht hx hi => (exec_tinfo d a b s).trans (runInstr_completes hi (opTinfo_version h ho ht hx)),
      fun d a b r t h ho ht hx hi => (exec_tinfo d a b s).trans (runInstr_completes hi (opTinfo_tenure h ho ht hx)),
      fun d a r c hr hf hi => (exec_tchk d a s).trans (runInstr_completes hi (opTchk_fault hr hf)),
      fun d a r hr hf ho hi => (exec_tchk d a s).trans (runInstr_completes hi (opTchk_own hr hf ho))⟩
  · intro m
    exact ⟨
      -- the checks in their order: tag, type, permissions, bounds, range, generation; and none that fails
      fun a b k need also r hr ht => tileOp_fault hr (fault_untagged ht),
      fun a b k need also r hr ht hk => tileOp_fault hr (fault_wrongKind ht hk),
      fun a b k need also r hr ht hk hf hp => tileOp_fault hr (fault_notPermitted ht hk hf hp),
      fun a b k need also r hr ht hk hf hp hb => tileOp_fault hr (fault_outOfBounds ht hk hf hp hb),
      fun a b k need also r hr hf ht hv => tileOp_versionRange hr hf ht hv,
      fun a b k need also r hr hf ho hv hl => tileOp_stale hr hf hv ho hl,
      fun a b k need also r hr ht hk hf hp hb hv hl => tileOp_passes hr (fault_none ht hk hf hp hb) hv hl⟩

end Sys2Proof.Machine
end

section
/-!
Publishing, loading and waiting for versions of tiles whose home is on the own module (R191–R193, R385, R386).
-/
namespace Sys2Proof.Machine
open Sys2Proof Sys2Proof.Safety

/-! ## Outside restartable mode (R128) -/

section
variable {m : M} (hr : m.restart = false) (s : State)
include hr

theorem noteInput_plain (mdl : BitVec 16) (ref v units : Nat) :
    ({ m with st := s } : M).noteInput mdl ref v units = { m with st := s } := if_neg (ne_true_of_eq_false hr)

theorem noteOutput_plain (mdl : BitVec 16) (n v : Nat) :
    ({ m with st := s } : M).noteOutput mdl n v = { m with st := s } := if_neg (ne_true_of_eq_false hr)

end

theorem withPublish_ok {body : Act} {m m1 : M} (h : body m = .ok m1) : withPublish body m = .ok m1 := by simp only [withPublish, h]

/-! ## The version that the handle names, at an own home -/

section
variable {m : M} {o : XOp} {r : TRef} {x : TName} (ha : m.acqPending = false) (ho : r.own = true) (hx : m.st.tname? r.name = some x)
include ha ho hx

/-- R191, R192: an absent version in the window, for which there is a frame, is accepted, released, read from its place and completed. -/
theorem opTvst_absent {m1 m2 : M} {data : List V512} {t : State} {rd : Option Nat} (hrd : rd = readersOf (o.x.imm.toNat % 2 ^ 16))
    (hn : m.st.publishAccepted (tileRef m.st (m.src o.a) (m.int o.x.b)).name (tileRef m.st (m.src o.a) (m.int o.x.b)).ver m.who = none)
    (hr : m.restart = false) (h : m.tileOp o.a o.x.b .versioned [tpPublish] (some o.x.sc) = .ok r) (hp : m.tilePlace o r false = .ok ())
    (hz : x.stateOf r.ver = 0) (hw : x.w < r.ver ∧ r.ver ≤ x.w + 16) (hf : (m.st.acceptPublish r.name r.ver none rd).isSome = true)
    (hm1 : m.release o.x.sc = .ok m1) (hm2 : m1.placeRead o (Cap.granules r.c) = .ok (m2, data)) (hr2 : m2.restart = false)
    (ht : m2.st.acceptPublish r.name r.ver none rd = some t) :
    opTvst o m = .ok { m2 with st := t.publishEnd x.ref r.ver rd data } := by
  subst hrd
  apply withPublish_ok
  obtain ⟨u, hu⟩ := Option.isSome_iff_exists.mp hf
  have hexists : (decide (r.ver ≤ x.w) || x.stateOf r.ver != 0) = false := by simp [hz, hw.1]
  have hwindow : ¬ x.w + 16 < r.ver := Nat.not_lt.mpr hw.2
  simp only [ha, hn, hr, h, hp, ho, hx, hexists, hwindow, hu, hm1, hm2, ht, noteOutput_plain hr2, stallIf_false, trapIf_false, ite_self,
    Bool.false_and, Bool.not_true, Bool.false_eq_true, decide_false, if_false, Option.getD_some, bind, Except.bind, pure, Except.pure]

variable (hs : m.served (tileRef m.st (m.src o.a) (m.int o.x.b)).name (tileRef m.st (m.src o.a) (m.int o.x.b)).ver = none)
  (hl : x.stateOf r.ver = 2)
include hs hl

/-- R193: a load of a LIVE version claims a reader unit where it consumes, acquires, writes its place, and tests for reclaim. -/
theorem opTvldWith_live {consume : Bool} {y : Version} {m1 m2 : M} (hr : m.restart = false)
    (h : m.tileOp o.a o.x.b .versioned [if consume then tpConsume else tpRead] (some o.x.sc) = .ok r) (hp : m.tilePlace o r true = .ok ())
    (hy : x.ver? r.ver = some y) (hu : consume = true → y.readers ≠ some 0)
    (hm1 : ({ m with st := if consume then m.st.setTname r.name fun x => x.setVer r.ver fun y => y.claim false else m.st } : M).acquire
      o.x.sc = .ok m1)
    (hm2 : m1.placeWrite o y.data = .ok m2) :
    opTvldWith consume o m = .ok (let m3 := if o.x.ff then m2.wrInt o.x.e 1 else m2; { m3 with st := m3.st.reclaimTest r.name }) := by
  apply withHolds_ok
  have hunits : (consume && y.readers == some 0) = false := by simpa using hu
  simp only [ha, hs, hr, h, hp, ho, hx, hl, hy, hunits, noteInput_plain hr, hm1, hm2, stallIf_false, trapIf_false, ite_self,
    Bool.false_and, Bool.not_true, Bool.false_eq_true, if_false, Option.getD_some, bind, Except.bind, pure, Except.pure]

theorem opTvw_live {m1 : M} (h : m.tileOp o.a o.x.b .versioned [tpRead] (some o.x.sc) = .ok r) (hm1 : m.acquire o.x.sc = .ok m1) :
    opTvw o m = .ok (if o.x.ff then m1.wrInt o.x.e 1 else m1) := by
  simp only [opTvw, ha, hs, h, ho, hx, hl, hm1, stallIf_false, Option.isSome_none, Bool.and_false, Bool.not_true, Bool.false_eq_true,
    if_false, Option.getD_some, bind, Except.bind, pure, Except.pure]

end

/-- Settles O24: the effect of each instruction on a version in the state it asks for (`op…_absent`, `op…_live`). -/
theorem tileMoves : Obligations.TileMoves := by
  intro s m
  exact ⟨
    fun o r x m1 m2 data t ha hn hr h hp ho hx hz hw hf hm1 hm2 hr2 ht hi =>
      (exec_tvst o s).trans (runInstr_completes hi (opTvst_absent ha ho hx rfl hn hr h hp hz hw hf hm1 hm2 hr2 ht)),
    fun o r x y m1 m2 ha hr hs h hp ho hx hl hy hm1 hm2 hi =>
      (exec_tvld o s).trans (runInstr_completes hi (opTvldWith_live (consume := false) ha ho hx hs hl hr h hp hy nofun hm1 hm2)),
    fun o r x y m1 m2 ha hr hs h hp ho hx hl hy hu hm1 hm2 hi =>
      (exec_tvldc o s).trans (runInstr_completes hi (opTvldWith_live (consume := true) ha ho hx hs hl hr h hp hy (fun _ => hu) hm1 hm2)),
    fun o r x m1 ha hs h ho hx hl hm1 hi => (exec_tvw o s).trans (runInstr_completes hi (opTvw_live ha ho hx hs hl h hm1))⟩

end Sys2Proof.Machine
end

section
/-!
Tensor regions and their tenures (R197–R204, R388, R389), outside restartable mode.
-/
namespace Sys2Proof.Machine
open Sys2Proof Sys2Proof.Safety

/-! ## A region declared (R197, R388) -/

/-- The region that a descriptor spells, of the core's context, under number `n` and generation `gen`. -/
def M.newRegion (m : M) (n : Nat) (gen : BitVec 6) (v : Nat) : TRegion :=
  { num := n, gen := gen, ctx := m.core.ctx, base := v % 2 ^ 64, rows := bitsN v 83 72 + 1, cols := bitsN v 95 84 + 1
    stride := bitsN v 119 96, fmt := BitVec.ofNat 3 (bitsN v 71 69) }

/-- Bytes of a row of a region. -/
def TRegion.rowBytes (t : TRegion) : Nat := (t.cols * fmtBits t.fmt + 7) / 8

theorem opTdecl_fresh {m : M} {o : XOp} {n v : Nat} {gen : BitVec 6} {t : TRegion} (hv : v = (m.src o.a).bits.toNat)
    (ht : t = m.newRegion n gen v) (hg : gen = (m.st.tregion? n).elim 0 (·.gen)) (hc : checkCap o.x.c (m.src o.x.c) [0] [.ld, .st] = .ok ())
    (hd : ¬(bitsN v 127 120 ≠ 0 ∨ bitsN v 68 64 ≠ 0 ∨ t.stride % 64 ≠ 0 ∨ t.stride < t.rowBytes ∨ t.base % 64 ≠ 0))
    (hb : checkBounds (m.src o.x.c) t.base ((t.rows - 1) * t.stride + t.rowBytes) = .ok ()) (hn : freshRegion m.st m.core.die = some n) :
    opTdecl o m = .ok (({ m with st := m.st.setDie (n / 128) fun d =>
      { d with tregions := t :: d.tregions.filter fun x => decide (x.num ≠ n) } } : M).wr
        o.d (mkHandle true n gen m.st.modid (o.x.imm.toNat % 2 ^ 12 + t.fmt.toNat * 2 ^ 12) 0x7F)) := by
  subst hv ht hg
  simp only [M.newRegion, TRegion.rowBytes] at hd hb
  simp only [opTdecl, hc, hd, hb, hn, decide_false, trapIf_false, M.newRegion, bind, Except.bind, pure,
    Except.pure]

/-! ## A tenure requested (R199–R201, R388) -/

/-- The machine with a tenure of rectangle `q` of region `n` granted at once to the thread's team: the directory's record, and the entry of
the team's table. -/
def M.withTenure (m : M) (n : Nat) (q : Rect) (write : Bool) : M :=
  { m with
    st := m.st.setTregion n fun t => { t with recs := t.recs ++
      [{ launch := m.core.launch, team := m.core.team, thr := m.tid.val, slot := m.core.tenSlot, rect := q, write := write, held := true }] }
    core := { m.core with tenures := m.core.tenures ++ [{ slot := m.core.tenSlot, region := n, rect := q, write := write, held := true }] } }

section
variable {m : M} {o : XOp} {r : TRef} {t : TRegion} (hr : m.restart = false)
include hr

section
variable (ha : m.acqPending = false)
include ha

section
variable (h : m.tileOp o.a o.x.b .tenured [if o.x.x.getLsbD 1 then tpTenW else tpTenR] = .ok r) (ht : m.st.tregion? r.name = some t)
include h ht

/-- The directory has granted the request while the thread waited. -/
theorem opTten_granted {m1 m2 : M} (hg : m.thr.granted = true) (h1 : m.rectFlush t r.rect = .ok m1) (h2 : m1.acquire o.x.sc = .ok m2) :
    opTten o m = .ok (if o.x.ff then m2.wrInt o.x.e 1 else m2) := by
  simp only [opTten, hr, ha, h, ht, hg, h1, h2, trapIf_false, stallIf_false, if_true, Option.getD_some, bind, Except.bind, pure,
    Except.pure]

variable (hg : m.thr.granted = false) (hl : m.core.tenures.length < 16)
include hg hl

/-- The request is granted at once, and goes on as one that has waited. -/
theorem opTten_grants {m0 m1 m2 : M} (hq : t.grants r.rect (o.x.x.getLsbD 1) = true) (hm : m.st.recRoom r.name = true)
    (h0 : m0 = m.withTenure r.name r.rect (o.x.x.getLsbD 1)) (h1 : m0.rectFlush t r.rect = .ok m1) (h2 : m1.acquire o.x.sc = .ok m2) :
    opTten o m = .ok (if o.x.ff then m2.wrInt o.x.e 1 else m2) := by
  subst h0
  rw [M.withTenure] at h1
  simp only [opTten, hr, ha, h, ht, hg, Nat.not_le.mpr hl, hq, hm, h1, h2, trapIf_false, stallIf_false, decide_false, Bool.and_self,
    Bool.not_true, Bool.false_eq_true, and_false, if_true, if_false, Option.getD_some, bind, Except.bind, pure, Except.pure]

theorem opTten_notGranted (hf : o.x.ff = true) (hq : t.grants r.rect (o.x.x.getLsbD 1) = false) : opTten o m = .ok (m.wrInt o.x.e 0) := by
  simp only [opTten, hr, ha, h, ht, hg, Nat.not_le.mpr hl, hq, hf, trapIf_false, stallIf_false, decide_false, Bool.false_and,
    Bool.not_false, Bool.false_eq_true, and_self, if_true, if_false, Option.getD_some, bind, Except.bind, pure, Except.pure]

end

/-! ## A tenure released (R200, R201, R389) -/

section
variable {m1 : M} (h : m.tileOp o.a o.x.b .tenured
    (relNeed (m.core.tenureOn (Cap.tileName (m.src o.a)) (tileRef m.st (m.src o.a) (m.int o.x.b)).rect)) = .ok r)
  (hk : m.core.tickets = [])
include h hk

theorem opTrel_held {e : TenEntry} (he : m.core.tenureOn r.name r.rect = some e) (h1 : m.endTenure e o.x.sc = .ok m1) :
    opTrel o m = .ok m1 := by
  simp only [opTrel, hr, ha, h, hk, he, h1, List.any_nil, trapIf_false, stallIf_false, bind, Except.bind]

theorem opTrel_notHeld (he : m.core.tenureOn r.name r.rect = none) (h1 : m.release o.x.sc = .ok m1) : opTrel o m = .ok m1 := by
  simp only [opTrel, hr, ha, h, hk, he, h1, List.any_nil, trapIf_false, stallIf_false, bind, Except.bind]

end

/-! ## A rectangle split, and merged again (R203) -/

section
variable (h : m.tileOp o.a o.x.b .tenured [tpSplit] = .ok r) (ht : m.st.tregion? r.name = some t)
include h ht

/-- The grid is recorded and the write tenure of the rectangle released; the handle is that of the first sub-tile. -/
theorem opTsplit_held {e : TenEntry} {m1 : M} {gr gc : Nat} (hgr : gr = o.x.imm.toNat % 16) (hgc : gc = o.x.imm.toNat / 16 % 16)
    (he : m.core.tenureOn r.name r.rect = some e) (hw : e.write = true)
    (hg : 1 ≤ gr ∧ gr ≤ 8 ∧ 1 ≤ gc ∧ gc ≤ 8 ∧ 2 ≤ gr * gc ∧ r.rect.rows % gr = 0 ∧ r.rect.cols % gc = 0) (hs : t.isSub r.rect = false)
    (h1 : (m.world fun s => s.setTregion r.name fun t => { t with splits := t.splits ++ [(r.rect, gr, gc)] }).endTenure e o.x.sc = .ok m1) :
    opTsplit o m = .ok (m1.wr o.d ⟨setField (setField (setField r.c.bits 80 12 r.rect.row) 92 12 r.rect.col) 48 12
      (r.rect.rows / gr - 1 + (r.rect.cols / gc - 1) * 64), true⟩) := by
  subst hgr hgc
  simp only [opTsplit, hr, ha, h, ht, he, hw, decide_eq_true hg, hs, h1, trapIf_false, stallIf_false, Bool.not_true, Bool.or_self,
    Option.getD_some, bind, Except.bind, pure, Except.pure]

variable (hp : (t.splits.any fun p => p.1 == r.rect) = true)
include hp

theorem opTmerge_free (hf : (t.recs.any fun x => x.held && !x.oneShot && meets x.rect r.rect) = false) :
    opTmerge o m = .ok ((m.world fun s => (s.setTregion r.name fun t =>
      { t with splits := t.splits.filter fun p => p.1 != r.rect }).serveQueue r.name).wrInt o.d 1) := by
  simp only [opTmerge, hr, ha, h, ht, hp, hf, trapIf_false, stallIf_false, Bool.not_true, Bool.false_eq_true, if_false, Option.getD_some,
    bind, Except.bind, pure, Except.pure]

theorem opTmerge_held (hf : (t.recs.any fun x => x.held && !x.oneShot && meets x.rect r.rect) = true) :
    opTmerge o m = .ok (m.wrInt o.d 0) := by
  simp only [opTmerge, hr, ha, h, ht, hp, hf, trapIf_false, stallIf_false, Bool.not_true, if_true, Option.getD_some, bind, Except.bind,
    pure, Except.pure]

end

end

/-! ## Subscriptions to a strip (R204) -/

/-- A subscription is of the thread's team. -/
def M.subscribed (m : M) (x : HaloSub) : Bool := x.launch == m.core.launch && decide (x.team = m.core.team)

/-- It is that to a side of a rectangle, which a new one replaces. -/
def M.subscribedTo (m : M) (q : Rect) (side : Nat) (x : HaloSub) : Bool := m.subscribed x && x.rect == q && decide (x.side = side)

/-- The region's subscriptions but that one. -/
def M.otherHalos (m : M) (t : TRegion) (q : Rect) (side : Nat) : List HaloSub := t.halos.filter fun x => !m.subscribedTo q side x

section
variable {side w : Nat} (hs : side = o.x.imm.toNat % 4) (hw : w = o.x.imm.toNat / 4 % 16)
  (h : m.tileOp o.a o.x.b .tenured [tpHalo] = .ok r) (ht : m.st.tregion? r.name = some t)
include hs hw h ht

theorem opThalo_ends (hz : w = 0) :
    opThalo o m = .ok { m with st := m.st.setTregion r.name fun u => { u with halos := m.otherHalos t r.rect side } } := by
  subst hs hw
  simp only [opThalo, hr, h, ht, hz, M.otherHalos, M.subscribedTo, M.subscribed, trapIf_false, if_true, Option.getD_some, bind,
    Except.bind, pure, Except.pure]

/-- A new subscription, whose copy and word lie in local memory, whose strip fits the rectangle, and for which the rectangle and the team
have room, is refreshed and counted once. -/
theorem opThalo_subscribes {copyAt wordAt n : Nat} {u : HaloSub} (hz : w ≠ 0) (hc : copyAt = fieldOf (m.int o.x.c) 31 0)
    (hd : wordAt = fieldOf (m.int o.x.c) 63 32)
    (hu : u = { launch := m.core.launch, team := m.core.team, rect := r.rect, side := side, width := w, copyAt := copyAt, wordAt := wordAt })
    (hn : n = ((if side % 2 = 0 then w * r.rect.cols else r.rect.rows * w) * fmtBits t.fmt + 7) / 8)
    (hb : ¬(0x3C000 < copyAt + n ∨ 0x3C000 < wordAt + 8 ∨ wordAt % 8 ≠ 0))
    (hf : ¬ (if side % 2 = 0 then r.rect.rows else r.rect.cols) < w)
    (hm : ¬(4 ≤ ((m.otherHalos t r.rect side).filter fun x => x.rect == r.rect).length ∨
      8 ≤ (m.st.dies.toList.flatMap fun d => d.tregions.flatMap fun y => y.halos.filter m.subscribed).length -
        (t.halos.filter (m.subscribedTo r.rect side)).length)) :
    opThalo o m = .ok (m.world fun s => (s.refresh t u).setTregion r.name fun y =>
      { y with halos := m.otherHalos t r.rect side ++ [{ u with count := 1 }] }) := by
  subst hs hw hc hd hu hn
  delta M.otherHalos M.subscribedTo M.subscribed at hm ⊢
  simp only [opThalo, hr, h, ht, hz, hb, hf, hm, trapIf_false, decide_false, if_false, Option.getD_some, bind, Except.bind, pure,
    Except.pure]

end

end

/-- Settles O25: the effect of each instruction in the case that the clause describes (`op…`). -/
theorem tenureInstructions : Obligations.TenureInstructions := by
  intro s m
  exact ⟨
    fun o n gen t hc hd hb hn hg ht hi => (exec_tdecl o s).trans (runInstr_completes hi (opTdecl_fresh rfl ht hg hc
      (by subst ht; exact hd) (by subst ht; exact hb) hn)),
    -- a tenure granted at once, granted while the thread waited, not granted to a request that does not wait
    fun o r t m0 m1 m2 hr ha h ht hg hl hq hm h0 h1 h2 hi =>
      (exec_tten o s).trans (runInstr_completes hi (opTten_grants hr ha h ht hg hl hq hm h0 h1 h2)),
    fun o r t m1 m2 hr ha h ht hg h1 h2 hi => (exec_tten o s).trans (runInstr_completes hi (opTten_granted hr ha h ht hg h1 h2)),
    fun o r t hr ha h ht hg hl hf hq hi => (exec_tten o s).trans (runInstr_completes hi (opTten_notGranted hr ha h ht hg hl hf hq)),
    -- a release with the tenure held, and without
    fun o r e m1 hr ha h hk he h1 hi => (exec_trel o s).trans (runInstr_completes hi (opTrel_held hr ha h hk he h1)),
    fun o r m1 hr ha h hk he h1 hi => (exec_trel o s).trans (runInstr_completes hi (opTrel_notHeld hr ha h hk he h1)),
    -- a split; a merge with no sub-tile held, and with one
    fun o r t e m1 hr ha h ht he hw hg hs h1 hi =>
      (exec_tsplit o s).trans (runInstr_completes hi (opTsplit_held hr ha h ht rfl rfl he hw hg hs h1)),
    fun o r t hr ha h ht hp hf hi => (exec_tmerge o s).trans (runInstr_completes hi (opTmerge_free hr ha h ht hp hf)),
    fun o r t hr ha h ht hp hf hi => (exec_tmerge o s).trans (runInstr_completes hi (opTmerge_held hr ha h ht hp hf)),
    -- a subscription ended, and a new one
    fun o r t hr h ht hz hi => (exec_thalo o s).trans (runInstr_completes hi (opThalo_ends hr rfl rfl h ht hz)),
    fun o r t u n hr h ht hz hu hn hb hf hm hi =>
      (exec_thalo o s).trans (runInstr_completes hi (opThalo_subscribes hr rfl rfl h ht hz rfl rfl hu hn hb hf hm))⟩

end Sys2Proof.Machine
end

section
/-!
The steps of versions and of tenures at their home (R190, R191, R193, R198–R202).
-/
namespace Sys2Proof.Machine
open Sys2Proof Sys2Proof.Safety

/-! ## A publish tried again (R190, R191) -/

theorem exec_versionPublishRequest (n v : Nat) (t : ThrId) (s : State) :
    exec (.versionPublishRequest n v t) s = execVersionPublishRequest n v t s := rfl

theorem exec_versionPublishComplete (n v : Nat) (t : ThrId) (s : State) :
    exec (.versionPublishComplete n v t) s = execVersionPublishComplete n v t s := rfl

/-- The parked publish of a thread is asked of its home again. -/
theorem versionPublishRequest_thread {s : State} {n v tr : Nat} {t : ThrId} {rd : Option Nat} {f : Finish} (hm : t ≠ remotePublisher)
    (hl : t ≠ launchPublisher t.launch) (hp : s.runOf t = some (.parked (.publish n v rd tr) f)) :
    exec (.versionPublishRequest n v t) s = .next (s.publishRequest t n v rd tr f) := by
  simp only [exec_versionPublishRequest, execVersionPublishRequest, if_neg hm, if_neg hl, hp, ne_eq, not_true, or_self, if_false]

section
variable {s : State} {n v tr : Nat} {t : ThrId} {rd : Option Nat} {f : Finish}

theorem publishRequest_noName (hx : s.tname? n = none) : s.publishRequest t n v rd tr f = s.resumeTrap t causeStaleHandle 0 := by
  simp only [State.publishRequest, hx]

section
variable {x : TName} (hx : s.tname? n = some x)
include hx

theorem publishRequest_stale (hl : x.live = false) : s.publishRequest t n v rd tr f = s.resumeTrap t causeStaleHandle 0 := by
  simp only [State.publishRequest, hx, hl, Bool.not_false, if_true]

section
variable (hl : x.live = true)
include hl

theorem publishRequest_exists (he : v ≤ x.w ∨ x.stateOf v ≠ 0) :
    s.publishRequest t n v rd tr f = s.resumeTrap t causeVersionExists v := by
  simp only [State.publishRequest, hx, hl, Bool.not_true, Bool.false_eq_true, if_false, if_pos he]

section
variable (he : ¬(v ≤ x.w ∨ x.stateOf v ≠ 0))
include he

/-- The window of 16 and a frame admit it. -/
theorem publishRequest_accepted {u : State} (ha : (if x.w + 16 < v then none else s.acceptPublish n v (some t) rd) = some u) :
    s.publishRequest t n v rd tr f = u.resume t := by
  simp only [State.publishRequest, hx, hl, Bool.not_true, Bool.false_eq_true, if_false, if_neg he, ha]

section
variable (ha : (if x.w + 16 < v then none else s.acceptPublish n v (some t) rd) = none)
include ha

theorem publishRequest_listed (hw : s.waitRoom n = true) : s.publishRequest t n v rd tr f =
    s.setTname n fun x => { x with waits := x.waits ++ [{ ver := v, who := .thread t, kind := .publish }] } := by
  simp only [State.publishRequest, hx, hl, Bool.not_true, Bool.false_eq_true, if_false, if_neg he, ha, hw, if_true]

theorem publishRequest_retried (hw : s.waitRoom n = false) : s.publishRequest t n v rd tr f =
    (s.onThread t fun y => { y with run := .parked (.publish n v rd (tr + 1)) f }).after (retryAfter (tr + 1))
      (.versionPublishRequest n v t) := by
  simp only [State.publishRequest, hx, hl, Bool.not_true, Bool.false_eq_true, if_false, if_neg he, ha, hw]

end

end

end

end

end

/-! ## A wait registered again (R193) -/

theorem exec_versionWaitRegister (n v : Nat) (t : ThrId) (s : State) :
    exec (.versionWaitRegister n v t) s = execVersionWaitRegister n v t s := rfl

/-- A launch's gate on the version is registered again. -/
theorem versionWaitRegister_gate {s : State} {n v : Nat} {t : ThrId} {l : Launch} {g : W64} (ht : t = launchPublisher t.launch)
    (hl : s.launch? t.launch = some l) (hp : l.phase = .gated)
    (hg : (l.lrec.gates.take l.lrec.ngate).find? (fun g => (gateOf g).1 == n && (gateOf g).2.1 == v) = some g) :
    exec (.versionWaitRegister n v t) s = .next (s.registerGate t.launch g) := by
  simp only [exec_versionWaitRegister, execVersionWaitRegister, if_pos ht, hl, Option.bind_some, if_pos hp, hg]

section
variable {s : State} {n v tr : Nat} {t : ThrId} {til : Option Nat} {f : Finish} (ht : t ≠ launchPublisher t.launch)
include ht

/-- A wait at another module's home is asked for again. -/
theorem versionWaitRegister_remote {q : Packet} (hp : s.runOf t = some (.parked (.remoteTile q .refused tr til) f)) :
    exec (.versionWaitRegister n v t) s =
      .next (if tileNameOf q = n ∧ tileVerOf q = v then (s.tileStage t .sent id).tileSend (q.src.toNat / 2 ^ 13 % 8) q else s) := by
  simp only [exec_versionWaitRegister, execVersionWaitRegister, if_neg ht, hp]

section
variable {k : VWaitKind} (hp : s.runOf t = some (.parked (.version n v k tr til) f))
include hp

theorem versionWaitRegister_noName (hx : s.tname? n = none) :
    exec (.versionWaitRegister n v t) s = .next (s.resumeTrap t causeStaleHandle 0) := by
  simp only [exec_versionWaitRegister, execVersionWaitRegister, if_neg ht, hp, ne_eq, not_true, or_self, if_false, hx]

section
variable {x : TName} (hx : s.tname? n = some x)
include hx

theorem versionWaitRegister_stale (hl : x.live = false) :
    exec (.versionWaitRegister n v t) s = .next (s.resumeTrap t causeStaleHandle 0) := by
  simp only [exec_versionWaitRegister, execVersionWaitRegister, if_neg ht, hp, ne_eq, not_true, or_self, if_false, hx, hl, Bool.not_false,
    if_true]

section
variable (hl : x.live = true)
include hl

theorem versionWaitRegister_retired (hv : x.stateOf v = 3) :
    exec (.versionWaitRegister n v t) s = .next (s.resumeTrap t causeVersionRetired v) := by
  simp only [exec_versionWaitRegister, execVersionWaitRegister, if_neg ht, hp, ne_eq, not_true, or_self, if_false, hx, hl, Bool.not_true,
    Bool.false_eq_true, hv]

theorem versionWaitRegister_live (hv : x.stateOf v = 2) :
    exec (.versionWaitRegister n v t) s = .next (serveWaiter n v s { ver := v, who := .thread t, kind := k }) := by
  simp only [exec_versionWaitRegister, execVersionWaitRegister, if_neg ht, hp, ne_eq, not_true, or_self, if_false, hx, hl, Bool.not_true,
    Bool.false_eq_true, hv]

/-- A version that is neither LIVE nor retired is waited for. -/
theorem versionWaitRegister_awaited (h2 : x.stateOf v ≠ 2) (h3 : x.stateOf v ≠ 3) : exec (.versionWaitRegister n v t) s =
    .next ((s.onThread t fun y => { y with run := .parked (.version n v k (tr + 1) til) f }).registerWait n v t k (tr + 1)) := by
  simp only [exec_versionWaitRegister, execVersionWaitRegister, if_neg ht, hp, ne_eq, not_true, or_self, if_false, hx, hl, Bool.not_true,
    Bool.false_eq_true]

end

end

end

end

/-! ## The bound of a wait (R193) -/

theorem exec_versionWaitBoundExpiry (t : ThrId) (s : State) : exec (.versionWaitBoundExpiry t) s = execVersionWaitBoundExpiry t s := rfl

/-- The thread's wait for the version is listed at the home, or its registration is to be tried again. -/
def State.waitStands (s : State) (n v : Nat) (t : ThrId) : Prop :=
  ((s.tname? n).elim false fun x => x.waits.any fun w => w.who == .thread t && decide (w.ver = v)) = true ∨
    (s.timers.any fun e => e.2 == .versionWaitRegister n v t) = true

section
variable {s : State} {t : ThrId} {tr til : Nat} {f : Finish}

section
variable {n v : Nat} {k : VWaitKind} (hp : s.runOf t = some (.parked (.version n v k tr (some til)) f))
include hp

/-- The wait is cancelled when its bound has passed and it still stands. -/
theorem waitBound_passes (hw : til ≤ s.now ∧ s.waitStands n v t) : exec (.versionWaitBoundExpiry t) s =
    .next ((s.setTname n fun x => { x with waits := x.waits.filter fun w => !(w.who == .thread t && decide (w.ver = v)) }).resumeTrap
      t causeWaitExpired v) := by
  simp only [exec_versionWaitBoundExpiry, execVersionWaitBoundExpiry, hp]
  exact if_pos hw

theorem waitBound_served (hw : ¬(til ≤ s.now ∧ s.waitStands n v t)) : exec (.versionWaitBoundExpiry t) s = .next s := by
  simp only [exec_versionWaitBoundExpiry, execVersionWaitBoundExpiry, hp]
  exact if_neg hw

end

section
variable {q : Packet} {st : TileStage} (hp : s.runOf t = some (.parked (.remoteTile q st tr (some til)) f))
include hp

theorem remoteWaitBound_open (hw : s.now < til ∨ st = .fetching) : exec (.versionWaitBoundExpiry t) s = .next s := by
  simp only [exec_versionWaitBoundExpiry, execVersionWaitBoundExpiry, hp, if_pos hw]

section
variable (hw : ¬(s.now < til ∨ st = .fetching))
include hw

theorem remoteWaitBound_refused (hs : st = .refused) :
    exec (.versionWaitBoundExpiry t) s = .next (s.resumeTrap t causeWaitExpired (tileVerOf q)) := by
  simp only [exec_versionWaitBoundExpiry, execVersionWaitBoundExpiry, hp, if_neg hw, if_pos hs]

theorem remoteWaitBound_cancels (hs : st ≠ .refused) :
    exec (.versionWaitBoundExpiry t) s = .next (s.route (q.src.toNat / 2 ^ 13 % 8) (cancelAsk q true)) := by
  simp only [exec_versionWaitBoundExpiry, execVersionWaitBoundExpiry, hp, if_neg hw, if_neg hs]

end

end

end

/-! ## Tenures at the directory (R198–R200) -/

theorem exec_tenureRequest (t : ThrId) (r : Nat) (q : Rect) (w : Bool) (s : State) :
    exec (.tenureRequest t r q w) s = execTenureRequest t r q w s := rfl

theorem exec_tenureRelease (t : ThrId) (r : Nat) (q : Rect) (s : State) :
    exec (.tenureRelease t r q) s = execTenureRelease t r q s := rfl

section
variable {s : State} {t : ThrId} {r n tr : Nat} {q : Rect} {w : Bool} {f : Finish} {e : TenEntry}
  (hp : s.runOf t = some (.parked (.tenure n tr) f))
  (he : ((s.teamCore? t.launch t.team).bind fun c => c.tenures.find? fun e =>
    !e.held && decide (e.region = r) && e.rect == q && e.write == w) = some e)
  (hn : e.slot = n)
include hp he hn

theorem tenureRequest_noRegion (hx : s.tregion? r = none) :
    exec (.tenureRequest t r q w) s = .next (s.resumeTrap t causeStaleHandle 0) := by
  simp only [exec_tenureRequest, execTenureRequest, hp, he, hn, ne_eq, not_true, if_false, hx]

section
variable {x : TRegion} (hx : s.tregion? r = some x)
include hx

/-- A request that has its record waits for the queue to be served. -/
theorem tenureRequest_recorded
    (hy : (x.recs.any fun y => y.launch == t.launch && decide (y.team = t.team ∧ y.slot = n) && !y.oneShot) = true) :
    exec (.tenureRequest t r q w) s = .next s := by
  simp only [exec_tenureRequest, execTenureRequest, hp, he, hn, ne_eq, not_true, if_false, hx, hy, if_true]

section
variable (hy : (x.recs.any fun y => y.launch == t.launch && decide (y.team = t.team ∧ y.slot = n) && !y.oneShot) = false)
include hy

theorem tenureRequest_stale (hl : x.live = false) : exec (.tenureRequest t r q w) s =
    .next ((s.onTeam t.launch t.team fun s c => ({ c with tenures := c.tenures.filter fun x => decide (x.slot ≠ n) }, s)).resumeTrap
      t causeStaleHandle 0) := by
  simp only [exec_tenureRequest, execTenureRequest, hp, he, hn, ne_eq, not_true, if_false, hx, hy, Bool.false_eq_true, hl, Bool.not_false,
    if_true]

section
variable (hl : x.live = true)
include hl

theorem tenureRequest_noRecord (hm : s.recRoom r = false) : exec (.tenureRequest t r q w) s =
    .next ((s.onThread t fun y => { y with run := .parked (.tenure n (tr + 1)) f }).after (retryAfter (tr + 1))
      (.tenureRequest t r q w)) := by
  simp only [exec_tenureRequest, execTenureRequest, hp, he, hn, ne_eq, not_true, if_false, hx, hy, Bool.false_eq_true, hl, Bool.not_true,
    hm, Bool.not_false, if_true]

section
variable (hm : s.recRoom r = true)
include hm

theorem tenureRequest_queued (hg : x.grants q w = false) : exec (.tenureRequest t r q w) s =
    .next (s.setTregion r fun x => { x with recs := x.recs ++
      [{ launch := t.launch, team := t.team, thr := t.thr, slot := n, rect := q, write := w, held := false }] }) := by
  simp only [exec_tenureRequest, execTenureRequest, hp, he, hn, ne_eq, not_true, if_false, hx, hy, Bool.false_eq_true, hl, Bool.not_true,
    hm, hg]

theorem tenureRequest_granted (hg : x.grants q w = true) : exec (.tenureRequest t r q w) s =
    .next (((s.setTregion r fun x => { x with recs := x.recs ++
      [{ launch := t.launch, team := t.team, thr := t.thr, slot := n, rect := q, write := w, held := true }] }).onTeam t.launch t.team
        fun s c => ({ c with tenures := Machine.update (fun x => decide (x.slot = n)) (fun x => { x with held := true }) c.tenures },
          s)).resume t fun y => { y with granted := true }) := by
  simp only [exec_tenureRequest, execTenureRequest, hp, he, hn, ne_eq, not_true, if_false, hx, hy, Bool.false_eq_true, hl, Bool.not_true,
    hm, hg, if_true]

end

end

end

end

end

/-! ## One-shot accesses (R202) -/

theorem exec_oneShotAccess (t : ThrId) (r : Nat) (q : Rect) (w : Bool) (s : State) :
    exec (.oneShotAccess t r q w) s = execOneShotAccess t r q w s := rfl

/-- A one-shot access joins the queue of region `r`, which is served. -/
def State.joinShots (s : State) (t : ThrId) (r : Nat) (q : Rect) (w : Bool) : State :=
  (s.setTregion r fun x => { x with recs := x.recs ++
    [{ launch := t.launch, team := t.team, thr := t.thr, slot := 0, rect := q, write := w, held := false, oneShot := true }] }).serveQueue r

section
variable {s : State} {t : ThrId} {r tr : Nat} {q : Rect} {w : Bool} {f : Finish} (hp : s.runOf t = some (.parked (.oneShot r tr) f))
include hp

theorem tenureRequest_shot : exec (.tenureRequest t r q w) s = .next (s.shotRequest t r q w tr) := by
  simp only [exec_tenureRequest, execTenureRequest, hp, if_true]

section
variable {x : TRegion} (hx : s.tregion? r = some x)
include hx

theorem oneShotAccess_listed
    (hy : (x.recs.any fun y => y.oneShot && y.launch == t.launch && decide (y.team = t.team ∧ y.thr = t.thr)) = true) :
    exec (.oneShotAccess t r q w) s = .next s := by
  simp only [exec_oneShotAccess, execOneShotAccess, hp, hx, hy, or_true, if_true]

theorem oneShotAccess_joins
    (hy : (x.recs.any fun y => y.oneShot && y.launch == t.launch && decide (y.team = t.team ∧ y.thr = t.thr)) = false) :
    exec (.oneShotAccess t r q w) s = .next (s.joinShots t r q w) := by
  simp only [exec_oneShotAccess, execOneShotAccess, hp, hx, hy, ne_eq, not_true, Bool.false_eq_true, or_self, if_false, State.joinShots]

end

end

section
variable {s : State} {t : ThrId} {r tr : Nat} {q : Rect} {w : Bool}

theorem shotRequest_noRegion (hx : s.tregion? r = none) : s.shotRequest t r q w tr = s.resume t := by
  simp only [State.shotRequest, hx]

section
variable {x : TRegion} (hx : s.tregion? r = some x)
include hx

theorem shotRequest_listed (hy : (x.recs.any fun y => y.shotOf t) = true) : s.shotRequest t r q w tr = s := by
  simp only [State.shotRequest, hx, hy, if_true]

section
variable (hy : (x.recs.any fun y => y.shotOf t) = false)
include hy

theorem shotRequest_joins (hm : s.recRoom r = true) : s.shotRequest t r q w tr = s.joinShots t r q w := by
  simp only [State.shotRequest, hx, hy, hm, Bool.false_eq_true, if_false, if_true, State.joinShots]

theorem shotRequest_retried (hm : s.recRoom r = false) : s.shotRequest t r q w tr =
    (s.onThread t fun y => { y with run := .parked (.oneShot r (tr + 1)) {} }).after (retryAfter (tr + 1)) (.tenureRequest t r q w) := by
  simp only [State.shotRequest, hx, hy, hm, Bool.false_eq_true, if_false]

end

end

end

/-- Settles O48: each clause is one path through the branches of its step; a publish that a thread waits with goes on by
`State.publishRequest`, a one-shot access by `State.shotRequest`. -/
theorem versionAndTenureEvents : Obligations.VersionAndTenureEvents := by
  constructor
  · intro s
    exact ⟨
      -- a publish: of another module, of a dispatcher, of a thread by what the home answers
      fun n v t hm => if_pos hm, fun n v t hm hl => (if_neg hm).trans (if_pos hl),
      fun n v t rd tr f hm hl hp hx => (versionPublishRequest_thread hm hl hp).trans (congrArg _ (publishRequest_noName hx)),
      fun n v t rd tr f x hm hl hp hx hd => (versionPublishRequest_thread hm hl hp).trans (congrArg _ (publishRequest_stale hx hd)),
      fun n v t rd tr f x hm hl hp hx hd he =>
        (versionPublishRequest_thread hm hl hp).trans (congrArg _ (publishRequest_exists hx hd he)),
      fun n v t rd tr f x u hm hl hp hx hd he ha =>
        (versionPublishRequest_thread hm hl hp).trans (congrArg _ (publishRequest_accepted hx hd he ha)),
      fun n v t rd tr f x hm hl hp hx hd he ha hw =>
        (versionPublishRequest_thread hm hl hp).trans (congrArg _ (publishRequest_listed hx hd he ha hw)),
      fun n v t rd tr f x hm hl hp hx hd he ha hw =>
        (versionPublishRequest_thread hm hl hp).trans (congrArg _ (publishRequest_retried hx hd he ha hw)),
      -- its data written, of a version that is there and of none
      fun n v t y hy h1 h2 h3 => by
        rw [exec_versionPublishComplete, execVersionPublishComplete, hy]
        exact if_pos ⟨h1, h2, h3⟩,
      fun n v t hy => by rw [exec_versionPublishComplete, execVersionPublishComplete, hy],
      -- a wait: no name, stale, retired, live, absent, being published, at another module's home, of a gate
      fun n v t k tr til f ht hp hx => versionWaitRegister_noName ht hp hx,
      fun n v t k tr til f x ht hp hx hl => versionWaitRegister_stale ht hp hx hl,
      fun n v t k tr til f x ht hp hx hl hv => versionWaitRegister_retired ht hp hx hl hv,
      fun n v t k tr til f x ht hp hx hl hv => versionWaitRegister_live ht hp hx hl hv,
      fun n v t k tr til f x ht hp hx hl hv => versionWaitRegister_awaited ht hp hx hl (by simp [hv]) (by simp [hv]),
      fun n v t k tr til f x ht hp hx hl hv => versionWaitRegister_awaited ht hp hx hl (by simp [hv]) (by simp [hv]),
      fun n v t q tr til f ht hp => versionWaitRegister_remote ht hp,
      fun t l g n v ht hl hp hg => versionWaitRegister_gate ht hl hp hg,
      -- its bound: passed, served before, and at another module's home
      fun t n v tr til k f hp hw => waitBound_passes hp hw, fun t n v tr til k f hp hw => waitBound_served hp hw,
      fun t q st tr til f hp hw => remoteWaitBound_open hp hw, fun t q st tr til f hp hw hs => remoteWaitBound_refused hp hw hs,
      fun t q st tr til f hp hw hs => remoteWaitBound_cancels hp hw hs⟩
  · intro s
    exact ⟨
      -- a tenure request: no region, recorded, stale, no record free, queued, granted
      fun t r q w n tr f e hp he hn hx => tenureRequest_noRegion hp he hn hx,
      fun t r q w n tr f e x hp he hn hx hy => tenureRequest_recorded hp he hn hx hy,
      fun t r q w n tr f e x hp he hn hx hy hl => tenureRequest_stale hp he hn hx hy hl,
      fun t r q w n tr f e x hp he hn hx hy hl hm => tenureRequest_noRecord hp he hn hx hy hl hm,
      fun t r q w n tr f e x hp he hn hx hy hl hm hg => tenureRequest_queued hp he hn hx hy hl hm hg,
      fun t r q w n tr f e x hp he hn hx hy hl hm hg => tenureRequest_granted hp he hn hx hy hl hm hg,
      -- a release, with the tenure and without
      fun t r q e he => by rw [exec_tenureRelease, execTenureRelease, he],
      fun t r q he => by rw [exec_tenureRelease, execTenureRelease, he],
      -- a one-shot request tried again: no region, listed, joining, no record free
      fun t r q w tr f hp hx => (tenureRequest_shot hp).trans (congrArg _ (shotRequest_noRegion hx)),
      fun t r q w tr f x hp hx hy => (tenureRequest_shot hp).trans (congrArg _ (shotRequest_listed hx hy)),
      fun t r q w tr f x hp hx hy hm => (tenureRequest_shot hp).trans (congrArg _ (shotRequest_joins hx hy hm)),
      fun t r q w tr f x hp hx hy hm => (tenureRequest_shot hp).trans (congrArg _ (shotRequest_retried hx hy hm)),
      -- a one-shot access: listed, joining
      fun t r q w tr f x hp hx hy => oneShotAccess_listed hp hx hy, fun t r q w tr f x hp hx hy => oneShotAccess_joins hp hx hy⟩

end Sys2Proof.Machine
end

section
/-!
Traps of instructions and of their fetch, and the return from one (R233, R235, R236, R283, R313, R316).
-/
namespace Sys2Proof.Machine
open Sys2Proof Sys2Proof.Safety

/-! ## The return (R236, R316) -/

/-- A tagged `TRAPPC` is returned to: SYS is taken from PSYS, and INTRAP ends. -/
theorem trapReturn_tagged {m : M} (h : m.thr.trappc.tag = true) : m.trapReturn =
    .ok { m with npc := some m.thr.trappc, thr := { m.thr with status := ((m.thr.status >>> 1) &&& 1) ||| (m.thr.status &&& 2) } } :=
  if_neg (by simp [h])

/-! ## Traps of the fetch (R233, R235, R236, R283) -/

section
variable {s : State} {m : M} (hm : s.selected s.cur.1 s.cur.2 = some m) (hr : m.thr.run = .ready) (hs : m.core.stopping = false)
include hm hr hs

/-- The selected thread, which may issue, takes the trap of its fetch with the word that was fetched. -/
theorem fetchTrap_ready (w : M → W32) (cause : BitVec 8) (val : W64) :
    fetchTrap s w cause val = .next (({ m with ins := w m } : M).takeTrap cause val).flush := by
  rw [fetchTrap, hm]
  exact if_pos ⟨hr, by simp [hs]⟩

theorem instructionFetchFault_traps (f : FetchFault) :
    exec (.instructionFetchFault f) s = .next (({ m with ins := 0 } : M).takeTrap f.cause f.value).flush :=
  fetchTrap_ready hm hr hs _ _ _

section
variable {m1 : M} {w : W32} (hf : m.fetchWords m.thr.pc.cursor.toNat 1 = .ok (m1, [w]))
include hf

theorem reservedField_traps (pos : Nat) : exec (.unallocatedEncoding (.reserved pos)) s =
    .next (({ m with ins := w } : M).takeTrap causeReserved (BitVec.ofNat 64 pos)).flush := by
  refine (fetchTrap_ready hm hr hs _ _ _).trans ?_
  rw [hf]
  rfl

theorem illegalEncoding_traps : exec (.unallocatedEncoding .illegal) s =
    .next (({ m with ins := w } : M).takeTrap causeIllegal 0).flush := by
  refine (fetchTrap_ready hm hr hs _ _ _).trans ?_
  rw [hf]
  rfl

end

end

/-- Settles O11: the trap instructions stop with their traps, `eret` is `trapReturn`, and a fault before the effect is `fetchTrap`. -/
theorem trapsAndReturn : Obligations.TrapsAndReturn := fun s _ =>
  ⟨fun imm h => (exec_brk imm s).trans (runInstr_traps h rfl),
    fun imm h => (exec_trap imm s).trans (runInstr_traps h rfl),
    fun h ht => (exec_eret s).trans (runInstr_completes h (trapReturn_tagged ht)),
    fun _ pos _ _ hm hr hs hf => ⟨reservedField_traps hm hr hs hf pos, illegalEncoding_traps hm hr hs hf⟩,
    fun _ f hm hr hs => instructionFetchFault_traps hm hr hs f⟩

end Sys2Proof.Machine
end

section
/-!
Pair words: the scalar slot under its guard, then the vector slot (R237, R278, R279).
-/
namespace Sys2Proof.Machine
open Sys2Proof Sys2Proof.Safety

section
variable {m r : M} {p : PairSlot} {v : Instr} (hr : r = { m with snap := some (m.thr, m.core.w) })
include hr

/-- The guard is on: the vector slot, which would pass on the state before the word, runs on what the scalar slot leaves. -/
theorem opPairWord_on {m1 m2 m3 : M} (hg : guardOn r p = true) (h1 : scalarSlotOp p r = .ok m1)
    (h2 : vecSlotOp { gk := p.gk, gp := p.gp } v r = .ok m2) (h3 : vecSlotOp { gk := p.gk, gp := p.gp } v m1 = .ok m3) :
    opPairWord p v m = .ok m3 := by
  subst hr
  simp only [opPairWord, hg, if_true, h1, h2, h3, bind, Except.bind]

/-- The guard is off: the vector slot alone. -/
theorem opPairWord_off {m1 : M} (hg : guardOn r p = false) (h1 : vecSlotOp { gk := p.gk, gp := p.gp } v r = .ok m1) :
    opPairWord p v m = .ok m1 := by
  subst hr
  simp only [opPairWord, hg, Bool.false_eq_true, if_false, h1, bind, Except.bind, pure, Except.pure]

end

/-- A pair word whose scalar slot runs and comes to `m1`, beside a vector addition, which never traps: the addition is done on `m1`. -/
theorem pairVadd_completes {s : State} {m r m1 : M} {p : PairSlot} {t : BitVec 3} {d a b : F6}
    (hr : r = { m with snap := some (m.thr, m.core.w) }) (hg : guardOn r p = true) (h1 : scalarSlotOp p r = .ok m1)
    (h : Issues (.pairWord p (.vadd t d a b)) s m) :
    Completes (.pairWord p (.vadd t d a b)) s m
      (m1.vout d (laneArith 0 (m1.vin ({ gk := p.gk, gp := p.gp } : VForm) (tyOf t {}) d a b))) :=
  (exec_pairWord ..).trans (runInstr_completes h (opPairWord_on hr hg h1 rfl rfl))

/-- Settles O32: the effect of the word is `opPairWord` with the guard on or off. -/
theorem pairWordResults : Obligations.PairWordResults := by
  intro s m
  refine ⟨fun p v m1 m2 m3 hg h1 h2 h3 h => (exec_pairWord p v s).trans (runInstr_completes h (opPairWord_on rfl hg h1 h2 h3)),
    fun p v m1 hg h1 h => (exec_pairWord p v s).trans (runInstr_completes h (opPairWord_off rfl hg h1)), ?_, ?_, ?_, ?_, ?_⟩
  -- the scalar slot's code (R279) names the addition, the subtraction, and the three logic operations
  all_goals
    intro p t d a b r hr hg hop h
    refine pairVadd_completes hr hg ?_ h
    rw [scalarSlotOp, hop]
    rfl

end Sys2Proof.Machine
end

section
/-!
Lost state and retired frames (R62, R246, R249, R250).
-/
namespace Sys2Proof.Machine
open Sys2Proof Sys2Proof.Safety

/-! ## A copy that is lost (R249) -/

theorem exec_dirtyLineLoss (lv : LossLevel) (q pa : Nat) (s : State) :
    exec (.dirtyLineLoss lv q pa) s = execDirtyLineLoss lv q pa s := rfl

theorem dirtyLineLoss_absent {s : State} {lv : LossLevel} {q pa : Nat} (hx : s.lossCopy lv q pa = none) :
    exec (.dirtyLineLoss lv q pa) s = .next s := by
  rw [exec_dirtyLineLoss, execDirtyLineLoss, hx]

section
variable {s : State} {lv : LossLevel} {q pa : Nat} {x : LossCopy} (hx : s.lossCopy lv q pa = some x)
include hx

theorem dirtyLineLoss_clean (hd : x.dirty = false) : exec (.dirtyLineLoss lv q pa) s = .next (s.cleanLoss lv q pa x) := by
  rw [exec_dirtyLineLoss, execDirtyLineLoss, hx]
  exact if_pos (by simp [hd])

section
variable (hd : x.dirty = true)
include hd

theorem dirtyLineLoss_owned {k : BitVec 6} (ho : x.owner = some k) :
    exec (.dirtyLineLoss lv q pa) s = .next (s.ownedLoss lv q pa x k) := by
  rw [exec_dirtyLineLoss, execDirtyLineLoss, hx]
  refine (if_neg (by simp [hd])).trans ?_
  rw [ho]

theorem dirtyLineLoss_unowned (ho : x.owner = none) : exec (.dirtyLineLoss lv q pa) s =
    .next (((s.loseCopy lv q pa true).fault (lossDie lv q pa) 0x70 (lossCode lv) 0 (pa / 64 * 64)
      (1 + (if movable s pa then 64 else 128) + lossStation s lv q pa * 2 ^ 16) x.place).post (.frameRetirement pa)) := by
  rw [exec_dirtyLineLoss, execDirtyLineLoss, hx]
  refine (if_neg (by simp [hd])).trans ?_
  rw [ho]

end

end

/-- The record of an owned loss tells whether the page is retired with it. -/
theorem ownedLoss_retires {s u : State} {lv : LossLevel} {q pa : Nat} {x : LossCopy} {k : BitVec 6} {r : Bool}
    (h : ((((s.loseCopy lv q pa true).quarantine (lossDie lv q pa) (lossCode lv, x.unit, x.place)).terminateCtx
      (lossDie lv q pa) k).clearCtx k).retirePage pa = (u, r)) :
    s.ownedLoss lv q pa x k = u.fault (lossDie lv q pa) 0x70 (lossCode lv) k.toNat (pa / 64 * 64)
      (1 + 8 + (if r then 16 else 0) + 32 + lossStation u lv q pa * 2 ^ 16) x.place := by
  simp only [State.ownedLoss, h]

/-! ## The retirement of a frame (R62, R250) -/

theorem exec_frameRetirement (pa : Nat) (s : State) : exec (.frameRetirement pa) s = execFrameRetirement pa s := rfl

section
variable {s : State} {pa d : Nat} {m : Motion} (hm : s.motionWith pa = some (d, m))
include hm

section
variable (hp : m.phase = .prep ∨ m.phase = .copy)
include hp

/-- A frame that a motion reads: its error aborts the motion, and the retirement is tried again. -/
theorem frameRetirement_source (hs : m.src / 2 ^ 16 = pa / 2 ^ 16) : exec (.frameRetirement pa) s =
    .next ((if s.ueMem.any fun b => decide (b / 1024 = pa / 2 ^ 16) then s.motionAbort d m.src 0 else s).after (us 1)
      (.frameRetirement pa)) := by
  rw [exec_frameRetirement, execFrameRetirement, hm]
  exact (if_pos hp).trans (if_pos hs)

/-- A frame that a motion writes: the motion is aborted, and the frame is retired. -/
theorem frameRetirement_destination (hs : ¬ m.src / 2 ^ 16 = pa / 2 ^ 16) : exec (.frameRetirement pa) s =
    .next ((s.motionAbort d m.src (if s.ueMem.any fun b => decide (b / 1024 = pa / 2 ^ 16) then 1 else 2)).listRetired pa) := by
  rw [exec_frameRetirement, execFrameRetirement, hm]
  exact (if_pos hp).trans (if_neg hs)

end

/-- A motion past its copy is not disturbed. -/
theorem frameRetirement_committing (hp : ¬ (m.phase = .prep ∨ m.phase = .copy)) :
    exec (.frameRetirement pa) s = .next (s.after (us 1) (.frameRetirement pa)) := by
  rw [exec_frameRetirement, execFrameRetirement, hm]
  exact if_neg hp

end

/-- The leaf entry that the frame table gives for a frame. -/
def frameLeaf (s : State) (pa : Nat) : Nat := frameWord s pa / 16 % 2 ^ 48 * 16

/-- What keeps a frame from retirement: its tier, its page, or that it is retired already. -/
def FrameStays (s : State) (pa : Nat) : Prop :=
  tierOf pa = 2 ∨ !movable s pa ∨ leafType (s.leafWord (frameLeaf s pa)) ≠ 2 ∨ (s.die (homeDie pa)).retired.contains (pa / 2 ^ 16)

/-- The state in which the frame's page moves to the first free frame of its tier and die, if there is one. -/
def State.moveOut (s : State) (pa : Nat) : Option State :=
  ((s.die (homeDie pa)).free (tierOf pa)).head?.bind fun f => s.openMotion (frameLeaf s pa) f true

section
variable {s : State} {pa : Nat} (hm : s.motionWith pa = none)
include hm

theorem frameRetirement_stays (hi : FrameStays s pa) : exec (.frameRetirement pa) s = .next s := by
  rw [exec_frameRetirement, execFrameRetirement, hm]
  exact if_pos hi

section
variable (hi : ¬ FrameStays s pa)
include hi

theorem frameRetirement_moves {t : State} (ht : s.moveOut pa = some t) :
    exec (.frameRetirement pa) s = .next (t.listRetired pa) := by
  rw [State.moveOut, frameLeaf] at ht
  rw [exec_frameRetirement, execFrameRetirement, hm]
  refine (if_neg hi).trans ?_
  rw [ht]

theorem frameRetirement_noFrame (ht : s.moveOut pa = none) :
    exec (.frameRetirement pa) s = .next (s.after (us 1000) (.frameRetirement pa)) := by
  rw [State.moveOut, frameLeaf] at ht
  rw [exec_frameRetirement, execFrameRetirement, hm]
  refine (if_neg hi).trans ?_
  rw [ht]

end

end

/-- Settles O36: a lost copy by whether it is current and owned, a retirement by the motion of the frame or what its page allows. -/
theorem lossAndRetirementEvents : Obligations.LossAndRetirementEvents := fun _ =>
  ⟨-- a copy: none, clean, current with an owner, current without
    fun _ _ _ hx => dirtyLineLoss_absent hx, fun _ _ _ _ hx hd => dirtyLineLoss_clean hx hd,
    fun _ _ _ _ _ _ _ hx hd ho hu => (dirtyLineLoss_owned hx hd ho).trans (congrArg _ (ownedLoss_retires hu)),
    fun _ _ _ _ hx hd ho => dirtyLineLoss_unowned hx hd ho,
    -- Zenith's state
    fun _ => rfl,
    -- a frame that a motion reads, that one writes, and past the copy
    fun _ _ _ hm hp hs => frameRetirement_source hm hp hs, fun _ _ _ hm hp hs => frameRetirement_destination hm hp hs,
    fun _ _ _ hm hp => frameRetirement_committing hm hp,
    -- no motion: the frame stays, its page moves, no frame is free
    fun _ hm hi => frameRetirement_stays hm hi, fun _ _ hm hi ht => frameRetirement_moves hm hi ht,
    fun _ hm hi ht => frameRetirement_noFrame hm hi ht⟩

end Sys2Proof.Machine
end

section
/-!
Decoding undoes encoding (R272–R283, R286): `candidate` reads a well-formed instruction back from its words, format by format, and the
decoder's checks of a candidate are those that well-formedness asks for.
-/
namespace Sys2Proof.Laws.Codec
open Sys2Proof Sys2Proof.Laws

/-! ## What a well-formed instruction meets -/

/-- The opcode map names every instruction by its own fields: `Laws/PerInstr.lean` has the lemma of each row, in the order of the rows. -/
theorem names_itself (i : Instr) : Statement i :=
  i.casesOn (motive := Statement)
    powerGood bringupStepComplete bringupTimeout discoveryAnswer discoveryTimeout standbyPowerUp moduleReset harvySetPlim
    harvySetModid harvyStageFirmware harvyAttest attestationReport powerSample powerIntervalEnd dieThermalReport hbmThermalReport
    mstatThermClear registerWrite memoryPortAccess scrubVisit cachePortAccess driftHalvingVisit motionStart motionFlushAck
    granuleCopyAck granuleCopyTimeout motionAccess motionShootdownAck quadShootdown motionTimeLimit cxlDynamicCapacityRelease
    flitReceive linkRetrainTimeout dieLinkModuleFailure cirrusLaneFailure cirrusPortStateChange rldRequest rstRequest ramoRequest
    rcasRequest rcallRequest rgetRequest rputRequest probeRequest launchWindowRequest dataReply doneReply parkedReply ticketReply
    errorReply busyReply busyBackoffExpiry replayNotice varriveNotice rnoteNotice fewakeNotice retransmitTimeout finalTimeout
    probeTimer ticketLimitTimeout flowIdleTimeout replyCacheExpiry regionTableUpdate callStart topologyProbe topologyAnswer
    topologyDiscoveryTimeout lullStart lullMarker lullEnd bar2PlainRead bar2PlainWrite bar2ArmRead bar2ArmWrite bar2ClearRead
    bar2ClearWrite dieWindowAccess bar0UnmappedAccess msixUnmask hostPortDown herrRead mailboxOpen mailboxChunk mailboxCommit
    mailboxAbort mailboxAttest mailboxInvalidOp mailboxCommandComplete mbstatRead accessTableWrite launchSlotTake gateSatisfied
    dispatchCoreFree bindRequest preemption teamSave teamRestore teamExit teamCompletionRelease launchTermination rowRetentionEntry
    sleepExpiry yieldExpiry queueEntryArrival meshBindRequest l2Access l2PoolWrite l2NpartWrite l2BusyComplete engineCommandStart
    engineCommandComplete logRangeTimeout versionPublishRequest versionPublishComplete versionWaitRegister versionWaitBoundExpiry
    tenureRequest tenureRelease oneShotAccess serviceRequest fsdoneResolve fsdoneRefuse fqheadWrite coreSeal dirtyLineLoss
    frameRetirement matrixCommandStart matrixKstepComplete remoteMatrixCommand pairWord widenedForm literalForm add sub and or xor
    andn orn sll srl sra rol min max minu maxu mul mulh mulhu div divu rem remu addc subb clz ctz popc sext zext addi andi ori xori
    slli srli srai roli ceq cne clt cge cltu cgeu ctst bfx bfxs bfi bfclr mov sel kand kor kxor knot kmovc kmovk kpop kfirst cbnd
    cbndx cprm cadd cset cbase clen cperm ctype ctag cclr cseal capCeq csub mvi adr ld lds st ldfeAny ldfeWf ldfeWfe ldfeSt stfeSf
    stfeWef stfeSe stfeKeep amoAdd amoAnd amoOr amoXor amoMin amoMax amoMinu amoSwap fence cwb cinv cwbinv cpre bk bra bz bnz bltz
    bgez blez bgtz jmp call jr jalr ret ccall loop yield halt bar wfe nop sleep brk trap eret mfs mts tlbinv vadd vsub vmul vmin vmax
    vabs vneg vabd vfma vfms vfnma vfnms vdot4 vdot2 vmulh vsad vand vor vxor vandn vsll vsrl vsra vnot vceq vcne vclt vcle vcgt vcge
    vcltu vcun vcvt vcvtSat vqn4p vqn4u vwid vwidh vnar vrint vbc vshf vrot vext vins vzip vuzp vcpr vradd vrmax vrmin vrand vror
    vrxor vscan vrsum vrcp vrsqrt vsqrt vdiv vexp2 vlog2 vtanh vsigm vld vst vsacc vxpk vxacc vxfin vbsc vmov vzero vfill vkmov vwbc
    tref tdrop tinfo tchk tdropAll qbind qunb qstat qpeek vrowSet vrowGet logon logoff logmark mmul mmult mgrp mq4 msacc mzero mldz
    mstz mrd mwr mrec mcmd mcmdGrant mwait tnew tfree tvst tvld tvldc tvw tdecl tten trel tsplit tmerge thalo cas casq ldacq strel cp
    cp2d cpf cpg cps cpq rld rst ramo rcas rcall rnote rfence rget rput rkreg rkrev mighint pgpin pgret logring keyset coreseal launch
    tspawn lwait prio resetRelease lossOfMainRails linkRetrained zenithStateLost queueCreditReturn unallocatedEncoding
    instructionFetchFault

theorem wellFormed_iff (i : Instr) :
    wellFormed i = true ↔ i.hasWords = true ∧ illegal i = false ∧ canon i = i ∧ scMissing i = none := by
  simp [wellFormed, and_assoc]

/-- Of a well-formed instruction only its candidate is left to show: the decoder's checks pass. -/
theorem decodeWords_encode_of_candidate {i : Instr} (h : wellFormed i = true) (hc : candidate (encode i) = some i) :
    decodeWords (encode i) = .ok i := by
  obtain ⟨-, hill, hcanon, hsc⟩ := (wellFormed_iff i).1 h
  simp [decodeWords, hc, hill, hcanon, hsc, firstDiff_self, minPos]

/-! ## Base and pair words (R273, R274, R278) -/

section
variable {i : Instr} {f : BaseFmt} {w : Option Ext} (hb : baseFmt i = some f) (hl : baseIllegal w i = false)
include hb hl

theorem encode_base : encode i = [f.word] := ((names_itself i).1 f w hb hl).1

theorem fmtOf_base : (fmtOf f.word).bind ofFmt = some i := by
  obtain ⟨-, hf, ho, -⟩ := (names_itself i).1 f w hb hl
  rw [hf]
  exact ho

end

theorem candidate_base {i : Instr} {f : BaseFmt} (hb : baseFmt i = some f) (hill : illegal i = false) :
    candidate (encode i) = some i := by
  obtain ⟨-, hlegal, -⟩ := names_itself i
  have hl := hlegal f hb hill
  rw [encode_base hb hl]
  exact fmtOf_base hb hl

theorem candidate_pairWord {p : PairSlot} {v : Instr} (hw : (Instr.pairWord p v).hasWords = true)
    (hill : illegal (.pairWord p v) = false) : candidate (encode (.pairWord p v)) = some (.pairWord p v) := by
  obtain ⟨⟨-, hl⟩, -⟩ : (_ ∧ baseIllegal none v = false) ∧ _ := by simpa only [illegal, Bool.or_eq_false_iff] using hill
  cases hb : baseFmt v with
  | none => simp [Instr.hasWords, hb] at hw
  | some f =>
    obtain ⟨hs, hv⟩ : (sopKind p.sop).isSome = true ∧ vecSlot f.word = true := by simpa [Instr.hasWords, hb] using hw
    have hs' : (sopKind p.sop).isNone = false := by simpa using hs
    simp [encode, hb, candidate, pairSlotOf_word, hv, hs', fmtOf_base hb hl]

/-! ## Extended words (R280, R282, R354) -/

/-- The fields of an extended-only operation's words. -/
def xopFmt (op sub : F6) (o : XOp) : ExtFmt :=
  { ExtFmt.ofExt o.lit.isSome op o.x with d := o.d, a := o.a, sub := sub }

/-- The operands that extended words hold. -/
def operands (f : ExtFmt) (lit : Option W64) : XOp := ⟨f.d, f.a, f.ext, lit⟩

theorem candidate_xopWords (op sub : F6) (o : XOp) : candidate (xopWords op sub o) = extCand (xopFmt op sub o) o.lit :=
  words_cand _ _

/-- The operands stand whole in the words, but for the scale, which the words of an extended-only operation do not hold. -/
theorem operands_xopFmt {o : XOp} (hs : o.x.scale = false) (op sub : F6) : operands (xopFmt op sub o) o.lit = o := by
  obtain ⟨d, a, x, lit⟩ := o
  cases x
  cases hs
  rfl

theorem candidate_xop {i : Instr} {op sub : F6} {o : XOp} (hx : xopCode i = some (op, sub, o)) (hw : i.hasWords = true)
    (hcanon : canon i = i) : candidate (encode i) = some i := by
  obtain ⟨-, -, hxop, -⟩ := names_itself i
  obtain ⟨he, hop, hs, ho⟩ := hxop op sub o hx hw hcanon
  have h24 : op ≠ 0x24 := by
    rintro rfl
    exact absurd hop (by decide)
  calc candidate (encode i)
    _ = extCand (xopFmt op sub o) o.lit := by rw [he, candidate_xopWords]
    _ = ofXop op sub (operands (xopFmt op sub o) o.lit) :=
      (if_neg fun h => h24 h.1).trans <| (if_neg fun h => h24 h.1).trans <| if_pos hop
    _ = some i := by rw [operands_xopFmt hs, ho]

/-- F3 and T in the SUB of a widened vector word. -/
theorem sub_f3 (f3 t : BitVec 3) : (f3 ++ t).extractLsb' 3 3 = f3 := by
  revert f3 t
  decide
theorem sub_t (f3 t : BitVec 3) : (f3 ++ t).extractLsb' 0 3 = t := by
  revert f3 t
  decide

theorem candidate_vqn4p {t : BitVec 3} {o : XOp} (hcanon : canon (.vqn4p t o) = .vqn4p t o) :
    candidate (encode (.vqn4p t o)) = some (.vqn4p t o) := by
  have hs : o.x.scale = false := keep_scale (congrArg XOp.x (Instr.vqn4p.inj hcanon).2) rfl
  calc candidate (encode (.vqn4p t o))
    _ = extCand (xopFmt 0x24 ((2 : BitVec 3) ++ t) o) o.lit := candidate_xopWords ..
    _ = some (.vqn4p (((2 : BitVec 3) ++ t).extractLsb' 0 3) (operands (xopFmt 0x24 ((2 : BitVec 3) ++ t) o) o.lit)) := if_pos ⟨rfl, sub_f3 2 t⟩
    _ = some (.vqn4p t o) := by rw [sub_t, operands_xopFmt hs]

theorem candidate_vqn4u {t : BitVec 3} {o : XOp} (hcanon : canon (.vqn4u t o) = .vqn4u t o) :
    candidate (encode (.vqn4u t o)) = some (.vqn4u t o) := by
  have hs : o.x.scale = false := keep_scale (congrArg XOp.x (Instr.vqn4u.inj hcanon).2) rfl
  calc candidate (encode (.vqn4u t o))
    _ = extCand (xopFmt 0x24 ((3 : BitVec 3) ++ t) o) o.lit := candidate_xopWords ..
    _ = some (.vqn4u (((3 : BitVec 3) ++ t).extractLsb' 0 3) (operands (xopFmt 0x24 ((3 : BitVec 3) ++ t) o) o.lit)) := by
      have h2 : ((3 : BitVec 3) ++ t).extractLsb' 3 3 ≠ 2 := by
        rw [sub_f3]
        decide
      exact (if_neg fun h => h2 h.2).trans (if_pos ⟨rfl, sub_f3 3 t⟩)
    _ = some (.vqn4u t o) := by rw [sub_t, operands_xopFmt hs]

/-! ## Widened and literal forms (R276, R282) -/

section
variable {x : Ext} {b : Instr} {f : BaseFmt} {lit : Bool} (hb : baseFmt b = some f) (hl : baseIllegal (some x) b = false)
  (hk : x.keep (baseKeep x lit b) = x) (hc : canonInner x b = b)
include hb hl hk hc

/-- The words of a form hold its own fields and its inner instruction; no widened base word is an extended-only one. -/
theorem extCand_widenedFmt (l : Option W64) : extCand (widenedFmt lit x f) l =
    some (l.elim (.widenedForm x b) (.literalForm x · b)) := by
  obtain ⟨-, hf, ho, hw⟩ := (names_itself b).1 f _ hb hl
  obtain ⟨hp, hu, hx⟩ := base_major f b hf ho lit x
  simp only [extCand, if_neg hp, if_neg hu, if_neg hx, hw x lit hk hc]
  cases l <;> rfl

end

theorem candidate_widenedForm {x : Ext} {b : Instr} (hw : (Instr.widenedForm x b).hasWords = true)
    (hill : illegal (.widenedForm x b) = false) (hcanon : canon (.widenedForm x b) = .widenedForm x b) :
    candidate (encode (.widenedForm x b)) = some (.widenedForm x b) := by
  obtain ⟨f, hb⟩ := Option.isSome_iff_exists.1 hw
  obtain ⟨-, hl⟩ := Bool.or_eq_false_iff.1 hill
  obtain ⟨hk, hc⟩ := Instr.widenedForm.inj hcanon
  calc candidate (encode (.widenedForm x b))
    _ = candidate (withLit (widenedFmt false x f).words none) := by simp only [encode, hb, withLit]
    _ = some (.widenedForm x b) := by rw [words_cand, extCand_widenedFmt hb hl hk hc]; rfl

theorem candidate_literalForm {x : Ext} {l : W64} {b : Instr} (hw : (Instr.literalForm x l b).hasWords = true)
    (hill : illegal (.literalForm x l b) = false) (hcanon : canon (.literalForm x l b) = .literalForm x l b) :
    candidate (encode (.literalForm x l b)) = some (.literalForm x l b) := by
  obtain ⟨f, hb⟩ := Option.isSome_iff_exists.1 hw
  obtain ⟨hl, -⟩ := Bool.or_eq_false_iff.1 hill
  obtain ⟨hk, -, hc⟩ := Instr.literalForm.inj hcanon
  calc candidate (encode (.literalForm x l b))
    _ = candidate (withLit (widenedFmt true x f).words (some l)) := by simp only [encode, hb]
    _ = some (.literalForm x l b) := by rw [words_cand, extCand_widenedFmt hb (Bool.or_eq_false_iff.1 hl).2 hk hc]; rfl

/-! ## Every format -/

theorem candidate_encode {i : Instr} (h : wellFormed i = true) : candidate (encode i) = some i := by
  obtain ⟨hw, hill, hcanon, -⟩ := (wellFormed_iff i).1 h
  obtain ⟨-, -, -, hkind⟩ := names_itself i
  rcases hkind hw with hb | hx | hf
  · obtain ⟨f, hb⟩ := Option.isSome_iff_exists.1 hb
    exact candidate_base hb hill
  · obtain ⟨⟨op, sub, o⟩, hx⟩ := Option.isSome_iff_exists.1 hx
    exact candidate_xop hx hw hcanon
  · unfold isForm at hf
    split at hf
    · exact candidate_pairWord hw hill
    · exact candidate_widenedForm hw hill hcanon
    · exact candidate_literalForm hw hill hcanon
    · exact candidate_vqn4p hcanon
    · exact candidate_vqn4u hcanon
    · exact absurd hf Bool.false_ne_true

end Sys2Proof.Laws.Codec

namespace Sys2Proof.Encoding
open Sys2Proof Sys2Proof.Laws.Codec

/-- Settles O52: the candidate of the words is the instruction (`candidate_encode`), and well-formedness is the decoder's checks of it. -/
theorem encodeDecode : Obligations.EncodeDecode := fun _ h => decodeWords_encode_of_candidate h (candidate_encode h)

/-- Settles O51: closed words, on which the decoder is run. -/
theorem decodeWords : Obligations.DecodeWords := by
  unfold Obligations.DecodeWords
  decide +kernel

end Sys2Proof.Encoding
end

section
/-!
The integer, constant, mask and compare instructions (R296–R305).
-/
namespace Sys2Proof.Machine
open Sys2Proof Sys2Proof.Safety

/-- An instruction that issues completes with what its effect answers. -/
theorem completes_of_effect {i : Instr} {body : Act} {s : State} {m m' : M} (he : exec i s = runInstr i body s)
    (hb : body m = .ok m') (h : Issues i s m) : Completes i s m m' :=
  he.trans (runInstr_completes h hb)

section
variable {i : Instr} {body : Act} {s : State} {m : M} {v w : W64} (he : exec i s = runInstr i body s)
include he

/-- An instruction whose effect is an integer result, in the rule's own terms for its value. -/
theorem completes_wrInt {d : F6} (hb : body m = .ok (m.wrInt d v)) (hv : v = w) (h : Issues i s m) : Completes i s m (m.wrInt d w) :=
  completes_of_effect he (hv ▸ hb) h

/-- An instruction whose effect is a new value of a mask register, in the rule's own terms for it. -/
theorem completes_setMask {k : BitVec 3} (hb : body m = .ok (m.setMask k v)) (hv : v = w) (h : Issues i s m) :
    Completes i s m (m.setMask k w) :=
  completes_of_effect he (hv ▸ hb) h

end

/-! ## The functions of two words (R297–R299) -/

theorem minS_eq (x y : W64) : (if x.toInt ≤ y.toInt then x else y) = if x.slt y then x else y := by
  simp only [BitVec.slt_iff_toInt_lt]
  rcases lt_trichotomy x.toInt y.toInt with h | h | h
  · rw [if_pos h.le, if_pos h]
  · rw [BitVec.toInt_inj.mp h, ite_self, ite_self]
  · rw [if_neg (by omega), if_neg (by omega)]

theorem maxS_eq (x y : W64) : (if x.toInt ≤ y.toInt then y else x) = if x.slt y then y else x := by
  simp only [BitVec.slt_iff_toInt_lt]
  rcases lt_trichotomy x.toInt y.toInt with h | h | h
  · rw [if_pos h.le, if_pos h]
  · rw [BitVec.toInt_inj.mp h, ite_self, ite_self]
  · rw [if_neg (by omega), if_neg (by omega)]

theorem minU_eq (x y : W64) : (if x.toNat ≤ y.toNat then x else y) = if x.ult y then x else y := by
  simp only [BitVec.ult_iff_toNat_lt]
  rcases lt_trichotomy x.toNat y.toNat with h | h | h
  · rw [if_pos h.le, if_pos h]
  · rw [BitVec.toNat_inj.mp h, ite_self, ite_self]
  · rw [if_neg (by omega), if_neg (by omega)]

theorem maxU_eq (x y : W64) : (if x.toNat ≤ y.toNat then y else x) = if x.ult y then y else x := by
  simp only [BitVec.ult_iff_toNat_lt]
  rcases lt_trichotomy x.toNat y.toNat with h | h | h
  · rw [if_pos h.le, if_pos h]
  · rw [BitVec.toNat_inj.mp h, ite_self, ite_self]
  · rw [if_neg (by omega), if_neg (by omega)]

/-- No bit is set in zero, whose count of zero bits is the word's width. -/
theorem ctzW_zero : ctzW 0 = 64 := by
  have h : (List.range 64).find? (fun i => (0 : W64).getLsbD i) = none := List.find?_eq_none.mpr (by simp)
  rw [ctzW, h, Option.getD_none]

theorem divS_eq (x y : W64) : divS x y =
    if y = 0 then -1 else if x = BitVec.intMin 64 ∧ y = -1 then BitVec.intMin 64 else x.sdiv y := by
  have h : BitVec.ofInt 64 (x.toInt.tdiv y.toInt) = x.sdiv y :=
    BitVec.eq_of_toInt_eq (by rw [BitVec.toInt_ofInt, BitVec.toInt_sdiv])
  rw [divS, h]

theorem remS_eq (x y : W64) : remS x y =
    if y = 0 then x else if x = BitVec.intMin 64 ∧ y = -1 then 0 else x.srem y := by
  rw [remS, ← BitVec.toInt_srem, BitVec.ofInt_toInt]

theorem divU_eq (x y : W64) : divU x y = if y = 0 then -1 else x / y := by
  rw [divU, BitVec.udiv_def]

theorem remU_eq (x y : W64) : remU x y = if y = 0 then x else x % y := by
  rw [remU, ← BitVec.toNat_umod, BitVec.ofNat_toNat, BitVec.setWidth_eq]

/-- The carry out of a sum of two words and a carry-in. -/
theorem carryOut_eq (x y : W64) {c : Nat} (hc : c < 2) :
    BitVec.ofNat 64 ((x.toNat + y.toNat + c) / 2 ^ 64) = if 2 ^ 64 ≤ x.toNat + y.toNat + c then 1 else 0 := by
  have hx := x.isLt
  have hy := y.isLt
  split
  · rw [show (x.toNat + y.toNat + c) / 2 ^ 64 = 1 by omega]
    rfl
  · rw [Nat.div_eq_of_lt (by omega)]
    rfl

theorem boolW_decide (p : Prop) [Decidable p] : boolW (decide p) = if p then 1 else 0 := by
  simp [boolW]

/-- Settles O1: each effect is one integer result, which the laws of the word functions put in the rule's terms. -/
theorem integerResults : Obligations.IntegerResults := by
  constructor
  · intro s m
    refine ⟨?_, ?_, ?_, ?_, ?_, ?_, ?_, ?_, ?_, ?_,
      fun d a b => completes_wrInt (exec_rol ..) rfl (rolW_eq _ _ (Nat.mod_lt _ (by decide))),
      fun d a b => completes_wrInt (exec_min ..) rfl (minS_eq ..), fun d a b => completes_wrInt (exec_max ..) rfl (maxS_eq ..),
      fun d a b => completes_wrInt (exec_minu ..) rfl (minU_eq ..), fun d a b => completes_wrInt (exec_maxu ..) rfl (maxU_eq ..),
      fun d a b => completes_wrInt (exec_mul ..) rfl rfl, fun d a b => completes_wrInt (exec_mulh ..) rfl (mulh_eq ..),
      fun d a b => completes_wrInt (exec_mulhu ..) rfl (mulhu_eq ..),
      fun d a => completes_wrInt (exec_popc ..) rfl (congrArg _ (popW_eq _)),
      fun d a b => completes_wrInt (exec_sext ..) rfl (sextW_eq ..), fun d a b => completes_wrInt (exec_zext ..) rfl (zextW_eq ..)⟩
    -- what remains are the operations that the rule names by themselves
    all_goals exact fun d a b => completes_of_effect rfl rfl
  · intro s m
    refine ⟨fun d a n hn h1 h2 => completes_wrInt (exec_clz ..) rfl (congrArg _ (clzW_eq _ n hn h1 h2)),
      fun d a h0 => completes_wrInt (exec_clz ..) rfl (congrArg (BitVec.ofNat 64) (if_pos h0)),
      fun d a n hn h1 h2 => completes_wrInt (exec_ctz ..) rfl (congrArg _ (ctzW_eq _ n hn h1 h2)),
      fun d a h0 => completes_wrInt (exec_ctz ..) rfl (congrArg (BitVec.ofNat 64) ((congrArg ctzW h0).trans ctzW_zero))⟩

/-- Settles O2: the quotients and remainders are the library's, but for a zero divisor and the signed overflow. -/
theorem divisionResults : Obligations.DivisionResults := by
  intro s m
  exact ⟨fun d a b => completes_wrInt (exec_div ..) rfl (divS_eq ..), fun d a b => completes_wrInt (exec_rem ..) rfl (remS_eq ..),
    fun d a b => completes_wrInt (exec_divu ..) rfl (divU_eq ..), fun d a b => completes_wrInt (exec_remu ..) rfl (remU_eq ..)⟩

/-- Settles O3: the sum's carry is its bit 64, and the borrow is the comparison. -/
theorem carryAndBorrow : Obligations.CarryAndBorrow := by
  intro s m
  exact ⟨fun d a b => completes_wrInt (exec_addc ..) rfl (carryOut_eq (c := 0) _ _ (by decide)),
    fun d a b => completes_wrInt (exec_subb ..) rfl (boolW_decide _),
    fun x d a b => completes_wrInt (exec_widenedForm ..) rfl (carryOut_eq _ _ (Nat.mod_lt _ (by decide))),
    fun x d a b => completes_wrInt (exec_widenedForm ..) rfl (boolW_decide _)⟩

/-! ## Immediates and bit fields (R300, R303) -/

section
variable {s : State} {m : M} {x : Ext} {i : Instr} {f : W64 → W64 → W64} {d a : F6} {imm : BitVec 10}

/-- A function with an immediate in a widened form takes IMM32. -/
theorem immOp_widened (he : exec (.widenedForm x i) s = runInstr (.widenedForm x i) (immOp f (some x) d a imm) s)
    (h : Issues (.widenedForm x i) s m) : Completes (.widenedForm x i) s m (m.wrInt d (f (m.int a) (x.imm.signExtend 64))) :=
  completes_wrInt he rfl (congrArg _ (M.imm_widened x _ (lit_widened h))) h

/-- A function with an immediate in a form with a literal takes the literal. -/
theorem immOp_literal {l : W64} (he : exec (.literalForm x l i) s = runInstr (.literalForm x l i) (immOp f (some x) d a imm) s)
    (h : Issues (.literalForm x l i) s m) : Completes (.literalForm x l i) s m (m.wrInt d (f (m.int a) l)) :=
  completes_wrInt he rfl (congrArg _ (M.imm_literal x _ (lit_literal h))) h

end

theorem imm_mod_lt (x : Ext) : x.imm.toNat % 64 < 64 := Nat.mod_lt _ (by decide)

/-- Settles O4: the immediate of each form, and the bit-field functions in the rule's terms. -/
theorem immediateAndBitFieldResults : Obligations.ImmediateAndBitFieldResults := by
  constructor
  · intro s m
    refine ⟨?_, fun x d a => immOp_widened rfl, fun x l d a => immOp_literal rfl,
      ?_, fun x d a => immOp_widened rfl, fun x l d a => immOp_literal rfl,
      ?_, fun x d a => immOp_widened rfl, fun x l d a => immOp_literal rfl,
      ?_, fun x d a => immOp_widened rfl, fun x l d a => immOp_literal rfl,
      ?_, ?_, ?_, ?_, ?_, ?_, fun d a n => completes_wrInt (exec_roli ..) rfl (rolW_eq _ _ n.isLt),
      fun x d a => completes_wrInt (exec_widenedForm ..) rfl (rolW_eq _ _ (imm_mod_lt x))⟩
    -- what remains are base words and shifts, whose results the rule names by themselves
    all_goals intros; exact completes_of_effect rfl rfl ‹_›
  · intro s m
    exact ⟨fun d a pos len => completes_wrInt (exec_bfx ..) rfl (bfx_eq ..), fun d a pos len => completes_wrInt (exec_bfxs ..) rfl (bfxs_eq ..),
      fun d a pos len => completes_of_effect (exec_bfi ..) rfl, fun d a pos len => completes_of_effect (exec_bfclr ..) rfl,
      fun x d a => completes_wrInt (exec_widenedForm ..) rfl (bfx_eq ..), fun x d a => completes_wrInt (exec_widenedForm ..) rfl (bfxs_eq ..),
      fun x d a => completes_of_effect (exec_widenedForm ..) rfl, fun x d a => completes_of_effect (exec_widenedForm ..) rfl⟩

/-! ## Constants, copies, masks and compares (R301, R302, R304, R305) -/

/-- Settles O5: constants by their form's immediate, the counts of a mask by the laws of the word functions. -/
theorem constantsCopiesAndMasks : Obligations.ConstantsCopiesAndMasks := by
  constructor
  · intro s m
    exact ⟨fun d imm => completes_of_effect (exec_mvi ..) rfl,
      fun x d h => completes_wrInt (exec_widenedForm ..) rfl (M.imm_widened x _ (lit_widened h)) h,
      fun x l d h => completes_wrInt (exec_literalForm ..) rfl (M.imm_literal x _ (lit_literal h)) h,
      fun d imm => completes_of_effect (exec_adr ..) rfl, fun x d => completes_of_effect (exec_widenedForm ..) rfl,
      fun d a => completes_of_effect (exec_mov ..) rfl, fun k d a b => completes_of_effect (exec_sel ..) rfl⟩
  · intro s m
    exact ⟨fun d a b => completes_of_effect (exec_kand ..) rfl, fun d a b => completes_of_effect (exec_kor ..) rfl,
      fun d a b => completes_of_effect (exec_kxor ..) rfl, fun d a => completes_of_effect (exec_knot ..) rfl,
      fun d a => completes_of_effect (exec_kmovc ..) rfl, fun d a => completes_of_effect (exec_kmovk ..) rfl,
      fun d a => completes_wrInt (exec_kpop ..) rfl (congrArg _ (popW_eq _)),
      fun d a h0 => completes_wrInt (exec_kfirst ..) rfl (congrArg (BitVec.ofNat 64) ((congrArg ctzW h0).trans ctzW_zero)),
      fun d a n hn h1 h2 => completes_wrInt (exec_kfirst ..) rfl (congrArg _ (ctzW_eq _ n hn h1 h2))⟩

/-- The value of a compare's mask register depends only on when its condition holds. -/
theorem maskOf_congr {b : Bool} {p : Prop} [Decidable p] (h : b = true ↔ p) : (if b then -1 else 0 : W64) = if p then -1 else 0 := by
  simp only [h]

/-- Settles O6: each compare's test of the words is the rule's condition. -/
theorem compareResults : Obligations.CompareResults := by
  intro s m
  exact ⟨fun d a b => completes_setMask (exec_ceq ..) rfl (maskOf_congr beq_iff_eq),
    fun d a b => completes_setMask (exec_cne ..) rfl (maskOf_congr bne_iff_ne),
    fun d a b => completes_of_effect (exec_clt ..) rfl, fun d a b => completes_of_effect (exec_cge ..) rfl,
    fun d a b => completes_of_effect (exec_cltu ..) rfl, fun d a b => completes_of_effect (exec_cgeu ..) rfl,
    fun d a b => completes_setMask (exec_ctst ..) rfl (maskOf_congr bne_iff_ne)⟩

end Sys2Proof.Machine
end

section
/-!
The capability functions (R306–R308): their results, and that none widens what its operand admits.
-/
namespace Sys2Proof.Machine
open Sys2Proof Sys2Proof.Safety

/-! ## Types and bounds (R284, R306) -/

theorem bounded_iff_mem (c : Cap) : c.bounded = true ↔ c.ty ∈ [0, 1, 4] := by
  simp [Cap.bounded, or_assoc]

/-- Decoded bounds end in the address space. -/
theorem top_le (c : Cap) : c.top ≤ 2 ^ 64 := by
  unfold Cap.top Cap.bounds
  split
  · exact le_refl _
  · split
    · exact Nat.zero_le _
    · dsimp only
      split
      · exact Nat.zero_le _
      · omega

/-- The length that `clen` gives: the whole space has no word, and gives the greatest one. -/
theorem lengthWord_eq (c : Cap) : BitVec.ofNat 64 (Nat.min (c.top - c.base) (2 ^ 64 - 1)) =
    if c.top - c.base = 2 ^ 64 then -1 else BitVec.ofNat 64 (c.top - c.base) := by
  have h := top_le c
  split
  · next he => rw [he]; rfl
  · rw [Nat.min_eq_min, Nat.min_eq_left (by omega)]

/-- A memory capability with the bit EX has the permission. -/
theorem memory_has_ex {c : Cap} (hk : c.kind = 0) (hx : c.bits.getLsbD 108 = true) : capHas c .ex = true := by
  unfold capHas
  rw [if_neg (by omega)]
  exact hx

section
variable {m : M} {ex : Bool} {d a b : F6} (ht : (m.src a).tag = true) (hk : (m.src a).kind ∈ [0, 1])
include ht hk

/-- `cbnd` and `cbndx` of a tagged memory or local capability: the new bounds where `bndTrap` tells no trap. -/
theorem setBnd_fits (hb : bndTrap (m.src a) (newBounds (m.src a) (m.int b)) (m.int b) ex = none) :
    setBnd ex d a b m = .ok (m.wr d (newBounds (m.src a) (m.int b))) := by
  simp only [setBnd, checkCap_ok ht (List.contains_iff_mem.mpr hk) List.all_nil, hb, bind, Except.bind]

theorem setBnd_traps {v : W64} (hb : bndTrap (m.src a) (newBounds (m.src a) (m.int b)) (m.int b) ex = some v) :
    setBnd ex d a b m = .error (.trap causeCapBounds v []) := by
  simp only [setBnd, checkCap_ok ht (List.contains_iff_mem.mpr hk) List.all_nil, hb, bind, Except.bind]

end

section
variable {m : M} {d a b : F6} {ts : List Nat}

theorem typeAdmitted (h : (m.src a).tag = true → (m.src a).kind ∈ ts) : typeIfTagged a (m.src a) ts = .ok () :=
  tagged_ok fun ht => List.contains_iff_mem.mpr (h ht)

theorem opCprm_admitted (h : (m.src a).tag = true → (m.src a).kind ∈ [0, 1, 2, 3, 5, 6]) :
    opCprm d a b m = .ok (m.wr d ⟨setField (m.src a).bits (permField (m.src a).ty).1 (permField (m.src a).ty).2
      ((m.src a).permBits &&& (m.int b).toNat), (m.src a).tag⟩) := by
  simp only [opCprm, typeAdmitted h, bind, Except.bind]

theorem opCadd_admitted (h : (m.src a).tag = true → (m.src a).kind ∈ [0, 1, 3, 6]) :
    opCadd d a b m = .ok (m.wr d ((m.src a).setCursor ((m.src a).cursor + m.int b))) := by
  simp only [opCadd, typeAdmitted h, bind, Except.bind]

theorem opCset_admitted (h : (m.src a).tag = true → (m.src a).kind ∈ [0, 1, 3, 6]) :
    opCset d a b m = .ok (m.wr d ((m.src a).setCursor (m.int b))) := by
  simp only [opCset, typeAdmitted h, bind, Except.bind]

theorem opCseal_admitted (ht : (m.src a).tag = true) (hk : (m.src a).kind = 0) (hx : (m.src a).bits.getLsbD 108 = true) :
    opCseal d a m = .ok (m.wr d ⟨setField (m.src a).bits 118 4 4, true⟩) := by
  have hc : checkCap a (m.src a) [0] [.ex] = .ok () := checkCap_ok ht (by simp [hk]) (by simp [memory_has_ex hk hx])
  simp only [opCseal, hc, ht, bind, Except.bind]

end

/-- Settles O7: with its checks passed, each effect is one register write. -/
theorem capabilityResults : Obligations.CapabilityResults := by
  intro s m
  refine ⟨fun d a b ht hk hb => completes_of_effect (exec_cbnd ..) (setBnd_fits ht hk hb),
    fun d a b ht hk hb => completes_of_effect (exec_cbndx ..) (setBnd_fits ht hk hb),
    fun d a b h => completes_of_effect (exec_cprm ..) (opCprm_admitted h),
    fun d a b h => completes_of_effect (exec_cadd ..) (opCadd_admitted h),
    fun d a b h => completes_of_effect (exec_cset ..) (opCset_admitted h),
    fun d a => completes_wrInt (exec_cbase ..) rfl ?_, fun d a => completes_wrInt (exec_clen ..) rfl ?_,
    fun d a => completes_of_effect (exec_cperm ..) rfl, fun d a => completes_wrInt (exec_ctype ..) rfl ?_,
    fun d a => completes_of_effect (exec_ctag ..) rfl, fun d a => completes_of_effect (exec_cclr ..) rfl,
    fun d a ht hk hx => completes_of_effect (exec_cseal ..) (opCseal_admitted ht hk hx),
    fun d a b => completes_wrInt (exec_capCeq ..) rfl ?_, fun d a b => completes_of_effect (exec_csub ..) rfl⟩
  · simp only [bounded_iff_mem]
  · simp only [bounded_iff_mem, lengthWord_eq]
  · exact BitVec.ofNat_toNat ..
  · exact boolW_decide _

/-! ## No capability function widens its operand (R306–R308) -/

/-- What comes from changing fields that hold neither the type nor the permissions: both stay. -/
theorem permBits_congr {r c : Cap} (hty : r.ty = c.ty)
    (hp : ∀ lo n, (lo, n) = permField c.ty → r.bits.extractLsb' lo n = c.bits.extractLsb' lo n) : r.permBits = c.permBits := by
  unfold Cap.permBits
  rw [hty]
  exact congrArg BitVec.toNat (hp _ _ rfl)

/-- The permission field lies above the bounds, and is empty for the types that have none. -/
theorem permField_place (c : Cap) : permField c.ty = (0, 0) ∨
    ((c.bounded = true → 106 ≤ (permField c.ty).1) ∧ 104 ≤ (permField c.ty).1 ∧ (permField c.ty).1 + (permField c.ty).2 ≤ 118) := by
  rcases permField_cases c with h | ⟨hb, h | h | h | h⟩ <;> rw [h] <;> simp_all

/-- A capability changed only below its type and permissions keeps both. -/
theorem typePerm_low {r c : Cap} (h : ∀ p k, p + k ≤ 128 → (if c.bounded then 106 else 104) ≤ p → r.bits.extractLsb' p k = c.bits.extractLsb' p k) :
    r.ty = c.ty ∧ r.permBits = c.permBits := by
  have hle : (if c.bounded = true then 106 else 104) ≤ 118 := by split <;> omega
  have hty : r.ty = c.ty := congrArg BitVec.toNat (h 118 4 (by omega) hle)
  refine ⟨hty, permBits_congr hty fun lo n he => ?_⟩
  rcases permField_place c with h0 | ⟨hb, h4, h8⟩
  · obtain ⟨rfl, rfl⟩ := Prod.mk.inj (he.trans h0)
    exact Subsingleton.elim _ _
  · rw [← he] at hb h4 h8
    refine h lo n (by omega) ?_
    split
    · next hbd => exact hb hbd
    · exact h4

/-- The same exponent and spelled bounds: as sound, and the same decoded bounds. -/
theorem sound_congr {r c : Cap} (hb : r.bounded = c.bounded) (he : r.exp = c.exp) (hl : capLow r = capLow c) (hh : capHigh r = capHigh c)
    (hs : SoundCap c) : SoundCap r := by
  intro hr
  rw [he, hl, hh]
  exact hs (hb ▸ hr)

theorem decoded_congr {r c : Cap} (he : r.exp = c.exp) (hl : capLow r = capLow c) (hh : capHigh r = capHigh c) (hs : SoundCap c)
    (hb : c.bounded = true) : r.base = c.base ∧ r.top = c.top := by
  rcases hs hb with h63 | ⟨h47, h0, h64⟩
  · have hr := bounds_63 (he.trans h63)
    have hc := bounds_63 h63
    exact ⟨hr.1.trans hc.1.symm, hr.2.trans hc.2.symm⟩
  · have hr := bounds_sound (c := r) (he ▸ h47) (hl ▸ h0) (hh ▸ h64)
    have hc := bounds_sound h47 h0 h64
    omega

/-- Equal permissions are each other's subset. -/
theorem notWider_of {r c : Cap} (ht : r.tag = true → c.tag = true) (hb : r.tag = true → r.bounded = true → c.base ≤ r.base ∧ r.top ≤ c.top)
    (hp : r.permBits = c.permBits) : NotWider r c :=
  fun h => ⟨ht h, hb h, by rw [hp, Nat.and_self]⟩

/-! ### A changed cursor -/

/-- The distance in blocks between a cursor and the base, which BOFF holds (R306, R307). -/
def blockDiff (c : Cap) (a : W64) : Int := (a.toNat / 2 ^ (c.exp + 17) : Nat) - (c.base / 2 ^ (c.exp + 17) : Nat)

/-- What a cursor change can give: without bounds or with those of the whole space the cursor alone, an untagged result, or the cursor and
the BOFF of a representable distance. -/
theorem setCursor_cases (c : Cap) (a : W64) :
    ((c.bounded = false ∨ c.exp = 63) ∧ c.setCursor a = ⟨setField c.bits 0 64 a.toNat, c.tag⟩) ∨
    c.setCursor a = ⟨setField c.bits 0 64 a.toNat, false⟩ ∨
    (c.bounded = true ∧ c.exp ≤ 47 ∧ -2 ≤ blockDiff c a ∧ blockDiff c a ≤ 1 ∧
      c.setCursor a = ⟨setField (setField c.bits 0 64 a.toNat) 104 2 (blockDiff c a % 4).toNat, c.tag⟩) := by
  unfold Cap.setCursor
  by_cases hb : c.bounded = true
  · dsimp only
    rw [if_neg (by simp [hb])]
    by_cases h63 : c.exp = 63
    · exact .inl ⟨.inr h63, if_pos h63⟩
    · rw [if_neg h63]
      by_cases h47 : c.exp > 47
      · exact .inr (.inl (if_pos h47))
      · rw [if_neg h47]
        by_cases hd : -2 ≤ blockDiff c a ∧ blockDiff c a ≤ 1
        · exact .inr (.inr ⟨hb, by omega, hd.1, hd.2, if_pos hd⟩)
        · exact .inr (.inl (if_neg hd))
  · exact .inl ⟨.inl (eq_false_of_ne_true hb), if_pos (by simp [hb])⟩

theorem setCursor_tag {c : Cap} {a : W64} (h : (c.setCursor a).tag = true) : c.tag = true := by
  rcases setCursor_cases c a with ⟨-, he⟩ | he | ⟨-, -, -, -, he⟩ <;> rw [he] at h
  · exact h
  · exact nomatch h
  · exact h

/-- A cursor change touches the cursor and, of a capability with bounds, BOFF. -/
theorem setCursor_field {c : Cap} {a : W64} {p k : Nat} (hk : p + k ≤ 128) (h64 : 64 ≤ p)
    (hp : c.bounded = true → p + k ≤ 104 ∨ 106 ≤ p) : (c.setCursor a).bits.extractLsb' p k = c.bits.extractLsb' p k := by
  have hm : (setField c.bits 0 64 a.toNat).extractLsb' p k = c.bits.extractLsb' p k := setField_out _ _ _ _ _ _ hk (.inr h64)
  rcases setCursor_cases c a with ⟨-, he⟩ | he | ⟨hb, -, -, -, he⟩ <;> rw [he]
  · exact hm
  · exact hm
  · exact (setField_out _ _ _ _ _ _ hk (hp hb)).trans hm

theorem setCursor_typePerm (c : Cap) (a : W64) : (c.setCursor a).ty = c.ty ∧ (c.setCursor a).permBits = c.permBits :=
  typePerm_low fun p k hk hp => setCursor_field hk (by split at hp <;> omega) fun hb => .inr (by rwa [if_pos hb] at hp)

theorem setCursor_exp (c : Cap) (a : W64) : (c.setCursor a).exp = c.exp :=
  congrArg BitVec.toNat (setCursor_field (by omega) (by omega) fun _ => .inl (by omega))

theorem setCursor_bm (c : Cap) (a : W64) : (c.setCursor a).bm = c.bm :=
  congrArg BitVec.toNat (setCursor_field (by omega) (by omega) fun _ => .inl (by omega))

theorem setCursor_lm (c : Cap) (a : W64) : (c.setCursor a).lm = c.lm :=
  congrArg BitVec.toNat (setCursor_field (by omega) (by omega) fun _ => .inl (by omega))

/-- The block of a sound base, which the cursor and BOFF spell. -/
theorem base_block {c : Cap} (h47 : c.exp ≤ 47) (h0 : 0 ≤ capLow c) (h64 : capHigh c ≤ 2 ^ 64) :
    ((c.base / 2 ^ (c.exp + 17) : Nat) : Int) = (c.cursor.toNat / 2 ^ (c.exp + 17) : Nat) - c.boff :=
  div_low ((bounds_sound h47 h0 h64).1.trans rfl) (bm_nonneg c) (bm_small c)

/-- A cursor change that keeps the tag keeps sound bounds. -/
theorem setCursor_bounds {c : Cap} {a : W64} (hs : SoundCap c) (hb : c.bounded = true) (ht : (c.setCursor a).tag = true) :
    SoundCap (c.setCursor a) ∧ (c.setCursor a).base = c.base ∧ (c.setCursor a).top = c.top := by
  have hexp := setCursor_exp c a
  rcases setCursor_cases c a with ⟨hw, -⟩ | he | ⟨-, h47, hlo, hhi, he⟩
  · have h63 : c.exp = 63 := hw.resolve_left (by simp [hb])
    have hr := bounds_63 (hexp.trans h63)
    have hc := bounds_63 h63
    exact ⟨fun _ => .inl (hexp.trans h63), hr.1.trans hc.1.symm, hr.2.trans hc.2.symm⟩
  · rw [he] at ht
    exact nomatch ht
  · obtain ⟨-, h0, h64⟩ := (hs hb).resolve_left (by omega)
    have hboff : (c.setCursor a).boff = blockDiff c a :=
      boff_of hlo hhi (by rw [he]; exact setField_in _ _ _ _ (by decide))
    have hcur : (c.setCursor a).cursor = a := by
      rw [cursor_ext, he, setField_out _ _ _ _ _ _ (by decide) (.inl (by decide)), setField_in _ _ _ _ (by decide), BitVec.ofNat_toNat,
        BitVec.setWidth_eq]
    have hl : capLow (c.setCursor a) = capLow c := by
      unfold capLow
      rw [hexp, setCursor_bm, hboff, hcur, ← base_block h47 h0 h64, blockDiff]
      ring
    have hh : capHigh (c.setCursor a) = capHigh c := by
      unfold capHigh
      rw [hl, hexp, setCursor_lm]
    have hbd : (c.setCursor a).bounded = c.bounded := by
      unfold Cap.bounded
      rw [(setCursor_typePerm c a).1]
    exact ⟨sound_congr hbd hexp hl hh hs, decoded_congr hexp hl hh hs hb⟩

/-- A cursor change widens nothing and stays sound. -/
theorem setCursor_notWider {c : Cap} (a : W64) (hs : SoundCap c) : (c.setCursor a).ty = c.ty ∧ NotWider (c.setCursor a) c ∧
    ((c.setCursor a).tag = true → SoundCap (c.setCursor a)) := by
  obtain ⟨hty, hp⟩ := setCursor_typePerm c a
  have hbd : (c.setCursor a).bounded = c.bounded := by
    unfold Cap.bounded
    rw [hty]
  refine ⟨hty, notWider_of setCursor_tag (fun ht hb => ?_) hp, fun ht hb => ?_⟩
  · obtain ⟨-, h1, h2⟩ := setCursor_bounds hs (hbd ▸ hb) ht
    exact ⟨h1.ge, h2.le⟩
  · exact (setCursor_bounds hs (hbd ▸ hb) ht).1 hb

/-! ### Cleared permissions -/

theorem clearedPerms_notWider {c : Cap} (b : Nat) (hs : SoundCap c) :
    let r : Cap := ⟨setField c.bits (permField c.ty).1 (permField c.ty).2 (c.permBits &&& b), c.tag⟩
    r.ty = c.ty ∧ NotWider r c ∧ SoundCap r := by
  intro r
  obtain ⟨hty, hp, hexp, hbm, hlm, hcur, hboff⟩ := prm_field c b
  have hbd : r.bounded = c.bounded := by
    unfold Cap.bounded
    rw [hty]
  refine ⟨hty, fun ht => ⟨ht, fun hb => ?_, ?_⟩, fun hb => ?_⟩
  · obtain ⟨hbounds, -⟩ := same_bounds hexp hbm hlm hcur (hboff (hbd ▸ hb))
    exact ⟨(congrArg Prod.fst hbounds).ge, (congrArg Prod.snd hbounds).le⟩
  · rw [hp, Nat.and_right_comm, Nat.and_self]
  · obtain ⟨-, hl, hh⟩ := same_bounds hexp hbm hlm hcur (hboff (hbd ▸ hb))
    exact sound_congr hbd hexp hl hh hs hb

/-! ### New bounds -/

section
variable {x : W128} {e bm lm boff : Nat}

/-- The bounds fields of `x` replaced. -/
def putBounds (x : W128) (e bm lm boff : Nat) : W128 := setField (setField (setField (setField x 64 6 e) 70 17 bm) 87 17 lm) 104 2 boff

theorem putBounds_out {p k : Nat} (hk : p + k ≤ 128) (h : p + k ≤ 64 ∨ 106 ≤ p) :
    (putBounds x e bm lm boff).extractLsb' p k = x.extractLsb' p k := by
  unfold putBounds
  rw [setField_out _ _ _ _ _ _ hk (by omega), setField_out _ _ _ _ _ _ hk (by omega), setField_out _ _ _ _ _ _ hk (by omega),
    setField_out _ _ _ _ _ _ hk (by omega)]

theorem putBounds_exp : (putBounds x e bm lm boff).extractLsb' 64 6 = BitVec.ofNat 6 e := by
  unfold putBounds
  rw [setField_out _ _ _ _ _ _ (by decide) (by decide), setField_out _ _ _ _ _ _ (by decide) (by decide),
    setField_out _ _ _ _ _ _ (by decide) (by decide), setField_in _ _ _ _ (by decide)]

theorem putBounds_bm : (putBounds x e bm lm boff).extractLsb' 70 17 = BitVec.ofNat 17 bm := by
  unfold putBounds
  rw [setField_out _ _ _ _ _ _ (by decide) (by decide), setField_out _ _ _ _ _ _ (by decide) (by decide), setField_in _ _ _ _ (by decide)]

theorem putBounds_lm : (putBounds x e bm lm boff).extractLsb' 87 17 = BitVec.ofNat 17 lm := by
  unfold putBounds
  rw [setField_out _ _ _ _ _ _ (by decide) (by decide), setField_in _ _ _ _ (by decide)]

theorem putBounds_boff : (putBounds x e bm lm boff).extractLsb' 104 2 = BitVec.ofNat 2 boff := setField_in _ _ _ _ (by decide)

end

/-- Bounds from the cursor: those of the whole space, or the fields that `leastExp` finds, with the base in the cursor's block. -/
theorem newBounds_cases (c : Cap) (len : W64) :
    (newBounds c len = ⟨putBounds c.bits 63 0 0 0, c.tag⟩) ∨
    ∃ e, e ≤ 47 ∧ ceilDiv (c.cursor.toNat + len.toNat) e - c.cursor.toNat / 2 ^ e ≤ 2 ^ 17 - 1 ∧
      newBounds c len = ⟨putBounds c.bits e (c.cursor.toNat / 2 ^ e % 2 ^ 17)
        (ceilDiv (c.cursor.toNat + len.toNat) e - c.cursor.toNat / 2 ^ e) 0, c.tag⟩ := by
  have hspec := leastExp_spec c.cursor.toNat (c.cursor.toNat + len.toNat) 48 0
  unfold newBounds Cap.setBounds
  dsimp only
  generalize leastExp c.cursor.toNat (c.cursor.toNat + len.toNat) 48 0 = e at hspec ⊢
  by_cases h63 : e = 63
  · rw [if_pos h63]
    exact .inl rfl
  · obtain ⟨hlt, hfit⟩ := hspec.resolve_left h63
    rw [if_neg h63]
    refine .inr ⟨e, by omega, hfit, ?_⟩
    simp only [Int.sub_self, putBounds]
    simp

theorem newBounds_typePerm {c : Cap} (hb : c.bounded = true) (len : W64) :
    (newBounds c len).ty = c.ty ∧ (newBounds c len).permBits = c.permBits := by
  refine typePerm_low fun p k hk hp => ?_
  rw [if_pos hb] at hp
  rcases newBounds_cases c len with he | ⟨e, -, -, he⟩ <;> rw [he] <;> exact putBounds_out hk (.inr hp)

theorem newBounds_tag (c : Cap) (len : W64) : (newBounds c len).tag = c.tag := by
  rcases newBounds_cases c len with he | ⟨e, -, -, he⟩ <;> rw [he]

/-- Rounding up to a multiple of a power of two stays in the address space. -/
theorem ceilDiv_le {t e : Nat} (ht : t ≤ 2 ^ 64) (he : e ≤ 47) : ceilDiv t e * 2 ^ e ≤ 2 ^ 64 := by
  have hp : 0 < 2 ^ e := Nat.two_pow_pos e
  have hs : 2 ^ 64 = 2 ^ (64 - e) * 2 ^ e := by rw [← Nat.pow_add, Nat.sub_add_cancel (by omega)]
  have hd : ceilDiv t e ≤ 2 ^ (64 - e) := by
    unfold ceilDiv
    rw [Nat.div_le_iff_le_mul_add_pred hp, Nat.mul_comm, ← hs]
    omega
  calc ceilDiv t e * 2 ^ e ≤ 2 ^ (64 - e) * 2 ^ e := Nat.mul_le_mul_right _ hd
    _ = 2 ^ 64 := hs.symm

/-- Rounding down is no more than rounding up. -/
theorem div_le_ceilDiv {b t : Nat} (e : Nat) (h : b ≤ t) : b / 2 ^ e ≤ ceilDiv t e :=
  Nat.div_le_div_right (by have := Nat.two_pow_pos e; omega)

/-- The base that the new fields spell: the cursor rounded down. -/
theorem spelledBase_eq (b e : Nat) :
    ((b / 2 ^ (e + 17) : Nat) : Int) * 2 ^ (e + 17) + ((b / 2 ^ e % 2 ^ 17 : Nat) : Int) * 2 ^ e = ((b / 2 ^ e * 2 ^ e : Nat) : Int) := by
  have h := Nat.div_add_mod (b / 2 ^ e) (2 ^ 17)
  rw [Nat.div_div_eq_div_mul, ← Nat.pow_add] at h
  have hn : b / 2 ^ (e + 17) * 2 ^ (e + 17) + b / 2 ^ e % 2 ^ 17 * 2 ^ e = b / 2 ^ e * 2 ^ e := by
    calc _ = (2 ^ 17 * (b / 2 ^ (e + 17)) + b / 2 ^ e % 2 ^ 17) * 2 ^ e := by rw [Nat.pow_add]; ring
      _ = _ := by rw [h]
  exact_mod_cast hn

/-- New bounds of a length that ends in the address space are sound. -/
theorem newBounds_sound {c : Cap} {len : W64} (h : c.cursor.toNat + len.toNat ≤ 2 ^ 64) : SoundCap (newBounds c len) := by
  intro _
  rcases newBounds_cases c len with hr | ⟨e, he, hfit, hr⟩ <;> rw [hr]
  · exact .inl (congrArg BitVec.toNat putBounds_exp)
  · set b := c.cursor.toNat with hbdef
    set t := b + len.toNat
    set r : Cap := ⟨putBounds c.bits e (b / 2 ^ e % 2 ^ 17) (ceilDiv t e - b / 2 ^ e) 0, c.tag⟩
    have hexp : r.exp = e := by
      rw [Cap.exp, putBounds_exp, BitVec.toNat_ofNat, Nat.mod_eq_of_lt (by omega)]
    have hbm : r.bm = b / 2 ^ e % 2 ^ 17 := by
      rw [Cap.bm, putBounds_bm, BitVec.toNat_ofNat, Nat.mod_mod]
    have hlm : r.lm = ceilDiv t e - b / 2 ^ e := by
      rw [Cap.lm, putBounds_lm, BitVec.toNat_ofNat, Nat.mod_eq_of_lt (by omega)]
    have hboff : r.boff = 0 := by
      rw [Cap.boff, putBounds_boff]
      rfl
    have hcur : r.cursor = c.cursor := by
      rw [cursor_ext, cursor_ext, putBounds_out (by decide) (.inl (by decide))]
    have hlow : capLow r = ((b / 2 ^ e * 2 ^ e : Nat) : Int) := by
      rw [capLow, hexp, hbm, hboff, hcur, ← spelledBase_eq, Int.sub_zero]
    have hhigh : capHigh r = ((ceilDiv t e * 2 ^ e : Nat) : Int) := by
      have hle := div_le_ceilDiv e (show b ≤ t from Nat.le_add_right _ _)
      rw [capHigh, hlow, hexp, hlm]
      push_cast [hle]
      ring
    refine .inr ⟨hexp.trans_le he, ?_, ?_⟩
    · rw [hlow]
      exact Int.natCast_nonneg _
    · rw [hhigh]
      exact_mod_cast ceilDiv_le h he

/-- Where setting bounds does not trap, the length ends in the address space and the new bounds lie within the old ones. -/
theorem bndTrap_none {c r : Cap} {len : W64} {ex : Bool} (h : bndTrap c r len ex = none) :
    c.cursor.toNat + len.toNat ≤ 2 ^ 64 ∧ c.base ≤ r.base ∧ r.top ≤ c.top := by
  unfold bndTrap at h
  dsimp only at h
  by_cases h1 : c.cursor.toNat + len.toNat > 2 ^ 64
  · rw [if_pos h1] at h
    exact nomatch h
  rw [if_neg h1] at h
  by_cases h2 : r.base < c.base ∨ c.top < r.base
  · rw [if_pos h2] at h
    exact nomatch h
  rw [if_neg h2] at h
  by_cases h3 : c.top < r.top
  · rw [if_pos h3] at h
    exact nomatch h
  omega

/-- Setting bounds of a tagged memory or local capability gives sound bounds within the old ones, or traps with `CAP_BOUNDS`. -/
theorem setBnd_notWider {i : Instr} {s : State} {m : M} {ex : Bool} {d a b : F6} (he : exec i s = runInstr i (setBnd ex d a b) s)
    (ht : (m.src a).tag = true) (hk : (m.src a).kind ∈ [0, 1]) (h : Issues i s m) :
    (∃ r : Cap, Completes i s m (m.wr d r) ∧ r.ty = (m.src a).ty ∧ NotWider r (m.src a) ∧ (r.tag = true → SoundCap r)) ∨
      ∃ v : W64, Traps i s m 0x05 v := by
  cases hb : bndTrap (m.src a) (newBounds (m.src a) (m.int b)) (m.int b) ex with
  | some v => exact .inr ⟨v, he.trans (runInstr_traps h (setBnd_traps ht hk hb))⟩
  | none =>
    obtain ⟨hlen, hlo, hhi⟩ := bndTrap_none hb
    have hbd : (m.src a).bounded = true := by
      unfold Cap.kind at hk
      split at hk
      · exact (bounded_iff_mem _).mpr (by simp_all; omega)
      · simp at hk
    obtain ⟨hty, hp⟩ := newBounds_typePerm hbd (m.int b)
    exact .inl ⟨_, completes_of_effect he (setBnd_fits ht hk hb) h, hty, notWider_of (fun _ => ht) (fun _ _ => ⟨hlo, hhi⟩) hp,
      fun _ => newBounds_sound hlen⟩

/-- Settles O59: a changed cursor keeps sound bounds or clears the tag, cleared permissions are a subset, and new bounds lie within the old. -/
theorem capabilitiesNeverWiden : Obligations.CapabilitiesNeverWiden := by
  intro s m
  exact ⟨fun d a b hs ht h => ⟨_, completes_of_effect (exec_cadd ..) (opCadd_admitted ht) h, setCursor_notWider _ hs⟩,
    fun d a b hs ht h => ⟨_, completes_of_effect (exec_cset ..) (opCset_admitted ht) h, setCursor_notWider _ hs⟩,
    fun d a b hs ht h => ⟨_, completes_of_effect (exec_cprm ..) (opCprm_admitted ht) h, clearedPerms_notWider _ hs⟩,
    fun d a b => setBnd_notWider (exec_cbnd ..), fun d a b => setBnd_notWider (exec_cbndx ..),
    fun d a h => ⟨_, completes_of_effect (exec_cclr ..) rfl h, rfl⟩⟩

end Sys2Proof.Machine
end

section
/-!
Transfers, loops, threads, special registers, queue registers, vector rows and the write log (R309–R317, R333–R335).
-/
namespace Sys2Proof.Machine
open Sys2Proof Sys2Proof.Safety

/-! ## Transfers (R309–R311) -/

section
variable {w : Nat} {i : Instr} {x : Form} {off : BitVec w} {f : M → Bool} {s : State} {m : M}
  (he : exec i s = runInstr i (branchIf x off f) s)
include he

/-- A branch whose condition holds transfers to a target within the PC's bounds. -/
theorem branch_transfers {t : W64} (hf : f m = true) (ht : m.thr.pc.cursor + wordOff x off = t) (hlo : m.thr.pc.base ≤ t.toNat)
    (hhi : t.toNat + 4 ≤ m.thr.pc.top) (h : Issues i s m) : Completes i s m { m with npc := some (m.thr.pc.setCursor t) } := by
  subst ht
  exact completes_of_effect he (branch_taken hf hlo hhi) h

/-- A branch whose condition fails goes on. -/
theorem branch_falls (hf : f m = false) (h : Issues i s m) : Completes i s m m :=
  completes_of_effect he (branch_not hf) h

end

theorem opCall_transfers {m : M} {off : BitVec 24} {t : W64} (ht : m.thr.pc.cursor + wordOff none off = t) (hlo : m.thr.pc.base ≤ t.toNat)
    (hhi : t.toNat + 4 ≤ m.thr.pc.top) : opCall none off m = .ok (({ m with npc := some (m.thr.pc.setCursor t) } : M).wr 30 m.retCap) := by
  subst ht
  simp only [opCall, jump_ok hlo hhi, bind, Except.bind]

theorem exec_widenedBra (x : Ext) (off : BitVec 18) (s : State) :
    exec (.widenedForm x (.bra off)) s = runInstr (.widenedForm x (.bra off)) (opBra (some x) off) s := rfl

theorem exec_widenedJmp (x : Ext) (off : BitVec 24) (s : State) :
    exec (.widenedForm x (.jmp off)) s = runInstr (.widenedForm x (.jmp off)) (opJmp (some x) off) s := rfl

/-- Settles O8: each transfer by whether its condition holds. -/
theorem relativeTransfers : Obligations.RelativeTransfers := by
  intro s m
  exact ⟨fun k pol off hf => branch_transfers (exec_bk ..) hf rfl, fun k pol off hf => branch_falls (exec_bk ..) hf,
    fun r off hf => branch_transfers (exec_bz ..) (beq_iff_eq.mpr hf) rfl,
    fun r off hf => branch_falls (exec_bz ..) (beq_eq_false_iff_ne.mpr hf),
    fun r off hf => branch_transfers (exec_bnz ..) (bne_iff_ne.mpr hf) rfl,
    fun r off hf => branch_falls (exec_bnz ..) (bne_eq_false_iff_eq.mpr hf),
    fun r off hf => branch_transfers (exec_bltz ..) (decide_eq_true hf) rfl,
    fun r off hf => branch_falls (exec_bltz ..) (decide_eq_false (Int.not_lt.mpr hf)),
    fun r off hf => branch_transfers (exec_bgez ..) (decide_eq_true hf) rfl,
    fun r off hf => branch_falls (exec_bgez ..) (decide_eq_false (Int.not_le.mpr hf)),
    fun r off hf => branch_transfers (exec_blez ..) (decide_eq_true hf) rfl,
    fun r off hf => branch_falls (exec_blez ..) (decide_eq_false (Int.not_le.mpr hf)),
    fun r off hf => branch_transfers (exec_bgtz ..) (decide_eq_true hf) rfl,
    fun r off hf => branch_falls (exec_bgtz ..) (decide_eq_false (Int.not_lt.mpr hf)),
    fun off => branch_transfers (exec_bra ..) rfl rfl, fun x => branch_transfers (exec_widenedBra x 0 s) rfl rfl,
    fun off => branch_transfers (exec_jmp ..) rfl rfl, fun x => branch_transfers (exec_widenedJmp x 0 s) rfl rfl,
    fun off hlo hhi => completes_of_effect (exec_call ..) (opCall_transfers rfl hlo hhi)⟩

section
variable {m : M} {d a : F6}

theorem opJr_transfers (h : checkTarget a (m.src a) = .ok ()) : opJr a m = .ok { m with npc := some (m.src a) } := by
  simp only [opJr, h, bind, Except.bind]

theorem opJalr_transfers (h : checkTarget a (m.src a) = .ok ()) :
    opJalr d a m = .ok (({ m with npc := some (m.src a) } : M).wr d m.retCap) := by
  simp only [opJalr, h, bind, Except.bind]

theorem opRet_transfers (h : checkTarget 30 (m.src 30) = .ok ()) : opRet m = .ok { m with npc := some (m.src 30) } := by
  simp only [opRet, h, bind, Except.bind]

/-- `ccall` transfers through the sealed entry as the capability it was sealed from. -/
theorem opCcall_transfers (ht : (m.src a).tag = true) (hk : (m.src a).kind = 4) (h : checkTarget a (Cap.unseal (m.src a)) = .ok ()) :
    opCcall a m = .ok (({ m with npc := some (Cap.unseal (m.src a)) } : M).wr 30 m.retCap) := by
  have hc : checkCap a (m.src a) [4] [] = .ok () := checkCap_ok ht (by simp [hk]) List.all_nil
  simp only [opCcall, hc, h, bind, Except.bind]

end

/-- Settles O9: the checks of a target are `target_ok`. -/
theorem capabilityTransfers : Obligations.CapabilityTransfers := by
  intro s m
  exact ⟨fun a ht hk hx ha hlo hhi => completes_of_effect (exec_jr ..) (opJr_transfers (target_ok ht hk hx ha hlo hhi)),
    fun d a ht hk hx ha hlo hhi => completes_of_effect (exec_jalr ..) (opJalr_transfers (target_ok ht hk hx ha hlo hhi)),
    fun ht hk hx ha hlo hhi => completes_of_effect (exec_ret ..) (opRet_transfers (target_ok ht hk hx ha hlo hhi)),
    fun a h4 ht hk hx ha hlo hhi => completes_of_effect (exec_ccall ..) (opCcall_transfers ht h4 (target_ok ht hk hx ha hlo hhi))⟩

/-! ## Loops and threads (R312–R315) -/

/-- A thread without tickets has no deferred fault to report. -/
theorem reportAny_none {m : M} (h : m.tickets = []) : m.reportAny = .ok () := by
  simp only [M.reportAny, h, List.find?_nil]

section
variable {m : M} {d : F6} {off : BitVec 18} {lvl : Fin 2} (hl : lvl = if m.thr.lcount.get 0 ≠ 0 then 1 else 0)
  (hfree : m.thr.lcount.get lvl = 0)
include hl hfree

/-- A count of zero skips the body: the transfer goes past the instruction at its end. -/
theorem opLoop_skips {m1 : M} {w : W32} (hd : m.int d = 0) (hw : m.fetchWords (m.thr.pc.cursor + wordOff none off).toNat 1 = .ok (m1, [w])) :
    opLoop none d off m = .ok { m1 with
      npc := some (m1.thr.pc.setCursor (m.thr.pc.cursor + wordOff none off + BitVec.ofNat 64 (4 * wordCount w))) } := by
  subst hl
  simp only [opLoop, hfree, bne_self_eq_false, trapIf_false, hd, if_true, hw, bind, Except.bind, List.headD_cons]

theorem opLoop_starts (hd : m.int d ≠ 0) :
    opLoop none d off m = .ok { m with thr := { m.thr with
      lstart := m.thr.lstart.set lvl (m.thr.pc.cursor + BitVec.ofNat 64 (4 * m.len)), lend := m.thr.lend.set lvl (m.thr.pc.cursor + wordOff none off)
      lcount := m.thr.lcount.set lvl (m.int d) } } := by
  subst hl
  simp only [opLoop, hfree, bne_self_eq_false, trapIf_false, hd, if_false, bind, Except.bind]

end

theorem opBar_arrives {m m1 m2 : M} (h1 : m.release 0 = .ok m1) (h2 : m1.acquire 0 = .ok m2) :
    opBar m = .ok
      (let c := Core.barrier { m2.core with thr := m2.core.thr.set m2.tid { m2.thr with run := .bar, idleAt := m2.st.now } }
       { m2 with core := c, thr := c.thr.get m2.tid }) := by
  simp only [opBar, h1, h2, bind, Except.bind]

section
variable {m : M} (ht : m.tickets = [])
include ht

/-- An entry thread halts: a barrier that waits for it may complete, and the last one begins the team's exit. -/
theorem opHalt_entry (hc : ¬(m.core.lrec.calls = true ∧ m.tid = 7)) :
    opHalt m = .ok
      (let t := { m.thr with run := .halted, idleAt := m.st.now }
       let c := Core.barrier { m.core with thr := m.core.thr.set m.tid t }
       { m with core := c, thr := c.thr.get m.tid, st := if c.allHalted then m.st.post (.teamExit c.id) else m.st }) := by
  simp only [opHalt, reportAny_none ht, ht, List.isEmpty_nil, Bool.not_true, stallIf_false, hc, if_false, M.setThr, if_true, bind, Except.bind]

/-- The call thread waits for the next call. -/
theorem opHalt_call (hc : m.core.lrec.calls = true) (h7 : m.tid = 7) :
    opHalt m = .ok { m with
      thr := { m.thr with run := .call, idleAt := m.st.now }
      st := if m.core.calls.isEmpty then (if m.core.exiting then m.st.post (.teamExit m.core.id) else m.st)
        else m.st.post (.callStart m.core.id) } := by
  simp only [opHalt, reportAny_none ht, ht, List.isEmpty_nil, Bool.not_true, stallIf_false, hc, h7, and_self, if_true, bind, Except.bind]

end

/-- Settles O10: each effect by its branch. -/
theorem threadInstructions : Obligations.ThreadInstructions := by
  intro s m
  exact ⟨completes_of_effect (exec_nop ..) rfl,
    fun h0 => completes_of_effect (exec_yield ..) (if_pos h0), fun h0 => completes_of_effect (exec_yield ..) (if_neg h0),
    fun a h0 => completes_of_effect (exec_sleep ..) (if_pos (congrArg BitVec.toNat h0)),
    fun a h0 => completes_of_effect (exec_sleep ..) (if_neg fun hn => h0 (BitVec.eq_of_toNat_eq hn)),
    fun h1 => completes_of_effect (exec_wfe ..) (if_pos h1),
    fun h0 => completes_of_effect (exec_wfe ..) (if_neg (ne_true_of_eq_false h0)),
    fun d off hf hd => completes_of_effect (exec_loop ..) (opLoop_starts rfl hf hd),
    fun d off m1 w hf hd hw => completes_of_effect (exec_loop ..) (opLoop_skips rfl hf hd hw),
    fun m1 m2 h1 h2 => completes_of_effect (exec_bar ..) (opBar_arrives h1 h2),
    fun ht hc => completes_of_effect (exec_halt ..) (opHalt_entry ht hc),
    fun ht hc h7 => completes_of_effect (exec_halt ..) (opHalt_call ht hc h7)⟩

/-! ## Special registers (R317) -/

section
variable {s : State} {m : M} {d : F6} {sr : BitVec 12}

/-- `mfs` writes what the register reads as. -/
theorem mfs_completes {v : Cap} (hv : m.sysRead sr.toNat = some v) (h : Issues (.mfs d sr) s m) :
    Completes (.mfs d sr) s m ((m.sysReadEffect sr.toNat).wr d v) :=
  completes_of_effect (exec_mfs ..) (by simp only [opMfs, hv]) h

/-- `mts` writes the register; only a new `LOGHEAD` does more. -/
theorem mts_completes {m1 : M} (hv : m.sysWrite sr.toNat (m.src d) = some m1) (hn : sr ≠ 0x081) (h : Issues (.mts d sr) s m) :
    Completes (.mts d sr) s m m1 :=
  completes_of_effect (exec_mts ..) (by simp only [opMts, hv, if_neg hn]) h

end

/-- A new `LOGHEAD` may make room for the overflow entry that is due. -/
theorem opMts_loghead {m m1 : M} {d : F6} (h : ({ m with core := { m.core with loghead := m.int d &&& 0xFFFFFFFF } } : M).logOverflow = .ok m1) :
    opMts d 0x081 m = .ok m1 := h

/-- No entry has been dropped, so none is due. -/
theorem logOverflow_none {m : M} (h : m.core.logdrop = 0) : m.logOverflow = .ok m := by
  unfold M.logOverflow
  split
  · rfl
  · exact if_neg fun hd => hd.1 h

/-- Settles O12: each register is a case of `sysRead` or of `sysWrite`. -/
theorem specialRegisters : Obligations.SpecialRegisters := by
  intro s m
  and_intros
  -- the registers that are read, and those that are written
  iterate 43 exact fun d h => mfs_completes rfl h
  iterate 25 exact fun d h => mts_completes rfl (by decide) h
  · exact fun d h0 => completes_of_effect (exec_mts ..) (opMts_loghead (logOverflow_none h0))
  · exact fun d m1 h1 => completes_of_effect (exec_mts ..) (opMts_loghead h1)

/-! ## Queue registers, vector rows and the log (R333–R335) -/

section
variable {m m1 : M}

theorem opQbind_toThread {q : BitVec 3} {b : F6} (h : (m.int b).getLsbD 6 = false) :
    opQbind q 0 b m = .ok { m with thr := m.thr.setQ q.toFin fun y => { y with
      bind := .toThread ((m.int b).extractLsb' 3 3) ((m.int b).setWidth 3), failed := false } } :=
  if_neg (ne_true_of_eq_false h)

theorem opQpeek_head {d : F6} {q : BitVec 3} {v : W64} {l : List W64} (h : (m.thr.q.get q.toFin).fifo = v :: l) :
    opQpeek d q m = .ok (m.wrInt d v) := by
  simp only [opQpeek, h]

theorem opLogoff_emitted (h : m.emitRanges (fun _ => true) = .ok m1) : opLogoff m = .ok { m1 with thr := { m1.thr with logOn := false } } := by
  simp only [opLogoff, h, bind, Except.bind, pure, Except.pure]

theorem opLogmark_emitted {a : F6} (h : m.emitRanges (fun _ => true) = .ok m1) : opLogmark a m = m1.logEntry 2 0 (m.int a) := by
  simp only [opLogmark, h, bind, Except.bind]

end

/-- Settles O13: each effect is one update of the thread, the core or a register. -/
theorem queuesRowsLog : Obligations.QueuesRowsLog := by
  intro s m
  exact ⟨fun q => completes_of_effect (exec_qunb ..) rfl, fun q b hb => completes_of_effect (exec_qbind ..) (opQbind_toThread hb),
    fun d q => completes_of_effect (exec_qstat ..) rfl, fun d q v l hf => completes_of_effect (exec_qpeek ..) (opQpeek_head hf),
    fun d a => completes_of_effect (exec_vrowSet ..) rfl, fun d => completes_of_effect (exec_vrowGet ..) rfl,
    completes_of_effect (exec_logon ..) rfl, fun m1 h1 => completes_of_effect (exec_logoff ..) (opLogoff_emitted h1),
    fun a m1 m2 h1 h2 => completes_of_effect (exec_logmark ..) ((opLogmark_emitted h1).trans h2)⟩

end Sys2Proof.Machine
end

section
/-!
Loads, stores, full/empty operations, fences and cache maintenance (R319–R325, R330–R332).
-/
namespace Sys2Proof.Machine
open Sys2Proof Sys2Proof.Safety

/-! ## Loads and stores (R321, R322, R330) -/

theorem localOk_kind {m : M} {r : MRef} {ps : List Perm} {n : Nat} (h : LocalOk m r ps n) : r.c.kind = 1 := by
  obtain ⟨-, hk, -⟩ := h
  exact hk

/-- An operation that acquires does so after its body. -/
theorem ordered_acquires (m : M) (sc : Scope) (body : Act) : m.ordered 1 sc body = body m >>= fun m => m.acquire sc := rfl

section
variable {m m1 : M} {sx : Bool} {sz : BitVec 3} {d : F6} {r : MRef}

/-- A plain load whose operand passes its checks: the access, the register value, the base update. -/
theorem loadTo_plain {sc : Scope} {v : Nat} {t : Bool} (hc : checkRef r [.ld] (szBytes sz) = .ok ()) (hk : r.c.kind ≠ 6)
    (ha : m.acqPending = false) (hx : m.loadAt r.c r.va (szBytes sz) true = .ok (m1, v, t)) :
    m.loadTo sx sz 0 sc d r = .ok ((m1.wr d (loadValue r.c (szBytes sz) v t sx)).update r.f r.ad) := by
  simp only [M.loadTo, hc, ha, stallIf_false, if_neg hk, ordered_plain, hx, bind, Except.bind, pure, Except.pure]

theorem loadTo_local {sc : Scope} (hl : LocalOk m r [.ld] (szBytes sz)) (ha : m.acqPending = false) :
    m.loadTo sx sz 0 sc d r = .ok ((m.wr d (loadValue r.c (szBytes sz) (m.localRead r.va (szBytes sz))
      (szBytes sz == 16 && m.localTag r.va) sx)).update r.f r.ad) :=
  loadTo_plain (checkRef_local hl) (localOk_not_window hl) ha (loadAt_local hl)

/-- The load of `ldacq` acquires after it has read. -/
theorem loadTo_acquires {sc : Scope} (hl : LocalOk m r [.ld] (szBytes sz)) (ha : m.acqPending = false)
    (hx : (m.wr d (loadValue r.c (szBytes sz) (m.localRead r.va (szBytes sz)) (szBytes sz == 16 && m.localTag r.va) sx)).acquire sc = .ok m1) :
    m.loadTo sx sz 1 sc d r = .ok (m1.update r.f r.ad) := by
  simp only [M.loadTo, checkRef_local hl, ha, stallIf_false, if_neg (localOk_not_window hl), ordered_acquires, loadAt_local hl, hx, bind,
    Except.bind, pure, Except.pure]

variable {v : Cap} {sc : Scope}

/-- A plain store whose operand passes its checks: the access, the base update. -/
theorem storeFrom_plain (hs : m.restartCheck r.c = .ok ())
    (hc : checkRef r (if szBytes sz = 16 ∧ v.tag then [.st, .tgw] else [.st]) (szBytes sz) = .ok ()) (hk : r.c.kind ≠ 6)
    (ha : m.acqPending = false) (hx : m.storeAt r.c r.va (szBytes sz) (v.bits.toNat % 2 ^ (8 * szBytes sz))
      (if szBytes sz = 16 then some v.tag else none) true = .ok m1) :
    m.storeFrom sz 0 sc v r = .ok (m1.update r.f r.ad) := by
  simp only [M.storeFrom, hs, hc, ha, stallIf_false, if_neg hk, ordered_plain, hx, bind, Except.bind, pure, Except.pure]

/-- The store of `strel` releases before it writes. -/
theorem storeFrom_releases (hl : LocalOk m1 r (if szBytes sz = 16 ∧ v.tag then [.st, .tgw] else [.st]) (szBytes sz))
    (ha : m.acqPending = false) (hr : m.release sc = .ok m1) :
    m.storeFrom sz 2 sc v r = .ok ((storedLocal m1 r.va (szBytes sz) (v.bits.toNat % 2 ^ (8 * szBytes sz))
      (if szBytes sz = 16 then some v.tag else none)).update r.f r.ad) := by
  simp only [M.storeFrom, restartCheck_kind (localOk_kind hl), checkRef_local hl, ha, stallIf_false, if_neg (localOk_not_window hl), ordered_release hr,
    storeAt_local hl, bind, Except.bind, pure, Except.pure]

end

/-- The word of an untagged integer. -/
theorem ofInt_word (w : W64) : (Cap.ofInt w).bits.toNat % 2 ^ (8 * 8) = w.toNat := by
  simp only [Cap.ofInt, BitVec.toNat_setWidth]
  omega

/-- Settles O14: an access of local memory is `loadAt_local` or `storeAt_local`, one through type 0 what the access answers. -/
theorem loadsAndStores : Obligations.LoadsAndStores := by
  intro s m
  refine ⟨fun d a sz am ea r hr hl ha => ?_, fun d a sz am ea r m1 v t hr hc hk ha hx => ?_, fun d a sz am ea r hr hl ha => ?_,
    fun d a sz am ea r m1 v t hr hc hk ha hx => ?_, fun d a am ea r hr hl ha => ?_, fun o r n m1 hn hr hl ha hx => ?_,
    fun d a sz am ea r v hr hv hl ha => ?_, fun d a sz am ea r v m1 hr hv hs hc hk ha hx => ?_, fun d a am ea r hr hl ha => ?_,
    fun o r n v m1 hn hv hr hl ha hrel => ?_⟩ <;> subst hr
  · exact completes_of_effect (exec_ld ..) (loadTo_local hl ha)
  · exact completes_of_effect (exec_ld ..) (loadTo_plain hc (by omega) ha hx)
  · exact completes_of_effect (exec_lds ..) (loadTo_local hl ha)
  · exact completes_of_effect (exec_lds ..) (loadTo_plain hc (by omega) ha hx)
  · exact completes_of_effect (exec_ldfeAny ..) (loadTo_local (sz := 3) hl ha)
  · subst hn
    exact completes_of_effect (exec_ldacq ..) (loadTo_acquires hl ha hx)
  · subst hv
    exact completes_of_effect (exec_st ..) (storeFrom_local hl ha)
  · subst hv
    exact completes_of_effect (exec_st ..) (storeFrom_plain hs hc (by omega) ha hx)
  · rw [← ofInt_word (m.int d)]
    exact completes_of_effect (exec_stfeKeep ..) (storeFrom_local (sz := 3) hl ha)
  · subst hn hv
    exact completes_of_effect (exec_strel ..) (storeFrom_releases hl ha hrel)

/-! ## Full/empty operations (R324, R325) -/

section
variable {m m1 m2 : M} {d a : F6} {am : BitVec 2} {ea : BitVec 7} {r : MRef} {md : BitVec 2} {v : Nat} (hr : r = m.ref none a am ea 8)
  (ha : m.acqPending = false)
include hr ha

section
variable (hl : LocalOk m r [.ld, .fe] 8) (hx : m.feLocal r.va (.ldfe md) 0 = (m1, v, true))
include hl hx

/-- A load of local memory whose condition holds, without ordering. -/
theorem fe_loads (hs : feSync (.ldfe md) none = (none, none)) :
    m.fe none (.ldfe md) d a am ea = .ok ((m1.wrInt d (BitVec.ofNat 64 v)).update r.f r.ad) := by
  simp only [M.fe, ← hr, checkRef_local hl, ha, stallIf_false, hs, localOk_kind hl, M.feAtLocal, winCheck_local hl, M.feRelease, hx, M.feDone,
    FeOp.isLoad, Bool.false_eq_true, if_false, if_true, Nat.reduceEqDiff, bind, Except.bind, pure, Except.pure]

/-- A waiting load acquires at its scope after it has read. -/
theorem fe_loads_acquires {sc : Scope} (hs : feSync (.ldfe md) none = (some sc, none))
    (hq : ((m1.wrInt d (BitVec.ofNat 64 v)).update r.f r.ad).acquire sc = .ok m2) : m.fe none (.ldfe md) d a am ea = .ok m2 := by
  simp only [M.fe, ← hr, checkRef_local hl, ha, stallIf_false, hs, localOk_kind hl, M.feAtLocal, winCheck_local hl, M.feRelease, hx, M.feDone,
    FeOp.isLoad, hq, Bool.false_eq_true, if_false, if_true, Nat.reduceEqDiff, bind, Except.bind]

end

section
variable (hl : LocalOk m r [.st, .fe] 8)
include hl

/-- A store of local memory whose condition holds, without ordering. -/
theorem fe_stores (hs : feSync (.stfe md) none = (none, none)) (hx : m.feLocal r.va (.stfe md) (m.int d) = (m2, v, true)) :
    m.fe none (.stfe md) d a am ea = .ok (m2.update r.f r.ad) := by
  simp only [M.fe, ← hr, restartCheck_local hl, checkRef_local hl, ha, stallIf_false, hs, localOk_kind hl, M.feAtLocal, winCheck_local hl,
    M.feRelease, hx, M.feDone, FeOp.isLoad, Bool.false_eq_true, if_false, if_true, Nat.reduceEqDiff, bind, Except.bind, pure, Except.pure]

/-- A store that sets the word full, or waits for it to be empty, releases before it writes. -/
theorem fe_stores_releases {sc : Scope} (hs : feSync (.stfe md) none = (none, some sc)) (hq : m.release sc = .ok m1)
    (hx : m1.feLocal r.va (.stfe md) (m.int d) = (m2, v, true)) : m.fe none (.stfe md) d a am ea = .ok (m2.update r.f r.ad) := by
  simp only [M.fe, ← hr, restartCheck_local hl, checkRef_local hl, ha, stallIf_false, hs, localOk_kind hl, M.feAtLocal, winCheck_local hl,
    M.feRelease, hq, hx, M.feDone, FeOp.isLoad, Bool.false_eq_true, if_false, if_true, Nat.reduceEqDiff, bind, Except.bind, pure, Except.pure]

end

end

/-- Settles O15: each mode by the synchronisation that it asks for. -/
theorem fullEmptyOperations : Obligations.FullEmptyOperations := by
  intro s m
  exact ⟨fun d a am ea r m1 m2 v hr hl ha hx hq => completes_of_effect (exec_ldfeWf ..) (fe_loads_acquires hr ha hl hx rfl hq),
    fun d a am ea r m1 m2 v hr hl ha hx hq => completes_of_effect (exec_ldfeWfe ..) (fe_loads_acquires hr ha hl hx rfl hq),
    fun d a am ea r m1 v hr hl ha hx => completes_of_effect (exec_ldfeSt ..) (fe_loads hr ha hl hx rfl),
    fun d a am ea r m1 m2 v hr hl ha hq hx => completes_of_effect (exec_stfeSf ..) (fe_stores_releases hr ha hl rfl hq hx),
    fun d a am ea r m1 m2 v hr hl ha hq hx => completes_of_effect (exec_stfeWef ..) (fe_stores_releases hr ha hl rfl hq hx),
    fun a am ea r m2 v hr hl ha hx => completes_of_effect (exec_stfeSe ..) (fe_stores hr ha hl rfl hx)⟩

/-! ## Fences and cache maintenance (R331, R332) -/

section
variable {m m1 : M} {sc : Scope} {ord : BitVec 2} {eng : Bool} (he : (eng && m.engBusy) = false)
  (hx : m.ordered ord sc Except.ok = .ok m1)
include he hx

/-- A fence below the fabric scopes with nothing to wait for. -/
theorem opFence_inside (ha : m.acqPending = false) (hf : fabric sc = false) (hw : (sc == 0 && m.ownWindow) = false) :
    opFence sc ord eng m = .ok m1 := by
  simp only [opFence, ha, hf, hw, he, stallIf_false, Bool.false_and, Bool.false_eq_true, if_false, bind, Except.bind]
  exact hx

/-- A fence of a thread without tickets waits for none, whatever its scope. -/
theorem opFence_noTickets (ht : m.tickets = []) : opFence sc ord eng m = .ok m1 := by
  have ha : m.acqPending = false := by simp only [M.acqPending, ht, List.any_nil]
  have ho : m.outstanding = false := by simp only [M.outstanding, ht, List.any_nil]
  have hw : m.ownWindow = false := by simp only [M.ownWindow, ht, List.any_nil]
  simp only [opFence, ha, ho, hw, he, reportAny_none ht, stallIf_false, Bool.and_false, ite_self, bind, Except.bind, pure]
  exact hx

end

section
variable {m m1 : M} {a b : F6} {va : Nat} (hc : checkCap a (m.src a) [0, 1] [.ld] = .ok ())
  (hb : checkBounds (m.src a) va (m.int b).toNat = .ok ()) (hv : va = (m.src a).cursor.toNat)
include hc hb hv

/-- The range of a cache operation whose checks pass; local memory and an empty range are no work. -/
theorem cacheRange_checked : m.cacheRange none a b =
    .ok (if (m.src a).kind = 1 ∨ (m.int b).toNat = 0 then none else some (va, (m.int b).toNat)) := by
  have hva : ((m.src a).cursor + immOff none).toNat = va := by
    rw [hv, immOff, Option.elim_none, add_zero]
  simp only [M.cacheRange, hva, hc, hb, bind, Except.bind, pure, Except.pure]

section
variable (h0 : (m.src a).kind = 1 ∨ (m.int b).toNat = 0)
include h0

theorem cacheOp_idle {inv icache : Bool} : cacheOp inv icache none a b m = .ok m := by
  simp only [cacheOp, cacheRange_checked hc hb hv, if_pos h0, bind, Except.bind, pure, Except.pure]

theorem opCpre_idle : opCpre none a b m = .ok m := by
  simp only [opCpre, cacheRange_checked hc hb hv, if_pos h0, bind, Except.bind, pure, Except.pure]

end

section
variable (h0 : ¬((m.src a).kind = 1 ∨ (m.int b).toNat = 0))
include h0

/-- The lines of the range are cleaned in the L1, and those of the instruction cache dropped where the operation asks. -/
theorem cacheOp_cleans {inv icache : Bool} (hx : m.l1Clean (fun l => l.ctx == m.core.ctx && lineIn va (m.int b).toNat l.va) inv = .ok m1) :
    cacheOp inv icache none a b m = .ok (if icache then m1.icacheDrop fun l => lineIn va (m.int b).toNat l else m1) := by
  simp only [cacheOp, cacheRange_checked hc hb hv, if_neg h0, hx, bind, Except.bind, pure, Except.pure]

theorem opCpre_fetches : opCpre none a b m =
    .ok ((List.range ((va + (m.int b).toNat - 1) / 64 - va / 64 + 1)).foldl (fun m k => m.prefetch (64 * (va / 64 + k))) m) := by
  simp only [opCpre, cacheRange_checked hc hb hv, if_neg h0, bind, Except.bind, pure, Except.pure]

end

end

/-- Settles O18: a fence that waits for nothing, and each cache operation by whether its range is work. -/
theorem fencesAndCaches : Obligations.FencesAndCaches := by
  intro s m
  exact ⟨fun sc ord eng m2 ha hf hw he hx => completes_of_effect (exec_fence ..) (opFence_inside he hx ha hf hw),
    fun sc ord eng m2 ht he hx => completes_of_effect (exec_fence ..) (opFence_noTickets he hx ht),
    fun a b va hc hb hv h0 => completes_of_effect (exec_cwb ..) (cacheOp_idle hc hb hv h0),
    fun a b va m1 hc hb hv h0 hx => completes_of_effect (exec_cwb ..) (cacheOp_cleans hc hb hv h0 hx),
    fun a b va hc hb hv h0 => completes_of_effect (exec_cinv ..) (cacheOp_idle hc hb hv h0),
    fun a b va m1 hc hb hv h0 hx => completes_of_effect (exec_cinv ..) (cacheOp_cleans hc hb hv h0 hx),
    fun a b va hc hb hv h0 => completes_of_effect (exec_cwbinv ..) (cacheOp_idle hc hb hv h0),
    fun a b va m1 hc hb hv h0 hx => completes_of_effect (exec_cwbinv ..) (cacheOp_cleans hc hb hv h0 hx),
    fun a b va hc hb hv h0 => completes_of_effect (exec_cpre ..) (opCpre_idle hc hb hv h0),
    fun a b va hc hb hv h0 => completes_of_effect (exec_cpre ..) (opCpre_fetches hc hb hv h0)⟩

end Sys2Proof.Machine
end

section
/-!
Keyed instructions, notices and mesh binds, and what sending a keyed request does (R79, R81, R86, R241, R333, R338–R341).
-/
namespace Sys2Proof.Machine
open Sys2Proof Sys2Proof.Safety

/-! ## Remote accesses (R338, R339) -/

/-- A team outside restartable mode may make every remote operation (R128). -/
theorem remoteCheck_ok {m : M} (h : m.restart = false) : m.remoteCheck = .ok () := by
  simp only [M.remoteCheck, h, trapIf_false]

section
variable {m m1 : M} {o : XOp} {r : MRef} {n : Nat} (hr : r = m.refAt o.a (immOff (some o.x))) (ha : m.acqPending = false)
include hr ha

/-- A window operand that passes its checks. -/
theorem window_checked {ts : List Nat} {ps : List Perm} (hc : checkCap o.a r.c ts ps = .ok ()) (hn : r.va % n = 0) :
    m.window o ts ps n = .ok r := by
  subst hr
  have hf : (m.refAt o.a (immOff (some o.x))).f = o.a := rfl
  simp only [M.window, hf, hc, checkAligned_ok hn, ha, stallIf_false, bind, Except.bind, pure, Except.pure]

theorem opRld_sends (hc : checkCap o.a r.c [3, 6] (if xfabMode o.x 0 = 0 then [.ld] else [.ld, .fe]) = .ok ())
    (hn : r.va % szBytes (o.x.t2.setWidth 3) = 0) (hx : m.keyedOrdered (o.x.ord.getLsbD 1) o.x.sc {
      kind := kRld, win := r.c, off := BitVec.ofNat 64 r.va, mode := (xfabMode o.x 0).setWidth 8, sz := o.x.t2.setWidth 3, scope := o.x.sc
      d := o.d, acq := if xfabMode o.x 0 = 1 ∨ xfabMode o.x 0 = 2 then some o.x.sc else orderAcq o.x.ord o.x.sc } = .ok m1) :
    opRld o m = .ok m1 := by
  simp only [opRld, window_checked hr ha hc hn, bind, Except.bind]
  exact hx

section
variable (hs : m.restart = false)
include hs

theorem opRst_sends (hc : checkCap o.a r.c [3, 6] (if xfabMode o.x 3 = 3 then [.st] else [.st, .fe]) = .ok ())
    (hn : r.va % szBytes (o.x.t2.setWidth 3) = 0)
    (hx : m.keyedOrdered (xfabMode o.x 3 = 0 || xfabMode o.x 3 = 1 || o.x.ord.getLsbD 1) o.x.sc {
      kind := kRst, win := r.c, off := BitVec.ofNat 64 r.va, mode := (xfabMode o.x 3).setWidth 8, sz := o.x.t2.setWidth 3, scope := o.x.sc
      payload := storeWords (szBytes (o.x.t2.setWidth 3)) (m.src o.d), acq := orderAcq o.x.ord o.x.sc } = .ok m1) :
    opRst o m = .ok m1 := by
  simp only [opRst, remoteCheck_ok hs, window_checked hr ha hc hn, bind, Except.bind]
  exact hx

section
variable (hc : checkCap o.a r.c [3, 6] [.atom] = .ok ()) (hn : r.va % szBytes (o.x.t2.setWidth 3) = 0)
include hc hn

theorem opRamo_sends (hx : m.keyedOrdered (o.x.ord.getLsbD 1) o.x.sc {
      kind := kRamo, win := r.c, off := BitVec.ofNat 64 r.va, sz := o.x.t2.setWidth 3, scope := o.x.sc, aux := (o.x.c.setWidth 3).setWidth 16
      payload := storeWords (szBytes (o.x.t2.setWidth 3)) (m.src o.x.b), d := o.d, acq := orderAcq o.x.ord o.x.sc } = .ok m1) :
    opRamo o m = .ok m1 := by
  simp only [opRamo, remoteCheck_ok hs, window_checked hr ha hc hn, bind, Except.bind]
  exact hx

theorem opRcas_sends (hx : m.keyedOrdered (o.x.ord.getLsbD 1) o.x.sc {
      kind := kRcas, win := r.c, off := BitVec.ofNat 64 r.va, sz := o.x.t2.setWidth 3, scope := o.x.sc
      payload := storeWords (szBytes (o.x.t2.setWidth 3)) (Cap.ofInt (m.int o.x.b)) ++
        storeWords (szBytes (o.x.t2.setWidth 3)) (Cap.ofInt (m.int o.x.c))
      d := o.d, e := o.x.e, acq := orderAcq o.x.ord o.x.sc } = .ok m1) :
    opRcas o m = .ok m1 := by
  simp only [opRcas, remoteCheck_ok hs, window_checked hr ha hc hn, bind, Except.bind]
  exact hx

end

theorem opRcall_sends (hc : checkCap o.a r.c [6] [.call] = .ok ()) (hx : m.keyedOrdered (o.x.ord.getLsbD 1) o.x.sc {
      kind := kRcall, win := r.c, off := BitVec.ofNat 64 r.va, aux := if (m.src o.x.b).tag then 1 else 0
      payload := [(m.src o.x.b).int, (m.src o.x.b).bits.extractLsb' 64 64] ++ (List.range 4).map fun k => m.int (o.x.c + BitVec.ofNat 6 k)
      acq := orderAcq o.x.ord o.x.sc } = .ok m1) :
    opRcall o m = .ok m1 := by
  subst hr
  have hf : (m.refAt o.a (immOff (some o.x))).f = o.a := rfl
  simp only [opRcall, remoteCheck_ok hs, hf, hc, ha, stallIf_false, bind, Except.bind]
  exact hx

end

end

/-! ## Notices, fences, bulk moves and mesh binds (R333, R340, R341) -/

section
variable {m m0 m1 : M} {o : XOp} (hs : m.restart = false)
include hs

theorem opRnote_sends {p : Packet} (hc : checkCap o.a (m.src o.a) [6] [.st] = .ok ()) (ha : m.acqPending = false) (ho : o.x.ord = 0)
    (hp : p = { kind := kRnote, vn := 2, rkey := (m.src o.a).rkey, addr := (m.src o.a).cursor, aux := (o.x.b.setWidth 3).setWidth 16
                ctx := m.core.ctx, priv := m.thr.sys, thr := BitVec.ofNat 3 m.tid.val
                dst := checkEndpoint (m.src o.a).wmodule (m.src o.a).rkey, src := endpointOf m.st m.core.id }) :
    opRnote o m = .ok { m with st := if scopeCode m.st m.core.die (m.src o.a).wmodule = 0 then m.st else m.st.send p } := by
  subst hp
  have h0 : (0 : BitVec 2).getLsbD 0 = false := rfl
  have h1 : (0 : BitVec 2).getLsbD 1 = false := rfl
  simp only [opRnote, remoteCheck_ok hs, hc, ha, stallIf_false, ho, h0, h1, Bool.false_eq_true, if_false, bind, Except.bind, pure, Except.pure]

theorem opRfence_noTickets (ht : m.tickets = []) : opRfence o m = .ok m := by
  simp only [opRfence, remoteCheck_ok hs, reportAny_none ht, ht, List.isEmpty_nil, Bool.not_true, stallIf_false, bind, Except.bind]

section
variable (hb : checkBounds (m.src o.x.b) (m.src o.x.b).cursor.toNat o.x.imm.toNat = .ok ()) (hw : (m.src o.a).cursor.toNat % 8 = 0)
  (hv : (m.src o.x.b).cursor.toNat % 8 = 0) (ha : m.acqPending = false)
include hb hw hv ha

theorem opRget_sends (hc : checkCap o.a (m.src o.a) [3, 6] [.ld] = .ok ()) (hd : checkCap o.x.b (m.src o.x.b) [0, 1] [.st] = .ok ())
    (hu : m.rangeUncovered (m.src o.x.b) o.x.imm.toNat true = false) (hx : m.keyedOrdered (o.x.ord.getLsbD 1) o.x.sc {
      kind := kRget, win := m.src o.a, off := (m.src o.a).cursor, scope := o.x.sc, aux := BitVec.ofNat 16 o.x.imm.toNat, d := o.d
      dst := some (m.src o.x.b, o.x.imm.toNat), acq := orderAcq o.x.ord o.x.sc } = .ok m1) :
    opRget o m = .ok m1 := by
  simp only [opRget, remoteCheck_ok hs, hc, hd, hb, checkAligned_ok hw, checkAligned_ok hv, hu, trapIf_false, ha, stallIf_false, bind,
    Except.bind]
  exact hx

theorem opRput_sends {ws : List W64} (hc : checkCap o.a (m.src o.a) [3, 6] [.st] = .ok ())
    (hd : checkCap o.x.b (m.src o.x.b) [0, 1] [.ld] = .ok ())
    (hl : m.loadWords (m.src o.x.b) (m.src o.x.b).cursor.toNat (o.x.imm.toNat / 8) = .ok (m0, ws))
    (hx : m0.keyedOrdered (o.x.ord.getLsbD 1) o.x.sc {
      kind := kRput, win := m.src o.a, off := (m.src o.a).cursor, scope := o.x.sc, aux := BitVec.ofNat 16 o.x.imm.toNat, d := o.d
      payload := ws, acq := orderAcq o.x.ord o.x.sc } = .ok m1) :
    opRput o m = .ok m1 := by
  simp only [opRput, remoteCheck_ok hs, hc, hd, hb, checkAligned_ok hw, checkAligned_ok hv, ha, stallIf_false, hl, bind, Except.bind]
  exact hx

end

/-- A mesh bind: the queue bound with eight credits, and the request sent where the partner's module is reachable. -/
theorem opQbind_toTeam {q : BitVec 3} {a b : F6} (h6 : (m.int b).getLsbD 6 = true) (hc : checkCap a (m.src a) [6] [.st, .ld] = .ok ()) :
    opQbind q a b m = .ok
      (let m1 : M := { m with thr := m.thr.setQ q.toFin fun y => { y with
         bind := .toTeam (m.src a) (fieldOf (m.int b) 31 8) ((m.int b).extractLsb' 3 3) ((m.int b).setWidth 3) false 8 [], failed := false } }
       if scopeCode m.st m.core.die (m.src a).wmodule = 0 then m1 else { m1 with
         st := m1.st.send (bindPacket m1 q (m.src a) (fieldOf (m.int b) 31 8) ((m.int b).extractLsb' 3 3) ((m.int b).setWidth 3)) }) := by
  simp only [opQbind, h6, if_true, hs, trapIf_false, hc, unbind, bind, Except.bind, pure, Except.pure]

end

/-! ## Sending a keyed request (R79, R81, R86, R241) -/

theorem keyed_full {m : M} (k : KReq) (h : m.core.freeEntry = none) : m.keyed k = .error .stall := by
  simp only [M.keyed, h]

/-- The packet that a keyed request sends. -/
def keyedPacket (m : M) (k : KReq) : Packet :=
  { rkey := k.win.rkey, mode := k.mode, scope := k.scope, size := k.sz, aux := k.aux, addr := k.off, seq := m.core.seqOf k.win.rkey m.tid.val
    gen := m.core.genOf m.core.newTag, tag := BitVec.ofNat 10 m.core.newTag, thr := BitVec.ofNat 3 m.tid.val, ctx := m.core.ctx, priv := m.thr.sys
    len := BitVec.ofNat 8 ((k.payload.length + 1) / 2), kind := k.kind, vn := 0, dst := checkEndpoint k.win.wmodule k.win.rkey
    src := endpointOf m.st m.core.id, payload := k.payload }

/-- The entry of the ticket table that it takes. -/
def keyedTicket (m : M) (k : KReq) (idx : Nat) : Ticket :=
  { idx := idx, tag := m.core.newTag, gen := m.core.genOf m.core.newTag, thr := m.tid.val, req := keyedPacket m k, d := k.d, e := k.e
    pc := m.thr.pc, ins := m.ins, acq := k.acq, dst := k.dst, vec := k.vec, vmask := k.vmask, size := szBytes k.sz, sext := k.sext, ff := k.ff
    first := m.st.now, sent := m.st.now, heard := m.st.now }

/-- The state with that entry in the table, before the destinations are pending. -/
def keyedTabled (m : M) (k : KReq) (idx : Nat) : M :=
  { m with core := { m.core.bumpSeq k.win.rkey m.tid.val with
      tickets := m.core.tickets ++ [keyedTicket m k idx], tagNext := (m.core.newTag + 1) % queueTag } }

/-- With a free entry the request is sent: beyond the table and the pending destinations only the machine's events change. -/
theorem keyed_sent {m : M} {k : KReq} {idx : Nat} (h : m.core.freeEntry = some idx) :
    ∃ st, m.keyed k = .ok { ((keyedTabled m k idx).setPending k.d k.vec).setPending k.e false with st := st } := by
  simp only [M.keyed, h]
  exact ⟨_, rfl⟩

/-- Settles O29: a full ticket table stalls, a free entry is taken (`keyed_sent`); each instruction is its checks, then that request. -/
theorem keyedInstructions : Obligations.KeyedInstructions := by
  constructor
  · intro s m
    exact ⟨fun o r m1 hr hc hn ha hx => completes_of_effect (exec_rld ..) (opRld_sends hr ha hc hn hx),
      fun o r m1 hs hr hc hn ha hx => completes_of_effect (exec_rst ..) (opRst_sends hr ha hs hc hn hx),
      fun o r m1 hs hr hc hn ha hx => completes_of_effect (exec_ramo ..) (opRamo_sends hr ha hs hc hn hx),
      fun o r m1 hs hr hc hn ha hx => completes_of_effect (exec_rcas ..) (opRcas_sends hr ha hs hc hn hx),
      fun o r m1 hs hr hc ha hx => completes_of_effect (exec_rcall ..) (opRcall_sends hr ha hs hc hx),
      fun o p hs hc ha ho hp => completes_of_effect (exec_rnote ..) (opRnote_sends hs hc ha ho hp),
      fun o hs ht => completes_of_effect (exec_rfence ..) (opRfence_noTickets hs ht),
      fun o m1 hs hc hd hb hw hv hu ha hx => completes_of_effect (exec_rget ..) (opRget_sends hs hb hw hv ha hc hd hu hx),
      fun o ws m0 m1 hs hc hd hb hw hv ha hl hx => completes_of_effect (exec_rput ..) (opRput_sends hs hb hw hv ha hc hd hl hx),
      fun q a b h6 hs hc => completes_of_effect (exec_qbind ..) (opQbind_toTeam hs h6 hc)⟩
  · intro m
    refine ⟨fun k h => keyed_full k h, fun k idx h => ?_⟩
    obtain ⟨st, hm⟩ := keyed_sent (k := k) h
    refine ⟨_, keyedTicket m k idx, hm, ?_⟩
    simp only [sp_tickets, sp_c, sp_v, sp_pc, sp_mem]
    refine ⟨rfl, rfl, rfl, rfl, rfl, rfl, rfl, rfl, rfl, rfl, rfl, rfl, rfl, rfl, rfl, rfl, rfl, rfl, rfl, rfl, rfl, rfl, rfl, rfl, rfl, rfl, rfl, ?_⟩
    intro hv h0 h32 he
    exact sp_pend (m := keyedTabled m k idx) hv h0 h32 he

end Sys2Proof.Machine
end

section
/-!
Vector instructions: lanes (R346–R361), elements (R343–R350), loads and stores (R362, R363).
-/
namespace Sys2Proof.Machine
open Sys2Proof Sys2Proof.Safety

/-! ## Instructions on lanes -/

section
variable {t : BitVec 3} {o : XOp} {m : M}

theorem opVqn4p_ok {src : VTy} (h : VTy.ofCode (o.x.c.toNat % 16) = some src) :
    opVqn4p t o m = .ok (m.vout o.d (laneQn4p (partOf (some o.x))
      { m.vin (XOp.vform o) .qn4 o.d o.a 0 with src := src, a := m.vsrc o.a src.size, b := m.vsrc o.x.b src.size })) := by
  simp only [opVqn4p, h, Option.getD_some]

theorem opVqn4u_ok {ty : VTy} (h : VTy.ofCode t.toNat = some ty) :
    opVqn4u t o m = .ok (m.vout o.d (laneQn4u (partOf (some o.x))
      { m.vin (XOp.vform o) ty o.d o.a 0 with a := m.vsrc o.a 1, b := m.vsrc o.x.b ty.size })) := by
  simp only [opVqn4u, h, Option.getD_some]

end

/-- Settles O19: the effect of each word is its lanes written by `M.vout`, which no check precedes. -/
theorem vectorArithmetic : Obligations.VectorArithmetic := by
  intro s m
  exact ⟨fun t d a b => completes_of_effect (exec_vadd t d a b s) rfl,
    fun t d a b => completes_of_effect (exec_vsub t d a b s) rfl,
    fun t d a b => completes_of_effect (exec_vmul t d a b s) rfl,
    fun t d a b => completes_of_effect (exec_vmin t d a b s) rfl,
    fun t d a b => completes_of_effect (exec_vmax t d a b s) rfl,
    fun t d a => completes_of_effect (exec_vabs t d a s) rfl,
    fun t d a => completes_of_effect (exec_vneg t d a s) rfl,
    fun t d a b => completes_of_effect (exec_vabd t d a b s) rfl,
    fun t d a b => completes_of_effect (exec_vfma t d a b s) rfl,
    fun t d a b => completes_of_effect (exec_vfms t d a b s) rfl,
    fun t d a b => completes_of_effect (exec_vfnma t d a b s) rfl,
    fun t d a b => completes_of_effect (exec_vfnms t d a b s) rfl,
    fun t d a b => completes_of_effect (exec_vdot4 t d a b s) rfl,
    fun t d a b => completes_of_effect (exec_vdot2 t d a b s) rfl,
    fun t d a b => completes_of_effect (exec_vmulh t d a b s) rfl,
    fun t d a b => completes_of_effect (exec_vsad t d a b s) rfl,
    fun t d a b => completes_of_effect (exec_vand t d a b s) rfl,
    fun t d a b => completes_of_effect (exec_vor t d a b s) rfl,
    fun t d a b => completes_of_effect (exec_vxor t d a b s) rfl,
    fun t d a b => completes_of_effect (exec_vandn t d a b s) rfl,
    fun t d a b => completes_of_effect (exec_vsll t d a b s) rfl,
    fun t d a b => completes_of_effect (exec_vsrl t d a b s) rfl,
    fun t d a b => completes_of_effect (exec_vsra t d a b s) rfl,
    fun t d a => completes_of_effect (exec_vnot t d a s) rfl,
    fun t d a => completes_of_effect (exec_vrcp t d a s) rfl,
    fun t d a => completes_of_effect (exec_vrsqrt t d a s) rfl,
    fun t d a => completes_of_effect (exec_vsqrt t d a s) rfl,
    fun t d a b => completes_of_effect (exec_vdiv t d a b s) rfl,
    fun t d a => completes_of_effect (exec_vexp2 t d a s) rfl,
    fun t d a => completes_of_effect (exec_vlog2 t d a s) rfl,
    fun t d a => completes_of_effect (exec_vtanh t d a s) rfl,
    fun t d a => completes_of_effect (exec_vsigm t d a s) rfl,
    fun t d a => completes_of_effect (exec_vradd t d a s) rfl,
    fun t d a => completes_of_effect (exec_vrmax t d a s) rfl,
    fun t d a => completes_of_effect (exec_vrmin t d a s) rfl,
    fun t d a => completes_of_effect (exec_vrand t d a s) rfl,
    fun t d a => completes_of_effect (exec_vror t d a s) rfl,
    fun t d a => completes_of_effect (exec_vrxor t d a s) rfl,
    fun t d a => completes_of_effect (exec_vscan t d a s) rfl,
    fun t d a => completes_of_effect (exec_vrsum t d a s) rfl⟩

/-- Settles O20: as O19; a compare's effect is its mask and flags. -/
theorem vectorCompareConvertMove : Obligations.VectorCompareConvertMove := by
  intro s m
  exact ⟨fun t d a b => completes_of_effect (exec_vceq t d a b s) rfl,
    fun t d a b => completes_of_effect (exec_vcne t d a b s) rfl,
    fun t d a b => completes_of_effect (exec_vclt t d a b s) rfl,
    fun t d a b => completes_of_effect (exec_vcle t d a b s) rfl,
    fun t d a b => completes_of_effect (exec_vcgt t d a b s) rfl,
    fun t d a b => completes_of_effect (exec_vcge t d a b s) rfl,
    fun t d a b => completes_of_effect (exec_vcltu t d a b s) rfl,
    fun t d a b => completes_of_effect (exec_vcun t d a b s) rfl,
    fun t d a b => completes_of_effect (exec_vcvt t d a b s) rfl,
    fun t d a b => completes_of_effect (exec_vcvtSat t d a b s) rfl,
    fun t d a b => completes_of_effect (exec_vwid t d a b s) rfl,
    fun t d a b => completes_of_effect (exec_vwidh t d a b s) rfl,
    fun t d a b => completes_of_effect (exec_vnar t d a b s) rfl,
    fun t d a b => completes_of_effect (exec_vrint t d a b s) rfl,
    fun t o _ h => completes_of_effect (exec_vqn4p t o s) (opVqn4p_ok h),
    fun t o _ h => completes_of_effect (exec_vqn4u t o s) (opVqn4u_ok h),
    fun t d a b => completes_of_effect (exec_vbc t d a b s) rfl,
    fun t d a b => completes_of_effect (exec_vshf t d a b s) rfl,
    fun t d a b => completes_of_effect (exec_vrot t d a b s) rfl,
    fun t d a b => completes_of_effect (exec_vext t d a b s) rfl,
    fun t d a b => completes_of_effect (exec_vins t d a b s) rfl,
    fun t d a b => completes_of_effect (exec_vzip t d a b s) rfl,
    fun t d a b => completes_of_effect (exec_vuzp t d a b s) rfl,
    fun t d a b => completes_of_effect (exec_vcpr t d a b s) rfl,
    fun d a b => completes_of_effect (exec_vsacc d a b s) rfl,
    fun d a => completes_of_effect (exec_vxpk d a s) rfl,
    fun d a => completes_of_effect (exec_vxacc d a s) rfl,
    fun d a => completes_of_effect (exec_vxfin d a s) rfl,
    fun d a b => completes_of_effect (exec_vbsc d a b s) rfl,
    fun t d a => completes_of_effect (exec_vmov t d a s) rfl,
    fun t d => completes_of_effect (exec_vzero t d s) rfl,
    fun t d a => completes_of_effect (exec_vfill t d a s) rfl,
    fun t d a => completes_of_effect (exec_vkmov t d a s) rfl,
    fun t d a b => completes_of_effect (exec_vwbc t d a b s) rfl⟩

/-! ## Elements -/

theorem size_mem (t : VTy) : t.size ∈ [1, 2, 4, 8] := by cases t <;> decide

theorem elem_lanes_active {i : VIn} {s j : Nat} {f : Nat → FRes} (hs : s ∈ [1, 2, 4, 8]) (hj : j < 64 / s) (ha : i.mask.getLsbD (s * j) = true) :
    elem (i.lanes s f).v s j = (f j).bits % 2 ^ (8 * s) := by
  rw [elem_lanes i s j f hs hj, VIn.act, ha, if_pos rfl]

theorem elem_lanes_masked (i : VIn) (s : Nat) (f : Nat → FRes) (j : Nat) (hs : s ∈ [1, 2, 4, 8]) (hj : j < 64 / s) :
    elem (i.lanes s f).v s j = if i.mask.getLsbD (s * j) then (f j).bits % 2 ^ (8 * s) else if i.z then 0 else elem i.d s j := by
  rw [elem_lanes i s j f hs hj, VIn.act]
  split
  · rfl
  · split
    · exact Nat.zero_mod _
    · exact Nat.mod_eq_of_lt (elem_lt i.d s j)

section
variable {i : VIn} {j : Nat} (hj : j < 64 / i.ty.size) (ha : i.mask.getLsbD (i.ty.size * j) = true)
include hj ha

theorem elem_laneArith (fn : Nat) : elem (laneArith fn i).v i.ty.size j =
    (varithEl fn i.ty i.rm (i.x.getLsbD 1) (elem i.a i.ty.size j) (elem i.b i.ty.size j)).bits % 2 ^ (8 * i.ty.size) :=
  elem_lanes_active (size_mem _) hj ha

theorem elem_laneFma (fn : Nat) : elem (laneFma fn i).v i.ty.size j =
    (vfmaEl fn i.ty i.rm (elem i.c i.ty.size j) (elem i.a i.ty.size j) (elem i.b i.ty.size j)).bits % 2 ^ (8 * i.ty.size) :=
  elem_lanes_active (size_mem _) hj ha

theorem elem_laneLogic (fn : Nat) : elem (laneLogic fn i).v i.ty.size j =
    vlogicEl fn i.ty.bits (elem i.a i.ty.size j) (elem i.b i.ty.size j) % 2 ^ (8 * i.ty.size) :=
  elem_lanes_active (size_mem _) hj ha

end

/-! The functions of an integer type. -/
section
variable {t : VTy} (hf : t.fmt = none) (rm : RMode) (sat : Bool) (x y z : Nat)
include hf

theorem varithEl_add : varithEl 0 t rm sat x y = intRes t sat (intVal t.signed t.bits x + intVal t.signed t.bits y) := by
  simp only [varithEl, hf]

theorem varithEl_sub : varithEl 1 t rm sat x y = intRes t sat (intVal t.signed t.bits x - intVal t.signed t.bits y) := by
  simp only [varithEl, hf]

theorem varithEl_mul : varithEl 2 t rm sat x y = intRes t sat (intVal t.signed t.bits x * intVal t.signed t.bits y) := by
  simp only [varithEl, hf]

theorem varithEl_min : varithEl 3 t rm sat x y = intRes t false
    (if intVal t.signed t.bits x ≤ intVal t.signed t.bits y then intVal t.signed t.bits x else intVal t.signed t.bits y) := by
  simp only [varithEl, hf]

theorem varithEl_max : varithEl 4 t rm sat x y = intRes t false
    (if intVal t.signed t.bits x ≤ intVal t.signed t.bits y then intVal t.signed t.bits y else intVal t.signed t.bits x) := by
  simp only [varithEl, hf]

theorem varithEl_abd : varithEl 7 t rm sat x y = intRes t false ((intVal t.signed t.bits x - intVal t.signed t.bits y).natAbs : Int) := by
  simp only [varithEl, hf]

theorem vfmaEl_fma : vfmaEl 0 t rm z x y = intRes t false (intVal t.signed t.bits z + intVal t.signed t.bits x * intVal t.signed t.bits y) := by
  simp only [vfmaEl, hf]

theorem vfmaEl_fms : vfmaEl 1 t rm z x y = intRes t false (intVal t.signed t.bits z - intVal t.signed t.bits x * intVal t.signed t.bits y) := by
  simp only [vfmaEl, hf]

theorem vfmaEl_fnma : vfmaEl 2 t rm z x y = intRes t false (-(intVal t.signed t.bits z + intVal t.signed t.bits x * intVal t.signed t.bits y)) := by
  simp only [vfmaEl, hf]

theorem vfmaEl_fnms : vfmaEl 3 t rm z x y = intRes t false (intVal t.signed t.bits x * intVal t.signed t.bits y - intVal t.signed t.bits z) := by
  simp only [vfmaEl, hf]

end

/-- Settles O21: each element by `elem_lanes` and the equation of its function. -/
theorem vectorElements : Obligations.VectorElements := by
  refine ⟨elem_lanes_masked, fun i j hf hj ha => ?_, fun i j hf hj ha => ?_, fun i j hf hj ha => ?_, fun i j hf hj ha => ?_,
    fun i j hf hj ha => ?_, fun i j hf hj ha => ?_, fun i j hf hj ha => ?_, fun i j hf hj ha => ?_, fun i j hf hj ha => ?_,
    fun i j hf hj ha => ?_, fun i j hj ha => elem_laneLogic hj ha 0, fun i j hj ha => elem_laneLogic hj ha 1,
    fun i j hj ha => elem_laneLogic hj ha 2⟩
  · rw [elem_laneArith hj ha, varithEl_add hf]; rfl
  · rw [elem_laneArith hj ha, varithEl_sub hf]; rfl
  · rw [elem_laneArith hj ha, varithEl_mul hf]; rfl
  · rw [elem_laneArith hj ha, varithEl_min hf]; rfl
  · rw [elem_laneArith hj ha, varithEl_max hf]; rfl
  · rw [elem_laneArith hj ha, varithEl_abd hf]; rfl
  · rw [elem_laneFma hj ha, vfmaEl_fma hf]; rfl
  · rw [elem_laneFma hj ha, vfmaEl_fms hf]; rfl
  · rw [elem_laneFma hj ha, vfmaEl_fnma hf]; rfl
  · rw [elem_laneFma hj ha, vfmaEl_fnms hf]; rfl

end Sys2Proof.Machine
end

section
/-!
Vector loads and stores (R362, R363, R238).
-/
namespace Sys2Proof.Machine
open Sys2Proof Sys2Proof.Safety

/-- The types that a vector access admits. -/
def vecTypes (am : BitVec 2) : List Nat := if am = 3 then [0, 1] else [0, 1, 6]

theorem vecTypes_local {am : BitVec 2} {c : Cap} (hk : c.kind = 1) : (vecTypes am).contains c.kind = true := by
  rw [hk, vecTypes]
  split <;> rfl

theorem checkCap_vecLocal {f : F6} {am : BitVec 2} {c : Cap} {p : Perm} (ht : c.tag = true) (hk : c.kind = 1) (hp : capHas c p = true) :
    checkCap f c (vecTypes am) [p] = .ok () :=
  checkCap_ok ht (vecTypes_local hk) (by simp [hp])

/-- Every element of a vector access lies in bounds, aligned, and below the register window. -/
def VecLocal (v : VAcc) : Prop :=
  ∀ j < v.n, v.r.c.base ≤ v.at_ j ∧ v.at_ j + v.s ≤ v.r.c.top ∧ v.at_ j % v.s = 0 ∧ v.at_ j + v.s ≤ 0x3C000

theorem acts_lt {v : VAcc} {j : Nat} (h : j ∈ v.acts) : j < v.n := List.mem_range.mp (List.mem_filter.mp h).1

section
variable {m : M} {v : VAcc} (hl : VecLocal v)
include hl

theorem vecLocal_below {j : Nat} (h : j ∈ v.acts) : v.at_ j + v.s ≤ 0x3C000 := by
  obtain ⟨-, -, -, hb⟩ := hl j (acts_lt h)
  exact hb

theorem winCheck_vecLocal {j : Nat} (h : j ∈ v.acts) : m.winCheck (v.at_ j) v.s = .ok () :=
  winCheck_ok (winAbsent_low (vecLocal_below hl h)) (winPending_low (vecLocal_below hl h))

theorem vfaults_vecLocal {w : Bool} (hk : v.r.c.kind = 1) : m.vfaults v w = [] := by
  refine vfaults_nil fun j hj => ?_
  obtain ⟨hb, ht, ha, -⟩ := hl j (acts_lt hj)
  exact velem_ok hk hb ht ha (winCheck_vecLocal hl hj)

end

section
variable {m m1 : M} {d a : F6} {sz : BitVec 3} {am : BitVec 2} {ea : BitVec 7} {v : VAcc} (hv : v = m.vacc {} a sz am ea)
  (ha : m.acqPending = false)
include hv ha

/-- A load none of whose elements faults: the elements' accesses, the register, the base. -/
theorem opVld_loads {w : V512} (hc : checkCap a v.r.c (vecTypes am) [.ld] = .ok ()) (hk : v.r.c.kind ≠ 6) (hf : m.vfaults v false = [])
    (hx : m.vloadAll v v.acts (m.vsrc d v.s) = .ok (m1, w)) :
    opVld {} d a sz am ea m = .ok ((m1.vwrite d.toNat w).update a v.r.ad) := by
  have hy : m.vloadAll v ((List.range v.n).filter v.act) (m.vsrc d v.s) = .ok (m1, w) := hx
  simp only [vecTypes] at hc
  simp only [opVld, ← hv, Option.elim_none, Bool.false_eq_true, or_false, hc, ha, stallIf_false, if_neg hk, hf, formOrd, Bool.false_and,
    if_false, vraise, List.find?_nil, ordered_plain, vInactive, hy, bind, Except.bind, pure, Except.pure]

variable (hs : m.restartCheck v.r.c = .ok ()) (hc : checkCap a v.r.c (vecTypes am) [.st] = .ok ()) (hk : v.r.c.kind ≠ 6)
  (hf : m.vfaults v true = [])
include hs hc hk hf

/-- A store none of whose elements faults, over no tenured byte that it may not write: a whole block as one write, else the elements. -/
theorem opVst_stores (hu : m.uncovered (v.touched v.acts) true = [])
    (hx : (if am != 3 && v.r.c.kind == 0 && decide (v.acts.length = v.n) && v.r.va % 64 == 0 then m.storeAt v.r.c v.r.va 64 (m.vsrc d v.s).toNat none false
      else v.acts.foldlM (fun m1 j => m1.storeAt v.r.c (v.at_ j) v.s (elem (m.vsrc d v.s) v.s j) none false) m) = .ok m1) :
    opVst {} d a sz am ea m = .ok (m1.update a v.r.ad) := by
  simp only [vecTypes] at hc
  simp only [opVst, ← hv, hs, hc, ha, stallIf_false, if_neg hk, hf, formOrd, Option.elim_none, vraise, List.find?_nil, hu, List.isEmpty_nil, Bool.not_true,
    trapIf_false, ordered_plain, hx, bind, Except.bind, pure, Except.pure]

theorem opVst_tenured (hu : m.uncovered (v.touched v.acts) true ≠ []) :
    opVst {} d a sz am ea m = .error (.trap causeTenure 0 []) := by
  have he : (m.uncovered (v.touched v.acts) true).isEmpty = false := by simpa using hu
  simp only [vecTypes] at hc
  simp only [opVst, ← hv, hs, hc, ha, stallIf_false, if_neg hk, hf, vraise, List.find?_nil, he, Bool.not_false, trapIf, if_true, bind, Except.bind]

end

/-- Settles O22: a local access by `vload_local` and `vstore_local`, one through type 0 by what its elements' accesses answer. -/
theorem vectorLoadsAndStores : Obligations.VectorLoadsAndStores := by
  intro s m
  refine ⟨fun d a sz am ea v hv ht hk hp ha hl => ?_, fun d a sz am ea v m1 w hv hk hc ha hf hx => ?_,
    fun d a sz am ea v hv ht hk hp ha hl => ?_, fun d a sz am ea v m1 hv hk hs hc ha hf hu hx => ?_,
    fun d a sz am ea v hv hk hs hc ha hf hu hi => ?_⟩
  · exact completes_of_effect (exec_vld ..) (opVld_loads hv ha (checkCap_vecLocal ht hk hp) (by omega) (vfaults_vecLocal hl hk)
      (vload_local hk fun j hj => winCheck_vecLocal hl hj))
  · exact completes_of_effect (exec_vld ..) (opVld_loads hv ha hc (by omega) hf hx)
  · refine completes_of_effect (exec_vst ..) (opVst_stores hv ha (restartCheck_kind hk) (checkCap_vecLocal ht hk hp) (by omega)
      (vfaults_vecLocal hl hk) (uncovered_local hk) ?_)
    rw [hk, if_neg (by simp)]
    exact vstore_local hk fun j hj => vecLocal_below hl hj
  · exact completes_of_effect (exec_vst ..) (opVst_stores hv ha hs hc (by omega) hf hu hx)
  · exact (exec_vst ..).trans (runInstr_traps hi (opVst_tenured hv ha hs hc (by omega) hf hu))

end Sys2Proof.Machine
end

section
/-!
Commands of the matrix unit (R368–R380).
-/
namespace Sys2Proof.Machine
open Sys2Proof Sys2Proof.Safety

/-! ## Local commands -/

section
variable {m mu m1 m2 : M} {o : XOp}

/-- A multiply command: its K-steps, its acquire, and the unit kept for the cycles of the steps. -/
theorem multiply_ok {j : MulJob} (hs : M.mulSteps j (m.mulRest j) m = .ok m1) (hq : m1.matAcquire o = .ok m2) :
    m.multiply j o = .ok (({ m2 with thr := { m2.thr with rowprog := 0 } } : M).runFor [j.acc] (16 * (m.mulRest j).length)) := by
  simp only [M.multiply, hs, hq, bind, Except.bind, pure, Except.pure]

/-- The job of `mmul` and `mq4`. -/
def mulJob (m : M) (o : XOp) (fmt : MFmt) (bytes : Nat) : MulJob :=
  { acc := o.d.setWidth 2, fmt := fmt, rm := m.xrm o, a := m.src o.a, b := m.src o.x.b, base := (m.src o.a).cursor.toNat
    sa := (mdesc (m.int o.x.e)).sa, sb := (mdesc (m.int o.x.e)).sb, bytes := bytes, steps := (bytes + 191) / 192
    groups := [{ lo := 0, n := 32, b := (m.src o.x.b).cursor.toNat }] }

variable (ha : m.acqPending = false) (hu : UnitIdle m)
include ha hu

section
variable {fmt : MFmt} {qn : Bool} {bytes : Nat} (hb : bytes = if qn then 32 * (mdesc (m.int o.x.e)).nk else 192 * (mdesc (m.int o.x.e)).nk)
include hb

theorem mulWith_ok (hc : m.mulOperands o.a o.x.b (mdesc (m.int o.x.e)) bytes = .ok ()) (hm : mu = withUnit m [o.d.setWidth 2])
    (hs : M.mulSteps (mulJob m o fmt bytes) (mu.mulRest (mulJob m o fmt bytes)) mu = .ok m1) (hq : m1.matAcquire o = .ok m2) :
    mulWith fmt qn o m = .ok (({ m2 with thr := { m2.thr with rowprog := 0 } } : M).runFor [o.d.setWidth 2]
      (16 * (mu.mulRest (mulJob m o fmt bytes)).length)) := by
  subst hm
  simp only [mulWith, ← hb, hc, ha, stallIf_false, bind, Except.bind]
  exact onUnit_run hu (multiply_ok (j := mulJob m o fmt bytes) hs hq)

end

/-- A grouped command: its table read, checked and turned into groups, then the multiply command. -/
theorem opMgrp_ok {m0 : M} {gs : List MGroup} {t : Nat} {j : MulJob} (hca : matCap o.a (m.src o.a) .ld = .ok ())
    (hcb : matCap o.x.b (m.src o.x.b) .ld = .ok ()) (hcc : matCap o.x.c (m.src o.x.c) .ld = .ok ())
    (hbc : checkBounds (m.src o.x.c) (m.src o.x.c).cursor.toNat 64 = .ok ()) (haa : checkAligned (m.src o.a).cursor.toNat 64 = .ok ())
    (hab : checkAligned (m.src o.x.b).cursor.toNat 64 = .ok ()) (hac : checkAligned (m.src o.x.c).cursor.toNat 8 = .ok ())
    (hd : MDesc.ok (mdesc (m.int o.x.e)) = true)
    (ht : (withUnit m [o.d.setWidth 2]).asUnit.matRead (m.src o.x.c) (m.src o.x.c).cursor.toNat 64 = .ok (m0, t))
    (hg : gs = groupsOf t (m.src o.x.b).cursor)
    (hr : (decide (32 < (gs.map (·.n)).sum) || (List.range 8).any fun g => (groupEntry t g).2.1) = false)
    (hia : rowsIn (m.src o.a) (m.src o.a).cursor.toNat (mdesc (m.int o.x.e)).sa (192 * (mdesc (m.int o.x.e)).nk) (gs.map (·.n)).sum = .ok ())
    (hib : groupsIn (m.src o.x.b) (mdesc (m.int o.x.e)).sb (192 * (mdesc (m.int o.x.e)).nk) gs = .ok ())
    (hj : j = {
      acc := o.d.setWidth 2, fmt := MFmt.ofT2 o.x.t2.toNat, rm := m0.asCore.xrm o, a := m.src o.a, b := m.src o.x.b
      base := (m.src o.a).cursor.toNat, sa := (mdesc (m.int o.x.e)).sa, sb := (mdesc (m.int o.x.e)).sb, bytes := 192 * (mdesc (m.int o.x.e)).nk
      steps := (mdesc (m.int o.x.e)).nk, groups := gs.map fun g => if g.n = 0 then { g with nb := 0 } else g })
    (hs : M.mulSteps j (m0.asCore.mulRest j) m0.asCore = .ok m1) (hq : m1.matAcquire o = .ok m2) :
    opMgrp o m = .ok (({ m2 with thr := { m2.thr with rowprog := 0 } } : M).runFor [o.d.setWidth 2] (16 * (m0.asCore.mulRest j).length)) := by
  have hx := multiply_ok hs hq
  subst hj hg
  simp only [opMgrp, hca, hcb, hcc, hbc, haa, hab, hac, hd, Bool.not_true, trapIf_false, ha, stallIf_false, bind, Except.bind]
  refine onUnit_run hu ?_
  simp only [ht, hr, trapIf_false, hia, hib]
  exact hx

omit ha in
theorem opMzero_ok : opMzero o m = .ok (offUnit ((withUnit m [o.d.setWidth 2]).putAcc (o.d.setWidth 2) [] 0)) := onUnit_idle hu rfl

/-- The element that a scaling adds: `rho` and `kap` are the bytes of the row and column factors. -/
def saccElem (m : M) (o : XOp) (rho kap e : Nat) : FRes :=
  fSacc (m.xrm o) (fp32.decode (m.core.accWord (o.d.setWidth 2) e).toNat) (m.core.accWord (o.a.setWidth 2) e).toInt
    (fp32.decode (rho / 2 ^ (32 * (e / 32)) % 2 ^ 32)) (fp32.decode (kap / 2 ^ (32 * (e % 32)) % 2 ^ 32))

theorem opMsacc_ok {m3 m4 : M} {rho kap : Nat} (hcb : matCap o.x.b (m.src o.x.b) .ld = .ok ())
    (hbb : checkBounds (m.src o.x.b) (m.src o.x.b).cursor.toNat 128 = .ok ()) (hcc : matCap o.x.c (m.src o.x.c) .ld = .ok ())
    (hbc : checkBounds (m.src o.x.c) (m.src o.x.c).cursor.toNat 128 = .ok ()) (hab : checkAligned (m.src o.x.b).cursor.toNat 4 = .ok ())
    (hac : checkAligned (m.src o.x.c).cursor.toNat 4 = .ok ())
    (hm : mu = withUnit m (if o.x.x.getLsbD 1 then [o.d.setWidth 2, o.a.setWidth 2] else [o.d.setWidth 2]))
    (hrho : mu.asUnit.matRead (m.src o.x.b) (m.src o.x.b).cursor.toNat 128 = .ok (m1, rho))
    (hkap : m1.matRead (m.src o.x.c) (m.src o.x.c).cursor.toNat 128 = .ok (m2, kap))
    (h3 : m3 = m2.asCore.putAcc (o.d.setWidth 2) ((List.range 1024).map fun e => BitVec.ofNat 32 (saccElem m2.asCore o rho kap e).bits)
      (((List.range 1024).map fun e => (saccElem m2.asCore o rho kap e).flags).foldl (fun x y => x ||| y) 0))
    (hq : (if o.x.x.getLsbD 1 then m3.putAcc (o.a.setWidth 2) [] 0 else m3).matAcquire o = .ok m4) :
    opMsacc o m = .ok (offUnit m4) := by
  subst hm h3
  simp only [opMsacc, hcb, hbb, hcc, hbc, hab, hac, ha, stallIf_false, bind, Except.bind]
  refine onUnit_idle hu ?_
  simp only [hrho, hkap, List.map_map, List.foldl_map]
  rw [List.foldl_map] at hq
  exact hq

omit ha hu in
theorem moveStride_ok {v : W64} (h : v.toNat % 64 = 0) : moveStride v = .ok v.toNat := by
  simp only [moveStride, h, bne_self_eq_false, trapIf_false, bind, Except.bind, pure, Except.pure]

section
variable (hr : rowsIn (m.src o.a) (m.src o.a).cursor.toNat (m.int o.x.b).toNat 128 32 = .ok ())
  (hal : checkAligned (m.src o.a).cursor.toNat 64 = .ok ()) (hst : (m.int o.x.b).toNat % 64 = 0)
include hr hal hst

theorem opMldz_ok {rows : List Nat} (hc : matCap o.a (m.src o.a) .ld = .ok ()) (hm : mu = withUnit m [o.d.setWidth 2])
    (hx : mu.asUnit.matRows (m.src o.a) (m.src o.a).cursor.toNat (m.int o.x.b).toNat 0 128 32 = .ok (m1, rows))
    (hq : (m1.asCore.putAcc (o.d.setWidth 2) (rows.flatMap fun r => (List.range 32).map fun j => BitVec.ofNat 32 (r / 2 ^ (32 * j))) 0).matAcquire o = .ok m2) :
    opMldz o m = .ok (offUnit m2) := by
  subst hm
  simp only [opMldz, hc, hr, hal, moveStride_ok hst, ha, stallIf_false, bind, Except.bind]
  refine onUnit_idle hu ?_
  simp only [hx]
  exact hq

/-- Granule `k` of an accumulator: half `k % 2` of row `k / 2`. -/
def accGranule (m : M) (o : XOp) (k : Nat) : V512 :=
  BitVec.ofNat 512 ((List.range 16).foldr (fun j acc => (m.core.accWord (o.d.setWidth 2) (32 * (k / 2) + 16 * (k % 2) + j)).toNat + 2 ^ 32 * acc) 0)

theorem opMstz_ok {m0 : M} (hs : m.restartCheck (m.src o.a) = .ok ()) (hc : matCap o.a (m.src o.a) .st = .ok ()) (hm : mu = withUnit m [])
    (hrel : (if o.x.ord.getLsbD 1 then mu.release o.x.sc else .ok mu) = .ok m0)
    (hx : (List.range 64).foldlM (fun (m' : M) k => m'.tileStore (m.src o.a)
      (rowVa (m.src o.a).cursor.toNat (m.int o.x.b).toNat (k / 2) + 64 * (k % 2)) (accGranule m0 o k)) m0.asUnit = .ok m1)
    (hq : m1.asCore.matAcquire o = .ok m2) : opMstz o m = .ok (offUnit m2) := by
  subst hm
  simp only [opMstz, hs, hc, hr, hal, moveStride_ok hst, ha, stallIf_false, bind, Except.bind]
  refine onUnit_idle hu ?_
  simp only [accGranule] at hx
  split at hrel
  case isTrue hb =>
    simp only [hb, if_true, hrel, hx]
    exact hq
  case isFalse hb =>
    obtain rfl := Except.ok.inj hrel
    simp only [hb, pure, Except.pure, hx]
    exact hq

end

omit ha in
theorem opMrd_ok : opMrd o m = .ok (offUnit ((withUnit m []).vwrite o.d.toNat (ofElems 4 16 fun j =>
    if (m.xmask o).getLsbD (4 * j) then (m.core.accWord (o.a.setWidth 2) (accIndex o j)).toNat else if o.x.z then 0 else elem (m.vsrc o.d 4) 4 j))) :=
  onUnit_idle hu rfl

omit ha in
theorem opMwr_ok : opMwr o m = .ok (offUnit ((withUnit m [o.d.setWidth 2]).putAcc (o.d.setWidth 2)
    ((List.range 16).foldl (fun z j => if (m.xmask o).getLsbD (4 * j) then z.set (accIndex o j) (BitVec.ofNat 32 (elem (m.vsrc o.a 4) 4 j)) else z)
      ((List.range 1024).map (m.core.accWord (o.d.setWidth 2)))) 0)) :=
  onUnit_idle hu rfl

end

/-- Settles O26: each command's checks, then its body with the unit (`onUnit_idle`, `onUnit_run`). -/
theorem matrixCommands : Obligations.MatrixCommands := by
  intro s m
  refine ⟨fun o j mu m1 m2 hj hc ha hu hm hs hq => ?_, fun o j mu m1 m2 hj hc ha hu hm hs hq => ?_,
    fun o gs t j mu m0 m1 m2 hca hcb hcc hbc haa hab hac hd ha hu hm ht hg hr hia hib hj hs hq => ?_,
    fun o hu => completes_of_effect (exec_mzero ..) (opMzero_ok hu),
    fun o rho kap mu m1 m2 m3 m4 f hcb hbb hcc hbc hab hac ha hu hm hrho hkap hf h3 hq => ?_,
    fun o rows mu m1 m2 hc hr hal hst ha hu hm hx hq => completes_of_effect (exec_mldz ..) (opMldz_ok ha hu hr hal hst hc hm hx hq),
    fun o mu m0 m1 m2 hs hc hr hal hst ha hu hm hrel hx hq =>
      completes_of_effect (exec_mstz ..) (opMstz_ok ha hu hr hal hst hs hc hm hrel hx hq),
    fun o hu => completes_of_effect (exec_mrd ..) (opMrd_ok hu), fun o hu => completes_of_effect (exec_mwr ..) (opMwr_ok hu)⟩
  · subst hj
    exact completes_of_effect (exec_mmul ..) (mulWith_ok (qn := false) ha hu rfl hc hm hs hq)
  · subst hj
    exact completes_of_effect (exec_mq4 ..) (mulWith_ok (qn := true) ha hu rfl hc hm hs hq)
  · subst hm
    exact completes_of_effect (exec_mgrp ..) (opMgrp_ok ha hu hca hcb hcc hbc haa hab hac hd ht hg hr hia hib hj hs hq)
  · subst hf
    exact completes_of_effect (exec_msacc ..) (opMsacc_ok ha hu hcb hbb hcc hbc hab hac hm hrho hkap h3 hq)

/-! ## Tiles, recurrence and remote commands -/

section
variable {m m1 m2 m3 : M} {o : XOp}

theorem forgetInputs_ok {m0 : M} (m : M) : forgetInputs m0 (.ok m) = .ok m := rfl

/-- The accumulator's K-steps from the first, the holds given up, `ROWPROG` cleared. -/
def tileProduct (m : M) (o : XOp) (fmt : MFmt) (n : Nat) (as bs : List Nat) : M :=
  let m' := M.tileSteps (o.d.setWidth 2) fmt (m.xrm o) as bs (List.range n) m
  { m' with st := m'.st.dropHeld m'.thr.held, thr := { m'.thr with rowprog := 0 } }

theorem opMmult_ok {ra rb : TRef} {fmt : MFmt} {as bs : List Nat} {m4 : M} (hra : m.tileOperand o.a o = .ok ra) (hrb : m.tileOperand o.x.b o = .ok rb)
    (ha : m.acqPending = false) (hf : MFmt.ofTile (Cap.tileFmt ra.c) = some fmt)
    (hs : (Cap.tileFmt ra.c != Cap.tileFmt rb.c || Cap.tileCols ra.c != Cap.tileCols rb.c || decide (32 < Cap.tileRows ra.c)
      || decide (32 < Cap.tileRows rb.c)) = false)
    (has : m.tileRows ra o 0 = .ok (m1, as)) (hbs : m1.tileRows rb o 1 = .ok (m2, bs)) (hu : UnitIdle m2)
    (hq : (withUnit m2 [o.d.setWidth 2]).acquire o.x.sc = .ok m3) (hp : m3.thr.rowprog = 0)
    (hx : (tileProduct m3 o fmt ((Cap.tileCols ra.c + fmt.k - 1) / fmt.k) as bs).matAcquire o = .ok m4) :
    opMmult o m = .ok (m4.runFor [o.d.setWidth 2] (16 * ((Cap.tileCols ra.c + fmt.k - 1) / fmt.k))) := by
  simp only [opMmult]
  refine withHolds_ok ?_
  simp only [hra, hrb, ha, stallIf_false, hf, hs, trapIf_false, has, hbs, bind, Except.bind]
  refine (congrArg (forgetInputs m) (onUnit_run hu ?_)).trans (forgetInputs_ok _)
  have hv : (0 : W64).getLsbD 63 = false := rfl
  simp only [hq, hp, hv, Bool.false_and, Bool.false_eq_true, if_false, List.drop_zero, List.length_range]
  change ((tileProduct m3 o fmt _ as bs).matAcquire o >>= fun m => pure (m.runFor [o.d.setWidth 2] (16 * _))) = _
  rw [hx]
  rfl

theorem opMrec_ok {g : FFmt} {n xs ws : Nat} {mu : M} (hf : recFormat o.x.t2 = (g, n)) (hca : matCap o.a (m.src o.a) .ld = .ok ())
    (hba : checkBounds (m.src o.a) (m.src o.a).cursor.toNat 4096 = .ok ()) (hcb : matCap o.x.b (m.src o.x.b) .ld = .ok ())
    (hbb : checkBounds (m.src o.x.b) (m.src o.x.b).cursor.toNat (1024 * n) = .ok ()) (hal : checkAligned (m.src o.a).cursor.toNat 64 = .ok ())
    (ha : m.acqPending = false) (hu : UnitIdle m) (hm : mu = withUnit m [o.d.setWidth 2])
    (hxs : mu.asUnit.matRead (m.src o.a) (m.src o.a).cursor.toNat 4096 = .ok (m1, xs))
    (hws : m1.matRead (m.src o.x.b) (m.src o.x.b).cursor.toNat (1024 * n) = .ok (m2, ws))
    (hq : (m2.asCore.putAcc (o.d.setWidth 2) ((List.range 1024).map fun e => (M.recCell m2.asCore o g n xs ws e).1)
      ((List.range 1024).foldl (fun x e => x ||| (M.recCell m2.asCore o g n xs ws e).2) 0)).matAcquire o = .ok m3) :
    opMrec o m = .ok (m3.runFor [o.d.setWidth 2] 40) := by
  subst hm
  simp only [opMrec, hf, hca, hba, hcb, hbb, hal, ha, stallIf_false, bind, Except.bind]
  refine onUnit_run hu ?_
  simp only [hxs, hws, hq, pure, Except.pure]

theorem opMcmd_ok {t : State} (hc : m.cmdChecks o = .ok ()) (ha : m.acqPending = false)
    (hr : (if o.x.ord.getLsbD 1 then m.release o.x.sc else .ok m) = .ok m1)
    (hx : m1.flush.acceptMatrix (m1.matrixCmd o) m1.core.die = .accepted t) :
    opMcmd o m = .ok (let m2 := m1.reload t; { m2 with thr := { m2.thr with mcmdOut := m2.thr.mcmdOut + 1 } }) := by
  simp only [opMcmd, hc, ha, stallIf_false, bind, Except.bind]
  split at hr
  case isTrue hb => simp only [hb, if_true, hr, hx, pure, Except.pure]
  case isFalse hb =>
    obtain rfl := Except.ok.inj hr
    simp only [hb, Bool.false_eq_true, if_false, pure, Except.pure, hx]

/-- A clear has no operands to check. -/
theorem cmdChecks_clear (ho : o.x.imm.toNat % 4 = 2) (ht : (m.src o.a).tag = true) (hk : (m.src o.a).kind = 5)
    (hd : (m.src o.a).bits.getLsbD (40 + o.d.toNat) = true) (hp : (m.src o.a).bits.getLsbD 105 = true) : m.cmdChecks o = .ok () := by
  have hc : checkCap o.a (m.src o.a) [5] [] = .ok () := checkCap_ok ht (by rw [hk]; rfl) rfl
  simp only [M.cmdChecks, ho, if_true, hc, hd, hp, Bool.not_true, Bool.or_self, trapIf_false, bind, Except.bind]

theorem opMwait_acquires (ho : m.thr.mcmdOut = 0) (hr : (m.st.quad m.core.quadId).remq = []) (ha : (m.st.quad m.core.quadId).act = none)
    (he : m.thr.mcmdErr = none) : opMwait o m = m.acquire 0 := by
  simp only [opMwait, Quad.cmd?, ho, hr, ha, he, bne_self_eq_false, List.any_nil, Option.elim_none, Bool.or_self, stallIf_false, bind, Except.bind]

end

/-- Settles O27: as O26; `mcmd` is its sender's checks and the target's answer. -/
theorem matrixTilesAndRemote : Obligations.MatrixTilesAndRemote := by
  intro s m
  refine ⟨fun o ra rb fmt as bs m1 m2 m3 m4 hra hrb ha hf hs has hbs hu hq hp hx =>
      completes_of_effect (exec_mmult ..) (opMmult_ok hra hrb ha hf hs has hbs hu hq hp hx),
    fun o g n xs ws mu m1 m2 m3 f hf hca hba hcb hbb hal ha hu hm hxs hws hg hq => ?_, fun o => completes_of_effect (exec_mcmdGrant ..) rfl,
    fun o m1 t hc ha hr hx => completes_of_effect (exec_mcmd ..) (opMcmd_ok hc ha hr hx),
    fun o ho ht hk hd hp => cmdChecks_clear ho ht hk hd hp,
    fun o m1 ho hr ha he hq => completes_of_effect (exec_mwait ..) ((opMwait_acquires ho hr ha he).trans hq)⟩
  subst hg
  exact completes_of_effect (exec_mrec ..) (opMrec_ok hf hca hba hcb hbb hal ha hu hm hxs hws hq)

end Sys2Proof.Machine
end

section
/-!
Launch instructions (R390).
-/
namespace Sys2Proof.Machine
open Sys2Proof Sys2Proof.Safety

/-! ## Submitting a record -/

section
variable {m : M} {d : F6} {r : LRec} {addr : Nat}

theorem submit_accepted {t : State} {l : BitVec 16} (hc : m.st.launchCode m.core.die (m.st.ctxDesc m.core.ctx) r = 0)
    (hr : m.st.launchRoom m.core.die r = true) (hx : m.flush.acceptLaunch m.core.die m.core.ctx (m.st.ctxDesc m.core.ctx) r = (t, l)) :
    m.submit d r addr = .ok ((m.reload t).wrInt d (l.setWidth 64)) := by
  simp only [M.submit, hc, ne_eq, not_true, if_false, hr, Bool.not_true, Bool.false_eq_true, hx]

theorem submit_rejected (hc : m.st.launchCode m.core.die (m.st.ctxDesc m.core.ctx) r ≠ 0) :
    m.submit d r addr = .ok ((m.world fun s => s.reject m.core.die m.core.ctx (m.st.ctxDesc m.core.ctx) r
      (m.st.launchCode m.core.die (m.st.ctxDesc m.core.ctx) r) addr).wrInt d (failValue 0 (m.st.launchCode m.core.die (m.st.ctxDesc m.core.ctx) r))) := by
  simp only [M.submit, if_pos hc]

end

section
variable {m m1 : M} {o : XOp} (hs : m.restart = false) (ha : m.acqPending = false) (hrel : m.release 4 = .ok m1)
include hs ha hrel

/-- `launch` after its checks and its release submits the record it reads. -/
theorem opLaunch_submits {m2 : M} {ws : List W64} (hc : checkCap o.a (m.src o.a) [0, 1] [.ld] = .ok ())
    (hb : checkBounds (m.src o.a) (m.src o.a).cursor.toNat 256 = .ok ()) (hal : (m.src o.a).cursor.toNat % 8 = 0)
    (hl : m1.loadWords (m.src o.a) (m.src o.a).cursor.toNat 32 = .ok (m2, ws)) :
    opLaunch o m = m2.submit o.d (LRec.of (packWords ws)) (m.src o.a).cursor.toNat := by
  simp only [opLaunch, hs, trapIf_false, hc, hb, checkAligned_ok hal, ha, stallIf_false, hrel, hl, bind, Except.bind]

/-- The record of a `tspawn`: the launch's own, with the entry, the count, the completion word and the argument that it names. -/
def spawnRecord (m m1 : M) (o : XOp) : LRec :=
  { m1.core.lrec with
    entry := (m.src o.a).cursor, n := (m.int o.x.b).toNat, ngate := 0, cver := false, ctarget := (m.src o.x.c).cursor, cval := 0
    args := [m1.int o.x.e, 0, 0, 0, 0, 0]
    reservedOk := m1.core.lrec.reservedOk && decide (1 ≤ (m.int o.x.b).toNat ∧ (m.int o.x.b).toNat ≤ 2 ^ 24) }

theorem opTspawn_submits (hc : checkCap o.a (m.src o.a) [0] [.ex] = .ok ()) (hd : checkCap o.x.c (m.src o.x.c) [0] [.st, .fe] = .ok ())
    (hb : checkBounds (m.src o.x.c) (m.src o.x.c).cursor.toNat 8 = .ok ()) (hal : (m.src o.x.c).cursor.toNat % 8 = 0) :
    opTspawn o m = m1.submit o.d (spawnRecord m m1 o) 0 := by
  simp only [opTspawn, hs, trapIf_false, hc, hd, hb, checkAligned_ok hal, ha, stallIf_false, hrel, bind, Except.bind, spawnRecord]

end

/-! ## Waiting and priorities -/

section
variable {m m1 : M} {o : XOp} {x : Launch}

theorem opLwait_ended (hx : m.st.launch? ((m.int o.a).setWidth 16) = some x) (hc : x.ctx = m.core.ctx) (hp : x.phase = .free)
    (hq : m.acquire 4 = .ok m1) : opLwait o m = .ok (m1.wrInt o.d x.result) := by
  simp only [opLwait, hx, hc, ne_eq, not_true, if_false, hp, if_true, hq, bind, Except.bind, pure, Except.pure]

theorem opLwait_noLaunch (hx : m.st.launch? ((m.int o.a).setWidth 16) = none) : opLwait o m = .ok (m.wrInt o.d (failValue 0 0x12)) := by
  simp only [opLwait, hx]

theorem opLwait_otherContext (hx : m.st.launch? ((m.int o.a).setWidth 16) = some x) (hc : x.ctx ≠ m.core.ctx) :
    opLwait o m = .ok (m.wrInt o.d (failValue 0 0x12)) := by
  simp only [opLwait, hx, if_pos hc]

/-- The launch that `prio` names: zero stands for the team's own. -/
def prioLaunch (m : M) (o : XOp) : BitVec 16 := if (m.int o.a).setWidth 16 = (0 : BitVec 16) then m.core.launch else (m.int o.a).setWidth 16

theorem opPrio_noLaunch (hx : m.st.launch? (prioLaunch m o) = none) : opPrio o m = .ok (m.wrInt o.d 1) := by
  simp only [prioLaunch] at hx
  simp only [opPrio, hx]

variable (hx : m.st.launch? (prioLaunch m o) = some x)
include hx

theorem opPrio_refused (hb : x.ctx ≠ m.core.ctx ∨ x.phase = .free ∨ x.desc.ceil < fieldOf (m.int o.x.b) 5 0) :
    opPrio o m = .ok (m.wrInt o.d 1) := by
  simp only [prioLaunch] at hx
  simp only [opPrio, hx, if_pos hb]

theorem opPrio_sets {t : State} (hb : ¬(x.ctx ≠ m.core.ctx ∨ x.phase = .free ∨ x.desc.ceil < fieldOf (m.int o.x.b) 5 0))
    (ht : t = m.st.setLaunch (prioLaunch m o) fun x => { x with prio := fieldOf (m.int o.x.b) 5 0 }) :
    opPrio o m = .ok (({ m with st := if x.phase == .dispatching then t.post (.preemption (prioLaunch m o)) else t } : M).wrInt o.d 0) := by
  subst ht
  simp only [prioLaunch] at hx ⊢
  simp only [opPrio, hx, if_neg hb]

end

/-- Settles O31: `launch` and `tspawn` submit a record (`submit_accepted`, `submit_rejected`). -/
theorem launchInstructions : Obligations.LaunchInstructions := by
  intro s m
  refine ⟨fun o m1 m2 ws r d t l hs hc hb hal ha hrel hl hr hd h0 hroom hx => ?_,
    fun o m1 m2 ws r d hs hc hb hal ha hrel hl hr hd h0 => ?_, fun o m1 r d t l hs hc he hb hal ha hrel hr hd h0 hroom hx => ?_,
    fun o x m1 hx hc hp hq => completes_of_effect (exec_lwait ..) (opLwait_ended hx hc hp hq),
    fun o hx => completes_of_effect (exec_lwait ..) (opLwait_noLaunch hx),
    fun o x hx hc => completes_of_effect (exec_lwait ..) (opLwait_otherContext hx hc),
    fun o l x t hl hx hb ht => ?_, fun o l hl hx => ?_, fun o l x hl hx hb => ?_⟩
  · subst hr hd
    exact completes_of_effect (exec_launch ..) ((opLaunch_submits hs ha hrel hc hb hal hl).trans (submit_accepted h0 hroom hx))
  · subst hr hd
    exact completes_of_effect (exec_launch ..) ((opLaunch_submits hs ha hrel hc hb hal hl).trans (submit_rejected h0))
  · subst hr hd
    exact completes_of_effect (exec_tspawn ..) ((opTspawn_submits hs ha hrel hc he hb hal).trans (submit_accepted h0 hroom hx))
  · subst hl
    exact completes_of_effect (exec_prio ..) (opPrio_sets hx hb ht)
  · subst hl
    exact completes_of_effect (exec_prio ..) (opPrio_noLaunch hx)
  · subst hl
    exact completes_of_effect (exec_prio ..) (opPrio_refused hx hb)

end Sys2Proof.Machine
end
